-- ==== Sys2Proof/Word.lean ====
section
/-! DEFINITION. The word types of the Tuithal 4 and the sparse table in which the state keeps its repeated parts. -/

namespace Sys2Proof

/-- One byte (R7: multi-byte values are little-endian). -/
abbrev Byte := BitVec 8

/-- A 64-bit register or memory word. -/
abbrev W64 := BitVec 64

/-- A 16-byte work command (R38). -/
abbrev Cmd := BitVec 128

/-- A sparse table: entries with strictly rising keys, none equal to what an unlisted key reads as. -/
abbrev Tab (β : Type) := List (Nat × β)

end Sys2Proof
end

