-- ==== Sys2Proof/Syntax.lean ====
section
/-! DEFINITION. The commands that the block takes: one constructor for each row of the opcode table, with its operands. -/

namespace Sys2Proof

/-- Who makes a register access (R47, R436, R437): a context of a core, a partition's dispatch path, or the host behind a port
through one of its functions. -/
inductive Who where
  | ctx (core slot : Nat)
  | dispatch (part : Nat)
  | host (port func : Nat)
  deriving DecidableEq, Repr

/-- A register's place (R436, R437): an offset of a core's control window, or of BAR0, where a read has a length in bytes (R355) and a write
may come in a poisoned packet (R357). -/
inductive RegAddr where
  | win (core off : Nat)
  | bar0 (off : Nat) (len : Nat := 8) (poisoned : Bool := false)
  deriving DecidableEq, Repr

/-- A frame as it reaches the ingress stages of R252, with the port it came in on. -/
structure Frame where
  port : Nat
  bytes : List Byte
  fcsOk : Bool
  deriving DecidableEq, Repr

/-- An ARP or Neighbor Discovery frame (R249). -/
inductive Resolution where
  | request
  | answer (mac : Nat)
  deriving DecidableEq, Repr

/-- How a host read's completion failed (R360). -/
inductive CplKind where
  | ur | ca | ep
  deriving DecidableEq, Repr

/-- The filtered board inputs (R430). -/
inductive BoardInput where
  | sagInN | thermInN | devResetN | perstA | perstB
  deriving DecidableEq, Repr

/-- The commands of the block: one constructor for each row of the opcode table. -/
inductive Instr where
  -- Control core (chapter 1)
  | wcmdPush (core slot : Nat) (w : BitVec 32)
  | tokWait (core slot : Nat) (w : BitVec 32)
  | tokSignal (core slot : Nat) (w : BitVec 32)
  | tokRead (core slot : Nat) (w : BitVec 32)
  | ctrRead (core slot : Nat) (w : BitVec 32)
  | ctxYield (core slot : Nat) (w : BitVec 32)
  | seqCtlReadPointer (core slot : Nat) (w : BitVec 32)
  | seqCtlSetPointer (core slot : Nat) (w : BitVec 32)
  | seqCtlPause (core slot : Nat) (w : BitVec 32)
  | seqCtlResume (core slot : Nat) (w : BitVec 32)
  | ctxCtlStart (core slot : Nat) (w : BitVec 32)
  | ctxCtlStop (core slot : Nat) (w : BitVec 32)
  | ctxCtlSwapOut (core slot : Nat) (w : BitVec 32)
  | ctxCtlSwapIn (core slot : Nat) (w : BitVec 32)
  | tokRemote (core slot : Nat) (w : BitVec 32)
  | controlCoreAccess (core slot : Nat) (w : BitVec 32)
  | controlCoreInstruction (core slot : Nat) (w : BitVec 32)
  -- Control work commands (Table 1.7)
  | nop (core slot : Nat)
  | wait (core slot : Nat)
  | waitTimeout (core lctx : Nat)
  | signal (core slot : Nat)
  | fence (core slot : Nat)
  | loop (core slot : Nat)
  | endloop (core slot : Nat)
  | jump (core slot : Nat)
  | call (core slot : Nat)
  | yield (core slot : Nat)
  | halt (core slot : Nat)
  -- Sequencer, swaps and signals
  | commandFetch (core slot : Nat)
  | swapOnBlock (core : Nat)
  | swapQuantumExpiry (core lctx : Nat)
  | freeSlotAdmission (core : Nat)
  | swapImageWrite (core : Nat)
  | swapEnd (core : Nat)
  | serviceContextOverdue (core : Nat)
  | remoteSignalArrival (core : Nat)
  -- Core register writes
  | toksigLWrite (who : Who) (core l : Nat) (v : W64)
  | ctxCtrlStart (who : Who) (core slot : Nat) (v : W64)
  | ctxCtrlStop (who : Who) (core slot : Nat) (v : W64)
  | ctxCmdptrWrite (who : Who) (core slot : Nat) (v : W64)
  | registerWrite (who : Who) (r : RegAddr) (v : W64)
  | rcRegisterRead (who : Who) (r : RegAddr)
  -- Matrix commands
  | mm (core slot : Nat)
  | mmWide (core slot : Nat)
  | mmSemi (core slot : Nat)
  | mmDist (core slot : Nat)
  | mmCmp (core slot : Nat)
  | mmF32x3 (core slot : Nat)
  | loadW (core slot : Nat)
  | drainAcc (core slot : Nat)
  -- Matrix engine events
  | passComplete (core : Nat)
  | drainComplete (core : Nat)
  | accSlotSpill (core slot : Nat)
  | accSlotReload (core slot : Nat)
  | arrayFault (core array : Nat) (parity : Bool)
  | rowTestComplete (core array : Nat) (row : Option Nat)
  | arrRepairWrite (who : Who) (core array : Nat) (v : W64)
  -- Vector commands
  | vop (core slot : Nat)
  | vfunc (core slot : Nat)
  | vderiv (core slot : Nat)
  | vreduce (core slot : Nat)
  | vnormBwd (core slot : Nat)
  | vsoftmaxBwd (core slot : Nat)
  | vcompress1 (core slot : Nat)
  | vdecompSum (core slot : Nat)
  | vrand (core slot : Nat)
  | vconvert (core slot : Nat)
  | vdigest (core slot : Nat)
  -- Vector engine events
  | segmentStart (core : Nat)
  | laneFault (core : Nat)
  | vectorSuspend (core : Nat)
  | vectorResume (core slot : Nat)
  -- Scratch banks, aliases and the mesh
  | guestGrant (core bank : Nat)
  | setAliasStore (core slot : Nat) (w : BitVec 32)
  | setAliasLoad (core slot : Nat) (w : BitVec 32)
  | clearAliasStore (core slot : Nat) (w : BitVec 32)
  | clearAliasLoad (core slot : Nat) (w : BitVec 32)
  | bankTargetOn (who : Who) (core bank : Nat)
  | bankTargetRetention (who : Who) (core bank : Nat)
  | bankTargetOff (who : Who) (core bank : Nat)
  | bankIdleRetention (core bank : Nat)
  | bankRetentionEntry (core bank : Nat)
  | bankOffEntry (core bank : Nat)
  | bankWakeElapsed (core bank : Nat)
  | remoteRequest (core : Nat)
  | remoteResponse (core : Nat)
  | circCfgWrite (who : Who) (core k : Nat) (v : W64)
  | circHeadWrite (who : Who) (core k : Nat) (v : W64)
  | bbWrite (who : Who) (core slot pair : Nat) (limit : Bool) (v : W64)
  -- Stream commands
  | arm (core slot : Nat)
  | streamIn (core slot : Nat)
  | streamOut (core slot : Nat)
  | transposeIn (core slot : Nat)
  | swapHalves (core slot : Nat)
  | copyRemote (core slot : Nat)
  | chainW (core slot : Nat)
  -- Stream engine events
  | transferComplete (core n : Nat)
  | transferFailure (core n : Nat)
  | transferSuspend (core n : Nat)
  | prefetch (core slot : Nat)
  | chainLineArrival (core : Nat)
  | slotAssign (who : Who) (core n lctx : Nat)
  | slotUnassign (who : Who) (core n : Nat)
  | chainCfgWrite (who : Who) (core : Nat) (v : W64)
  -- Checkpoint commands
  | pushCkpt (core slot : Nat)
  | popCkpt (core slot : Nat)
  | peekCkpt (core slot : Nat)
  | replayBegin (core slot : Nat)
  | replayEnd (core slot : Nat)
  -- Larder events
  | spillAhead (core : Nat)
  | recordSpillComplete (core : Nat)
  | fetchBack (core : Nat)
  | fetchBackComplete (core : Nat)
  | larderCfgWrite (who : Who) (core : Nat) (spill : Bool) (v : W64)
  -- Memory and translation
  | pageWalk (die part : Nat) (va : Nat)
  | migrationComplete (part : Nat) (va : Nat)
  | pseudoChannelLoss (stack pc : Nat)
  | uncorrectableError (pa : Nat) (correctable : Bool)
  | scratchUncorrectable (core off : Nat) (correctable : Bool)
  | patrolScrub (stack : Nat)
  | bar2Read (port func : Nat) (off len : Nat)
  | bar2Write (port func : Nat) (off : Nat) (data : List Byte) (poisoned : Bool)
  -- Update commands
  | updateBlocks (core slot : Nat)
  | gradMerge (core slot : Nat)
  | commitShadow (core slot : Nat)
  | discardShadow (core slot : Nat)
  -- Update engine events
  | updateAccept (part : Nat)
  | runComplete (part : Nat)
  | updateEngineFault (part : Nat)
  | shadowCommit (part : Nat)
  | shadowDiscard (part : Nat)
  -- Fabric ports
  | portUp (p : Nat)
  | alignmentLoss (lane : Nat)
  | fecWindowEnd (p corrected uncorrectable : Nat)
  | linkRemoteFault (p : Nat)
  | linkRetry (p : Nat)
  | quadConfigWrite (who : Who) (q : Nat) (v : W64)
  | frameReceive (f : Frame)
  | neighbourResolution (p : Nat) (r : Resolution)
  | pfcPause (p prio : Nat) (on : Bool)
  | pfcWatchdog (p prio : Nat)
  | pfcIgnoreExpiry (p prio : Nat)
  -- Jigrail transport
  | hsInit (peer : Nat)
  | hsResp (peer : Nat)
  | hsFin (peer : Nat)
  | hsReject (peer : Nat)
  | hsTokenRefill (p : Nat)
  | handshakeStart (peer : Nat)
  | hsInitRetry (peer : Nat)
  | handshakeCrossRetry (peer : Nat)
  | data (peer : Nat)
  | ack (peer : Nat)
  | cnp (peer : Nat)
  | ackTimer (peer : Nat)
  | retransmitTimeout (peer : Nat)
  | dataTransmit (peer : Nat)
  | rateEpoch
  | rekey (peer : Nat)
  | peerDeath (peer : Nat)
  | peerFailedExpiry (peer : Nat)
  | peerDownExpiry (peer : Nat)
  -- Collective commands and events
  | contrib (core slot : Nat)
  | ownerSum (core slot : Nat)
  | ownerSumStart (core : Nat)
  | ownerSumVotetExpiry (core : Nat)
  | paramBcast (core slot : Nat)
  | stepVote (core slot : Nat)
  | voteReady (part : Nat)
  | ringPass (core slot : Nat)
  | contributionLanding (part : Nat)
  | broadcastLanding (part : Nat)
  | contributionWindowClose (part : Nat)
  | broadcastWindowClose (part : Nat)
  | voteReceive (part : Nat)
  | voteTimeout (part : Nat)
  | decisionReceive (part : Nat)
  | decisionTimeout (part : Nat)
  | ringLanding (part : Nat)
  | ringCredit (part : Nat)
  | collGrpWrite (who : Who) (part : Nat) (v : W64)
  | collStateWrite (who : Who) (part : Nat) (v : W64)
  -- Power, clocks and serving
  | refillTick
  | headReservation (core slot : Nat)
  | powerWindow (pin : Nat) (nonCluster : Nat)
  | fastLimiter (mean : Nat)
  | thermalWindow (readings : List (Nat × Nat))
  | clusterGate (cluster : Nat)
  | clusterWake (cluster : Nat)
  | pllOff (cluster : Nat)
  | pllLock (cluster : Nat)
  | serveStepBoundary (part : Nat)
  | pwrCapWrite (who : Who) (v : W64)
  -- Host packets
  | identify (port ring : Nat)
  | getCaps (port ring : Nat)
  | setPowerCap (port ring : Nat)
  | grantMgmt (port ring : Nat)
  | partCreate (port ring : Nat)
  | partDestroy (port ring : Nat)
  | partQuery (port ring : Nat)
  | mapPages (port ring : Nat)
  | unmap (port ring : Nat)
  | faultResolve (port ring : Nat)
  | loadStreams (port ring : Nat)
  | launch (port ring : Nat)
  | preempt (port ring : Nat)
  | resume (port ring : Nat)
  | stepBegin (port ring : Nat)
  | stepStatus (port ring : Nat)
  | peerTableSet (port ring : Nat)
  | serveConfig (port ring : Nat)
  | serveBatch (port ring : Nat)
  | testBundleLoad (port ring : Nat)
  | testRun (port ring : Nat)
  | testRunIdleStart (cluster : Nat)
  | faultLogRead (port ring : Nat)
  | attestQuote (port ring : Nat)
  | fwUpdateStage (port ring : Nat)
  | fwActivate (port ring : Nat)
  | powerState (port ring : Nat)
  -- Rings
  | sqTail (port func ring : Nat) (v : BitVec 32)
  | cqHead (port func ring : Nat) (v : BitVec 32)
  | doorbellService (port ring : Nat)
  | msixMessage (port func vec : Nat)
  | reportCopy (part : Nat)
  | ringEnable (who : Who) (ring : Nat) (v : W64)
  | ringDisable (who : Who) (ring : Nat) (v : W64)
  -- Host port events
  | perstAssert (port : Nat)
  | mgmtRoleQualify
  | perstRelease (port : Nat)
  | hotReset (port : Nat)
  | pcieLinkDown (port : Nat)
  | pfFlr (port : Nat)
  | vfFlr (port func : Nat)
  | vfEnableChange (port : Nat) (enable : Bool) (numVfs : Nat)
  | d3hotEntry (port : Nat)
  | d0Return (port : Nat)
  | completionError (port : Nat) (pa len : Nat) (kind : CplKind)
  | completionTimeout (port : Nat) (pa len : Nat)
  | atsInvalidate (port func : Nat) (part va len : Nat)
  | vectorUnmask (port func vec : Nat)
  -- Faults and recovery
  | coreLoss (core : Nat)
  | heartbeatMiss (core : Nat)
  | routeUpdateEnd
  | relaunch (part : Nat)
  | dispatchCoreLoss (k : Nat)
  | lateRevokedWrite (pa : Nat) (data : List Byte)
  | unitRetest (unit : Nat) (fails : Nat)
  | routerStall (core : Nat)
  | scrubComplete (cluster : Nat)
  | pendingFrameZeroed (frame : Nat)
  | faultRecordCommit
  -- Supplies, start-up and board inputs
  | vsbRise
  | powerUpStart
  | startUpTimeout
  | vsbLoss
  | devResetN
  | refclkSysLoss
  | sagWarning
  | shedEnd
  | saveStart
  | saveComplete
  | safeHoldRecovery
  | safeHoldCollapse
  | sagInN
  | sagInNHeld
  | thermInN
  | inputRearm (input : BoardInput)
  | thermalShutdown
  -- SMBus
  | smbDevstate
  | smbHottestReading
  | smbInputPower
  | smbVin
  | smbSaveStatus
  | smbBootStatus
  | alertResponseAddress
  -- JTAG
  | idcode
  | samplePreload
  | extest
  | clamp
  | highz
  | challenge
  | unlock (token : List Byte)
  | dbgAccess
  | bypass
  -- Further events
  | hbmShareWindow
  | refclkSysReturn
  | faultNHoldExpiry
  | loadStreamsComplete (port ring : Nat)
  | testRunComplete (port ring : Nat)
  | stageVerificationComplete (port ring : Nat)
  | boardInputGlitch (input : BoardInput)
  | reservedCommand (core slot : Nat)
  | pcieLinkUp (port speed width : Nat)
  | smbusUnlistedCommand (code : Nat)
  deriving DecidableEq, Repr

end Sys2Proof
end

