-- ==== Sys2Proof/Decode.lean ====
section
/-! DEFINITION. The command that a word spells by the opcode table's bits. The table gives its rows no bits, so no word spells a
command. -/

namespace Sys2Proof

/-- The table lists no bits for any row, so every word is refused. -/
def decodeTableWord (_nbits _w : Nat) : Option Instr := none

end Sys2Proof
end

