-- ==== Sys2Proof/Config.lean ====
section
/-! DEFINITION. What one device fixes and what the manual leaves open: constants without a body (free values), so that no
proof can see a value of them. -/

namespace Sys2Proof

/-- FREE VALUE (log 20). R100 bounds the error of the built-in functions and gives no value: `Config.fnValue func deriv fmt x`
is the result, as a bit pattern of the format, for input pattern `x` inside the table's domain. -/
opaque Config.fnValue (func : Nat) (deriv : Bool) (fmt : Nat) (x : Nat) : Nat

/-- FREE VALUE (log 20). The FP32 exponential that R103's row passes use. -/
opaque Config.expF32 (x : Nat) : Nat

/-- FREE VALUE (log 20). The FP32 reciprocal square root that R101 uses. -/
opaque Config.rsqrtF32 (x : Nat) : Nat

/-- FREE VALUE (log 21). Draw number `n` of a free-running pepper generator (R105: not reproducible). -/
opaque Config.freeDraw (n : Nat) : BitVec 64

/-- FREE VALUE (log 22). Random bytes of the entropy source (R412: handshake nonces, challenges). -/
opaque Config.entropy (n : Nat) : BitVec 256

/-! FREE VALUES (log 23): the functions of the named cryptographic standards. -/

/-- AES-256-GCM sealing (SP 800-38D): the ciphertext followed by the tag, from key, nonce, additional data and plaintext. -/
opaque Config.gcmSeal (key nonce aad plain : List Byte) : List Byte
/-- AES-256-GCM opening: the plaintext, or nothing when the tag fails. -/
opaque Config.gcmOpen (key nonce aad sealed : List Byte) : Option (List Byte)
/-- ML-KEM-768 key generation (FIPS 203): encapsulation and decapsulation keys from a seed. -/
opaque Config.kemKeyGen (seed : List Byte) : List Byte × List Byte
/-- ML-KEM-768 encapsulation: ciphertext and shared secret. -/
opaque Config.kemEncaps (ek seed : List Byte) : List Byte × List Byte
/-- ML-KEM-768 decapsulation. -/
opaque Config.kemDecaps (dk ct : List Byte) : List Byte
/-- ML-DSA-65 key generation (FIPS 204): public and private keys from the seed of R401. -/
opaque Config.dsaKeyGen (xi : List Byte) : List Byte × List Byte
/-- ML-DSA-65 signature. -/
opaque Config.dsaSign (sk msg : List Byte) : List Byte
/-- ML-DSA-65 verification. -/
opaque Config.dsaVerify (pk msg sig : List Byte) : Bool

/-- FREE VALUE (log 211). Whether the host's translation agent grants a function access to a 4 KiB page of the host bus (R359). -/
opaque Config.atsGrants (port func page : Nat) : Bool

/-- FREE VALUE (log 212). Where in scratch the body of a test bundle is placed for context 7 (R386). -/
opaque Config.bodyAt (id : Nat) : Nat

/-- FREE VALUE (log 27). The noise bits of the PUF array at a start-up, by boot counter (Table 15.6). -/
opaque Config.pufNoise (boot : Nat) : List Byte

/-- FREE VALUE (log 27). The digest in a root slot of the mask ROM, if the slot is present (R394). -/
opaque Config.rootDigest (slot : Nat) : Option (List Byte)
/-- FREE VALUE (log 27). The ROM version (Table 15.7). -/
opaque Config.romVersion : Nat
/-- FREE VALUE (log 27). What the fuzzy extractor reconstructs from the PUF and the helper data (R401); nothing when it fails. -/
opaque Config.pufSecret (helper : List Byte) : Option (List Byte)
/-- FREE VALUES (log 27). The letter and the digit of the part's silicon stepping, counted from A and from 0, and whether its grade is
X (R3). -/
opaque Config.stepLetter : Fin 26
opaque Config.stepDigit : Fin 10
opaque Config.extended : Bool
/-- FREE VALUE (log 27). The version field of IDCODE of a stepping other than B1, which R412 does not give. -/
opaque Config.idVersion : BitVec 4

/-- FREE VALUE (log 27). The digest of the unit table's retirement entries, whose layout the manual leaves open (Table 15.7), by the
units retired. -/
opaque Config.unitDigest (retired : List Nat) : List Byte

/-- FREE VALUE (log 82). The 16 bytes of an open-lease entry of the save area, whose layout the manual leaves open (Table 16.7): holder
partition, logical core, logical context, kind and target. -/
opaque Config.leaseEntry (part core lctx kind target : Nat) : List Byte

/-- FREE VALUE (log 24). A value that the manual leaves open and that no other constant of this file names. -/
opaque Config.fresh (n : Nat) : BitVec 64

/-- FREE VALUES (log 91): what the control-core registers of a context hold when it starts, by a number that each start of a context gives:
x1 to x31 as 1 to 31, f0 to f31 as 32 to 63, the program counter as 64, fcsr as 65. -/
opaque Config.startReg (start reg : Nat) : BitVec 64

/-- FREE VALUE (log 90). What the machine-information registers of context 7 read: CSR by number, on a core. -/
opaque Config.machineId (core csr : Nat) : BitVec 64

/-- FREE VALUE (log 62). The 4 KiB page of HBM that the dispatch cores take for a partition's page table, by its number (`tableKey`). -/
opaque Config.tableAt (part key : Nat) : Nat

/-- FREE VALUE (log 26). The FP64 power β^t of R233, whose way of rounding the manual leaves open. -/
opaque Config.biasPow (beta t : Nat) : Nat

/-- FREE VALUE (log 24). The padding that a wide drain leaves in its rows, by the command and the byte of the destination. -/
opaque Config.drainPad (cmd i : Nat) : Byte

/-- FREE VALUE (log 24). The index that ARGMAX or ARGMIN (`op`) gives for a row that holds no number, by the row's patterns. -/
opaque Config.noWinner (op : Nat) (row : List Nat) : Nat

/-- FREE VALUE (log 25). The sign and payload of the NaN that an operation writes in a format (by its code). -/
opaque Config.nanPayload (fmt : Nat) : Nat

end Sys2Proof
end

