-- ==== Sys2Proof/Machine/Bits.lean ====
section
/-! DEFINITION. Bit fields, sign extension, byte order and the check codes CRC-32C and the digest hash. -/

namespace Sys2Proof.Machine

/-- Bits [hi:lo] of a number (R7). -/
def bits (x : Nat) (hi lo : Nat) : Nat := (x >>> lo) % 2 ^ (hi + 1 - lo)

/-- Bit `i` of a number. -/
def bit (x i : Nat) : Bool := x.testBit i

/-- `n` placed with bit 0 at position `lo`. -/
def fld (n lo : Nat) : Nat := n <<< lo

/-- A Boolean as bit 0. -/
def b01 (b : Bool) : Nat := if b then 1 else 0

/-- Two's complement reading of a `w`-bit pattern. -/
def sgn (w x : Nat) : Int := if x % 2 ^ w < 2 ^ (w - 1) then (x % 2 ^ w : Int) else (x % 2 ^ w : Int) - 2 ^ w

/-- The `w`-bit two's complement pattern of an integer. -/
def pat (w : Nat) (x : Int) : Nat := (x % (2 ^ w : Int)).toNat

/-- Saturating increment of a 16-bit counter field. -/
def sat16 (n k : Nat) : Nat := min 0xFFFF (n + k)

/-- Round up to a multiple of `m`. -/
def roundUp (n m : Nat) : Nat := (n + m - 1) / m * m

/-- Ceiling division. -/
def cdiv (n m : Nat) : Nat := (n + m - 1) / m

/-- Little-endian reading of bytes (R7). -/
def leNat : List Byte → Nat
  | [] => 0
  | b :: t => b.toNat + 256 * leNat t

/-- The `n` little-endian bytes of a number (R7). -/
def leBytes : Nat → Nat → List Byte
  | 0, _ => []
  | n + 1, x => BitVec.ofNat 8 x :: leBytes n (x / 256)

/-- One CRC-32C step over one bit (reflected polynomial 0x82F6_3B78). -/
def crcBit (c : Nat) : Nat := if c % 2 = 1 then (c / 2) ^^^ 0x82F63B78 else c / 2

/-- One CRC-32C step over one byte. -/
def crcByte (c : Nat) (b : Byte) : Nat := Nat.repeat crcBit 8 (c ^^^ b.toNat)

/-- CRC-32C (R220). -/
def crc32c (bs : List Byte) : Nat := (bs.foldl crcByte 0xFFFFFFFF) ^^^ 0xFFFFFFFF

/-- Number of one bits among the low `n`. -/
def popcount : Nat → Nat → Nat
  | 0, _ => 0
  | n + 1, x => x % 2 + popcount n (x / 2)

/-- 64-bit rotation to the left. -/
def rotl64 (x k : Nat) : Nat := ((x <<< (k % 64)) ||| (x >>> (64 - k % 64))) % 2 ^ 64

/-- Bytes [lo, hi] of a byte string. -/
def slice (bs : List Byte) (lo hi : Nat) : List Byte := (bs.drop lo).take (hi + 1 - lo)

/-- Bytes [lo, hi] as a little-endian number. -/
def num (bs : List Byte) (lo hi : Nat) : Nat := leNat (slice bs lo hi)

end Sys2Proof.Machine
end

