-- ==== Sys2Proof/Machine/CoreState.lean ====
section
/-! DEFINITION. The state of one logical core: its contexts, engines, banks, stream slots, larder and control registers
(chapters 1 to 6). -/

namespace Sys2Proof.Machine

/-- A command pointer: base pair and offset in 16-byte units (R38). The offset is not wrapped, so a pointer past the end stays
past its bound. -/
structure Ptr where
  base : Nat := 0
  off : Nat := 0
  deriving DecidableEq, Repr

/-- A loop-stack entry: iterations left and the command after the LOOP (R44). -/
structure LoopEnt where
  count : Nat
  body : Ptr
  deriving DecidableEq, Repr

/-- A call-stack entry; `mark` is set on the entry that REPLAY_BEGIN pushes (R192). -/
structure CallEnt where
  ret : Ptr
  mark : Bool
  deriving DecidableEq, Repr

/-- A fetched command, or the status with which its position ends the context (R38). UPDATE_BLOCKS carries its immediate slot, or
the status with which that slot's position ends the context (R230, R231). `rep` tells whether the context will be in replay when it issues,
as the fetcher projects it (R193). -/
structure Fetched where
  ptr : Ptr
  w : Cmd
  bad : Option Nat := none
  rep : Bool := false
  imm : Cmd := 0
  immBad : Option Nat := none
  deriving DecidableEq, Repr

/-- A base and bound pair: the BB_BASE and BB_LIMIT values (Tables 4.9, 4.10). -/
structure Pair where
  base : W64 := 0
  limit : W64 := 0
  deriving DecidableEq, Repr

/-- A bound function table: where its image lies, the image copied at binding, and whether a line of it was poisoned then (R88, R96,
R99). -/
structure TabBind where
  base : Nat
  off : Nat
  img : List Byte
  bad : Bool := false
  deriving DecidableEq, Repr

/-- A vector command in execution or suspended: the command, its resolved operand addresses, the segments completed, its running
values, whether it took poison, and its operand extents, the destination first (R85 to R88, R127). -/
structure VecRun where
  id : Nat
  slot : Nat
  lctx : Nat
  cmd : Cmd
  ops : List Nat
  seg : Nat
  acc : List Nat
  poison : Bool
  exts : List (Nat × Nat) := []
  deriving DecidableEq, Repr

/-- State of a hardware slot's context (Table 1.14). -/
inductive CtxSt where
  | free | ready | blocked | swapOut | swapIn | halted | faulted | killed
  deriving DecidableEq, Repr

/-- One context: what a hardware slot, or the save image of Table 1.4, holds. `taint` marks the registers of the control core whose value was
derived from poison (x0 to x31 as bits 0 to 31, f0 to f31 as bits 32 to 63; R219); `ccLoad` is the number of a remote load whose data the
control core waits for. `rdyAt` is the cycle since which the head has been ready (R24), `waitAt` the one since which a WAIT stands at the
head (R45). `cause` is why the head did not issue when it was last asked, at a tick or by an attempt (R27, R308). In the record of a
swapped-out context `xs`, `fs` and `sctr` hold only what has changed since its image was written: registers written, and counts added
(R31). -/
structure Ctx where
  st : CtxSt := .free
  lctx : Nat := 0
  cause : Nat := 0
  lastStatus : Nat := 0
  tokovf : Bool := false
  eclass : Nat := 0
  bank : Nat := 0
  tokens : W64 := 0
  fptr : Ptr := {}
  buf : List Fetched := []
  inj : List Cmd := []
  loops : List LoopEnt := []
  calls : List CallEnt := []
  replay : Bool := false
  replays : Nat := 0
  floops : List LoopEnt := []
  fcalls : List CallEnt := []
  freplay : Bool := false
  paused : Bool := false
  pairs : Tab Pair := []
  psave : W64 := 0
  perf : Bool := false
  sctr : Tab Nat := []
  issued : Nat := 0
  tokCyc : Nat := 0
  budCyc : Nat := 0
  swapouts : Nat := 0
  totCyc : Nat := 0
  xs : Tab W64 := []
  fs : Tab W64 := []
  pc : W64 := 0
  fcsr : Nat := 0
  csrs : Tab W64 := []
  mmode : Bool := false
  taint : Nat := 0
  ccLoad : Option Nat := none
  instret : Nat := 0
  pepSeed : W64 := 0
  pepLanes : Tab (W64 × W64) := []
  pmode : Bool := false
  fwd : Option TabBind := none
  sec : Option TabBind := none
  vsusp : Option VecRun := none
  blockedAt : Nat := 0
  issuedAt : Nat := 0
  inAt : Nat := 0
  runAt : Nat := 0
  budSkips : Nat := 0
  rdyAt : Option Nat := none
  waitAt : Option Nat := none
  deriving DecidableEq, Repr

/-- Kinds of engine work that a command leaves behind after issue. -/
inductive PendKind where
  | matrix | drain | vector | stream | chain | larder | update | collective | remote
  deriving DecidableEq, Repr

/-- A command issued and not complete (R26): its context, and the token its completion signals. -/
structure Pend where
  id : Nat
  lctx : Nat
  kind : PendKind
  sig : Nat
  deriving DecidableEq, Repr

/-- A physical accumulator slot (R54, Table 2.16); `vals` lists the values that differ from the kind's identity. -/
structure AccSlot where
  held : Bool := false
  kind : Nat := 0
  hw : Nat := 0
  lctx : Nat := 0
  lslot : Nat := 0
  vals : Tab Nat := []
  poison : Bool := false
  used : Nat := 0
  deriving DecidableEq, Repr

/-- A logical slot whose values lie in the pre-emption save area (R55). -/
structure SpilledAcc where
  lctx : Nat
  lslot : Nat
  kind : Nat
  deriving DecidableEq, Repr

/-- A pass in flight (R49): operand addresses, physical slots, the preloaded tile if it took one (R64), whether that tile was
poisoned, and its faults since a row last failed (R78). -/
structure Pass where
  id : Nat
  slot : Nat
  lctx : Nat
  cmd : Cmd
  aAddr : Nat
  wAddr : Nat
  phys : Nat
  idx : Option Nat
  pre : Option (List Byte)
  bad : Bool
  faults : Nat := 0
  deriving DecidableEq, Repr

/-- A DRAIN_ACC in flight, with the earlier passes into its slot that it follows (R74). -/
structure Drain where
  id : Nat
  slot : Nat
  lctx : Nat
  cmd : Cmd
  dst : Nat
  phys : Nat
  after : List Nat
  deriving DecidableEq, Repr

/-- The preload register of LOAD_W: its tag, its context and the tile bytes (R64). -/
structure Preload where
  lctx : Nat
  tag : Nat
  tile : List Byte
  poison : Bool
  deriving DecidableEq, Repr

/-- ARR_REPAIR of one array (Table 2.15); `pending` is a write that waits for the pass boundary (R81). -/
structure ArrRepair where
  faults : Nat := 0
  runtime : Bool := false
  spareOn : Bool := false
  row : Nat := 0
  pending : Option Nat := none
  testing : Bool := false
  deriving DecidableEq, Repr

/-- MX_STATUS (Table 2.14). -/
structure MxStat where
  restarts : Nat := 0
  nowgskip : Nat := 0
  rowfault : Bool := false
  inf : Bool := false
  nan : Bool := false
  sat : Bool := false
  deriving DecidableEq, Repr

/-- VX_STATUS (Table 3.12). -/
structure VxStat where
  restarts : Nat := 0
  suspends : Nat := 0
  digmis : Bool := false
  cmpnan : Bool := false
  inf : Bool := false
  nan : Bool := false
  sat : Bool := false
  deriving DecidableEq, Repr

/-- What a remote request asks at its target (R138, Table 4.7). -/
inductive RemOp where
  | load (size : Nat)
  | store (size : Nat) (v : W64)
  | amo (f5 size : Nat) (v : W64)
  | signal (lctx mask : Nat)
  deriving DecidableEq, Repr

/-- A remote request in the mesh, or its answer: a status and the data (R139, R140). `poison` travels with the data (R219). -/
structure RemMsg where
  src : Nat
  slot : Nat
  lctx : Nat
  svc : Bool
  addr : Nat
  op : RemOp
  rd : Nat
  signed : Bool
  fp : Bool
  id : Nat
  poison : Bool := false
  answer : Option (Nat × W64) := none
  deriving DecidableEq, Repr

/-- Bank power states (Table 4.4). -/
inductive BankSt where
  | on | toRet | ret | wake | toOff | off
  deriving DecidableEq, Repr

/-- One bank's power state, target, held accesses (R128), whether the wake follows off, and the core cycle of its last guest grant
(R121). -/
structure Bank where
  st : BankSt := .on
  target : Nat := 0
  held : List RemMsg := []
  fromOff : Bool := false
  guestAt : Option Nat := none
  deriving DecidableEq, Repr

/-- A circular region (Tables 4.11, 4.12). Positions count 16-byte units from START. `pendHead` is a head
write that waits for commands that read the region, by their numbers (R137). -/
structure Circ where
  en : Bool := false
  tok : Nat := 0xF
  lctx : Nat := 0
  chunk : Nat := 0
  size : Nat := 0
  start : Nat := 0
  headPos : Nat := 0
  headWrap : Bool := false
  tailPos : Nat := 0
  tailWrap : Bool := false
  pendHead : Option (Nat × List Nat) := none
  deriving DecidableEq, Repr

/-- A lock lease (R125). -/
structure Lease where
  addr : Nat
  core : Nat
  lctx : Nat
  part : Nat
  deriving DecidableEq, Repr

/-- SCR_STATUS, LOCK_STATUS and MESH_STATUS counters (Tables 4.15 to 4.17). -/
structure ScrStat where
  corrected : Nat := 0
  poisoned : Nat := 0
  wakes : Nat := 0
  offrefused : Nat := 0
  lockfull : Nat := 0
  guests : Nat := 0
  remdenied : Nat := 0
  deriving DecidableEq, Repr

/-- Direction and shape of a queued transfer (R153, R170). -/
inductive XKind where
  | streamIn | streamOut | transposeIn | chainHead
  deriving DecidableEq, Repr

/-- A transfer handed off to its slot (R154): its descriptor, near start, far starts and the elements already moved. -/
structure Xfer where
  id : Nat
  hw : Nat
  lctx : Nat
  kind : XKind
  desc : BitVec 512
  near : Nat
  circ : Option Nat
  far : Nat
  sfar : Nat
  len : Nat
  done : Nat := 0
  sph : Bool := false
  deriving DecidableEq, Repr

/-- States of a stream slot (Table 5.3). -/
inductive StSt where
  | unassigned | empty | armed | active | suspended
  deriving DecidableEq, Repr

/-- A stream slot (R146, R151, Table 5.11). `shadowAt` counts the queued transfers that still use the active descriptor. -/
structure StSlot where
  owned : Bool := false
  lctx : Nat := 0
  st : StSt := .unassigned
  desc : BitVec 512 := 0
  far : Nat := 0
  sfar : Nat := 0
  gen : Nat := 0
  hsel : Bool := false
  shadow : Option (BitVec 512) := none
  sfarS : Nat := 0
  farS : Nat := 0
  shadowAt : Nat := 0
  queue : List Xfer := []
  idx : List Nat := []
  sph : Bool := false
  faultVa : Nat := 0
  deriving DecidableEq, Repr

/-- A prefetched line in the line buffer (R163, R165). -/
structure PfLine where
  lctx : Nat
  slot : Nat
  gen : Nat
  far : Nat
  line : Nat
  data : List Byte
  poison : Bool
  deriving DecidableEq, Repr

/-- A CHAIN_W in flight (R170): role 0 head, 1 relay, 2 tail; whether its header has been received, or sent by a head; and the lines
received. -/
structure ChainRun where
  id : Nat
  hw : Nat
  lctx : Nat
  cmd : Cmd
  near : Nat
  hdr : Bool
  pos : Nat
  deriving DecidableEq, Repr

/-- A chain message: a header, or one line with the poison of its 64-byte pieces (R219). -/
inductive ChainMsg where
  | hdr (tag len : Nat)
  | line (data : List Byte) (bad : List Bool)
  deriving DecidableEq, Repr

/-- States of a larder record (Table 6.2). -/
inductive RecSt where
  | onChip | spilling | spilled | fetching | failed
  deriving DecidableEq, Repr

/-- A larder record's index entry (R183): header fields, state, first line on chip, and offset in the spill region. -/
structure Rec where
  rlen : Nat
  dlen : Nat
  step : Nat
  block : Nat
  pep : Bool
  prev : Nat
  st : RecSt
  line : Nat
  spill : Nat
  deriving DecidableEq, Repr

/-- The larder (R181 to R186, Tables 6.9 to 6.12). `recs` has the top record first; `dir` is the last completed direction;
`waiting` and `waitingInj` say that the wait of the fetched or injected command at the head has been counted (R185). -/
structure Larder where
  en : Bool := false
  owner : Nat := 0
  lowater : Nat := 0
  size : Nat := 0
  start : Nat := 0
  spillAddr : Nat := 0
  spillPages : Nat := 0
  recs : List Rec := []
  dir : Option Bool := none
  waiting : Bool := false
  waitingInj : Bool := false
  spills : Nat := 0
  fetches : Nat := 0
  pushwaits : Nat := 0
  popwaits : Nat := 0
  deriving DecidableEq, Repr

/-- A swap in progress (R31): the slot, the outgoing context if any, the incoming logical context if any, and whether the second
part has begun. -/
structure Swap where
  slot : Nat
  out : Bool
  hold : Bool
  inl : Option Nat
  second : Bool
  deriving DecidableEq, Repr

/-- An entry of a translation cache (R213, Table 7.5): partition, level of the entry, 2 or 3, index and entry. -/
structure TlbEnt where
  part : Nat
  level : Nat
  index : Nat
  entry : W64
  deriving DecidableEq, Repr

/-- One logical core. `givenUp` lists the prefetches given up at translation, by logical context, slot, GEN and projected FAR (R164).
`cycles` is the cycle counter of its control core and `clk` the core cycles by which its own waits are timed, both in 25ths of a cycle.
`chainSet` says that CHAIN_CFG has been written since reset; the messages of the chain link and its receive buffer carry the core that sent
them. `stTlb` and `ckTlb` are the translation caches of the stream engine and of the checkpoint-stack engine, the entry used last in front
(R213). `asleep` says that its clock is gated until the next refill tick, because no ready head fits the account (R308). -/
structure Core where
  swapEn : Bool := true
  quantum : Nat := 0x186A0
  slots : Tab Ctx := []
  images : Tab Ctx := []
  ended : Tab CtxSt := []
  heldL : List Nat := []
  readyCnt : Tab Nat := []
  sigBuf : List (Nat × Nat) := []
  swap : Option Swap := none
  swapQ : List Swap := []
  lastIssue : Option Nat := none
  ccRun : Option Nat := none
  reserved : Option Nat := none
  nextId : Nat := 1
  stamp : Nat := 1
  pend : List Pend := []
  acc : Tab AccSlot := []
  spilledAcc : List SpilledAcc := []
  passes : List Pass := []
  restart : List Pass := []
  drain : Option Drain := none
  pre : Option Preload := none
  arrays : Tab ArrRepair := []
  mx : MxStat := {}
  vec : Option VecRun := none
  vx : VxStat := {}
  banks : Tab Bank := []
  circ : Tab Circ := []
  locks : List Lease := []
  scr : ScrStat := {}
  outR : Nat := 0
  outW : Nat := 0
  arriving : List RemMsg := []
  answers : List RemMsg := []
  stSlots : Tab StSlot := []
  lineBuf : List PfLine := []
  givenUp : List (Nat × Nat × Nat × Nat) := []
  suspensions : Nat := 0
  descbusy : Nat := 0
  linkerr : Bool := false
  chainEn : Bool := false
  chainRx : Nat := 0
  chainNext : Nat := 0
  chainSet : Bool := false
  chainIn : List (Nat × ChainMsg) := []
  chainBuf : List (Nat × ChainMsg) := []
  chain : Option ChainRun := none
  larder : Larder := {}
  spare : Option Nat := none
  fenced : Bool := false
  stTlb : List TlbEnt := []
  ckTlb : List TlbEnt := []
  cycles : Nat := 0
  clk : Nat := 0
  asleep : Bool := false
  deriving DecidableEq, Repr

end Sys2Proof.Machine
end

