-- ==== Sys2Proof/Machine/DeviceState.lean ====
section
/-! DEFINITION. The state of the device around the cores: clusters, partitions, host ports and rings, memory controllers
(chapters 7 to 16). -/

namespace Sys2Proof.Machine

/-- Cluster clock states (Table 11.6). -/
inductive ClkSt where
  | run | gated | pllOff | locking
  deriving DecidableEq, Repr

/-- One cluster of 16 cores: its partition, power account in sub-tokens with the fraction kept (R303, R306), clock state and step, stretch
and hottest reading (Table 11.15), CL_CFG (Table 11.16), what it spent and how its cores were held in this 1 ms window (R311), and
withdrawal (R375). -/
structure Cluster where
  owner : Option Nat := none
  acct : Int := 0
  frac : Nat := 0
  clk : ClkSt := .pllOff
  step : Nat := 0
  stretch : Bool := false
  tmax : Nat := 0
  plloff : Nat := 1000
  retidle : Nat := 200
  spent : Nat := 0
  ranCyc : Nat := 0
  heldCyc : Nat := 0
  withdrawn : Bool := false
  cycAcct : Int := 0
  cycCores : List Nat := []
  deriving DecidableEq, Repr

/-- A notice of Table 12.2 that waits for, or has been given to, the partition's NOTE ring. -/
structure Notice where
  cls : Nat
  status : Nat
  detail : Nat
  value : Nat
  deriving DecidableEq, Repr

/-- An outstanding class 0 notice: one entry of the fault table (R215, R330); `big` for a page of 1 GiB. -/
structure FaultEnt where
  page : Nat
  va : Nat
  detail : Nat
  posted : Bool
  big : Bool := false
  deriving DecidableEq, Repr

/-- A packet taken and not yet acted on: its 64 bytes, its place in the order in which the device has taken packets (R333), and whether its
replies are discarded (R328, R366). -/
structure Taken where
  b : List Byte
  seq : Nat
  mute : Bool := false
  deriving DecidableEq, Repr

/-- A LAUNCH that has not ended (R341): its members, how many have ended, the first code that was not OK, its record source, and the
contexts that a relaunch starts again (R373), and whether its replies signal the ring's vector (R329). -/
structure Launch where
  port : Nat
  ring : Nat
  tag : Nat
  final : Bool
  lctx : Nat
  first : Nat
  count : Nat
  recAddr : Nat
  recStride : Nat
  v2 : Bool
  rpt : Nat
  live : List (Nat × Nat)
  ended : Nat
  code : Nat
  codeDetail : Nat
  again : List (Nat × Nat) := []
  loadsAt : Nat := 0
  mute : Bool := false
  irq : Bool := false
  deriving DecidableEq, Repr

/-- An update command in the scheduler (R223): who issued it, its slots, the 64-byte merge descriptor of GRAD_MERGE, whether it is
accepted, the region entry copied then, or the entries of a COMMIT_SHADOW one after another, the step t of R233, and the runs or
regions done. -/
structure UpdCmd where
  core : Nat
  slot : Nat
  lctx : Nat
  id : Nat
  cmd : BitVec 128
  imm : BitVec 128
  desc : List Byte
  accepted : Bool
  entry : List Byte
  t : Nat
  run : Nat
  deriving DecidableEq, Repr

/-- UPD_RTAB, UPD_EVT and UPD_BLKS of one partition (Tables 8.12 to 8.14). -/
structure UpdRegs where
  rtab : W64 := 0
  skew : Nat := 0
  frozen : Nat := 0
  nonfin : Nat := 0
  restarts : Nat := 0
  commits : Nat := 0
  blks : Nat := 0
  deriving DecidableEq, Repr

/-- A 2 KiB block of a partition's attic cache (R218): its block number, data, the poison and CV of its 32 lines, and its check value,
absent when that reads poisoned. -/
structure CacheBlk where
  block : Nat
  data : List Byte
  bad : List Bool
  cv : List Bool
  check : Option Nat
  deriving DecidableEq, Repr

/-- The translation caches of a die (Table 7.5): page entries, and the walk cache's table entries of levels 1 and 2; newest first. -/
structure DieTlb where
  pages : List TlbEnt := []
  tables : List TlbEnt := []
  deriving DecidableEq, Repr

/-- What the SPD of an attic DIMM tells (R207, Table 7.2): type, 1 RDIMM and 2 MRDIMM, capacity in GiB, ranks, rated speed in MT/s, and
whether it has the ECC bits. -/
structure Dimm where
  type : Nat
  gib : Nat
  ranks : Nat
  rate : Nat
  ecc : Bool
  deriving DecidableEq, Repr

/-- A partition: attributes of Table 11.1, page entries of R211 by 2 MiB and by 1 GiB page number, its tables of levels 2 and 3 with
their addresses (`Part.tableKey`), the blocks of its attic cache with the one used last in front (R218), frames held, migration pool,
fault table, notices, the parts of its status page (Table 12.6a) and its jobs. -/
structure Part where
  exist : Bool := false
  port : Nat := 0
  func : Nat := 0
  params : List Byte := []
  vaLimit : Nat := 0
  hbmq : Nat := 0
  atticq : Nat := 0
  share : Nat := 0
  pstep : Nat := 0
  acache : Bool := false
  nctx : Nat := 7
  floor : Nat := 0
  ceil : Nat := 0
  v2 : Bool := false
  ptes : Tab W64 := []
  ptes1g : Tab W64 := []
  tables : Tab Nat := []
  ablocks : List CacheBlk := []
  pool : List Nat := []
  moving : Tab (Nat × Nat × Nat) := []
  faults : List FaultEnt := []
  moved : List (Nat × Nat) := []
  faultQ : List (Nat × Nat) := []
  notices : List Notice := []
  loss : Bool := false
  stSt : Nat := 0
  stLast : Nat := 0
  stSeq : Nat := 0
  progress : Nat := 0
  progOp : Option (Nat × Nat × Nat) := none
  repseq : Nat := 0
  firstFault : W64 := 0
  endedN : Nat := 0
  launchedN : Nat := 0
  lastLaunch : Option (Nat × Nat × Nat) := none
  report : List Byte := []
  ledger : Tab W64 := []
  ledgerNew : Option Nat := none
  killed : Bool := false
  faulted : Bool := false
  draining : Bool := false
  destroying : Bool := false
  preempting : List (Nat × Nat) := []
  withheld : Bool := false
  launches : List Launch := []
  updQ : List UpdCmd := []
  refill : Nat := 0
  carry : Nat := 0
  used : Nat := 0
  holdcyc : Nat := 0
  loads : List (Nat × Nat × List Byte) := []
  loadN : Nat := 0
  cover : Tab Nat := []
  deriving DecidableEq, Repr

/-- Long operations of Table 12.3 that a ring still runs, with their packets; LAUNCH keeps its own record in the partition. -/
structure LongOp where
  tag : Nat
  opcode : Nat
  part : Nat
  final : Bool
  pkt : List Byte := []
  mute : Bool := false
  deriving DecidableEq, Repr

/-- A ring pair (Tables 12.8 to 12.10). Completion head and tail are counts since EN was set; the registers show them modulo the
ring size, and PHASE follows from the tail's pass. -/
structure Ring where
  sqbase : Nat := 0
  cqbase : Nat := 0
  en : Bool := false
  v2 : Bool := false
  note : Bool := false
  ien : Bool := false
  vec : Nat := 0
  part : Nat := 0xFF
  cqsz : Nat := 4
  sqsz : Nat := 4
  sqhead : Nat := 0
  sqtail : Nat := 0
  tailNew : Option Nat := none
  cqtail : Nat := 0
  cqhead : Nat := 0
  reserved : Nat := 0
  outst : Nat := 0
  err : Bool := false
  baddb : Bool := false
  nlost : Bool := false
  stall : Bool := false
  taken : List Taken := []
  longs : List LongOp := []
  deriving DecidableEq, Repr

/-- One MSI-X vector (R362): table entry, pending bit, pacing running and entries posted since the last message (R329). -/
structure Msix where
  addr : Nat := 0
  data : Nat := 0
  masked : Bool := true
  pend : Bool := false
  pacing : Bool := false
  due : Bool := false
  deriving DecidableEq, Repr

/-- What a function reports through AER (R357, R360). -/
inductive AerEvent where
  | poisonedTlp | unsupportedRequest | completerAbort | completionTimeout
  deriving DecidableEq, Repr

/-- A translation kept for Address Translation Services: a 4 KiB page of the host bus, by function and PASID (R359). -/
structure AtsEnt where
  func : Nat
  pasid : Option Nat
  page : Nat
  deriving DecidableEq, Repr

/-- One PCI Express function of a port (Tables 13.2, 13.10, 13.11), with its enables and the events that AER has logged. -/
structure HFunc where
  win : Nat := 0
  urreads : Nat := 0
  dropwr : Nat := 0
  epreads : Nat := 0
  atsinv : Nat := 0
  busMaster : Bool := true
  msixEn : Bool := true
  atsEn : Bool := true
  relaxed : Bool := false
  aer : List AerEvent := []
  vecs : Tab Msix := []
  deriving DecidableEq, Repr

/-- One host port (chapter 13): link and reset state, the link options of its functions (`mps` and `mrrs` in bytes, completion timeout `cplto`
in milliseconds, 10-bit tags, ECRC), the sizes of BAR2 and of the VF BAR2 as powers of two, its rings, its functions, and its translations
for ATS. -/
structure HostPort where
  up : Bool := false
  speed : Nat := 0
  width : Nat := 0
  sris : Bool := false
  resets : Nat := 0
  cplerr : Nat := 0
  inReset : Bool := false
  retry : Bool := false
  d3 : Bool := false
  vfEn : Bool := false
  numVfs : Nat := 0
  mps : Nat := 128
  mrrs : Nat := 512
  cplto : Nat := 50
  tag10 : Bool := false
  ecrcGen : Bool := false
  ecrcCheck : Bool := false
  bar2 : Nat := 30
  vfBar2 : Nat := 30
  ats : List AtsEnt := []
  rings : Tab Ring := []
  funcs : Tab HFunc := []
  deriving DecidableEq, Repr

/-- HP_PART of one partition (Table 13.9). -/
structure HpPart where
  pasidEn : Bool := false
  atsEn : Bool := false
  func : Nat := 0
  pasid : Nat := 0
  deriving DecidableEq, Repr

/-- Counters of one HBM stack (Table 7.10) and its lost pseudo-channels. -/
structure Stack where
  corrected : Nat := 0
  uncorr : Nat := 0
  scrubs : Nat := 0
  lost : Nat := 0
  deriving DecidableEq, Repr

/-- ATTIC_CFG (Table 7.11), MEM_POISON (Table 7.12), and the corrected errors of each attic channel (R208). -/
structure MemStat where
  rate : Nat := 0
  dimmGib : Nat := 0
  channels : Nat := 0
  type : Nat := 0
  hostEp : Nat := 0
  kills : Nat := 0
  atticUnc : Nat := 0
  atticCorr : Tab Nat := []
  checkFail : Nat := 0
  deriving DecidableEq, Repr

/-- FLT_PART of one partition (Table 14.8). -/
structure FltPart where
  jobkill : Bool := true
  relaunch : Bool := false
  deriving DecidableEq, Repr

/-- A fault record (Table 14.3). -/
structure FaultRec where
  pons : Nat
  kind : Nat
  utype : Nat
  unit : Nat
  status : Nat
  result : Nat
  part : Nat
  bundle : Nat
  detail : Nat
  seq : Nat
  deriving DecidableEq, Repr

/-- A unit's entry in the unit table (R380): class permanent, retired, and the powered-on times of its last three errors. -/
structure UnitEnt where
  permanent : Bool := false
  retired : Bool := false
  times : List Nat := []
  deriving DecidableEq, Repr

/-- A held test bundle (Table 14.5). -/
structure Bundle where
  id : Nat
  utypes : Nat
  reclaim : Bool
  bytes : List Byte
  deriving DecidableEq, Repr

/-- A TEST_RUN that has not ended (R386): its bundle, the clusters still to run, those running, those skipped and units failed. -/
structure TestRun where
  port : Nat
  ring : Nat
  tag : Nat
  bundle : Nat
  waiting : List Nat
  running : List Nat
  skipped : Nat
  failed : Nat
  deriving DecidableEq, Repr

/-- Fault history, recovery and test state (chapter 14): records and unit-table changes that have not reached MRAM, the log and the unit
table, test bundles and runs, remaps of the route update (core and spare column), requests it holds with their target, clusters being
scrubbed, lost cores with their partition and the local time of the loss, lost spares (die and column), and lost cores that no spare serves.
-/
structure Flt where
  pend : List FaultRec := []
  log : List FaultRec := []
  nextSeq : Nat := 0
  pons : Nat := 0
  recoveries : Nat := 0
  revokes : Nat := 0
  dispok : Nat := 0xFF
  units : Tab UnitEnt := []
  unitsPend : List Nat := []
  bundles : List Bundle := []
  tests : List TestRun := []
  route : List (Nat × Nat) := []
  held : List (Nat × RemMsg) := []
  scrub : List Nat := []
  losses : List (Nat × Nat × Nat) := []
  badSpares : List Nat := []
  noSpare : List Nat := []
  deriving DecidableEq, Repr

end Sys2Proof.Machine
end

