-- ==== Sys2Proof/Machine/FabricState.lean ====
section
/-! DEFINITION. The state of the fabric, the collectives, the serving engine, the power manager, start-up and trust, and the
supplies (chapters 9 to 11, 15 and 16). -/

namespace Sys2Proof.Machine

/-! Fabric (chapter 9). -/

/-- FAB_QUAD_CFG (Table 9.12). -/
structure Quad where
  en : Bool := false
  an : Bool := true
  rate : Nat := 0
  mode : Nat := 0
  deriving DecidableEq, Repr

/-- A datagram put on the wire (R249, R261): port, UDP ports, tag and IP fields, and its bytes from the Jigrail header on; the next hop, the
two addresses, the hop limit or TTL, and the UDP checksum. -/
structure WireOut where
  port : Nat
  peer : Nat
  sport : Nat
  dport : Nat
  vid : Nat
  pcp : Nat
  dscp : Nat
  ect : Bool
  bytes : List Byte
  mac : Nat
  src : List Byte
  dst : List Byte
  hops : Nat
  cksum : Nat
  deriving DecidableEq, Repr

/-- One port: FAB_PORT_STATUS, FAB_PORT_CFG, FAB_PORT_GW (Tables 9.16, 9.17), the resolved next hop, the HS_INIT bucket (R253), the
priorities paused, those whose pause frames are ignored, whether XOFF is in force toward the link partner, the control frames that wait for
a paused priority, newest first (R249), and the deficit round
robin of the partitions, its turn and the bytes that each may still send (R269). -/
structure FabPort where
  feccorr : Nat := 0
  fecunc : Nat := 0
  downs : Nat := 0
  macdrop : Nat := 0
  up : Bool := false
  fecdeg : Nat := 32
  pfcpri : Nat := 0x08
  pfcen : Bool := false
  vid : Nat := 0
  gw : Nat := 0
  hop : Option Nat := none
  bucket : Nat := 8
  paused : List Nat := []
  ignoring : List Nat := []
  xoff : Bool := false
  waiting : List WireOut := []
  turn : Nat := 0
  deficits : Tab Nat := []
  deriving DecidableEq, Repr

/-- JIG_CFG (Table 9.13). -/
structure JigCfg where
  udp : Nat := 0xC2ED
  udp2 : Nat := 0xC2EC
  dscp : Nat := 0x1A
  ecn : Bool := true
  pcp : Nat := 3
  maxpay : Nat := 3
  rtomin : Nat := 50
  deadt : Nat := 20
  deriving DecidableEq, Repr

/-- JIG_DROPS and JIG_HSCNT (Tables 9.14, 9.15). -/
structure JigCnt where
  noaddr : Nat := 0
  stranger : Nat := 0
  badver : Nat := 0
  window : Nat := 0
  pfcwd : Nat := 0
  hsok : Nat := 0
  authfail : Nat := 0
  ratelim : Nat := 0
  tagfail : Nat := 0
  deriving DecidableEq, Repr

/-- A Jigrail packet: the header of Table 9.8 with its payload in the clear and its tag. -/
structure JPkt where
  ver : Nat
  typ : Nat
  flags : Nat
  session : Nat
  psn : Nat
  cack : Nat
  msgid : Nat
  moff : Nat
  mlen : Nat
  minfo : Nat
  payload : List Byte
  deriving DecidableEq, Repr

/-- An accepted packet that waits for its own event: packet, CE mark, port, local time of arrival, and the bytes
that its frame takes in the port's receive buffer (R249). -/
structure RxPkt where
  pkt : JPkt
  ce : Bool
  port : Nat
  at' : Nat
  size : Nat
  deriving DecidableEq, Repr

/-- A frame of the link itself (R249): the answer to a resolution request, a request for the gateway's address, or XOFF or XON for the
priorities of a mask. -/
inductive LinkOut where
  | answer (port : Nat)
  | request (port gw : Nat)
  | pause (port prios : Nat) (on : Bool)
  deriving DecidableEq, Repr

/-- A part of a message's source: device virtual memory, or bytes that the fabric engine adds. -/
inductive Seg where
  | mem (va len : Nat)
  | lit (bs : List Byte)
  deriving DecidableEq, Repr

/-- Who sent a message: a command of a context, by core, logical context and completion number, or the dispatch cores. -/
inductive Owner where
  | cmd (core lctx id : Nat)
  | vote
  deriving DecidableEq, Repr

/-- A message to a peer (R261, R269). `dig` is the digest that PARAM_BCAST appends: its STEP and SENDER, and whether block checks are
verified (R285). `next` counts the bytes already cut into packets. -/
structure JMsg where
  owner : Owner
  minfo : Nat
  segs : List Seg
  len : Nat
  dig : Option (Nat × Nat × Bool) := none
  started : Bool := false
  msgid : Nat := 0
  port : Nat := 0
  sport : Nat := 0
  next : Nat := 0
  deriving DecidableEq, Repr

/-- A DATA packet sent and not acknowledged (R262, R265, R266): its header, the CRC of its payload at first transmission, the local
times of its first and last transmission, how often it was sent, the port of the last one, and whether it waits to be sent again. -/
structure Unacked where
  hdr : JPkt
  len : Nat
  crc : Nat
  first : Nat
  last : Nat
  sends : Nat
  port : Nat
  again : Bool
  deriving DecidableEq, Repr

/-- A message that arrives: the pieces placed so far. -/
structure RxMsg where
  msgid : Nat
  len : Nat
  minfo : Nat
  parts : List (Nat × List Byte)
  deriving DecidableEq, Repr

/-- A session (R255, R259 to R264). Numbers of its two directions; keys by direction; MAXPAY, RTOMIN and DEADT as at its opening
(R272); times in quarters of a tick of local time where R265 computes them. -/
structure Session where
  sidMine : Nat
  sidPeer : Nat
  init : Bool
  kir : List Byte
  kri : List Byte
  ivir : List Byte
  ivri : List Byte
  openedAt : Nat
  maxpay : Nat
  rtomin : Nat
  deadt : Nat
  txPsn : Nat := 0
  txCack : Nat := 0
  ctlTx : Nat := 0
  ctlRx : Option Nat := none
  rxCack : Nat := 0
  rxGot : List Nat := []
  nextMsg : Nat := 0
  msgs : List JMsg := []
  unacked : List Unacked := []
  rx : List RxMsg := []
  ackOwed : Nat := 0
  srtt : Option Nat := none
  rttvar : Nat := 0
  rto : Nat := 0
  deriving DecidableEq, Repr

/-- A handshake in progress (R255, R257): whether this device is the initiator, its HS_INIT count, the payloads exchanged, the key pair of
the initiator or the secret of the responder, the two session ids, and h2 with the keys once known. `stage` is 0 after HS_INIT, 1 after
HS_RESP, 2 after HS_FIN. `crossed` marks equal NI values (R257). -/
structure Hs where
  init : Bool
  tries : Nat
  stage : Nat
  initPay : List Byte := []
  respPay : List Byte := []
  dk : List Byte := []
  ss : List Byte := []
  sidMine : Nat := 0
  sidPeer : Nat := 0
  okm : List Byte := []
  crossed : Bool := false
  deriving DecidableEq, Repr

/-- Peer states (Table 9.7). -/
inductive PeerSt where
  | unused | idle | handshake | opened | failed | down
  deriving DecidableEq, Repr

/-- One peer slot: its entry of Table 9.4, state, sessions, rate control of R268 in bit/s, queue and packets accepted,
since when no port of its mask has been up (R263), and the local time from which the next packet may go out (R268). -/
structure Peer where
  part : Nat := 0
  pidx : Nat := 0
  entry : List Byte := []
  st : PeerSt := .unused
  cur : Option Session := none
  old : Option Session := none
  hs : Option Hs := none
  queue : List JMsg := []
  rx : List RxPkt := []
  hsRx : List (Nat × RxMsg) := []
  line : Nat := 0
  rate : Nat := 0
  step : Nat := 0
  cuts : Nat := 0
  calm : Nat := 0
  cnpSeen : Bool := false
  cnpAt : Option Nat := none
  oooAt : Option Nat := none
  retx : Nat := 0
  noPortAt : Option Nat := none
  paceAt : Nat := 0
  deriving DecidableEq, Repr

/-- A message that has arrived whole: its sender's peer slot, MINFO, bytes and stamp. -/
structure Landed where
  peer : Nat
  minfo : Nat
  bytes : List Byte
  stamp : Nat
  deriving DecidableEq, Repr

/-- The fabric. `addrs` holds the local address of each partition; `wire` lists the datagrams sent, and `links` the frames
of the links themselves, newest first (log 40). -/
structure Fabric where
  quads : Tab Quad := []
  ports : Tab FabPort := []
  cfg : JigCfg := {}
  cnt : JigCnt := {}
  peers : Tab Peer := []
  addrs : Tab (List Byte) := []
  nextSid : Nat := 1
  wire : List WireOut := []
  links : List LinkOut := []
  deriving DecidableEq, Repr

/-! Collectives (chapter 10). -/

/-- A STEP_VOTE that waits (R287). -/
structure StepVote where
  core : Nat
  slot : Nat
  lctx : Nat
  id : Nat
  force : Bool
  rtok : Nat
  ctok : Nat
  deriving DecidableEq, Repr

/-- An OWNER_SUM that waits at the head of its context, and since when (R283). -/
structure OwnSum where
  core : Nat
  lctx : Nat
  cmd : BitVec 128
  at' : Nat
  deriving DecidableEq, Repr

/-- The collective state of one partition: COLL_GRP, COLL_STATE, COLL_CNT (Tables 10.9 to 10.11), the descriptor read when EN was set, the
landings of the two halves (member and chunk), the windows of R282 and R286, sends of the round that have not completed, and the vote and
decision of R287 to R291; `early` holds the decisions of rounds that are not yet current, oldest first. -/
structure Coll where
  en : Bool := false
  addr : Nat := 0
  desc : List Byte := []
  step : Nat := 0
  att : Nat := 0
  par : Nat := 0
  dec : Nat := 0
  voted : Bool := false
  ndigest : Bool := false
  nlate : Bool := false
  digest : Bool := false
  late : Bool := false
  cDigmis : Nat := 0
  cLate : Nat := 0
  cRepeats : Nat := 0
  cDropped : Nat := 0
  landed : List (Nat × Nat) := []
  landedN : List (Nat × Nat) := []
  winAt : Option Nat := none
  winDone : Bool := false
  winAtN : Option Nat := none
  winDoneN : Bool := false
  bwinAt : Option Nat := none
  bwinDone : Bool := false
  bland : List (Nat × Nat) := []
  opened : List Nat := []
  sends : List (Nat × Nat) := []
  vote : Option StepVote := none
  votes : List (List Byte) := []
  decided : Bool := false
  sums : List OwnSum := []
  credits : List (Nat × Nat) := []
  rounds : Nat := 0
  inbox : List Landed := []
  stepBegin : Option (Nat × Nat × Nat × Nat) := none
  votedAt : Nat := 0
  early : List (List Byte) := []
  deriving DecidableEq, Repr

/-! Serving (chapter 11). -/

/-- The serving configuration (Table 11.8). -/
structure ServeCfg where
  pool : Nat
  ngrp : Nat
  g : Nat
  tpp : Nat
  chunk : Nat
  budget : Nat
  entmax : Nat
  maxseq : Nat
  maxgrp : Nat
  sdesc : Nat
  plist : Nat
  donew : Nat
  score : Nat
  sctx : Nat
  stok : Nat
  deriving DecidableEq, Repr

/-- A sequence (R322): prompt length, limit of new tokens, next position, tokens generated, groups held, and a leave mark. -/
structure Seqn where
  id : Nat
  plen : Nat
  limit : Nat
  pos : Nat := 0
  gen : Nat := 0
  groups : List Nat := []
  leaving : Bool := false
  inStep : Nat := 0
  deriving DecidableEq, Repr

/-- The serving state of a partition: sequences present in admission order, joins queued, the next step, whether one is outstanding, and
whether a SERVE_BATCH has arrived since the last boundary. -/
structure Serve where
  cfg : Option ServeCfg := none
  seqs : List Seqn := []
  queue : List Seqn := []
  step : Nat := 0
  outst : Bool := false
  arrived : Bool := false
  deriving DecidableEq, Repr

/-! Power (chapter 11). -/

/-- The power manager: PWR_CAP, PWR_STATUS (Tables 11.11, 11.12), the cap in force and the one accepted, the thermal step with its
calm windows, and the fast limiter. -/
structure Pwr where
  cap : Nat := 3000
  capNext : Option Nat := none
  pin : Nat := 0
  punc : Nat := 0
  ncLast : Nat := 0
  limits : Nat := 0
  capref : Bool := false
  thstep : Nat := 0
  calm : Nat := 0
  limiting : Bool := false
  devState : Nat := 2
  deriving DecidableEq, Repr

/-! Start-up and trust (chapter 15). -/

/-- The trial record (R409, R410): the trial slot, and the staged record and revocation it names. -/
structure Trial where
  slot : Nat
  record : Bool
  revoke : Option Nat
  starts : Nat
  deriving DecidableEq, Repr

/-- One of the two copies of a trust record (R396): its sequence number, its values and its CRC-32C. -/
structure TrustCopy where
  seq : Nat := 0
  vals : List Nat := []
  crc : Nat := 0
  deriving DecidableEq, Repr

/-- Contents of MRAM by object (Table 15.1): the trust records as last read or written, with their copies by record (R396: 0 revocation
mask, 1 version floor, 2 boot counter, 3 slot roles, 4 trial record), identity, configuration records, image slots, and the save area. The
fault log, the unit table and the test bundles of MRAM stand in the fault history. -/
structure Mram where
  trust : Tab (TrustCopy × TrustCopy) := []
  revoked : Nat := 0
  floor : Nat := 0
  bootcnt : Nat := 0
  actSlot : Nat := 0
  prevSlot : Nat := 3
  stgSlot : Nat := 1
  trial : Option Trial := none
  helper : List Byte := []
  certs : List Byte := []
  record : List Byte := []
  record2 : List Byte := []
  images : Tab (List Byte) := []
  revStage : List Byte := []
  save : List Host.Cell := []
  saveValid : Bool := false
  saveReason : Nat := 0xF
  saveDur : Nat := 0
  saveBoot : Nat := 0
  deriving DecidableEq, Repr

/-- An object being staged (R408): its kind (0 image, 1 record, 2 revocation), length, bytes written, and whether it has verified. -/
structure Staging where
  len : Nat := 0
  bytes : List Host.Cell := []
  written : List (Nat × Nat) := []
  active : Bool := false
  verified : Bool := false
  deriving DecidableEq, Repr

/-- Start-up state: BOOT_STATUS, TRUST_STATUS, DBG_CTRL (Tables 15.13 to 15.15), the identity key, the measurement chain, staging (the kind
being staged; verifications that run), the activation in progress (port, ring, tag) and its final status, the configuration record in force,
the JTAG instruction with what it shifts out, and whether start-up waits at its 5 ms step for DEV_RESET_N or for REFCLK_SYS. -/
structure Boot where
  stage : Nat := 0
  fail : Nat := 0
  fallback : Bool := false
  recovery : Bool := false
  idok : Bool := false
  rootUsed : Nat := 0
  version : Nat := 0
  slot : Nat := 0
  idKey : List Byte := []
  chain : List Byte := List.replicate 64 0
  events : List (List Byte) := []
  staging : Tab Staging := []
  verifying : Tab Nat := []
  act : Option (Nat × Nat × Nat) := none
  actSt : Nat := 0
  stageKind : Option Nat := none
  recNow : List Byte := []
  allow : Bool := false
  unlocked : Bool := false
  scope : Nat := 0
  lockout : Bool := false
  fails : Nat := 0
  challenge : Option (List Byte) := none
  jtag : Nat := 0xFF
  tdo : List Byte := []
  standby : Bool := false
  waitRef : Bool := false
  deriving DecidableEq, Repr

/-! Supplies and board signals (chapter 16). -/

/-- A filtered board input (R430): active, and whether its activation has been acted on. -/
structure InputSt where
  active : Bool := false
  glitches : Nat := 0
  deriving DecidableEq, Repr

/-- SUP_STATUS and BRD_IN (Tables 16.14, 16.15), the board inputs, REFCLK_SYS, the causes of FAULT_N and SMB_ALERT_N, resets that wait for a
save or a shed to end (Table 16.8), and what is known of VIN: whether it is present, and has stood at or above 45 V for 1 ms (R419);
whether a rail is out of tolerance (Table 16.6). -/
structure Sup where
  vin : Nat := 0
  vsb : Nat := 0
  tjmax : Nat := 0
  sheds : Nat := 0
  tlatch : Bool := false
  shed : Bool := false
  warn : Bool := false
  sagIn : InputSt := {}
  therm : InputSt := {}
  reset : InputSt := {}
  perstA : InputSt := {}
  perstB : InputSt := {}
  refclk : Bool := true
  refFault : Bool := false
  alert : Bool := false
  resetPend : Bool := false
  perstPend : List Nat := []
  vinOn : Bool := true
  vinHeld : Bool := true
  railFault : Bool := false
  sensors : Tab Nat := []
  deriving DecidableEq, Repr

end Sys2Proof.Machine
end

