-- ==== Sys2Proof/Machine/State.lean ====
section
/-! DEFINITION. The state of the Tuithal 4 as one block, its queue of waiting commands, its faults and refusals, and the state
right after reset. -/

namespace Sys2Proof.Machine

/-- Reasons for which the model stops. There is none: the block goes on after every command, and a command whose operand names a unit
that the device does not have (a core above 2,047, a slot above 7, a port above 1 and so on) changes nothing (log 10). -/
inductive Fault
  deriving DecidableEq, Repr

/-- Reasons for which a command has no meaning. -/
inductive Refusal where
  /-- A command that the model does not cover; raised by arms of Dispatch.lean only. Safe. -/
  | notModelled (mnemonic : String)
  deriving DecidableEq, Repr

/-- The block. `resvs` lists the load reservations of the control cores: half-line, core and logical context; `dimms` the attic DIMMs
that the board carries, by channel (R207); `tlbs` the translation caches of the dies, and `engTlbs` those of the update engines (keys 0
to 7) and of the fabric engines (key 8) (R213). `codeErr` lists the lines of HBM whose stored end-to-end code is not the one over their
data and address: by how much the two differ (R205). -/
structure State where
  cores : Tab Core := []
  clusters : Tab Cluster := []
  parts : Tab Part := []
  hports : Tab HostPort := []
  hpParts : Tab HpPart := []
  mgmt : Nat := 0
  autofail : Bool := true
  moves : Nat := 0
  mgmtPend : Bool := false
  mem : List Host.Cell := []
  poison : List Nat := []
  cv : List Nat := []
  codeErr : Tab Nat := []
  cplBad : List Nat := []
  takeSeq : Nat := 0
  engSeed : List Byte := []
  resvs : List (Nat × Nat × Nat) := []
  hbm : Tab Stack := []
  memStat : MemStat := {}
  dimms : Tab Dimm := []
  tlbs : Tab DieTlb := []
  engTlbs : Tab (List TlbEnt) := []
  upd : Tab UpdRegs := []
  fltParts : Tab FltPart := []
  flt : Flt := {}
  retired : List Nat := []
  zeroing : List (Nat × Nat) := []
  fab : Fabric := {}
  colls : Tab Coll := []
  serves : Tab Serve := []
  pwr : Pwr := {}
  mram : Mram := {}
  boot : Boot := {}
  sup : Sup := {}
  ltime : Nat := 0
  free : Nat := 0
  busData : W64 := 0
  pending : List Instr := []
  deriving DecidableEq, Repr

/-- The block right after reset: every field at the default that its declaration states, and no command waiting. -/
def State.reset : State := {}

/-- What a command ends in. -/
abbrev Out := Host.Outcome State Fault Refusal

end Sys2Proof.Machine
end

