-- ==== Sys2Proof/Machine/Tab.lean ====
section
/-! DEFINITION. Sparse tables and sorted sets, the form in which the state keeps its repeated parts. -/

namespace Sys2Proof.Machine

/-- The entry for key `k`, if the table lists one. -/
def Tab.find {β : Type} : Tab β → Nat → Option β
  | [], _ => none
  | (j, v) :: t, k => if j = k then some v else if k < j then none else Tab.find t k

/-- The entry for key `k`, or `d`. -/
def Tab.get {β : Type} (d : β) (t : Tab β) (k : Nat) : β := (Tab.find t k).getD d

/-- Write the entry for key `k`. -/
def Tab.put {β : Type} : Tab β → Nat → β → Tab β
  | [], k, v => [(k, v)]
  | (j, w) :: t, k, v =>
    if j = k then (k, v) :: t else if k < j then (k, v) :: (j, w) :: t else (j, w) :: Tab.put t k v

/-- Remove the entry for key `k`. -/
def Tab.del {β : Type} : Tab β → Nat → Tab β
  | [], _ => []
  | (j, w) :: t, k => if j = k then t else if k < j then (j, w) :: t else (j, w) :: Tab.del t k

/-- Membership in a rising list of keys. -/
def Keys.has : List Nat → Nat → Bool
  | [], _ => false
  | j :: t, k => if j = k then true else if k < j then false else Keys.has t k

/-- Add a key to a rising list. -/
def Keys.add : List Nat → Nat → List Nat
  | [], k => [k]
  | j :: t, k => if j = k then j :: t else if k < j then k :: j :: t else j :: Keys.add t k

/-- Remove a key from a rising list. -/
def Keys.del : List Nat → Nat → List Nat
  | [], _ => []
  | j :: t, k => if j = k then t else if k < j then j :: t else j :: Keys.del t k

/-- The entry of a list that `lt` ranks first; the earliest of equals. -/
def listBest {β : Type} (lt : β → β → Bool) : List β → Option β
  | [] => none
  | x :: t =>
    match listBest lt t with
    | none => some x
    | some y => if lt y x then some y else some x

/-- Position of the first entry that satisfies `p`. -/
def listIndex {β : Type} (p : β → Bool) : List β → Nat → Option Nat
  | [], _ => none
  | x :: t, n => if p x then some n else listIndex p t (n + 1)

end Sys2Proof.Machine
end

