-- ==== Sys2Proof/Machine/Ops.lean ====
section
/-! DEFINITION. The named operations over memory, translation, cores, clusters and partitions. -/

namespace Sys2Proof.Machine

/-! Status codes (Table 12.6). -/
def stOk : Nat := 0x0000
def stAccepted : Nat := 0x0001
def stPartial : Nat := 0x0002
def stBadOpcode : Nat := 0x0010
def stBadParam : Nat := 0x0011
def stBadVersion : Nat := 0x0012
def stNoResource : Nat := 0x0020
def stDenied : Nat := 0x0022
def stPageFault : Nat := 0x0030
def stPoisoned : Nat := 0x0031
def stCheckMismatch : Nat := 0x0032
def stStepSkew : Nat := 0x0040
def stFrozenSkipped : Nat := 0x0041
def stStepRepeat : Nat := 0x0042
def stPeerLate : Nat := 0x0043
def stDigestMismatch : Nat := 0x0044
def stAuthFail : Nat := 0x0050
def stSignatureBad : Nat := 0x0051
def stDescBusy : Nat := 0x0060
def stBankOff : Nat := 0x0061
def stBoundFault : Nat := 0x0062
def stIllegalOp : Nat := 0x0063
def stKilled : Nat := 0x0070
def stBudgetDenied : Nat := 0x0071
def stTimeout : Nat := 0x0080
def stInternal : Nat := 0x00FF

/-- Every code of Table 12.6 (R45, R348). -/
def statusCodes : List Nat :=
  [0x0000, 0x0001, 0x0002, 0x0010, 0x0011, 0x0012, 0x0020, 0x0022, 0x0030, 0x0031, 0x0032, 0x0040, 0x0041,
   0x0042, 0x0043, 0x0044, 0x0050, 0x0051, 0x0060, 0x0061, 0x0062, 0x0063, 0x0070, 0x0071, 0x0080, 0x00FF]

/-! Cores, slots, clusters, partitions. -/

def State.core (s : State) (n : Nat) : Core := Tab.get {} s.cores n
def State.setCore (s : State) (n : Nat) (k : Core) : State := { s with cores := Tab.put s.cores n k }
def Core.slot (k : Core) (n : Nat) : Ctx := Tab.get {} k.slots n
def Core.setSlot (k : Core) (n : Nat) (c : Ctx) : Core := { k with slots := Tab.put k.slots n c }
def State.slot (s : State) (core n : Nat) : Ctx := (s.core core).slot n
def State.setSlot (s : State) (core n : Nat) (c : Ctx) : State := s.setCore core ((s.core core).setSlot n c)
def State.cluster (s : State) (n : Nat) : Cluster := Tab.get {} s.clusters n
def State.setCluster (s : State) (n : Nat) (c : Cluster) : State := { s with clusters := Tab.put s.clusters n c }
def State.part (s : State) (n : Nat) : Part := Tab.get {} s.parts n
def State.setPart (s : State) (n : Nat) (p : Part) : State := { s with parts := Tab.put s.parts n p }
def State.hport (s : State) (n : Nat) : HostPort := Tab.get {} s.hports n
def State.setHport (s : State) (n : Nat) (p : HostPort) : State := { s with hports := Tab.put s.hports n p }
def HostPort.ring (p : HostPort) (n : Nat) : Ring := Tab.get {} p.rings n
def HostPort.setRing (p : HostPort) (n : Nat) (r : Ring) : HostPort := { p with rings := Tab.put p.rings n r }
def State.ring (s : State) (port n : Nat) : Ring := (s.hport port).ring n
def State.setRing (s : State) (port n : Nat) (r : Ring) : State := s.setHport port ((s.hport port).setRing n r)
def HostPort.func (p : HostPort) (n : Nat) : HFunc := Tab.get {} p.funcs n
def HostPort.setFunc (p : HostPort) (n : Nat) (f : HFunc) : HostPort := { p with funcs := Tab.put p.funcs n f }
def State.func (s : State) (port n : Nat) : HFunc := (s.hport port).func n
def State.setFunc (s : State) (port n : Nat) (f : HFunc) : State := s.setHport port ((s.hport port).setFunc n f)
def Core.bank (k : Core) (n : Nat) : Bank := Tab.get {} k.banks n
def Core.setBank (k : Core) (n : Nat) (b : Bank) : Core := { k with banks := Tab.put k.banks n b }
def Core.accAt (k : Core) (n : Nat) : AccSlot := Tab.get {} k.acc n
def Core.setAcc (k : Core) (n : Nat) (a : AccSlot) : Core := { k with acc := Tab.put k.acc n a }
def Core.circAt (k : Core) (n : Nat) : Circ := Tab.get {} k.circ n
def Core.setCirc (k : Core) (n : Nat) (c : Circ) : Core := { k with circ := Tab.put k.circ n c }
def Core.stSlot (k : Core) (n : Nat) : StSlot := Tab.get {} k.stSlots n
def Core.setStSlot (k : Core) (n : Nat) (c : StSlot) : Core := { k with stSlots := Tab.put k.stSlots n c }
def Core.array (k : Core) (n : Nat) : ArrRepair := Tab.get {} k.arrays n
def Core.setArray (k : Core) (n : Nat) (a : ArrRepair) : Core := { k with arrays := Tab.put k.arrays n a }
def Core.image (k : Core) (n : Nat) : Ctx := Tab.get {} k.images n
def Ctx.pair (c : Ctx) (p : Nat) : Pair := Tab.get {} c.pairs p
def State.stack (s : State) (n : Nat) : Stack := Tab.get {} s.hbm n

/-- The cluster of a core (R12). -/
def clusterOf (core : Nat) : Nat :=
  let d := core / 512
  let r := core % 512 / 32
  let c := core % 32
  d * 32 + r / 4 * 8 + c / 4

/-- The 16 cores of a cluster, in rising logical id (R12). -/
def clusterCores (k : Nat) : List Nat :=
  let d := k / 32
  let r0 := k % 32 / 8 * 4
  let c0 := k % 8 * 4
  (List.range 16).map fun i => d * 512 + (r0 + i / 4) * 32 + c0 + i % 4

/-- Whether the device is in READY or ACTIVE. -/
def State.powered (s : State) : Bool := s.pwr.devState == 2 || s.pwr.devState == 3

/-- Whether the power-up phase runs: its STAGE stands between rails and engines (R403, Table 15.13). -/
def State.rising (s : State) : Bool := s.pwr.devState == 1 && 2 ≤ s.boot.stage && s.boot.stage < 7

/-- Whether the clusters stand still and the memories are in self-refresh: a shed is in force, or the device is neither READY nor ACTIVE
(R316, R422). What is in flight is then held. -/
def State.halts (s : State) : Bool := s.sup.shed || !s.powered

/-- Whether a cluster's clock runs (R314, R316, R422). -/
def State.clusterRuns (s : State) (cl : Nat) : Bool := (s.cluster cl).clk == .run && !s.halts

/-- Whether a core's clock runs: its cluster's does, and the core has not gated its own for the budget (R308). -/
def State.clocked (s : State) (core : Nat) : Bool := s.clusterRuns (clusterOf core) && !(s.core core).asleep

/-- The partition that holds a core's cluster. -/
def State.partOf (s : State) (core : Nat) : Option Nat := (s.cluster (clusterOf core)).owner

/-- CORE_ID.PART: 0 for a free cluster (Table 1.10). -/
def State.partNo (s : State) (core : Nat) : Nat := (s.partOf core).getD 0

/-- The partition of a core for the model's own look-ups: 64, which never exists, for a free cluster. -/
def State.pno (s : State) (core : Nat) : Nat := (s.partOf core).getD 64

/-- The clusters of a partition, in cluster order. -/
def State.clustersOf (s : State) (p : Nat) : List Nat :=
  (List.range 128).filter fun k => (s.cluster k).owner == some p

/-- The cores of a partition, in rising logical id within each cluster. -/
def State.coresOf (s : State) (p : Nat) : List Nat := (s.clustersOf p).flatMap clusterCores

/-- Change every cluster of the device by `f`, which gets its number. -/
def State.mapClusters (s : State) (f : Nat → Cluster → Cluster) : State :=
  { s with clusters := (List.range 128).foldl (fun t k => Tab.put t k (f k (Tab.get {} t k))) s.clusters }

/-- Keep a core update as a function of the core. -/
def State.mapCore (s : State) (n : Nat) (f : Core → Core) : State := s.setCore n (f (s.core n))
def State.mapSlot (s : State) (core n : Nat) (f : Ctx → Ctx) : State := s.setSlot core n (f (s.slot core n))
def State.mapPart (s : State) (n : Nat) (f : Part → Part) : State := s.setPart n (f (s.part n))
def State.mapRing (s : State) (port n : Nat) (f : Ring → Ring) : State := s.setRing port n (f (s.ring port n))

def State.mapFab (s : State) (f : Fabric → Fabric) : State := { s with fab := f s.fab }

/-- The next free draw number of the model (its own field, log 24). -/
def State.takeFree (s : State) : Nat × State := (s.free, { s with free := s.free + 1 })

/-! Bytes of memory. -/

/-- What an unlisted byte reads as (log 2): R118 and R389 give zero for scratch and for frames handed out; host memory and memory
never written are taken as zero. -/
def memDefault : Byte := 0

/-- Read one byte of a canonical cell list. -/
def Memory.read : List Host.Cell → Nat → Byte
  | [], _ => memDefault
  | (j, b) :: t, a => if j = a then b else if a < j then memDefault else Memory.read t a

/-- Write one byte, keeping the canonical form: addresses rising, no entry equal to what an unlisted address reads as. -/
def Memory.write : List Host.Cell → Nat → Byte → List Host.Cell
  | [], a, b => if b = memDefault then [] else [(a, b)]
  | (j, c) :: t, a, b =>
    if j = a then (if b = memDefault then t else (a, b) :: t)
    else if a < j then (if b = memDefault then (j, c) :: t else (a, b) :: (j, c) :: t)
    else (j, c) :: Memory.write t a b

/-- The canonical form of memory: rising addresses above `lo`, no entry equal to the default. -/
def Memory.wfFrom : Nat → List Host.Cell → Bool
  | _, [] => true
  | lo, (j, b) :: t => lo ≤ j && b != memDefault && Memory.wfFrom (j + 1) t

def Memory.wf (m : List Host.Cell) : Bool := Memory.wfFrom 0 m

/-- Write a run of bytes. -/
def Memory.writes : List Host.Cell → Nat → List Byte → List Host.Cell
  | m, _, [] => m
  | m, a, b :: t => Memory.writes (Memory.write m a b) (a + 1) t

/-- Read a run of bytes. -/
def Memory.reads (m : List Host.Cell) (a n : Nat) : List Byte := (List.range n).map fun i => Memory.read m (a + i)

/-! The device physical address map (Table 7.3). -/

/-- The parts of the physical address map. -/
inductive Region where
  | hbm
  | check
  | scratch (view core off : Nat)
  | attic
  | host (port : Nat)
  | reserved
  deriving DecidableEq, Repr

def hbmTop : Nat := 0x7FC0000000
def scratchBase : Nat := 0x8000000000
def atticBase : Nat := 0x40000000000
def hostBase (port : Nat) : Nat := 0x100000000000 * (port + 1)

/-- Where a byte of a host's memory stands in the model: in the port's window, or beyond the device's address map where the host bus address
lies outside the window (DESIGN CHOICE, log 208). -/
def hostAddr (port addr : Nat) : Nat := if addr < 2 ^ 44 then hostBase port + addr else 2 ^ 64 * (port + 1) + addr

/-- Installed attic capacity in bytes (R207). -/
def State.atticCap (s : State) : Nat :=
  if s.memStat.type = 0 then 0 else s.memStat.channels * s.memStat.dimmGib * 2 ^ 30

/-- The part of the map that an address lies in; view 0 is the normal view, 1 the set alias, 2 the clear alias (R122). -/
def State.region (s : State) (pa : Nat) : Region :=
  if pa < hbmTop then .hbm
  else if pa < scratchBase then .check
  else if pa < 0x8300000000 then
    let o := pa - scratchBase
    if o % 2 ^ 32 < 0x80000000 then .scratch (o / 2 ^ 32) (o % 2 ^ 32 / 2 ^ 20) (o % 2 ^ 20) else .reserved
  else if atticBase ≤ pa && pa < atticBase + s.atticCap then .attic
  else if hostBase 0 ≤ pa && pa < hostBase 1 then .host 0
  else if hostBase 1 ≤ pa && pa < hostBase 2 then .host 1
  else .reserved

/-- Physical address of a byte of a core's scratch in the normal view. -/
def scrPa (core off : Nat) : Nat := scratchBase + core * 0x100000 + off

/-- The stack and pseudo-channel of an HBM address (R204). -/
def hbmPlace (pa : Nat) : Nat × Nat := (bits pa 10 8, 2 * (pa / 2 ^ 21 % 32) + bits pa 11 11)

/-- Whether an HBM address, the check region included, lies in a lost pseudo-channel (R206). -/
def State.isLost (s : State) (pa : Nat) : Bool :=
  pa < scratchBase && (s.stack (hbmPlace pa).1).lost.testBit (hbmPlace pa).2

/-- Whether the check of a line's end-to-end code finds a mismatch (R205). -/
def State.codeBad (s : State) (pa : Nat) : Bool := (Tab.find s.codeErr (pa / 64)).any fun d => d != 0

/-- Whether a 64-byte line reads poisoned: its poison bit is set, its pseudo-channel is lost, or its end-to-end code does not hold
(R205, R206). -/
def State.linePoison (s : State) (pa : Nat) : Bool := Keys.has s.poison (pa / 64) || s.isLost pa || s.codeBad pa

/-- One byte as a reader sees it: zero in a lost pseudo-channel (R206). -/
def State.rd (s : State) (pa : Nat) : Byte := if s.isLost pa then 0 else Memory.read s.mem pa

/-- A run of bytes as a reader sees it. -/
def State.rds (s : State) (pa n : Nat) : List Byte := (List.range n).map fun i => s.rd (pa + i)

/-- The lines that [pa, pa + n) touches. -/
def linesOf (pa n : Nat) : List Nat :=
  if n = 0 then [] else (List.range ((pa + n - 1) / 64 - pa / 64 + 1)).map fun i => pa / 64 + i

/-- Whether any line of a run is poisoned. -/
def State.anyPoison (s : State) (pa n : Nat) : Bool := (linesOf pa n).any fun l => s.linePoison (l * 64)

def rangeIn (lo n : Nat) : List Nat := (List.range n).map fun i => lo + i

/-- Poison of the lines after a write: a poisoned write poisons every line it touches; a clean write clears the lines it covers
whole and leaves the others (R117, R205, R208). -/
def poisonAfter (p : List Nat) (pa n : Nat) (poisoned : Bool) : List Nat :=
  (linesOf pa n).foldl
    (fun q l =>
      if poisoned then Keys.add q l
      else if pa ≤ l * 64 && l * 64 + 64 ≤ pa + n then Keys.del q l
      else q) p

/-- Write bytes at a physical address: lost pseudo-channels discard their lines, CV is cleared on every line of HBM and attic
written (R220), poison follows R117 and R205, the end-to-end code of a line written is generated anew (R205), and a load reservation on a
half-line written is lost. -/
def State.wr (s : State) (pa : Nat) (bs : List Byte) (poisoned : Bool := false) : State :=
  let n := bs.length
  let keep := (linesOf pa n).all fun l => !s.isLost (l * 64)
  let mem :=
    if keep then Memory.writes s.mem pa bs
    else (bs.zipIdx pa).foldl (fun m x => if s.isLost x.2 then m else Memory.write m x.2 x.1) s.mem
  { s with
    mem := mem
    poison := poisonAfter s.poison pa n poisoned
    resvs := if s.resvs.isEmpty then [] else s.resvs.filter fun r => !(linesOf pa n).contains r.1
    cv := if s.cv.isEmpty then [] else (linesOf pa n).foldl Keys.del s.cv
    codeErr := if s.codeErr.isEmpty then [] else (linesOf pa n).foldl Tab.del s.codeErr }

/-- Poison of each 64-byte piece of a run: the grain at which poison is carried (R219). -/
def State.bads (s : State) (pa n : Nat) : List Bool := (List.range (cdiv n 64)).map fun j => s.anyPoison (pa + 64 * j) (min 64 (n - 64 * j))

/-- Write a run in pieces of 64 bytes, each with its own poison (R219). -/
def State.wrPieces : State → Nat → List Byte → List Bool → State
  | s, _, _, [] => s
  | s, pa, bs, b :: t => (s.wr pa (bs.take 64) b).wrPieces (pa + 64) (bs.drop 64) t

/-- Write a run, the poison of its pieces given; a clean run is one write (R117, R219). -/
def State.wrBads (s : State) (pa : Nat) (bs : List Byte) (bad : List Bool) : State :=
  if bad.any fun b => b then s.wrPieces pa bs bad else s.wr pa bs

/-- Where the block check value of a 2 KiB block lies (R220). -/
def State.checkPa (s : State) (pa : Nat) : Nat :=
  if pa < scratchBase then hbmTop + pa / 2048 * 4
  else atticBase + s.atticCap - s.atticCap / 512 + (pa - atticBase) / 2048 * 4

/-- Write a whole 2 KiB block, or the last shorter part of one, with its check value and set CV on its lines (R187, R220). -/
def State.wrChecked (s : State) (pa : Nat) (bs : List Byte) (bad : List Bool) : State :=
  let s1 := s.wrBads pa bs bad
  let s2 := s1.wr (s1.checkPa pa) (leBytes 4 (crc32c bs))
  { s2 with cv := (linesOf pa bs.length).foldl Keys.add s2.cv }

/-- Outcome of a checked read of one block: poison takes precedence, then CV and the CRC decide (R220). -/
inductive CheckRes where
  | ok | poisoned | mismatch
  deriving DecidableEq, Repr

def State.checkBlock (s : State) (pa n : Nat) : CheckRes :=
  if s.anyPoison pa n || s.linePoison (s.checkPa pa) then .poisoned
  else if (linesOf pa n).all (Keys.has s.cv) && crc32c (s.rds pa n) == leNat (s.rds (s.checkPa pa) 4) then .ok
  else .mismatch

/-- Count a failed block check (Table 7.12). -/
def State.noteCheck (s : State) : State := { s with memStat := { s.memStat with checkFail := sat16 s.memStat.checkFail 1 } }

/-! Translation (R210 to R215). -/

/-- Why a translation failed (Table 7.6). -/
inductive TransFail where
  | beyond | notPresent | readOnly | migrate
  deriving DecidableEq, Repr

/-- The page entry that maps an address, with the size of its page (R210, R211). -/
def Part.entry (pt : Part) (va : Nat) : Option (Nat × W64) :=
  match Tab.find pt.ptes1g (va / 2 ^ 30) with
  | some e => some (2 ^ 30, e)
  | none => (Tab.find pt.ptes (va / 2 ^ 21)).map fun e => (2 ^ 21, e)

/-- The number of the table of level 2 or 3 over an address (R210). -/
def tableKey (level va : Nat) : Nat := if level = 2 then va / 2 ^ 39 else 512 + va / 2 ^ 30

/-- The entry of level 1 or 2 that points to a table: its address and P (Table 7.4); 0 where there is no table. -/
def Part.tableEntry (pt : Part) (key : Nat) : W64 := match Tab.find pt.tables key with | some a => BitVec.ofNat 64 (a + 1) | none => 0

/-- Translate a device virtual address of a partition for a read or a write. -/
def State.translate (s : State) (p va : Nat) (wr : Bool) : Except TransFail Nat :=
  let pt := s.part p
  if pt.vaLimit ≤ va then .error .beyond
  else
    match pt.entry va with
    | none => .error .notPresent
    | some (size, e) =>
      if e.toNat.testBit 0 then
        if wr && !e.toNat.testBit 1 then .error .readOnly
        else .ok (fld (bits e.toNat 47 12) 12 + va % size)
      else if e.toNat.testBit 3 then .error .migrate
      else .error .notPresent

/-! The attic cache (R218). -/

/-- Remove the last entry of a list that satisfies `f`. -/
def eraseLast {β : Type} (f : β → Bool) (l : List β) : List β := (l.reverse.eraseP f).reverse

/-- Put an entry in front of a cache list of at most `ways` entries to a set, of which the one unused longest leaves. -/
def cachePut {β : Type} (same inSet : β → Bool) (ways : Nat) (x : β) (l : List β) : List β :=
  let t := l.filter fun y => !same y
  x :: if ways ≤ (t.filter inSet).length then eraseLast inSet t else t

/-- The number of the attic block at an address that a partition reaches through an entry with C = 1, with its attic cache enabled. -/
def State.cachedAt (s : State) (p va pa : Nat) : Option Nat :=
  let pt := s.part p
  if pt.acache && s.region pa == .attic && (pt.entry va).any fun x => x.2.toNat.testBit 4 then some (pa / 2048) else none

/-- The cached block that serves an access. -/
def State.cacheHit (s : State) (p va pa : Nat) : Option CacheBlk :=
  (s.cachedAt p va pa).bind fun b => (s.part p).ablocks.find? fun x => x.block == b

/-- The block that a read miss fetches: 2 KiB with the metadata of its lines and its check value. -/
def State.fetchBlk (s : State) (b : Nat) : CacheBlk :=
  let pa := 2048 * b
  ⟨b, s.rds pa 2048, s.bads pa 2048, (linesOf pa 2048).map (Keys.has s.cv),
    if s.linePoison (s.checkPa pa) then none else some (leNat (s.rds (s.checkPa pa) 4))⟩

/-- A read through the cache: the block becomes the one used last of its set of 16, fetched first where it is missing. -/
def State.cacheRead (s : State) (p va pa : Nat) : State :=
  match s.cachedAt p va pa with
  | none => s
  | some b =>
    let x := (s.cacheHit p va pa).getD (s.fetchBlk b)
    s.mapPart p fun pt => { pt with ablocks := cachePut (fun y => y.block == b) (fun y => y.block % 2048 == b % 2048) 16 x pt.ablocks }

/-- A cached block after a write of bytes [o, o + n) of it, which memory already holds: the data, the poison of the lines as R205 sets it,
their CV, and with `checked` the check value. -/
def CacheBlk.store (x : CacheBlk) (s : State) (o n : Nat) (poisoned checked : Bool) : CacheBlk :=
  let pa := 2048 * x.block
  { x with
    data := s.rds pa 2048
    bad := x.bad.mapIdx fun i b =>
      if (linesOf o n).contains i then poisoned || (b && !(o ≤ 64 * i && 64 * i + 64 ≤ o + n)) else b
    cv := x.cv.mapIdx fun i b => if (linesOf o n).contains i then checked else b
    check := if checked then (s.fetchBlk x.block).check else x.check }

/-- Writes of a partition go through to the attic and update a cached block that is present (R218). -/
def State.cacheStore (s : State) (p pa n : Nat) (poisoned checked : Bool) : State :=
  if (s.part p).ablocks.isEmpty then s
  else
    s.mapPart p fun pt =>
      { pt with
        ablocks := pt.ablocks.map fun x =>
          if pa < 2048 * (x.block + 1) && 2048 * x.block < pa + n then
            x.store s (pa - 2048 * x.block) (min (pa + n) (2048 * (x.block + 1)) - max pa (2048 * x.block)) poisoned checked
          else x }

/-- Set the poison flag of lines of cached blocks to what memory now holds for them (R205, R218). -/
def State.cacheMark (s : State) (p : Nat) (lines : List Nat) (bad : Bool) : State :=
  if (s.part p).ablocks.isEmpty then s
  else
    s.mapPart p fun pt =>
      { pt with ablocks := pt.ablocks.map fun x => { x with bad := x.bad.mapIdx fun i b => if lines.contains (32 * x.block + i) then bad else b } }

/-- The check of a whole block or part of one as a read through the cache makes it (R218, R220). -/
def CacheBlk.result (x : CacheBlk) (o n : Nat) : CheckRes :=
  let ls := linesOf o n
  if (ls.any fun i => x.bad.getD i false) || x.check.isNone then .poisoned
  else if (ls.all fun i => x.cv.getD i false) && x.check == some (crc32c ((x.data.drop o).take n)) then .ok
  else .mismatch

/-- The block check of `n` bytes of a block at a virtual address: HBM and attic blocks are checked, through the attic cache where that
holds the block; host pages and pages that do not translate are not (R218, R220, R221). -/
def State.vcheck (s : State) (p va n : Nat) : CheckRes :=
  match s.translate p va false with
  | .error _ => .ok
  | .ok pa =>
    match s.cacheHit p va pa with
    | some x => x.result (pa % 2048) n
    | none => (match s.region pa with | .hbm | .attic => s.checkBlock pa n | _ => .ok)

/-- Split a virtual run at 64-byte lines: (address, length) pieces in rising order. -/
def splitLines : Nat → Nat → Nat → List (Nat × Nat)
  | 0, _, _ => []
  | f + 1, va, n =>
    if n = 0 then []
    else
      let k := min n (64 - va % 64)
      (va, k) :: splitLines f (va + k) (n - k)

def pieces (va n : Nat) : List (Nat × Nat) := splitLines (n / 64 + 2) va n

/-- Whether requests of a function reach its host: the link is up, no reset event holds, and Bus Master Enable is 1 (R358, R366). -/
def State.hostUp (s : State) (port func : Nat) : Bool :=
  let h := s.hport port
  !h.inReset && h.up && (h.func func).busMaster && (func = 0 || (h.vfEn && func ≤ h.numVfs))

/-- Requests that a run of `n` bytes is cut into: at 4 KiB boundaries and at `size` bytes (R358). -/
def hostCuts (size addr n : Nat) : Nat :=
  if n = 0 then 0
  else
    ((rangeIn (addr / 4096) ((addr + n - 1) / 4096 - addr / 4096 + 1)).map fun i =>
      cdiv (min (addr + n) (4096 * i + 4096) - max addr (4096 * i)) size).sum

/-- A write that the device issues toward a host, cut at Max_Payload_Size; discarded and counted when it cannot be issued (R358). -/
def State.hostWrite (s : State) (port func addr : Nat) (bs : List Byte) : State :=
  if s.hostUp port func then s.wr (hostAddr port addr) bs
  else
    let f := s.func port func
    s.setFunc port func { f with dropwr := sat16 f.dropwr (hostCuts (s.hport port).mps addr bs.length) }

/-- An event that a function logs through AER. -/
def HFunc.logAer (f : HFunc) (e : AerEvent) : HFunc := { f with aer := if f.aer.contains e then f.aer else f.aer ++ [e] }

/-- Reads of a function that were not issued, answered as failed completions: logged and counted (R358, R360; DESIGN CHOICE, log 211: logged
as Unsupported Request). -/
def State.noRead (s : State) (port func n : Nat) : State :=
  let s1 := s.setFunc port func ((s.func port func).logAer .unsupportedRequest)
  let h := s1.hport port
  s1.setHport port { h with cplerr := min 255 (h.cplerr + n) }

/-- PASID that the host requests of a partition carry (Table 13.4). -/
def State.pasidOf (s : State) (p : Nat) : Option Nat :=
  let x := Tab.get ({} : HpPart) s.hpParts p
  if x.pasidEn then some x.pasid else none

/-- A partition's access to a page of its host window, translated through ATS when it is enabled: the entry is kept, 1,024 of them, the one
used last in front. A page to which the host grants no access is accessed untranslated (R359). -/
def State.atsUse (s : State) (p port pa : Nat) : State :=
  let func := (s.part p).func
  let e : AtsEnt := ⟨func, s.pasidOf p, (pa - hostBase port) / 4096⟩
  if (Tab.get ({} : HpPart) s.hpParts p).atsEn && (s.func port func).atsEn && Config.atsGrants port func e.page then
    let h := s.hport port
    s.setHport port { h with ats := cachePut (fun y => y == e) (fun _ => true) 1024 e h.ats }
  else s

/-- Whether a device read of a host line is answered as poisoned: its function issues nothing, or its completion failed (R358, R360,
R366). -/
def State.hostBad (s : State) (p pa : Nat) : Bool :=
  match s.region pa with
  | .host port => !s.hostUp port (s.part p).func || Keys.has s.cplBad (pa / 64)
  | _ => false

/-- Read within one line at a translated address: bytes and poison, from the attic cache where it holds the block (R218). -/
def State.vline (s : State) (p va pa n : Nat) : List Byte × Bool :=
  match s.cacheHit p va pa with
  | some x => ((x.data.drop (pa % 2048)).take n, x.bad.getD (pa % 2048 / 64) false)
  | none => (s.rds pa n, s.linePoison pa || s.hostBad p pa)

/-- Read a virtual run: bytes and whether any line was poisoned, or the first failure. -/
def State.vread (s : State) (p va n : Nat) : Except TransFail (List Byte × Bool) :=
  (pieces va n).foldlM
    (fun (acc : List Byte × Bool) (x : Nat × Nat) =>
      match s.translate p x.1 false with
      | .error e => .error e
      | .ok pa => let r := s.vline p x.1 pa x.2; .ok (acc.1 ++ r.1, acc.2 || r.2)) ([], false)

/-- One line of the host window has been read: its request was issued and a failed completion answered, or it was not issued (R358 to
R360). -/
def State.hostTake (s : State) (p port pa : Nat) : State :=
  let func := (s.part p).func
  if s.hostUp port func then ({ s with cplBad := Keys.del s.cplBad (pa / 64) } : State).atsUse p port pa else s.noRead port func 1

/-- Whether a partition maps host memory. -/
def Part.mapsHost (pt : Part) : Bool :=
  let host (e : W64) : Bool := hostBase 0 ≤ fld (bits e.toNat 47 12) 12
  pt.ptes.any (fun x => host x.2) || pt.ptes1g.any fun x => host x.2

/-- A virtual run has been read: its host requests have been answered (R358, R360), and the attic cache holds its blocks (R218). -/
def State.vtake (s : State) (p va n : Nat) : State :=
  if !(s.part p).acache && !(s.part p).mapsHost then s
  else
    (pieces va n).foldl
      (fun s x =>
        match s.translate p x.1 false with
        | .ok pa => (match s.region pa with | .host port => s.hostTake p port pa | _ => s.cacheRead p x.1 pa)
        | .error _ => s) s

/-- Whether any line of a virtual run is poisoned. -/
def State.vpoison (s : State) (p va n : Nat) : Bool := (s.vread p va n).toOption.any Prod.snd

/-- Whether a whole virtual run translates for a write. -/
def State.vok (s : State) (p va n : Nat) (wr : Bool) : Bool :=
  (pieces va n).all fun x => (s.translate p x.1 wr).isOk

/-- An engine write at a physical address: toward a host through the partition's function, else into memory (R358). -/
def State.engWrite (s : State) (p pa : Nat) (bs : List Byte) (poisoned : Bool) : State :=
  match s.region pa with
  | .host port => (s.atsUse p port pa).hostWrite port (s.part p).func (pa - hostBase port) bs
  | _ => (s.wr pa bs poisoned).cacheStore p pa bs.length poisoned false

/-- A write of a whole block, or the last shorter part of one, with its check value, by an engine of a partition (R218, R220). -/
def State.engWriteChecked (s : State) (p pa : Nat) (bs : List Byte) (bad : List Bool) : State :=
  (bad.zipIdx.filter fun x => x.1).foldl (fun s x => s.cacheStore p (pa + 64 * x.2) 64 true true)
    ((s.wrChecked pa bs bad).cacheStore p pa bs.length false true)

/-- Write a virtual run that translates; pieces that do not translate are left out. -/
def State.vwrite (s : State) (p va : Nat) (bs : List Byte) (poisoned : Bool := false) : State :=
  ((pieces va bs.length).foldl
    (fun (acc : State × List Byte) (x : Nat × Nat) =>
      match acc.1.translate p x.1 true with
      | .error _ => (acc.1, acc.2.drop x.2)
      | .ok pa => (acc.1.engWrite p pa (acc.2.take x.2) poisoned, acc.2.drop x.2)) (s, bs)).1

/-! Power accounts (R303, R306, R307). -/

/-- F of R306 at a clock step. -/
def stepF (step : Nat) : Nat := match step with | 0 => 256 | 1 => 220 | 2 => 185 | _ => 140

/-- Rate of an energy class (Table 11.3); reserved classes have none. -/
def classRate (c : Nat) : Nat :=
  match c with
  | 0 => 2 | 1 => 40 | 2 => 56 | 3 => 64 | 4 => 72 | 5 => 24 | 6 => 120 | 7 => 128 | 8 => 160 | 9 => 184
  | 10 => 176 | 15 => 208 | _ => 0

/-- The charge of `rate × cycles` at a cluster: whole sub-tokens and the new fraction in 1/256 (R306). -/
def State.chargeOf (s : State) (cl rate cycles : Nat) : Nat × Nat :=
  let c := s.cluster cl
  let t := rate * cycles * stepF c.step + c.frac
  (t / 256, t % 256)

/-- Whether the cluster's account covers a charge now (R309). -/
def State.covers (s : State) (cl rate cycles : Nat) : Bool :=
  Decidable.decide (((s.chargeOf cl rate cycles).1 : Int) ≤ (s.cluster cl).acct)

/-- Take a charge from the cluster's account. -/
def State.charge (s : State) (cl rate cycles : Nat) : State :=
  let c := s.cluster cl
  let x := s.chargeOf cl rate cycles
  s.setCluster cl { c with acct := c.acct - x.1, frac := x.2, spent := c.spent + x.1 }

/-- A cluster whose account stands at the start of a cycle. -/
def Cluster.newCycle (c : Cluster) : Cluster := { c with cycCores := [] }

/-- The account as it stood at the start of the cycle in which a core issues (R308): that of the issues before it, unless none was made
since the last tick or the core has issued in that cycle, when a new cycle begins. Which issues of different cores fall into one cycle is
the model's choice (DESIGN CHOICE, log 199). -/
def Cluster.cycleAcct (c : Cluster) (core : Nat) : Int := if c.cycCores.isEmpty || c.cycCores.contains core then c.acct else c.cycAcct

/-- Whether a command of a core fits: its cluster's account covered the charge at the start of the cycle (R308). -/
def State.fits (s : State) (core rate cycles : Nat) : Bool :=
  Decidable.decide (((s.chargeOf (clusterOf core) rate cycles).1 : Int) ≤ (s.cluster (clusterOf core)).cycleAcct core)

/-- Take the charge of a command that a core issues; the cycle of the issue is kept (R306, R308). -/
def State.chargeIssue (s : State) (core rate cycles : Nat) : State :=
  let c := s.cluster (clusterOf core)
  let x := s.chargeOf (clusterOf core) rate cycles
  s.setCluster (clusterOf core) { c with
    acct := c.acct - x.1, frac := x.2, spent := c.spent + x.1, cycAcct := c.cycleAcct core
    cycCores := if c.cycCores.contains core then [core] else core :: c.cycCores }

/-- Take a data-movement charge (R307). -/
def State.chargeData (s : State) (core n : Nat) : State :=
  let cl := clusterOf core
  let c := s.cluster cl
  s.setCluster cl { c with acct := c.acct - n, spent := c.spent + n }

/-- Whether a core's new far and remote requests wait: the memories stand still (R422), a route update holds them (R371), or its account
has reached −32 tokens (R307). -/
def State.farHeld (s : State) (core : Nat) : Bool :=
  s.halts || !s.flt.route.isEmpty || Decidable.decide ((s.cluster (clusterOf core)).acct ≤ -(32 * 65536))

end Sys2Proof.Machine
end

