-- ==== Sys2Proof/Machine/Rings.lean ====
section
/-! DEFINITION. Writes toward a host, completion entries, notices, MSI-X and the partition status word (chapters 12 and 13). -/

namespace Sys2Proof.Machine

/-- The function through which a ring pair works (R354): its partition's function, or the physical function. -/
def State.ringFunc (s : State) (r : Ring) : Nat := if r.part = 0xFF then 0 else (s.part r.part).func

/-- Send the message of a vector, or set its pending bit when it is masked or MSI-X is disabled (R362). -/
def State.msixSend (s : State) (port func vec : Nat) : State :=
  let f := s.func port func
  let v := Tab.get ({} : Msix) f.vecs vec
  if v.masked || !f.msixEn then s.setFunc port func { f with vecs := Tab.put f.vecs vec { v with pend := true, due := false } }
  else
    let s1 := s.hostWrite port func v.addr (leBytes 4 v.data)
    let f1 := s1.func port func
    s1.setFunc port func { f1 with vecs := Tab.put f1.vecs vec { v with pacing := true, due := false, pend := false } }

/-- Signal a vector: at once, or with the next message when one was sent within the last 1 µs (R329); a vector that is masked, or whose
function has MSI-X disabled, sets its pending bit (R362). -/
def State.msixSignal (s : State) (port func vec : Nat) : State :=
  let f := s.func port func
  let v := Tab.get ({} : Msix) f.vecs vec
  if v.pacing && !v.masked && f.msixEn then s.setFunc port func { f with vecs := Tab.put f.vecs vec { v with due := true } }
  else s.msixSend port func vec

/-- Completion entries free beyond those reserved (R328). -/
def Ring.cqFree (r : Ring) : Nat := 2 ^ r.cqsz - (r.cqtail - r.cqhead) - r.reserved

/-- PHASE of the entry at the tail: 1 on the first pass (R329). -/
def Ring.phase (r : Ring) : Nat := 1 - (r.cqtail / 2 ^ r.cqsz) % 2

/-- One completion entry: Table 12.1, or the 16-byte form of version 2 (Table 12.7). `flags` holds NOTICE, LOSS and FINAL. -/
def entryBytes (r : Ring) (tag status detail value flags cls part : Nat) : List Byte :=
  if r.v2 then
    leBytes 2 tag ++ leBytes 2 status ++ leBytes 8 value ++ leBytes 3 0 ++
      leBytes 1 (r.phase + fld (bits flags 3 3) 3)
  else
    leBytes 2 tag ++ leBytes 2 status ++ leBytes 4 detail ++ leBytes 8 value ++ leBytes 1 (r.phase + flags) ++
      leBytes 1 cls ++ leBytes 1 part ++ leBytes 1 3 ++ leBytes 2 r.sqhead ++ leBytes 10 0

/-- Write an entry at the tail of a completion ring and signal its vector when asked (R329). A stopped ring writes nothing (R328). -/
def State.postEntry (s : State) (port ring : Nat) (tag status detail value flags cls part : Nat) (irq : Bool) : State :=
  let r := s.ring port ring
  if r.err then s
  else
    let sz := if r.v2 then 16 else 32
    let f := s.ringFunc r
    let s1 := s.hostWrite port f (r.cqbase + r.cqtail % 2 ^ r.cqsz * sz) (entryBytes r tag status detail value flags cls part)
    let s2 := s1.mapRing port ring fun r => { r with cqtail := r.cqtail + 1 }
    if irq && r.ien then s2.msixSignal port f r.vec else s2

/-- A ring that will post nothing more for the packets it has taken: they run to their end unheard, and their entries are no longer
reserved (R328, R366). -/
def Ring.silenced (r : Ring) : Ring :=
  { r with
    taken := r.taken.map fun t => { t with mute := true }
    longs := r.longs.map fun l => { l with mute := true }
    reserved := 0 }

/-- Discard the replies and final replies of what a ring has taken (R328, R333, R366). -/
def State.silence (s : State) (port ring : Nat) : State :=
  let s1 := s.mapRing port ring Ring.silenced
  { s1 with parts := s1.parts.map fun x =>
      (x.1, { x.2 with launches := x.2.launches.map fun l => if l.port = port ∧ l.ring = ring then { l with mute := true } else l }) }

/-- A ring pair stops with ERR (R328). -/
def State.ringError (s : State) (port ring : Nat) : State := (s.silence port ring).mapRing port ring fun r => { r with err := true }

/-- Post the reply of a taken packet: its reserved entry is used and, unless a final reply follows, OUTST falls. A muted packet's reply is
discarded, and a reply that cannot be written stops the ring pair (R328). -/
def State.reply (s : State) (port ring : Nat) (tag status detail value : Nat) (irq final last mute : Bool) : State :=
  let s1 := s.mapRing port ring fun r =>
    { r with reserved := if mute then r.reserved else r.reserved - 1, outst := if last then r.outst - 1 else r.outst }
  if mute then s1
  else
    let s2 := s1.postEntry port ring tag status detail value (if final then 8 else 0) 0 (s.ring port ring).part irq
    if s1.hostUp port (s1.ringFunc (s1.ring port ring)) then s2 else s2.ringError port ring

/-! Packets. -/

/-- A packet being acted on: the ring it came on, its 64 bytes, its place in the order of taking, and whether its replies are discarded. -/
structure Pkt where
  port : Nat
  ring : Nat
  b : List Byte
  seq : Nat := 0
  mute : Bool := false
  deriving DecidableEq, Repr

def Pkt.n (k : Pkt) (lo hi : Nat) : Nat := num k.b lo hi
def Pkt.op (k : Pkt) : Nat := k.n 0 1
def Pkt.flags (k : Pkt) : Nat := k.n 2 2
def Pkt.final (k : Pkt) : Bool := bit k.flags 0
def Pkt.irq (k : Pkt) : Bool := bit k.flags 1
def Pkt.fence (k : Pkt) : Bool := bit k.flags 2
def Pkt.ver (k : Pkt) : Nat := k.n 3 3
def Pkt.tag (k : Pkt) : Nat := k.n 4 5
def Pkt.part (k : Pkt) : Nat := k.n 6 6

/-- A taken packet of a ring. -/
def Taken.pkt (t : Taken) (port ring : Nat) : Pkt := { port := port, ring := ring, b := t.b, seq := t.seq, mute := t.mute }

/-- Whether a packet begins a long operation (Table 12.3); FW_UPDATE_STAGE with LAST. -/
def Pkt.long (k : Pkt) : Bool :=
  k.op == 0x0202 || k.op == 0x0401 || k.op == 0x0402 || k.op == 0x0501 || k.op == 0x0702 || k.op == 0x0803 ||
    (k.op == 0x0802 && bit (k.n 24 24) 0)

/-- The reply of a packet; an entry reserved for a final reply that will not come is released (R328). -/
def State.fin (s : State) (k : Pkt) (status detail value : Nat) : State :=
  let two := k.long && !k.mute && (k.final || (s.ring k.port k.ring).part == 0xFF)
  let s1 := if two then s.mapRing k.port k.ring fun r => { r with reserved := r.reserved - 1 } else s
  s1.reply k.port k.ring k.tag status detail value k.irq false true k.mute

/-! Notices and the status word. -/

/-- The partition's NOTE ring (R330). -/
def State.noteRing (s : State) (p : Nat) : Option Nat :=
  ((s.hport (s.part p).port).rings.find? fun x => x.2.en && x.2.note && x.2.part == p && !x.2.err).map (·.1)

/-- Post a notice on a ring with a free entry. -/
def State.putNotice (s : State) (p ring : Nat) (n : Notice) : State :=
  let pt := s.part p
  let s1 := s.setPart p { pt with loss := false }
  s1.postEntry pt.port ring 0xFFFF n.status n.detail n.value (2 + if pt.loss then 4 else 0) n.cls p true

/-- Post waiting notices while the completion ring has room: the fault table first, then the queue (R330). An entry of kind 3, MIGRATED,
leaves the table once posted. -/
def State.flushNotices : Nat → Nat → State → State
  | 0, _, s => s
  | fuel + 1, p, s =>
    match s.noteRing p with
    | none => s
    | some r =>
      let pt := s.part p
      if (s.ring pt.port r).cqFree = 0 then s
      else
        match pt.faults.find? (fun f => !f.posted) with
        | some f =>
          let s1 := s.setPart p { pt with faults := pt.faults.map fun g => if g = f then { g with posted := true } else g }
          State.flushNotices fuel p (s1.putNotice p r ⟨0, stPageFault, f.detail, f.va⟩)
        | none =>
          match pt.moved, pt.notices with
          | x :: t, _ => State.flushNotices fuel p ((s.setPart p { pt with moved := t }).putNotice p r ⟨0, stOk, x.2, x.1⟩)
          | [], n :: t => State.flushNotices fuel p ((s.setPart p { pt with notices := t }).putNotice p r n)
          | [], [] => s

/-- Queue a notice and post what the ring takes. Without a NOTE ring it is not received; past 256 waiting it is dropped, NLOST is
set and the next notice carries LOSS (R330). -/
def State.notify (s : State) (p : Nat) (n : Notice) : State :=
  match s.noteRing p with
  | none => s
  | some r =>
    let pt := s.part p
    if (s.ring pt.port r).cqFree = 0 && 256 ≤ pt.notices.length then
      (s.setPart p { pt with loss := true }).mapRing pt.port r fun r => { r with nlost := true }
    else
      State.flushNotices 4096 p (s.setPart p { pt with notices := pt.notices ++ [n] })

/-- Whether a slot state is one of a running context. -/
def CtxSt.live : CtxSt → Bool
  | .ready | .blocked | .swapOut | .swapIn => true
  | _ => false

def CtxSt.code : CtxSt → Nat
  | .free => 0 | .ready => 1 | .blocked => 2 | .swapOut => 3 | .swapIn => 4 | .halted => 5 | .faulted => 6 | .killed => 7

/-- Whether a core holds a live job context, resident or swapped out. -/
def Core.anyLive (k : Core) : Bool :=
  !k.images.isEmpty || k.slots.any fun x => x.1 < 7 && x.2.st.live

/-- Whether a long operation of the partition runs. -/
def State.anyLong (s : State) (p : Nat) : Bool :=
  !(s.part p).launches.isEmpty ||
    (s.hport (s.part p).port).rings.any fun x => x.2.longs.any fun l => l.part == p

/-- The state field of the status word: the highest-ranked condition that holds (R346). -/
def State.wordState (s : State) (p : Nat) : Nat :=
  let pt := s.part p
  if pt.draining || !pt.preempting.isEmpty then 5
  else if pt.killed then 4
  else if pt.faulted then 3
  else if !pt.faults.isEmpty || pt.withheld then 2
  else if s.anyLong p || (s.coresOf p).any (fun c => (s.core c).anyLive) then 1
  else 0

/-- The status word (Table 12.6a). -/
def Part.word (pt : Part) : Nat :=
  fld pt.stSt 60 + fld pt.stLast 32 + fld (pt.stSeq % 2 ^ 16) 16 + pt.progress % 2 ^ 16

/-- Bring the status word up to date after an event, with the status that the event posted if any; entering state 3 or 4 posts
notice class 4 (R346, Table 12.2). `detail` names the core and context of the event. -/
def State.partEvent (s : State) (p : Nat) (status : Option Nat) (detail : Nat) : State :=
  let pt := s.part p
  if !pt.exist then s
  else
    let st := s.wordState p
    let last := status.getD pt.stLast
    let ch := st != pt.stSt || last != pt.stLast
    let pt1 := { pt with stSt := st, stLast := last, stSeq := if ch then (pt.stSeq + 1) % 2 ^ 16 else pt.stSeq }
    let s1 := s.setPart p pt1
    if st != pt.stSt && (st == 3 || st == 4) then s1.notify p ⟨4, last, detail, pt1.word⟩ else s1

/-- A notice that also moves the partition's last status (R346). -/
def State.notice (s : State) (p : Nat) (n : Notice) : State := (s.notify p n).partEvent p (some n.status) 0

/-- The detail word of notice classes 4 and 5. -/
def whoDetail (core lctx : Nat) : Nat := core % 2 ^ 11 + fld (lctx % 16) 11

/-- Append a fault record, which reaches MRAM later (R380). -/
def State.faultRecord (s : State) (kind utype unit status result part bundle detail : Nat) : State :=
  let f := s.flt
  { s with flt :=
      { f with
        pend := f.pend ++ [⟨f.pons, kind, utype, unit, status, result, part, bundle, detail, f.nextSeq⟩]
        nextSeq := (f.nextSeq + 1) % 2 ^ 32 } }

/-- Key of a unit in the unit table: its UTYPE and its UNIT word (Table 14.3). -/
def unitKey (utype unit : Nat) : Nat := utype * 2 ^ 24 + unit

/-- An in-field error of a unit: a record of kind 0, and its powered-on time among the unit's last three, both pending (R380). -/
def State.inField (s : State) (utype unit status part detail : Nat) : State :=
  let s1 := s.faultRecord 0 utype unit status 0 part 0 detail
  let f := s1.flt
  let k := unitKey utype unit
  let e := Tab.get ({} : UnitEnt) f.units k
  { s1 with flt :=
      { f with
        units := Tab.put f.units k { e with times := (f.pons :: e.times).take 3 }
        unitsPend := Keys.add f.unitsPend k } }

/-- UNIT of a logical core: die, physical row and column of the core that serves it (Table 14.3, R13). -/
def State.coreUnit (s : State) (core : Nat) : Nat :=
  let d := fld (core / 512) 11
  match (Tab.get ({} : Core) s.cores core).spare with
  | some col => d + fld 16 6 + col
  | none => d + fld (core % 512 / 32) 6 + core % 32

/-- Note a revocation: FLT_STATUS.REVOKES and a record of kind 5 (R378). -/
def State.noteRevoke (s : State) (core : Nat) (part status : Nat) : State :=
  let s1 := { s with flt := { s.flt with revokes := sat16 s.flt.revokes 1 } }
  s1.faultRecord 5 0 (s.coreUnit core) status 0 part 0 0

/-- A long operation other than LAUNCH ends: its final reply is posted where R334 provides one, and the partition's status word shows
the outcome (R334, R346). -/
def State.finishLong (s : State) (port ring tag status detail value : Nat) : State :=
  match (s.ring port ring).longs.find? fun l => l.tag == tag with
  | none => s
  | some l =>
    let s1 := s.mapRing port ring fun r => { r with longs := r.longs.filter fun m => m.tag != tag }
    let s2 :=
      if l.final || (s1.ring port ring).part == 0xFF then s1.reply port ring tag status detail value ((l.pkt.getD 2 0).toNat.testBit 1) true true l.mute
      else s1.mapRing port ring fun r => { r with outst := r.outst - 1 }
    s2.partEvent l.part (some status) detail

end Sys2Proof.Machine
end

