-- ==== Sys2Proof/Machine/Contexts.lean ====
section
/-! DEFINITION. Contexts: tokens, heads, fences, completions, and how a context ends (R27 to R37, R43 to R47, R368, R369, R378). -/

namespace Sys2Proof.Machine

/-- The head of a context: an injected command first, else the oldest fetched one (R20). -/
def Ctx.head (c : Ctx) : Option Cmd :=
  match c.inj with
  | w :: _ => some w
  | [] =>
    match c.buf with
    | f :: _ => if f.bad.isNone then some f.w else none
    | [] => none

/-- The pointer of the next command of the stream after the one at the head has been taken. -/
def Ctx.nextPtr (c : Ctx) : Ptr :=
  match c.buf with
  | f :: _ => f.ptr
  | [] => c.fptr

/-- Fields of a work command: [hi:lo] of its 128 bits. -/
def cf (w : Cmd) (hi lo : Nat) : Nat := bits w.toNat hi lo
def cb (w : Cmd) (i : Nat) : Bool := w.toNat.testBit i
def opcodeOf (w : Cmd) : Nat := cf w 7 0
def sigOf (w : Cmd) : Nat := cf w 15 12
def aware (w : Cmd) : Bool := cb w 17

/-- Whether a command waits for a fence: the FENCE bit, or SIGNAL, FENCE or HALT (R43, Table 1.6). -/
def fenceOf (w : Cmd) : Bool :=
  cb w 16 || opcodeOf w == 0x02 || opcodeOf w == 0x03 || opcodeOf w == 0x09

/-- Token counter `k` of a CTX_TOKENS image. -/
def tok (t : W64) (k : Nat) : Nat := bits t.toNat (4 * k + 3) (4 * k)

/-- The tokens that a command waits on: WAITM over the current bank, and FULLMASK of WAIT (R35, Table 1.7). -/
def waitMask (bank : Nat) (w : Cmd) : Nat :=
  (cf w 11 8 <<< (4 * bank)) ||| (if opcodeOf w = 0x01 then cf w 35 20 else 0)

/-- Whether every token of a mask is at least 1 (R35). -/
def tokMet (t : W64) (mask : Nat) : Bool := (List.range 16).all fun k => !mask.testBit k || tok t k ≥ 1

/-- Decrement every token of a mask (R35). -/
def tokTake (t : W64) (mask : Nat) : W64 :=
  (List.range 16).foldl (fun t k => if mask.testBit k && tok t k ≥ 1 then t - BitVec.ofNat 64 (16 ^ k) else t) t

/-- Increment every token of a mask; a token at 15 stays and sets the overflow flag (R35). -/
def tokGive (t : W64) (mask : Nat) : W64 × Bool :=
  (List.range 16).foldl
    (fun a k => if !mask.testBit k then a
      else if tok a.1 k = 15 then (a.1, true) else (a.1 + BitVec.ofNat 64 (16 ^ k), a.2)) (t, false)

def Ctx.give (c : Ctx) (mask : Nat) : Ctx :=
  let r := tokGive c.tokens mask
  { c with tokens := r.1, tokovf := c.tokovf || r.2 }

/-- Whether a command of the logical context is held by a suspended stream (R27). -/
def Core.suspended (k : Core) (lctx : Nat) : Bool :=
  k.stSlots.any fun x => x.2.st == .suspended && x.2.lctx == lctx && !x.2.queue.isEmpty

/-- Whether a fence waits for local completion only: FENCE with SCOPE 0b00, which does not wait for the acknowledgement of remote writes
(Table 1.7). -/
def localScope (w : Cmd) : Bool := opcodeOf w == 0x03 && !cb w 16 && cf w 21 20 == 0

/-- Whether every earlier command of the context has completed (Table 1.6); under `loc`, but for those that only wait for a target's
acknowledgement (Table 1.7). -/
def Core.fenceMet (k : Core) (lctx : Nat) (loc : Bool := false) : Bool :=
  k.pend.all fun p => p.lctx != lctx || (loc && p.kind == .remote)

/-- Whether a control command with REPLAY_AWARE stands in replay, so that it neither waits nor signals (R41). -/
def Ctx.passesOver (c : Ctx) (w : Cmd) : Bool := c.replay && opcodeOf w < 0x20 && aware w

/-- Why a head does not issue, before its engine and its charge are asked (Table 1.14 CAUSE; R27). -/
def headCause (k : Core) (c : Ctx) : Nat :=
  match c.head with
  | none => 5
  | some w =>
    if c.passesOver w then 0
    else if !tokMet c.tokens (waitMask c.bank w) then 1
    else if fenceOf w && !k.fenceMet c.lctx (localScope w) then
      if k.suspended c.lctx then 6 else 2
    else 0

/-- Whether a WAIT stands at the head and waits (R45). -/
def Ctx.waiting (c : Ctx) : Bool :=
  match c.head with
  | some w => opcodeOf w == 0x01 && !c.passesOver w
  | none => false

/-- Bring READY, BLOCKED and CAUSE of a resident context up to date (Table 1.5, R27). A head that its engine or the budget held keeps
that cause until it is asked again; a head that is held is not ready (R24). -/
def Core.refreshSlot (k : Core) (n : Nat) : Core :=
  let c := k.slot n
  if c.st = .ready ∨ c.st = .blocked then
    let cause := headCause k c
    let st : CtxSt := if cause = 1 ∨ cause = 6 then .blocked else .ready
    let cause := if cause = 0 ∧ (c.cause = 3 ∨ c.cause = 4) then c.cause else cause
    let new : Bool := st == CtxSt.blocked && c.st != CtxSt.blocked
    let at' := if new then k.stamp else c.blockedAt
    let k := { k with stamp := if new then k.stamp + 1 else k.stamp }
    k.setSlot n { c with
      st := st, cause := cause, blockedAt := at'
      rdyAt := if cause = 0 then c.rdyAt else none
      waitAt := if c.waiting then some (c.waitAt.getD k.clk) else none }
  else k

/-- Whether a swapped-out context is runnable (R28). -/
def Core.runnable (k : Core) (lctx : Nat) : Bool :=
  match Tab.find k.images lctx with
  | none => false
  | some c =>
    !Keys.has k.heldL lctx && (c.head.isNone || headCause k c == 0)

/-- Bring the runnable stamps of the images up to date: the stamp is 0 while an image is not runnable; the ready-cycle count
restarts when it stops being runnable (R28, R30). -/
def Core.refreshImages (k : Core) : Core :=
  k.images.foldl
    (fun k x =>
      if k.runnable x.1 then
        if x.2.runAt = 0 then
          { k with images := Tab.put k.images x.1 { x.2 with runAt := k.stamp }, stamp := k.stamp + 1 }
        else k
      else
        { k with images := Tab.put k.images x.1 { x.2 with runAt := 0 }, readyCnt := Tab.del k.readyCnt x.1 }) k

/-- Bring every context of a core up to date. -/
def Core.refresh (k : Core) : Core := ((List.range 8).foldl Core.refreshSlot k).refreshImages

/-- The hardware slot in which a logical context is resident. The service context of slot 7 has the number 16 (log 5). -/
def Core.findSlot (k : Core) (lctx : Nat) : Option Nat :=
  (List.range 8).find? fun n => (k.slot n).st.live && (k.slot n).lctx == lctx

/-- Apply a token signal to a logical context of the core (R32, R35): to its slot, to the pending-signal buffer while it swaps, or
to its image; otherwise it is discarded. A local signal that finds the pending-signal buffer full is kept all the same: only remote ones wait
(DESIGN CHOICE, log 187). -/
def Core.signal (k : Core) (lctx mask : Nat) : Core :=
  match k.findSlot lctx with
  | some n =>
    let c := k.slot n
    if c.st = .swapOut ∨ c.st = .swapIn then { k with sigBuf := k.sigBuf ++ [(lctx, mask)] }
    else (k.setSlot n (c.give mask)).refreshSlot n
  | none =>
    match Tab.find k.images lctx with
    | some c => ({ k with images := Tab.put k.images lctx (c.give mask) }).refreshImages
    | none => k

/-- Whether a remote signal must wait because the pending-signal buffer is full (R32). -/
def Core.sigFull (k : Core) (lctx : Nat) : Bool :=
  match k.findSlot lctx with
  | some n => ((k.slot n).st == .swapOut || (k.slot n).st == .swapIn) && 16 ≤ k.sigBuf.length
  | none => false

/-- A position of a circular region: bit 16 is the wrap bit (Table 4.12). -/
def Circ.setHead (c : Circ) (v : Nat) : Circ := { c with headPos := bits v 15 0, headWrap := v.testBit 16, pendHead := none }

/-- A head write that waited takes effect once the commands ahead of it have completed (R137). -/
def Circ.readDone (c : Circ) (id : Nat) : Circ :=
  match c.pendHead with
  | none => c
  | some (v, ids) =>
    let left := ids.filter fun i => i != id
    if left.isEmpty then c.setHead v else { c with pendHead := some (v, left) }

/-- A command completes: it leaves the outstanding list and its SIG token is signalled (R26, Table 1.6). -/
def Core.complete (k : Core) (id : Nat) : Core :=
  match k.pend.find? fun p => p.id == id with
  | none => k
  | some p =>
    let k1 := { k with
      pend := k.pend.filter fun q => q.id != id
      circ := if k.circ.any (fun (x : Nat × Circ) => x.2.pendHead.isSome) then k.circ.map fun (x : Nat × Circ) => (x.1, x.2.readDone id) else k.circ }
    (if p.sig = 0xF then k1 else k1.signal p.lctx (2 ^ p.sig)).refresh

/-- Apply a change to a logical context wherever its state lies: in its slot or in its image. -/
def Core.mapCtx (k : Core) (lctx : Nat) (f : Ctx → Ctx) : Core :=
  match k.findSlot lctx with
  | some n => k.setSlot n (f (k.slot n))
  | none =>
    match Tab.find k.images lctx with
    | some c => { k with images := Tab.put k.images lctx (f c) }
    | none => k

/-- The context itself, wherever its state lies. -/
def Core.ctx? (k : Core) (lctx : Nat) : Option Ctx :=
  match k.findSlot lctx with
  | some n => some (k.slot n)
  | none => Tab.find k.images lctx

/-- Add to a stream counter of a context unless PERF_MODE is 1 (R174, R175). -/
def Ctx.count (c : Ctx) (i n : Nat) : Ctx :=
  if c.perf then c else { c with sctr := Tab.put c.sctr i ((Tab.get 0 c.sctr i + n) % 2 ^ 64) }

/-- Abandon the prefetched lines that satisfy `p` (R165, Table 5.7). -/
def Core.abandon (k : Core) (p : PfLine → Bool) : Core :=
  let gone := k.lineBuf.filter p
  gone.foldl (fun k l => k.mapCtx l.lctx fun c => c.count 2 1) { k with lineBuf := k.lineBuf.filter fun l => !p l }

/-- The context that a swap brings in, unless it is held in SWAPPED (R342). -/
def Core.incoming (k : Core) (w : Swap) : Option Nat := w.inl.filter fun l => !Keys.has k.heldL l

/-- Begin a swap when none runs: the slot's context stops issuing, or a free slot starts to take its incoming context. -/
def Core.startSwap (k : Core) (w : Swap) : Core :=
  if w.out then
    let c := k.slot w.slot
    { k.setSlot w.slot { c with st := .swapOut, cause := 0 } with swap := some w }
  else
    match k.incoming w with
    | none => k
    | some l => { k.setSlot w.slot { k.image l with st := .swapIn, cause := 0 } with swap := some { w with second := true } }

/-- Start the first swap of a queue that has something to do. -/
def Core.startFirst : List Swap → Core → Core
  | [], k => { k with swapQ := [] }
  | w :: t, k =>
    let k1 := ({ k with swapQ := t }).startSwap w
    if k1.swap.isSome then k1 else Core.startFirst t k1

/-- Start the next queued swap once none runs. -/
def Core.nextSwap (k : Core) : Core := if k.swap.isSome || k.swapQ.isEmpty then k else Core.startFirst k.swapQ k

/-- Apply the buffered signals of contexts that are no longer swapping (R32). -/
def Core.applySigs (k : Core) : Core :=
  let q := k.sigBuf
  q.foldl (fun k x => k.signal x.1 x.2) { k with sigBuf := [] }

/-- The swap of a core after context `lctx`, in slot `n` if it was resident, has ended (R34): its own swap ends; a swap that was to bring
it in brings nothing in, and its victim swaps out all the same, as Table 1.5 gives a context in SWAP_OUT no other way (DEDUCED,
log 200). -/
def Core.swapWithout (k : Core) (n : Option Nat) (lctx : Nat) : Core :=
  match k.swap with
  | none => k
  | some w =>
    if n = some w.slot then { k with swap := none }
    else if !w.second && w.inl == some lctx then { k with swap := some { w with inl := none } }
    else k

/-- A logical context that has ended becomes KILLED (Table 1.5): the slot that shows it too. -/
def Core.stopEnded (k : Core) (l : Nat) : Core :=
  match Tab.find k.ended l with
  | none => k
  | some _ =>
    { k with
      ended := Tab.put k.ended l .killed
      slots := k.slots.map fun (x : Nat × Ctx) =>
        if x.1 < 7 ∧ x.2.lctx = l ∧ (x.2.st = .halted ∨ x.2.st = .faulted) then (x.1, { x.2 with st := .killed, lastStatus := stKilled }) else x }

/-- A context record after its context has ended: the sequencer state is dropped, what CTX_STATUS and the kept registers show
stays (R34, R47). -/
def Ctx.closed (c : Ctx) (st : CtxSt) (status : Nat) : Ctx :=
  { c with
    st := st, cause := 0, lastStatus := status, buf := [], inj := [], loops := [], calls := [], floops := [],
    fcalls := [], freplay := false, replay := false, paused := false, fwd := none, sec := none, vsusp := none,
    taint := 0, ccLoad := none, budSkips := 0, rdyAt := none, waitAt := none }

/-- A stream slot emptied: queue and shadow dropped (Table 5.3). -/
def StSlot.emptied (x : StSlot) : StSlot :=
  { x with st := if x.st = .unassigned then .unassigned else .empty, queue := [], shadow := none, shadowAt := 0, idx := [], sph := false }

/-- Drop what a core's engines hold for a logical context that ends: passes, drains, vector work, accumulator slots, stream queues, chain
work and larder records (R54, R77, Tables 5.3, 6.2). An ARR_REPAIR write that waited for the boundary of a discarded pass waits on for the
next pass that completes, or for another write (DESIGN CHOICE, log 204). `revoke` also unassigns the stream slots and drops the chain buffer
(Table 14.2). -/
def Core.dropWork (k : Core) (lctx : Nat) (revoke : Bool) : Core :=
  { k with
    pend := k.pend.filter fun p => p.lctx != lctx
    passes := k.passes.filter fun p => p.lctx != lctx
    restart := k.restart.filter fun p => p.lctx != lctx
    drain := k.drain.filter fun d => d.lctx != lctx
    pre := k.pre.filter fun d => d.lctx != lctx
    vec := k.vec.filter fun v => v.lctx != lctx
    acc := k.acc.map fun x => if x.2.held && x.2.lctx == lctx then (x.1, {}) else x
    spilledAcc := k.spilledAcc.filter fun x => x.lctx != lctx
    stSlots := k.stSlots.map fun x =>
      if x.2.owned && x.2.lctx == lctx then
        (x.1, if revoke then { x.2.emptied with owned := false, lctx := 0, st := .unassigned } else x.2.emptied)
      else x
    chain := k.chain.filter fun c => c.lctx != lctx
    chainBuf := if revoke && k.chainRx == lctx then [] else k.chainBuf
    larder := if k.larder.owner == lctx then { k.larder with recs := [], waiting := false, waitingInj := false } else k.larder
    heldL := Keys.del k.heldL lctx
    readyCnt := Tab.del k.readyCnt lctx
    sigBuf := k.sigBuf.filter fun x => x.1 != lctx
    swapQ := k.swapQ.filter fun w => !(w.out && (k.slot w.slot).lctx == lctx) && w.inl != some lctx
    reserved := k.reserved.filter fun n => (k.slot n).lctx != lctx
    givenUp := k.givenUp.filter fun x => x.1 != lctx
    circ := if k.circ.any (fun (x : Nat × Circ) => x.2.pendHead.isSome) then
        k.circ.map fun (x : Nat × Circ) => if x.2.lctx == lctx then (x.1, { x.2 with pendHead := none }) else x
      else k.circ }

/-- Revoke the lock leases of a holder on every core: bit 0 of the word is cleared and its half-line poisoned (Table 14.2). -/
def State.revokeLocks (s : State) (core lctx : Nat) : State :=
  s.cores.foldl
    (fun s x =>
      let mine := x.2.locks.filter fun l => l.core == core && l.lctx == lctx
      if mine.isEmpty then s
      else
        let s1 := s.mapCore x.1 fun k => { k with locks := k.locks.filter fun l => !(l.core == core && l.lctx == lctx) }
        mine.foldl
          (fun s l =>
            let b := s.rd l.addr
            let s1 := s.wr l.addr [b &&& 0xFE]
            { s1 with poison := Keys.add s1.poison (l.addr / 64) }) s1) s

/-! Buffers that packets name (R335). -/

/-- Whether the host refuses a part of a run of device virtual space: a read whose completion fails, or a request that is not sent (R335,
R358, R360). -/
def State.hostRefuses (s : State) (p va n : Nat) (wr : Bool) : Bool :=
  (pieces va n).any fun x =>
    match s.translate p x.1 wr with
    | .ok pa => (match s.region pa with
      | .host port => !s.hostUp port (s.part p).func || (!wr && Keys.has s.cplBad (pa / 64))
      | _ => false)
    | .error _ => false

/-- Read a packet's buffer (R335): a host bus address from a port ring, a device virtual address of the ring's partition otherwise. Answers
the bytes and the poison of each 64-byte piece. -/
def State.bufRead (s : State) (port ring addr n : Nat) : Except Nat (List Byte × List Bool) :=
  let p := (s.ring port ring).part
  if p = 0xFF then
    let pa := hostAddr port addr
    if !s.hostUp port 0 || (linesOf pa n).any (Keys.has s.cplBad) then .error stBadParam else .ok (s.rds pa n, s.bads pa n)
  else
    match s.vread p addr n with
    | .ok (bs, _) =>
      if s.hostRefuses p addr n false then .error stBadParam
      else .ok (bs, (List.range (cdiv n 64)).map fun j => s.vpoison p (addr + 64 * j) (min 64 (n - 64 * j)))
    | .error _ => .error stPageFault

/-- A packet's buffer has been read: failed completions of its lines have been answered (R360), and the attic cache holds its blocks. -/
def State.bufTake (s : State) (port ring addr n : Nat) : State :=
  let p := (s.ring port ring).part
  if p = 0xFF then
    if s.hostUp port 0 then { s with cplBad := (linesOf (hostAddr port addr) n).foldl Keys.del s.cplBad }
    else s.noRead port 0 (hostCuts (s.hport port).mrrs addr n)
  else s.vtake p addr n

/-- Write a packet's buffer (R335). -/
def State.bufWrite (s : State) (port ring addr : Nat) (bs : List Byte) : Except Nat State :=
  let p := (s.ring port ring).part
  if p = 0xFF then
    if !s.hostUp port 0 then .error stBadParam else .ok (s.hostWrite port 0 addr bs)
  else if !s.vok p addr bs.length true then .error stPageFault
  else if s.hostRefuses p addr bs.length true then .error stBadParam
  else .ok (s.vwrite p addr bs)

/-- Copy the report buffer of a launch, a buffer of its packet, into the status page under REPSEQ (R335, R347). -/
def State.copyReport (s : State) (p : Nat) (l : Launch) : State :=
  if l.rpt = 0 then s
  else
    ((s.bufTake l.port l.ring l.rpt 1792).mapPart p fun pt => { pt with repseq := (pt.repseq + 2) % 2 ^ 64 }).mapPart p fun pt =>
      match s.bufRead l.port l.ring l.rpt 1792 with
      | .ok (bs, _) => { pt with report := bs }
      | .error _ => pt

/-- A LAUNCH whose contexts have all ended posts its outcome (R334, R341). -/
def State.finishLaunch (s : State) (p : Nat) (l : Launch) : State :=
  let s1 := s.copyReport p l
  let s2 := s1.mapPart p fun pt => { pt with launches := pt.launches.filter fun m => !(m.port == l.port && m.ring == l.ring && m.tag == l.tag) }
  let portRing := (s2.ring l.port l.ring).part == 0xFF
  let s3 :=
    if l.final || portRing then s2.reply l.port l.ring l.tag l.code l.codeDetail l.ended l.irq true true l.mute
    else s2.mapRing l.port l.ring fun r => { r with outst := r.outst - 1 }
  s3.partEvent p (some l.code) l.codeDetail

/-- A context that ended leaves its launch: the first code that is not OK settles the outcome (R341), and the progress counts it. -/
def State.leaveLaunch (s : State) (p core lctx status : Nat) : State :=
  match (s.part p).launches.find? fun l => l.live.contains (core, lctx) with
  | none => s
  | some l =>
    let l1 := { l with
      live := l.live.filter fun x => x != (core, lctx)
      ended := l.ended + 1
      code := if l.code = 0 then status else l.code
      codeDetail := if l.code = 0 && status != 0 then whoDetail core lctx else l.codeDetail }
    let op := some (l.port, l.ring, l.tag)
    s.mapPart p fun pt =>
      { pt with
        launches := pt.launches.map fun m => if m.port == l.port && m.ring == l.ring && m.tag == l.tag then l1 else m
        endedN := if pt.lastLaunch = op then pt.endedN + 1 else pt.endedN
        progress := if pt.progOp = op then pt.endedN + 1 else pt.progress }

/-- A launch that no context runs any more posts its outcome (R341). -/
def State.closeLaunch (s : State) (p : Nat) : State :=
  match (s.part p).launches.find? fun l => l.live.isEmpty && l.again.isEmpty with
  | none => s
  | some l => s.finishLaunch p l

/-! Requests and chain messages of a context that ends. -/

/-- Requests that have been accepted into the arrival queues of a core and are not yet performed. -/
def Core.queued (k : Core) : List RemMsg := k.banks.flatMap fun (x : Nat × Bank) => x.2.held

/-- Whether a message is a remote load, store or atomic. -/
def isAccess (m : RemMsg) : Bool :=
  match m.op with
  | .signal _ _ => false
  | _ => true

/-- Whether a request writes a TOKSIG_L register, which travels in its own traffic class (Table 4.7). -/
def isTokSig (s : State) (m : RemMsg) : Bool :=
  match s.region m.addr, m.op with
  | .scratch 0 _ o, .store _ _ => 0xC0800 ≤ o && o < 0xC0880
  | _, _ => false

/-- The source, context and class of a message: those of one key are performed in issue order. The class is 1, of token signals, or 2
(R139, Table 4.7). -/
def State.msgKey (s : State) (m : RemMsg) : Nat × Nat × Bool := (m.src, m.lctx, !isAccess m || isTokSig s m)

/-- Whether the command that a request belongs to has not completed and its context still runs (R379). -/
def State.alive (s : State) (m : RemMsg) : Bool := (s.core m.src).pend.any fun p => p.id == m.id

/-- Whether a request is one of a context. -/
def RemMsg.isBy (core lctx : Nat) (m : RemMsg) : Bool := m.src == core && m.lctx == lctx

/-- Whether a request reserves a read response (R139). -/
def RemMsg.isRead (m : RemMsg) : Bool :=
  match m.op with
  | .load _ => true
  | .amo _ _ _ => true
  | _ => false

/-- A request of a holder that has been revoked is not performed: the half-line that it would have written is poisoned (R378, R379). -/
def State.spoil (s : State) (m : RemMsg) : State :=
  let writes : Bool := match m.op with
    | .store _ _ => true
    | .amo _ _ _ => true
    | _ => false
  match s.region m.addr with
  | .scratch _ t o => if writes && o < 0xC0000 then { s with poison := Keys.add s.poison (scrPa t o / 64) } else s
  | _ => s

/-- The response space of a request that is answered to no one is released at its source (R379). -/
def Core.release (k : Core) (m : RemMsg) : Core :=
  { k with outR := if m.isRead then k.outR - 1 else k.outR, outW := if m.isRead then k.outW else k.outW - 1 }

/-- A core without the requests that satisfy `f`. -/
def Core.without (k : Core) (f : RemMsg → Bool) : Core :=
  { k with
    arriving := k.arriving.filter fun m => !f m
    banks := k.banks.map fun (x : Nat × Bank) => (x.1, { x.2 with held := x.2.held.filter fun m => !f m }) }

/-- The requests of a revoked holder that are still queued, at their targets or held at the source by a route update, are dropped; the lines
that they would have written are poisoned, and their response space is released (R378 step 3, R379; that a request held at its source
poisons its line too is DEDUCED, log 207). -/
def State.dropRequests (s : State) (core lctx : Nat) : State :=
  let mine := RemMsg.isBy core lctx
  let ms := (s.cores.flatMap fun x => (x.2.arriving ++ x.2.queued).filter mine) ++ (s.flt.held.filter fun x => mine x.2).map fun x => x.2
  if ms.isEmpty then s
  else
    let s1 := s.cores.foldl (fun s x => if (x.2.arriving ++ x.2.queued).any mine then s.mapCore x.1 fun k => k.without mine else s) s
    let s2 := { s1 with flt := { s1.flt with held := s1.flt.held.filter fun x => !mine x.2 } }
    (ms.foldl State.spoil s2).mapCore core fun k => ms.foldl Core.release k

/-- The messages of a link or its receive buffer, newest first, without those that a core has sent since its last header, and whether that
header was found. -/
def unsend (src : Nat) : List (Nat × ChainMsg) → List (Nat × ChainMsg) × Bool
  | [] => ([], false)
  | (c, m) :: t =>
    if c = src then (match m with | .hdr _ _ => (t, true) | .line _ _ => unsend src t)
    else let r := unsend src t; ((c, m) :: r.1, r.2)

/-- What a core's chain command in flight has sent is dropped from the link, and from the receive buffer behind it (R369). -/
def Core.unsent (k : Core) (src : Nat) : Core :=
  let r := unsend src k.chainIn.reverse
  { k with
    chainIn := r.1.reverse
    chainBuf := if r.2 then k.chainBuf else (unsend src k.chainBuf.reverse).1.reverse }

/-- The chain transfer of a context that ends is dropped where it has gone (R369). -/
def State.dropChain (s : State) (core lctx : Nat) : State :=
  let k := s.core core
  if k.chain.any fun c => c.lctx == lctx && c.hdr && bits c.cmd.toNat 21 20 != 2 then s.mapCore k.chainNext fun k => k.unsent core
  else s

/-! Messages and collective work of a context that ends. -/

/-- Every message of a peer. -/
def Peer.allMsgs (x : Peer) : List JMsg := x.queue ++ (x.cur.toList ++ x.old.toList).flatMap fun y => y.msgs

/-- A message that sends nothing more and completes nothing. -/
def JMsg.stop (m : JMsg) : JMsg := { m with owner := .vote, len := m.next }

/-- Stop the messages that satisfy `q`: queued ones are dropped, begun ones end at their packet boundary (Table 14.2). -/
def Session.stopMsgs (y : Session) (q : JMsg → Bool) : Session := { y with msgs := y.msgs.map fun m => if q m then m.stop else m }

def State.stopMsgs (s : State) (q : JMsg → Bool) : State :=
  if s.fab.peers.all fun y => y.2.allMsgs.all fun m => !q m then s
  else
    s.mapFab fun f =>
      { f with peers := f.peers.map fun y =>
          (y.1, { y.2 with queue := y.2.queue.filter fun m => !q m, cur := y.2.cur.map fun z => z.stopMsgs q,
                           old := y.2.old.map fun z => z.stopMsgs q }) }

/-- Drop what a partition's collective state holds for a context. Its CONTRIB and PARAM_BCAST stay among those of the round, since they
have not completed (R287). -/
def Coll.dropCtx (c : Coll) (core lctx : Nat) : Coll :=
  { c with
    vote := c.vote.filter fun v => !(v.core == core && v.lctx == lctx)
    sums := c.sums.filter fun v => !(v.core == core && v.lctx == lctx) }

/-- Whether a message belongs to a context. -/
def JMsg.isOf (core lctx : Nat) (m : JMsg) : Bool :=
  match m.owner with
  | .cmd c l _ => c == core && l == lctx
  | .vote => false

/-- The collective commands of a context that ends stop sending, and what waits for them is dropped (R369). -/
def State.dropColl (s : State) (p core lctx : Nat) : State :=
  let s1 := s.stopMsgs (JMsg.isOf core lctx)
  match Tab.find s1.colls p with
  | none => s1
  | some c => { s1 with colls := Tab.put s1.colls p (c.dropCtx core lctx) }

/-- Whether an update command is a COMMIT_SHADOW whose exchange has begun, which always completes (R240). -/
def UpdCmd.exchanging (u : UpdCmd) : Bool := u.accepted && opcodeOf u.cmd == 0xA2

/-- Opcodes of the page-table operations: MAP_PAGES, UNMAP and FAULT_RESOLVE (R333). -/
def pageOps : List Nat := [0x0301, 0x0302, 0x0303]

/-- Page-table packets of a partition that have been taken, by their place in the order of taking. -/
def State.pageSeqs (s : State) (p : Nat) : List Nat :=
  s.hports.flatMap fun (h : Nat × HostPort) => h.2.rings.flatMap fun (r : Nat × Ring) =>
    (r.2.taken.filter fun t => pageOps.contains (num t.b 0 1) && num t.b 6 6 == p).map fun t => t.seq

/-- The core once one of its contexts has ended: the slot or the image closed, its work dropped, and the others brought up to date (R33,
R369). -/
def Core.ending (k : Core) (c : Ctx) (lctx : Nat) (st : CtxSt) (status : Nat) : Core :=
  let n := k.findSlot lctx
  let k0 := match n with
    | some n => k.setSlot n (c.closed st status)
    | none => k
  let k1 := { k0.swapWithout n lctx with images := Tab.del k.images lctx }
  let k2 := { k1.dropWork lctx (st != .halted) with ended := if lctx < 16 then Tab.put k.ended lctx st else k.ended }
  k2.applySigs.refresh.nextSwap

/-- What a context that ends FAULTED or KILLED held is revoked: its requests, its locks and the update commands it still waits for, but for
a commit whose exchange runs (R240, R378). -/
def State.revoke (s : State) (p core lctx status : Nat) : State :=
  (((s.dropRequests core lctx).revokeLocks core lctx).noteRevoke core (if p < 64 then p else 0xFF) status).mapPart p fun pt =>
    { pt with updQ := pt.updQ.filter fun u => !(u.core == core && u.lctx == lctx) || u.exchanging }

/-- A partition after the fault of one of its contexts; the first is kept (Table 12.6a). -/
def Part.faultedBy (pt : Part) (c : Ctx) (core lctx status : Nat) : Part :=
  { pt with
    faulted := true
    firstFault := if pt.firstFault = 0 then
        BitVec.ofNat 64 (whoDetail core lctx + fld status 16 + fld (c.nextPtr.off % 2 ^ 16 + fld c.nextPtr.base 16) 32)
      else pt.firstFault }

/-- End one logical context of a core, resident or swapped out (R34): its slot or image is given up, its engine work dropped with what its
chain command has sent (R369), its leases revoked and its queued requests dropped unless it HALTED (R378), and its partition told (R346). -/
def State.endOne (s : State) (core lctx : Nat) (st : CtxSt) (status : Nat) : State :=
  let s := if ((s.core core).ctx? lctx).isSome then s.dropChain core lctx else s
  let k := (s.core core).abandon fun l => l.lctx == lctx
  match k.ctx? lctx with
  | none => s
  | some c =>
    let p := if lctx = 16 then 64 else s.pno core
    let s0 := (s.dropColl p core lctx).setCore core (k.ending c lctx st status)
    let s1 := { s0 with resvs := s0.resvs.filter fun r => !(r.2.1 == core && r.2.2 == lctx) }
    let s2 := if st != .halted then s1.revoke p core lctx status else s1
    let s3 := if st = .faulted && (s2.part p).exist then s2.mapPart p fun pt => pt.faultedBy c core lctx status else s2
    ((s3.leaveLaunch p core lctx status).partEvent p (if st = .killed then none else some status) (whoDetail core lctx)).closeLaunch p

/-- The other members of the job of a context (R368). -/
def State.jobOf (s : State) (p core lctx : Nat) : List (Nat × Nat) :=
  match (s.part p).launches.find? fun l => l.live.contains (core, lctx) with
  | none => []
  | some l => l.live

/-- Kill the contexts of a job (R369). -/
def State.killAll (s : State) (xs : List (Nat × Nat)) : State :=
  xs.foldl (fun s x => s.endOne x.1 x.2 .killed stKilled) s

/-- End a context as FAULTED and then its job when FLT_PART.JOBKILL is 1, or whatever JOBKILL says when `whole` is set: POISONED at
a sink, an unresolvable PAGE_FAULT, a lost core (R368). POISONED counts in MEM_POISON.KILLS (Table 7.12). -/
def State.faultCtx (s : State) (core lctx status : Nat) (whole : Bool := false) : State :=
  let p := s.pno core
  let job := s.jobOf p core lctx
  let s1 := s.endOne core lctx .faulted status
  let s2 := if status = stPoisoned then { s1 with memStat := { s1.memStat with kills := sat16 s1.memStat.kills 1 } } else s1
  if whole || status = stPoisoned || (Tab.get ({} : FltPart) s.fltParts p).jobkill then
    s2.killAll (job.filter fun x => x != (core, lctx))
  else s2

/-- Tell why a resident context's head does not issue (Table 1.14). -/
def State.hold (s : State) (core n cause : Nat) : State :=
  s.mapCore core fun k => (k.setSlot n { k.slot n with cause := cause }).refreshSlot n

/-- Hold the head engine-busy where `b` holds. -/
def State.holdIf (s : State) (b : Bool) (core n : Nat) : State := if b then s.hold core n 3 else s

end Sys2Proof.Machine
end

