-- ==== Sys2Proof/Machine/Hash.lean ====
section
/-! DEFINITION. SHAKE256 (FIPS 202), the hash of handshakes, identities, signed objects and measurements (R255, R397, R406). -/

namespace Sys2Proof.Machine

/-- A Keccak state: 25 lanes of 64 bits, lane (x, y) at position x + 5y. -/
abbrev Lanes := List Nat

def Lanes.at (a : Lanes) (x y : Nat) : Nat := a.getD (x % 5 + 5 * (y % 5)) 0

/-- Rotation offset of each lane, in the order x + 5y. -/
def keccakRot : List Nat :=
  [0, 1, 62, 28, 27, 36, 44, 6, 55, 20, 3, 10, 43, 25, 39, 41, 45, 15, 21, 8, 18, 2, 61, 56, 14]

/-- Round constants. -/
def keccakRc : List Nat :=
  [0x0000000000000001, 0x0000000000008082, 0x800000000000808A, 0x8000000080008000, 0x000000000000808B, 0x0000000080000001,
   0x8000000080008081, 0x8000000000008009, 0x000000000000008A, 0x0000000000000088, 0x0000000080008009, 0x000000008000000A] ++
  [0x000000008000808B, 0x800000000000008B, 0x8000000000008089, 0x8000000000008003, 0x8000000000008002, 0x8000000000000080,
   0x000000000000800A, 0x800000008000000A, 0x8000000080008081, 0x8000000000008080, 0x0000000080000001, 0x8000000080008008]

/-- One round: theta, rho, pi, chi, iota. -/
def keccakRound (a : Lanes) (rc : Nat) : Lanes :=
  let c := (List.range 5).map fun x => a.at x 0 ^^^ a.at x 1 ^^^ a.at x 2 ^^^ a.at x 3 ^^^ a.at x 4
  let d := (List.range 5).map fun x => c.getD ((x + 4) % 5) 0 ^^^ rotl64 (c.getD ((x + 1) % 5) 0) 1
  let t : Lanes := a.zipIdx.map fun v => rotl64 (v.1 ^^^ d.getD (v.2 % 5) 0) (keccakRot.getD v.2 0)
  let b : Lanes := (List.range 25).map fun i => t.at (i % 5 + 3 * (i / 5)) (i % 5)
  let e := (List.range 25).map fun i =>
    let x := i % 5
    let y := i / 5
    b.at x y ^^^ ((2 ^ 64 - 1 - b.at (x + 1) y) &&& b.at (x + 2) y)
  (e.headD 0 ^^^ rc) :: e.tail

def keccakF (a : Lanes) : Lanes := keccakRc.foldl keccakRound a

/-- XOR a rate block of 136 bytes into the state and permute. -/
def absorbBlock (a : Lanes) (blk : List Byte) : Lanes :=
  keccakF (a.zipIdx.map fun v => v.1 ^^^ leNat ((blk.drop (8 * v.2)).take 8))

def absorbAll : Nat → Lanes → List Byte → Lanes
  | 0, a, _ => a
  | n + 1, a, bs => absorbAll n (absorbBlock a (bs.take 136)) (bs.drop 136)

/-- Padding 1111 1 0* 1 of SHAKE256 to a whole number of 136-byte blocks. -/
def shakePad (bs : List Byte) : List Byte :=
  let k := 136 - bs.length % 136
  bs ++ (if k = 1 then [0x9F] else (0x1F : Byte) :: (List.replicate (k - 2) 0 ++ [0x80]))

def squeeze : Nat → Lanes → List Byte
  | 0, _ => []
  | n + 1, a => (a.take 17).flatMap (leBytes 8) ++ squeeze n (keccakF a)

/-- SHAKE256 with an output of `n` bytes. -/
def shake256 (bs : List Byte) (n : Nat) : List Byte :=
  let p := shakePad bs
  (squeeze (n / 136 + 1) (absorbAll (p.length / 136) (List.replicate 25 0) p)).take n

/-- The ASCII bytes of a label, without a terminator. -/
def ascii (s : String) : List Byte := s.toList.map fun c => BitVec.ofNat 8 c.toNat

/-- A byte string cut or zero-padded to `n` bytes. -/
def sized (n : Nat) (bs : List Byte) : List Byte := (bs ++ List.replicate (n - bs.length) 0).take n

/-- Bytes [lo, hi] as a number in network byte order. -/
def netNum (bs : List Byte) (lo hi : Nat) : Nat := leNat (slice bs lo hi).reverse

end Sys2Proof.Machine
end

