-- ==== Sys2Proof/Machine/Trust.lean ====
section
/-! DEFINITION. Roots, signatures and certificates (R394, R397, R402), the entropy source (R412) and the identity (R401). -/

namespace Sys2Proof.Machine

/-- Whether a digest is that of a present, unrevoked root slot; the slot (R397). -/
def State.rootSlot (s : State) (d : List Byte) : Option Nat :=
  (List.range 4).find? fun i => Config.rootDigest i == some d && !s.mram.revoked.testBit i

/-- Whether a signature verifies over the 64-byte SHAKE256 digest of some bytes (R397). -/
def sigOk (key bytes sig : List Byte) : Bool := Config.dsaVerify key (shake256 bytes 64) sig

/-- Whether an object's KEY is a present, unrevoked root and its SIG verifies over its signed bytes (R397). -/
def State.signed (s : State) (key bytes sig : List Byte) : Bool := (s.rootSlot (shake256 key 32)).isSome && sigOk key bytes sig

/-- Whether bytes [lo, hi] are all zero. -/
def zeroAt (bs : List Byte) (lo hi : Nat) : Bool := (slice bs lo hi).all fun b => b == 0

/-- The identity public key of a certificate chain that a verifier accepts (R402): root key, issuer certificate, device
certificate. -/
def State.chainKey (s : State) (chain : List Byte) : Option (List Byte) :=
  let root := slice chain 0 1951
  let iss := slice chain 1952 7276
  let dev := slice chain 7277 12601
  let issKey := slice iss 64 2015
  if chain.length = 12602 ∧ (s.rootSlot (shake256 root 32)).isSome ∧ slice iss 32 63 = shake256 root 32 ∧
      sigOk root (slice iss 0 2015) (slice iss 2016 5324) ∧ slice dev 32 63 = shake256 issKey 32 ∧
      sigOk issKey (slice dev 0 2015) (slice dev 2016 5324) then some (slice dev 64 2015)
  else none

/-- The device's own certificate chain, as MRAM holds it (R402). -/
def State.ownChain (s : State) : List Byte := sized 12602 s.mram.certs

/-- KEY, serial number and IDDIG of the device certificate (R402). -/
def State.devKey (s : State) : List Byte := slice s.ownChain (7277 + 64) (7277 + 2015)
def State.serial (s : State) : List Byte := slice s.ownChain (7277 + 16) (7277 + 31)
def State.iddig (s : State) : List Byte := shake256 s.devKey 32

/-- 32 fresh bytes of the entropy source (R412). -/
def State.random (s : State) : List Byte × State :=
  (leBytes 32 (Config.entropy s.free).toNat, { s with free := s.free + 1 })

end Sys2Proof.Machine
end

