-- ==== Sys2Proof/Machine/Links.lean ====
section
/-! DEFINITION. Fabric lanes, quads and ports, and what the loss of a port does to the messages pinned to it (R246 to R249, R269 to
R272). -/

namespace Sys2Proof.Machine

def State.quad (s : State) (q : Nat) : Quad := Tab.get {} s.fab.quads q
def State.fport (s : State) (p : Nat) : FabPort := Tab.get {} s.fab.ports p
def State.mapPort (s : State) (p : Nat) (f : FabPort → FabPort) : State :=
  s.mapFab fun x => { x with ports := Tab.put x.ports p (f (s.fport p)) }
def State.peer (s : State) (n : Nat) : Peer := Tab.get {} s.fab.peers n
def State.mapPeer (s : State) (n : Nat) (f : Peer → Peer) : State :=
  s.mapFab fun x => { x with peers := Tab.put x.peers n (f (s.peer n)) }
def State.mapJcnt (s : State) (f : JigCnt → JigCnt) : State := s.mapFab fun x => { x with cnt := f x.cnt }

/-- Saturating increment of a `w`-bit counter. -/
def satW (w n k : Nat) : Nat := min (2 ^ w - 1) (n + k)

/-- Lanes of port `p` under its quad's MODE; 0 when no such port exists (Table 9.1). -/
def Quad.lanes (q : Quad) (p : Nat) : Nat :=
  match q.mode with
  | 0 => if p % 4 = 0 then 4 else 0
  | 1 => if p % 2 = 0 then 2 else 0
  | 2 => 1
  | _ => 0

/-- The port that holds a lane (R246). -/
def Quad.portOf (q : Quad) (lane : Nat) : Nat :=
  match q.mode with
  | 0 => lane / 4 * 4
  | 1 => lane / 2 * 2
  | _ => lane

/-- Whether a port exists: its quad is enabled and its number is one that MODE creates (R246, log 41). -/
def State.present (s : State) (p : Nat) : Bool := (s.quad (p / 4)).en && 0 < (s.quad (p / 4)).lanes p

/-- Data rate of a port in bit/s (Table 9.1). -/
def State.portRate (s : State) (p : Nat) : Nat :=
  let q := s.quad (p / 4)
  q.lanes p * (match q.rate with | 0 => 200 | 1 => 100 | _ => 50) * 1000000000

/-- Whether PFC pauses a priority of a port (R249). -/
def FabPort.pauses (x : FabPort) (prio : Nat) : Bool := x.pfcen && x.pfcpri.testBit prio && Keys.has x.paused prio

/-- The waiting frames of a port whose priority is paused no longer go on the wire (R249). -/
def State.unpause (s : State) (p : Nat) : State :=
  let x := s.fport p
  if x.waiting.isEmpty then s
  else
    (s.mapPort p fun x => { x with waiting := x.waiting.filter fun w => x.pauses w.pcp }).mapFab fun f =>
      { f with wire := (x.waiting.filter fun w => !x.pauses w.pcp) ++ f.wire }

/-! Peers. -/

/-- Fields of a peer-table entry (Table 9.4). -/
def Peer.addr (x : Peer) : List Byte := slice x.entry 0 15
def Peer.udp (x : Peer) : Nat := num x.entry 16 17
def Peer.valid (x : Peer) : Bool := bit (num x.entry 18 18) 0
def Peer.v2 (x : Peer) : Bool := bit (num x.entry 18 18) 1
def Peer.mask (x : Peer) : Nat := num x.entry 20 27
def Peer.iddig (x : Peer) : List Byte := slice x.entry 32 63
def Peer.ver (x : Peer) : Nat := if x.v2 then 2 else 3

/-- Window and ACK bitmap in PSNs (R262, Table 9.10). -/
def Peer.win (x : Peer) : Nat := if x.v2 then 256 else 1024

/-- The usable ports of a peer: up and in PORTMASK, in rising order (R269). -/
def State.usable (s : State) (x : Peer) : List Nat :=
  (List.range 64).filter fun p => (s.fport p).up && (x.mask == 0 || x.mask.testBit p)

/-- The peer's line in bit/s (R268). -/
def State.lineOf (s : State) (x : Peer) : Nat := ((s.usable x).map s.portRate).sum

/-- The per-message hash c of R269. -/
def pinHash (session msgid : Nat) : Nat := crc32c (leBytes 4 session ++ leBytes 4 msgid)

/-- Pin a message to a port of `u`, if there is one; its source port follows from the hash (R261, R269). -/
def JMsg.pin (m : JMsg) (session : Nat) (u : List Nat) : JMsg :=
  let c := pinHash session m.msgid
  { m with port := (u[c % u.length]?).getD m.port, sport := 49152 + c / 2 ^ 18 }

/-- Pin again the messages of a session that were pinned to a lost port, and queue what was last sent on it (R271). -/
def Session.reroute (x : Session) (lost : Nat) (u : List Nat) : Session :=
  { x with
    msgs := x.msgs.map fun m => if m.port = lost then m.pin x.sidPeer u else m
    unacked := x.unacked.map fun a => if a.port = lost then { a with again := true } else a }

/-- Messages that wait on a port that is down take a usable one again (R271). -/
def Session.revive (x : Session) (up : Nat → Bool) (u : List Nat) : Session :=
  { x with
    msgs := x.msgs.map fun m => if up m.port then m else m.pin x.sidPeer u
    unacked := x.unacked.map fun a => if up a.port then a else { a with again := true } }

/-- Bring the lines of all peers up to date after a port has changed, and the time since which one has had no usable port (R263, R268). -/
def State.reline (s : State) : State :=
  s.mapFab fun f =>
    { f with peers := f.peers.map fun y =>
        let l := s.lineOf y.2
        let x := { y.2 with noPortAt := if (s.usable y.2).isEmpty then some (y.2.noPortAt.getD s.ltime) else none }
        (y.1, if l = x.line then x else { x with line := l, rate := min x.rate l, step := min x.step (l / 8) }) }

/-- A port goes down: UP clears, DOWNS counts, and the messages pinned to it move (R248, R271). -/
def State.portFall (s : State) (p : Nat) : State :=
  if !(s.fport p).up then s
  else
    let s1 := s.mapPort p fun x => { x with up := false, downs := satW 8 x.downs 1, paused := [], waiting := [], hop := none }
    let s2 := s1.mapFab fun f =>
      { f with peers := f.peers.map fun y =>
          let u := s1.usable y.2
          (y.1, { y.2 with cur := y.2.cur.map fun x => x.reroute p u, old := y.2.old.map fun x => x.reroute p u }) }
    s2.reline

/-- A port goes down through a fault on one of its lanes, which is an in-field error of the lane (R248, R380). -/
def State.portDown (s : State) (p lane : Nat) : State :=
  if !(s.fport p).up then s else (s.inField 3 lane stInternal 0xFF 0).portFall p

/-- Whether a lane of the port is retired (Table 14.4). -/
def State.laneRetired (s : State) (p : Nat) : Bool :=
  (List.range ((s.quad (p / 4)).lanes p)).any fun i => (Tab.get ({} : UnitEnt) s.flt.units (unitKey 3 (p + i))).retired

/-- A frame of a link is put on the wire (R249). -/
def State.onLink (s : State) (x : LinkOut) : State := s.mapFab fun f => { f with links := x :: f.links }

/-- PORT_UP (R248, R249, R271): alignment, FEC lock and auto-negotiation are complete; the port asks for its gateway's address, and messages
that had no usable port take it. A port with a retired lane stays down (Table 14.4). -/
def execPortUp (p : Nat) (s : State) : Out :=
  if 64 ≤ p then .next s
  else if !s.present p || (s.fport p).up || s.laneRetired p || s.sup.shed then .next s
  else
    let s1 := (s.mapPort p fun x => { x with up := true }).reline.onLink (.request p (s.fport p).gw)
    let up (q : Nat) : Bool := (s1.fport q).up
    .next (s1.mapFab fun f =>
      { f with peers := f.peers.map fun y =>
          let u := s1.usable y.2
          if u.isEmpty then y
          else (y.1, { y.2 with cur := y.2.cur.map fun x => x.revive up u, old := y.2.old.map fun x => x.revive up u }) })

/-- ALIGNMENT_LOSS (R248): a lane has had no alignment or FEC lock for 10 µs. -/
def execAlignmentLoss (lane : Nat) (s : State) : Out :=
  if 64 ≤ lane then .next s
  else .next (s.portDown ((s.quad (lane / 4)).portOf lane) lane)

/-- FEC_WINDOW_END (R248): a 1 ms window ends with these counts. -/
def execFecWindowEnd (p corrected uncorrectable : Nat) (s : State) : Out :=
  if 64 ≤ p then .next s
  else if !s.present p then .next s
  else
    let s1 := s.mapPort p fun x => { x with feccorr := sat16 x.feccorr corrected, fecunc := sat16 x.fecunc uncorrectable }
    let d := (s1.fport p).fecdeg
    .next (if d ≠ 0 ∧ d ≤ uncorrectable then s1.portDown p p else s1)

/-- LINK_REMOTE_FAULT (R248). -/
def execLinkRemoteFault (p : Nat) (s : State) : Out :=
  if 64 ≤ p then .next s else .next (s.portDown p p)

/-- LINK_RETRY (R248): a down port tries again; its success is PORT_UP. -/
def execLinkRetry (p : Nat) (s : State) : Out := if 64 ≤ p then .next s else .next s

/-- Whether the host behind an access holds the management role (R363). -/
def State.isMgmt (s : State) (w : Who) : Bool :=
  match w with
  | .host port f => port == s.mgmt && f == 0
  | _ => false

/-- QUADS of the configuration record in force: bit q when quad q is wired (Table 15.4). -/
def State.wired (s : State) (q : Nat) : Bool := (num s.boot.recNow (2048 + 32) (2048 + 33)).testBit q

/-- Disable or configure a quad: the ports that it held go down, each with an entry of the fault history (R248, R271). A port that its owner
disables is no error of a lane (log 196). -/
def State.setQuad (s : State) (q : Nat) (x : Quad) : State :=
  let old := s.quad q
  let fall (s : State) (p : Nat) : State := if (s.fport p).up then (s.faultRecord 0 3 p stOk 0 0xFF 0 0).portFall p else s
  let s1 := if old.en ∧ !x.en then (List.range 4).foldl (fun s i => fall s (4 * q + i)) s else s
  s1.mapFab fun f => { f with quads := Tab.put f.quads q x }

/-- QUAD_CONFIG_WRITE (R272, Table 9.12): only the management port writes; MODE, RATE and AN of an enabled quad change only with EN
cleared in the same write; a reserved MODE or RATE is not taken; EN of an unwired quad stays 0 (Table 15.4). -/
def execQuadConfigWrite (who : Who) (q : Nat) (v : W64) (s : State) : Out :=
  if 16 ≤ q then .next s
  else if !s.isMgmt who then .next s
  else
    let o := s.quad q
    let n : Quad := ⟨v.toNat.testBit 7 && s.wired q, v.toNat.testBit 6, bits v.toNat 5 4, bits v.toNat 1 0⟩
    if n.mode = 3 ∨ n.rate = 3 then .next s
    else if o.en ∧ v.toNat.testBit 7 ∧ (n.mode ≠ o.mode ∨ n.rate ≠ o.rate ∨ n.an ≠ o.an) then .next s
    else .next (s.setQuad q n)

/-- NEIGHBOUR_RESOLUTION (R249): an answer resolves the port's next hop; a request for a local address is answered on the wire. -/
def execNeighbourResolution (p : Nat) (r : Resolution) (s : State) : Out :=
  if 64 ≤ p then .next s
  else
    match r with
    | .request => .next (if (s.fport p).up then s.onLink (.answer p) else s)
    | .answer mac => .next (if (s.fport p).up then s.mapPort p fun x => { x with hop := some (mac % 2 ^ 48) } else s)

/-- PFC_PAUSE (R249): XOFF or XON for one priority. -/
def execPfcPause (p prio : Nat) (on : Bool) (s : State) : Out :=
  if 64 ≤ p ∨ 8 ≤ prio then .next s
  else
    let x := s.fport p
    if !x.pfcen || !x.pfcpri.testBit prio || Keys.has x.ignoring prio then .next s
    else .next ((s.mapPort p fun x => { x with paused := if on then Keys.add x.paused prio else Keys.del x.paused prio }).unpause p)

/-- PFC_WATCHDOG (R249): a priority paused for 100 ms is released, and its pause frames are ignored for 1 s. -/
def execPfcWatchdog (p prio : Nat) (s : State) : Out :=
  if 64 ≤ p ∨ 8 ≤ prio then .next s
  else if !Keys.has (s.fport p).paused prio then .next s
  else
    let s1 := (s.mapPort p fun x => { x with paused := Keys.del x.paused prio, ignoring := Keys.add x.ignoring prio }).unpause p
    .next (s1.mapJcnt fun c => { c with pfcwd := sat16 c.pfcwd 1 })

/-- PFC_IGNORE_EXPIRY (R249). -/
def execPfcIgnoreExpiry (p prio : Nat) (s : State) : Out :=
  if 64 ≤ p ∨ 8 ≤ prio then .next s
  else .next (s.mapPort p fun x => { x with ignoring := Keys.del x.ignoring prio })

/-- HS_TOKEN_REFILL (R253). -/
def execHsTokenRefill (p : Nat) (s : State) : Out :=
  if 64 ≤ p then .next s
  else .next (s.mapPort p fun x => { x with bucket := min 8 (x.bucket + 1) })

end Sys2Proof.Machine
end

