-- ==== Sys2Proof/Machine/Paging.lean ====
section
/-! DEFINITION. What a failed translation does: the fault table, its notices, and migrations (R215, R216, R330). -/

namespace Sys2Proof.Machine

/-- The detail word of a fault notice (Table 7.7). -/
def faultDetail (kind src slot lctx : Nat) (wr : Bool) (core : Nat) : Nat :=
  fld kind 28 + fld src 24 + fld slot 20 + fld lctx 16 + fld (b01 wr) 15 + core % 2 ^ 11

/-- Whether a fault of the table is one of the page that holds an address. -/
def FaultEnt.covers (f : FaultEnt) (va : Nat) : Bool := if f.big then f.va / 2 ^ 30 == va / 2 ^ 30 else f.page == va / 2 ^ 21

/-- Whether an entry of kind 3, MIGRATED, is meant: it asks nothing of the host (Table 7.7). -/
def migrated (detail : Nat) : Bool := detail / 2 ^ 28 == 3

/-- Enter a notice of class 0 in the fault table and post it; an entry of kind 3 is kept only while a NOTE ring is there to take it
(R215, R330). -/
def State.enterFault (s : State) (p va detail : Nat) : State :=
  let pt := s.part p
  if migrated detail then
    let s1 := if (s.noteRing p).isSome then s.setPart p { pt with moved := pt.moved ++ [(va, detail)] } else s
    (State.flushNotices 4096 p s1).partEvent p (some stOk) 0
  else
    let big := (Tab.find pt.ptes1g (va / 2 ^ 30)).isSome
    let s1 := s.setPart p { pt with faults := pt.faults ++ [⟨if big then va / 2 ^ 30 * 512 else va / 2 ^ 21, va, detail, false, big⟩] }
    (State.flushNotices 4096 p s1).partEvent p (some stPageFault) (detail % 2 ^ 11)

/-- A class 0 event: a fault is merged into an outstanding one of the same page, an event that finds the fault table full waits at its
source, and any other enters the table (R215, R330). A MIGRATED entry merges with no fault (DEDUCED, log 210). -/
def State.raiseFault (s : State) (p va detail : Nat) : State :=
  let pt := s.part p
  if !migrated detail && pt.faults.any fun f => f.covers va then s
  else if 4096 ≤ pt.faults.length + pt.moved.length then s.setPart p { pt with faultQ := pt.faultQ ++ [(va, detail)] }
  else s.enterFault p va detail

/-- Whether a transfer of a partition is suspended on the page of an address. -/
def State.pageWaits (s : State) (p va : Nat) : Bool :=
  (s.coresOf p).any fun c => (s.core c).stSlots.any fun y => y.2.st == .suspended && y.2.faultVa / 2 ^ 21 == va / 2 ^ 21

/-- Faults that waited at their sources enter the table as it has room; one whose transfer has gone meanwhile does not (R330). -/
def State.admitFaults (s : State) (p : Nat) : State :=
  (s.part p).faultQ.foldl
    (fun s x => if bits x.2 27 24 == 0 && !migrated x.2 && !s.pageWaits p x.1 then s else s.raiseFault p x.1 x.2)
    (s.mapPart p fun pt => { pt with faultQ := [] })

/-- Start to bring an attic page into a frame of the pool, or tell the host that the pool is empty (R216). -/
def State.startMigration (s : State) (p va detail : Nat) : State :=
  let pt := s.part p
  let page := va / 2 ^ 21
  if (Tab.find pt.moving page).isSome then s
  else
    match pt.pool with
    | [] => s.raiseFault p va (fld 2 28 + detail % 2 ^ 28)
    | f :: t => s.setPart p { pt with pool := t, moving := Tab.put pt.moving page (f, detail, va) }

/-- What the dispatch cores do for a failed demand translation (Table 7.6). -/
def State.transFault (s : State) (p va : Nat) (e : TransFail) (src slot lctx : Nat) (wr : Bool) (core : Nat) : State :=
  match e with
  | .beyond => s
  | .notPresent => s.raiseFault p va (faultDetail 0 src slot lctx wr core)
  | .readOnly => s.raiseFault p va (faultDetail 1 src slot lctx wr core)
  | .migrate => s.startMigration p va (faultDetail 2 src slot lctx wr core)

/-! Translation caches (R213, Table 7.5). -/

/-- The entries that a walk of an address reads: the page entry, when present, and the table entries of levels 1 and 2 (R210, R213). -/
def Part.walk (pt : Part) (p va : Nat) : Option TlbEnt × List TlbEnt :=
  let t1 : List TlbEnt := if (Tab.find pt.tables (tableKey 2 va)).isSome then [⟨p, 1, va / 2 ^ 39, pt.tableEntry (tableKey 2 va)⟩] else []
  let t2 : List TlbEnt := if (Tab.find pt.tables (tableKey 3 va)).isSome then [⟨p, 2, va / 2 ^ 30, pt.tableEntry (tableKey 3 va)⟩] else []
  match pt.entry va with
  | none => (none, t2 ++ t1)
  | some (size, e) => (if e.toNat.testBit 0 then some ⟨p, if size = 2 ^ 30 then 2 else 3, va / size, e⟩ else none, t2 ++ t1)

def TlbEnt.same (a b : TlbEnt) : Bool := a.level == b.level && a.index == b.index

/-- The pages of 2 MiB that a run of bytes touches. -/
def pageRun (va n : Nat) : List Nat := if n = 0 then [] else rangeIn (va / 2 ^ 21) ((va + n - 1) / 2 ^ 21 - va / 2 ^ 21 + 1)

/-- An engine's own cache of `size` page entries after it has translated some pages: entries of one partition only, the one used last in
front (Table 7.5). -/
def Part.fillTlb (pt : Part) (p size : Nat) (pages : List Nat) (l : List TlbEnt) : List TlbEnt :=
  pages.foldl
    (fun l i => match (pt.walk p (i * 2 ^ 21)).1 with | some e => cachePut e.same (fun _ => true) size e l | none => l)
    (l.filter fun x => x.part == p)

/-- The stream engine of a core has translated some pages. -/
def State.streamPages (s : State) (core : Nat) (pages : List Nat) : State :=
  s.mapCore core fun k => { k with stTlb := (s.part (s.pno core)).fillTlb (s.pno core) 32 pages k.stTlb }

/-- The checkpoint-stack engine of a core has translated the pages of a spill region or of a save area. -/
def State.ckPages (s : State) (core va n : Nat) : State :=
  s.mapCore core fun k => { k with ckTlb := (s.part (s.pno core)).fillTlb (s.pno core) 8 (pageRun va n) k.ckTlb }

/-- An update engine, or the fabric engine, has translated pages of a partition. -/
def State.enginePages (s : State) (engine p : Nat) (pages : List Nat) : State :=
  { s with engTlbs := Tab.put s.engTlbs engine ((s.part p).fillTlb p 64 pages (Tab.get [] s.engTlbs engine)) }

/-- The number of the fabric engine's translation cache among those of the device's engines (DESIGN CHOICE, log 60). -/
def fabEngine : Nat := 8

/-- The first piece of a virtual run that does not translate: its address and why. -/
def State.vfail (s : State) (p va n : Nat) (wr : Bool) : Option (Nat × TransFail) :=
  (pieces va n).findSome? fun x =>
    match s.translate p x.1 wr with
    | .error e => some (x.1, e)
    | .ok _ => none

/-- Whether any piece of a virtual run lies in host memory. -/
def State.vhost (s : State) (p va n : Nat) : Bool :=
  (pieces va n).any fun x =>
    match s.translate p x.1 false with
    | .ok pa => (match s.region pa with | .host _ => true | _ => false)
    | .error _ => false

/-- An engine other than the stream engine meets a page of `[va, va + n)` that does not translate: the fault goes to the dispatch
cores, and the context ends with PAGE_FAULT; a page held in the attic is migrated instead, and the engine waits (R56, R187, R215; log
192). -/
def State.areaFault (s : State) (core lctx va n src : Nat) (wr : Bool) : State :=
  match s.vfail (s.pno core) va n wr with
  | some (a, .migrate) => s.transFault (s.pno core) a .migrate src 0 lctx wr core
  | some (a, e) => (s.transFault (s.pno core) a e src 0 lctx wr core).faultCtx core lctx stPageFault
  | none => s.faultCtx core lctx stPageFault

end Sys2Proof.Machine
end

