-- ==== Sys2Proof/Machine/Num.lean ====
section
/-! DEFINITION. Number formats and exact arithmetic: every float value is a signed multiple of a power of two, every result is
computed exactly and rounded once (R50, R52, R83, R94). -/

namespace Sys2Proof.Machine

/-- A float value: NaN, an infinity, or ±m·2^e. -/
inductive FV where
  | nan
  | inf (neg : Bool)
  | fin (neg : Bool) (m : Nat) (e : Int)
  deriving DecidableEq, Repr

/-- A binary floating-point format: exponent bits, fraction bits, bias, the largest finite code, and the codes of infinity and
NaN where the format has them. `code` is its number in Table 2.1 and Table 3.1. -/
structure FFmt where
  code : Nat
  eb : Nat
  mb : Nat
  bias : Nat
  maxCode : Nat
  infCode : Option Nat
  nanCode : Option Nat
  deriving DecidableEq, Repr

def ieeeFmt (code eb mb : Nat) : FFmt :=
  { code := code, eb := eb, mb := mb, bias := 2 ^ (eb - 1) - 1
    maxCode := (2 ^ eb - 1) * 2 ^ mb - 1
    infCode := some ((2 ^ eb - 1) * 2 ^ mb)
    nanCode := some ((2 ^ eb - 1) * 2 ^ mb + 2 ^ (mb - 1)) }

def fmtBF16 : FFmt := ieeeFmt 0x0 8 7
def fmtFP16 : FFmt := ieeeFmt 0x1 5 10
/-- FP8 E4M3 has no infinity; its NaN is 0x7F (R50, OCP MX 1.0). -/
def fmtE4M3 : FFmt := ⟨0x2, 4, 3, 7, 0x7E, none, some 0x7F⟩
def fmtE5M2 : FFmt := ieeeFmt 0x3 5 2
def fmtE3M2 : FFmt := ⟨0x6, 3, 2, 3, 0x1F, none, none⟩
def fmtE2M3 : FFmt := ⟨0x7, 2, 3, 1, 0x1F, none, none⟩
def fmtE2M1 : FFmt := ⟨0x8, 2, 1, 1, 0x7, none, none⟩
def fmtFP32 : FFmt := ieeeFmt 0xC 8 23
def fmtFP64 : FFmt := ieeeFmt 0xD 11 52

/-- Width of a float format in bits. -/
def FFmt.width (f : FFmt) : Nat := 1 + f.eb + f.mb

/-- The value of a code of the format. -/
def FFmt.decode (f : FFmt) (x : Nat) : FV :=
  let neg := bit x (f.eb + f.mb)
  let mag := x % 2 ^ (f.eb + f.mb)
  if f.infCode = some mag then .inf neg
  else if mag > f.maxCode then .nan
  else
    let be := mag / 2 ^ f.mb
    let fr := mag % 2 ^ f.mb
    if be = 0 then .fin neg fr (1 - (f.bias : Int) - f.mb)
    else .fin neg (fr + 2 ^ f.mb) ((be : Int) - f.bias - f.mb)

/-- Rounding rules: to nearest even, toward zero, down, up, to nearest with ties away, and stochastic with a 32-bit draw
(Table 3.7). -/
inductive Rm where
  | rne | rtz | rdn | rup | rmm
  | sr (draw : Nat)
  deriving DecidableEq, Repr

/-- Whether a magnitude `q + r/2^k` (plus a sticky remainder) rounds up. -/
def roundsUp (rm : Rm) (neg : Bool) (q r k : Nat) (sticky : Bool) : Bool :=
  let inexact := r != 0 || sticky
  match rm with
  | .rtz => false
  | .rdn => neg && inexact
  | .rup => !neg && inexact
  | .rne => 2 * r > 2 ^ k || (2 * r == 2 ^ k && (sticky || q % 2 == 1))
  | .rmm => 2 * r ≥ 2 ^ k && k != 0
  | .sr d => (r <<< 32) >>> k > d

/-- Round `m·2^e` (plus sticky) to an integer multiple of `2^q`: the multiple, and whether the result is inexact. -/
def roundTo (rm : Rm) (neg : Bool) (m : Nat) (e q : Int) (sticky : Bool) : Nat × Bool :=
  if q ≤ e then (m <<< (e - q).toNat, sticky)
  else
    let k := (q - e).toNat
    let qu := m >>> k
    let r := m % 2 ^ k
    (if roundsUp rm neg qu r k sticky then qu + 1 else qu, r != 0 || sticky)

/-- What rounding did beside the code: inexact, overflow, underflow (tiny and inexact). -/
structure RFlags where
  inexact : Bool := false
  overflow : Bool := false
  underflow : Bool := false
  deriving DecidableEq, Repr

/-- NaN of a format: the quiet NaN with the payload that `Config.nanPayload` leaves open (log 25). -/
def FFmt.nanBits (f : FFmt) : Nat :=
  match f.nanCode with
  | none => 0
  | some c =>
    if f.infCode.isNone then c
    else
      let p := Config.nanPayload f.code
      (c ||| (p % 2 ^ (f.mb - 1))) ||| (if p.testBit 63 then 2 ^ (f.eb + f.mb) else 0)

/-- Code of a finite magnitude rounded into the format, and what the rounding did. Overflow is left to the caller. -/
def FFmt.roundMag (f : FFmt) (rm : Rm) (neg : Bool) (m : Nat) (e : Int) (sticky : Bool) : Nat × RFlags :=
  if m = 0 then (0, { inexact := sticky })
  else
    let emin : Int := 1 - (f.bias : Int)
    let top : Int := (Nat.log2 m : Int) + e
    let q : Int := max top emin - f.mb
    let (v, ix) := roundTo rm neg m e q sticky
    let code := (q + f.mb - emin).toNat * 2 ^ f.mb + v
    (code, { inexact := ix, overflow := code > f.maxCode, underflow := ix && top < emin })

/-- Overflow result of a rounding rule, as the magnitude code, without saturation (R83; IEEE 754 for the directed rules). -/
def FFmt.overCode (f : FFmt) (rm : Rm) (neg : Bool) : Nat :=
  let clamp := match rm with
    | .rtz => true
    | .rdn => !neg
    | .rup => neg
    | _ => false
  if clamp then f.maxCode else f.infCode.getD (f.nanCode.getD f.maxCode)

/-- The code of a value rounded once into the format, with what happened. With `sat` overflow gives the largest finite value
(R73, R83). An infinity in a format without one counts as overflow. -/
def FFmt.encode (f : FFmt) (rm : Rm) (sat : Bool) (v : FV) (sticky : Bool := false) : Nat × RFlags :=
  let s (neg : Bool) (c : Nat) : Nat := if neg then c + 2 ^ (f.eb + f.mb) else c
  match v with
  | .nan => (f.nanBits, {})
  | .inf neg =>
    match f.infCode with
    | some c => (s neg c, {})
    | none => (s neg (if sat then f.maxCode else f.nanCode.getD f.maxCode), { overflow := true })
  | .fin neg m e =>
    let (c, fl) := f.roundMag rm neg m e sticky
    if fl.overflow then
      (s neg (if sat then f.maxCode else f.overCode rm neg), { fl with inexact := true })
    else (s neg c, fl)

/-- An exact sum in progress: which special values entered, and the finite part `m·2^e`. -/
structure Exact where
  nan : Bool := false
  pinf : Bool := false
  ninf : Bool := false
  m : Int := 0
  e : Int := 0
  deriving DecidableEq, Repr

/-- Add `k·2^e` to an exact sum. -/
def Exact.addFin (a : Exact) (k : Int) (e : Int) : Exact :=
  if k = 0 then a
  else if a.m = 0 then { a with m := k, e := e }
  else if e ≥ a.e then { a with m := a.m + k * 2 ^ (e - a.e).toNat }
  else { a with m := a.m * 2 ^ (a.e - e).toNat + k, e := e }

def FV.signed (neg : Bool) (m : Nat) : Int := if neg then -(m : Int) else m

/-- Add a value to an exact sum. -/
def Exact.add (a : Exact) (v : FV) : Exact :=
  match v with
  | .nan => { a with nan := true }
  | .inf false => { a with pinf := true }
  | .inf true => { a with ninf := true }
  | .fin neg m e => a.addFin (FV.signed neg m) e

/-- The value of an exact sum; `negZero` is the sign a zero sum takes. -/
def Exact.val (a : Exact) (negZero : Bool := false) : FV :=
  if a.nan || (a.pinf && a.ninf) then .nan
  else if a.pinf then .inf false
  else if a.ninf then .inf true
  else if a.m = 0 then .fin negZero 0 0
  else .fin (a.m < 0) a.m.natAbs a.e

def FV.isNaN : FV → Bool
  | .nan => true
  | _ => false

def FV.neg : FV → FV
  | .nan => .nan
  | .inf n => .inf (!n)
  | .fin n m e => .fin (!n) m e

def FV.abs : FV → FV
  | .nan => .nan
  | .inf _ => .inf false
  | .fin _ m e => .fin false m e

def FV.isZero : FV → Bool
  | .fin _ 0 _ => true
  | _ => false

def FV.isNeg : FV → Bool
  | .nan => false
  | .inf n => n
  | .fin n _ _ => n

def FV.isInf : FV → Bool
  | .inf _ => true
  | _ => false

/-- Exact product; 0·∞ is NaN. -/
def FV.mul (x y : FV) : FV :=
  match x, y with
  | .nan, _ => .nan
  | _, .nan => .nan
  | .inf a, .inf b => .inf (a != b)
  | .inf a, .fin b m _ => if m = 0 then .nan else .inf (a != b)
  | .fin a m _, .inf b => if m = 0 then .nan else .inf (a != b)
  | .fin a m e, .fin b n f => .fin (a != b) (m * n) (e + f)

/-- Exact sum of two values. A zero sum is −0 only when both terms are (`rdn`: also when they cancel), IEEE 754. -/
def FV.add (x y : FV) (rdn : Bool := false) : FV :=
  let bothNeg := x.isNeg && y.isNeg
  let anyNeg := x.isNeg || y.isNeg
  Exact.val (Exact.add (Exact.add {} x) y) (if rdn then anyNeg else bothNeg)

def FV.scale (v : FV) (k : Int) : FV :=
  match v with
  | .fin n m e => .fin n m (e + k)
  | w => w

/-- Order of two values that are not NaN: −1, 0 or 1. +0 equals −0. -/
def FV.cmp (x y : FV) : Int :=
  let key (v : FV) : Exact := Exact.add {} v
  let d := Exact.add (key x) y.neg
  match x, y with
  | .inf a, .inf b => if a = b then 0 else if a then -1 else 1
  | .inf a, _ => if a then -1 else 1
  | _, .inf b => if b then 1 else -1
  | _, _ => d.m.sign

def FV.lt (x y : FV) : Bool := !x.isNaN && !y.isNaN && x.cmp y < 0
def FV.le (x y : FV) : Bool := !x.isNaN && !y.isNaN && x.cmp y ≤ 0
def FV.eq (x y : FV) : Bool := !x.isNaN && !y.isNaN && x.cmp y = 0

/-- IEEE 754 minimumNumber: the other operand for a NaN, −0 below +0. -/
def FV.minNum (x y : FV) : FV :=
  if x.isNaN then y else if y.isNaN then x
  else if x.cmp y < 0 then x else if x.cmp y > 0 then y else if x.isNeg then x else y

/-- IEEE 754 maximumNumber. -/
def FV.maxNum (x y : FV) : FV :=
  if x.isNaN then y else if y.isNaN then x
  else if x.cmp y > 0 then x else if x.cmp y < 0 then y else if x.isNeg then y else x

/-- Quotient with enough bits for one correct rounding, and a sticky remainder. -/
def FV.div (x y : FV) : FV × Bool :=
  match x, y with
  | .nan, _ => (.nan, false)
  | _, .nan => (.nan, false)
  | .inf _, .inf _ => (.nan, false)
  | .inf a, .fin b _ _ => (.inf (a != b), false)
  | .fin a _ _, .inf b => (.fin (a != b) 0 0, false)
  | .fin a m e, .fin b n f =>
    if n = 0 then (if m = 0 then .nan else .inf (a != b), false)
    else
      let k := 70 + Nat.log2 n
      (.fin (a != b) ((m <<< k) / n) (e - f - k), (m <<< k) % n != 0)

/-- Integer square root by `fuel` binary digits. -/
def isqrtGo : Nat → Nat → Nat → Nat
  | 0, _, r => r
  | k + 1, n, r =>
    let t := r + 2 ^ k
    isqrtGo k n (if t * t ≤ n then t else r)

def isqrt (n : Nat) : Nat := isqrtGo (Nat.log2 n / 2 + 1) n 0

/-- Square root with a sticky remainder; the root of a negative number is NaN. -/
def FV.sqrt (x : FV) : FV × Bool :=
  match x with
  | .nan => (.nan, false)
  | .inf n => (if n then .nan else .inf false, false)
  | .fin n m e =>
    if m = 0 then (.fin n 0 0, false)
    else if n then (.nan, false)
    else
      let k := if (e % 2) = 0 then 140 else 141
      let w := m <<< k
      let r := isqrt w
      (.fin false r ((e - k) / 2), r * r != w)

/-- A value as an integer, rounded and saturated to [lo, hi]; the flag tells whether it saturated. NaN gives 0 (Table 3.7). -/
def FV.toInt (v : FV) (rm : Rm) (lo hi : Int) : Int × Bool × Bool :=
  match v with
  | .nan => (0, false, false)
  | .inf n => (if n then lo else hi, true, false)
  | .fin n m e =>
    let (q, ix) := roundTo rm n m e 0 false
    let i := FV.signed n q
    if i < lo then (lo, true, ix) else if i > hi then (hi, true, ix) else (i, false, ix)

/-- An integer as a value. -/
def FV.ofInt (i : Int) : FV := .fin (i < 0) i.natAbs 0

/-- The E8M0 scale of a block: 2^(x − 127); code 0xFF marks the whole block NaN (R52). -/
def e8m0 (x : Nat) : Option Int := if x = 0xFF then none else some ((x : Int) - 127)

/-- Element bits of a format code (Table 2.1, Table 3.1). -/
def elemBits (c : Nat) : Nat :=
  match c with
  | 0x0 | 0x1 => 16
  | 0x6 | 0x7 => 6
  | 0x8 | 0xB => 4
  | 0xC | 0xE => 32
  | 0xD => 64
  | _ => 8

/-- Whether a format code is one of the MX formats. -/
def isMx (c : Nat) : Bool := 0x4 ≤ c && c ≤ 0x9

/-- Whether a format code is an integer format (INT8, INT4, INT32). MXINT8 counts as float (R51). -/
def isIntFmt (c : Nat) : Bool := c == 0xA || c == 0xB || c == 0xE

/-- The float format of a code, where the code has one. -/
def fltFmt (c : Nat) : Option FFmt :=
  match c with
  | 0x0 => some fmtBF16
  | 0x1 => some fmtFP16
  | 0x2 | 0x4 => some fmtE4M3
  | 0x3 | 0x5 => some fmtE5M2
  | 0x6 => some fmtE3M2
  | 0x7 => some fmtE2M3
  | 0x8 => some fmtE2M1
  | 0xC => some fmtFP32
  | 0xD => some fmtFP64
  | _ => none

/-- The value of an element code; MXINT8 elements are two's complement multiples of 2⁻⁶ (OCP MX 1.0). -/
def elemVal (c x : Nat) : FV :=
  match fltFmt c with
  | some f => f.decode x
  | none => if c = 0x9 then FV.scale (.ofInt (sgn 8 x)) (-6) else .ofInt (sgn (elemBits c) x)

/-- Element `i` of packed element bytes (R50: 6-bit and 4-bit elements packed with the lower index in the low bits). -/
def elemAt (rd : Nat → Nat) (c i : Nat) : Nat :=
  let w := elemBits c
  let b := i * w
  let lo := rd (b / 8) + 256 * (if (b % 8) + w > 8 then rd (b / 8 + 1) else 0)
  match w with
  | 16 => rd (2 * i) + 256 * rd (2 * i + 1)
  | 32 => rd (4 * i) + 2 ^ 8 * rd (4 * i + 1) + 2 ^ 16 * rd (4 * i + 2) + 2 ^ 24 * rd (4 * i + 3)
  | 64 => (List.range 8).foldl (fun a k => a + 2 ^ (8 * k) * rd (8 * i + k)) 0
  | _ => (lo >>> (b % 8)) % 2 ^ w

/-- Pack codes of `w` bits into bytes, the first in the low bits; the spare high nibble of an odd count of INT4 is written as 0
(DESIGN CHOICE, log 190). -/
def packElems (w : Nat) (xs : List Nat) : List Byte :=
  let total := xs.foldr (fun x a => x % 2 ^ w + 2 ^ w * a) 0
  leBytes (cdiv (xs.length * w) 8) total

end Sys2Proof.Machine
end

