-- ==== Sys2Proof/Machine/Flags.lean ====
section
/-! DEFINITION. The sticky status flags of the arrays and the vector engine, and how each value computation sets them (R52, R83,
R100, Tables 2.14, 3.7, 3.12). -/

namespace Sys2Proof.Machine

/-- Flags that a computation raises: SAT, NAN, INF, and CMPNAN and DIGMIS of the vector engine. -/
structure Fl where
  sat : Bool := false
  nan : Bool := false
  inf : Bool := false
  cmpnan : Bool := false
  digmis : Bool := false
  deriving DecidableEq, Repr

def Fl.or (a b : Fl) : Fl := ⟨a.sat || b.sat, a.nan || b.nan, a.inf || b.inf, a.cmpnan || b.cmpnan, a.digmis || b.digmis⟩

/-- Raise flags in MX_STATUS (Table 2.14). -/
def MxStat.raise (m : MxStat) (f : Fl) : MxStat := { m with sat := m.sat || f.sat, nan := m.nan || f.nan, inf := m.inf || f.inf }

/-- Raise flags in VX_STATUS (Table 3.12). -/
def VxStat.raise (v : VxStat) (f : Fl) : VxStat :=
  { v with
    sat := v.sat || f.sat, nan := v.nan || f.nan, inf := v.inf || f.inf,
    cmpnan := v.cmpnan || f.cmpnan, digmis := v.digmis || f.digmis }

/-- Round a value to FP32 with the flags of an accumulator: NAN for a NaN result, INF for an overflow (R52). -/
def toF32 (v : FV) : Nat × Fl :=
  let (c, r) := fmtFP32.encode .rne false v
  (c, { nan := v.isNaN, inf := r.overflow })

/-- Add to an FP32 accumulator with one rounding (R52). -/
def accF32 (a : Nat) (v : FV) : Nat × Fl := toF32 ((fmtFP32.decode a).add v)

/-- Add to an INT32 accumulator, saturating (R52). -/
def accI32 (a : Nat) (v : Int) : Nat × Fl :=
  let t := sgn 32 a + v
  if t > 2147483647 then (0x7FFFFFFF, { sat := true })
  else if t < -2147483648 then (0x80000000, { sat := true })
  else (pat 32 t, {})

/-- Write a value in a float format of the vector engine: one rounding, the overflow rule of R83, and the flags it sets. The NaN that an
overflow gives in FP8 E4M3 sets INF alone, not NAN (DESIGN CHOICE, log 203). -/
def putFloat (f : FFmt) (rm : Rm) (sat : Bool) (v : FV) (sticky : Bool := false) : Nat × Fl :=
  let (c, r) := f.encode rm sat v sticky
  (c, { nan := v.isNaN, sat := r.overflow && sat, inf := r.overflow && !sat })

/-- Write an exact integer in a `w`-bit integer format: wraps, or saturates and sets SAT when asked (R83). -/
def putInt (w : Nat) (sat : Bool) (v : Int) : Nat × Fl :=
  let hi : Int := 2 ^ (w - 1) - 1
  let lo : Int := -(2 ^ (w - 1))
  if sat && v > hi then (pat w hi, { sat := true })
  else if sat && v < lo then (pat w lo, { sat := true })
  else (pat w v, {})

/-- Convert a float value to a `w`-bit integer format: to nearest even, saturating, NaN gives 0 (Table 3.7). -/
def floatToInt (w : Nat) (v : FV) : Nat × Fl :=
  let (i, s, _) := v.toInt .rne (-(2 ^ (w - 1))) (2 ^ (w - 1) - 1)
  (pat w i, { sat := s, nan := v.isNaN })

end Sys2Proof.Machine
end

