-- ==== Sys2Proof/Machine/Elementary.lean ====
section
/-! DEFINITION. Reference values of the built-in functions of Table 3.9 in fixed point, and the choice of a device's own value within the
error that the table allows (R100, R101, R103). -/

namespace Sys2Proof.Machine

/-- One in the fixed point of the references: 320 fraction bits. -/
def fxOne : Int := 2 ^ 320

def fxMul (a b : Int) : Int := a * b / fxOne
def fxDiv (a b : Int) : Int := a * fxOne / b

/-- A finite value in fixed point, and back. -/
def fxOf (v : FV) : Int :=
  match v with
  | .fin n m e => FV.signed n m * 2 ^ (e + 320).toNat / 2 ^ (-(e + 320)).toNat
  | _ => 0

def fxVal (x : Int) : FV := .fin (x < 0) x.natAbs (-320)

/-- eˣ for |x| below 128: the series at x/256, squared eight times. -/
def fxExp (x : Int) : Int :=
  let y := x / 256
  let s := (List.range 64).foldl (fun (a : Int) k => fxOne + fxMul y a / (64 - k : Nat)) fxOne
  (List.range 8).foldl (fun a _ => fxMul a a) s

/-- ln(1 + t) for t in [0, 1]: 2·artanh(t/(2 + t)). -/
def fxLog1p (t : Int) : Int :=
  let z := fxDiv t (2 * fxOne + t)
  let z2 := fxMul z z
  2 * fxMul z ((List.range 112).foldl (fun (a : Int) k => fxOne / (2 * (111 - k) + 1 : Nat) + fxMul z2 a) 0)

/-- arctan(1/n). -/
def fxAtanInv (n : Int) : Int :=
  (List.range 72).foldl (fun (a : Int) k => (fxOne / (2 * (71 - k) + 1 : Nat)) - a / (n * n)) 0 / n

def fxPi : Int := 16 * fxAtanInv 5 - 4 * fxAtanInv 239

def fxSqrt (x : Int) : Int := isqrt (x * fxOne).toNat

/-- The density and the distribution function of the normal distribution, |x| at most 6. -/
def fxPhi (x : Int) : Int := fxDiv (fxExp (-(fxMul x x) / 2)) (fxSqrt (2 * fxPi))

def fxCdf (x : Int) : Int :=
  let x2 := fxMul x x
  let s := (List.range 200).foldl (fun (a : Int) k => fxOne + fxMul x2 a / (2 * (200 - k) + 1 : Nat)) fxOne
  fxOne / 2 + fxMul (fxPhi x) (fxMul x s)

/-- 1/(1 + e⁻ˣ), and its derivative. -/
def fxSigmoid (x : Int) : Int :=
  let e := fxExp (-(x.natAbs : Int))
  fxDiv (if x < 0 then e else fxOne) (fxOne + e)

def fxSigmoid' (x : Int) : Int := let s := fxSigmoid x; let t := fxSigmoid (-x); fxMul s t

/-- The argument of the GELU tanh form, 2·√(2/π)·(x + 0.044715·x³), and its derivative (PRESUMED: the usual constants, log 20). -/
def fxTanhArg (x : Int) : Int :=
  2 * fxMul (fxSqrt (fxDiv (2 * fxOne) fxPi)) (x + fxMul x (fxMul x x) * 44715 / 1000000)

def fxTanhArg' (x : Int) : Int :=
  2 * fxMul (fxSqrt (fxDiv (2 * fxOne) fxPi)) (fxOne + 3 * fxMul x x * 44715 / 1000000)

/-- f(x) of functions 2 to 7, x in the table domain. -/
def fxFn (func : Nat) (x : Int) : Int :=
  match func with
  | 0x2 => fxSigmoid x
  | 0x3 => let e := fxExp (-2 * (x.natAbs : Int)); x.sign * fxDiv (fxOne - e) (fxOne + e)
  | 0x4 => fxMul x (fxSigmoid x)
  | 0x5 => fxMul x (fxCdf x)
  | 0x6 => fxMul x (fxSigmoid (fxTanhArg x))
  | _ => max x 0 + fxLog1p (fxExp (-(x.natAbs : Int)))

/-- f′(x) of functions 2 to 7, x in the table domain. -/
def fxFn' (func : Nat) (x : Int) : Int :=
  match func with
  | 0x2 => fxSigmoid' x
  | 0x3 => 4 * fxSigmoid' (2 * x)
  | 0x4 => fxSigmoid x + fxMul x (fxSigmoid' x)
  | 0x5 => fxCdf x + fxMul x (fxPhi x)
  | 0x6 => let u := fxTanhArg x; fxSigmoid u + fxMul x (fxMul (fxTanhArg' x) (fxSigmoid' u))
  | _ => fxSigmoid x

/-- Half width of the table domain of functions 2 to 7 (Table 3.9). -/
def fnHalf (func : Nat) : Nat :=
  match func with
  | 0x2 | 0x4 => 16
  | 0x3 => 9
  | 0x5 | 0x6 => 6
  | _ => 20

/-- Whether a number lies in a function's table domain (Table 3.9). -/
def inDomain (func : Nat) (v : FV) : Bool :=
  match func with
  | 0x1 => !v.isNaN && !v.isInf
  | 0x8 => !v.isNaN && !v.isInf && !v.isZero
  | 0x9 => !v.isNaN && !v.isInf && !v.isZero && !v.isNeg
  | _ => v.abs.le (FV.ofInt (fnHalf func))

/-- The mathematical value of f or f′ at a number of the table domain, to at least 60 bits; of exp, at a number of magnitude below 128. -/
def fnRef (func : Nat) (deriv : Bool) (v : FV) : FV :=
  let one : FV := .ofInt 1
  match func with
  | 0x1 => fxVal (fxExp (fxOf v))
  | 0x8 => if deriv then (one.div (v.mul v)).1.neg else (one.div v).1
  | 0x9 => if deriv then ((one.div (v.mul v.sqrt.1)).1.neg).scale (-1) else (one.div v.sqrt.1).1
  | _ => fxVal (if deriv then fxFn' func (fxOf v) else fxFn func (fxOf v))

/-- Worst-case error in ulp (Table 3.9). -/
def fnUlp (func fmt : Nat) (deriv : Bool) : Nat :=
  if fmt ≠ 0xC then 1
  else match func with
  | 0x1 => 2
  | 0x2 | 0x3 => if deriv then 4 else 3
  | 0x4 | 0x5 | 0x6 => if deriv then 5 else 4
  | 0x7 => 3
  | _ => if deriv then 2 else 1

/-- Exponent of a format's unit in the last place at a value. -/
def FFmt.ulpExp (f : FFmt) (v : FV) : Int :=
  let emin : Int := 1 - (f.bias : Int)
  (match v with
    | .fin _ m e => if m = 0 then emin else max ((Nat.log2 m : Int) + e) emin
    | _ => emin) - f.mb

/-- The value of a code, an infinity read as the first magnitude past the largest finite one. -/
def FFmt.finVal (f : FFmt) (c : Nat) : FV :=
  match f.decode (c % 2 ^ f.width) with
  | .inf n => .fin n 1 (2 ^ f.eb - 1 - f.bias : Int)
  | v => v

/-- The value a device gives for the mathematical value `y`: its own, the code `own` of `g`, where that lies within `n` ulp of `y` in
format `f`; else `y`, which the caller rounds (R100). -/
def withinUlp (f g : FFmt) (n : Nat) (y : FV) (own : Nat) : FV :=
  let c := g.finVal own
  if ((c.add y.neg).abs).le (.fin false n (f.ulpExp y)) then c else y

end Sys2Proof.Machine
end

