-- ==== Sys2Proof/Machine/Operands.lean ====
section
/-! DEFINITION. Operand forms: base and bound pairs, local and circular operands, banks, and the gate through which every work
command passes at the head of its context (R23, R38, R41, R131 to R136, R194, R306, R308). -/

namespace Sys2Proof.Machine

/-- Fields of a pair (Tables 4.9, 4.10). -/
def Pair.addr (p : Pair) : Nat := fld (bits p.base.toNat 47 4) 4
def Pair.creg (p : Pair) : Nat := bits p.base.toNat 3 2
def Pair.mode (p : Pair) : Nat := bits p.base.toNat 1 0
def Pair.lim (p : Pair) : Nat := bits p.limit.toNat 16 0

/-- Bytes held between HEAD and TAIL of a circular region (R134). -/
def Circ.units (c : Circ) : Nat :=
  if c.headWrap = c.tailWrap then c.tailPos - c.headPos else c.size + c.tailPos - c.headPos

/-- Whether a linear pair is a local pair of its core (R132). -/
def Pair.isLocal (p : Pair) (core : Nat) : Bool :=
  p.mode == 0 && scrPa core 0 ≤ p.addr && p.addr + p.lim * 16 ≤ scrPa core 0xC0000

/-- The window offset of `n` bytes at offset `o` (16-byte units) of a pair, for the commands that accept local and circular pairs
only (R131, R132, R136). -/
def localOff (k : Core) (c : Ctx) (core pair o n : Nat) : Except Nat Nat :=
  let p := c.pair pair
  if p.mode = 1 then
    let g := k.circAt p.creg
    if !g.en || g.units * 16 < o * 16 + n then .error stBoundFault
    else
      let pos := (g.headPos + o) * 16 % (g.size * 16)
      if g.size * 16 < pos + n then .error stBoundFault else .ok (g.start * 16 + pos)
  else if !p.isLocal core || p.lim * 16 < o * 16 + n then .error stBoundFault
  else .ok (p.addr - scrPa core 0 + o * 16)

/-- Whether an address lies in the set or the clear alias of scratch (R122). -/
def inAlias (pa : Nat) : Bool := scratchBase + 2 ^ 32 ≤ pa && pa < scratchBase + 3 * 2 ^ 32

/-- The window offset of a work command: its stream lies in the own pantry or cellar, and the pair bounds it (R38). A pair whose
extent goes on into the control window still bounds a stream in the pantry or cellar (R132); a stream is not read through an alias
(R123). -/
def fetchOff (k : Core) (c : Ctx) (core pair o : Nat) : Except Nat Nat :=
  let p := c.pair pair
  if p.mode = 1 then localOff k c core pair o 16
  else if o * 16 + 16 ≤ p.lim * 16 ∧ inAlias p.addr then .error stIllegalOp
  else if p.lim * 16 < o * 16 + 16 ∨ p.addr < scrPa core 0 ∨ scrPa core 0xC0000 < p.addr + o * 16 + 16 then .error stBoundFault
  else .ok (p.addr - scrPa core 0 + o * 16)

/-- The device physical address of `n` bytes at offset `o` of a linear pair of any view (R131, R132). -/
def linearPa (c : Ctx) (pair o n : Nat) : Except Nat Nat :=
  let p := c.pair pair
  if p.lim * 16 < o * 16 + n then .error stBoundFault else .ok (p.addr + o * 16)

/-- The bank that holds a window offset (Table 4.1). -/
def bankOf (off : Nat) : Nat :=
  if off < 0x40000 then off / 0x10000 else if off < 0x80000 then 4 else 5

def bankBase (b : Nat) : Nat := if b < 4 then b * 0x10000 else if b = 4 then 0x40000 else 0x80000
def bankSize (b : Nat) : Nat := if b < 4 then 0x10000 else 0x40000

/-- Whether a run of window offsets touches a bank. -/
def touches (b off n : Nat) : Bool := n != 0 && off < bankBase b + bankSize b && bankBase b < off + n

/-- The banks that a run of window offsets touches. -/
def banksOf (off n : Nat) : List Nat := (List.range 6).filter fun b => touches b off n

/-- Whether any bank of a run is off, TO_OFF included (R128, R129). -/
def Core.bankIsOff (k : Core) (off n : Nat) : Bool :=
  (banksOf off n).any fun b => (k.bank b).st == .off || (k.bank b).st == .toOff

/-- Whether every bank of a run is ON (R129). -/
def Core.bankIsOn (k : Core) (off n : Nat) : Bool := (banksOf off n).all fun b => (k.bank b).st == .on

/-- Whether any bank of a run is without power: it refuses even an access that it counts (Table 4.4). -/
def Core.bankIsDown (k : Core) (off n : Nat) : Bool := (banksOf off n).any fun b => (k.bank b).st == .off

/-- Whether every bank of a run serves an access: one in TO_RET does, and one in TO_OFF serves those it counts (Table 4.4). -/
def Core.bankServes (k : Core) (off n : Nat) (counted : Bool) : Bool :=
  (banksOf off n).all fun b => (k.bank b).st == .on || (k.bank b).st == .toRet || (counted && (k.bank b).st == .toOff)

/-- An access arrives at a bank: TO_RET returns to ON, RET begins to wake (Table 4.5). -/
def Core.arrive (k : Core) (b : Nat) : Core :=
  let x := k.bank b
  match x.st with
  | .toRet => k.setBank b { x with st := .on }
  | .ret => { k.setBank b { x with st := .wake, fromOff := false } with scr := { k.scr with wakes := sat16 k.scr.wakes 1 } }
  | _ => k

/-- An access arrives at every bank of a run. -/
def Core.arriveAll (k : Core) (off n : Nat) : Core := (banksOf off n).foldl Core.arrive k

/-- Count an access refused with BANK_OFF (Table 4.15). -/
def Core.noteOff (k : Core) : Core := { k with scr := { k.scr with offrefused := sat16 k.scr.offrefused 1 } }

/-- Reserved bits of each opcode's layout, as the highest bit of the opcode-specific part that is defined plus the gaps inside
(Tables 1.7, 2.4, 2.7, 2.9, 2.10 and the field tables of chapters 3, 5, 6, 8 and 10). -/
def reservedZero (w : Cmd) : Bool :=
  let z (hi lo : Nat) : Bool := cf w hi lo == 0
  match opcodeOf w with
  | 0x00 | 0x05 | 0x08 => z 127 20
  | 0x01 => z 39 39 && z 127 64
  | 0x02 => z 127 52
  | 0x03 => z 127 22
  | 0x04 => z 127 60
  | 0x06 => z 127 45
  | 0x07 => z 127 38
  | 0x09 => z 127 37
  | 0x20 | 0x21 | 0x26 => z 127 26
  | 0x22 => z 127 73
  | 0x23 => z 127 72
  | 0x24 => z 127 27
  | 0x25 => z 127 46
  | 0x40 | 0x47 => z 127 81
  | 0x41 => z 127 88
  | 0x42 => z 127 106
  | 0x43 | 0x44 => z 127 81
  | 0x45 => z 45 28 && z 77 64 && z 127 79
  | 0x46 => z 127 79
  | 0x60 => z 127 121
  | 0x61 => z 33 24 && z 111 95
  | 0x62 => z 33 24 && z 111 95
  | 0x63 => z 123 88
  | 0x64 => true
  | 0x65 => z 25 20 && z 127 125
  | 0x66 => z 127 91
  | 0x67 => z 127 67
  | 0x68 => z 127 94
  | 0x69 => z 127 90
  | 0x6A => z 127 120
  | 0x80 => z 127 103
  | 0x81 => z 127 88
  | 0x82 => z 127 44
  | 0x83 => z 127 38
  | 0x84 => z 127 20
  | 0x90 => z 127 86
  | 0x91 => z 127 80
  | 0x92 => z 127 74
  | 0x93 => z 127 53
  | 0x94 => z 127 107
  | 0xA0 => z 127 102
  | 0xA1 => z 127 38
  | 0xA2 => z 127 60
  | 0xA3 => z 127 36
  | _ => true

/-- What a command at the head does in replay (Table 6.4, R41, R79, R89, R176, R192). -/
inductive ReplayAct where
  | run | skip | skipSilent | illegal
  deriving DecidableEq, Repr

def replayAct (w : Cmd) : ReplayAct :=
  let op := opcodeOf w
  let a := aware w
  if op < 0x20 then (if a then .skipSilent else if op = 0x09 then .illegal else .run)
  else if op < 0x40 then (if op = 0x21 then .skip else if a then .skip else .run)
  else if op < 0x60 then (if a && !(op == 0x40 && cb w 80) then .skip else .run)
  else if op < 0x80 then (if a then .skip else if op = 0x66 then .illegal else .run)
  else if op < 0x90 then
    (if op = 0x83 then .illegal
     else if op = 0x84 then (if a then .illegal else .run)
     else if a then .skip else .illegal)
  else if op = 0x90 || op = 0x92 then .skip
  else if op = 0x94 then (if a then .skip else .run)
  else if a then .skip else .illegal

/-- The class that a command's charge takes: its natural class, or CTX_CTRL.ECLASS under ECLASS_OVR (R306). -/
def classOf (c : Ctx) (w : Cmd) (natural : Nat) : Nat := if cb w 18 then c.eclass else natural

/-- A command that stands at the head of its context and may issue. -/
structure Head where
  core : Nat
  slot : Nat
  ctx : Ctx
  w : Cmd
  replay : Bool
  imm : Cmd := 0
  deriving DecidableEq, Repr

/-- What the gate decides for one command of a context. -/
inductive Gate where
  /-- The command named is not the one at the head, or the context does not run: the event does not take place. -/
  | off
  /-- The head waits, for the cause shown in CTX_STATUS. -/
  | held (cause : Nat)
  /-- The head fails a check of R20, R38, R194 or R306 and ends its context. -/
  | ended (status : Nat)
  /-- The head is skipped or suppressed in replay; `silent` neither waits nor signals (R41, R194). -/
  | skip (h : Head) (silent : Bool)
  /-- The head passes. -/
  | go (h : Head)
  deriving DecidableEq, Repr

/-- The immediate slot of an UPDATE_BLOCKS at the head: none yet, or a status that ends the context (R230, R231, Table 8.10). -/
def Ctx.headImm (c : Ctx) : Option (Except Nat Cmd) :=
  let ok (i : Cmd) : Except Nat Cmd := if i.toNat % 256 = 0xAF ∧ i.toNat / 2 ^ 118 = 0 then .ok i else .error stIllegalOp
  match c.inj with
  | [_] => none
  | _ :: i :: _ => some (ok i)
  | [] =>
    match c.buf with
    | f :: _ => (match f.immBad with | some st => some (.error st) | none => some (ok f.imm))
    | [] => none

/-- Slots that a command takes in its buffer: two for UPDATE_BLOCKS (R231). -/
def slotsOf (w : Cmd) : Nat := if opcodeOf w = 0xA0 then 2 else 1

/-- The gate (R23, R38, R41, R194, R306): the command of opcode `op` at the head of a context that runs. -/
def gateOn (s : State) (core n : Nat) (ok : Nat → Bool) : Gate :=
  let k := s.core core
  let c := k.slot n
  if k.fenced || !s.clocked core then .off
  else if c.st ≠ .ready ∧ c.st ≠ .blocked then .off
  else if c.paused then .off
  else
    match c.head with
    | none => .off
    | some w =>
      if !ok (opcodeOf w) then .off
      else
        let cause := headCause k c
        let act := if c.replay then replayAct w else .run
        if cause ≠ 0 then .held cause
        else if k.reserved.isSome ∧ k.reserved ≠ some n then .held c.cause
        else if cb w 19 ∨ !reservedZero w then .ended stIllegalOp
        else if !c.inj.isEmpty ∧ 0x04 ≤ opcodeOf w ∧ opcodeOf w ≤ 0x07 then .ended stIllegalOp
        else if cb w 18 ∧ 11 ≤ c.eclass ∧ c.eclass ≤ 14 then .ended stIllegalOp
        else
          match (if opcodeOf w = 0xA0 then c.headImm else some (.ok 0)) with
          | none => .held 5
          | some (.error st) => .ended st
          | some (.ok i) =>
            let h : Head := { core := core, slot := n, ctx := c, w := w, replay := c.replay, imm := i }
            match act with
            | .run => .go h
            | .skip => .skip h false
            | .skipSilent => .skip h true
            | .illegal => .ended stIllegalOp

def gate (s : State) (core n op : Nat) : Gate := gateOn s core n (fun o => o == op)

/-- Issue the head: the tokens of `mask` are consumed, it leaves its buffer, the issue is counted and charged, and counts for every other
head of the core that is held for budget (R25, R35, R306, R308). A fetched position that carries a status ends the context when it
becomes the head (R38). -/
def State.issueTaking (s : State) (h : Head) (mask rate cycles : Nat) : State :=
  let s1 := s.chargeIssue h.core rate cycles
  let k := s1.core h.core
  let c := k.slot h.slot
  let others := (List.range 8).foldl (fun (k : Core) m =>
    if m = h.slot then k
    else
      let d := k.slot m
      if d.cause = 4 then
        let d1 := { d with budSkips := d.budSkips + 1 }
        k.setSlot m d1
      else k) k
  let c1 := { c with
    tokens := tokTake c.tokens mask
    inj := c.inj.drop (slotsOf h.w)
    buf := if c.inj.isEmpty then c.buf.tail else c.buf
    issued := c.issued + 1
    issuedAt := others.stamp
    budSkips := 0
    rdyAt := none
    waitAt := none
    cause := 0 }
  let k1 := { others.setSlot h.slot c1 with
    stamp := others.stamp + 1
    lastIssue := some h.slot
    reserved := if others.reserved = some h.slot then none else others.reserved }
  s1.setCore h.core k1

/-- Issue the head with its waits. -/
def State.issue (s : State) (h : Head) (rate cycles : Nat) : State :=
  s.issueTaking h (waitMask (s.slot h.core h.slot).bank h.w) rate cycles

/-- End the context when the position now at its head carries a status (R38, Table 7.8). -/
def State.badHead (s : State) (core n : Nat) : State :=
  let c := s.slot core n
  if c.st.live && c.inj.isEmpty then
    match c.buf with
    | f :: _ =>
      match f.bad with
      | some st => s.faultCtx core c.lctx st
      | none => s
    | [] => s
  else s

/-- After a command has issued: bring the core's contexts up to date and end the context if its next position is bad. -/
def State.settle (s : State) (core n : Nat) : State :=
  (s.mapCore core Core.refresh).badHead core n

/-- A command that completes at issue signals its SIG token (Table 1.8). -/
def State.done (s : State) (h : Head) : State :=
  let g := sigOf h.w
  (if g = 0xF then s else s.mapCore h.core fun k => k.signal h.ctx.lctx (2 ^ g)).settle h.core h.slot

/-- A command that completes later joins the outstanding commands of its context (R26). Answers its number. -/
def State.leave (s : State) (h : Head) (kind : PendKind) : Nat × State :=
  let k := s.core h.core
  (k.nextId, s.setCore h.core
    { k with nextId := k.nextId + 1, pend := k.pend ++ [⟨k.nextId, h.ctx.lctx, kind, sigOf h.w⟩] })

/-- A skipped or suppressed command: one cycle in class 0; unless silent, its waits are consumed and SIG signalled (R41, R194). -/
def State.skipped (s : State) (h : Head) (silent : Bool) : State :=
  if silent then (s.issueTaking h 0 (classRate 0) 1).settle h.core h.slot
  else (s.issue h (classRate 0) 1).done h

/-- Run a work command of opcode `op` at the head of a context: `body` is the group's own meaning. -/
def work (core n op : Nat) (s : State) (body : Head → State → State)
    (onSkip : Head → State → State := fun _ s => s) : Out :=
  if 2048 ≤ core ∨ 8 ≤ n then .next s
  else
    match gate s core n op with
    | .off => .next s
    | .held cause => .next (s.hold core n cause)
    | .ended st => .next (s.faultCtx core (s.slot core n).lctx st)
    | .skip h silent => if s.fits core (classRate 0) 1 then
      .next ((onSkip h s).skipped h silent) else .next (s.hold core n 4)
    | .go h => .next (body h s)

/-- Issue with a charge, or hold for the budget (R308): `rate` and `cycles` of the charge, then what the command does. -/
def State.pay (s : State) (h : Head) (natural cycles : Nat) (k : State → State) : State :=
  let rate := classRate (classOf h.ctx h.w natural)
  if s.fits h.core rate cycles then k (s.issue h rate cycles) else s.hold h.core h.slot 4

/-- A command whose issue check fails ends its context and has no other effect (R80, R113, R177, R201); an operand in a bank that is off
counts as an access refused (Table 4.15). -/
def State.failed (s : State) (h : Head) (status : Nat) : State :=
  (if status = stBankOff then s.mapCore h.core Core.noteOff else s).faultCtx h.core h.ctx.lctx status

end Sys2Proof.Machine
end

