-- ==== Sys2Proof/Machine/VecMath.lean ====
section
/-! DEFINITION. The arithmetic of the vector engine: element operations, table and built-in functions, MX blocks, pepper
generators, reductions and digests (R83, R91 to R97, R100, R104, R105, R109, R111). -/

namespace Sys2Proof.Machine

/-- Lanes L of a format (Table 3.1); MX and INT4 count as 512 (Table 3.2). -/
def vLanes (fmt : Nat) : Nat :=
  match fmt with
  | 0x0 | 0x1 => 256
  | 0xC | 0xE => 128
  | 0xD => 32
  | _ => 512

/-- Formats of the arithmetic commands VOP and VREDUCE (Table 3.1). -/
def vArith (fmt : Nat) : Bool := fmt ≤ 3 || fmt == 0xA || fmt == 0xC || fmt == 0xD || fmt == 0xE

/-- Bytes of `n` packed elements. -/
def vBytes (fmt n : Nat) : Nat := cdiv (n * elemBits fmt) 8

/-- Bytes of one row of a multi-row operand (R84). -/
def vRow (fmt n : Nat) : Nat := roundUp (vBytes fmt n) 16

/-- Used operands (bit 0 X, bit 1 Y, bit 2 Z) and W of an operation in a format that it allows (Table 3.5). -/
def vopInfo (op fmt : Nat) : Option (Nat × Nat) :=
  let int := isIntFmt fmt
  if op ≤ 0x02 then some (3, 1)
  else if op = 0x03 then some (7, 1)
  else if op ≤ 0x05 then some (3, 1)
  else if op ≤ 0x07 then some (1, 1)
  else if op = 0x08 then some (7, 1)
  else if op ≤ 0x0B then some (3, 1)
  else if op ≤ 0x10 then (if int then some (3, 1) else none)
  else if op = 0x11 then (if int then none else some (3, 8))
  else if op = 0x12 then (if int then none else some (1, 8))
  else if op = 0x13 then some (1, 1)
  else none

/-- Whether a pattern of a format is a NaN. -/
def isNanCode (fmt x : Nat) : Bool := (elemVal fmt x).isNaN

/-- Result that keeps the bits of an operand, with the flag that a NaN raises. -/
def keep (fmt x : Nat) : Nat × Fl := (x, { nan := isNanCode fmt x })

/-- One element operation of Table 3.5 on the bit patterns of its operands (R83, R91). `fn` is the table function of OP 0x14. -/
def vElem (fmt op : Nat) (sat : Bool) (fn : Nat → Nat × Fl) (x y z : Nat) : Nat × Fl :=
  match fltFmt fmt with
  | none =>
    let w := elemBits fmt
    let a := sgn w x
    let b := sgn w y
    match op with
    | 0x00 => putInt w sat (a + b)
    | 0x01 => putInt w sat (a - b)
    | 0x02 => putInt w sat (a * b)
    | 0x03 => putInt w sat (a * b + sgn w z)
    | 0x04 => (if b < a then y else x, {})
    | 0x05 => (if a < b then y else x, {})
    | 0x06 => putInt w sat a.natAbs
    | 0x07 => putInt w sat (-a)
    | 0x08 => (if z = 0 then y else x, {})
    | 0x09 => (b01 (b < a), {})
    | 0x0A => (b01 (b ≤ a), {})
    | 0x0B => (b01 (a == b), {})
    | 0x0C => (x &&& y, {})
    | 0x0D => (x ||| y, {})
    | 0x0E => (x ^^^ y, {})
    | 0x0F => putInt w sat (a * 2 ^ (y % w))
    | 0x10 => (pat w (a / 2 ^ (y % w)), {})
    | _ => (x, {})
  | some f =>
    let a := f.decode x
    let b := f.decode y
    let truth (t : Bool) : Nat × Fl := putFloat f .rne sat (.ofInt (b01 t))
    match op with
    | 0x00 => putFloat f .rne sat (a.add b)
    | 0x01 => putFloat f .rne sat (a.add b.neg)
    | 0x02 => putFloat f .rne sat (a.mul b)
    | 0x03 => putFloat f .rne sat ((a.mul b).add (f.decode z))
    | 0x04 => if a.isNaN && b.isNaN then putFloat f .rne sat .nan else keep fmt (if a.minNum b == a then x else y)
    | 0x05 => if a.isNaN && b.isNaN then putFloat f .rne sat .nan else keep fmt (if a.maxNum b == a then x else y)
    | 0x06 => keep fmt (x % 2 ^ (f.eb + f.mb))
    | 0x07 => keep fmt (x ^^^ 2 ^ (f.eb + f.mb))
    | 0x08 => keep fmt (if (f.decode z).isZero then y else x)
    | 0x09 => truth (b.lt a)
    | 0x0A => truth (b.le a)
    | 0x0B => truth (a.eq b)
    | 0x11 => let q := a.div b; putFloat f .rne sat q.1 q.2
    | 0x12 => let q := a.sqrt; putFloat f .rne sat q.1 q.2
    | 0x14 => fn x
    | _ => keep fmt x

/-! Table functions (R97, R100). -/

/-- FP32 pattern of a value, rounded once. -/
def r32 (v : FV) (sticky : Bool := false) : Nat := (fmtFP32.encode .rne false v sticky).1

def v32 (x : Nat) : FV := fmtFP32.decode x

/-- Word `i` of a table image. -/
def tabWord (img : List Byte) (i : Nat) : Nat := leNat ((img.drop i).take 4)

/-- Whether the LO and HI of an image are finite with LO < HI (R98). -/
def tabOk (img : List Byte) : Bool :=
  let lo := v32 (tabWord img 0)
  let hi := v32 (tabWord img 4)
  !lo.isNaN && !hi.isNaN && !lo.isInf && !hi.isInf && lo.lt hi

/-- One FP32 operation: the value rounded once under the overflow rule of R83, and the flags an overflow raises. -/
def step32 (sat : Bool) (v : FV) (sticky : Bool := false) : FV × Fl :=
  let q := putFloat fmtFP32 .rne sat v sticky
  (v32 q.1, { q.2 with nan := false })

/-- The factor 512 / (HI − LO) of an image, rounded once at binding (R97). -/
def tabFactor (img : List Byte) : FV × Fl :=
  let q := (FV.ofInt 512).div ((v32 (tabWord img 4)).add (v32 (tabWord img 0)).neg)
  step32 false q.1 q.2

/-- Evaluate a bound table (R97): an FP32 value. Each step is one FP32 operation. -/
def tabEval (sat : Bool) (img : List Byte) (x : FV) : FV × Fl :=
  if x.isNaN then (.nan, {})
  else
    let lo := v32 (tabWord img 0)
    let hi := v32 (tabWord img 4)
    let x0 := step32 sat (((x.maxNum lo).minNum hi).add lo.neg)
    let u := step32 sat (x0.1.mul (tabFactor img).1)
    let i := if u.1.isNaN then 511 else min ((u.1.toInt .rdn 0 511).1.toNat) 511
    let t := step32 sat (u.1.add (FV.ofInt i).neg)
    let c (j : Nat) : FV := v32 (tabWord img (64 + 16 * i + 4 * j))
    let s1 := step32 sat (((c 3).mul t.1).add (c 2))
    let s2 := step32 sat ((s1.1.mul t.1).add (c 1))
    let s3 := step32 sat ((s2.1.mul t.1).add (c 0))
    (s3.1, [x0.2, u.2, t.2, s1.2, s2.2, s3.2].foldl Fl.or {})

/-- First integer at or above which exp overflows the format, and the last one at or below which it underflows to +0 (R100). -/
def expLimits (fmt : Nat) : Int × Int :=
  match fmt with
  | 0x0 => (89, -93) | 0x1 => (12, -18) | 0x2 => (7, -7) | 0x3 => (12, -12) | _ => (89, -104)

/-- exp by its path (Table 3.9): the value before its rounding into the format `g`, whose error is stated in units of `f`. The device's
own value is the code `own` of `g`. -/
def expVal (f g : FFmt) (v : FV) (own : Nat) : FV :=
  let lim := expLimits g.code
  match v with
  | .nan => .nan
  | .inf n => if n then .fin false 0 0 else v
  | _ =>
    if (FV.ofInt lim.1).le v then .fin false 1 5000
    else if v.le (FV.ofInt lim.2) then .fin false 0 0
    else withinUlp f g (fnUlp 1 f.code false) (fnRef 1 false v) own

/-- exp of a value in FP32, as the FP32 path of Table 3.9 gives it. -/
def exp32 (v : FV) : FV × Fl := step32 false (expVal fmtFP32 fmtFP32 v (Config.expF32 (r32 v)))

/-- The reciprocal square root in FP32 that R101 uses (Table 3.9; of −0 as IEEE 754 has it). -/
def rsqrt32 (v : FV) : FV :=
  if inDomain 9 v then (step32 false (withinUlp fmtFP32 fmtFP32 (fnUlp 9 0xC false) (fnRef 9 false v) (Config.rsqrtF32 (r32 v)))).1
  else if v.isZero then .inf v.isNeg
  else if v.isNaN || v.isNeg then .nan
  else .fin false 0 0

/-- A built-in function of Table 3.9, before its rounding into the format. -/
def builtin (func fmt : Nat) (f : FFmt) (x : Nat) : FV :=
  let v := f.decode x
  let above (k : Int) : Bool := (FV.ofInt k).lt v
  let below (k : Int) : Bool := v.lt (FV.ofInt k)
  let inside : FV := withinUlp f f (fnUlp func fmt false) (fnRef func false v) (Config.fnValue func false fmt x)
  let exp : FV := expVal f f v (Config.fnValue 1 false fmt x)
  if v.isNaN then .nan
  else
    match func with
    | 0x1 => exp
    | 0x2 => if above 16 then .ofInt 1 else if below (-16) then exp else inside
    | 0x3 => if above 9 then .ofInt 1 else if below (-9) then .ofInt (-1) else inside
    | 0x4 => if above 16 then v else if below (-16) then v.mul (exp32 v).1 else inside
    | 0x5 | 0x6 => if above 6 then v else if below (-6) then .fin true 0 0 else inside
    | 0x7 => if above 20 then v else if below (-20) then exp else inside
    | 0x8 => if v.isZero then .inf v.isNeg else if v.isInf then .fin v.isNeg 0 0 else inside
    | _ =>
      if v.isZero then .inf v.isNeg
      else if v.isNeg then .nan
      else if v.isInf then .fin false 0 0
      else inside

/-- f(x) of VFUNC and of a chain step, written in the format (R97, R98, R100). -/
def fnApply (func fmt : Nat) (sat : Bool) (img : List Byte) (x : Nat) : Nat × Fl :=
  match fltFmt fmt with
  | none => (x, {})
  | some f =>
    let y : FV × Fl := if func = 0 then tabEval sat img (f.decode x) else (builtin func fmt f x, {})
    let q := putFloat f .rne sat y.1
    (q.1, q.2.or y.2)

/-- f′(x) in FP32 (R98, Table 3.9): within the stated error in the table domain; outside it the manual states no value, and it is
open (log 20). -/
def deriv32 (func fmt : Nat) (f : FFmt) (sat : Bool) (img : List Byte) (x : Nat) : FV × Fl :=
  let v := f.decode x
  let own := Config.fnValue func true fmt x
  if func = 0 then tabEval sat img v
  else if v.isNaN then (.nan, {})
  else if func = 1 then step32 sat (expVal f fmtFP32 v own)
  else if inDomain func v then step32 sat (withinUlp f fmtFP32 (fnUlp func fmt true) (fnRef func true v) own)
  else (v32 (own % 2 ^ 32), {})

/-- y·f′(x) of VDERIV: one rounding of the product (R98). -/
def derivApply (func fmt : Nat) (sat : Bool) (img : List Byte) (x y : Nat) : Nat × Fl :=
  match fltFmt fmt with
  | none => (x, {})
  | some f =>
    let d := deriv32 func fmt f sat img x
    let q := putFloat f .rne sat ((f.decode y).mul d.1)
    (q.1, q.2.or d.2)

/-! Pepper (R104, R105). -/

def mix64 (z : Nat) : Nat :=
  let a := ((z ^^^ (z >>> 30)) * 0xBF58476D1CE4E5B9) % 2 ^ 64
  let b := ((a ^^^ (a >>> 27)) * 0x94D049BB133111EB) % 2 ^ 64
  b ^^^ (b >>> 31)

/-- The lane state that SEED with `v` gives lane `l`. -/
def seedLane (v l : Nat) : W64 × W64 :=
  let s0 := mix64 (v ^^^ (l * 0x9E3779B97F4A7C15 % 2 ^ 64))
  let s1 := mix64 ((s0 + 0x9E3779B97F4A7C15) % 2 ^ 64)
  (BitVec.ofNat 64 s0, BitVec.ofNat 64 (if s0 = 0 ∧ s1 = 0 then 1 else s1))

/-- The state of lane `l` of a context. -/
def Ctx.lane (c : Ctx) (l : Nat) : W64 × W64 := (Tab.find c.pepLanes l).getD (seedLane c.pepSeed.toNat l)

/-- One step of a generator. -/
def pepStep (x : W64 × W64) : W64 × W64 :=
  let t := x.1 ^^^ (x.1 <<< 23)
  (x.2, t ^^^ x.2 ^^^ (t >>> 17) ^^^ (x.2 >>> 26))

/-- Draw-stepped draws for elements `first` to `first + n − 1`. -/
def pepDraws : Nat → Nat → Ctx → List Nat × Ctx
  | 0, _, c => ([], c)
  | n + 1, i, c =>
    let x := c.lane (i % 128)
    let r := pepDraws n (i + 1) { c with pepLanes := Tab.put c.pepLanes (i % 128) (pepStep x) }
    ((x.1 + x.2).toNat :: r.1, r.2)

/-- The 2 KiB lane snapshot (R107). -/
def Ctx.pepBytes (c : Ctx) : List Byte :=
  (List.range 128).flatMap fun l => leBytes 8 (c.lane l).1.toNat ++ leBytes 8 (c.lane l).2.toNat

/-- Load lanes as stored; an all-zero lane takes s1 := 1 (R107). -/
def Ctx.pepLoad (c : Ctx) (bs : List Byte) : Ctx :=
  { c with pepLanes := (List.range 128).map fun l =>
      let s0 := leNat ((bs.drop (16 * l)).take 8)
      let s1 := leNat ((bs.drop (16 * l + 8)).take 8)
      (l, (BitVec.ofNat 64 s0, BitVec.ofNat 64 (if s0 = 0 ∧ s1 = 0 then 1 else s1))) }

/-- Lane states that free-running steps have left open (R105): free values. -/
def Ctx.pepFree (c : Ctx) (n : Nat) : Ctx :=
  { c with pepLanes := (List.range 128).map fun l => (l, (Config.freeDraw (n + 2 * l), Config.freeDraw (n + 2 * l + 1))) }

/-! MX blocks (R95). -/

/-- Exponent of the largest normal of an MX element format (OCP MX 1.0). -/
def mxEmax (fmt : Nat) : Int :=
  match fmt with
  | 0x4 => 8 | 0x5 => 15 | 0x6 => 4 | 0x7 => 2 | 0x8 => 2 | _ => 0

/-- ⌊log₂⌋ of a non-zero finite magnitude. -/
def FV.ilog (v : FV) : Option Int :=
  match v with
  | .fin _ m e => if m = 0 then none else some ((Nat.log2 m : Int) + e)
  | _ => none

/-- Larger of two optional exponents. -/
def optMax (a b : Option Int) : Option Int :=
  match a, b with
  | none, y => y
  | x, none => x
  | some x, some y => some (max x y)

/-- One MX block: scale byte, element codes, flags. A scale exponent outside the range of E8M0 takes the nearest of 0x00 and 0xFE (DESIGN
CHOICE, log 203). -/
def mxBlock (fmt : Nat) (vs : List FV) : Nat × List Nat × Fl :=
  if vs.any FV.isNaN then (0xFF, vs.map fun _ => 0, { nan := true })
  else
    let top := vs.foldl (fun a v => optMax a v.ilog) none
    let scale : Nat := match top with
      | some t => (max 0 (min 254 (t - mxEmax fmt + 127))).toNat
      | none => if vs.any FV.isInf then 0xFE else 0
    let k : Int := (scale : Int) - 127
    let one (v : FV) : Nat × Bool :=
      match fltFmt fmt with
      | some f =>
        let lim : FV := f.decode f.maxCode
        let r := f.encode .rne true (match v with | .inf n => .fin n 1 5000 | _ => v.scale (-k))
        (if (r.2.overflow) then (f.encode .rne true (if v.isNeg then lim.neg else lim)).1 else r.1, r.2.overflow)
      | none =>
        let r := (match v with | .inf _ => v | _ => v.scale (-k + 6)).toInt .rne (-127) 127
        (pat 8 r.1, r.2.1)
    (scale, vs.map fun v => (one v).1, { sat := vs.any fun v => (one v).2 })

/-! Reductions (R93). -/

/-- One addition in a format: one rounding, and whether it overflowed (R83). -/
def addIn (f : FFmt) (a : FV × Bool) (v : FV) : FV × Bool :=
  let q := f.encode .rne false (a.1.add v)
  (f.decode q.1, a.2 || q.2.overflow)

/-- Sums of neighbouring values in FP64: one step of the fixed tree. -/
def pairSums : List (FV × Bool) → List (FV × Bool)
  | a :: b :: t => addIn fmtFP64 (a.1, a.2 || b.2) b.1 :: pairSums t
  | [a] => [a]
  | [] => []

/-- The fixed tree over 128 lane values in FP64. -/
def treeGo : Nat → List (FV × Bool) → FV × Bool
  | 0, xs => xs.headD (.fin false 0 0, false)
  | n + 1, xs => treeGo n (pairSums xs)

def treeSum (xs : List (FV × Bool)) : FV × Bool := treeGo 7 xs

/-- Sum one segment of terms by lanes and tree; the result is added to an FP64 row total (R93). An overflow raises INF (R83). -/
def segSum (lane : FFmt) (total : Nat) (terms : List FV) : Nat × Fl :=
  let lanes := (List.range 128).map fun l =>
    (terms.zipIdx.filter fun x => x.2 % 128 == l).foldl (fun a x => addIn lane a x.1) (.fin false 0 0, false)
  let t := treeSum lanes
  let q := fmtFP64.encode .rne false ((fmtFP64.decode total).add t.1)
  (q.1, { inf := t.2 || q.2.overflow })

/-! Digests (R111). -/

def digP : Nat := 2 ^ 61 - 1

def digKey (step sender : Nat) : Nat := ((step % 2 ^ 32) * 2 ^ 24 + sender + 2) % digP

def digHash (k h : Nat) (ws : List Nat) : Nat := ws.foldl (fun h w => (h * k + w + 1) % digP) h

/-- The digest's running sum as a list of numbers: 512-bit integer in units of 2⁻¹³³, NaN, +∞, −∞. -/
def digAdd (acc : List Nat) (k : Int) (v : FV) : List Nat :=
  let m := acc.getD 0 0
  let nan := acc.getD 1 0
  let pi := acc.getD 2 0
  let ni := acc.getD 3 0
  match v with
  | .nan => [m, 1, pi, ni]
  | .inf n => if k = 0 then [m, 1, pi, ni] else if n != (k < 0) then [m, nan, pi, 1] else [m, nan, 1, ni]
  | .fin n x e => [pat 512 (sgn 512 m + k * FV.signed n x * 2 ^ (e + 133).toNat), nan, pi, ni]

/-- The 16 digest bytes of a hash and a running sum. -/
def digBytes (h : Nat) (acc : List Nat) : List Byte :=
  let x := sgn 512 (acc.getD 0 0)
  let v : FV :=
    if acc.getD 1 0 ≠ 0 ∨ (acc.getD 2 0 ≠ 0 ∧ acc.getD 3 0 ≠ 0) then .nan
    else if acc.getD 2 0 ≠ 0 then .inf false
    else if acc.getD 3 0 ≠ 0 then .inf true
    else .fin (x < 0) x.natAbs (-133)
  leBytes 8 h ++ leBytes 8 (fmtFP64.encode .rne false v).1

end Sys2Proof.Machine
end

