-- ==== Sys2Proof/Machine/Image.lean ====
section
/-! DEFINITION. The context save image in bank C1 (R22, R31, Table 1.4): the parts whose layout the manual gives, and open bytes for the
rest (log 14). -/

namespace Sys2Proof.Machine

/-- Bytes that the manual leaves open, from the model's free values at `n` on (log 24). -/
def openBytes (n len : Nat) : List Byte := (List.range len).map fun i => (Config.fresh (n + i)).setWidth 8

/-- Window offset of the save area of a logical context (R22). -/
def saveArea (lctx : Nat) : Nat := 0xBE000 - lctx * 0x2000

/-- The run-ahead buffer of an image: its commands in order, UPDATE_BLOCKS as its two slots (R231, Table 1.4). -/
def Ctx.bufBytes (c : Ctx) : List Byte :=
  (c.buf.flatMap fun f => leBytes 16 f.w.toNat ++ if opcodeOf f.w = 0xA0 then leBytes 16 f.imm.toNat else []).take 256

/-- x1 to x31 and pc (Table 1.4). -/
def Ctx.xBytes (c : Ctx) : List Byte :=
  ((List.range 31).flatMap fun i => leBytes 8 (Tab.get (0 : W64) c.xs (i + 1)).toNat) ++ leBytes 8 c.pc.toNat

/-- f0 to f31 and fcsr (Table 1.4). -/
def Ctx.fBytes (c : Ctx) : List Byte :=
  ((List.range 32).flatMap fun i => leBytes 8 (Tab.get (0 : W64) c.fs i).toNat) ++ leBytes 8 c.fcsr

/-- The stream counters (R174). -/
def Ctx.ctrBytes (c : Ctx) : List Byte := (List.range 8).flatMap fun i => leBytes 8 (Tab.get 0 c.sctr i)

/-- The suspension record of a stream slot: i0 to i4, the slot number, SPH and the untranslated address; the rest is reserved and 0
(R8, R159). -/
def StSlot.suspBytes (x : StSlot) (slot : Nat) : List Byte :=
  ((List.range 5).flatMap fun i => leBytes 2 (x.idx.getD i 0)) ++ leBytes 1 slot ++ leBytes 1 (b01 x.sph) ++ leBytes 4 0 ++
    leBytes 8 x.faultVa ++ leBytes 40 0

/-- The suspension records of the streams of a context: 64 bytes for each stream slot, open where the slot is not suspended for it. -/
def Core.suspRecords (k : Core) (lctx n : Nat) : List Byte :=
  (List.range 16).flatMap fun i =>
    let x := k.stSlot i
    if x.st = .suspended ∧ x.lctx = lctx then x.suspBytes i else openBytes (n + 64 * i) 64

/-- The 8 KiB image of a context, its reserved tail 0 (R8, Table 1.4). Free-running generators step while the image is written, so the lanes
saved for them are open (R105). -/
def Core.imageBytes (k : Core) (c : Ctx) (n : Nat) : List Byte :=
  let pad (off len : Nat) (bs : List Byte) : List Byte := bs ++ openBytes (n + off + bs.length) (len - bs.length)
  openBytes n 0x100 ++ pad 0x100 0x100 c.bufBytes ++ c.xBytes ++ pad 0x300 0x200 c.fBytes ++ openBytes (n + 0x500) 0x100 ++
    pad 0x600 0x200 c.ctrBytes ++
    (if c.pmode then openBytes (n + 0x800) 0x800 else c.pepBytes) ++ k.suspRecords c.lctx (n + 0x1000) ++ leBytes 0xC00 0

/-- The run-ahead buffer with the commands that an image holds at byte `i` and after. -/
def bufFrom (bs : List Byte) : Nat → List Fetched → List Fetched
  | _, [] => []
  | i, f :: t =>
    let word (j : Nat) : Cmd := BitVec.ofNat 128 (leNat ((bs.drop j).take 16))
    if opcodeOf f.w = 0xA0 then { f with w := word i, imm := word (i + 16) } :: bufFrom bs (i + 32) t
    else { f with w := word i } :: bufFrom bs (i + 16) t

/-- The record that the model keeps beside a save image: of the registers and counters in the image, only what changes from now on. -/
def Ctx.noted (c : Ctx) : Ctx := { c with xs := [], fs := [], sctr := [] }

/-- A context as its save image holds it: the commands of the buffer, the registers of the control core, the stream counters and the lane
generators come from the first 4 KiB of the image, with the registers written and the counts added since, the rest from the record that
the model keeps of it (R31, Table 1.4). -/
def Ctx.fromImage (c : Ctx) (bs : List Byte) : Ctx :=
  let word (o : Nat) : W64 := BitVec.ofNat 64 (leNat ((bs.drop o).take 8))
  ({ c with
    buf := bufFrom (bs.drop 0x100) 0 c.buf
    xs := (List.range 31).map fun i => (i + 1, Tab.get (word (0x200 + 8 * i)) c.xs (i + 1))
    pc := word 0x2F8
    fs := (List.range 32).map fun i => (i, Tab.get (word (0x300 + 8 * i)) c.fs i)
    fcsr := (word 0x400).toNat % 256
    sctr := (List.range 8).map fun i => (i, ((word (0x600 + 8 * i)).toNat + Tab.get 0 c.sctr i) % 2 ^ 64) } : Ctx).pepLoad ((bs.drop 0x800).take 0x800)

/-- The record of a stream that suspends while its context is swapped out goes into the save image (R159). -/
def State.imageSusp (s : State) (core lctx slot : Nat) : State :=
  if (Tab.find (s.core core).images lctx).isNone then s
  else
    s.wr (scrPa core (saveArea lctx + 0x1000 + 64 * slot)) (((s.core core).stSlot slot).suspBytes slot)

/-- Write the save image of a context into its save area (R31). -/
def State.writeImage (s : State) (core : Nat) (c : Ctx) : State :=
  ({ s with free := s.free + 0x2000 } : State).wr (scrPa core (saveArea c.lctx)) ((s.core core).imageBytes c s.free)

end Sys2Proof.Machine
end

