-- ==== Sys2Proof/Machine/Sequencer.lean ====
section
/-! DEFINITION. The sequencer: run-ahead fetch, loop and call stacks, the control work commands, and context swaps (chapter 1,
R161, R162). -/

namespace Sys2Proof.Machine

/-- The control-core registers of a context that starts, which the manual leaves open (log 91). -/
def Ctx.freshRegs (c : Ctx) (core stamp : Nat) : Ctx :=
  let n := 2048 * stamp + core
  { c with
    xs := (List.range 31).map fun i => (i + 1, Config.startReg n (i + 1))
    fs := (List.range 32).map fun i => (i, Config.startReg n (32 + i))
    pc := Config.startReg n 64 &&& ~~~1
    fcsr := (Config.startReg n 65).toNat % 256 }

/-- Whether a slot holds no running context (R47, R133). -/
def Ctx.idleSlot (c : Ctx) : Bool := !c.st.live

/-- The context that CTX_CTRL.START or CTX.CTL start begins in a slot, with the values kept there (R47, R33). -/
def Ctx.started (c : Ctx) (lctx at' : Nat) (service : Bool) : Ctx :=
  { ({} : Ctx) with
    st := .ready, lctx := lctx, eclass := c.eclass, bank := c.bank, psave := c.psave, fptr := c.nextPtr, pairs := c.pairs
    perf := c.perf, mmode := service, inAt := at' }

/-- Start a context in a slot that holds no running one, unless the logical context is not FREE (Table 1.5). -/
def Core.startIn (k : Core) (core n lctx : Nat) : Core :=
  let c := k.slot n
  if !c.idleSlot ∨ (k.ctx? lctx).isSome ∨ (Tab.find k.ended lctx).isSome ∨ k.fenced then k
  else ({ k.setSlot n ((c.started lctx k.stamp (n == 7)).freshRegs core k.stamp) with stamp := k.stamp + 1 }).refresh

/-- Continue at a target: the buffer is kept when its next entry is the target, else emptied, and the fetcher's copies follow the
real stacks (R162). -/
def Ctx.goto (c : Ctx) (t : Ptr) : Ctx :=
  match c.buf with
  | f :: _ =>
    if f.ptr = t then c
    else { c with buf := [], fptr := t, floops := c.loops, fcalls := c.calls, freplay := c.replay }
  | [] => { c with fptr := t, floops := c.loops, fcalls := c.calls, freplay := c.replay }

/-- Whether a queued transfer of a slot takes a buffered line: its tags match (R163). -/
def Core.lineTaken (k : Core) (l : PfLine) : Bool :=
  let x := k.stSlot l.slot
  l.gen == x.gen && x.queue.any fun q => q.lctx == l.lctx && q.far == l.far

/-- Empty the run-ahead buffer and abandon the prefetches made for the commands it held; a transfer that has issued keeps its lines
(R21, R133, R162). -/
def State.emptyBuf (s : State) (core n : Nat) (ptr : Option Ptr) : State :=
  let c := s.slot core n
  let c1 := { c with buf := [], fptr := ptr.getD c.nextPtr, floops := c.loops, fcalls := c.calls, freplay := c.replay }
  (s.setSlot core n c1).mapCore core fun k =>
    ({ k.abandon fun l => l.lctx == c.lctx && !k.lineTaken l with givenUp := k.givenUp.filter fun x => x.1 != c.lctx }).refresh

/-- Issue cycles of a taken transfer of control: 4 more when its target is not in the run-ahead buffer (Tables 1.8 and 6.3). -/
def Head.jumpCycles (h : Head) (t : Ptr) : Nat := if (if h.ctx.inj.isEmpty then h.ctx.buf.tail else h.ctx.buf).any fun f => f.ptr == t then 1 else 5

/-- Issue cycles of a taken back edge of ENDLOOP: 4 more for a body that exceeds 16 commands, counted by offset from the command after
the LOOP to the ENDLOOP, and for one that crosses base pairs or ends below its LOOP (Table 1.8). -/
def backCycles (body e : Ptr) : Nat := if body.base ≠ e.base ∨ e.off < body.off ∨ body.off + 16 ≤ e.off then 5 else 1

/-- The opcode-specific target of JUMP, CALL and REPLAY_BEGIN. -/
def targetOf (w : Cmd) : Ptr := { base := cf w 21 20, off := cf w 37 22 }

/-- What the fetcher's copies become after it has fetched `w` at `p` (R162, R193). -/
def Ctx.project (c : Ctx) (p : Ptr) (w : Cmd) : Ctx :=
  let nxt : Ptr := { p with off := p.off + 1 }
  let ctl := !(c.freplay && opcodeOf w < 0x20 && aware w)
  let op := opcodeOf w
  if op = 0x04 ∧ ctl then
    if cf w 43 20 = 0 then { c with fptr := { p with off := p.off + cf w 59 44 + 1 } }
    else if 4 ≤ c.floops.length then { c with fptr := nxt }
    else { c with fptr := nxt, floops := ⟨cf w 43 20, nxt⟩ :: c.floops }
  else if op = 0x05 ∧ ctl then
    match c.floops with
    | [] => { c with fptr := nxt }
    | l :: t =>
      if l.count ≤ 1 then { c with fptr := nxt, floops := t }
      else { c with fptr := l.body, floops := { l with count := l.count - 1 } :: t }
  else if op = 0x06 ∧ ctl then
    if cb w 38 then
      match c.fcalls with
      | [] => { c with fptr := nxt }
      | e :: t => { c with fptr := e.ret, fcalls := t }
    else { c with fptr := targetOf w }
  else if op = 0x07 ∧ ctl then { c with fptr := targetOf w, fcalls := ⟨nxt, false⟩ :: c.fcalls }
  else if op = 0x83 then { c with fptr := targetOf w, fcalls := ⟨nxt, true⟩ :: c.fcalls, freplay := true }
  else if op = 0xA0 then { c with fptr := { p with off := p.off + 2 } }
  else if op = 0x84 ∧ c.freplay then
    match c.fcalls with
    | [] => { c with fptr := nxt }
    | e :: t => { c with fptr := e.ret, fcalls := t, freplay := false }
  else { c with fptr := nxt }

/-- Whether a fetched control command will be skipped in replay, so that it neither waits nor signals (R41). -/
def Fetched.passedOver (f : Fetched) : Bool := f.rep && opcodeOf f.w < 0x20 && aware f.w

/-- Whether the waits of the buffered commands are met by the projected tokens (Table 5.5). -/
def projectedMet : W64 → Nat → List Fetched → Bool
  | _, _, [] => true
  | t, bank, f :: r =>
    if f.passedOver then projectedMet t bank r
    else
      let m := waitMask bank f.w
      tokMet t m && projectedMet (tokTake t m) (if opcodeOf f.w = 0x01 && cb f.w 38 then cf f.w 37 36 else bank) r

/-- Whether the fetcher stands still (R39, Table 5.5). A HALT and a SIGNAL act as if they carried FENCE (R43). -/
def Ctx.fetchStopped (c : Ctx) : Bool :=
  c.paused || 16 ≤ (c.buf.map fun f => slotsOf f.w).sum || 5 ≤ c.fcalls.length ||
    c.buf.any (fun f => f.bad.isSome || cb f.w 16 || opcodeOf f.w == 0x02 || opcodeOf f.w == 0x09 ||
      (opcodeOf f.w == 0x06 && cb f.w 39)) ||
    !projectedMet c.tokens c.bank c.buf

/-- A context, with a command put at the end of its command buffer; a position in a bank that is off counts as an access refused
(Table 4.15). -/
def State.enterBuf (s : State) (core n : Nat) (c : Ctx) (f : Fetched) : State :=
  let s1 := s.setSlot core n { c with buf := c.buf ++ [f] }
  (if f.bad = some stBankOff ∨ f.immBad = some stBankOff then s1.mapCore core Core.noteOff else s1).settle core n

/-- COMMAND_FETCH (R38, R161): fetch the next command. A position past its bound, in a poisoned half-line or in a bank that is off
stops the fetcher there; it ends the context when it reaches the head. -/
def execCommandFetch (core n : Nat) (s : State) : Out :=
  if 2048 ≤ core ∨ 8 ≤ n then .next s
  else
    let k := s.core core
    let c := k.slot n
    if !(c.st == .ready || c.st == .blocked) || c.fetchStopped || k.fenced || !s.clocked core then .next s
    else
      match fetchOff k c core c.fptr.base c.fptr.off with
      | .error st => .next (s.enterBuf core n c { ptr := c.fptr, w := 0, bad := some st })
      | .ok off =>
        if k.bankIsOff off 16 then .next (s.enterBuf core n c { ptr := c.fptr, w := 0, bad := some stBankOff })
        else if !k.bankIsOn off 16 then .next (s.mapCore core fun k => k.arriveAll off 16)
        else if s.anyPoison (scrPa core off) 16 then .next (s.enterBuf core n c { ptr := c.fptr, w := 0, bad := some stPoisoned })
        else
          let w : Cmd := BitVec.ofNat 128 (leNat (s.rds (scrPa core off) 16))
          if opcodeOf w ≠ 0xA0 then .next (s.enterBuf core n (c.project c.fptr w) { ptr := c.fptr, w := w, rep := c.freplay })
          else if 15 ≤ (c.buf.map fun f => slotsOf f.w).sum then .next s
          else
            match fetchOff k c core c.fptr.base (c.fptr.off + 1) with
            | .error st => .next (s.enterBuf core n (c.project c.fptr w) { ptr := c.fptr, w := w, rep := c.freplay, immBad := some st })
            | .ok o2 =>
              if k.bankIsOff o2 16 then .next (s.enterBuf core n (c.project c.fptr w) { ptr := c.fptr, w := w, rep := c.freplay, immBad := some stBankOff })
              else if !k.bankIsOn o2 16 then .next (s.mapCore core fun k => k.arriveAll o2 16)
              else if s.anyPoison (scrPa core o2) 16 then
                .next (s.enterBuf core n (c.project c.fptr w) { ptr := c.fptr, w := w, rep := c.freplay, immBad := some stPoisoned })
              else .next (s.enterBuf core n (c.project c.fptr w) { ptr := c.fptr, w := w, rep := c.freplay, imm := BitVec.ofNat 128 (leNat (s.rds (scrPa core o2) 16)) })

/-! Control work commands. Each costs one issue cycle in class 0 (Table 11.3). -/

/-- NOP (R42). -/
def workNop (core n : Nat) (s : State) : Out :=
  work core n 0x00 s fun h s => s.pay h 0 1 fun s => s.done h

/-- WAIT (R42): the wait is met when it issues; SETBANK then makes NEWBANK current. -/
def workWait (core n : Nat) (s : State) : Out :=
  work core n 0x01 s fun h s => s.pay h 0 1 fun s =>
    (s.mapSlot core n fun c => if cb h.w 38 then { c with bank := cf h.w 37 36 } else c).done h

/-- WAIT_TIMEOUT (R45): a WAIT with a TIMEOUT has stood at the head, resident or swapped out, for its limit in core cycles. -/
def execWaitTimeout (core lctx : Nat) (s : State) : Out :=
  if 2048 ≤ core ∨ 17 ≤ lctx ∨ s.halts then .next s
  else
    match (s.core core).ctx? lctx with
    | none => .next s
    | some c =>
      match c.head with
      | some w =>
        let limit := cf w 63 40 * 256
        if c.waiting ∧ limit ≠ 0 ∧ 25 * limit ≤ (s.core core).clk - c.waitAt.getD (s.core core).clk then
          .next (s.faultCtx core lctx stTimeout)
        else .next s
      | none => .next s

/-- Inject a remote request toward its target core; while a route update runs it is held (R371). -/
def State.sendRemote (s : State) (target : Nat) (m : RemMsg) : State :=
  if s.flt.route.isEmpty then s.mapCore target fun k => { k with arriving := k.arriving ++ [m] }
  else { s with flt := { s.flt with held := s.flt.held ++ [(target, m)] } }

/-- Whether a core has as many unacknowledged remote writes as it may hold (R139). -/
def Core.writesFull (k : Core) : Bool := 256 ≤ k.outW

/-- Deliver a remote signal into the mesh toward its target core (R37, Table 4.7 class 1); it is one of the core's unacknowledged remote
writes until the target acknowledges (R139). -/
def State.sendSignal (s : State) (core n target lctx mask id : Nat) : State :=
  ((s.chargeData core 40).mapCore core fun k => { k with outW := k.outW + 1 }).sendRemote target
    { src := core, slot := n, lctx := (s.slot core n).lctx, svc := n == 7, addr := 0, op := .signal lctx mask, rd := 0,
      signed := false, fp := false, id := id }

/-- SIGNAL (R43): after the implicit fence, increments the tokens of MASK here, or sends the signal to another core; a remote
SIGNAL completes when the target acknowledges (Table 1.8). -/
def workSignal (core n : Nat) (s : State) : Out :=
  work core n 0x02 s fun h s =>
    if cb h.w 36 && (s.farHeld core || (s.core core).writesFull) then s.hold core n 3
    else s.pay h 0 1 fun s =>
    if cb h.w 36 then
      let (id, s1) := s.leave h .remote
      (s1.sendSignal core n (cf h.w 47 37) (cf h.w 51 48) (cf h.w 35 20) id).settle core n
    else (s.mapCore core fun k => k.signal h.ctx.lctx (cf h.w 35 20)).done h

/-- FENCE (R42): SCOPE 0b11 is reserved; what SCOPE waits for is the fence of its head (`localScope`). A write of the model is visible to
every reader when its command completes, so 0b01 and 0b10 wait alike. -/
def workFence (core n : Nat) (s : State) : Out :=
  work core n 0x03 s fun h s =>
    if cf h.w 21 20 = 3 then s.failed h stIllegalOp else s.pay h 0 1 fun s => s.done h

/-- The pointer of the command at the head, which is a fetched one. -/
def Head.ptr (h : Head) : Ptr := h.ctx.nextPtr

/-- LOOP (R44); its SKIP target is read as a command fetch reads it (DEDUCED, log 215). -/
def workLoop (core n : Nat) (s : State) : Out :=
  work core n 0x04 s fun h s =>
    let nxt : Ptr := { h.ptr with off := h.ptr.off + 1 }
    if cf h.w 43 20 = 0 then
      let t : Ptr := { h.ptr with off := h.ptr.off + cf h.w 59 44 }
      match fetchOff (s.core core) h.ctx core t.base t.off with
      | .error st => s.failed h st
      | .ok off =>
        if (s.core core).bankIsOff off 16 then s.failed h stBankOff
        else if !(s.core core).bankIsOn off 16 then (s.mapCore core fun k => k.arriveAll off 16).hold core n 3
        else if s.anyPoison (scrPa core off) 16 then s.failed h stPoisoned
        else if (s.rd (scrPa core off)).toNat ≠ 0x05 then s.failed h stIllegalOp
        else s.pay h 0 1 fun s =>
          (s.mapSlot core n fun c => c.goto { t with off := t.off + 1 }).done h
    else if 4 ≤ h.ctx.loops.length then s.failed h stIllegalOp
    else s.pay h 0 1 fun s =>
      (s.mapSlot core n fun c => ({ c with loops := ⟨cf h.w 43 20, nxt⟩ :: c.loops }).goto nxt).done h

/-- ENDLOOP (R44). -/
def workEndloop (core n : Nat) (s : State) : Out :=
  work core n 0x05 s fun h s =>
    match h.ctx.loops with
    | [] => s.failed h stIllegalOp
    | l :: t => s.pay h 0 (if l.count ≤ 1 then 1 else backCycles l.body h.ptr) fun s =>
      (s.mapSlot core n fun c =>
        if l.count ≤ 1 then ({ c with loops := t }).goto { h.ptr with off := h.ptr.off + 1 }
        else ({ c with loops := { l with count := l.count - 1 } :: t }).goto l.body).done h

/-- JUMP and RET (R44, Table 1.7). -/
def workJump (core n : Nat) (s : State) : Out :=
  work core n 0x06 s fun h s =>
    let nxt : Ptr := { h.ptr with off := h.ptr.off + 1 }
    let cond := cb h.w 39
    let tk := cf h.w 43 40
    let go (c : Ctx) (t : Ptr) : Ctx :=
      ({ c with tokens := if cond && cb h.w 44 then tokTake c.tokens (2 ^ tk) else c.tokens }).goto t
    let taken := !cond || tok (tokTake h.ctx.tokens (waitMask h.ctx.bank h.w)) tk ≥ 1
    if cb h.w 38 then
      if cf h.w 37 20 ≠ 0 then s.failed h stIllegalOp
      else if !taken then s.pay h 0 1 fun s => (s.mapSlot core n fun c => c.goto nxt).done h
      else
        match h.ctx.calls with
        | [] => s.failed h stIllegalOp
        | e :: t =>
          if e.mark then s.failed h stIllegalOp
          else s.pay h 0 (h.jumpCycles e.ret) fun s => (s.mapSlot core n fun c => go { c with calls := t } e.ret).done h
    else s.pay h 0 (if taken then h.jumpCycles (targetOf h.w) else 1) fun s =>
      (s.mapSlot core n fun c => if taken then go c (targetOf h.w) else c.goto nxt).done h

/-- CALL (R44). -/
def workCall (core n : Nat) (s : State) : Out :=
  work core n 0x07 s fun h s =>
    if 4 ≤ h.ctx.calls.length then s.failed h stIllegalOp
    else s.pay h 0 (h.jumpCycles (targetOf h.w)) fun s =>
      (s.mapSlot core n fun c =>
        ({ c with calls := ⟨{ h.ptr with off := h.ptr.off + 1 }, false⟩ :: c.calls }).goto (targetOf h.w)).done h

/-- YIELD (R42): the context moves to the back of the selector order, which its issue stamp records. -/
def workYield (core n : Nat) (s : State) : Out :=
  work core n 0x08 s fun h s => s.pay h 0 1 fun s => s.done h

/-- HALT (R43, R45): after the implicit fence the context becomes HALTED with CODE posted; IRQ posts notice class 5. -/
def workHalt (core n : Nat) (s : State) : Out :=
  work core n 0x09 s fun h s =>
    let code := cf h.w 36 21
    if !statusCodes.contains code then s.failed h stIllegalOp
    else s.pay h 0 1 fun s =>
      let s1 := s.endOne core h.ctx.lctx .halted code
      let p := s1.pno core
      if cb h.w 20 && (s1.part p).exist then
        s1.notify p ⟨5, code, whoDetail core h.ctx.lctx, (s1.part p).word⟩
      else s1

/-- A work command with a reserved opcode, or a stray immediate slot (R38). -/
def reservedOp (op : Nat) : Bool :=
  (0x0A ≤ op && op ≤ 0x1F) || (0x27 ≤ op && op ≤ 0x3F) || (0x48 ≤ op && op ≤ 0x5F) || (0x6B ≤ op && op ≤ 0x7F) ||
    (0x85 ≤ op && op ≤ 0x8F) || (0x95 ≤ op && op ≤ 0x9F) || 0xA4 ≤ op

/-- RESERVED_COMMAND (R38). -/
def workReservedCommand (core n : Nat) (s : State) : Out :=
  if 2048 ≤ core ∨ 8 ≤ n then .next s
  else
    match gateOn s core n reservedOp with
    | .off => .next s
    | .held cause => .next (s.hold core n cause)
    | .ended _ | .skip _ _ | .go _ => .next (s.faultCtx core (s.slot core n).lctx stIllegalOp)

/-! Swaps (R28 to R32, Table 1.5). -/

/-- Whether a context is in the middle of a matrix pass: a pass or a drain of it is in flight (R29). -/
def Core.midPass (k : Core) (lctx : Nat) : Bool :=
  k.passes.any (fun p => p.lctx == lctx) || k.restart.any (fun p => p.lctx == lctx) ||
    k.drain.any (fun d => d.lctx == lctx)

/-- The runnable swapped-out context that has waited longest. -/
def Core.bestRunnable (k : Core) : Option Nat :=
  (listBest (fun (a b : Nat × Ctx) => a.2.runAt < b.2.runAt) (k.images.filter fun x => k.runnable x.1)).map (·.1)

/-- Job slots that hold a live context. -/
def Core.residents (k : Core) : List Nat := (List.range 7).filter fun n => (k.slot n).st.live

/-- A job slot that holds no live context and that no queued swap has taken, lowest number first (log 6). -/
def Core.freeSlot (k : Core) : Option Nat := (List.range 7).find? fun n => !(k.slot n).st.live && k.swapQ.all fun w => w.slot != n

/-- Ask for a swap: at once, or after the swaps ahead of it; an outgoing context issues nothing from now on (Table 1.5). -/
def Core.askSwap (k : Core) (w : Swap) : Core :=
  let k1 := if w.out then k.setSlot w.slot { k.slot w.slot with st := .swapOut, cause := 0 } else k
  ({ k1 with swapQ := k1.swapQ ++ [w] }).nextSwap

/-- SWAP_ON_BLOCK (R29). -/
def execSwapOnBlock (core : Nat) (s : State) : Out :=
  if 2048 ≤ core ∨ s.halts then .next s
  else
    let k := (s.core core).refresh
    let rs := k.residents
    let ok := k.swapEn && k.swap.isNone && k.swapQ.isEmpty && !rs.isEmpty && !k.fenced &&
      rs.all fun n => (k.slot n).st == .blocked
    if !ok then .next s
    else
      match k.bestRunnable,
        listBest (fun (a b : Nat) => (k.slot a).blockedAt < (k.slot b).blockedAt) (rs.filter fun n => !k.midPass (k.slot n).lctx) with
      | some l, some v => .next (s.setCore core (k.startSwap ⟨v, true, false, some l, false⟩))
      | _, _ => .next s

/-- The runnable swapped-out context that R30 brings in next: among those whose count has reached SWAP_QUANTUM, the one that has waited
longest. -/
def Core.quantumDue (k : Core) : Option Nat :=
  (listBest (fun (a b : Nat × Ctx) => a.2.runAt < b.2.runAt)
    (k.images.filter fun x => k.runnable x.1 && k.quantum * 25 ≤ Tab.get 0 k.readyCnt x.1)).map (·.1)

/-- SWAP_QUANTUM_EXPIRY (R30): the count of `lctx` has reached SWAP_QUANTUM. The victim is the resident context that has run
longest since its swap-in; it issues nothing further from now on, and its image is written at its next pass boundary (R77). -/
def execSwapQuantumExpiry (core lctx : Nat) (s : State) : Out :=
  if 2048 ≤ core ∨ 16 ≤ lctx ∨ s.halts then .next s
  else
    let k := (s.core core).refresh
    if !(k.swapEn && k.swap.isNone && k.swapQ.isEmpty && k.quantumDue == some lctx && !k.fenced) then .next s
    else
      match listBest (fun (a b : Nat) => (k.slot a).inAt < (k.slot b).inAt)
          (k.residents.filter fun n => (k.slot n).st == .ready || (k.slot n).st == .blocked) with
      | none => .next s
      | some v => .next (s.setCore core (k.startSwap ⟨v, true, false, some lctx, false⟩))

/-- FREE_SLOT_ADMISSION (R29). -/
def execFreeSlotAdmission (core : Nat) (s : State) : Out :=
  if 2048 ≤ core ∨ s.halts then .next s
  else
    let k := (s.core core).refresh
    if !(k.swapEn && k.swap.isNone && k.swapQ.isEmpty && !k.fenced) then .next s
    else
      match k.freeSlot, k.bestRunnable with
      | some n, some l => .next (s.setCore core (k.startSwap ⟨n, false, false, some l, false⟩))
      | _, _ => .next s

/-- Bits of an accumulator slot's identity value by kind (Table 2.3). -/
def accIdentity (kind : Nat) : Nat :=
  match kind with
  | 2 => 0x7F800000 | 3 => 0xFF800000 | 4 => 0x7FFFFFFF | 5 => 0x80000000 | 6 => 0xFFFFFFFF | _ => 0

/-- The 16 KiB image of a slot: 4,096 values of 4 bytes, row-major (R56). -/
def AccSlot.bytes (a : AccSlot) : List Byte :=
  (List.range 4096).flatMap fun i => leBytes 4 (Tab.get (accIdentity a.kind) a.vals i)

/-- Send a held physical slot to its owner's pre-emption save area and mark the logical slot as spilled (R55, R56). Answers none
when the area is unmapped. -/
def State.spillAcc (s : State) (core phys psave : Nat) : Option State :=
  let a := (s.core core).accAt phys
  let p := s.pno core
  let va := psave + a.lslot * 0x4000
  if !s.vok p va 0x4000 true then none
  else
    let s1 := ((s.vwrite p va a.bytes a.poison).ckPages core va 0x4000).chargeData core (256 * 40)
    some (s1.mapCore core fun k =>
      { k.setAcc phys {} with spilledAcc := k.spilledAcc ++ [⟨a.lctx, a.lslot, a.kind⟩] })

/-- Drain every slot of a context that swaps out (R31, R56), or answer the address of the area of the first slot that is unmapped. -/
def State.drainAll (s : State) (core lctx psave : Nat) : Except Nat State :=
  (List.range 8).foldlM
    (fun (s : State) ph =>
      let a := (s.core core).accAt ph
      if a.held && a.lctx == lctx then
        match s.spillAcc core ph psave with
        | some t => .ok t
        | none => .error (psave + a.lslot * 0x4000)
      else .ok s) s

/-- CTX_PSAVE as an address (Table 2.17). -/
def psaveAddr (c : Ctx) : Nat := fld (bits c.psave.toNat 47 16) 16

/-- The image of an outgoing context has been written: its slot goes to the incoming context or becomes free (R31, Table 1.5). -/
def Core.imageWritten (k : Core) (w : Swap) (c : Ctx) : Core :=
  let img := { c.noted with st := .free, cause := 0, swapouts := c.swapouts + 1, runAt := 0 }
  let k1 := { k with
    images := Tab.put k.images c.lctx img
    reserved := k.reserved.filter fun n => n != w.slot
    heldL := if w.hold then Keys.add k.heldL c.lctx else k.heldL }
  match k1.incoming w with
  | some l =>
    { k1.setSlot w.slot { k1.image l with st := .swapIn, cause := 0 } with swap := some { w with second := true } }
  | none => ({ k1.setSlot w.slot ({ st := .free } : Ctx) with swap := none }).applySigs.refresh.nextSwap

/-- SWAP_IMAGE_WRITE (R31): the victim's issued matrix, vector and checkpoint commands have completed or stopped, so its slots are
drained and its image written; its slot goes to the incoming context or becomes free. An unmapped save area ends the victim. A bank C1
in retention wakes first (R31, R128). -/
def execSwapImageWrite (core : Nat) (s : State) : Out :=
  if 2048 ≤ core ∨ s.halts then .next s
  else
    let k := s.core core
    match k.swap with
    | none => .next s
    | some w =>
      let c := k.slot w.slot
      if w.second ∨ k.midPass c.lctx ∨ k.vec.any (fun v => v.lctx == c.lctx) then .next s
      else if (k.bank 5).st ≠ .on then .next (s.mapCore core fun k => k.arrive 5)
      else
        match s.drainAll core c.lctx (psaveAddr c) with
        | .error va => .next (s.areaFault core c.lctx va 0x4000 2 true)
        | .ok s1 =>
          .next ((s1.writeImage core c).mapCore core fun k => k.imageWritten w c)

/-- Copy a bound table image again from its address, with its poison (R88, R99). -/
def State.recopy (s : State) (core : Nat) (c : Ctx) (b : Option TabBind) : Option TabBind :=
  b.map fun t =>
    match localOff (s.core core) c core t.base t.off 8256 with
    | .ok off => { t with img := s.rds (scrPa core off) 8256, bad := s.anyPoison (scrPa core off) 8256 }
    | .error _ => t

/-- The window offsets of the table images that a context reads again when it comes in (R99). -/
def Core.tabOffs (k : Core) (c : Ctx) (core : Nat) : List Nat :=
  (c.fwd.toList ++ c.sec.toList).filterMap fun t =>
    match localOff k c core t.base t.off 8256 with | .ok off => some off | .error _ => none

/-- A core whose incoming context `l` has been read from its save image into the slot of its swap: it can issue, and held signals are
applied (R31, R32). A context that a PREEMPT named meanwhile swaps out again (R342). -/
def State.swappedIn (s : State) (core : Nat) (w : Swap) (l : Nat) : Core :=
  let k := s.core core
  let img := (k.slot w.slot).fromImage (s.rds (scrPa core (saveArea l)) 0x1000)
  let c := { img with
    st := .ready, cause := 0, inAt := k.stamp, runAt := 0
    fwd := s.recopy core img img.fwd
    sec := s.recopy core img img.sec }
  let k1 := { k.setSlot w.slot c with
    images := Tab.del k.images l
    swap := none
    stamp := k.stamp + 1
    readyCnt := Tab.del k.readyCnt l }
  let k2 := k1.applySigs.refresh
  if Keys.has k.heldL l then k2.askSwap ⟨w.slot, true, true, none, false⟩ else k2.nextSwap

/-- SWAP_END (R31, R32): the incoming image has been read from bank C1, which wakes first from retention, and its bound tables from their
banks, which wake too (R99, R128), so its context can issue; held signals are applied. A bank of a table that is off refuses the read and
ends the context with BANK_OFF (DEDUCED, log 201). -/
def execSwapEnd (core : Nat) (s : State) : Out :=
  if 2048 ≤ core ∨ s.halts then .next s
  else
    let k := s.core core
    match k.swap with
    | none => .next s
    | some w =>
      match w.second, w.inl with
      | true, some l =>
        let offs := k.tabOffs (k.slot w.slot) core
        if (k.bank 5).st ≠ .on then .next (s.mapCore core fun k => k.arrive 5)
        else if offs.any fun o => k.bankIsOff o 8256 then .next ((s.mapCore core Core.noteOff).faultCtx core l stBankOff)
        else if !offs.all fun o => k.bankIsOn o 8256 then .next (s.mapCore core fun k => offs.foldl (fun k o => k.arriveAll o 8256) k)
        else .next ((s.setCore core (s.swappedIn core w l)).badHead core w.slot)
      | _, _ => .next s

/-- Whether a remote request is a token signal (R37). -/
def isSignal (m : RemMsg) : Bool :=
  match m.op with
  | .signal _ _ => true
  | _ => false

/-- The first token signal of a mesh queue that comes behind no earlier message of its class (R139). -/
def State.firstSignal (s : State) : List RemMsg → List (Nat × Nat × Bool) → Option RemMsg
  | [], _ => none
  | m :: t, gone =>
    if isSignal m && !gone.contains (s.msgKey m) then some m else s.firstSignal t (s.msgKey m :: gone)

/-- REMOTE_SIGNAL_ARRIVAL (R32, R37, R139): the oldest remote signal that has reached the core. Another partition's is discarded and its
sender, if it still lives, ends with DENIED; one that finds the pending-signal buffer full waits. The sender's command completes when it is
acknowledged. -/
def execRemoteSignalArrival (core : Nat) (s : State) : Out :=
  if 2048 ≤ core ∨ s.halts then .next s
  else
    let k := s.core core
    match s.firstSignal k.arriving [] with
    | none => .next s
    | some m =>
      match m.op with
      | .signal lctx mask =>
        let drop (k : Core) : Core := { k with arriving := k.arriving.erase m }
        if (!m.svc && ((s.partOf core).isNone || s.partOf core != s.partOf m.src)) || k.fenced then
          let s1 := s.mapCore core fun k =>
            let k1 := drop k
            { k1 with scr := { k1.scr with remdenied := sat16 k1.scr.remdenied 1 } }
          let s2 := s1.mapCore m.src fun k => { k with outW := k.outW - 1 }
          .next (if (s.core m.src).pend.any fun p => p.id == m.id then s2.faultCtx m.src m.lctx stDenied else s2)
        else if k.sigFull lctx then .next s
        else
          let s1 := s.mapCore core fun k => (drop k).signal lctx mask
          .next ((s1.mapCore m.src fun k => ({ k with outW := k.outW - 1 }).complete m.id).badHead m.src m.slot)
      | _ => .next s

end Sys2Proof.Machine
end

