-- ==== Sys2Proof/Machine/Matrix.lean ====
section
/-! DEFINITION. Matrix commands and the events of the arrays (chapter 2). -/

namespace Sys2Proof.Machine

/-- Operand classes (Table 2.2). -/
inductive MClass where
  | h | b | q | f
  deriving DecidableEq, Repr

def mclass (a w : Nat) : Option MClass :=
  if (a = 0 ∧ w = 0) ∨ (a = 1 ∧ w = 1) then some .h
  else if a = 8 ∧ w = 8 then some .q
  else if 2 ≤ a ∧ a ≤ 9 ∧ 2 ≤ w ∧ w ≤ 9 then some .b
  else if a = 0xB ∧ w = 0xB then some .q
  else if (a = 0xA ∧ w = 0xA) ∨ (a = 0xA ∧ w = 0xB) ∨ (a = 0xB ∧ w = 0xA) then some .b
  else if a = 0xC ∧ w = 0xC then some .f
  else none

def MClass.kt : MClass → Nat
  | .q => 64
  | _ => 32

def MClass.rho : MClass → Nat
  | .h => 2 | .f => 6 | _ => 1

/-- Fields of MM and of the commands that share its layout (Table 2.4). -/
structure MmF where
  afmt : Nat
  wfmt : Nat
  abase : Nat
  aoff : Nat
  wbase : Nat
  woff : Nat
  rows : Nat
  nt : Nat
  acc : Nat
  zero : Bool
  trw : Bool
  tra : Bool
  deriving DecidableEq, Repr

def mmF (w : Cmd) : MmF :=
  { afmt := cf w 23 20, wfmt := cf w 27 24, abase := cf w 29 28, aoff := cf w 45 30, wbase := cf w 47 46,
    woff := cf w 63 48, rows := cf w 70 64 + 1, nt := cf w 74 71 + 1, acc := cf w 76 75, zero := cb w 77,
    trw := cb w 78, tra := cb w 79 }

/-- Fields of MM_WIDE (Table 2.7). -/
structure WideF where
  afmt : Nat
  wfmt : Nat
  abase : Nat
  aoff : Nat
  wbase : Nat
  woff : Nat
  rows : Nat
  nc : Nat
  col0 : Nat
  acc : Nat
  zero : Bool
  deriving DecidableEq, Repr

def wideF (w : Cmd) : WideF :=
  { afmt := cf w 23 20, wfmt := cf w 27 24, abase := cf w 29 28, aoff := cf w 45 30, wbase := cf w 47 46,
    woff := cf w 63 48, rows := cf w 66 64 + 1, nc := cf w 75 67 + 1, col0 := cf w 84 76, acc := cf w 86 85, zero := cb w 87 }

/-- Bytes of one activation slab (Table 2.5). -/
def slabBytes (f : MmF) (kt : Nat) : Nat :=
  let e := if f.tra then kt * roundUp (cdiv (f.rows * elemBits f.afmt) 8) 16 else roundUp (f.rows * kt * elemBits f.afmt / 8) 16
  e + if isMx f.afmt then roundUp (kt / 32 * f.rows) 16 else 0

/-- Bytes of one weight tile (Table 2.5). -/
def tileBytes (fmt kt : Nat) : Nat := kt * 32 * elemBits fmt / 8 + if isMx fmt then kt / 32 * 32 else 0

/-- First weight-tile load (Table 2.6). -/
def loadW (fmt kt : Nat) : Nat := cdiv (tileBytes fmt kt) 128

/-- S of R59. -/
def passS (f : MmF) (c : MClass) : Nat := max (c.rho * cdiv f.rows 4) (loadW f.wfmt c.kt)

/-- O of R59. -/
def passO (f : MmF) (c : MClass) : Nat := (if f.tra then 32 else 0) + f.nt * passS f c

/-- An element value with its block scale; a scale of 0xFF makes it NaN (R52, R53). -/
def scaled (fmt code scale : Nat) : FV :=
  if isMx fmt then
    match e8m0 scale with
    | none => .nan
    | some k => (elemVal fmt code).scale k
  else elemVal fmt code

/-- A[r][k] of slab `j` (Table 2.5): element code and scale byte. -/
def aElem (rd : Nat → Nat) (f : MmF) (kt j r k : Nat) : Nat × Nat :=
  let base := j * slabBytes f kt
  let row := roundUp (cdiv (f.rows * elemBits f.afmt) 8) 16
  if f.tra then
    (elemAt (fun i => rd (base + k * row + i)) f.afmt r, rd (base + kt * row + k / 32 * f.rows + r))
  else
    (elemAt (fun i => rd (base + i)) f.afmt (r * kt + k),
     rd (base + roundUp (f.rows * kt * elemBits f.afmt / 8) 16 + r * (kt / 32) + k / 32))

/-- B[k][n] of one tile whose bytes `rd` reads from 0 (Table 2.5). -/
def bElem (rd : Nat → Nat) (fmt : Nat) (trw : Bool) (kt k n : Nat) : Nat × Nat :=
  let e := kt * 32 * elemBits fmt / 8
  if trw then (elemAt rd fmt (n * kt + k), rd (e + n * (kt / 32) + k / 32))
  else (elemAt rd fmt (k * 32 + n), rd (e + k / 32 * 32 + n))

/-- The slot kind that a command fixes (Table 2.3). -/
def slotKind (op afmt : Nat) (bit80 : Bool) : Nat :=
  let int := isIntFmt afmt
  match op with
  | 0x40 => if int then 1 else 0
  | 0x41 => if int then 8 else 7
  | 0x42 => if int then (if bit80 then 5 else 4) else (if bit80 then 3 else 2)
  | 0x43 => if int then 1 else 0
  | 0x44 => 1
  | _ => 0

/-- The physical slot bound to a logical slot of a context. -/
def Core.physOf (k : Core) (lctx l : Nat) : Option Nat :=
  (List.range 8).find? fun p => (k.accAt p).held && (k.accAt p).lctx == lctx && (k.accAt p).lslot == l

/-- The free physical slot that a claim or a reload binds: the one with the lowest number, where R54 says only that it is free (DESIGN
CHOICE, log 204). -/
def Core.freePhys (k : Core) : Option Nat := (List.range 8).find? fun p => !(k.accAt p).held

def Core.isSpilled (k : Core) (lctx l : Nat) : Option SpilledAcc :=
  k.spilledAcc.find? fun x => x.lctx == lctx && x.lslot == l

/-- Issue check of one named slot (R54, R56, Table 2.12). -/
def slotCheck (k : Core) (c : Ctx) (l kind : Nat) (zero : Bool) : Option Nat :=
  if zero then (if psaveAddr c = 0 then some stIllegalOp else none)
  else
    match k.physOf c.lctx l, k.isSpilled c.lctx l with
    | some p, _ => if (k.accAt p).kind = kind then none else some stIllegalOp
    | none, some x => if x.kind = kind then none else some stIllegalOp
    | none, none => some stIllegalOp

/-- How many of the named logical slots hold no physical slot. -/
def Core.unbound (k : Core) (lctx : Nat) (ls : List Nat) : Nat := (ls.filter fun l => (k.physOf lctx l).isNone).length

/-- How many physical slots are free. -/
def Core.freeCount (k : Core) : Nat := ((List.range 8).filter fun p => !(k.accAt p).held).length

/-- Whether the named slots can be used now: each is resident and no drain in flight reads it, or it can be bound, and enough physical
slots are free for those that must be bound (R55, R74). -/
def slotsReady (k : Core) (lctx : Nat) (ls : List Nat) (zero : Bool) : Bool :=
  (ls.all fun l =>
    match k.physOf lctx l with
    | some p => !k.drain.any fun d => d.phys == p
    | none => (k.isSpilled lctx l).isNone && zero) &&
    k.unbound lctx ls ≤ k.freeCount

/-- Bind a slot claimed with ZERO = 1 at the identity, or mark it used. A slot already held takes its new kind here, and the identity
when the pass merges, behind the earlier passes in flight (R26, R49, R54). -/
def Core.claim (k : Core) (h : Head) (l kind : Nat) (zero : Bool) : Core × Nat :=
  let lctx := h.ctx.lctx
  match k.physOf lctx l with
  | some p =>
    let a := k.accAt p
    (k.setAcc p { a with kind := if zero then kind else a.kind, used := k.stamp, hw := h.slot }, p)
  | none =>
    let p := k.freePhys.getD 0
    (k.setAcc p { held := true, kind := kind, hw := h.slot, lctx := lctx, lslot := l, used := k.stamp }, p)

/-- What the issue checks settle about a pass: status of the failure, or operand window offsets with their lengths, slot kind and
charge. -/
structure PassPlan where
  aOff : Nat
  aLen : Nat
  wOff : Nat
  wLen : Nat
  acc : Nat
  kind : Nat
  zero : Bool
  arg : Bool
  cls : Nat
  cycles : Nat
  deriving DecidableEq, Repr

/-- The logical slots that a pass names (R69). -/
def PassPlan.slots (pl : PassPlan) : List Nat := if pl.arg then [pl.acc, pl.acc + 1] else [pl.acc]

/-- Energy class of a matrix command (Table 11.3). -/
def matrixClass (op afmt : Nat) (c : MClass) : Nat :=
  if op = 0x47 then 6
  else if op = 0x41 then 10
  else if op = 0x40 then (match c with | .h => 7 | .b => 8 | .q => 9 | .f => 6)
  else if isIntFmt afmt then 8 else 7

/-- Formats and limits of a command of the MM layout (R51, R59, R62, R63, R67, R69, R71, Table 2.12). -/
def mmFormats (op : Nat) (w : Cmd) : Except Nat MClass :=
  let f := mmF w
  match mclass f.afmt f.wfmt with
  | none => .error stIllegalOp
  | some c =>
    let okFmt := match op with
      | 0x40 => c != .f
      | 0x47 => c == .f && !f.tra && !cb w 80
      | _ => c == .h || (f.afmt == 0xA && f.wfmt == 0xA)
    if !okFmt ∨ 384 < f.nt * passS f c then .error stIllegalOp
    else if op = 0x40 ∧ cb w 80 ∧ !f.tra then .error stIllegalOp
    else if op = 0x42 ∧ cb w 81 ∧ f.acc % 2 = 1 then .error stIllegalOp
    else .ok c

/-- Issue checks of MM, MM_SEMI, MM_DIST, MM_CMP and MM_F32X3 (Table 2.12). Where several fail, ILLEGAL_OP comes before BOUND_FAULT and
BANK_OFF last, here and in `widePlan` and `drainPlan` (DESIGN CHOICE, log 204). -/
def mmPlan (s : State) (op : Nat) (h : Head) : Except Nat PassPlan :=
  match mmFormats op h.w with
  | .error st => .error st
  | .ok c =>
    let f := mmF h.w
    let k := s.core h.core
    let kind := slotKind op f.afmt (cb h.w 80)
    let arg := op == 0x42 && cb h.w 81
    let chk := match slotCheck k h.ctx f.acc kind f.zero with
      | some st => some st
      | none => if arg then slotCheck k h.ctx (f.acc + 1) 6 f.zero else none
    match chk with
    | some st => .error st
    | none =>
      let aLen := f.nt * slabBytes f c.kt
      let wLen := f.nt * roundUp (tileBytes f.wfmt c.kt) 16
      match localOff k h.ctx h.core f.abase f.aoff aLen, localOff k h.ctx h.core f.wbase f.woff wLen with
      | .ok a, .ok b =>
        if k.bankIsOff a aLen || k.bankIsOff b wLen then .error stBankOff
        else .ok ⟨a, aLen, b, wLen, f.acc, kind, f.zero, arg, matrixClass op f.afmt c, passO f c⟩
      | .error st, _ => .error st
      | _, .error st => .error st

/-- KW of MM_WIDE. -/
def wideKw (c : MClass) : Nat := if c = .q then 1024 else 512

/-- Bytes of a quarter-run (R66). -/
def quarterBytes (fmt kw : Nat) : Nat := kw / 4 * elemBits fmt / 8 + if isMx fmt then kw / 128 else 0

/-- Issue checks of MM_WIDE (R65, R66, Table 2.12). A weight operand that starts in the pantry and whose quarter-runs reach past 0x40000 is
an ILLEGAL_OP like one that starts outside (DESIGN CHOICE, log 189); one through a pair into another core or an alias is past its bound
(R132). -/
def widePlan (s : State) (h : Head) : Except Nat PassPlan :=
  let f := wideF h.w
  match mclass f.afmt f.wfmt with
  | none => .error stIllegalOp
  | some c =>
    if c = .f ∨ 384 < f.nc * c.rho ∨ 512 < f.col0 + f.nc then .error stIllegalOp
    else
      let k := s.core h.core
      let kind := slotKind 0x41 f.afmt false
      match slotCheck k h.ctx f.acc kind f.zero with
      | some st => .error st
      | none =>
        let kw := wideKw c
        let aLen := f.rows * kw * elemBits f.afmt / 8 + if isMx f.afmt then f.rows * (kw / 32) else 0
        let ext := roundUp (f.nc * quarterBytes f.wfmt kw) 16
        match localOff k h.ctx h.core f.abase f.aoff aLen, localOff k h.ctx h.core f.wbase f.woff (0x30000 + ext) with
        | .ok a, .ok b =>
          if 0x40000 < b + 0x30000 + ext then .error stIllegalOp
          else if k.bankIsOff a aLen || k.bankIsOff b (0x30000 + ext) then .error stBankOff
          else .ok ⟨a, aLen, b, 0x30000 + ext, f.acc, kind, f.zero, false, 10,
            cdiv (f.rows * kw * elemBits f.afmt) 1024 + f.nc * c.rho⟩
        | .error st, _ | _, .error st =>
          let w := (h.ctx.pair f.wbase).addr + f.woff * 16 - scrPa h.core 0
          if 0x40000 ≤ w ∧ w < 0x100000 then .error stIllegalOp else .error st

/-- Start a pass whose checks have passed: hold while a bank wakes, a slot or a working bank is not free (R55, R60, R74, R129), else
pay, claim the slots and put the pass in flight. -/
def startPass (h : Head) (s : State) (pl : PassPlan) : State :=
  let k := s.core h.core
  let lctx := h.ctx.lctx
  if !(k.bankIsOn pl.aOff pl.aLen && k.bankIsOn pl.wOff pl.wLen) then
    (s.mapCore h.core fun k => (k.arriveAll pl.aOff pl.aLen).arriveAll pl.wOff pl.wLen).hold h.core h.slot 3
  else if 2 ≤ k.passes.length ∨ !k.restart.isEmpty ∨ !slotsReady k lctx pl.slots pl.zero then s.hold h.core h.slot 3
  else
    s.pay h pl.cls pl.cycles fun s =>
      let (id, s1) := s.leave h .matrix
      let k := s1.core h.core
      let f := mmF h.w
      let tag := f.wbase + 4 * f.woff + 2 ^ 18 * f.wfmt + 2 ^ 22 * f.afmt + 2 ^ 26 * (b01 (cb h.w 78 && opcodeOf h.w != 0x41))
      let mine := k.pre.filter fun p => p.lctx == lctx
      let pre := (mine.filter fun p => p.tag == tag && opcodeOf h.w != 0x41).map fun p => p.tile
      let bad := mine.any fun p => p.poison && pre.isSome
      let (k1, ph) := k.claim h pl.acc pl.kind pl.zero
      if pl.arg then
        let (k2, ix) := k1.claim h (pl.acc + 1) 6 pl.zero
        let k3 := { k2 with
          passes := k2.passes ++ [⟨id, h.slot, lctx, h.w, pl.aOff, pl.wOff, ph, some ix, pre, bad, 0⟩]
          pre := if mine.isSome then none else k2.pre }
        (s1.setCore h.core k3).settle h.core h.slot
      else
        let k3 := { k1 with
          passes := k1.passes ++ [⟨id, h.slot, lctx, h.w, pl.aOff, pl.wOff, ph, none, pre, bad, 0⟩]
          pre := if mine.isSome then none else k1.pre }
        (s1.setCore h.core k3).settle h.core h.slot

/-- Check, then start (R80). -/
def runPass (h : Head) (s : State) (pl : Except Nat PassPlan) : State :=
  match pl with
  | .error st => s.failed h st
  | .ok p => startPass h s p

/-- MM (R57); NOWG retires in one cycle in class 0 and touches nothing (R63). -/
def workMm (core n : Nat) (s : State) : Out :=
  work core n 0x40 s fun h s =>
    if cb h.w 80 then
      match mmFormats 0x40 h.w with
      | .error st => s.failed h st
      | .ok _ =>
        if s.fits core (classRate 0) 1 then
          ((s.issue h (classRate 0) 1).mapCore core fun k => { k with mx := { k.mx with nowgskip := sat16 k.mx.nowgskip 1 } }).done h
        else s.hold core n 4
    else runPass h s (mmPlan s 0x40 h)

/-- MM_WIDE (R65). -/
def workMmWide (core n : Nat) (s : State) : Out := work core n 0x41 s fun h s => runPass h s (widePlan s h)

/-- MM_SEMI (R68). -/
def workMmSemi (core n : Nat) (s : State) : Out := work core n 0x42 s fun h s => runPass h s (mmPlan s 0x42 h)

/-- MM_DIST (R70). -/
def workMmDist (core n : Nat) (s : State) : Out := work core n 0x43 s fun h s => runPass h s (mmPlan s 0x43 h)

/-- MM_CMP (R70). -/
def workMmCmp (core n : Nat) (s : State) : Out := work core n 0x44 s fun h s => runPass h s (mmPlan s 0x44 h)

/-- MM_F32X3 (R71). -/
def workMmF32x3 (core n : Nat) (s : State) : Out := work core n 0x47 s fun h s => runPass h s (mmPlan s 0x47 h)

/-- LOAD_W (R64): loads one tile into the tagged preload register. -/
def workLoadW (core n : Nat) (s : State) : Out :=
  work core n 0x45 s fun h s =>
    let f := mmF h.w
    match mclass f.afmt f.wfmt with
    | none => s.failed h stIllegalOp
    | some .f => s.failed h stIllegalOp
    | some c =>
      let k := s.core core
      let len := tileBytes f.wfmt c.kt
      match localOff k h.ctx core f.wbase f.woff len with
      | .error st => s.failed h st
      | .ok off =>
        if k.bankIsOff off len then s.failed h stBankOff
        else if !k.bankIsOn off len then (s.mapCore core fun k => k.arriveAll off len).hold core n 3
        else s.pay h 5 (loadW f.wfmt c.kt) fun s =>
          let tag := f.wbase + 4 * f.woff + 2 ^ 18 * f.wfmt + 2 ^ 22 * f.afmt + 2 ^ 26 * b01 f.trw
          (s.mapCore core fun k =>
            { k with pre := some ⟨h.ctx.lctx, tag, s.rds (scrPa core off) len, s.anyPoison (scrPa core off) len⟩ }).done h

/-! Results of a pass (R52, R68, R70, R71). -/

/-- Sum a list of values exactly. -/
def exactSum (xs : List FV) : FV := (xs.foldl Exact.add {}).val

/-- The high and low BF16 parts of an FP32 operand (R71). Of an operand that is infinite, or that rounds to infinity in BF16, the remainder
is NaN or infinite by the arithmetic of the formats (DESIGN CHOICE, log 189). -/
def splitBf (x : FV) : FV × FV :=
  let hi := fmtBF16.decode (fmtBF16.encode .rne false x).1
  (hi, fmtBF16.decode (fmtBF16.encode .rne false (x.add hi.neg)).1)

/-- The terms that one reduction position adds (R52, R70, R71). A difference or square that rounds to infinity sets no flag by itself: INF is
set at the accumulator only (DESIGN CHOICE, log 189). -/
def mmTerms (op : Nat) (sq : Bool) (a b : FV) : List FV :=
  match op with
  | 0x43 =>
    let d := fmtFP32.decode (fmtFP32.encode .rne false (a.add b.neg)).1
    if sq then [fmtFP32.decode (fmtFP32.encode .rne false (d.mul d)).1] else [d.abs]
  | 0x44 => if (if sq then b.le a else b.lt a) then [.fin false 1 0] else []
  | 0x47 =>
    let (ah, al) := splitBf a
    let (bh, bl) := splitBf b
    [al.mul bh, ah.mul bl, ah.mul bh]
  | _ => [a.mul b]

/-- An integer value of an exact float sum of integers. -/
def FV.intVal (v : FV) : Int := (v.toInt .rtz (-(2 ^ 80)) (2 ^ 80)).1

/-- The working-bank result of one output of an accumulating pass: each tile's exact sum is added with one rounding (R52). -/
def workSum (int : Bool) (tiles : List (List FV)) : Nat × Fl :=
  tiles.foldl
    (fun (a : Nat × Fl) t =>
      let r := if int then accI32 a.1 (exactSum t).intVal else accF32 a.1 (exactSum t)
      (r.1, a.2.or r.2)) (0, {})

/-- Merge a working-bank sum into a slot value. -/
def mergeSum (int : Bool) (slot work : Nat) : Nat × Fl :=
  if int then accI32 slot (sgn 32 work) else accF32 slot (fmtFP32.decode work)

/-- A semiring candidate: its value as a pattern, or none (R68). -/
def semiCand (int : Bool) (a b : FV) (ca cb' : Nat) : Option Nat :=
  if int then
    if ca = 0x80 ∨ cb' = 0x80 then none else some (pat 32 ((a.add b).intVal))
  else
    let v := a.add b
    if v.isNaN then none else some (fmtFP32.encode .rne false v).1

/-- Whether a candidate pattern is strictly better than an accumulator pattern. -/
def semiBetter (int mx : Bool) (c a : Nat) : Bool :=
  if int then (if mx then sgn 32 a < sgn 32 c else sgn 32 c < sgn 32 a)
  else
    let x := fmtFP32.decode c
    let y := fmtFP32.decode a
    if mx then y.lt x else x.lt y

/-- Fold semiring candidates in increasing k: value, and index of the winner if any. -/
def semiFold (int mx : Bool) (ident : Nat) (cs : List (Option Nat × Nat)) : Nat × Option Nat :=
  cs.foldl
    (fun (a : Nat × Option Nat) c =>
      match c.1 with
      | none => a
      | some v => if semiBetter int mx v a.1 then (v, some c.2) else a) (ident, none)

/-- The values of a slot with one changed, in canonical sparse form. -/
def accPut (ident : Nat) (t : Tab Nat) (i v : Nat) : Tab Nat := if v = ident then Tab.del t i else Tab.put t i v

/-- Bytes of a core's window as numbers. -/
def State.winRd (s : State) (core off : Nat) (i : Nat) : Nat := (s.rd (scrPa core (off + i))).toNat

/-- The outputs (slot index, working value, index of the winner) of a pass with the MM layout, and their flags. -/
def mmOutputs (s : State) (core : Nat) (p : Pass) : List (Nat × Nat × Option Nat) × Fl :=
  let f := mmF p.cmd
  let op := opcodeOf p.cmd
  let c := (mclass f.afmt f.wfmt).getD .h
  let kt := c.kt
  let int := isIntFmt f.afmt
  let rdA := s.winRd core p.aAddr
  let tb := roundUp (tileBytes f.wfmt kt) 16
  let rdB (j i : Nat) : Nat :=
    match j, p.pre with
    | 0, some t => (t.getD i 0).toNat
    | _, _ => s.winRd core p.wAddr (j * tb + i)
  let aV (j r k : Nat) : FV := let x := aElem rdA f kt j r k; scaled f.afmt x.1 x.2
  let bV (j k n : Nat) : FV := let x := bElem (rdB j) f.wfmt f.trw kt k n; scaled f.wfmt x.1 x.2
  let isSum := op != 0x42
  let mx := cb p.cmd 80
  let cells := (List.range f.rows).flatMap fun r => (List.range 32).map fun n => (r, n)
  cells.foldl
    (fun (acc : List (Nat × Nat × Option Nat) × Fl) rn =>
      let (r, n) := rn
      if isSum then
        let tiles := (List.range f.nt).map fun j => (List.range kt).flatMap fun k => mmTerms op mx (aV j r k) (bV j k n)
        let (v, fl) := workSum (int || op == 0x44) tiles
        (acc.1 ++ [(r * 32 + n, v, none)], acc.2.or fl)
      else
        let ident := accIdentity (slotKind op f.afmt mx)
        let cs := (List.range f.nt).flatMap fun j => (List.range kt).map fun k =>
          (semiCand int (aV j r k) (bV j k n) (aElem rdA f kt j r k).1 (bElem (rdB j) f.wfmt f.trw kt k n).1, j * kt + k)
        let (v, ix) := semiFold int mx ident cs
        (acc.1 ++ [(r * 32 + n, v, ix)], acc.2)) ([], {})

/-- The outputs of an MM_WIDE pass (R65, R66). -/
def wideOutputs (s : State) (core : Nat) (p : Pass) : List (Nat × Nat × Option Nat) × Fl :=
  let f := wideF p.cmd
  let c := (mclass f.afmt f.wfmt).getD .h
  let kw := wideKw c
  let int := isIntFmt f.afmt
  let rdA := s.winRd core p.aAddr
  let qb := quarterBytes f.wfmt kw
  let aV (r k : Nat) : FV :=
    scaled f.afmt (elemAt rdA f.afmt (r * kw + k)) (rdA (f.rows * kw * elemBits f.afmt / 8 + r * (kw / 32) + k / 32))
  let bV (k n : Nat) : FV :=
    let q := k / (kw / 4)
    let kk := k % (kw / 4)
    let rd (i : Nat) : Nat := s.winRd core p.wAddr (q * 0x10000 + n * qb + i)
    scaled f.wfmt (elemAt rd f.wfmt kk) (rd (kw / 4 * elemBits f.wfmt / 8 + kk / 32))
  let cells := (List.range f.rows).flatMap fun r => (List.range f.nc).map fun n => (r, n)
  cells.foldl
    (fun (acc : List (Nat × Nat × Option Nat) × Fl) rn =>
      let (r, n) := rn
      let (v, fl) := workSum int [(List.range kw).map fun k => (aV r k).mul (bV k n)]
      (acc.1 ++ [(r * 512 + f.col0 + n, v, none)], acc.2.or fl)) ([], {})

/-- Extents of the operands of a pass, as window offset and length (R58, R66). -/
def passExt (p : Pass) : List (Nat × Nat) :=
  if opcodeOf p.cmd = 0x41 then
    let f := wideF p.cmd
    let kw := wideKw ((mclass f.afmt f.wfmt).getD .h)
    let ext := roundUp (f.nc * quarterBytes f.wfmt kw) 16
    (p.aAddr, f.rows * kw * elemBits f.afmt / 8 + if isMx f.afmt then f.rows * (kw / 32) else 0) ::
      (List.range 4).map fun q => (p.wAddr + q * 0x10000, ext)
  else
    let f := mmF p.cmd
    let kt := ((mclass f.afmt f.wfmt).getD .h).kt
    [(p.aAddr, f.nt * slabBytes f kt), (p.wAddr, f.nt * roundUp (tileBytes f.wfmt kt) 16)]

/-- Extents that a pass reads: a first tile that the preload register gave is not read (R64). -/
def passReads (p : Pass) : List (Nat × Nat) :=
  if p.pre.isNone ∨ opcodeOf p.cmd = 0x41 then passExt p
  else
    let f := mmF p.cmd
    let kt := ((mclass f.afmt f.wfmt).getD .h).kt
    let tile := roundUp (tileBytes f.wfmt kt) 16
    [(p.aAddr, f.nt * slabBytes f kt), (p.wAddr + tile, (f.nt - 1) * tile)]

/-- A slot as a pass finds it: at the identity, unpoisoned, for a pass that claims it (R49, R54). -/
def AccSlot.base (a : AccSlot) (zero : Bool) : AccSlot := if zero then { a with vals := [], poison := false } else a

/-- ZERO of a pass. -/
def Pass.zero (p : Pass) : Bool := if opcodeOf p.cmd = 0x41 then (wideF p.cmd).zero else (mmF p.cmd).zero

/-- The slot kind that the command of a pass fixes (Table 2.3). -/
def Pass.kind (p : Pass) : Nat := slotKind (opcodeOf p.cmd) (cf p.cmd 23 20) (cb p.cmd 80)

/-- Merge the outputs of a pass into its slots (R49, R52, R54, R68, R69). -/
def mergePass (k : Core) (p : Pass) (outs : List (Nat × Nat × Option Nat)) (poison : Bool) : Core × Fl :=
  let a := (k.accAt p.phys).base p.zero
  let kind := p.kind
  let id := accIdentity kind
  let int := kind == 1 || kind == 8 || kind == 4 || kind == 5
  let semi := 2 ≤ kind && kind ≤ 5
  let mx := kind == 3 || kind == 5
  let kbase := cf p.cmd 105 82
  let ix0 : AccSlot := match p.idx with | some i => (k.accAt i).base p.zero | none => {}
  let r := outs.foldl
    (fun (acc : Tab Nat × Tab Nat × Fl) o =>
      let old := Tab.get id acc.1 o.1
      if semi then
        match o.2.2 with
        | none => acc
        | some kk =>
          if semiBetter int mx o.2.1 old then
            (accPut id acc.1 o.1 o.2.1, accPut 0xFFFFFFFF acc.2.1 o.1 ((kbase + kk) % 2 ^ 32), acc.2.2)
          else acc
      else
        let (v, fl) := mergeSum int old o.2.1
        (accPut id acc.1 o.1 v, acc.2.1, acc.2.2.or fl)) (a.vals, ix0.vals, {})
  let k1 := k.setAcc p.phys { a with vals := r.1, poison := a.poison || poison }
  let k2 := match p.idx with
    | some i => k1.setAcc i { ix0 with vals := r.2.1, poison := ix0.poison || poison }
    | none => k1
  (k2, r.2.2)

/-- Apply the ARR_REPAIR writes that waited for a pass boundary (R81). -/
def Core.applyRepairs (k : Core) : Core :=
  if !k.passes.isEmpty then k
  else
    (List.range 4).foldl
      (fun k a =>
        let x := k.array a
        match x.pending with
        | none => k
        | some v => k.setArray a { x with pending := none, row := bits v 4 0, spareOn := bit v 5, runtime := true }) k

/-- The use of accumulator slots ends: how long they go unused counts from now (R55). -/
def Core.unuse (k : Core) (ps : List Nat) : Core :=
  ps.foldl (fun k p => if (k.accAt p).held then k.setAcc p { k.accAt p with used := k.stamp } else k) { k with stamp := k.stamp + 1 }

/-- PASS_COMPLETE (R49): the oldest pass in flight merges its working bank, frees it and signals SIG. -/
def execPassComplete (core : Nat) (s : State) : Out :=
  if 2048 ≤ core ∨ s.halts then .next s
  else
    match (s.core core).passes with
    | [] => .next s
    | p :: t =>
      let poison := p.bad || (passReads p).any fun x => s.anyPoison (scrPa core x.1) x.2
      let (outs, fl) := if opcodeOf p.cmd = 0x41 then wideOutputs s core p else mmOutputs s core p
      .next (s.mapCore core fun k =>
        let (k1, fl2) := mergePass k p outs poison
        (({ k1 with passes := t, mx := k1.mx.raise (fl.or fl2) }).unuse (p.phys :: p.idx.toList)).applyRepairs.complete p.id)

/-! DRAIN_ACC (R72 to R74). -/

/-- Output format of a drain: float format, or integer width. -/
def drainFloat (ofmt : Nat) : Option FFmt :=
  match ofmt with
  | 0 => some fmtFP32 | 1 => some fmtBF16 | 2 => some fmtFP16 | 3 => some fmtE4M3 | 4 => some fmtE5M2 | _ => none

def drainWidth (ofmt : Nat) : Nat := match ofmt with | 0 => 4 | 1 => 2 | 2 => 2 | 5 => 4 | _ => 1

/-- Whether a kind holds float values. -/
def kindFloat (k : Nat) : Bool := k == 0 || k == 2 || k == 3 || k == 7

/-- Bytes that a drain writes. -/
def drainLen (w : Cmd) : Nat :=
  let r := cf w 52 46 + 1
  let b := drainWidth (cf w 22 20)
  if cb w 27 then r * roundUp ((cf w 61 53 + 1) * b) 16 else r * 32 * b

/-- Cycles of a drain, for its charge (R74, Table 11.3). -/
def drainCycles (w : Cmd) (inCellar : Bool) : Nat :=
  let r := cf w 52 46 + 1
  let rd := if cb w 27 then cdiv (r * (cf w 61 53 + 1)) 64 else 2 * cdiv r 4
  4 + max rd (cdiv (drainLen w) 128) + if inCellar then 8 else 0

/-- One drained value as a code of OFMT (R73). -/
def drainValue (ofmt : Nat) (sat : Bool) (sc : Int) (v : Nat) : Nat :=
  match drainFloat ofmt with
  | some f => (f.encode .rne sat ((fmtFP32.decode v).scale sc)).1
  | none =>
    let w := 8 * drainWidth ofmt
    let x := ((FV.ofInt (sgn 32 v)).scale sc).toInt .rne (-(2 ^ (w - 1))) (2 ^ (w - 1) - 1)
    pat w x.1

/-- DRAIN_ACC issue checks (R73, Table 2.12): the destination offset. -/
def drainPlan (s : State) (h : Head) : Except Nat Nat :=
  let w := h.w
  let k := s.core h.core
  let ofmt := cf w 22 20
  let wide := cb w 27
  let l := cf w 24 23
  let kind := match k.physOf h.ctx.lctx l, k.isSpilled h.ctx.lctx l with
    | some p, _ => some (k.accAt p).kind
    | none, some x => some x.kind
    | none, none => none
  match kind with
  | none => .error stIllegalOp
  | some kd =>
    if ofmt = 7 ∨ (wide ∧ 8 < cf w 52 46 + 1) ∨ (wide ∧ 512 < cf w 78 70 + cf w 61 53 + 1) ∨
        (!wide ∧ (cf w 78 70 ≠ 0 ∨ cf w 61 53 ≠ 0)) then .error stIllegalOp
    else if (wide : Bool) ≠ (kd == 7 || kd == 8) ∨ kindFloat kd ≠ (drainFloat ofmt).isSome then .error stIllegalOp
    else if !kindFloat kd ∧ 0 < sgn 8 (cf w 69 62) then .error stIllegalOp
    else
      match localOff k h.ctx h.core (cf w 29 28) (cf w 45 30) (drainLen w) with
      | .error st => .error st
      | .ok off => if k.bankIsOff off (drainLen w) then .error stBankOff else .ok off

/-- The passes into a physical slot that have issued and not completed (R74). -/
def Core.writers (k : Core) (ph : Nat) : List Nat :=
  ((k.passes ++ k.restart).filter fun p => p.phys == ph || p.idx == some ph).map fun p => p.id

/-- DRAIN_ACC (R72): it waits at the head for its slot to be resident and for the read port, and once issued for the earlier writers of
its slot (R74). A skipped drain with RELEASE = 1 still frees the slot (R79). -/
def workDrainAcc (core n : Nat) (s : State) : Out :=
  work core n 0x46 s
    (fun h s =>
      match drainPlan s h with
      | .error st => s.failed h st
      | .ok off =>
        let k := s.core core
        let len := drainLen h.w
        match k.physOf h.ctx.lctx (cf h.w 24 23) with
        | none => s.hold core n 3
        | some ph =>
          if !k.bankIsOn off len then (s.mapCore core fun k => k.arriveAll off len).hold core n 3
          else if k.drain.isSome then s.hold core n 3
          else s.pay h 5 (drainCycles h.w (0x40000 ≤ off)) fun s =>
            let (id, s1) := s.leave h .drain
            (s1.mapCore core fun k =>
              { k.setAcc ph { k.accAt ph with used := k.stamp } with
                drain := some ⟨id, n, h.ctx.lctx, h.w, off, ph, k.writers ph⟩ }).settle core n)
    (fun h s =>
      if cb h.w 25 then
        s.mapCore core fun k =>
          let k1 := match k.physOf h.ctx.lctx (cf h.w 24 23) with | some p => k.setAcc p {} | none => k
          { k1 with spilledAcc := k1.spilledAcc.filter fun x => !(x.lctx == h.ctx.lctx && x.lslot == cf h.w 24 23) }
      else s)

/-- The bytes that a drain writes, row after row (R73). The padding of a wide row is open (log 24), and the same in a replay (R180). -/
def drainBytes (a : AccSlot) (d : Drain) : List Byte :=
  let w := d.cmd
  let ofmt := cf w 22 20
  let b := drainWidth ofmt
  let sc := sgn 8 (cf w 69 62)
  let wide := cb w 27
  let nc := if wide then cf w 61 53 + 1 else 32
  let stride := if wide then roundUp (nc * b) 16 else 32 * b
  (List.range (cf w 52 46 + 1)).flatMap fun r =>
    ((List.range nc).flatMap fun c =>
      let i := if wide then r * 512 + cf w 78 70 + c else r * 32 + c
      leBytes b (drainValue ofmt (cb w 26) sc (Tab.get (accIdentity a.kind) a.vals i))) ++
      (List.range (stride - nc * b)).map fun i => Config.drainPad w.toNat (r * stride + nc * b + i)

/-- Whether an earlier pass into the slot of a drain is still in flight (R74). -/
def Core.drainWaits (k : Core) (d : Drain) : Bool := (k.passes ++ k.restart).any fun p => d.after.contains p.id

/-- DRAIN_COMPLETE (R73, R74): the destination is written, poisoned if the slot took poison; RELEASE frees the slot. It comes behind the
earlier passes into the slot. -/
def execDrainComplete (core : Nat) (s : State) : Out :=
  if 2048 ≤ core ∨ s.halts then .next s
  else
    match (s.core core).drain with
    | none => .next s
    | some d =>
      if (s.core core).drainWaits d then .next s
      else
        let a := (s.core core).accAt d.phys
        let s1 := s.wr (scrPa core d.dst) (drainBytes a d) a.poison
        .next (s1.mapCore core fun k =>
          let k1 := if cb d.cmd 25 then k.setAcc d.phys {} else k.unuse [d.phys]
          ({ k1 with drain := none }).complete d.id)

/-! Spills and reloads (R55, R56). -/

/-- Logical slots that the head of a context names. -/
def namedSlots (w : Cmd) : List Nat :=
  let op := opcodeOf w
  if op = 0x41 then [cf w 86 85]
  else if op = 0x46 then [cf w 24 23]
  else if op = 0x42 ∧ cb w 81 then [cf w 76 75, cf w 76 75 + 1]
  else if op = 0x40 ∨ op = 0x42 ∨ op = 0x43 ∨ op = 0x44 ∨ op = 0x47 then [cf w 76 75]
  else []

/-- Whether a physical slot is in use by a pass or a drain (R55). -/
def Core.accInUse (k : Core) (p : Nat) : Bool :=
  (k.passes ++ k.restart).any (fun q => q.phys == p || q.idx == some p) || k.drain.any (fun d => d.phys == p)

/-- The logical slots that the command at the head of a context claims or reads: none for a command that does not issue, is skipped,
retires by NOWG or fails its checks (R55, R63, R79, Table 2.12). -/
def State.wantedSlots (s : State) (core n : Nat) : List Nat :=
  match gateOn s core n fun _ => true with
  | .go h =>
    let op := opcodeOf h.w
    let ok : Bool :=
      if op = 0x41 then (widePlan s h).isOk
      else if op = 0x46 then (drainPlan s h).isOk
      else !(op == 0x40 && cb h.w 80) && (mmPlan s op h).isOk
    if ok then namedSlots h.w else []
  | _ => []

/-- ACC_SLOT_SPILL (R55): the head of the context needs more physical slots than are free; the held slot of another context that has
gone longest unused, and is not in use, is spilled to its owner's save area. Of slots unused equally long, as the two of an ARG pass are,
the one with the lowest physical number goes (DESIGN CHOICE, log 204). An unmapped area ends the owner. -/
def execAccSlotSpill (core n : Nat) (s : State) : Out :=
  if 2048 ≤ core ∨ 8 ≤ n then .next s
  else
    let k := s.core core
    let c := k.slot n
    if s.farHeld core ∨ k.unbound c.lctx (s.wantedSlots core n) ≤ k.freeCount then .next s
    else
      match listBest (fun (a b : Nat) => (k.accAt a).used < (k.accAt b).used)
          ((List.range 8).filter fun p => (k.accAt p).held && (k.accAt p).lctx != c.lctx && !k.accInUse p) with
      | none => .next s
      | some v =>
        let owner := (k.accAt v).lctx
        let area := (k.ctx? owner).elim 0 psaveAddr
        match s.spillAcc core v area with
        | some s1 => .next s1
        | none => .next (s.areaFault core owner (area + (k.accAt v).lslot * 0x4000) 0x4000 2 true)

/-- The values of a slot of a kind in the 16 KiB of its save area, those that differ from the identity (R56). -/
def accVals (kind : Nat) (bs : List Byte) : Tab Nat :=
  (List.range 4096).foldr
    (fun i (t : Tab Nat) =>
      let v := leNat ((bs.drop (4 * i)).take 4)
      if v = accIdentity kind then t else (i, v) :: t) []

/-- ACC_SLOT_RELOAD (R55): a spilled logical slot of the command that waits at the head is read back into a free physical slot. -/
def execAccSlotReload (core n : Nat) (s : State) : Out :=
  if 2048 ≤ core ∨ 8 ≤ n then .next s
  else if s.farHeld core then .next s
  else
    let k := s.core core
    let c := k.slot n
    match (s.wantedSlots core n).findSome? fun l => k.isSpilled c.lctx l with
    | none => .next s
    | some x =>
      match k.freePhys with
      | none => .next s
      | some ph =>
        match s.vread (s.pno core) (psaveAddr c + x.lslot * 0x4000) 0x4000 with
        | .error _ => .next (s.areaFault core c.lctx (psaveAddr c + x.lslot * 0x4000) 0x4000 2 false)
        | .ok (bs, poison) =>
          let va := psaveAddr c + x.lslot * 0x4000
          .next ((((s.vtake (s.pno core) va 0x4000).ckPages core va 0x4000).chargeData core (256 * 40)).mapCore core fun k =>
            { k.setAcc ph ⟨true, x.kind, n, c.lctx, x.lslot, accVals x.kind bs, poison, k.stamp⟩ with
              spilledAcc := k.spilledAcc.erase x
              stamp := k.stamp + 1 })

end Sys2Proof.Machine
end

