-- ==== Sys2Proof/Machine/Vector.lean ====
section
/-! DEFINITION. Vector commands and the events of the vector engine (chapter 3). -/

namespace Sys2Proof.Machine

/-- What the issue checks of a vector command settle: operand window offsets, the extents used, initial running values (the chain
descriptor of VOP CHAIN), and the energy class of Table 11.3. -/
structure VPlan where
  ops : List Nat
  exts : List (Nat × Nat)
  acc : List Nat
  cls : Nat
  deriving DecidableEq, Repr

/-- Whether a destination overlaps an input without starting at the same address with the same element width (Table 3.10). -/
def clash (d dlen dw : Nat) (ins : List (Nat × Nat × Nat)) : Bool :=
  ins.any fun x => d < x.1 + x.2.1 && x.1 < d + dlen && !(x.1 == d && x.2.2 == dw)

/-- Class by the formats of an arithmetic command (Table 11.3). -/
def vClass (a b : Nat) : Nat :=
  if a = 0xD ∨ b = 0xD then 3 else if isIntFmt a ∧ isIntFmt b then 1 else 2

/-- A chain step (Table 3.6). -/
structure ChStep where
  op : Nat
  dst : Nat
  sa : Nat
  sb : Nat
  sc : Nat
  fsel : Nat
  deriving DecidableEq, Repr

def chStep (x : Nat) : ChStep := ⟨bits x 4 0, bits x 6 5, bits x 9 7, bits x 12 10, bits x 15 13, bits x 19 16⟩

/-- The steps of a chain up to its terminator. -/
def chSteps : List Nat → List ChStep
  | [] => []
  | x :: t => if bits x 4 0 = 0x1F then [] else chStep x :: chSteps t

/-- Used operands and W of a chain step; FN is allowed in float formats except FP64 (Table 3.5). -/
def chInfo (fmt : Nat) (fwd : Bool) (st : ChStep) : Option (Nat × Nat) :=
  if st.op = 0x14 then
    if isIntFmt fmt ∨ fmt = 0xD ∨ 9 < st.fsel ∨ (st.fsel = 0 ∧ !fwd) then none else some (1, 4 * vLanes fmt / 128)
  else vopInfo st.op fmt

/-- Total W of a chain whose sources are all written before use (R92). -/
def chCheck (fmt : Nat) (fwd : Bool) : List ChStep → List Nat → Nat → Option Nat
  | [], _, w => some w
  | st :: t, defd, w =>
    match chInfo fmt fwd st with
    | none => none
    | some (used, k) =>
      let bad (i src : Nat) : Bool := used.testBit i && src < 4 && !defd.contains src
      if bad 0 st.sa || bad 1 st.sb || bad 2 st.sc then none
      else chCheck fmt fwd t (st.dst :: defd) (w + k)

/-- The descriptor as ten numbers: eight step words, K0 and K1; none if a reserved bit is set (Table 3.6). -/
def chWords (bs : List Byte) : Option (List Nat) :=
  let ws := (List.range 8).map fun i => leNat ((bs.drop (4 * i)).take 4)
  if ws.any (fun x => x / 2 ^ 20 ≠ 0) || (bs.drop 48).any (· ≠ 0) then none
  else some (ws ++ [leNat ((bs.drop 32).take 8), leNat ((bs.drop 40).take 8)])

/-- W of a VOP: by Table 3.5, or the sum over the chain's steps. -/
def vopW (w : Cmd) (acc : List Nat) : Nat :=
  let fmt := cf w 23 20
  if cf w 28 24 = 0x1F then
    ((chSteps (acc.take 8)).map fun st => if st.op = 0x14 then 4 * vLanes fmt / 128 else ((vopInfo st.op fmt).getD (0, 1)).2).sum
  else ((vopInfo (cf w 28 24) fmt).getD (0, 1)).2

/-- Elements of a VOP segment (Table 3.2). -/
def vopSeg (w : Cmd) (acc : List Nat) : Nat :=
  let l := vLanes (cf w 23 20)
  min 2048 (l * (256 / max 1 (vopW w acc)))

/-! OWNER_SUM in the engine (R284). Its parameters stand in `acc`: members, own index, CPS, the landing half, SENDBUF, GRAD, bytes of a
GRAD entry, SHARDBLK. -/

/-- Tiles of an OWNER_SUM, and its add segments per group of two tiles. -/
def ownNT (w : Cmd) : Nat := cf w 55 47 + 1
def ownAdds (acc : List Nat) : Nat := cdiv (acc.getD 0 0) 16

/-- Entries of a group. -/
def ownEntries (w : Cmd) (g : Nat) : Nat := min 2 (ownNT w - 2 * g) * 1024

/-- Cycles of a segment of OWNER_SUM: an add segment takes ⌈e/128⌉ per member, the write segment ⌈e·g/128⌉. -/
def ownTerm (w : Cmd) (acc : List Nat) (seg : Nat) : Nat :=
  let a := ownAdds acc
  let e := ownEntries w (seg / (a + 1))
  let i := seg % (a + 1)
  if i < a then min 16 (acc.getD 0 0 - 16 * i) * cdiv e 128 else cdiv (e * acc.getD 6 2) 128

/-- Number of a command's elements, words or blocks, and how many one segment takes. -/
def vSize (w : Cmd) (acc : List Nat) : Nat × Nat :=
  match opcodeOf w with
  | 0x60 => (cf w 47 32 + 1, vopSeg w acc)
  | 0x61 | 0x62 => (cf w 127 112 + 1, 2048)
  | 0x63 => (cf w 71 56 + 1, 2048)
  | 0x64 => (cf w 107 92 + 1, 2048)
  | 0x65 => (cf w 77 62 + 1, 2048)
  | 0x66 => (cf w 36 26 + 1, 64)
  | 0x67 => (cf w 30 20 + 1, 64)
  | 0x68 => (if cf w 26 24 ≤ 1 then cf w 43 28 + 1 else 1, 2048)
  | 0x69 => (cf w 71 56 + 1, 2048)
  | _ => (cf w 39 26 + 1, if cb w 20 then 1024 else 1536)

/-- Rows of a command, and passes over each row. -/
def vRows (w : Cmd) : Nat × Nat :=
  match opcodeOf w with
  | 0x63 => (cf w 83 72 + 1, 1)
  | 0x64 => (cf w 127 120 + 1, 2)
  | 0x65 => (cf w 85 78 + 1, 2)
  | _ => (1, 1)

/-- Segments of a command; they depend only on its fields (R86). -/
def vSegs (w : Cmd) (acc : List Nat) : Nat :=
  if opcodeOf w = 0x61 ∧ cb w 93 then 1
  else if opcodeOf w = 0x91 then cdiv (ownNT w) 2 * (ownAdds acc + 1)
  else
    let z := vSize w acc
    let r := vRows w
    r.1 * r.2 * cdiv z.1 z.2

/-- Where a segment lies: row, pass, first element, number of elements. -/
def vPlace (w : Cmd) (acc : List Nat) (seg : Nat) : Nat × Nat × Nat × Nat :=
  let z := vSize w acc
  let per := cdiv z.1 z.2
  let r := vRows w
  let first := seg % per * z.2
  (seg / (per * r.2), seg / per % r.2, first, min z.2 (z.1 - first))

/-- Bytes per result of VREDUCE (R93). -/
def reduceOut (w : Cmd) : Nat :=
  let fmt := cf w 127 124
  match cf w 86 84 with
  | 2 | 3 => elemBits fmt / 8
  | 4 | 5 => 4
  | _ => if cb w 87 || fmt == 0xD then 8 else 4

/-- Bytes that elements [first, first + n) of a run move, with the block scales of an MX format. -/
def runMoves (fmt off total first n : Nat) : List (Nat × Nat) :=
  (off + first * elemBits fmt / 8, vBytes fmt n) ::
    if isMx fmt then [(off + vRow fmt total + first / 32, cdiv n 32)] else []

/-- The pieces of scratch that a segment reads and writes (R85). -/
def vMoves (w : Cmd) (ops acc : List Nat) (seg : Nat) : List (Nat × Nat) :=
  let (row, pass, first, n) := vPlace w acc seg
  let o (i : Nat) : Nat := ops.getD i 0
  let total := (vSize w acc).1
  match opcodeOf w with
  | 0x60 =>
    let fmt := cf w 23 20
    let eb := elemBits fmt / 8
    let used := if cf w 28 24 = 0x1F then 3 else ((vopInfo (cf w 28 24) fmt).getD (0, 1)).1
    ((List.range 3).flatMap fun i =>
      if !used.testBit i then [] else if cb w (29 + i) then [(o (i + 1), eb)] else [(o (i + 1) + first * eb, n * eb)]) ++
      [(o 0 + first * eb, n * eb)]
  | 0x61 => (List.range 2).flatMap fun i => runMoves (cf w 23 20) (o i) total first n
  | 0x62 => (List.range 3).flatMap fun i => runMoves (cf w 23 20) (o i) total first n
  | 0x63 => runMoves (cf w 127 124) (o 1 + row * vRow (cf w 127 124) total) total first n ++
      if first + n < total then [] else [(o 0 + row * reduceOut w, reduceOut w)]
  | 0x64 =>
    let fmt := cf w 111 108
    let at' (i : Nat) : List (Nat × Nat) := runMoves fmt (o i + row * vRow fmt total) total first n
    at' 1 ++ at' 2 ++ (if pass = 1 then at' 0 else []) ++
      (if pass = 1 ∧ 4096 < total then [(o 3 + 4 * first, 4 * n)] else [])
  | 0x65 =>
    let fmt := cf w 89 86
    let at' (i : Nat) : List (Nat × Nat) := runMoves fmt (o i + row * vRow fmt total) total first n
    at' 1 ++ at' 2 ++ if pass = 1 then at' 0 else []
  | 0x66 =>
    let eb := if cb w 24 then 1 else 2
    let e := (o 1 + 32 * first * eb, 32 * n * eb) :: if cb w 24 then [(o 1 + 32 * total + first, n)] else []
    [(o 2 + 32 * first * (elemBits (cf w 23 20) / 8), 32 * n * (elemBits (cf w 23 20) / 8)), (o 0 + first / 32 * 192, cdiv n 32 * 192)] ++
      e ++ if cb w 25 then [] else e
  | 0x67 => [(o 0 + 128 * first, 128 * n), (o 0 + 128 * first, 128 * n), (o 1 + first / 32 * 192, cdiv n 32 * 192)]
  | 0x68 => runMoves (cf w 23 20) (o 0) total first n
  | 0x91 => []
  | 0x69 => runMoves (cf w 79 76) (o 0) total first n ++ runMoves (cf w 75 72) (o 1) total first n
  | _ => [(o 1 + 4 * first, 4 * n)]

/-- The extents that a vector command reads, of all its extents: not its destination, which an accumulating command, a digest check, a
SEED, a RESTORE or a table LOAD reads as well (R137). -/
def vReads (w : Cmd) (exts : List (Nat × Nat)) : List (Nat × Nat) :=
  match opcodeOf w with
  | 0x61 => if cb w 93 then exts else exts.drop 1
  | 0x66 => if cb w 25 then exts.drop 2 else exts.drop 1
  | 0x68 => if cf w 26 24 = 2 ∨ cf w 26 24 = 4 then exts else []
  | 0x6A => if cb w 21 then exts else exts.drop 1
  | _ => exts.drop 1

/-- Overlap of a run with a bank, in bytes. -/
def inBank (b : Nat) (x : Nat × Nat) : Nat := min (x.1 + x.2) (bankBase b + bankSize b) - max x.1 (bankBase b)

/-- A segment's term of R85, without the 12 and 8·c cycles before the first. VRAND's SEED, SAVE and RESTORE take 16 cycles, SETMODE 1, a
table LOAD 65 (R98, R107). The cycles that R93, R102 and R103 add for each row and parameter block are no part of a segment's term, so
nothing is charged for them (DESIGN CHOICE, log 202). -/
def vTerm (w : Cmd) (ops acc : List Nat) (seg : Nat) : Nat :=
  let op := opcodeOf w
  if op = 0x68 ∧ 2 ≤ cf w 26 24 then (if cf w 26 24 = 5 then 1 else 16)
  else if op = 0x61 ∧ cb w 93 then 65
  else if op = 0x91 then ownTerm w acc seg
  else
    let n := (vPlace w acc seg).2.2.2
    let pass := (vPlace w acc seg).2.1
    let lanes := match op with
      | 0x60 => vopW w acc * cdiv n (vLanes (cf w 23 20))
      | 0x61 => 4 * cdiv n 128
      | 0x62 => 5 * cdiv n 128
      | 0x63 => (if cf w 86 84 = 4 ∨ cf w 86 84 = 5 then 2 else 1) * cdiv n (if cf w 127 124 = 0xD then 32 else 128)
      | 0x64 => (if pass = 0 then 4 else 6) * cdiv n 128
      | 0x65 => 4 * cdiv n 128
      | 0x66 => 4 * cdiv (32 * n) 128
      | 0x67 => cdiv (32 * n) 128
      | 0x68 => cdiv n 128
      | 0x69 =>
        let s := cf w 75 72
        let d := cf w 79 76
        (1 + b01 (isMx s || isMx d) + b01 (cb w 80)) * cdiv n (min (vLanes s) (vLanes d))
      | _ => cdiv n (if cb w 20 then 4 else 6)
    (List.range 6).foldl (fun m b => max m (cdiv ((vMoves w ops acc seg).map (inBank b)).sum 128)) lanes

/-! Issue checks (Table 3.10). -/

/-- The window offset of an operand, or BOUND_FAULT. -/
def vOff (s : State) (h : Head) (base off len : Nat) : Except Nat Nat := localOff (s.core h.core) h.ctx h.core base off len

/-- Require a condition, else ILLEGAL_OP. -/
def legal (b : Bool) : Except Nat Unit := if b then .ok () else .error stIllegalOp

/-- Issue checks of VOP (R90, R113). The chain descriptor, read at issue, is no input of the overlap check (DESIGN CHOICE, log 190). -/
def vopPlan (s : State) (h : Head) : Except Nat VPlan := do
  let w := h.w
  let fmt := cf w 23 20
  let op := cf w 28 24
  legal (vArith fmt)
  let chain := op == 0x1F
  let eb := elemBits fmt / 8
  let n := cf w 47 32 + 1
  let fields := if chain then 7 else ((vopInfo op fmt).getD (8, 1)).1
  legal (fields != 8)
  let unusedZero (i b o bc : Nat) : Bool := fields.testBit i || (b == 0 && o == 0 && bc == 0)
  legal (unusedZero 0 (cf w 49 48) (cf w 65 50) (cf w 29 29) && unusedZero 1 (cf w 67 66) (cf w 83 68) (cf w 30 30) &&
    unusedZero 2 (cf w 85 84) (cf w 101 86) (cf w 31 31) && !(chain && cb w 31))
  let len (i : Nat) : Nat := if cb w (29 + i) then eb else n * eb
  let get (i b o : Nat) : Except Nat Nat := if fields.testBit i then vOff s h b o (if chain && i == 2 then 64 else len i) else .ok 0
  let z ← get 2 (cf w 85 84) (cf w 101 86)
  let k := s.core h.core
  let acc ←
    if chain then
      if k.bankIsOff z 64 then .error stBankOff
      else
        match chWords (s.rds (scrPa h.core z) 64) with
        | none => .error stIllegalOp
        | some ws =>
          let st := chSteps (ws.take 8)
          if st.isEmpty || (chCheck fmt h.ctx.fwd.isSome st [] 0).isNone then .error stIllegalOp else .ok ws
    else .ok []
  let x ← get 0 (cf w 49 48) (cf w 65 50)
  let y ← get 1 (cf w 67 66) (cf w 83 68)
  let d ← vOff s h (cf w 103 102) (cf w 119 104) (n * eb)
  let ins := (if fields.testBit 0 then [(x, len 0)] else []) ++ (if fields.testBit 1 then [(y, len 1)] else []) ++
    (if fields.testBit 2 && !chain then [(z, len 2)] else [])
  legal (!clash d (n * eb) eb (ins.map fun i => (i.1, i.2, eb)))
  pure ⟨[d, x, y, z], (d, n * eb) :: ins ++ (if chain then [(z, 64)] else []), acc, vClass fmt fmt⟩

/-- Formats of VFUNC, VDERIV and VCOMPRESS-like float commands. -/
def vfFmt (fmt : Nat) : Bool := fmt ≤ 3 || fmt == 0xC

def vfuncPlan (s : State) (h : Head) : Except Nat VPlan := do
  let w := h.w
  let fmt := cf w 23 20
  if cb w 93 then
    legal (cf w 127 112 == 0 && !cb w 94 && cf w 91 70 == 0 && cf w 69 52 == 0 && fmt == 0)
    let x ← vOff s h (cf w 51 50) (cf w 49 34) 8256
    let k := s.core h.core
    if k.bankIsOff x 8256 then .error stBankOff
    else do
      legal (tabOk (s.rds (scrPa h.core x) 8))
      pure ⟨[x], [(x, 8256)], [], 4⟩
  else
    let n := cf w 127 112 + 1
    let eb := elemBits fmt / 8
    legal (vfFmt fmt && cf w 91 88 ≤ 9 && !cb w 92 && cf w 87 70 == 0 && (cf w 91 88 != 0 || h.ctx.fwd.isSome))
    let x ← vOff s h (cf w 51 50) (cf w 49 34) (n * eb)
    let d ← vOff s h (cf w 69 68) (cf w 67 52) (n * eb)
    legal (!clash d (n * eb) eb [(x, n * eb, eb)])
    pure ⟨[d, x], [(d, n * eb), (x, n * eb)], [], 4⟩

def vderivPlan (s : State) (h : Head) : Except Nat VPlan := do
  let w := h.w
  let fmt := cf w 23 20
  let n := cf w 127 112 + 1
  let eb := elemBits fmt / 8
  legal (vfFmt fmt && cf w 91 88 ≤ 9 && cf w 93 92 == 0 && (cf w 91 88 != 0 || h.ctx.sec.isSome))
  let x ← vOff s h (cf w 51 50) (cf w 49 34) (n * eb)
  let y ← vOff s h (cf w 87 86) (cf w 85 70) (n * eb)
  let d ← vOff s h (cf w 69 68) (cf w 67 52) (n * eb)
  legal (!clash d (n * eb) eb [(x, n * eb, eb), (y, n * eb, eb)])
  pure ⟨[d, x, y], [(d, n * eb), (x, n * eb), (y, n * eb)], [], 4⟩

def vreducePlan (s : State) (h : Head) : Except Nat VPlan := do
  let w := h.w
  let fmt := cf w 127 124
  let op := cf w 86 84
  let n := cf w 71 56 + 1
  let r := cf w 83 72 + 1
  legal (vArith fmt && op != 7 && !(cb w 87 && 2 ≤ op && op ≤ 5))
  let xl := r * vRow fmt n
  let dl := r * reduceOut w
  let x ← vOff s h (cf w 37 36) (cf w 35 20) xl
  let d ← vOff s h (cf w 55 54) (cf w 53 38) dl
  legal (!clash d dl (reduceOut w) [(x, xl, elemBits fmt / 8)])
  pure ⟨[d, x], [(d, dl), (x, xl)], [], vClass fmt fmt⟩

def vnFmt (fmt : Nat) : Bool := fmt ≤ 1 || fmt == 0xC

def vnormPlan (s : State) (h : Head) : Except Nat VPlan := do
  let w := h.w
  let fmt := cf w 111 108
  let n := cf w 107 92 + 1
  let r := cf w 127 120 + 1
  let eb := elemBits fmt / 8
  legal (vnFmt fmt && !(cb w 119 && 4096 < n))
  let xl := r * vRow fmt n
  let pl := if cb w 119 then 12 * n else 4 * n
  let x ← vOff s h (cf w 37 36) (cf w 35 20) xl
  let y ← vOff s h (cf w 55 54) (cf w 53 38) xl
  let d ← vOff s h (cf w 73 72) (cf w 71 56) xl
  let p ← vOff s h (cf w 91 90) (cf w 89 74) pl
  let ins := [(x, xl, eb), (y, xl, eb), (p, pl, 4)]
  legal (!clash d xl eb ins && !(cb w 119 && clash (p + 4 * n) (8 * n) 4 [(x, xl, eb), (y, xl, eb)]))
  pure ⟨[d, x, y, p], [(d, xl), (x, xl), (y, xl), (p, pl)], [], 4⟩

def vsoftPlan (s : State) (h : Head) : Except Nat VPlan := do
  let w := h.w
  let fmt := cf w 89 86
  let n := cf w 77 62 + 1
  let r := cf w 85 78 + 1
  let eb := elemBits fmt / 8
  legal (vnFmt fmt && (cb w 90 || cf w 106 91 == 0))
  let xl := r * vRow fmt n
  let x ← vOff s h (cf w 124 123) (cf w 122 107) xl
  let y ← vOff s h (cf w 43 42) (cf w 41 26) xl
  let d ← vOff s h (cf w 61 60) (cf w 59 44) xl
  legal (!clash d xl eb [(x, xl, eb), (y, xl, eb)])
  pure ⟨[d, x, y], [(d, xl), (x, xl), (y, xl)], [], 4⟩

/-- Issue checks of VCOMPRESS1 (R109, R113). A payload, like the 16 bytes of a digest, has no element width, so an input may not overlap it
at all (DESIGN CHOICE, log 203). -/
def vcompPlan (s : State) (h : Head) : Except Nat VPlan := do
  let w := h.w
  let gf := cf w 23 20
  let nb := cf w 36 26 + 1
  legal (gf == 0xC || gf == 0)
  let gb := elemBits gf / 8
  let gl := 32 * nb * gb
  let ew := if cb w 24 then 1 else 2
  let el := if cb w 24 then 33 * nb else 64 * nb
  let pl := cdiv nb 32 * 192
  let g ← vOff s h (cf w 38 37) (cf w 54 39) gl
  let e ← vOff s h (cf w 56 55) (cf w 72 57) el
  let d ← vOff s h (cf w 74 73) (cf w 90 75) pl
  legal (!clash d pl 0 [(g, gl, gb), (e, el, ew)] && !clash e el ew [(g, gl, gb)])
  pure ⟨[d, e, g], [(d, pl), (e, el), (g, gl)] ++ (if cb w 25 then [] else [(e, el)]), [], 4⟩

def vdecompPlan (s : State) (h : Head) : Except Nat VPlan := do
  let w := h.w
  let nb := cf w 30 20 + 1
  let pl := cdiv nb 32 * 192
  let p ← vOff s h (cf w 32 31) (cf w 48 33) pl
  let a ← vOff s h (cf w 50 49) (cf w 66 51) (128 * nb)
  legal (!clash a (128 * nb) 4 [(p, pl, 0)])
  pure ⟨[a, p], [(a, 128 * nb), (a, 128 * nb), (p, pl)], [], 4⟩

def vrandPlan (s : State) (h : Head) : Except Nat VPlan := do
  let w := h.w
  let fmt := cf w 23 20
  let op := cf w 26 24
  legal (op ≤ 5)
  if op ≤ 1 then
    let n := cf w 43 28 + 1
    let okFmt := if op = 0 then vfFmt fmt || fmt == 0xA || fmt == 0xE else vArith fmt && fmt != 0xD
    legal (okFmt && !cb w 27 && (op == 1 || cf w 93 62 == 0))
    let d ← vOff s h (cf w 45 44) (cf w 61 46) (vBytes fmt n)
    pure ⟨[d], [(d, vBytes fmt n)], [], 1⟩
  else
    legal (fmt == 0 && cf w 43 28 == 0 && cf w 93 62 == 0 && (op == 5 || !cb w 27))
    if op = 5 then
      legal (cf w 61 44 == 0)
      pure ⟨[], [], [], 1⟩
    else
      let len := if op = 2 then 8 else 2048
      let d ← vOff s h (cf w 45 44) (cf w 61 46) len
      pure ⟨[d], [(d, len)], [], 1⟩

/-- Bytes of a VCONVERT operand (R94, R95). -/
def convBytes (fmt n : Nat) : Nat := if isMx fmt then vRow fmt n + cdiv n 32 else vBytes fmt n

def vconvPlan (s : State) (h : Head) : Except Nat VPlan := do
  let w := h.w
  let sf := cf w 75 72
  let df := cf w 79 76
  let n := cf w 71 56 + 1
  legal (sf != 0xF && df != 0xF && !(cb w 80 && (isMx df || isIntFmt df)) && (n % 32 == 0 || !isMx df))
  let x ← vOff s h (cf w 37 36) (cf w 35 20) (convBytes sf n)
  let d ← vOff s h (cf w 55 54) (cf w 53 38) (convBytes df n)
  legal (!clash d (convBytes df n) (elemBits df) [(x, convBytes sf n, elemBits sf)])
  pure ⟨[d, x], [(d, convBytes df n), (x, convBytes sf n)], [], vClass sf df⟩

def vdigPlan (s : State) (h : Head) : Except Nat VPlan := do
  let w := h.w
  let nw := cf w 39 26 + 1
  legal ((cb w 20 || nw % 48 == 0) && (cb w 21 || cf w 25 22 == 0))
  let p ← vOff s h (cf w 41 40) (cf w 57 42) (4 * nw)
  let d ← vOff s h (cf w 59 58) (cf w 75 60) 16
  legal (cb w 21 || !clash d 16 0 [(p, 4 * nw, 4)])
  pure ⟨[d, p], [(d, 16), (p, 4 * nw)], [], 1⟩

/-! Segments. -/

/-- Write element bytes with the poison of each element (R88). -/
def State.wrElems (s : State) (pa eb : Nat) (xs : List (Nat × Bool)) : State :=
  let s1 := s.wr pa (xs.flatMap fun x => leBytes eb x.1)
  (xs.zipIdx.filter fun x => x.1.2).foldl
    (fun s x => { s with poison := (linesOf (pa + x.2 * eb) eb).foldl Keys.add s.poison }) s1

/-- Element `i` of a packed operand in a core's window. -/
def vAt (s : State) (core fmt off i : Nat) : Nat := elemAt (fun j => (s.rd (scrPa core (off + j))).toNat) fmt i

/-- Whether element `i` lies in a poisoned line. -/
def vBad (s : State) (core fmt off i : Nat) : Bool :=
  !s.poison.isEmpty && s.anyPoison (scrPa core (off + i * elemBits fmt / 8)) (cdiv (elemBits fmt) 8)

/-- One chain over X[i] and Y[i] (R92): the temporary written last, and the flags of every step. -/
def chRun (fmt : Nat) (sat : Bool) (fn : Nat → Nat → Nat × Fl) (x y k0 k1 : Nat) : List ChStep → List Nat → Nat → Fl → Nat × Fl
  | [], _, r, fl => (r, fl)
  | st :: t, tmp, _, fl =>
    let env := tmp ++ [x, y, k0, k1]
    let q := vElem fmt st.op sat (fn st.fsel) (env.getD st.sa 0) (env.getD st.sb 0) (env.getD st.sc 0)
    chRun fmt sat fn x y k0 k1 t (tmp.set st.dst q.1) q.1 (fl.or q.2)

/-- Raise flags in VX_STATUS. -/
def State.vxRaise (s : State) (core : Nat) (f : Fl) : State := s.mapCore core fun k => { k with vx := k.vx.raise f }

/-- The bytes of a bound image, and whether it was copied from poisoned lines (R88, R99). -/
def tabOf (b : Option TabBind) : List Byte × Bool := b.elim ([], false) fun t => (t.img, t.bad)

/-- The running values of a VOP with its broadcast operands, which are read once, before its first segment (R90): behind the chain's ten
words the element of each operand, then whether it came from a poisoned line. -/
def vopFirst (s : State) (core : Nat) (r : VecRun) : VecRun :=
  let w := r.cmd
  let bc := (List.range 3).map fun b => cb w (29 + b)
  if r.seg ≠ 0 ∨ !bc.any id then r
  else
    let at' (b : Nat) : Nat := r.ops.getD (b + 1) 0
    let one (f : Nat → Nat) : List Nat := bc.zipIdx.map fun x => if x.1 then f (at' x.2) else 0
    let kept := one (fun a => vAt s core (cf w 23 20) a 0) ++ one (fun a => b01 (vBad s core (cf w 23 20) a 0))
    { r with acc := r.acc ++ List.replicate (10 - r.acc.length) 0 ++ kept }

/-- Write an elementwise segment: results with their flags and poison. -/
def State.putSeg (s : State) (core off eb : Nat) (xs : List ((Nat × Fl) × Bool)) : State :=
  (s.wrElems (scrPa core off) eb (xs.map fun x => (x.1.1, x.2))).vxRaise core (xs.foldl (fun f x => f.or x.1.2) {})

def segVop (s : State) (core : Nat) (c : Ctx) (r : VecRun) : State :=
  let w := r.cmd
  let fmt := cf w 23 20
  let (_, _, first, n) := vPlace w r.acc r.seg
  let op := cf w 28 24
  let chain := op == 0x1F
  let o (i : Nat) : Nat := r.ops.getD i 0
  let used := if chain then 3 else ((vopInfo op fmt).getD (0, 1)).1
  let at' (b i : Nat) : Nat :=
    if !used.testBit b then 0 else if cb w (29 + b) then r.acc.getD (10 + b) 0 else vAt s core fmt (o (b + 1)) i
  let bad (i : Nat) : Bool := (List.range 3).any fun b =>
    used.testBit b && (if cb w (29 + b) then r.acc.getD (13 + b) 0 ≠ 0 else vBad s core fmt (o (b + 1)) i)
  let tb := tabOf c.fwd
  let fn (fsel x : Nat) : Nat × Fl := fnApply fsel fmt (cb w 120) tb.1 x
  let steps := chSteps (r.acc.take 8)
  let tabBad := chain && tb.2 && steps.any fun st => st.op == 0x14 && st.fsel == 0
  let km (i : Nat) : Nat := r.acc.getD i 0 % 2 ^ elemBits fmt
  let one (i : Nat) : Nat × Fl :=
    if chain then chRun fmt (cb w 120) fn (at' 0 i) (at' 1 i) (km 8) (km 9) steps [0, 0, 0, 0] 0 {}
    else vElem fmt op (cb w 120) (fn 0) (at' 0 i) (at' 1 i) (at' 2 i)
  s.putSeg core (o 0 + first * (elemBits fmt / 8)) (elemBits fmt / 8)
    ((List.range n).map fun j => (one (first + j), r.poison || tabBad || bad (first + j)))

def segFunc (s : State) (core : Nat) (c : Ctx) (r : VecRun) : State :=
  let w := r.cmd
  let fmt := cf w 23 20
  let (_, _, first, n) := vPlace w r.acc r.seg
  let o (i : Nat) : Nat := r.ops.getD i 0
  let deriv := opcodeOf w == 0x62
  let tb := tabOf (if deriv then c.sec else c.fwd)
  let func := cf w 91 88
  let one (i : Nat) : Nat × Fl :=
    let x := vAt s core fmt (o 1) i
    if deriv then derivApply func fmt (cb w 94) tb.1 x (vAt s core fmt (o 2) i) else fnApply func fmt (cb w 94) tb.1 x
  let bad (i : Nat) : Bool :=
    (func == 0 && tb.2) || vBad s core fmt (o 1) i || (deriv && vBad s core fmt (o 2) i)
  s.putSeg core (o 0 + first * (elemBits fmt / 8)) (elemBits fmt / 8)
    ((List.range n).map fun j => (one (first + j), bad (first + j)))

/-- VFUNC LOAD (R98, R99): binds the image; the factor of R97 is rounded here. -/
def loadTab (s : State) (core : Nat) (r : VecRun) : State :=
  let w := r.cmd
  let off := r.ops.getD 0 0
  let b : TabBind := ⟨cf w 51 50, cf w 49 34, s.rds (scrPa core off) 8256, s.anyPoison (scrPa core off) 8256⟩
  (s.vxRaise core (tabFactor b.img).2).mapCore core fun k => k.mapCtx r.lctx fun c => if cb w 92 then { c with sec := some b } else { c with fwd := some b }

/-- Better of two candidate patterns for MAX, MIN and the index forms: whether `y` replaces `x`. -/
def redBetter (fmt : Nat) (mx arg : Bool) (x y : Nat) : Bool :=
  if isIntFmt fmt then
    let a := sgn (elemBits fmt) x
    let b := sgn (elemBits fmt) y
    if mx then a < b else b < a
  else
    let a := elemVal fmt x
    let b := elemVal fmt y
    let strict := if mx then a.lt b else b.lt a
    strict || (!arg && a.eq b && a.isNeg != b.isNeg && (if mx then a.isNeg else b.isNeg))

/-- The value a VREDUCE row ends with, and the flags it raises: its sum, or its best element or that one's index. A row without a
number has the maximum and minimum NaN (R93) and an open index (log 24). -/
def reduceEnd (fmt op : Nat) (acc : List Nat) (sum : Nat × Fl) (row : List Nat) : Nat × Fl :=
  if op = 0 ∨ op = 1 ∨ op = 6 then sum
  else if acc.getD 0 0 = 0 then
    if 4 ≤ op then (Config.noWinner op row, {}) else putFloat ((fltFmt fmt).getD fmtFP32) .rne false .nan
  else (if 4 ≤ op then acc.getD 1 0 else acc.getD 0 0 - 1, {})

/-- The running values of a VREDUCE row after the elements `xs` of a segment, each with its index (R93), and the flags of the sums. An
INT32 element enters the FP32 fold of its lane as the exact integer, under the one rounding of the addition (DESIGN CHOICE, log 203). -/
def reduceAcc (fmt op : Nat) (acc : List Nat) (xs : List (Nat × Nat)) : List Nat × Fl :=
  let val (x : Nat × Nat) : FV := elemVal fmt x.1
  let sum (f : FV → FV) : List Nat × Fl :=
    let q := segSum (if fmt = 0xD then fmtFP64 else fmtFP32) (acc.getD 0 0) (xs.map fun x => f (val x))
    ([q.1, 0], q.2)
  match op with
  | 0 => sum id
  | 1 => sum fun v => v.mul v
  | 6 => sum FV.abs
  | _ =>
    (xs.foldl (fun (a : List Nat) x =>
      if isNanCode fmt x.1 then a
      else if a.getD 0 0 = 0 ∨ redBetter fmt (op == 2 || op == 4) (4 ≤ op) (a.getD 0 0 - 1) x.1 then [x.1 + 1, x.2]
      else a) acc, {})

/-- VREDUCE: running values are the row total (FP64), or best pattern + 1 (0: none yet) and its index. -/
def segReduce (s : State) (core : Nat) (r : VecRun) : State × VecRun :=
  let w := r.cmd
  let fmt := cf w 127 124
  let op := cf w 86 84
  let (row, _, first, n) := vPlace w r.acc r.seg
  let total := (vSize w r.acc).1
  let o (i : Nat) : Nat := r.ops.getD i 0
  let src := o 1 + row * vRow fmt total
  let at' (i : Nat) : Nat := vAt s core fmt src i
  let poison := (if first = 0 then false else r.poison) || s.anyPoison (scrPa core (src + first * elemBits fmt / 8)) (vBytes fmt n)
  let q := reduceAcc fmt op (if first = 0 then [0, 0] else r.acc) ((List.range n).map fun j => (at' (first + j), first + j))
  let s1 := s.vxRaise core q.2
  if first + n < total then (s1, { r with acc := q.1, poison := poison })
  else
    let b := reduceOut w
    let sum := putFloat (if b = 8 then fmtFP64 else fmtFP32) .rne false (fmtFP64.decode (q.1.getD 0 0))
    let v := reduceEnd fmt op q.1 sum ((List.range total).map at')
    ((s1.wr (scrPa core (o 0 + row * b)) (leBytes b v.1) poison).vxRaise core v.2, { r with acc := [0, 0], poison := false })

/-- FP64 pattern of a value, rounded once. -/
def r64 (v : FV) (sticky : Bool := false) : Nat := (fmtFP64.encode .rne false v sticky).1
def v64 (x : Nat) : FV := fmtFP64.decode x

/-- Values that VNORM_BWD keeps before its buffered parameters: eight statistics and whether the lines of γ were poisoned. -/
def normStats : Nat := 9

/-- The parameter buffer of a VNORM_BWD (R102): with N at most 4,096 γ, and with GACC dγ and dβ, as FP32 patterns. -/
def normBuf (s : State) (core : Nat) (w : Cmd) (par : Nat) : List Nat :=
  let n := cf w 107 92 + 1
  if 4096 < n then [] else (List.range (if cb w 119 then 3 * n else n)).map fun i => vAt s core 0xC par i

/-- The end of pass 1 of a VNORM_BWD row (R101): mean, r, mg and mgx in FP32 from the FP64 totals, with the overflows. -/
def normRow (rms : Bool) (eps n s1 s2 g1 g2 : Nat) : List Nat × Fl :=
  let q (a : FV) : FV := let d := a.div (.ofInt n); v64 (r64 d.1 d.2)
  let mean : FV := if rms then .fin false 0 0 else q (v64 s1)
  let var := v64 (r64 ((q (v64 s2)).add (v64 (r64 (mean.mul mean))).neg))
  let ve := step32 false (var.add (.fin false 1 (-(eps : Int))))
  let rr := rsqrt32 ve.1
  let mg : FV := if rms then .fin false 0 0 else q (v64 g1)
  let mgx := q (v64 (r64 (rr.mul (v64 (r64 ((v64 g2).add (v64 (r64 (mean.mul (v64 g1)))).neg))))))
  let out := [mean, rr, mg, mgx].map (step32 false)
  (out.map fun x => r32 x.1, (out.map Prod.snd).foldl Fl.or ve.2)

/-- VNORM_BWD (R101, R102). Running values: S1, S2, G1, G2 in FP64, then mean, r, mg, mgx in FP32, the
poison of γ, then the parameter buffer. The poison of the run is that of dγ and dβ. -/
def segNorm (s : State) (core : Nat) (r : VecRun) : State × VecRun :=
  let w := r.cmd
  let fmt := cf w 111 108
  let f := (fltFmt fmt).getD fmtFP32
  let (row, pass, first, n) := vPlace w r.acc r.seg
  let total := (vSize w r.acc).1
  let o (i : Nat) : Nat := r.ops.getD i 0
  let gacc := cb w 119
  let rms := cb w 112
  let base := row * vRow fmt total
  let acc0 := if r.acc.isEmpty then List.replicate 8 0 ++ b01 (s.anyPoison (scrPa core (o 3)) (4 * total)) :: normBuf s core w (o 3) else r.acc
  let gamBad : Bool := if 4096 < total then s.anyPoison (scrPa core (o 3)) (4 * total) else acc0.getD 8 0 ≠ 0
  let x (i : Nat) : FV := f.decode (vAt s core fmt (o 1 + base) i)
  let dy (i : Nat) : FV := f.decode (vAt s core fmt (o 2 + base) i)
  let gam (i : Nat) : FV := v32 (if 4096 < total then vAt s core 0xC (o 3) i else acc0.getD (normStats + i) 0)
  let g (i : Nat) : FV × Fl := step32 false ((dy i).mul (gam i))
  let rowBad := gamBad ||
    s.anyPoison (scrPa core (o 1 + base)) (vRow fmt total) || s.anyPoison (scrPa core (o 2 + base)) (vRow fmt total)
  let poison := r.poison || rowBad || (r.acc.isEmpty && gacc && s.anyPoison (scrPa core (o 3 + 4 * total)) (8 * total))
  let ix := (List.range n).map fun j => first + j
  if pass = 0 then
    let t (i : Nat) : Nat := if first = 0 then 0 else acc0.getD i 0
    let s1 := segSum fmtFP32 (t 0) (ix.map x)
    let s2 := segSum fmtFP32 (t 1) (ix.map fun i => (x i).mul (x i))
    let g1 := segSum fmtFP32 (t 2) (ix.map fun i => (g i).1)
    let g2 := segSum fmtFP32 (t 3) (ix.map fun i => (g i).1.mul (x i))
    let st := normRow rms (cf w 118 113) total s1.1 s2.1 g1.1 g2.1
    let fl := ([s1.2, s2.2, g1.2, g2.2] ++ (ix.map fun i => (g i).2)).foldl Fl.or (if first + n < total then {} else st.2)
    (s.vxRaise core fl, { r with acc := [s1.1, s2.1, g1.1, g2.1] ++ st.1 ++ acc0.drop 8, poison := poison })
  else
    let st (i : Nat) : FV := v32 (acc0.getD i 0)
    let xh (i : Nat) : FV × Fl :=
      let a := step32 false ((x i).add (st 4).neg)
      let b := step32 false (a.1.mul (st 5))
      (b.1, a.2.or b.2)
    let dx (i : Nat) : Nat × Fl :=
      let a := step32 false ((g i).1.add (st 6).neg)
      let b := step32 false ((xh i).1.mul (st 7))
      let c := step32 false (a.1.add b.1.neg)
      let d := step32 false ((st 5).mul c.1)
      let q := putFloat f .rne false d.1
      (q.1, [(g i).2, (xh i).2, a.2, b.2, c.2, d.2].foldl Fl.or q.2)
    let accum (old v : FV) (fl : Fl) : Nat × Fl := let q := putFloat fmtFP32 .rne false (old.add v); (q.1, q.2.or fl)
    let dgOf (i old : Nat) : Nat × Fl := let p := step32 false ((dy i).mul (xh i).1); accum (v32 old) p.1 p.2
    let dbOf (i old : Nat) : Nat × Fl := if rms then (old, {}) else accum (v32 old) (dy i) {}
    let upd (lst : List Nat) (k : Nat → Nat → Nat × Fl) : List (Nat × Fl) :=
      lst.zipIdx.map fun y => if first ≤ y.2 && y.2 < first + n then k y.2 y.1 else (y.1, {})
    let par := acc0.drop (normStats + total)
    let sums := if gacc then upd (par.take total) dgOf ++ upd (par.drop total) dbOf else []
    let s1 := s.putSeg core (o 0 + base + first * (elemBits fmt / 8)) (elemBits fmt / 8) (ix.map fun i => (dx i, rowBad))
    (s1.vxRaise core ((sums.map Prod.snd).foldl Fl.or {}),
      { r with acc := acc0.take (normStats + total) ++ sums.map Prod.fst, poison := poison })

/-- Write the buffered dγ and dβ back to the parameter block (R102). -/
def State.normBack (s : State) (core : Nat) (r : VecRun) : State :=
  if opcodeOf r.cmd = 0x64 ∧ cb r.cmd 119 ∧ !r.acc.isEmpty then
    let n := (vSize r.cmd r.acc).1
    s.wr (scrPa core (r.ops.getD 3 0 + 4 * n)) ((r.acc.drop (normStats + n)).flatMap (leBytes 4)) r.poison
  else s

/-- Reload dγ and dβ on resumption, with the poison of their lines (R88, R102). -/
def State.normLoad (s : State) (core : Nat) (r : VecRun) : VecRun :=
  if opcodeOf r.cmd = 0x64 ∧ cb r.cmd 119 ∧ !r.acc.isEmpty then
    let n := (vSize r.cmd r.acc).1
    let at' := r.ops.getD 3 0 + 4 * n
    { r with
      acc := r.acc.take (normStats + n) ++ (List.range (2 * n)).map fun i => vAt s core 0xC at' i
      poison := r.poison || s.anyPoison (scrPa core at') (8 * n) }
  else r

/-- VSOFTMAX_BWD (R103). Running values: m, then s and t in FP64. The running m moves by segments, so a first segment of −∞ alone leaves
NaN sums, and an element past the valid length adds 0 to t whatever its dy (DESIGN CHOICE, log 203). -/
def segSoft (s : State) (core : Nat) (r : VecRun) : State × VecRun :=
  let w := r.cmd
  let fmt := cf w 89 86
  let f := (fltFmt fmt).getD fmtFP32
  let (row, pass, first, n) := vPlace w r.acc r.seg
  let total := (vSize w r.acc).1
  let o (i : Nat) : Nat := r.ops.getD i 0
  let base := row * vRow fmt total
  let valid := if cb w 90 then cf w 106 91 + row + 1 else total
  let x (i : Nat) : FV := if i < valid then f.decode (vAt s core fmt (o 1 + base) i) else .inf true
  let dy (i : Nat) : FV := f.decode (vAt s core fmt (o 2 + base) i)
  let rowBad := s.anyPoison (scrPa core (o 1 + base)) (vRow fmt total) || s.anyPoison (scrPa core (o 2 + base)) (vRow fmt total)
  let ix := (List.range n).map fun j => first + j
  let acc0 := if r.acc.length = 3 then r.acc else [0, 0, 0]
  /- exp(x − m), the difference rounded to FP32. -/
  let expAt (m v : FV) : FV × Fl :=
    let d := step32 false (v.add m.neg)
    let e := exp32 d.1
    (e.1, d.2.or e.2)
  if pass = 0 then
    let old : FV := if first = 0 then .inf true else v32 (acc0.getD 0 0)
    let m := ix.foldl (fun a i => a.maxNum (x i)) old
    let ren (t : Nat) : Nat :=
      if first = 0 then 0 else if old.lt m then r64 ((v64 t).mul (expAt m old).1) else t
    let e (i : Nat) : FV × Fl := expAt m (x i)
    let s1 := segSum fmtFP32 (ren (acc0.getD 1 0)) (ix.map fun i => (e i).1)
    let t1 := segSum fmtFP32 (ren (acc0.getD 2 0)) (ix.map fun i => if i < valid then (dy i).mul (e i).1 else .fin false 0 0)
    (s.vxRaise core ((ix.map fun i => (e i).2).foldl Fl.or (s1.2.or t1.2)), { r with acc := [r32 m, s1.1, t1.1] })
  else
    let m := v32 (acc0.getD 0 0)
    let sm := step32 false (v64 (acc0.getD 1 0))
    let q := (v64 (acc0.getD 2 0)).div (v64 (acc0.getD 1 0))
    let ts := step32 false q.1 q.2
    let dx (i : Nat) : Nat × Fl :=
      if valid ≤ i then (0, {})
      else
        let e := expAt m (x i)
        let yq := e.1.div sm.1
        let y := step32 false yq.1 yq.2
        let d := step32 false ((dy i).add ts.1.neg)
        let p := step32 false (y.1.mul d.1)
        let z := putFloat f .rne false p.1
        (z.1, [sm.2, ts.2, e.2, y.2, d.2, p.2].foldl Fl.or z.2)
    (s.putSeg core (o 0 + base + first * (elemBits fmt / 8)) (elemBits fmt / 8) (ix.map fun i => (dx i, rowBad)), r)

/-- What VCOMPRESS1 makes of a block: scale, sign word, new error values, flags. -/
structure CBlock where
  scale : Nat
  word : Nat
  err : List FV
  fl : Fl
  deriving DecidableEq, Repr

/-- One block of VCOMPRESS1 (R109). A sum past the range of FP32 saturates the scale like any other past 65,504. -/
def compressBlock (c : List FV) : CBlock :=
  if c.any fun v => v.isNaN || v.isInf then ⟨0x7E00, 0, c.map fun _ => .fin false 0 0, { cmpnan := true }⟩
  else
    let sum := v32 (c.foldl (fun a v => r32 ((v32 a).add v.abs)) 0)
    let q := fmtFP16.encode .rne true ((if sum.isInf then .fin false 1 5000 else sum).scale (-5))
    let sc := fmtFP16.decode q.1
    let neg (v : FV) : Bool := v.isNeg && !v.isZero
    let word := c.foldr (fun v a => b01 (neg v) + 2 * a) 0
    ⟨q.1, word, c.map fun v => v.add (if neg v then sc else sc.neg), { sat := q.2.overflow }⟩

/-- Mark half-lines poisoned. -/
def State.poisonLines (s : State) (ls : List Nat) : State := { s with poison := ls.foldl Keys.add s.poison }

/-- The 192 bytes of a tile of at most 32 blocks: the sign words, then the scales, zero past the last block (R108). -/
def payTile (bs : List CBlock) : List Byte :=
  let pad (w : Nat) (xs : List Byte) : List Byte := xs ++ List.replicate (32 * w - xs.length) 0
  pad 4 (bs.flatMap fun b => leBytes 4 b.word) ++ pad 2 (bs.flatMap fun b => leBytes 2 b.scale)

/-- The error memory that blocks leave: element bytes, MX scale bytes, and the flags of the rounding (R109). -/
def errBytes (mx : Bool) (bs : List CBlock) : List Byte × List Byte × Fl :=
  if mx then
    let q := bs.map fun b => mxBlock 0x4 b.err
    (q.flatMap fun x => x.2.1.map (BitVec.ofNat 8), q.map fun x => BitVec.ofNat 8 x.1, (q.map fun x => x.2.2).foldl Fl.or {})
  else
    let q := bs.flatMap fun b => b.err.map fun v => putFloat fmtBF16 .rne false v
    (q.flatMap fun x => leBytes 2 x.1, [], (q.map Prod.snd).foldl Fl.or {})

/-- VCOMPRESS1 (R108, R109): up to two tiles a segment, written together; a tile that takes a poisoned line is poisoned in whole (R88). -/
def segCompress (s : State) (core : Nat) (r : VecRun) : State :=
  let w := r.cmd
  let gf := cf w 23 20
  let (_, _, first, n) := vPlace w r.acc r.seg
  let nb := (vSize w r.acc).1
  let o (i : Nat) : Nat := r.ops.getD i 0
  let mx := cb w 24
  let eV (b j : Nat) : FV :=
    if cb w 25 then .fin false 0 0
    else if mx then
      match e8m0 (s.rd (scrPa core (o 1 + 32 * nb + b))).toNat with
      | none => .nan
      | some k => (fmtE4M3.decode (vAt s core 0x2 (o 1) (32 * b + j))).scale k
    else fmtBF16.decode (vAt s core 0x0 (o 1) (32 * b + j))
  let cOf (b : Nat) : List (FV × Fl) := (List.range 32).map fun j =>
    step32 false (((fltFmt gf).getD fmtFP32).decode (vAt s core gf (o 2) (32 * b + j)) |>.add (eV b j))
  let eb := if mx then 32 else 64
  let gl := 32 * (elemBits gf / 8)
  let cs := (List.range n).map fun i => cOf (first + i)
  let bs := cs.map fun c => compressBlock (c.map Prod.fst)
  let er := errBytes mx bs
  let tile (t : Nat) : List CBlock := (bs.drop (32 * t)).take 32
  let ts := List.range (cdiv n 32)
  let bad (t : Nat) : Bool :=
    let b := first + 32 * t
    let m := (tile t).length
    s.anyPoison (scrPa core (o 2 + b * gl)) (m * gl) ||
      (!cb w 25 && (s.anyPoison (scrPa core (o 1 + b * eb)) (m * eb) || (mx && s.anyPoison (scrPa core (o 1 + 32 * nb + b)) m)))
  let badLines := (ts.filter bad).flatMap fun t =>
    let b := first + 32 * t
    let m := (tile t).length
    linesOf (scrPa core (o 0 + b / 32 * 192)) 192 ++ linesOf (scrPa core (o 1 + b * eb)) (m * eb) ++
      if mx then linesOf (scrPa core (o 1 + 32 * nb + b)) m else []
  let s1 := ((s.wr (scrPa core (o 0 + first / 32 * 192)) (ts.flatMap fun t => payTile (tile t))).wr
    (scrPa core (o 1 + first * eb)) er.1).wr (scrPa core (o 1 + 32 * nb + first)) er.2.1
  (s1.vxRaise core ((bs.map CBlock.fl ++ (cs.flatten.map Prod.snd)).foldl Fl.or er.2.2)).poisonLines badLines

/-- VDECOMP_SUM (R110). -/
def segDecomp (s : State) (core : Nat) (r : VecRun) : State :=
  let w := r.cmd
  let (_, _, first, n) := vPlace w r.acc r.seg
  let o (i : Nat) : Nat := r.ops.getD i 0
  let xs := (List.range (32 * n)).map fun q =>
    let i := 32 * first + q
    let b := i / 32
    let tile := o 1 + b / 32 * 192
    let word := vAt s core 0xC tile (b % 32)
    let sc := fmtFP16.decode (vAt s core 0x1 (tile + 128) (b % 32))
    let a := vAt s core 0xC (o 0) i
    (putFloat fmtFP32 .rne false ((v32 a).add (if word.testBit (i % 32) then sc.neg else sc)),
     vBad s core 0xC (o 0) i || vBad s core 0xC tile (b % 32) || vBad s core 0x1 (tile + 128) (b % 32))
  s.putSeg core (o 0 + 128 * first) 4 xs

/-- Entry `j` of block `b` of an owner sum: the members' tiles, each with the block's sign word, added in member order in FP32 and rounded
to GFMT, of `g` bytes (R283). -/
def ownEntry (g : Nat) (tiles : List (Nat × List Byte)) (b j : Nat) : Nat × Fl :=
  let sum := tiles.foldl
    (fun (acc : FV × Fl) x =>
      let sc := fmtFP16.decode (leNat ((x.2.drop (128 + 2 * b)).take 2))
      let t := step32 false (acc.1.add (if x.1.testBit j then sc.neg else sc))
      (t.1, acc.2.or t.2)) (.fin false 0 0, {})
  let r := putFloat (if g = 4 then fmtFP32 else fmtBF16) .rne false sum.1
  (r.1, r.2.or sum.2)

/-- The data-movement charge of a segment of OWNER_SUM (R307): its requests of 64 bytes to HBM, three for each member's tile that an add
segment reads, and those of the blocks that the write segment writes. -/
def ownCharge (w : Cmd) (acc : List Nat) (seg : Nat) : Nat :=
  let a := ownAdds acc
  let g := seg / (a + 1)
  let i := seg % (a + 1)
  let nt := ownEntries w g / 1024
  let b0 := cf w 37 20 * 10912 + (cf w 46 38 + 2 * g) * 32
  if i < a then 40 * (min 16 (acc.getD 0 0 - 16 * i) * 3 * nt)
  else 40 * ((min (acc.getD 7 0) (b0 + 32 * nt) - b0) * cdiv (32 * acc.getD 6 0) 64)

/-- A segment of OWNER_SUM (R283, R284): the write segment of a group sums its entries over the members in member order and writes
them; blocks past SHARDBLK are not written. -/
def segOwner (s : State) (core : Nat) (r : VecRun) : State :=
  let w := r.cmd
  let a := ownAdds r.acc
  let s := s.chargeData core (ownCharge w r.acc r.seg)
  if r.seg % (a + 1) < a then s
  else
    let g := r.seg / (a + 1)
    let q (i : Nat) : Nat := r.acc.getD i 0
    let p := s.pno core
    let chunk := cf w 37 20
    let tile0 := cf w 46 38 + 2 * g
    let src (m : Nat) : Nat := if m = q 1 then q 4 + (m * q 2 + chunk) * 65536 else q 3 + (m * q 2 + chunk) * 65536
    (List.range (ownEntries w g / 1024)).foldl
      (fun s t =>
        let rd (m o n : Nat) : List Byte × Bool := ((s.vread p (src m + 192 * (tile0 + t) + o) n).toOption).getD ([], false)
        let tiles := (List.range (q 0)).map fun m => (rd m 0 192).1
        (List.range 32).foldl
          (fun s b =>
            let blk := chunk * 10912 + (tile0 + t) * 32 + b
            if q 7 ≤ blk then s
            else
              let bad := (List.range (q 0)).any fun m => (rd m (4 * b) 4).2 || (rd m (128 + 2 * b) 2).2
              let vals := (List.range 32).map fun j => ownEntry (q 6) (tiles.map fun x => (leNat ((x.drop (4 * b)).take 4), x)) b j
              (s.vwrite p (q 5 + 32 * q 6 * blk) (vals.flatMap fun v => leBytes (q 6) v.1) bad).vxRaise core
                ((vals.map Prod.snd).foldl Fl.or {})) s) s

/-- The draws of a segment's elements (R105): draw-stepped, or the open values of the free-running mode. -/
def State.draws (s : State) (core lctx first n : Nat) : List Nat × State :=
  match (s.core core).ctx? lctx with
  | none => ([], s)
  | some c =>
    if c.pmode then
      ((List.range n).map fun j => (Config.freeDraw (s.free + j)).toNat, { s with free := s.free + n })
    else
      let r := pepDraws n first c
      (r.1, s.mapCore core fun k => k.mapCtx lctx fun c => { c with pepLanes := r.2.pepLanes })

/-- VRAND (R104, R105, R107). The flag tells that a poisoned source ends the context. -/
def segRand (s : State) (core : Nat) (r : VecRun) : State × Bool :=
  let w := r.cmd
  let fmt := cf w 23 20
  let op := cf w 26 24
  let (_, _, first, n) := vPlace w r.acc r.seg
  let off := r.ops.getD 0 0
  let mapC (s : State) (f : Ctx → Ctx) : State := s.mapCore core fun k => k.mapCtx r.lctx f
  let free : Bool := ((s.core core).ctx? r.lctx).any fun c => c.pmode
  let settleFree (s : State) : State :=
    if free then { mapC s (fun c => c.pepFree s.free) with free := s.free + 256 } else s
  match op with
  | 0 | 1 =>
    let d := s.draws core r.lctx first n
    let one (x : Nat) : Nat :=
      if op = 1 then
        let kept := x / 2 ^ 32 < cf w 93 62
        match fltFmt fmt with
        | some f => (f.encode .rne false (.ofInt (b01 kept))).1
        | none => b01 kept
      else
        match fltFmt fmt with
        | some f => (f.encode .rtz false (.fin false (x / 2 ^ 40) (-24))).1
        | none => if fmt = 0xE then x / 2 ^ 32 else x / 2 ^ 56
    (d.2.wr (scrPa core (off + first * (elemBits fmt / 8))) (d.1.flatMap fun x => leBytes (elemBits fmt / 8) (one x)), false)
  | 2 =>
    if s.anyPoison (scrPa core off) 8 then (s, true)
    else (mapC s fun c => { c with pepSeed := BitVec.ofNat 64 (leNat (s.rds (scrPa core off) 8)), pepLanes := [] }, false)
  | 3 =>
    let s1 := settleFree s
    (s1.wr (scrPa core off) ((((s1.core core).ctx? r.lctx).elim [] Ctx.pepBytes)), false)
  | 4 =>
    if s.anyPoison (scrPa core off) 2048 then (s, true)
    else (mapC s fun c => c.pepLoad (s.rds (scrPa core off) 2048), false)
  | _ => (mapC (settleFree s) fun c => { c with pmode := cb w 27 }, false)

/-- VCONVERT (R94, R95). A block of an MX destination takes its scale from all of its elements, so poison in one marks the whole block
(R88). The bytes between an MX element block that is no whole number of 16 bytes and its scale bytes keep what they
held (DESIGN CHOICE, log 190). -/
def segConv (s : State) (core : Nat) (r : VecRun) : State :=
  let w := r.cmd
  let sf := cf w 75 72
  let df := cf w 79 76
  let (_, _, first, n) := vPlace w r.acc r.seg
  let total := (vSize w r.acc).1
  let o (i : Nat) : Nat := r.ops.getD i 0
  let sc := sgn 8 (cf w 89 82)
  let scaleAt (i : Nat) : Nat := (s.rd (scrPa core (o 1 + vRow sf total + i / 32))).toNat
  let val (i : Nat) : FV :=
    let v := elemVal sf (vAt s core sf (o 1) i)
    let v1 := if isMx sf then (match e8m0 (scaleAt i) with | none => .nan | some k => v.scale k) else v
    v1.scale sc
  let bad (i : Nat) : Bool :=
    vBad s core sf (o 1) i || (isMx sf && !s.poison.isEmpty && s.linePoison (scrPa core (o 1 + vRow sf total + i / 32)))
  let ix := (List.range n).map fun j => first + j
  let taken (i : Nat) : Bool := if isMx df then (List.range 32).any fun j => bad (i / 32 * 32 + j) else bad i
  let badLines := (ix.filter taken).flatMap fun i =>
    linesOf (scrPa core (o 0 + i * elemBits df / 8)) (cdiv (elemBits df) 8) ++
      (if isMx df then [scrPa core (o 0 + vRow df total + i / 32) / 64] else [])
  if isMx df then
    let blocks := (List.range (n / 32)).map fun b => mxBlock df ((List.range 32).map fun j => val (first + 32 * b + j))
    let s1 := s.wr (scrPa core (o 0 + first * elemBits df / 8)) (packElems (elemBits df) (blocks.flatMap fun b => b.2.1))
    let s2 := s1.wr (scrPa core (o 0 + vRow df total + first / 32)) (blocks.map fun b => BitVec.ofNat 8 b.1)
    (s2.vxRaise core (blocks.foldl (fun f b => f.or b.2.2) {})).poisonLines badLines
  else
    let d := if cb w 80 then s.draws core r.lctx first n else ([], s)
    let one (i : Nat) : Nat × Fl :=
      match fltFmt df with
      | none => floatToInt (elemBits df) (val i)
      | some f =>
        let rm : Rm := if cb w 80 then .sr (d.1.getD (i - first) 0 / 2 ^ 32) else .rne
        putFloat f rm (cb w 81) (val i)
    let xs := ix.map one
    let s1 := d.2.wr (scrPa core (o 0 + first * elemBits df / 8)) (packElems (elemBits df) (xs.map Prod.fst))
    (s1.vxRaise core (xs.foldl (fun f x => f.or x.2) {})).poisonLines badLines

/-- VDIGEST (R111, R112): running values are the hash and the exact sum. -/
def segDigest (s : State) (core : Nat) (r : VecRun) : State × VecRun :=
  let w := r.cmd
  let (_, _, first, n) := vPlace w r.acc r.seg
  let nw := (vSize w r.acc).1
  let o (i : Nat) : Nat := r.ops.getD i 0
  let acc0 := if r.acc.isEmpty then [0, 0, 0, 0, 0] else r.acc
  let wAt (i : Nat) : Nat := vAt s core 0xC (o 1) i
  let ix := (List.range n).map fun j => first + j
  let h := digHash (digKey (cf w 119 88) (cf w 87 76)) (acc0.getD 0 0) (ix.map wAt)
  let sum :=
    if cb w 20 then
      ix.foldl (fun a i => digAdd (digAdd a 1 (fmtBF16.decode (wAt i % 2 ^ 16))) 1 (fmtBF16.decode (wAt i / 2 ^ 16))) (acc0.drop 1)
    else
      (List.range (n / 48)).foldl
        (fun a t =>
          (List.range 32).foldl
            (fun a b =>
              let tw := first + 48 * t
              let sc := fmtFP16.decode (vAt s core 0x1 (o 1 + 4 * tw + 128) b)
              digAdd a (32 - 2 * (popcount 32 (wAt (tw + b)) : Int)) sc) a) (acc0.drop 1)
  let poison := r.poison || s.anyPoison (scrPa core (o 1 + 4 * first)) (4 * n)
  let r1 := { r with acc := h :: sum, poison := poison }
  if first + n < nw then (s, r1)
  else
    let d := digBytes h sum
    if !cb w 21 then (s.wr (scrPa core (o 0)) d poison, r1)
    else if poison || s.anyPoison (scrPa core (o 0)) 16 || s.rds (scrPa core (o 0)) 16 ≠ d then
      let s1 := s.mapCore core fun k => k.mapCtx r.lctx fun c => { c with lastStatus := stDigestMismatch }
      let s2 := s1.vxRaise core { digmis := true }
      (if cf w 25 22 = 0xF then s2 else s2.mapCore core fun k => k.signal r.lctx (2 ^ cf w 25 22), r1)
    else (s, r1)

/-- Execute the segment that comes next: the state, the run with its running values, and whether the context ends with POISONED. -/
def vSegment (s : State) (core : Nat) (r : VecRun) : State × VecRun × Bool :=
  let c := ((s.core core).ctx? r.lctx).getD {}
  let x :=
    match opcodeOf r.cmd with
    | 0x60 => let r1 := vopFirst s core r; (segVop s core c r1, r1, false)
    | 0x61 => if cb r.cmd 93 then (loadTab s core r, r, false) else (segFunc s core c r, r, false)
    | 0x62 => (segFunc s core c r, r, false)
    | 0x63 => let x := segReduce s core r; (x.1, x.2, false)
    | 0x64 => let x := segNorm s core r; (x.1, x.2, false)
    | 0x65 => let x := segSoft s core r; (x.1, x.2, false)
    | 0x66 => (segCompress s core r, r, false)
    | 0x67 => (segDecomp s core r, r, false)
    | 0x68 => let x := segRand s core r; (x.1, r, x.2)
    | 0x69 => (segConv s core r, r, false)
    | 0x91 => (segOwner s core r, r, false)
    | _ => let x := segDigest s core r; (x.1, x.2, false)
  (x.1, { x.2.1 with seg := x.2.1.seg + 1 }, x.2.2)

/-- Run the next segment of the command in the engine; after the last one the command completes (R85). -/
def State.vStep (s : State) (core : Nat) (r : VecRun) : State :=
  let (s1, r1, bad) := vSegment s core r
  if bad then (s1.mapCore core fun k => { k with vec := none }).faultCtx core r.lctx stPoisoned
  else if r1.seg < vSegs r1.cmd r1.acc then s1.mapCore core fun k => { k with vec := some r1 }
  else ((s1.normBack core r1).mapCore core fun k => ({ k with vec := none }).complete r1.id)

/-- Whether the vector engine can take a command of a context: it is idle, no command of the context is suspended, and no pepper
snapshot or restore of the context is under way (R26, R87, R195). -/
def Core.vecReady (k : Core) (c : Ctx) : Bool := k.vec.isNone && c.vsusp.isNone

/-- Issue a vector command whose checks have passed: hold while a bank wakes or the engine is busy, pay for the first segment and
execute it (R129, R309). Where several checks of Table 3.10 fail, BOUND_FAULT comes before the ILLEGAL_OP of an overlap and BANK_OFF
last (DESIGN CHOICE, log 190). -/
def runVec (h : Head) (s : State) (pl : Except Nat VPlan) : State :=
  match pl with
  | .error st => s.failed h st
  | .ok p =>
    let k := s.core h.core
    if p.exts.any fun x => k.bankIsOff x.1 x.2 then s.failed h stBankOff
    else if !(p.exts.all fun x => k.bankIsOn x.1 x.2) then
      (s.mapCore h.core fun k => p.exts.foldl (fun k x => k.arriveAll x.1 x.2) k).hold h.core h.slot 3
    else if !k.vecReady h.ctx then s.hold h.core h.slot 3
    else
      s.pay h p.cls (vTerm h.w p.ops p.acc 0) fun s =>
        let (id, s1) := s.leave h .vector
        let chainBad := opcodeOf h.w == 0x60 && cf h.w 28 24 == 0x1F && s.anyPoison (scrPa h.core (p.ops.getD 3 0)) 64
        (s1.vStep h.core ⟨id, h.slot, h.ctx.lctx, h.w, p.ops, 0, p.acc, chainBad, p.exts⟩).settle h.core h.slot

/-- VOP (R90 to R92). -/
def workVop (core n : Nat) (s : State) : Out := work core n 0x60 s fun h s => runVec h s (vopPlan s h)

/-- VFUNC (R98). -/
def workVfunc (core n : Nat) (s : State) : Out := work core n 0x61 s fun h s => runVec h s (vfuncPlan s h)

/-- VDERIV (R98). -/
def workVderiv (core n : Nat) (s : State) : Out := work core n 0x62 s fun h s => runVec h s (vderivPlan s h)

/-- VREDUCE (R93). -/
def workVreduce (core n : Nat) (s : State) : Out := work core n 0x63 s fun h s => runVec h s (vreducePlan s h)

/-- VNORM_BWD (R101, R102). -/
def workVnormBwd (core n : Nat) (s : State) : Out := work core n 0x64 s fun h s => runVec h s (vnormPlan s h)

/-- VSOFTMAX_BWD (R103). -/
def workVsoftmaxBwd (core n : Nat) (s : State) : Out := work core n 0x65 s fun h s => runVec h s (vsoftPlan s h)

/-- VCOMPRESS1 (R109). -/
def workVcompress1 (core n : Nat) (s : State) : Out := work core n 0x66 s fun h s => runVec h s (vcompPlan s h)

/-- VDECOMP_SUM (R110). -/
def workVdecompSum (core n : Nat) (s : State) : Out := work core n 0x67 s fun h s => runVec h s (vdecompPlan s h)

/-- VRAND (R107). -/
def workVrand (core n : Nat) (s : State) : Out := work core n 0x68 s fun h s => runVec h s (vrandPlan s h)

/-- VCONVERT (R94, R95). -/
def workVconvert (core n : Nat) (s : State) : Out := work core n 0x69 s fun h s => runVec h s (vconvPlan s h)

/-- VDIGEST (R111, R112). -/
def workVdigest (core n : Nat) (s : State) : Out := work core n 0x6A s fun h s => runVec h s (vdigPlan s h)

/-- Energy class of a command in the engine (Table 11.3), with the override of its context (R306). -/
def vRunClass (c : Ctx) (w : Cmd) : Nat :=
  classOf c w (match opcodeOf w with
    | 0x60 => vClass (cf w 23 20) (cf w 23 20)
    | 0x63 => vClass (cf w 127 124) (cf w 127 124)
    | 0x68 | 0x6A => 1
    | 0x69 => vClass (cf w 75 72) (cf w 79 76)
    | _ => 4)

/-- SEGMENT_START (R85, R309): the next segment of the command in the engine starts when the account covers its term. -/
def execSegmentStart (core : Nat) (s : State) : Out :=
  if 2048 ≤ core ∨ s.halts then .next s
  else
    match (s.core core).vec with
    | none => .next s
    | some r =>
      let c := ((s.core core).ctx? r.lctx).getD {}
      let rate := classRate (vRunClass c r.cmd)
      let cyc := vTerm r.cmd r.ops r.acc r.seg
      if !s.covers (clusterOf core) rate cyc then .next s
      else .next (((s.charge (clusterOf core) rate cyc).vStep core r).badHead core r.slot)

/-- LANE_FAULT (R86): the staged results of the segment are dropped and the segment executes again, to the same result. A segment runs whole
within one command of the model, so the event names the one in execution or the one that has just run (log 24). -/
def execLaneFault (core : Nat) (s : State) : Out :=
  if 2048 ≤ core ∨ s.halts then .next s
  else
    .next (s.mapCore core fun k => { k with vx := { k.vx with restarts := sat16 k.vx.restarts 1 } })

/-- VECTOR_SUSPEND (R87): the command of a context that swaps out stops at its segment boundary and is saved with the context. -/
def execVectorSuspend (core : Nat) (s : State) : Out :=
  if 2048 ≤ core ∨ s.halts then .next s
  else
    let k := s.core core
    match k.vec with
    | none => .next s
    | some r =>
      if ((k.ctx? r.lctx).any fun c => c.st == .swapOut) then
        .next ((s.normBack core r).mapCore core fun k =>
          { (k.mapCtx r.lctx fun c => { c with vsusp := some (if opcodeOf r.cmd = 0x91 then { r with seg := r.seg / (ownAdds r.acc + 1) * (ownAdds r.acc + 1) } else r) }) with
            vec := none
            vx := { k.vx with suspends := sat16 k.vx.suspends 1 } })
      else .next s

/-- VECTOR_RESUME (R87): a suspended command takes the idle engine when its context is resident again. -/
def execVectorResume (core n : Nat) (s : State) : Out :=
  if 2048 ≤ core ∨ 8 ≤ n ∨ s.halts then .next s
  else
    let k := s.core core
    let c := k.slot n
    match c.vsusp with
    | none => .next s
    | some r =>
      if k.vec.isNone && (c.st == .ready || c.st == .blocked) then
        let r1 := s.normLoad core { r with slot := n }
        .next (s.setCore core { k.setSlot n { c with vsusp := none } with vec := some r1 })
      else .next s

end Sys2Proof.Machine
end

