-- ==== Sys2Proof/Machine/Scratch.lean ====
section
/-! DEFINITION. Scratch banks: reaching a bank here or on another core, alias accesses and lock leases, bank power (R117 to R130). -/

namespace Sys2Proof.Machine

/-- What an access to scratch meets. -/
inductive Reach where
  | ok
  | wait
  | fail (status : Nat)
  deriving DecidableEq, Repr

/-- Whether a request of a core is refused at a target core as another partition's (R138). Context 7 is exempt; a fenced core refuses
every request (R378). -/
def State.denied (s : State) (core target : Nat) (svc : Bool) : Bool :=
  (core != target && !svc && (s.partOf target).isNone) || (core != target && !svc && s.partOf core != s.partOf target) ||
    (core != target && (s.core target).fenced)

/-- What an access of `n` bytes at a window offset of a target core meets (R128, R138, R140). The banks of the own core count an access
that has been issued: they serve it in TO_OFF as well (R127). -/
def State.reach (s : State) (core target : Nat) (svc : Bool) (off n : Nat) : Reach :=
  let k := s.core target
  let counted : Bool := core == target
  if s.denied core target svc then .fail stDenied
  else if (if counted then k.bankIsDown off n else k.bankIsOff off n) then .fail stBankOff
  else if k.bankServes off n counted then .ok
  else .wait

/-- What the target records of a refused access (Tables 4.15, 4.17). A request that a fenced core refuses counts like one of another
partition (DESIGN CHOICE, log 191). -/
def State.noteRefused (s : State) (target status : Nat) : State :=
  s.mapCore target fun k =>
    if status = stDenied then { k with scr := { k.scr with remdenied := sat16 k.scr.remdenied 1 } }
    else if status = stBankOff then k.noteOff
    else k

/-- An access arrives at the banks it reaches: it ends a TO_RET and wakes a bank in retention (Table 4.5). -/
def State.wakeBanks (s : State) (target off n : Nat) : State := s.mapCore target fun k => k.arriveAll off n

/-- Arrive at banks that serve the access, of which some may be in TO_RET. -/
def State.touchBanks (s : State) (target off n : Nat) : State :=
  if (s.core target).bankIsOn off n then s else s.wakeBanks target off n

/-- Whether a class 2 request of a context to a target core is still on its way: a stream access of the context to that core comes
behind it (R139). -/
def State.meshAhead (s : State) (core lctx target : Nat) : Bool :=
  let mine (m : RemMsg) : Bool := m.src == core && m.lctx == lctx && isAccess m && !isTokSig s m
  (s.core target).arriving.any mine || (s.core target).queued.any mine || s.flt.held.any fun x => x.1 == target && mine x.2

/-! Alias accesses (R122 to R125). -/

/-- Remove the lease on a word whose bit 0 has been cleared. The lease names the address of the access that acquired it, so an access of
another width that starts at another address removes none (DESIGN CHOICE, log 191). -/
def Core.dropLease (k : Core) (pa : Nat) : Core := { k with locks := k.locks.filter fun l => l.addr != pa }

/-- Store through an alias: view 1 sets, view 2 clears the bits of the value (Table 4.3). -/
def State.aliasStore (s : State) (view target off size : Nat) (v : Nat) : State :=
  let pa := scrPa target off
  let m := leNat (s.rds pa size)
  let r := if view = 1 then m ||| v else m &&& (2 ^ (8 * size) - 1 - v % 2 ^ (8 * size))
  let s1 := s.wr pa (leBytes size r)
  if view = 2 && bit v 0 then s1.mapCore target fun k => k.dropLease pa else s1

/-- A write of scratch, poisoned when its value is derived from poison (R219). -/
def State.scrStore (s : State) (view target off n v : Nat) (bad : Bool) : State :=
  if view = 0 then s.wr (scrPa target off) (leBytes n v) bad
  else
    let s1 := s.aliasStore view target off n v
    if bad then { s1 with poison := Keys.add s1.poison (scrPa target off / 64) } else s1

/-- Load through an alias: the old value, and the state in which bit 0 is set or cleared. A set-alias load that acquires takes a
lease; with 32 leases held the acquire fails (R125). -/
def State.aliasLoad (s : State) (view target off size core lctx : Nat) : Nat × State :=
  let pa := scrPa target off
  let m := leNat (s.rds pa size)
  if view = 1 then
    if m % 2 = 1 then (m, s)
    else if 32 ≤ (s.core target).locks.length then
      (m + 1, s.mapCore target fun k => { k with scr := { k.scr with lockfull := sat16 k.scr.lockfull 1 } })
    else
      (m, (s.wr pa (leBytes size (m + 1))).mapCore target fun k =>
        { k with locks := k.locks ++ [⟨pa, core, lctx, s.pno core⟩] })
  else
    (m, (s.wr pa (leBytes size (m - m % 2))).mapCore target fun k => k.dropLease pa)

/-! Bank power (Table 4.5). -/

/-- The vector command of the engine and the suspended ones of the core's contexts. -/
def Core.vecRuns (k : Core) : List VecRun :=
  k.vec.toList ++ (k.slots.flatMap fun (x : Nat × Ctx) => x.2.vsusp.toList) ++ k.images.flatMap fun (x : Nat × Ctx) => x.2.vsusp.toList

/-- The run of its target core's window that a transfer with a linear near side moves, through any view. -/
def Xfer.nearRun (q : Xfer) : Nat × Nat × Nat :=
  let o := q.near - scratchBase
  (o % 2 ^ 32 / 2 ^ 20, o % 2 ^ 20, q.len)

/-- The run of the own window that a queued transfer moves: its linear near side, or the whole of its circular region. -/
def Core.nearOwn (k : Core) (core : Nat) (q : Xfer) : List (Nat × Nat) :=
  match q.circ with
  | some g => [((k.circAt g).start * 16, (k.circAt g).size * 16)]
  | none => if q.nearRun.1 = core then [q.nearRun.2] else []

/-- The bank runs that the core's own engines still use, each with the master's rank in Table 4.2: activation feeder with the drain, weight
feeder with the chain, vector engine, stream engine, checkpoint-stack engine (R119, R120, R127). -/
def Core.masters (k : Core) (core : Nat) : List (Nat × List (Nat × Nat)) :=
  let ps := k.passes ++ k.restart
  [(2, (ps.flatMap fun p => (passExt p).take 1) ++ k.drain.toList.map fun d => (d.dst, drainLen d.cmd)),
   (3, (ps.flatMap fun p => (passExt p).drop 1) ++ if k.chain.isSome then [(0x10000, 0x10000)] else []),
   (4, k.vecRuns.flatMap fun r => r.exts),
   (5, k.stSlots.flatMap fun x => x.2.queue.flatMap fun q => k.nearOwn core q),
   (6, if k.larder.recs.any fun r => r.st == .spilling || r.st == .fetching then [(0x40000 + k.larder.start * 128, k.larder.size * 128)] else [])]

/-- Whether a bank's in-flight count is above zero (R127). -/
def Core.bankBusy (k : Core) (core b : Nat) : Bool :=
  (k.masters core).any (fun m => m.2.any fun x => touches b x.1 x.2) || !(k.bank b).held.isEmpty

/-- The owner of a bank by its rank in Table 4.2: that of Table 4.1, but for the weight feeder at the pantry banks during an MM_WIDE pass
(R120). -/
def Core.ownerOf (k : Core) (b : Nat) : Nat :=
  if b < 4 && (k.passes ++ k.restart).any fun p => opcodeOf p.cmd == 0x41 then 3
  else match b with | 0 => 2 | 1 => 3 | 2 => 4 | 4 => 6 | _ => 5

/-- Whether an engine of the core that is not a bank's owner still uses it. -/
def Core.hasGuest (k : Core) (core b : Nat) : Bool :=
  (k.masters core).any fun m => m.1 != k.ownerOf b && m.2.any fun x => touches b x.1 x.2

/-- Apply a target of Table 4.5 to a bank. -/
def Bank.retarget (x : Bank) (t : Nat) : Bank :=
  let y := { x with target := t }
  match x.st, t with
  | .on, 1 => { y with st := .toRet }
  | .on, 2 => { y with st := .toOff }
  | .toRet, 0 => { y with st := .on }
  | .toRet, 2 => { y with st := .toOff }
  | .ret, 0 => { y with st := .wake, fromOff := false }
  | .ret, 2 => { y with st := .off }
  | .toOff, 0 => { y with st := .on }
  | .toOff, 1 => { y with st := .on }
  | .off, 0 => { y with st := .wake, fromOff := true }
  | .off, 1 => { y with st := .wake, fromOff := true }
  | _, _ => y

/-- Whether the target off is refused (R130). -/
def Core.offRefused (k : Core) (b : Nat) : Bool :=
  (b == 4 && k.larder.recs.any fun r => r.st == .onChip || r.st == .spilling || r.st == .fetching) ||
    (b == 5 && (!k.images.isEmpty || k.swap.isSome || !k.swapQ.isEmpty)) ||
    (List.range 4).any fun g => (k.circAt g).en && touches b ((k.circAt g).start * 16) ((k.circAt g).size * 16)

/-- Whether a bank's contents are lost when it leaves power; the zeroing happens when it wakes (R118). -/
def State.zeroBank (s : State) (core b : Nat) : State :=
  let lo := scrPa core (bankBase b)
  { s with
    mem := s.mem.filter fun c => !(lo ≤ c.1 && c.1 < lo + bankSize b)
    poison := s.poison.filter fun l => !(lo / 64 ≤ l && l < (lo + bankSize b) / 64) }

/-- BANK_IDLE_RETENTION (R128, R315): the idle time of an ON bank has been reached; RETIDLE 0 disables it. -/
def execBankIdleRetention (core b : Nat) (s : State) : Out :=
  if 2048 ≤ core ∨ 6 ≤ b ∨ s.halts then .next s
  else
    .next (s.mapCore core fun k =>
      let x := k.bank b
      if x.st = .on ∧ !k.bankBusy core b ∧ (s.cluster (clusterOf core)).retidle ≠ 0 then k.setBank b { x with st := .toRet } else k)

/-- BANK_RETENTION_ENTRY (R128): the in-flight count of a bank in TO_RET has been zero for 32 cycles. -/
def execBankRetentionEntry (core b : Nat) (s : State) : Out :=
  if 2048 ≤ core ∨ 6 ≤ b ∨ s.halts then .next s
  else
    .next (s.mapCore core fun k =>
      let x := k.bank b
      if x.st = .toRet ∧ !k.bankBusy core b then k.setBank b { x with st := .ret } else k)

/-- BANK_OFF_ENTRY (R128): the in-flight count of a bank in TO_OFF is zero; its contents are lost. -/
def execBankOffEntry (core b : Nat) (s : State) : Out :=
  if 2048 ≤ core ∨ 6 ≤ b ∨ s.halts then .next s
  else
    let k := s.core core
    let x := k.bank b
    if x.st = .toOff ∧ !k.bankBusy core b then .next (s.setCore core (k.setBank b { x with st := .off }))
    else .next s

end Sys2Proof.Machine
end

