-- ==== Sys2Proof/Machine/Streams.lean ====
section
/-! DEFINITION. The stream engine: descriptors, slots, transfers, prefetch, copies and the weight chain (chapter 5). -/

namespace Sys2Proof.Machine

/-! Descriptor fields (Tables 5.1, 5.2). -/

abbrev Desc := BitVec 512

def df (d : Desc) (hi lo : Nat) : Nat := bits d.toNat hi lo
def db (d : Desc) (i : Nat) : Bool := d.toNat.testBit i
/-- Field of the CTRL word. -/
def dc (d : Desc) (hi lo : Nat) : Nat := df d (320 + hi) (320 + lo)
def dStride (d : Desc) (k : Nat) : Int := sgn 32 (df d (95 + 32 * k) (64 + 32 * k))
def dCount (d : Desc) (k : Nat) : Nat := df d (239 + 16 * k) (224 + 16 * k) + 1
def dFar (d : Desc) : Nat := df d 47 0
def dSfar (d : Desc) : Nat := df d 431 384
def dAdv (d : Desc) : Int := sgn 32 (df d 479 448)
def dSadv (d : Desc) : Int := sgn 32 (df d 511 480)
def dNopf (d : Desc) : Bool := dc d 48 48 == 1
def dBchk (d : Desc) : Bool := dc d 47 47 == 1
def dMxax (d : Desc) : Bool := dc d 46 46 == 1
def dMxf (d : Desc) : Nat := dc d 45 42
def dHsize (d : Desc) : Nat := (dc d 41 26 + 1) * 16
def dHalves (d : Desc) : Bool := dc d 25 25 == 1
def dRpad (d : Desc) : Bool := dc d 24 24 == 1
def dNoff (d : Desc) : Nat := dc d 23 8
def dNpair (d : Desc) : Nat := dc d 7 6
def dNdim (d : Desc) : Nat := dc d 5 3
def dEsz (d : Desc) : Nat := dc d 2 0 + 1

/-- R150: whether ARM accepts a descriptor, given whether NPAIR names a circular pair. -/
def descOk (d : Desc) (circ : Bool) : Bool :=
  let nd := dNdim d
  let c (k : Nat) : Nat := dCount d k
  let e := dEsz d
  let mx := dMxf d
  df d 63 48 == 0 && df d 319 304 == 0 && dc d 63 49 == 0 && df d 447 432 == 0 && nd ≤ 4 &&
    ((List.range 5).all fun k => k ≤ nd || (c k == 1 && df d (95 + 32 * k) (64 + 32 * k) == 0)) &&
    !(dHalves d && circ) &&
    (mx == 0 || (4 ≤ mx && mx ≤ 9)) &&
    (mx == 0 || (dc d 2 0 == 0 && df d 95 64 == 0)) &&
    (mx == 0 || dMxax d || c 0 % 32 == 0) &&
    (mx == 0 || !dMxax d ||
      (nd != 0 && c 1 % 32 == 0 && (!(mx == 6 || mx == 7) || c 0 % 4 == 0) && (mx != 8 || c 0 % 2 == 0))) &&
    !(dBchk d && mx != 0) &&
    (!dBchk d ||
      (dStride d 0 == (e : Int) && c 0 * e % 2048 == 0 && dFar d % 2048 == 0 && dAdv d % 2048 == 0 &&
        (List.range 4).all fun k => dStride d (k + 1) % 2048 == 0))

/-- Row bytes of a plain transfer (R148). -/
def rowBytes (d : Desc) : Nat := if dRpad d then roundUp (dCount d 0 * dEsz d) 16 else dCount d 0 * dEsz d

/-- Bytes of one MX run, one group's elements (padded) and scales (padded) (R149). -/
def mxRun (d : Desc) : Nat := dCount d 0 * elemBits (dMxf d) / 8
def mxElems (d : Desc) : Nat := roundUp (dCount d 1 * mxRun d) 16
def mxScales (d : Desc) : Nat := dCount d 1 * dCount d 0 / 32
def mxGroup (d : Desc) : Nat := mxElems d + roundUp (mxScales d) 16

/-- Near extent in bytes (R148, R149, R157). -/
def nearExt (d : Desc) (tr : Bool) : Nat :=
  if tr then dCount d 0 * dCount d 2 * dCount d 3 * dCount d 4 * roundUp (dCount d 1 * dEsz d) 16
  else if dMxf d ≠ 0 then dCount d 2 * dCount d 3 * dCount d 4 * mxGroup d
  else roundUp (dCount d 1 * dCount d 2 * dCount d 3 * dCount d 4 * rowBytes d) 16

/-- The unit that a transfer moves at once: far address, near position, bytes, index vector, whether it lies in scales, and whether its
far address wraps (Table 7.6). -/
structure XUnit where
  far : Nat
  near : Nat
  len : Nat
  idx : List Nat
  sph : Bool
  wraps : Bool := false
  deriving DecidableEq, Repr

/-- Whether a far address leaves the 48-bit space. -/
def farWraps (base : Nat) (o : Int) : Bool := (base : Int) + o < 0 || (2 : Int) ^ 48 ≤ (base : Int) + o

/-- A far address modulo 2⁴⁸ (R148). -/
def far48 (base : Nat) (o : Int) : Nat := (((base : Int) + o) % 2 ^ 48).toNat

/-- Units of a transfer: elements; 2 KiB blocks when block checks apply (their boundaries are never inside a page); bytes in MX. -/
def xUnits (d : Desc) (tr : Bool) : Nat :=
  if dMxf d ≠ 0 then dCount d 2 * dCount d 3 * dCount d 4 * (dCount d 1 * mxRun d + mxScales d)
  else
    let n := dCount d 0 * dCount d 1 * dCount d 2 * dCount d 3 * dCount d 4
    if dBchk d && !tr then n * dEsz d / 2048 else n

/-- Unit `u` in traversal order (R148, R149, R157). A block's index vector is that of the element that its first byte belongs to (DEDUCED,
log 206). -/
def xUnit (d : Desc) (tr : Bool) (far sfar u : Nat) : XUnit :=
  let c (k : Nat) : Nat := dCount d k
  let outer (i1 i2 i3 i4 : Nat) : Int := i1 * dStride d 1 + i2 * dStride d 2 + i3 * dStride d 3 + i4 * dStride d 4
  if dMxf d ≠ 0 then
    let per := c 1 * mxRun d + mxScales d
    let g := u / per
    let r := u % per
    let i2 := g % c 2
    let i3 := g / c 2 % c 3
    let i4 := g / (c 2 * c 3)
    if r < c 1 * mxRun d then
      let i1 := r / mxRun d
      let b := r % mxRun d
      ⟨far48 far (outer i1 i2 i3 i4 + b), g * mxGroup d + r, 1, [8 * b / elemBits (dMxf d), i1, i2, i3, i4], false,
        farWraps far (outer i1 i2 i3 i4 + b)⟩
    else
      let q := r - c 1 * mxRun d
      ⟨far48 sfar (g * mxScales d + q), g * mxGroup d + mxElems d + q, 1, [0, 0, i2, i3, i4], true,
        farWraps sfar (g * mxScales d + q)⟩
  else
    let e := dEsz d
    let blk := dBchk d && !tr
    let row := if blk then c 0 * e / 2048 else c 0
    let b0 := (u % row) * (if blk then 2048 else e)
    let i0 := b0 / e
    let l := u / row
    let i1 := l % c 1
    let i2 := l / c 1 % c 2
    let i3 := l / (c 1 * c 2) % c 3
    let i4 := l / (c 1 * c 2 * c 3)
    let near := if tr then (i0 + c 0 * (i2 + c 2 * (i3 + c 3 * i4))) * roundUp (c 1 * e) 16 + i1 * e
      else l * rowBytes d + b0
    let o : Int := (if blk then (b0 : Int) else i0 * dStride d 0) + outer i1 i2 i3 i4
    ⟨far48 far o, near, if blk then 2048 else e, [i0, i1, i2, i3, i4], false, farWraps far o⟩

/-! Running a transfer. -/

/-- Why a transfer stands still or ends. -/
inductive XStop where
  | complete
  | blocked
  | suspend (u : XUnit) (va : Nat) (e : TransFail)
  | fail (status : Nat)
  deriving DecidableEq, Repr

/-- A run in progress: the state, units moved, the contiguous clean range written last, the last far line used and the far requests
made on demand, and the last line of another core's scratch reached with the requests made to it. -/
structure XRun where
  s : State
  done : Nat
  lo : Nat := 0
  hi : Nat := 0
  line : Option Nat := none
  reqs : Nat := 0
  nline : Option Nat := none
  nreqs : Nat := 0
  deriving DecidableEq, Repr

/-- Write a unit; lines that the contiguous clean run now covers whole lose their poison, in the attic cache of partition `p` too (R117,
R218). -/
def XRun.put (r : XRun) (pa : Nat) (bs : List Byte) (poison : Bool) (wr : State → State) (p : Nat := 64) : XRun :=
  let n := bs.length
  let s1 := wr r.s
  if poison then { r with s := s1, lo := pa + n, hi := pa + n }
  else
    let lo := if pa = r.hi then r.lo else pa
    let hi := pa + n
    let whole := (linesOf pa n).filter fun l => lo ≤ l * 64 && l * 64 + 64 ≤ hi
    { r with s := ({ s1 with poison := whole.foldl Keys.del s1.poison } : State).cacheMark p whole false, lo := lo, hi := hi }

/-- Count the far lines of a run of bytes that the element before it has not asked for (R155); a line from the line buffer is no
request. -/
def XRun.ask (r : XRun) (va n : Nat) (buffered : Bool := false) : XRun :=
  (linesOf va n).foldl
    (fun r l => if r.line = some l then r else { r with line := some l, reqs := if buffered then r.reqs else r.reqs + 1 }) r

/-- Count the requests to another core's scratch (R156, R307): one for each line of 64 bytes, or one for an element through an alias. -/
def XRun.askNear (r : XRun) (far byAlias : Bool) (off n : Nat) : XRun :=
  if !far then r
  else if byAlias then { r with nreqs := r.nreqs + 1 }
  else (linesOf off n).foldl (fun r l => if r.nline = some l then r else { r with nline := some l, nreqs := r.nreqs + 1 }) r

/-- Where the near side of a transfer lies: a region of the map and, for a circular region, its number. -/
def nearPlace (near : Nat) : Nat × Nat × Nat :=
  let o := near - scratchBase
  (o / 2 ^ 32, o % 2 ^ 32 / 2 ^ 20, o % 2 ^ 20)

/-- Advance TAIL of a circular region by 16-byte units, signalling TOK at each multiple of CHUNK (R135). -/
def Core.circAppend : Nat → Nat → Core → Core
  | 0, _, k => k
  | n + 1, g, k =>
    let c := k.circAt g
    let pos := if c.tailPos + 1 = c.size then 0 else c.tailPos + 1
    let k1 := k.setCirc g { c with tailPos := pos, tailWrap := if pos = 0 then !c.tailWrap else c.tailWrap }
    Core.circAppend n g (if pos % c.chunk = 0 ∧ c.tok ≠ 0xF then k1.signal c.lctx (2 ^ c.tok) else k1)

/-- Whether a prefetched line carries the tags of a transfer (R163). -/
def PfLine.isFor (l : PfLine) (n gen : Nat) (x : Xfer) : Bool := l.lctx == x.lctx && l.slot == n && l.gen == gen && l.far == x.far

/-- The buffered line of a transfer that holds a far address (R163). -/
def Core.pfAt (k : Core) (n : Nat) (x : Xfer) (gen va : Nat) : Option PfLine :=
  k.lineBuf.find? fun l => l.isFor n gen x && l.line == va / 64

/-- The runs of the window that `n` bytes at an offset of a circular region take; they wrap to START at the end of the region (R135). -/
def Circ.runs (c : Circ) (off n : Nat) : List (Nat × Nat) :=
  let fit := (c.start + c.size) * 16 - off
  if n ≤ fit then [(off, n)] else [(off, fit), (c.start * 16, n - fit)]

/-- Put bytes at an offset of a circular region, wrapping to its START (R135). -/
def XRun.putRing (r : XRun) (core : Nat) (c : Circ) (pos : Nat) (bs : List Byte) (poison : Bool) : XRun :=
  let p := pos % (c.size * 16)
  let first := bs.take (c.size * 16 - p)
  let rest := bs.drop (c.size * 16 - p)
  let r2 := r.put (scrPa core (c.start * 16 + p)) first poison fun s => s.wr (scrPa core (c.start * 16 + p)) first poison
  if rest.isEmpty then r2 else r2.put (scrPa core (c.start * 16)) rest poison fun s => s.wr (scrPa core (c.start * 16)) rest poison

/-- The far bytes of a unit by line, each with its poison: from the line buffer where that holds the line, else from memory (R163,
R219). -/
def State.farParts (s : State) (core n gen : Nat) (x : Xfer) (u : XUnit) : List (List Byte × Bool) :=
  (pieces u.far u.len).map fun y =>
    match (s.core core).pfAt n x gen y.1 with
    | some l => ((l.data.drop (y.1 % 64)).take y.2, l.poison)
    | none => (s.vread (s.pno core) y.1 y.2).toOption.getD ([], false)

/-- The parts of a unit that go through an alias: one for each element, which is an access of its own (R123, R156). -/
def byElement (e : Nat) (parts : List (List Byte × Bool)) : List (List Byte × Bool) :=
  parts.flatMap fun x => (List.range (cdiv x.1.length e)).map fun i => ((x.1.drop (i * e)).take e, x.2)

/-- The demand requests of a unit: its lines that the line buffer does not hold (R155, R174). -/
def XRun.demand (r : XRun) (core n gen : Nat) (x : Xfer) (u : XUnit) : XRun :=
  let k := r.s.core core
  (pieces u.far u.len).foldl
    (fun r y =>
      let buffered := (k.pfAt n x gen y.1).isSome
      let r1 := r.ask y.1 y.2 buffered
      if buffered then r1 else { r1 with s := r1.s.vtake (r1.s.pno core) y.1 y.2 }) r

/-- Whether a checked far address lies in a block whose check value reads poisoned while none of its lines does: the block is then
delivered poisoned (R220). -/
def State.valueBad (s : State) (p va : Nat) : Bool :=
  match s.translate p va false with
  | .ok pa =>
    (match s.cacheHit p va pa with
    | some x => x.check.isNone && x.bad.all fun b => !b
    | none => (match s.region pa with | .hbm | .attic => true | _ => false) && s.linePoison (s.checkPa pa) && !s.anyPoison (pa / 2048 * 2048) 2048)
  | .error _ => false

/-- Put the pieces of a unit at consecutive places (R155). -/
def XRun.putAll (wr : XRun → Nat → List Byte → Bool → XRun) (r : XRun) (parts : List (List Byte × Bool)) : XRun :=
  (parts.foldl (fun (a : XRun × Nat) x => (wr a.1 a.2 x.1 x.2, a.2 + x.1.length)) (r, 0)).1

/-- Move one unit far to near (R155, R156, R158, R159). -/
def moveIn (core n gen : Nat) (x : Xfer) (u : XUnit) (r : XRun) : Except (XStop × XRun) XRun :=
  let s := r.s
  let k := s.core core
  let p := s.pno core
  let need := (pieces u.far u.len).filter fun y => (k.pfAt n x gen y.1).isNone
  if u.wraps then .error (.fail stPageFault, r)
  else match need.findSome? fun y => s.vfail p y.1 y.2 false with
  | some (_, .beyond) => .error (.fail stPageFault, r)
  | some (va, e) => .error (.suspend u va e, r)
  | none =>
    let chk : CheckRes :=
      if dBchk x.desc && u.far % 2048 == 0 then
        s.vcheck p u.far 2048
      else .ok
    if chk = .mismatch then .error (.fail stCheckMismatch, r)
    else
      let all := dBchk x.desc && s.valueBad p u.far
      let parts := (s.farParts core n gen x u).map fun b => (b.1, b.2 || all)
      let r1 := r.demand core n gen x u
      match x.circ with
      | some g =>
        let c := k.circAt g
        let placed := x.near
        let pos := (c.tailPos * 16 + (u.near - placed)) % (c.size * 16)
        let off := c.start * 16 + pos
        if (c.size - c.units) * 16 < u.near - placed + u.len then .error (.blocked, r)
        else
          let rs := c.runs off u.len
          if rs.any fun x => k.bankIsDown x.1 x.2 then .error (.fail stBankOff, r)
          else if !(rs.all fun x => k.bankServes x.1 x.2 true) then
            .error (.blocked, { r with s := rs.foldl (fun (s : State) (x : Nat × Nat) => s.wakeBanks core x.1 x.2) s })
          else
            .ok ({ r1 with s := rs.foldl (fun (s : State) (x : Nat × Nat) => s.touchBanks core x.1 x.2) r1.s }.putAll
              (fun r o bs bad => r.putRing core c (pos + o) bs bad) parts)
      | none =>
        let (view, target, off0) := nearPlace x.near
        let off := off0 + u.near
        match s.reach core target (x.hw == 7) off u.len with
        | .wait => .error (.blocked, { r with s := s.wakeBanks target off u.len })
        | .fail st => .error (.fail st, r)
        | .ok =>
          let r2 := { r1 with s := r1.s.touchBanks target off u.len }
          let far := target != core
          if view = 0 then
            .ok (r2.putAll
              (fun r o bs bad => (r.askNear far false (off + o) bs.length).put (scrPa target (off + o)) bs bad fun s =>
                s.wr (scrPa target (off + o)) bs bad) parts)
          else
            .ok (r2.putAll
              (fun r o bs bad => (r.askNear far true (off + o) bs.length).put (scrPa target (off + o)) bs true fun s =>
                s.scrStore view target (off + o) bs.length (leNat bs) bad) (byElement (dEsz x.desc) parts))

/-- Move one unit near to far (R155, R158, R159, R219). -/
def moveOut (core : Nat) (x : Xfer) (u : XUnit) (r : XRun) : Except (XStop × XRun) XRun :=
  let s := r.s
  let p := s.pno core
  if u.wraps then .error (.fail stPageFault, r)
  else match s.vfail p u.far u.len true with
  | some (_, .beyond) => .error (.fail stPageFault, r)
  | some (va, e) => .error (.suspend u va e, r)
  | none =>
    let (_, target, off0) := nearPlace x.near
    let off := off0 + u.near
    match s.reach core target (x.hw == 7) off u.len with
    | .wait => .error (.blocked, { r with s := s.wakeBanks target off u.len })
    | .fail st => .error (.fail st, r)
    | .ok =>
      let pa := scrPa target off
      let bad := s.bads pa u.len
      let bs := s.rds pa u.len
      let r1 := ({ r with s := s.touchBanks target off u.len }.ask u.far u.len).askNear (target != core) false off u.len
      let inval (n : Nat) (s : State) : State := s.mapCore core fun k => k.abandon fun l => (linesOf u.far n).contains l.line
      match s.translate p u.far true with
      | .error e => .error (.suspend u u.far e, r)
      | .ok fpa =>
        if (bad.any fun b => b) && s.vhost p u.far u.len then
          let good := bs.take (64 * (bad.takeWhile fun b => !b).length)
          .error (.fail stPoisoned, r1.put fpa good false (fun s => inval good.length (s.vwrite p u.far good)) p)
        else if dBchk x.desc && u.len == 2048 && (match s.region fpa with | .hbm | .attic => true | _ => false) then
          .ok { r1 with s := inval u.len (r1.s.engWriteChecked p fpa bs bad) }
        else .ok (r1.put fpa bs (bad.any fun b => b) (fun s => inval u.len (s.vwrite p u.far bs (bad.any fun b => b))) p)

/-- Move units until none is left or one cannot move. Bank traffic of a circular append advances TAIL by whole 16-byte units. -/
def runUnits (core n gen : Nat) : Nat → Xfer → XRun → XStop × Xfer × XRun
  | 0, x, r => (.complete, x, r)
  | fuel + 1, x, r =>
    let tr := x.kind == .transposeIn
    let u := xUnit x.desc tr x.far x.sfar r.done
    let m := if x.kind = .streamOut then moveOut core x u r else moveIn core n gen x u r
    match m with
    | .error (e, r1) => (e, x, r1)
    | .ok r1 =>
      let r2 := { r1 with done := r1.done + 1 }
      match x.circ with
      | none => runUnits core n gen fuel x r2
      | some g =>
        let upto := if fuel = 0 then cdiv (u.near + u.len) 16 else (u.near + u.len) / 16
        let k := upto - x.near / 16
        runUnits core n gen fuel { x with near := x.near + 16 * k } { r2 with s := r2.s.mapCore core (Core.circAppend k g) }

/-- The pages of far memory that units `[a, a + n)` of a transfer translate, each once in a row. -/
def xPages (x : Xfer) (a n : Nat) : List Nat :=
  (List.range n).foldl
    (fun (l : List Nat) i =>
      let u := xUnit x.desc (x.kind == .transposeIn) x.far x.sfar (a + i)
      (pageRun u.far u.len).foldl (fun l p => if l.getLast? = some p then l else l ++ [p]) l) []

/-- Run the transfer at the head of slot `n` as far as it goes; progress and charges are kept (R307). -/
def State.runXfer (s : State) (core n : Nat) (x : Xfer) : XStop × Xfer × State :=
  let k := s.core core
  let gen := (k.stSlot n).gen
  let total := xUnits x.desc (x.kind == .transposeIn)
  let (e, x1, r) := runUnits core n gen (total - x.done) x { s := s, done := x.done }
  let s1 := r.s.chargeData core (40 * (r.reqs + r.nreqs))
  let s2 := if x.kind = .streamOut then s1 else s1.mapCore core fun k => k.mapCtx x.lctx fun c => c.count 6 r.reqs
  let s3 := s2.streamPages core (xPages x x.done (r.done - x.done))
  (e, { x1 with done := r.done }, s3)

/-- The finished transfer took its prefetched lines (R163, R174). How many of them it found still in flight, and for how many cycles it
waited, follows from memory latencies: open, but for none late where none was taken, and no wait where none was late (log 121). -/
def State.usePf (s : State) (core n gen : Nat) (x : Xfer) : State :=
  let k := s.core core
  let m := (k.lineBuf.filter fun l => l.isFor n gen x).length
  if m = 0 then s
  else
    let late := (Config.fresh s.free).toNat % (m + 1)
    let wait := if late = 0 then 0 else (Config.fresh (s.free + 1)).toNat
    ({ s with free := s.free + 2 } : State).setCore core
      { (k.mapCtx x.lctx fun c => ((c.count 1 m).count 4 late).count 5 wait) with lineBuf := k.lineBuf.filter fun l => !l.isFor n gen x }

/-- A new active descriptor: HSEL := 0 and GEN increments (R151). -/
def StSlot.activate (x : StSlot) (d : Desc) (far sfar : Nat) : StSlot :=
  { x with desc := d, far := far, sfar := sfar, hsel := false, gen := (x.gen + 1) % 256 }

/-- The front transfer leaves the slot: the shadow becomes active when the last transfer before its ARM has gone (R151, R152). -/
def StSlot.advance (x : StSlot) : StSlot :=
  let q := x.queue.tail
  let y := { x with queue := q, idx := [], sph := false, shadowAt := x.shadowAt - 1, st := if q.isEmpty then .armed else .active }
  match x.shadow with
  | some d => if x.shadowAt ≤ 1 then { y.activate d x.farS x.sfarS with shadow := none, shadowAt := 0 } else y
  | none => y

/-! The weight chain (R169 to R172). -/

/-- Lines of a chain tile. -/
def chainLines (len : Nat) : Nat := cdiv len 128

/-- Fields of CHAIN_W. -/
def chLen (w : Cmd) : Nat := (cf w 51 40 + 1) * 16
def chTag (w : Cmd) : Nat := cf w 72 57
def chRole (w : Cmd) : Nat := cf w 21 20

/-- A head sends its header and lines into the link toward NEXT (R170); each line is charged (R307). -/
def State.chainSend (s : State) (core : Nat) (c : ChainRun) : State :=
  let nxt := (s.core core).chainNext
  let len := chLen c.cmd
  let msgs := ChainMsg.hdr (chTag c.cmd) len ::
    (List.range (chainLines len)).map fun i =>
      let n := min 128 (len - 128 * i)
      .line (s.rds (scrPa core (c.near + 128 * i)) n) (s.bads (scrPa core (c.near + 128 * i)) n)
  ((s.mapCore nxt fun k => { k with chainIn := k.chainIn ++ msgs.map fun m => (core, m) }).chargeData core (24 * chainLines len)).mapCore core fun k =>
    { k with chain := some { c with hdr := true } }

/-- Whether a transfer with its near side on another core waits: for an earlier request of its context to that core (R139), or for room
among the outstanding remote accesses of its core. -/
def State.nearWaits (s : State) (core : Nat) (x : Xfer) : Bool :=
  let t := x.nearRun.1
  x.circ.isNone && t != core &&
    (s.meshAhead core x.lctx t || (if x.kind == .streamOut then 64 ≤ (s.core core).outR else (s.core core).writesFull))

/-- TRANSFER_COMPLETE (R155): the front transfer of a slot performs its last write; SIG is signalled, or the head of a chain sends
its tile. A circular append that meets a full region keeps what it has placed and waits. -/
def execTransferComplete (core n : Nat) (s : State) : Out :=
  if 2048 ≤ core ∨ 16 ≤ n then .next s
  else
    let sl := (s.core core).stSlot n
    match sl.queue with
    | [] => .next s
    | x :: t =>
      if sl.st ≠ .active ∨ s.farHeld core ∨ (s.core core).fenced ∨ s.nearWaits core x then .next s
      else
        let (e, x1, s1) := s.runXfer core n x
        match e with
        | .complete =>
          let s2 := (s1.usePf core n sl.gen x).mapCore core fun k => k.setStSlot n ((k.stSlot n).advance)
          if x.kind = .chainHead then
            match s2.core core |>.chain with
            | some c => .next (s2.chainSend core c)
            | none => .next s2
          else .next ((s2.mapCore core fun k => k.complete x.id).badHead core x.hw)
        | .blocked => .next (s1.mapCore core fun k => k.setStSlot n { k.stSlot n with queue := x1 :: t })
        | _ => .next s

/-- TRANSFER_SUSPEND (R159): everything before the untranslated element has retired; the slot records the element and the fault goes
to the dispatch cores, or a migration starts. -/
def execTransferSuspend (core n : Nat) (s : State) : Out :=
  if 2048 ≤ core ∨ 16 ≤ n then .next s
  else
    let sl := (s.core core).stSlot n
    match sl.queue with
    | [] => .next s
    | x :: t =>
      if sl.st ≠ .active ∨ s.farHeld core ∨ (s.core core).fenced ∨ s.nearWaits core x then .next s
      else
        let (e, x1, s1) := s.runXfer core n x
        match e with
        | .suspend u va er =>
          let s2 := s1.mapCore core fun k =>
            { k.setStSlot n { k.stSlot n with st := .suspended, queue := x1 :: t, idx := u.idx, sph := u.sph, faultVa := va } with
              suspensions := sat16 k.suspensions 1 }
          let s3 := s2.transFault (s2.pno core) va er 0 n x.lctx (x.kind == .streamOut) core
          .next ((s3.imageSusp core x.lctx n).mapCore core Core.refresh)
        | _ => .next s

/-- A transfer stops under R158: the slot becomes EMPTY and the issuing context ends. -/
def State.stopXfer (s : State) (core n lctx status : Nat) : State :=
  let s1 := if status = stCheckMismatch then s.noteCheck else s
  (s1.mapCore core fun k => k.setStSlot n (k.stSlot n).emptied).faultCtx core lctx status

/-- TRANSFER_FAILURE (R158): the front transfer meets a condition of Table 5.4; writes already retired stay. -/
def execTransferFailure (core n : Nat) (s : State) : Out :=
  if 2048 ≤ core ∨ 16 ≤ n then .next s
  else
    let sl := (s.core core).stSlot n
    match sl.queue with
    | [] => .next s
    | x :: _ =>
      if sl.st ≠ .active ∨ s.farHeld core ∨ (s.core core).fenced ∨ s.nearWaits core x then .next s
      else
        let (e, _, s1) := s.runXfer core n x
        match e with
        | .fail st => .next ((s1.noteRefused (nearPlace x.near).2.1 st).stopXfer core n x.lctx st)
        | _ => .next s

/-- Whether a slot is assigned to a logical context (R146). -/
def StSlot.isOf (x : StSlot) (lctx : Nat) : Bool := x.owned && x.lctx == lctx && x.st != .unassigned

/-! Prefetch (R163 to R165). -/

/-- Slot of a command that starts a transfer far to near. -/
def pfSlot (w : Cmd) : Nat := if opcodeOf w = 0x22 then cf w 55 52 else cf w 23 20

/-- Whether a fetched command may be prefetched, given the commands between the head and it (R163); in replay, as the fetcher projects it
(R193). -/
def pfOk (k : Core) (c : Ctx) (before : List Fetched) (f : Fetched) : Bool :=
  let w := f.w
  let op := opcodeOf w
  let q := pfSlot w
  let sl := k.stSlot q
  let isX := op == 0x20 || op == 0x26 || (op == 0x22 && chRole w == 0 && !cb w 56)
  let nopf := (op != 0x22 && cb w 25) || dNopf sl.desc
  f.bad.isNone && isX && !nopf && sl.isOf c.lctx && sl.st != .empty && sl.shadow.isNone &&
    !(before.any fun v => opcodeOf v.w == 0x25 && cf v.w 23 20 == q) && !(f.rep && aware w)

/-- The FAR that a fetched command of a slot will take: the current one plus ADV for each transfer of the slot ahead of it; a transfer that
replay skips advances nothing, and a suppressed STREAM_OUT does (R163, Table 5.8). -/
def projFar (sl : StSlot) (q : Nat) (before : List Fetched) : Nat × Nat :=
  before.foldl
    (fun f x =>
      let v := x.w
      let op := opcodeOf v
      let skips := x.rep && aware v
      let uses := (((op == 0x20 || op == 0x26) && !skips || op == 0x21) && cf v 23 20 == q && !cb v 24) ||
        (op == 0x22 && !skips && chRole v == 0 && !cb v 56 && cf v 55 52 == q)
      if uses then (far48 f.1 (dAdv sl.desc), far48 f.2 (dSadv sl.desc)) else f) (sl.far, sl.sfar)

/-- A prefetchable command of a context: its place in the buffer, slot, projected starts, kind. -/
structure PfCand where
  dist : Nat
  slot : Nat
  far : Nat
  sfar : Nat
  tr : Bool
  deriving DecidableEq, Repr

/-- Every prefetchable fetched command of a context, nearest to issue first. -/
def pfCands (k : Core) (c : Ctx) : List PfCand :=
  c.buf.zipIdx.filterMap fun x =>
    let before := (c.inj.map fun w => ({ ptr := {}, w := w, rep := c.replay } : Fetched)) ++ c.buf.take x.2
    if !pfOk k c before x.1 then none
    else
      let q := pfSlot x.1.w
      let f := projFar (k.stSlot q) q before
      some ⟨c.inj.length + x.2, q, f.1, f.2, opcodeOf x.1.w == 0x26⟩

/-! Commands. -/

/-- ARM (R151): refused with DESC_BUSY when the shadow is full. -/
def workArm (core n : Nat) (s : State) : Out :=
  work core n 0x25 s fun h s =>
    let k := s.core core
    let q := cf h.w 23 20
    let sl := k.stSlot q
    if !sl.isOf h.ctx.lctx then s.failed h stIllegalOp
    else
      let pr := h.ctx.pair (cf h.w 25 24)
      if !pr.isLocal core ∧ pr.lim ≠ 0 then s.failed h stIllegalOp
      else if pr.lim * 16 < cf h.w 41 26 * 16 + 64 then s.failed h stBoundFault
      else
        let off := (pr.addr - scratchBase) % 2 ^ 20 + cf h.w 41 26 * 16
        if k.bankIsOff off 64 then s.failed h stBankOff
        else if !k.bankIsOn off 64 then (s.wakeBanks core off 64).hold core n 3
        else
          let d : Desc := BitVec.ofNat 512 (leNat (s.rds (scrPa core off) 64))
          if !descOk d ((h.ctx.pair (dNpair d)).mode == 1) then s.failed h stIllegalOp
          else s.pay h 0 1 fun s =>
            if sl.queue.isEmpty then
              (s.mapCore core fun k =>
                k.setStSlot q { (k.stSlot q).activate d (dFar d) (dSfar d) with st := .armed }).done h
            else if sl.shadow.isNone then
              (s.mapCore core fun k =>
                k.setStSlot q { k.stSlot q with shadow := some d, farS := dFar d, sfarS := dSfar d, shadowAt := sl.queue.length }).done h
            else
              let s1 := s.mapCore core fun k =>
                { (k.mapCtx h.ctx.lctx fun c => { c with lastStatus := stDescBusy }) with descbusy := sat16 k.descbusy 1 }
              let b := cf h.w 45 42
              (if b = 0xF then s1 else s1.mapCore core fun k => k.signal h.ctx.lctx (2 ^ b)).settle core n

/-- The near side of a transfer: its start, its circular region, and the run of the own window that its banks must serve at issue (R129). -/
structure Near where
  at' : Nat
  circ : Option Nat
  own : Option (Nat × Nat)
  deriving DecidableEq, Repr

/-- Whether the near side lies in an own bank that is off, and whether in own banks that are all ON (R129). -/
def Near.isOff (x : Near) (k : Core) : Bool := x.own.any fun y => k.bankIsOff y.1 y.2
def Near.isOn (x : Near) (k : Core) : Bool := x.own.all fun y => k.bankIsOn y.1 y.2

/-- The near side of a transfer at issue (R131, R156, R157, R177), or the status of the failed check. A circular pair whose region is not
enabled holds no bytes and ends with BOUND_FAULT (DESIGN CHOICE, log 205). -/
def nearPlan (s : State) (core : Nat) (c : Ctx) (d : Desc) (hsel tr out : Bool) : Except Nat Near := do
  let pr := c.pair (dNpair d)
  let ext := nearExt d tr
  if tr then
    legal ((dEsz d == 1 || dEsz d == 2 || dEsz d == 4) && 1 ≤ dNdim d && dMxf d == 0 && !dHalves d)
  if pr.mode = 1 then
    legal (!out && !tr)
    let g := (s.core core).circAt pr.creg
    if !g.en then throw stBoundFault
    pure ⟨0, some pr.creg, some (g.start * 16, g.size * 16)⟩
  else
    let o := dNoff d * 16 + (if hsel then dHsize d else 0)
    match s.region pr.addr with
    | .scratch view t off =>
      legal (view == 0 || (!out && !tr && (dEsz d == 4 || dEsz d == 8) && !dRpad d && dMxf d == 0))
      if pr.lim * 16 < o + ext then throw stBoundFault
      legal (off + o + ext ≤ 0xC0000)
      pure ⟨pr.addr + o, none, if t = core then some (off + o, ext) else none⟩
    | _ => throw stBoundFault

/-- The descriptor and far starts that the next transfer of a slot uses: the shadow's when it holds one (R151). -/
def StSlot.nextDesc (x : StSlot) : Desc × Nat × Nat × Bool :=
  match x.shadow with
  | some d => (d, x.farS, x.sfarS, false)
  | none => (x.desc, x.far, x.sfar, x.hsel)

/-- Advance FAR and SFAR at hand-off (R154). -/
def StSlot.advFar (x : StSlot) : StSlot :=
  match x.shadow with
  | some d => { x with farS := far48 x.farS (dAdv d), sfarS := far48 x.sfarS (dSadv d) }
  | none => { x with far := far48 x.far (dAdv x.desc), sfar := far48 x.sfar (dSadv x.desc) }

/-- Whether a buffered line carries the tags of a queued transfer or of a fetched command that is still to issue (R163). -/
def Core.lineWanted (k : Core) (l : PfLine) : Bool :=
  k.lineTaken l || (l.gen == (k.stSlot l.slot).gen && match k.ctx? l.lctx with
    | some c => (pfCands k c).any fun x => x.slot == l.slot && x.far == l.far
    | none => false)

/-- Hand a transfer off to its slot (R154). The lines of the slot whose tags match neither this transfer nor a command behind it are
abandoned, and what was given up for it is forgotten (R163, R164). -/
def State.handOff (s : State) (core : Nat) (q : Nat) (x : Xfer) (noadv : Bool) : State :=
  s.mapCore core fun k =>
    let sl := k.stSlot q
    let sl1 := if noadv then sl else sl.advFar
    let k1 := k.setStSlot q { sl1 with queue := sl.queue ++ [x], st := if sl.st = .suspended then .suspended else .active }
    { k1.abandon fun l => l.lctx == x.lctx && l.slot == q && !k1.lineWanted l with
      givenUp := k1.givenUp.filter fun y => y != (x.lctx, q, sl.gen, x.far) }

/-- STREAM_IN, STREAM_OUT and TRANSPOSE_IN (R153). -/
def runStream (kind : XKind) (h : Head) (s : State) : State :=
  let k := s.core h.core
  let q := cf h.w 23 20
  let sl := k.stSlot q
  if !sl.isOf h.ctx.lctx ∨ sl.st = .empty then s.failed h stIllegalOp
  else
    let (d, far, sfar, hsel) := sl.nextDesc
    match nearPlan s h.core h.ctx d hsel (kind == .transposeIn) (kind == .streamOut) with
    | .error st => s.failed h st
    | .ok near =>
      if near.isOff k then s.failed h stBankOff
      else if !near.isOn k then (near.own.toList.foldl (fun s y => s.wakeBanks h.core y.1 y.2) s).hold h.core h.slot 3
      else if 4 ≤ sl.queue.length ∨ s.farHeld h.core then s.hold h.core h.slot 3
      else s.pay h 0 1 fun s =>
        let (id, s1) := s.leave h .stream
        (s1.handOff h.core q ⟨id, h.slot, h.ctx.lctx, kind, d, near.at', near.circ, far, sfar, nearExt d (kind == .transposeIn), 0, false⟩
          (cb h.w 24)).settle h.core h.slot

/-- STREAM_IN (R153). -/
def workStreamIn (core n : Nat) (s : State) : Out := work core n 0x20 s fun h s => runStream .streamIn h s

/-- STREAM_OUT (R153); in replay it is suppressed, and FAR and SFAR advance unless NOADV is set (R176, Table 5.8). -/
def workStreamOut (core n : Nat) (s : State) : Out :=
  work core n 0x21 s (fun h s => runStream .streamOut h s)
    (fun h s =>
      let q := cf h.w 23 20
      if cb h.w 24 ∨ !((s.core core).stSlot q).isOf h.ctx.lctx then s
      else s.mapCore core fun k => k.setStSlot q (k.stSlot q).advFar)

/-- TRANSPOSE_IN (R157). -/
def workTransposeIn (core n : Nat) (s : State) : Out := work core n 0x26 s fun h s => runStream .transposeIn h s

/-- Base pairs through which a command reads or writes. -/
def cmdPairs (w : Cmd) : List Nat :=
  match opcodeOf w with
  | 0x40 | 0x41 | 0x42 | 0x43 | 0x44 | 0x45 | 0x47 => [cf w 29 28, cf w 47 46]
  | 0x46 => [cf w 29 28]
  | 0x60 => [cf w 49 48, cf w 67 66, cf w 85 84, cf w 103 102]
  | 0x61 | 0x62 => [cf w 51 50, cf w 69 68, cf w 87 86]
  | 0x63 => [cf w 37 36, cf w 55 54]
  | 0x64 => [cf w 37 36, cf w 55 54, cf w 73 72, cf w 91 90]
  | 0x65 => [cf w 43 42, cf w 61 60, cf w 124 123]
  | 0x66 => [cf w 38 37, cf w 56 55, cf w 74 73]
  | 0x67 => [cf w 32 31, cf w 50 49]
  | 0x68 => [cf w 45 44]
  | 0x69 => [cf w 37 36, cf w 55 54]
  | 0x6A => [cf w 41 40, cf w 59 58]
  | 0x22 => [cf w 23 22]
  | _ => []

/-- Whether an outstanding command of a context reads or writes through a pair (R167). -/
def Core.pairBusy (k : Core) (lctx p : Nat) : Bool :=
  (k.passes ++ k.restart).any (fun x => x.lctx == lctx && (cmdPairs x.cmd).contains p) ||
    k.drain.any (fun x => x.lctx == lctx && (cmdPairs x.cmd).contains p) ||
    k.vecRuns.any (fun x => x.lctx == lctx && (cmdPairs x.cmd).contains p) ||
    k.chain.any (fun x => x.lctx == lctx && (cmdPairs x.cmd).contains p) ||
    k.stSlots.any (fun x => x.2.lctx == lctx && x.2.queue.any fun q => dNpair q.desc == p) ||
    k.pend.any (fun x => x.lctx == lctx && (x.kind == .update || x.kind == .collective))

/-- SWAP_HALVES (R167). -/
def workSwapHalves (core n : Nat) (s : State) : Out :=
  work core n 0x24 s fun h s =>
    let k := s.core core
    let q := cf h.w 23 20
    let sl := k.stSlot q
    let d := sl.desc
    let uen := cb h.w 26
    let up := cf h.w 25 24
    if !sl.isOf h.ctx.lctx ∨ sl.st = .empty then s.failed h stIllegalOp
    else if !sl.queue.isEmpty ∨ (uen ∧ k.pairBusy h.ctx.lctx up) then s.hold core n 3
    else if !dHalves d ∨ up = dNpair d ∨ dHsize d < nearExt d false then s.failed h stIllegalOp
    else s.pay h 0 1 fun s =>
      let base := (h.ctx.pair (dNpair d)).addr + dNoff d * 16 + (if sl.hsel then dHsize d else 0)
      let s1 := s.mapCore core fun k => k.setStSlot q { k.stSlot q with hsel := !sl.hsel }
      (if uen then
        s1.mapSlot core n fun c =>
          { c with pairs := Tab.put c.pairs up ⟨BitVec.ofNat 64 base, BitVec.ofNat 64 (dHsize d / 16)⟩ }
      else s1).done h

/-- One side of COPY_REMOTE: core and window offset, or the failed check (R168). -/
def copySide (s : State) (core : Nat) (c : Ctx) (pair off len : Nat) : Except Nat (Nat × Nat) := do
  let pr := c.pair pair
  legal (pr.mode == 0)
  if pr.lim * 16 < off * 16 + len then throw stBoundFault
  match s.region pr.addr with
  | .scratch 0 t o =>
    legal (o + off * 16 + len ≤ 0xC0000)
    if t == core && (s.core core).bankIsOff (o + off * 16) len then throw stBankOff
    pure (t, o + off * 16)
  | .scratch _ _ _ => throw stIllegalOp
  | _ => throw stBoundFault

/-- Copy in requests of 64 bytes, in address order (R168). -/
def State.copyLines (s : State) (dst src : Nat) : Nat → State
  | 0 => s
  | len + 1 =>
    let n := len + 1
    (List.range (cdiv n 64)).foldl
      (fun s i =>
        let m := min 64 (n - 64 * i)
        s.wr (dst + 64 * i) (s.rds (src + 64 * i) m) (s.anyPoison (src + 64 * i) m)) s

/-- What the requests of a copy meet, by their numbers (R168): the first that a target refuses with its status and target, and whether an
earlier one waits for a bank. -/
def State.copyMeets (s : State) (core n ts os td od len : Nat) : Option (Nat × Nat × Nat) × Bool :=
  let at' (i : Nat) : Reach × Reach :=
    let m := min 64 (len - 64 * i)
    (s.reach core ts (n == 7) (os + 64 * i) m, s.reach core td (n == 7) (od + 64 * i) m)
  let bad := (List.range (cdiv len 64)).findSome? fun i =>
    match at' i with
    | (.fail st, _) => some (i, ts, st)
    | (_, .fail st) => some (i, td, st)
    | _ => none
  let upto := match bad with | some x => x.1 | none => cdiv len 64
  (bad, (List.range upto).any fun i => at' i != (.ok, .ok))

/-- COPY_REMOTE (R168): the copy is one step. A request that a target refuses ends the context; the writes of the requests before it have
retired (R140). -/
def workCopyRemote (core n : Nat) (s : State) : Out :=
  work core n 0x23 s fun h s =>
    let len := (cf h.w 71 56 + 1) * 16
    match copySide s core h.ctx (cf h.w 21 20) (cf h.w 37 22) len, copySide s core h.ctx (cf h.w 39 38) (cf h.w 55 40) len with
    | .error st, _ => s.failed h st
    | _, .error st => s.failed h st
    | .ok (ts, os), .ok (td, od) =>
      let k := s.core core
      if s.farHeld core ∨ (ts ≠ core ∧ 64 ≤ k.outR) ∨ (td ≠ core ∧ k.writesFull) then s.hold core n 3
      else
        let copy (s : State) (len : Nat) : State :=
          let s1 := (s.touchBanks ts os len).touchBanks td od len
          let reqs := (if ts = core then 0 else cdiv len 64) + (if td = core then 0 else cdiv len 64)
          (s1.copyLines (scrPa td od) (scrPa ts os) len).chargeData core (40 * reqs)
        match s.copyMeets core n ts os td od len with
        | (bad, true) => let m := match bad with | some x => 64 * x.1 | none => len; ((s.wakeBanks ts os m).wakeBanks td od m).hold core n 3
        | (some (i, t, st), false) => s.pay h 0 1 fun s => ((copy s (64 * i)).noteRefused t st).faultCtx core h.ctx.lctx st
        | (none, false) => s.pay h 0 1 fun s => (copy s len).done h

/-- The window offset of a CHAIN_W tile, which must lie in bank W (R170). -/
def chainOff (s : State) (core : Nat) (c : Ctx) (w : Cmd) : Except Nat Nat := do
  let pr := c.pair (cf w 23 22)
  legal (pr.mode == 0 && (pr.lim == 0 || pr.isLocal core))
  if pr.lim * 16 < cf w 39 24 * 16 + chLen w then throw stBoundFault
  let off := pr.addr - scrPa core 0 + cf w 39 24 * 16
  legal (0x10000 ≤ off && off + chLen w ≤ 0x20000)
  if (s.core core).bankIsOff off (chLen w) then throw stBankOff
  pure off

/-- Write one line into bank W, which is charged; a relay forwards it too (R170, R307). -/
def State.chainLine (s : State) (core : Nat) (c : ChainRun) (bs : List Byte) (bad : List Bool) : State :=
  let s1 := ((s.wrBads (scrPa core (c.near + 128 * c.pos)) bs bad).mapCore core fun k =>
    { k with chain := some { c with pos := c.pos + 1 } }).chargeData core 24
  if chRole c.cmd = 1 then s1.mapCore (s.core core).chainNext fun k => { k with chainIn := k.chainIn ++ [(core, .line bs bad)] }
  else s1

/-- The lines of a discarded tile leave the buffer and the link (R172). -/
def dropTile : List (Nat × ChainMsg) → List (Nat × ChainMsg)
  | [] => []
  | (c, .hdr t l) :: r => (c, .hdr t l) :: r
  | (_, .line _ _) :: r => dropTile r

/-- Feed one message to the receiver's CHAIN_W: a header that differs ends it; the last line completes it (R170, R172). -/
def State.chainFeed (s : State) (core : Nat) (c : ChainRun) (m : ChainMsg) : State :=
  match m with
  | .hdr tag len =>
    if c.hdr then s
    else if tag ≠ chTag c.cmd ∨ len ≠ chLen c.cmd then
      (s.mapCore core fun k =>
        { k with chain := none, linkerr := true, chainBuf := dropTile k.chainBuf, chainIn := dropTile k.chainIn }).faultCtx core c.lctx stIllegalOp
    else
      let s1 := s.mapCore core fun k => { k with chain := some { c with hdr := true } }
      if chRole c.cmd = 1 then
        s1.mapCore (s.core core).chainNext fun k => { k with chainIn := k.chainIn ++ [(core, m)] }
      else s1
  | .line bs bad =>
    if !c.hdr then s
    else
      let s1 := s.chainLine core c bs bad
      if c.pos + 1 < chainLines (chLen c.cmd) then s1
      else (s1.mapCore core fun k => ({ k with chain := none }).complete c.id).badHead core c.hw

/-- Feed the receive buffer to a receiver that has just issued. -/
def State.chainDrain (s : State) (core : Nat) : Nat → State
  | 0 => s
  | fuel + 1 =>
    let k := s.core core
    match k.chain, k.chainBuf with
    | some c, m :: t =>
      if chRole c.cmd = 0 then s
      else State.chainDrain ((s.setCore core { k with chainBuf := t }).chainFeed core c m.2) core fuel
    | _, _ => s

/-- CHAIN_W (R170). A core runs one CHAIN_W at a time; a receiver waits for its RXLCTX's data. -/
def workChainW (core n : Nat) (s : State) : Out :=
  work core n 0x22 s fun h s =>
    let k := s.core core
    let role := chRole h.w
    let src1 := cb h.w 56
    let q := cf h.w 55 52
    let sl := k.stSlot q
    if role = 3 ∨ (role ≠ 0 ∧ (src1 ∨ q ≠ 0)) ∨ (role = 0 ∧ src1 ∧ q ≠ 0) ∨ (role ≠ 2 ∧ !k.chainEn) then s.failed h stIllegalOp
    else if role = 0 ∧ !src1 ∧ (!sl.isOf h.ctx.lctx ∨ sl.st = .empty) then s.failed h stIllegalOp
    else
      let (d, far, sfar, _) := sl.nextDesc
      if role = 0 ∧ !src1 ∧ nearExt d false ≠ chLen h.w then s.failed h stIllegalOp
      else
        match chainOff s core h.ctx h.w with
        | .error st => s.failed h st
        | .ok off =>
          if !k.bankIsOn off (chLen h.w) then (s.wakeBanks core off (chLen h.w)).hold core n 3
          else if k.chain.isSome ∨ (role = 0 ∧ !src1 ∧ (4 ≤ sl.queue.length ∨ s.farHeld core)) ∨
              (role ≠ 0 ∧ k.chainRx ≠ h.ctx.lctx) then s.hold core n 3
          else s.pay h 0 1 fun s =>
            let (id, s1) := s.leave h .chain
            let run : ChainRun := ⟨id, n, h.ctx.lctx, h.w, off, false, 0⟩
            if role = 0 then
              if src1 then (s1.chainSend core run).settle core n
              else
                let s2 := s1.mapCore core fun k => { k with chain := some run }
                (s2.handOff core q ⟨id, n, h.ctx.lctx, .chainHead, d, scrPa core off, none, far, sfar, chLen h.w, 0, false⟩ false).settle core n
            else
              let s2 := s1.mapCore core fun k => { k with chain := some run }
              (s2.chainDrain core 64).settle core n

/-- The core that has sent its tile into a core's chain link as a head, and no message of which is left there. -/
def State.upstream (s : State) (core : Nat) : Option Nat :=
  (s.cores.find? fun x =>
    x.2.chainNext == core && x.2.chainEn && (x.2.chain.any fun c => chRole c.cmd == 0 && c.hdr) &&
      !(s.core core).chainIn.any fun m => m.1 == x.1).map Prod.fst

/-- CHAIN_LINE_ARRIVAL (R169, R170): the next message of the link goes to the CHAIN_W that waits for it, or into the 4 KiB receive
buffer; with the buffer full it stays in the link. A head completes when its last line has left the link. -/
def execChainLineArrival (core : Nat) (s : State) : Out :=
  if 2048 ≤ core ∨ s.halts then .next s
  else
    let k := s.core core
    match k.chainIn with
    | [] => .next s
    | m :: t =>
      let recv := k.chain.filter fun c => chRole c.cmd != 0
      if recv.isNone ∧ 32 ≤ k.chainBuf.length then .next s
      else
        let s0 := s.setCore core { k with chainIn := t }
        let orphan := recv.isNone && k.chainBuf.isEmpty && (match m.2 with | .line _ _ => true | _ => false)
        let s1 := match recv with
          | some c => s0.chainFeed core c m.2
          | none => if orphan then s0 else s0.mapCore core fun k => { k with chainBuf := k.chainBuf ++ [m] }
        match s1.upstream core with
        | some u =>
          match (s1.core u).chain with
          | some c => .next ((s1.mapCore u fun k => ({ k with chain := none }).complete c.id).badHead u c.hw)
          | none => .next s1
        | none => .next s1

/-- The far lines of a transfer in traversal order, each once in a row. -/
def farLines (d : Desc) (tr : Bool) (far sfar : Nat) : Nat → Nat → Option Nat → List Nat
  | 0, _, _ => []
  | n + 1, u, last =>
    let x := xUnit d tr far sfar u
    let ls := (linesOf x.far x.len).filter fun l => last != some l
    ls ++ farLines d tr far sfar n (u + 1) ((ls.getLast?).or last)

/-- How far from issue the command of a buffered line is: nearest where it has issued, furthest where no command has its tags. -/
def pfDist (k : Core) (l : PfLine) : Nat :=
  if k.lineTaken l then 0
  else
    match k.ctx? l.lctx with
    | none => 64
    | some c =>
      match (pfCands k c).find? fun x => x.slot == l.slot && x.far == l.far with
      | some x => x.dist + 1
      | none => 64

/-- Evict one line: of the command furthest from issue, among equals the latest to arrive (R165). -/
def Core.evictOne (k : Core) : Core :=
  let d (x : PfLine × Nat) : Nat := pfDist k x.1
  match listBest (fun (a b : PfLine × Nat) => d b < d a || (d a == d b && b.2 < a.2)) k.lineBuf.zipIdx with
  | none => k
  | some x => { (k.mapCtx x.1.lctx fun c => c.count 3 1) with lineBuf := k.lineBuf.eraseIdx x.2 }

/-- The far lines of a prefetchable command that no line buffer entry of it holds, in traversal order (R163). -/
def Core.pfWant (k : Core) (lctx : Nat) (x : PfCand) : List Nat :=
  let d := (k.stSlot x.slot).desc
  (farLines d x.tr x.far x.sfar (xUnits d x.tr) 0 none).filter fun l =>
    !(k.lineBuf.any fun y => y.lctx == lctx && y.slot == x.slot && y.gen == (k.stSlot x.slot).gen && y.far == x.far && y.line == l)

/-- Lines of the line buffer, and those of them that one context may hold (R165). -/
def lineMax : Nat := 512
def lineShare : Nat := 256

/-- Fetch one line unless the walk has stopped: at a line that does not translate the command's prefetch is given up, and a context that
holds its share of the buffer fetches no more; a full buffer evicts (R164, R165). -/
def State.pfLine (core lctx : Nat) (x : PfCand) (a : State × Bool) (l : Nat) : State × Bool :=
  let k := a.1.core core
  if a.2 || lineShare ≤ (k.lineBuf.filter fun y => y.lctx == lctx).length then (a.1, true)
  else
    let gen := (k.stSlot x.slot).gen
    match a.1.vread (a.1.pno core) (l * 64) 64 with
    | .error _ =>
      (a.1.setCore core { (k.mapCtx lctx fun c => c.count 7 1) with givenUp := k.givenUp ++ [(lctx, x.slot, gen, x.far)] }, true)
    | .ok (bs, poison) =>
      let k1 := if lineMax ≤ k.lineBuf.length then k.evictOne else k
      let k2 := { (k1.mapCtx lctx fun c => c.count 0 1) with lineBuf := k1.lineBuf ++ [⟨lctx, x.slot, gen, x.far, l, bs, poison⟩] }
      ((((a.1.setCore core k2).vtake (a.1.pno core) (l * 64) 64).streamPages core [l * 64 / 2 ^ 21]).chargeData core 40, false)

/-- Fetch the missing lines of a prefetchable command (R163). -/
def State.fetchAhead (s : State) (core lctx : Nat) (x : PfCand) : State :=
  (((s.core core).pfWant lctx x).foldl (State.pfLine core lctx x) (s, false)).1

/-- Whether the prefetch of a command has been given up (R164). -/
def Core.gaveUp (k : Core) (lctx : Nat) (x : PfCand) : Bool := k.givenUp.contains (lctx, x.slot, (k.stSlot x.slot).gen, x.far)

/-- PREFETCH (R163): the far lines of the nearest prefetchable command that are not yet buffered are fetched; the walk stops at the
first line that does not translate, and the command is given up (R164). -/
def execPrefetch (core n : Nat) (s : State) : Out :=
  if 2048 ≤ core ∨ 8 ≤ n then .next s
  else
    let k := s.core core
    let c := k.slot n
    if !(c.st == .ready || c.st == .blocked) ∨ k.fenced ∨ s.farHeld core then .next s
    else
      match (pfCands k c).find? fun x => !k.gaveUp c.lctx x && !(k.pfWant c.lctx x).isEmpty with
      | none => .next s
      | some x => .next (s.fetchAhead core c.lctx x)

end Sys2Proof.Machine
end

