-- ==== Sys2Proof/Machine/Updates.lean ====
section
/-! DEFINITION. The parameter update engines: update commands, the scheduler, runs, commits and discards (chapter 8). -/

namespace Sys2Proof.Machine

/-! Region entries (Table 8.2) and shard headers (Table 8.4). -/

/-- Number in bytes [lo, hi] of a byte string. -/
def at8 (bs : List Byte) (lo hi : Nat) : Nat := leNat ((bs.drop lo).take (hi + 1 - lo))

/-- A region-table entry. -/
structure RegEnt where
  nblk : Nat
  kind : Nat
  frozen : Bool
  mbf : Bool
  gfp : Bool
  chk : Bool
  resv : Bool
  hdr : Nat
  grad : Nat
  hi : Nat
  hiS : Nat
  lo : Nat
  loS : Nat
  m : Nat
  mS : Nat
  v : Nat
  vS : Nat
  deriving DecidableEq, Repr

def regEnt (b : List Byte) : RegEnt :=
  let f := at8 b 4 5
  { nblk := at8 b 0 3, kind := bits f 1 0, frozen := bit f 2, mbf := bit f 3, gfp := bit f 4, chk := bit f 5
    resv := f / 64 ≠ 0 ∨ at8 b 6 7 ≠ 0 ∨ at8 b 88 127 ≠ 0
    hdr := at8 b 8 15, grad := at8 b 16 23, hi := at8 b 24 31, hiS := at8 b 32 39, lo := at8 b 40 47, loS := at8 b 48 55
    m := at8 b 56 63, mS := at8 b 64 71, v := at8 b 72 79, vS := at8 b 80 87 }

/-- A shard header. -/
structure ShHdr where
  step : Nat
  shstep : Nat
  shdone : Nat
  crc : Nat
  shv : Bool
  cmt : Bool
  nonfin : Nat
  frozenskip : Nat
  skews : Nat
  cmtdone : Nat
  deriving DecidableEq, Repr

def shHdr (b : List Byte) : ShHdr :=
  { step := at8 b 0 7, shstep := at8 b 8 15, shdone := at8 b 16 19, crc := at8 b 20 23, shv := bit (at8 b 24 25) 0
    cmt := bit (at8 b 24 25) 1, nonfin := at8 b 28 31, frozenskip := at8 b 32 35, skews := at8 b 36 39, cmtdone := at8 b 40 43 }

def ShHdr.bytes (h : ShHdr) : List Byte :=
  leBytes 8 h.step ++ leBytes 8 h.shstep ++ leBytes 4 h.shdone ++ leBytes 4 h.crc ++ leBytes 2 (b01 h.shv + 2 * b01 h.cmt) ++
    leBytes 2 0 ++ leBytes 4 h.nonfin ++ leBytes 4 h.frozenskip ++ leBytes 4 h.skews ++ leBytes 4 h.cmtdone ++ List.replicate 20 0

def State.updOf (s : State) (p : Nat) : UpdRegs := Tab.get {} s.upd p
def State.mapUpd (s : State) (p : Nat) (f : UpdRegs → UpdRegs) : State := { s with upd := Tab.put s.upd p (f (s.updOf p)) }

/-- Whether UPD_RTAB is in use, its number of entries and its address (Table 8.13). -/
def UpdRegs.en (u : UpdRegs) : Bool := u.rtab.toNat.testBit 0
def UpdRegs.count (u : UpdRegs) : Nat := bits u.rtab.toNat 63 56 + 1
def UpdRegs.addr (u : UpdRegs) : Nat := fld (bits u.rtab.toNat 47 7) 7

/-- Whether the registers let a shadow command name its regions (Table 8.10). -/
def UpdRegs.names (r : UpdRegs) (w : Cmd) : Bool := r.en && cf w 27 20 + cf w 35 28 + 1 ≤ r.count

/-- Read bytes of the partition's virtual space, or the first page that fails. -/
def State.vget (s : State) (p va n : Nat) : Except (Nat × TransFail) (List Byte) :=
  match s.vfail p va n false with
  | some x => .error x
  | none => .ok ((s.vread p va n).toOption.elim [] Prod.fst)

/-- A region's entry bytes and header. -/
def State.region? (s : State) (p i : Nat) : Except (Nat × TransFail) (List Byte × RegEnt × ShHdr) := do
  let b ← s.vget p ((s.updOf p).addr + 128 * i) 128
  let e := regEnt b
  let h ← s.vget p e.hdr 64
  pure (b, e, shHdr h)

/-- A region's entry and header have been read by update engine `eng`, or by the fabric engine: the attic cache holds their blocks, and the
engine's translation cache their pages (R213, R218). -/
def State.regionTake (s : State) (eng p i : Nat) : State :=
  match s.region? p i with
  | .ok (_, e, _) =>
    let a := (s.updOf p).addr + 128 * i
    ((s.vtake p a 128).vtake p e.hdr 64).enginePages eng p (pageRun a 128 ++ pageRun e.hdr 64)
  | .error _ => s

/-- The header of a region whose page translates. -/
def State.hdrAt (s : State) (p : Nat) (e : RegEnt) : ShHdr := shHdr ((s.vread p e.hdr 64).toOption.elim [] Prod.fst)

/-- Write a region's header. -/
def State.putHdr (s : State) (p : Nat) (e : RegEnt) (h : ShHdr) : State := s.vwrite p e.hdr h.bytes

/-! Arithmetic (R233 to R235). -/

def addF (a b : Nat) : Nat := r32 ((v32 a).add (v32 b))
def subF (a b : Nat) : Nat := r32 ((v32 a).add (v32 b).neg)
def mulF (a b : Nat) : Nat := r32 ((v32 a).mul (v32 b))
def divF (a b : Nat) : Nat := let q := (v32 a).div (v32 b); r32 q.1 q.2
def sqrtF (a : Nat) : Nat := let q := (v32 a).sqrt; r32 q.1 q.2
def minF (a b : Nat) : Nat := r32 ((v32 a).minNum (v32 b))
def maxF (a b : Nat) : Nat := r32 ((v32 a).maxNum (v32 b))
def badF (a : Nat) : Bool := (v32 a).isNaN || (v32 a).isInf
def oneF : Nat := 0x3F800000

/-- Fields of UPDATE_BLOCKS (Tables 8.5, 8.6), those of the immediate slot as FP32 patterns where they are factors. -/
structure UpdF where
  algo : Nat
  steplo : Nat
  count : Nat
  first : Nat
  reg : Nat
  om1 : Nat
  om2 : Nat
  eps : Nat
  gs : Nat
  clip : Nat
  wd : Nat
  lr : Nat
  deriving DecidableEq, Repr

def updF (w i : Cmd) : UpdF :=
  { algo := cf w 101 100, steplo := cf w 99 76, count := cf w 75 52 + 1, first := cf w 51 28, reg := cf w 27 20
    om2 := r32 (fmtFP16.decode (cf i 117 102)), om1 := r32 (fmtFP16.decode (cf i 101 86))
    eps := r32 (.fin false 1 (-(cf i 85 80 : Int))), gs := r32 (.fin false 1 (sgn 8 (cf i 79 72)))
    clip := r32 (fmtBF16.decode (cf i 71 56)), wd := r32 (fmtBF16.decode (cf i 55 40)), lr := cf i 39 8 }

/-- A magnitude cut to its leading 192 bits. -/
def cut192 (x : Nat × Int) : Nat × Int := let k := Nat.log2 x.1 - 191; (x.1 / 2 ^ k, x.2 + k)

/-- β^t by repeated squaring, each product cut to 192 bits; a magnitude outside the range of FP64 is given as one just outside it. -/
def powRef (b : FV) (t : Nat) : FV :=
  match b with
  | .fin n m e =>
    if m = 0 then b
    else
      let x := (List.range 72).foldl
        (fun (a : Nat × Int) i =>
          let q := cut192 (a.1 * a.1, 2 * a.2)
          if t.testBit (71 - i) then cut192 (q.1 * m, q.2 + e) else q) (1, 0)
      let top := (Nat.log2 x.1 : Int) + x.2
      let neg := n && t % 2 == 1
      if top < -1200 then .fin neg 1 (-1200) else if 1100 < top then .fin neg 1 1100 else .fin neg x.1 x.2
  | .inf n => .inf (n && t % 2 == 1)
  | .nan => .nan

/-- The FP64 power of R233: the device's own where that is within one ulp of β^t, else β^t rounded to FP64 (log 26). -/
def biasPow (b t : Nat) : Nat :=
  let y := powRef (v32 b) t
  if y.isNaN || y.isInf then r64 y else r64 (withinUlp fmtFP64 fmtFP64 1 y (Config.biasPow b t % 2 ^ 64))

/-- 1 / (1 − β^t), computed in FP64 and rounded once to FP32 (R233, log 26). -/
def biasCorr (om t : Nat) : Nat :=
  let p := v64 (biasPow (subF oneF om) t)
  let q := (FV.ofInt 1).div (v64 (r64 ((FV.ofInt 1).add p.neg)))
  r32 q.1 q.2

/-- New w, m and v of one parameter (R233). -/
def updOne (f : UpdF) (c1 c2 w m v grad : Nat) : Nat × Nat × Nat :=
  let g0 := mulF f.gs grad
  let g := if (v32 f.clip).isZero then g0 else minF (maxF g0 (r32 (v32 f.clip).neg)) f.clip
  let b1 := subF oneF f.om1
  let b2 := subF oneF f.om2
  let (m1, v1, u) :=
    if f.algo = 0 then
      let m1 := addF (mulF b1 m) (mulF f.om1 g)
      let v1 := addF (mulF b2 v) (mulF f.om2 (mulF g g))
      (m1, v1, divF (mulF m1 c1) (addF (sqrtF (mulF v1 c2)) f.eps))
    else if f.algo = 1 then
      let m1 := addF (mulF b1 m) g
      (m1, v, m1)
    else (m, v, g)
  (subF w (mulF f.lr (addF u (mulF f.wd w))), m1, v1)

/-- A stored moment block as FP32 patterns: MXFP8 with its scale, or BF16 (Table 8.3). -/
def momentIn (mbf : Bool) (elems : List Byte) (scale : Nat) : List Nat :=
  (List.range 32).map fun i =>
    if mbf then at8 elems (2 * i) (2 * i + 1) * 65536
    else
      match e8m0 scale with
      | none => fmtFP32.nanBits
      | some k => r32 ((fmtE4M3.decode (at8 elems i i)).scale k)

/-- An MXFP8 moment block: scale by R95, elements rounded stochastically with free draws from number `n` (R234). -/
def momentMx (vs : List Nat) (n : Nat) : List Byte × Nat :=
  let fv := vs.map v32
  let scale := (mxBlock 0x4 fv).1
  let k : Int := (scale : Int) - 127
  (fv.zipIdx.map fun x =>
    BitVec.ofNat 8 (fmtE4M3.encode (.sr ((Config.freeDraw (n + x.2)).toNat / 2 ^ 32)) true (x.1.scale (-k))).1, scale)

/-- A BF16 moment block (R234). -/
def momentBf (vs : List Nat) : List Byte := vs.flatMap fun v => leBytes 2 (fmtBF16.encode .rne false (v32 v)).1

/-! Commands. -/

/-- Hand an update command to the scheduler (R223, R224). -/
def State.toScheduler (s : State) (h : Head) (desc : List Byte) : State :=
  let (id, s1) := s.leave h .update
  (s1.mapPart (s.pno h.core) fun pt =>
    { pt with updQ := pt.updQ ++ [⟨h.core, h.slot, h.ctx.lctx, id, h.w, h.imm, desc, false, [], 0, 0⟩] }).settle h.core h.slot

/-- UPDATE_BLOCKS (R230): both slots issue together; the scheduler takes the command. -/
def workUpdateBlocks (core n : Nat) (s : State) : Out :=
  work core n 0xA0 s fun h s =>
    if cf h.w 101 100 = 3 ∨ !(s.updOf (s.pno core)).en then s.failed h stIllegalOp
    else s.pay h 0 1 fun s => s.toScheduler h []

/-- Whether a merge descriptor obeys R238. -/
def mergeOk (d : List Byte) : Bool :=
  let nblk := at8 d 40 43
  let f := at8 d 44 44
  let dw := if bit f 0 then 128 else 64
  let sw := if bit f 1 then 128 else 64
  let dst := at8 d 0 7
  let src (k : Nat) : Nat := at8 d (8 + 8 * k) (15 + 8 * k)
  let srcs := ((List.range 4).map src).filter (· ≠ 0)
  let chk := bit f 2
  d.length == 64 && dst < 2 ^ 48 && at8 d 45 63 == 0 && f / 8 == 0 &&
    1 ≤ nblk && nblk ≤ 16777216 &&
    ((List.range 3).all fun k => src k ≠ 0 || src (k + 1) == 0) &&
    (srcs.all fun x => x + sw * nblk ≤ dst || dst + dw * nblk ≤ x) &&
    (!chk || (dst % 2048 == 0 && srcs.all (· % 2048 == 0) &&
      (bit f 0 || nblk % 32 == 0) && (bit f 1 || nblk % 32 == 0) && nblk % 16 == 0))

/-- GRAD_MERGE (R238). -/
def workGradMerge (core n : Nat) (s : State) : Out :=
  work core n 0xA1 s fun h s =>
    let k := s.core core
    let pr := h.ctx.pair (cf h.w 21 20)
    if !(s.updOf (s.pno core)).en ∨ pr.mode ≠ 0 ∨ (pr.lim ≠ 0 ∧ !pr.isLocal core) then s.failed h stIllegalOp
    else
      match localOff k h.ctx core (cf h.w 21 20) (cf h.w 37 22) 64 with
      | .error st => s.failed h st
      | .ok off =>
        if k.bankIsOff off 64 then s.failed h stBankOff
        else if !k.bankIsOn off 64 then (s.wakeBanks core off 64).hold core n 3
        else
          let d := s.rds (scrPa core off) 64
          if !mergeOk d then s.failed h stIllegalOp else s.pay h 0 1 fun s => s.toScheduler h d

/-- COMMIT_SHADOW (R240). -/
def workCommitShadow (core n : Nat) (s : State) : Out :=
  work core n 0xA2 s fun h s =>
    if !(s.updOf (s.pno core)).names h.w then s.failed h stIllegalOp
    else s.pay h 0 1 fun s => s.toScheduler h []

/-- DISCARD_SHADOW (R241). -/
def workDiscardShadow (core n : Nat) (s : State) : Out :=
  work core n 0xA3 s fun h s =>
    if !(s.updOf (s.pno core)).names h.w then s.failed h stIllegalOp
    else s.pay h 0 1 fun s => s.toScheduler h []

/-! The scheduler. -/

/-- The command at the front has completed (R224). -/
def State.updDone (s : State) (p : Nat) (u : UpdCmd) : State :=
  ((s.mapPart p fun pt => { pt with updQ := pt.updQ.tail }).mapCore u.core fun k => k.complete u.id).badHead u.core u.slot

/-- The command at the front ends its context. -/
def State.updFail (s : State) (p : Nat) (u : UpdCmd) (status : Nat) : State :=
  (s.mapPart p fun pt => { pt with updQ := pt.updQ.tail }).faultCtx u.core u.lctx status

/-- The command at the front meets a page that does not translate (R237). -/
def State.updPageFault (s : State) (p : Nat) (u : UpdCmd) (x : Nat × TransFail) (wr : Bool) : State :=
  match x.2 with
  | .migrate => s.transFault p x.1 x.2 3 0 0 wr 0
  | _ => (s.transFault p x.1 x.2 3 0 0 wr 0).updFail p u stPageFault

/-- The first page of a region's header that cannot be written (R237). -/
def State.hdrFail (s : State) (p : Nat) (e : RegEnt) : Option (Nat × TransFail) := s.vfail p e.hdr 64 true

/-- Bytes of a moment array. -/
def momentLen (e : RegEnt) : Nat := if e.mbf then 64 * e.nblk else 33 * e.nblk

/-- The arrays of a region in use: current start, shadow start and length; a REPLICA region uses only its high halves (R226). -/
def RegEnt.arrays (e : RegEnt) : List (Nat × Nat × Nat) :=
  (e.hi, e.hiS, 64 * e.nblk) ::
    if e.kind = 0 then
      (e.lo, e.loS, 64 * e.nblk) ::
        ((if e.m ≠ 0 then [(e.m, e.mS, momentLen e)] else []) ++ if e.v ≠ 0 then [(e.v, e.vS, momentLen e)] else [])
    else []

/-- Checks of Table 8.10 that need the entry and the header. -/
def updChecks (f : UpdF) (e : RegEnt) (done : Nat) : Bool :=
  let al (a : Nat) : Bool := a % 2 ^ 21 == 0
  e.kind == 0 && 1 ≤ e.nblk && e.nblk ≤ 16777216 && f.first + f.count ≤ e.nblk && f.first ≤ done &&
    !((v32 f.clip).isNaN || (v32 f.clip).isInf || ((v32 f.clip).isNeg)) &&
    e.hi != 0 && e.hiS != 0 && e.lo != 0 && e.loS != 0 && e.grad != 0 && ([e.hi, e.hiS, e.lo, e.loS, e.m, e.mS, e.v, e.vS].all al) &&
    (f.algo == 2 || (e.m != 0 && e.mS != 0)) && (f.algo != 0 || (e.v != 0 && e.vS != 0)) &&
    e.hdr % 64 == 0 &&
    (!e.chk || (f.first % 32 == 0 && (f.count % 32 == 0 || f.first + f.count == e.nblk) && e.grad % 2048 == 0))

/-- UPDATE_ACCEPT (R223, R232): the scheduler accepts the UPDATE_BLOCKS or GRAD_MERGE at the front of the partition's queue. -/
def execUpdateAccept (p : Nat) (s : State) : Out :=
  if 64 ≤ p ∨ s.halts then .next s
  else
    match (s.part p).updQ with
    | [] => .next s
    | u :: t =>
      let op := opcodeOf u.cmd
      if u.accepted ∨ (op ≠ 0xA0 ∧ op ≠ 0xA1) then .next s
      else if op = 0xA1 then
        if (s.updOf p).en then .next (s.mapPart p fun pt => { pt with updQ := { u with accepted := true } :: t })
        else .next (s.updFail p u stIllegalOp)
      else
        let f := updF u.cmd u.imm
        let r := s.updOf p
        if !r.en ∨ r.count ≤ f.reg then .next (s.updFail p u stIllegalOp)
        else
          match s.region? p f.reg with
          | .error x => .next (s.updPageFault p u x false)
          | .ok (b, e, h) =>
            let s := s.regionTake 0 p f.reg
            let skew := f.steplo ≠ (h.step + 1) % 2 ^ 24
            let legal := updChecks f e (if h.shv then h.shdone else 0)
            match s.hdrFail p e with
            | some x => if e.frozen ∨ skew ∨ legal then .next (s.updPageFault p u x true) else .next (s.updFail p u stIllegalOp)
            | none =>
              if e.frozen then
                let s1 := (s.putHdr p e { h with frozenskip := (h.frozenskip + f.count) % 2 ^ 32 }).mapUpd p fun r =>
                  { r with frozen := sat16 r.frozen 1 }
                .next ((s1.mapCore u.core fun k => k.mapCtx u.lctx fun c => { c with lastStatus := stFrozenSkipped }).updDone p u)
              else if skew then
                let s1 := (s.putHdr p e { h with skews := (h.skews + 1) % 2 ^ 32 }).mapUpd p fun r => { r with skew := sat16 r.skew 1 }
                .next (s1.updFail p u stStepSkew)
              else if !legal then .next (s.updFail p u stIllegalOp)
              else
                let h1 := if h.shv then h
                  else { h with shv := true, shstep := (h.step + 1) % 2 ^ 64, shdone := 0, nonfin := 0, crc := crc32c b }
                .next ((s.putHdr p e h1).mapPart p fun pt =>
                  { pt with updQ := { u with accepted := true, entry := b, t := h.step + 1, run := 0 } :: t })

/-- The outcomes of the block checks of every 2 KiB block that [va, va + n) touches (R220, R236); host pages are unchecked (R221). -/
def State.vchecks (s : State) (p va n : Nat) : List CheckRes :=
  (List.range (cdiv (va % 2048 + n) 2048)).map fun i => s.vcheck p (va / 2048 * 2048 + 2048 * i) 2048

/-- Whether no block that a virtual run touches fails its check, and whether one has a poisoned check value alone (R220). -/
def State.vchecked (s : State) (p va n : Nat) : Bool := (s.vchecks p va n).all fun r => r != .mismatch
def State.vcheckBad (s : State) (p va n : Nat) : Bool :=
  (List.range (cdiv (va % 2048 + n) 2048)).any fun i => s.valueBad p (va / 2048 * 2048 + 2048 * i)

/-- Write whole 2 KiB blocks with their check values; host pages take none (R236). -/
def State.vwriteChecked (s : State) (p va : Nat) (bs : List Byte) : State :=
  (List.range (cdiv bs.length 2048)).foldl
    (fun s i =>
      let part := (bs.drop (2048 * i)).take 2048
      let blk := part ++ List.replicate (2048 - part.length) 0
      match s.translate p (va + 2048 * i) true with
      | .ok pa => (match s.region pa with | .hbm | .attic => s.engWriteChecked p pa blk [] | _ => s.vwrite p (va + 2048 * i) blk)
      | .error _ => s) s

/-- The extents that a run of blocks [b, b + n) reads and writes. -/
def runExts (f : UpdF) (e : RegEnt) (b n : Nat) : List (Nat × Nat) × List (Nat × Nat) :=
  let gw := if e.gfp then 128 else 64
  let mom (a : Nat) : List (Nat × Nat) :=
    if e.mbf then [(a + 64 * b, 64 * n)] else [(a + 32 * b, 32 * n), (a + 32 * e.nblk + b, n)]
  let rd := [(e.grad + gw * b, gw * n), (e.hi + 64 * b, 64 * n), (e.lo + 64 * b, 64 * n)] ++
    (if f.algo = 2 then [] else mom e.m) ++ if f.algo = 0 then mom e.v else []
  let wr := [(e.hiS + 64 * b, if e.chk then roundUp (64 * n) 2048 else 64 * n), (e.loS + 64 * b, 64 * n)] ++
    (if f.algo = 2 then [] else mom e.mS) ++ if f.algo = 0 then mom e.vS else []
  (rd, wr)

/-- What one block's update writes: high and low halves, moment blocks with scales, and whether R235 left it unchanged. -/
structure BlkOut where
  hi : List Byte
  lo : List Byte
  m : List Byte
  ms : Nat
  v : List Byte
  vs : Nat
  nonfin : Bool
  deriving DecidableEq, Repr

/-- Update one block (R233 to R235). -/
def updBlock (s : State) (p : Nat) (f : UpdF) (e : RegEnt) (c1 c2 b : Nat) : BlkOut :=
  let rd (va n : Nat) : List Byte := (s.vread p va n).toOption.elim [] Prod.fst
  let hi := rd (e.hi + 64 * b) 64
  let lo := rd (e.lo + 64 * b) 64
  let gw := if e.gfp then 4 else 2
  let gb := rd (e.grad + 32 * gw * b) (32 * gw)
  let mw := if e.mbf then 64 else 32
  let useM := f.algo ≠ 2
  let useV := f.algo = 0
  let mB := if useM then rd (e.m + mw * b) mw else []
  let vB := if useV then rd (e.v + mw * b) mw else []
  let mS := if useM ∧ !e.mbf then at8 (rd (e.m + 32 * e.nblk + b) 1) 0 0 else 0
  let vS := if useV ∧ !e.mbf then at8 (rd (e.v + 32 * e.nblk + b) 1) 0 0 else 0
  let ms := if useM then momentIn e.mbf mB mS else List.replicate 32 0
  let vs := if useV then momentIn e.mbf vB vS else List.replicate 32 0
  let g (i : Nat) : Nat := if e.gfp then at8 gb (4 * i) (4 * i + 3) else at8 gb (2 * i) (2 * i + 1) * 65536
  let w (i : Nat) : Nat := at8 hi (2 * i) (2 * i + 1) * 65536 + at8 lo (2 * i) (2 * i + 1)
  let outs := (List.range 32).map fun i => updOne f c1 c2 (w i) (ms.getD i 0) (vs.getD i 0) (g i)
  let bad := (List.range 32).any (fun i => badF (g i)) || outs.any fun o => badF o.1 || badF o.2.1 || badF o.2.2
  if bad then ⟨hi, lo, mB, mS, vB, vS, true⟩
  else
    let mN := outs.map (·.2.1)
    let vN := outs.map (·.2.2)
    let mx := momentMx mN s.free
    let vx := momentMx vN (s.free + 32)
    { hi := outs.flatMap fun o => leBytes 2 (o.1 / 65536)
      lo := outs.flatMap fun o => leBytes 2 (o.1 % 65536)
      m := if !useM then [] else if e.mbf then momentBf mN else mx.1
      ms := mx.2
      v := if !useV then [] else if e.mbf then momentBf vN else vx.1
      vs := vx.2
      nonfin := false }

/-- One run of UPDATE_BLOCKS that reads only current data and writes only shadow data (R232, R236). -/
def State.updRun (s : State) (p : Nat) (f : UpdF) (e : RegEnt) (t b n : Nat) : State × Nat :=
  let c1 := biasCorr f.om1 t
  let c2 := biasCorr f.om2 t
  let src := s
  let r := (List.range n).foldl
    (fun (a : State × List Byte × Nat) i =>
      let s := a.1
      let o := updBlock { src with free := s.free } p f e c1 c2 (b + i)
      let s1 := s.vwrite p (e.loS + 64 * (b + i)) o.lo
      let mw := if e.mbf then 64 else 32
      let putM (s : State) (a : Nat) (bs : List Byte) (sc : Nat) : State :=
        if bs.isEmpty then s
        else
          let s1 := s.vwrite p (a + mw * (b + i)) bs
          if e.mbf then s1 else s1.vwrite p (a + 32 * e.nblk + b + i) [BitVec.ofNat 8 sc]
      let s2 := putM (putM s1 e.mS o.m o.ms) e.vS o.v o.vs
      ({ s2 with free := s2.free + 64 }, a.2.1 ++ o.hi, a.2.2 + b01 o.nonfin)) (s, [], 0)
  let s1 := if e.chk then r.1.vwriteChecked p (e.hiS + 64 * b) r.2.1 else r.1.vwrite p (e.hiS + 64 * b) r.2.1
  (s1, r.2.2)

/-- One run of GRAD_MERGE: elements [b·32, (b + n)·32) (R238). -/
def State.mergeRun (s : State) (p : Nat) (d : List Byte) (b n : Nat) : State :=
  let f := at8 d 44 44
  let dst := at8 d 0 7
  let srcs := ((List.range 4).map fun k => at8 d (8 + 8 * k) (15 + 8 * k)).filter (· ≠ 0)
  let dw := if bit f 0 then 4 else 2
  let sw := if bit f 1 then 4 else 2
  let rdE (va w : Nat) : Nat × Bool :=
    match s.vread p va w with
    | .ok (bs, q) => (if w = 4 then leNat bs else leNat bs * 65536, q)
    | .error _ => (0, false)
  let rdS (va w : Nat) : Nat × Bool := let y := rdE va w; (y.1, y.2 || (bit f 2 && s.valueBad p va))
  let xs := (List.range (32 * n)).map fun j =>
    let i := 32 * b + j
    srcs.foldl (fun (a : Nat × Bool) x => let y := rdS (x + sw * i) sw; (addF a.1 y.1, a.2 || y.2)) (rdE (dst + dw * i) dw)
  let code (x : Nat) : List Byte := if dw = 4 then leBytes 4 x else leBytes 2 (fmtBF16.encode .rne false (v32 x)).1
  let base := dst + dw * 32 * b
  let bytes := xs.flatMap fun x => code x.1
  let s1 := if bit f 2 then s.vwriteChecked p base bytes else s.vwrite p base bytes
  (xs.zipIdx.filter fun x => x.1.2).foldl
    (fun s x =>
      match s.translate p (base + dw * x.2) true with
      | .ok pa => ({ s with poison := Keys.add s.poison (pa / 64) } : State).cacheMark p [pa / 64] true
      | .error _ => s) s1

/-- The first page of a list of extents that fails. -/
def State.vfailAny (s : State) (p : Nat) (xs : List (Nat × Nat)) (wr : Bool) : Option (Nat × TransFail) :=
  xs.findSome? fun x => s.vfail p x.1 x.2 wr

/-- What the next run of an accepted GRAD_MERGE reads, and what it reads and writes at its destination (R238). -/
def UpdCmd.mergeReads (u : UpdCmd) : List (Nat × Nat) :=
  let sw := if bit (at8 u.desc 44 44) 1 then 128 else 64
  (((List.range 4).map fun k => at8 u.desc (8 + 8 * k) (15 + 8 * k)).filter (· ≠ 0)).map fun x =>
    (x + sw * (64 * u.run), sw * min 64 (at8 u.desc 40 43 - 64 * u.run))

def UpdCmd.mergeWrite (u : UpdCmd) : Nat × Nat :=
  let dw := if bit (at8 u.desc 44 44) 0 then 128 else 64
  (at8 u.desc 0 7 + dw * (64 * u.run), dw * min 64 (at8 u.desc 40 43 - 64 * u.run))

/-- What the next run of an accepted UPDATE_BLOCKS reads and writes (R232). -/
def UpdCmd.exts (u : UpdCmd) : List (Nat × Nat) × List (Nat × Nat) :=
  let f := updF u.cmd u.imm
  let b := f.first + 64 * u.run
  runExts f (regEnt u.entry) b (min 64 (f.first + f.count - b))

/-- A run of an update command has read some extents and used the pages of others: the attic cache holds the blocks read, and the engine
that executes the run, the run's number modulo 8 (DESIGN CHOICE, log 60), the pages (R213, R218). -/
def State.runTake (s : State) (p run : Nat) (reads writes : List (Nat × Nat)) : State :=
  (reads.foldl (fun s y => s.vtake p y.1 y.2) s).enginePages (run % 8) p ((reads ++ writes).flatMap fun y => pageRun y.1 y.2)

/-- RUN_COMPLETE (R223, R236, R237): the next run of 64 blocks of the command at the front; after the last one it completes. -/
def execRunComplete (p : Nat) (s : State) : Out :=
  if 64 ≤ p ∨ s.halts then .next s
  else
    match (s.part p).updQ with
    | [] => .next s
    | u :: rest =>
      if !u.accepted ∨ 0xA2 ≤ opcodeOf u.cmd then .next s
      else if opcodeOf u.cmd = 0xA1 then
        let b := 64 * u.run
        let n := min 64 (at8 u.desc 40 43 - b)
        match s.vfailAny p u.mergeReads false, s.vfail p u.mergeWrite.1 u.mergeWrite.2 true with
        | some x, _ => .next (s.updPageFault p u x false)
        | none, some x => .next (s.updPageFault p u x true)
        | none, none =>
          if bit (at8 u.desc 44 44) 2 ∧ !(u.mergeReads.all fun x => s.vchecked p x.1 x.2) then .next (s.noteCheck.updFail p u stCheckMismatch)
          else
            let s1 := (s.runTake p u.run (u.mergeWrite :: u.mergeReads) []).mergeRun p u.desc b n
            if b + n < at8 u.desc 40 43 then .next (s1.mapPart p fun pt => { pt with updQ := { u with run := u.run + 1 } :: rest })
            else .next (s1.updDone p u)
      else
        let f := updF u.cmd u.imm
        let e := regEnt u.entry
        let b := f.first + 64 * u.run
        let n := min 64 (f.first + f.count - b)
        let x := u.exts
        match s.vfailAny p x.1 false, s.vfailAny p x.2 true, s.hdrFail p e with
        | some y, _, _ => .next (s.updPageFault p u y false)
        | none, some y, _ => .next (s.updPageFault p u y true)
        | none, none, some y => .next (s.updPageFault p u y true)
        | none, none, none =>
          let h := s.hdrAt p e
          let g := (e.grad + (if e.gfp then 128 else 64) * b, (if e.gfp then 128 else 64) * n)
          if (x.1.any fun y => s.vpoison p y.1 y.2) || (e.chk && s.vcheckBad p g.1 g.2) then .next ((s.putHdr p e { h with shv := false }).updFail p u stPoisoned)
          else if e.chk ∧ !s.vchecked p g.1 g.2 then
            .next (s.noteCheck.updFail p u stCheckMismatch)
          else
            let (s1, nf) := (s.runTake p u.run ((e.hdr, 64) :: x.1) x.2).updRun p f e u.t b n
            let s2 := s1.mapUpd p fun r => { r with nonfin := sat16 r.nonfin nf, blks := (r.blks + n) % 2 ^ 64 }
            let last : Bool := f.first + f.count ≤ b + n
            let s3 := s2.putHdr p e
              { h with nonfin := (h.nonfin + nf) % 2 ^ 32, shdone := if last then max h.shdone (f.first + f.count) else h.shdone }
            if last then .next (s3.updDone p u)
            else .next (s3.mapPart p fun pt => { pt with updQ := { u with run := u.run + 1 } :: rest })

/-- UPDATE_ENGINE_FAULT (R237): the run is executed again. -/
def execUpdateEngineFault (p : Nat) (s : State) : Out :=
  if 64 ≤ p ∨ s.halts then .next s
  else
    match (s.part p).updQ with
    | u :: _ => if u.accepted && opcodeOf u.cmd < 0xA2 then .next (s.mapUpd p fun r => { r with restarts := min 255 (r.restarts + 1) }) else .next s
    | [] => .next s

/-- Pages of 2 MiB that a range takes. -/
def pagesOf (va n : Nat) : List Nat := (List.range (cdiv n (2 ^ 21))).map fun i => va / 2 ^ 21 + i

/-- Whether a page has a present, writable 2 MiB entry. -/
def Part.pageOk (pt : Part) (page : Nat) : Bool :=
  (Tab.find pt.ptes1g (page / 512)).isNone && (Tab.find pt.ptes page).any fun e => e.toNat.testBit 0 && e.toNat.testBit 1

/-- Exchange the entries of two pages (R240). -/
def Part.exchange (pt : Part) (a b : Nat) : Part :=
  match Tab.find pt.ptes a, Tab.find pt.ptes b with
  | some x, some y => { pt with ptes := Tab.put (Tab.put pt.ptes a y) b x }
  | _, _ => pt

/-- Whether an entry that a partition holds maps an attic block with C = 1 (R218). -/
def Part.keepsBlk (pt : Part) (b : CacheBlk) : Bool :=
  let maps (size : Nat) (e : W64) : Bool := e.toNat.testBit 4 && fld (bits e.toNat 47 12) 12 / size == 2048 * b.block / size
  pt.ptes.any (fun (x : Nat × W64) => maps (2 ^ 21) x.2) || pt.ptes1g.any fun (x : Nat × W64) => maps (2 ^ 30) x.2

/-- Take the entries of pages out of a die's caches (R214). -/
def DieTlb.drop (t : DieTlb) (hit : TlbEnt → Bool) : DieTlb :=
  { pages := t.pages.filter fun x => !hit x, tables := t.tables.filter fun x => !hit x }

/-- Whether an entry of a translation cache is one of the pages of a partition, or of a table over them (R214). -/
def TlbEnt.ofPages (p : Nat) (pages : List Nat) (x : TlbEnt) : Bool :=
  x.part == p && pages.any fun i => i / (if x.level = 3 then 1 else if x.level = 2 then 512 else 2 ^ 18) == x.index

/-- Take entries out of every translation cache of the device (R214). -/
def State.dropTlbs (s : State) (p : Nat) (hit : TlbEnt → Bool) : State :=
  let s1 : State := { s with
    tlbs := s.tlbs.map fun x => (x.1, x.2.drop hit)
    engTlbs := s.engTlbs.map fun x => (x.1, x.2.filter fun y => !hit y) }
  (s1.coresOf p).foldl
    (fun s c =>
      if (s.core c).stTlb.isEmpty && (s.core c).ckTlb.isEmpty then s
      else s.mapCore c fun k => { k with stTlb := k.stTlb.filter fun y => !hit y, ckTlb := k.ckTlb.filter fun y => !hit y }) s1

/-- Invalidate pages: their entries leave the translation caches, prefetched lines of them are abandoned, and blocks of attic frames that
the partition no longer reaches with C = 1 leave its attic cache (R214, R218). -/
def State.invalidate (s : State) (p : Nat) (pages : List Nat) : State :=
  let s1 : State := s.mapPart p (fun pt => if pt.ablocks.isEmpty then pt else { pt with ablocks := pt.ablocks.filter pt.keepsBlk })
  let s2 := s1.dropTlbs p (TlbEnt.ofPages p pages)
  (s2.coresOf p).foldl
    (fun s c =>
      if (s.core c).lineBuf.isEmpty then s
      else s.mapCore c fun k => k.abandon fun l => pages.contains (l.line * 64 / 2 ^ 21)) s2

/-- The status with which a region fails the commit checks of R240, if it fails. -/
def commitCheck (pt : Part) (steplo : Nat) (b : List Byte) (e : RegEnt) (h : ShHdr) : Option Nat :=
  if e.frozen then none
  else if !h.shv ∨ h.shstep % 2 ^ 24 ≠ steplo ∨ h.shdone ≠ e.nblk then some stIllegalOp
  else if h.crc ≠ crc32c b then some stCheckMismatch
  else if (e.arrays.all fun a => (pagesOf a.1 a.2.2 ++ pagesOf a.2.1 a.2.2).all pt.pageOk) then none
  else some stPageFault

/-- The regions that a commit or discard names. -/
def shadowRegs (w : Cmd) : List Nat := (List.range (cf w 35 28 + 1)).map fun i => cf w 27 20 + i

/-- The first page of the entries and headers of a shadow command's regions that does not translate. -/
def State.shadowMissing (s : State) (p : Nat) (u : UpdCmd) : Option (Nat × TransFail) :=
  (shadowRegs u.cmd).findSome? fun i => match s.region? p i with | .error x => some x | .ok _ => none

/-- The status of the first region of a COMMIT_SHADOW that fails the checks (R240). -/
def State.shadowRefused (s : State) (p : Nat) (u : UpdCmd) : Option Nat :=
  (shadowRegs u.cmd).findSome? fun i =>
    match s.region? p i with
    | .ok (b, e, h) => commitCheck (s.part p) (cf u.cmd 59 36) b e h
    | .error _ => none

/-- Whether a shadow command leaves a region alone: it is frozen, its shadow is closed, or its commit is in progress (R240, R241). -/
def RegEnt.leftAlone (e : RegEnt) (h : ShHdr) : Bool := e.frozen || !h.shv || h.cmt

/-- The first page of the headers that a shadow command writes that cannot be written (R240, R241). -/
def State.shadowFixed (s : State) (p : Nat) (u : UpdCmd) : Option (Nat × TransFail) :=
  (shadowRegs u.cmd).findSome? fun i =>
    match s.region? p i with
    | .ok (_, e, h) => if e.leftAlone h then none else s.hdrFail p e
    | .error _ => none

/-- The entries and headers of a shadow command's regions have been read. -/
def State.shadowTake (s : State) (p : Nat) (u : UpdCmd) : State := (shadowRegs u.cmd).foldl (fun s i => s.regionTake 0 p i) s

/-- The entries of the regions of a COMMIT_SHADOW, as it is accepted (R227). -/
def State.shadowEntries (s : State) (p : Nat) (u : UpdCmd) : List Byte :=
  (shadowRegs u.cmd).flatMap fun i => match s.region? p i with | .ok (b, _, _) => b | .error _ => []

/-- The entry pairs that the commit of a region exchanges, in order (R240). -/
def RegEnt.pairs (e : RegEnt) : List (Nat × Nat) := e.arrays.flatMap fun a => (pagesOf a.1 a.2.2).zip (pagesOf a.2.1 a.2.2)

/-- Exchange the next entry pairs of a region, 512 at most, from CMTDONE on; with the last one the entries are invalidated and the region is
CLOSED. Answers whether it is (R214, R240). -/
def State.commitSome (s : State) (p : Nat) (e : RegEnt) : State × Bool :=
  if e.frozen then (s, true)
  else
    let h := s.hdrAt p e
    let from' := if h.cmt then h.cmtdone else 0
    let now := (e.pairs.drop from').take 512
    let s1 := s.mapPart p fun pt => now.foldl (fun pt x => pt.exchange x.1 x.2) pt
    if from' + now.length < e.pairs.length then (s1.putHdr p e { h with cmt := true, cmtdone := from' + now.length }, false)
    else
      let s2 := s1.invalidate p (e.pairs.flatMap fun x => [x.1, x.2])
      (s2.putHdr p e { h with step := h.shstep, shv := false, cmt := false, cmtdone := 0 }, true)

/-- The dispatch cores carry on an accepted commit: the regions from the one in work on, until one has pairs left or all are CLOSED. -/
def State.commitOn (p : Nat) : Nat → UpdCmd → State → State
  | 0, u, s => (s.mapUpd p fun r => { r with commits := (r.commits + 1) % 256 }).updDone p u
  | n + 1, u, s =>
    let r := s.commitSome p (regEnt ((u.entry.drop (128 * u.run)).take 128))
    if r.2 then State.commitOn p n { u with run := u.run + 1 } r.1
    else r.1.mapPart p fun pt => { pt with updQ := u :: pt.updQ.tail }

/-- SHADOW_COMMIT (R240): the COMMIT_SHADOW at the front is accepted, which checks its regions and commits them all or none; each event
exchanges up to 512 entry pairs of a region (log 195). -/
def execShadowCommit (p : Nat) (s : State) : Out :=
  if 64 ≤ p ∨ s.halts then .next s
  else
    match (s.part p).updQ with
    | [] => .next s
    | u :: _ =>
      let n := (shadowRegs u.cmd).length
      if opcodeOf u.cmd ≠ 0xA2 then .next s
      else if u.accepted then .next (State.commitOn p (n - u.run) u s)
      else if !(s.pageSeqs p).isEmpty then .next s
      else if !(s.updOf p).names u.cmd then .next (s.updFail p u stIllegalOp)
      else
        match s.shadowMissing p u with
        | some x => .next (s.updPageFault p u x false)
        | none =>
          match s.shadowRefused p u, s.shadowFixed p u with
          | some st, _ => .next ((s.shadowTake p u).updFail p u st)
          | none, some x => .next (s.updPageFault p u x true)
          | none, none => .next (State.commitOn p n { u with accepted := true, entry := s.shadowEntries p u, run := 0 } (s.shadowTake p u))

/-- Close an open shadow; one whose commit is in progress stays (R241). -/
def State.discardRegion (s : State) (p i : Nat) : State :=
  match s.region? p i with
  | .error _ => s
  | .ok (_, e, h) => if e.leftAlone h then s else s.putHdr p e { h with shv := false, shdone := 0 }

/-- SHADOW_DISCARD (R241): the DISCARD_SHADOW at the front. -/
def execShadowDiscard (p : Nat) (s : State) : Out :=
  if 64 ≤ p ∨ s.halts then .next s
  else
    match (s.part p).updQ with
    | [] => .next s
    | u :: _ =>
      if opcodeOf u.cmd ≠ 0xA3 then .next s
      else if !(s.updOf p).names u.cmd then .next (s.updFail p u stIllegalOp)
      else
        match s.shadowMissing p u, s.shadowFixed p u with
        | some x, _ => .next (s.updPageFault p u x false)
        | none, some x => .next (s.updPageFault p u x true)
        | none, none => .next (((shadowRegs u.cmd).foldl (fun s i => s.discardRegion p i) (s.shadowTake p u)).updDone p u)

end Sys2Proof.Machine
end

