-- ==== Sys2Proof/Machine/Jigrail.lean ====
section
/-! DEFINITION. Sending messages over Jigrail: packets, sources, acknowledgement and rate control (R261 to R271). -/

namespace Sys2Proof.Machine

/-! Packets. -/

/-- The header bytes of a packet (Table 9.8). -/
def JPkt.header (k : JPkt) (plen : Nat) : List Byte :=
  leBytes 1 (k.ver * 16 + k.typ) ++ leBytes 1 k.flags ++ leBytes 2 plen ++ leBytes 4 k.session ++ leBytes 4 k.psn ++
    leBytes 4 k.cack ++ leBytes 4 k.msgid ++ leBytes 4 k.moff ++ leBytes 4 k.mlen ++ leBytes 4 k.minfo

/-- A packet read from the 32 bytes of its header. -/
def readPkt (b : List Byte) (payload : List Byte) : JPkt :=
  { ver := num b 0 0 / 16, typ := num b 0 0 % 16, flags := num b 1 1, session := num b 4 7, psn := num b 8 11, cack := num b 12 15,
    msgid := num b 16 19, moff := num b 20 23, mlen := num b 24 27, minfo := num b 28 31, payload := payload }

/-- The nonce of R259: prefix, PSN, space byte, zeros. -/
def nonce (pre : List Byte) (psn : Nat) (control : Bool) : List Byte :=
  sized 4 pre ++ leBytes 4 psn ++ leBytes 1 (b01 control) ++ [0, 0, 0]

/-- Keys of the direction from this device, and toward it (R259). -/
def Session.txKey (x : Session) : List Byte × List Byte := if x.init then (x.kir, x.ivir) else (x.kri, x.ivri)
def Session.rxKey (x : Session) : List Byte × List Byte := if x.init then (x.kri, x.ivri) else (x.kir, x.ivir)

/-- The bytes of a protected packet: DATA of version 3 is encrypted; everything else is additional data (R259, Table 9.10). -/
def Session.sealPkt (x : Session) (v2 : Bool) (k : JPkt) : List Byte :=
  let h := k.header k.payload.length
  let n := nonce x.txKey.2 k.psn (k.typ != 0)
  if k.typ = 0 ∧ !v2 then h ++ sized (k.payload.length + 16) (Config.gcmSeal x.txKey.1 n h k.payload)
  else h ++ k.payload ++ sized 16 (Config.gcmSeal x.txKey.1 n (h ++ k.payload) [])

/-- The plaintext payload of a protected packet, if its tag verifies. `body` is what follows the header. -/
def Session.openPkt (x : Session) (v2 : Bool) (hdr body : List Byte) (k : JPkt) : Option (List Byte) :=
  let n := nonce x.rxKey.2 k.psn (k.typ != 0)
  let pl := num hdr 2 3
  if k.typ = 0 ∧ !v2 then Config.gcmOpen x.rxKey.1 n hdr body
  else (Config.gcmOpen x.rxKey.1 n (hdr ++ body.take pl) (body.drop pl)).map fun _ => body.take pl

/-- Ones' complement sum of 16-bit words in network order. -/
def sum16 : List Byte → Nat
  | a :: b :: t => a.toNat * 256 + b.toNat + sum16 t
  | [a] => a.toNat * 256
  | [] => 0

def fold16 (n : Nat) : Nat := let m := n % 65536 + n / 65536; m % 65536 + m / 65536

/-- The UDP checksum of a datagram over its pseudo-header; an IPv4 address is given IPv4-mapped (Table 9.3, Table 9.4). -/
def udpSum (src dst : List Byte) (sport dport : Nat) (data : List Byte) : Nat :=
  let ip (a : List Byte) : Nat := sum16 (if a.take 12 = List.replicate 10 0 ++ [0xFF, 0xFF] then a.drop 12 else a)
  let len := data.length + 8
  let c := 65535 - fold16 (fold16 (ip src + ip dst + 17 + len + sport + dport + len + sum16 data))
  if c = 0 then 65535 else c

/-- Put a datagram to a peer on a port whose next hop is resolved, newest first; while its priority is paused it waits in the port (R249, R261,
log 40). -/
def State.onWire (s : State) (n port sport : Nat) (bytes : List Byte) : State :=
  let x := s.peer n
  let c := s.fab.cfg
  let dport := if x.udp ≠ 0 then x.udp else if x.v2 then c.udp2 else c.udp
  let src := Tab.get [] s.fab.addrs x.part
  match (s.fport port).hop with
  | none => s
  | some mac =>
    let w : WireOut := ⟨port, n, sport, dport, (s.fport port).vid, c.pcp, c.dscp, c.ecn, bytes, mac, src, x.addr, 64,
      udpSum src x.addr sport dport bytes⟩
    if (s.fport port).pauses c.pcp then s.mapPort port fun y => { y with waiting := w :: y.waiting }
    else s.mapFab fun f => { f with wire := w :: f.wire }

/-- Send a handshake or control packet on the lowest-numbered usable port; with none, or before its next hop is resolved, it is not sent
(R249, R261, R269). -/
def State.onControl (s : State) (n : Nat) (bytes : List Byte) : State :=
  match s.usable (s.peer n) with
  | [] => s
  | p :: _ => s.onWire n p 49152 bytes

/-- Bytes of JIG_CFG.MAXPAY, at most 4,096 for a version 2 peer (Tables 9.10, 9.13). -/
def State.maxPay (s : State) (x : Peer) : Nat := if x.v2 then min 4096 (1024 * 2 ^ s.fab.cfg.maxpay) else 1024 * 2 ^ s.fab.cfg.maxpay

/-- Cut a handshake message into packets and send them in the clear, SESSION 0 (R255, R261). -/
def State.sendHs (s : State) (n typ : Nat) (msg : List Byte) : State :=
  let x := s.peer n
  let mp := s.maxPay x
  (List.range (cdiv msg.length mp)).foldl
    (fun s i =>
      let pl := (msg.drop (mp * i)).take mp
      let k : JPkt := { ver := x.ver, typ := typ, flags := if mp * (i + 1) < msg.length then 0 else 2, session := 0, psn := 0,
                        cack := 0, msgid := 0, moff := mp * i, mlen := msg.length, minfo := 0, payload := pl }
      s.onControl n (k.header pl.length ++ pl)) s

/-! Sessions of a peer. -/

/-- Change the session with this device's id `sid`, current or draining. -/
def Peer.mapSid (x : Peer) (sid : Nat) (f : Session → Session) : Peer :=
  { x with
    cur := x.cur.map fun y => if y.sidMine = sid then f y else y
    old := x.old.map fun y => if y.sidMine = sid then f y else y }

def Peer.session (x : Peer) (sid : Nat) : Option Session := (x.cur.toList ++ x.old.toList).find? fun y => y.sidMine == sid

/-- Whether nothing of a session is under way: its messages are acknowledged, what it received is whole and acknowledged (R260). -/
def Session.quiet (y : Session) : Bool :=
  y.unacked.isEmpty && y.msgs.isEmpty && y.rx.isEmpty && y.rxGot.isEmpty && y.ackOwed == 0

/-- A draining session closes when nothing on it is under way (R260). -/
def State.closeOld (s : State) (n : Nat) : State := s.mapPeer n fun x => { x with old := x.old.filter fun y => !y.quiet }

/-- An ACK of a session: CACK and the bitmap of R264, with its own control sequence number (R259). -/
def State.sendAck (s : State) (n sid : Nat) : State :=
  let x := s.peer n
  match x.session sid with
  | none => s
  | some y =>
    let bits8 (i : Nat) : Byte := BitVec.ofNat 8 (((List.range 8).map fun j => fld (b01 (Keys.has y.rxGot (y.rxCack + 1 + 8 * i + j))) j).sum)
    let k : JPkt := { ver := x.ver, typ := 1, flags := 0, session := y.sidPeer, psn := y.ctlTx, cack := y.rxCack, msgid := 0, moff := 0,
                      mlen := 0, minfo := 0, payload := (List.range (x.win / 8)).map bits8 }
    ((s.mapPeer n fun x => x.mapSid sid fun y => { y with ctlTx := y.ctlTx + 1, ackOwed := 0 }).onControl n (y.sealPkt x.v2 k)).closeOld n

/-- A CNP of a session (R268). -/
def State.sendCnp (s : State) (n sid : Nat) : State :=
  let x := s.peer n
  match x.session sid with
  | none => s
  | some y =>
    let k : JPkt := { ver := x.ver, typ := 2, flags := 0, session := y.sidPeer, psn := y.ctlTx, cack := y.rxCack, msgid := 0, moff := 0,
                      mlen := 0, minfo := 0, payload := [] }
    (s.mapPeer n fun x => { x.mapSid sid fun y => { y with ctlTx := y.ctlTx + 1 } with cnpAt := some s.ltime }).onControl n
      (y.sealPkt x.v2 k)

/-! Messages. -/

/-- Queue a message to a peer. -/
def State.queueMsg (s : State) (n : Nat) (m : JMsg) : State := s.mapPeer n fun x => { x with queue := x.queue ++ [m] }

/-- Whether any message of an owner is still unfinished. -/
def State.msgsLeft (s : State) (o : Owner) : Bool := s.fab.peers.any fun y => y.2.allMsgs.any fun m => m.owner == o

/-- The context of a message ends with a status, and everything that it still sends stops (R295, Table 9.7). -/
def State.failOwner (s : State) (o : Owner) (status : Nat) : State :=
  match o with
  | .vote => s
  | .cmd core lctx _ => s.faultCtx core lctx status

/-- A command of which every message has been acknowledged completes (R280, R285, R292). -/
def State.ownerDone (s : State) (p : Nat) (o : Owner) : State :=
  match o with
  | .vote => s
  | .cmd core _ id =>
    if s.msgsLeft o then s
    else
      let c := Tab.get ({} : Coll) s.colls p
      let s1 := { s with colls := Tab.put s.colls p { c with sends := c.sends.filter fun y => y != (core, id) } }
      s1.mapCore core fun k => k.complete id

/-! Sources (R266). -/

/-- Bytes [lo, lo + n) of a source as the fabric engine reads them. -/
def State.segBytes (s : State) (p : Nat) : List Seg → Nat → Nat → Except (Nat × TransFail) (List Byte)
  | [], _, _ => .ok []
  | g :: t, lo, n =>
    let len := match g with | .mem _ l => l | .lit bs => bs.length
    if len ≤ lo then s.segBytes p t (lo - len) n
    else do
      let k := min n (len - lo)
      let here ← match g with
        | .mem va _ => s.vget p (va + lo) k
        | .lit bs => .ok ((bs.drop lo).take k)
      let rest ← if k < n then s.segBytes p t 0 (n - k) else .ok []
      pure (here ++ rest)

/-- The extents in device memory of bytes [lo, lo + n) of a source. -/
def segRange : List Seg → Nat → Nat → List (Nat × Nat)
  | [], _, _ => []
  | g :: t, lo, n =>
    let len := match g with | .mem _ l => l | .lit bs => bs.length
    if len ≤ lo then segRange t (lo - len) n
    else
      let k := min n (len - lo)
      (match g with | .mem va _ => [(va + lo, k)] | .lit _ => []) ++ if k < n then segRange t 0 (n - k) else []

/-- The extents of a source in device memory. -/
def segExts (gs : List Seg) : List (Nat × Nat) := gs.filterMap fun g => match g with | .mem va l => some (va, l) | .lit _ => none

/-- The digest of R111 over a payload: KIND 0 sums the blocks of compressed tiles, KIND 1 sums BF16 values. -/
def digestOf (kind step sender : Nat) (bs : List Byte) : List Byte :=
  let k := digKey step sender
  let ws := (List.range (bs.length / 4)).map fun i => num bs (4 * i) (4 * i + 3)
  let acc :=
    if kind = 0 then
      (List.range (bs.length / 192 * 32)).foldl
        (fun acc b =>
          let o := b / 32 * 192
          let w := num bs (o + 4 * (b % 32)) (o + 4 * (b % 32) + 3)
          let sc := num bs (o + 128 + 2 * (b % 32)) (o + 129 + 2 * (b % 32))
          digAdd acc (32 - 2 * (popcount 32 w : Int)) (fmtFP16.decode sc)) []
    else
      (List.range (bs.length / 2)).foldl (fun acc i => digAdd acc 1 (fmtBF16.decode (num bs (2 * i) (2 * i + 1)))) []
  digBytes (digHash k 0 ws) acc

/-- Why a message cannot start: an address that does not translate, or a status (R285, R295, Table 7.8). -/
inductive SrcFail where
  | page (x : Nat × TransFail)
  | status (st : Nat)
  deriving DecidableEq, Repr

/-- Check a message's whole source and add the digest that it carries (R266, R285). -/
def State.openSource (s : State) (p : Nat) (m : JMsg) : Except SrcFail JMsg :=
  let ex := segExts m.segs
  match s.vfailAny p ex false with
  | some x => .error (.page x)
  | none =>
    if ex.any fun x => s.vpoison p x.1 x.2 then .error (.status stPoisoned)
    else
      match m.dig with
      | none => .ok { m with started := true }
      | some (step, sender, chk) =>
        if chk ∧ (ex.any fun x => s.vcheckBad p x.1 x.2) then .error (.status stPoisoned)
        else if chk ∧ !(ex.all fun x => s.vchecked p x.1 x.2) then .error (.status stCheckMismatch)
        else
          match s.segBytes p m.segs 0 m.len with
          | .error x => .error (.page x)
          | .ok bs => .ok { m with started := true, segs := m.segs ++ [.lit (digestOf 1 step sender (bs.take (m.len - 64)) ++ List.replicate 48 0)] }

/-- The bytes of one packet of a message as they are read for it; a poisoned line stays on the device (R219, R266). -/
def State.pktBytes (s : State) (p : Nat) (m : JMsg) (lo n : Nat) : Except SrcFail (List Byte) :=
  match s.segBytes p m.segs lo n with
  | .error x => .error (.page x)
  | .ok bs => if (segRange m.segs lo n).any fun x => s.vpoison p x.1 x.2 then .error (.status stPoisoned) else .ok bs

/-- A message whose source fails: the page fault goes to the dispatch cores with SRC 4, and the context ends once the message has left by
`drop` (R295); a page held in the attic is migrated instead, and the message waits where it is (R215, Table 7.6). -/
def State.srcFailed (s : State) (p : Nat) (o : Owner) (e : SrcFail) (drop : State → State := id) : State :=
  match e with
  | .page (va, .migrate) => s.transFault p va .migrate 4 0 0 false 0
  | .page x => ((drop s).transFault p x.1 x.2 4 0 0 false 0).failOwner o stPageFault
  | .status st =>
    (if st = stCheckMismatch then (drop s).noteCheck else drop s).failOwner o st

/-- The fabric engine has read extents of a partition: the attic cache holds their blocks and the engine's cache their pages (R213, R218). -/
def State.srcTake (s : State) (p : Nat) (ex : List (Nat × Nat)) : State :=
  (ex.foldl (fun s x => s.vtake p x.1 x.2) s).enginePages fabEngine p (ex.flatMap fun x => pageRun x.1 x.2)

/-! Acknowledgement (R262, R265). -/

/-- One RTT sample in quarters of a tick (R265); divisions round down (log 42). -/
def Session.sample (y : Session) (t : Nat) : Session :=
  let floor := y.rtomin * 625
  match y.srtt with
  | none => { y with srtt := some t, rttvar := t / 2, rto := max floor (t + 4 * (t / 2)) }
  | some r =>
    let d := if t ≤ r then r - t else t - r
    let v := (3 * y.rttvar + d) / 4
    let r' := (7 * r + t) / 8
    { y with srtt := some r', rttvar := v, rto := max floor (r' + 4 * v) }

/-- The retransmission timeout that R265 computes, before any doubling. -/
def Session.rto0 (y : Session) : Nat :=
  match y.srtt with
  | none => 4 * y.rtomin * 625
  | some r => max (y.rtomin * 625) (r + 4 * y.rttvar)

/-- Take an acknowledgement: CACK, and the PSNs that the bitmap marks. A CACK below one already seen is ignored, not the bitmap (R262). -/
def Session.acked (y : Session) (cack : Nat) (got : List Nat) (now : Nat) : Session :=
  let c := max cack y.txCack
  let done (a : Unacked) : Bool := a.hdr.psn < c || got.contains a.hdr.psn
  let gone := y.unacked.filter done
  let y1 := { y with txCack := c, unacked := y.unacked.filter fun a => !done a }
  let y2 := if gone.isEmpty then y1 else { y1 with rto := y1.rto0 }
  let y3 := (gone.filter fun a => a.sends == 1).foldl (fun y a => y.sample (4 * (now - a.first))) y2
  { y3 with unacked := y3.unacked.map fun a =>
      if 3 ≤ (got.filter fun g => a.hdr.psn < g).length ∧ a.last * 4 + y3.srtt.getD 0 ≤ now * 4 then { a with again := true } else a }

/-- Whether a message has been sent whole and acknowledged whole. -/
def Session.msgDone (y : Session) (m : JMsg) : Bool := m.len ≤ m.next && y.unacked.all fun a => a.hdr.msgid != m.msgid

/-- Messages that an acknowledgement finished leave the session and complete for their commands; a draining session with nothing left
closes (R260, R262). -/
def State.settleSession (s : State) (n sid : Nat) : State :=
  let x := s.peer n
  match x.session sid with
  | none => s
  | some y =>
    let fin := y.msgs.filter y.msgDone
    let s1 := s.mapPeer n fun x => x.mapSid sid fun y => { y with msgs := y.msgs.filter fun m => !y.msgDone m }
    let s2 := s1.closeOld n
    (fin.map fun m => m.owner).foldl (fun s o => s.ownerDone x.part o) s2

def State.takeAck (s : State) (n sid cack : Nat) (got : List Nat) : State :=
  (s.mapPeer n fun x => x.mapSid sid fun y => y.acked cack got s.ltime).settleSession n sid

/-! Transmission (R261, R262, R266, R269). -/

/-- A packet that a session can send next: a queued retransmission, or the next piece of a begun message. -/
inductive NextPkt where
  | again (a : Unacked) (m : JMsg)
  | piece (m : JMsg)
  deriving DecidableEq, Repr

/-- The port that a packet goes out on, its payload, and whether it is a retransmission. -/
def NextPkt.port (k : NextPkt) : Nat := match k with | .again _ m => m.port | .piece m => m.port
def NextPkt.size (k : NextPkt) (maxpay : Nat) : Nat := match k with | .again a _ => a.len | .piece m => min maxpay (m.len - m.next)
def NextPkt.isAgain (k : NextPkt) : Bool := match k with | .again _ _ => true | .piece _ => false

/-- Whether a session may send another PSN: within its window, and, until its replacement is open, below 0xFFFF_FF00 (R260, R262). The last
PSNs serve the messages that a draining session holds (DEDUCED, log 209). -/
def Session.mayGo (y : Session) (win : Nat) (draining : Bool) : Bool :=
  y.txPsn < y.txCack + win && y.txPsn < if draining then 2 ^ 32 else 0xFFFFFF00

/-- What a session can send: retransmissions, then pieces of begun messages (R262). -/
def Session.next (y : Session) (win : Nat) (draining : Bool) : List NextPkt :=
  ((y.unacked.filter fun a => a.again).filterMap fun a => (y.msgs.find? fun m => m.msgid == a.hdr.msgid).map fun m => .again a m) ++
    if y.mayGo win draining then (y.msgs.filter fun m => m.next < m.len).map .piece else []

/-- Whether a port may send at the priority of Jigrail packets: it is up, its next hop is resolved, and PFC does not pause it (R249). -/
def State.portFree (s : State) (p : Nat) : Bool :=
  let x := s.fport p
  x.up && x.hop.isSome && !x.pauses s.fab.cfg.pcp

/-- Send a packet again, byte for byte, if its payload still has the CRC of its first transmission (R266). -/
def State.resend (s : State) (n sid : Nat) (a : Unacked) : State :=
  let x := s.peer n
  match x.session sid with
  | none => s
  | some y =>
    let m := y.msgs.find? fun m => m.msgid == a.hdr.msgid
    match m with
    | none => s
    | some m =>
      if !s.portFree m.port then s
      else
        let drop (s : State) : State := s.mapPeer n fun x => x.mapSid sid fun y =>
          { y with unacked := y.unacked.map fun b => if b.hdr.psn = a.hdr.psn then { b with again := false } else b }
        match s.pktBytes x.part m a.hdr.moff a.len with
        | .error e => s.srcFailed x.part m.owner e drop
        | .ok bs =>
          if crc32c bs ≠ a.crc then (drop s).failOwner m.owner stCheckMismatch
          else
            let s1 := (s.srcTake x.part (segRange m.segs a.hdr.moff a.len)).mapPeer n fun x =>
              { x.mapSid sid fun y =>
                  { y with unacked := y.unacked.map fun b =>
                      if b.hdr.psn = a.hdr.psn then { b with again := false, last := s.ltime, sends := b.sends + 1, port := m.port } else b }
                with retx := (x.retx + 1) % 2 ^ 16 }
            s1.onWire n m.port m.sport (y.sealPkt x.v2 { a.hdr with payload := bs })

/-- Send the next piece of a begun message for the first time. -/
def State.sendPiece (s : State) (n sid : Nat) (m : JMsg) : State :=
  let x := s.peer n
  match x.session sid with
  | none => s
  | some y =>
    if !s.portFree m.port then s
    else
      let k := min y.maxpay (m.len - m.next)
      match s.pktBytes x.part m m.next k with
      | .error e => s.srcFailed x.part m.owner e
      | .ok bs =>
        let h : JPkt := { ver := x.ver, typ := 0, flags := if m.next + k = m.len then 2 else 0, session := y.sidPeer, psn := y.txPsn,
                          cack := y.rxCack, msgid := m.msgid, moff := m.next, mlen := m.len, minfo := m.minfo, payload := [] }
        let s1 := (s.srcTake x.part (segRange m.segs m.next k)).mapPeer n fun x => x.mapSid sid fun y =>
          { y with
            txPsn := y.txPsn + 1
            ackOwed := 0
            msgs := y.msgs.map fun z => if z.msgid = m.msgid then { z with next := z.next + k } else z
            unacked := y.unacked ++ [⟨h, k, crc32c bs, s.ltime, s.ltime, 1, m.port, false⟩] }
        s1.onWire n m.port m.sport (y.sealPkt x.v2 { h with payload := bs })

/-- Begin the message at the head of the queue on the current session, if that may send another PSN: check its source, number it and pin it
(R260, R266, R269). -/
def State.beginMsg (s : State) (n : Nat) : State :=
  let x := s.peer n
  match x.cur, x.queue with
  | some y, m :: t =>
    match s.usable x, y.mayGo x.win false with
    | [], _ => s
    | _, false => s
    | u, true =>
      match s.openSource x.part m with
      | .error e => s.srcFailed x.part m.owner e fun s => s.mapPeer n fun x => { x with queue := t }
      | .ok m1 =>
        let m2 := ({ m1 with msgid := y.nextMsg }).pin y.sidPeer u
        (s.srcTake x.part (segExts m.segs)).mapPeer n fun x => { x with
          queue := t
          cur := x.cur.map fun y => { y with nextMsg := (y.nextMsg + 1) % 2 ^ 32, msgs := y.msgs ++ [m2] } }
  | _, _ => s

/-- What a peer can send on free ports, with this device's id of the session: retransmissions of both sessions, then pieces (R260, R269). -/
def State.sendable (s : State) (x : Peer) : List (Nat × NextPkt) :=
  let of (draining : Bool) (y : Session) : List (Nat × NextPkt) := (y.next x.win draining).map fun k => (y.sidMine, k)
  let ks := x.old.toList.flatMap (of true) ++ x.cur.toList.flatMap (of false)
  (ks.filter (fun k => k.2.isAgain) ++ ks.filter fun k => !k.2.isAgain).filter fun k => s.portFree k.2.port

/-- Bytes that a packet takes of its partition's share of a port: header, payload and tag. -/
def Peer.pktSize (x : Peer) (k : Nat × NextPkt) : Nat := 48 + k.2.size ((x.session k.1).elim 0 fun y => y.maxpay)

/-- Partitions with a packet ready for a port, retransmissions or new ones, with the size of their next one. -/
def State.portCands (s : State) (p : Nat) (again : Bool) : List (Nat × Nat) :=
  s.fab.peers.filterMap fun y => ((s.sendable y.2).find? fun k => k.2.port == p && k.2.isAgain == again).map fun k => (y.2.part, y.2.pktSize k)

/-- The quantum of a partition's turn: proportional to its reserved HBM share, one of no share counting as 1/64 (R269, log 196). -/
def State.quantum (s : State) (part : Nat) : Nat := 9216 * max 1 (s.part part).share

/-- The partition whose packet a port sends next by deficit round robin among `cands`, and the deficits then (R269). -/
def State.drrPick (s : State) (p : Nat) (cands : List (Nat × Nat)) : Option (Nat × Tab Nat) :=
  let x := s.fport p
  let d := x.deficits.filter fun y => cands.any fun c => c.1 == y.1
  match cands.find? fun c => c.1 == x.turn && c.2 ≤ Tab.get 0 d x.turn with
  | some c => some (c.1, Tab.put d c.1 (Tab.get 0 d c.1 - c.2))
  | none =>
    let key (c : Nat × Nat) : Nat := (c.1 + 63 - x.turn) % 64
    (listBest (fun a b => key a < key b) cands).map fun c => (c.1, Tab.put d c.1 (Tab.get 0 d c.1 + s.quantum c.1 - c.2))

/-- The round robin of a port once the packet `k` of a partition has its turn; none while another packet goes first: on each port
retransmissions go before new DATA (R269). -/
def State.portTurn (s : State) (part : Nat) (k : NextPkt) : Option (Tab Nat) :=
  let retx := s.portCands k.port true
  if !k.isAgain && !retx.isEmpty then none
  else
    match s.drrPick k.port (if k.isAgain then retx else s.portCands k.port false) with
    | some (q, d) => if q = part then some d else none
    | none => none

/-- Local time that a packet of `size` bytes takes at a peer's rate, in ticks (R268). A rate of 0, which a time without a usable port leaves,
counts as the lowest rate of R268, 1 Gbit/s (DESIGN CHOICE, log 209). -/
def paceTicks (rate size : Nat) : Nat := cdiv (8 * size * 156250000) (if rate = 0 then 1000000000 else rate)

/-- Send a packet that has its turn: the round robin of its port and the pacing of its peer move on (R266, R268, R269). -/
def State.sendOne (s : State) (n : Nat) (k : Nat × NextPkt) (d : Tab Nat) : State :=
  let x := s.peer n
  let s1 := s.mapPort k.2.port fun y => { y with turn := x.part, deficits := d }
  let s2 := s1.mapPeer n fun y => { y with paceAt := max y.paceAt s.ltime + paceTicks x.rate (x.pktSize k) }
  match k.2 with
  | .again a _ => s2.resend n k.1 a
  | .piece m => s2.sendPiece n k.1 m

/-- Send the first packet of a peer that has its turn on its port; none waits, or none has its turn: nothing is sent. -/
def State.sendNext (s : State) (n : Nat) : Option State :=
  let x := s.peer n
  (s.sendable x).findSome? fun k => (s.portTurn x.part k.2).map fun d => s.sendOne n k d

/-- DATA_TRANSMIT (R261, R262, R268, R269): paced at the peer's rate, retransmissions go before new DATA, and a draining session finishes
what it holds (R260); a peer with nothing to send begins its next message. -/
def execDataTransmit (n : Nat) (s : State) : Out :=
  if 4096 ≤ n then .next s
  else if s.ltime < (s.peer n).paceAt then .next s
  else if (s.sendable (s.peer n)).isEmpty then
    let s1 := s.beginMsg n
    .next ((s1.sendNext n).getD s1)
  else .next ((s.sendNext n).getD s)

/-- The timeout of the oldest unacknowledged packet of a session: the timeout doubles up to 10 ms, the rate halves down to 1 Gbit/s, and the
packet is to be sent again, paced and in its partition's turn as every retransmission (R265, R268, R269). -/
def State.timedOut (s : State) (n sid : Nat) (a : Unacked) : State :=
  let s1 := s.mapPeer n fun x =>
    { x.mapSid sid fun y =>
        { y with rto := min (2 * y.rto) (10000 * 625),
                 unacked := y.unacked.map fun b => if b.hdr.psn = a.hdr.psn then { b with again := true } else b }
      with rate := max (x.rate / 2) 1000000000, step := x.line / 64, cuts := 0, calm := 0 }
  if s1.ltime < (s1.peer n).paceAt then s1 else (s1.sendNext n).getD s1

/-- RETRANSMIT_TIMEOUT (R265, R268): the oldest unacknowledged PSN is to be sent again, rto doubles up to 10 ms, and the rate halves. -/
def execRetransmitTimeout (n : Nat) (s : State) : Out :=
  if 4096 ≤ n then .next s
  else
    let x := s.peer n
    match (x.old.toList ++ x.cur.toList).find? fun y => !y.unacked.isEmpty with
    | none => .next s
    | some y =>
      match y.unacked with
      | [] => .next s
      | a :: _ => .next (s.timedOut n y.sidMine a)

/-- One epoch of the rate control (R268). -/
def Peer.epoch (x : Peer) : Peer :=
  if x.cnpSeen then
    let c := min (x.cuts + 1) 4
    { x with cuts := c, rate := max (x.rate * (8 - c) / 8) 1000000000, step := x.line / 64, calm := 0, cnpSeen := false }
  else
    let m := x.calm + 1
    let st := if 8 ≤ m then min (2 * x.step) (x.line / 8) else x.step
    { x with calm := m, cuts := if 3 ≤ m then 0 else x.cuts, step := st, rate := min (x.rate + st) x.line }

/-- RATE_EPOCH (R268): a 64 µs epoch of local time ends. -/
def execRateEpoch (s : State) : Out :=
  .next (s.mapFab fun f => { f with peers := f.peers.map fun y => if y.2.st = .opened then (y.1, y.2.epoch) else y })

/-- ACK_TIMER (R264). -/
def execAckTimer (n : Nat) (s : State) : Out :=
  if 4096 ≤ n then .next s
  else
    let x := s.peer n
    match (x.cur.toList ++ x.old.toList).find? fun y => 0 < y.ackOwed with
    | some y => .next (s.sendAck n y.sidMine)
    | none => .next s

end Sys2Proof.Machine
end

