-- ==== Sys2Proof/Machine/Votes.lean ====
section
/-! DEFINITION. The group of a partition, its rounds, votes and decisions (R273 to R277, R287 to R291). -/

namespace Sys2Proof.Machine

/-! The group of a partition (Table 10.1). -/

def State.coll (s : State) (p : Nat) : Coll := Tab.get {} s.colls p
def State.mapColl (s : State) (p : Nat) (f : Coll → Coll) : State := { s with colls := Tab.put s.colls p (f (s.coll p)) }
def Coll.n (c : Coll) : Nat := num c.desc 0 1
def Coll.self (c : Coll) : Nat := num c.desc 2 3
def Coll.coord (c : Coll) : Nat := num c.desc 4 5
def Coll.pidxOf (c : Coll) (i : Nat) : Nat := num c.desc (128 + 8 * i) (129 + 8 * i)
def Coll.rreg (c : Coll) (i : Nat) : Nat := num c.desc (130 + 8 * i) (130 + 8 * i)

/-- The member whose peer index is given (R276). -/
def Coll.memberOf (c : Coll) (pidx : Nat) : Option Nat :=
  (List.range c.n).find? fun i => i != c.self && c.pidxOf i == pidx

def Coll.maxrep (c : Coll) : Nat := num c.desc 6 6
def Coll.window (c : Coll) : Nat := num c.desc 8 11
def Coll.votet (c : Coll) : Nat := num c.desc 12 15
def Coll.shardblk (c : Coll) : Nat := num c.desc 16 19
def Coll.sendbuf (c : Coll) : Nat := num c.desc 24 31
def Coll.recvbuf (c : Coll) : Nat := num c.desc 32 39
def Coll.err (c : Coll) : Nat := num c.desc 40 47
def Coll.errNx (c : Coll) : Nat := num c.desc 48 55
def Coll.errpg (c : Coll) : Nat := num c.desc 56 59
def Coll.rbuf (c : Coll) (dir : Nat) : Nat := num c.desc (64 + 8 * dir) (71 + 8 * dir)
def Coll.rslot (c : Coll) : Nat := num c.desc 80 83
def Coll.rsucc (c : Coll) : Nat := num c.desc 84 85
def Coll.rpred (c : Coll) : Nat := num c.desc 86 87
def Coll.rxc (c : Coll) (dir : Nat) : Nat := num c.desc (88 + 2 * dir) (89 + 2 * dir)
def Coll.rxt (c : Coll) (dir : Nat) : Nat := num c.desc (92 + dir) (92 + dir)

def Coll.cps (c : Coll) : Nat := cdiv c.shardblk 10912
def Coll.bps (c : Coll) : Nat := cdiv c.shardblk 1023
/-- Tiles of contribution chunk `j` (R275). -/
def Coll.tiles (c : Coll) (j : Nat) : Nat := min 341 (cdiv (c.shardblk - 10912 * j) 32)
/-- Blocks of broadcast chunk `j` (R275). -/
def Coll.blocks (c : Coll) (j : Nat) : Nat := min 1023 (c.shardblk - 1023 * j)
/-- Bytes of one half of RECVBUF (Table 10.1). -/
def Coll.half (c : Coll) : Nat := roundUp (c.n * c.cps * 65536) (2 ^ 21)

/-- STEP of a digest of round (s, a) (R277). -/
def roundKey (step att : Nat) : Nat := step % 2 ^ 24 * 256 + att

/-- MINFO of a message of the current round (Table 10.3). -/
def Coll.minfo (c : Coll) (kind index : Nat) : Nat := fld kind 30 + fld (c.step % 256) 22 + fld c.att 18 + index

/-- The peer slot of a partition's peer index. -/
def State.slotOf (s : State) (p pidx : Nat) : Option Nat :=
  (s.fab.peers.find? fun y => y.2.part == p && y.2.pidx == pidx && y.2.st != .unused).map (·.1)

/-- Whether the group names a version 2 peer (R293). -/
def State.namesV2 (s : State) (p : Nat) (c : Coll) : Bool :=
  (List.range c.n).any fun i => i != c.self && (s.slotOf p (c.pidxOf i)).any fun n => (s.peer n).v2

/-! The vote and the decision (R287 to R291). -/

/-- VERDICT as a vote carries it: [1] DIGEST, [0] LATE (log 46). -/
def Coll.verdict (c : Coll) : Nat := b01 c.late + 2 * b01 c.digest

/-- The 64 bytes of a vote or decision: s, a, outcome, member, VERDICT (R287, R288). -/
def voteBytes (step att out member verdict : Nat) : List Byte :=
  leBytes 4 step ++ leBytes 1 att ++ leBytes 1 out ++ leBytes 2 member ++ leBytes 4 verdict ++ List.replicate 52 0

/-- Send 64 bytes of KIND 2 to a member; its peer fails the message when it has no entry. -/
def State.sendVote (s : State) (p member index : Nat) (bs : List Byte) : State :=
  let c := s.coll p
  match s.slotOf p (c.pidxOf member) with
  | none => s
  | some n => s.queueMsg n { owner := .vote, minfo := c.minfo 2 index, segs := [.lit bs], len := 64 }

/-- Signal a token of a resident or swapped-out context of a core. -/
def State.signalTok (s : State) (core lctx t : Nat) : State := if t = 0xF then s else s.mapCore core fun k => k.signal lctx (2 ^ t)

/-- A waiting OWNER_SUM issues and completes without writing: it leaves its buffer, and its SIG token is signalled (R283). -/
def Ctx.dropHead (c : Ctx) (w : Cmd) : Ctx :=
  let c1 := { c with
    tokens := tokTake c.tokens (waitMask c.bank w), issued := c.issued + 1, budSkips := 0, rdyAt := none, waitAt := none, cause := 0 }
  if c.inj.head? = some w then { c1 with inj := c.inj.tail }
  else if c.buf.head?.any fun f => f.w == w then { c1 with buf := c.buf.tail }
  else c

def State.endSum (s : State) (p : Nat) (x : OwnSum) (status : Option Nat) : State :=
  let s1 := s.mapColl p fun c => { c with sums := c.sums.filter fun y => !(y.core == x.core && y.lctx == x.lctx) }
  let rate := classRate (classOf (((s.core x.core).ctx? x.lctx).getD {}) x.cmd 4)
  let s2 := (s1.charge (clusterOf x.core) rate 1).mapCore x.core fun k =>
    let k1 := k.mapCtx x.lctx fun c => { c.dropHead x.cmd with lastStatus := status.getD c.lastStatus }
    (if sigOf x.cmd = 0xF then k1 else k1.signal x.lctx (2 ^ sigOf x.cmd)).refresh
  match (s2.core x.core).findSlot x.lctx with
  | some n => s2.badHead x.core n
  | none => s2

/-- The status that an OWNER_SUM which writes nothing posts: PEER_LATE if the contribution window has closed (R283). -/
def Coll.sumStatus (c : Coll) : Option Nat := if c.winDone then some stPeerLate else none

/-- A context to which an OWNER_SUM posts that status. -/
def Ctx.sumPosts (x : Ctx) (c : Coll) : Ctx := { x with lastStatus := c.sumStatus.getD x.lastStatus }

/-- Every CONTRIB and PARAM_BCAST of the round completes, sending nothing further, and every OWNER_SUM completes without writing
(R280, R283, R285, Table 10.4). -/
def State.endRoundWork (s : State) (p : Nat) : State :=
  let c := s.coll p
  let isSend (m : JMsg) : Bool := match m.owner with | .cmd core _ id => c.sends.contains (core, id) | .vote => false
  let s1 := (s.stopMsgs isSend).mapColl p fun c => { c with sends := [] }
  let s2 := c.sends.foldl (fun s x => s.mapCore x.1 fun k => k.complete x.2) s1
  let s3 := c.sums.foldl (fun s x => s.endSum p x c.sumStatus) s2
  let isOwn (r : VecRun) : Bool := opcodeOf r.cmd == 0x91
  (s3.coresOf p).foldl
    (fun s n =>
      let k := s.core n
      let s1 := match k.vec with
        | some r => if isOwn r then s.mapCore n fun k => (({ k with vec := none } : Core).mapCtx r.lctx fun x => x.sumPosts c).complete r.id else s
        | none => s
      let drop (s : State) (lctx : Nat) (v : Option VecRun) : State :=
        match v with
        | some r => if isOwn r then s.mapCore n fun k => (k.mapCtx lctx fun x => { x.sumPosts c with vsusp := none }).complete r.id else s
        | none => s
      let s2 := k.slots.foldl (fun s x => drop s x.2.lctx x.2.vsusp) s1
      k.images.foldl (fun s x => drop s x.1 x.2.vsusp) s2) s3

/-- End the STEP_BEGIN that runs, if one does (R343). -/
def State.endStepBegin (s : State) (p status : Nat) : State :=
  match (s.coll p).stepBegin with
  | none => s
  | some (port, ring, tag, n) => (s.mapColl p fun c => { c with stepBegin := none }).finishLong port ring tag status 0 n

/-- The next round begins at (step, att): the parity flips, the next round's verdict and landings become the current ones (R289). -/
def Coll.advance (c : Coll) (step att : Nat) : Coll :=
  { c with
    step := step % 2 ^ 24, att := att, par := 1 - c.par, dec := 0, voted := false, decided := false
    digest := c.ndigest, late := c.nlate, ndigest := false, nlate := false
    landed := c.landedN, landedN := [], winAt := c.winAtN, winDone := c.winDoneN, winAtN := none, winDoneN := false
    bwinAt := none, bwinDone := false, bland := [], opened := []
    votes := c.votes.filter fun v => !(num v 0 3 % 2 ^ 24 == c.step && num v 4 4 == c.att) }

/-- A pending STEP_VOTE meets the decision held (R289). -/
def State.closeVote (s : State) (p : Nat) : State :=
  let c := s.coll p
  match c.vote with
  | none => if c.dec = 3 then s.endStepBegin p stStepRepeat else s
  | some v =>
    let fin (s : State) (t : Nat) : State := (((s.mapCore v.core fun k => k.complete v.id).signalTok v.core v.lctx t).mapCore v.core Core.refresh).badHead v.core v.slot
    match c.dec with
    | 1 =>
      let pairs := (List.range c.errpg).map fun i => (c.err / 2 ^ 21 + i, c.errNx / 2 ^ 21 + i)
      let s1 := s.mapPart p fun pt => pairs.foldl (fun pt x => pt.exchange x.1 x.2) pt
      let s2 := s1.invalidate p (pairs.flatMap fun x => [x.1, x.2])
      let s3 := s2.mapColl p fun c => { c.advance (c.step + 1) 0 with vote := none }
      (fin s3 v.ctok).endStepBegin p stOk
    | 2 =>
      let s1 := s.mapColl p fun c => { c.advance c.step (c.att + 1) with vote := none }
      fin (s1.mapCore v.core fun k => k.mapCtx v.lctx fun x => { x with lastStatus := stStepRepeat }) v.rtok
    | 3 => ((s.mapColl p fun c => { c with vote := none }).endStepBegin p stStepRepeat).faultCtx v.core v.lctx stStepRepeat
    | _ => s

/-- A decision is recorded as it arrives: the step ledger, the rounds decided, and the progress of a STEP_BEGIN (R291, R343). -/
def State.recordDecision (s : State) (p : Nat) (bs : List Byte) : State :=
  let c := s.coll p
  let i := c.rounds % 128
  let e := bs.take 12 ++ leBytes 4 s.ltime
  let s1 := s.mapPart p fun pt =>
    { pt with
      ledger := Tab.put (Tab.put pt.ledger (2 * i) (BitVec.ofNat 64 (num e 0 7))) (2 * i + 1) (BitVec.ofNat 64 (num e 8 15))
      ledgerNew := some i
      progress := match c.stepBegin with
        | some b => if pt.progOp = some (b.1, b.2.1, b.2.2.1) then pt.progress + 1 else pt.progress
        | none => pt.progress }
  s1.mapColl p fun c =>
    { c with
      rounds := c.rounds + 1
      cRepeats := if num bs 5 5 = 1 then c.cRepeats else sat16 c.cRepeats 1
      stepBegin := c.stepBegin.map fun x => (x.1, x.2.1, x.2.2.1, x.2.2.2 + 1) }

/-- The decision of the current round is held: the round's work completes (R280, R283, R285). -/
def State.takeDecision (s : State) (p : Nat) (bs : List Byte) : State := (s.mapColl p fun c => { c with dec := num bs 5 5 }).endRoundWork p

/-- What the coordinator decides from the votes that it holds of the current round: outcome, member and VERDICT (R288). -/
def Coll.verdictOf (c : Coll) : Option (Nat × Nat × Nat) :=
  if c.decided ∨ c.dec ≠ 0 ∨ c.self ≠ c.coord ∨ !c.en then none
  else
    let vs := c.votes.filter fun v => num v 0 3 % 2 ^ 24 == c.step && num v 4 4 == c.att
    match vs.find? fun v => num v 5 5 == 2 with
    | some v => some (2, num v 6 7, num v 8 11)
    | none =>
      let ready := ((vs.filter fun v => num v 5 5 == 1).map fun v => num v 6 7).eraseDups
      if c.n ≤ ready.length then some (1, 0, 0) else none

/-- The coordinator's decision, written to its ledger and sent to every member; ABORT in place of one repeat too many (R288). -/
def State.announce (s : State) (p : Nat) (x : Nat × Nat × Nat) : State × List Byte :=
  let c := s.coll p
  let out := if x.1 = 2 ∧ c.maxrep < c.att + 1 then 3 else x.1
  let bs := voteBytes c.step c.att out x.2.1 x.2.2
  let s1 := (s.mapColl p fun c => { c with decided := true }).recordDecision p bs
  (((List.range c.n).filter fun i => i != c.self).foldl (fun s i => s.sendVote p i 1 bs) s1, bs)

/-- A round that has just become current meets what arrived for it before: a decision, or the votes the coordinator holds (R288, R289). -/
def State.newRound (s : State) (p : Nat) : State :=
  let c := s.coll p
  match c.early with
  | bs :: rest => (s.mapColl p fun c => { c with early := rest }).takeDecision p bs
  | [] =>
    match c.verdictOf with
    | none => s
    | some x => let y := s.announce p x; y.1.takeDecision p y.2

/-- A pending STEP_VOTE meets the decision held; the next round begins unless it is ABORT (R289). -/
def State.completeVote (s : State) (p : Nat) : State :=
  let c := s.coll p
  if c.vote.isSome ∧ (c.dec = 1 ∨ c.dec = 2) then (s.closeVote p).newRound p else s.closeVote p

/-- The coordinator decides, and acts on its decision (R288). -/
def State.decide (s : State) (p : Nat) (x : Nat × Nat × Nat) : State :=
  let y := s.announce p x
  (y.1.takeDecision p y.2).completeVote p

/-- What the coordinator does with the votes it holds for the current round (R288). -/
def State.tally (s : State) (p : Nat) : State :=
  match (s.coll p).verdictOf with
  | none => s
  | some x => s.decide p x

/-- The round after an outcome, if one begins (R277, R289). -/
def roundAfter (x : Nat × Nat) (out : Nat) : Option (Nat × Nat) :=
  if out = 1 then some ((x.1 + 1) % 2 ^ 24, 0) else if out = 2 then some (x.1, x.2 + 1) else none

/-- The round whose decision this device does not hold yet: the current one, or the one after the decisions that it holds (R289). -/
def Coll.awaited (c : Coll) : Option (Nat × Nat) :=
  if c.dec = 0 then some (c.step, c.att)
  else (c.dec :: c.early.map fun b => num b 5 5).foldl (fun r out => r.bind fun x => roundAfter x out) (some (c.step, c.att))

/-- Send this device's vote: 1 READY or 2 REPEAT (R287). -/
def State.castVote (s : State) (p vote verdict : Nat) : State :=
  let c := s.coll p
  let bs := voteBytes c.step c.att vote c.self verdict
  let s1 := s.mapColl p fun c => { c with voted := true, votedAt := s.ltime }
  if c.self = c.coord then (s1.mapColl p fun c => { c with votes := c.votes ++ [bs.take 12] }).tally p else s1.sendVote p c.coord 0 bs

/-- A waiting STEP_VOTE votes REPEAT as soon as a VERDICT bit is set (R287). -/
def State.voteCheck (s : State) (p : Nat) : State :=
  let c := s.coll p
  match c.vote with
  | none => s
  | some v => if c.en ∧ !c.voted ∧ c.dec = 0 ∧ (v.force ∨ c.late ∨ c.digest) then s.castVote p 2 c.verdict else s

/-- A member whose peer goes DOWN or FAILED sets VERDICT.LATE at once (R282). -/
def State.peerLost (s : State) (n : Nat) : State :=
  let x := s.peer n
  let c := s.coll x.part
  if c.en ∧ (c.memberOf x.pidx).isSome then (s.mapColl x.part fun c => { c with late := true }).voteCheck x.part else s

end Sys2Proof.Machine
end

