-- ==== Sys2Proof/Machine/Handshake.lean ====
section
/-! DEFINITION. Ingress stages, handshakes, receipt of DATA, ACK and CNP, and the life of a peer (R251 to R264, R267, R268). -/

namespace Sys2Proof.Machine

/-- Messages fail with a status: their commands' contexts end with it (Table 9.7, R254). -/
def State.failMsgs (s : State) (ms : List JMsg) (status : Nat) : State :=
  (ms.map fun m => m.owner).foldl (fun s o => s.failOwner o status) s

/-- Bytes of a port's receive buffer that accepted packets take (R249). -/
def State.rxFill (s : State) (p : Nat) : Nat :=
  (s.fab.peers.map fun y => ((y.2.rx.filter fun r => r.port == p).map fun r => r.size).sum).sum

/-- XOFF goes out when a port's receive buffer passes 768 KiB, and XON when it falls below 512 KiB, with PFC enabled (R249). -/
def State.pfcOff (s : State) (p : Nat) : State :=
  let x := s.fport p
  if x.pfcen && !x.xoff && Decidable.decide (768 * 1024 < s.rxFill p) then (s.mapPort p fun x => { x with xoff := true }).onLink (.pause p x.pfcpri true)
  else s
def State.pfcOn (s : State) (p : Nat) : State :=
  let x := s.fport p
  if x.xoff && Decidable.decide (s.rxFill p < 512 * 1024) then (s.mapPort p fun x => { x with xoff := false }).onLink (.pause p x.pfcpri false)
  else s

/-- Close the sessions of a peer and drop its messages, which fail with a status (R254, Table 9.7). -/
def State.closePeer (s : State) (n status : Nat) (st : PeerSt) : State :=
  let x := s.peer n
  let ms := x.allMsgs
  let s1 := s.mapPeer n fun x =>
    { x with st := st, cur := none, old := none, hs := none, queue := [], rx := [], hsRx := [], cnpSeen := false }
  ((x.rx.map fun r => r.port).foldl State.pfcOn s1).failMsgs ms status

/-- Remove a peer's entry (R254). -/
def State.removePeer (s : State) (n : Nat) : State :=
  (s.closePeer n stDenied .unused).mapFab fun f => { f with peers := Tab.del f.peers n }

/-! Handshakes (R255 to R258). -/

/-- Label of a handshake hash for the peer's version (R255, Table 9.10). -/
def Peer.label (x : Peer) (tail : String) : List Byte := ascii (if x.v2 then "JIGRAIL2" else "JIGRAIL3") ++ ascii tail

/-- h1 and h2 of R255. -/
def Peer.h1 (x : Peer) (initPay respPay : List Byte) : List Byte :=
  shake256 (x.label "-RESP" ++ initPay ++ respPay.take (32 + 1088 + 4 + 12602)) 64
def Peer.h2 (x : Peer) (h1 sigr sidi : List Byte) : List Byte := shake256 (x.label "-FIN" ++ h1 ++ sigr ++ sidi) 64
def Peer.okm (x : Peer) (ss h2 : List Byte) : List Byte := shake256 (x.label "-KEYS" ++ sized 32 ss ++ h2) 72

/-- SIGR at the end of a HS_RESP payload. -/
def sigrOf (respPay : List Byte) : List Byte := slice respPay 13726 17034

/-- Why a peer's side of a handshake fails, as a REASON of Table 9.6: certificate, identity digest, signature (R256). -/
def State.hsCheck (s : State) (x : Peer) (chain msg sig : List Byte) : Option Nat :=
  match s.chainKey chain with
  | none => some 1
  | some key => if shake256 key 32 ≠ x.iddig then some 2 else if Config.dsaVerify key msg sig then none else some 3

/-- Handshake over without a session: a peer in HANDSHAKE becomes FAILED and its queued messages fail with AUTH_FAIL (Table 9.7). -/
def State.hsEnd (s : State) (n : Nat) : State :=
  let x := s.peer n
  if x.st = .handshake then
    let ms := x.queue
    ((s.mapPeer n fun x => { x with st := .failed, hs := none, queue := [], hsRx := [] }).failMsgs ms stAuthFail).peerLost n
  else s.mapPeer n fun x => { x with hs := none, hsRx := [] }

/-- A check of R256 fails here: HS_REJECT goes out, AUTHFAIL counts, the partition is told, the handshake is abandoned. -/
def State.hsFail (s : State) (n reason : Nat) : State :=
  let x := s.peer n
  let s1 := (s.sendHs n 0xB (leBytes 4 reason)).mapJcnt fun c => { c with authfail := sat16 c.authfail 1 }
  (s1.notice x.part ⟨1, stAuthFail, x.pidx % 4096, 0⟩).hsEnd n

/-- Start a handshake as the initiator; without its identity key the device starts none (R255, R257, R401). -/
def State.hsStart (s : State) (n : Nat) : State :=
  if !s.boot.idok then s
  else
  let (ni, s1) := s.random
  let (seed, s2) := s1.random
  let kp := Config.kemKeyGen seed
  let pay := ni ++ sized 1184 kp.1 ++ s2.ownChain
  let s3 := s2.mapPeer n fun x =>
    { x with
      st := if x.st = .opened then .opened else .handshake
      hs := some { init := true, tries := 1, stage := 0, initPay := pay, dk := kp.2 } }
  s3.sendHs n 0x8 pay

/-- Answer a HS_INIT as the responder (R255). -/
def State.hsRespond (s : State) (n : Nat) (initPay : List Byte) : State :=
  let x := s.peer n
  let (nr, s1) := s.random
  let (seed, s2) := s1.random
  let e := Config.kemEncaps (slice initPay 32 1215) seed
  let sid := s2.fab.nextSid
  let s3 := s2.mapFab fun f => { f with nextSid := f.nextSid + 1 }
  let pre := nr ++ sized 1088 e.1 ++ leBytes 4 sid ++ s3.ownChain
  let resp := pre ++ sized 3309 (Config.dsaSign s3.boot.idKey (x.h1 initPay pre))
  let s4 := s3.mapPeer n fun x =>
    { x with
      st := if x.st = .opened then .opened else .handshake
      hs := some { init := false, tries := 0, stage := 1, initPay := initPay, respPay := resp, ss := e.2, sidMine := sid } }
  s4.sendHs n 0x9 resp

/-- The session that a handshake opens (R255, R272). -/
def State.sessionOf (s : State) (x : Peer) (h : Hs) : Session :=
  { sidMine := h.sidMine, sidPeer := h.sidPeer, init := h.init, kir := slice h.okm 0 31, kri := slice h.okm 32 63,
    ivir := slice h.okm 64 67, ivri := slice h.okm 68 71, openedAt := s.ltime, maxpay := s.maxPay x, rtomin := s.fab.cfg.rtomin,
    deadt := s.fab.cfg.deadt, rto := 4 * s.fab.cfg.rtomin * 625 }

/-- Open the session of a finished handshake. The session that was current drains; one that still drained is closed (R258, R260, log 44). -/
def State.hsOpen (s : State) (n : Nat) : State :=
  let x := s.peer n
  match x.hs with
  | none => s
  | some h =>
    let y := s.sessionOf x h
    let lost := (x.old.toList.flatMap fun z => z.msgs)
    let line := s.lineOf x
    let fresh := x.st != .opened
    let s1 := s.mapPeer n fun x =>
      { x with
        st := .opened, hs := none, hsRx := [], cur := some y
        old := x.cur.filter fun z => !z.quiet
        line := line
        rate := if fresh then line else x.rate
        step := if fresh then line / 64 else x.step
        cuts := if fresh then 0 else x.cuts
        calm := if fresh then 0 else x.calm
        cnpSeen := !fresh && x.cnpSeen
        paceAt := if fresh then s.ltime else x.paceAt
        noPortAt := if (s.usable x).isEmpty then some s.ltime else none }
    (s1.mapJcnt fun c => { c with hsok := sat16 c.hsok 1 }).failMsgs lost stDenied

/-- HANDSHAKE_START (R257): a message is queued to a peer that has no session open or opening. -/
def execHandshakeStart (n : Nat) (s : State) : Out :=
  if 4096 ≤ n then .next s
  else
    let x := s.peer n
    .next (if x.st = .idle ∧ !x.queue.isEmpty then s.hsStart n else s)

/-- The next PSN of the direction toward this device: past every one received. -/
def Session.rxNext (y : Session) : Nat := y.rxGot.foldl (fun a p => max a (p + 1)) y.rxCack

/-- Ticks of local time in a millisecond and in a second. -/
def ticksMs : Nat := 156250
def ticksSec : Nat := 156250000

/-- Whether a session is due for a rekey: the next PSN of a direction has reached 0xF000_0000, or 3,600 s have passed since it opened, which
does not count in version 2 (R260, Table 9.10). -/
def State.rekeyDue (s : State) (x : Peer) (y : Session) : Bool :=
  0xF0000000 ≤ y.txPsn || 0xF0000000 ≤ y.rxNext || (!x.v2 && y.openedAt + 3600 * ticksSec ≤ s.ltime)

/-- REKEY (R260): a new handshake starts while the session goes on. -/
def execRekey (n : Nat) (s : State) : Out :=
  if 4096 ≤ n then .next s
  else
    let x := s.peer n
    .next (if x.st = .opened ∧ x.hs.isNone ∧ x.old.isNone ∧ x.cur.any (s.rekeyDue x) then s.hsStart n else s)

/-- HS_INIT_RETRY (R257, R258): HS_INIT is sent again, at most 4 times in all; with 4 unanswered the peer is FAILED. -/
def execHsInitRetry (n : Nat) (s : State) : Out :=
  if 4096 ≤ n then .next s
  else
    match (s.peer n).hs with
    | none => .next s
    | some h =>
      if !h.init ∨ h.crossed then .next s
      else if h.tries < 4 then
        .next ((s.mapPeer n fun x => { x with hs := some { h with tries := h.tries + 1 } }).sendHs n 0x8 h.initPay)
      else .next (if h.stage = 0 then s.hsEnd n else s)

/-- HANDSHAKE_CROSS_RETRY (R257): the random delay after equal NI values is over. -/
def execHandshakeCrossRetry (n : Nat) (s : State) : Out :=
  if 4096 ≤ n then .next s
  else
    match (s.peer n).hs with
    | some h => .next (if h.crossed then s.hsStart n else s)
    | none => .next s

/-! Ingress (R252). -/

/-- What the MAC and IP stages make of a frame: dropped at stage 1 or 2, handled elsewhere (ARP, Neighbor Discovery), or a datagram
with its source and destination addresses as IPv6, source port, CE mark and UDP data. -/
inductive Ingress where
  | mac
  | noaddr
  | other
  | udp (src dst : List Byte) (sport dport : Nat) (ce : Bool) (data : List Byte)
  deriving DecidableEq, Repr

/-- UDP of an IP payload: ports, length, checksum over the pseudo-header (Table 9.3). -/
def udpOf (src dst : List Byte) (pseudo : Nat) (v6 ce : Bool) (b : List Byte) : Ingress :=
  let len := netNum b 4 5
  let ck := netNum b 6 7
  if b.length < 8 ∨ len < 8 ∨ b.length < len then .noaddr
  else if ck = 0 ∧ v6 then .noaddr
  else if ck ≠ 0 ∧ fold16 (fold16 (pseudo + 17 + len + sum16 (b.take len))) ≠ 65535 then .noaddr
  else .udp src dst (netNum b 0 1) (netNum b 2 3) ce ((b.take len).drop 8)

/-- The IP stage (Table 9.3): no extension headers, options or fragments. -/
def ipOf (etype : Nat) (b : List Byte) : Ingress :=
  if etype = 0x86DD then
    let tc := num b 0 0 % 16 * 16 + num b 1 1 / 16
    let pl := netNum b 4 5
    if num b 0 0 / 16 ≠ 6 ∨ b.length < 40 + pl then .noaddr
    else if num b 6 6 = 58 ∧ (num b 40 40 = 135 ∨ num b 40 40 = 136) then .other
    else if num b 6 6 ≠ 17 then .noaddr
    else udpOf (slice b 8 23) (slice b 24 39) (sum16 (slice b 8 39)) true (tc % 4 == 3) ((b.drop 40).take pl)
  else
    let tl := netNum b 2 3
    let map4 (x : List Byte) : List Byte := List.replicate 10 0 ++ [0xFF, 0xFF] ++ x
    if num b 0 0 ≠ 0x45 ∨ b.length < tl ∨ tl < 20 ∨ netNum b 6 7 % 0x4000 ≠ 0 ∨ num b 9 9 ≠ 17 then .noaddr
    else if fold16 (sum16 (b.take 20)) ≠ 65535 then .noaddr
    else udpOf (map4 (slice b 12 15)) (map4 (slice b 16 19)) (sum16 (slice b 12 19)) false (num b 1 1 % 4 == 3) ((b.take tl).drop 20)

/-- Stages 1 and 2: length, FCS, VID and EtherType, then IP (Table 9.3). -/
def State.ingress (s : State) (f : Frame) : Ingress :=
  let b := f.bytes.take (f.bytes.length - 4)
  let tagged := netNum b 12 13 = 0x8100
  let vid := (s.fport f.port).vid
  let etype := if tagged then netNum b 16 17 else netNum b 12 13
  if f.bytes.length < 64 ∨ 9216 < f.bytes.length ∨ !f.fcsOk then .mac
  else if (if tagged then netNum b 14 15 % 4096 ≠ vid else vid ≠ 0) then .mac
  else if etype = 0x0806 ∨ (etype = 0x8808 ∧ (s.fport f.port).pfcen) then .other
  else if etype = 0x86DD ∨ etype = 0x0800 then ipOf etype (b.drop (if tagged then 18 else 14))
  else .mac

/-- The peer slot that a datagram's source names: an entry of the partition with that address, the one that holds the packet's session
first (R252, log 45). -/
def State.sourceOf (s : State) (part : Nat) (src : List Byte) (sport session : Nat) : Option Nat :=
  if sport < 49152 then none
  else
    let c := s.fab.peers.filter fun y => y.2.part == part && y.2.valid && y.2.addr == src && y.2.st != .unused
    match c.find? fun y => (y.2.session session).isSome || y.2.hs.any fun h => h.sidMine == session && session != 0 with
    | some y => some y.1
    | none => c.head?.map fun y => y.1

/-- Accept a packet for its own event; it stays in the port's receive buffer until then. -/
def State.acceptPkt (s : State) (n port : Nat) (ce : Bool) (size : Nat) (k : JPkt) : State :=
  (s.mapPeer n fun x => { x with rx := x.rx ++ [⟨k, ce, port, s.ltime, size⟩] }).pfcOff port

/-- Stage 6: session, tag and window (R252, R259, R262). An ACK that fails its tag while its session opens is a signature failure
(R256). -/
def State.stage6 (s : State) (n port : Nat) (ce : Bool) (size : Nat) (hdr body : List Byte) (k : JPkt) : State :=
  let x := s.peer n
  let bad (s : State) : State := s.mapJcnt fun c => { c with tagfail := sat16 c.tagfail 1 }
  let win (s : State) : State := s.mapJcnt fun c => { c with window := satW 12 c.window 1 }
  match x.session k.session with
  | some y =>
    match y.openPkt x.v2 hdr body k with
    | none => bad s
    | some pl =>
      if k.typ = 0 then
        if y.rxCack + x.win ≤ k.psn then win s else s.acceptPkt n port ce size { k with payload := pl }
      else if y.ctlRx.any fun c => k.psn ≤ c then win s
      else
        (s.mapPeer n fun x => x.mapSid y.sidMine fun y => { y with ctlRx := some k.psn }).acceptPkt n port ce size { k with payload := pl }
  | none =>
    match x.hs with
    | some h =>
      if h.stage = 2 ∧ h.sidMine = k.session ∧ k.typ = 1 then
        match (s.sessionOf x h).openPkt x.v2 hdr body k with
        | none => (bad s).hsFail n 3
        | some pl => s.acceptPkt n port ce size { k with payload := pl }
      else bad s
    | none => bad s

/-- Count a datagram that names no address or port of this device, and one of a wrong version, type or length (Table 9.14). -/
def State.noAddr (s : State) : State := s.mapJcnt fun c => { c with noaddr := satW 12 c.noaddr 1 }
def State.badVer (s : State) : State := s.mapJcnt fun c => { c with badver := satW 12 c.badver 1 }

/-- FRAME_RECEIVE (R249, R252, Table 9.5): a frame that the port's 1 MiB receive buffer cannot take is dropped. -/
def execFrameReceive (f : Frame) (s : State) : Out :=
  if 64 ≤ f.port then .next s
  else if !(s.fport f.port).up ∨ 2 ^ 20 < s.rxFill f.port + f.bytes.length then .next s
  else
    match s.ingress f with
    | .mac => .next (s.mapPort f.port fun x => { x with macdrop := sat16 x.macdrop 1 })
    | .noaddr => .next s.noAddr
    | .other => .next s
    | .udp src dst sport dport ce data =>
      match s.fab.addrs.find? fun y => y.2 == dst with
      | none => .next s.noAddr
      | some (part, _) =>
        if dport ≠ s.fab.cfg.udp ∧ dport ≠ s.fab.cfg.udp2 then .next s.noAddr
        else
          let hdr := data.take 32
          let body := data.drop 32
          let k := readPkt hdr []
          match s.sourceOf part src sport k.session with
          | none => .next (s.mapJcnt fun c => { c with stranger := satW 12 c.stranger 1 })
          | some n =>
            let x := s.peer n
            if data.length < 32 ∨ body.length < num hdr 2 3 ∨ k.ver ≠ x.ver then .next s.badVer
            else if 8 ≤ k.typ ∧ k.typ ≤ 0xB then
              let k1 := { k with payload := body.take (num hdr 2 3) }
              if k.typ = 8 then
                if (s.fport f.port).bucket = 0 then .next (s.mapJcnt fun c => { c with ratelim := sat16 c.ratelim 1 })
                else .next ((s.mapPort f.port fun x => { x with bucket := x.bucket - 1 }).acceptPkt n f.port ce f.bytes.length k1)
              else .next (s.acceptPkt n f.port ce f.bytes.length k1)
            else if 3 ≤ k.typ then .next s.badVer
            else .next (s.stage6 n f.port ce f.bytes.length hdr body k)

/-! Receipt of accepted packets. -/

/-- Take the oldest accepted packet of a type. -/
def State.takeRx (s : State) (n typ : Nat) : Option (RxPkt × State) :=
  let x := s.peer n
  match x.rx.find? fun r => r.pkt.typ == typ with
  | none => none
  | some r =>
    some (r, (s.mapPeer n fun x =>
      { x with rx := (x.rx.takeWhile fun q => q.pkt.typ != typ) ++ (x.rx.dropWhile fun q => q.pkt.typ != typ).tail }).pfcOn r.port)

/-- Add a piece to a message that arrives; a repeated offset keeps the first copy. -/
def RxMsg.add (m : RxMsg) (off : Nat) (bs : List Byte) : RxMsg :=
  if m.parts.any fun y => y.1 == off then m else { m with parts := m.parts ++ [(off, bs)] }

/-- The bytes of a message when all of them are placed. -/
def RxMsg.whole (m : RxMsg) : Option (List Byte) :=
  if (m.parts.map fun y => y.2.length).sum < m.len then none
  else
    let mem := m.parts.foldl (fun mem y => Memory.writes mem y.1 y.2) []
    some (Memory.reads mem 0 m.len)

/-- Take a handshake packet; the message's bytes once it is whole (R255). A packet at offset 0 begins the message afresh. -/
def State.takeHs (s : State) (n typ : Nat) : State × Option (List Byte) :=
  match s.takeRx n typ with
  | none => (s, none)
  | some (r, s1) =>
    let x := s1.peer n
    let old := (x.hsRx.find? fun y => y.1 == typ && y.2.len == r.pkt.mlen && r.pkt.moff != 0).map fun y => y.2
    let m := (old.getD ⟨0, r.pkt.mlen, 0, []⟩).add r.pkt.moff r.pkt.payload
    let rest := x.hsRx.filter fun y => y.1 != typ
    match m.whole with
    | some bs => (s1.mapPeer n fun x => { x with hsRx := rest }, some bs)
    | none => (s1.mapPeer n fun x => { x with hsRx := (typ, m) :: rest }, none)

/-- Answer a whole HS_INIT: its certificate chain and identity are checked first (R255, R256). -/
def State.hsAnswer (s : State) (n : Nat) (pay : List Byte) : State :=
  match s.hsCheck (s.peer n) (slice pay 1216 13817) [] [] with
  | some 1 => (s.mapPeer n fun x => { x with st := if x.st = .idle then .handshake else x.st }).hsFail n 1
  | some 2 => (s.mapPeer n fun x => { x with st := if x.st = .idle then .handshake else x.st }).hsFail n 2
  | _ => s.hsRespond n pay

/-- The initiator's side of a HS_RESP: its signature is checked, the session id drawn, and HS_FIN sent, or the handshake fails
(R255, R256). -/
def State.hsConfirm (s : State) (n : Nat) (h : Hs) (resp : List Byte) : State :=
  let x := s.peer n
  let h1 := x.h1 h.initPay resp
  match s.hsCheck x (slice resp 1124 13725) h1 (sigrOf resp) with
  | some r => s.hsFail n r
  | none =>
    let sid := s.fab.nextSid
    let h2 := x.h2 h1 (sigrOf resp) (leBytes 4 sid)
    let ss := Config.kemDecaps h.dk (slice resp 32 1119)
    let s2 := s.mapFab fun f => { f with nextSid := f.nextSid + 1 }
    let s3 := s2.mapPeer n fun x =>
      { x with hs := some { h with stage := 2, respPay := resp, sidMine := sid, sidPeer := num resp 1120 1123, okm := x.okm ss h2 } }
    s3.sendHs n 0xA (leBytes 4 sid ++ sized 3309 (Config.dsaSign s3.boot.idKey h2))

/-- The responder's side of a HS_FIN: its signature is checked and the session opens, or the handshake fails (R255, R256). -/
def State.hsFinish (s : State) (n : Nat) (h : Hs) (fin : List Byte) : State :=
  let x := s.peer n
  let h2 := x.h2 (x.h1 h.initPay h.respPay) (sigrOf h.respPay) (fin.take 4)
  match s.hsCheck x (slice h.initPay 1216 13817) h2 (fin.drop 4) with
  | some r => s.hsFail n r
  | none =>
    let s2 := s.mapPeer n fun x => { x with hs := some { h with sidPeer := num fin 0 3, okm := x.okm h.ss h2 } }
    (s2.hsOpen n).sendAck n h.sidMine

/-- HS_INIT (R255 to R258): a whole HS_INIT from a peer. Without an identity key the device answers no handshake (R401). -/
def execHsInit (n : Nat) (s : State) : Out :=
  if 4096 ≤ n then .next s
  else
    let (s1, msg) := s.takeHs n 8
    match msg with
    | none => .next s1
    | some pay =>
      let x := s1.peer n
      if !s1.boot.idok ∨ x.st = .failed ∨ x.st = .down ∨ x.st = .unused ∨ pay.length ≠ 32 + 1184 + 12602 then .next s1
      else
        match x.hs with
        | none => .next (s1.hsAnswer n pay)
        | some h =>
          if h.crossed then .next (s1.hsAnswer n pay)
          else if !h.init then .next (if h.initPay = pay then s1.sendHs n 0x9 h.respPay else s1.hsAnswer n pay)
          else
            let mine := leNat (h.initPay.take 32)
            let theirs := leNat (pay.take 32)
            if theirs < mine then .next s1
            else if mine < theirs then .next (s1.hsAnswer n pay)
            else .next (s1.mapPeer n fun x => { x with hs := some { h with crossed := true } })

/-- HS_RESP (R256): the initiator verifies the response and sends HS_FIN. -/
def execHsResp (n : Nat) (s : State) : Out :=
  if 4096 ≤ n then .next s
  else
    let (s1, msg) := s.takeHs n 9
    match msg, (s1.peer n).hs with
    | some resp, some h =>
      let x := s1.peer n
      if !s1.boot.idok ∨ !h.init ∨ h.crossed ∨ resp.length ≠ 17035 then .next s1
      else if h.stage = 2 then
        .next (if resp = h.respPay then s1.sendHs n 0xA (leBytes 4 h.sidMine ++ sized 3309 (Config.dsaSign s1.boot.idKey
          (x.h2 (x.h1 h.initPay resp) (sigrOf resp) (leBytes 4 h.sidMine)))) else s1)
      else .next (s1.hsConfirm n h resp)
    | _, _ => .next s1

/-- HS_FIN (R256): the responder verifies it, opens the session and sends an ACK with CACK 0. -/
def execHsFin (n : Nat) (s : State) : Out :=
  if 4096 ≤ n then .next s
  else
    let (s1, msg) := s.takeHs n 0xA
    match msg, (s1.peer n).hs with
    | some fin, some h =>
      if h.init ∨ fin.length ≠ 3313 then .next s1
      else .next (s1.hsFinish n h fin)
    | _, _ => .next s1

/-- HS_REJECT (R256): not authenticated; it ends the attempt in progress, if any, and is counted. -/
def execHsReject (n : Nat) (s : State) : Out :=
  if 4096 ≤ n then .next s
  else
    let (s1, msg) := s.takeHs n 0xB
    match msg with
    | none => .next s1
    | some m =>
      let x := s1.peer n
      let s2 := s1.mapJcnt fun c => { c with authfail := sat16 c.authfail 1 }
      .next (if x.hs.isNone then s2
        else (s2.notice x.part ⟨1, stAuthFail, x.pidx % 4096 + fld (num m 0 3 % 16) 12, 0⟩).hsEnd n)

/-- CACK after a PSN has been received: past every contiguous received PSN (R262). -/
def advanceCack : Nat → Nat → List Nat → Nat × List Nat
  | 0, c, got => (c, got)
  | f + 1, c, got => if Keys.has got c then advanceCack f (c + 1) (Keys.del got c) else (c, got)

/-- Whether MINFO is well formed: INDEX of a vote or decision is 0 or 1 (Table 10.3). -/
def minfoOk (m : Nat) : Bool := m / 2 ^ 30 != 2 || decide (bits m 17 0 < 2)

/-- Place the payload of a DATA packet; a whole message goes to its partition, and one with a malformed MINFO is dropped (R262, R276). -/
def State.place (s : State) (n sid : Nat) (r : RxPkt) : State :=
  let x := s.peer n
  match x.session sid with
  | none => s
  | some y =>
    let k := r.pkt
    let m := ((y.rx.find? fun m => m.msgid == k.msgid).getD ⟨k.msgid, k.mlen, k.minfo, []⟩).add k.moff k.payload
    let rest := y.rx.filter fun m => m.msgid != k.msgid
    let c := advanceCack 1025 y.rxCack (Keys.add y.rxGot k.psn)
    let put (rx : List RxMsg) : State := s.mapPeer n fun x => x.mapSid sid fun y => { y with rxCack := c.1, rxGot := c.2, rx := rx }
    match m.whole with
    | none => put (rest ++ [m])
    | some bs =>
      (put rest).mapColl x.part fun c =>
        if minfoOk k.minfo then { c with inbox := c.inbox ++ [⟨n, k.minfo, bs, r.at'⟩] } else { c with cDropped := sat16 c.cDropped 1 }

/-- A DATA packet within the window: placed unless it is a duplicate, and acknowledged after 16 packets, at the end of a message or
when packets arrive out of order; a CE mark calls for a CNP (R262, R264, R268). -/
def State.dataIn (s : State) (n : Nat) (r : RxPkt) (y : Session) : State :=
  let x := s.peer n
  let k := r.pkt
  let dup := k.psn < y.rxCack || Keys.has y.rxGot k.psn
  let s2 := if dup then s else s.place n k.session r
  let s3 := s2.mapPeer n fun x => x.mapSid k.session fun y => { y with ackOwed := y.ackOwed + 1 }
  let ooo := k.psn != y.rxCack && (match x.oooAt with | none => true | some t => 625 ≤ 2 * (s.ltime - t))
  let owed := ((s3.peer n).session k.session).elim 0 fun y => y.ackOwed
  let s4 := if ooo then s3.mapPeer n fun x => { x with oooAt := some s.ltime } else s3
  let s5 := if 16 ≤ owed ∨ k.flags % 4 ≠ 0 ∨ ooo then s4.sendAck n k.session else s4
  let cnp := r.ce && s.fab.cfg.ecn && (match x.cnpAt with | none => true | some t => 3125 ≤ s.ltime - t)
  if cnp then s5.sendCnp n k.session else s5

/-- DATA (R262, R264, R268): the oldest accepted DATA packet is placed or dropped as a duplicate; it may call for an ACK or a CNP. -/
def execData (n : Nat) (s : State) : Out :=
  if 4096 ≤ n then .next s
  else
    match s.takeRx n 0 with
    | none => .next s
    | some (r, s0) =>
      let k := r.pkt
      let s1 := s0.takeAck n k.session k.cack []
      match (s1.peer n).session k.session with
      | none => .next s1
      | some y =>
        let x := s1.peer n
        if y.rxCack + x.win ≤ k.psn then .next (s1.mapJcnt fun c => { c with window := satW 12 c.window 1 })
        else .next (s1.dataIn n r y)

/-- ACK (R256, R262, R265): it advances CACK and completes messages; the first ACK of a session that opens opens it at the initiator. -/
def execAck (n : Nat) (s : State) : Out :=
  if 4096 ≤ n then .next s
  else
    match s.takeRx n 1 with
    | none => .next s
    | some (r, s1) =>
      let k := r.pkt
      let x := s1.peer n
      if (x.session k.session).isNone ∧ x.hs.any fun h => h.stage == 2 && h.sidMine == k.session then
        .next ((s1.hsOpen n).mapPeer n fun x => x.mapSid k.session fun y => { y with ctlRx := some k.psn })
      else
        let got := (List.range (8 * k.payload.length)).filter fun i => (k.payload.getD (i / 8) 0).toNat.testBit (i % 8)
        .next (s1.takeAck n k.session k.cack (got.map fun i => k.cack + 1 + i))

/-- CNP (R262, R268): its CACK is taken, and it is counted toward the current epoch. -/
def execCnp (n : Nat) (s : State) : Out :=
  if 4096 ≤ n then .next s
  else
    match s.takeRx n 2 with
    | none => .next s
    | some (r, s1) => .next ((s1.takeAck n r.pkt.session r.pkt.cack []).mapPeer n fun x => { x with cnpSeen := true })

/-! The life of a peer (Table 9.7). -/

/-- Whether a peer is dead: a DATA packet has stayed unacknowledged for its session's DEADT since its first transmission, or the peer has had
no usable port for DEADT (R263). -/
def State.peerDead (s : State) (x : Peer) : Bool :=
  let late (d t : Nat) : Bool := t + d * ticksMs ≤ s.ltime
  ((x.cur.toList ++ x.old.toList).any fun y => y.unacked.any fun a => late y.deadt a.first) ||
    x.cur.any fun y => x.noPortAt.any (late y.deadt)

/-- PEER_DEATH (R263): the peer goes DOWN; messages in flight and queued fail with TIMEOUT. -/
def execPeerDeath (n : Nat) (s : State) : Out :=
  if 4096 ≤ n then .next s
  else if (s.peer n).st = .opened ∧ s.peerDead (s.peer n) then .next ((s.closePeer n stTimeout .down).peerLost n)
  else .next s

/-- PEER_FAILED_EXPIRY: 1 s after FAILED. -/
def execPeerFailedExpiry (n : Nat) (s : State) : Out :=
  if 4096 ≤ n then .next s
  else .next (if (s.peer n).st = .failed then s.mapPeer n fun x => { x with st := .idle } else s)

/-- PEER_DOWN_EXPIRY: 1 ms after DOWN. -/
def execPeerDownExpiry (n : Nat) (s : State) : Out :=
  if 4096 ≤ n then .next s
  else .next (if (s.peer n).st = .down then s.mapPeer n fun x => { x with st := .idle } else s)

end Sys2Proof.Machine
end

