-- ==== Sys2Proof/Machine/Collectives.lean ====
section
/-! DEFINITION. Collectives and step commit (chapter 10). -/

namespace Sys2Proof.Machine

/-! Commands (R280 to R295). -/

/-- The checks of Table 10.5 that every collective command shares, and the opcode's own range check; then STEPLO. -/
def collCheck (s : State) (h : Head) (step : Option Nat) (range : Coll → Bool) (v2ok : Bool) : Option Nat :=
  let p := s.pno h.core
  let c := s.coll p
  if !c.en then some stIllegalOp
  else if !range c then some stIllegalOp
  else if !v2ok ∧ s.namesV2 p c then some stIllegalOp
  else if step.any fun x => x != c.step then some stStepSkew
  else none

/-- Hand messages to the peers of members, one at a time; a member without an entry ends the context with DENIED (R254). -/
def State.handMsgs (s : State) (h : Head) (ms : List (Nat × JMsg)) : State :=
  let p := s.pno h.core
  let c := s.coll p
  if ms.all fun x => (s.slotOf p (c.pidxOf x.1)).isSome then
    ms.foldl (fun s x => match s.slotOf p (c.pidxOf x.1) with | some n => s.queueMsg n x.2 | none => s) s
  else s.faultCtx h.core h.ctx.lctx stDenied

/-- The checks of CONTRIB (Table 10.5). -/
def contribCheck (s : State) (h : Head) : Option Nat :=
  let own := cf h.w 31 20
  collCheck s h (some (cf h.w 85 62)) (fun c => own != c.self && own < c.n && cf h.w 49 32 + (cf h.w 61 50 + 1) ≤ c.cps) false

/-- The messages of a CONTRIB: one for each of its chunks, to their owner (R280). -/
def Coll.contribMsgs (c : Coll) (h : Head) (id : Nat) : List (Nat × JMsg) :=
  let own := cf h.w 31 20
  (List.range (cf h.w 61 50 + 1)).map fun i =>
    let j := cf h.w 49 32 + i
    let len := 192 * c.tiles j + 64
    (own, ({ owner := .cmd h.core h.ctx.lctx id, minfo := c.minfo 0 j, segs := [.mem (c.sendbuf + (own * c.cps + j) * 65536) len],
             len := len } : JMsg))

/-- CONTRIB (R280). -/
def workContrib (core n : Nat) (s : State) : Out :=
  work core n 0x90 s fun h s =>
    match contribCheck s h with
    | some st => s.failed h st
    | none => s.pay h 0 1 fun s =>
      let p := s.pno core
      let c := s.coll p
      if c.dec ≠ 0 then s.done h
      else
        let (id, s1) := s.leave h .collective
        (((s1.mapColl p fun c => { c with sends := c.sends ++ [(core, id)] }).handMsgs h (c.contribMsgs h id)).settle core n)

/-- The region-table entry and header of a member's shard: the own OWNED region, or a replica (R274). -/
def State.shard? (s : State) (p i : Nat) : Except (Nat × TransFail) (List Byte × RegEnt × ShHdr) := s.region? p ((s.coll p).rreg i)

/-- The checks of PARAM_BCAST (Table 10.5). -/
def bcastCheck (s : State) (h : Head) : Option Nat :=
  collCheck s h (some (cf h.w 73 50)) (fun c => cf h.w 37 20 + (cf h.w 49 38 + 1) ≤ c.bps) false

/-- The messages of a PARAM_BCAST: each of its chunks to every other member, with the digest that the engine appends (R285). -/
def Coll.bcastMsgs (c : Coll) (h : Head) (e : RegEnt) (id : Nat) : List (Nat × JMsg) :=
  (List.range (cf h.w 49 38 + 1)).flatMap fun k =>
    let j := cf h.w 37 20 + k
    let len := 64 * c.blocks j + 64
    ((List.range c.n).filter fun i => i != c.self).map fun i =>
      (i, ({ owner := .cmd h.core h.ctx.lctx id, minfo := c.minfo 1 j, segs := [.mem (e.hiS + 64 * 1023 * j) (64 * c.blocks j)],
             len := len, dig := some (roundKey c.step c.att, c.self, e.chk) } : JMsg))

/-- The fabric engine, or OWNER_SUM, meets a page that does not translate at issue: the fault goes to the dispatch cores with SRC 4 and the
context ends with PAGE_FAULT; a page held in the attic is migrated instead, and the command waits at the head (R215, R295, Table 7.6). -/
def State.fabFault (s : State) (h : Head) (x : Nat × TransFail) (wr : Bool) : State :=
  let s1 := s.transFault (s.pno h.core) x.1 x.2 4 0 0 wr 0
  if x.2 = .migrate then s1.hold h.core h.slot 3 else s1.faultCtx h.core h.ctx.lctx stPageFault

/-- PARAM_BCAST (R285). -/
def workParamBcast (core n : Nat) (s : State) : Out :=
  work core n 0x92 s fun h s =>
    match bcastCheck s h with
    | some st => s.failed h st
    | none =>
      let p := s.pno core
      let c := s.coll p
      if c.dec ≠ 0 then s.pay h 0 1 fun s => s.done h
      else
        match s.shard? p c.self with
        | .error x => s.fabFault h x false
        | .ok (_, e, _) => s.pay h 0 1 fun s =>
          let (id, s1) := (s.regionTake fabEngine p (c.rreg c.self)).leave h .collective
          (((s1.mapColl p fun c => { c with sends := c.sends ++ [(core, id)] }).handMsgs h (c.bcastMsgs h e id)).settle core n)

/-- The checks of OWNER_SUM (Table 10.5). -/
def ownerCheck (s : State) (h : Head) : Option Nat :=
  let w := h.w
  collCheck s h (some (cf w 79 56)) (fun c => cf w 37 20 < c.cps && cf w 46 38 + cf w 55 47 + 1 ≤ c.tiles (cf w 37 20)) false

/-- Whether the chunk has landed from every other member (R283). -/
def Coll.allLanded (c : Coll) (chunk : Nat) : Bool := (List.range c.n).all fun i => i == c.self || c.landed.contains (i, chunk)

/-- The extents that an OWNER_SUM reads and writes. -/
def ownExts (c : Coll) (e : RegEnt) (w : Cmd) : List (Nat × Nat) × List (Nat × Nat) :=
  let chunk := cf w 37 20
  let t0 := cf w 46 38
  let len := 192 * ownNT w
  let gw := if e.gfp then 128 else 64
  let b0 := chunk * 10912 + 32 * t0
  let b1 := min c.shardblk (b0 + 32 * ownNT w)
  ((List.range c.n).map fun m =>
    ((if m = c.self then c.sendbuf else c.recvbuf + c.par * c.half) + (m * c.cps + chunk) * 65536 + 192 * t0, len),
   [(e.grad + gw * b0, gw * (b1 - b0))])

/-- What an OWNER_SUM keeps while it runs (R283). -/
def Coll.ownAcc (c : Coll) (e : RegEnt) : List Nat :=
  [c.n, c.self, c.cps, c.recvbuf + c.par * c.half, c.sendbuf, e.grad, if e.gfp then 4 else 2, c.shardblk]

/-- The vector engine takes an OWNER_SUM whose copies have landed: its first segment runs, or a page that does not translate ends the
context (R283, R284, R295). -/
def State.ownerRun (s : State) (h : Head) (e : RegEnt) : State :=
  let p := s.pno h.core
  let c := s.coll p
  let ex := ownExts c e h.w
  match s.vfailAny p ex.1 false, s.vfailAny p ex.2 true with
  | some y, _ => s.fabFault h y false
  | none, some y => s.fabFault h y true
  | none, none =>
    let acc := c.ownAcc e
    s.pay h 4 (ownTerm h.w acc 0) fun s =>
      let s0 := (ex.1.foldl (fun s x => s.vtake p x.1 x.2) (s.regionTake fabEngine p (c.rreg c.self))).enginePages fabEngine p
        ((ex.1 ++ ex.2).flatMap fun x => pageRun x.1 x.2)
      let (id, s1) := s0.leave h .collective
      let s2 := s1.mapColl p fun c => { c with sums := c.sums.filter fun y => !(y.core == h.core && y.lctx == h.ctx.lctx) }
      (s2.vStep h.core ⟨id, h.slot, h.ctx.lctx, h.w, [], 0, acc, false, []⟩).settle h.core h.slot

/-- An OWNER_SUM waits as engine-busy at the head of its context, since it first reached its turn (R283). -/
def State.ownerWait (s : State) (h : Head) : State :=
  let p := s.pno h.core
  let s1 := if (s.coll p).sums.any fun y => y.core == h.core && y.lctx == h.ctx.lctx then s
    else s.mapColl p fun c => { c with sums := c.sums ++ [⟨h.core, h.ctx.lctx, h.w, s.ltime⟩] }
  s1.hold h.core h.slot 3

/-- An OWNER_SUM that writes nothing posts its status (R283). -/
def State.sumPosts (s : State) (h : Head) (c : Coll) : State := s.mapCore h.core fun k => k.mapCtx h.ctx.lctx fun x => x.sumPosts c

/-- OWNER_SUM (R283): it waits as engine-busy at the head until its copies have landed, its window has closed or a decision is held. -/
def workOwnerSum (core n : Nat) (s : State) : Out :=
  work core n 0x91 s fun h s =>
    let p := s.pno core
    let c := s.coll p
    match ownerCheck s h with
    | some st => s.failed h st
    | none =>
      if c.dec ≠ 0 then s.pay h 4 1 fun s => (s.sumPosts h c).done h
      else if c.allLanded (cf h.w 37 20) then
        if !(s.core core).vecReady h.ctx then s.ownerWait h
        else
          match s.shard? p c.self with
          | .error y => s.fabFault h y false
          | .ok (_, e, _) => s.ownerRun h e
      else if c.winDone then
        s.pay h 4 1 fun s => (s.sumPosts h c).done h
      else s.ownerWait h

/-- OWNER_SUM_VOTET_EXPIRY (R283): the oldest OWNER_SUM of a core that has waited VOTET ticks without its round's window opening sets
VERDICT.LATE and completes without writing. -/
def execOwnerSumVotetExpiry (core : Nat) (s : State) : Out :=
  if 2048 ≤ core then .next s
  else
    let p := s.pno core
    let c := s.coll p
    match c.sums.find? fun x => x.core == core && decide (x.at' + c.votet ≤ s.ltime) with
    | none => .next s
    | some x =>
      if c.winAt.isSome then .next s
      else .next (((s.mapColl p fun c => { c with late := true }).endSum p x none).voteCheck p)

/-- The checks of STEP_VOTE (Table 10.5). -/
def stepCheck (s : State) (h : Head) : Option Nat := collCheck s h (some (cf h.w 52 29)) (fun c => c.vote.isNone) false

/-- STEP_VOTE (R287). -/
def workStepVote (core n : Nat) (s : State) : Out :=
  work core n 0x93 s fun h s =>
    let w := h.w
    match stepCheck s h with
    | some st => s.failed h st
    | none => s.pay h 0 1 fun s =>
      let p := s.pno core
      let (id, s1) := s.leave h .collective
      let s2 := s1.mapColl p fun c => { c with vote := some ⟨core, n, h.ctx.lctx, id, cb w 28, cf w 27 24, cf w 23 20⟩ }
      if (s2.coll p).dec ≠ 0 then (s2.completeVote p).settle core n else (s2.voteCheck p).settle core n

/-- Whether the device's part of the round is done: sends complete, own updates complete, every replica whole (R287). -/
def State.roundReady (s : State) (p : Nat) : Bool :=
  let c := s.coll p
  let whole (i : Nat) : Bool := match s.shard? p i with | .ok (_, e, h) => h.shv && h.shdone == e.nblk | .error _ => false
  c.sends.isEmpty && ((s.part p).updQ.all fun u => opcodeOf u.cmd != 0xA0 || (updF u.cmd u.imm).reg != c.rreg c.self) &&
    (List.range c.n).all whole

/-- The fabric engine has read the entries and headers of every member's shard. -/
def State.shardsTake (s : State) (p : Nat) : State :=
  (List.range (s.coll p).n).foldl (fun s i => s.regionTake fabEngine p ((s.coll p).rreg i)) s

/-- VOTE_READY (R287). -/
def execVoteReady (p : Nat) (s : State) : Out :=
  if 64 ≤ p ∨ s.halts then .next s
  else
    let c := s.coll p
    .next (if c.en ∧ c.vote.isSome ∧ !c.voted ∧ c.dec = 0 ∧ !c.late ∧ !c.digest ∧ s.roundReady p then (s.shardsTake p).castVote p 1 0 else s)

/-- The checks of RING_PASS (Table 10.5). -/
def ringCheck (s : State) (h : Head) : Option Nat :=
  let w := h.w
  collCheck s h none
    (fun c => if cb w 21 then cf w 106 63 == 0 && cf w 62 39 == 0 && !cb w 22
      else (cf w 62 39 + 1) * 16 ≤ c.rslot && (!cb w 22 || cf w 106 63 == 0)) true

/-- The message of a RING_PASS: 16 bytes of credit to the neighbour behind, or the data of a hop, from a ring slot or an address, to the
neighbour ahead (R292). -/
def Coll.ringMsg (c : Coll) (h : Head) (id : Nat) : Nat × JMsg :=
  let w := h.w
  let dir := cf w 20 20
  let hop := cf w 38 23
  let len := (cf w 62 39 + 1) * 16
  let own : Owner := .cmd h.core h.ctx.lctx id
  if cb w 21 then
    (if dir = 0 then c.rpred else c.rsucc,
      { owner := own, minfo := c.minfo 3 (fld dir 17 + fld 1 16 + hop), segs := [.lit (List.replicate 16 0)], len := 16 })
  else
    (if dir = 0 then c.rsucc else c.rpred,
      { owner := own, minfo := c.minfo 3 (fld dir 17 + hop), len := len
        segs := [.mem (if cb w 22 then c.rbuf dir + (hop + 1) % 2 * c.rslot else fld (cf w 106 63) 4) len] })

/-- RING_PASS (R292): a block to the ring neighbour, or the release of a landing slot. Hop h ≥ 2 waits as engine-busy for the credit of
hop h − 2. -/
def workRingPass (core n : Nat) (s : State) : Out :=
  work core n 0x94 s fun h s =>
    let w := h.w
    let rel := cb w 21
    let dir := cf w 20 20
    let hop := cf w 38 23
    match ringCheck s h with
    | some st => s.failed h st
    | none =>
      let p := s.pno core
      let c := s.coll p
      if !rel ∧ 2 ≤ hop ∧ !c.credits.contains (dir, hop - 2) then s.hold core n 3
      else s.pay h 0 1 fun s =>
        let (id, s1) := s.leave h .collective
        let s2 := if rel then s1
          else s1.mapColl p fun c => { c with credits := c.credits.filter fun x => x != (dir, hop - 2) || hop < 2 }
        (s2.handMsgs h [c.ringMsg h id]).settle core n

/-! Landings (R276, R281, R282, R286, R292). -/

/-- Take the oldest whole message of a kind; for KIND 2 and 3 `index` says which (R276). -/
def State.takeIn (s : State) (p : Nat) (want : Nat → Bool) : Option (Landed × State) :=
  let c := s.coll p
  match c.inbox.find? fun m => want m.minfo with
  | none => none
  | some m =>
    some (m, s.mapColl p fun c =>
      { c with inbox := (c.inbox.takeWhile fun x => !want x.minfo) ++ (c.inbox.dropWhile fun x => !want x.minfo).tail })

def kindOf (minfo : Nat) : Nat := minfo / 2 ^ 30
def State.dropIn (s : State) (p : Nat) : State := s.mapColl p fun c => { c with cDropped := sat16 c.cDropped 1 }

/-- Which round a message belongs to: 0 the current, 1 the next, 2 any other (R281). -/
def Coll.roundOf (c : Coll) (minfo : Nat) : Nat :=
  let st := bits minfo 29 22
  let a := bits minfo 21 18
  if st = c.step % 256 ∧ a = c.att then 0
  else if (st = (c.step + 1) % 256 ∧ a = 0) ∨ (st = c.step % 256 ∧ a = c.att + 1) then 1
  else 2

/-- STEP and attempt of a message's own round. -/
def Coll.roundAt (c : Coll) (minfo : Nat) : Nat × Nat :=
  (if bits minfo 29 22 = c.step % 256 then c.step else (c.step + 1) % 2 ^ 24, bits minfo 21 18)

/-- A chunk that failed its digest: the counter, and notice class 2 (Table 12.2). -/
def State.digestBad (s : State) (p member index : Nat) (bcast : Bool) (round : Nat × Nat) : State :=
  let s1 := s.mapColl p fun c => { c with cDigmis := sat16 c.cDigmis 1 }
  s1.notice p ⟨2, stDigestMismatch, member % 4096 + fld (b01 bcast) 12, fld round.1 40 + fld round.2 36 + index⟩

/-- A contribution outside its window, of the current round or the next: LATE counts (R282). -/
def State.contribLate (s : State) (p : Nat) (cur : Bool) : State := s.mapColl p fun c =>
  if cur then { c with late := true, cLate := sat16 c.cLate 1 } else { c with nlate := true, cLate := sat16 c.cLate 1 }

/-- Whether a line of a landing reads poisoned where it has been placed, as in a lost pseudo-channel (R206, R281). -/
def State.linesBad (s : State) (p va n : Nat) : Bool := match s.vread p va n with | .ok x => x.2 | .error _ => false

/-- Place chunk `j` of member `i` in its half of the receive buffer and note its landing; a digest that differs sets DIGEST and is told
(R281, R284). -/
def State.contribInto (s : State) (p i j : Nat) (cur : Bool) (m : Landed) : State :=
  let c := s.coll p
  let va := c.recvbuf + (if cur then c.par else 1 - c.par) * c.half + (i * c.cps + j) * 65536
  match s.vfail p va m.bytes.length true with
  | some x => s.transFault p x.1 x.2 4 0 0 true 0
  | none =>
    let s3 := (s.vwrite p va m.bytes).mapColl p fun c =>
      if cur then { c with landed := c.landed ++ [(i, j)] } else { c with landedN := c.landedN ++ [(i, j)] }
    let d := 192 * c.tiles j
    let rd := c.roundAt m.minfo
    let bad := s3.linesBad p va m.bytes.length
    if !bad ∧ slice m.bytes d (d + 15) = digestOf 0 (roundKey rd.1 rd.2) i (m.bytes.take d) then s3
    else
      let s4 := s3.mapColl p fun c => if cur then { c with digest := true } else { c with ndigest := true }
      (s4.digestBad p i j false rd).voteCheck p

/-- CONTRIBUTION_LANDING (R281, R282). -/
def execContributionLanding (p : Nat) (s : State) : Out :=
  if 64 ≤ p ∨ s.halts then .next s
  else
    match s.takeIn p fun m => kindOf m == 0 with
    | none => .next s
    | some (m, s1) =>
      let c := s1.coll p
      let j := bits m.minfo 17 0
      let r := c.roundOf m.minfo
      match c.memberOf (s1.peer m.peer).pidx with
      | none => .next (s1.dropIn p)
      | some i =>
        if !c.en ∨ c.cps ≤ j ∨ m.bytes.length ≠ 192 * c.tiles j + 64 ∨ r = 2 then .next (s1.dropIn p)
        else
          let cur := r == 0
          let start := (if cur then c.winAt else c.winAtN).getD m.stamp
          let s2 := s1.mapColl p fun c => if cur then { c with winAt := some start } else { c with winAtN := some start }
          if (if cur then c.winDone else c.winDoneN) ∨ start + c.window ≤ m.stamp then .next ((s2.contribLate p cur).voteCheck p)
          else if (if cur then c.landed else c.landedN).contains (i, j) then .next (s2.dropIn p)
          else .next (s2.contribInto p i j cur m)

/-- Update the check values of the 2 KiB blocks that a write touched, from what they now hold; poison stays (R219, R286). -/
def State.recheck (s : State) (p va n : Nat) : State :=
  (List.range (cdiv (va % 2048 + n) 2048)).foldl
    (fun s i =>
      let a := va / 2048 * 2048 + 2048 * i
      match s.translate p a true with
      | .ok pa => (match s.region pa with | .hbm | .attic => s.engWriteChecked p pa (s.rds pa 2048) (s.bads pa 2048) | _ => s)
      | .error _ => s) s

/-- Place broadcast chunk `j` of member `i` in the shadow of its shard, opening the shadow at the first one; a digest that differs sets
DIGEST and is told (R285, R286). -/
def State.bcastInto (s : State) (p i j : Nat) (m : Landed) : State :=
  let c := s.coll p
  match s.shard? p i with
  | .error x => s.transFault p x.1 x.2 4 0 0 true 0
  | .ok (b, e, h) =>
    let first := !c.opened.contains i
    if h.shv ∧ h.shstep ≠ (h.step + 1) % 2 ^ 64 then ((s.dropIn p).mapColl p fun c => { c with digest := true }).voteCheck p
    else
      let h1 := if first then { h with shv := true, shstep := (h.step + 1) % 2 ^ 64, shdone := 0, nonfin := 0, crc := crc32c b } else h
      let n := 64 * c.blocks j
      let va := e.hiS + 64 * 1023 * j
      match s.vfail p va n true with
      | some x => s.transFault p x.1 x.2 4 0 0 true 0
      | none =>
        let s3 := ((s.regionTake fabEngine p (c.rreg i)).vwrite p va (m.bytes.take n)).mapColl p fun c => { c with opened := if first then i :: c.opened else c.opened }
        let s4 := if e.chk then s3.recheck p va n else s3
        if !s4.linesBad p va n ∧ slice m.bytes n (n + 15) = digestOf 1 (roundKey c.step c.att) i (m.bytes.take n) then
          (s4.putHdr p e { h1 with shdone := h1.shdone + c.blocks j }).mapColl p fun c => { c with bland := c.bland ++ [(i, j)] }
        else
          let s5 := (s4.putHdr p e h1).mapColl p fun c => { c with digest := true }
          (s5.digestBad p i j true (c.step, c.att)).voteCheck p

/-- BROADCAST_LANDING (R286). -/
def execBroadcastLanding (p : Nat) (s : State) : Out :=
  if 64 ≤ p ∨ s.halts then .next s
  else
    match s.takeIn p fun m => kindOf m == 1 with
    | none => .next s
    | some (m, s1) =>
      let c := s1.coll p
      let j := bits m.minfo 17 0
      match c.memberOf (s1.peer m.peer).pidx with
      | none => .next (s1.dropIn p)
      | some i =>
        if !c.en ∨ c.bps ≤ j ∨ m.bytes.length ≠ 64 * c.blocks j + 64 ∨ c.roundOf m.minfo ≠ 0 then .next (s1.dropIn p)
        else
          let start := c.bwinAt.getD m.stamp
          let s2 := s1.mapColl p fun c => { c with bwinAt := some start }
          if c.bwinDone ∨ start + c.window ≤ m.stamp then
            .next ((s2.mapColl p fun c => { c with late := true, cLate := sat16 c.cLate 1 }).voteCheck p)
          else if c.bland.contains (i, j) then .next (s2.dropIn p)
          else .next (s2.bcastInto p i j m)

/-- CONTRIBUTION_WINDOW_CLOSE (R282): a window whose ticks have passed closes, the current round's first. -/
def execContributionWindowClose (p : Nat) (s : State) : Out :=
  if 64 ≤ p then .next s
  else
    let c := s.coll p
    let want := (c.n - 1) * c.cps
    if (c.winAt.any fun t => t + c.window ≤ s.ltime) ∧ !c.winDone then
      let miss := want - c.landed.length
      .next ((s.mapColl p fun c => { c with winDone := true, late := c.late || miss != 0, cLate := sat16 c.cLate miss }).voteCheck p)
    else if (c.winAtN.any fun t => t + c.window ≤ s.ltime) ∧ !c.winDoneN then
      let miss := want - c.landedN.length
      .next (s.mapColl p fun c => { c with winDoneN := true, nlate := c.nlate || miss != 0, cLate := sat16 c.cLate miss })
    else .next s

/-- BROADCAST_WINDOW_CLOSE (R286): every incomplete replica sets VERDICT.LATE. -/
def execBroadcastWindowClose (p : Nat) (s : State) : Out :=
  if 64 ≤ p then .next s
  else
    let c := s.coll p
    if !(c.bwinAt.any fun t => t + c.window ≤ s.ltime) ∨ c.bwinDone then .next s
    else
      let bad := (List.range c.n).any fun i => i != c.self &&
        (match s.shard? p i with | .ok (_, e, h) => !(c.opened.contains i) || Decidable.decide (h.shdone < e.nblk) | .error _ => true)
      let miss := (c.n - 1) * c.bps - c.bland.length
      .next (((s.shardsTake p).mapColl p fun c => { c with bwinDone := true, late := c.late || bad, cLate := sat16 c.cLate (if bad then miss else 0) }).voteCheck p)

/-- Whether the coordinator still takes a vote: of the current round while it has not decided, or of a round that may follow (R288). -/
def Coll.takesVote (c : Coll) (r : Nat × Nat) : Bool :=
  (r == (c.step, c.att) && !c.decided && c.dec == 0) || some r == roundAfter (c.step, c.att) 1 || some r == roundAfter (c.step, c.att) 2

/-- VOTE_RECEIVE (R288): a vote reaches the coordinator. -/
def execVoteReceive (p : Nat) (s : State) : Out :=
  if 64 ≤ p then .next s
  else
    match s.takeIn p fun m => kindOf m == 2 && bits m 17 0 == 0 with
    | none => .next s
    | some (m, s1) =>
      let c := s1.coll p
      match c.memberOf (s1.peer m.peer).pidx with
      | none => .next (s1.dropIn p)
      | some i =>
        if !c.en ∨ m.bytes.length ≠ 64 ∨ num m.bytes 6 7 ≠ i then .next (s1.dropIn p)
        else if c.self ≠ c.coord then .next (s1.dropIn p)
        else if !c.takesVote (num m.bytes 0 3 % 2 ^ 24, num m.bytes 4 4) then .next s1
        else .next ((s1.mapColl p fun c => { c with votes := c.votes ++ [m.bytes.take 12] }).tally p)

/-- VOTE_TIMEOUT (R288): VOTET ticks have passed since the coordinator's own vote. -/
def execVoteTimeout (p : Nat) (s : State) : Out :=
  if 64 ≤ p then .next s
  else
    let c := s.coll p
    .next (if c.en ∧ c.self = c.coord ∧ c.voted ∧ !c.decided ∧ c.dec = 0 ∧ c.votedAt + c.votet ≤ s.ltime then s.decide p (2, 0, 0) else s)

/-- DECISION_RECEIVE (R289): a decision of the coordinator is held from its arrival, whether its round is the current one or follows
the decisions already held. -/
def execDecisionReceive (p : Nat) (s : State) : Out :=
  if 64 ≤ p then .next s
  else
    match s.takeIn p fun m => kindOf m == 2 && bits m 17 0 == 1 with
    | none => .next s
    | some (m, s1) =>
      let c := s1.coll p
      match c.memberOf (s1.peer m.peer).pidx with
      | none => .next (s1.dropIn p)
      | some i =>
        let out := num m.bytes 5 5
        if !c.en ∨ m.bytes.length ≠ 64 ∨ i ≠ c.coord ∨ out = 0 ∨ 4 ≤ out then .next (s1.dropIn p)
        else if c.awaited ≠ some (num m.bytes 0 3 % 2 ^ 24, num m.bytes 4 4) then .next (s1.dropIn p)
        else
          let s2 := s1.recordDecision p m.bytes
          if c.dec = 0 then .next ((s2.takeDecision p m.bytes).completeVote p)
          else .next (s2.mapColl p fun c => { c with early := c.early ++ [m.bytes] })

/-- DECISION_TIMEOUT (R290): the vote is sent and no decision is held after 2·VOTET ticks. -/
def execDecisionTimeout (p : Nat) (s : State) : Out :=
  if 64 ≤ p then .next s
  else
    let c := s.coll p
    match c.vote with
    | none => .next s
    | some v =>
      if !c.voted ∨ c.dec ≠ 0 ∨ s.ltime < c.votedAt + 2 * c.votet then .next s
      else .next (((s.mapColl p fun c => { c with vote := none }).endStepBegin p stTimeout).faultCtx v.core v.lctx stTimeout)

/-- RING_LANDING (R292): a block lands in its slot and the configured token is signalled. -/
def execRingLanding (p : Nat) (s : State) : Out :=
  if 64 ≤ p ∨ s.halts then .next s
  else
    match s.takeIn p fun m => kindOf m == 3 && !bit m 16 with
    | none => .next s
    | some (m, s1) =>
      let c := s1.coll p
      let dir := bits m.minfo 17 17
      let hop := bits m.minfo 15 0
      let from' := if dir = 0 then c.rpred else c.rsucc
      if !c.en ∨ c.memberOf (s1.peer m.peer).pidx ≠ some from' ∨ c.rslot < m.bytes.length ∨ m.bytes.length % 16 ≠ 0 then .next (s1.dropIn p)
      else
        let va := c.rbuf dir + hop % 2 * c.rslot
        match s1.vfail p va m.bytes.length true with
        | some x => .next (s1.transFault p x.1 x.2 4 0 0 true 0)
        | none =>
          let s2 := s1.vwrite p va m.bytes
          .next (s2.signalTok (bits (c.rxc dir) 10 0) (bits (c.rxc dir) 14 11) (bits (c.rxt dir) 3 0))

/-- RING_CREDIT (R292): a credit of the neighbour releases the sender's next hop. -/
def execRingCredit (p : Nat) (s : State) : Out :=
  if 64 ≤ p then .next s
  else
    match s.takeIn p fun m => kindOf m == 3 && bit m 16 with
    | none => .next s
    | some (m, s1) =>
      let c := s1.coll p
      let dir := bits m.minfo 17 17
      let from' := if dir = 0 then c.rsucc else c.rpred
      if !c.en ∨ c.memberOf (s1.peer m.peer).pidx ≠ some from' ∨ m.bytes.length ≠ 16 then .next (s1.dropIn p)
      else
        let s2 := s1.mapColl p fun c => { c with credits := c.credits ++ [(dir, bits m.minfo 15 0)] }
        .next ((s2.coresOf p).foldl (fun s n => if (s.core n).slots.isEmpty then s else s.mapCore n Core.refresh) s2)

/-! Registers (R296). -/

/-- Whether a host access may write a register of partition `p`: its port, through the physical function or the bound one (R296, R354). -/
def State.ownsPart (s : State) (who : Who) (p : Nat) : Bool :=
  match who with
  | .host port f => (s.part p).exist && (s.part p).port == port && (f == 0 || f == (s.part p).func)
  | _ => false

/-- Whether a collective command of the partition is in flight. -/
def State.collBusy (s : State) (p : Nat) : Bool :=
  (s.coresOf p).any fun n => (s.core n).pend.any fun x => x.kind == .collective

/-- The descriptor's checks (R273, R274): the region table in use names every member's region. -/
def State.groupOk (s : State) (p : Nat) (c : Coll) : Bool :=
  let d := c.desc
  let ok (a n : Nat) : Bool := a % 2 ^ 21 == 0 && (pagesOf a n).all (s.part p).pageOk
  (s.updOf p).en && 2 ≤ c.n && c.n ≤ 4096 && c.self < c.n && c.coord < c.n && 1 ≤ c.maxrep && c.maxrep ≤ 15 && 1 ≤ c.votet &&
    zeroAt d 7 7 && zeroAt d 20 23 && zeroAt d 60 63 && zeroAt d 94 127 &&
    ok c.sendbuf (c.n * c.cps * 65536) && ok c.recvbuf (2 * c.half) && ok c.err (c.errpg * 2 ^ 21) && ok c.errNx (c.errpg * 2 ^ 21) &&
    ok (c.rbuf 0) (2 * c.rslot) && ok (c.rbuf 1) (2 * c.rslot) && c.rslot % 16 == 0 && c.rsucc < c.n && c.rpred < c.n &&
    !bit (c.rxc 0) 15 && !bit (c.rxc 1) 15 && c.rxt 0 < 16 && c.rxt 1 < 16 &&
    (List.range c.n).all fun i =>
      zeroAt d (131 + 8 * i) (135 + 8 * i) && ((c.pidxOf i == 0xFFFF) == (i == c.self)) &&
        Decidable.decide (c.rreg i < (s.updOf p).count) &&
        (match s.region? p (c.rreg i) with
          | .ok (_, e, _) => e.nblk == c.shardblk && e.kind == (if i = c.self then 0 else 1)
          | .error _ => false)

/-- The descriptor at an address: its header says how many members follow (R273). -/
def State.groupDesc (s : State) (p a : Nat) : Except (Nat × TransFail) (List Byte) := do
  let h ← s.vget p a 128
  s.vget p a (128 + 8 * num h 0 1)

/-- COLL_GRP_WRITE (R296, Table 10.9): ignored while a collective command is in flight; setting EN reads and checks the descriptor. -/
def execCollGrpWrite (who : Who) (p : Nat) (v : W64) (s : State) : Out :=
  if 64 ≤ p then .next s
  else if !s.ownsPart who p ∨ s.collBusy p then .next s
  else
    let a := fld (bits v.toNat 47 7) 7
    if !v.toNat.testBit 63 then .next (s.mapColl p fun c => { c with en := false, addr := a })
    else
      match s.groupDesc p a with
      | .error _ => .next (s.mapColl p fun c => { c with en := false, addr := a })
      | .ok d =>
        let c1 := { s.coll p with addr := a, desc := d }
        if s.groupOk p c1 then
          .next (((List.range c1.n).foldl (fun s i => s.regionTake fabEngine p (c1.rreg i)) ((s.vtake p a d.length).enginePages fabEngine p (pageRun a d.length))).mapColl p
            fun c => { c1 with en := true, rounds := if c.en then c.rounds else 0 })
        else .next (s.mapColl p fun c => { c with en := false, addr := a })

/-- A round set by a write of COLL_STATE: nothing has landed, and nothing is decided (R290). -/
def Coll.setRound (c : Coll) (v : Nat) : Coll :=
  { c with
    step := bits v 63 40, att := bits v 39 36, par := bits v 35 35, dec := 0, voted := false, decided := false
    digest := false, late := false, ndigest := false, nlate := false, landed := [], landedN := [], winAt := none, winDone := false
    winAtN := none, winDoneN := false, bwinAt := none, bwinDone := false, bland := [], opened := [], votes := [], sends := [], sums := [], early := [] }

/-- COLL_STATE_WRITE (R290, R296): while EN is 0, sets the round and clears the decision, the verdicts and the landings. -/
def execCollStateWrite (who : Who) (p : Nat) (v : W64) (s : State) : Out :=
  if 64 ≤ p then .next s
  else if !s.ownsPart who p ∨ (s.coll p).en then .next s
  else .next (s.mapColl p fun c => c.setRound v.toNat)

end Sys2Proof.Machine
end

