-- ==== Sys2Proof/Machine/Power.lean ====
section
/-! DEFINITION. The power accounts' refill, clock steps, the fast limiter, thermal steps and cluster clock states (R303 to R314,
R324). -/

namespace Sys2Proof.Machine

/-- Partitions that exist, in rising number. -/
def State.partList (s : State) : List Nat := (List.range 64).filter fun p => (s.part p).exist

/-- Sum of FLOOR over all partitions, in W (PWR_CAP.FLOORSUM). -/
def State.floorSum (s : State) : Nat := (s.partList.map fun p => (s.part p).floor).sum

/-- The accepted cap, as PWR_CAP.CAP reads (R324). -/
def Pwr.accepted (p : Pwr) : Nat := p.capNext.getD p.cap

/-- FLOORMAX at a cap (R305). -/
def floorMaxOf (cap : Nat) : Nat := (76 * cap - 55200) / 200

/-- FLOORMAX: from the smaller of the cap in force and the accepted cap (R324). -/
def Pwr.floorMax (p : Pwr) : Nat := floorMaxOf (min p.cap p.accepted)

/-- Accept a new cap for the next window, or refuse it (R305, R324): whether it was accepted. -/
def State.setCap (s : State) (cap : Nat) : Bool × State :=
  if floorMaxOf (min s.pwr.cap cap) < s.floorSum then (false, s) else (true, { s with pwr := { s.pwr with capNext := some cap } })

/-- Units of the carried fraction of a partition's share: a common multiple of the numbers up to 128, so that every share is exact (R304). -/
def shareUnit : Nat := (List.range 128).foldl (fun a i => Nat.lcm a (i + 1)) 1

/-- theta of Table 11.5, in quarters. -/
def thetaOf (step : Nat) : Nat := match step with | 0 => 4 | 1 => 3 | _ => 2

/-- Sub-tokens per µs of one watt (R304). -/
def wattSub : Nat := 4 * 65536

/-- The share of `rest` of each partition, in `shareUnit`ths of a sub-token (R304). `ps` lists partition, cluster count, and the room
under its ceiling if it has one; `fuel` bounds the rounds of capping. -/
def splitRest : Nat → Nat → List (Nat × Nat × Option Nat) → List (Nat × Nat)
  | 0, _, _ => []
  | fuel + 1, rest, ps =>
    let n := (ps.map fun x => x.2.1).sum
    let capped := ps.filter fun x => match x.2.2 with | some room => room * n < rest * x.2.1 | none => false
    if capped.isEmpty then ps.map fun x => (x.1, rest * x.2.1 * (shareUnit / n))
    else
      let room (x : Nat × Nat × Option Nat) : Nat := x.2.2.getD 0
      (capped.map fun x => (x.1, room x * shareUnit)) ++
        splitRest fuel (rest - (capped.map room).sum) (ps.filter fun x => !capped.contains x)

/-- Upper limit of a refilled account, in sub-tokens (R303). -/
def acctTop : Int := 32 * 65536

/-- Add `n` sub-tokens to a cluster's account up to +32 tokens; what is left over (R303). -/
def Cluster.refill (c : Cluster) (n : Nat) : Cluster × Nat :=
  if acctTop ≤ c.acct then (c, n)
  else
    let room := (acctTop - c.acct).toNat
    if n ≤ room then ({ c with acct := c.acct + n }, 0) else ({ c with acct := acctTop }, n - room)

/-- Refill clusters with `n` each and pass the excess on in cluster order (R303). -/
def State.refillClusters (s : State) (ks : List Nat) (n : Nat) : State :=
  let one (acc : State × Nat) (k : Nat) (n : Nat) : State × Nat :=
    let r := (acc.1.cluster k).refill n
    (acc.1.setCluster k r.1, r.2)
  let a := ks.foldl (fun acc k => let r := one acc k n; (r.1, acc.2 + r.2)) (s, 0)
  if a.2 = 0 then a.1
  else (ks.foldl (fun acc k => if acc.2 = 0 then acc else one acc k acc.2) a).1

/-- Sub-tokens of one tick above all floors (R304). -/
def State.restOf (s : State) : Nat :=
  let free := (List.range 128).filter fun k => (s.cluster k).owner.isNone
  let base : Int := wattSub * ((s.pwr.cap : Int) - 2 - s.pwr.punc) - free.length * 65536
  (thetaOf s.pwr.thstep * (base - wattSub * s.floorSum) / 4).toNat

/-- The share of each partition that holds clusters, in `shareUnit`ths (R304). -/
def State.shares (s : State) : List (Nat × Nat) :=
  splitRest 65 s.restOf
    ((s.partList.filter fun p => (s.clustersOf p).length ≠ 0).map fun p =>
      let pt := s.part p
      (p, (s.clustersOf p).length, if pt.ceil = 0 then none else some (wattSub * (pt.ceil - pt.floor))))

/-- What a partition receives at a tick, in `shareUnit`ths: its floor, its share and the fraction carried (R304). -/
def Part.tickTotal (pt : Part) (shares : List (Nat × Nat)) (p : Nat) : Nat :=
  wattSub * pt.floor * shareUnit + ((shares.find? fun y => y.1 = p).map (·.2)).getD 0 + pt.carry

/-- What a partition keeps of a tick in which it receives from `shares` for `n` clusters (R303, R304). -/
def Part.ticked (pt : Part) (shares : List (Nat × Nat)) (p n : Nat) : Part :=
  { pt with
    refill := pt.tickTotal shares p / (shareUnit * n) * n
    carry := pt.tickTotal shares p - pt.tickTotal shares p / (shareUnit * n) * n * shareUnit }

/-- Give a partition with `n` clusters what it receives: each cluster the same whole number (R303, R304). -/
def State.refillPart (s : State) (shares : List (Nat × Nat)) (p n : Nat) : State :=
  if n = 0 then s
  else
    (s.refillClusters (s.clustersOf p) ((s.part p).tickTotal shares p / (shareUnit * n))).mapPart p fun pt => pt.ticked shares p n

/-- The non-cluster input power that a tick works with: the higher of the last 1 ms window's mean and the current window's so far, in W
(R304). The latter is measured: a free value of 12 bits (log 83). -/
def State.metered (s : State) : State :=
  { s with pwr := { s.pwr with punc := max s.pwr.ncLast ((Config.fresh s.free).toNat % 2 ^ 12) }, free := s.free + 1 }

/-- What a refill tick begins besides (R308): a new cycle for every account, and the clocks of the cores that slept for the budget. -/
def State.wakeCores (s : State) : State :=
  { s with
    cores := s.cores.map fun (x : Nat × Core) => (x.1, { x.2 with asleep := false })
    clusters := s.clusters.map fun (x : Nat × Cluster) => (x.1, x.2.newCycle) }

/-- REFILL_TICK (R303, R304, R308): free clusters receive 1 token each; partitions their floors and their shares of the rest; cores that
slept for the budget run again. -/
def execRefillTick (s : State) : Out :=
  let v := s.metered.wakeCores
  let free := (List.range 128).filter fun k => (v.cluster k).owner.isNone
  let s1 := free.foldl (fun s k => s.refillClusters [k] 65536) v
  .next (v.partList.foldl (fun u p => u.refillPart v.shares p (v.clustersOf p).length) s1)

/-- HEAD_RESERVATION (R308): a head held for budget has seen 4,096 issues of other contexts. -/
def execHeadReservation (core n : Nat) (s : State) : Out :=
  if 2048 ≤ core ∨ 8 ≤ n ∨ s.halts then .next s
  else
    let k := s.core core
    let c := k.slot n
    if c.cause = 4 ∧ 4096 ≤ c.budSkips ∧ k.reserved.isNone then .next (s.setCore core { k with reserved := some n })
    else .next s

/-- The highest clock step, as a code, that a cluster with FLOOR = 0 may take: PSTEP and the thermal limit (R311, Table 11.5). -/
def State.stepTop (s : State) (owner : Option Nat) : Nat :=
  let p := match owner with | some p => (s.part p).pstep | none => 0
  max p (match s.pwr.thstep with | 0 => 0 | 1 => 2 | _ => 3)

/-- FLOOR of the partition that holds a cluster; 0 for a free one. -/
def State.floorOf (s : State) (c : Cluster) : Nat := match c.owner with | some p => (s.part p).floor | none => 0

/-- The clock step of a cluster for the next window (R311). -/
def State.nextStep (s : State) (c : Cluster) : Nat :=
  if 0 < s.floorOf c then (match c.owner with | some p => (s.part p).pstep | none => 0)
  else
    let want := if c.ranCyc < 4 * c.heldCyc then min 3 (c.step + 1) else if 20 * c.heldCyc < c.ranCyc ∨ c.ranCyc = 0 then c.step - 1 else c.step
    max want (s.stepTop c.owner)

/-- POWER_WINDOW (R310, R311, R324): a 1 ms window ends with these mean powers in W; the accepted cap takes effect, the clock steps are
set, and the window's counts start again. -/
def execPowerWindow (pin nonCluster : Nat) (s : State) : Out :=
  let used := fun p => ((s.clustersOf p).map fun k => (s.cluster k).spent).sum / (65536 * 4000)
  let s1 : State := { s with
    pwr := { s.pwr with cap := s.pwr.accepted, capNext := none, pin := pin % 4096, punc := nonCluster, ncLast := nonCluster }
    parts := s.parts.map fun x => (x.1, { x.2 with used := used x.1 }) }
  .next (s1.mapClusters fun _ c => { c with step := s1.nextStep c, spent := 0, ranCyc := 0, heldCyc := 0 })

/-- FAST_LIMITER (R310): the mean input power over 1 µs, in W. Above 1.10 × CAP the clocks of free clusters and of clusters with
FLOOR = 0 are stretched, until it falls below 1.05 × CAP. -/
def execFastLimiter (mean : Nat) (s : State) : Out :=
  let all (on : Bool) (s : State) : State := s.mapClusters fun _ c => { c with stretch := on && s.floorOf c == 0 }
  if !s.pwr.limiting ∧ 11 * s.pwr.cap < 10 * mean then
    .next (all true { s with pwr := { s.pwr with limiting := true, limits := sat16 s.pwr.limits 1 } })
  else if s.pwr.limiting ∧ 20 * mean < 21 * s.pwr.cap then .next (all false { s with pwr := { s.pwr with limiting := false } })
  else .next s

/-- The thermal step after a window whose hottest reading is `hot`, and the calm windows counted (Table 11.5). -/
def thermNext (step calm hot : Nat) : Nat × Nat :=
  if 100 ≤ hot ∧ step < 2 then (2, 0)
  else if 95 ≤ hot ∧ step = 0 then (1, 0)
  else
    match step with
    | 0 => (0, 0)
    | 1 => if hot < 93 then (if calm = 9 then (0, 0) else (1, calm + 1)) else (1, 0)
    | _ => if hot < 98 then (if calm = 9 then (1, 0) else (2, calm + 1)) else (2, 0)

/-- The largest of `n` sensors from sensor `k` on. -/
def hottest (sens : Tab Nat) (k n : Nat) : Nat := (List.range n).foldl (fun a i => max a (Tab.get 0 sens (k + i))) 0

/-- THERMAL_WINDOW (R312): a 100 µs window ends with these readings, sensor number and °C; THERM_IN_N active counts as a reading of
100 °C (R430). A rising step asserts SMB_ALERT_N (R432). Cluster `k` carries the sensors 4k to 4k + 3 (log 50). -/
def execThermalWindow (readings : List (Nat × Nat)) (s : State) : Out :=
  if s.pwr.devState = 0 ∨ readings.any fun x => 512 ≤ x.1 then .next s
  else
    let sens := readings.foldl (fun t x => Tab.put t x.1 x.2) s.sup.sensors
    let hot := hottest sens 0 512
    let t := thermNext s.pwr.thstep s.pwr.calm (if s.sup.therm.active then max hot 100 else hot)
    let s1 : State := { s with
      sup := { s.sup with sensors := sens, tjmax := hot % 256, alert := s.sup.alert || s.pwr.thstep < t.1 }
      pwr := { s.pwr with thstep := t.1, calm := t.2 } }
    .next (s1.mapClusters fun k c => { c with tmax := hottest sens (4 * k) 4 % 256 })

/-- Whether a core is idle (R314). -/
def Core.idle (k : Core) : Bool :=
  (List.range 8).all (fun n => (k.slot n).st != .ready) &&
    k.passes.isEmpty && k.restart.isEmpty && k.drain.isNone && k.vec.isNone && k.chain.isNone && k.chainIn.isEmpty &&
    k.swap.isNone && k.arriving.isEmpty && k.answers.isEmpty &&
    k.stSlots.all (fun x => x.2.st != .active) && k.larder.recs.all (fun r => r.st != .spilling && r.st != .fetching) &&
    k.banks.all fun b => b.2.held.isEmpty

/-- Whether a cluster is idle (R314). -/
def State.clusterIdle (s : State) (k : Nat) : Bool := (clusterCores k).all fun c => (s.core c).idle

/-- CLUSTER_GATE (Table 11.6): a cluster idle for 1 µs. -/
def execClusterGate (k : Nat) (s : State) : Out :=
  if 128 ≤ k then .next s
  else if (s.cluster k).clk = .run ∧ s.clusterIdle k then .next (s.setCluster k { s.cluster k with clk := .gated })
  else .next s

/-- CLUSTER_WAKE (Tables 11.6, 11.7): a wake event; a cluster that leaves PLL_OFF makes the device ACTIVE. -/
def execClusterWake (k : Nat) (s : State) : Out :=
  if 128 ≤ k then .next s
  else if !s.powered || s.sup.shed then .next s
  else
    let c := s.cluster k
    match c.clk with
    | .pllOff => .next (({ s with pwr := { s.pwr with devState := 3 } } : State).setCluster k { c with clk := .locking })
    | .gated => .next (s.setCluster k { c with clk := .run })
    | _ => .next s

/-- PLL_OFF (Tables 11.6, 11.7): a cluster gated for CL_CFG.PLLOFF; with every cluster in PLL_OFF the device is READY. -/
def execPllOff (k : Nat) (s : State) : Out :=
  if 128 ≤ k then .next s
  else
    let c := s.cluster k
    if c.clk = .gated ∧ c.plloff ≠ 0 ∧ s.clusterIdle k then
      let s1 := s.setCluster k { c with clk := .pllOff }
      .next (if s1.pwr.devState = 3 ∧ (List.range 128).all (fun j => (s1.cluster j).clk == .pllOff) then
          { s1 with pwr := { s1.pwr with devState := 2 } }
        else s1)
    else .next s

/-- PLL_LOCK (Table 11.6): 12 µs after LOCKING began. -/
def execPllLock (k : Nat) (s : State) : Out :=
  if 128 ≤ k then .next s
  else if (s.cluster k).clk = .locking then .next (s.setCluster k { s.cluster k with clk := .run })
  else .next s

/-- PWR_CAP_WRITE (R305, R324, Table 11.11): the management port writes CAP; a value outside 1,200 to 3,000, or one that R305
refuses, is ignored and sets CAPREF (R9). -/
def execPwrCapWrite (who : Who) (v : W64) (s : State) : Out :=
  let cap := bits v.toNat 11 0
  let mgmt := match who with | .host port f => port == s.mgmt && f == 0 | _ => false
  if !mgmt then .next s
  else
    let r := if cap < 1200 || 3000 < cap then (false, s) else s.setCap cap
    .next (if r.1 then r.2 else { s with pwr := { s.pwr with capref := true } })

end Sys2Proof.Machine
end

