-- ==== Sys2Proof/Machine/Serving.lean ====
section
/-! DEFINITION. The serving engine: what the dispatch cores do at a step boundary (R320 to R323). -/

namespace Sys2Proof.Machine

def State.serve (s : State) (p : Nat) : Serve := Tab.get {} s.serves p
def State.setServe (s : State) (p : Nat) (v : Serve) : State := { s with serves := Tab.put s.serves p v }

/-- DONEW as the memory controller sees it (R321). -/
def State.donew (s : State) (p : Nat) (c : ServeCfg) : Option Nat :=
  match s.vread p c.donew 8 with
  | .ok (bs, _) => some (leNat bs)
  | .error _ => none

/-- What the entry of the finished step did to a sequence: its position advances, and a token step generates one token (log 51). -/
def Seqn.advance (q : Seqn) : Seqn :=
  if q.inStep = 0 then q
  else if q.pos < q.plen then { q with pos := q.pos + q.inStep, inStep := 0 }
  else { q with pos := q.pos + 1, gen := q.gen + 1, inStep := 0 }

/-- Why a sequence leaves at this boundary, if it does (R322, R323). -/
def Seqn.leaves (c : ServeCfg) (q : Seqn) : Option Nat :=
  if q.leaving ∨ (q.plen ≤ q.pos ∧ q.limit ≤ q.gen) then some stOk
  else if q.plen ≤ q.pos ∧ c.maxgrp * c.tpp ≤ q.pos then some stNoResource
  else none

/-- Insert a leaving sequence in rising sequence number. -/
def insertSeq (q : Seqn × Nat) : List (Seqn × Nat) → List (Seqn × Nat)
  | [] => [q]
  | x :: t => if q.1.id < x.1.id then q :: x :: t else x :: insertSeq q t

/-- An entry of a step descriptor (Table 11.9). -/
structure StepEnt where
  seq : Nat
  kind : Nat
  last : Bool
  pos : Nat
  count : Nat
  ng : Nat

/-- A step being built: the free groups, the entries, and the tokens so far. -/
structure Build where
  free : List Nat
  entries : List StepEnt
  ntok : Nat

/-- Try to add an entry of `n` tokens for a sequence, reserving the groups that it lacks (R322, R323). -/
def Build.add (c : ServeCfg) (b : Build) (q : Seqn) (kind n : Nat) : Option (Build × Seqn) :=
  let need := cdiv (q.pos + n) c.tpp - q.groups.length
  if need ≤ b.free.length ∧ b.ntok + n ≤ c.budget ∧ b.entries.length < c.entmax ∧ q.groups.length + need ≤ c.maxgrp then
    let q1 := { q with groups := q.groups ++ b.free.take need, inStep := n }
    some (⟨b.free.drop need, b.entries ++ [⟨q.id, kind, kind != 0 && Decidable.decide (q.plen ≤ q.pos + n), q.pos, n, q1.groups.length⟩], b.ntok + n⟩, q1)
  else none

/-- Steps 2 and 3 for the sequences that `want` selects, in admission order: an entry, or the sequence is held. -/
def buildPass (c : ServeCfg) (kind : Nat) (want : Seqn → Bool) (size : Seqn → Nat) : List Seqn → Build → List Seqn × Build
  | [], b => ([], b)
  | q :: t, b =>
    if want q then
      match b.add c q kind (size q) with
      | some (b1, q1) => let r := buildPass c kind want size t b1; (q1 :: r.1, r.2)
      | none => let r := buildPass c kind want size t b; (q :: r.1, r.2)
    else let r := buildPass c kind want size t b; (q :: r.1, r.2)

/-- Step 4: joins in arrival order until the first that cannot reserve or fit. Answers those admitted, those still queued. -/
def buildJoins (c : ServeCfg) : List Seqn → Build → List Seqn × List Seqn × Build
  | [], b => ([], [], b)
  | q :: t, b =>
    match b.add c q 2 (min c.chunk q.plen) with
    | some (b1, q1) => let r := buildJoins c t b1; (q1 :: r.1, r.2)
    | none => ([], q :: t, b)

/-- The 16 bytes of a descriptor entry (Table 11.9). -/
def StepEnt.bytes (e : StepEnt) : List Byte :=
  leBytes 2 e.seq ++ leBytes 1 e.kind ++ leBytes 1 (b01 e.last) ++ leBytes 4 e.pos ++ leBytes 2 e.count ++ leBytes 2 0 ++ leBytes 4 e.ng

/-- The step descriptor (Table 11.9). -/
def stepDesc (n : Nat) (b : Build) : List Byte :=
  leBytes 8 n ++ leBytes 2 b.entries.length ++ leBytes 2 0 ++ leBytes 4 b.ntok ++ List.replicate 48 0 ++ b.entries.flatMap StepEnt.bytes

/-- Step 5: write the descriptor and the group lists, and signal the serving context (R321, R322). -/
def State.writeStep (s : State) (p : Nat) (c : ServeCfg) (n : Nat) (b : Build) (seqs : List Seqn) : State :=
  let s1 := s.vwrite p (c.sdesc + n % 2 * (64 + 16 * c.entmax)) (stepDesc n b)
  let s2 := (seqs.filter fun q => 0 < q.inStep).foldl
    (fun s q => s.vwrite p (c.plist + q.id * c.maxgrp * 4) (q.groups.flatMap (leBytes 4))) s1
  s2.mapCore c.score fun k => (k.signal c.sctx (2 ^ c.stok)).refresh

/-- The boundary after a step, or before the first one (R322, R323). -/
def State.boundary (s : State) (p : Nat) (v : Serve) (c : ServeCfg) : State :=
  let seqs := v.seqs.map Seqn.advance
  let gone := ((seqs ++ v.queue).filterMap fun q => (q.leaves c).map fun st => (q, st)).foldl (fun l x => insertSeq x l) []
  let stay (q : Seqn) : Bool := (q.leaves c).isNone
  let s1 := gone.foldl (fun s x => s.notice p ⟨3, x.2, x.1.id % 2 ^ 16, x.1.gen⟩) s
  let left := seqs.filter stay
  let held := left.flatMap fun q => q.groups
  let b0 : Build := ⟨(List.range c.ngrp).filter fun g => !held.contains g, [], 0⟩
  let r2 := buildPass c 0 (fun q => Decidable.decide (q.plen ≤ q.pos)) (fun _ => 1) left b0
  let r3 := buildPass c 1 (fun q => Decidable.decide (q.pos < q.plen)) (fun q => min c.chunk (q.plen - q.pos)) r2.1 r2.2
  let r4 := buildJoins c (v.queue.filter stay) r3.2
  let all := r3.1 ++ r4.1
  let b := r4.2.2
  if b.entries.isEmpty then
    let s2 := s1.setServe p { v with seqs := all, queue := r4.2.1, outst := false, arrived := false }
    if all.isEmpty ∧ r4.2.1.isEmpty then (s2.mapPart p fun pt => { pt with withheld := false }).partEvent p none 0
    else (s2.mapPart p fun pt => { pt with withheld := true }).notice p ⟨3, stNoResource, 2 ^ 16, 0⟩
  else
    let s2 := s1.setServe p { v with seqs := all, queue := r4.2.1, step := v.step + 1, outst := true, arrived := false }
    let s3 := s2.mapPart p fun pt => { pt with withheld := false }
    (s3.writeStep p c v.step b all).partEvent p none 0

/-- SERVE_STEP_BOUNDARY (R321 to R323): the boundary is due once DONEW reads the number of the last step, or all ones before
the first, and that step is outstanding or a SERVE_BATCH has arrived. -/
def execServeStepBoundary (p : Nat) (s : State) : Out :=
  if 64 ≤ p ∨ s.halts then .next s
  else
    let v := s.serve p
    match v.cfg with
    | none => .next s
    | some c =>
      let due := if v.step = 0 then 2 ^ 64 - 1 else v.step - 1
      if s.donew p c = some due ∧ (v.outst ∨ v.arrived) then .next (s.boundary p v c) else .next s

end Sys2Proof.Machine
end

