-- ==== Sys2Proof/Machine/Kill.lean ====
section
/-! DEFINITION. Partition kills, scrubs and destruction (R254, R299, R334, R387 to R389). -/

namespace Sys2Proof.Machine

/-- The HBM and attic frames that a page entry of 2^`k` frames names; a frame is its physical address over 2 MiB. Host windows hold
no frames. -/
def entryFrames (e : W64) (k : Nat) : List Nat :=
  let a := fld (bits e.toNat 47 12) 12
  if (e.toNat.testBit 0 || e.toNat.testBit 3) && a < hostBase 0 then rangeIn (a / 2 ^ 21) (2 ^ k) else []

/-- Frames that a partition holds: mapped, held for migration, granted to its pool, or being filled (R339). -/
def Part.frames (pt : Part) : List Nat :=
  ((pt.ptes.flatMap fun x => entryFrames x.2 0) ++ (pt.ptes1g.flatMap fun x => entryFrames x.2 9) ++ pt.pool ++
    pt.moving.map fun x => x.2.1).eraseDups

/-- Whether a frame lies in HBM. -/
def frameHbm (f : Nat) : Bool := f * 2 ^ 21 < hbmTop

/-- Job contexts of a core, resident or swapped out. -/
def Core.jobCtxs (k : Core) : List Nat :=
  ((List.range 7).filter fun n => (k.slot n).st.live).map (fun n => (k.slot n).lctx) ++ k.images.map fun x => x.1

/-- Every context of a partition becomes KILLED (R388 step 1), one that has ended already too (Table 1.5). -/
def State.killCtxs (s : State) (p status : Nat) : State :=
  (s.coresOf p).foldl
    (fun s n =>
      ((s.core n).jobCtxs.foldl (fun s l => s.endOne n l .killed status) s).mapCore n fun k =>
        k.ended.foldl (fun (k : Core) x => k.stopEnded x.1) k) s

/-- The fabric peers of a partition. -/
def State.peersOf (s : State) (p : Nat) : List Nat := (s.fab.peers.filter fun x => x.2.part == p).map fun x => x.1

/-- The peers of a killed partition are removed and their sessions close (R254, Table 9.7). -/
def State.killPeers (s : State) (p : Nat) : State := (s.peersOf p).foldl State.removePeer s

/-- Packets of the partition's rings that were taken and not replied to receive KILLED, its long operations too; packets not yet
taken are discarded (R334). -/
def State.killPackets (s : State) (p : Nat) : State :=
  let pt := s.part p
  let rings := (s.hport pt.port).rings.map fun x => x.1
  let s1 := rings.foldl
    (fun s r =>
      let x := s.ring pt.port r
      let s1 := if x.part = p then
          let y := x.taken.foldl (fun s t => s.fin (t.pkt pt.port r) stKilled 0 0) (s.mapRing pt.port r fun x => { x with taken := [] })
          y.mapRing pt.port r fun x => { x with sqhead := x.tailNew.getD x.sqtail, sqtail := x.tailNew.getD x.sqtail, tailNew := none }
        else s
      (x.longs.filter fun l => l.part == p && l.opcode != 0x0202).foldl (fun s l => s.finishLong pt.port r l.tag stKilled 0 0) s1) s
  (s1.part p).launches.foldl (fun s l => s.finishLaunch p { l with code := stKilled }) s1

/-- Empty a partition's page tables and discard its attic cache: every HBM and attic frame that it held waits to be zeroed (R218, R389). -/
def State.emptyTables (s : State) (p : Nat) : State :=
  let pt := s.part p
  let s1 := s.dropTlbs p fun x => x.part == p
  { s1 with
    zeroing := s1.zeroing ++ pt.frames.map fun f => (f, p)
    parts := Tab.put s1.parts p { pt with ptes := [], ptes1g := [], tables := [], ablocks := [], pool := [], moving := [] } }

/-- The clusters of a partition wait for their scrub, and its serving state and its reports of lost units are dropped. -/
def State.toScrub (s : State) (p : Nat) : State :=
  { s with
    flt := { s.flt with scrub := (s.clustersOf p).foldl Keys.add s.flt.scrub, losses := s.flt.losses.filter fun x => x.1 != p }
    serves := Tab.del s.serves p }

/-- Kill a partition with a status (R388): its contexts, update commands, sessions, packets and leases end, its cores are fenced, its
frames wait to be zeroed, and its clusters wait for their scrub. -/
def State.killPart (s : State) (p status : Nat) (destroy : Bool) : State :=
  let pt := s.part p
  if !pt.exist then s
  else
    let s1 := s.mapPart p fun pt =>
      { pt with
        draining := true, destroying := pt.destroying || destroy, preempting := [], updQ := []
        launches := pt.launches.map fun l => { l with code := stKilled } }
    let regs := if (s1.updOf p).en then List.range (s1.updOf p).count else []
    let s2 := regs.foldl (fun s i => s.discardRegion p i) (s1.killCtxs p status)
    let s3 := (s2.killPeers p).killPackets p
    let s4 := (s3.mapColl p fun c => { c with stepBegin := none, vote := none, sums := [], sends := [], inbox := [] }).emptyTables p
    let s5 := (s4.coresOf p).foldl (fun s n => s.mapCore n fun k => { k with fenced := true }) s4
    ((s5.toScrub p).mapPart p fun pt =>
      { pt with killed := true, faults := [], moved := [], faultQ := [], withheld := false, loads := [], loadN := 0, cover := [], faulted := false }).partEvent p (some status) 0

/-- Destruction is complete: the clusters return to the pool, the rings of the partition are disabled, its registers return to reset
values, its pending frames go to the free pool, and PART_DESTROY replies (R299, R338, R389). -/
def State.endDestroy (s : State) (p : Nat) : State :=
  let pt := s.part p
  let s1 := (s.clustersOf p).foldl (fun s k => s.setCluster k { s.cluster k with owner := none, acct := 0, frac := 0, cycCores := [], stretch := s.pwr.limiting }) s
  let hp := s1.hport pt.port
  let s2 := s1.setHport pt.port
    { hp with rings := hp.rings.map fun x => if x.2.part = p then (x.1, { x.2 with en := false }) else x }
  let op := hp.rings.findSome? fun x => (x.2.longs.find? fun l => l.part == p && l.opcode == 0x0202).map fun l => (x.1, l.tag)
  let s3 := match op with
    | some (r, t) => s2.finishLong pt.port r t stOk 0 0
    | none => s2
  { s3 with
    zeroing := s3.zeroing.map fun x => if x.2 = p then (x.1, 64) else x
    parts := Tab.del s3.parts p, hpParts := Tab.del s3.hpParts p, upd := Tab.put s3.upd p { s3.updOf p with rtab := 0 }, fltParts := Tab.del s3.fltParts p
    colls := Tab.del s3.colls p, serves := Tab.del s3.serves p
    fab := { s3.fab with addrs := Tab.del s3.fab.addrs p } }

/-- What a scrub leaves of a core: its banks zeroed, those in retention awake, and its control registers at reset; ARR_REPAIR, the
remap and requests in the mesh stay (R388). -/
def Core.scrubbed (k : Core) : Core :=
  { ({} : Core) with
    banks := k.banks.map fun x =>
      match x.2.st with
      | .off | .toOff => x
      | _ => (x.1, {})
    arrays := k.arrays, spare := k.spare, cycles := k.cycles, clk := k.clk, nextId := k.nextId, stamp := k.stamp
    arriving := k.arriving, answers := k.answers }

/-- Zero a core's banks and reset it (R388); a lost core without a spare stays fenced (R373, R375). -/
def State.scrubCore (s : State) (n : Nat) : State :=
  ((List.range 6).foldl (fun s b => s.zeroBank n b) s).mapCore n fun k => { k.scrubbed with fenced := Keys.has s.flt.noSpare n }

/-- SCRUB_COMPLETE (R388): a cluster's fence lifts; with the last cluster of its partition the kill ends. A lost core of the cluster is first
mapped to its spare, which is then scrubbed too (Table 14.6). -/
def execScrubComplete (k : Nat) (s : State) : Out :=
  if 128 ≤ k ∨ s.halts then .next s
  else if !Keys.has s.flt.scrub k ∨ (s.flt.route.any fun x => clusterOf x.1 == k) then .next s
  else
    let s0 := (clusterCores k).foldl State.scrubCore s
    let s1 := { s0 with flt := { s0.flt with scrub := Keys.del s0.flt.scrub k } }
    match (s1.cluster k).owner with
    | none => .next s1
    | some p =>
      if (s1.clustersOf p).any (Keys.has s1.flt.scrub) then .next s1
      else if (s1.part p).destroying then .next (s1.endDestroy p)
      else .next ((s1.mapPart p fun pt => { pt with draining := false }).partEvent p none 0)

/-- PENDING_FRAME_ZEROED (R389). -/
def execPendingFrameZeroed (f : Nat) (s : State) : Out :=
  let lo := f * 2 ^ 21
  let hi := lo + 2 ^ 21
  let out (l : Nat) : Bool := l * 64 < lo || hi ≤ l * 64
  if (s.zeroing.any fun x => x.1 == f) ∧ !s.halts then
    .next { s with
      zeroing := s.zeroing.filter fun x => x.1 != f
      mem := s.mem.filter fun c => c.1 < lo || hi ≤ c.1
      poison := s.poison.filter out
      cv := s.cv.filter out
      codeErr := s.codeErr.filter fun c => out c.1 }
  else .next s

end Sys2Proof.Machine
end

