-- ==== Sys2Proof/Machine/Memory.lean ====
section
/-! DEFINITION. Memory events: walks, migrations, lost pseudo-channels, uncorrectable errors, and host accesses through BAR2 (R205, R206,
R208, R213, R216, R217, R356, R357). -/

namespace Sys2Proof.Machine

/-- What a walk leaves in a die's caches, which hold entries of one partition only: 4,096 page entries in sets of 8, and 256 table entries
(Table 7.5). -/
def DieTlb.fill (t : DieTlb) (p : Nat) (x : Option TlbEnt × List TlbEnt) : DieTlb :=
  let pages := t.pages.filter fun y => y.part == p
  { pages := match x.1 with
      | none => pages
      | some e => cachePut e.same (fun y => y.index % 512 == e.index % 512) 8 e pages
    tables := (x.2 ++ (t.tables.filter fun y => y.part == p && !x.2.any y.same)).take 256 }

/-- PAGE_WALK (R213): the walker of a die reads the tables and fills its translation caches; an address at or above VA_LIMIT has no
entry to read (R215). -/
def execPageWalk (die p va : Nat) (s : State) : Out :=
  if 4 ≤ die ∨ 64 ≤ p ∨ s.halts then .next s
  else if (s.part p).vaLimit ≤ va then .next s
  else .next { s with tlbs := Tab.put s.tlbs die ((Tab.get {} s.tlbs die).fill p ((s.part p).walk p va)) }

/-- Copy `n` bytes as the migration does: data and poison, lines of lost pseudo-channels discarded, end-to-end codes generated anew (R205,
R206, R216). -/
def State.copyRange (s : State) (dst src n : Nat) : State :=
  let inSrc (a : Nat) : Bool := src ≤ a && a < src + n
  let ok (a : Nat) : Bool := !s.isLost a
  let keep (a : Nat) : Bool := !(dst ≤ a && a < dst + n) || !ok a
  let moved := (s.mem.filter fun c => inSrc c.1 && ok (dst + (c.1 - src))).map fun c => (dst + (c.1 - src), c.2)
  { s with
    mem := moved.foldl (fun m c => Memory.write m c.1 c.2) (s.mem.filter fun c => keep c.1)
    poison := ((s.poison.filter fun l => inSrc (l * 64)).map fun l => dst / 64 + (l - src / 64)).foldl Keys.add
      (s.poison.filter fun l => keep (l * 64))
    codeErr := s.codeErr.filter fun c => keep (c.1 * 64) }

/-- Resume every transfer of a partition that waits on a page, after its entry has been written (R215, R216). -/
def State.resumePage (s : State) (p : Nat) (covers : Nat → Bool) : State × Nat :=
  (s.coresOf p).foldl
    (fun a c =>
      (List.range 16).foldl
        (fun (a : State × Nat) n =>
          let sl := (a.1.core c).stSlot n
          if sl.st = .suspended ∧ covers sl.faultVa then
            ((a.1.mapCore c fun k => (k.setStSlot n { sl with st := .active }).refresh), a.2 + 1)
          else a) a) (s, 0)

/-- Copy a 2 MiB page with its check values, which its lines then have (R216, R220). -/
def State.movePage (s : State) (src dst : Nat) : State :=
  let s1 := s.copyRange dst src (2 ^ 21)
  let s2 := s1.copyRange (s1.checkPa dst) (s1.checkPa src) 4096
  { s2 with cv := (rangeIn (dst / 64) 32768).foldl Keys.add s2.cv }

/-- MIGRATION_COMPLETE (R216): the copy ends, the entry is rewritten, the waiting transfers resume and kind 3 is posted. -/
def execMigrationComplete (p va : Nat) (s : State) : Out :=
  if 64 ≤ p ∨ s.halts then .next s
  else
    let pt := s.part p
    let page := va / 2 ^ 21
    match Tab.find pt.moving page, Tab.find pt.ptes page with
    | some (f, detail, fva), some e =>
      let dst := f * 2 ^ 21
      let s4 := (s.movePage (fld (bits e.toNat 47 21) 21) dst).setPart p { pt with
        moving := Tab.del pt.moving page
        ptes := Tab.put pt.ptes page (BitVec.ofNat 64 (dst + 5 + 2 * bits e.toNat 1 1)) }
      let s5 := ((s4.invalidate p [page]).resumePage p fun v => v / 2 ^ 21 == page).1
      .next (s5.raiseFault p fva (fld 3 28 + detail % 2 ^ 28))
    | _, _ => .next s

/-- PSEUDO_CHANNEL_LOSS (R206): the pseudo-channel is marked lost and the frames of its set are retired. -/
def execPseudoChannelLoss (stack pc : Nat) (s : State) : Out :=
  if 8 ≤ stack ∨ 64 ≤ pc then .next s
  else
    let x := s.stack stack
    if x.lost.testBit pc then .next s
    else
      let s1 := { s with
        hbm := Tab.put s.hbm stack { x with lost := x.lost + 2 ^ pc }
        retired := Keys.add s.retired (pc / 2) }
      .next (s1.inField 4 (fld stack 6 + pc) stInternal 0xFF 0)

/-- An error of a line of HBM: a corrected one counts; an uncorrectable one counts, poisons its line and is an in-field error of the
pseudo-channel (R205, R219, R382). Whether the stack's on-die ECC reports it or the line's end-to-end code no longer holds, and then by how
much, is open (log 194). -/
def State.hbmError (s : State) (pa : Nat) (correctable : Bool) : State :=
  let st := (hbmPlace pa).1
  let x := s.stack st
  if correctable then { s with hbm := Tab.put s.hbm st { x with corrected := sat16 x.corrected 1 } }
  else
    ({ s with
      hbm := Tab.put s.hbm st { x with uncorr := sat16 x.uncorr 1 }
      codeErr := Tab.put s.codeErr (pa / 64) ((Config.fresh s.free).toNat % 2 ^ 32), free := s.free + 1
      poison := Keys.add s.poison (pa / 64) } : State).inField 4 (fld st 6 + (hbmPlace pa).2) stPoisoned 0xFF 0

/-- The channel that an attic address lies in: 4 KiB granules rotate over the populated channels in channel order (R207, R208). -/
def State.atticChannel (s : State) (pa : Nat) : Nat :=
  let i := (pa - atticBase) / 4096 % max 1 s.memStat.channels
  if s.memStat.channels = 6 then 2 * i else i

/-- UNCORRECTABLE_ERROR (R205, R208): a line of HBM or the attic is poisoned and counted, or corrected and counted. -/
def execUncorrectableError (pa : Nat) (correctable : Bool) (s : State) : Out :=
  match s.region pa with
  | .hbm => .next (s.hbmError pa correctable)
  | .check => .next (s.hbmError pa correctable)
  | .attic =>
    .next (if correctable then
        { s with memStat := { s.memStat with atticCorr := Tab.put s.memStat.atticCorr (s.atticChannel pa) (Tab.get 0 s.memStat.atticCorr (s.atticChannel pa) + 1) } }
      else { s with memStat := { s.memStat with atticUnc := sat16 s.memStat.atticUnc 1 }, poison := Keys.add s.poison (pa / 64) })
  | _ => .next s

/-- SCRATCH_UNCORRECTABLE (R117): a scratch word's half-line is poisoned, or the word corrected; both are counted. -/
def execScratchUncorrectable (core off : Nat) (correctable : Bool) (s : State) : Out :=
  if 2048 ≤ core ∨ 0xC0000 ≤ off then .next s
  else
    let s1 := s.mapCore core fun k =>
      { k with scr := if correctable then { k.scr with corrected := sat16 k.scr.corrected 1 } else { k.scr with poisoned := sat16 k.scr.poisoned 1 } }
    if correctable then .next s1
    else
      .next (({ s1 with poison := Keys.add s1.poison (scrPa core off / 64) } : State).inField 2 (s1.coreUnit core + fld (bankOf off) 16)
        stPoisoned ((s1.partOf core).getD 0xFF) 0)

/-- PATROL_SCRUB (R205, Table 7.10). -/
def execPatrolScrub (stack : Nat) (s : State) : Out :=
  if 8 ≤ stack ∨ s.halts then .next s
  else
    let x := s.stack stack
    .next { s with hbm := Tab.put s.hbm stack { x with scrubs := (x.scrubs + 1) % 2 ^ 16 } }

/-! BAR2. -/

/-- The partition bound to a function of a port (R353). -/
def State.boundPart (s : State) (port func : Nat) : Option Nat :=
  (List.range 64).find? fun p => (s.part p).exist && (s.part p).port == port && (s.part p).func == func

/-- Whether a function answers memory accesses: its port is up and in D0, and a virtual function exists (R352, R365). -/
def State.answers (s : State) (port func : Nat) : Bool :=
  let h := s.hport port
  h.up && !h.inReset && !h.retry && !h.d3 && (func == 0 || (h.vfEn && func ≤ h.numVfs))

/-- Bytes of a function's BAR2 window (R356). -/
def State.bar2Size (s : State) (port func : Nat) : Nat := 2 ^ (if func = 0 then (s.hport port).bar2 else (s.hport port).vfBar2)

/-- The virtual address of a BAR2 offset (R356). -/
def State.bar2Va (s : State) (port func off : Nat) : Nat := (s.func port func).win + off

/-- The jobs of a partition that run. -/
def State.jobs (s : State) (p : Nat) : List (Nat × Nat) := (s.part p).launches.flatMap fun l => l.live

/-- A host read of poisoned data ends the partition's running job, or kills the partition when none runs (R219, R387). -/
def State.hostPoison (s : State) (p : Nat) : State :=
  let js := s.jobs p
  if js.isEmpty then s.killPart p stPoisoned false
  else
    let s1 := { s with memStat := { s.memStat with kills := sat16 s.memStat.kills 1 } }
    js.foldl (fun s x => s.endOne x.1 x.2 .killed stPoisoned) s1

/-- Count into HP_CNT of a function. -/
def State.mapFunc (s : State) (port func : Nat) (f : HFunc → HFunc) : State := s.setFunc port func (f (s.func port func))

/-- BAR2_READ (R217, R356, R357): Unsupported Request when it does not translate; EP on a poisoned line. -/
def execBar2Read (port func off len : Nat) (s : State) : Out :=
  if 2 ≤ port ∨ 16 ≤ func ∨ len = 0 ∨ 4096 < len ∨ s.bar2Size port func < off + len then .next s
  else if !s.answers port func then .next s
  else
    let ur := s.mapFunc port func fun f => { f with urreads := sat16 f.urreads 1 }
    match s.boundPart port func with
    | none => .next ur
    | some p =>
      match s.vread p (s.bar2Va port func off) len with
      | .error _ => .next ur
      | .ok (bs, bad) =>
        let s1 := { s.vtake p (s.bar2Va port func off) len with busData := BitVec.ofNat 64 (leNat (bs.take 8)) }
        if bad then
          let s2 := s1.mapFunc port func fun f => { f with epreads := sat16 f.epreads 1 }
          .next (({ s2 with memStat := { s2.memStat with hostEp := sat16 s2.memStat.hostEp 1 } } : State).hostPoison p)
        else .next s1

/-- BAR2_WRITE (R217, R356, R357): discarded when it does not translate; a poisoned write poisons each line that it touches. -/
def execBar2Write (port func off : Nat) (data : List Byte) (poisoned : Bool) (s : State) : Out :=
  if 2 ≤ port ∨ 16 ≤ func ∨ data = [] ∨ 4096 < data.length ∨ s.bar2Size port func < off + data.length then .next s
  else if !s.answers port func then .next s
  else
    let s := if poisoned then s.mapFunc port func fun f => f.logAer .poisonedTlp else s
    let drop := s.mapFunc port func fun f => { f with dropwr := sat16 f.dropwr 1 }
    match s.boundPart port func with
    | none => .next drop
    | some p =>
      if s.vok p (s.bar2Va port func off) data.length true then .next (s.vwrite p (s.bar2Va port func off) data poisoned)
      else .next drop

end Sys2Proof.Machine
end

