-- ==== Sys2Proof/Machine/Packets.lean ====
section
/-! DEFINITION. Command packets: header checks, buffers and replies (R326 to R336, R349), and the packets of identity, power, partitions
and page tables (R212, R214, R215, R297 to R299, R337 to R339). -/

namespace Sys2Proof.Machine

/-- Every host opcode (Table 12.3). -/
def hostOps : List Nat :=
  [0x0101, 0x0102, 0x0103, 0x0104, 0x0201, 0x0202, 0x0203, 0x0301, 0x0302, 0x0303, 0x0401, 0x0402, 0x0403, 0x0404, 0x0501, 0x0502,
   0x0503, 0x0601, 0x0602, 0x0701, 0x0702, 0x0703, 0x0801, 0x0802, 0x0803, 0x0901]

/-- Opcodes that version 2 accepts (Table 12.7). -/
def hostOps2 : List Nat :=
  [0x0101, 0x0102, 0x0201, 0x0202, 0x0203, 0x0301, 0x0302, 0x0303, 0x0401, 0x0402, 0x0403, 0x0404, 0x0703, 0x0901]

/-- Ring kinds of Table 12.3. -/
inductive RingKind where
  | any | port | mgmt | owner | ownerPort
  deriving DecidableEq, Repr

def ringKind (op : Nat) : RingKind :=
  if op = 0x0101 ∨ op = 0x0901 then .any
  else if op = 0x0102 ∨ op = 0x0201 ∨ op = 0x0703 ∨ op = 0x0801 then .port
  else if op = 0x0103 ∨ op = 0x0104 ∨ op = 0x0701 ∨ op = 0x0702 ∨ op = 0x0802 ∨ op = 0x0803 then .mgmt
  else if op = 0x0202 then .ownerPort
  else .owner

/-- Parameter bits that Table 12.4 names: whole byte ranges, and masks of single bytes. -/
def paramFields (op : Nat) (v2 : Bool) : List (Nat × Nat) × List (Nat × Nat) :=
  match op with
  | 0x0101 => ([(8, 15)], [])
  | 0x0102 => ([(8, 19)], [])
  | 0x0103 => ([(8, 9)], [])
  | 0x0104 => ([], [(8, 1)])
  | 0x0201 => if v2 then ([(8, 31)], []) else ([(8, 32), (34, 39)], [(33, 7)])
  | 0x0203 => ([(8, 15)], [])
  | 0x0301 => ([(8, 27)], [(28, 63)])
  | 0x0302 => ([(8, 19)], [(20, 3)])
  | 0x0303 => ([(8, 15)], [(16, 1)])
  | 0x0401 => ([(8, 31)], [])
  | 0x0402 => ([(8, 23), (32, 39)], [(24, 15)])
  | 0x0403 => ([(8, 11)], [(12, 0x8F)])
  | 0x0404 => ([(8, 11)], [(12, 0x8F)])
  | 0x0501 => ([(8, 20)], [])
  | 0x0503 => ([(8, 17)], [])
  | 0x0601 => ([(8, 58)], [(59, 1)])
  | 0x0602 => ([(8, 17)], [])
  | 0x0701 => ([(8, 19)], [])
  | 0x0702 => ([(8, 11), (16, 31)], [(12, 1)])
  | 0x0703 => ([(8, 23)], [])
  | 0x0801 => ([(8, 51)], [])
  | 0x0802 => ([(8, 23)], [(24, 1)])
  | 0x0803 => ([], [(8, 1)])
  | _ => ([], [])

/-- Whether every reserved bit of the header and the parameters is 0 (R331). -/
def Pkt.reservedOk (k : Pkt) : Bool :=
  let f := paramFields k.op (k.ver == 2)
  k.flags < 8 && k.n 7 7 == 0 &&
    (rangeIn 8 56).all fun i =>
      f.1.any (fun r => r.1 ≤ i && i ≤ r.2) ||
        (match f.2.find? fun m => m.1 == i with
          | some m => (k.n i i).land (255 - m.2) == 0
          | none => k.n i i == 0)

/-- Whether a packet waits for its FENCE: a long operation of the ring still runs (Table 12.3a). -/
def State.ringLong (s : State) (port ring : Nat) : List Nat :=
  ((s.ring port ring).longs.map fun l => l.tag) ++
    s.parts.flatMap fun x => (x.2.launches.filter fun l => l.port == port && l.ring == ring).map fun l => l.tag

def State.failPkt (s : State) (k : Pkt) (status : Nat) : State := s.fin k status 0 0

/-- The reply ACCEPTED of a long operation, and whether its final reply will be discarded (R328, R334). -/
def State.accepted (s : State) (k : Pkt) : State × Bool :=
  let s1 := s.reply k.port k.ring k.tag stAccepted 0 0 k.irq false false k.mute
  (s1, k.mute || (s1.ring k.port k.ring).err)

/-- Begin a long operation: it replies ACCEPTED and runs (R334). -/
def State.accept (s : State) (k : Pkt) : State :=
  let a := s.accepted k
  a.1.mapRing k.port k.ring fun r => { r with longs := r.longs ++ [⟨k.tag, k.op, k.part, k.final || r.part == 0xFF, k.b, a.2⟩] }

/-- Check 4 of R332: the kind of ring, and the partition that the packet names. -/
def State.ringOk (s : State) (k : Pkt) : Option Nat :=
  let r := s.ring k.port k.ring
  let pt := s.part k.part
  match ringKind k.op with
  | .any => none
  | .port => if r.part = 0xFF then none else some stDenied
  | .mgmt => if r.part = 0xFF ∧ k.port = s.mgmt then none else some stDenied
  | .owner =>
    if r.part ≠ 0xFF ∧ r.part ≠ k.part then some stDenied
    else if !pt.exist then some (if k.op = 0x0203 then stBadParam else stDenied)
    else if pt.port ≠ k.port then some stDenied
    else none
  | .ownerPort => if r.part ≠ 0xFF ∨ !pt.exist ∨ pt.port ≠ k.port then some stDenied else none

/-- Whether the partition that an owner's packet names is being killed or destroyed (R334). -/
def State.dying (s : State) (k : Pkt) : Bool :=
  (ringKind k.op == .owner || ringKind k.op == .ownerPort) && k.op != 0x0203 && (s.part k.part).draining &&
    !(k.op == 0x0202 && !(s.part k.part).destroying)

/-- Whether the dispatch cores act on packets: in READY and ACTIVE with no shed in force, and in recovery start-up (R404, R422). -/
def State.served (s : State) : Bool := (s.powered && !s.sup.shed) || s.boot.recovery

/-- Opcodes of recovery start-up (R404). -/
def recoveryOps : List Nat := [0x0101, 0x0901, 0x0703, 0x0802, 0x0803]

/-- Opcodes that reply DENIED while an activation runs (Tables 15.9, 15.9a). -/
def activationDenied : List Nat := [0x0201, 0x0702, 0x0802, 0x0803]

/-- Whether start-up or an activation denies an opcode (R404, R411). -/
def State.bootDenies (s : State) (op : Nat) : Bool :=
  (s.boot.recovery && !recoveryOps.contains op) || (s.boot.act.isSome && activationDenied.contains op)

/-- Whether a page-table operation of a partition, taken earlier, is still to be performed: a packet, or the exchanges of a commit
(R333). -/
def State.pageAhead (s : State) (p seq : Nat) : Bool :=
  ((s.pageSeqs p).any fun q => q < seq) || (s.part p).updQ.head?.any UpdCmd.exchanging

/-- Act on the packet that a ring took first, when it carries opcode `op` (R332, R333). `body` gives the state after the packet, or nothing
while the packet waits. -/
def packet (op port ring : Nat) (s : State) (body : Pkt → State → Option State) : Out :=
  if 2 ≤ port ∨ 256 ≤ ring then .next s
  else
    let r := s.ring port ring
    match r.taken with
    | [] => .next s
    | x :: t =>
      let k := x.pkt port ring
      if k.op ≠ op ∨ (s.hport port).d3 then .next s
      else if !s.served ∧ !s.bootDenies op then .next s
      else if k.fence ∧ !(s.ringLong port ring).isEmpty then .next s
      else if pageOps.contains k.op ∧ s.pageAhead k.part k.seq then .next s
      else
        let s1 := s.setRing port ring { r with taken := t }
        if !k.reservedOk ∨ k.tag = 0xFFFF ∨ (s.ringLong port ring).contains k.tag then .next (s1.failPkt k stBadParam)
        else
          match s1.ringOk k with
          | some st => .next (s1.failPkt k st)
          | none =>
            if s1.bootDenies op then .next (s1.failPkt k stDenied)
            else if s1.dying k then .next (s1.failPkt k stKilled)
            else
              match body k s1 with
              | some s2 => .next s2
              | none => .next s

/-- Read a packet's buffer: the state in which it has been read, and its bytes or the failure. Data of a poisoned line is used as it is: R219
names no sink here (DEDUCED, log 208). -/
def State.read (s : State) (k : Pkt) (addr n : Nat) : State × Except Nat (List Byte) :=
  (s.bufTake k.port k.ring addr n, (s.bufRead k.port k.ring addr n).map Prod.fst)

/-- Write the buffer and reply with OK, or reply with the failure. -/
def State.writeFin (s : State) (k : Pkt) (addr : Nat) (bs : List Byte) (detail value : Nat) : State :=
  match s.bufWrite k.port k.ring addr bs with
  | .ok s1 => s1.fin k stOk detail value
  | .error st => s.failPkt k st

/-! Identity, capabilities, power. -/

/-- Stepping letter, stepping digit and grade of the part, in ASCII (R3, R337). -/
def stepping : List Byte :=
  [BitVec.ofNat 8 (65 + Config.stepLetter.val), BitVec.ofNat 8 (48 + Config.stepDigit.val), if Config.extended then 0x58 else 0x43]

/-- The ordering code AVT4-ss-g (R3). -/
def orderingCode : List Byte := ascii "AVT4-" ++ stepping.take 2 ++ ascii "-" ++ stepping.drop 2

/-- The 128 bytes of IDENTIFY (Table 12.4). -/
def State.idBytes (s : State) : List Byte :=
  sized 16 orderingCode ++ s.serial ++ s.iddig ++ leBytes 8 s.boot.version ++ leBytes 8 s.mram.floor ++ List.replicate 48 0

/-- IDENTIFY (R337). -/
def execIdentify (port ring : Nat) (s : State) : Out :=
  packet 0x0101 port ring s fun k s =>
    let buf := k.n 8 15
    let value := leNat stepping + fld 0x0C 24 + fld (s.boot.version % 2 ^ 32) 32
    let detail := port + 2 * b01 (port == s.mgmt)
    if buf = 0 then s.fin k stOk detail value else s.writeFin k buf s.idBytes detail value

/-- Frames of HBM and of the attic that no quota or retirement takes (Table 11.2, log 61). -/
def State.freeHbm (s : State) : Nat :=
  511 * 512 - s.retired.length * 8176 - (s.partList.map fun p => (s.part p).hbmq * 512).sum

def State.freeAttic (s : State) : Nat :=
  (s.atticCap - s.atticCap / 512) / 2 ^ 21 - (s.partList.map fun p => (s.part p).atticq * 512).sum

def State.shareSum (s : State) : Nat := (s.partList.map fun p => (s.part p).share).sum

/-- The 64 bytes of GET_CAPS (Table 12.6). -/
def State.capsBytes (s : State) : List Byte :=
  let free := (List.range 128).foldl (fun a c => a + if (s.cluster c).owner.isNone && !(s.cluster c).withdrawn then 2 ^ c else 0) 0
  leBytes 2 2048 ++ leBytes 2 (64 - s.partList.length) ++ leBytes 16 free ++ leBytes 4 (s.freeHbm / 512) ++
    leBytes 4 (s.freeAttic / 512) ++ leBytes 1 (64 - s.shareSum) ++ leBytes 1 0 ++ leBytes 2 (s.pwr.floorMax - s.floorSum) ++
    leBytes 2 (4096 - s.fab.peers.length) ++ List.replicate 30 0

/-- GET_CAPS (Table 12.4). -/
def execGetCaps (port ring : Nat) (s : State) : Out :=
  packet 0x0102 port ring s fun k s =>
    if k.n 16 19 < 64 then s.failPkt k stBadParam
    else
      s.writeFin k (k.n 8 15) s.capsBytes 0 64

/-- SET_POWER_CAP (R305, R324). -/
def execSetPowerCap (port ring : Nat) (s : State) : Out :=
  packet 0x0103 port ring s fun k s =>
    let cap := k.n 8 9
    if cap < 1200 ∨ 3000 < cap then s.failPkt k stBadParam
    else
      let r := s.setCap cap
      if r.1 then r.2.fin k stOk 0 r.2.pwr.floorMax else s.failPkt k stBudgetDenied

/-- Whether a port has an enabled port ring. -/
def State.hasPortRing (s : State) (port : Nat) : Bool := (s.hport port).rings.any fun x => x.2.en && x.2.part == 0xFF

/-- Move the management role (R363, R364). -/
def State.moveRole (s : State) (port : Nat) : State := { s with mgmt := port, moves := (s.moves + 1) % 16, mgmtPend := false }

/-- GRANT_MGMT (R363): packets already taken from the other management rings are finished first,
but for another GRANT_MGMT that waits in the same way. -/
def execGrantMgmt (port ring : Nat) (s : State) : Out :=
  packet 0x0104 port ring s fun k s =>
    let t := bits (k.n 8 8) 0 0
    if t = s.mgmt then s.fin k stOk 0 0
    else if !s.hasPortRing t then s.failPkt k stNoResource
    else if (s.hport port).rings.any fun x => x.1 != ring && x.2.part == 0xFF && x.2.taken.head?.any fun t => num t.b 0 1 != 0x0104 then none
    else (s.moveRole t).fin k stOk 0 0

/-- POWER_STATE: PWR_STATUS as Table 11.12 lays it out. -/
def State.pwrStatus (s : State) : Nat :=
  fld (s.pwr.pin % 4096) 52 + fld (s.pwr.punc % 4096) 40 + fld s.pwr.limits 24 + fld (b01 s.pwr.capref) 8 + fld s.pwr.thstep 6 + s.pwr.devState

def execPowerState (port ring : Nat) (s : State) : Out :=
  packet 0x0901 port ring s fun k s => s.fin k stOk s.pwr.devState s.pwrStatus

/-! Partitions. -/

/-- Save areas of a version 2 partition (Table 12.7): bytes of the region at the top of its space. -/
def v2Region (cores : Nat) : Nat := roundUp (cores * 458752) (2 ^ 21)

/-- Whether a virtual function exists on a port (R352, R353). -/
def State.vfExists (s : State) (port f : Nat) : Bool := f == 0 || ((s.hport port).vfEn && f ≤ (s.hport port).numVfs)

/-- Frames that MAP_PAGES may not hand out now: held by any partition, pending or retired. -/
def State.frameTaken (s : State) (f : Nat) : Bool :=
  (frameHbm f && Keys.has s.retired (f % 32)) || s.zeroing.any (fun x => x.1 == f) || s.partList.any fun p => (s.part p).frames.contains f

/-- The lowest free HBM frames from `f` on. -/
def State.pickFrames (s : State) : Nat → Nat → Nat → List Nat
  | 0, _, _ => []
  | fuel + 1, n, f =>
    if n = 0 then [] else if s.frameTaken f then s.pickFrames fuel n (f + 1) else f :: s.pickFrames fuel (n - 1) (f + 1)

/-- What PART_CREATE asks for. -/
structure Create where
  clusters : List Nat
  vaLimit : Nat
  hbmq : Nat
  atticq : Nat
  share : Nat
  pstep : Nat
  acache : Bool
  nctx : Nat
  func : Nat
  floor : Nat
  ceil : Nat
  v2 : Bool

def Pkt.create (k : Pkt) : Create :=
  let v2 := k.ver == 2
  let z (x : Nat) : Nat := if v2 then 0 else x
  { clusters := (List.range 128).filter fun c => (k.n 8 23).testBit c
    vaLimit := k.n 24 27, hbmq := k.n 28 29, atticq := k.n 30 31, share := z (k.n 32 32)
    pstep := z (bits (k.n 33 33) 1 0), acache := !v2 && bit (k.n 33 33) 2
    nctx := if v2 then 7 else k.n 34 34, func := z (k.n 35 35), floor := z (k.n 36 37), ceil := z (k.n 38 39), v2 := v2 }

/-- The first refusal of PART_CREATE that applies (Table 11.2, R338, R353, Table 12.7). -/
def State.createFail (s : State) (k : Pkt) (c : Create) : Option Nat :=
  let pages := v2Region (16 * c.clusters.length) / 2 ^ 21
  if c.clusters.length < 2 ∨ c.clusters.any (fun j => (s.cluster j).owner.isSome || (s.cluster j).withdrawn) ∨ 64 ≤ k.part ∨
      (c.ceil ≠ 0 ∧ c.ceil < c.floor) ∨ 3000 < c.ceil ∨ c.nctx < 7 ∨ 16 < c.nctx ∨ c.vaLimit = 0 ∨ 2 ^ 18 < c.vaLimit ∨
      c.hbmq = 0 ∨ 511 < c.hbmq ∨ 64 < c.share ∨ 15 < c.func ∨ !s.vfExists k.port c.func then some stBadParam
  else if s.partList.any fun p => (s.part p).port == k.port && (s.part p).func == c.func then some stDenied
  else if (s.part k.part).exist ∨ 64 < s.shareSum + c.share ∨ s.freeHbm < c.hbmq * 512 ∨ s.freeAttic < c.atticq * 512 then some stNoResource
  else if c.v2 ∧ (c.hbmq * 512 < pages + 1 ∨ c.vaLimit * 512 < pages) then some stNoResource
  else if s.pwr.floorMax < s.floorSum + c.floor then some stBudgetDenied
  else none

/-- Abandon test-bundle runs on clusters that a partition takes (R386). -/
def State.abandonTests (s : State) (cs : List Nat) : State :=
  { s with flt := { s.flt with tests := s.flt.tests.map fun t =>
      { t with running := t.running.filter fun c => !cs.contains c, skipped := t.skipped + (t.running.filter cs.contains).length } } }

/-- Give a new partition its clusters, scrubbed first where a test ran on them: the clusters take PSTEP as their clock step, or with
FLOOR = 0 stay at or below it (Table 11.1, R311); the fast limiter stretches no cluster with FLOOR > 0 (R310). -/
def State.giveClusters (s : State) (p : Nat) (c : Create) : State :=
  let busy := c.clusters.filter fun j => s.flt.tests.any fun t => t.running.contains j
  let s0 := (busy.flatMap clusterCores).foldl State.scrubCore (s.abandonTests c.clusters)
  let s1 := c.clusters.foldl
    (fun s j =>
      let cl := s.cluster j
      s.setCluster j { cl with
        owner := some p, acct := 0, frac := 0, cycCores := [], stretch := s.pwr.limiting && c.floor == 0
        step := if 0 < c.floor then c.pstep else max c.pstep cl.step }) s0
  (c.clusters.flatMap clusterCores).foldl
    (fun s n => s.mapCore n fun x => { x with swapEn := true, quantum := 0x186A0, banks := [], fenced := Keys.has s.flt.noSpare n }) s1

/-- Frames that pages are moving to return to the pool when their entries go (R214, R216). -/
def Part.dropMoves (pt : Part) (f : Nat → Bool) : Part :=
  { pt with
    pool := pt.pool ++ (pt.moving.filter fun x => f x.1).map fun x => x.2.1
    moving := pt.moving.filter fun x => !f x.1 }

/-- The dispatch cores make the table of a level over an address where there is none (R210, R212). -/
def Part.addTable (pt : Part) (p level va : Nat) : Part :=
  let k := tableKey level va
  if (Tab.find pt.tables k).isSome then pt else { pt with tables := Tab.put pt.tables k (Config.tableAt p k % (hbmTop / 4096) * 4096) }

/-- Put one entry or pool frame. A page of 1 GiB replaces a level-3 table with no present entry, whose frame is freed (R212). -/
def Part.mapOne (pt : Part) (p : Nat) (g w c m pool : Bool) (va fa : Nat) : Part :=
  let e := BitVec.ofNat 64 (fa + fld (b01 c) 4 + fld (b01 m) 3 + 4 + fld (b01 w) 1 + b01 (!m))
  if pool then { pt with pool := pt.pool ++ [fa / 2 ^ 21] }
  else if g then
    let old (i : Nat) : Bool := i / 512 == va / 2 ^ 30
    let pt1 := (pt.addTable p 2 va).dropMoves old
    { pt1 with
      ptes1g := Tab.put pt1.ptes1g (va / 2 ^ 30) e
      ptes := pt1.ptes.filter fun x => !old x.1
      tables := Tab.del pt1.tables (tableKey 3 va) }
  else
    let pt1 := ((pt.addTable p 2 va).addTable p 3 va).dropMoves fun i => i == va / 2 ^ 21
    { pt1 with ptes := Tab.put pt1.ptes (va / 2 ^ 21) e }

/-- The partition that a PART_CREATE makes, with the pages of the version 2 region from the top of its address space down (R299). -/
def State.newPart (s : State) (k : Pkt) (c : Create) : Part :=
  let pages := if c.v2 then v2Region (16 * c.clusters.length) / 2 ^ 21 else 0
  let fs := s.pickFrames (511 * 512) pages 0
  let pt : Part := { ({} : Part) with
    exist := true, port := k.port, func := c.func, params := slice k.b 8 63, vaLimit := c.vaLimit * 2 ^ 30, hbmq := c.hbmq, atticq := c.atticq
    share := c.share, pstep := c.pstep, acache := c.acache, nctx := c.nctx, floor := c.floor, ceil := c.ceil, v2 := c.v2 }
  fs.zipIdx.foldl (fun pt x => pt.mapOne k.part false true false false false ((c.vaLimit * 512 - pages + x.2) * 2 ^ 21) (x.1 * 2 ^ 21)) pt

/-- PART_CREATE (R297 to R299, R338). -/
def execPartCreate (port ring : Nat) (s : State) : Out :=
  packet 0x0201 port ring s fun k s =>
    let c := k.create
    match s.createFail k c with
    | some st => s.failPkt k st
    | none =>
      let s2 := s.giveClusters k.part c
      let s3 := s2.setPart k.part (s2.newPart k c)
      ({ s3 with hpParts := Tab.put s3.hpParts k.part { ({} : HpPart) with func := c.func } } : State).fin k stOk 0 0

/-- PART_DESTROY (R299, R338). -/
def execPartDestroy (port ring : Nat) (s : State) : Out :=
  packet 0x0202 port ring s fun k s =>
    let s1 := s.accept k
    if (s1.part k.part).draining then s1.mapPart k.part fun pt => { pt with destroying := true } else s1.killPart k.part stKilled true

/-- PART_INFO (Table 11.13). -/
def State.partInfo (s : State) (p : Nat) : Nat :=
  let pt := s.part p
  if !pt.exist then 0
  else fld 1 63 + fld pt.port 62 + fld pt.pstep 60 + fld pt.share 53 + fld pt.floor 41 + fld pt.ceil 29 + (s.clustersOf p).length

/-- Page-table frames of a partition: the level-1 table and those of levels 2 and 3, 512 tables of 4 KiB in each frame (R212, log 62). -/
def Part.tableFrames (pt : Part) : Nat := cdiv (1 + pt.tables.length) 512

/-- HBM and attic frames that count against a partition's quota (R297, R389). -/
def State.held (s : State) (p : Nat) : Nat × Nat :=
  let pt := s.part p
  let fs := pt.frames ++ (s.zeroing.filter fun x => x.2 == p).map fun x => x.1
  ((fs.filter frameHbm).length + pt.tableFrames + (if pt.acache then 32 else 0), (fs.filter fun f => !frameHbm f).length)

/-- PART_QUERY (Table 12.4). -/
def execPartQuery (port ring : Nat) (s : State) : Out :=
  packet 0x0203 port ring s fun k s =>
    let h := s.held k.part
    let buf := k.n 8 15
    if buf = 0 then s.fin k stOk 0 (s.partInfo k.part)
    else s.writeFin k buf (sized 56 (s.part k.part).params ++ leBytes 4 h.1 ++ leBytes 4 h.2) 0 (s.partInfo k.part)

/-! Page tables (R212, R214, R339). -/

/-- Whether [a, a + n) lies in a mappable range (Table 7.3). -/
def State.mappable (s : State) (a n : Nat) : Bool :=
  a + n ≤ hbmTop || (atticBase ≤ a && a + n ≤ atticBase + s.atticCap - s.atticCap / 512) ||
    (hostBase 0 ≤ a && a + n ≤ hostBase 1) || (hostBase 1 ≤ a && a + n ≤ hostBase 2)

/-- First page of the device's own save region of a version 2 partition. -/
def State.v2Base (s : State) (p : Nat) : Nat :=
  let pt := s.part p
  if pt.v2 then pt.vaLimit - v2Region (s.coresOf p).length else pt.vaLimit

/-- One page of a MAP_PAGES request: virtual address and frame. -/
def mapFail (s : State) (p : Nat) (g m c pool : Bool) (va fa : Nat) : Option Nat :=
  let pt := s.part p
  let size := if g then 2 ^ 30 else 2 ^ 21
  let frames := rangeIn (fa / 2 ^ 21) (if g then 512 else 1)
  let local' := fa < hostBase 0
  if fa % size ≠ 0 ∨ !s.mappable fa size ∨ (fa < hbmTop && frames.any fun f => Keys.has s.retired (f % 32)) ∨
      (m && g) ∨ ((m || c) && !(atticBase ≤ fa && local')) ∨ (pool && !Decidable.decide (fa < hbmTop)) then some stBadParam
  else if !pool ∧ (va % size ≠ 0 ∨ pt.vaLimit < va + size) then some stBadParam
  else if !pool ∧ !g ∧ (Tab.find pt.ptes1g (va / 2 ^ 30)).any (fun e => e.toNat.testBit 0) then some stBadParam
  else if !pool ∧ g ∧ (pt.ptes.any fun x => x.1 / 512 == va / 2 ^ 30 && x.2.toNat.testBit 0) then some stBadParam
  else if !local' ∧ hostBase (1 - pt.port) ≤ fa ∧ fa < hostBase (2 - pt.port) then some stDenied
  else if local' ∧ s.partList.any (fun q => q != p && frames.any (s.part q).frames.contains) then some stDenied
  else if !pool ∧ s.v2Base p < va + size then some stDenied
  else none

/-- The pages of a MAP_PAGES: virtual address and frame address, the frames from `list` with LISTED (R339). -/
def Pkt.mapPages (k : Pkt) (list : List Byte) : List (Nat × Nat) :=
  let f := k.n 28 28
  let size := if bit f 0 then 2 ^ 30 else 2 ^ 21
  (List.range (k.n 24 27)).map fun i =>
    (k.n 8 15 + i * size, if bit f 4 then num list (8 * i) (8 * i + 7) else k.n 16 23 + i * size)

/-- The state in which the pages of a MAP_PAGES are mapped, before the quotas are checked (R212, R214). -/
def State.mapAll (s : State) (k : Pkt) (pages : List (Nat × Nat)) : State :=
  let f := k.n 28 28
  s.mapPart k.part fun pt => pages.foldl (fun pt x => pt.mapOne k.part (bit f 0) (bit f 1) (bit f 2) (bit f 3) (bit f 5) x.1 x.2) pt

/-- Whether a partition holds no more than its quotas of frames (R298). -/
def State.inQuota (s : State) (p : Nat) : Bool :=
  let h := s.held p
  h.1 ≤ (s.part p).hbmq * 512 && h.2 ≤ (s.part p).atticq * 512

/-- The reason why a MAP_PAGES is refused before any entry is written (R339). -/
def State.mapFails (s : State) (k : Pkt) (pages : List (Nat × Nat)) : Option Nat :=
  let f := k.n 28 28
  pages.findSome? fun (x : Nat × Nat) => mapFail s k.part (bit f 0) (bit f 3) (bit f 2) (bit f 5) x.1 x.2

/-- Whether a frame of these pages is still being zeroed (R389). -/
def State.mapPends (s : State) (k : Pkt) (pages : List (Nat × Nat)) : Bool :=
  let size := if bit (k.n 28 28) 0 then 2 ^ 30 else 2 ^ 21
  pages.any fun (x : Nat × Nat) => s.zeroing.any fun (z : Nat × Nat) => x.2 / 2 ^ 21 ≤ z.1 && z.1 < (x.2 + size) / 2 ^ 21

/-- Whether the fields of a MAP_PAGES hold values that Table 12.8 allows. -/
def Pkt.mapOk (k : Pkt) : Bool :=
  k.n 24 27 != 0 && k.n 24 27 ≤ 65536 && (!bit (k.n 28 28) 5 || (k.n 8 15 == 0 && k.n 28 28 % 16 == 0))

/-- MAP_PAGES (R212, R214, R339): every page is checked before any entry is written; a pending frame is waited for (R389). -/
def execMapPages (port ring : Nat) (s : State) : Out :=
  packet 0x0301 port ring s fun k s =>
    let p := k.part
    if !k.mapOk then s.failPkt k stBadParam
    else
      match (if bit (k.n 28 28) 4 then s.read k (k.n 16 23) (8 * k.n 24 27) else (s, .ok [])) with
      | (s, .error st) => s.failPkt k st
      | (s, .ok list) =>
        let pages := k.mapPages list
        match s.mapFails k pages with
        | some st => s.failPkt k st
        | none =>
          if s.mapPends k pages then none
          else
            let s1 := s.mapAll k pages
            if !s1.inQuota p then s.failPkt k stNoResource
            else
              let size := if bit (k.n 28 28) 0 then 2 ^ 30 else 2 ^ 21
              let old := if bit (k.n 28 28) 5 then [] else pages.flatMap fun x => rangeIn (x.1 / 2 ^ 21) (size / 2 ^ 21)
              (s1.invalidate p old).fin k stOk 0 (k.n 24 27)

/-- The entries of a run that are present: P = 1 (R214, R339, Table 7.4). -/
def Part.mapped (pt : Part) (g : Bool) (first count : Nat) : List Nat :=
  let has (e : Option W64) : Bool := e.any fun e => e.toNat.testBit 0
  (rangeIn first count).filter fun i => has (if g then Tab.find pt.ptes1g i else Tab.find pt.ptes i)

/-- Clear entries (R214). -/
def Part.unmap (pt : Part) (g : Bool) (gone : List Nat) : Part :=
  if g then { pt with ptes1g := gone.foldl Tab.del pt.ptes1g } else { pt with ptes := gone.foldl Tab.del pt.ptes }

/-- Whether the fields of an UNMAP hold values that Table 12.8 allows. -/
def State.unmapOk (s : State) (k : Pkt) : Bool :=
  let size := if bit (k.n 20 20) 0 then 2 ^ 30 else 2 ^ 21
  let pool := bit (k.n 20 20) 1
  k.n 16 19 != 0 && k.n 16 19 ≤ 65536 && k.n 8 15 % size == 0 && !(pool && bit (k.n 20 20) 0) &&
    (pool || k.n 8 15 + k.n 16 19 * size ≤ (s.part k.part).vaLimit)

/-- UNMAP (R214, R339): entries that are not present stay and do not count; with POOL, frames are taken back from the pool. -/
def execUnmap (port ring : Nat) (s : State) : Out :=
  packet 0x0302 port ring s fun k s =>
    let p := k.part
    let pt := s.part p
    let va := k.n 8 15
    let count := k.n 16 19
    let g := bit (k.n 20 20) 0
    let size := if g then 2 ^ 30 else 2 ^ 21
    if !s.unmapOk k then s.failPkt k stBadParam
    else if bit (k.n 20 20) 1 then
      let fs := rangeIn (va / 2 ^ 21) count
      (s.setPart p { pt with pool := pt.pool.filter fun x => !fs.contains x }).fin k stOk 0 (pt.pool.filter fs.contains).length
    else if s.v2Base p < va + count * size then s.failPkt k stDenied
    else
      let gone := pt.mapped g (va / size) count
      ((s.setPart p (pt.unmap g gone)).invalidate p (gone.flatMap fun i => rangeIn (i * (size / 2 ^ 21)) (size / 2 ^ 21))).fin k stOk 0 gone.length

/-- Stop every transfer that waits on a page: each context ends with PAGE_FAULT and its job with it (R160, R368). -/
def State.stopPage (s : State) (p : Nat) (covers : Nat → Bool) : State × Nat :=
  (s.coresOf p).foldl
    (fun a c =>
      (List.range 16).foldl
        (fun (a : State × Nat) n =>
          let sl := (a.1.core c).stSlot n
          if sl.st = .suspended ∧ covers sl.faultVa then
            ((a.1.mapCore c fun k => k.setStSlot n sl.emptied).faultCtx c sl.lctx stPageFault true, a.2 + 1)
          else a) a) (s, 0)

/-- FAULT_RESOLVE (R160, R215): the notice of the page is answered; its transfers resume, or stop with FAIL. -/
def execFaultResolve (port ring : Nat) (s : State) : Out :=
  packet 0x0303 port ring s fun k s =>
    let p := k.part
    let answered := (s.part p).faults.filter fun f => f.covers (k.n 8 15)
    if answered.isEmpty then s.failPkt k stBadParam
    else
      let s1 := s.mapPart p fun pt => { pt with faults := pt.faults.filter fun f => !f.covers (k.n 8 15) }
      let on (v : Nat) : Bool := answered.any fun f => f.covers v
      let r := if bit (k.n 16 16) 0 then s1.stopPage p on else s1.resumePage p on
      ((r.1.admitFaults p).partEvent p none 0).fin k stOk 0 r.2

end Sys2Proof.Machine
end

