-- ==== Sys2Proof/Machine/Launch.lean ====
section
/-! DEFINITION. Packets that load, launch, pre-empt and resume contexts, and those of steps, peers and serving (R104, R251, R320 to R323,
R340 to R344). -/

namespace Sys2Proof.Machine

/-! Loading. -/

/-- First window offset of the reserved save areas of a partition, if it has any (R22). -/
def Part.saveBase (pt : Part) : Option Nat := if 7 < pt.nctx then some (0xC0000 - pt.nctx * 0x2000) else none

/-- Whether `n` bytes at a window offset touch a reserved save area (R22). -/
def Part.hitsSave (pt : Part) (off n : Nat) : Bool := n != 0 && off < 0xC0000 && pt.saveBase.any fun b => b < off + n

/-- The cores that a packet names. -/
def coreRun (first count : Nat) : List Nat := rangeIn first count

/-- Whether every named core belongs to a partition. -/
def State.allIn (s : State) (p : Nat) (cs : List Nat) : Bool := cs.all fun c => c < 2048 && s.partOf c == some p

/-- Progress of the long operation accepted most recently (R346). -/
def State.setProgress (s : State) (p : Nat) (op : Nat × Nat × Nat) (n : Nat) : State :=
  s.mapPart p fun pt => if pt.progOp = some op then { pt with progress := n } else pt

/-- Progress belongs to the long operation accepted most recently (R346). -/
def State.startProgress (s : State) (p : Nat) (op : Nat × Nat × Nat) : State :=
  s.mapPart p fun pt => { pt with progOp := some op, progress := 0 }

/-- LOAD_STREAMS (R340): accepted, and kept for a relaunch (R373, R374); LOAD_STREAMS_COMPLETE does the copies. -/
def execLoadStreams (port ring : Nat) (s : State) : Out :=
  packet 0x0401 port ring s fun k s =>
    let p := k.part
    let len := k.n 16 19
    let cs := coreRun (k.n 24 25) (k.n 26 27)
    let off := k.n 28 31
    if !s.allIn p cs then s.failPkt k stDenied
    else if len % 16 ≠ 0 ∨ off % 16 ≠ 0 ∨ cs.isEmpty ∨ 0xC0000 < off + len ∨ (s.part p).hitsSave off len then s.failPkt k stBadParam
    else
      let s1 := (s.accept k).mapPart p fun pt =>
        { pt with loads := pt.loads.drop (pt.loads.length - 63) ++ [(port, ring, k.b)], loadN := pt.loadN + 1 }
      (s1.startProgress p (port, ring, k.tag)).partEvent p none 0

/-- Copy one image into the scratch of a core with the poison of its lines (R219, R340); a status when it fails, or nothing while a bank
wakes. -/
def State.loadCore (s : State) (k : Pkt) (i : Nat) : Except (Option Nat) State :=
  let core := k.n 24 25 + i
  let off := k.n 28 31
  let len := k.n 16 19
  if (s.core core).bankIsOff off len then .error (some stBankOff)
  else if !(s.core core).bankIsOn off len then .error none
  else
    let va := k.n 8 15 + i * k.n 20 23
    match s.bufRead k.port k.ring va len with
    | .error st => .error (some st)
    | .ok (bs, bad) => .ok ((s.bufTake k.port k.ring va len).wrBads (scrPa core off) bs bad)

/-- Copy images from core `i` on: the state, the cores loaded, and the failure if any. -/
def State.loadRun (s : State) (k : Pkt) : Nat → Nat → State × Nat × Option (Option Nat)
  | 0, i => (s, i, none)
  | n + 1, i =>
    match s.loadCore k i with
    | .error e =>
      (if e = some stBankOff then s.mapCore (k.n 24 25 + i) Core.noteOff
        else if e = none then s else s.bufTake k.port k.ring (k.n 8 15 + i * k.n 20 23) (k.n 16 19), i, some e)
    | .ok s1 => s1.loadRun k n (i + 1)

/-- LOAD_STREAMS_COMPLETE (R340): the oldest LOAD_STREAMS of the ring copies its images and ends; a bank that is off ends it with the
cores before it loaded, a bank that sleeps is woken first. -/
def execLoadStreamsComplete (port ring : Nat) (s : State) : Out :=
  if 2 ≤ port ∨ 256 ≤ ring ∨ s.halts then .next s
  else
    match (s.ring port ring).longs.find? fun l => l.opcode == 0x0401 with
    | none => .next s
    | some l =>
      let k : Pkt := { port := port, ring := ring, b := l.pkt }
      let r := s.loadRun k (k.n 26 27) 0
      let s1 := r.1.setProgress l.part (port, ring, l.tag) r.2.1
      match r.2.2 with
      | some none => .next (s.mapCore (k.n 24 25 + r.2.1) fun x => x.arriveAll (k.n 28 31) (k.n 16 19))
      | some (some st) => .next (s1.finishLong port ring l.tag st 0 r.2.1)
      | none => .next (s1.finishLong port ring l.tag stOk 0 r.2.1)

/-! Launches. -/

/-- Whether a pair meets R131 and R132 for a context of a core. -/
def State.pairLegal (s : State) (core : Nat) (p : Pair) : Bool :=
  match p.mode with
  | 0 =>
    p.creg == 0 &&
      (p.lim == 0 ||
        (match s.region p.addr with
          | .scratch v t o =>
            s.partOf t == s.partOf core && p.lim ≤ 65536 &&
              Decidable.decide (o + p.lim * 16 ≤ if v = 0 ∧ t = core then 0x100000 else 0xC0000)
          | _ => false))
  | 1 => p.addr == 0
  | _ => false

/-- Window offset and length of a linear pair's extent, in any view. -/
def State.pairExtent (s : State) (p : Pair) : Nat × Nat :=
  match s.region p.addr with
  | .scratch _ _ o => (o, if p.mode = 0 then p.lim * 16 else 0)
  | _ => (0, 0)

/-- Place of a core among the cores of its partition, in ascending logical id (Table 12.7). -/
def State.coreIndex (s : State) (core : Nat) : Nat :=
  ((List.range core).filter fun c => s.partOf c == s.partOf core).length

/-- The context that a launch record starts (Table 12.5; version 2 under Table 12.7). -/
def State.recCtx (s : State) (p core lctx : Nat) (v2 : Bool) (b : List Byte) : Ctx :=
  let pairs := (List.range 4).foldl
    (fun t i => Tab.put t i (⟨BitVec.ofNat 64 (num b (16 * i) (16 * i + 7)), BitVec.ofNat 64 (num b (16 * i + 8) (16 * i + 15))⟩ : Pair)) []
  if v2 then
    { ({} : Ctx) with lctx := lctx, pairs := pairs, perf := true,
                      psave := BitVec.ofNat 64 ((s.part p).vaLimit - (7 * s.coreIndex core + lctx + 1) * 65536) }
  else
    { ({} : Ctx) with lctx := lctx, pairs := pairs, psave := BitVec.ofNat 64 (num b 64 71), fptr := ⟨bits (num b 72 75) 17 16, num b 72 73⟩,
                      eclass := bits (num b 76 76) 3 0, perf := bit (num b 76 76) 4 }

/-- Whether a launch record is well formed for a core (R341). -/
def State.recOk (s : State) (p core : Nat) (v2 : Bool) (b : List Byte) : Bool :=
  let c := s.recCtx p core 0 v2 b
  let pairOk (i : Nat) : Bool :=
    let x := c.pair i
    x.base.toNat / 2 ^ 48 == 0 && x.limit.toNat / 2 ^ 17 == 0 && s.pairLegal core x &&
      !(s.part p).hitsSave (s.pairExtent x).1 (s.pairExtent x).2
  (List.range 4).all pairOk &&
    (if v2 then zeroAt b 64 127
     else c.psave.toNat / 2 ^ 48 == 0 && c.psave.toNat % 65536 == 0 && num b 72 75 / 2 ^ 18 == 0 && num b 76 76 < 32 && zeroAt b 77 127)

/-- Put a launched context into a free slot as READY, or make it SWAPPED (Table 1.5). -/
def Core.launch (k : Core) (core : Nat) (c0 : Ctx) : Core :=
  let c := c0.freshRegs core k.stamp
  let k1 := { k with ended := Tab.del k.ended c.lctx, stamp := k.stamp + 1 }
  (match k1.freeSlot with
    | some n => k1.setSlot n { c with st := .ready, inAt := k.stamp }
    | none => { k1 with images := Tab.put k1.images c.lctx c }).refresh

/-- The launch records of a packet, one for each core (R341). -/
def State.launchRecs (s : State) (port ring recAddr stride n : Nat) : Except Nat (List (List Byte)) :=
  (List.range n).mapM fun i => (s.bufRead port ring (recAddr + i * stride) 128).map Prod.fst

/-- The launch records of a packet have been read. -/
def State.recsTake (s : State) (port ring recAddr stride n : Nat) : State :=
  (List.range n).foldl (fun s i => s.bufTake port ring (recAddr + i * stride) 128) s

/-- Write the first save image of a context that starts in SWAPPED (Tables 1.4, 1.5). -/
def State.firstImage (s : State) (core lctx : Nat) : State :=
  match Tab.find (s.core core).images lctx with
  | some c => (s.writeImage core c).mapCore core fun k => { k with images := Tab.put k.images lctx c.noted }
  | none => s

/-- Start one context on each of a launch's cores. -/
def State.startAll (s : State) (p lctx : Nat) (v2 : Bool) (xs : List (Nat × List Byte)) : State :=
  xs.foldl (fun s x => (s.mapCore x.1 fun k => k.launch x.1 (s.recCtx p x.1 lctx v2 x.2)).firstImage x.1 lctx) s

/-- The launch that a LAUNCH packet begins (Table 12.3). -/
def Pkt.launch (k : Pkt) : Launch :=
  let lctx := bits (k.n 24 24) 3 0
  { port := k.port, ring := k.ring, tag := k.tag, final := k.final, irq := k.irq, lctx := lctx, first := k.n 20 21, count := k.n 22 23
    recAddr := k.n 8 15, recStride := k.n 16 19, v2 := k.ver == 2, rpt := k.n 32 39
    live := (coreRun (k.n 20 21) (k.n 22 23)).map fun c => (c, lctx), ended := 0, code := 0, codeDetail := 0 }

/-- The partition with a launch begun: its counts and its progress start again (R340). -/
def Part.begin (pt : Part) (l : Launch) : Part :=
  let op := (l.port, l.ring, l.tag)
  { pt with
    launches := pt.launches ++ [{ l with loadsAt := pt.loadN }], launchedN := l.count, endedN := 0, firstFault := 0, killed := false, faulted := false
    cover := (coreRun l.first l.count).foldl (fun t c => Tab.put t c pt.loadN) pt.cover, progress := 0, progOp := some op, lastLaunch := some op }

/-- Reply ACCEPTED and start the contexts of a launch (R17, R340). -/
def State.begin (s : State) (k : Pkt) (xs : List (Nat × List Byte)) : State :=
  let a := s.accepted k
  ((a.1.mapPart k.part fun pt => pt.begin { k.launch with mute := a.2 }).startAll k.part k.launch.lctx k.launch.v2 xs).partEvent k.part none 0

/-- Whether the fields of a LAUNCH hold values that Table 12.8 allows. -/
def State.launchOk (s : State) (k : Pkt) : Bool :=
  k.launch.lctx < (s.part k.part).nctx && k.launch.count != 0 && (!k.launch.v2 || k.launch.rpt == 0)

/-- LAUNCH (R17, R340): every record is checked before any context starts. -/
def execLaunch (port ring : Nat) (s : State) : Out :=
  packet 0x0402 port ring s fun k s =>
    let l := k.launch
    let cs := coreRun l.first l.count
    if !s.launchOk k then s.failPkt k stBadParam
    else if !s.allIn k.part cs then s.failPkt k stDenied
    else
      match s.launchRecs port ring l.recAddr l.recStride l.count with
      | .error st => (s.recsTake port ring l.recAddr l.recStride l.count).failPkt k st
      | .ok recs =>
        let s := s.recsTake port ring l.recAddr l.recStride l.count
        let xs := cs.zip recs
        if !(xs.all fun x => s.recOk k.part x.1 l.v2 x.2) then s.failPkt k stBadParam
        else if cs.any fun c => ((s.core c).ctx? l.lctx).isSome then s.failPkt k stDenied
        else s.begin k xs

/-- The logical contexts that PREEMPT or RESUME names. -/
def Pkt.named (k : Pkt) (l : Nat) : Bool := bit (k.n 12 12) 7 || l == bits (k.n 12 12) 3 0

/-- Ask for the named resident contexts of a core to swap out and be held. -/
def Core.preempt (k : Core) (want : Nat → Bool) : Core :=
  let k1 := (k.jobCtxs.filter want).foldl (fun k l => { k with heldL := Keys.add k.heldL l }) k
  (List.range 7).foldl
    (fun k n =>
      let c := k.slot n
      if (c.st == .ready || c.st == .blocked) && want c.lctx then k.askSwap ⟨n, true, true, none, false⟩ else k) k1

/-- Whether a named context of a core is still resident. -/
def Core.preempting (k : Core) (want : Nat → Bool) : Bool := (List.range 7).any fun n => (k.slot n).st.live && want (k.slot n).lctx

/-- PREEMPT (R342): the named contexts stop issuing at once; the packet stays at the head of its ring until all are swapped out, and then
replies. -/
def execPreempt (port ring : Nat) (s : State) : Out :=
  packet 0x0403 port ring s fun k s =>
    let p := k.part
    let cs := coreRun (k.n 8 9) (k.n 10 11)
    if (s.part p).nctx = 7 ∨ !s.allIn p cs then s.failPkt k stDenied
    else
      let s1 := cs.foldl (fun s c => s.mapCore c fun x => x.preempt k.named) s
      let id := (port * 256 + ring, k.tag)
      if cs.any fun c => (s1.core c).preempting k.named then
        let s2 := s1.mapRing port ring fun r => { r with taken := ⟨k.b, k.seq, k.mute⟩ :: r.taken }
        (s2.mapPart p fun pt => { pt with preempting := if pt.preempting.contains id then pt.preempting else pt.preempting ++ [id] }).partEvent p none 0
      else
        let n := (cs.map fun c => ((s1.core c).images.filter fun x => k.named x.1).length).sum
        ((s1.mapPart p fun pt => { pt with preempting := pt.preempting.filter fun x => x != id }).partEvent p none 0).fin k stOk 0 n

/-- Release the named held contexts of a core; each comes in at once while a slot is free (R342). -/
def Core.resume (k : Core) (want : Nat → Bool) : Core :=
  (k.heldL.filter fun l => want l && (Tab.find k.images l).isSome).foldl
    (fun k l =>
      let k1 := { k with heldL := Keys.del k.heldL l }
      match k1.freeSlot with
      | some n => k1.askSwap ⟨n, false, false, some l, false⟩
      | none => k1) k

/-- RESUME (R342). -/
def execResume (port ring : Nat) (s : State) : Out :=
  packet 0x0404 port ring s fun k s =>
    let cs := coreRun (k.n 8 9) (k.n 10 11)
    if !s.allIn k.part cs then s.failPkt k stDenied
    else
      let n := (cs.map fun c => ((s.core c).heldL.filter fun l => k.named l && (Tab.find (s.core c).images l).isSome).length).sum
      (cs.foldl (fun s c => s.mapCore c fun x => (x.resume k.named).refresh) s).fin k stOk 0 n

/-! Steps. -/

/-- STEP_BEGIN (R343). -/
def execStepBegin (port ring : Nat) (s : State) : Out :=
  packet 0x0501 port ring s fun k s =>
    let p := k.part
    let c := s.coll p
    let cs := coreRun (k.n 16 17) (k.n 18 19)
    if !c.en ∨ !s.allIn p cs then s.failPkt k stDenied
    else if k.n 8 15 % 2 ^ 24 ≠ c.step then s.failPkt k stStepSkew
    else if c.stepBegin.isSome then s.failPkt k stNoResource
    else
      let s1 := ((s.accept k).startProgress p (port, ring, k.tag)).mapColl p fun c => { c with stepBegin := some (port, ring, k.tag, 0) }
      let s2 := cs.foldl (fun s n => s.mapCore n fun x => (x.signal (bits (k.n 20 20) 3 0) (2 ^ bits (k.n 20 20) 7 4)).refresh) s1
      (if c.dec = 3 then s2.endStepBegin p stStepRepeat else s2).partEvent p none 0

/-- COLL_STATE (Table 10.10). -/
def Coll.word (c : Coll) : Nat :=
  fld c.step 40 + fld c.att 36 + fld c.par 35 + fld c.dec 32 + fld (b01 c.voted) 28 + fld (b01 c.ndigest) 27 + fld (b01 c.nlate) 26 +
    fld (b01 c.digest) 25 + fld (b01 c.late) 24

/-- STEP_STATUS (Table 12.3). -/
def execStepStatus (port ring : Nat) (s : State) : Out :=
  packet 0x0502 port ring s fun k s =>
    s.fin k stOk (match (s.part k.part).ledgerNew with | some i => i | none => 2 ^ 31) (s.coll k.part).word

/-! Peers (R250, R251, R254). -/

/-- Whether an entry's reserved bits are 0 (Table 9.4). -/
def peerEntryOk (e : List Byte) : Bool := num e 18 18 < 4 && num e 19 19 == 0 && num e 28 31 == 0

/-- The UDP port of an entry: its own, or for 0 the JIG_CFG port of its version (Table 9.4). -/
def JigCfg.entryPort (c : JigCfg) (e : List Byte) : Nat :=
  if num e 16 17 ≠ 0 then num e 16 17 else if bit (num e 18 18) 1 then c.udp2 else c.udp

/-- Whether two entries give one address and UDP port (R251). -/
def peerTwice (c : JigCfg) : List (List Byte) → Bool
  | [] => false
  | e :: t => (t.any fun f => slice f 0 15 == slice e 0 15 && c.entryPort f == c.entryPort e) || peerTwice c t

/-- Load the entries of a table: removed and changed ones close, unchanged ones stay. -/
def State.loadPeers (s : State) (p : Nat) (es : List (List Byte)) : State :=
  let s1 := (s.peersOf p).foldl
    (fun s n =>
      let x := s.peer n
      if es.getD x.pidx [] = x.entry then s else s.removePeer n) s
  es.zipIdx.foldl
    (fun s e =>
      if (s.slotOf p e.2).isSome then s
      else
        match (List.range 4096).find? fun n => (Tab.find s.fab.peers n).isNone with
        | none => s
        | some n =>
          let x : Peer := { part := p, pidx := e.2, entry := e.1, st := if bit (num e.1 18 18) 0 then .idle else .unused }
          let l := s.lineOf x
          s.mapPeer n fun _ => { x with line := l, rate := l, step := l / 64 }) s1

/-- PEER_TABLE_SET (R250, R251, R254). -/
def execPeerTableSet (port ring : Nat) (s : State) : Out :=
  packet 0x0503 port ring s fun k s =>
    let p := k.part
    let n := k.n 16 17
    match (if n = 0 then (s, .ok []) else s.read k (k.n 8 15) (64 + 64 * n)) with
    | (s, .error st) => s.failPkt k st
    | (s, .ok b) =>
      let addr := slice b 0 15
      let es := (List.range n).map fun i => slice b (64 + 64 * i) (127 + 64 * i)
      let used := s.fab.addrs.any fun x => x.1 != p && x.2 == addr
      if n ≠ 0 ∧ (!zeroAt b 16 63 ∨ !es.all peerEntryOk ∨ peerTwice s.fab.cfg es ∨ used) then s.failPkt k stBadParam
      else if 4096 < (s.fab.peers.filter fun x => x.2.part != p).length + n then s.failPkt k stNoResource
      else
        let s1 := s.loadPeers p es
        (s1.mapFab fun f => { f with addrs := if n = 0 then Tab.del f.addrs p else Tab.put f.addrs p addr }).fin k stOk 0 n

/-! Serving (R320, R344). -/

def Pkt.serveCfg (k : Pkt) : ServeCfg :=
  { pool := k.n 8 15, ngrp := k.n 40 42 + 1, g := k.n 43 43 + 1, tpp := k.n 44 45, chunk := if k.n 46 47 = 0 then 512 else k.n 46 47
    budget := k.n 48 49 + 1, entmax := k.n 50 51 + 1, maxseq := k.n 52 53 + 1, maxgrp := k.n 54 55 + 1, sdesc := k.n 16 23
    plist := k.n 24 31, donew := k.n 32 39, score := k.n 56 57, sctx := bits (k.n 58 58) 3 0, stok := bits (k.n 58 58) 7 4 }

/-- Whether a serving configuration lies within Table 11.8. -/
def State.serveOk (s : State) (p : Nat) (c : ServeCfg) : Bool :=
  let pt := s.part p
  let hbm (va : Nat) : Bool := match s.translate p va false with | .ok pa => pa < hbmTop | .error _ => false
  c.pool % 2 ^ 21 == 0 && c.g ≤ 64 && 16 ≤ c.tpp && c.tpp ≤ 4096 && 16 ≤ c.chunk && c.chunk ≤ 8192 && c.chunk % 16 == 0 &&
    c.chunk ≤ c.budget && c.entmax ≤ 1024 && c.maxseq ≤ 4096 && c.sdesc % 64 == 0 && c.plist % 64 == 0 && c.donew % 64 == 0 &&
    s.allIn p [c.score] && c.sctx < pt.nctx && (rangeIn 0 (cdiv (c.ngrp * c.g * 65536) (2 ^ 21))).all fun i => hbm (c.pool + i * 2 ^ 21)

/-- SERVE_CONFIG (R320, R321). -/
def execServeConfig (port ring : Nat) (s : State) : Out :=
  packet 0x0601 port ring s fun k s =>
    let p := k.part
    let v := s.serve p
    let c := k.serveCfg
    let off := bit (k.n 59 59) 0
    if off ∧ !zeroAt k.b 8 58 then s.failPkt k stBadParam
    else if !v.seqs.isEmpty ∨ !v.queue.isEmpty then s.failPkt k stDenied
    else if off then ({ s with serves := Tab.del s.serves p } : State).fin k stOk 0 0
    else if !s.serveOk p c then s.failPkt k stBadParam
    else if !s.vok p c.donew 8 true then s.failPkt k stPageFault
    else ((s.vwrite p c.donew (List.replicate 8 0xFF)).setServe p { ({} : Serve) with cfg := some c }).fin k stOk 0 0

/-- One record of SERVE_BATCH: the serving state after it, or why it is refused (R344). -/
def Serve.record (v : Serve) (b : List Byte) : Except Nat Serve :=
  let id := num b 0 1
  let op := num b 2 2
  let plen := num b 4 7
  let maxseq := (v.cfg.map fun c => c.maxseq).getD 0
  let known := (v.seqs ++ v.queue).any fun q => q.id == id
  if num b 3 3 ≠ 0 ∨ num b 12 15 ≠ 0 ∨ 1 < op then .error stBadParam
  else if op = 0 then
    if known then .error stBadParam
    else if maxseq ≤ v.seqs.length + v.queue.length ∨ v.cfg.any (fun c => c.maxgrp < cdiv plen c.tpp) then .error stNoResource
    else .ok { v with queue := v.queue ++ [{ id := id, plen := plen, limit := num b 8 11 }], arrived := true }
  else if !known then .error stBadParam
  else
    let mark (q : Seqn) : Seqn := if q.id = id then { q with leaving := true } else q
    .ok { v with seqs := v.seqs.map mark, queue := v.queue.map mark, arrived := true }

/-- Records in order until one is refused: the state, how many were accepted, and the refusal (R344). -/
def Serve.records (b : List Byte) : Nat → Nat → Serve → Serve × Nat × Option Nat
  | 0, i, v => (v, i, none)
  | n + 1, i, v =>
    match v.record (slice b (16 * i) (16 * i + 15)) with
    | .error st => (v, i, some st)
    | .ok v1 => Serve.records b n (i + 1) v1

/-- SERVE_BATCH (R344). -/
def execServeBatch (port ring : Nat) (s : State) : Out :=
  packet 0x0602 port ring s fun k s =>
    let p := k.part
    let n := k.n 16 17
    if n = 0 ∨ 4096 < n then s.failPkt k stBadParam
    else
      match s.read k (k.n 8 15) (16 * n) with
      | (s, .error st) => s.failPkt k st
      | (s, .ok b) =>
        let r := Serve.records b n 0 (s.serve p)
        let s1 := if r.2.1 = 0 then s else s.setServe p r.1
        match r.2.2 with
        | some st => s1.fin k st r.2.1 r.2.1
        | none => s1.fin k stOk 0 n

end Sys2Proof.Machine
end

