-- ==== Sys2Proof/Machine/Faults.lean ====
section
/-! DEFINITION. Lost cores and dispatch cores, relaunches, late writes, retests, the fault log and test bundles (R300, R371 to R386, R391). -/

namespace Sys2Proof.Machine

def State.mapFlt (s : State) (f : Flt → Flt) : State := { s with flt := f s.flt }

/-- Number of the spare in physical row 16 of a die: die × 32 + column. -/
def spareUnit (d col : Nat) : Nat := fld d 11 + fld 16 6 + col

/-- SPARE_ON and ROW of an array in a record (Table 15.3). -/
def recRow (b : List Byte) (phys a : Nat) : Option Nat :=
  let e := num b (2560 + 4 * phys + a) (2560 + 4 * phys + a)
  if e.testBit 7 then some (bits e 4 0) else none

/-- Number in the record of the physical core that a UNIT word names (Table 15.3). -/
def unitPhys (u : Nat) : Nat := bits u 12 11 * 544 + bits u 10 6 * 32 + bits u 4 0

/-- Units of a UTYPE that the unit table holds as retired. -/
def State.retiredOf (s : State) (utype : Nat) : List Nat :=
  (s.flt.units.filter fun x => x.2.retired && x.1 / 2 ^ 24 == utype).map fun x => x.1 % 2 ^ 24

/-- The physical rows of an array of a physical core that no pass may use: the record's and those retired (R76, R383). -/
def State.badRows (s : State) (unit a : Nat) : List Nat :=
  ((recRow s.boot.recNow (unitPhys unit) a).toList ++
    ((s.retiredOf 1).filter fun u => u % 2 ^ 13 == unit && bits u 17 16 == a).map fun u => bits u 23 18).eraseDups

/-- Whether a physical core cannot serve: it or a bank of it is retired, or an array has more bad rows than its spare row makes good
(Table 14.4). -/
def State.unitBroken (s : State) (unit : Nat) : Bool :=
  (s.retiredOf 0).contains unit || ((s.retiredOf 2).any fun u => u % 2 ^ 13 == unit) ||
    (List.range 4).any fun a => 2 ≤ (s.badRows unit a).length

/-- The spare-row settings of the arrays of a physical core that begins to serve (R76, R383). -/
def State.unitArrays (s : State) (unit : Nat) : Tab ArrRepair :=
  (List.range 4).filterMap fun a =>
    match s.badRows unit a with
    | [r] => if r < 32 then some (a, { spareOn := true, row := r }) else none
    | _ => none

/-- The free spare columns of a die: serving no core, being switched to none, not lost and fit to serve (R13, R382, R383). -/
def State.freeSpares (s : State) (d : Nat) : List Nat :=
  let used := (s.cores.filter fun x => x.1 / 512 == d).filterMap (fun x => x.2.spare) ++
    (s.flt.route.filter fun x => x.1 / 512 == d).map fun x => x.2
  (List.range 32).filter fun c =>
    !used.contains c && !Keys.has s.flt.badSpares (d * 32 + c) && !s.unitBroken (spareUnit d c)

/-- The spare for a core: its own column if free, else the lowest free column (log 70). -/
def State.pickSpare (s : State) (core : Nat) : Option Nat :=
  let fs := s.freeSpares (core / 512)
  if fs.contains (core % 32) then some (core % 32) else fs.head?

/-- Elapsed time since a local time, in µs (Table 14.3). -/
def State.elapsed (s : State) (at' : Nat) : Nat := (s.ltime - at') * 4 / 625

/-- A core is lost (R372, R373, R375): it is fenced, its contexts end FAULTED with INTERNAL and their jobs are killed, an open round gets
a REPEAT vote, and a spare is mapped to it, or its partition is killed. -/
def State.loseCore (s : State) (core : Nat) : State :=
  if s.flt.route.any (fun x => x.1 == core) || s.flt.noSpare.contains core then s
  else
    let p := s.pno core
    let k := s.core core
    let again (l : Launch) : Bool := (Tab.get ({} : FltPart) s.fltParts p).relaunch && (s.part p).loadN ≤ l.loadsAt + 64
    let own := k.jobCtxs
    let hit (l : Launch) : Bool := l.live.any fun x => x.1 == core
    let mates := (((s.part p).launches.filter hit).flatMap fun l => l.live).filter fun x => x.1 != core
    let s1 := (s.inField 0 (s.coreUnit core) stInternal ((s.partOf core).getD 0xFF) 0).mapCore core fun k => { k with fenced := true }
    let s2 := s1.mapPart p fun pt =>
      { pt with launches := pt.launches.map fun l => if hit l && again l then { l with again := l.live, live := [] } else l }
    let s3 := own.foldl (fun s l => s.endOne core l .faulted stInternal) s2
    let s4 := (s3.killAll mates).noteRevoke core ((s.partOf core).getD 0xFF) stInternal
    let c := s4.coll p
    let s5 := if c.en ∧ !c.voted ∧ c.dec = 0 then s4.castVote p 2 0 else s4
    let s6 := match k.spare with
      | some col => s5.mapFlt fun f => { f with badSpares := Keys.add f.badSpares (core / 512 * 32 + col) }
      | none => s5
    match s6.pickSpare core with
    | some col => s6.mapFlt fun f => { f with route := f.route ++ [(core, col)], losses := f.losses ++ [(p, core, s.ltime)] }
    | none =>
      let cl := clusterOf core
      let s7 := (s6.setCluster cl { s6.cluster cl with withdrawn := true }).mapFlt fun f => { f with noSpare := Keys.add f.noSpare core }
      s7.killPart p stInternal false

/-- CORE_LOSS (R372, R373). -/
def execCoreLoss (core : Nat) (s : State) : Out := if 2048 ≤ core then .next s else .next (s.loseCore core)

/-- HEARTBEAT_MISS (R372): two consecutive heartbeats are missed. -/
def execHeartbeatMiss (core : Nat) (s : State) : Out := if 2048 ≤ core ∨ s.halts then .next s else .next (s.loseCore core)

/-- ROUTER_STALL (R391): handled as the loss of the router's core. -/
def execRouterStall (core : Nat) (s : State) : Out := if 2048 ≤ core then .next s else .next (s.loseCore core)

/-- The core as its spare, with the spare-row settings `rows`, begins to serve it: banks waking from OFF, everything else at reset (R76,
R118, R373). -/
def Core.onSpare (k : Core) (col : Nat) (rows : Tab ArrRepair) : Core :=
  { ({} : Core) with
    spare := some col
    arrays := rows
    banks := (List.range 6).foldl (fun t b => Tab.put t b ({ st := .wake, fromOff := true } : Bank)) []
    cycles := k.cycles, clk := k.clk, nextId := k.nextId, stamp := k.stamp, arriving := k.arriving, answers := k.answers }

/-! Faults of the arrays (R76, R78). -/

/-- A pass with one more fault that no failing row explains (R78). -/
def Pass.faulted (p : Pass) : Pass := { p with faults := p.faults + 1 }

/-- Passes in order of issue, with one more fault of the first of them, which is the faulted one. -/
def markFault : List Pass → List Pass
  | [] => []
  | p :: t => p.faulted :: t

/-- Whether the oldest pass has faulted three times without a failing row (R78). -/
def thrice (ps : List Pass) : Bool :=
  match ps with
  | p :: _ => 3 ≤ p.faults
  | [] => false

/-- ARRAY_FAULT (R78): the passes in flight are discarded and wait to be issued again; a row-check mismatch starts the row test, a
parity error restarts at once. A pass that faults three times without a failing row loses the core (R372). -/
def execArrayFault (core array : Nat) (parity : Bool) (s : State) : Out :=
  if 2048 ≤ core ∨ 4 ≤ array ∨ s.halts then .next s
  else
    let ps := markFault (s.core core).passes
    let s1 := s.mapCore core fun k =>
      let mx := { k.mx with restarts := sat16 k.mx.restarts ps.length }
      if parity then { k with passes := ps, mx := mx }
      else
        let a := k.array array
        { k.setArray array { a with faults := min 255 (a.faults + 1), testing := true } with
          restart := k.restart ++ ps, passes := [], mx := { mx with rowfault := true } }
    .next (if parity && thrice ps then s1.loseCore core else s1)

/-- The discarded passes are issued again in their order. -/
def Core.reissue (k : Core) : Core := { k with passes := k.passes ++ k.restart, restart := [] }

/-- ROW_TEST_COMPLETE (R76, R78): a failing row is replaced by the spare, and the discarded passes are issued again in order. A second
failing row with the spare in use, the spare row (32) itself among them, and a third fault of a pass without one, lose the core (R372). -/
def execRowTestComplete (core array : Nat) (row : Option Nat) (s : State) : Out :=
  if 2048 ≤ core ∨ 4 ≤ array ∨ (row.any fun r => 33 ≤ r) ∨ s.halts then .next s
  else
    let k := s.core core
    let a := k.array array
    if !a.testing ∨ (row = some 32 ∧ !a.spareOn) then .next s
    else
      match row with
      | none =>
        let s1 := s.mapCore core fun k => (k.setArray array { a with testing := false }).reissue
        .next (if thrice k.restart then s1.loseCore core else s1)
      | some r =>
        let s1 := s.inField 1 (s.coreUnit core + fld array 16 + fld r 18) stInternal
          (if s.pno core = 64 then 0xFF else s.pno core) 0
        if a.spareOn then .next ((s1.mapCore core fun k => k.setArray array { a with testing := false }).loseCore core)
        else .next (s1.mapCore core fun k =>
          Core.reissue { k.setArray array { a with testing := false, spareOn := true, row := r, runtime := true } with
            restart := k.restart.map fun p : Pass => { p with faults := 0 } })

/-- A recovery record (KIND 6). -/
def State.recovered (s : State) (core part at' : Nat) : State := s.faultRecord 6 0 (s.coreUnit core) stOk 0 part 0 (s.elapsed at')

/-- ROUTE_UPDATE_END (R371, R373): the remaps take effect and held requests are injected in order. A recovery stops as SAVE begins (Table
14.6). -/
def execRouteUpdateEnd (s : State) : Out :=
  let rs := s.flt.route
  if rs.isEmpty ∨ !s.powered then .next s
  else
    let s1 := rs.foldl
      (fun s x => s.mapCore x.1 fun k =>
        { k.onSpare x.2 (s.unitArrays (spareUnit (x.1 / 512) x.2)) with fenced := Keys.has s.flt.scrub (clusterOf x.1) }) s
    let s2 := s1.flt.held.foldl (fun s x => s.mapCore x.1 fun k => { k with arriving := k.arriving ++ [x.2] }) s1
    let s3 := s2.mapFlt fun f => { f with route := [], held := [], recoveries := sat16 f.recoveries rs.length }
    let waits (p : Nat) : Bool := (s3.part p).launches.any fun l => !l.again.isEmpty
    let fin := s3.flt.losses.filter fun x => !waits x.1
    .next ((fin.foldl (fun s x => s.recovered x.2.1 (if x.1 = 64 then 0xFF else x.1) x.2.2) s3).mapFlt fun f =>
      { f with losses := f.losses.filter fun x => waits x.1 })

/-- The LOAD_STREAMS packets accepted since the last LAUNCH that covered a core (R373). -/
def Part.loadsSince (pt : Part) (core : Nat) : List (Nat × Nat × List Byte) :=
  pt.loads.drop (pt.loads.length - (pt.loadN - Tab.get 0 pt.cover core))

/-- Replay to a lost core the images that LOAD_STREAMS gave it (R373). -/
def State.replayLoads (s : State) (p core : Nat) : State :=
  ((s.part p).loadsSince core).foldl
    (fun s x =>
      let k : Pkt := { port := x.1, ring := x.2.1, b := x.2.2 }
      let first := k.n 24 25
      if first ≤ core ∧ core < first + k.n 26 27 then
        match s.loadCore k (core - first) with
        | .ok s1 => s1
        | .error _ => s
      else s) s

/-- Start again the contexts of one launch, from its records (R373); with a record that no longer reads, the launch ends with INTERNAL. -/
def State.relaunchOne (s : State) (p : Nat) (l : Launch) : State :=
  let recs := l.again.mapM fun x =>
    (s.bufRead l.port l.ring (l.recAddr + (x.1 - l.first) * l.recStride) 128).map fun b => (x.1, b.1)
  match recs with
  | .error _ => s.finishLaunch p { l with code := stInternal }
  | .ok xs =>
    let l1 := { l with live := l.again, again := [] }
    let op := some (l.port, l.ring, l.tag)
    let s1 := s.mapPart p fun pt =>
      { pt with endedN := if pt.lastLaunch = op then 0 else pt.endedN, progress := if pt.progOp = op then 0 else pt.progress
                launches := pt.launches.map fun m => if m.port == l.port && m.ring == l.ring && m.tag == l.tag then l1 else m }
    s1.startAll p l.lctx l.v2 xs

/-- The launches of a partition that wait to start again. -/
def State.waiting (s : State) (p : Nat) : List Launch := (s.part p).launches.filter fun l => !l.again.isEmpty

/-- The recoveries of a partition's lost cores end, each with its record. -/
def State.lossesEnd (s : State) (p : Nat) : State :=
  let lost := s.flt.losses.filter fun x => x.1 == p
  (lost.foldl (fun s x => s.recovered x.2.1 p x.2.2) s).mapFlt fun f => { f with losses := f.losses.filter fun x => x.1 != p }

/-- Start a partition's waiting launches again: after REPEAT the regions discard their shadows and the round advances, the loads of the
lost cores are replayed, and each loss ends with its record (R373, R374). -/
def State.startAgain (s : State) (p : Nat) : State :=
  let c := s.coll p
  let lost := s.flt.losses.filter fun x => x.1 == p
  let regs := if (s.updOf p).en then List.range (s.updOf p).count else []
  let s1 := if c.en ∧ c.dec = 2 then
      ((regs.foldl (fun s i => s.discardRegion p i) s).mapColl p fun c => c.advance c.step (c.att + 1)).newRound p
    else s
  let s2 := lost.foldl (fun s x => s.replayLoads p x.2.1) s1
  let s3 := (s.waiting p).foldl (fun s l => s.relaunchOne p l) s2
  (s3.lossesEnd p).partEvent p none 0

/-- Whether the waiting launches of a partition can go on: routes are updated, the lost cores' banks are on, no round is open, and the
partition is not ending (R373, R374). -/
def State.mayRelaunch (s : State) (p : Nat) : Bool :=
  let c := s.coll p
  let lost := s.flt.losses.filter fun x => x.1 == p
  !(s.waiting p).isEmpty && s.flt.route.isEmpty && (lost.all fun x => (List.range 6).all fun b => ((s.core x.2.1).bank b).st == .on) &&
    (!c.en || c.dec != 0) && !(s.part p).draining

/-- RELAUNCH (R373): once the decision is held and the spare is ON; an ABORT ends the launches with INTERNAL. A recovery stops as SAVE begins
(Table 14.6). -/
def execRelaunch (p : Nat) (s : State) : Out :=
  if 64 ≤ p then .next s
  else if !s.mayRelaunch p ∨ !s.powered then .next s
  else if (s.coll p).en ∧ (s.coll p).dec = 3 then
    .next (((s.waiting p).foldl (fun s l => s.finishLaunch p { l with code := stInternal }) s).lossesEnd p)
  else .next (s.startAgain p)

/-- DISPATCH_CORE_LOSS (R376): the twin takes over; the lost core's leases are revoked. -/
def execDispatchCoreLoss (k : Nat) (s : State) : Out :=
  if 8 ≤ k then .next s
  else if !s.flt.dispok.testBit k then .next s
  else
    let s1 := s.inField 5 k stInternal 0xFF 0
    let s2 := s1.mapFlt fun f =>
      { f with dispok := f.dispok - 2 ^ k, revokes := sat16 f.revokes 1, recoveries := sat16 f.recoveries 1 }
    .next ((s2.faultRecord 5 5 k stInternal 0 0xFF 0 0).faultRecord 6 5 k stOk 0 0xFF 0 0)

/-- LATE_REVOKED_WRITE (R379): 64 bytes or more are performed poisoned; a shorter write is discarded and its line poisoned. -/
def execLateRevokedWrite (pa : Nat) (data : List Byte) (s : State) : Out :=
  let go : Out :=
    if 64 ≤ data.length then .next (s.wr pa data true)
    else .next { s with poison := (linesOf pa data.length).foldl Keys.add s.poison }
  match s.region pa with
  | .hbm => go
  | .attic => go
  | .scratch _ t o => .next (if 64 ≤ data.length then s.wr (scrPa t o) data true else { s with poison := Keys.add s.poison (scrPa t o / 64) })
  | .host _ => .next s
  | _ => .next s

/-! Unit table and fault log (R380 to R383). -/

def State.mapUnit (s : State) (key : Nat) (f : UnitEnt → UnitEnt) : State :=
  s.mapFlt fun x => { x with units := Tab.put x.units key (f (Tab.get {} x.units key)), unitsPend := Keys.add x.unitsPend key }

/-- Whether a unit is classed permanent after a retest (R381). -/
def UnitEnt.isPermanent (e : UnitEnt) (fails : Nat) : Bool :=
  2 ≤ fails || (e.times.length == 3 && e.times.headD 0 - e.times.getLastD 0 < 86400)

/-- The logical core that a UNIT word of a core or of its bank names. -/
def State.unitCore (s : State) (u : Nat) : Option Nat :=
  let d := bits u 12 11
  let row := bits u 10 6
  let col := bits u 4 0
  if row < 16 then
    let c := d * 512 + row * 32 + col
    if (s.core c).spare.isNone then some c else none
  else (s.cores.find? fun x => x.1 / 512 == d && x.2.spare == some col).map fun x => x.1

/-- Retire an array row of a core in service: the spare row takes its place, or with the spare in use the core is lost (Table 14.4). -/
def State.retireRow (s : State) (core a row : Nat) : State :=
  let x := (s.core core).array a
  if x.spareOn then (if x.row = row then s else s.loseCore core)
  else if row < 32 then s.mapCore core fun k => k.setArray a { x with spareOn := true, row := row, runtime := true }
  else s

/-- Retire a permanent unit (Table 14.4): a core and a bank go with what serves in their place, a row with the spare row, a pseudo-channel
with its set (R206). A unit that serves no core any more has been replaced already. -/
def State.retire (s : State) (utype unit : Nat) : State :=
  let s1 := (s.mapUnit (unitKey utype unit) fun e => { e with permanent := true, retired := true }).faultRecord 4 utype unit stOk 0 0xFF 0 0
  match utype, s1.unitCore (unit % 2 ^ 13) with
  | 0, some c | 2, some c => s1.loseCore c
  | 1, some c => s1.retireRow c (bits unit 17 16) (bits unit 23 18)
  | 4, _ => { s1 with retired := Keys.add s1.retired (unit % 64 / 2) }
  | _, _ => s1

/-- HBM frames of a set that partitions hold, or that wait to be zeroed. -/
def State.framesOf (s : State) (set : Nat) : List Nat :=
  ((s.partList.flatMap fun p => (s.part p).frames) ++ s.zeroing.map fun x => x.1).filter fun f => frameHbm f && f % 32 == set

/-- A pseudo-channel goes back into service (R382): it holds zeros, its lines of frames still held are poisoned, since what they held is
lost, and its set is handed out again unless another pseudo-channel of the set is lost (DESIGN CHOICE, log 212). -/
def State.channelBack (s : State) (stack pc : Nat) : State :=
  let x := s.stack stack
  let there (pa : Nat) : Bool := pa < scratchBase && hbmPlace pa == (stack, pc)
  let lines := (s.framesOf (pc / 2)).flatMap fun f => (rangeIn (f * 32768) 32768).filter fun l => there (l * 64)
  let s1 := { s with
    hbm := Tab.put s.hbm stack { x with lost := if x.lost.testBit pc then x.lost - 2 ^ pc else x.lost }
    mem := s.mem.filter fun c => !there c.1
    poison := lines.foldl Keys.add s.poison }
  let others := (List.range 8).any fun k => (s1.stack k).lost.testBit (pc / 2 * 2) || (s1.stack k).lost.testBit (pc / 2 * 2 + 1)
  if others then s1 else { s1 with retired := Keys.del s1.retired (pc / 2) }

/-- Put a unit back into service (R382): a core of row 16 is a free spare again, an array row is used again in place of the spare row that
replaced it while the device ran, a pseudo-channel and a dispatch core serve again. -/
def State.unretire (s : State) (utype unit : Nat) : State :=
  match utype with
  | 0 =>
    if bits unit 10 6 = 16 then s.mapFlt fun f => { f with badSpares := Keys.del f.badSpares (bits unit 12 11 * 32 + bits unit 4 0) } else s
  | 1 =>
    match s.unitCore (unit % 2 ^ 13) with
    | none => s
    | some c =>
      let a := bits unit 17 16
      let x := (s.core c).array a
      if x.spareOn ∧ x.runtime ∧ x.row = bits unit 23 18 then
        s.mapCore c fun k => k.setArray a { x with spareOn := false, runtime := false, row := 0 }
      else s
  | 4 => if (s.stack (unit / 64 % 8)).lost.testBit (unit % 64) then s.channelBack (unit / 64 % 8) (unit % 64) else s
  | 5 => s.mapFlt fun f => { f with dispok := f.dispok.lor (2 ^ (unit % 8)) }
  | _ => s

/-- Whether a core is fenced or idle: no context runs and no pass is in flight (R381). -/
def Core.idleOrFenced (k : Core) : Bool := k.fenced || (k.passes.isEmpty && (List.range 8).all fun n => !(k.slot n).st.live)

/-- Whether a unit may be retested: it serves nothing, or what it serves is fenced or idle (R381). -/
def State.testable (s : State) (utype unit : Nat) : Bool :=
  match utype with
  | 3 => !(s.fport ((s.quad (unit / 4 % 16)).portOf (unit % 64))).up
  | 4 => Keys.has s.retired (unit % 64 / 2)
  | 5 => !s.flt.dispok.testBit (unit % 8)
  | _ => (match s.unitCore (unit % 2 ^ 13) with | some c => (s.core c).idleOrFenced | none => true)

/-- The records of three runs, of which `fails` failed, the failing ones first (R381; their order is a DESIGN CHOICE, log 212). -/
def State.retestRecords (s : State) (utype unit fails : Nat) : State :=
  (List.range 3).foldl
    (fun s i => s.faultRecord 1 utype unit (if i < fails then stInternal else stOk) (4 + b01 (Decidable.decide (i < fails))) 0xFF 0 0) s

/-- UNIT_RETEST (R381, R382): three retest runs end with `fails` failures. The unit is named as UTYPE · 2²⁴ + UNIT. -/
def execUnitRetest (unit fails : Nat) (s : State) : Out :=
  let ut := unit / 2 ^ 24
  let u := unit % 2 ^ 24
  if 6 ≤ ut ∨ 4 ≤ fails then .next s
  else
    let e := Tab.get ({} : UnitEnt) s.flt.units unit
    if e.times.isEmpty ∨ !s.testable ut u then .next s
    else
      let s1 := s.retestRecords ut u fails
      if e.isPermanent fails then .next ((s1.faultRecord 3 ut u stOk 1 0xFF 0 0).retire ut u)
      else
        .next (((s1.faultRecord 3 ut u stOk 0 0xFF 0 0).mapUnit unit fun e => { e with permanent := false }).unretire ut u)

/-- The 32 bytes of a fault record (Table 14.3). -/
def FaultRec.bytes (r : FaultRec) : List Byte :=
  leBytes 8 r.pons ++ leBytes 1 r.kind ++ leBytes 1 r.utype ++ leBytes 2 0 ++ leBytes 4 r.unit ++ leBytes 2 r.status ++ leBytes 1 r.result ++
    leBytes 1 r.part ++ leBytes 4 r.bundle ++ leBytes 4 r.detail ++ leBytes 4 r.seq

/-- Pending records and unit-table changes reach MRAM (R380). -/
def Flt.commit (f : Flt) : Flt :=
  let all := f.log ++ f.pend
  { f with log := all.drop (all.length - 32768), pend := [], unitsPend := [] }

/-- FAULT_RECORD_COMMIT (R380). -/
def execFaultRecordCommit (s : State) : Out := .next (s.mapFlt Flt.commit)

/-- FAULT_LOG_READ (R380): the records of the log from FIRST on that are still held. -/
def execFaultLogRead (port ring : Nat) (s : State) : Out :=
  packet 0x0703 port ring s fun k s =>
    let first := k.n 16 19
    let n := k.n 20 23
    if n = 0 ∨ 32768 < n then s.failPkt k stBadParam
    else
      let rs := s.flt.log.filter fun r => (r.seq + 2 ^ 32 - first) % 2 ^ 32 < n
      s.writeFin k (k.n 8 15) (rs.flatMap FaultRec.bytes) 0 rs.length

/-! Test bundles (R384 to R386). -/

/-- Whether a bundle is accepted (R384). -/
def State.bundleOk (s : State) (b : List Byte) : Bool :=
  let l := b.length
  5294 ≤ l && l ≤ 262144 && slice b 0 3 == ascii "AVTB" && num b 4 7 == 1 && num b 8 11 != 0 && num b 12 15 == l && num b 17 17 < 2 &&
    zeroAt b 18 23 && num b 24 31 ≤ s.boot.version && s.signed (slice b 32 1983) (slice b 0 (l - 3310)) (slice b (l - 3309) (l - 1))

/-- TEST_BUNDLE_LOAD (R384, R385). -/
def execTestBundleLoad (port ring : Nat) (s : State) : Out :=
  packet 0x0701 port ring s fun k s =>
    match s.read k (k.n 8 15) (k.n 16 19) with
    | (s, .error st) => s.failPkt k st
    | (s, .ok b) =>
      if !s.bundleOk b then s.failPkt k stSignatureBad
      else
        let x : Bundle := ⟨num b 8 11, num b 16 16, bit (num b 17 17) 0, b⟩
        let others := s.flt.bundles.filter fun y => y.id != x.id
        if 8 ≤ others.length ∨ 2 ^ 20 < (others.map fun y => y.bytes.length).sum + b.length then s.failPkt k stNoResource
        else (s.mapFlt fun f => { f with bundles := others ++ [x] }).fin k stOk 0 x.id

/-- Whether a cluster is free for a test bundle: owned by none, not waiting for its scrub and not withdrawn (R375). -/
def State.clusterFree (s : State) (c : Nat) : Bool :=
  (s.cluster c).owner.isNone && !Keys.has s.flt.scrub c && !(s.cluster c).withdrawn

/-- BODY of a bundle: the image of context 7 and test data (Table 14.5). -/
def Bundle.body (b : Bundle) : List Byte := slice b.bytes 1984 (b.bytes.length - 3311)

/-- A bundle begins on a cluster: its body is placed in the scratch of each core, at an offset that the manual does not give, and context 7
starts there (R386, log 212). What context 7 then executes are commands of its core. -/
def State.testStart (s : State) (b : Bundle) (cl : Nat) : State :=
  (clusterCores cl).foldl
    (fun s n => (s.wr (scrPa n (Config.bodyAt b.id % (0xC0000 - 0x40000))) b.body).mapCore n fun k => k.startIn n 7 16) s

/-- A bundle begins on several clusters. -/
def State.testStarts (s : State) (id : Nat) (cls : List Nat) : State :=
  match s.flt.bundles.find? fun b => b.id == id with
  | some b => cls.foldl (fun s cl => s.testStart b cl) s
  | none => s

/-- A bundle is done on a cluster: context 7 of its cores ends. -/
def State.testStop (s : State) (cl : Nat) : State :=
  (clusterCores cl).foldl (fun s n => if (s.slot n 7).st.live then s.endOne n 16 .halted stOk else s) s

/-- TEST_RUN (R386). -/
def execTestRun (port ring : Nat) (s : State) : Out :=
  packet 0x0702 port ring s fun k s =>
    let id := k.n 8 11
    if s.flt.bundles.all fun b => b.id != id then s.failPkt k stBadParam
    else
      let cs := (List.range 128).filter fun c => (k.n 16 31).testBit c
      let free := cs.filter s.clusterFree
      let t : TestRun := if bit (k.n 12 12) 0 then ⟨port, ring, k.tag, id, [], free, cs.length - free.length, 0⟩ else ⟨port, ring, k.tag, id, cs, [], 0, 0⟩
      ((s.accept k).mapFlt fun f => { f with tests := f.tests ++ [t] }).testStarts id t.running

/-- TEST_RUN_IDLE_START (R386): a cluster that waits for a run has become free. -/
def execTestRunIdleStart (c : Nat) (s : State) : Out :=
  if 128 ≤ c then .next s
  else if !s.clusterFree c then .next s
  else
    let s1 := s.mapFlt fun f =>
      { f with tests := f.tests.map fun t =>
          if t.waiting.contains c then { t with waiting := t.waiting.filter fun x => x != c, running := t.running ++ [c] } else t }
    .next ((s.flt.tests.filter fun t => t.waiting.contains c).foldl (fun s t => s.testStarts t.bundle [c]) s1)

/-- The units that a bundle tests on some clusters, as UTYPE and UNIT (R386): dispatch cores while they are out of service, as one in service
is neither fenced nor idle (DEDUCED, log 212). -/
def State.testUnits (s : State) (b : Bundle) (cs : List Nat) : List (Nat × Nat) :=
  let cores := cs.flatMap clusterCores
  let has (t : Nat) : Bool := b.utypes.testBit t
  let on (t : Nat) (l : List Nat) : List (Nat × Nat) := if has t then l.map fun u => (t, u) else []
  let rows := cores.flatMap fun c => (List.range 4).flatMap fun a => (List.range 33).map fun r => s.coreUnit c + fld a 16 + fld r 18
  let banks := cores.flatMap fun c => (List.range 6).map fun i => s.coreUnit c + fld i 16
  let lanes := (List.range 64).filter fun l => !(s.fport ((s.quad (l / 4)).portOf l)).up
  let pcs := (List.range 8).flatMap fun st => ((List.range 64).filter fun pc => Keys.has s.retired (pc / 2)).map fun pc => fld st 6 + pc
  on 0 (cores.map s.coreUnit) ++ on 1 rows ++ on 2 banks ++ on 3 lanes ++ on 4 pcs ++
    on 5 ((List.range 8).filter fun d => !s.flt.dispok.testBit d)

/-- One unit's three runs: a record of kind 2, and with RECLAIM and no failure the end of its retirement (R383, R386). How many runs fail
is a free value (log 24). Answers whether it failed. -/
def State.testUnit (s : State) (b : Bundle) (u : Nat × Nat) : State × Bool :=
  let fails := (Config.fresh s.free).toNat % 4
  let s1 := ({ s with free := s.free + 1 } : State).faultRecord 2 u.1 u.2 (if fails = 0 then stOk else stInternal) (12 + fails) 0xFF b.id 0
  let key := unitKey u.1 u.2
  (if b.reclaim ∧ fails = 0 ∧ (Tab.get ({} : UnitEnt) s1.flt.units key).retired then
    (s1.mapUnit key fun e => { e with permanent := false, retired := false }).unretire u.1 u.2
  else s1, fails != 0)

/-- TEST_RUN_COMPLETE (R386): the oldest TEST_RUN of the ring whose clusters are all done or skipped ends. -/
def execTestRunComplete (port ring : Nat) (s : State) : Out :=
  if 2 ≤ port ∨ 256 ≤ ring ∨ s.halts then .next s
  else
    match s.flt.tests.find? fun t => t.port == port && t.ring == ring && t.waiting.isEmpty with
    | none => .next s
    | some t =>
      let s0 := s.mapFlt fun f => { f with tests := f.tests.filter fun x => !(x.port == port && x.ring == ring && x.tag == t.tag) }
      let s0 := t.running.foldl State.testStop s0
      match s.flt.bundles.find? fun b => b.id == t.bundle with
      | none => .next (s0.finishLong port ring t.tag stOk t.skipped 0)
      | some b =>
        let r := (s.testUnits b t.running).foldl
          (fun (a : State × Nat) u =>
            let x := a.1.testUnit b u
            (x.1, if x.2 then a.2 + 1 else a.2)) (s0, 0)
        .next (r.1.finishLong port ring t.tag stOk t.skipped r.2)

/-- HBM_SHARE_WINDOW (R300): the controllers restart their counts of served bytes, which rank requests in time only (log 60). -/
def execHbmShareWindow (s : State) : Out := .next s

end Sys2Proof.Machine
end

