-- ==== Sys2Proof/Machine/HostPorts.lean ====
section
/-! DEFINITION. Doorbells, rings and MSI-X, and the events of a host port (R325 to R330, R347, R350, R351 to R366). -/

namespace Sys2Proof.Machine

/-- Whether a function reaches a ring pair: the physical function all of its port's, a virtual one those of its partition (R354); in recovery
start-up, the physical function of port A ring pair 0 (R404). -/
def State.reachesRing (s : State) (port func ring : Nat) : Bool :=
  if s.boot.recovery then port == 0 && func == 0 && ring == 0
  else func == 0 || (match s.boundPart port func with | some p => (s.ring port ring).part == p | none => false)

/-- A write of SQ_TAIL (R327): merged until the next service; a value at or above the ring's size sets BADDB. -/
def State.sqTail (s : State) (port func ring v : Nat) : State :=
  let t := v % 2 ^ 16
  if !s.answers port func || !s.reachesRing port func ring || !(s.ring port ring).en then s
  else s.mapRing port ring fun r => if 2 ^ r.sqsz ≤ t then { r with baddb := true } else { r with tailNew := some t }

/-- A write of CQ_HEAD (R327, R328, R330): a head between the current one and the tail is accepted, and waiting notices take the room. -/
def State.cqHead (s : State) (port func ring v : Nat) : State :=
  let h := v % 2 ^ 16
  let r := s.ring port ring
  if !s.answers port func || !s.reachesRing port func ring || !r.en then s
  else
    let n := 2 ^ r.cqsz
    let d := (h + n - r.cqhead % n) % n
    if n ≤ h ∨ r.cqtail - r.cqhead < d then s.mapRing port ring fun r => { r with baddb := true }
    else
      let s1 := s.mapRing port ring fun r => { r with cqhead := r.cqhead + d }
      if r.note ∧ r.part ≠ 0xFF then (State.flushNotices 4096 r.part s1).admitFaults r.part else s1

/-- SQ_TAIL (R327). -/
def execSqTail (port func ring : Nat) (v : BitVec 32) (s : State) : Out :=
  if 2 ≤ port ∨ 16 ≤ func ∨ 256 ≤ ring then .next s else .next (s.sqTail port func ring v.toNat)

/-- CQ_HEAD (R328). -/
def execCqHead (port func ring : Nat) (v : BitVec 32) (s : State) : Out :=
  if 2 ≤ port ∨ 16 ≤ func ∨ 256 ≤ ring then .next s else .next (s.cqHead port func ring v.toNat)

/-- Checks 1 and 2 of R332, which need nothing but the packet and RING_CFG.V2. -/
def Pkt.early (k : Pkt) (v2 : Bool) : Option Nat :=
  if (k.ver ≠ 3 ∧ k.ver ≠ 2) ∨ (k.ver == 2) ≠ v2 then some stBadVersion
  else if !(if v2 then hostOps2 else hostOps).contains k.op then some stBadOpcode
  else none

/-- Completion entries that a packet needs before it is taken (R328). -/
def Pkt.needs (k : Pkt) (portRing : Bool) : Nat := if k.long && (k.final || portRing) then 2 else 1

/-- A packet taken from its ring with `need` notifications reserved: refused at once with a status, or kept for its command. -/
def State.enterPkt (s : State) (k : Pkt) (need : Nat) (early : Option Nat) : State :=
  let s1 := s.mapRing k.port k.ring fun r =>
    { r with sqhead := (r.sqhead + 1) % 2 ^ r.sqsz, reserved := r.reserved + need, outst := r.outst + 1, stall := false }
  match early with
  | some st => s1.reply k.port k.ring k.tag st 0 0 k.irq false true false
  | none => ({ s1 with takeSeq := s1.takeSeq + 1 } : State).mapRing k.port k.ring fun r => { r with taken := r.taken ++ [⟨k.b, s1.takeSeq, false⟩] }

/-- Take one packet of a ring, if there is one and its entries are free; whether it went on (R328). -/
def State.takeOne (s : State) (port ring : Nat) : State × Bool :=
  let r := s.ring port ring
  if r.err then (s, false)
  else if r.sqhead = r.sqtail then (s.mapRing port ring fun r => { r with stall := false }, false)
  else
    let f := s.ringFunc r
    let a := r.sqbase + r.sqhead * 64
    let pa := hostAddr port a
    if !s.hostUp port f || (linesOf pa 64).any (Keys.has s.cplBad) then
      ((if s.hostUp port f then ({ s with cplBad := (linesOf pa 64).foldl Keys.del s.cplBad } : State) else s.noRead port f 1).ringError port ring, false)
    else
      let k : Pkt := { port := port, ring := ring, b := s.rds pa 64 }
      let early := k.early r.v2
      let need := if early.isSome then 1 else k.needs (r.part == 0xFF)
      if r.cqFree < need then (s.mapRing port ring fun r => { r with stall := true }, false)
      else (s.enterPkt k need early, true)

def State.takeAll : Nat → Nat → Nat → State → State
  | 0, _, _, s => s
  | n + 1, port, ring, s =>
    let r := s.takeOne port ring
    if r.2 then State.takeAll n port ring r.1 else r.1

/-- DOORBELL_SERVICE (R327, R328). -/
def execDoorbellService (port ring : Nat) (s : State) : Out :=
  if 2 ≤ port ∨ 256 ≤ ring then .next s
  else
    let r := s.ring port ring
    let h := s.hport port
    if !r.en || r.err || h.d3 || h.inReset || !s.served || s.boot.act.isSome then .next s
    else
      let s1 := s.setRing port ring { r with sqtail := r.tailNew.getD r.sqtail, tailNew := none }
      .next (State.takeAll (2 ^ r.sqsz) port ring s1)

/-- MSIX_MESSAGE (R329): the 1 µs after a vector's last message has passed. -/
def execMsixMessage (port func vec : Nat) (s : State) : Out :=
  if 2 ≤ port ∨ 16 ≤ func ∨ 64 ≤ vec then .next s
  else
    let f := s.func port func
    let v := Tab.get ({} : Msix) f.vecs vec
    if !v.pacing then .next s
    else
      let s1 := s.setFunc port func { f with vecs := Tab.put f.vecs vec { v with pacing := false } }
      .next (if v.due then s1.msixSend port func vec else s1)

/-- Set a vector's mask bit; unmasking a vector that is pending sends one message (R362). -/
def State.setMask (s : State) (port func vec : Nat) (on : Bool) : State :=
  let f := s.func port func
  let v := Tab.get ({} : Msix) f.vecs vec
  let s1 := s.setFunc port func { f with vecs := Tab.put f.vecs vec { v with masked := on } }
  if v.pend && !on then s1.msixSignal port func vec else s1

/-- VECTOR_UNMASK (R362). -/
def execVectorUnmask (port func vec : Nat) (s : State) : Out :=
  if 2 ≤ port ∨ 16 ≤ func ∨ 64 ≤ vec ∨ !s.answers port func then .next s else .next (s.setMask port func vec false)

/-- REPORT_COPY (R347). -/
def execReportCopy (p : Nat) (s : State) : Out :=
  if 64 ≤ p ∨ s.halts then .next s
  else .next (((s.part p).launches.filter fun l => l.rpt != 0).foldl (fun s l => s.copyReport p l) s)

/-- Fields of RING_CFG (Table 12.9). -/
def ringFields (r : Ring) (v : Nat) : Ring :=
  { r with v2 := v.testBit 62, note := v.testBit 61, ien := v.testBit 60, vec := bits v 59 54, part := bits v 47 40
           cqsz := bits v 12 8, sqsz := bits v 4 0 }

/-- Whether the fields of a RING_CFG write may be taken (R327, R330, R349, R350). -/
def State.ringFieldsOk (s : State) (port ring : Nat) (r : Ring) : Bool :=
  4 ≤ r.cqsz && r.cqsz ≤ 16 && 4 ≤ r.sqsz && r.sqsz ≤ 16 && !(r.v2 && r.note) &&
    (r.part == 0xFF || (r.part < 64 && (s.part r.part).exist && (s.part r.part).port == port)) &&
    !(r.note && r.part != 0xFF && (s.hport port).rings.any fun x => x.1 != ring && x.2.note && x.2.part == r.part)

/-- A write of RING_CFG (R350): fields but EN change only with EN and OUTST at 0; setting EN resets heads and tails and clears ERR. A
virtual function leaves PART and V2 as they are (Table 13.3). -/
def State.ringCfgWrite (s : State) (port func ring v : Nat) : State :=
  let r := s.ring port ring
  if !s.reachesRing port func ring then s
  else
    let want := ringFields r v
    let want := if func = 0 then want else { want with part := r.part, v2 := r.v2 }
    let free := !r.en && r.outst == 0
    if free && !s.ringFieldsOk port ring want then s
    else
      let r1 := if free then want else r
      if v.testBit 63 then
        if r.en then s
        else
          let s1 := s.setRing port ring
            { r1 with en := true, sqhead := 0, sqtail := 0, cqhead := 0, cqtail := 0, tailNew := none, err := false, stall := false }
          if r1.note ∧ r1.part ≠ 0xFF then (State.flushNotices 4096 r1.part s1).admitFaults r1.part else s1
      else s.setRing port ring { r1 with en := false }

/-- RING_ENABLE (R350). -/
def execRingEnable (who : Who) (ring : Nat) (v : W64) (s : State) : Out :=
  if 256 ≤ ring then .next s
  else
    match who with
    | .host port func => .next (if v.toNat.testBit 63 && s.answers port func then s.ringCfgWrite port func ring v.toNat else s)
    | _ => .next s

/-- RING_DISABLE (R350). -/
def execRingDisable (who : Who) (ring : Nat) (v : W64) (s : State) : Out :=
  if 256 ≤ ring then .next s
  else
    match who with
    | .host port func => .next (if v.toNat.testBit 63 || !s.answers port func then s else s.ringCfgWrite port func ring v.toNat)
    | _ => .next s

/-! Resets of a port (R364 to R366). -/

/-- Whether a port can take the management role: it is up and has an enabled port ring (R364). -/
def State.qualifies (s : State) (port : Nat) : Bool := (s.hport port).up && s.hasPortRing port

/-- The holding port goes away (R364). -/
def State.roleLost (s : State) (port : Nat) : State :=
  if port = s.mgmt ∧ s.autofail then (if s.qualifies (1 - port) then s.moveRole (1 - port) else { s with mgmtPend := true }) else s

/-- MGMT_ROLE_QUALIFY (R364): a deferred move completes. -/
def execMgmtRoleQualify (s : State) : Out :=
  .next (if s.mgmtPend ∧ s.autofail ∧ s.qualifies (1 - s.mgmt) then s.moveRole (1 - s.mgmt) else s)

/-- Clear EN of a port's rings as a reset event takes effect: packets that they have taken still run, but their replies and the notices of
their partitions are discarded (R333, R365, R366). -/
def State.stopRings (s : State) (port : Nat) (want : Ring → Bool) : State :=
  ((s.hport port).rings.filter fun x => want x.2).foldl
    (fun s x =>
      let s1 := (s.silence port x.1).mapRing port x.1 fun r => { r with en := false }
      if x.2.note then s1.mapPart x.2.part fun pt => { pt with moved := [], notices := [], loss := false } else s1) s

/-- What the registers of a disabled ring pair return to: its configuration at reset, with the packets that still run (Table 13.5). -/
def Ring.cleared (r : Ring) : Ring := { ({} : Ring) with outst := r.outst, taken := r.taken, longs := r.longs }

/-- A reset event of a whole port (Table 13.5): the role may pass, then every partition of the port is killed and destroyed, its rings are
disabled, and its configuration returns to reset. `down` says whether the link goes down. -/
def State.portReset (s : State) (port : Nat) (down : Bool) : State :=
  let h := s.hport port
  let s1 := (s.setHport port { h with resets := min 255 (h.resets + 1) }).roleLost port
  let s2 := s1.stopRings port fun _ => true
  let s3 := (s2.partList.filter fun p => (s2.part p).port == port).foldl (fun s p => s.killPart p stKilled true) s2
  let h3 := s3.hport port
  s3.setHport port { h3 with
    up := if down then false else h3.up
    speed := if down then 0 else h3.speed
    width := if down then 0 else h3.width
    d3 := false, vfEn := false, numVfs := 0, funcs := []
    rings := (h3.rings.map fun x => (x.1, x.2.cleared)).filter fun x => x.2 != ({} : Ring) }

/-- Whether a PERST input is active (R430). -/
def State.perstActive (s : State) (port : Nat) : Bool := if port = 0 then s.sup.perstA.active else s.sup.perstB.active

/-- The reset event of PERST (Table 13.5): the port stays in reset while its input is active. -/
def State.perst (s : State) (port : Nat) : State :=
  let s1 := s.portReset port true
  s1.setHport port { s1.hport port with inReset := s1.perstActive port, retry := !s1.perstActive port }

/-- Mark a PERST input active or inactive (R430). -/
def State.perstIn (s : State) (port : Nat) (on : Bool) : State :=
  if port = 0 then { s with sup := { s.sup with perstA := { s.sup.perstA with active := on } } }
  else { s with sup := { s.sup with perstB := { s.sup.perstB with active := on } } }

/-- PERST_ASSERT (R365, R430): acted on once per activation; during a shed the reset event waits for its end (Table 16.8). -/
def execPerstAssert (port : Nat) (s : State) : Out :=
  if 2 ≤ port ∨ s.pwr.devState = 0 then .next s
  else if s.perstActive port then .next s
  else
    let s1 := s.perstIn port true
    .next (if s.sup.shed then { s1 with sup := { s1.sup with perstPend := s1.sup.perstPend ++ [port] } } else s1.perst port)

/-- The release of PERST (R366): the port answers configuration requests with retry status until it is ready. -/
def State.perstFree (s : State) (port : Nat) : State :=
  let s1 := s.perstIn port false
  if !(s1.hport port).inReset then s1 else s1.setHport port { s1.hport port with inReset := false, retry := true }

/-- PERST_RELEASE (R366). -/
def execPerstRelease (port : Nat) (s : State) : Out :=
  if 2 ≤ port then .next s else .next (s.perstFree port)

/-- HOT_RESET (R365): the link goes down and trains again. -/
def execHotReset (port : Nat) (s : State) : Out := if 2 ≤ port then .next s else .next (s.portReset port true)

/-- PCIE_LINK_DOWN (R365). -/
def execPcieLinkDown (port : Nat) (s : State) : Out :=
  if 2 ≤ port then .next s else if (s.hport port).up then .next (s.portReset port true) else .next s

/-- PCIE_LINK_UP (R351, Table 13.7): port B stays down with BOFF (Table 15.4); in the
power-up phase links train from the cores step on and answer with retry status until READY (Table 15.6); recovery start-up brings up port A
at 2.5 GT/s x1 (R404). -/
def execPcieLinkUp (port speed width : Nat) (s : State) : Out :=
  if 2 ≤ port ∨ speed = 0 ∨ 5 < speed ∨ !([1, 2, 4, 8, 16] : List Nat).contains width then .next s
  else if (s.hport port).inReset || s.perstActive port || (port = 1 && (num s.boot.recNow 2056 2056).testBit 2) then .next s
  else if !s.powered && !(s.rising && 3 ≤ s.boot.stage) && !(s.boot.recovery && port == 0 && speed == 1 && width == 1) then .next s
  else .next (s.setHport port { s.hport port with up := true, speed := speed, width := width, retry := s.rising })

/-- PF_FLR (R365). -/
def execPfFlr (port : Nat) (s : State) : Out := if 2 ≤ port then .next s else .next (s.portReset port false)

/-- Count a reset event. -/
def State.countReset (s : State) (port : Nat) : State :=
  s.setHport port { s.hport port with resets := min 255 ((s.hport port).resets + 1) }

/-- VF_FLR (R365): the bound partition is killed and stays; its rings are disabled and the function resets. -/
def execVfFlr (port func : Nat) (s : State) : Out :=
  if 2 ≤ port ∨ func = 0 ∨ 16 ≤ func then .next s
  else
    let s0 := s.countReset port
    let s1 := match s0.boundPart port func with
      | none => s0
      | some p =>
        (s0.stopRings port fun r => r.part == p).killPart p stKilled false
    let h := s1.hport port
    .next (s1.setHport port { h with funcs := Tab.del h.funcs func })

/-- VF_ENABLE_CHANGE (R353, R365): clearing VF Enable or changing NumVFs destroys every partition bound to a virtual function. -/
def execVfEnableChange (port : Nat) (enable : Bool) (numVfs : Nat) (s : State) : Out :=
  if 2 ≤ port ∨ 15 < numVfs ∨ s.boot.recovery then .next s
  else
    let h := s.hport port
    let gone := (h.vfEn && !enable) || numVfs != h.numVfs
    if !gone then .next (s.setHport port { h with vfEn := enable })
    else
      let ps := s.partList.filter fun p => (s.part p).port == port && (s.part p).func != 0
      let s1 := (s.countReset port).stopRings port fun r => ps.contains r.part
      let s2 := ps.foldl (fun s p => s.killPart p stKilled true) s1
      let h2 := s2.hport port
      .next (s2.setHport port { h2 with vfEn := enable, numVfs := numVfs, funcs := h2.funcs.filter fun x => x.1 == 0 })

/-- D3HOT_ENTRY (R365). -/
def execD3hotEntry (port : Nat) (s : State) : Out :=
  if 2 ≤ port then .next s else .next (s.setHport port { s.hport port with d3 := true })

/-- D0_RETURN (R365). -/
def execD0Return (port : Nat) (s : State) : Out :=
  if 2 ≤ port then .next s else .next (s.setHport port { s.hport port with d3 := false })

/-- A host read fails: its lines are answered as poisoned to the read that takes them, and the failure is counted and logged, at the physical
function, since the event names none (R360, log 211). -/
def State.cplFail (s : State) (port pa len : Nat) (e : AerEvent) : Out :=
  if 2 ≤ port ∨ pa < hostBase port ∨ hostBase (port + 1) < pa + len ∨ len = 0 ∨ 4096 < len then .next s
  else
    let s0 := s.setFunc port 0 ((s.func port 0).logAer e)
    let s1 := s0.setHport port { s0.hport port with cplerr := min 255 ((s0.hport port).cplerr + 1) }
    .next { s1 with cplBad := (linesOf pa len).foldl Keys.add s1.cplBad }

/-- COMPLETION_ERROR (R360): Unsupported Request, Completer Abort and EP are handled alike. -/
def execCompletionError (port pa len : Nat) (kind : CplKind) (s : State) : Out :=
  s.cplFail port pa len (match kind with | .ur => .unsupportedRequest | .ca => .completerAbort | .ep => .poisonedTlp)

/-- COMPLETION_TIMEOUT (R360). -/
def execCompletionTimeout (port pa len : Nat) (s : State) : Out := s.cplFail port pa len .completionTimeout

/-- ATS_INVALIDATE (R359, Table 13.11). -/
def execAtsInvalidate (port func : Nat) (part va len : Nat) (s : State) : Out :=
  if 2 ≤ port ∨ 16 ≤ func then .next s
  else if !s.answers port func || !(s.func port func).atsEn then .next s
  else
    let named (e : AtsEnt) : Bool :=
      e.func == func && e.pasid == (if part < 64 then s.pasidOf part else none) && va < 4096 * e.page + 4096 && 4096 * e.page < va + len
    let s1 := s.setHport port { s.hport port with ats := (s.hport port).ats.filter fun e => !named e }
    .next (s1.mapFunc port func fun f => { f with atsinv := sat16 f.atsinv 1 })

/-! Configuration space (R351, R352, Tables 13.1 and 13.2). -/

/-- The capabilities of Table 13.2. -/
inductive PciCap where
  | pciExpress | powerManagement | msix | aer | ari | sriov | ats | pasid | resizableBar | vfResizableBar | serialNumber | acs
  | laneMargining | physical16 | physical32
  deriving DecidableEq, Repr

/-- A base address register pair: whether it is prefetchable, and its size as a power of two. All are 64-bit. -/
structure PciBar where
  prefetch : Bool
  size : Nat
  deriving DecidableEq, Repr

/-- What a function's configuration space identifies it as. -/
structure PciIdent where
  vendor : Nat
  device : Nat
  classCode : Nat
  subVendor : Nat
  subId : Nat
  bars : List PciBar
  caps : List PciCap
  totalVfs : Nat
  firstVf : Nat
  vfStride : Nat
  deriving DecidableEq, Repr

/-- The identification of a function (Table 13.2); the signed record gives the subsystem identifiers (Table 15.4). -/
def State.pciIdent (s : State) (port func : Nat) : PciIdent :=
  let sub := num s.boot.recNow (2048 + 4 * port) (2051 + 4 * port)
  let h := s.hport port
  let both : List PciCap := [.pciExpress, .msix, .aer, .ari, .ats, .pasid]
  if func = 0 then
    ⟨0x1F3B, 0x4A04, 0x120000, bits sub 15 0, bits sub 31 16, [⟨false, 26⟩, ⟨true, h.bar2⟩],
      both ++ [.powerManagement, .sriov, .resizableBar, .serialNumber, .acs, .laneMargining, .physical16, .physical32], 15, 1, 1⟩
  else
    ⟨0xFFFF, 0x4A05, 0x120000, bits sub 15 0, bits sub 31 16, [⟨false, 26⟩, ⟨true, h.vfBar2⟩], both ++ [.vfResizableBar], 0, 0, 0⟩

/-- Routing identifier of a function, from that of the physical function (R352). -/
def routingId (pf func : Nat) : Nat := pf + func

end Sys2Proof.Machine
end

