-- ==== Sys2Proof/Machine/Boot.lean ====
section
/-! DEFINITION. Start-up, firmware update, measurements, quotes and debug access (R394 to R415), and the ends of power of Table 11.7
that restart the device. -/

namespace Sys2Proof.Machine

/-! Objects of MRAM. -/

/-- Section `i` of an image: TYPE, OFFSET, LEN, DIGEST (Table 15.2). -/
structure Section where
  typ : Nat
  off : Nat
  len : Nat
  digest : List Byte
  deriving DecidableEq, Repr

def imgVersion (b : List Byte) : Nat := num b 8 15
def imgSetFloor (b : List Byte) : Nat := num b 16 23

def imgSection (b : List Byte) (i : Nat) : Section :=
  let a := 1984 + 80 * i
  ⟨num b a (a + 1), num b (a + 4) (a + 7), num b (a + 8) (a + 11), slice b (a + 16) (a + 79)⟩

def imgSections (b : List Byte) : List Section := (List.range (num b 28 29)).map (imgSection b)

/-- Whether no two sections overlap. -/
def disjointSections : List Section → Bool
  | [] => true
  | x :: t => t.all (fun y => x.off + x.len ≤ y.off || y.off + y.len ≤ x.off) && disjointSections t

/-- Whether an image verifies and its sections match (R397, R398), the version floor aside. -/
def State.imageSigned (s : State) (b : List Byte) : Bool :=
  let n := num b 28 29
  let ss := imgSections b
  slice b 0 3 == ascii "AVFW" && num b 4 7 == 1 && num b 14 15 == 0 && imgSetFloor b ≤ imgVersion b && num b 24 27 == b.length &&
    6576 ≤ b.length && b.length ≤ 3145728 && 1 ≤ n && n ≤ 16 && zeroAt b 30 31 && zeroAt b (1984 + 80 * n) 3263 &&
    (List.range n).all (fun i => zeroAt b (1986 + 80 * i) (1987 + 80 * i) && zeroAt b (1996 + 80 * i) (1999 + 80 * i)) &&
    ss.all (fun x => x.off % 16 == 0 && 6576 ≤ x.off && x.off + x.len ≤ b.length &&
      shake256 ((b.drop x.off).take x.len) 64 == x.digest) && disjointSections ss &&
    (List.range 6).all (fun t => (ss.filter fun x => x.typ == t + 1).length == 1) &&
    s.signed (slice b 32 1983) (slice b 0 3263) (slice b 3264 6572)

/-- Why an image may not run, as BOOT_STATUS.FAIL codes it: 1 signature, 2 version (R398). -/
def State.imageFail (s : State) (b : List Byte) : Option Nat :=
  if !s.imageSigned b then some 1 else if imgVersion b < s.mram.floor then some 2 else none

/-- Entry `j` of the spare-core map of die `d`: the logical core that spare `j` serves (Table 15.3). -/
def recSpare (b : List Byte) (d j : Nat) : Option Nat :=
  let e := num b (2304 + 64 * d + 2 * j) (2305 + 64 * d + 2 * j)
  if e.testBit 15 then some (d * 512 + bits e 12 9 * 32 + bits e 4 0) else none

/-- The spare-core map: logical core, die, spare column. -/
def recSpares (b : List Byte) : List (Nat × Nat × Nat) :=
  (List.range 128).filterMap fun i => (recSpare b (i / 32) (i % 32)).map fun c => (c, i / 32, i % 32)

/-- Whether a record's signature and reserved fields hold (R397, R399). -/
def State.recordSigned (s : State) (b : List Byte) : Bool :=
  let l := b.length
  slice b 0 3 == ascii "AVCR" && num b 4 7 == 1 && num b 16 19 == l && 14640 ≤ l && l ≤ 65536 && zeroAt b 20 31 && zeroAt b 2032 2047 &&
    ((List.range 128).all fun i => (num b (2304 + 2 * i) (2305 + 2 * i)).land 0x61E0 == 0) &&
    ((List.range 8704).all fun i => (num b (2560 + i) (2560 + i)).land 0x60 == 0) && num b 2056 2056 < 8 && num b 2057 2057 < 2 && num b 2058 2058 < 128 && zeroAt b 2059 2063 && zeroAt b 2082 2303 &&
    s.signed (slice b 80 2031) (slice b 0 (l - 3310)) (slice b (l - 3309) (l - 1))

/-- Whether a record is this device's (R399, R402). -/
def State.recordMine (s : State) (b : List Byte) : Bool := slice b 32 47 == s.serial && slice b 48 79 == s.iddig

/-- Whether a record is valid (R399). -/
def State.recordOk (s : State) (b : List Byte) : Bool :=
  let m := recSpares b
  s.recordSigned b && s.recordMine b && (m.map fun x => x.1).eraseDups.length == m.length &&
    m.all fun x => !(Tab.get ({} : UnitEnt) s.flt.units (unitKey 0 (spareUnit x.2.1 x.2.2))).retired

/-- MASK of a revocation record. -/
def revMask (b : List Byte) : Nat := bits (num b 8 8) 3 0

/-- Whether a revocation record is accepted (R400). -/
def State.revokeOk (s : State) (b : List Byte) : Bool :=
  let m := revMask b
  b.length == 5293 && slice b 0 3 == ascii "AVRV" && num b 4 7 == 1 && num b 8 8 < 16 && zeroAt b 9 31 &&
    s.signed (slice b 32 1983) (slice b 0 1983) (slice b 1984 5292) &&
    (match s.rootSlot (shake256 (slice b 32 1983) 32) with | some i => !m.testBit i | none => false) &&
    (List.range 4).any fun i => (Config.rootDigest i).isSome && !s.mram.revoked.testBit i && !m.testBit i

/-- What a region of MRAM holds (Table 15.1). -/
inductive MramUse where
  | trustRecords | identity | currentRecord | otherRecord | imageSlot (n : Nat) | faultLog | testBundles | unitTable | saveArea | reserved
  deriving DecidableEq, Repr

/-- The regions of the 16 MiB of MRAM: offset, size and use (Table 15.1). -/
def mramMap : List (Nat × Nat × MramUse) :=
  [(0x000000, 0x010000, .trustRecords), (0x010000, 0x010000, .identity), (0x020000, 0x010000, .currentRecord),
   (0x030000, 0x010000, .otherRecord), (0x040000, 0x300000, .imageSlot 0), (0x340000, 0x300000, .imageSlot 1),
   (0x640000, 0x300000, .imageSlot 2), (0x940000, 0x100000, .faultLog), (0xA40000, 0x100000, .testBundles),
   (0xB40000, 0x040000, .unitTable), (0xB80000, 0x040000, .saveArea), (0xBC0000, 0x440000, .reserved)]

/-- The STAGING slot, a role that the trust records hold (R396). -/
def Mram.staging (m : Mram) : Nat := m.stgSlot

/-- A slot with neither of two roles. -/
def otherSlot (a p : Nat) : Nat := ((List.range 3).find? fun i => i != a && i != p).getD 0

def Mram.image (m : Mram) (slot : Nat) : List Byte := Tab.get [] m.images slot

/-- Root slots with some more revoked. -/
def State.withRevoked (s : State) (mask : Nat) : State := { s with mram := { s.mram with revoked := s.mram.revoked.lor mask } }

/-! Trust records in two copies (R396). -/

/-- The values of a trust record: 0 revocation mask, 1 floor, 2 boot counter, 3 roles, 4 trial (one record names slot, whether a record is
staged, the revocation mask plus one, and the start-ups). -/
def Mram.trustVals (m : Mram) (r : Nat) : List Nat :=
  match r with
  | 0 => [m.revoked]
  | 1 => [m.floor]
  | 2 => [m.bootcnt]
  | 3 => [m.actSlot, m.prevSlot, m.stgSlot]
  | _ => match m.trial with
    | none => []
    | some t => [t.slot, b01 t.record, match t.revoke with | some x => x + 1 | none => 0, t.starts]

/-- The record with other values. -/
def Mram.withVals (m : Mram) (r : Nat) (v : List Nat) : Mram :=
  match r, v with
  | 0, [x] => { m with revoked := x }
  | 1, [x] => { m with floor := x }
  | 2, [x] => { m with bootcnt := x }
  | 3, [x, y, z] => { m with actSlot := x, prevSlot := y, stgSlot := z }
  | 4, [a, b, c, d] => { m with trial := some ⟨a, b == 1, if c = 0 then none else some (c - 1), d⟩ }
  | 4, [] => { m with trial := none }
  | _, _ => m

/-- The CRC of a copy, over its sequence number and values, and whether a copy is valid (R396). -/
def TrustCopy.sum (c : TrustCopy) : Nat := crc32c (leBytes 8 c.seq ++ c.vals.flatMap (leBytes 8))
def TrustCopy.valid (c : TrustCopy) : Bool := c.seq != 0 && c.crc == c.sum

/-- Whether the first copy is the one a read takes: the valid copy with the higher sequence number (R396). -/
def firstNewer (x : TrustCopy × TrustCopy) : Bool := x.1.valid && (!x.2.valid || x.2.seq ≤ x.1.seq)

/-- Read a record: the valid copy with the higher sequence number; a record never written stays as it is (R396). -/
def Mram.readRecord (m : Mram) (r : Nat) : Mram :=
  let x := Tab.get ({}, {}) m.trust r
  let c := if firstNewer x then x.1 else x.2
  if c.valid then m.withVals r c.vals else m

/-- Write a record: the older copy is overwritten, with the next sequence number (R396). A record whose values stand is not written. -/
def Mram.writeRecord (m : Mram) (r : Nat) : Mram :=
  let x := Tab.get ({}, {}) m.trust r
  let newer := if firstNewer x then x.1 else x.2
  let v := m.trustVals r
  if newer.valid ∧ newer.vals = v then m
  else
    let c : TrustCopy := { seq := newer.seq + 1, vals := v }
    let c := { c with crc := c.sum }
    { m with trust := Tab.put m.trust r (if firstNewer x then (x.1, c) else (c, x.2)) }

/-- Read, or write, all five trust records. -/
def Mram.readTrust (m : Mram) : Mram := (List.range 5).foldl Mram.readRecord m
def Mram.writeTrust (m : Mram) : Mram := (List.range 5).foldl Mram.writeRecord m

/-! Measurements (R406). -/

/-- The chain before the first event (R406). -/
def chainStart : List Byte := List.replicate 64 0

/-- Extend the measurement chain by one event; a chain holds at most 23 (R406, Table 15.7). -/
def Boot.measure (b : Boot) (typ idx value : Nat) (digest : List Byte) : Boot :=
  let e := leBytes 4 typ ++ leBytes 4 idx ++ leBytes 8 value ++ sized 64 digest
  if 23 ≤ b.events.length then b
  else { b with chain := shake256 (ascii "AVT4-MEAS" ++ b.chain ++ e) 64, events := b.events ++ [e] }

def State.mapBoot (s : State) (f : Boot → Boot) : State := { s with boot := f s.boot }
def State.mapMram (s : State) (f : Mram → Mram) : State := { s with mram := f s.mram }
def State.mapSup (s : State) (f : Sup → Sup) : State := { s with sup := f s.sup }

/-- A fault record of start-up (R401, R404, R425, R429): it names no unit and no partition. -/
def State.bootRecord (s : State) (status : Nat) : State := s.faultRecord 0 0 0 status 0 0xFF 0 0

/-! The standby phase (R403 to R405). -/

/-- The JTAG instruction that stays selected through a start-up: EXTEST, CLAMP and HIGHZ only while DEV_RESET_N is asserted, and not DBG_ACCESS,
since no unlock outlasts a start-up (Table 15.11, R414). -/
def State.jtagKept (s : State) : Nat :=
  match s.boot.jtag with
  | 0x30 => 0xFF
  | 0x00 | 0x03 | 0x04 => if s.sup.reset.active then s.boot.jtag else 0xFF
  | c => c

/-- A port as a start-up leaves it: its PERST input still holds it in reset (Table 16.6), and it answers configuration requests with retry
status until READY (R403). -/
def State.freshPort (s : State) (port : Nat) : HostPort :=
  let held := if port = 0 then s.sup.perstA.active else s.sup.perstB.active
  { ({} : HostPort) with inReset := held, retry := !held }

/-- What every start-up resets: everything but the always-on domain, MRAM, board signals and host memory (R403, R405). With `keep` the
ports keep their links, configuration and ring registers (R409). -/
def State.wiped (s : State) (keep : Bool) : State :=
  { ({} : State) with
    mem := s.mem.filter fun c => hostBase 0 ≤ c.1
    poison := s.poison.filter fun l => hostBase 0 ≤ l * 64
    cplBad := s.cplBad
    hports := if keep then s.hports else [(0, s.freshPort 0), (1, s.freshPort 1)]
    dimms := s.dimms
    flt := { ({} : Flt) with
      pend := s.flt.pend, log := s.flt.log, nextSeq := s.flt.nextSeq, pons := s.flt.pons, units := s.flt.units
      unitsPend := s.flt.unitsPend, bundles := s.flt.bundles
      tests := if keep then s.flt.tests.map fun t => { t with running := [], skipped := t.skipped + t.running.length } else [] }
    fab := { ({} : Fabric) with wire := s.fab.wire }
    mram := s.mram
    boot := { ({} : Boot) with
      staging := s.boot.staging.filter fun x => x.2.verified
      act := if keep then s.boot.act else none
      actSt := s.boot.actSt, jtag := s.jtagKept, tdo := s.boot.tdo }
    sup := { s.sup with sheds := 0, shed := false, perstPend := [] }
    pwr := { ({} : Pwr) with devState := 1 }
    free := s.free, busData := s.busData, pending := s.pending }

/-- Identity at start-up (R401): the key pair from the PUF's secret, or IDOK 0, FAIL 4 and a record with INTERNAL. -/
def State.identity (s : State) : State :=
  let bad := (s.mapBoot fun b => { b with fail := 4 }).bootRecord stInternal
  match Config.pufSecret s.mram.helper with
  | none => bad
  | some secret =>
    let kp := Config.dsaKeyGen (shake256 (ascii "AVT4-IDKEY" ++ secret) 32)
    if kp.1 = s.devKey then s.mapBoot fun b => { b with idok := true, idKey := kp.2 } else bad

/-- The standby phase from its 5 ms step to the record check: everything is reset, the boot counter increases, the identity is derived, and
the ROM is measured (R403, R406). A save that is not complete is recorded and not valid (R425). -/
def State.standbyBegin (s : State) (keep : Bool) : State :=
  let s1 := (s.wiped keep).mapMram fun m =>
    let m := m.readTrust
    { m with bootcnt := m.bootcnt + 1 }.writeTrust
  let s2 := (s1.mapBoot fun b => { b with chain := chainStart }.measure 1 0 Config.romVersion []).identity
  if s2.mram.saveReason ≠ 0xF ∧ !(Memory.read s2.mram.save 27).toNat.testBit 0 then
    (s2.mapMram fun m => { m with saveValid := false }).bootRecord stInternal
  else s2

/-- The rest of the standby phase with an image slot and a record that have passed their checks: measurements TRUST to IMAGE, and the
management firmware runs (R403, R406). -/
def State.standbyRun (s : State) (slot : Nat) (cr : List Byte) : State :=
  let b := s.mram.image slot
  let key := shake256 (slice b 32 1983) 32
  let root := (s.rootSlot key).getD 0
  let x := (s.boot.measure 2 (s.mram.revoked + fld root 8) s.mram.floor key).measure 3 0 (num cr 8 15) (shake256 cr 64)
  let y := (imgSections b).zipIdx.foldl (fun x v => x.measure 4 v.2 v.1.typ v.1.digest) x
  let z := y.measure 5 slot (imgVersion b) (shake256 (slice b 0 3263) 64)
  { s with boot := { z with stage := 1, rootUsed := root, version := imgVersion b, slot := slot, recNow := cr } }

/-- An activation ends: its final reply is posted (R409). -/
def State.endActivation (s : State) : State :=
  match s.boot.act with
  | none => s
  | some (p, r, t) => (s.mapBoot fun b => { b with act := none, actSt := 0 }).finishLong p r t s.boot.actSt 0 0

/-- The ports of recovery start-up: port A alone, with its physical function and ring pair 0, at 2.5 GT/s x1 when its link is up (R404). -/
def State.recoveryPorts (s : State) : State :=
  let a := s.hport 0
  let a1 : HostPort := { a with
    speed := if a.up then 1 else 0, width := if a.up then 1 else 0, retry := false, vfEn := false, numVfs := 0
    rings := a.rings.filter fun x => x.1 == 0, funcs := a.funcs.filter fun x => x.1 == 0 }
  (s.setHport 0 a1).setHport 1 { s.freshPort 1 with retry := false }

/-- Recovery start-up (R404): no image runs, and FAULT_N, FAIL and a record tell of it. -/
def State.recovery (s : State) (fail status : Nat) : State :=
  (((s.mapBoot fun b => { b with
    recovery := true, stage := 1, fail := fail, fallback := false, version := 0, rootUsed := 0 }).bootRecord status).endActivation).recoveryPorts

/-- The standby phase without a trial: the current or the previous record, the ACTIVE image, or the paths of R404. `lost` is the cause for
which ACTIVE is not to run again. -/
def State.runActive (s : State) (lost : Option Nat) : State :=
  let m := s.mram
  let cr? : Option (List Byte × Bool) :=
    if s.recordOk m.record then some (m.record, false) else if s.recordOk m.record2 then some (m.record2, true) else none
  match cr? with
  | none => s.recovery 3 stSignatureBad
  | some (cr, old) =>
    let s1 := if old then (s.mapBoot fun b => { b with fail := 3 }).bootRecord stSignatureBad else s
    match (match lost with | some c => some c | none => s1.imageFail (m.image m.actSlot)) with
    | none => s1.standbyRun m.actSlot cr
    | some c =>
      let status := if c = 5 then stTimeout else stSignatureBad
      if m.prevSlot < 3 ∧ (s1.imageFail (m.image m.prevSlot)).isNone then
        ((s1.mapBoot fun b => { b with fallback := true, fail := c }).bootRecord status).standbyRun m.prevSlot cr
      else s1.recovery c status

/-- A trial has failed: its record is cleared without a commit, and a trial image is discarded (R409 step 5). -/
def State.dropTrial (s : State) (status : Nat) : State :=
  match s.mram.trial with
  | none => s
  | some t =>
    let m := s.mram
    let m1 := { m with trial := none }
    if t.slot = m.actSlot then { s with mram := m1.writeTrust, boot := { s.boot with actSt := status } }
    else
      { s with
        mram := { m1 with images := Tab.del m.images t.slot, prevSlot := if t.slot = m.prevSlot then 3 else m.prevSlot }.writeTrust
        boot := { s.boot with actSt := status, staging := if t.slot = m.staging then Tab.del s.boot.staging 0 else s.boot.staging } }

/-- The standby phase (R403, R404, R409, R410): a standing trial runs unless three start-ups have not committed it. -/
def State.standbyPhase (s : State) (keep : Bool) : State :=
  let s1 := s.standbyBegin keep
  match s1.mram.trial with
  | none => s1.runActive none
  | some t =>
    if 3 ≤ t.starts then (s1.mapMram fun m => { m with trial := none }.writeTrust).runActive none
    else
      let s2 := s1.mapMram fun m => { m with trial := some { t with starts := t.starts + 1 } }.writeTrust
      let mask := t.revoke.getD 0
      let s3 := s2.withRevoked mask
      let cr := if t.record then s3.mram.record2 else s3.mram.record
      let ok := s3.recordOk cr && (s3.imageFail (s3.mram.image t.slot)).isNone
      if ok then (s3.standbyRun t.slot cr).mapMram fun m => { m with revoked := s2.mram.revoked }
      else
        let s4 := (s2.bootRecord stSignatureBad).dropTrial stSignatureBad
        (s4.standbyBegin keep).runActive none

/-- Start the standby phase, or wait at its 5 ms step while DEV_RESET_N is held (Table 16.6). -/
def State.startUp (s : State) (keep : Bool) : State :=
  if s.sup.reset.active then (s.wiped keep).mapBoot fun b => { b with standby := true } else s.standbyPhase keep

/-! The power-up phase (R403, R383, R389). -/

/-- The retired units of the unit table, as UTYPE and UNIT, in rising key. -/
def State.retiredUnits (s : State) : List (Nat × Nat) :=
  (s.flt.units.filter fun x => x.2.retired).map fun x => (x.1 / 2 ^ 24, x.1 % 2 ^ 24)

/-- A core that a retirement takes out of service at start-up: a spare serves it, or its cluster is withdrawn (R13, R375). -/
def State.bootRetire (s : State) (core : Nat) : State :=
  match s.pickSpare core with
  | some col => s.mapCore core fun k => { k with spare := some col, arrays := s.unitArrays (spareUnit (core / 512) col) }
  | none =>
    let cl := clusterOf core
    ((s.mapCore core fun k => { k with fenced := true }).setCluster cl { s.cluster cl with withdrawn := true }).mapFlt fun f =>
      { f with noSpare := Keys.add f.noSpare core }

/-- Apply one retirement (R383, Table 14.4). -/
def State.applyRetired (s : State) (u : Nat × Nat) : State :=
  let unit := u.2
  match u.1 with
  | 0 =>
    if bits unit 10 6 = 16 then s.mapFlt fun f => { f with badSpares := Keys.add f.badSpares (bits unit 12 11 * 32 + bits unit 4 0) }
    else match s.unitCore unit with | some c => s.bootRetire c | none => s
  | 1 =>
    match s.unitCore (unit % 2 ^ 13) with
    | none => s
    | some c =>
      let a := bits unit 17 16
      let row := bits unit 23 18
      let x := (s.core c).array a
      if x.spareOn then (if x.row = row then s else s.bootRetire c)
      else if row < 32 then s.mapCore c fun k => k.setArray a { x with spareOn := true, row := row }
      else s
  | 2 => match s.unitCore (unit % 2 ^ 13) with | some c => s.bootRetire c | none => s
  | 4 =>
    let st := bits unit 8 6
    let pc := bits unit 5 0
    let x := s.stack st
    { s with hbm := Tab.put s.hbm st { x with lost := x.lost.lor (2 ^ pc) }, retired := Keys.add s.retired (pc / 2) }
  | 5 => if s.flt.dispok.testBit (unit % 8) then s.mapFlt fun f => { f with dispok := f.dispok - 2 ^ (unit % 8) } else s
  | _ => s

/-- Physical core of a logical core, as the record numbers it (Table 15.3). -/
def State.physCore (s : State) (core : Nat) : Nat :=
  let d := core / 512
  match (s.core core).spare with
  | some col => d * 544 + 512 + col
  | none => d * 544 + core % 512

/-- The spare maps of the record (R13, R76, R383). -/
def State.spareMaps (s : State) : State :=
  let b := s.boot.recNow
  let s1 := (recSpares b).foldl (fun s x => s.mapCore x.1 fun k => { k with spare := some x.2.2 }) s
  (List.range 8192).foldl
    (fun s i =>
      match recRow b (s.physCore (i / 4)) (i % 4) with
      | some row => s.mapCore (i / 4) fun k => k.setArray (i % 4) { k.array (i % 4) with spareOn := true, row := row }
      | none => s) s1

/-- The data rates of a DIMM type in MT/s, the highest first, and whether a DIMM is one that the device supports (Table 7.2). -/
def dimmRates (type : Nat) : List Nat := match type with | 1 => [6400, 5600, 4800] | 2 => [8800, 8000] | _ => []
def Dimm.supported (d : Dimm) : Bool :=
  d.ecc && [32, 64, 96, 128, 192, 256].contains d.gib && (match d.type with | 1 => d.ranks == 1 || d.ranks == 2 | 2 => d.ranks == 2 || d.ranks == 4 | _ => false)

/-- The attic is trained from what the SPDs tell (R207): identical supported DIMMs in six or twelve channels run at the highest rate that
they and their type allow; a population that breaks the rule leaves the attic disabled and recorded. -/
def State.trainAttic (s : State) : State :=
  match s.dimms with
  | [] => s
  | (_, d) :: _ =>
    let chans := s.dimms.map fun x => x.1
    let ok := d.supported && (s.dimms.all fun x => x.2 == d) && (chans == [0, 2, 4, 6, 8, 10] || chans == List.range 12)
    match (dimmRates d.type).find? fun r => r ≤ d.rate with
    | some r =>
      if ok then { s with memStat := { s.memStat with rate := r, dimmGib := d.gib, channels := chans.length, type := d.type } } else s.bootRecord stInternal
    | none => s.bootRecord stInternal

/-- Every attic frame starts pending (R389); the model files it under partition 64, which does not exist. -/
def State.atticPending (s : State) : State :=
  { s with zeroing := (List.range ((s.atticCap - s.atticCap / 512) / 2 ^ 21)).map fun i => (atticBase / 2 ^ 21 + i, 64) }

/-- A new record withdraws the retirements of units that its maps take over: a core whose position a spare serves, an array row that its
spare row replaces (R383). -/
def recTakes (b : List Byte) (u : Nat × Nat) : Bool :=
  match u.1 with
  | 0 => bits u.2 10 6 < 16 && (recSpares b).any fun x => x.1 == bits u.2 12 11 * 512 + bits u.2 10 6 * 32 + bits u.2 4 0
  | 1 => recRow b (bits u.2 12 11 * 544 + bits u.2 10 6 * 32 + bits u.2 4 0) (bits u.2 17 16) == some (bits u.2 23 18)
  | _ => false

/-- The commit of a trial at READY (R409 step 4). -/
def State.commitTrial (s : State) : State :=
  match s.mram.trial with
  | none => s
  | some t =>
    let m := s.mram
    let floor := max m.floor (imgSetFloor (m.image t.slot))
    let st := s.boot.staging
    let st1 := if t.slot = m.staging then Tab.del st 0 else st
    let st2 := if t.record then Tab.del st1 1 else st1
    let st3 := if t.revoke.isSome then Tab.del st2 2 else st2
    let m1 := { m with
      trial := none, floor := floor, revoked := m.revoked.lor (t.revoke.getD 0)
      actSlot := t.slot, prevSlot := if t.slot = m.actSlot then m.prevSlot else m.actSlot
      stgSlot := if t.slot = m.stgSlot then (if m.prevSlot < 3 then m.prevSlot else otherSlot t.slot m.actSlot) else m.stgSlot
      record := if t.record then m.record2 else m.record, record2 := if t.record then m.record else m.record2
      revStage := if t.revoke.isSome then [] else m.revStage }
    let units := if t.record then s.flt.units.map fun x =>
        if x.2.retired ∧ recTakes m1.record (x.1 / 2 ^ 24, x.1 % 2 ^ 24) then (x.1, { x.2 with retired := false }) else x
      else s.flt.units
    { s with mram := m1.writeTrust, flt := { s.flt with units := units }, boot := { s.boot with staging := st3, actSt := stOk } }

/-- READY (R403, R406, R409): UNITS and READY are measured, a trial commits, and the ports leave retry status. -/
def State.enterReady (s : State) (us : List (Nat × Nat)) : State :=
  let b := (s.boot.measure 6 0 us.length (Config.unitDigest (us.map fun u => unitKey u.1 u.2))).measure 7 0 s.mram.bootcnt []
  let ports := num s.boot.recNow 2056 2056
  let s1 := { s with
    boot := { b with stage := 7, waitRef := false }
    pwr := { s.pwr with devState := 2 } }
  let ready (s : State) (i : Nat) : State := s.setHport i { s.hport i with retry := false, sris := ports.testBit i }
  ((ready (ready s1 0) 1).commitTrial).endActivation

/-- Whether the device stands before its power-up phase: STANDBY with the standby phase finished, no recovery and no thermal latch
(R403, R433). -/
def State.canPowerUp (s : State) : Bool :=
  s.pwr.devState == 1 && s.boot.stage == 1 && !s.boot.recovery && !s.sup.tlatch && !s.boot.standby

/-- POWER_UP_START (R403, R419, Table 11.7): VIN has stood at or above 45 V for 1 ms and VSB in range for 10 ms: the power-up phase begins. -/
def execPowerUpStart (s : State) : Out :=
  if !s.canPowerUp then .next s
  else .next ((s.mapSup fun x => { x with warn := false, vinOn := true, vinHeld := true }).mapBoot fun b => { b with stage := 2 })

/-- One step of the power-up phase, as STAGE counts them (R403, Table 15.6); an idle step of the block makes one (DESIGN CHOICE, log 213). At the
rails step the phase waits for REFCLK_SYS (R429), and then local time starts at 0; the cores step applies the spare maps and the
retirements, the attic step trains its channels and leaves its frames pending, and the engines step seeds their pepper generators (R234)
and leads to READY. -/
def State.powerStep (s : State) : State :=
  let on (s : State) : State := s.mapBoot fun b => { b with stage := b.stage + 1 }
  match s.boot.stage with
  | 2 =>
    if s.sup.refclk then on { s with ltime := 0, boot := { s.boot with waitRef := false } }
    else s.mapBoot fun b => { b with waitRef := true }
  | 3 =>
    let s1 := s.spareMaps
    on (s1.retiredUnits.foldl State.applyRetired s1)
  | 4 => on s
  | 5 => on s.trainAttic.atticPending
  | _ => ({ s with engSeed := shake256 (Config.pufNoise s.mram.bootcnt ++ leBytes 8 s.mram.bootcnt) 32 } : State).enterReady s.retiredUnits

/-- REFCLK_SYS_RETURN (R429): a power-up phase held at its 5 ms step resumes. -/
def execRefclkSysReturn (s : State) : Out :=
  .next ((s.mapSup fun x => { x with refclk := true }).mapBoot fun b => { b with waitRef := false })

/-- START_UP_TIMEOUT (R404, R409, R410): READY has not come within 2 s of the start of the power-up phase. -/
def execStartUpTimeout (s : State) : Out :=
  if !s.rising then .next s
  else
    let keep := s.boot.act.isSome
    match s.mram.trial with
    | some _ => .next ((((s.bootRecord stTimeout).dropTrial stTimeout).standbyBegin keep).runActive none)
    | none =>
      if s.boot.fallback then .next ((s.standbyBegin keep).recovery 5 stTimeout)
      else .next ((s.standbyBegin keep).runActive (some 5))

/-- VSB_RISE (Table 11.7, R403): the device enters STANDBY and runs the standby phase. Whether VIN is present by then is a free value
(R419, log 83). -/
def execVsbRise (s : State) : Out :=
  if s.pwr.devState ≠ 0 then .next s
  else
    let s1 := { s with
      sup := { s.sup with vinOn := (Config.fresh s.free).toNat.testBit 0, vinHeld := false }
      free := s.free + 1 }
    .next (s1.startUp false)

/-- VSB_LOSS (Table 11.7): the device goes OFF; what has not reached MRAM is lost, and the thermal latch clears (R433). -/
def execVsbLoss (s : State) : Out :=
  let s1 := s.wiped false
  .next { s1 with
    flt := { s1.flt with pend := [], unitsPend := [] }
    boot := { s1.boot with jtag := 0xFF, tdo := [], act := none }
    sup := { ({} : Sup) with refclk := s.sup.refclk, vinOn := false, vinHeld := false }
    pwr := { s1.pwr with devState := 0 } }

/-- An accepted DEV_RESET_N (R405): pending MRAM writes are completed, the thermal latch clears (R433), and the standby phase starts
again. -/
def State.devReset (s : State) : State :=
  let s1 := (s.mapFlt Flt.commit).mapSup fun x => { x with tlatch := false, resetPend := false }
  s1.startUp false

/-- DEV_RESET_N as the states of Table 16.8 take it: a save completes first, and SAFE_HOLD must end. -/
def State.takeReset (s : State) : State :=
  if s.pwr.devState = 0 then s
  else if s.pwr.devState = 4 ∨ s.pwr.devState = 5 then s.mapSup fun x => { x with resetPend := true }
  else s.devReset

/-- DEV_RESET_N (R405, R430): acted on once per activation. -/
def execDevResetN (s : State) : Out :=
  if s.sup.reset.active ∨ s.pwr.devState = 0 then .next s
  else .next (s.mapSup fun x => { x with reset := { x.reset with active := true } }).takeReset

/-- REFCLK_SYS_LOSS (R429): from the power-up phase onward a loss acts as DEV_RESET_N, with a record and FAULT_N. -/
def execRefclkSysLoss (s : State) : Out :=
  let s1 := s.mapSup fun x => { x with refclk := false }
  if 2 ≤ s.pwr.devState ∨ s.rising then .next ((s1.mapSup fun x => { x with refFault := true }).bootRecord stInternal).takeReset
  else .next s1

/-! Staging and activation (R408, R409). -/

/-- The kind of object and its length that the bytes of a first packet give (R408, Table 15.9): 0 image, 1 record, 2 revocation. -/
def stageHead (b : List Byte) : Option (Nat × Nat) :=
  if b.length < 28 ∨ num b 4 7 ≠ 1 then none
  else if slice b 0 3 = ascii "AVFW" then
    let l := num b 24 27
    if 6576 ≤ l ∧ l ≤ 3145728 then some (0, l) else none
  else if slice b 0 3 = ascii "AVCR" then
    let l := num b 16 19
    if 14640 ≤ l ∧ l ≤ 65536 then some (1, l) else none
  else if slice b 0 3 = ascii "AVRV" then some (2, 5293)
  else none

/-- How far the written runs reach from `e` on. -/
def coverFrom : Nat → List (Nat × Nat) → Nat → Nat
  | 0, _, e => e
  | n + 1, ws, e =>
    let e1 := ws.foldl (fun e w => if w.1 ≤ e then max e (w.1 + w.2) else e) e
    if e1 = e then e else coverFrom n ws e1

def Staging.full (x : Staging) : Bool := x.len ≤ coverFrom x.written.length x.written 0

def Staging.object (x : Staging) : List Byte := Memory.reads x.bytes 0 x.len

def State.staged (s : State) (kind : Nat) : Staging := Tab.get {} s.boot.staging kind
def State.setStaged (s : State) (kind : Nat) (x : Staging) : State := s.mapBoot fun b => { b with staging := Tab.put b.staging kind x }

/-- Begin an object: an earlier one of its kind that has not been activated is discarded (R408). -/
def State.stageBegin (s : State) (kind len : Nat) : State :=
  let s1 := (s.setStaged kind { len := len, active := true }).mapBoot fun b => { b with stageKind := some kind }
  s1.mapMram fun m =>
    match kind with
    | 0 => { m with images := Tab.del m.images m.staging }
    | 1 => { m with record2 := [] }
    | _ => { m with revStage := [] }

/-- Key of a verification that runs: its ring and tag. -/
def verKey (k : Pkt) : Nat := k.tag + fld k.ring 16 + fld k.port 24

/-- The object that a FW_UPDATE_STAGE packet writes to: at offset 0 one begins with the header in the bytes, else the one being
staged. -/
def State.stageStart (s : State) (b : List Byte) (off : Nat) : Option (State × Nat) :=
  if off = 0 then (stageHead b).map fun h => (s.stageBegin h.1 h.2, h.1) else s.boot.stageKind.map fun kd => (s, kd)

/-- A staged object with the bytes `b` written at `off` (R409). -/
def Staging.add (x : Staging) (off : Nat) (b : List Byte) : Staging :=
  { x with bytes := Memory.writes x.bytes off b, written := x.written ++ [(off, b.length)] }

/-- FW_UPDATE_STAGE (R408, Table 15.9). With LAST it runs on until STAGE_VERIFICATION_COMPLETE. -/
def execFwUpdateStage (port ring : Nat) (s : State) : Out :=
  packet 0x0802 port ring s fun k s =>
    let len := k.n 16 19
    let off := k.n 20 23
    match s.read k (k.n 8 15) len with
    | (s, .error st) => s.failPkt k st
    | (s, .ok b) =>
      match s.stageStart b off with
      | none => s.failPkt k stBadParam
      | some (s1, kd) =>
        if (s1.staged kd).len < off + len then s.failPkt k stBadParam
        else
          let y := (s1.staged kd).add off b
          let s2 := s1.setStaged kd y
          if !bit (k.n 24 24) 0 then s2.fin k stOk 0 0
          else if !y.full || (kd == 0 && imgVersion y.object < imgSetFloor y.object) then s2.failPkt k stBadParam
          else (s2.accept k).mapBoot fun b => { b with stageKind := none, verifying := Tab.put b.verifying (verKey k) kd }

/-- The outcome of verifying a staged object (Table 15.9). -/
def State.stageStatus (s : State) (kind : Nat) (b : List Byte) : Nat :=
  match kind with
  | 0 => if !s.imageSigned b then stSignatureBad else if imgVersion b < s.mram.floor then stDenied else stOk
  | 1 =>
    if !s.recordSigned b then stSignatureBad
    else if (s.mram.record ≠ [] ∧ num b 8 15 ≤ num s.mram.record 8 15) ∨ !s.recordMine b then stDenied
    else stOk
  | _ => if s.revokeOk b then stOk else stSignatureBad

/-- Store a verified object in the place of its kind (R408). -/
def Mram.store (m : Mram) (kind : Nat) (b : List Byte) : Mram :=
  match kind with
  | 0 => { m with images := Tab.put m.images m.staging b }
  | 1 => { m with record2 := b }
  | _ => { m with revStage := b }

/-- STAGE_VERIFICATION_COMPLETE (R408, Table 15.9): the ring's oldest verification ends; an object that fails is discarded. -/
def execStageVerificationComplete (port ring : Nat) (s : State) : Out :=
  if 2 ≤ port ∨ 256 ≤ ring then .next s
  else
    match (s.ring port ring).longs.find? fun l => l.opcode == 0x0802 with
    | none => .next s
    | some l =>
      let key := l.tag + fld ring 16 + fld port 24
      let kd := Tab.get 0 s.boot.verifying key
      let x := s.staged kd
      let st := if s.boot.act.isSome then stDenied else if !x.active then stSignatureBad else s.stageStatus kd x.object
      let s1 := s.mapBoot fun b => { b with verifying := Tab.del b.verifying key }
      let s2 := if st = stOk then (s1.setStaged kd { x with verified := true }).mapMram fun m => m.store kd x.object
        else s1.mapBoot fun b => { b with staging := Tab.del b.staging kd }
      .next (s2.finishLong port ring l.tag st 0 0)

/-- MASK of a verified staged revocation. -/
def State.stagedMask (s : State) : Option Nat := if (s.staged 2).verified then some (revMask s.mram.revStage) else none

/-- Begin an activation on trial of an image slot: reply ACCEPTED, and start up with the staged objects (R410, R411). -/
def State.activate (s : State) (k : Pkt) (slot : Nat) : State :=
  let s1 := (s.accept k).mapMram fun m =>
    { m with trial := some ⟨slot, (s.staged 1).verified, s.stagedMask, 0⟩ }.writeTrust
  (s1.mapBoot fun b => { b with act := some (k.port, k.ring, k.tag), actSt := stOk }).startUp true

/-- FW_ACTIVATE (R409): the trial record is written and the standby phase runs with the trial objects. -/
def execFwActivate (port ring : Nat) (s : State) : Out :=
  packet 0x0803 port ring s fun k s =>
    let m := s.mram
    let back := bit (k.n 8 8) 0
    let any := (List.range 3).any fun i => (s.staged i).verified
    if !s.partList.isEmpty then s.failPkt k stDenied
    else if back then
      if 3 ≤ m.prevSlot ∨ m.image m.prevSlot = [] then s.failPkt k stNoResource
      else if ((s.withRevoked (s.stagedMask.getD 0)).imageFail (m.image m.prevSlot)).isSome then s.failPkt k stDenied
      else s.activate k m.prevSlot
    else if !any then s.failPkt k stNoResource
    else s.activate k (if (s.staged 0).verified then m.staging else m.actSlot)

/-! Quotes (R407). -/

/-- The signed bytes of a quote (Table 15.8). -/
def State.quoteHead (s : State) (nonce : List Byte) : List Byte :=
  let n := s.boot.events.length
  ascii "AVQT" ++ leBytes 4 1 ++ leBytes 4 n ++ leBytes 4 (192 + 80 * n + 3309 + 12602) ++ s.serial ++ sized 32 nonce ++ sized 64 s.boot.chain ++
    leBytes 8 s.mram.bootcnt ++ leBytes 8 s.boot.version ++ leBytes 8 s.mram.floor ++ List.replicate 40 0 ++ s.boot.events.flatten

def State.quote (s : State) (nonce : List Byte) : List Byte :=
  let h := s.quoteHead nonce
  h ++ sized 3309 (Config.dsaSign s.boot.idKey (shake256 (ascii "AVT4-QUOTE" ++ h) 64)) ++ s.ownChain

/-- ATTEST_QUOTE (R407). -/
def execAttestQuote (port ring : Nat) (s : State) : Out :=
  packet 0x0801 port ring s fun k s =>
    if k.n 48 51 < 17943 then s.failPkt k stBadParam
    else if !s.boot.idok then s.failPkt k stInternal
    else
      let q := s.quote (slice k.b 8 39)
      s.writeFin k (k.n 40 47) q 0 q.length

/-! JTAG (R412 to R414). -/

/-- DBG_CTRL (Table 15.15). -/
def Boot.dbgCtrl (b : Boot) : Nat := fld b.scope 10 + fld (b01 b.lockout) 9 + fld b.fails 7 + fld (b01 b.unlocked) 1 + b01 b.allow

/-- An instruction takes the register, with what its data register shifts out. -/
def State.jtag (s : State) (code : Nat) (tdo : List Byte) : State := s.mapBoot fun b => { b with jtag := code, tdo := tdo }

/-- The IDCODE register (R412): version 1 for stepping B1, the part number and the manufacturer. -/
def idcode : Nat :=
  let version := if Config.stepLetter = 1 ∧ Config.stepDigit = 1 then 1 else Config.idVersion.toNat
  1 + fld 0x2B7 1 + fld 0x4A04 12 + fld version 28

/-- IDCODE (R412). -/
def execIdcode (s : State) : Out := .next (s.jtag 0x01 (leBytes 4 idcode))

/-- SAMPLE_PRELOAD (R412): the boundary-scan register's contents are the BSDL file's (log 80). -/
def execSamplePreload (s : State) : Out := .next (s.jtag 0x02 [])

/-- Instructions that act only while DEV_RESET_N is asserted, and otherwise as BYPASS (Table 15.11). -/
def State.jtagInReset (s : State) (code : Nat) : State := s.jtag (if s.sup.reset.active then code else 0xFF) []

/-- EXTEST (Table 15.11). -/
def execExtest (s : State) : Out := .next (s.jtagInReset 0x00)
/-- CLAMP (Table 15.11). -/
def execClamp (s : State) : Out := .next (s.jtagInReset 0x03)
/-- HIGHZ (Table 15.11). -/
def execHighz (s : State) : Out := .next (s.jtagInReset 0x04)

/-- CHALLENGE (Table 15.11): IDDIG and a fresh challenge, which replaces the last. -/
def execChallenge (s : State) : Out :=
  let r := s.random
  .next ((r.2.jtag 0x20 (r.2.iddig ++ r.1)).mapBoot fun b => { b with challenge := some r.1 })

/-- Whether an unlock token is accepted (R413). -/
def State.tokenOk (s : State) (t : List Byte) : Bool :=
  slice t 0 3 == ascii "AVDU" && num t 4 7 == 1 && slice t 8 39 == s.iddig && s.boot.challenge == some (slice t 40 71) && num t 72 72 < 8 &&
    zeroAt t 73 79 && s.signed (slice t 80 2031) (slice t 0 2031) (slice t 2032 5340)

/-- What an accepted token does (R414). -/
def State.unlock (s : State) (t : List Byte) : State :=
  let s1 := s.partList.foldl (fun s p => s.killPart p stKilled true) s
  s1.mapBoot fun b =>
    { ({ b with idKey := [], idok := false }.measure 8 (num t 72 72) 0 (shake256 t 64)) with
      unlocked := true, scope := bits (num t 72 72) 2 0, challenge := none }

/-- Whether start-up runs or is still to come: OFF and STANDBY, recovery apart. -/
def State.startingUp (s : State) : Bool := s.pwr.devState < 2 && !s.boot.recovery

/-- UNLOCK (R413, R414): during start-up or activation it is refused without counting as an attempt (Table 15.9a). -/
def execUnlock (t : List Byte) (s : State) : Out :=
  if t.length ≠ 5341 then .next s
  else
    let out (s : State) : Out := .next (s.jtag 0x21 (leBytes 2 (s.boot.dbgCtrl % 2 ^ 16)))
    if s.boot.act.isSome ∨ s.startingUp then out s
    else if (s.powered || s.boot.recovery) && s.boot.allow && !s.boot.lockout && s.tokenOk t then out (s.unlock t)
    else
      out (s.mapBoot fun b => { b with challenge := none, fails := min 3 (b.fails + 1), lockout := b.lockout || 2 ≤ b.fails })

/-- DBG_ACCESS (Table 15.11): selected only while unlocked with some SCOPE; what its accesses do is not part of the model (log 81). -/
def execDbgAccess (s : State) : Out := .next (s.jtag (if s.boot.unlocked ∧ s.boot.scope ≠ 0 then 0x30 else 0xFF) [])

/-- BYPASS (Table 15.11). -/
def execBypass (s : State) : Out := .next (s.jtag 0xFF [])

end Sys2Proof.Machine
end

