-- ==== Sys2Proof/Machine/Larder.lean ====
section
/-! DEFINITION. The larder: checkpoint commands, replay, spills and fetch-backs (chapter 6). -/

namespace Sys2Proof.Machine

/-- Lines of a record. -/
def Rec.lines (r : Rec) : Nat := r.rlen / 128

/-- Whether a record occupies lines on chip (Table 6.2). -/
def RecSt.holdsLines : RecSt → Bool
  | .onChip | .spilling | .fetching => true
  | _ => false

/-- Whether a record has a place in the spill region. -/
def RecSt.inSpill : RecSt → Bool
  | .spilling | .spilled | .fetching | .failed => true
  | .onChip => false

/-- Free lines of the on-chip region (Table 6.11). -/
def Larder.freeLines (l : Larder) : Nat := l.size - ((l.recs.filter fun r => r.st.holdsLines).map Rec.lines).sum

/-- Bytes that a record takes in the spill region. Its image begins on a 2 KiB block, so that each 2 KiB part of it, the last one shorter,
is a block with a check value of its own (R187, R220; DEDUCED, log 122). -/
def Rec.room (r : Rec) : Nat := roundUp r.rlen 2048

/-- Bytes taken in the spill region. -/
def Larder.spillUsed (l : Larder) : Nat := ((l.recs.filter fun r => r.st.inSpill).map Rec.room).sum

/-- 128-byte lines that the records in the spill region fill (Table 6.11). -/
def Larder.spillLines (l : Larder) : Nat := ((l.recs.filter fun r => r.st.inSpill).map Rec.lines).sum

/-- The on-chip region as window offset and length. -/
def Larder.region (l : Larder) : Nat × Nat := (0x40000 + l.start * 128, l.size * 128)

/-- Pieces of the on-chip region for `n` bytes at byte `pos` of it, the region used as a ring (log 30). -/
def Larder.place (l : Larder) (pos n : Nat) : List (Nat × Nat) :=
  let z := l.size * 128
  let p := pos % z
  let m := min n (z - p)
  (0x40000 + l.start * 128 + p, m) :: if n ≤ m then [] else [(0x40000 + l.start * 128, n - m)]

/-- Read bytes of the on-chip region, and whether any line is poisoned. -/
def State.larRead (s : State) (core pos n : Nat) : List Byte × Bool :=
  let ps := (s.core core).larder.place pos n
  (ps.flatMap fun x => s.rds (scrPa core x.1) x.2, ps.any fun x => s.anyPoison (scrPa core x.1) x.2)

/-- Poison of each 64-byte piece of a run of the on-chip region (R219). -/
def State.larBads (s : State) (core pos n : Nat) : List Bool :=
  (List.range (cdiv n 64)).map fun j => (s.larRead core (pos + 64 * j) (min 64 (n - 64 * j))).2

/-- Write bytes of the on-chip region. -/
def State.larWrite (s : State) (core pos : Nat) (bs : List Byte) (poison : Bool) : State :=
  (((s.core core).larder.place pos bs.length).foldl
    (fun (a : State × List Byte) x => (a.1.wr (scrPa core x.1) (a.2.take x.2) poison, a.2.drop x.2)) (s, bs)).1

/-- The 32-byte header (Table 6.1). -/
def Rec.header (r : Rec) : List Byte :=
  leBytes 4 r.rlen ++ leBytes 4 r.dlen ++ leBytes 4 r.step ++ leBytes 2 r.block ++ leBytes 2 (b01 r.pep) ++ leBytes 4 r.prev ++
    List.replicate 12 0

def State.mapLarder (s : State) (core : Nat) (f : Larder → Larder) : State :=
  s.mapCore core fun k => { k with larder := f k.larder }

/-- Index of the oldest record that lies on chip and is not moving. -/
def Larder.oldest (l : Larder) : Option Nat :=
  ((List.range l.recs.length).reverse).find? fun i => (l.recs[i]?).any fun r => r.st == .onChip

/-- Change one record. -/
def Larder.mapRec (l : Larder) (i : Nat) (f : Rec → Rec) : Larder :=
  { l with recs := l.recs.mapIdx fun j r => if j = i then f r else r }

/-- The newest record in a state. -/
def Larder.inState (l : Larder) (st : RecSt) : Option Nat :=
  (List.range l.recs.length).find? fun i => (l.recs[i]?).any fun r => r.st == st

/-- Whether a spill or fetch-back is in progress. -/
def Larder.busy (l : Larder) : Bool := l.recs.any fun r => r.st == .spilling || r.st == .fetching

/-- Whether a record fits in the free part of the spill region. -/
def Larder.fitsSpill (l : Larder) (r : Rec) : Bool := l.spillUsed + r.room ≤ l.spillPages * 2 ^ 21

/-- Start to spill record `i` after the records spilled before it (R183). -/
def Larder.spill (l : Larder) (i : Nat) : Larder :=
  let off := l.spillUsed
  l.mapRec i fun r => { r with st := .spilling, spill := off }

/-- Whether a push of `need` lines can be made by spilling the oldest records one after another (R183, R184): `free` lines now, and
`used` bytes of the spill region. -/
def canPush (cap : Nat) : List Rec → Nat → Nat → Nat → Bool
  | [], need, free, _ => need ≤ free
  | r :: t, need, free, used =>
    if need ≤ free then true
    else if used + r.room ≤ cap then canPush cap t need (free + r.lines) (used + r.room)
    else false

/-- Common issue checks of PUSH, POP and PEEK (Table 6.7). -/
def ckCheck (k : Core) (c : Ctx) : Except Nat Unit := do
  legal (k.larder.en && k.larder.owner == c.lctx)
  if k.bankIsOff k.larder.region.1 k.larder.region.2 then throw stBankOff

/-- The window offset of a checkpoint operand: local or circular, outside the on-chip region (Table 6.7). -/
def ckOff (k : Core) (core : Nat) (c : Ctx) (pair off len : Nat) : Except Nat Nat := do
  let pr := c.pair pair
  legal (pr.mode == 1 || pr.isLocal core)
  let o ← localOff k c core pair off len
  let g := k.larder.region
  legal (!(o < g.1 + g.2 && g.1 < o + len))
  if k.bankIsOff o len then throw stBankOff
  pure o

/-- 8 cycles for an operand in the cellar (R191). -/
def cellarT (off : Nat) : Nat := if 0x40000 ≤ off then 8 else 0

/-- Whether an earlier vector command of the context is outstanding (R195). -/
def Core.vecOf (k : Core) (c : Ctx) : Bool := k.vec.any (fun v => v.lctx == c.lctx) || c.vsusp.isSome

/-- The state of a push that has to wait for space: an unfinished fetch-back gives up its lines first, then the oldest record on chip
spills, unless the core's new far requests are held (R184, R185, R307, R371). -/
def Larder.makeRoom (l : Larder) (need : Nat) (held : Bool) : Larder :=
  let l1 := if need ≤ l.freeLines then l
    else { l with recs := l.recs.map fun r => if r.st = .fetching then { r with st := .spilled } else r }
  if held || need ≤ l1.freeLines || l1.recs.any (fun r => r.st == .spilling) then l1
  else match l1.oldest with
    | some i => l1.spill i
    | none => l1

/-- Line at which a pushed record begins: after the newest record on chip (R183). -/
def Larder.topLine (l : Larder) : Nat :=
  match l.recs.find? fun r => r.st.holdsLines with
  | some r => (r.line + r.lines) % l.size
  | none => 0

/-- Bytes of the data and of the whole record of a PUSH_CKPT (R182, R188). -/
def pushData (w : Cmd) : Nat := (cf w 54 39 + 1) * 16
def pushLen (w : Cmd) : Nat := roundUp (32 + pushData w + (if cb w 20 then 2048 else 0)) 128

/-- The checks of a PUSH_CKPT (Table 6.4): the window offset of its data. -/
def pushCheck (k : Core) (core : Nat) (h : Head) : Except Nat Nat := do
  ckCheck k h.ctx
  legal (pushLen h.w ≤ k.larder.size * 128 && !(cb h.w 20 && h.ctx.pmode))
  ckOff k core h.ctx (cf h.w 22 21) (cf h.w 38 23) (pushData h.w)

/-- Whether the region and the spill area can make room for a record of `need` lines (R183, R184). -/
def Larder.canTake (l : Larder) (need : Nat) : Bool :=
  l.recs.length < 1024 &&
    canPush (l.spillPages * 2 ^ 21) (l.recs.reverse.filter fun r => r.st == .onChip) need
      (l.freeLines + ((l.recs.filter fun r => r.st == .fetching || r.st == .spilling).map Rec.lines).sum) l.spillUsed

/-- The record that a PUSH_CKPT places in a larder with room (R182, R183). -/
def Larder.newRec (l : Larder) (w : Cmd) : Rec :=
  ⟨pushLen w, pushData w, cf w 102 71, cf w 70 55, cb w 20, (l.recs.head?).elim 0 (·.rlen), .onChip, l.topLine, 0⟩

/-- Count the wait of the PUSH or POP at the head once (R185). -/
def Larder.noteWait (l : Larder) (inj push : Bool) : Larder :=
  if (if inj then l.waitingInj else l.waiting) then l
  else
    let l1 := if inj then { l with waitingInj := true } else { l with waiting := true }
    if push then { l1 with pushwaits := sat16 l.pushwaits 1 } else { l1 with popwaits := sat16 l.popwaits 1 }

/-- The PUSH or POP at the head has completed: the next one of its kind counts a wait of its own. -/
def Larder.endWait (l : Larder) (inj : Bool) : Larder := if inj then { l with waitingInj := false } else { l with waiting := false }

/-- Whether the command at the head was injected by the control core (R20). -/
def Head.injected (h : Head) : Bool := !h.ctx.inj.isEmpty

/-- The push itself: the record enters at the top with its header, its data and, with PEP, the pepper state (R182, R188). -/
def State.pushRec (s : State) (h : Head) (l : Larder) (off : Nat) : State :=
  let r := l.newRec h.w
  let img := r.header ++ s.rds (scrPa h.core off) r.dlen ++ (if r.pep then h.ctx.pepBytes else [])
  let s1 := s.mapLarder h.core fun _ => ({ l with recs := r :: l.recs, dir := some true } : Larder).endWait h.injected
  s1.larWrite h.core (r.line * 128) (img ++ List.replicate (r.rlen - img.length) 0) false

/-- PUSH_CKPT (R188): waits for room as engine-busy, then writes the record; a poisoned source ends the context and pushes nothing. -/
def workPushCkpt (core n : Nat) (s : State) : Out :=
  work core n 0x80 s fun h s =>
    let k := s.core core
    let l := k.larder
    match pushCheck k core h with
    | .error st => s.failed h st
    | .ok off =>
      let need := pushLen h.w / 128
      let dlen := pushData h.w
      if !(k.bankIsOn off dlen && k.bankIsOn l.region.1 l.region.2) then
        ((s.wakeBanks core off dlen).wakeBanks core l.region.1 l.region.2).hold core n 3
      else if cb h.w 20 ∧ k.vecOf h.ctx then s.hold core n 3
      else if !l.canTake need then s.failed h stNoResource
      else
        let l1 := l.makeRoom need (s.farHeld core)
        if l1.freeLines < need then
          (s.mapLarder core fun _ => l1.noteWait h.injected true).hold core n 3
        else
          s.pay h 0 (14 + need + cellarT off) fun s =>
            if s.anyPoison (scrPa core off) dlen then s.failed h stPoisoned
            else (s.pushRec h l1 off).done h

/-- Restore lanes from a snapshot (R107, R195): draw-stepped mode from then on. -/
def State.pepRestore (s : State) (core lctx : Nat) (bs : List Byte) : State :=
  s.mapCore core fun k => k.mapCtx lctx fun c => { c.pepLoad bs with pmode := false }

/-- The 2 KiB parts of a spilled image as (offset, length) pairs, the last one shorter (R187). -/
def Rec.parts (r : Rec) : List (Nat × Nat) := (List.range (cdiv r.rlen 2048)).map fun i => (2048 * i, min 2048 (r.rlen - 2048 * i))

/-- One part of a spilled image as a checked read finds it: its bytes, the poison of each 64-byte line, and whether its block check holds.
A poisoned check value poisons every line, and a part on a host page is not checked (R187, R220, R221). -/
def State.partRead (s : State) (p va n : Nat) : Except TransFail (List Byte × List Bool × Bool) :=
  match s.translate p va false with
  | .error e => .error e
  | .ok pa =>
    match s.region pa with
    | .host _ => .ok (s.rds pa n, (List.range (cdiv n 64)).map fun j => s.linePoison (pa + 64 * j) || s.hostBad p (pa + 64 * j), true)
    | _ =>
      let lines := (List.range (cdiv n 64)).map fun j => s.vline p (va + 64 * j) (pa + 64 * j) 64
      let r := s.vcheck p va n
      let bad := lines.map fun x => x.2
      .ok (lines.flatMap fun x => x.1, if r == .poisoned && !bad.any (fun b => b) then bad.map fun _ => true else bad, r != .mismatch)

/-- A spilled record as its spill region holds it: the image, the poison of each 64-byte line, and whether every block check holds; or why
it cannot be read. -/
def State.spillRead (s : State) (core : Nat) (l : Larder) (r : Rec) : Except TransFail (List Byte × List Bool × Bool) :=
  r.parts.foldlM
    (fun (a : List Byte × List Bool × Bool) (x : Nat × Nat) =>
      match s.partRead (s.pno core) (l.spillAddr + r.spill + x.1) x.2 with
      | .error e => .error e
      | .ok d => .ok (a.1 ++ d.1, a.2.1 ++ d.2.1, a.2.2 && d.2.2)) ([], [], true)

/-- Whether any line that bytes `[o, o + n)` of an image touch is poisoned. -/
def badRun (bads : List Bool) (o n : Nat) : Bool := (linesOf o n).any fun i => bads.getD i false

/-- Deliver a record's data with the poison of its pieces, and its snapshot when asked, to the destination; a poisoned snapshot ends the
context. -/
def State.ckDeliver (s : State) (h : Head) (off : Nat) (data : List Byte) (bad : List Bool) (snap : Option (List Byte × Bool)) : State :=
  match snap with
  | some (bs, false) => ((s.wrBads (scrPa h.core off) data bad).pepRestore h.core h.ctx.lctx bs).done h
  | some (_, true) => s.failed h stPoisoned
  | none => (s.wrBads (scrPa h.core off) data bad).done h

/-- The checks of a POP_CKPT before its record is looked at (Table 6.4). -/
def popCheck (k : Core) (core : Nat) (h : Head) : Except Nat Unit := do
  ckCheck k h.ctx
  legal (!(cb h.w 21 && (cb h.w 20 || cf h.w 39 22 != 0)))
  let pr := h.ctx.pair (cf h.w 23 22)
  legal (cb h.w 21 || pr.mode == 1 || pr.isLocal core)

/-- The top record leaves; `t` are the records below it (R189). -/
def State.popRec (s : State) (core : Nat) (inj : Bool) (t : List Rec) : State :=
  s.mapLarder core fun l => ({ l with recs := t, dir := some false } : Larder).endWait inj

/-- The checks of a PEEK_CKPT before its record is looked at (Table 6.4). -/
def peekCheck (k : Core) (core : Nat) (h : Head) : Except Nat Unit := do
  ckCheck k h.ctx
  legal (!(cb h.w 42 && cb h.w 43))
  let pr := h.ctx.pair (cf h.w 21 20)
  legal (pr.mode == 1 || pr.isLocal core)

/-- POP_CKPT (R189). -/
def workPopCkpt (core n : Nat) (s : State) : Out :=
  work core n 0x81 s fun h s =>
    let k := s.core core
    let l := k.larder
    let w := h.w
    let drop := cb w 21
    let pep := cb w 20
    match popCheck k core h with
    | .error st => s.failed h st
    | .ok _ =>
      match l.recs with
      | [] => s.failed h stIllegalOp
      | r :: t =>
        let wait : State :=
          (s.mapLarder core fun l =>
            { l.noteWait h.injected false with dir := if l.dir = some true ∧ r.st = .spilled then some false else l.dir }).hold core n 3
        if drop ∧ r.st = .spilling then s.hold core n 3
        else if (!drop ∧ r.st ≠ .onChip ∧ r.st ≠ .failed) then wait
        else if r.st = .failed ∧ !drop then s.failed h stCheckMismatch
        else if r.block ≠ cf w 55 40 ∨ r.step ≠ cf w 87 56 then s.failed h stIllegalOp
        else if drop then s.pay h 0 4 fun s => (s.popRec core h.injected t).done h
        else if pep ∧ !r.pep then s.failed h stIllegalOp
        else
          match ckOff k core h.ctx (cf w 23 22) (cf w 39 24) r.dlen with
          | .error st => s.failed h st
          | .ok off =>
            if !(k.bankIsOn off r.dlen && k.bankIsOn l.region.1 l.region.2) then
              ((s.wakeBanks core off r.dlen).wakeBanks core l.region.1 l.region.2).hold core n 3
            else if pep ∧ k.vecOf h.ctx then s.hold core n 3
            else
              s.pay h 0 (14 + r.lines + cellarT off) fun s =>
                let d := s.larRead core (r.line * 128 + 32) r.dlen
                let bad := s.larBads core (r.line * 128 + 32) r.dlen
                let snap := if pep then some (s.larRead core (r.line * 128 + 32 + r.dlen) 2048) else none
                (s.popRec core h.injected t).ckDeliver h off d.1 bad snap

/-- PEEK_CKPT (R190, R201): its issue checks come before what the record itself decides. With HDR clear it copies the DLEN data bytes that a
POP_CKPT would write (DEDUCED, log 192). -/
def workPeekCkpt (core n : Nat) (s : State) : Out :=
  work core n 0x82 s fun h s =>
    let k := s.core core
    let l := k.larder
    let w := h.w
    let hdr := cb w 42
    let pep := cb w 43
    match peekCheck k core h with
    | .error st => s.failed h st
    | .ok _ =>
      let rec? := l.recs[cf w 41 38]?
      let len := if hdr then 32 else rec?.elim 0 (·.dlen)
      match ckOff k core h.ctx (cf w 21 20) (cf w 37 22) len with
      | .error st => s.failed h st
      | .ok off =>
        if !(k.bankIsOn off len && k.bankIsOn l.region.1 l.region.2) then
          ((s.wakeBanks core off len).wakeBanks core l.region.1 l.region.2).hold core n 3
        else
          match rec? with
          | none => s.failed h stIllegalOp
          | some r =>
            if r.st = .failed then s.failed h stCheckMismatch
            else if pep ∧ !r.pep then s.failed h stIllegalOp
            else if (pep ∧ k.vecOf h.ctx) ∨ r.st = .spilling ∨ (r.st ≠ .onChip ∧ s.farHeld core) then s.hold core n 3
            else if r.st = .onChip then
              s.pay h 0 (14 + cdiv len 128 + cellarT off) fun s =>
                let d := s.larRead core (r.line * 128 + if hdr then 0 else 32) len
                let bad := s.larBads core (r.line * 128 + if hdr then 0 else 32) len
                let snap := if pep then some (s.larRead core (r.line * 128 + 32 + r.dlen) 2048) else none
                s.ckDeliver h off d.1 bad snap
            else
              match s.spillRead core l r with
              | .error e => (s.areaFault core h.ctx.lctx (l.spillAddr + r.spill) r.rlen 1 false).holdIf (e == .migrate) core n
              | .ok (img, lines, ok) =>
                if !ok then s.noteCheck.failed h stCheckMismatch
                else
                  s.pay h 0 (max (14 + cdiv len 128) (8 + cdiv len 64) + cellarT off) fun s =>
                    let o := if hdr then 0 else 32
                    let bad := (List.range (cdiv len 64)).map fun j => badRun lines (o + 64 * j) (min 64 (len - 64 * j))
                    let snap := if pep then some ((img.drop (32 + r.dlen)).take 2048, badRun lines (32 + r.dlen) 2048) else none
                    (((s.vtake (s.pno core) (l.spillAddr + r.spill) r.rlen).ckPages core (l.spillAddr + r.spill) r.rlen).chargeData core (40 * cdiv len 64)).ckDeliver h off ((img.drop o).take len) bad snap

/-- REPLAY_BEGIN (R192, R193): the marked entry holds the address of the command that follows; an injected command has no place in the
stream, so the next command of the stream follows it. -/
def workReplayBegin (core n : Nat) (s : State) : Out :=
  work core n 0x83 s fun h s =>
    if aware h.w ∨ 4 ≤ h.ctx.calls.length then s.failed h stIllegalOp
    else s.pay h 0 (h.jumpCycles (targetOf h.w)) fun s =>
      let ret : Ptr := if h.injected then h.ptr else { h.ptr with off := h.ptr.off + 1 }
      (s.mapSlot core n fun c => ({ c with calls := ⟨ret, true⟩ :: c.calls, replay := true, replays := sat16 c.replays 1 }).goto (targetOf h.w)).done h

/-- REPLAY_END (R192): outside replay a one-cycle command. -/
def workReplayEnd (core n : Nat) (s : State) : Out :=
  work core n 0x84 s fun h s =>
    if aware h.w then s.failed h stIllegalOp
    else if !h.replay then s.pay h 0 1 fun s => s.done h
    else
      match h.ctx.calls with
      | [] => s.failed h stIllegalOp
      | e :: t =>
        if !e.mark then s.failed h stIllegalOp
        else s.pay h 0 (h.jumpCycles e.ret) fun s =>
          (s.mapSlot core n fun c => ({ c with calls := t, replay := false }).goto e.ret).done h

/-- SPILL_AHEAD (R184): after a push, with fewer free lines than LOWATER and more than one record on chip, the oldest record on chip
starts to spill; one that does not fit the spill region stays (log 31). -/
def execSpillAhead (core : Nat) (s : State) : Out :=
  if 2048 ≤ core then .next s
  else
    let l := (s.core core).larder
    match l.oldest with
    | none => .next s
    | some i =>
      let ok := l.en && l.dir == some true && l.freeLines < l.lowater && 1 < (l.recs.filter fun r => r.st == .onChip).length &&
        !l.busy && (l.recs[i]?).any (l.fitsSpill ·) && !s.farHeld core
      if ok then .next (s.mapLarder core fun l => l.spill i) else .next s

/-- Write one part of a record's image into the spill region: into HBM or the attic with its check value, onto a host page up to its first
poisoned line. Answers whether a poisoned line stopped it (R187, R219, R220, R221). -/
def State.partWrite (s : State) (p va : Nat) (bs : List Byte) (bads : List Bool) : State × Bool :=
  match s.translate p va true with
  | .error _ => (s, false)
  | .ok pa =>
    match s.region pa with
    | .host _ =>
      let good := bs.take (64 * (bads.takeWhile fun b => !b).length)
      (s.vwrite p va good, bads.any fun b => b)
    | _ => (s.engWriteChecked p pa bs bads, false)

/-- Write the image of a record into the spill region, part after part, until a poisoned line bound for the host stops it. -/
def State.spillOut (s : State) (core : Nat) (r : Rec) (va : Nat) : State × Bool :=
  r.parts.foldl
    (fun (a : State × Bool) x =>
      if a.2 then a
      else
        let o := r.line * 128 + x.1
        a.1.partWrite (s.pno core) (va + x.1) (s.larRead core o x.2).1 (s.larBads core o x.2)) (s, false)

/-- RECORD_SPILL_COMPLETE (R186, R187): the last spill write is acknowledged and the record's lines are free; a page held in the attic is
migrated first, and bank C0 wakes from retention (R128). -/
def execRecordSpillComplete (core : Nat) (s : State) : Out :=
  if 2048 ≤ core then .next s
  else
    let l := (s.core core).larder
    match l.inState .spilling with
    | none => .next s
    | some i =>
      match l.recs[i]? with
      | none => .next s
      | some r =>
        let p := s.pno core
        let va := l.spillAddr + r.spill
        let k := s.core core
        if s.farHeld core then .next s
        else if !k.bankIsOn l.region.1 l.region.2 then .next (s.wakeBanks core l.region.1 l.region.2)
        else if !s.vok p va r.rlen true then .next (s.areaFault core l.owner va r.rlen 1 true)
        else
          let x := s.spillOut core r va
          if x.2 then .next (x.1.faultCtx core l.owner stPoisoned)
          else
            .next ((((x.1.ckPages core va r.rlen).chargeData core (40 * (r.rlen / 64))).mapLarder core fun l =>
              { l.mapRec i (fun r => { r with st := .spilled }) with spills := sat16 l.spills 1 }).mapCore core Core.refresh)

/-- The newest record that is not on chip. -/
def Larder.newestSpilled (l : Larder) : Option Nat :=
  (List.range l.recs.length).find? fun i => (l.recs[i]?).any fun r => r.st != .onChip

/-- FETCH_BACK (R184): after a pop, the newest spilled record that fits in the free lines starts to come back below the oldest record
on chip. -/
def execFetchBack (core : Nat) (s : State) : Out :=
  if 2048 ≤ core then .next s
  else
    let l := (s.core core).larder
    match l.newestSpilled with
    | none => .next s
    | some i =>
      match l.recs[i]? with
      | none => .next s
      | some r =>
        if l.en && l.dir == some false && r.st == .spilled && !l.busy && r.lines ≤ l.freeLines && !s.farHeld core then
          let line := match l.oldest.bind (l.recs[·]?) with
            | some o => (o.line + l.size - r.lines) % l.size
            | none => 0
          .next (s.mapLarder core fun l => l.mapRec i fun r => { r with st := .fetching, line := line })
        else .next s

/-- Write the image of a spilled record back on chip in requests of 64 bytes, with the poison of each (R187, R219). -/
def State.fetchIn (s : State) (core : Nat) (r : Rec) (img : List Byte) (lines : List Bool) : State :=
  (List.range (r.rlen / 64)).foldl
    (fun s j => s.larWrite core (r.line * 128 + 64 * j) ((img.drop (64 * j)).take 64) (lines.getD j false)) s

/-- FETCH_BACK_COMPLETE (R186, R187). -/
def execFetchBackComplete (core : Nat) (s : State) : Out :=
  if 2048 ≤ core then .next s
  else
    let l := (s.core core).larder
    match l.inState .fetching with
    | none => .next s
    | some i =>
      match l.recs[i]? with
      | none => .next s
      | some r =>
        let k := s.core core
        if s.farHeld core then .next s
        else if !k.bankIsOn l.region.1 l.region.2 then .next (s.wakeBanks core l.region.1 l.region.2)
        else
          match s.spillRead core l r with
          | .error _ => .next (s.areaFault core l.owner (l.spillAddr + r.spill) r.rlen 1 false)
          | .ok (img, lines, ok) =>
            if !ok then .next (s.noteCheck.mapLarder core fun l => l.mapRec i fun r => { r with st := .failed })
            else
              .next (((((s.vtake (s.pno core) (l.spillAddr + r.spill) r.rlen).ckPages core (l.spillAddr + r.spill) r.rlen).fetchIn core r img lines).chargeData core (40 * (r.rlen / 64))).mapLarder core fun l =>
                { l.mapRec i (fun r => { r with st := .onChip }) with fetches := sat16 l.fetches 1 })

end Sys2Proof.Machine
end

