-- ==== Sys2Proof/Machine/Select.lean ====
section
/-! DEFINITION. The selector (R23, R24): which ready context of a core issues, and with it the work commands as events. -/

namespace Sys2Proof.Machine

/-- What the command at the head of a context does, by its opcode. -/
def headWork (op core n : Nat) (s : State) : Out :=
  match op with
  | 0x00 => workNop core n s
  | 0x01 => workWait core n s
  | 0x02 => workSignal core n s
  | 0x03 => workFence core n s
  | 0x04 => workLoop core n s
  | 0x05 => workEndloop core n s
  | 0x06 => workJump core n s
  | 0x07 => workCall core n s
  | 0x08 => workYield core n s
  | 0x09 => workHalt core n s
  | 0x20 => workStreamIn core n s
  | 0x21 => workStreamOut core n s
  | 0x22 => workChainW core n s
  | 0x23 => workCopyRemote core n s
  | 0x24 => workSwapHalves core n s
  | 0x25 => workArm core n s
  | 0x26 => workTransposeIn core n s
  | 0x40 => workMm core n s
  | 0x41 => workMmWide core n s
  | 0x42 => workMmSemi core n s
  | 0x43 => workMmDist core n s
  | 0x44 => workMmCmp core n s
  | 0x45 => workLoadW core n s
  | 0x46 => workDrainAcc core n s
  | 0x47 => workMmF32x3 core n s
  | 0x60 => workVop core n s
  | 0x61 => workVfunc core n s
  | 0x62 => workVderiv core n s
  | 0x63 => workVreduce core n s
  | 0x64 => workVnormBwd core n s
  | 0x65 => workVsoftmaxBwd core n s
  | 0x66 => workVcompress1 core n s
  | 0x67 => workVdecompSum core n s
  | 0x68 => workVrand core n s
  | 0x69 => workVconvert core n s
  | 0x6A => workVdigest core n s
  | 0x80 => workPushCkpt core n s
  | 0x81 => workPopCkpt core n s
  | 0x82 => workPeekCkpt core n s
  | 0x83 => workReplayBegin core n s
  | 0x84 => workReplayEnd core n s
  | 0x90 => workContrib core n s
  | 0x91 => workOwnerSum core n s
  | 0x92 => workParamBcast core n s
  | 0x93 => workStepVote core n s
  | 0x94 => workRingPass core n s
  | 0xA0 => workUpdateBlocks core n s
  | 0xA1 => workGradMerge core n s
  | 0xA2 => workCommitShadow core n s
  | 0xA3 => workDiscardShadow core n s
  | _ => workReservedCommand core n s

/-- Whether a context has issued its head, or ended by it, between two states. -/
def issuedBy (s t : State) (core n : Nat) : Bool :=
  (t.slot core n).issued != (s.slot core n).issued || ((s.slot core n).st.live && !(t.slot core n).st.live)

/-- Whether a context is ready (R23): its head would issue, with its waits and fence met, its engine free to accept it and its energy in
the account; a head that ends its context is ready too. -/
def State.ready (s : State) (core n : Nat) : Bool :=
  match (s.slot core n).head with
  | none => false
  | some w => match headWork (opcodeOf w) core n s with | .next t => issuedBy s t core n | _ => false

/-- The core as a context's head is asked at: nothing reserved, the clock running, and no answer kept. -/
def Core.asking (k : Core) (n : Nat) : Core :=
  { k.setSlot n { k.slot n with cause := 0, paused := false } with reserved := none, asleep := false }

/-- Why the head of a resident context would not issue now (CAUSE of Table 1.14; R23, R27, R308): 0 when the context is ready, else the
hold that its wait, its fence, its engine or the account gives it. -/
def State.holdOf (s : State) (core n : Nat) : Nat :=
  let c := s.slot core n
  if c.st ≠ .ready ∧ c.st ≠ .blocked then 0
  else
    match c.head with
    | none => 5
    | some w =>
      let cause := headCause (s.core core) c
      if cause ≠ 0 then cause
      else
        let u := s.mapCore core fun k => k.asking n
        match headWork (opcodeOf w) core n u with
        | .next t => if issuedBy u t core n then 0 else (t.slot core n).cause
        | _ => 0

/-- A context with the answer to that question: a head that has become ready is so from this cycle on (R24). -/
def Core.seen (k : Core) (n cause : Nat) : Core :=
  let c := k.slot n
  k.setSlot n { c with cause := cause, rdyAt := if cause = 0 then some (c.rdyAt.getD k.clk) else none }

/-- Ask every running context of a core why its head does not issue. -/
def State.ask (s : State) (core : Nat) : Core :=
  ((List.range 8).filter fun n => (s.slot core n).st == .ready || (s.slot core n).st == .blocked).foldl
    (fun k n => k.seen n (s.holdOf core n)) (s.core core)

/-- Whether the selector may take the context of a slot (R23, R24, R308): a job context when no ready job context issued less recently,
context 7 when no job context is ready, and either while the next issue is reserved for it. Which of two contexts that have never issued
goes first is the sender's (log 11). -/
def chosen (s : State) (core n : Nat) : Bool :=
  (s.core core).reserved == some n ||
    (List.range 7).all fun m =>
      m == n || (n != 7 && (s.slot core n).issuedAt ≤ (s.slot core m).issuedAt) || !s.ready core m

/-- A work command under the selector: what it would issue, it issues only when its context is the one to issue; otherwise nothing
happens, and the head waits for its turn. -/
def select (core n : Nat) (s : State) (out : Out) : Out :=
  match out with
  | .next t => if issuedBy s t core n && !chosen s core n then .next s else .next t
  | o => o

/-- NOP when the selector takes it (R23, R24); its meaning is `workNop`. -/
def execNop (core n : Nat) (s : State) : Out := select core n s (workNop core n s)

/-- WAIT when the selector takes it (R23, R24); its meaning is `workWait`. -/
def execWait (core n : Nat) (s : State) : Out := select core n s (workWait core n s)

/-- SIGNAL when the selector takes it (R23, R24); its meaning is `workSignal`. -/
def execSignal (core n : Nat) (s : State) : Out := select core n s (workSignal core n s)

/-- FENCE when the selector takes it (R23, R24); its meaning is `workFence`. -/
def execFence (core n : Nat) (s : State) : Out := select core n s (workFence core n s)

/-- LOOP when the selector takes it (R23, R24); its meaning is `workLoop`. -/
def execLoop (core n : Nat) (s : State) : Out := select core n s (workLoop core n s)

/-- ENDLOOP when the selector takes it (R23, R24); its meaning is `workEndloop`. -/
def execEndloop (core n : Nat) (s : State) : Out := select core n s (workEndloop core n s)

/-- JUMP when the selector takes it (R23, R24); its meaning is `workJump`. -/
def execJump (core n : Nat) (s : State) : Out := select core n s (workJump core n s)

/-- CALL when the selector takes it (R23, R24); its meaning is `workCall`. -/
def execCall (core n : Nat) (s : State) : Out := select core n s (workCall core n s)

/-- YIELD when the selector takes it (R23, R24); its meaning is `workYield`. -/
def execYield (core n : Nat) (s : State) : Out := select core n s (workYield core n s)

/-- HALT when the selector takes it (R23, R24); its meaning is `workHalt`. -/
def execHalt (core n : Nat) (s : State) : Out := select core n s (workHalt core n s)

/-- STREAM_IN when the selector takes it (R23, R24); its meaning is `workStreamIn`. -/
def execStreamIn (core n : Nat) (s : State) : Out := select core n s (workStreamIn core n s)

/-- STREAM_OUT when the selector takes it (R23, R24); its meaning is `workStreamOut`. -/
def execStreamOut (core n : Nat) (s : State) : Out := select core n s (workStreamOut core n s)

/-- CHAIN_W when the selector takes it (R23, R24); its meaning is `workChainW`. -/
def execChainW (core n : Nat) (s : State) : Out := select core n s (workChainW core n s)

/-- COPY_REMOTE when the selector takes it (R23, R24); its meaning is `workCopyRemote`. -/
def execCopyRemote (core n : Nat) (s : State) : Out := select core n s (workCopyRemote core n s)

/-- SWAP_HALVES when the selector takes it (R23, R24); its meaning is `workSwapHalves`. -/
def execSwapHalves (core n : Nat) (s : State) : Out := select core n s (workSwapHalves core n s)

/-- ARM when the selector takes it (R23, R24); its meaning is `workArm`. -/
def execArm (core n : Nat) (s : State) : Out := select core n s (workArm core n s)

/-- TRANSPOSE_IN when the selector takes it (R23, R24); its meaning is `workTransposeIn`. -/
def execTransposeIn (core n : Nat) (s : State) : Out := select core n s (workTransposeIn core n s)

/-- MM when the selector takes it (R23, R24); its meaning is `workMm`. -/
def execMm (core n : Nat) (s : State) : Out := select core n s (workMm core n s)

/-- MM_WIDE when the selector takes it (R23, R24); its meaning is `workMmWide`. -/
def execMmWide (core n : Nat) (s : State) : Out := select core n s (workMmWide core n s)

/-- MM_SEMI when the selector takes it (R23, R24); its meaning is `workMmSemi`. -/
def execMmSemi (core n : Nat) (s : State) : Out := select core n s (workMmSemi core n s)

/-- MM_DIST when the selector takes it (R23, R24); its meaning is `workMmDist`. -/
def execMmDist (core n : Nat) (s : State) : Out := select core n s (workMmDist core n s)

/-- MM_CMP when the selector takes it (R23, R24); its meaning is `workMmCmp`. -/
def execMmCmp (core n : Nat) (s : State) : Out := select core n s (workMmCmp core n s)

/-- LOAD_W when the selector takes it (R23, R24); its meaning is `workLoadW`. -/
def execLoadW (core n : Nat) (s : State) : Out := select core n s (workLoadW core n s)

/-- DRAIN_ACC when the selector takes it (R23, R24); its meaning is `workDrainAcc`. -/
def execDrainAcc (core n : Nat) (s : State) : Out := select core n s (workDrainAcc core n s)

/-- MM_F32X3 when the selector takes it (R23, R24); its meaning is `workMmF32x3`. -/
def execMmF32x3 (core n : Nat) (s : State) : Out := select core n s (workMmF32x3 core n s)

/-- VOP when the selector takes it (R23, R24); its meaning is `workVop`. -/
def execVop (core n : Nat) (s : State) : Out := select core n s (workVop core n s)

/-- VFUNC when the selector takes it (R23, R24); its meaning is `workVfunc`. -/
def execVfunc (core n : Nat) (s : State) : Out := select core n s (workVfunc core n s)

/-- VDERIV when the selector takes it (R23, R24); its meaning is `workVderiv`. -/
def execVderiv (core n : Nat) (s : State) : Out := select core n s (workVderiv core n s)

/-- VREDUCE when the selector takes it (R23, R24); its meaning is `workVreduce`. -/
def execVreduce (core n : Nat) (s : State) : Out := select core n s (workVreduce core n s)

/-- VNORM_BWD when the selector takes it (R23, R24); its meaning is `workVnormBwd`. -/
def execVnormBwd (core n : Nat) (s : State) : Out := select core n s (workVnormBwd core n s)

/-- VSOFTMAX_BWD when the selector takes it (R23, R24); its meaning is `workVsoftmaxBwd`. -/
def execVsoftmaxBwd (core n : Nat) (s : State) : Out := select core n s (workVsoftmaxBwd core n s)

/-- VCOMPRESS1 when the selector takes it (R23, R24); its meaning is `workVcompress1`. -/
def execVcompress1 (core n : Nat) (s : State) : Out := select core n s (workVcompress1 core n s)

/-- VDECOMP_SUM when the selector takes it (R23, R24); its meaning is `workVdecompSum`. -/
def execVdecompSum (core n : Nat) (s : State) : Out := select core n s (workVdecompSum core n s)

/-- VRAND when the selector takes it (R23, R24); its meaning is `workVrand`. -/
def execVrand (core n : Nat) (s : State) : Out := select core n s (workVrand core n s)

/-- VCONVERT when the selector takes it (R23, R24); its meaning is `workVconvert`. -/
def execVconvert (core n : Nat) (s : State) : Out := select core n s (workVconvert core n s)

/-- VDIGEST when the selector takes it (R23, R24); its meaning is `workVdigest`. -/
def execVdigest (core n : Nat) (s : State) : Out := select core n s (workVdigest core n s)

/-- PUSH_CKPT when the selector takes it (R23, R24); its meaning is `workPushCkpt`. -/
def execPushCkpt (core n : Nat) (s : State) : Out := select core n s (workPushCkpt core n s)

/-- POP_CKPT when the selector takes it (R23, R24); its meaning is `workPopCkpt`. -/
def execPopCkpt (core n : Nat) (s : State) : Out := select core n s (workPopCkpt core n s)

/-- PEEK_CKPT when the selector takes it (R23, R24); its meaning is `workPeekCkpt`. -/
def execPeekCkpt (core n : Nat) (s : State) : Out := select core n s (workPeekCkpt core n s)

/-- REPLAY_BEGIN when the selector takes it (R23, R24); its meaning is `workReplayBegin`. -/
def execReplayBegin (core n : Nat) (s : State) : Out := select core n s (workReplayBegin core n s)

/-- REPLAY_END when the selector takes it (R23, R24); its meaning is `workReplayEnd`. -/
def execReplayEnd (core n : Nat) (s : State) : Out := select core n s (workReplayEnd core n s)

/-- CONTRIB when the selector takes it (R23, R24); its meaning is `workContrib`. -/
def execContrib (core n : Nat) (s : State) : Out := select core n s (workContrib core n s)

/-- OWNER_SUM when the selector takes it (R23, R24); its meaning is `workOwnerSum`. -/
def execOwnerSum (core n : Nat) (s : State) : Out := select core n s (workOwnerSum core n s)

/-- PARAM_BCAST when the selector takes it (R23, R24); its meaning is `workParamBcast`. -/
def execParamBcast (core n : Nat) (s : State) : Out := select core n s (workParamBcast core n s)

/-- STEP_VOTE when the selector takes it (R23, R24); its meaning is `workStepVote`. -/
def execStepVote (core n : Nat) (s : State) : Out := select core n s (workStepVote core n s)

/-- RING_PASS when the selector takes it (R23, R24); its meaning is `workRingPass`. -/
def execRingPass (core n : Nat) (s : State) : Out := select core n s (workRingPass core n s)

/-- UPDATE_BLOCKS when the selector takes it (R23, R24); its meaning is `workUpdateBlocks`. -/
def execUpdateBlocks (core n : Nat) (s : State) : Out := select core n s (workUpdateBlocks core n s)

/-- GRAD_MERGE when the selector takes it (R23, R24); its meaning is `workGradMerge`. -/
def execGradMerge (core n : Nat) (s : State) : Out := select core n s (workGradMerge core n s)

/-- COMMIT_SHADOW when the selector takes it (R23, R24); its meaning is `workCommitShadow`. -/
def execCommitShadow (core n : Nat) (s : State) : Out := select core n s (workCommitShadow core n s)

/-- DISCARD_SHADOW when the selector takes it (R23, R24); its meaning is `workDiscardShadow`. -/
def execDiscardShadow (core n : Nat) (s : State) : Out := select core n s (workDiscardShadow core n s)

/-- RESERVED_COMMAND when the selector takes it (R23, R24); its meaning is `workReservedCommand`. -/
def execReservedCommand (core n : Nat) (s : State) : Out := select core n s (workReservedCommand core n s)

/-- SERVICE_CONTEXT_OVERDUE (R24): context 7's head is ready and has been for 8,192 cycles; no job context issues before it. -/
def execServiceContextOverdue (core : Nat) (s : State) : Out :=
  if 2048 ≤ core ∨ s.halts then .next s
  else
    let k := s.core core
    let c := k.slot 7
    if c.st == .ready && s.holdOf core 7 == 0 && k.reserved.isNone && 25 * 8192 ≤ k.clk - c.rdyAt.getD k.clk then
      .next (s.setCore core { k with reserved := some 7 })
    else .next s

/-- OWNER_SUM_START (R283, R284): the oldest waiting OWNER_SUM of a core that is resident and whose wait is over issues, in its
turn. -/
def execOwnerSumStart (core : Nat) (s : State) : Out :=
  if 2048 ≤ core then .next s
  else
    let c := s.coll (s.pno core)
    let k := s.core core
    let ended (x : OwnSum) : Bool :=
      x.core == core && (c.dec != 0 || c.winDone || c.allLanded (cf x.cmd 37 20)) && (k.findSlot x.lctx).isSome
    match (c.sums.find? ended).bind fun x => k.findSlot x.lctx with
    | none => .next s
    | some n => execOwnerSum core n s

end Sys2Proof.Machine
end

