-- ==== Sys2Proof/Machine/Supplies.lean ====
section
/-! DEFINITION. Supplies, sheds and saves, board inputs and outputs, and the SMBus (R316, R419 to R435). -/

namespace Sys2Proof.Machine

/-! Status registers of start-up, trust and supplies. -/

/-- BOOT_STATUS (Table 15.13). -/
def State.bootStatus (s : State) : Nat :=
  let b := s.boot
  fld (s.mram.bootcnt % 2 ^ 32) 32 + fld b.stage 20 + fld b.fail 16 + fld (b01 b.fallback) 2 + fld (b01 b.recovery) 1 + b01 b.idok

/-- TRUST_STATUS (Table 15.14). -/
def State.trustStatus (s : State) : Nat :=
  let m := s.mram
  let present := ((List.range 4).map fun i => if (Config.rootDigest i).isSome then 2 ^ i else 0).sum
  let staged := ((List.range 3).map fun i => if (s.staged i).verified then 2 ^ i else 0).sum
  let trials := match m.trial with | some t => min 3 t.starts | none => 0
  fld trials 28 + fld staged 24 + fld m.actSlot 16 + fld m.prevSlot 14 + fld s.boot.rootUsed 8 + fld (m.revoked % 16) 4 + present

/-- SAVE_STATUS (Table 16.16). -/
def State.saveStatus (s : State) : Nat :=
  let m := s.mram
  fld (m.saveBoot % 2 ^ 32) 32 + fld (m.saveReason % 16) 28 + fld (b01 m.saveValid) 27 + m.saveDur % 2 ^ 16

/-- SUP_STATUS (Table 16.14). -/
def Sup.status (x : Sup) : Nat :=
  fld (x.vin % 2 ^ 16) 48 + fld (x.vsb % 2 ^ 16) 32 + fld (x.tjmax % 256) 24 + fld (x.sheds % 256) 16 + fld (b01 x.tlatch) 4 +
    fld (b01 x.sagIn.active) 3 + fld (b01 x.therm.active) 2 + fld (b01 x.shed) 1 + b01 x.warn

/-- BRD_IN (Table 16.15). -/
def Sup.brdIn (x : Sup) : Nat :=
  fld x.therm.glitches 32 + fld x.sagIn.glitches 24 + fld x.perstB.glitches 16 + fld x.perstA.glitches 8 + x.reset.glitches

/-- Sample the two supplies, whose voltages the board gives: free values (log 83). -/
def State.sampleSupply (s : State) : State :=
  { s with
    sup := { s.sup with vin := (Config.fresh s.free).toNat % 2 ^ 16, vsb := (Config.fresh (s.free + 1)).toNat % 2 ^ 16 }
    free := s.free + 2 }

/-! Outputs (Table 16.6), as functions of the state; true is asserted, or high for PWR_GOOD. -/

/-- PWR_GOOD (Table 16.6). -/
def State.pwrGood (s : State) : Bool := s.powered && !s.sup.railFault

/-- SAG_N (Table 16.6): in STANDBY while VIN is present and has not stood at or above 45 V for 1 ms (R419); released in OFF (R431). -/
def State.sagN (s : State) : Bool :=
  match s.pwr.devState with
  | 0 => false
  | 1 => s.sup.vinOn && !s.sup.vinHeld
  | 2 | 3 => s.sup.shed || s.sup.warn
  | _ => true

/-- FAULT_N (Table 16.6); released in OFF (R431). -/
def State.faultN (s : State) : Bool := s.pwr.devState != 0 && (s.sup.tlatch || s.boot.recovery || s.sup.refFault)

/-- SMB_ALERT_N (Table 16.6, R432); released in OFF (R431). -/
def State.alertN (s : State) : Bool := s.pwr.devState != 0 && s.sup.alert

/-! The shed (R422, R423). -/

/-- Shed load: every cluster clock stops, every fabric port goes down, and all state is kept (R422). -/
def State.shedLoad (s : State) : State :=
  if s.sup.shed ∨ !s.powered then s
  else
    let s1 := s.mapSup fun x => { x with shed := true, sheds := min 255 (x.sheds + 1), alert := true }
    (List.range 64).foldl State.portFall s1

/-- SAG_WARNING (R421, R422): VIN has fallen below 44 V. During the power-up phase the phase ends. -/
def execSagWarning (s : State) : Out :=
  if s.pwr.devState = 0 then .next s
  else
    let s1 := s.mapSup fun x => { x with warn := true, vinOn := true, vinHeld := false }
    .next (if s1.rising then s1.mapBoot fun b => { b with waitRef := false, stage := 1 } else s1.shedLoad)

/-- SAG_IN_N (R422, R430): acted on once per activation. -/
def execSagInN (s : State) : Out :=
  if s.sup.sagIn.active ∨ s.pwr.devState = 0 then .next s
  else .next (s.mapSup fun x => { x with sagIn := { x.sagIn with active := true } }).shedLoad

/-- SHED_END (R423): VIN has stood at or above 45 V for 1 ms, and SAG_IN_N is not active. Resets of ports that waited run first
(Table 16.8). -/
def execShedEnd (s : State) : Out :=
  if !s.sup.shed ∨ !s.powered ∨ s.sup.sagIn.active then .next s
  else
    let s1 := s.sup.perstPend.foldl State.perst s
    .next (s1.mapSup fun x => { x with shed := false, warn := false, vinHeld := true, perstPend := [] })

/-! The save (R424, Table 16.7). -/

/-- An open lease: holder partition, core, context, kind as the row of Table 14.2, and target. -/
structure OpenLease where
  part : Nat
  core : Nat
  lctx : Nat
  kind : Nat
  target : Nat
  deriving DecidableEq, Repr

/-- Leases of the dispatch cores: the packets taken and not yet complete. -/
def State.dispLeases (s : State) : List OpenLease :=
  s.hports.flatMap fun (h : Nat × HostPort) =>
    h.2.rings.flatMap fun (r : Nat × Ring) => r.2.taken.map fun t => (⟨r.2.part, r.1 % 8, 0, 7, num t.b 4 5⟩ : OpenLease)

/-- Leases of the fault-table entries. -/
def State.faultLeases (s : State) : List OpenLease :=
  s.parts.flatMap fun (x : Nat × Part) => x.2.faults.map fun f => (⟨x.1, 0, 0, 7, f.page⟩ : OpenLease)

/-- Leases of the fabric runs of a session: its messages under way. -/
def Session.leases (p : Nat) (x : Session) : List OpenLease :=
  (x.msgs.filter fun m => m.started).map fun m =>
    match m.owner with
    | .cmd core l id => (⟨p, core, l, 8, id⟩ : OpenLease)
    | .vote => ⟨p, 0, 0, 8, m.msgid⟩

/-- Leases of the update runs and of the fabric runs, a draining session's among them (R260). -/
def State.runLeases (s : State) : List OpenLease :=
  let upd := s.parts.flatMap fun (x : Nat × Part) =>
    (x.2.updQ.filter fun u => u.accepted).map fun u => (⟨x.1, u.core, u.lctx, 8, u.id⟩ : OpenLease)
  let fab := s.fab.peers.flatMap fun (y : Nat × Peer) =>
    (y.2.old.toList ++ y.2.cur.toList).flatMap fun x => x.leases y.2.part
  upd ++ fab

/-- A lease put in its place by ascending logical core, after those of the same core. -/
def OpenLease.insert (x : OpenLease) : List OpenLease → List OpenLease
  | [] => [x]
  | y :: t => if x.core < y.core then x :: y :: t else y :: x.insert t

/-- Leases of one kind in ascending logical core (Table 16.7). -/
def byCore (l : List OpenLease) : List OpenLease := l.foldl (fun t x => x.insert t) []

/-- Leases of one kind on the cores, in ascending logical core. -/
def State.coreLeases (s : State) (kind : Nat) : List OpenLease :=
  s.cores.flatMap fun (x : Nat × Core) =>
    let p := s.pno x.1
    let k := x.2
    match kind with
    | 1 => (k.stSlots.filter fun y => y.2.owned).map fun y => ⟨p, x.1, y.2.lctx, 1, y.1⟩
    | 2 => k.locks.map fun l => ⟨l.part, l.core, l.lctx, 2, scrPa x.1 l.addr⟩
    | 3 => if k.larder.en then
        ⟨p, x.1, k.larder.owner, 3, scrPa x.1 (0x40000 + k.larder.start * 128)⟩ ::
          (List.range k.larder.spillPages).map fun i => ⟨p, x.1, k.larder.owner, 3, k.larder.spillAddr + i * 2 ^ 21⟩
      else []
    | 4 => ((k.passes.filter fun y => opcodeOf y.cmd == 0x41).map fun y => ⟨p, x.1, y.lctx, 4, y.id⟩) ++
        (match k.chain with | some c => [⟨p, x.1, c.lctx, 4, c.id⟩] | none => []) ++
        (match k.swap with | some w => [⟨p, x.1, (k.slot w.slot).lctx, 4, w.slot⟩] | none => [])
    | 5 => (k.acc.filter fun y => y.2.held).map fun y => ⟨p, x.1, y.2.lctx, 5, y.1⟩
    | _ => if k.chainBuf.isEmpty then [] else [⟨p, x.1, k.chainRx, 6, 0⟩]

/-- The open lease table in the order in which a save writes it (Table 16.7). -/
def State.openLeases (s : State) : List OpenLease :=
  byCore s.dispLeases ++ s.coreLeases 3 ++ byCore s.runLeases ++ s.faultLeases ++
    s.coreLeases 1 ++ s.coreLeases 2 ++ s.coreLeases 5 ++ s.coreLeases 6 ++ s.coreLeases 4

def OpenLease.bytes (x : OpenLease) : List Byte := sized 16 (Config.leaseEntry x.part x.core x.lctx x.kind x.target)

/-- A step ledger as the status page shows it (R291). -/
def Part.ledgerBytes (pt : Part) : List Byte := (List.range 256).flatMap fun i => leBytes 8 (Tab.get 0 pt.ledger i).toNat

/-- Bytes 0 to 27 of the save header, and OMITTED (Table 16.7). -/
def State.saveHead (s : State) (reason omitted : Nat) : List Byte × List Byte :=
  (ascii "AVSV" ++ leBytes 4 1 ++ leBytes 8 s.mram.bootcnt ++ leBytes 8 s.ltime ++ leBytes 2 s.sup.vin ++ leBytes 1 reason ++
    leBytes 1 (fld (b01 (omitted != 0)) 1), leBytes 4 omitted)

/-- SAVE begins (R424, Table 16.5): steps 1 to 5. The identity key is erased (R401). -/
def State.beginSave (s : State) (reason : Nat) : State :=
  let s0 := (s.sampleSupply.mapFlt Flt.commit).mapBoot fun b => { b with idKey := [], idok := false }
  let all := s0.openLeases
  let omitted := all.length - 4096
  let h := s0.saveHead reason omitted
  let m0 := Memory.writes (Memory.writes [] 0 h.1) 32 h.2
  let m1 := s0.partList.foldl
    (fun m p => Memory.writes m (0x40 + 16 * p) (leBytes 8 (s0.part p).word ++ leBytes 1 (1 + fld (s0.part p).port 1))) m0
  let m2 := s0.partList.foldl (fun m p => Memory.writes m (0x1000 + 0x800 * p) (s0.part p).ledgerBytes) m1
  let m3 := Memory.writes m2 0x21000 ((all.take 4096).flatMap OpenLease.bytes)
  { s0 with
    mram := { s0.mram with save := m3, saveValid := false, saveReason := reason, saveBoot := s0.mram.bootcnt }
    pwr := { s0.pwr with devState := 4 } }

/-- SAVE_START (R424, Table 11.7): VIN has fallen below 42 V. -/
def execSaveStart (s : State) : Out := .next (if s.powered then (s.mapSup fun x => { x with warn := true, vinHeld := false }).beginSave 0 else s)

/-- SAG_IN_N_HELD (R423, Table 16.6): held for 2 ms, it counts as VIN below 42 V. -/
def execSagInNHeld (s : State) : Out := .next (if s.powered && s.sup.sagIn.active then s.beginSave 1 else s)

/-- THERMAL_SHUTDOWN (R433): the thermal latch is set, and SAVE begins; during a save REASON stays (Table 16.8). -/
def execThermalShutdown (s : State) : Out :=
  if s.pwr.devState = 0 then .next s
  else
    let s1 := s.mapSup fun x => { x with tlatch := true, alert := true }
    .next (if s1.powered then s1.beginSave 2 else s1)

/-- The save record completed: its state, its CRC and its duration, a free value (R426, Table 16.10). -/
def State.sealSave (s : State) : State :=
  let m0 := s.mram.save
  let m1 := Memory.write m0 27 (BitVec.ofNat 8 ((Memory.read m0 27).toNat % 4 / 2 * 2 + 1))
  let entry (i : Nat) : List Byte := Memory.reads m1 (0x21000 + 16 * i) 16
  let valid := ((List.range 4096).map entry).filter fun e => e.any fun b => b != 0
  let crc := crc32c (Memory.reads m1 0 28 ++ Memory.reads m1 32 4 ++ valid.flatten)
  { s with
    mram := { s.mram with
      save := Memory.writes m1 28 (leBytes 4 crc), saveValid := true, saveDur := (Config.fresh s.free).toNat % 2 ^ 16 }
    free := s.free + 1 }

/-- SAVE_COMPLETE (R424): step 6, then SAFE_HOLD, or the DEV_RESET_N that waited (Table 16.8). -/
def execSaveComplete (s : State) : Out :=
  if s.pwr.devState ≠ 4 then .next s
  else if s.sup.resetPend then .next s.sealSave.devReset
  else
    .next { s.sealSave with
      pwr := { s.pwr with devState := 5 }
      sup := { s.sup with alert := true }
      hports := s.hports.map fun x => (x.1, { x.2 with up := false, speed := 0, width := 0 }) }

/-- The device leaves SAFE_HOLD for STANDBY and starts up; a DEV_RESET_N that waited acts now (Table 16.8). -/
def State.leaveHold (s : State) : State := if s.sup.resetPend then s.devReset else s.startUp false

/-- SAFE_HOLD_RECOVERY (Table 11.7): VIN has been above 44 V for 10 ms with SAG_IN_N inactive. -/
def execSafeHoldRecovery (s : State) : Out :=
  .next (if s.pwr.devState = 5 ∧ !s.sup.sagIn.active then (s.mapSup fun x => { x with warn := false, vinOn := true, vinHeld := false }).leaveHold else s)

/-- SAFE_HOLD_COLLAPSE (Table 11.7): VIN has been below 36 V for 10 ms. SAG_IN_N held for good keeps SAFE_HOLD (Table 16.6). -/
def execSafeHoldCollapse (s : State) : Out :=
  .next (if s.pwr.devState = 5 ∧ !s.sup.sagIn.active then (s.mapSup fun x => { x with vinOn := false, vinHeld := false }).leaveHold else s)

/-! Board inputs (R430). -/

/-- THERM_IN_N (R430): while active it counts in every thermal window. -/
def execThermInN (s : State) : Out :=
  .next (if s.pwr.devState = 0 then s else s.mapSup fun x => { x with therm := { x.therm with active := true } })

/-- INPUT_REARM (R430): an input has been inactive for 80 samples. DEV_RESET_N lets the standby phase go on (Table 16.6); a PERST input
frees its port (R366). -/
def execInputRearm (i : BoardInput) (s : State) : Out :=
  if s.pwr.devState = 0 then .next s
  else match i with
  | .sagInN => .next (s.mapSup fun x => { x with sagIn := { x.sagIn with active := false } })
  | .thermInN => .next (s.mapSup fun x => { x with therm := { x.therm with active := false } })
  | .devResetN =>
    let s1 := s.mapSup fun x => { x with reset := { x.reset with active := false } }
    .next (if s1.boot.standby then s1.standbyPhase false else s1)
  | .perstA => .next (s.perstFree 0)
  | .perstB => .next (s.perstFree 1)

/-- BOARD_INPUT_GLITCH (R430): counted in BRD_IN, and otherwise ignored. -/
def execBoardInputGlitch (i : BoardInput) (s : State) : Out :=
  let bump (x : InputSt) : InputSt := { x with glitches := min 255 (x.glitches + 1) }
  if s.pwr.devState = 0 then .next s
  else .next (s.mapSup fun x =>
    match i with
    | .sagInN => { x with sagIn := bump x.sagIn }
    | .thermInN => { x with therm := bump x.therm }
    | .devResetN => { x with reset := bump x.reset }
    | .perstA => { x with perstA := bump x.perstA }
    | .perstB => { x with perstB := bump x.perstB })

/-- FAULT_N_HOLD_EXPIRY (R429, Table 16.6). -/
def execFaultNHoldExpiry (s : State) : Out := .next (s.mapSup fun x => { x with refFault := false })

/-! SMBus (R432). -/

/-- Whether the SMBus target answers: from the end of the standby phase on, in every state but OFF. -/
def State.smbus (s : State) : Bool := s.pwr.devState != 0 && !s.boot.standby

/-- Answer a read command with a value; without an answer nothing changes. -/
def State.smbRead (s : State) (v : Nat) : State := if s.smbus then { s with busData := BitVec.ofNat 64 v } else s

/-- SMB_DEVSTATE (Table 16.11). -/
def execSmbDevstate (s : State) : Out := .next (s.smbRead (s.pwr.devState + fld (b01 s.sup.tlatch) 7))

/-- SMB_HOTTEST_READING (Table 16.11). -/
def execSmbHottestReading (s : State) : Out := .next (s.smbRead (s.sup.tjmax % 256))

/-- SMB_INPUT_POWER (Table 16.11). -/
def execSmbInputPower (s : State) : Out := .next (s.smbRead (s.pwr.pin % 2 ^ 16))

/-- SMB_VIN (Table 16.11). -/
def execSmbVin (s : State) : Out :=
  if s.smbus then
    let s1 := s.sampleSupply
    .next (s1.smbRead s1.sup.vin)
  else .next s

/-- SMB_SAVE_STATUS (Table 16.11). -/
def execSmbSaveStatus (s : State) : Out := .next (s.smbRead s.saveStatus)

/-- SMB_BOOT_STATUS (Table 16.11). -/
def execSmbBootStatus (s : State) : Out := .next (s.smbRead s.bootStatus)

/-- The 7-bit address at which the SMBus target answers (R432). -/
def State.smbAddr (s : State) : Nat := if s.boot.recovery then 0x4A else num s.boot.recNow 2058 2058 % 128

/-- ALERT_RESPONSE_ADDRESS (R432): a target that asserts SMB_ALERT_N answers with its address, in bits [7:1] (PRESUMED, log 214), and releases
the line. -/
def execAlertResponseAddress (s : State) : Out :=
  .next (if s.smbus && s.sup.alert then { s.mapSup fun x => { x with alert := false } with busData := BitVec.ofNat 64 (2 * s.smbAddr) } else s)

/-- SMBUS_UNLISTED_COMMAND (R432): a command outside Table 16.11 is not acknowledged, and changes nothing. -/
def execSmbusUnlistedCommand (_code : Nat) (s : State) : Out := .next s

end Sys2Proof.Machine
end

