-- ==== Sys2Proof/Machine/Window.lean ====
section
/-! DEFINITION. The core control window: what its registers read, and what writes of them do (R8, R9, R47, R81, R114, R145, R178, R202,
R436, R438). -/

namespace Sys2Proof.Machine

/-! Reads (Table 17.1). -/

/-- CORE_ID (Table 1.10). -/
def State.coreId (s : State) (core : Nat) : Nat :=
  fld (s.partNo core) 26 + fld (core / 512) 24 + fld (clusterOf core) 17 + core

/-- CTX_STATUS (Table 1.14). -/
def Ctx.status (c : Ctx) : Nat :=
  fld c.lastStatus 48 + fld c.st.code 28 + fld c.cause 24 + fld c.loops.length 21 + fld c.calls.length 18 + fld (b01 c.tokovf) 17 + c.lctx % 16

/-- CTX_CMDPTR (R47). While an injected command stands at the head it reads as the next position of the stream (DESIGN CHOICE,
log 188). -/
def Ctx.cmdptr (c : Ctx) : Nat := fld c.nextPtr.base 16 + c.nextPtr.off % 2 ^ 16

/-- MX_STATUS (Table 2.14). -/
def MxStat.word (x : MxStat) : Nat :=
  fld x.restarts 48 + fld x.nowgskip 32 + fld (b01 x.rowfault) 3 + fld (b01 x.inf) 2 + fld (b01 x.nan) 1 + b01 x.sat

/-- ARR_REPAIR (Table 2.15). -/
def ArrRepair.word (x : ArrRepair) : Nat := fld (min 255 x.faults) 24 + fld (b01 x.runtime) 16 + fld (b01 x.spareOn) 5 + x.row % 32

/-- One entry of ACC_OWNER (Table 2.16). -/
def AccSlot.owner (a : AccSlot) : Nat :=
  if a.held then fld 1 15 + fld (a.kind % 16) 11 + fld (a.hw % 8) 8 + fld (a.lctx % 16) 4 + a.lslot % 4 else 0

/-- VX_STATUS (Table 3.12). -/
def VxStat.word (x : VxStat) : Nat :=
  fld x.restarts 48 + fld x.suspends 32 + fld (b01 x.digmis) 4 + fld (b01 x.cmpnan) 3 + fld (b01 x.inf) 2 + fld (b01 x.nan) 1 + b01 x.sat

/-- VX_CTX of a slot (Table 3.13). -/
def Core.vxCtx (k : Core) (n : Nat) : Nat :=
  let c := k.slot n
  let seg := match c.vsusp, k.vec with
    | some r, _ => r.seg
    | none, some r => if r.slot = n then r.seg else 0
    | none, none => 0
  fld (seg % 2 ^ 16) 24 + fld (b01 c.vsusp.isSome) 9 + fld (b01 c.pmode) 8 + fld (b01 c.sec.isSome) 1 + b01 c.fwd.isSome

/-- VX_TABLES of a slot (Table 3.14). -/
def Ctx.vxTables (c : Ctx) : Nat :=
  let t (b : Option TabBind) : Nat := match b with | some x => fld x.base 16 + x.off % 2 ^ 16 | none => 0
  fld (t c.sec) 32 + t c.fwd

/-- CIRC_CFG (Table 4.11). -/
def Circ.cfg (c : Circ) : Nat :=
  fld (b01 c.en) 63 + fld (c.tok % 16) 56 + fld (c.lctx % 16) 52 + fld ((c.chunk - 1) % 2 ^ 16) 36 + fld ((c.size - 1) % 2 ^ 16) 20 + c.start % 2 ^ 16

/-- CIRC_HEAD and CIRC_TAIL (Table 4.12). -/
def Circ.head (c : Circ) : Nat := fld (b01 c.headWrap) 16 + c.headPos
def Circ.tail (c : Circ) : Nat := fld (b01 c.tailWrap) 16 + c.tailPos

def BankSt.code : BankSt → Nat
  | .on => 0 | .toRet => 1 | .ret => 2 | .wake => 3 | .toOff => 4 | .off => 5

/-- BANK_PWR and BANK_STATE (Tables 4.13, 4.14). -/
def Core.bankPwr (k : Core) : Nat := ((List.range 6).map fun b => fld ((k.bank b).target % 4) (4 * b)).sum
def Core.bankState (k : Core) : Nat := ((List.range 6).map fun b => fld (k.bank b).st.code (4 * b)).sum

def StSt.code : StSt → Nat
  | .unassigned => 0 | .empty => 1 | .armed => 2 | .active => 3 | .suspended => 4

/-- Word `i` of ST_DESC: FAR and SFAR show the descriptor as its transfers have advanced it (R178). -/
def StSlot.descWord (x : StSlot) (i : Nat) : Nat :=
  if i = 0 then x.far else if i = 6 then x.sfar else bits x.desc.toNat (64 * i + 63) (64 * i)

/-- ST_SLOT (Table 5.11). -/
def StSlot.word (x : StSlot) : Nat :=
  fld (x.idx.getD 4 0 % 2 ^ 16) 48 + fld (b01 x.sph) 24 + fld (b01 x.owned) 23 + fld (x.lctx % 16) 19 + fld (b01 x.shadow.isSome) 18 +
    fld (b01 x.hsel) 17 + fld (x.queue.length % 8) 14 + fld x.st.code 11 + x.gen % 256

/-- ST_SUSPIDX (Table 5.12). -/
def StSlot.suspIdx (x : StSlot) : Nat := ((List.range 4).map fun i => fld (x.idx.getD i 0 % 2 ^ 16) (16 * i)).sum

/-- Whether a core is a physical neighbour of the core that serves `core`, on its die (R169). -/
def State.neighbours (s : State) (core next : Nat) : Bool :=
  let place (c : Nat) : Nat × Nat × Nat :=
    match (s.core c).spare with
    | some col => (c / 512, 16, col)
    | none => (c / 512, c % 512 / 32, c % 32)
  let a := place core
  let b := place next
  a.1 == b.1 && ((a.2.1 == b.2.1 && (a.2.2 == b.2.2 + 1 || b.2.2 == a.2.2 + 1)) || (a.2.2 == b.2.2 && (a.2.1 == b.2.1 + 1 || b.2.1 == a.2.1 + 1)))

/-- CHAIN_CFG (Table 5.14); NBR stays at its reset value until a NEXT has been written. -/
def State.chainCfg (s : State) (core : Nat) : Nat :=
  let k := s.core core
  fld (b01 k.chainEn) 63 + fld (k.chainRx % 16) 16 + fld (b01 (k.chainSet && s.neighbours core k.chainNext)) 11 + k.chainNext

/-- ST_STATUS (Table 5.15). -/
def Core.stStatus (k : Core) : Nat := fld k.suspensions 48 + fld k.descbusy 32 + b01 k.linkerr

/-- LARDER_CFG, LARDER_SPILL, LARDER_STATUS and LARDER_CNT (Tables 6.9 to 6.12). -/
def Larder.cfg (l : Larder) : Nat :=
  fld (b01 l.en) 63 + fld (l.owner % 16) 56 + fld (l.lowater % 2 ^ 12) 32 + fld ((l.size - 1) % 2 ^ 12) 16 + l.start % 2 ^ 12
def Larder.spillWord (l : Larder) : Nat := fld (l.spillAddr / 2 ^ 21) 21 + l.spillPages % 64
def Larder.status (l : Larder) : Nat :=
  fld (b01 l.busy) 63 + fld l.recs.length 52 + fld (l.recs.filter fun r => r.st.inSpill).length 41 + fld (l.freeLines % 2 ^ 12) 20 +
    l.spillLines % 2 ^ 20
def Larder.counts (l : Larder) : Nat := fld l.spills 48 + fld l.fetches 32 + fld l.pushwaits 16 + l.popwaits

/-- What a register of the window reads; 0 at an offset that Table 17.1 does not list (R436). -/
def State.winValue (s : State) (core off : Nat) : Nat :=
  let k := s.core core
  let n1 := (off - 0xC1000) / 0x100
  if off = 0xC0000 then s.coreId core
  else if off = 0xC0008 then fld (b01 k.swapEn) 24 + k.quantum
  else if 0xC1000 ≤ off ∧ off < 0xC1800 then
    let c := k.slot n1
    match off % 0x100 with
    | 0x00 => fld (c.eclass % 16) 8 + fld (c.bank % 4) 4
    | 0x08 => ({ c with cause := s.holdOf core n1 } : Ctx).status
    | 0x10 => c.tokens.toNat
    | 0x18 => c.cmdptr
    | _ => 0
  else if off = 0xC2000 then k.mx.word
  else if 0xC2008 ≤ off ∧ off < 0xC2028 then (k.array ((off - 0xC2008) / 8)).word
  else if off = 0xC2030 ∨ off = 0xC2038 then
    ((List.range 4).map fun i => fld (k.accAt (i + (off - 0xC2030) / 2)).owner (16 * i)).sum
  else if 0xC2100 ≤ off ∧ off < 0xC2140 then (k.slot ((off - 0xC2100) / 8)).psave.toNat
  else if off = 0xC3000 then k.vx.word
  else if 0xC3100 ≤ off ∧ off < 0xC3180 then
    let n := (off - 0xC3100) / 0x10
    if off % 0x10 = 0 then k.vxCtx n else (k.slot n).vxTables
  else if 0xC4000 ≤ off ∧ off < 0xC4200 then
    let p := (k.slot ((off - 0xC4000) / 0x40)).pair (off % 0x40 / 0x10)
    if off % 0x10 = 0 then p.base.toNat else p.limit.toNat
  else if 0xC4400 ≤ off ∧ off < 0xC4480 then
    let c := k.circAt ((off - 0xC4400) / 0x20)
    match off % 0x20 with
    | 0x00 => c.cfg
    | 0x08 => c.head
    | 0x10 => c.tail
    | _ => 0
  else if off = 0xC4800 then k.bankPwr
  else if off = 0xC4808 then k.bankState
  else if off = 0xC4810 then fld k.scr.corrected 48 + fld k.scr.poisoned 32 + fld k.scr.wakes 16 + k.scr.offrefused
  else if off = 0xC4818 then fld k.locks.length 32 + k.scr.lockfull
  else if off = 0xC4820 then fld k.scr.guests 48 + fld k.scr.remdenied 32 + fld k.outW 7 + k.outR
  else if 0xC5000 ≤ off ∧ off < 0xC5400 then (k.stSlot ((off - 0xC5000) / 0x40)).descWord (off % 0x40 / 8)
  else if 0xC5400 ≤ off ∧ off < 0xC5500 then
    let x := k.stSlot ((off - 0xC5400) / 0x10)
    if off % 0x10 = 0 then x.word else x.suspIdx
  else if 0xC5500 ≤ off ∧ off < 0xC5540 then b01 (k.slot ((off - 0xC5500) / 8)).perf
  else if off = 0xC5600 then s.chainCfg core
  else if off = 0xC5608 then k.stStatus
  else if off = 0xC6000 then k.larder.cfg
  else if off = 0xC6008 then k.larder.spillWord
  else if off = 0xC6010 then k.larder.status
  else if off = 0xC6018 then k.larder.counts
  else if 0xC6100 ≤ off ∧ off < 0xC6140 then
    let c := k.slot ((off - 0xC6100) / 8)
    fld (min 0xFFFF c.replays) 48 + b01 c.replay
  else 0

/-- What a read of the window clears (R438). -/
def Core.winClear (k : Core) (off : Nat) : Core :=
  if 0xC1000 ≤ off ∧ off < 0xC1800 ∧ off % 0x100 = 0x08 then
    let n := (off - 0xC1000) / 0x100
    if (k.slot n).tokovf then k.setSlot n { k.slot n with tokovf := false } else k
  else if off = 0xC2000 then { k with mx := { k.mx with restarts := 0, nowgskip := 0 } }
  else if off = 0xC3000 then { k with vx := { k.vx with restarts := 0, suspends := 0 } }
  else if off = 0xC4810 then { k with scr := { k.scr with corrected := 0, poisoned := 0, wakes := 0, offrefused := 0 } }
  else if off = 0xC4818 then { k with scr := { k.scr with lockfull := 0 } }
  else if off = 0xC4820 then { k with scr := { k.scr with guests := 0, remdenied := 0 } }
  else if off = 0xC5608 then { k with suspensions := 0, descbusy := 0 }
  else if off = 0xC6018 then { k with larder := { k.larder with spills := 0, fetches := 0, pushwaits := 0, popwaits := 0 } }
  else k

/-- A read of the window: the value, and the state in which its RC fields are cleared. -/
def State.winRead (s : State) (core off : Nat) : Nat × State :=
  (s.winValue core off, if (s.core core).winClear off = s.core core then s else s.setCore core ((s.core core).winClear off))

/-! Writes. -/

/-- How a write of the window ends: performed, refused with a status for the writer, or waiting in the mesh (R32). -/
inductive WinRes where
  | done (s : State)
  | refused (status : Nat)
  | wait

/-- Whether the writer is context 7 (R47). -/
def isService : Who → Bool
  | .ctx _ slot => slot == 7
  | _ => false

/-- Whether the writer is the dispatch path of the core's partition. -/
def State.isDispatch (s : State) (w : Who) (core : Nat) : Bool :=
  match w with
  | .dispatch p => s.partOf core == some p
  | _ => false

/-- Whether the writer may write what context 7 and the dispatch path may (R47, R145, R178, R202). -/
def State.mayWrite (s : State) (w : Who) (core : Nat) : Bool := isService w || s.isDispatch w core

/-- Whether a core's partition exists and declares a logical context (R22, R297). -/
def State.declared (s : State) (core lctx : Nat) : Bool :=
  (s.part (s.pno core)).exist && Decidable.decide (lctx < (s.part (s.pno core)).nctx)

/-- The logical context of a slot; slot 7 holds the service context (log 5). -/
def Core.slotLctx (k : Core) (n : Nat) : Nat := if n = 7 then 16 else (k.slot n).lctx

/-- CTX_CTRL (R47, Table 1.13): ECLASS and TOKBANK are placed, a running context stops with STOP, and START begins one in an idle slot;
a core of a free cluster runs only its service context (R297). -/
def State.writeCtxCtrl (s : State) (core n v : Nat) : WinRes :=
  let ec := bits v 11 8
  if 11 ≤ ec ∧ ec ≤ 14 then .refused stDenied
  else
    let run := (s.slot core n).st.live
    let s1 := (s.mapSlot core n fun c => { c with eclass := ec, bank := bits v 5 4 }).mapCore core Core.refresh
    if v.testBit 1 && run then .done (s1.endOne core (s1.slot core n).lctx .killed stKilled)
    else if v.testBit 0 && !run && (n == 7 || s1.declared core (s1.slot core n).lctx) then
      .done ((s1.mapCore core fun k => k.startIn core n (k.slotLctx n)).partEvent (s.pno core) none 0)
    else .done s1

/-- CTX_CMDPTR (R21, R47): while the slot's sequencer is paused, or the slot holds no running context. -/
def State.writeCmdptr (s : State) (core n v : Nat) : WinRes :=
  let c := s.slot core n
  let p : Ptr := ⟨bits v 17 16, bits v 15 0⟩
  if c.st.live then (if c.paused then .done (s.emptyBuf core n (some p)) else .refused stDenied)
  else .done (s.setSlot core n { c with fptr := p, buf := [] })

/-- BB_BASE and BB_LIMIT (R9, R131 to R133). -/
def State.writeBB (s : State) (core n i : Nat) (limit : Bool) (v : Nat) : WinRes :=
  let c := s.slot core n
  let p := c.pair i
  let q : Pair := if limit then { p with limit := BitVec.ofNat 64 (bits v 16 0) } else { p with base := BitVec.ofNat 64 (bits v 47 0) }
  let ok := if limit then bits v 16 0 ≤ 65536 else bits v 1 0 < 2
  if !ok || !(c.paused || c.idleSlot) || !s.pairLegal core q then .refused stDenied
  else
    let s1 := s.setSlot core n { c with pairs := Tab.put c.pairs i q }
    .done (if c.st.live then s1.emptyBuf core n none else s1)

/-- First and last byte past of a region, as window offsets. -/
def Circ.extent (c : Circ) : Nat × Nat := (c.start * 16, (c.start + c.size) * 16)

/-- Whether a region may be configured: within the pantry or the cellar, and clear of reserved save areas (R134). -/
def State.circOk (s : State) (core : Nat) (c : Circ) : Bool :=
  let x := c.extent
  (x.2 ≤ 0x40000 || (0x40000 ≤ x.1 && x.2 ≤ 0xC0000)) && !(s.part (s.pno core)).hitsSave x.1 (x.2 - x.1)

/-- CIRC_CFG (R134): enabling a region sets HEAD and TAIL to 0. -/
def State.writeCirc (s : State) (core g v : Nat) : WinRes :=
  let k := s.core core
  let o := k.circAt g
  let c : Circ := { o with
    en := v.testBit 63, tok := bits v 59 56, lctx := bits v 55 52, chunk := bits v 51 36 + 1, size := bits v 35 20 + 1, start := bits v 15 0 }
  if !s.circOk core c then .refused stDenied
  else
    let c1 := if c.en then { c with headPos := 0, headWrap := false, tailPos := 0, tailWrap := false, pendHead := none } else c
    .done (s.setCore core (k.setCirc g c1))

/-- Position of HEAD and TAIL in one turn of two laps: the wrap bit counts as one lap. -/
def Circ.turn (c : Circ) (pos : Nat) (wrap : Bool) : Nat := pos + if wrap then c.size else 0

/-- Commands of the owner, by number, that read a region and have not completed (R137). -/
def Core.readers (k : Core) (core : Nat) (c : Circ) : List Nat :=
  let x := c.extent
  let meets (e : Nat × Nat) : Bool := e.2 != 0 && e.1 < x.2 && x.1 < e.1 + e.2
  ((k.passes ++ k.restart).filter fun p => p.lctx == c.lctx && (passExt p).any meets).map (fun p => p.id) ++
    (k.vecRuns.filter fun r => r.lctx == c.lctx && (vReads r.cmd r.exts).any meets).map (fun r => r.id) ++
    ((k.chain.toList.filter fun r => r.lctx == c.lctx && chRole r.cmd == 0 && meets (r.near, chLen r.cmd)).map fun r => r.id) ++
    k.stSlots.flatMap fun y =>
      (y.2.queue.filter fun q => q.lctx == c.lctx && q.kind == .streamOut && q.nearRun.1 == core && meets q.nearRun.2).map fun q => q.id

/-- CIRC_HEAD (R137): the new head lies from HEAD to TAIL in ring order; it waits for the owner's earlier readers. -/
def State.writeHead (s : State) (core g v : Nat) : WinRes :=
  let k := s.core core
  let c := k.circAt g
  let cur := match c.pendHead with | some (h, _) => c.turn (bits h 15 0) (h.testBit 16) | none => c.turn c.headPos c.headWrap
  let new := c.turn (bits v 15 0) (v.testBit 16)
  let tail := c.turn c.tailPos c.tailWrap
  let lap := 2 * c.size
  if c.size ≤ bits v 15 0 ∨ (tail + lap - cur) % lap < (new + lap - cur) % lap then .refused stBoundFault
  else
    let ids := k.readers core c
    .done (s.setCore core (k.setCirc g (if ids.isEmpty then c.setHead v else { c with pendHead := some (v % 2 ^ 17, ids) })))

/-- Set the target of one bank, unless R130 refuses it. -/
def State.setTarget (s : State) (core b t : Nat) : WinRes :=
  let k := s.core core
  if t = 3 ∨ (t = 2 ∧ k.offRefused b) then .refused stDenied
  else
    let k1 := k.setBank b ((k.bank b).retarget t)
    .done (s.setCore core k1)

/-- BANK_PWR (R9, R128, R130): every TARGET is placed, or none. A write sets the TARGET of each bank, one that it leaves as it was too
(DESIGN CHOICE, log 191). -/
def State.writeBankPwr (s : State) (core v : Nat) : WinRes :=
  let k := s.core core
  let t (b : Nat) : Nat := bits v (4 * b + 1) (4 * b)
  if (List.range 6).any fun b => t b == 3 || (t b == 2 && k.offRefused b) then .refused stDenied
  else .done (s.setCore core ((List.range 6).foldl (fun k b => k.setBank b ((k.bank b).retarget (t b))) k))

/-- ST_SLOT (R146, Table 5.3): OWNED set assigns an UNASSIGNED slot to LCTX and leaves any other as it is; OWNED clear unassigns the slot
and drops its transfers. -/
def State.writeStSlot (s : State) (core n v : Nat) : WinRes :=
  let k := s.core core
  let x := k.stSlot n
  let l := bits v 22 19
  if v.testBit 23 then
    if x.st ≠ .unassigned then .done s
    else .done (s.setCore core (k.setStSlot n { x.emptied with owned := true, lctx := l, st := .empty }).refresh)
  else
    let k1 := k.abandon fun y => y.slot == n
    .done (s.setCore core
      ({ k1.setStSlot n { x.emptied with owned := false, lctx := l, st := .unassigned } with
         pend := k1.pend.filter fun p => !(x.queue.any fun q => q.id == p.id) }).refresh)

/-- CHAIN_CFG (R169, R178). -/
def State.writeChain (s : State) (core v : Nat) : WinRes :=
  let k := s.core core
  let next := bits v 10 0
  if k.chain.isSome ∨ s.partOf next ≠ s.partOf core then .refused stDenied
  else .done (s.setCore core { k with chainEn := v.testBit 63, chainRx := bits v 19 16, chainNext := next, chainSet := true })

/-- LARDER_CFG and LARDER_SPILL (R181, R202). -/
def State.writeLarder (s : State) (core : Nat) (spill : Bool) (v : Nat) : WinRes :=
  let k := s.core core
  let l := k.larder
  if !l.recs.isEmpty ∨ l.busy then .refused stDenied
  else if spill then
    if 32 < bits v 5 0 then .refused stDenied
    else .done (s.setCore core { k with larder := { l with spillAddr := fld (bits v 47 21) 21, spillPages := bits v 5 0 } })
  else
    let size := bits v 27 16 + 1
    let start := bits v 11 0
    if 2048 < start + size ∨ 2047 < start then .refused stDenied
    else
      .done (s.setCore core { k with larder := { l with
        en := v.testBit 63, owner := bits v 59 56, lowater := bits v 43 32, size := size, start := start, dir := none, waiting := false, waitingInj := false } })

/-- Clear bits of MX_STATUS and VX_STATUS by writing 1 (Tables 2.14, 3.12). -/
def MxStat.clear (x : MxStat) (v : Nat) : MxStat :=
  { x with rowfault := x.rowfault && !v.testBit 3, inf := x.inf && !v.testBit 2, nan := x.nan && !v.testBit 1, sat := x.sat && !v.testBit 0 }
def VxStat.clear (x : VxStat) (v : Nat) : VxStat :=
  { x with digmis := x.digmis && !v.testBit 4, cmpnan := x.cmpnan && !v.testBit 3, inf := x.inf && !v.testBit 2, nan := x.nan && !v.testBit 1
           sat := x.sat && !v.testBit 0 }

/-- A write that only some writers may make (R47, R145, R178, R202). -/
def WinRes.onlyIf (ok : Bool) (r : WinRes) : WinRes := if ok then r else .refused stDenied

/-- A write of the window by a writer that reaches the core: performed, refused, or waiting. -/
def State.winWrite (s : State) (w : Who) (core off v : Nat) : WinRes :=
  let k := s.core core
  let may := s.mayWrite w core
  if off = 0xC0008 then WinRes.onlyIf may (.done (s.setCore core { k with swapEn := v.testBit 24, quantum := bits v 23 0 }))
  else if 0xC0800 ≤ off ∧ off < 0xC0880 then
    let l := (off - 0xC0800) / 8
    if k.sigFull l then .wait else .done (s.setCore core (k.signal l (bits v 15 0)).refresh)
  else if 0xC1000 ≤ off ∧ off < 0xC1800 ∧ off % 0x100 = 0x00 then WinRes.onlyIf may (s.writeCtxCtrl core ((off - 0xC1000) / 0x100) v)
  else if 0xC1000 ≤ off ∧ off < 0xC1800 ∧ off % 0x100 = 0x18 then WinRes.onlyIf may (s.writeCmdptr core ((off - 0xC1000) / 0x100) v)
  else if off = 0xC2000 then .done (s.setCore core { k with mx := k.mx.clear v })
  else if 0xC2008 ≤ off ∧ off < 0xC2028 then
    let a := (off - 0xC2008) / 8
    WinRes.onlyIf (isService w) (.done (s.setCore core (k.setArray a { k.array a with pending := some (bits v 5 0) }).applyRepairs))
  else if 0xC2100 ≤ off ∧ off < 0xC2140 then
    WinRes.onlyIf (s.isDispatch w core) (.done (s.mapSlot core ((off - 0xC2100) / 8) fun c => { c with psave := BitVec.ofNat 64 (fld (bits v 47 16) 16) }))
  else if off = 0xC3000 then .done (s.setCore core { k with vx := k.vx.clear v })
  else if 0xC4000 ≤ off ∧ off < 0xC4200 then
    WinRes.onlyIf may (s.writeBB core ((off - 0xC4000) / 0x40) (off % 0x40 / 0x10) (off % 0x10 != 0) v)
  else if 0xC4400 ≤ off ∧ off < 0xC4480 ∧ off % 0x20 = 0x00 then WinRes.onlyIf may (s.writeCirc core ((off - 0xC4400) / 0x20) v)
  else if 0xC4400 ≤ off ∧ off < 0xC4480 ∧ off % 0x20 = 0x08 then
    let g := (off - 0xC4400) / 0x20
    let own := match w with | .ctx c n => (s.slot c n).lctx == (k.circAt g).lctx && c == core | _ => false
    WinRes.onlyIf (own || may) (s.writeHead core g v)
  else if off = 0xC4800 then WinRes.onlyIf may (s.writeBankPwr core v)
  else if 0xC5400 ≤ off ∧ off < 0xC5500 ∧ off % 0x10 = 0 then WinRes.onlyIf may (s.writeStSlot core ((off - 0xC5400) / 0x10) v)
  else if 0xC5500 ≤ off ∧ off < 0xC5540 then
    WinRes.onlyIf may (.done (s.mapSlot core ((off - 0xC5500) / 8) fun c => { c with perf := v.testBit 0 }))
  else if off = 0xC5600 then WinRes.onlyIf may (s.writeChain core v)
  else if off = 0xC5608 then .done (s.setCore core { k with linkerr := k.linkerr && !v.testBit 0 })
  else if off = 0xC6000 then WinRes.onlyIf may (s.writeLarder core false v)
  else if off = 0xC6008 then WinRes.onlyIf may (s.writeLarder core true v)
  else .refused stDenied

end Sys2Proof.Machine
end

