-- ==== Sys2Proof/Machine/Registers.lean ====
section
/-! DEFINITION. BAR0 and the commands that read and write registers (R9, R47, R350, R354, R362, R367, R393, R415, R435 to R438). -/

namespace Sys2Proof.Machine

/-! What BAR0 reads (Table 17.2). -/

/-- HBM_STATUS (Table 7.10). -/
def Stack.word (x : Stack) : Nat := fld x.corrected 48 + fld x.uncorr 32 + fld (x.scrubs % 2 ^ 16) 16 + popcount 64 x.lost

/-- ATTIC_CFG and MEM_POISON (Tables 7.11, 7.12). -/
def MemStat.attic (m : MemStat) : Nat := fld (m.rate % 2 ^ 16) 32 + fld (m.dimmGib % 512) 16 + fld (m.channels % 16) 4 + m.type % 4
def MemStat.poisonWord (m : MemStat) : Nat := fld m.hostEp 48 + fld m.kills 32 + fld m.atticUnc 16 + m.checkFail

/-- UPD_EVT (Table 8.14). -/
def UpdRegs.evt (x : UpdRegs) : Nat := fld x.skew 48 + fld x.frozen 32 + fld x.nonfin 16 + fld (x.restarts % 256) 8 + x.commits % 256

/-- FAB_QUAD_CFG (Table 9.12). -/
def Quad.word (q : Quad) : Nat := fld (b01 q.en) 7 + fld (b01 q.an) 6 + fld (q.rate % 4) 4 + q.mode % 4

/-- JIG_CFG (Table 9.13). -/
def JigCfg.word (c : JigCfg) : Nat :=
  fld c.udp 48 + fld c.udp2 32 + fld c.dscp 26 + fld (b01 c.ecn) 25 + fld c.pcp 22 + fld c.maxpay 20 + fld c.rtomin 10 + c.deadt

/-- JIG_DROPS and JIG_HSCNT (Tables 9.14, 9.15). -/
def JigCnt.drops (c : JigCnt) : Nat := fld c.noaddr 52 + fld c.stranger 40 + fld c.badver 28 + fld c.window 16 + c.pfcwd
def JigCnt.hs (c : JigCnt) : Nat := fld c.hsok 48 + fld c.authfail 32 + fld c.ratelim 16 + c.tagfail

/-- FAB_PORT_STATUS (Table 9.16). -/
def State.portStatus (s : State) (p : Nat) : Nat :=
  let x := s.fport p
  let here := s.present p
  let q := s.quad (p / 4)
  fld x.feccorr 48 + fld x.fecunc 32 + fld x.downs 24 + fld x.macdrop 8 + fld (if here then q.lanes p else 0) 4 + fld (q.rate % 4) 2 +
    fld (b01 here) 1 + b01 x.up

/-- FAB_PORT_CFG (Table 9.17). -/
def FabPort.cfg (x : FabPort) : Nat := fld x.fecdeg 40 + fld x.pfcpri 32 + fld (b01 x.pfcen) 16 + x.vid

def PeerSt.code : PeerSt → Nat
  | .unused => 0 | .idle => 1 | .handshake => 2 | .opened => 3 | .failed => 4 | .down => 5

/-- JIG_PEER_STATE (Table 9.18). -/
def Peer.word (x : Peer) : Nat :=
  if x.st = .unused then 0
  else
    let un := match x.cur with | some c => c.unacked.length | none => 0
    fld x.part 58 + fld x.pidx 46 + fld x.st.code 43 + fld (b01 x.v2) 42 + fld (x.rate / 10 ^ 9 % 2 ^ 14) 28 + fld (min 1024 un) 17 + x.retx % 2 ^ 16

/-- COLL_GRP and COLL_CNT (Tables 10.9, 10.11). -/
def Coll.grp (c : Coll) : Nat := fld (b01 c.en) 63 + c.addr
def Coll.cnt (c : Coll) : Nat := fld c.cDigmis 48 + fld c.cLate 32 + fld c.cRepeats 16 + c.cDropped

/-- PWR_CAP (Table 11.11). -/
def State.pwrCap (s : State) : Nat := fld s.floorSum 32 + fld s.pwr.floorMax 16 + s.pwr.accepted

/-- HOLDCYC, which the model counts in 25ths of a cycle, saturating at 36 bits (Table 11.14). -/
def Part.holdWord (pt : Part) : Nat := min (2 ^ 36 - 1) (pt.holdcyc / 25)

/-- PART_PWR (Table 11.14). -/
def Part.pwr (pt : Part) : Nat := fld (pt.refill / 65536 % 2 ^ 16) 48 + fld (pt.used % 2 ^ 12) 36 + pt.holdWord

def ClkSt.code : ClkSt → Nat
  | .pllOff => 0 | .locking => 1 | .run => 2 | .gated => 3

/-- CL_PWR and CL_CFG (Tables 11.15, 11.16). -/
def Cluster.pwr (c : Cluster) : Nat := fld c.tmax 56 + fld c.clk.code 53 + fld (c.step % 4) 51 + fld (b01 c.stretch) 50 + pat 48 c.acct
def Cluster.cfg (c : Cluster) : Nat := fld c.plloff 32 + c.retidle

/-- HP_PORT_STATUS (Table 13.7). -/
def State.hpStatus (s : State) (x : Nat) : Nat :=
  let h := s.hport x
  fld h.resets 24 + fld h.cplerr 16 + fld (h.speed % 8) 8 + fld (h.width % 32) 3 + fld (b01 h.sris) 2 + fld (b01 (s.mgmt == x)) 1 + b01 h.up

/-- HP_MGMT (Table 13.8). -/
def State.hpMgmt (s : State) : Nat := fld (b01 s.autofail) 8 + fld (s.moves % 16) 4 + s.mgmt

/-- HP_PART (Table 13.9). -/
def HpPart.word (x : HpPart) : Nat := fld (b01 x.pasidEn) 31 + fld (b01 x.atsEn) 30 + fld x.func 20 + x.pasid

/-- HP_CNT (Table 13.11). -/
def HFunc.cnt (f : HFunc) : Nat := fld f.urreads 48 + fld f.dropwr 32 + fld f.epreads 16 + f.atsinv

/-- FLT_PART, FLT_STATUS and FLT_LOG (Tables 14.8 to 14.10). -/
def FltPart.word (x : FltPart) : Nat := fld (b01 x.relaunch) 1 + b01 x.jobkill
def State.fltStatus (s : State) : Nat :=
  fld s.flt.recoveries 48 + fld s.flt.revokes 32 + fld s.flt.dispok 24 + ((List.range 4).map fun d => fld (s.freeSpares d).length (6 * d)).sum
def Flt.logWord (f : Flt) : Nat := fld (f.nextSeq % 2 ^ 32) 32 + f.log.length

/-- RING_CFG and RING_STATUS (Tables 12.9, 12.10). -/
def Ring.cfg (r : Ring) : Nat :=
  fld (b01 r.en) 63 + fld (b01 r.v2) 62 + fld (b01 r.note) 61 + fld (b01 r.ien) 60 + fld r.vec 54 + fld r.part 40 + fld r.cqsz 8 + r.sqsz
def Ring.status (r : Ring) : Nat :=
  fld r.sqhead 48 + fld (r.cqtail % 2 ^ r.cqsz % 2 ^ 16) 32 + fld (r.cqhead % 2 ^ r.cqsz % 2 ^ 16) 16 + fld (r.outst % 2 ^ 12) 4 + fld (b01 r.err) 3 +
    fld (b01 r.baddb) 2 + fld (b01 r.nlost) 1 + b01 r.stall

/-- The status page (Table 12.6a), as its 4,096 bytes. -/
def Part.page (pt : Part) : List Byte :=
  leBytes 8 pt.word ++ leBytes 8 pt.repseq ++ leBytes 8 pt.firstFault.toNat ++ leBytes 8 (pt.endedN + fld pt.launchedN 32) ++
    List.replicate 224 0 ++ sized 1792 pt.report ++ pt.ledgerBytes

/-- Whether a function reads the registers of partition `p` (R354, Table 13.3). -/
def State.sees (s : State) (port func p : Nat) : Bool := func == 0 || s.boundPart port func == some p

/-- Whether the registers and status page of `p` are its reader's own: through its port's physical function or the bound one (R345). -/
def State.owns (s : State) (port func p : Nat) : Bool := s.ownsPart (.host port func) p

/-- The value of a register in the identity, capabilities and global control block. -/
def State.globalValue (s : State) (off : Nat) : Nat :=
  if 0x3000 ≤ off ∧ off < 0x3040 then (s.stack ((off - 0x3000) / 8)).word
  else if off = 0x3040 then s.memStat.attic
  else if off = 0x3048 then s.memStat.poisonWord
  else if 0x3080 ≤ off ∧ off < 0x30C0 then (s.stack ((off - 0x3080) / 8)).lost
  else if 0x4000 ≤ off ∧ off < 0x4400 then
    let x := s.updOf ((off - 0x4000) / 0x10)
    if off % 0x10 = 0 then x.rtab.toNat else x.evt
  else if 0x4400 ≤ off ∧ off < 0x4600 then (s.updOf ((off - 0x4400) / 8)).blks % 2 ^ 64
  else if 0x5000 ≤ off ∧ off < 0x5080 then (s.quad ((off - 0x5000) / 8)).word
  else if off = 0x5080 then s.fab.cfg.word
  else if off = 0x5088 then s.fab.cnt.drops
  else if off = 0x5090 then s.fab.cnt.hs
  else if 0x5100 ≤ off ∧ off < 0x5300 then s.portStatus ((off - 0x5100) / 8)
  else if 0x5300 ≤ off ∧ off < 0x5500 then (s.fport ((off - 0x5300) / 8)).cfg
  else if 0x5800 ≤ off ∧ off < 0x5C00 then
    let g := (s.fport ((off - 0x5800) / 0x10)).gw
    if off % 0x10 = 0 then g % 2 ^ 64 else g / 2 ^ 64
  else if 0x6000 ≤ off ∧ off < 0x6800 then
    let c := s.coll ((off - 0x6000) / 0x20)
    match off % 0x20 with
    | 0x00 => c.grp
    | 0x08 => c.word
    | 0x10 => c.cnt
    | _ => 0
  else if off = 0x7000 then s.pwrCap
  else if off = 0x7008 then s.pwrStatus
  else if 0x7100 ≤ off ∧ off < 0x7500 then
    let p := (off - 0x7100) / 0x10
    if off % 0x10 = 0 then s.partInfo p else (s.part p).pwr
  else if 0x7800 ≤ off ∧ off < 0x7C00 then (s.cluster ((off - 0x7800) / 8)).pwr
  else if 0x7C00 ≤ off ∧ off < 0x8000 then (s.cluster ((off - 0x7C00) / 8)).cfg
  else if off = 0x8000 ∨ off = 0x8008 then s.hpStatus ((off - 0x8000) / 8)
  else if off = 0x8010 then s.hpMgmt
  else if 0x8100 ≤ off ∧ off < 0x8300 then (Tab.get ({} : HpPart) s.hpParts ((off - 0x8100) / 8)).word
  else if 0x9000 ≤ off ∧ off < 0x9200 then (Tab.get ({} : FltPart) s.fltParts ((off - 0x9000) / 8)).word
  else if off = 0x9200 then s.fltStatus
  else if off = 0x9208 then s.flt.logWord
  else if off = 0xA000 then s.bootStatus
  else if off = 0xA008 then s.trustStatus
  else if off = 0xA010 then s.boot.dbgCtrl
  else if off = 0xA018 then s.boot.version
  else if off = 0xA020 then s.mram.floor
  else if off = 0xB000 then s.sup.status
  else if off = 0xB008 then s.sup.brdIn
  else if off = 0xB010 then s.saveStatus
  else 0

/-- The partition whose registers a virtual function reads in that block, if the offset names one (Table 13.3). -/
def partOfOff (off : Nat) : Option Nat :=
  if 0x4000 ≤ off ∧ off < 0x4400 then some ((off - 0x4000) / 0x10)
  else if 0x4400 ≤ off ∧ off < 0x4600 then some ((off - 0x4400) / 8)
  else if 0x6000 ≤ off ∧ off < 0x6800 then some ((off - 0x6000) / 0x20)
  else if 0x7100 ≤ off ∧ off < 0x7500 then some ((off - 0x7100) / 0x10)
  else if 0x8100 ≤ off ∧ off < 0x8300 then some ((off - 0x8100) / 8)
  else none

/-- Whether a virtual function reads a register of that block (Table 13.3). -/
def State.vfReads (s : State) (port func off : Nat) : Bool :=
  match s.boundPart port func with
  | none => false
  | some p => partOfOff off == some p || off == 0x7008 || off == 0x3040 || (0x3000 ≤ off && off < 0x3040)

/-- Clear the RC fields of a register of that block for a reader that its chapter names (R222, R245, R272, R296, R324, R367, R393, R435;
Table 13.3 for a virtual function). -/
def State.globalClear (s : State) (port func off : Nat) : State :=
  let mgmt := port == s.mgmt && func == 0
  let own (p : Nat) : Bool := s.owns port func p
  if 0x3000 ≤ off ∧ off < 0x3040 then
    if mgmt then
      let n := (off - 0x3000) / 8
      { s with hbm := Tab.put s.hbm n { s.stack n with corrected := 0, uncorr := 0 } }
    else s
  else if off = 0x3048 then
    if mgmt then { s with memStat := { s.memStat with hostEp := 0, kills := 0, atticUnc := 0, checkFail := 0 } } else s
  else if 0x4000 ≤ off ∧ off < 0x4400 ∧ off % 0x10 = 8 then
    let p := (off - 0x4000) / 0x10
    if own p then { s with upd := Tab.put s.upd p { s.updOf p with skew := 0, frozen := 0, nonfin := 0, restarts := 0 } } else s
  else if off = 0x5088 then
    if mgmt then s.mapJcnt fun c => { c with noaddr := 0, stranger := 0, badver := 0, window := 0, pfcwd := 0 } else s
  else if off = 0x5090 then
    if mgmt then s.mapJcnt fun c => { c with hsok := 0, authfail := 0, ratelim := 0, tagfail := 0 } else s
  else if 0x5100 ≤ off ∧ off < 0x5300 then
    if mgmt then s.mapPort ((off - 0x5100) / 8) fun x => { x with feccorr := 0, fecunc := 0, downs := 0, macdrop := 0 } else s
  else if 0x6000 ≤ off ∧ off < 0x6800 ∧ off % 0x20 = 0x10 then
    let p := (off - 0x6000) / 0x20
    if own p then s.mapColl p fun c => { c with cDigmis := 0, cLate := 0, cRepeats := 0, cDropped := 0 } else s
  else if off = 0x7008 then
    if mgmt then { s with pwr := { s.pwr with limits := 0 } } else s
  else if 0x7100 ≤ off ∧ off < 0x7500 ∧ off % 0x10 = 8 then
    let p := (off - 0x7100) / 0x10
    if port = s.mgmt ∧ (func = 0 ∨ own p) then s.mapPart p fun pt => { pt with holdcyc := pt.holdcyc % 25 } else s
  else if off = 0x8000 ∨ off = 0x8008 then
    let x := (off - 0x8000) / 8
    if port = x ∧ func = 0 then s.setHport x { s.hport x with resets := 0, cplerr := 0 } else s
  else if off = 0x9200 then
    if mgmt then { s with flt := { s.flt with recoveries := 0, revokes := 0 } } else s
  else if off = 0xB000 then
    if mgmt then { s with sup := { s.sup with sheds := 0 } } else s
  else if off = 0xB008 then
    if mgmt then
      let z (x : InputSt) : InputSt := { x with glitches := 0 }
      { s with sup := { s.sup with
          sagIn := z s.sup.sagIn, therm := z s.sup.therm, reset := z s.sup.reset, perstA := z s.sup.perstA, perstB := z s.sup.perstB } }
    else s
  else s

/-- Eight bytes of a byte string, as a number. -/
def word8 (bs : List Byte) (off : Nat) : Nat := num bs off (off + 7)

/-- One half of an MSI-X table entry: message address, or data and mask (R362). -/
def HFunc.msixWord (f : HFunc) (off : Nat) : Nat :=
  let v := Tab.get ({} : Msix) f.vecs (off / 16)
  if off % 16 = 0 then v.addr else v.data + fld (b01 v.masked) 32

/-- The pending-bit array. -/
def HFunc.pba (f : HFunc) : Nat := ((List.range 64).map fun i => if (Tab.get ({} : Msix) f.vecs i).pend then 2 ^ i else 0).sum

/-- A read of BAR0 by a function that answers: the value, and the state after its RC fields have cleared (R354, R437, R438). -/
def State.bar0Read (s : State) (port func off : Nat) : Nat × State :=
  if off < 0x10000 then
    if func = 0 ∨ s.vfReads port func off then
      let s0 := if off = 0xB000 then s.sampleSupply else s
      (s0.globalValue off, if func = 0 ∨ (partOfOff off).isSome then s0.globalClear port func off else s0)
    else (0, s)
  else if off < 0x14000 then
    let r := (off - 0x10000) / 0x40
    let x := s.ring port r
    if !s.reachesRing port func r then (0, s)
    else
      (match off % 0x40 with
        | 0x00 => x.sqbase
        | 0x08 => x.cqbase
        | 0x10 => x.cfg
        | 0x18 => x.status
        | _ => 0, s)
  else if 0x18000 ≤ off ∧ off < 0x18400 then ((s.func port func).msixWord (off - 0x18000), s)
  else if off = 0x19000 then (if func = 0 ∨ (s.boundPart port func).isSome then (s.func port func).pba else 0, s)
  else if 0x1A000 ≤ off ∧ off < 0x1A080 then
    let f := (off - 0x1A000) / 8
    (if func = 0 ∨ func = f then (s.func port f).win else 0, s)
  else if 0x1A100 ≤ off ∧ off < 0x1A180 then
    let f := (off - 0x1A100) / 8
    if func = 0 ∨ (func = f ∧ (s.boundPart port func).isSome) then
      ((s.func port f).cnt,
        if func = f then s.mapFunc port f fun x => { x with urreads := 0, dropwr := 0, epreads := 0, atsinv := 0 } else s)
    else (0, s)
  else if 0x100000 ≤ off ∧ off < 0x140000 then
    let p := (off - 0x100000) / 0x1000
    (if s.owns port func p then word8 (s.part p).page (off % 0x1000) else 0, s)
  else if 0x1100000 ≤ off ∧ off < 0x1110000 then
    let n := (off - 0x1100000) / 0x10
    (if off % 0x10 = 0 ∧ (func = 0 ∨ s.boundPart port func == some (s.peer n).part) then (s.peer n).word else 0, s)
  else if 0x1200000 ≤ off ∧ off < 0x1240000 then
    (if func = 0 ∧ port = s.mgmt then leNat (Memory.reads s.mram.save (off - 0x1200000) 8) else 0, s)
  else (0, s)

/-- The registers of BAR0 from an offset on that a read of `n` of them addresses, in rising order, as one number. -/
def State.bar0Run (s : State) (port func : Nat) : Nat → Nat → Nat × State
  | _, 0 => (0, s)
  | off, n + 1 =>
    let x := s.bar0Read port func off
    let y := State.bar0Run x.2 port func (off + 8) n
    (x.1 % 2 ^ 64 + fld y.1 64, y.2)

/-- `len` bytes of BAR0 from an offset on: one register whole, or the addressed bytes of those that they lie in, and no other register is
read (R355, R438). -/
def State.bar0Bytes (s : State) (port func off len : Nat) : Nat × State :=
  let x := s.bar0Run port func (off / 8 * 8) ((off % 8 + len + 7) / 8)
  (x.1 / 2 ^ (8 * (off % 8)) % 2 ^ (8 * len), x.2)

/-! Writes. -/

/-- JIG_CFG (R9, Table 9.13). -/
def State.writeJig (s : State) (v : Nat) : State :=
  let c : JigCfg := ⟨bits v 63 48, bits v 47 32, bits v 31 26, v.testBit 25, bits v 24 22, bits v 21 20, bits v 19 10, bits v 9 0⟩
  if c.rtomin = 0 ∨ c.deadt = 0 then s else s.mapFab fun f => { f with cfg := c }

/-- The next state of an outcome, or `s` where it answers none. -/
def State.orNext (s : State) : Out → State
  | .next t => t
  | _ => s

/-- A write of half of FAB_PORT_GW: the next hop is to be resolved anew, and a port that is up asks for it (R249). -/
def State.setGateway (s : State) (p : Nat) (high : Bool) (v : Nat) : State :=
  let x := s.fport p
  let gw := if high then fld (v % 2 ^ 64) 64 + x.gw % 2 ^ 64 else x.gw / 2 ^ 64 * 2 ^ 64 + v % 2 ^ 64
  let s1 := s.mapPort p fun x => { x with gw := gw, hop := none }
  if x.up then s1.onLink (.request p gw) else s1

/-- A write in the identity, capabilities and global control block. -/
def State.globalWrite (s : State) (port func off v : Nat) : State :=
  let who := Who.host port func
  let mgmt := s.isMgmt who
  let w := BitVec.ofNat 64 v
  if 0x4000 ≤ off ∧ off < 0x4400 ∧ off % 0x10 = 0 then
    let p := (off - 0x4000) / 0x10
    if s.owns port func p then
      let u : UpdRegs := { s.updOf p with rtab := BitVec.ofNat 64 (fld (bits v 63 56) 56 + fld (bits v 47 7) 7 + bits v 0 0) }
      { s with upd := Tab.put s.upd p u }
    else s
  else if 0x5000 ≤ off ∧ off < 0x5080 then s.orNext (execQuadConfigWrite who ((off - 0x5000) / 8) w s)
  else if off = 0x5080 then (if mgmt then s.writeJig v else s)
  else if 0x5300 ≤ off ∧ off < 0x5500 then
    if mgmt then (s.mapPort ((off - 0x5300) / 8) fun x =>
      { x with fecdeg := bits v 47 40, pfcpri := bits v 39 32, pfcen := v.testBit 16, vid := bits v 11 0 }) |>.unpause ((off - 0x5300) / 8)
    else s
  else if 0x5800 ≤ off ∧ off < 0x5C00 then
    if mgmt then s.setGateway ((off - 0x5800) / 0x10) (off % 0x10 != 0) v else s
  else if 0x6000 ≤ off ∧ off < 0x6800 ∧ off % 0x20 = 0 then s.orNext (execCollGrpWrite who ((off - 0x6000) / 0x20) w s)
  else if 0x6000 ≤ off ∧ off < 0x6800 ∧ off % 0x20 = 8 then s.orNext (execCollStateWrite who ((off - 0x6000) / 0x20) w s)
  else if off = 0x7000 then s.orNext (execPwrCapWrite who w s)
  else if off = 0x7008 then (if mgmt && v.testBit 8 then { s with pwr := { s.pwr with capref := false } } else s)
  else if 0x7C00 ≤ off ∧ off < 0x8000 then
    let k := (off - 0x7C00) / 8
    let c := s.cluster k
    let ok := match c.owner with | some p => func == 0 && (s.part p).port == port | none => mgmt
    if ok then s.setCluster k { c with plloff := bits v 47 32, retidle := bits v 15 0 } else s
  else if off = 0x8010 then (if mgmt then { s with autofail := v.testBit 8 } else s)
  else if 0x8100 ≤ off ∧ off < 0x8300 then
    let p := (off - 0x8100) / 8
    if func = 0 ∧ s.owns port func p then
      let x : HpPart := { Tab.get ({} : HpPart) s.hpParts p with pasidEn := v.testBit 31, atsEn := v.testBit 30, pasid := bits v 19 0 }
      { s with hpParts := Tab.put s.hpParts p x }
    else s
  else if 0x9000 ≤ off ∧ off < 0x9200 then
    let p := (off - 0x9000) / 8
    if func = 0 ∧ s.owns port func p then { s with fltParts := Tab.put s.fltParts p ⟨v.testBit 0, v.testBit 1⟩ } else s
  else if off = 0xA010 then (if mgmt then { s with boot := { s.boot with allow := v.testBit 0 } } else s)
  else s

/-- Whether a virtual function writes a register of that block (Table 13.3). -/
def State.vfWrites (s : State) (port func off : Nat) : Bool :=
  match s.boundPart port func with
  | none => false
  | some p =>
    (0x4000 ≤ off && off < 0x4400 && (off - 0x4000) / 0x10 == p && off % 0x10 == 0) ||
      (0x6000 ≤ off && off < 0x6800 && (off - 0x6000) / 0x20 == p && off % 0x20 ≤ 8)

/-- One ring register (R350). -/
def State.ringWrite (s : State) (port func ring reg v : Nat) : State :=
  let r := s.ring port ring
  let free := !r.en && r.outst == 0
  if !s.reachesRing port func ring then s
  else
    match reg with
    | 0x00 => if free then s.setRing port ring { r with sqbase := fld (bits v 63 12) 12 } else s
    | 0x08 => if free then s.setRing port ring { r with cqbase := fld (bits v 63 12) 12 } else s
    | 0x10 => s.ringCfgWrite port func ring v
    | 0x18 =>
      if func = 0 then s.setRing port ring { r with baddb := r.baddb && !v.testBit 2, nlost := r.nlost && !v.testBit 1 } else s
    | _ => s

/-- A write of one half of an MSI-X table entry (R362). -/
def State.msixWrite (s : State) (port func off v : Nat) : State :=
  let i := off / 16
  let f := s.func port func
  let x := Tab.get ({} : Msix) f.vecs i
  if off % 16 = 0 then s.setFunc port func { f with vecs := Tab.put f.vecs i { x with addr := v / 4 * 4 } }
  else (s.setFunc port func { f with vecs := Tab.put f.vecs i { x with data := bits v 31 0 } }).setMask port func i (v.testBit 32)

/-- A write of BAR0 by a function that answers (R354, R437): what the function does not reach or may not write stays as it is. -/
def State.bar0Write (s : State) (port func off v : Nat) : State :=
  if off < 0x10000 then (if func = 0 ∨ s.vfWrites port func off then s.globalWrite port func off v else s)
  else if off < 0x14000 then s.ringWrite port func ((off - 0x10000) / 0x40) (off % 0x40) v
  else if 0x18000 ≤ off ∧ off < 0x18400 then s.msixWrite port func (off - 0x18000) v
  else if 0x1A000 ≤ off ∧ off < 0x1A080 then
    let f := (off - 0x1A000) / 8
    if func = f then s.mapFunc port f fun x => { x with win := fld (bits v 47 30) 30 } else s
  else if 0x200000 ≤ off ∧ off < 0x300000 ∧ off % 0x1000 = 0 then s.sqTail port func ((off - 0x200000) / 0x1000) v
  else if 0x200000 ≤ off ∧ off < 0x300000 ∧ off % 0x1000 = 8 then s.cqHead port func ((off - 0x200000) / 0x1000) v
  else s

/-! Accesses by any writer. -/

/-- Whether a writer of the window is there: a context that runs, or the dispatch path of a partition that exists. -/
def State.present? (s : State) (w : Who) : Bool :=
  match w with
  | .ctx c n => c < 2048 && n < 8 && (s.slot c n).st.live
  | .dispatch p => (s.part p).exist
  | .host _ _ => false

/-- Whether an access of a writer to a core's window is refused as another partition's (R138). -/
def State.outside (s : State) (w : Who) (core : Nat) : Bool :=
  match w with
  | .ctx c n => s.denied c core (n == 7)
  | .dispatch p => s.partOf core != some p
  | .host _ _ => true

/-- A refused write or read ends a context that made it (R47); the dispatch path goes on. -/
def State.refuse (s : State) (w : Who) (status : Nat) : State :=
  match w with
  | .ctx c n => s.faultCtx c (s.slot c n).lctx status
  | _ => s

/-- A write of a register of the window by a context or a dispatch path (R47, R138, R436). -/
def State.winAccess (s : State) (w : Who) (core off v : Nat) : State :=
  if !s.present? w then s
  else if s.outside w core then (s.noteRefused core stDenied).refuse w stDenied
  else
    match s.winWrite w core off v with
    | .done t => t
    | .refused st => s.refuse w st
    | .wait => s

/-- A register write of a core's window as a command. -/
def winCmd (who : Who) (core off : Nat) (v : Nat) (s : State) : Out :=
  if 2048 ≤ core then .next s else .next (s.winAccess who core off v)

/-- TOKSIG_L_WRITE (R37, R47, Table 1.12). -/
def execToksigLWrite (who : Who) (core l : Nat) (v : W64) (s : State) : Out :=
  if 16 ≤ l then .next s else winCmd who core (0xC0800 + 8 * l) v.toNat s

/-- CTX_CTRL_START (R47): CTX_CTRL written with START set. -/
def execCtxCtrlStart (who : Who) (core n : Nat) (v : W64) (s : State) : Out :=
  if 8 ≤ n then .next s else winCmd who core (0xC1000 + 0x100 * n) (v ||| 1).toNat s

/-- CTX_CTRL_STOP (R33): CTX_CTRL written with STOP set. -/
def execCtxCtrlStop (who : Who) (core n : Nat) (v : W64) (s : State) : Out :=
  if 8 ≤ n then .next s else winCmd who core (0xC1000 + 0x100 * n) (v ||| 2).toNat s

/-- CTX_CMDPTR_WRITE (R47). -/
def execCtxCmdptrWrite (who : Who) (core n : Nat) (v : W64) (s : State) : Out :=
  if 8 ≤ n then .next s else winCmd who core (0xC1018 + 0x100 * n) v.toNat s

/-- ARR_REPAIR_WRITE (R81). -/
def execArrRepairWrite (who : Who) (core a : Nat) (v : W64) (s : State) : Out :=
  if 4 ≤ a then .next s else winCmd who core (0xC2008 + 8 * a) v.toNat s

/-- A write of BANK_PWR that changes the TARGET of one bank (R128, R130). -/
def bankTarget (who : Who) (core b t : Nat) (s : State) : Out :=
  if 2048 ≤ core ∨ 6 ≤ b then .next s
  else if !s.present? who then .next s
  else if s.outside who core then .next ((s.noteRefused core stDenied).refuse who stDenied)
  else if !s.mayWrite who core then .next (s.refuse who stDenied)
  else
    match s.setTarget core b t with
    | .done u => .next u
    | .refused st => .next (s.refuse who st)
    | .wait => .next s

/-- BANK_TARGET_ON (R128). -/
def execBankTargetOn (who : Who) (core b : Nat) (s : State) : Out := bankTarget who core b 0 s

/-- BANK_TARGET_RETENTION (R128). -/
def execBankTargetRetention (who : Who) (core b : Nat) (s : State) : Out := bankTarget who core b 1 s

/-- BANK_TARGET_OFF (R130). -/
def execBankTargetOff (who : Who) (core b : Nat) (s : State) : Out := bankTarget who core b 2 s

/-- CIRC_CFG_WRITE (R134). -/
def execCircCfgWrite (who : Who) (core g : Nat) (v : W64) (s : State) : Out :=
  if 4 ≤ g then .next s else winCmd who core (0xC4400 + 0x20 * g) v.toNat s

/-- CIRC_HEAD_WRITE (R137). -/
def execCircHeadWrite (who : Who) (core g : Nat) (v : W64) (s : State) : Out :=
  if 4 ≤ g then .next s else winCmd who core (0xC4408 + 0x20 * g) v.toNat s

/-- BB_WRITE (R131 to R133). -/
def execBbWrite (who : Who) (core n p : Nat) (limit : Bool) (v : W64) (s : State) : Out :=
  if 8 ≤ n ∨ 4 ≤ p then .next s
  else winCmd who core (0xC4000 + 0x40 * n + 0x10 * p + if limit then 8 else 0) v.toNat s

/-- SLOT_ASSIGN (R146). -/
def execSlotAssign (who : Who) (core n lctx : Nat) (s : State) : Out :=
  if 16 ≤ n ∨ 16 ≤ lctx then .next s else winCmd who core (0xC5400 + 0x10 * n) (fld 1 23 + fld lctx 19) s

/-- SLOT_UNASSIGN (R152). -/
def execSlotUnassign (who : Who) (core n : Nat) (s : State) : Out :=
  if 16 ≤ n then .next s else winCmd who core (0xC5400 + 0x10 * n) 0 s

/-- CHAIN_CFG_WRITE (R169, R178). -/
def execChainCfgWrite (who : Who) (core : Nat) (v : W64) (s : State) : Out := winCmd who core 0xC5600 v.toNat s

/-- LARDER_CFG_WRITE (R181, R202): LARDER_SPILL with `spill`. -/
def execLarderCfgWrite (who : Who) (core : Nat) (spill : Bool) (v : W64) (s : State) : Out :=
  winCmd who core (if spill then 0xC6008 else 0xC6000) v.toNat s

/-- REGISTER_WRITE (R8, R9, R436, R437). -/
def execRegisterWrite (who : Who) (r : RegAddr) (v : W64) (s : State) : Out :=
  match r, who with
  | .win core off, w =>
    if 2048 ≤ core ∨ off < 0xC0000 ∨ 0x100000 ≤ off then .next s
    else if off % 8 ≠ 0 then .next (if s.present? w then s.refuse w stIllegalOp else s)
    else .next (s.winAccess w core off v.toNat)
  | .bar0 off _ poisoned, .host port func =>
    if 2 ≤ port ∨ 16 ≤ func ∨ 0x4000000 ≤ off ∨ off % 8 ≠ 0 then .next s
    else if !s.answers port func then .next s
    else if poisoned then .next (s.mapFunc port func fun f => f.logAer .poisonedTlp)
    else .next (s.bar0Write port func off v.toNat)
  | .bar0 _ _ _, _ => .next s

/-- RC_REGISTER_READ (R438): the value read, and its RC fields cleared for the readers that the owning chapter names. -/
def execRcRegisterRead (who : Who) (r : RegAddr) (s : State) : Out :=
  match r, who with
  | .win core off, w =>
    if 2048 ≤ core ∨ off < 0xC0000 ∨ 0x100000 ≤ off then .next s
    else if !s.present? w then .next s
    else if off % 8 ≠ 0 then .next (s.refuse w stIllegalOp)
    else if s.outside w core then .next ((s.noteRefused core stDenied).refuse w stDenied)
    else
      let x := s.winRead core off
      .next { x.2 with busData := BitVec.ofNat 64 x.1 }
  | .bar0 off len _, .host port func =>
    if 2 ≤ port ∨ 16 ≤ func ∨ len = 0 ∨ 4096 < len ∨ 0x4000000 < off + len then .next s
    else if !s.answers port func then .next s
    else
      let x := s.bar0Bytes port func off len
      .next { x.2 with busData := BitVec.ofNat 64 x.1 }
  | .bar0 _ _ _, _ => .next s

end Sys2Proof.Machine
end

