-- ==== Sys2Proof/Machine/Rv.lean ====
section
/-! DEFINITION. The instructions of the control core: RV64GC (the ratified RISC-V encodings, PRESUMED, log 90) and the Avviam custom
instructions (R19, Table 1.2), from their 16 and 32 bits. -/

namespace Sys2Proof.Machine

/-- The second operand of an integer operation. -/
inductive RvSrc where
  | reg (n : Nat)
  | imm (i : Int)
  deriving DecidableEq, Repr

/-- One decoded instruction. `f3` is the function code of its RISC-V encoding. -/
inductive RvOp where
  | lui (rd : Nat) (imm : Int)
  | auipc (rd : Nat) (imm : Int)
  | jal (rd : Nat) (off : Int)
  | jalr (rd rs1 : Nat) (off : Int)
  | branch (f3 rs1 rs2 : Nat) (off : Int)
  | load (fp : Bool) (f3 rd rs1 : Nat) (off : Int)
  | store (fp : Bool) (f3 rs1 rs2 : Nat) (off : Int)
  | alu (f3 : Nat) (alt w32 : Bool) (rd rs1 : Nat) (src : RvSrc)
  | muldiv (f3 : Nat) (w32 : Bool) (rd rs1 rs2 : Nat)
  | amo (f5 size rd rs1 rs2 : Nat)
  | fence
  | fenceI
  | ecall
  | ebreak
  | mret
  | wfi
  | csr (f3 rd rs1 addr : Nat)
  | fma (negP negZ dbl : Bool) (rm rd rs1 rs2 rs3 : Nat)
  | fop (op : Nat) (dbl : Bool) (rm rd rs1 rs2 : Nat)
  | custom (one : Bool) (f7 f3 rd rs1 rs2 : Nat)
  | illegal
  deriving DecidableEq, Repr

/-- Immediates of the 32-bit formats. -/
def immI (w : Nat) : Int := sgn 12 (bits w 31 20)
def immS (w : Nat) : Int := sgn 12 (fld (bits w 31 25) 5 + bits w 11 7)
def immB (w : Nat) : Int := sgn 13 (fld (bits w 31 31) 12 + fld (bits w 7 7) 11 + fld (bits w 30 25) 5 + fld (bits w 11 8) 1)
def immU (w : Nat) : Int := sgn 32 (fld (bits w 31 12) 12)
def immJ (w : Nat) : Int := sgn 21 (fld (bits w 31 31) 20 + fld (bits w 19 12) 12 + fld (bits w 20 20) 11 + fld (bits w 30 21) 1)

/-- OP-FP: whether the operation, rounding field and second source form a listed instruction. -/
def fopOk (op rm rs2 : Nat) (dbl : Bool) : Bool :=
  match op with
  | 0x00 | 0x01 | 0x02 | 0x03 => true
  | 0x0B => rs2 == 0
  | 0x04 | 0x14 => rm ≤ 2
  | 0x05 => rm ≤ 1
  | 0x08 => rs2 == (if dbl then 0 else 1)
  | 0x18 | 0x1A => rs2 ≤ 3
  | 0x1C => rm ≤ 1 && rs2 == 0
  | 0x1E => rm == 0 && rs2 == 0
  | _ => false

/-- A 32-bit instruction. -/
def rvDecode32 (w : Nat) : RvOp :=
  let rd := bits w 11 7
  let f3 := bits w 14 12
  let rs1 := bits w 19 15
  let rs2 := bits w 24 20
  let f7 := bits w 31 25
  match bits w 6 0 with
  | 0x37 => .lui rd (immU w)
  | 0x17 => .auipc rd (immU w)
  | 0x6F => .jal rd (immJ w)
  | 0x67 => if f3 = 0 then .jalr rd rs1 (immI w) else .illegal
  | 0x63 => if f3 = 2 ∨ f3 = 3 then .illegal else .branch f3 rs1 rs2 (immB w)
  | 0x03 => if f3 = 7 then .illegal else .load false f3 rd rs1 (immI w)
  | 0x23 => if 4 ≤ f3 then .illegal else .store false f3 rs1 rs2 (immS w)
  | 0x07 => if f3 = 2 ∨ f3 = 3 then .load true f3 rd rs1 (immI w) else .illegal
  | 0x27 => if f3 = 2 ∨ f3 = 3 then .store true f3 rs1 rs2 (immS w) else .illegal
  | 0x13 =>
    let sh := bits w 25 20
    if f3 = 1 then (if bits w 31 26 = 0 then .alu 1 false false rd rs1 (.imm sh) else .illegal)
    else if f3 = 5 then
      (if bits w 31 26 = 0 then .alu 5 false false rd rs1 (.imm sh)
       else if bits w 31 26 = 0x10 then .alu 5 true false rd rs1 (.imm sh) else .illegal)
    else .alu f3 false false rd rs1 (.imm (immI w))
  | 0x1B =>
    if f3 = 0 then .alu 0 false true rd rs1 (.imm (immI w))
    else if f3 = 1 then (if f7 = 0 then .alu 1 false true rd rs1 (.imm rs2) else .illegal)
    else if f3 = 5 then
      (if f7 = 0 then .alu 5 false true rd rs1 (.imm rs2) else if f7 = 0x20 then .alu 5 true true rd rs1 (.imm rs2) else .illegal)
    else .illegal
  | 0x33 =>
    if f7 = 0 then .alu f3 false false rd rs1 (.reg rs2)
    else if f7 = 0x20 ∧ (f3 = 0 ∨ f3 = 5) then .alu f3 true false rd rs1 (.reg rs2)
    else if f7 = 1 then .muldiv f3 false rd rs1 rs2
    else .illegal
  | 0x3B =>
    if f7 = 0 ∧ (f3 = 0 ∨ f3 = 1 ∨ f3 = 5) then .alu f3 false true rd rs1 (.reg rs2)
    else if f7 = 0x20 ∧ (f3 = 0 ∨ f3 = 5) then .alu f3 true true rd rs1 (.reg rs2)
    else if f7 = 1 ∧ (f3 = 0 ∨ 4 ≤ f3) then .muldiv f3 true rd rs1 rs2
    else .illegal
  | 0x0F => if f3 = 0 then .fence else if f3 = 1 then .fenceI else .illegal
  | 0x73 =>
    if f3 = 0 then
      (if w = 0x73 then .ecall else if w = 0x100073 then .ebreak else if w = 0x30200073 then .mret
       else if w = 0x10500073 then .wfi else .illegal)
    else if f3 = 4 then .illegal
    else .csr f3 rd rs1 (bits w 31 20)
  | 0x2F =>
    let f5 := bits w 31 27
    let ok := f5 ≤ 1 || f5 == 3 || f5 % 4 == 0 || (f5 == 2 && rs2 == 0)
    if ok ∧ (f3 = 2 ∨ f3 = 3) then .amo f5 (if f3 = 2 then 4 else 8) rd rs1 rs2 else .illegal
  | 0x43 => if bits w 26 25 ≤ 1 then .fma false false (bits w 26 25 == 1) f3 rd rs1 rs2 (bits w 31 27) else .illegal
  | 0x47 => if bits w 26 25 ≤ 1 then .fma false true (bits w 26 25 == 1) f3 rd rs1 rs2 (bits w 31 27) else .illegal
  | 0x4B => if bits w 26 25 ≤ 1 then .fma true false (bits w 26 25 == 1) f3 rd rs1 rs2 (bits w 31 27) else .illegal
  | 0x4F => if bits w 26 25 ≤ 1 then .fma true true (bits w 26 25 == 1) f3 rd rs1 rs2 (bits w 31 27) else .illegal
  | 0x53 =>
    let dbl := bits w 26 25 == 1
    if bits w 26 25 ≤ 1 ∧ fopOk (bits w 31 27) f3 rs2 dbl then .fop (bits w 31 27) dbl f3 rd rs1 rs2 else .illegal
  | 0x0B => .custom false f7 f3 rd rs1 rs2
  | 0x2B => .custom true f7 f3 rd rs1 rs2
  | _ => .illegal

/-- A 16-bit instruction (extension C of RV64), as the operation it abbreviates. -/
def rvDecode16 (h : Nat) : RvOp :=
  let rd := bits h 11 7
  let rs2 := bits h 6 2
  let rdp := 8 + bits h 4 2
  let rsp := 8 + bits h 9 7
  let imm6 := sgn 6 (fld (bits h 12 12) 5 + rs2)
  let sh : Int := (fld (bits h 12 12) 5 + rs2 : Nat)
  let uD : Int := (fld (bits h 12 10) 3 + fld (bits h 6 5) 6 : Nat)
  let uW : Int := (fld (bits h 12 10) 3 + fld (bits h 6 6) 2 + fld (bits h 5 5) 6 : Nat)
  let spD : Int := (fld (bits h 12 12) 5 + fld (bits h 6 5) 3 + fld (bits h 4 2) 6 : Nat)
  let spW : Int := (fld (bits h 12 12) 5 + fld (bits h 6 4) 2 + fld (bits h 3 2) 6 : Nat)
  let ssD : Int := (fld (bits h 12 10) 3 + fld (bits h 9 7) 6 : Nat)
  let ssW : Int := (fld (bits h 12 9) 2 + fld (bits h 8 7) 6 : Nat)
  let offB := sgn 9 (fld (bits h 12 12) 8 + fld (bits h 11 10) 3 + fld (bits h 6 5) 6 + fld (bits h 4 3) 1 + fld (bits h 2 2) 5)
  let offJ := sgn 12 (fld (bits h 12 12) 11 + fld (bits h 11 11) 4 + fld (bits h 10 9) 8 + fld (bits h 8 8) 10 + fld (bits h 7 7) 6 +
    fld (bits h 6 6) 7 + fld (bits h 5 3) 1 + fld (bits h 2 2) 5)
  let up : Int := (fld (bits h 12 11) 4 + fld (bits h 10 7) 6 + fld (bits h 6 6) 2 + fld (bits h 5 5) 3 : Nat)
  let sp16 := sgn 10 (fld (bits h 12 12) 9 + fld (bits h 6 6) 4 + fld (bits h 5 5) 6 + fld (bits h 4 3) 7 + fld (bits h 2 2) 5)
  match bits h 1 0, bits h 15 13 with
  | 0, 0 => if up = 0 then .illegal else .alu 0 false false rdp 2 (.imm up)
  | 0, 1 => .load true 3 rdp rsp uD
  | 0, 2 => .load false 2 rdp rsp uW
  | 0, 3 => .load false 3 rdp rsp uD
  | 0, 5 => .store true 3 rsp rdp uD
  | 0, 6 => .store false 2 rsp rdp uW
  | 0, 7 => .store false 3 rsp rdp uD
  | 1, 0 => .alu 0 false false rd rd (.imm imm6)
  | 1, 1 => if rd = 0 then .illegal else .alu 0 false true rd rd (.imm imm6)
  | 1, 2 => .alu 0 false false rd 0 (.imm imm6)
  | 1, 3 =>
    if rd = 2 then (if sp16 = 0 then .illegal else .alu 0 false false 2 2 (.imm sp16))
    else if imm6 = 0 then .illegal
    else .lui rd (imm6 * 4096)
  | 1, 4 =>
    match bits h 11 10 with
    | 0 => .alu 5 false false rsp rsp (.imm sh)
    | 1 => .alu 5 true false rsp rsp (.imm sh)
    | 2 => .alu 7 false false rsp rsp (.imm imm6)
    | _ =>
      match bits h 12 12, bits h 6 5 with
      | 0, 0 => .alu 0 true false rsp rsp (.reg rdp)
      | 0, 1 => .alu 4 false false rsp rsp (.reg rdp)
      | 0, 2 => .alu 6 false false rsp rsp (.reg rdp)
      | 0, 3 => .alu 7 false false rsp rsp (.reg rdp)
      | 1, 0 => .alu 0 true true rsp rsp (.reg rdp)
      | 1, 1 => .alu 0 false true rsp rsp (.reg rdp)
      | _, _ => .illegal
  | 1, 5 => .jal 0 offJ
  | 1, 6 => .branch 0 rsp 0 offB
  | 1, 7 => .branch 1 rsp 0 offB
  | 2, 0 => .alu 1 false false rd rd (.imm sh)
  | 2, 1 => .load true 3 rd 2 spD
  | 2, 2 => if rd = 0 then .illegal else .load false 2 rd 2 spW
  | 2, 3 => if rd = 0 then .illegal else .load false 3 rd 2 spD
  | 2, 4 =>
    if bits h 12 12 = 0 then
      (if rs2 = 0 then (if rd = 0 then .illegal else .jalr 0 rd 0) else .alu 0 false false rd 0 (.reg rs2))
    else if rs2 = 0 then (if rd = 0 then .ebreak else .jalr 1 rd 0)
    else .alu 0 false false rd rd (.reg rs2)
  | 2, 5 => .store true 3 2 rs2 ssD
  | 2, 6 => .store false 2 2 rs2 ssW
  | 2, 7 => .store false 3 2 rs2 ssD
  | _, _ => .illegal

/-- The instruction that bits fetched at a program counter spell: two bytes, or four when the low two bits are set. -/
def rvDecode (w : Nat) : RvOp := if w % 4 = 3 then rvDecode32 w else rvDecode16 (w % 2 ^ 16)

/-! Integer results. -/

/-- Sign extension of the low 32 bits. -/
def sext32 (v : Nat) : W64 := BitVec.ofInt 64 (sgn 32 v)

/-- An integer operation (RV64I). -/
def rvAlu (f3 : Nat) (alt w32 : Bool) (a b : W64) : W64 :=
  if w32 then
    let x := a.toNat % 2 ^ 32
    let n := b.toNat % 32
    match f3 with
    | 0 => sext32 (pat 32 (if alt then sgn 32 x - sgn 32 b.toNat else sgn 32 x + sgn 32 b.toNat))
    | 1 => sext32 (x <<< n % 2 ^ 32)
    | _ => if alt then sext32 (pat 32 (sgn 32 x >>> n)) else sext32 (x >>> n)
  else
    let n := b.toNat % 64
    match f3 with
    | 0 => if alt then a - b else a + b
    | 1 => a <<< n
    | 2 => if a.toInt < b.toInt then 1 else 0
    | 3 => if a.toNat < b.toNat then 1 else 0
    | 4 => a ^^^ b
    | 5 => if alt then a.sshiftRight n else a >>> n
    | 6 => a ||| b
    | _ => a &&& b

/-- Multiplication and division (RV64M). -/
def rvMulDiv (f3 : Nat) (w32 : Bool) (a b : W64) : W64 :=
  let n := if w32 then 32 else 64
  let sa := sgn n a.toNat
  let sb := sgn n b.toNat
  let ua : Int := (a.toNat % 2 ^ n : Nat)
  let ub : Int := (b.toNat % 2 ^ n : Nat)
  let r : Int :=
    match f3 with
    | 0 => sa * sb
    | 1 => (sa * sb) >>> n
    | 2 => (sa * ub) >>> n
    | 3 => (ua * ub) >>> n
    | 4 => if sb = 0 then -1 else sa.tdiv sb
    | 5 => if ub = 0 then -1 else ua / ub
    | 6 => if sb = 0 then sa else sa.tmod sb
    | _ => if ub = 0 then ua else ua % ub
  if w32 then sext32 (pat 32 r) else BitVec.ofInt 64 r

/-- Whether a branch is taken. -/
def rvTaken (f3 : Nat) (a b : W64) : Bool :=
  match f3 with
  | 0 => a == b
  | 1 => a != b
  | 4 => a.toInt < b.toInt
  | 5 => !(a.toInt < b.toInt)
  | 6 => a.toNat < b.toNat
  | _ => !(a.toNat < b.toNat)

/-- What an atomic operation leaves in memory (RV64A), from the old value and the operand, both `8·size` bits. -/
def amoNew (f5 size old v : Nat) : Nat :=
  let n := 8 * size
  match f5 with
  | 0 => (old + v) % 2 ^ n
  | 1 => v
  | 4 => old ^^^ v
  | 8 => old ||| v
  | 12 => old &&& v
  | 16 => if sgn n v < sgn n old then v else old
  | 20 => if sgn n old < sgn n v then v else old
  | 24 => min old v
  | _ => max old v

/-- A loaded value as its register takes it. -/
def loadExt (fp : Bool) (f3 v : Nat) : W64 :=
  if fp then (if f3 = 2 then BitVec.ofNat 64 (0xFFFFFFFF00000000 + v) else BitVec.ofNat 64 v)
  else
    match f3 with
    | 0 => BitVec.ofInt 64 (sgn 8 v)
    | 1 => BitVec.ofInt 64 (sgn 16 v)
    | 2 => sext32 v
    | _ => BitVec.ofNat 64 v

/-- Bytes that a load or store of a function code moves. -/
def rvSize (f3 : Nat) : Nat := 2 ^ (f3 % 4)

/-- Destination register of an instruction: x0 to x31 as 0 to 31, f0 to f31 as 32 to 63. -/
def rvDest : RvOp → Option Nat
  | .lui rd _ => some rd
  | .auipc rd _ => some rd
  | .jal rd _ => some rd
  | .jalr rd _ _ => some rd
  | .load fp _ rd _ _ => some (if fp then 32 + rd else rd)
  | .alu _ _ _ rd _ _ => some rd
  | .muldiv _ _ rd _ _ => some rd
  | .amo _ _ rd _ _ => some rd
  | .csr _ rd _ _ => some rd
  | .fma _ _ _ _ rd _ _ _ => some (32 + rd)
  | .fop op _ _ rd _ _ => some (if op = 0x14 ∨ op = 0x18 ∨ op = 0x1C then rd else 32 + rd)
  | .custom _ _ _ rd _ _ => some rd
  | _ => none

/-- Registers whose values an instruction's result is computed from. -/
def rvSrcs : RvOp → List Nat
  | .alu _ _ _ _ rs1 (.reg rs2) => [rs1, rs2]
  | .alu _ _ _ _ rs1 (.imm _) => [rs1]
  | .muldiv _ _ _ rs1 rs2 => [rs1, rs2]
  | .fma _ _ _ _ _ rs1 rs2 rs3 => [32 + rs1, 32 + rs2, 32 + rs3]
  | .fop op _ _ _ rs1 rs2 =>
    if op = 0x1A ∨ op = 0x1E then [rs1]
    else if op = 0x0B ∨ op = 0x08 ∨ op = 0x18 ∨ op = 0x1C then [32 + rs1]
    else [32 + rs1, 32 + rs2]
  | _ => []

end Sys2Proof.Machine
end

