-- ==== Sys2Proof/Machine/RvFloat.lean ====
section
/-! DEFINITION. Floating point of the control core: the F and D extensions (PRESUMED, log 90), each result computed exactly and rounded
once. -/

namespace Sys2Proof.Machine

/-- Accrued exception flags of fcsr: NV, DZ, OF, UF, NX. -/
def flNV : Nat := 16
def flDZ : Nat := 8
def flOF : Nat := 4
def flUF : Nat := 2
def flNX : Nat := 1

/-- The format of an instruction. -/
def rvFmt (dbl : Bool) : FFmt := if dbl then fmtFP64 else fmtFP32

/-- The rounding rule of a rounding field, with frm for the dynamic one; none where the field is reserved. -/
def rvRm (rm fcsr : Nat) : Option Rm :=
  match (if rm = 7 then bits fcsr 7 5 else rm) with
  | 0 => some .rne
  | 1 => some .rtz
  | 2 => some .rdn
  | 3 => some .rup
  | 4 => some .rmm
  | _ => none

/-- The canonical NaN of a format. -/
def rvNaN (f : FFmt) : Nat := f.nanCode.getD 0

/-- Whether a code is a signalling NaN. -/
def isSNaN (f : FFmt) (x : Nat) : Bool := (f.decode x).isNaN && !x.testBit (f.mb - 1)

/-- Whether a nonzero finite value is tiny after rounding. -/
def tinyAfter (f : FFmt) (rm : Rm) (neg : Bool) (m : Nat) (e : Int) (sticky : Bool) : Bool :=
  let emin : Int := 1 - (f.bias : Int)
  let top : Int := (Nat.log2 m : Int) + e
  top < emin && !(top + 1 == emin && (roundTo rm neg m e (top - f.mb) sticky).1 == 2 ^ (f.mb + 1))

/-- A value rounded once into a format: its code and the flags. -/
def rvRound (f : FFmt) (rm : Rm) (v : FV) (sticky : Bool := false) : Nat × Nat :=
  match v with
  | .nan => (rvNaN f, 0)
  | .inf _ => ((f.encode rm false v).1, 0)
  | .fin neg m e =>
    let (c, r) := f.encode rm false v sticky
    if m = 0 then (c, 0)
    else if r.overflow then (c, flOF + flNX)
    else if r.inexact then (c, flNX + if tinyAfter f rm neg m e sticky then flUF else 0)
    else (c, 0)

def isRdn : Rm → Bool
  | .rdn => true
  | _ => false

/-- A fused multiply-add of three codes. -/
def rvFma (f : FFmt) (rm : Rm) (negP negZ : Bool) (a b z : Nat) : Nat × Nat :=
  let x := f.decode a
  let y := f.decode b
  let w := if negZ then (f.decode z).neg else f.decode z
  let p := if negP then (x.mul y).neg else x.mul y
  let v := p.add w (isRdn rm)
  let bad := isSNaN f a || isSNaN f b || isSNaN f z || (p.isNaN && !x.isNaN && !y.isNaN) || (v.isNaN && !p.isNaN && !w.isNaN)
  let r := rvRound f rm v
  (r.1, r.2 + if bad then flNV else 0)

/-- The sum, difference, product, quotient and root of codes (operations 0, 1, 2, 3 and 0x0B of OP-FP). -/
def rvArith (f : FFmt) (rm : Rm) (op a b : Nat) : Nat × Nat :=
  let x := f.decode a
  let y := f.decode b
  let (v, sticky) : FV × Bool :=
    match op with
    | 0 => (x.add y (isRdn rm), false)
    | 1 => (x.add y.neg (isRdn rm), false)
    | 2 => (x.mul y, false)
    | 3 => x.div y
    | _ => x.sqrt
  let nan := if op = 0x0B then x.isNaN else x.isNaN || y.isNaN
  let bad := isSNaN f a || (op != 0x0B && isSNaN f b) || (v.isNaN && !nan)
  let dz := op == 3 && y.isZero && !x.isZero && !x.isInf && !x.isNaN
  let r := rvRound f rm v sticky
  (r.1, r.2 + (if bad then flNV else 0) + if dz then flDZ else 0)

/-- Sign injection: FSGNJ, FSGNJN and FSGNJX. -/
def rvSgnj (f : FFmt) (rm a b : Nat) : Nat :=
  let s := f.eb + f.mb
  let sb := bits b s s
  let sign := match rm with
    | 0 => sb
    | 1 => 1 - sb
    | _ => (bits a s s + sb) % 2
  a % 2 ^ s + fld sign s

/-- FMIN and FMAX. -/
def rvMinMax (f : FFmt) (mx : Bool) (a b : Nat) : Nat × Nat :=
  let x := f.decode a
  let y := f.decode b
  let fl := if isSNaN f a || isSNaN f b then flNV else 0
  if x.isNaN && y.isNaN then (rvNaN f, fl)
  else if x.isNaN then (b, fl)
  else if y.isNaN then (a, fl)
  else
    let aLow := x.cmp y < 0 || (x.cmp y == 0 && x.isNeg)
    (if aLow == mx then b else a, fl)

/-- FLE, FLT and FEQ. -/
def rvCmp (f : FFmt) (rm a b : Nat) : Nat × Nat :=
  let x := f.decode a
  let y := f.decode b
  let nan := x.isNaN || y.isNaN
  match rm with
  | 0 => (b01 (x.le y), if nan then flNV else 0)
  | 1 => (b01 (x.lt y), if nan then flNV else 0)
  | _ => (b01 (x.eq y), if isSNaN f a || isSNaN f b then flNV else 0)

/-- FCLASS. -/
def rvClass (f : FFmt) (a : Nat) : Nat :=
  let v := f.decode a
  let sub := a % 2 ^ (f.eb + f.mb) / 2 ^ f.mb == 0
  match v with
  | .nan => if isSNaN f a then 2 ^ 8 else 2 ^ 9
  | .inf n => if n then 2 ^ 0 else 2 ^ 7
  | .fin n m _ => if m = 0 then (if n then 2 ^ 3 else 2 ^ 4) else if sub then (if n then 2 ^ 2 else 2 ^ 5) else if n then 2 ^ 1 else 2 ^ 6

/-- Bounds of the integer forms of FCVT: W, WU, L, LU. -/
def cvtLo (k : Nat) : Int := match k with | 0 => -2147483648 | 2 => -9223372036854775808 | _ => 0
def cvtHi (k : Nat) : Int := match k with | 0 => 2147483647 | 1 => 4294967295 | 2 => 9223372036854775807 | _ => 18446744073709551615

/-- FCVT to an integer form. -/
def rvToInt (f : FFmt) (rm : Rm) (k a : Nat) : W64 × Nat :=
  let v := f.decode a
  let (i, sat, ix) := v.toInt rm (cvtLo k) (cvtHi k)
  let i := if v.isNaN then cvtHi k else i
  (if k < 2 then sext32 (pat 32 i) else BitVec.ofInt 64 i, if v.isNaN || sat then flNV else if ix then flNX else 0)

/-- FCVT from an integer form. -/
def rvFromInt (f : FFmt) (rm : Rm) (k : Nat) (x : W64) : Nat × Nat :=
  let i : Int := match k with
    | 0 => sgn 32 x.toNat
    | 1 => (x.toNat % 2 ^ 32 : Nat)
    | 2 => x.toInt
    | _ => x.toNat
  rvRound f rm (.ofInt i)

/-- A single value in its 64-bit register: NaN-boxed, or the canonical NaN where it is not. -/
def unbox (dbl : Bool) (x : W64) : Nat :=
  if dbl then x.toNat else if x.toNat / 2 ^ 32 = 0xFFFFFFFF then x.toNat % 2 ^ 32 else rvNaN fmtFP32

def box (dbl : Bool) (x : Nat) : W64 := if dbl then BitVec.ofNat 64 x else BitVec.ofNat 64 (0xFFFFFFFF00000000 + x)

/-- The result of an OP-FP instruction in its register, and the flags it accrues; none where the rounding field is reserved. -/
def rvFop (op : Nat) (dbl : Bool) (rm rs2n fcsr : Nat) (fa fb xa : W64) : Option (W64 × Nat) :=
  let f := rvFmt dbl
  let a := unbox dbl fa
  let b := unbox dbl fb
  let bx (r : Nat × Nat) : W64 × Nat := (box dbl r.1, r.2)
  match op with
  | 0x04 => some (box dbl (rvSgnj f rm a b), 0)
  | 0x05 => some (bx (rvMinMax f (rm == 1) a b))
  | 0x14 => let r := rvCmp f rm a b; some (BitVec.ofNat 64 r.1, r.2)
  | 0x1C => some (if rm = 1 then BitVec.ofNat 64 (rvClass f a) else if dbl then fa else sext32 fa.toNat, 0)
  | 0x1E => some (if dbl then xa else box false (xa.toNat % 2 ^ 32), 0)
  | _ =>
    match rvRm rm fcsr with
    | none => none
    | some r =>
      match op with
      | 0x08 =>
        let g := rvFmt (rs2n == 1)
        let src := unbox (rs2n == 1) fa
        let x := rvRound f r (g.decode src)
        some (box dbl x.1, x.2 + if isSNaN g src then flNV else 0)
      | 0x18 => some (rvToInt f r rs2n a)
      | 0x1A => some (bx (rvFromInt f r rs2n xa))
      | _ => some (bx (rvArith f r op a b))

end Sys2Proof.Machine
end

