-- ==== Sys2Proof/Machine/ControlCore.lean ====
section
/-! DEFINITION. The control core: fetch through the base and bound pairs, RV64GC, the Avviam custom instructions, and loads and stores of
scratch, aliases, the control window and other cores (R15 to R21, R122 to R125, R138, R139, R436). -/

namespace Sys2Proof.Machine

/-! Registers of a context. -/

/-- Register x`n`; x0 reads 0. -/
def Ctx.x (c : Ctx) (n : Nat) : W64 := if n = 0 then 0 else Tab.get 0 c.xs n

/-- Write x`n`; a write of x0 is dropped. -/
def Ctx.setX (c : Ctx) (n : Nat) (v : W64) : Ctx := if n = 0 then c else { c with xs := Tab.put c.xs n v }

/-- Register f`n`. -/
def Ctx.f (c : Ctx) (n : Nat) : W64 := Tab.get 0 c.fs n

/-- Whether the value of a register is derived from poison. -/
def Ctx.tainted (c : Ctx) (d : Nat) : Bool := c.taint.testBit d

def Ctx.setTaint (c : Ctx) (d : Nat) (b : Bool) : Ctx :=
  if d = 0 ∨ c.taint.testBit d = b then c else { c with taint := c.taint ^^^ 2 ^ d }

/-- Write a register by its number, x0 to x31 as 0 to 31 and f0 to f31 as 32 to 63, with its taint (R219). -/
def Ctx.put (c : Ctx) (d : Nat) (v : W64) (bad : Bool) : Ctx :=
  (if d < 32 then c.setX d v else { c with fs := Tab.put c.fs (d - 32) v }).setTaint d bad

/-- The instruction is done: what it does to its context, and the program counter past it. -/
def State.ccDone (s : State) (core slot len : Nat) (f : Ctx → Ctx) : State :=
  s.mapSlot core slot fun c => { f c with pc := c.pc + BitVec.ofNat 64 len, instret := c.instret + 1 }

/-- The instruction is done and continues at a target. -/
def State.ccJump (s : State) (core slot : Nat) (target : W64) (f : Ctx → Ctx) : State :=
  s.mapSlot core slot fun c => { f c with pc := target, instret := c.instret + 1 }

/-! Traps (R18; the machine mode of context 7 is PRESUMED from RISC-V, log 92). -/

def Ctx.csr (c : Ctx) (a : Nat) : W64 := Tab.get 0 c.csrs a
def Ctx.setCsr (c : Ctx) (a : Nat) (v : W64) : Ctx := { c with csrs := Tab.put c.csrs a v }

/-- A trap of context 7 into its machine-mode handler. -/
def Ctx.trapped (c : Ctx) (cause : Nat) (tval : W64) : Ctx :=
  let m := (c.csr 0x300).toNat
  let m1 := fld (bits m 3 3) 7 + fld (if c.mmode then 3 else 0) 11 + fld (bits m 17 17) 17
  let c1 := (((c.setCsr 0x300 (BitVec.ofNat 64 m1)).setCsr 0x341 c.pc).setCsr 0x342 (BitVec.ofNat 64 cause)).setCsr 0x343 tval
  { c1 with mmode := true, pc := (c.csr 0x305) &&& ~~~3 }

/-- An exception of an instruction: a job context ends with ILLEGAL_OP (R18), context 7 traps. -/
def State.ccTrap (s : State) (core slot cause : Nat) (tval : W64) : State :=
  if slot = 7 then s.mapSlot core slot fun c => c.trapped cause tval
  else s.faultCtx core (s.slot core slot).lctx stIllegalOp

/-- MRET. -/
def Ctx.returned (c : Ctx) : Ctx :=
  let m := (c.csr 0x300).toNat
  let m1 := fld (bits m 7 7) 3 + fld 1 7 + (if bits m 12 11 = 3 then fld (bits m 17 17) 17 else 0)
  { c.setCsr 0x300 (BitVec.ofNat 64 m1) with mmode := bits m 12 11 == 3, pc := c.csr 0x341, instret := c.instret + 1 }

/-! Control and status registers. -/

/-- What a CSR reads; none where the privilege of the context does not reach it or it is not there. -/
def State.csrRead (s : State) (core : Nat) (c : Ctx) (a : Nat) : Option W64 :=
  let n (x : Nat) : Option W64 := some (BitVec.ofNat 64 x)
  match a with
  | 0x001 => n (c.fcsr % 32)
  | 0x002 => n (c.fcsr / 32 % 8)
  | 0x003 => n (c.fcsr % 256)
  | 0xC00 => n ((s.core core).cycles / 25)
  | 0xC01 => n s.ltime
  | 0xC02 => n c.instret
  | _ =>
    if !c.mmode then none
    else
      match a with
      | 0x300 => n ((c.csr 0x300).toNat + fld 3 13 + fld 2 32 + fld 1 63)
      | 0x301 => n (fld 2 62 + 0x10112D)
      | 0x304 | 0x305 | 0x340 | 0x341 | 0x342 | 0x343 => some (c.csr a)
      | 0x306 => n 7
      | 0x344 | 0x320 => n 0
      | 0xB00 => n ((s.core core).cycles / 25)
      | 0xB02 => n c.instret
      | 0xF11 | 0xF12 | 0xF13 | 0xF14 | 0xF15 => some (Config.machineId core a)
      | _ =>
        if (0x323 ≤ a ∧ a < 0x340) ∨ (0xB03 ≤ a ∧ a < 0xB20) ∨ (0x3A0 ≤ a ∧ a < 0x3F0) then n 0 else none

/-- A write of a CSR that reads. -/
def State.csrWrite (s : State) (core slot a : Nat) (v : W64) : State :=
  let x := v.toNat
  let m (f : Ctx → Ctx) : State := s.mapSlot core slot f
  match a with
  | 0x001 => m fun c => { c with fcsr := c.fcsr / 32 * 32 + x % 32 }
  | 0x002 => m fun c => { c with fcsr := c.fcsr % 32 + 32 * (x % 8) }
  | 0x003 => m fun c => { c with fcsr := x % 256 }
  | 0x300 => m fun c => c.setCsr a (BitVec.ofNat 64
      (fld (bits x 3 3) 3 + fld (bits x 7 7) 7 + fld (if bits x 12 11 = 3 then 3 else 0) 11 + fld (bits x 17 17) 17))
  | 0x304 => m fun c => c.setCsr a (v &&& 0x888)
  | 0x305 => m fun c => c.setCsr a (v &&& ~~~2)
  | 0x341 => m fun c => c.setCsr a (v &&& ~~~1)
  | 0x340 | 0x342 | 0x343 => m fun c => c.setCsr a v
  | 0xB00 => s.mapCore core fun k => { k with cycles := 25 * x }
  | 0xB02 => m fun c => { c with instret := x }
  | _ => s

/-- A Zicsr instruction. -/
def State.ccCsr (s : State) (core slot len f3 rd rs1 a : Nat) : State :=
  let c := s.slot core slot
  match s.csrRead core c a with
  | none => s.ccTrap core slot 2 0
  | some old =>
    let v : W64 := if 5 ≤ f3 then BitVec.ofNat 64 rs1 else c.x rs1
    let wr := f3 % 4 == 1 || rs1 != 0
    if wr && bits a 11 10 == 3 then s.ccTrap core slot 2 0
    else
      let new := match f3 % 4 with
        | 1 => v
        | 2 => old ||| v
        | _ => old &&& ~~~v
      let s1 := s.ccDone core slot len fun c => c.put rd old false
      if wr then s1.csrWrite core slot a new else s1

/-! Fetch. -/

/-- Whether `n` bytes at a device physical address lie within one of the context's pairs (R15, R131, R136). A circular pair covers the
bytes held in its region, at their place in the core's own window. -/
def ccIn (k : Core) (c : Ctx) (core a n : Nat) : Bool :=
  (List.range 4).any fun i =>
    let p := c.pair i
    if p.mode = 1 then
      let g := k.circAt p.creg
      let lo := scrPa core (g.start * 16)
      g.en && lo ≤ a && a + n ≤ lo + g.size * 16 &&
        (a - lo + g.size * 16 - g.headPos * 16) % (g.size * 16) + n ≤ g.units * 16
    else p.mode == 0 && p.addr ≤ a && a + n ≤ p.addr + p.lim * 16

/-- What the control core finds at the program counter of a context. -/
inductive CcFetch where
  /-- The context runs nothing on the control core now. -/
  | off
  /-- A bank that holds the instruction wakes. -/
  | wait (off n : Nat)
  | fault (status : Nat)
  | word (w len : Nat)
  deriving DecidableEq, Repr

/-- `n` bytes of an instruction: they come from the core's own pantry or cellar, through a pair, and never through an alias or from the control
window (R15, R123, R436, Table 7.8). -/
def State.ccBytes (s : State) (core slot a n : Nat) : CcFetch :=
  let k := s.core core
  let off := a - scrPa core 0
  if ccIn k (k.slot slot) core a n ∧ ((inAlias a ∧ a % 2 ^ 20 < 0xC0000) ∨ (scrPa core 0xC0000 < a + n ∧ a + n ≤ scrPa core 0x100000)) then
    .fault stIllegalOp
  else if !ccIn k (k.slot slot) core a n ∨ a < scrPa core 0 ∨ scrPa core 0xC0000 < a + n then .fault stBoundFault
  else if k.bankIsOff off n then .fault stBankOff
  else if !k.bankIsOn off n then .wait off n
  else if s.anyPoison a n then .fault stPoisoned
  else .word (leNat (s.rds a n)) n

/-- The instruction at the program counter of a resident context that runs (R18). -/
def State.ccFetch (s : State) (core slot : Nat) : CcFetch :=
  let k := s.core core
  let c := k.slot slot
  if k.fenced || !s.clocked core || !(c.st == .ready || c.st == .blocked) || c.ccLoad.isSome then .off
  else
    match s.ccBytes core slot c.pc.toNat 2 with
    | .word w n => if w % 4 = 3 then s.ccBytes core slot c.pc.toNat 4 else .word w n
    | r => r

/-- Run the instruction `w` of a context on the control core: the event takes place when that is the instruction at its program
counter and `body` covers it. A fetch that fails ends the context. -/
def ccRow (core slot : Nat) (w : BitVec 32) (s : State) (body : Ctx → RvOp → Nat → Option (State → State)) : Out :=
  if 2048 ≤ core ∨ 8 ≤ slot then .next s
  else
    match s.ccFetch core slot with
    | .off => .next s
    | .wait off n => .next (s.wakeBanks core off n)
    | .fault st => .next ((s.noteRefused core st).faultCtx core (s.slot core slot).lctx st)
    | .word v len =>
      if v ≠ w.toNat then .next s
      else
        match body (s.slot core slot) (rvDecode v) len with
        | none => .next s
        | some f => .next (f (s.mapCore core fun k => { k with ccRun := some slot }))

/-! Loads, stores and atomics. -/

/-- Where an access of the control core goes. -/
inductive CcMem where
  | misaligned
  | bad (status : Nat)
  | wait (off : Nat)
  | own (view off : Nat)
  | win (off : Nat)
  | far (target : Nat)
  deriving DecidableEq, Repr

/-- Place an access of `n` bytes (R15, R18, R122, R123, R128, R436); `plain` is clear for an atomic operation. -/
def State.ccPlace (s : State) (core slot a n : Nat) (plain : Bool) : CcMem :=
  let k := s.core core
  if a % n ≠ 0 then
    (if ccIn k (k.slot slot) core a n ∧ ((inAlias a ∧ a % 2 ^ 20 < 0xC0000) ∨ (!inAlias a ∧ 0xC0000 < a % 2 ^ 20 + n)) then .bad stIllegalOp
     else .misaligned)
  else if !ccIn k (k.slot slot) core a n then .bad stBoundFault
  else
    match s.region a with
    | .scratch v t o =>
      if 0xC0000 ≤ o then
        (if v ≠ 0 then .bad stBoundFault else if n ≠ 8 ∨ !plain then .bad stIllegalOp else if t = core then .win o else .far t)
      else if v ≠ 0 ∧ (n < 4 ∨ !plain) then .bad stIllegalOp
      else if t ≠ core then .far t
      else if k.bankIsOff o n then .bad stBankOff
      else if k.bankIsOn o n then .own v o
      else .wait o
    | _ => .bad stBoundFault

/-- Inject a remote request, or wait for its response space or for the account (R139, R307). A request that answers with data holds
the context until it comes. -/
def State.ccRequest (s : State) (core slot len target a : Nat) (op : RemOp) (rd : Nat) (signed fp bad : Bool) : State :=
  let k := s.core core
  let isLoad : Bool := match op with
    | .store _ _ => false
    | _ => true
  if (isLoad && 64 ≤ k.outR) || (!isLoad && k.writesFull) || s.farHeld core then s
  else
    let c := k.slot slot
    let id := k.nextId
    let c1 : Ctx := { c with
      pc := c.pc + BitVec.ofNat 64 len, instret := c.instret + 1, ccLoad := if isLoad then some id else c.ccLoad }
    let k1 := { k.setSlot slot c1 with
      nextId := id + 1, pend := k.pend ++ [⟨id, c.lctx, .remote, 0xF⟩]
      outR := if isLoad then k.outR + 1 else k.outR
      outW := if isLoad then k.outW else k.outW + 1 }
    let m : RemMsg := { src := core, slot := slot, lctx := c.lctx, svc := slot == 7, addr := a, op := op, rd := rd, signed := signed,
                        fp := fp, id := id, poison := bad }
    ((s.setCore core k1).chargeData core 40).sendRemote target m

/-- An access that ends its context. -/
def State.ccBad (s : State) (core slot st : Nat) : State := (s.noteRefused core st).faultCtx core (s.slot core slot).lctx st

/-- The address of a load or store. -/
def ccAddr (c : Ctx) (rs1 : Nat) (off : Int) : Nat := (c.x rs1 + BitVec.ofInt 64 off).toNat

/-- A load (R15, R122 to R125, R436). -/
def State.ccLoadOp (s : State) (core slot len : Nat) (fp : Bool) (f3 rd rs1 : Nat) (off : Int) : State :=
  let c := s.slot core slot
  let a := ccAddr c rs1 off
  let n := rvSize f3
  let d := if fp then 32 + rd else rd
  match s.ccPlace core slot a n true with
  | .misaligned => s.ccTrap core slot 4 (BitVec.ofNat 64 a)
  | .bad st => s.ccBad core slot st
  | .wait o => s.wakeBanks core o n
  | .own v o =>
    let bad := s.anyPoison (scrPa core o) n
    let r := if v = 0 then (leNat (s.rds (scrPa core o) n), s) else s.aliasLoad v core o n core c.lctx
    r.2.ccDone core slot len fun c => c.put d (loadExt fp f3 r.1) bad
  | .win o =>
    let r := s.winRead core o
    r.2.ccDone core slot len fun c => c.put d (BitVec.ofNat 64 r.1) false
  | .far t => s.ccRequest core slot len t a (.load n) d (f3 < 4) fp false

/-- A store (R15, R122 to R125, R436). -/
def State.ccStoreOp (s : State) (core slot len : Nat) (fp : Bool) (f3 rs1 rs2 : Nat) (off : Int) : State :=
  let c := s.slot core slot
  let a := ccAddr c rs1 off
  let n := rvSize f3
  let v := (if fp then c.f rs2 else c.x rs2).toNat % 2 ^ (8 * n)
  let bad := c.tainted (if fp then 32 + rs2 else rs2)
  match s.ccPlace core slot a n true with
  | .misaligned => s.ccTrap core slot 6 (BitVec.ofNat 64 a)
  | .bad st => s.ccBad core slot st
  | .wait o => s.wakeBanks core o n
  | .own w o => (s.scrStore w core o n v bad).ccDone core slot len id
  | .win o =>
    let s1 := s.ccDone core slot len id
    match s1.winWrite (.ctx core slot) core o v with
    | .done t => t
    | .refused st => s1.faultCtx core c.lctx st
    | .wait => s
  | .far t => s.ccRequest core slot len t a (.store n (BitVec.ofNat 64 v)) 0 false false bad

/-- An atomic operation on a word of scratch, LR and SC included (RV64A): the value that rd takes, and the state. The reservation of LR
covers the half-line (log 93). -/
def State.amoAt (s : State) (target off n f5 : Nat) (v : Nat) (bad : Bool) (core lctx : Nat) : Nat × State :=
  let pa := scrPa target off
  let line := pa / 64
  let mine (r : Nat × Nat × Nat) : Bool := r.2.1 == core && r.2.2 == lctx
  let old := leNat (s.rds pa n)
  let rest := s.resvs.filter fun r => !mine r
  match f5 with
  | 2 => (old, { s with resvs := rest ++ [(line, core, lctx)] })
  | 3 =>
    if s.resvs.contains (line, core, lctx) then (0, ({ s with resvs := rest }).wr pa (leBytes n v) bad)
    else (1, { s with resvs := rest })
  | _ => (old, s.wr pa (leBytes n (amoNew f5 n old v)) (bad || s.anyPoison pa n))

/-- An instruction of RV64A. -/
def State.ccAmo (s : State) (core slot len f5 n rd rs1 rs2 : Nat) : State :=
  let c := s.slot core slot
  let a := (c.x rs1).toNat
  let v := (c.x rs2).toNat % 2 ^ (8 * n)
  let bad := f5 != 2 && c.tainted rs2
  match s.ccPlace core slot a n false with
  | .misaligned => s.ccTrap core slot (if f5 = 2 then 4 else 6) (c.x rs1)
  | .bad st => s.ccBad core slot st
  | .wait o => s.wakeBanks core o n
  | .own _ o =>
    let old := s.anyPoison (scrPa core o) n && f5 != 3
    let r := s.amoAt core o n f5 v bad core c.lctx
    r.2.ccDone core slot len fun c => c.put rd (if n = 4 then sext32 r.1 else BitVec.ofNat 64 r.1) old
  | .win _ => s.ccBad core slot stIllegalOp
  | .far t => s.ccRequest core slot len t a (.amo f5 n (BitVec.ofNat 64 v)) rd true false bad

/-! Instructions that move no data. -/

/-- Accrue flags in fcsr. -/
def Ctx.accrue (c : Ctx) (fl : Nat) : Ctx := { c with fcsr := c.fcsr ||| fl }

/-- Any other instruction of RV64GC, and a custom instruction that R19 does not let run. -/
def State.ccPlain (s : State) (core slot len : Nat) (op : RvOp) : State :=
  let c := s.slot core slot
  let bad := (rvSrcs op).any c.tainted
  let set (d : Nat) (v : W64) : State := s.ccDone core slot len fun c => c.put d v bad
  let link : W64 := c.pc + BitVec.ofNat 64 len
  let fset (r : Option (W64 × Nat)) : State :=
    match r, rvDest op with
    | some x, some d => s.ccDone core slot len fun c => (c.put d x.1 bad).accrue x.2
    | _, _ => s.ccTrap core slot 2 0
  match op with
  | .lui rd i => set rd (BitVec.ofInt 64 i)
  | .auipc rd i => set rd (c.pc + BitVec.ofInt 64 i)
  | .jal rd off => s.ccJump core slot (c.pc + BitVec.ofInt 64 off) fun c => c.put rd link false
  | .jalr rd rs1 off => s.ccJump core slot ((c.x rs1 + BitVec.ofInt 64 off) &&& ~~~1) fun c => c.put rd link false
  | .branch f3 rs1 rs2 off =>
    if rvTaken f3 (c.x rs1) (c.x rs2) then s.ccJump core slot (c.pc + BitVec.ofInt 64 off) id else s.ccDone core slot len id
  | .alu f3 alt w32 rd rs1 (.reg rs2) => set rd (rvAlu f3 alt w32 (c.x rs1) (c.x rs2))
  | .alu f3 alt w32 rd rs1 (.imm i) => set rd (rvAlu f3 alt w32 (c.x rs1) (BitVec.ofInt 64 i))
  | .muldiv f3 w32 rd rs1 rs2 => set rd (rvMulDiv f3 w32 (c.x rs1) (c.x rs2))
  | .amo f5 n rd rs1 rs2 => s.ccAmo core slot len f5 n rd rs1 rs2
  | .fence => if (s.core core).pend.any fun p => p.lctx == c.lctx && p.kind == .remote then s else s.ccDone core slot len id
  | .fenceI => s.ccDone core slot len id
  | .wfi => s.ccDone core slot len id
  | .ecall => s.ccTrap core slot (if c.mmode then 11 else 8) 0
  | .ebreak => s.ccTrap core slot 3 c.pc
  | .mret => if c.mmode then s.mapSlot core slot Ctx.returned else s.ccTrap core slot 2 0
  | .csr f3 rd rs1 a => s.ccCsr core slot len f3 rd rs1 a
  | .fma np nz dbl rm _ rs1 rs2 rs3 =>
    fset ((rvRm rm c.fcsr).map fun r =>
      let x := rvFma (rvFmt dbl) r np nz (unbox dbl (c.f rs1)) (unbox dbl (c.f rs2)) (unbox dbl (c.f rs3))
      (box dbl x.1, x.2))
  | .fop o dbl rm _ rs1 rs2 => fset (rvFop o dbl rm rs2 c.fcsr (c.f rs1) (c.f rs2) (c.x rs1))
  | .custom _ _ _ _ _ _ => s.faultCtx core c.lctx stIllegalOp
  | .illegal => s.ccTrap core slot 2 0
  | .load _ _ _ _ _ => s
  | .store _ _ _ _ _ => s

/-- Whether a custom instruction is one that R19 lets the context run. -/
def customRuns (slot : Nat) (c : Ctx) (one : Bool) (f7 f3 rs2 : Nat) : Bool :=
  f7 == 0 && (if one then f3 == 0 else f3 != 7 || (slot == 7 && (c.x rs2).toNat < 4))

/-- CONTROL_CORE_INSTRUCTION (R18, R19): every instruction of RV64GC but loads and stores, and what R18 and R19 end a context for. -/
def execControlCoreInstruction (core slot : Nat) (w : BitVec 32) (s : State) : Out :=
  ccRow core slot w s fun c op len =>
    match op with
    | .load _ _ _ _ _ => none
    | .store _ _ _ _ _ => none
    | .custom one f7 f3 _ _ rs2 => if customRuns slot c one f7 f3 rs2 then none else some fun s => s.ccPlain core slot len op
    | o => some fun s => s.ccPlain core slot len o

/-- CONTROL_CORE_ACCESS (R15): a load or store of a context. -/
def execControlCoreAccess (core slot : Nat) (w : BitVec 32) (s : State) : Out :=
  ccRow core slot w s fun _ op len =>
    match op with
    | .load fp f3 rd rs1 off => some fun s => s.ccLoadOp core slot len fp f3 rd rs1 off
    | .store fp f3 rs1 rs2 off => some fun s => s.ccStoreOp core slot len fp f3 rs1 rs2 off
    | _ => none

/-- The view of the scratch map that an address lies in; none outside scratch (R122). -/
def viewOf (s : State) (a : Nat) : Option Nat :=
  match s.region a with
  | .scratch v _ _ => some v
  | _ => none

/-- A store through one of the aliases (R124). -/
def aliasStoreRow (view core slot : Nat) (w : BitVec 32) (s : State) : Out :=
  ccRow core slot w s fun c op len =>
    match op with
    | .store fp f3 rs1 rs2 off =>
      if viewOf s (ccAddr c rs1 off) = some view then some fun s => s.ccStoreOp core slot len fp f3 rs1 rs2 off else none
    | _ => none

/-- A load through one of the aliases (R124). -/
def aliasLoadRow (view core slot : Nat) (w : BitVec 32) (s : State) : Out :=
  ccRow core slot w s fun c op len =>
    match op with
    | .load fp f3 rd rs1 off =>
      if viewOf s (ccAddr c rs1 off) = some view then some fun s => s.ccLoadOp core slot len fp f3 rd rs1 off else none
    | _ => none

/-- SET_ALIAS_STORE (R124). -/
def execSetAliasStore (core slot : Nat) (w : BitVec 32) (s : State) : Out := aliasStoreRow 1 core slot w s

/-- SET_ALIAS_LOAD (R124, R125). -/
def execSetAliasLoad (core slot : Nat) (w : BitVec 32) (s : State) : Out := aliasLoadRow 1 core slot w s

/-- CLEAR_ALIAS_STORE (R124, R125). -/
def execClearAliasStore (core slot : Nat) (w : BitVec 32) (s : State) : Out := aliasStoreRow 2 core slot w s

/-- CLEAR_ALIAS_LOAD (R124, R125). -/
def execClearAliasLoad (core slot : Nat) (w : BitVec 32) (s : State) : Out := aliasLoadRow 2 core slot w s

/-! Custom instructions (Table 1.2). -/

/-- A custom-0 instruction of function code `f3`: `body` gets the context and rd, rs1 and rs2. -/
def custom0 (core slot : Nat) (w : BitVec 32) (s : State) (f3 : Nat)
    (body : Ctx → Nat → Nat → Nat → Nat → Option (State → State)) : Out :=
  ccRow core slot w s fun c op len =>
    match op with
    | .custom false 0 g rd rs1 rs2 => if g = f3 ∧ customRuns slot c false 0 g rs2 then body c len rd rs1 rs2 else none
    | _ => none

/-- WCMD.PUSH (R20): the command joins the injection queue; while the queue is full the context waits. -/
def execWcmdPush (core slot : Nat) (w : BitVec 32) (s : State) : Out :=
  custom0 core slot w s 0 fun c len _ rs1 rs2 => some fun s =>
    if 4 ≤ c.inj.length then s
    else
      (s.ccDone core slot len fun c => { c with inj := c.inj ++ [c.x rs2 ++ c.x rs1] }).settle core slot

/-- TOK.WAIT (R19, R35). -/
def execTokWait (core slot : Nat) (w : BitVec 32) (s : State) : Out :=
  custom0 core slot w s 1 fun c len _ rs1 _ => some fun s =>
    let mask := (c.x rs1).toNat % 2 ^ 16
    if !tokMet c.tokens mask then s
    else (s.ccDone core slot len fun c => { c with tokens := tokTake c.tokens mask }).settle core slot

/-- TOK.SIGNAL (R19, R35). -/
def execTokSignal (core slot : Nat) (w : BitVec 32) (s : State) : Out :=
  custom0 core slot w s 2 fun c len _ rs1 _ => some fun s =>
    ((s.ccDone core slot len id).mapCore core fun k => k.signal c.lctx ((c.x rs1).toNat % 2 ^ 16)).settle core slot

/-- TOK.READ (R19). -/
def execTokRead (core slot : Nat) (w : BitVec 32) (s : State) : Out :=
  custom0 core slot w s 3 fun c len rd _ _ => some fun s => s.ccDone core slot len fun d => d.put rd c.tokens false

/-- A counter of Table 1.3; with PERF_MODE 1 counter 0 is the total-cycle counter and 1 to 7 read 0 (R175). -/
def Ctx.counter (c : Ctx) (n : Nat) : Nat :=
  match n with
  | 8 => c.issued
  | 9 => c.tokCyc / 25
  | 10 => c.budCyc / 25
  | 11 => c.swapouts
  | _ => if 12 ≤ n then 0 else if c.perf then (if n = 0 then c.totCyc / 25 else 0) else Tab.get 0 c.sctr n

/-- CTR.READ (R19, R175, Table 1.3). -/
def execCtrRead (core slot : Nat) (w : BitVec 32) (s : State) : Out :=
  custom0 core slot w s 4 fun c len rd rs1 _ => some fun s =>
    s.ccDone core slot len fun d => d.put rd (BitVec.ofNat 64 (c.counter ((c.x rs1).toNat % 16))) false

/-- CTX.YIELD (R19): the context's turn on the control core ends. -/
def execCtxYield (core slot : Nat) (w : BitVec 32) (s : State) : Out :=
  custom0 core slot w s 5 fun _ len _ _ _ => some fun s =>
    (s.ccDone core slot len id).mapCore core fun k => { k with ccRun := none }

/-- An operation of SEQ.CTL, chosen by rs1[1:0]. -/
def seqCtl (core slot : Nat) (w : BitVec 32) (s : State) (o : Nat) (body : Ctx → Nat → Nat → Nat → State → State) : Out :=
  custom0 core slot w s 6 fun c len rd rs1 rs2 => if (c.x rs1).toNat % 4 = o then some (body c len rd rs2) else none

/-- SEQ.CTL 0 (R19): rd takes the command pointer, as CTX_CMDPTR reads it. -/
def execSeqCtlReadPointer (core slot : Nat) (w : BitVec 32) (s : State) : Out :=
  seqCtl core slot w s 0 fun c len rd _ s => s.ccDone core slot len fun d => d.put rd (BitVec.ofNat 64 c.cmdptr) false

/-- SEQ.CTL 1 (R21): accepted only while the sequencer is paused. -/
def execSeqCtlSetPointer (core slot : Nat) (w : BitVec 32) (s : State) : Out :=
  seqCtl core slot w s 1 fun c len _ rs2 s =>
    if !c.paused then s.faultCtx core c.lctx stIllegalOp
    else
      let v := (c.x rs2).toNat
      (s.ccDone core slot len id).emptyBuf core slot (some ⟨bits v 17 16, bits v 15 0⟩)

/-- SEQ.CTL 2 (R19). -/
def execSeqCtlPause (core slot : Nat) (w : BitVec 32) (s : State) : Out :=
  seqCtl core slot w s 2 fun _ len _ _ s => s.ccDone core slot len fun c => { c with paused := true }

/-- SEQ.CTL 3 (R19). -/
def execSeqCtlResume (core slot : Nat) (w : BitVec 32) (s : State) : Out :=
  seqCtl core slot w s 3 fun _ len _ _ s => s.ccDone core slot len fun c => { c with paused := false }

/-- An operation of CTX.CTL by context 7, chosen by rs2, on logical context rs1[3:0]. -/
def ctxCtl (core slot : Nat) (w : BitVec 32) (s : State) (o : Nat) (body : Nat → State → State) : Out :=
  custom0 core slot w s 7 fun c len _ rs1 rs2 =>
    if (c.x rs2).toNat = o then some fun s => body ((c.x rs1).toNat % 16) (s.ccDone core slot len id) else none

/-- CTX.CTL start (Table 1.5): a declared logical context that is FREE starts in a free slot. -/
def execCtxCtlStart (core slot : Nat) (w : BitVec 32) (s : State) : Out :=
  ctxCtl core slot w s 0 fun l s =>
    match (s.core core).freeSlot with
    | some n => if s.declared core l then (s.mapCore core fun k => k.startIn core n l).partEvent (s.pno core) none 0 else s
    | none => s

/-- CTX.CTL stop (Table 1.5). -/
def execCtxCtlStop (core slot : Nat) (w : BitVec 32) (s : State) : Out :=
  ctxCtl core slot w s 1 fun l s =>
    match (s.core core).ctx? l with
    | some _ => s.endOne core l .killed stKilled
    | none => s.mapCore core fun k => k.stopEnded l

/-- CTX.CTL swap out (Table 1.5): a READY or BLOCKED context stops issuing at once. -/
def execCtxCtlSwapOut (core slot : Nat) (w : BitVec 32) (s : State) : Out :=
  ctxCtl core slot w s 2 fun l s =>
    s.mapCore core fun k =>
      match k.findSlot l with
      | some n =>
        if (k.slot n).st = .ready ∨ (k.slot n).st = .blocked then k.askSwap ⟨n, true, false, none, false⟩ else k
      | none => k

/-- CTX.CTL swap in (Table 1.5): a swapped-out context comes into a free slot. -/
def execCtxCtlSwapIn (core slot : Nat) (w : BitVec 32) (s : State) : Out :=
  ctxCtl core slot w s 3 fun l s =>
    s.mapCore core fun k =>
      match k.freeSlot, Tab.find k.images l with
      | some n, some _ =>
        if (k.swapQ ++ k.swap.toList).any fun x => x.inl == some l then k else k.askSwap ⟨n, false, false, some l, false⟩
      | _, _ => k

/-- TOK.REMOTE (R19, R37): it completes when the target acknowledges. -/
def execTokRemote (core slot : Nat) (w : BitVec 32) (s : State) : Out :=
  ccRow core slot w s fun c op len =>
    match op with
    | .custom true 0 0 _ rs1 rs2 => some fun s =>
      if s.farHeld core || (s.core core).writesFull then s
      else
        let k := s.core core
        let v := (c.x rs1).toNat
        let k1 := { k with nextId := k.nextId + 1, pend := k.pend ++ [⟨k.nextId, c.lctx, .remote, 0xF⟩] }
        ((s.setCore core k1).ccDone core slot len id).sendSignal core slot (bits v 10 0) (bits v 19 16) ((c.x rs2).toNat % 2 ^ 16) k.nextId
    | _ => none

end Sys2Proof.Machine
end

