-- ==== Sys2Proof/Machine/Mesh.lean ====
section
/-! DEFINITION. Remote access over the mesh: requests at their target, answers at their source, and the accesses that a waking bank holds
(R128, R138 to R140). -/

namespace Sys2Proof.Machine

/-- What a remote request meets at its target. -/
inductive RemRes where
  /-- Performed, or failed: the status, the data and its poison, and the state. -/
  | answer (status : Nat) (v : W64) (bad : Bool) (s : State)
  /-- Held by a bank that wakes. -/
  | held (bank : Nat)
  /-- Waits in the mesh (R32). -/
  | wait
  deriving DecidableEq

/-- The write of a register of the window by a remote context (R140). -/
def State.remWin (s : State) (core o : Nat) (m : RemMsg) : RemRes :=
  match m.op with
  | .load n =>
    if n ≠ 8 ∨ o % 8 ≠ 0 then .answer stIllegalOp 0 false s
    else let r := s.winRead core o; .answer stOk (BitVec.ofNat 64 r.1) false r.2
  | .store n v =>
    if n ≠ 8 ∨ o % 8 ≠ 0 then .answer stIllegalOp 0 false s
    else
      match s.winWrite (.ctx m.src m.slot) core o v.toNat with
      | .done t => .answer stOk 0 false t
      | .refused st => .answer st 0 false s
      | .wait => .wait
  | .amo _ _ _ => .answer stIllegalOp 0 false s
  | .signal _ _ => .answer stOk 0 false s

/-- An access of scratch whose banks are ON (R124, R219). -/
def State.remMem (s : State) (core view o : Nat) (m : RemMsg) : RemRes :=
  match m.op with
  | .load n =>
    let bad := s.anyPoison (scrPa core o) n
    let r := if view = 0 then (leNat (s.rds (scrPa core o) n), s) else s.aliasLoad view core o n m.src m.lctx
    .answer stOk (BitVec.ofNat 64 r.1) bad r.2
  | .store n v => .answer stOk 0 false (s.scrStore view core o n v.toNat m.poison)
  | .amo f5 n v =>
    let bad := s.anyPoison (scrPa core o) n && f5 != 3
    let r := s.amoAt core o n f5 v.toNat m.poison m.src m.lctx
    .answer stOk (if n = 4 then sext32 r.1 else BitVec.ofNat 64 r.1) bad r.2
  | .signal _ _ => .answer stOk 0 false s

/-- Bytes that a request moves. -/
def RemOp.size : RemOp → Nat
  | .load n => n
  | .store n _ => n
  | .amo _ n _ => n
  | .signal _ _ => 0

/-- A remote request at its target (R128, R138, R140); a fenced core's refusal carries poisoned data (R373). -/
def State.remDo (s : State) (core : Nat) (m : RemMsg) : RemRes :=
  if s.denied m.src core m.svc then .answer stDenied 0 (s.core core).fenced (s.noteRefused core stDenied)
  else
    match s.region m.addr with
    | .scratch view _ o =>
      if 0xC0000 ≤ o then (if view ≠ 0 then .answer stBoundFault 0 false s else s.remWin core o m)
      else if (s.core core).bankIsOff o m.op.size then .answer stBankOff 0 false (s.noteRefused core stBankOff)
      else if (s.core core).bankIsOn o m.op.size then s.remMem core view o m
      else .held (bankOf o)
    | _ => .answer stBoundFault 0 false s

/-- Send an answer to the source of a request (R139). -/
def State.answerTo (s : State) (m : RemMsg) (status : Nat) (v : W64) (bad : Bool) : State :=
  s.mapCore m.src fun k => { k with answers := k.answers ++ [{ m with answer := some (status, v), poison := bad }] }

/-- The bank that a request to scratch goes to. -/
def State.bankFor (s : State) (m : RemMsg) : Option Nat :=
  match s.region m.addr with
  | .scratch _ _ o => if o < 0xC0000 then some (bankOf o) else none
  | _ => none

/-- Whether the 16-entry arrival queue of a bank is full (R121, R127). -/
def Bank.full (x : Bank) : Bool := 16 ≤ x.held.length

/-- Whether the oldest TOKSIG_L write in the mesh waits for the pending-signal buffer (R32). -/
def State.tokSigWaits (s : State) (core : Nat) : Bool :=
  match (s.core core).arriving.find? fun m => isAccess m && isTokSig s m with
  | none => false
  | some m =>
    match s.region m.addr with
    | .scratch _ _ o => (s.core core).sigFull ((o - 0xC0800) / 8)
    | _ => false

/-- The requests that a core can take from the mesh, in arrival order: a request whose bank's arrival queue is full waits, a TOKSIG_L write
waits for the pending-signal buffer, and a request comes behind the earlier ones of its context in its class, token signals among them
(R32, R121, R139). `gone`
lists the sources and classes with a request ahead. -/
def State.takeable (s : State) (core : Nat) : List RemMsg → List (Nat × Nat × Bool) → List RemMsg
  | [], _ => []
  | m :: t, gone =>
    let key := s.msgKey m
    let full : Bool := (s.bankFor m).any fun b => ((s.core core).bank b).full
    if !isAccess m || gone.contains key || full || (isTokSig s m && s.tokSigWaits core) then s.takeable core t (key :: gone)
    else m :: s.takeable core t gone

/-- The requests that a core can take now: behind those of their context that a bank holds. -/
def State.canTake (s : State) (core : Nat) : List RemMsg :=
  let k := s.core core
  s.takeable core k.arriving (k.queued.map s.msgKey)

/-- A request arrives at its bank (Table 4.5). -/
def State.remArrive (s : State) (core : Nat) (m : RemMsg) : State :=
  match s.bankFor m with
  | some b => if s.denied m.src core m.svc then s else s.mapCore core fun k => k.arrive b
  | none => s

/-- A request whose holder has been revoked: it is not performed, and answered to no one (R379). -/
def State.remDead (s : State) (m : RemMsg) : State := (s.spoil m).mapCore m.src fun k => k.release m

/-- Take one request from the mesh: it is answered, held by its bank, or waits in the mesh. -/
def State.takeRequest (s : State) (core : Nat) (m : RemMsg) : State :=
  let s0 := s.mapCore core fun k => { k with arriving := k.arriving.erase m }
  if !s.alive m then s0.remDead m
  else
  let s1 := s0.remArrive core m
  match s1.remDo core m with
  | .answer st v bad t => t.answerTo m st v bad
  | .held b => s1.mapCore core fun k => k.setBank b { k.bank b with held := (k.bank b).held ++ [m] }
  | .wait => s

/-- REMOTE_REQUEST (R138 to R140): the oldest request that can be taken at a target core. -/
def execRemoteRequest (core : Nat) (s : State) : Out :=
  if 2048 ≤ core ∨ s.halts then .next s
  else
    match s.canTake core with
    | [] => .next s
    | m :: _ => .next (s.takeRequest core m)

/-- GUEST_GRANT (R121): a request that is not the owner's and has waited 64 cycles at a bank that serves is granted ahead of the owner. It
is the oldest request from the mesh for that bank, or else one of an engine of the core that does not own the bank, whose work takes its
effect at its own completion. A bank gives at most one such grant in 64 cycles. -/
def execGuestGrant (core b : Nat) (s : State) : Out :=
  if 2048 ≤ core ∨ 6 ≤ b then .next s
  else
    let k := s.core core
    let count (s : State) : State := s.mapCore core fun k =>
      { k.setBank b { k.bank b with guestAt := some k.clk } with scr := { k.scr with guests := sat16 k.scr.guests 1 } }
    if (k.bank b).st ≠ .on ∨ !(s.clusterRuns (clusterOf core)) ∨ ((k.bank b).guestAt.any fun t => k.clk < t + 25 * 64) then .next s
    else
      match (s.canTake core).find? fun m => s.bankFor m == some b with
      | some m => .next (count (s.takeRequest core m))
      | none => if k.hasGuest core b then .next (count s) else .next s

/-- Perform the accesses that a bank held, in arrival order (Table 4.5). -/
def State.performHeld (s : State) (core : Nat) (ms : List RemMsg) : State :=
  ms.foldl
    (fun s m =>
      if !s.alive m then s.remDead m
      else
      match s.remDo core m with
      | .answer st v bad t => t.answerTo m st v bad
      | _ => s) s

/-- BANK_WAKE_ELAPSED (R118, R128): the bank is ON, zeroed when it wakes from off; it performs its held accesses in order, and a TARGET of
retention or off then applies as from ON. -/
def execBankWakeElapsed (core b : Nat) (s : State) : Out :=
  if 2048 ≤ core ∨ 6 ≤ b then .next s
  else
    let x := (s.core core).bank b
    if x.st ≠ .wake ∨ s.halts then .next s
    else
      let s1 := if x.fromOff then s.zeroBank core b else s
      let s2 := s1.mapCore core fun k => k.setBank b { x with st := .on, held := [], fromOff := false }
      let s3 := s2.performHeld core x.held
      .next (s3.mapCore core fun k => k.setBank b ((k.bank b).retarget x.target))

/-- The data of an answer in the register it is for. -/
def RemMsg.value (m : RemMsg) (v : W64) : W64 :=
  match m.op with
  | .load n => loadExt m.fp (Nat.log2 n + if m.signed then 0 else 4) v.toNat
  | _ => v

/-- REMOTE_RESPONSE (R139, R140): the oldest answer at its source releases its space; data goes to its register, and a failure ends the
context that asked, if it still runs. -/
def execRemoteResponse (core : Nat) (s : State) : Out :=
  if 2048 ≤ core ∨ s.halts then .next s
  else
    let k := s.core core
    match k.answers with
    | [] => .next s
    | m :: rest =>
      let k1 := { k with
        answers := rest
        outR := if m.isRead then k.outR - 1 else k.outR
        outW := if m.isRead then k.outW else k.outW - 1 }
      let s1 := s.setCore core k1
      if !(k.pend.any fun p => p.id == m.id) then .next s1
      else
        match m.answer with
        | none => .next s1
        | some (st, v) =>
          if st ≠ stOk then .next (s1.faultCtx core m.lctx st)
          else
            let k2 := if m.isRead then k1.mapCtx m.lctx fun c => { c.put m.rd (m.value v) m.poison with ccLoad := none } else k1
            .next ((s1.setCore core (k2.complete m.id)).badHead core m.slot)

end Sys2Proof.Machine
end

