-- ==== Sys2Proof/Machine/Dispatch.lean ====
section
/-! DEFINITION. The meaning of every command: one arm per constructor. -/

namespace Sys2Proof.Machine

open Sys2Proof

def exec (i : Instr) (s : State) : Host.Outcome State Fault Refusal :=
  match i with
  | .wcmdPush core slot w => Sys2Proof.Machine.execWcmdPush core slot w s
  | .tokWait core slot w => Sys2Proof.Machine.execTokWait core slot w s
  | .tokSignal core slot w => Sys2Proof.Machine.execTokSignal core slot w s
  | .tokRead core slot w => Sys2Proof.Machine.execTokRead core slot w s
  | .ctrRead core slot w => Sys2Proof.Machine.execCtrRead core slot w s
  | .ctxYield core slot w => Sys2Proof.Machine.execCtxYield core slot w s
  | .seqCtlReadPointer core slot w => Sys2Proof.Machine.execSeqCtlReadPointer core slot w s
  | .seqCtlSetPointer core slot w => Sys2Proof.Machine.execSeqCtlSetPointer core slot w s
  | .seqCtlPause core slot w => Sys2Proof.Machine.execSeqCtlPause core slot w s
  | .seqCtlResume core slot w => Sys2Proof.Machine.execSeqCtlResume core slot w s
  | .ctxCtlStart core slot w => Sys2Proof.Machine.execCtxCtlStart core slot w s
  | .ctxCtlStop core slot w => Sys2Proof.Machine.execCtxCtlStop core slot w s
  | .ctxCtlSwapOut core slot w => Sys2Proof.Machine.execCtxCtlSwapOut core slot w s
  | .ctxCtlSwapIn core slot w => Sys2Proof.Machine.execCtxCtlSwapIn core slot w s
  | .tokRemote core slot w => Sys2Proof.Machine.execTokRemote core slot w s
  | .controlCoreAccess core slot w => Sys2Proof.Machine.execControlCoreAccess core slot w s
  | .controlCoreInstruction core slot w => Sys2Proof.Machine.execControlCoreInstruction core slot w s
  | .nop core slot => Sys2Proof.Machine.execNop core slot s
  | .wait core slot => Sys2Proof.Machine.execWait core slot s
  | .waitTimeout core lctx => Sys2Proof.Machine.execWaitTimeout core lctx s
  | .signal core slot => Sys2Proof.Machine.execSignal core slot s
  | .fence core slot => Sys2Proof.Machine.execFence core slot s
  | .loop core slot => Sys2Proof.Machine.execLoop core slot s
  | .endloop core slot => Sys2Proof.Machine.execEndloop core slot s
  | .jump core slot => Sys2Proof.Machine.execJump core slot s
  | .call core slot => Sys2Proof.Machine.execCall core slot s
  | .yield core slot => Sys2Proof.Machine.execYield core slot s
  | .halt core slot => Sys2Proof.Machine.execHalt core slot s
  | .commandFetch core slot => Sys2Proof.Machine.execCommandFetch core slot s
  | .swapOnBlock core => Sys2Proof.Machine.execSwapOnBlock core s
  | .swapQuantumExpiry core lctx => Sys2Proof.Machine.execSwapQuantumExpiry core lctx s
  | .freeSlotAdmission core => Sys2Proof.Machine.execFreeSlotAdmission core s
  | .swapImageWrite core => Sys2Proof.Machine.execSwapImageWrite core s
  | .swapEnd core => Sys2Proof.Machine.execSwapEnd core s
  | .serviceContextOverdue core => Sys2Proof.Machine.execServiceContextOverdue core s
  | .remoteSignalArrival core => Sys2Proof.Machine.execRemoteSignalArrival core s
  | .toksigLWrite who core l v => Sys2Proof.Machine.execToksigLWrite who core l v s
  | .ctxCtrlStart who core slot v => Sys2Proof.Machine.execCtxCtrlStart who core slot v s
  | .ctxCtrlStop who core slot v => Sys2Proof.Machine.execCtxCtrlStop who core slot v s
  | .ctxCmdptrWrite who core slot v => Sys2Proof.Machine.execCtxCmdptrWrite who core slot v s
  | .registerWrite who r v => Sys2Proof.Machine.execRegisterWrite who r v s
  | .rcRegisterRead who r => Sys2Proof.Machine.execRcRegisterRead who r s
  | .mm core slot => Sys2Proof.Machine.execMm core slot s
  | .mmWide core slot => Sys2Proof.Machine.execMmWide core slot s
  | .mmSemi core slot => Sys2Proof.Machine.execMmSemi core slot s
  | .mmDist core slot => Sys2Proof.Machine.execMmDist core slot s
  | .mmCmp core slot => Sys2Proof.Machine.execMmCmp core slot s
  | .mmF32x3 core slot => Sys2Proof.Machine.execMmF32x3 core slot s
  | .loadW core slot => Sys2Proof.Machine.execLoadW core slot s
  | .drainAcc core slot => Sys2Proof.Machine.execDrainAcc core slot s
  | .passComplete core => Sys2Proof.Machine.execPassComplete core s
  | .drainComplete core => Sys2Proof.Machine.execDrainComplete core s
  | .accSlotSpill core slot => Sys2Proof.Machine.execAccSlotSpill core slot s
  | .accSlotReload core slot => Sys2Proof.Machine.execAccSlotReload core slot s
  | .arrayFault core array parity => Sys2Proof.Machine.execArrayFault core array parity s
  | .rowTestComplete core array row => Sys2Proof.Machine.execRowTestComplete core array row s
  | .arrRepairWrite who core array v => Sys2Proof.Machine.execArrRepairWrite who core array v s
  | .vop core slot => Sys2Proof.Machine.execVop core slot s
  | .vfunc core slot => Sys2Proof.Machine.execVfunc core slot s
  | .vderiv core slot => Sys2Proof.Machine.execVderiv core slot s
  | .vreduce core slot => Sys2Proof.Machine.execVreduce core slot s
  | .vnormBwd core slot => Sys2Proof.Machine.execVnormBwd core slot s
  | .vsoftmaxBwd core slot => Sys2Proof.Machine.execVsoftmaxBwd core slot s
  | .vcompress1 core slot => Sys2Proof.Machine.execVcompress1 core slot s
  | .vdecompSum core slot => Sys2Proof.Machine.execVdecompSum core slot s
  | .vrand core slot => Sys2Proof.Machine.execVrand core slot s
  | .vconvert core slot => Sys2Proof.Machine.execVconvert core slot s
  | .vdigest core slot => Sys2Proof.Machine.execVdigest core slot s
  | .segmentStart core => Sys2Proof.Machine.execSegmentStart core s
  | .laneFault core => Sys2Proof.Machine.execLaneFault core s
  | .vectorSuspend core => Sys2Proof.Machine.execVectorSuspend core s
  | .vectorResume core slot => Sys2Proof.Machine.execVectorResume core slot s
  | .guestGrant core bank => Sys2Proof.Machine.execGuestGrant core bank s
  | .setAliasStore core slot w => Sys2Proof.Machine.execSetAliasStore core slot w s
  | .setAliasLoad core slot w => Sys2Proof.Machine.execSetAliasLoad core slot w s
  | .clearAliasStore core slot w => Sys2Proof.Machine.execClearAliasStore core slot w s
  | .clearAliasLoad core slot w => Sys2Proof.Machine.execClearAliasLoad core slot w s
  | .bankTargetOn who core bank => Sys2Proof.Machine.execBankTargetOn who core bank s
  | .bankTargetRetention who core bank => Sys2Proof.Machine.execBankTargetRetention who core bank s
  | .bankTargetOff who core bank => Sys2Proof.Machine.execBankTargetOff who core bank s
  | .bankIdleRetention core bank => Sys2Proof.Machine.execBankIdleRetention core bank s
  | .bankRetentionEntry core bank => Sys2Proof.Machine.execBankRetentionEntry core bank s
  | .bankOffEntry core bank => Sys2Proof.Machine.execBankOffEntry core bank s
  | .bankWakeElapsed core bank => Sys2Proof.Machine.execBankWakeElapsed core bank s
  | .remoteRequest core => Sys2Proof.Machine.execRemoteRequest core s
  | .remoteResponse core => Sys2Proof.Machine.execRemoteResponse core s
  | .circCfgWrite who core k v => Sys2Proof.Machine.execCircCfgWrite who core k v s
  | .circHeadWrite who core k v => Sys2Proof.Machine.execCircHeadWrite who core k v s
  | .bbWrite who core slot pair limit v => Sys2Proof.Machine.execBbWrite who core slot pair limit v s
  | .arm core slot => Sys2Proof.Machine.execArm core slot s
  | .streamIn core slot => Sys2Proof.Machine.execStreamIn core slot s
  | .streamOut core slot => Sys2Proof.Machine.execStreamOut core slot s
  | .transposeIn core slot => Sys2Proof.Machine.execTransposeIn core slot s
  | .swapHalves core slot => Sys2Proof.Machine.execSwapHalves core slot s
  | .copyRemote core slot => Sys2Proof.Machine.execCopyRemote core slot s
  | .chainW core slot => Sys2Proof.Machine.execChainW core slot s
  | .transferComplete core n => Sys2Proof.Machine.execTransferComplete core n s
  | .transferFailure core n => Sys2Proof.Machine.execTransferFailure core n s
  | .transferSuspend core n => Sys2Proof.Machine.execTransferSuspend core n s
  | .prefetch core slot => Sys2Proof.Machine.execPrefetch core slot s
  | .chainLineArrival core => Sys2Proof.Machine.execChainLineArrival core s
  | .slotAssign who core n lctx => Sys2Proof.Machine.execSlotAssign who core n lctx s
  | .slotUnassign who core n => Sys2Proof.Machine.execSlotUnassign who core n s
  | .chainCfgWrite who core v => Sys2Proof.Machine.execChainCfgWrite who core v s
  | .pushCkpt core slot => Sys2Proof.Machine.execPushCkpt core slot s
  | .popCkpt core slot => Sys2Proof.Machine.execPopCkpt core slot s
  | .peekCkpt core slot => Sys2Proof.Machine.execPeekCkpt core slot s
  | .replayBegin core slot => Sys2Proof.Machine.execReplayBegin core slot s
  | .replayEnd core slot => Sys2Proof.Machine.execReplayEnd core slot s
  | .spillAhead core => Sys2Proof.Machine.execSpillAhead core s
  | .recordSpillComplete core => Sys2Proof.Machine.execRecordSpillComplete core s
  | .fetchBack core => Sys2Proof.Machine.execFetchBack core s
  | .fetchBackComplete core => Sys2Proof.Machine.execFetchBackComplete core s
  | .larderCfgWrite who core spill v => Sys2Proof.Machine.execLarderCfgWrite who core spill v s
  | .pageWalk die part va => Sys2Proof.Machine.execPageWalk die part va s
  | .migrationComplete part va => Sys2Proof.Machine.execMigrationComplete part va s
  | .pseudoChannelLoss stack pc => Sys2Proof.Machine.execPseudoChannelLoss stack pc s
  | .uncorrectableError pa correctable => Sys2Proof.Machine.execUncorrectableError pa correctable s
  | .scratchUncorrectable core off correctable => Sys2Proof.Machine.execScratchUncorrectable core off correctable s
  | .patrolScrub stack => Sys2Proof.Machine.execPatrolScrub stack s
  | .bar2Read port func off len => Sys2Proof.Machine.execBar2Read port func off len s
  | .bar2Write port func off data poisoned => Sys2Proof.Machine.execBar2Write port func off data poisoned s
  | .updateBlocks core slot => Sys2Proof.Machine.execUpdateBlocks core slot s
  | .gradMerge core slot => Sys2Proof.Machine.execGradMerge core slot s
  | .commitShadow core slot => Sys2Proof.Machine.execCommitShadow core slot s
  | .discardShadow core slot => Sys2Proof.Machine.execDiscardShadow core slot s
  | .updateAccept part => Sys2Proof.Machine.execUpdateAccept part s
  | .runComplete part => Sys2Proof.Machine.execRunComplete part s
  | .updateEngineFault part => Sys2Proof.Machine.execUpdateEngineFault part s
  | .shadowCommit part => Sys2Proof.Machine.execShadowCommit part s
  | .shadowDiscard part => Sys2Proof.Machine.execShadowDiscard part s
  | .portUp p => Sys2Proof.Machine.execPortUp p s
  | .alignmentLoss lane => Sys2Proof.Machine.execAlignmentLoss lane s
  | .fecWindowEnd p corrected uncorrectable => Sys2Proof.Machine.execFecWindowEnd p corrected uncorrectable s
  | .linkRemoteFault p => Sys2Proof.Machine.execLinkRemoteFault p s
  | .linkRetry p => Sys2Proof.Machine.execLinkRetry p s
  | .quadConfigWrite who q v => Sys2Proof.Machine.execQuadConfigWrite who q v s
  | .frameReceive f => Sys2Proof.Machine.execFrameReceive f s
  | .neighbourResolution p r => Sys2Proof.Machine.execNeighbourResolution p r s
  | .pfcPause p prio on => Sys2Proof.Machine.execPfcPause p prio on s
  | .pfcWatchdog p prio => Sys2Proof.Machine.execPfcWatchdog p prio s
  | .pfcIgnoreExpiry p prio => Sys2Proof.Machine.execPfcIgnoreExpiry p prio s
  | .hsInit peer => Sys2Proof.Machine.execHsInit peer s
  | .hsResp peer => Sys2Proof.Machine.execHsResp peer s
  | .hsFin peer => Sys2Proof.Machine.execHsFin peer s
  | .hsReject peer => Sys2Proof.Machine.execHsReject peer s
  | .hsTokenRefill p => Sys2Proof.Machine.execHsTokenRefill p s
  | .handshakeStart peer => Sys2Proof.Machine.execHandshakeStart peer s
  | .hsInitRetry peer => Sys2Proof.Machine.execHsInitRetry peer s
  | .handshakeCrossRetry peer => Sys2Proof.Machine.execHandshakeCrossRetry peer s
  | .data peer => Sys2Proof.Machine.execData peer s
  | .ack peer => Sys2Proof.Machine.execAck peer s
  | .cnp peer => Sys2Proof.Machine.execCnp peer s
  | .ackTimer peer => Sys2Proof.Machine.execAckTimer peer s
  | .retransmitTimeout peer => Sys2Proof.Machine.execRetransmitTimeout peer s
  | .dataTransmit peer => Sys2Proof.Machine.execDataTransmit peer s
  | .rateEpoch => Sys2Proof.Machine.execRateEpoch s
  | .rekey peer => Sys2Proof.Machine.execRekey peer s
  | .peerDeath peer => Sys2Proof.Machine.execPeerDeath peer s
  | .peerFailedExpiry peer => Sys2Proof.Machine.execPeerFailedExpiry peer s
  | .peerDownExpiry peer => Sys2Proof.Machine.execPeerDownExpiry peer s
  | .contrib core slot => Sys2Proof.Machine.execContrib core slot s
  | .ownerSum core slot => Sys2Proof.Machine.execOwnerSum core slot s
  | .ownerSumStart core => Sys2Proof.Machine.execOwnerSumStart core s
  | .ownerSumVotetExpiry core => Sys2Proof.Machine.execOwnerSumVotetExpiry core s
  | .paramBcast core slot => Sys2Proof.Machine.execParamBcast core slot s
  | .stepVote core slot => Sys2Proof.Machine.execStepVote core slot s
  | .voteReady part => Sys2Proof.Machine.execVoteReady part s
  | .ringPass core slot => Sys2Proof.Machine.execRingPass core slot s
  | .contributionLanding part => Sys2Proof.Machine.execContributionLanding part s
  | .broadcastLanding part => Sys2Proof.Machine.execBroadcastLanding part s
  | .contributionWindowClose part => Sys2Proof.Machine.execContributionWindowClose part s
  | .broadcastWindowClose part => Sys2Proof.Machine.execBroadcastWindowClose part s
  | .voteReceive part => Sys2Proof.Machine.execVoteReceive part s
  | .voteTimeout part => Sys2Proof.Machine.execVoteTimeout part s
  | .decisionReceive part => Sys2Proof.Machine.execDecisionReceive part s
  | .decisionTimeout part => Sys2Proof.Machine.execDecisionTimeout part s
  | .ringLanding part => Sys2Proof.Machine.execRingLanding part s
  | .ringCredit part => Sys2Proof.Machine.execRingCredit part s
  | .collGrpWrite who part v => Sys2Proof.Machine.execCollGrpWrite who part v s
  | .collStateWrite who part v => Sys2Proof.Machine.execCollStateWrite who part v s
  | .refillTick => Sys2Proof.Machine.execRefillTick s
  | .headReservation core slot => Sys2Proof.Machine.execHeadReservation core slot s
  | .powerWindow pin nonCluster => Sys2Proof.Machine.execPowerWindow pin nonCluster s
  | .fastLimiter mean => Sys2Proof.Machine.execFastLimiter mean s
  | .thermalWindow readings => Sys2Proof.Machine.execThermalWindow readings s
  | .clusterGate cluster => Sys2Proof.Machine.execClusterGate cluster s
  | .clusterWake cluster => Sys2Proof.Machine.execClusterWake cluster s
  | .pllOff cluster => Sys2Proof.Machine.execPllOff cluster s
  | .pllLock cluster => Sys2Proof.Machine.execPllLock cluster s
  | .serveStepBoundary part => Sys2Proof.Machine.execServeStepBoundary part s
  | .pwrCapWrite who v => Sys2Proof.Machine.execPwrCapWrite who v s
  | .identify port ring => Sys2Proof.Machine.execIdentify port ring s
  | .getCaps port ring => Sys2Proof.Machine.execGetCaps port ring s
  | .setPowerCap port ring => Sys2Proof.Machine.execSetPowerCap port ring s
  | .grantMgmt port ring => Sys2Proof.Machine.execGrantMgmt port ring s
  | .partCreate port ring => Sys2Proof.Machine.execPartCreate port ring s
  | .partDestroy port ring => Sys2Proof.Machine.execPartDestroy port ring s
  | .partQuery port ring => Sys2Proof.Machine.execPartQuery port ring s
  | .mapPages port ring => Sys2Proof.Machine.execMapPages port ring s
  | .unmap port ring => Sys2Proof.Machine.execUnmap port ring s
  | .faultResolve port ring => Sys2Proof.Machine.execFaultResolve port ring s
  | .loadStreams port ring => Sys2Proof.Machine.execLoadStreams port ring s
  | .launch port ring => Sys2Proof.Machine.execLaunch port ring s
  | .preempt port ring => Sys2Proof.Machine.execPreempt port ring s
  | .resume port ring => Sys2Proof.Machine.execResume port ring s
  | .stepBegin port ring => Sys2Proof.Machine.execStepBegin port ring s
  | .stepStatus port ring => Sys2Proof.Machine.execStepStatus port ring s
  | .peerTableSet port ring => Sys2Proof.Machine.execPeerTableSet port ring s
  | .serveConfig port ring => Sys2Proof.Machine.execServeConfig port ring s
  | .serveBatch port ring => Sys2Proof.Machine.execServeBatch port ring s
  | .testBundleLoad port ring => Sys2Proof.Machine.execTestBundleLoad port ring s
  | .testRun port ring => Sys2Proof.Machine.execTestRun port ring s
  | .testRunIdleStart cluster => Sys2Proof.Machine.execTestRunIdleStart cluster s
  | .faultLogRead port ring => Sys2Proof.Machine.execFaultLogRead port ring s
  | .attestQuote port ring => Sys2Proof.Machine.execAttestQuote port ring s
  | .fwUpdateStage port ring => Sys2Proof.Machine.execFwUpdateStage port ring s
  | .fwActivate port ring => Sys2Proof.Machine.execFwActivate port ring s
  | .powerState port ring => Sys2Proof.Machine.execPowerState port ring s
  | .sqTail port func ring v => Sys2Proof.Machine.execSqTail port func ring v s
  | .cqHead port func ring v => Sys2Proof.Machine.execCqHead port func ring v s
  | .doorbellService port ring => Sys2Proof.Machine.execDoorbellService port ring s
  | .msixMessage port func vec => Sys2Proof.Machine.execMsixMessage port func vec s
  | .reportCopy part => Sys2Proof.Machine.execReportCopy part s
  | .ringEnable who ring v => Sys2Proof.Machine.execRingEnable who ring v s
  | .ringDisable who ring v => Sys2Proof.Machine.execRingDisable who ring v s
  | .perstAssert port => Sys2Proof.Machine.execPerstAssert port s
  | .mgmtRoleQualify => Sys2Proof.Machine.execMgmtRoleQualify s
  | .perstRelease port => Sys2Proof.Machine.execPerstRelease port s
  | .hotReset port => Sys2Proof.Machine.execHotReset port s
  | .pcieLinkDown port => Sys2Proof.Machine.execPcieLinkDown port s
  | .pfFlr port => Sys2Proof.Machine.execPfFlr port s
  | .vfFlr port func => Sys2Proof.Machine.execVfFlr port func s
  | .vfEnableChange port enable numVfs => Sys2Proof.Machine.execVfEnableChange port enable numVfs s
  | .d3hotEntry port => Sys2Proof.Machine.execD3hotEntry port s
  | .d0Return port => Sys2Proof.Machine.execD0Return port s
  | .completionError port pa len kind => Sys2Proof.Machine.execCompletionError port pa len kind s
  | .completionTimeout port pa len => Sys2Proof.Machine.execCompletionTimeout port pa len s
  | .atsInvalidate port func part va len => Sys2Proof.Machine.execAtsInvalidate port func part va len s
  | .vectorUnmask port func vec => Sys2Proof.Machine.execVectorUnmask port func vec s
  | .coreLoss core => Sys2Proof.Machine.execCoreLoss core s
  | .heartbeatMiss core => Sys2Proof.Machine.execHeartbeatMiss core s
  | .routeUpdateEnd => Sys2Proof.Machine.execRouteUpdateEnd s
  | .relaunch part => Sys2Proof.Machine.execRelaunch part s
  | .dispatchCoreLoss k => Sys2Proof.Machine.execDispatchCoreLoss k s
  | .lateRevokedWrite pa data => Sys2Proof.Machine.execLateRevokedWrite pa data s
  | .unitRetest unit fails => Sys2Proof.Machine.execUnitRetest unit fails s
  | .routerStall core => Sys2Proof.Machine.execRouterStall core s
  | .scrubComplete cluster => Sys2Proof.Machine.execScrubComplete cluster s
  | .pendingFrameZeroed frame => Sys2Proof.Machine.execPendingFrameZeroed frame s
  | .faultRecordCommit => Sys2Proof.Machine.execFaultRecordCommit s
  | .vsbRise => Sys2Proof.Machine.execVsbRise s
  | .powerUpStart => Sys2Proof.Machine.execPowerUpStart s
  | .startUpTimeout => Sys2Proof.Machine.execStartUpTimeout s
  | .vsbLoss => Sys2Proof.Machine.execVsbLoss s
  | .devResetN => Sys2Proof.Machine.execDevResetN s
  | .refclkSysLoss => Sys2Proof.Machine.execRefclkSysLoss s
  | .sagWarning => Sys2Proof.Machine.execSagWarning s
  | .shedEnd => Sys2Proof.Machine.execShedEnd s
  | .saveStart => Sys2Proof.Machine.execSaveStart s
  | .saveComplete => Sys2Proof.Machine.execSaveComplete s
  | .safeHoldRecovery => Sys2Proof.Machine.execSafeHoldRecovery s
  | .safeHoldCollapse => Sys2Proof.Machine.execSafeHoldCollapse s
  | .sagInN => Sys2Proof.Machine.execSagInN s
  | .sagInNHeld => Sys2Proof.Machine.execSagInNHeld s
  | .thermInN => Sys2Proof.Machine.execThermInN s
  | .inputRearm input => Sys2Proof.Machine.execInputRearm input s
  | .thermalShutdown => Sys2Proof.Machine.execThermalShutdown s
  | .smbDevstate => Sys2Proof.Machine.execSmbDevstate s
  | .smbHottestReading => Sys2Proof.Machine.execSmbHottestReading s
  | .smbInputPower => Sys2Proof.Machine.execSmbInputPower s
  | .smbVin => Sys2Proof.Machine.execSmbVin s
  | .smbSaveStatus => Sys2Proof.Machine.execSmbSaveStatus s
  | .smbBootStatus => Sys2Proof.Machine.execSmbBootStatus s
  | .alertResponseAddress => Sys2Proof.Machine.execAlertResponseAddress s
  | .idcode => Sys2Proof.Machine.execIdcode s
  | .samplePreload => Sys2Proof.Machine.execSamplePreload s
  | .extest => Sys2Proof.Machine.execExtest s
  | .clamp => Sys2Proof.Machine.execClamp s
  | .highz => Sys2Proof.Machine.execHighz s
  | .challenge => Sys2Proof.Machine.execChallenge s
  | .unlock token => Sys2Proof.Machine.execUnlock token s
  | .dbgAccess => Sys2Proof.Machine.execDbgAccess s
  | .bypass => Sys2Proof.Machine.execBypass s
  | .hbmShareWindow => Sys2Proof.Machine.execHbmShareWindow s
  | .refclkSysReturn => Sys2Proof.Machine.execRefclkSysReturn s
  | .faultNHoldExpiry => Sys2Proof.Machine.execFaultNHoldExpiry s
  | .loadStreamsComplete port ring => Sys2Proof.Machine.execLoadStreamsComplete port ring s
  | .testRunComplete port ring => Sys2Proof.Machine.execTestRunComplete port ring s
  | .stageVerificationComplete port ring => Sys2Proof.Machine.execStageVerificationComplete port ring s
  | .boardInputGlitch input => Sys2Proof.Machine.execBoardInputGlitch input s
  | .reservedCommand core slot => Sys2Proof.Machine.execReservedCommand core slot s
  | .pcieLinkUp port speed width => Sys2Proof.Machine.execPcieLinkUp port speed width s
  | .smbusUnlistedCommand code => Sys2Proof.Machine.execSmbusUnlistedCommand code s

end Sys2Proof.Machine
end

