-- ==== Sys2Proof/Machine/Tick.lean ====
section
/-! DEFINITION. One tick of local time on an empty queue (log 1): the local-time counter and the cycle counters of the cores. -/

namespace Sys2Proof.Machine

/-- Core cycles in one 6.4 ns tick of local time (156.25 MHz) at the clock steps 1.1, 0.95, 0.8 and 0.6 GHz, in 25ths of a cycle (R306). -/
def tickCycles (step : Nat) : Nat := match step with | 0 => 176 | 1 => 152 | 2 => 128 | _ => 96

/-- Cycle counters of one resident context over `n` 25ths of a cycle: total, waiting for a token, held for budget (Table 1.3). -/
def Ctx.tick (n : Nat) (c : Ctx) : Ctx :=
  if c.st.live then
    { c with
      totCyc := c.totCyc + n
      tokCyc := if c.cause = 1 then c.tokCyc + n else c.tokCyc
      budCyc := if c.cause = 4 then c.budCyc + n else c.budCyc }
  else c

/-- Whether a resident context's head is held for budget (R308). -/
def Core.budgetHeld (k : Core) : Bool := k.slots.any fun x => x.2.st.live && x.2.cause == 4

/-- Whether every resident job context is ready: its head could issue (R23, R30). -/
def Core.allReady (k : Core) : Bool :=
  (List.range 7).all fun n => !(k.slot n).st.live || ((k.slot n).st == .ready && (k.slot n).cause == 0)

/-- The ready-cycle counts of the runnable swapped-out contexts after `n` 25ths of a cycle (R30). -/
def Core.tickReady (n : Nat) (k : Core) : Tab Nat :=
  if k.allReady then
    k.images.foldl (fun t x => if x.2.runAt = 0 then t else Tab.put t x.1 (Tab.get 0 t x.1 + n)) k.readyCnt
  else k.readyCnt

/-- Whether a core gates its clock: some head is held for budget and none is ready (R308). -/
def Core.sleeps (k : Core) : Bool :=
  k.budgetHeld && !k.slots.any fun x => x.2.st == .ready && x.2.cause == 0

/-- One tick of a core whose cluster's clock runs. A swapped-out context's cycles since launch count on (R175). A core that sleeps for the
budget has no clock of its own, while cycles go on in its cluster (DESIGN CHOICE, log 199). -/
def Core.tick (n : Nat) (k : Core) : Core :=
  { k with
    cycles := if k.asleep then k.cycles else k.cycles + n
    asleep := k.asleep || k.sleeps
    clk := k.clk + n
    readyCnt := k.tickReady n
    slots := k.slots.map fun y => (y.1, y.2.tick n)
    images := k.images.map fun y => (y.1, { y.2 with totCyc := y.2.totCyc + n }) }

/-- One tick of a cluster whose clock runs: its cores, each asked first why its heads do not issue, its window counts (R311) and HOLDCYC of
its partition, in 25ths of a cycle (Table 11.14). -/
def State.tickCluster (s : State) (cl : Nat) : State :=
  let c := s.cluster cl
  let n := if c.stretch then tickCycles 3 else tickCycles c.step
  let ks := (clusterCores cl).map fun x => (x, s.ask x)
  let held := n * (ks.filter fun x => x.2.budgetHeld).length
  let s1 := ks.foldl (fun s x => s.setCore x.1 (x.2.tick n)) s
  let s2 := s1.setCluster cl { c.newCycle with ranCyc := c.ranCyc + 16 * n, heldCyc := c.heldCyc + held }
  match c.owner with
  | some p => if held = 0 then s2 else s2.mapPart p fun pt => { pt with holdcyc := pt.holdcyc + held }
  | none => s2

/-- Ticks of local time in one second of powered-on time (R380). -/
def ticksPerSecond : Nat := 156250000

/-- One tick: local time advances from the power-up phase on, powered-on time with it, and every cluster whose clock runs. -/
def State.tick (s : State) : State :=
  if s.pwr.devState < 2 ∨ 4 < s.pwr.devState then s
  else
    let t := s.ltime + 1
    let s1 := { s with ltime := t, flt := { s.flt with pons := if t % ticksPerSecond = 0 ∧ s.powered then s.flt.pons + 1 else s.flt.pons } }
    s1.clusters.foldl (fun s x => if s.clusterRuns x.1 then s.tickCluster x.1 else s) s1

end Sys2Proof.Machine
end

