-- ==== Sys2Proof/Machine/Step.lean ====
section
/-! DEFINITION. One step of the block: it takes the command at the front of its queue. -/

namespace Sys2Proof.Machine

/-- What time does on an empty queue: one step of the power-up phase while that runs, else one tick of local time (log 1, log 213). -/
def State.idle (s : State) : State := if s.rising then s.powerStep else s.tick

/-- Take the command at the front of the queue and run it on the state with the queue's rest; on an empty queue time passes (log 1). -/
def step (s : State) : Host.Outcome State Fault Refusal :=
  match s.pending with
  | [] => .next s.idle
  | c :: rest => exec c { s with pending := rest }

/-- Put the command that a table word spells at the front of the queue. -/
def State.withFetchWord (s : State) (nbits w : Nat) : State :=
  match decodeTableWord nbits w with
  | none => s
  | some c => { s with pending := c :: s.pending }

end Sys2Proof.Machine
end

