-- ==== Sys2Proof/WellFormed.lean ====
section
/-! DEFINITION. Which commands name units that exist: every operand in the range that the manual gives it. -/

namespace Sys2Proof

/-- A run of at most 4,096 bytes of the window of the host behind a port (Table 7.3). -/
def hostRun (port pa len : Nat) : Bool :=
  0 < len && len ≤ 4096 && 0x100000000000 * (port + 1) ≤ pa && pa + len ≤ 0x100000000000 * (port + 2)

/-- An address of HBM, its check region or the attic window (Table 7.3). -/
def deviceLine (pa : Nat) : Bool := pa < 0x8000000000 || (0x40000000000 ≤ pa && pa < 0x100000000000)

/-- An address that an engine can write: HBM, scratch, the attic window or host memory (Table 7.3). -/
def writable (pa : Nat) : Bool :=
  pa < 0x7FC0000000 || (0x8000000000 ≤ pa && pa < 0x8300000000 && (pa - 0x8000000000) % 2 ^ 32 < 0x80000000) ||
    (0x40000000000 ≤ pa && pa < 0x300000000000)

/-- A register's place: within the control window of a core, or an aligned offset of BAR0 for a host (R436, R437). -/
def regOk (who : Who) (r : RegAddr) : Bool :=
  match r, who with
  | .win core off, _ => core < 2048 && 0xC0000 ≤ off && off < 0x100000
  | .bar0 off _ _, .host port func => port < 2 && func < 16 && off < 0x4000000 && off % 8 == 0
  | .bar0 _ _ _, _ => true

/-- A command is well formed when every unit that it names exists. -/
def Instr.wf (c : Instr) : Bool :=
  match c with
  | .wcmdPush core slot _ => core < 2048 && slot < 8
  | .tokWait core slot _ => core < 2048 && slot < 8
  | .tokSignal core slot _ => core < 2048 && slot < 8
  | .tokRead core slot _ => core < 2048 && slot < 8
  | .ctrRead core slot _ => core < 2048 && slot < 8
  | .ctxYield core slot _ => core < 2048 && slot < 8
  | .seqCtlReadPointer core slot _ => core < 2048 && slot < 8
  | .seqCtlSetPointer core slot _ => core < 2048 && slot < 8
  | .seqCtlPause core slot _ => core < 2048 && slot < 8
  | .seqCtlResume core slot _ => core < 2048 && slot < 8
  | .ctxCtlStart core slot _ => core < 2048 && slot < 8
  | .ctxCtlStop core slot _ => core < 2048 && slot < 8
  | .ctxCtlSwapOut core slot _ => core < 2048 && slot < 8
  | .ctxCtlSwapIn core slot _ => core < 2048 && slot < 8
  | .tokRemote core slot _ => core < 2048 && slot < 8
  | .controlCoreAccess core slot _ => core < 2048 && slot < 8
  | .controlCoreInstruction core slot _ => core < 2048 && slot < 8
  | .nop core slot => core < 2048 && slot < 8
  | .wait core slot => core < 2048 && slot < 8
  | .waitTimeout core lctx => core < 2048 && lctx < 17
  | .signal core slot => core < 2048 && slot < 8
  | .fence core slot => core < 2048 && slot < 8
  | .loop core slot => core < 2048 && slot < 8
  | .endloop core slot => core < 2048 && slot < 8
  | .jump core slot => core < 2048 && slot < 8
  | .call core slot => core < 2048 && slot < 8
  | .yield core slot => core < 2048 && slot < 8
  | .halt core slot => core < 2048 && slot < 8
  | .commandFetch core slot => core < 2048 && slot < 8
  | .swapOnBlock core => core < 2048
  | .swapQuantumExpiry core lctx => core < 2048 && lctx < 16
  | .freeSlotAdmission core => core < 2048
  | .swapImageWrite core => core < 2048
  | .swapEnd core => core < 2048
  | .serviceContextOverdue core => core < 2048
  | .remoteSignalArrival core => core < 2048
  | .toksigLWrite _ core l _ => core < 2048 && l < 16
  | .ctxCtrlStart _ core slot _ => core < 2048 && slot < 8
  | .ctxCtrlStop _ core slot _ => core < 2048 && slot < 8
  | .ctxCmdptrWrite _ core slot _ => core < 2048 && slot < 8
  | .registerWrite who r _ => regOk who r
  | .rcRegisterRead who r => regOk who r
  | .mm core slot => core < 2048 && slot < 8
  | .mmWide core slot => core < 2048 && slot < 8
  | .mmSemi core slot => core < 2048 && slot < 8
  | .mmDist core slot => core < 2048 && slot < 8
  | .mmCmp core slot => core < 2048 && slot < 8
  | .mmF32x3 core slot => core < 2048 && slot < 8
  | .loadW core slot => core < 2048 && slot < 8
  | .drainAcc core slot => core < 2048 && slot < 8
  | .passComplete core => core < 2048
  | .drainComplete core => core < 2048
  | .accSlotSpill core slot => core < 2048 && slot < 8
  | .accSlotReload core slot => core < 2048 && slot < 8
  | .arrayFault core array _ => core < 2048 && array < 4
  | .rowTestComplete core array row => core < 2048 && array < 4 && (row.all fun r => r < 33)
  | .arrRepairWrite _ core array _ => core < 2048 && array < 4
  | .vop core slot => core < 2048 && slot < 8
  | .vfunc core slot => core < 2048 && slot < 8
  | .vderiv core slot => core < 2048 && slot < 8
  | .vreduce core slot => core < 2048 && slot < 8
  | .vnormBwd core slot => core < 2048 && slot < 8
  | .vsoftmaxBwd core slot => core < 2048 && slot < 8
  | .vcompress1 core slot => core < 2048 && slot < 8
  | .vdecompSum core slot => core < 2048 && slot < 8
  | .vrand core slot => core < 2048 && slot < 8
  | .vconvert core slot => core < 2048 && slot < 8
  | .vdigest core slot => core < 2048 && slot < 8
  | .segmentStart core => core < 2048
  | .laneFault core => core < 2048
  | .vectorSuspend core => core < 2048
  | .vectorResume core slot => core < 2048 && slot < 8
  | .guestGrant core bank => core < 2048 && bank < 6
  | .setAliasStore core slot _ => core < 2048 && slot < 8
  | .setAliasLoad core slot _ => core < 2048 && slot < 8
  | .clearAliasStore core slot _ => core < 2048 && slot < 8
  | .clearAliasLoad core slot _ => core < 2048 && slot < 8
  | .bankTargetOn _ core bank => core < 2048 && bank < 6
  | .bankTargetRetention _ core bank => core < 2048 && bank < 6
  | .bankTargetOff _ core bank => core < 2048 && bank < 6
  | .bankIdleRetention core bank => core < 2048 && bank < 6
  | .bankRetentionEntry core bank => core < 2048 && bank < 6
  | .bankOffEntry core bank => core < 2048 && bank < 6
  | .bankWakeElapsed core bank => core < 2048 && bank < 6
  | .remoteRequest core => core < 2048
  | .remoteResponse core => core < 2048
  | .circCfgWrite _ core k _ => core < 2048 && k < 4
  | .circHeadWrite _ core k _ => core < 2048 && k < 4
  | .bbWrite _ core slot pair _ _ => core < 2048 && slot < 8 && pair < 4
  | .arm core slot => core < 2048 && slot < 8
  | .streamIn core slot => core < 2048 && slot < 8
  | .streamOut core slot => core < 2048 && slot < 8
  | .transposeIn core slot => core < 2048 && slot < 8
  | .swapHalves core slot => core < 2048 && slot < 8
  | .copyRemote core slot => core < 2048 && slot < 8
  | .chainW core slot => core < 2048 && slot < 8
  | .transferComplete core n => core < 2048 && n < 16
  | .transferFailure core n => core < 2048 && n < 16
  | .transferSuspend core n => core < 2048 && n < 16
  | .prefetch core slot => core < 2048 && slot < 8
  | .chainLineArrival core => core < 2048
  | .slotAssign _ core n lctx => core < 2048 && n < 16 && lctx < 16
  | .slotUnassign _ core n => core < 2048 && n < 16
  | .chainCfgWrite _ core _ => core < 2048
  | .pushCkpt core slot => core < 2048 && slot < 8
  | .popCkpt core slot => core < 2048 && slot < 8
  | .peekCkpt core slot => core < 2048 && slot < 8
  | .replayBegin core slot => core < 2048 && slot < 8
  | .replayEnd core slot => core < 2048 && slot < 8
  | .spillAhead core => core < 2048
  | .recordSpillComplete core => core < 2048
  | .fetchBack core => core < 2048
  | .fetchBackComplete core => core < 2048
  | .larderCfgWrite _ core _ _ => core < 2048
  | .pageWalk die part va => die < 4 && part < 64 && va < 2 ^ 48
  | .migrationComplete part _ => part < 64
  | .pseudoChannelLoss stack pc => stack < 8 && pc < 64
  | .uncorrectableError pa _ => deviceLine pa
  | .scratchUncorrectable core off _ => core < 2048 && off < 0xC0000
  | .patrolScrub stack => stack < 8
  | .bar2Read port func off len => port < 2 && (func < 16) && (0 < len && len ≤ 4096 && off + len ≤ 2 ^ 39)
  | .bar2Write port func off bs _ => port < 2 && (func < 16) && (0 < bs.length && bs.length ≤ 4096 && off + bs.length ≤ 2 ^ 39)
  | .updateBlocks core slot => core < 2048 && slot < 8
  | .gradMerge core slot => core < 2048 && slot < 8
  | .commitShadow core slot => core < 2048 && slot < 8
  | .discardShadow core slot => core < 2048 && slot < 8
  | .updateAccept part => part < 64
  | .runComplete part => part < 64
  | .updateEngineFault part => part < 64
  | .shadowCommit part => part < 64
  | .shadowDiscard part => part < 64
  | .portUp p => p < 64
  | .alignmentLoss lane => lane < 64
  | .fecWindowEnd p _ _ => p < 64
  | .linkRemoteFault p => p < 64
  | .linkRetry p => p < 64
  | .quadConfigWrite _ q _ => q < 16
  | .frameReceive f => f.port < 64
  | .neighbourResolution p _ => p < 64
  | .pfcPause p prio _ => p < 64 && prio < 8
  | .pfcWatchdog p prio => p < 64 && prio < 8
  | .pfcIgnoreExpiry p prio => p < 64 && prio < 8
  | .hsInit peer => peer < 4096
  | .hsResp peer => peer < 4096
  | .hsFin peer => peer < 4096
  | .hsReject peer => peer < 4096
  | .hsTokenRefill p => p < 64
  | .handshakeStart peer => peer < 4096
  | .hsInitRetry peer => peer < 4096
  | .handshakeCrossRetry peer => peer < 4096
  | .data peer => peer < 4096
  | .ack peer => peer < 4096
  | .cnp peer => peer < 4096
  | .ackTimer peer => peer < 4096
  | .retransmitTimeout peer => peer < 4096
  | .dataTransmit peer => peer < 4096
  | .rateEpoch => true
  | .rekey peer => peer < 4096
  | .peerDeath peer => peer < 4096
  | .peerFailedExpiry peer => peer < 4096
  | .peerDownExpiry peer => peer < 4096
  | .contrib core slot => core < 2048 && slot < 8
  | .ownerSum core slot => core < 2048 && slot < 8
  | .ownerSumStart core => core < 2048
  | .ownerSumVotetExpiry core => core < 2048
  | .paramBcast core slot => core < 2048 && slot < 8
  | .stepVote core slot => core < 2048 && slot < 8
  | .voteReady part => part < 64
  | .ringPass core slot => core < 2048 && slot < 8
  | .contributionLanding part => part < 64
  | .broadcastLanding part => part < 64
  | .contributionWindowClose part => part < 64
  | .broadcastWindowClose part => part < 64
  | .voteReceive part => part < 64
  | .voteTimeout part => part < 64
  | .decisionReceive part => part < 64
  | .decisionTimeout part => part < 64
  | .ringLanding part => part < 64
  | .ringCredit part => part < 64
  | .collGrpWrite _ part _ => part < 64
  | .collStateWrite _ part _ => part < 64
  | .refillTick => true
  | .headReservation core slot => core < 2048 && slot < 8
  | .powerWindow _ _ => true
  | .fastLimiter _ => true
  | .thermalWindow readings => (readings.all fun x => x.1 < 512)
  | .clusterGate cluster => cluster < 128
  | .clusterWake cluster => cluster < 128
  | .pllOff cluster => cluster < 128
  | .pllLock cluster => cluster < 128
  | .serveStepBoundary part => part < 64
  | .pwrCapWrite _ _ => true
  | .identify port ring => port < 2 && ring < 256
  | .getCaps port ring => port < 2 && ring < 256
  | .setPowerCap port ring => port < 2 && ring < 256
  | .grantMgmt port ring => port < 2 && ring < 256
  | .partCreate port ring => port < 2 && ring < 256
  | .partDestroy port ring => port < 2 && ring < 256
  | .partQuery port ring => port < 2 && ring < 256
  | .mapPages port ring => port < 2 && ring < 256
  | .unmap port ring => port < 2 && ring < 256
  | .faultResolve port ring => port < 2 && ring < 256
  | .loadStreams port ring => port < 2 && ring < 256
  | .launch port ring => port < 2 && ring < 256
  | .preempt port ring => port < 2 && ring < 256
  | .resume port ring => port < 2 && ring < 256
  | .stepBegin port ring => port < 2 && ring < 256
  | .stepStatus port ring => port < 2 && ring < 256
  | .peerTableSet port ring => port < 2 && ring < 256
  | .serveConfig port ring => port < 2 && ring < 256
  | .serveBatch port ring => port < 2 && ring < 256
  | .testBundleLoad port ring => port < 2 && ring < 256
  | .testRun port ring => port < 2 && ring < 256
  | .testRunIdleStart cluster => cluster < 128
  | .faultLogRead port ring => port < 2 && ring < 256
  | .attestQuote port ring => port < 2 && ring < 256
  | .fwUpdateStage port ring => port < 2 && ring < 256
  | .fwActivate port ring => port < 2 && ring < 256
  | .powerState port ring => port < 2 && ring < 256
  | .sqTail port func ring _ => port < 2 && (func < 16) && ring < 256
  | .cqHead port func ring _ => port < 2 && (func < 16) && ring < 256
  | .doorbellService port ring => port < 2 && ring < 256
  | .msixMessage port func vec => port < 2 && (func < 16) && vec < 64
  | .reportCopy part => part < 64
  | .ringEnable _ ring _ => ring < 256
  | .ringDisable _ ring _ => ring < 256
  | .perstAssert port => port < 2
  | .mgmtRoleQualify => true
  | .perstRelease port => port < 2
  | .hotReset port => port < 2
  | .pcieLinkDown port => port < 2
  | .pfFlr port => port < 2
  | .vfFlr port func => port < 2 && (0 < func && func < 16)
  | .vfEnableChange port _ numVfs => port < 2 && numVfs < 16
  | .d3hotEntry port => port < 2
  | .d0Return port => port < 2
  | .completionError port pa len _ => port < 2 && hostRun port pa len
  | .completionTimeout port pa len => port < 2 && hostRun port pa len
  | .atsInvalidate port func _ _ _ => port < 2 && (func < 16)
  | .vectorUnmask port func vec => port < 2 && (func < 16) && vec < 64
  | .coreLoss core => core < 2048
  | .heartbeatMiss core => core < 2048
  | .routeUpdateEnd => true
  | .relaunch part => part < 64
  | .dispatchCoreLoss k => k < 8
  | .lateRevokedWrite pa _ => writable pa
  | .unitRetest unit fails => unit / 2 ^ 24 < 6 && fails < 4
  | .routerStall core => core < 2048
  | .scrubComplete cluster => cluster < 128
  | .pendingFrameZeroed _ => true
  | .faultRecordCommit => true
  | .vsbRise => true
  | .powerUpStart => true
  | .startUpTimeout => true
  | .vsbLoss => true
  | .devResetN => true
  | .refclkSysLoss => true
  | .sagWarning => true
  | .shedEnd => true
  | .saveStart => true
  | .saveComplete => true
  | .safeHoldRecovery => true
  | .safeHoldCollapse => true
  | .sagInN => true
  | .sagInNHeld => true
  | .thermInN => true
  | .inputRearm _ => true
  | .thermalShutdown => true
  | .smbDevstate => true
  | .smbHottestReading => true
  | .smbInputPower => true
  | .smbVin => true
  | .smbSaveStatus => true
  | .smbBootStatus => true
  | .alertResponseAddress => true
  | .idcode => true
  | .samplePreload => true
  | .extest => true
  | .clamp => true
  | .highz => true
  | .challenge => true
  | .unlock token => token.length == 5341
  | .dbgAccess => true
  | .bypass => true
  | .hbmShareWindow => true
  | .refclkSysReturn => true
  | .faultNHoldExpiry => true
  | .loadStreamsComplete port ring => port < 2 && ring < 256
  | .testRunComplete port ring => port < 2 && ring < 256
  | .stageVerificationComplete port ring => port < 2 && ring < 256
  | .boardInputGlitch _ => true
  | .reservedCommand core slot => core < 2048 && slot < 8
  | .pcieLinkUp port speed width => port < 2 && (1 ≤ speed && speed ≤ 5) && ([1, 2, 4, 8, 16] : List Nat).contains width
  | .smbusUnlistedCommand code => ((code == 0 || 7 ≤ code) && code < 256)

end Sys2Proof
end

