-- ==== Sys2Proof/Safety.lean ====
section
/-! DEFINITION. What counts as a safe state and a safe run of the block, in the terms that claims use. -/

namespace Sys2Proof

open Sys2Proof.Machine

/-- Every command that waits names units that exist. -/
def queueOk (s : State) : Bool := s.pending.all Instr.wf

/-- The memory invariant: the cell list is in its canonical form. -/
abbrev memOk (s : State) : Prop := Memory.wf s.mem = true

/-- A safe state: canonical memory, and a queue of well-formed commands. -/
abbrev safe (s : State) : Prop := memOk s ∧ queueOk s = true

/-- A run: `n` steps that all answer a next state. -/
def runs : Nat → State → State → Prop
  | 0, s, t => s = t
  | n + 1, s, t => ∃ u, Machine.step s = .next u ∧ runs n u t

/-- The units that a command names exist: its operands are in range, and an address names memory that is there (R207). -/
def known (s : State) (c : Instr) : Bool :=
  match c with
  | .rcRegisterRead (.host port func) (.bar0 off len _) => port < 2 && func < 16 && len ≠ 0 && len ≤ 4096 && off + len ≤ 0x4000000
  | .bar2Read port func off len => port < 2 && func < 16 && len ≠ 0 && len ≤ 4096 && off + len ≤ s.bar2Size port func
  | .bar2Write port func off bs _ => port < 2 && func < 16 && bs ≠ [] && bs.length ≤ 4096 && off + bs.length ≤ s.bar2Size port func
  | .pageWalk die part va => die < 4 && part < 64 && va < (s.part part).vaLimit
  | .uncorrectableError pa _ => match s.region pa with | .hbm | .check | .attic => true | _ => false
  | .lateRevokedWrite pa _ => match s.region pa with | .hbm | .attic | .scratch _ _ _ | .host _ => true | _ => false
  | c => c.wf

/-- Commands and events of the device around the cores: links, clocks, ports, pins, the SMBus and the debug port. -/
def deviceOnly (c : Instr) : Bool :=
  match c with
  | .pageWalk _ _ _ | .pseudoChannelLoss _ _ | .patrolScrub _ | .updateEngineFault _ | .portUp _ | .linkRetry _
  | .neighbourResolution _ _ | .pfcPause _ _ _ | .pfcWatchdog _ _ | .pfcIgnoreExpiry _ _ | .hsTokenRefill _ | .rateEpoch
  | .peerFailedExpiry _ | .peerDownExpiry _ | .collStateWrite _ _ _ | .clusterGate _ | .clusterWake _ | .pllOff _
  | .pllLock _ | .mgmtRoleQualify | .d3hotEntry _ | .d0Return _ | .atsInvalidate _ _ _ _ _ | .faultRecordCommit
  | .thermInN | .smbDevstate | .smbHottestReading | .smbInputPower | .smbVin | .smbSaveStatus | .smbBootStatus | .alertResponseAddress
  | .idcode | .samplePreload | .extest | .clamp | .highz | .challenge | .dbgAccess | .bypass | .hbmShareWindow | .faultNHoldExpiry
  | .boardInputGlitch _ | .pcieLinkUp _ _ _ | .smbusUnlistedCommand _ => true
  | _ => false

/-- Progress of the clusters and of memory: the engines, banks, mesh, swaps, streams, larder, walks, updates, scrubs, landings and waits
that a shed holds where they stand, as does a device that does not run (R422). -/
def heldByHalt (c : Instr) : Bool :=
  match c with
  | .waitTimeout _ _ | .swapOnBlock _ | .swapQuantumExpiry _ _ | .freeSlotAdmission _ | .swapImageWrite _ | .swapEnd _
  | .serviceContextOverdue _ | .remoteSignalArrival _ | .passComplete _ | .drainComplete _ | .arrayFault _ _ _
  | .rowTestComplete _ _ _ | .segmentStart _ | .laneFault _ | .vectorSuspend _ | .vectorResume _ _ | .bankIdleRetention _ _
  | .bankRetentionEntry _ _ | .bankOffEntry _ _ | .bankWakeElapsed _ _ | .guestGrant _ _ | .remoteRequest _ | .remoteResponse _
  | .chainLineArrival _ | .pageWalk _ _ _ | .migrationComplete _ _ | .patrolScrub _ | .updateAccept _ | .runComplete _
  | .updateEngineFault _ | .shadowCommit _ | .shadowDiscard _ | .heartbeatMiss _ | .scrubComplete _ | .headReservation _ _
  | .serveStepBoundary _ | .contributionLanding _ | .broadcastLanding _ | .ringLanding _ | .reportCopy _ | .loadStreamsComplete _ _
  | .testRunComplete _ _ | .voteReady _ | .pendingFrameZeroed _ | .transferComplete _ _ | .transferSuspend _ _
  | .transferFailure _ _ | .prefetch _ _ | .spillAhead _ | .recordSpillComplete _ | .fetchBack _ | .fetchBackComplete _
  | .commandFetch _ _ => true
  | _ => false

/-! The conditions in which a work command issues, said once for the claims. -/

/-- The command of opcode `op` stands at the head of context slot `n` of a core, may issue, and is `h` (R23, R35, R38, R306). -/
abbrev heads (s : State) (core n op : Nat) (h : Head) : Prop := 
  core < 2048 ∧ n < 8 ∧ gate s core n op = .go h ∧ chosen s core n = true

/-- The account of the cluster covered the charge of a command at the start of the cycle: its natural energy class and its cycles (R306, R308). -/
abbrev affords (s : State) (h : Head) (natural cycles : Nat) : Prop :=
  s.fits h.core (classRate (classOf h.ctx h.w natural)) cycles = true

/-- The state in which a command has issued: its waits are consumed, it has left its buffer, and its charge is taken (R25, R35,
R306). -/
def issued (s : State) (h : Head) (natural cycles : Nat) : State := s.issue h (classRate (classOf h.ctx h.w natural)) cycles

/-- The position behind a head carries no status, so that issuing the head ends nothing (R38, Table 7.8). -/
abbrev quiet (h : Head) : Prop := h.ctx.inj = [] ∧ ∀ f ∈ h.ctx.buf.tail.head?, f.bad = none

/-- A pass whose issue checks have passed can start: its banks are on, the arrays take another pass, and its accumulator slots can be
used (R55, R60, R74, R129). -/
abbrev passReady (s : State) (h : Head) (pl : PassPlan) : Prop :=
  (s.core h.core).bankIsOn pl.aOff pl.aLen = true ∧ (s.core h.core).bankIsOn pl.wOff pl.wLen = true ∧
    (s.core h.core).passes.length < 2 ∧ (s.core h.core).restart = [] ∧ slotsReady (s.core h.core) h.ctx.lctx pl.slots pl.zero = true

/-- A core of which a pass has claimed its accumulator slots (R54, R69). -/
def claimed (k : Core) (h : Head) (pl : PassPlan) : Core :=
  let x := (k.claim h pl.acc pl.kind pl.zero).1
  if pl.arg then (x.claim h (pl.acc + 1) 6 pl.zero).1 else x

/-- The state in which a matrix command has issued and its pass `p` is in flight: its slots are claimed, and a preload register of its
context is empty (R49, R54, R64). -/
def passStarted (s : State) (h : Head) (pl : PassPlan) (p : Pass) : State :=
  ((issued s h pl.cls pl.cycles).leave h .matrix).2.mapCore h.core fun k =>
    { claimed k h pl with
      passes := (claimed k h pl).passes ++ [p]
      pre := if (k.pre.filter fun q => q.lctx == h.ctx.lctx).isSome then none else (claimed k h pl).pre }

/-- A vector command whose issue checks have passed can start: its banks are on, and the engine is idle and holds none of its context
(R87, R129). -/
abbrev vectorReady (s : State) (h : Head) (pl : VPlan) : Prop :=
  (pl.exts.any fun x => (s.core h.core).bankIsOff x.1 x.2) = false ∧
    (pl.exts.all fun x => (s.core h.core).bankIsOn x.1 x.2) = true ∧ (s.core h.core).vecReady h.ctx = true

/-- The run of a vector command at its first segment, numbered `id`. -/
def firstRun (s : State) (h : Head) (pl : VPlan) (id : Nat) : VecRun :=
  ⟨id, h.slot, h.ctx.lctx, h.w, pl.ops, 0, pl.acc,
    opcodeOf h.w == 0x60 && cf h.w 28 24 == 0x1F && s.anyPoison (scrPa h.core (pl.ops.getD 3 0)) 64, pl.exts⟩

/-- The state in which a vector command has issued and its first segment has run (R85, R309). -/
def vectorStarted (s : State) (h : Head) (pl : VPlan) : State :=
  let u := (issued s h pl.cls (vTerm h.w pl.ops pl.acc 0)).leave h .vector
  (u.2.vStep h.core (firstRun (issued s h pl.cls (vTerm h.w pl.ops pl.acc 0)) h pl u.1)).settle h.core h.slot

/-- A pass in flight without the slots it merges into: its number, its context, its command and the window offsets of its operands. -/
def passLine (p : Pass) : Nat × Nat × Cmd × Nat × Nat := (p.id, p.lctx, p.cmd, p.aAddr, p.wAddr)

/-! The conditions in which the control core runs an instruction of a context. -/

/-- The context of slot `slot` runs the instruction `w` on the control core: it stands at the program counter, is `len` bytes long
and reads as `op` (R15, R18). -/
abbrev executes (s : State) (core slot : Nat) (w : BitVec 32) (len : Nat) (op : RvOp) : Prop :=
  core < 2048 ∧ slot < 8 ∧ s.ccFetch core slot = .word w.toNat len ∧ rvDecode w.toNat = op

/-- The state in which a context has the control core. -/
def turn (s : State) (core slot : Nat) : State := s.mapCore core fun k => { k with ccRun := some slot }

/-! Who may reach and write the control window of a core. -/

/-- A writer reaches the control window of a core: it is a running context of the core's partition, context 7 or the partition's
dispatch path (R138). -/
abbrev reaches (s : State) (who : Who) (core : Nat) : Prop :=
  core < 2048 ∧ s.present? who = true ∧ s.outside who core = false

/-- A writer that reaches a core and may write what context 7 and the dispatch path may (R47, R145, R178, R202). -/
abbrev governs (s : State) (who : Who) (core : Nat) : Prop := reaches s who core ∧ s.mayWrite who core = true

/-! When a packet takes effect. -/

/-- The packet `k` of opcode `op` is the oldest that the ring has taken, it waits for nothing, and its common checks hold; `u` is the
state without it (R332 to R334, R404). -/
abbrev takes (s u : State) (op port ring : Nat) (k : Pkt) : Prop :=
  port < 2 ∧ ring < 256 ∧ k.port = port ∧ k.ring = ring ∧ k.op = op ∧ (s.ring port ring).taken.head? = some ⟨k.b, k.seq, k.mute⟩ ∧
    u = s.setRing port ring { s.ring port ring with taken := (s.ring port ring).taken.tail } ∧
    (s.hport port).d3 = false ∧ s.served = true ∧ (k.fence = false ∨ s.ringLong port ring = []) ∧
    (pageOps.contains op && s.pageAhead k.part k.seq) = false ∧
    k.reservedOk = true ∧ k.tag ≠ 0xFFFF ∧ (s.ringLong port ring).contains k.tag = false ∧
    u.ringOk k = none ∧ u.bootDenies op = false ∧ u.dying k = false

end Sys2Proof
end

