-- ==== Sys2Proof/Certificates/Slice0/Obligations.lean ====
section
/-! DEFINITION. The statements for the provers: what a step is, what every step keeps, what issuing a work command changes, and that
every command completes with the effect that the manual gives it. -/

open Sys2Proof Sys2Proof.Machine

/-- A step takes the command at the front of the queue and runs it on the state with the rest of the queue. The queue is the model's own
  field (log 1). -/
def Obligations.StepRunsFrontCommand : Prop :=
  ∀ (s : State) (c : Instr) (rest : List Instr), s.pending = c :: rest → step s = exec c { s with pending := rest }

/-- The model's choice (log 1): a step on an empty queue is, while the power-up phase runs, its next stage: without the reference clock
  it waits for it, and stages 3 and 5 of start-up pass on with memory, local time and power as they are; otherwise it is one tick of
  local time: before power-up and in SAFE_HOLD nothing changes, else local time advances by 1, and the queue (empty), memory with its
  poison, the host ports and the fabric stay. -/
def Obligations.IdleStepTicks : Prop :=
  (∀ (s : State), s.pending = [] → s.rising = true →
     step s = .next s.powerStep ∧
     (s.boot.stage = 2 → s.sup.refclk = false → s.powerStep = { s with boot := { s.boot with waitRef := true } }) ∧
     (s.boot.stage = 2 → s.sup.refclk = true → s.powerStep = { s with ltime := 0, boot := { s.boot with waitRef := false, stage := 3 } })
       ∧
     (s.boot.stage = 4 → s.powerStep = { s with boot := { s.boot with stage := 5 } })) ∧
  (∀ (s : State), s.pending = [] → s.rising = false → s.pwr.devState < 2 ∨ 4 < s.pwr.devState → step s = .next s) ∧
  (∀ (s : State), s.pending = [] → 2 ≤ s.pwr.devState → s.pwr.devState ≤ 4 →
     ∃ t : State, step s = .next t ∧ t.ltime = s.ltime + 1 ∧ t.pending = [] ∧ t.mem = s.mem ∧ t.poison = s.poison ∧ t.hports = s.hports
       ∧ t.fab = s.fab)

/-- The registers whose reset value the spec gives as other than zero hold it after reset, memory lists nothing and is in canonical form,
  and no command waits. -/
def Obligations.ResetMatchesSpec : Prop :=
  State.reset.pending = [] ∧ State.reset.mem = [] ∧ memOk State.reset ∧
    (∀ n, (State.reset.core n).swapEn = true ∧ (State.reset.core n).quantum = 0x186A0 ∧ (State.reset.core n).circ = [])
      ∧ ({} : Circ).tok = 0xF ∧
    (∀ q, (State.reset.quad q).an = true) ∧ (∀ p, (State.reset.fport p).fecdeg = 32 ∧ (State.reset.fport p).pfcpri = 8
      ∧ (State.reset.fport p).up = false) ∧
    State.reset.fab.cfg = { udp := 0xC2ED, udp2 := 0xC2EC, dscp := 0x1A, ecn := true, pcp := 3, maxpay := 3, rtomin := 50, deadt := 20 } ∧
    State.reset.pwr.cap = 3000 ∧ State.reset.pwr.floorMax = 864 ∧ State.reset.pwr.devState = 2 ∧
    (∀ k, (State.reset.cluster k).plloff = 1000 ∧ (State.reset.cluster k).retidle = 200 ∧ (State.reset.cluster k).acct = 0) ∧
    (∀ port r, (State.reset.ring port r).part = 0xFF ∧ (State.reset.ring port r).cqsz = 4 ∧ (State.reset.ring port r).sqsz = 4
      ∧ (State.reset.ring port r).en = false) ∧
    State.reset.mgmt = 0 ∧ State.reset.autofail = true ∧ ({} : FltPart).jobkill = true ∧ State.reset.flt.dispok = 0xFF

/-- Whatever command runs, the step removes the front command of the queue and leaves the rest as it was: no command adds, drops or
  reorders commands. The queue is the model's own field (log 1). -/
def Obligations.QueueServedInOrder : Prop :=
  ∀ (s t : State), step s = .next t → t.pending = s.pending.tail

/-- From every state whose memory is in canonical form (addresses strictly rising, no entry equal to what an unlisted address reads as),
  every step that answers a next state, whatever command runs, gives one whose memory is in canonical form. Equal contents are then equal
  data. The form is the model's own (log 2). -/
def Obligations.MemoryStaysCanonical : Prop :=
  ∀ (s t : State), memOk s → step s = .next t → memOk t

/-- Every command answers a next state in every state of the block: none faults and none is refused. One whose operands name a unit or an
  address that does not exist changes nothing; that is the model's choice (log 10). While a shed is in force, or the device is neither
  READY nor ACTIVE, the commands that heldByHalt lists change nothing: passes, segments, runs, transfers, walks, swaps, bank entries,
  wakes, mesh accesses, spills, scrubs, landings and waits stay as they are; that a device outside READY and ACTIVE holds them is the
  model's reading (log 213). -/
def Obligations.KnownCommandsNeverStop : Prop :=
  (∀ (s : State) (c : Instr), ∃ t, exec c s = .next t) ∧
  (∀ (s : State) (c : Instr), known s c = false → exec c s = .next s) ∧
  (∀ (s : State) (c : Instr), heldByHalt c = true → s.halts = true → exec c s = .next s)

/-- The command at the head of a slot may issue when its core is not fenced and has its clock, the context is ready or blocked and not
  paused, nothing holds the head (its tokens are there and its fence is met), no other slot of the core has the reservation, no ready job
  context of the core issued less recently (or the slot has the reservation), bit 19 and the reserved fields are zero, no energy class 11
  to 14 is asked for, an injected command is none of LOOP, ENDLOOP, JUMP and CALL, the immediate slot of an UPDATE_BLOCKS is there and in
  form, and the context is outside replay or the command is one that runs in replay. A head that replay skips or suppresses is skipped
  then, and one with bit 19 or a reserved field set, an energy class 11 to 14 or an opcode that cannot be injected ends its context with
  ILLEGAL_OP. -/
def Obligations.HeadsIssueWhenReady : Prop :=
  (∀ (s : State) (core n : Nat) (w i : Cmd), core < 2048 → n < 8 → (s.core core).fenced = false → s.clocked core = true →
     (s.slot core n).st = .ready ∨ (s.slot core n).st = .blocked → (s.slot core n).paused = false → (s.slot core n).head = some w →
     headCause (s.core core) (s.slot core n) = 0 → (s.core core).reserved = none ∨ (s.core core).reserved = some n → cb w 19 = false →
     reservedZero w = true → (s.slot core n).inj = [] ∨ opcodeOf w < 4 ∨ 7 < opcodeOf w →
     cb w 18 = false ∨ (s.slot core n).eclass < 11 ∨ 14 < (s.slot core n).eclass →
     (if opcodeOf w = 0xA0 then (s.slot core n).headImm else some (.ok 0)) = some (.ok i) →
     (s.slot core n).replay = false ∨ replayAct w = .run →
     ((s.core core).reserved = some n ∨ ∀ m < 7, m = n ∨ (n ≠ 7
       ∧ (s.slot core n).issuedAt ≤ (s.slot core m).issuedAt) ∨ s.ready core m = false) →
     heads s core n (opcodeOf w) { core := core, slot := n, ctx := s.slot core n, w := w, replay := (s.slot core n).replay, imm := i }) ∧
  (∀ (s : State) (core n : Nat) (w i : Cmd) (b : Bool), core < 2048 → n < 8 → (s.core core).fenced = false → s.clocked core = true →
     (s.slot core n).st = .ready ∨ (s.slot core n).st = .blocked → (s.slot core n).paused = false → (s.slot core n).head = some w →
     headCause (s.core core) (s.slot core n) = 0 → (s.core core).reserved = none ∨ (s.core core).reserved = some n → cb w 19 = false →
     reservedZero w = true → (s.slot core n).inj = [] ∨ opcodeOf w < 4 ∨ 7 < opcodeOf w →
     cb w 18 = false ∨ (s.slot core n).eclass < 11 ∨ 14 < (s.slot core n).eclass →
     (if opcodeOf w = 0xA0 then (s.slot core n).headImm else some (.ok 0)) = some (.ok i) → (s.slot core n).replay = true →
     replayAct w = (if b then .skipSilent else .skip) →
     gate s core n (opcodeOf w) = .skip { core := core, slot := n, ctx := s.slot core n, w := w, replay := true, imm := i } b) ∧
  (∀ (s : State) (core n : Nat) (w : Cmd), core < 2048 → n < 8 → (s.core core).fenced = false → s.clocked core = true →
     (s.slot core n).st = .ready ∨ (s.slot core n).st = .blocked → (s.slot core n).paused = false → (s.slot core n).head = some w →
     headCause (s.core core) (s.slot core n) = 0 → (s.core core).reserved = none ∨ (s.core core).reserved = some n →
     cb w 19 = true ∨ reservedZero w = false ∨ ((s.slot core n).inj ≠ [] ∧ 4 ≤ opcodeOf w ∧ opcodeOf w ≤ 7) ∨ (cb w 18 = true
       ∧ 11 ≤ (s.slot core n).eclass ∧ (s.slot core n).eclass ≤ 14) →
     gate s core n (opcodeOf w) = .ended stIllegalOp)

/-- A head that issues takes 1 from each token it waits on and leaves the buffer, or the injection queue, of its context, and its account
  pays the rate times the cycles of the clock step, the fraction kept, and notes the core and the account at the start of its cycle (log
  199); memory, partitions, ports, every other core and every other cluster stay as they are, and of its own core everything but the
  context slots and the record of the last issue. -/
def Obligations.IssueTakesTheHead : Prop :=
  ∀ (s : State) (h : Head) (a b : Nat),
    let t := issued s h a b
    let c := (s.core h.core).slot h.slot
    let k := s.cluster (clusterOf h.core)
    let x := s.chargeOf (clusterOf h.core) (classRate (classOf h.ctx h.w a)) b
    let l := if k.cycCores.contains h.core then [h.core] else h.core :: k.cycCores
    ((t.core h.core).slot h.slot).tokens = tokTake c.tokens (waitMask c.bank h.w)
      ∧ ((t.core h.core).slot h.slot).buf = (if c.inj.isEmpty then c.buf.tail else c.buf)
      ∧ ((t.core h.core).slot h.slot).inj = c.inj.drop (slotsOf h.w) ∧ ((t.core h.core).slot h.slot).issued = c.issued + 1 ∧
    t.cluster (clusterOf h.core) =
      { k with acct := k.acct - x.1, frac := x.2, spent := k.spent + x.1, cycAcct := k.cycleAcct h.core, cycCores := l } ∧
    (∃ sl rs, t.core h.core =
      { s.core h.core with slots := sl, stamp := (s.core h.core).stamp + 1, lastIssue := some h.slot, reserved := rs }) ∧
    (∀ n, n ≠ h.core → t.core n = s.core n) ∧ (∀ n, n ≠ clusterOf h.core → t.cluster n = s.cluster n) ∧ t.mem = s.mem
      ∧ t.poison = s.poison ∧ t.cv = s.cv ∧ t.parts = s.parts ∧ t.hports = s.hports ∧ t.colls = s.colls ∧ t.fab = s.fab

/-- A NOP, YIELD or FENCE that issues, with a command behind it that carries no status, leaves memory, partitions, ports, collectives,
  every other core and every other cluster as they are, and of its own core the accumulators, banks, streams, regions, larder,
  outstanding commands and vector engine. -/
def Obligations.SequencerCommandsLeaveTheRest : Prop :=
  (∀ (s : State) (core n : Nat) (h : Head), heads s core n 0x00 h → affords s h 0 1 → quiet h →
     ∃ t : State, exec (.nop core n) s = .next t ∧ t.mem = s.mem ∧ t.poison = s.poison ∧ t.parts = s.parts ∧ t.hports = s.hports
       ∧ t.colls = s.colls ∧ (∀ m, m ≠ core → t.core m = s.core m) ∧ (∀ k, k ≠ clusterOf core → t.cluster k = s.cluster k) ∧
     (t.core core).acc = (s.core core).acc ∧ (t.core core).banks = (s.core core).banks ∧ (t.core core).stSlots = (s.core core).stSlots
       ∧ (t.core core).circ = (s.core core).circ ∧ (t.core core).larder = (s.core core).larder ∧ (t.core core).pend = (s.core core).pend
       ∧ (t.core core).vec = (s.core core).vec) ∧
  (∀ (s : State) (core n : Nat) (h : Head), heads s core n 0x08 h → affords s h 0 1 → quiet h →
     ∃ t : State, exec (.yield core n) s = .next t ∧ t.mem = s.mem ∧ t.poison = s.poison ∧ t.parts = s.parts ∧ t.hports = s.hports
       ∧ t.colls = s.colls ∧ (∀ m, m ≠ core → t.core m = s.core m) ∧ (∀ k, k ≠ clusterOf core → t.cluster k = s.cluster k) ∧
     (t.core core).acc = (s.core core).acc ∧ (t.core core).banks = (s.core core).banks ∧ (t.core core).stSlots = (s.core core).stSlots
       ∧ (t.core core).circ = (s.core core).circ ∧ (t.core core).larder = (s.core core).larder ∧ (t.core core).pend = (s.core core).pend
       ∧ (t.core core).vec = (s.core core).vec) ∧
  (∀ (s : State) (core n : Nat) (h : Head), heads s core n 0x03 h → affords s h 0 1 → quiet h → cf h.w 21 20 ≠ 3 →
     ∃ t : State, exec (.fence core n) s = .next t ∧ t.mem = s.mem ∧ t.poison = s.poison ∧ t.parts = s.parts ∧ t.hports = s.hports
       ∧ t.colls = s.colls ∧ (∀ m, m ≠ core → t.core m = s.core m) ∧ (∀ k, k ≠ clusterOf core → t.cluster k = s.cluster k) ∧
     (t.core core).acc = (s.core core).acc ∧ (t.core core).banks = (s.core core).banks ∧ (t.core core).stSlots = (s.core core).stSlots
       ∧ (t.core core).circ = (s.core core).circ ∧ (t.core core).larder = (s.core core).larder ∧ (t.core core).pend = (s.core core).pend
       ∧ (t.core core).vec = (s.core core).vec)

/-- The commands and events of the device around the cores that deviceOnly lists (links, clocks, ports, pins, the SMBus and the debug
  port) leave memory, its poison, every core and every partition as they are. -/
def Obligations.DeviceCommandsLeaveTheCores : Prop :=
  ∀ (s t : State) (c : Instr), deviceOnly c = true → exec c s = .next t →
    t.mem = s.mem ∧ t.poison = s.poison ∧ t.cores = s.cores ∧ t.parts = s.parts

/-- The core of die d, row r and column c has the logical id d·512 + r·32 + c, and lies in cluster d·32 + (r div 4)·8 + (c div 4), below
  128; the cores of a cluster are those of its die with the same rows and columns divided by 4. -/
def Obligations.LogicalIdsAndClusters : Prop :=
  ∀ (d r c : Nat), d < 4 → r < 16 → c < 32 →
    let n := d * 512 + r * 32 + c
    n < 2048 ∧ clusterOf n = d * 32 + r / 4 * 8 + c / 4 ∧ clusterOf n < 128 ∧ (∀ m, m ∈ clusterCores (clusterOf n) ↔ ∃ x y, x / 4 = r / 4
      ∧ y / 4 = c / 4 ∧ m = d * 512 + x * 32 + y)

/-- A wait is met when every token of its set is at least 1; a command that issues takes 1 from each token it waits on; a signal adds 1
  to each token of its set, a token at 15 stays at 15, and then TOKOVF is set and stays. -/
def Obligations.TokensAreTakenAndGiven : Prop :=
  (∀ (t : W64) (m : Nat), tokMet t m = true ↔ ∀ k < 16, m.testBit k = true → 1 ≤ tok t k) ∧
  (∀ (s : State) (h : Head) (a b k : Nat), k < 16 →
     tokMet ((s.core h.core).slot h.slot).tokens (waitMask ((s.core h.core).slot h.slot).bank h.w) = true →
     let c := (s.core h.core).slot h.slot
     tok (((issued s h a b).core h.core).slot h.slot).tokens k = tok c.tokens k - if (waitMask c.bank h.w).testBit k then 1 else 0) ∧
  (∀ (c : Ctx) (m k : Nat), k < 16 → tok (c.give m).tokens k = if m.testBit k then min 15 (tok c.tokens k + 1) else tok c.tokens k) ∧
  (∀ (c : Ctx) (m : Nat), (c.give m).tokovf = true ↔ c.tokovf = true ∨ ∃ k < 16, m.testBit k = true ∧ tok c.tokens k = 15)

/-- At the head of a context that may issue, and with the charge covered, NOP and YIELD do nothing further, FENCE (with a defined SCOPE)
  does nothing further, WAIT makes NEWBANK current when SETBANK is set, a local SIGNAL increments the tokens of MASK, and a remote SIGNAL
  joins the outstanding commands and is sent to its target core. -/
def Obligations.ControlCommandsComplete : Prop :=
  (∀ (s : State) (core n : Nat) (h : Head), heads s core n 0x00 h → affords s h 0 1 →
     exec (.nop core n) s = .next ((issued s h 0 1).done h)) ∧
  (∀ (s : State) (core n : Nat) (h : Head), heads s core n 0x08 h → affords s h 0 1 →
     exec (.yield core n) s = .next ((issued s h 0 1).done h)) ∧
  (∀ (s : State) (core n : Nat) (h : Head), heads s core n 0x03 h → cf h.w 21 20 ≠ 3 → affords s h 0 1 →
     exec (.fence core n) s = .next ((issued s h 0 1).done h)) ∧
  (∀ (s : State) (core n : Nat) (h : Head), heads s core n 0x01 h → affords s h 0 1 →
     exec (.wait core n) s = .next (((issued s h 0 1).mapSlot core n fun c => if cb h.w 38 then { c with bank := cf h.w 37 36 }
       else c).done h)) ∧
  (∀ (s : State) (core n : Nat) (h : Head), heads s core n 0x02 h → cb h.w 36 = false → affords s h 0 1 →
     exec (.signal core n) s = .next (((issued s h 0 1).mapCore core fun k => k.signal h.ctx.lctx (cf h.w 35 20)).done h)) ∧
  (∀ (s : State) (core n : Nat) (h : Head), heads s core n 0x02 h → cb h.w 36 = true → s.farHeld core = false →
     (s.core core).writesFull = false → affords s h 0 1 →
     exec (.signal core n) s = .next ((((issued s h 0 1).leave h .remote).2.sendSignal core n (cf h.w 47 37) (cf h.w 51 48) (cf h.w 35
       20) ((issued s h 0 1).leave h .remote).1).settle core n))

/-- A LOOP with a non-zero count pushes its count and goes on at its body; one with count 0 goes on after the ENDLOOP that SKIP names.
  ENDLOOP pops the loop on its last pass and goes on behind it, else it counts down and goes back to the body. JUMP goes to its target
  when its condition holds, else to the next command; RET pops the call stack under the same condition; CALL pushes the return pointer
  and goes to its target. -/
def Obligations.LoopsCallsAndJumpsComplete : Prop :=
  (∀ (s : State) (core n : Nat) (h : Head), heads s core n 0x04 h → cf h.w 43 20 ≠ 0 → h.ctx.loops.length < 4 → affords s h 0 1 →
     exec (.loop core n) s = .next (((issued s h 0 1).mapSlot core n
       fun c => ({ c with loops := ⟨cf h.w 43 20, { h.ptr with off := h.ptr.off + 1 }⟩ :: c.loops }).goto
       { h.ptr with off := h.ptr.off + 1 }).done h)) ∧
  (∀ (s : State) (core n off : Nat) (h : Head), heads s core n 0x04 h → cf h.w 43 20 = 0 →
     fetchOff (s.core core) h.ctx core h.ptr.base (h.ptr.off + cf h.w 59 44) = .ok off → (s.core core).bankIsOff off 16 = false →
     (s.core core).bankIsOn off 16 = true → s.anyPoison (scrPa core off) 16 = false → (s.rd (scrPa core off)).toNat = 0x05 →
     affords s h 0 1 →
     exec (.loop core n) s = .next (((issued s h 0 1).mapSlot core n
       fun c => c.goto { h.ptr with off := h.ptr.off + cf h.w 59 44 + 1 }).done h)) ∧
  (∀ (s : State) (core n : Nat) (h : Head) (l : LoopEnt) (t : List LoopEnt), heads s core n 0x05 h → h.ctx.loops = l :: t →
     l.count ≤ 1 → affords s h 0 1 →
     exec (.endloop core n) s = .next (((issued s h 0 1).mapSlot core n
       fun c => ({ c with loops := t }).goto { h.ptr with off := h.ptr.off + 1 }).done h)) ∧
  (∀ (s : State) (core n : Nat) (h : Head) (l : LoopEnt) (t : List LoopEnt), heads s core n 0x05 h → h.ctx.loops = l :: t →
     1 < l.count → affords s h 0 (backCycles l.body h.ptr) →
     exec (.endloop core n) s = .next (((issued s h 0 (backCycles l.body h.ptr)).mapSlot core n
       fun c => ({ c with loops := { l with count := l.count - 1 } :: t }).goto l.body).done h)) ∧
  (∀ (s : State) (core n : Nat) (h : Head), heads s core n 0x06 h → cb h.w 38 = false → cb h.w 39 = false →
     affords s h 0 (h.jumpCycles (targetOf h.w)) →
     exec (.jump core n) s = .next (((issued s h 0 (h.jumpCycles (targetOf h.w))).mapSlot core n fun c => c.goto (targetOf h.w)).done h)) ∧
  (∀ (s : State) (core n : Nat) (h : Head), heads s core n 0x06 h → cb h.w 38 = false → cb h.w 39 = true →
     tok (tokTake h.ctx.tokens (waitMask h.ctx.bank h.w)) (cf h.w 43 40) = 0 → affords s h 0 1 →
     exec (.jump core n) s = .next (((issued s h 0 1).mapSlot core n fun c => c.goto { h.ptr with off := h.ptr.off + 1 }).done h)) ∧
  (∀ (s : State) (core n : Nat) (h : Head), heads s core n 0x06 h → cb h.w 38 = false → cb h.w 39 = true →
     1 ≤ tok (tokTake h.ctx.tokens (waitMask h.ctx.bank h.w)) (cf h.w 43 40) → affords s h 0 (h.jumpCycles (targetOf h.w)) →
     exec (.jump core n) s = .next (((issued s h 0 (h.jumpCycles (targetOf h.w))).mapSlot core n
       fun c => ({ c with tokens := if cb h.w 44 then tokTake c.tokens (2 ^ cf h.w 43 40) else c.tokens }).goto (targetOf h.w)).done h)) ∧
  (∀ (s : State) (core n : Nat) (h : Head) (e : CallEnt) (t : List CallEnt), heads s core n 0x06 h → cb h.w 38 = true →
     cf h.w 37 20 = 0 → cb h.w 39 = false → h.ctx.calls = e :: t → e.mark = false → affords s h 0 (h.jumpCycles e.ret) →
     exec (.jump core n) s = .next (((issued s h 0 (h.jumpCycles e.ret)).mapSlot core n
       fun c => ({ c with calls := t }).goto e.ret).done h)) ∧
  (∀ (s : State) (core n : Nat) (h : Head), heads s core n 0x06 h → cb h.w 38 = true → cf h.w 37 20 = 0 → cb h.w 39 = true →
     tok (tokTake h.ctx.tokens (waitMask h.ctx.bank h.w)) (cf h.w 43 40) = 0 → affords s h 0 1 →
     exec (.jump core n) s = .next (((issued s h 0 1).mapSlot core n fun c => c.goto { h.ptr with off := h.ptr.off + 1 }).done h)) ∧
  (∀ (s : State) (core n : Nat) (h : Head) (e : CallEnt) (t : List CallEnt), heads s core n 0x06 h → cb h.w 38 = true →
     cf h.w 37 20 = 0 → cb h.w 39 = true → 1 ≤ tok (tokTake h.ctx.tokens (waitMask h.ctx.bank h.w)) (cf h.w 43 40) →
     h.ctx.calls = e :: t → e.mark = false → affords s h 0 (h.jumpCycles e.ret) →
     exec (.jump core n) s = .next (((issued s h 0 (h.jumpCycles e.ret)).mapSlot core n
       fun c => ({ c with calls := t, tokens := if cb h.w 44 then tokTake c.tokens (2 ^ cf h.w 43 40) else c.tokens }).goto e.ret).done h)) ∧
  (∀ (s : State) (core n : Nat) (h : Head), heads s core n 0x07 h → h.ctx.calls.length < 4 →
     affords s h 0 (h.jumpCycles (targetOf h.w)) →
     exec (.call core n) s = .next (((issued s h 0 (h.jumpCycles (targetOf h.w))).mapSlot core n
       fun c => ({ c with calls := ⟨{ h.ptr with off := h.ptr.off + 1 }, false⟩ :: c.calls }).goto (targetOf h.w)).done h))

/-- A HALT whose CODE is a status code of Table 12.6 ends its context as HALTED with that code, and with IRQ set in a partition that
  exists it posts notice class 5. Any other CODE ends the context with ILLEGAL_OP. When a WAIT with a TIMEOUT has stood at the head of a
  context for its limit, 256 TIMEOUT core cycles, whatever holds it, the context, resident or swapped out, ends as FAULTED with TIMEOUT.
  -/
def Obligations.HaltAndTimeoutEndTheContext : Prop :=
  (∀ (s : State) (core n : Nat) (h : Head), heads s core n 0x09 h → statusCodes.contains (cf h.w 36 21) = true → affords s h 0 1 →
     exec (.halt core n) s = .next (let u := (issued s h 0 1).endOne core h.ctx.lctx .halted (cf h.w 36 21)
     if cb h.w 20 && (u.part (u.pno core)).exist then u.notify (u.pno core) ⟨5, cf h.w 36 21, whoDetail core h.ctx.lctx,
       (u.part (u.pno core)).word⟩ else u)) ∧
  (∀ (s : State) (core n : Nat) (h : Head), heads s core n 0x09 h → statusCodes.contains (cf h.w 36 21) = false →
     exec (.halt core n) s = .next (s.failed h stIllegalOp)) ∧
  (∀ (s : State) (core lctx : Nat) (c : Ctx) (w : Cmd), core < 2048 → lctx < 17 → (s.core core).ctx? lctx = some c → c.head = some w →
     c.waiting = true → cf w 63 40 ≠ 0 → 25 * (cf w 63 40 * 256) ≤ (s.core core).clk - c.waitAt.getD (s.core core).clk → s.halts = false →
     exec (.waitTimeout core lctx) s = .next (s.faultCtx core lctx stTimeout))

/-- A head whose opcode is reserved, that of an immediate slot included, ends its context with ILLEGAL_OP, and so does a LOOP or a CALL
  that finds its stack full, an ENDLOOP without a loop, a RET without a call, whose top entry is the mark of REPLAY_BEGIN or with a BASE
  or TARGET that is not zero, a LOOP of count 0 whose SKIP names no ENDLOOP, and a FENCE with SCOPE 0b11. -/
def Obligations.ReservedOpcodesEndTheContext : Prop :=
  (∀ (s : State) (core n : Nat) (h : Head), core < 2048 → n < 8 → gateOn s core n reservedOp = .go h → chosen s core n = true →
     exec (.reservedCommand core n) s = .next (s.faultCtx core (s.slot core n).lctx stIllegalOp)) ∧
  (∀ (s : State) (core n : Nat) (h : Head), heads s core n 0x04 h → cf h.w 43 20 ≠ 0 → 4 ≤ h.ctx.loops.length →
     exec (.loop core n) s = .next (s.failed h stIllegalOp)) ∧
  (∀ (s : State) (core n : Nat) (h : Head), heads s core n 0x05 h → h.ctx.loops = [] →
     exec (.endloop core n) s = .next (s.failed h stIllegalOp)) ∧
  (∀ (s : State) (core n : Nat) (h : Head), heads s core n 0x06 h → cb h.w 38 = true → cf h.w 37 20 = 0 →
     ¬(cb h.w 39 = true ∧ tok (tokTake h.ctx.tokens (waitMask h.ctx.bank h.w)) (cf h.w 43 40) = 0) →
     (∀ e ∈ h.ctx.calls.head?, e.mark = true) → exec (.jump core n) s = .next (s.failed h stIllegalOp)) ∧
  (∀ (s : State) (core n : Nat) (h : Head), heads s core n 0x06 h → cb h.w 38 = true → cf h.w 37 20 ≠ 0 →
     exec (.jump core n) s = .next (s.failed h stIllegalOp)) ∧
  (∀ (s : State) (core n off : Nat) (h : Head), heads s core n 0x04 h → cf h.w 43 20 = 0 →
     fetchOff (s.core core) h.ctx core h.ptr.base (h.ptr.off + cf h.w 59 44) = .ok off → (s.core core).bankIsOff off 16 = false →
     (s.core core).bankIsOn off 16 = true → s.anyPoison (scrPa core off) 16 = false → (s.rd (scrPa core off)).toNat ≠ 0x05 →
     exec (.loop core n) s = .next (s.failed h stIllegalOp)) ∧
  (∀ (s : State) (core n : Nat) (h : Head), heads s core n 0x07 h → 4 ≤ h.ctx.calls.length →
     exec (.call core n) s = .next (s.failed h stIllegalOp)) ∧
  (∀ (s : State) (core n : Nat) (h : Head), heads s core n 0x03 h → cf h.w 21 20 = 3 →
     exec (.fence core n) s = .next (s.failed h stIllegalOp))

/-- When the run-ahead fetcher may fetch, the command at its pointer (16 bytes of the own pantry or cellar within the pair) joins the
  buffer and the pointer goes on as the command says; a bank that is not ON is woken instead; a position past its bound joins the buffer
  with the status that ends the context when it becomes the head. -/
def Obligations.CommandFetchFillsTheBuffer : Prop :=
  (∀ (s : State) (core n off : Nat) (w : Cmd), core < 2048 → n < 8 → (s.slot core n).st = .ready ∨ (s.slot core n).st = .blocked →
     (s.slot core n).fetchStopped = false → (s.core core).fenced = false → s.clocked core = true →
     fetchOff (s.core core) (s.slot core n) core (s.slot core n).fptr.base (s.slot core n).fptr.off = .ok off →
     (s.core core).bankIsOff off 16 = false → (s.core core).bankIsOn off 16 = true → s.anyPoison (scrPa core off) 16 = false →
     w = BitVec.ofNat 128 (leNat (s.rds (scrPa core off) 16)) → opcodeOf w ≠ 0xA0 →
     exec (.commandFetch core n) s = .next (s.enterBuf core n ((s.slot core n).project (s.slot core n).fptr w)
       { ptr := (s.slot core n).fptr, w := w, rep := (s.slot core n).freplay })) ∧
  (∀ (s : State) (core n off : Nat), core < 2048 → n < 8 → (s.slot core n).st = .ready ∨ (s.slot core n).st = .blocked →
     (s.slot core n).fetchStopped = false → (s.core core).fenced = false → s.clocked core = true →
     fetchOff (s.core core) (s.slot core n) core (s.slot core n).fptr.base (s.slot core n).fptr.off = .ok off →
     (s.core core).bankIsOff off 16 = false → (s.core core).bankIsOn off 16 = false →
     exec (.commandFetch core n) s = .next (s.mapCore core fun k => k.arriveAll off 16)) ∧
  (∀ (s : State) (core n st : Nat), core < 2048 → n < 8 → (s.slot core n).st = .ready ∨ (s.slot core n).st = .blocked →
     (s.slot core n).fetchStopped = false → (s.core core).fenced = false → s.clocked core = true →
     fetchOff (s.core core) (s.slot core n) core (s.slot core n).fptr.base (s.slot core n).fptr.off = .error st →
     exec (.commandFetch core n) s = .next (s.enterBuf core n (s.slot core n) { ptr := (s.slot core n).fptr, w := 0, bad := some st }))

/-- With swaps enabled and none running: when every resident job context is blocked, the runnable context that waited longest takes the
  slot of the one blocked longest that is not in a pass; when the quantum of a runnable context has run out, it takes the slot of the one
  swapped in longest ago; a free slot takes the runnable context that waited longest. The outgoing image is written once its engine work
  has ended and its slots are drained, and the incoming context then issues. A bound table of the incoming context that lies in a bank
  which is off ends it, and one in a bank that sleeps wakes the bank first. Each service context overdue is served next. -/
def Obligations.SwapsComplete : Prop :=
  (∀ (s : State) (core v l : Nat) (k : Core), core < 2048 → k = (s.core core).refresh → k.swapEn = true → k.swap = none → k.swapQ = [] →
     k.fenced = false → k.residents ≠ [] → (∀ n ∈ k.residents, (k.slot n).st = .blocked) → k.bestRunnable = some l →
     listBest (fun (a b : Nat) => (k.slot a).blockedAt < (k.slot b).blockedAt) (k.residents.filter
       fun n => !k.midPass (k.slot n).lctx) = some v →
     s.halts = false → exec (.swapOnBlock core) s = .next (s.setCore core (k.startSwap ⟨v, true, false, some l, false⟩))) ∧
  (∀ (s : State) (core v l : Nat) (k : Core), core < 2048 → l < 16 → k = (s.core core).refresh → k.swapEn = true → k.swap = none →
     k.swapQ = [] → k.fenced = false → k.quantumDue = some l →
     listBest (fun (a b : Nat) => (k.slot a).inAt < (k.slot b).inAt) (k.residents.filter
       fun n => (k.slot n).st == .ready || (k.slot n).st == .blocked) = some v →
     s.halts = false → exec (.swapQuantumExpiry core l) s = .next (s.setCore core (k.startSwap ⟨v, true, false, some l, false⟩))) ∧
  (∀ (s : State) (core n l : Nat) (k : Core), core < 2048 → k = (s.core core).refresh → k.swapEn = true → k.swap = none → k.swapQ = [] →
     k.fenced = false → k.freeSlot = some n → k.bestRunnable = some l → s.halts = false →
     exec (.freeSlotAdmission core) s = .next (s.setCore core (k.startSwap ⟨n, false, false, some l, false⟩))) ∧
  (∀ (s t : State) (core : Nat) (w : Swap), core < 2048 → (s.core core).swap = some w → w.second = false →
     (s.core core).midPass ((s.core core).slot w.slot).lctx = false →
     ((s.core core).vec.any fun v => v.lctx == ((s.core core).slot w.slot).lctx) = false → ((s.core core).bank 5).st = .on →
     s.drainAll core ((s.core core).slot w.slot).lctx (psaveAddr ((s.core core).slot w.slot)) = .ok t → s.halts = false →
     exec (.swapImageWrite core) s = .next ((t.writeImage core ((s.core core).slot w.slot)).mapCore core
       fun k => k.imageWritten w ((s.core core).slot w.slot))) ∧
  (∀ (k : Core) (w : Swap) (c : Ctx) (l : Nat), w.inl = some l →
     Keys.has (if w.hold then Keys.add k.heldL c.lctx else k.heldL) l = false →
     ((k.imageWritten w c).image c.lctx).swapouts = c.swapouts + 1 ∧ ((k.imageWritten w c).image c.lctx).tokens = c.tokens
       ∧ ((k.imageWritten w c).slot w.slot).st = .swapIn) ∧
  (∀ (s : State) (core l : Nat) (w : Swap), core < 2048 → (s.core core).swap = some w → w.second = true → w.inl = some l →
     ((s.core core).bank 5).st = .on →
     ((s.core core).tabOffs ((s.core core).slot w.slot) core).any (fun o => (s.core core).bankIsOff o 8256) = false →
     ((s.core core).tabOffs ((s.core core).slot w.slot) core).all (fun o => (s.core core).bankIsOn o 8256) = true → s.halts = false →
     exec (.swapEnd core) s = .next ((s.setCore core (s.swappedIn core w l)).badHead core w.slot)) ∧
  (∀ (s : State) (core l : Nat) (w : Swap), core < 2048 → (s.core core).swap = some w → w.second = true → w.inl = some l →
     ((s.core core).bank 5).st = .on →
     ((s.core core).tabOffs ((s.core core).slot w.slot) core).any (fun o => (s.core core).bankIsOff o 8256) = true → s.halts = false →
     exec (.swapEnd core) s = .next ((s.mapCore core Core.noteOff).faultCtx core l stBankOff)) ∧
  (∀ (s : State) (core l : Nat) (w : Swap), core < 2048 → (s.core core).swap = some w → w.second = true → w.inl = some l →
     ((s.core core).bank 5).st = .on →
     ((s.core core).tabOffs ((s.core core).slot w.slot) core).any (fun o => (s.core core).bankIsOff o 8256) = false →
     ((s.core core).tabOffs ((s.core core).slot w.slot) core).all (fun o => (s.core core).bankIsOn o 8256) = false → s.halts = false →
     exec (.swapEnd core) s = .next (s.mapCore core
       fun k => ((s.core core).tabOffs ((s.core core).slot w.slot) core).foldl (fun k o => k.arriveAll o 8256) k)) ∧
  (∀ (s : State) (core : Nat) (w : Swap), core < 2048 → (s.core core).swap = some w → w.second = false →
     (s.core core).midPass ((s.core core).slot w.slot).lctx = false →
     ((s.core core).vec.any fun v => v.lctx == ((s.core core).slot w.slot).lctx) = false → ((s.core core).bank 5).st ≠ .on →
     s.halts = false → exec (.swapImageWrite core) s = .next (s.mapCore core fun k => k.arrive 5)) ∧
  (∀ (s : State) (core l : Nat) (w : Swap), core < 2048 → (s.core core).swap = some w → w.second = true → w.inl = some l →
     ((s.core core).bank 5).st ≠ .on → s.halts = false → exec (.swapEnd core) s = .next (s.mapCore core fun k => k.arrive 5)) ∧
  (∀ (s : State) (core : Nat), core < 2048 → ((s.core core).slot 7).st = .ready → s.holdOf core 7 = 0 → (s.core core).reserved = none →
     25 * 8192 ≤ (s.core core).clk - ((s.core core).slot 7).rdyAt.getD (s.core core).clk → s.halts = false →
     exec (.serviceContextOverdue core) s = .next (s.setCore core { s.core core with reserved := some 7 }))

/-- WCMD.PUSH appends the command in rs2:rs1 to an injection queue that is not full and stalls on a full one; TOK.WAIT takes the tokens
  of a met mask and stalls else; TOK.SIGNAL increments tokens; TOK.READ and CTR.READ read into rd; CTX.YIELD gives the control core up;
  SEQ.CTL reads the command pointer, pauses and resumes; TOK.REMOTE joins the outstanding commands and sends a signal to the core and
  logical context in rs1. -/
def Obligations.CustomInstructionsComplete : Prop :=
  (∀ (s : State) (core slot len rd rs1 rs2 : Nat) (w : BitVec 32), executes s core slot w len (.custom false 0 0 rd rs1 rs2) →
     (s.slot core slot).inj.length < 4 →
     exec (.wcmdPush core slot w) s = .next (((turn s core slot).ccDone core slot len
       fun c => { c with inj := c.inj ++ [c.x rs2 ++ c.x rs1] }).settle core slot)) ∧
  (∀ (s : State) (core slot len rd rs1 rs2 : Nat) (w : BitVec 32), executes s core slot w len (.custom false 0 0 rd rs1 rs2) →
     4 ≤ (s.slot core slot).inj.length → exec (.wcmdPush core slot w) s = .next ((turn s core slot))) ∧
  (∀ (s : State) (core slot len rd rs1 rs2 : Nat) (w : BitVec 32), executes s core slot w len (.custom false 0 1 rd rs1 rs2) →
     tokMet (s.slot core slot).tokens (((s.slot core slot).x rs1).toNat % 2 ^ 16) = true →
     exec (.tokWait core slot w) s = .next (((turn s core slot).ccDone core slot len
       fun c => { c with tokens := tokTake c.tokens (((s.slot core slot).x rs1).toNat % 2 ^ 16) }).settle core slot)) ∧
  (∀ (s : State) (core slot len rd rs1 rs2 : Nat) (w : BitVec 32), executes s core slot w len (.custom false 0 1 rd rs1 rs2) →
     tokMet (s.slot core slot).tokens (((s.slot core slot).x rs1).toNat % 2 ^ 16) = false →
     exec (.tokWait core slot w) s = .next ((turn s core slot))) ∧
  (∀ (s : State) (core slot len rd rs1 rs2 : Nat) (w : BitVec 32), executes s core slot w len (.custom false 0 2 rd rs1 rs2) →
     exec (.tokSignal core slot w) s = .next ((((turn s core slot).ccDone core slot len id).mapCore core
       fun k => k.signal (s.slot core slot).lctx (((s.slot core slot).x rs1).toNat % 2 ^ 16)).settle core slot)) ∧
  (∀ (s : State) (core slot len rd rs1 rs2 : Nat) (w : BitVec 32), executes s core slot w len (.custom false 0 3 rd rs1 rs2) →
     exec (.tokRead core slot w) s = .next ((turn s core slot).ccDone core slot len fun d => d.put rd (s.slot core slot).tokens false)) ∧
  (∀ (s : State) (core slot len rd rs1 rs2 : Nat) (w : BitVec 32), executes s core slot w len (.custom false 0 4 rd rs1 rs2) →
     exec (.ctrRead core slot w) s = .next ((turn s core slot).ccDone core slot len
       fun d => d.put rd (BitVec.ofNat 64 ((s.slot core slot).counter (((s.slot core slot).x rs1).toNat % 16))) false)) ∧
  (∀ (s : State) (core slot len rd rs1 rs2 : Nat) (w : BitVec 32), executes s core slot w len (.custom false 0 5 rd rs1 rs2) →
     exec (.ctxYield core slot w) s = .next (((turn s core slot).ccDone core slot len id).mapCore core fun k => { k with ccRun := none })) ∧
  (∀ (s : State) (core slot len rd rs1 rs2 : Nat) (w : BitVec 32), executes s core slot w len (.custom false 0 6 rd rs1 rs2) →
     ((s.slot core slot).x rs1).toNat % 4 = 0 →
     exec (.seqCtlReadPointer core slot w) s = .next ((turn s core slot).ccDone core slot len
       fun d => d.put rd (BitVec.ofNat 64 (s.slot core slot).cmdptr) false)) ∧
  (∀ (s : State) (core slot len rd rs1 rs2 : Nat) (w : BitVec 32), executes s core slot w len (.custom false 0 6 rd rs1 rs2) →
     ((s.slot core slot).x rs1).toNat % 4 = 2 →
     exec (.seqCtlPause core slot w) s = .next ((turn s core slot).ccDone core slot len fun c => { c with paused := true })) ∧
  (∀ (s : State) (core slot len rd rs1 rs2 : Nat) (w : BitVec 32), executes s core slot w len (.custom false 0 6 rd rs1 rs2) →
     ((s.slot core slot).x rs1).toNat % 4 = 3 →
     exec (.seqCtlResume core slot w) s = .next ((turn s core slot).ccDone core slot len fun c => { c with paused := false })) ∧
  (∀ (s : State) (core slot len rd rs1 rs2 : Nat) (w : BitVec 32), executes s core slot w len (.custom true 0 0 rd rs1 rs2) →
     (turn s core slot).farHeld core = false → ((turn s core slot).core core).writesFull = false →
     let k := (turn s core slot).core core
     exec (.tokRemote core slot w) s = .next (((((turn s core slot).setCore core
       { k with nextId := k.nextId + 1, pend := k.pend ++ [⟨k.nextId, (s.slot core slot).lctx, .remote, 0xF⟩] }).ccDone core slot len
       id).sendSignal core slot (bits ((s.slot core slot).x rs1).toNat 10 0) (bits ((s.slot core slot).x rs1).toNat 19 16) (((s.slot core
       slot).x rs2).toNat % 2 ^ 16) k.nextId)))

/-- While the sequencer of a context is paused, SEQ.CTL operation 1 discards its run-ahead buffer and sets its command pointer to the
  base pair in rs2[17:16] and the offset in rs2[15:0]; while it is not, the context ends with ILLEGAL_OP. (A halted context executes
  nothing on the control core, so paused is the only case.) -/
def Obligations.SeqCtlSetsThePointer : Prop :=
  (∀ (s : State) (core slot len rd rs1 rs2 : Nat) (w : BitVec 32), executes s core slot w len (.custom false 0 6 rd rs1 rs2) →
     ((s.slot core slot).x rs1).toNat % 4 = 1 → (s.slot core slot).paused = false →
     exec (.seqCtlSetPointer core slot w) s = .next ((turn s core slot).faultCtx core (s.slot core slot).lctx stIllegalOp)) ∧
  (∀ (s : State) (core slot len rd rs1 rs2 : Nat) (w : BitVec 32), executes s core slot w len (.custom false 0 6 rd rs1 rs2) →
     ((s.slot core slot).x rs1).toNat % 4 = 1 → (s.slot core slot).paused = true →
     ∃ t, exec (.seqCtlSetPointer core slot w) s = .next t ∧ (t.slot core slot).buf = [] ∧
     (t.slot core slot).fptr = ⟨bits ((s.slot core slot).x rs2).toNat 17 16, bits ((s.slot core slot).x rs2).toNat 15 0⟩)

/-- CTX.CTL by context 7: start puts a declared logical context into a free slot, stop ends one that lives as KILLED and makes one that
  has ended KILLED, swap out asks for the swap of a READY or BLOCKED context, and swap in asks for the swap of a swapped-out one into a
  free slot. -/
def Obligations.ContextControlCompletes : Prop :=
  (∀ (s : State) (core slot len rd rs1 rs2 : Nat) (w : BitVec 32) (m : Nat), executes s core slot w len (.custom false 0 7 rd rs1 rs2) →
     slot = 7 → ((s.slot core slot).x rs2).toNat = 0 → (((turn s core slot).ccDone core slot len id).core core).freeSlot = some m →
     ((turn s core slot).ccDone core slot len id).declared core (((s.slot core slot).x rs1).toNat % 16) = true →
     exec (.ctxCtlStart core slot w) s = .next ((((turn s core slot).ccDone core slot len id).mapCore core
       fun k => k.startIn core m (((s.slot core slot).x rs1).toNat % 16)).partEvent (((turn s core slot).ccDone core slot len id).pno
       core) none 0)) ∧
  (∀ (s : State) (core slot len rd rs1 rs2 : Nat) (w : BitVec 32), executes s core slot w len (.custom false 0 7 rd rs1 rs2) →
     slot = 7 → ((s.slot core slot).x rs2).toNat = 1 →
     ((((turn s core slot).ccDone core slot len id).core core).ctx? (((s.slot core slot).x rs1).toNat % 16)).isSome = true →
     exec (.ctxCtlStop core slot w) s = .next (((turn s core slot).ccDone core slot len id).endOne core (((s.slot core slot).x rs1).toNat
       % 16) .killed stKilled)) ∧
  (∀ (s : State) (core slot len rd rs1 rs2 : Nat) (w : BitVec 32), executes s core slot w len (.custom false 0 7 rd rs1 rs2) →
     slot = 7 → ((s.slot core slot).x rs2).toNat = 1 →
     (((turn s core slot).ccDone core slot len id).core core).ctx? (((s.slot core slot).x rs1).toNat % 16) = none →
     exec (.ctxCtlStop core slot w) s = .next (((turn s core slot).ccDone core slot len id).mapCore core
       fun k => k.stopEnded (((s.slot core slot).x rs1).toNat % 16))) ∧
  (∀ (s : State) (core slot len rd rs1 rs2 : Nat) (w : BitVec 32) (m : Nat), executes s core slot w len (.custom false 0 7 rd rs1 rs2) →
     slot = 7 → ((s.slot core slot).x rs2).toNat = 2 →
     (((turn s core slot).ccDone core slot len id).core core).findSlot (((s.slot core slot).x rs1).toNat % 16) = some m →
     ((((turn s core slot).ccDone core slot len id).core core).slot m).st = .ready ∨ ((((turn s core slot).ccDone core slot len id).core
       core).slot m).st = .blocked →
     exec (.ctxCtlSwapOut core slot w) s = .next (((turn s core slot).ccDone core slot len id).mapCore core
       fun k => k.askSwap ⟨m, true, false, none, false⟩)) ∧
  (∀ (s : State) (core slot len rd rs1 rs2 : Nat) (w : BitVec 32) (m : Nat), executes s core slot w len (.custom false 0 7 rd rs1 rs2) →
     slot = 7 → ((s.slot core slot).x rs2).toNat = 3 → (((turn s core slot).ccDone core slot len id).core core).freeSlot = some m →
     (Tab.find (((turn s core slot).ccDone core slot len id).core core).images (((s.slot core slot).x rs1).toNat % 16)).isSome = true →
     (((((turn s core slot).ccDone core slot len id).core core).swapQ ++ (((turn s core slot).ccDone core slot len id).core
       core).swap.toList).any fun x => x.inl == some (((s.slot core slot).x rs1).toNat % 16)) = false →
     exec (.ctxCtlSwapIn core slot w) s = .next (((turn s core slot).ccDone core slot len id).mapCore core
       fun k => k.askSwap ⟨m, false, false, some (((s.slot core slot).x rs1).toNat % 16), false⟩))

/-- A load or store by the control core that its pairs cover and that lies, naturally aligned, in a bank of the own core that is on:
  through the normal view a store writes the low bytes of its source, little-endian, and a load reads them with the extension its width
  names; through the set and the clear alias it is the atomic read-modify-write of Table 4.3; then the program counter moves past the
  instruction. -/
def Obligations.ScratchAccessesComplete : Prop :=
  (∀ (s : State) (core slot len : Nat) (w : BitVec 32) (f3 rs1 rs2 o v : Nat) (fp : Bool) (off : Int),
     executes s core slot w len (.store fp f3 rs1 rs2 off) →
     (turn s core slot).ccPlace core slot (ccAddr ((turn s core slot).slot core slot) rs1 off) (rvSize f3) true = .own 0 o →
     v = (if fp then ((turn s core slot).slot core slot).f rs2
       else ((turn s core slot).slot core slot).x rs2).toNat % 2 ^ (8 * rvSize f3) →
     exec (.controlCoreAccess core slot w) s = .next (((turn s core slot).scrStore 0 core o (rvSize f3) v (((turn s core slot).slot core
       slot).tainted (if fp then 32 + rs2 else rs2))).ccDone core slot len id)) ∧
  (∀ (s : State) (core slot len : Nat) (w : BitVec 32) (f3 rd rs1 o : Nat) (fp : Bool) (off : Int),
     executes s core slot w len (.load fp f3 rd rs1 off) →
     (turn s core slot).ccPlace core slot (ccAddr ((turn s core slot).slot core slot) rs1 off) (rvSize f3) true = .own 0 o →
     exec (.controlCoreAccess core slot w) s = .next ((turn s core slot).ccDone core slot len fun c =>
     c.put (if fp then 32 + rd else rd) (loadExt fp f3 (leNat ((turn s core slot).rds (scrPa core o) (rvSize f3)))) ((turn s core
       slot).anyPoison (scrPa core o) (rvSize f3)))) ∧
  (∀ (s : State) (core slot len : Nat) (w : BitVec 32) (f3 rs1 rs2 o v : Nat) (fp : Bool) (off : Int),
     executes s core slot w len (.store fp f3 rs1 rs2 off) → viewOf s (ccAddr (s.slot core slot) rs1 off) = some 1 →
     (turn s core slot).ccPlace core slot (ccAddr ((turn s core slot).slot core slot) rs1 off) (rvSize f3) true = .own 1 o →
     v = (if fp then ((turn s core slot).slot core slot).f rs2
       else ((turn s core slot).slot core slot).x rs2).toNat % 2 ^ (8 * rvSize f3) →
     exec (.setAliasStore core slot w) s = .next (((turn s core slot).scrStore 1 core o (rvSize f3) v (((turn s core slot).slot core
       slot).tainted (if fp then 32 + rs2 else rs2))).ccDone core slot len id)) ∧
  (∀ (s : State) (core slot len : Nat) (w : BitVec 32) (f3 rd rs1 o : Nat) (fp : Bool) (off : Int),
     executes s core slot w len (.load fp f3 rd rs1 off) → viewOf s (ccAddr (s.slot core slot) rs1 off) = some 1 →
     (turn s core slot).ccPlace core slot (ccAddr ((turn s core slot).slot core slot) rs1 off) (rvSize f3) true = .own 1 o →
     exec (.setAliasLoad core slot w) s = .next (((turn s core slot).aliasLoad 1 core o (rvSize f3) core ((turn s core slot).slot core
       slot).lctx).2.ccDone core slot len fun c =>
     c.put (if fp then 32 + rd else rd) (loadExt fp f3 ((turn s core slot).aliasLoad 1 core o (rvSize f3) core ((turn s core slot).slot
       core slot).lctx).1) ((turn s core slot).anyPoison (scrPa core o) (rvSize f3)))) ∧
  (∀ (s : State) (core slot len : Nat) (w : BitVec 32) (f3 rs1 rs2 o v : Nat) (fp : Bool) (off : Int),
     executes s core slot w len (.store fp f3 rs1 rs2 off) → viewOf s (ccAddr (s.slot core slot) rs1 off) = some 2 →
     (turn s core slot).ccPlace core slot (ccAddr ((turn s core slot).slot core slot) rs1 off) (rvSize f3) true = .own 2 o →
     v = (if fp then ((turn s core slot).slot core slot).f rs2
       else ((turn s core slot).slot core slot).x rs2).toNat % 2 ^ (8 * rvSize f3) →
     exec (.clearAliasStore core slot w) s = .next (((turn s core slot).scrStore 2 core o (rvSize f3) v (((turn s core slot).slot core
       slot).tainted (if fp then 32 + rs2 else rs2))).ccDone core slot len id)) ∧
  (∀ (s : State) (core slot len : Nat) (w : BitVec 32) (f3 rd rs1 o : Nat) (fp : Bool) (off : Int),
     executes s core slot w len (.load fp f3 rd rs1 off) → viewOf s (ccAddr (s.slot core slot) rs1 off) = some 2 →
     (turn s core slot).ccPlace core slot (ccAddr ((turn s core slot).slot core slot) rs1 off) (rvSize f3) true = .own 2 o →
     exec (.clearAliasLoad core slot w) s = .next (((turn s core slot).aliasLoad 2 core o (rvSize f3) core ((turn s core slot).slot core
       slot).lctx).2.ccDone core slot len fun c =>
     c.put (if fp then 32 + rd else rd) (loadExt fp f3 ((turn s core slot).aliasLoad 2 core o (rvSize f3) core ((turn s core slot).slot
       core slot).lctx).1) ((turn s core slot).anyPoison (scrPa core o) (rvSize f3))))

/-- On a word m of 4 or 8 bytes of scratch: a store of v through the set alias leaves m or v and through the clear alias m and not v; a
  load through the set alias that finds bit 0 clear and a free lease answers m and leaves m or 1, one through the clear alias answers m
  and leaves m with bit 0 clear. -/
def Obligations.AliasEffects : Prop :=
  (∀ (s : State) (core off size v : Nat), memOk s → size = 4 ∨ size = 8 → v < 2 ^ (8 * size) → core < 2048 → off + size ≤ 0xC0000 →
     leNat ((s.aliasStore 1 core off size v).rds (scrPa core off) size) = leNat (s.rds (scrPa core off) size) ||| v) ∧
  (∀ (s : State) (core off size v : Nat), memOk s → size = 4 ∨ size = 8 → v < 2 ^ (8 * size) → core < 2048 → off + size ≤ 0xC0000 →
     leNat ((s.aliasStore 2 core off size v).rds (scrPa core off) size) = leNat (s.rds (scrPa core off) size) &&& (2 ^ (8 * size) - 1 - v)) ∧
  (∀ (s : State) (core off size c lctx : Nat), memOk s → size = 4 ∨ size = 8 → core < 2048 → off + size ≤ 0xC0000 →
     leNat (s.rds (scrPa core off) size) % 2 = 0 → (s.core core).locks.length < 32 →
     (s.aliasLoad 1 core off size c lctx).1 = leNat (s.rds (scrPa core off) size) ∧
     leNat ((s.aliasLoad 1 core off size c lctx).2.rds (scrPa core off) size) = leNat (s.rds (scrPa core off) size) + 1 ∧
     ((s.aliasLoad 1 core off size c lctx).2.core core).locks = (s.core core).locks ++ [⟨scrPa core off, c, lctx, s.pno c⟩]) ∧
  (∀ (s : State) (core off size c lctx : Nat), memOk s → size = 4 ∨ size = 8 → core < 2048 → off + size ≤ 0xC0000 →
     (s.aliasLoad 2 core off size c lctx).1 = leNat (s.rds (scrPa core off) size) ∧
     leNat ((s.aliasLoad 2 core off size c lctx).2.rds (scrPa core off) size) = leNat (s.rds (scrPa core off) size) - leNat (s.rds (scrPa
       core off) size) % 2)

/-- An instruction at the program counter of a context writes its result to rd and moves the program counter past itself, or to the
  target of a jump or of a branch taken; the encodings and results are those of RISC-V (PRESUMED, log 90). In a job context ECALL and
  EBREAK end the context with ILLEGAL_OP. -/
def Obligations.ControlCoreInstructionsComplete : Prop :=
  (∀ (s : State) (core slot len : Nat) (w : BitVec 32) (rd : Nat) (i : Int), executes s core slot w len (.lui rd i) →
     exec (.controlCoreInstruction core slot w) s =
       .next ((turn s core slot).ccDone core slot len fun d => d.put rd (BitVec.ofInt 64 i) false)) ∧
  (∀ (s : State) (core slot len : Nat) (w : BitVec 32) (rd : Nat) (i : Int), executes s core slot w len (.auipc rd i) →
     exec (.controlCoreInstruction core slot w) s =
       .next ((turn s core slot).ccDone core slot len
       fun d => d.put rd (((turn s core slot).slot core slot).pc + BitVec.ofInt 64 i) false)) ∧
  (∀ (s : State) (core slot len : Nat) (w : BitVec 32) (f3 rd rs1 rs2 : Nat) (alt w32 : Bool),
     executes s core slot w len (.alu f3 alt w32 rd rs1 (.reg rs2)) →
     exec (.controlCoreInstruction core slot w) s =
       .next ((turn s core slot).ccDone core slot len
       fun d => d.put rd (rvAlu f3 alt w32 (((turn s core slot).slot core slot).x rs1) (((turn s core slot).slot core slot).x rs2))
       ((rvSrcs (.alu f3 alt w32 rd rs1 (.reg rs2))).any ((turn s core slot).slot core slot).tainted))) ∧
  (∀ (s : State) (core slot len : Nat) (w : BitVec 32) (f3 rd rs1 : Nat) (alt w32 : Bool) (i : Int),
     executes s core slot w len (.alu f3 alt w32 rd rs1 (.imm i)) →
     exec (.controlCoreInstruction core slot w) s =
       .next ((turn s core slot).ccDone core slot len
       fun d => d.put rd (rvAlu f3 alt w32 (((turn s core slot).slot core slot).x rs1) (BitVec.ofInt 64 i)) ((rvSrcs (.alu f3 alt w32 rd
       rs1 (.imm i))).any ((turn s core slot).slot core slot).tainted))) ∧
  (∀ (s : State) (core slot len : Nat) (w : BitVec 32) (f3 rd rs1 rs2 : Nat) (w32 : Bool),
     executes s core slot w len (.muldiv f3 w32 rd rs1 rs2) →
     exec (.controlCoreInstruction core slot w) s =
       .next ((turn s core slot).ccDone core slot len
       fun d => d.put rd (rvMulDiv f3 w32 (((turn s core slot).slot core slot).x rs1) (((turn s core slot).slot core slot).x rs2))
       ((rvSrcs (.muldiv f3 w32 rd rs1 rs2)).any ((turn s core slot).slot core slot).tainted))) ∧
  (∀ (s : State) (core slot len : Nat) (w : BitVec 32) (rd : Nat) (off : Int), executes s core slot w len (.jal rd off) →
     exec (.controlCoreInstruction core slot w) s =
       .next ((turn s core slot).ccJump core slot (((turn s core slot).slot core slot).pc + BitVec.ofInt 64 off)
       fun d => d.put rd (((turn s core slot).slot core slot).pc + BitVec.ofNat 64 len) false)) ∧
  (∀ (s : State) (core slot len : Nat) (w : BitVec 32) (rd rs1 : Nat) (off : Int), executes s core slot w len (.jalr rd rs1 off) →
     exec (.controlCoreInstruction core slot w) s =
       .next ((turn s core slot).ccJump core slot ((((turn s core slot).slot core slot).x rs1 + BitVec.ofInt 64 off) &&& ~~~1)
       fun d => d.put rd (((turn s core slot).slot core slot).pc + BitVec.ofNat 64 len) false)) ∧
  (∀ (s : State) (core slot len : Nat) (w : BitVec 32) (f3 rs1 rs2 : Nat) (off : Int),
     executes s core slot w len (.branch f3 rs1 rs2 off) →
     rvTaken f3 (((turn s core slot).slot core slot).x rs1) (((turn s core slot).slot core slot).x rs2) = true →
     exec (.controlCoreInstruction core slot w) s =
       .next ((turn s core slot).ccJump core slot (((turn s core slot).slot core slot).pc + BitVec.ofInt 64 off) id)) ∧
  (∀ (s : State) (core slot len : Nat) (w : BitVec 32) (f3 rs1 rs2 : Nat) (off : Int),
     executes s core slot w len (.branch f3 rs1 rs2 off) →
     rvTaken f3 (((turn s core slot).slot core slot).x rs1) (((turn s core slot).slot core slot).x rs2) = false →
     exec (.controlCoreInstruction core slot w) s = .next ((turn s core slot).ccDone core slot len id)) ∧
  (∀ (s : State) (core slot len : Nat) (w : BitVec 32), executes s core slot w len .ecall → slot < 7 →
     exec (.controlCoreInstruction core slot w) s =
       .next ((turn s core slot).faultCtx core ((turn s core slot).slot core slot).lctx stIllegalOp)) ∧
  (∀ (s : State) (core slot len : Nat) (w : BitVec 32), executes s core slot w len .ebreak → slot < 7 →
     exec (.controlCoreInstruction core slot w) s =
       .next ((turn s core slot).faultCtx core ((turn s core slot).slot core slot).lctx stIllegalOp)) ∧
  (∀ (c : Ctx) (v : W64) (bad : Bool), (c.put 0 v bad).x 0 = 0) ∧
  (∀ (c : Ctx) (d : Nat) (v : W64) (bad : Bool), 0 < d → d < 32 → (c.put d v bad).x d = v)

/-- An MM, MM_WIDE, MM_SEMI, MM_DIST, MM_CMP or MM_F32X3 whose issue checks pass, whose banks are on, for which the arrays and its
  accumulator slots are free, and whose charge is covered, claims its slots, empties a preload register of its context, and joins the
  passes in flight with its operand offsets, and the outstanding commands of its context with its SIG token; nothing else changes but
  what an issue changes. -/
def Obligations.MatrixPassesStart : Prop :=
  (∀ (s : State) (core n : Nat) (h : Head) (pl : PassPlan), heads s core n 0x40 h → cb h.w 80 = false → mmPlan s 0x40 h = .ok pl →
     passReady s h pl → affords s h pl.cls pl.cycles →
     ∃ p : Pass, passLine p = (((issued s h pl.cls pl.cycles).leave h .matrix).1, h.ctx.lctx, h.w, pl.aOff, pl.wOff) ∧ p.slot = n
       ∧ exec (.mm core n) s = .next ((passStarted s h pl p).settle core n)) ∧
  (∀ (s : State) (core n : Nat) (h : Head) (pl : PassPlan), heads s core n 0x41 h → widePlan s h = .ok pl → passReady s h pl →
     affords s h pl.cls pl.cycles →
     ∃ p : Pass, passLine p = (((issued s h pl.cls pl.cycles).leave h .matrix).1, h.ctx.lctx, h.w, pl.aOff, pl.wOff) ∧ p.slot = n
       ∧ exec (.mmWide core n) s = .next ((passStarted s h pl p).settle core n)) ∧
  (∀ (s : State) (core n : Nat) (h : Head) (pl : PassPlan), heads s core n 0x42 h → mmPlan s 0x42 h = .ok pl → passReady s h pl →
     affords s h pl.cls pl.cycles →
     ∃ p : Pass, passLine p = (((issued s h pl.cls pl.cycles).leave h .matrix).1, h.ctx.lctx, h.w, pl.aOff, pl.wOff) ∧ p.slot = n
       ∧ exec (.mmSemi core n) s = .next ((passStarted s h pl p).settle core n)) ∧
  (∀ (s : State) (core n : Nat) (h : Head) (pl : PassPlan), heads s core n 0x43 h → mmPlan s 0x43 h = .ok pl → passReady s h pl →
     affords s h pl.cls pl.cycles →
     ∃ p : Pass, passLine p = (((issued s h pl.cls pl.cycles).leave h .matrix).1, h.ctx.lctx, h.w, pl.aOff, pl.wOff) ∧ p.slot = n
       ∧ exec (.mmDist core n) s = .next ((passStarted s h pl p).settle core n)) ∧
  (∀ (s : State) (core n : Nat) (h : Head) (pl : PassPlan), heads s core n 0x44 h → mmPlan s 0x44 h = .ok pl → passReady s h pl →
     affords s h pl.cls pl.cycles →
     ∃ p : Pass, passLine p = (((issued s h pl.cls pl.cycles).leave h .matrix).1, h.ctx.lctx, h.w, pl.aOff, pl.wOff) ∧ p.slot = n
       ∧ exec (.mmCmp core n) s = .next ((passStarted s h pl p).settle core n)) ∧
  (∀ (s : State) (core n : Nat) (h : Head) (pl : PassPlan), heads s core n 0x47 h → mmPlan s 0x47 h = .ok pl → passReady s h pl →
     affords s h pl.cls pl.cycles →
     ∃ p : Pass, passLine p = (((issued s h pl.cls pl.cycles).leave h .matrix).1, h.ctx.lctx, h.w, pl.aOff, pl.wOff) ∧ p.slot = n
       ∧ exec (.mmF32x3 core n) s = .next ((passStarted s h pl p).settle core n))

/-- A matrix command that fails one of the issue checks ends its context with the status of the check and has no other effect: nothing is
  issued, charged, claimed or read. A vector command that fails one of the issue checks ends its context with the status of the check and
  has no other effect. -/
def Obligations.FailedChecksEndTheContext : Prop :=
  (∀ (s : State) (core n st : Nat) (h : Head), heads s core n 0x40 h → cb h.w 80 = false → mmPlan s 0x40 h = .error st →
     exec (.mm core n) s = .next (s.failed h st)) ∧
  (∀ (s : State) (core n st : Nat) (h : Head), heads s core n 0x41 h → widePlan s h = .error st →
     exec (.mmWide core n) s = .next (s.failed h st)) ∧
  (∀ (s : State) (core n st : Nat) (h : Head), heads s core n 0x42 h → mmPlan s 0x42 h = .error st →
     exec (.mmSemi core n) s = .next (s.failed h st)) ∧
  (∀ (s : State) (core n st : Nat) (h : Head), heads s core n 0x43 h → mmPlan s 0x43 h = .error st →
     exec (.mmDist core n) s = .next (s.failed h st)) ∧
  (∀ (s : State) (core n st : Nat) (h : Head), heads s core n 0x44 h → mmPlan s 0x44 h = .error st →
     exec (.mmCmp core n) s = .next (s.failed h st)) ∧
  (∀ (s : State) (core n st : Nat) (h : Head), heads s core n 0x47 h → mmPlan s 0x47 h = .error st →
     exec (.mmF32x3 core n) s = .next (s.failed h st)) ∧
  (∀ (s : State) (core n st : Nat) (h : Head), heads s core n 0x46 h → drainPlan s h = .error st →
     exec (.drainAcc core n) s = .next (s.failed h st)) ∧
  (∀ (s : State) (core n st : Nat) (h : Head), heads s core n 0x60 h → vopPlan s h = .error st →
     exec (.vop core n) s = .next (s.failed h st)) ∧
  (∀ (s : State) (core n st : Nat) (h : Head), heads s core n 0x61 h → vfuncPlan s h = .error st →
     exec (.vfunc core n) s = .next (s.failed h st)) ∧
  (∀ (s : State) (core n st : Nat) (h : Head), heads s core n 0x62 h → vderivPlan s h = .error st →
     exec (.vderiv core n) s = .next (s.failed h st)) ∧
  (∀ (s : State) (core n st : Nat) (h : Head), heads s core n 0x63 h → vreducePlan s h = .error st →
     exec (.vreduce core n) s = .next (s.failed h st)) ∧
  (∀ (s : State) (core n st : Nat) (h : Head), heads s core n 0x64 h → vnormPlan s h = .error st →
     exec (.vnormBwd core n) s = .next (s.failed h st)) ∧
  (∀ (s : State) (core n st : Nat) (h : Head), heads s core n 0x65 h → vsoftPlan s h = .error st →
     exec (.vsoftmaxBwd core n) s = .next (s.failed h st)) ∧
  (∀ (s : State) (core n st : Nat) (h : Head), heads s core n 0x66 h → vcompPlan s h = .error st →
     exec (.vcompress1 core n) s = .next (s.failed h st)) ∧
  (∀ (s : State) (core n st : Nat) (h : Head), heads s core n 0x67 h → vdecompPlan s h = .error st →
     exec (.vdecompSum core n) s = .next (s.failed h st)) ∧
  (∀ (s : State) (core n st : Nat) (h : Head), heads s core n 0x68 h → vrandPlan s h = .error st →
     exec (.vrand core n) s = .next (s.failed h st)) ∧
  (∀ (s : State) (core n st : Nat) (h : Head), heads s core n 0x69 h → vconvPlan s h = .error st →
     exec (.vconvert core n) s = .next (s.failed h st)) ∧
  (∀ (s : State) (core n st : Nat) (h : Head), heads s core n 0x6a h → vdigPlan s h = .error st →
     exec (.vdigest core n) s = .next (s.failed h st))

/-- An MM with NOWG retires in one cycle of class 0 and counts; LOAD_W loads its tile, with its tag, into the preload register; a
  DRAIN_ACC that can start goes into flight; the oldest pass in flight merges its results and completes; a drain in flight, once the
  earlier passes into its slot have completed, writes its rows, poisoned if its slot took poison, frees its slot under RELEASE, and
  completes. -/
def Obligations.MatrixCommandsComplete : Prop :=
  (∀ (s : State) (core n : Nat) (h : Head) (c : MClass), heads s core n 0x40 h → cb h.w 80 = true → mmFormats 0x40 h.w = .ok c →
     s.fits core (classRate 0) 1 = true →
     exec (.mm core n) s = .next (((s.issue h (classRate 0) 1).mapCore core
       fun k => { k with mx := { k.mx with nowgskip := sat16 k.mx.nowgskip 1 } }).done h)) ∧
  (∀ (s : State) (core n off : Nat) (h : Head) (c : MClass), heads s core n 0x45 h → mclass (mmF h.w).afmt (mmF h.w).wfmt = some c →
     c ≠ .f → localOff (s.core core) h.ctx core (mmF h.w).wbase (mmF h.w).woff (tileBytes (mmF h.w).wfmt c.kt) = .ok off →
     (s.core core).bankIsOff off (tileBytes (mmF h.w).wfmt c.kt) = false →
     (s.core core).bankIsOn off (tileBytes (mmF h.w).wfmt c.kt) = true → affords s h 5 (loadW (mmF h.w).wfmt c.kt) →
     let u := issued s h 5 (loadW (mmF h.w).wfmt c.kt)
     let f := mmF h.w
     let len := tileBytes f.wfmt c.kt
     let tag := f.wbase + 4 * f.woff + 2 ^ 18 * f.wfmt + 2 ^ 22 * f.afmt + 2 ^ 26 * b01 f.trw
     exec (.loadW core n) s = .next ((u.mapCore core
       fun k => { k with pre := some ⟨h.ctx.lctx, tag, u.rds (scrPa core off) len, u.anyPoison (scrPa core off) len⟩ }).done h)) ∧
  (∀ (s : State) (core n off ph : Nat) (h : Head), heads s core n 0x46 h → drainPlan s h = .ok off →
     (s.core core).physOf h.ctx.lctx (cf h.w 24 23) = some ph → (s.core core).bankIsOn off (drainLen h.w) = true →
     (s.core core).drain = none → affords s h 5 (drainCycles h.w (0x40000 ≤ off)) →
     let u := (issued s h 5 (drainCycles h.w (0x40000 ≤ off))).leave h .drain
     exec (.drainAcc core n) s = .next ((u.2.mapCore core
       fun k => { k.setAcc ph { k.accAt ph with
       used := k.stamp } with drain := some ⟨u.1, n, h.ctx.lctx, h.w, off, ph, k.writers ph⟩ }).settle core n)) ∧
  (∀ (s : State) (core : Nat) (p : Pass) (t : List Pass), core < 2048 → (s.core core).passes = p :: t → s.halts = false →
     let o := if opcodeOf p.cmd = 0x41 then wideOutputs s core p else mmOutputs s core p
     let poison := p.bad || (passReads p).any fun x => s.anyPoison (scrPa core x.1) x.2
     exec (.passComplete core) s = .next (s.mapCore core fun k =>
     let m := mergePass k p o.1 poison
     (({ m.1 with passes := t, mx := m.1.mx.raise (o.2.or m.2) } : Core).unuse (p.phys :: p.idx.toList)).applyRepairs.complete p.id)) ∧
  (∀ (s : State) (core : Nat) (d : Drain), core < 2048 → (s.core core).drain = some d → (s.core core).drainWaits d = false →
     s.halts = false →
     let a := (s.core core).accAt d.phys
     let u := s.wr (scrPa core d.dst) (drainBytes a d) a.poison
     exec (.drainComplete core) s = .next (u.mapCore core fun k =>
     ({ (if cb d.cmd 25 then k.setAcc d.phys {} else k.unuse [d.phys]) with drain := none } : Core).complete d.id))

/-- When a head needs more physical slots than are free, the unused slot of another context that has gone longest unused is written to
  its save area; a spilled slot that a head names is read back into a free one, and an area that does not translate ends its context. A
  parity error restarts the passes in flight, which stay and are counted; a row-check mismatch discards them to wait for the row test; a
  test that finds no failing row, or one the free spare replaces, issues them again in order; a pass that has faulted three times without
  a failing row, and a failing row with the spare in use, lose the core. -/
def Obligations.AccumulatorsAndArrayFaults : Prop :=
  (∀ (s : State) (core n v : Nat), core < 2048 → n < 8 → s.farHeld core = false →
     (s.core core).freeCount < (s.core core).unbound ((s.core core).slot n).lctx (s.wantedSlots core n) →
     listBest (fun (a b : Nat) => ((s.core core).accAt a).used < ((s.core core).accAt b).used) ((List.range 8).filter
       fun p => ((s.core core).accAt p).held && ((s.core core).accAt p).lctx != ((s.core core).slot n).lctx && !(s.core core).accInUse p)
       = some v →
     s.vok (s.pno core) (((s.core core).ctx? ((s.core core).accAt v).lctx).elim 0 psaveAddr + ((s.core core).accAt v).lslot * 0x4000)
       0x4000 true = true →
     let a := (s.core core).accAt v
     let psave := ((s.core core).ctx? a.lctx).elim 0 psaveAddr
     let va := psave + a.lslot * 0x4000
     let u := ((s.vwrite (s.pno core) va a.bytes a.poison).ckPages core va 0x4000).chargeData core (256 * 40)
     exec (.accSlotSpill core n) s = .next (u.mapCore core
       fun k => { k.setAcc v {} with spilledAcc := k.spilledAcc ++ [⟨a.lctx, a.lslot, a.kind⟩] })) ∧
  (∀ (s : State) (core n ph : Nat) (x : SpilledAcc) (bs : List Byte) (bad : Bool), core < 2048 → n < 8 → s.farHeld core = false →
     ((s.wantedSlots core n).findSome? fun l => (s.core core).isSpilled ((s.core core).slot n).lctx l) = some x →
     (s.core core).freePhys = some ph →
     s.vread (s.pno core) (psaveAddr ((s.core core).slot n) + x.lslot * 0x4000) 0x4000 = .ok (bs, bad) →
     let va := psaveAddr ((s.core core).slot n) + x.lslot * 0x4000
     let u := ((s.vtake (s.pno core) va 0x4000).ckPages core va 0x4000).chargeData core (256 * 40)
     exec (.accSlotReload core n) s = .next (u.mapCore core
       fun k => { k.setAcc ph ⟨true, x.kind, n, ((s.core core).slot n).lctx, x.lslot, accVals x.kind bs, bad, k.stamp⟩ with
       spilledAcc := k.spilledAcc.erase x, stamp := k.stamp + 1 })) ∧
  (∀ (s : State) (core n ph : Nat) (x : SpilledAcc) (er : TransFail), core < 2048 → n < 8 → s.farHeld core = false →
     ((s.wantedSlots core n).findSome? fun l => (s.core core).isSpilled ((s.core core).slot n).lctx l) = some x →
     (s.core core).freePhys = some ph → s.vread (s.pno core) (psaveAddr ((s.core core).slot n) + x.lslot * 0x4000) 0x4000 = .error er →
     exec (.accSlotReload core n) s = .next (s.areaFault core ((s.core core).slot n).lctx (psaveAddr ((s.core core).slot n) + x.lslot *
       0x4000) 0x4000 2 false)) ∧
  (∀ (s : State) (core a : Nat), core < 2048 → a < 4 → s.halts = false →
     let ps := markFault (s.core core).passes
     let u := s.mapCore core fun k => { k with passes := ps, mx := { k.mx with restarts := sat16 k.mx.restarts ps.length } }
     exec (.arrayFault core a true) s = .next (if thrice ps then u.loseCore core else u)) ∧
  (∀ (s : State) (core a : Nat), core < 2048 → a < 4 → s.halts = false →
     let ps := markFault (s.core core).passes
     let ar := fun k : Core => { k.array a with faults := min 255 ((k.array a).faults + 1), testing := true }
     let mx := fun k : Core => { k.mx with restarts := sat16 k.mx.restarts ps.length, rowfault := true }
     exec (.arrayFault core a false) s = .next (s.mapCore core
       fun k => { k.setArray a (ar k) with restart := k.restart ++ ps, passes := [], mx := mx k })) ∧
  (∀ (s : State) (core a : Nat), core < 2048 → a < 4 → ((s.core core).array a).testing = true → s.halts = false →
     let u := s.mapCore core fun k => (k.setArray a { (s.core core).array a with testing := false }).reissue
     exec (.rowTestComplete core a none) s = .next (if thrice (s.core core).restart then u.loseCore core else u)) ∧
  (∀ (s : State) (core a r : Nat), core < 2048 → a < 4 → r < 32 → ((s.core core).array a).testing = true →
     ((s.core core).array a).spareOn = false → s.halts = false →
     let u := s.inField 1 (s.coreUnit core + fld a 16 + fld r 18) stInternal (if s.pno core = 64 then 0xFF else s.pno core) 0
     let ar := { (s.core core).array a with testing := false, spareOn := true, row := r, runtime := true }
     exec (.rowTestComplete core a (some r)) s = .next (u.mapCore core
       fun k => Core.reissue { k.setArray a ar with restart := k.restart.map fun p : Pass => { p with faults := 0 } })) ∧
  (∀ (s : State) (core a r : Nat), core < 2048 → a < 4 → r < 33 → ((s.core core).array a).testing = true →
     ((s.core core).array a).spareOn = true → s.halts = false →
     let u := s.inField 1 (s.coreUnit core + fld a 16 + fld r 18) stInternal (if s.pno core = 64 then 0xFF else s.pno core) 0
     exec (.rowTestComplete core a (some r)) s = .next ((u.mapCore core
       fun k => k.setArray a { (s.core core).array a with testing := false }).loseCore core))

/-- A signal written to TOKSIG_L lands in the token of its logical context unless that would wait; CTX_CTRL places ECLASS and TOKBANK,
  stops a running context with STOP, and with START begins one in an idle slot, whose logical context is FREE, with the values kept
  there; CTX_CMDPTR places the pointer of an idle slot and moves a paused sequencer; BB_BASE and BB_LIMIT take a legal pair while the
  slot is idle or its sequencer is paused, whose run-ahead buffer is then emptied. -/
def Obligations.ContextRegisterWritesComplete : Prop :=
  (∀ (s : State) (who : Who) (core : Nat) (l : Nat) (v : W64), reaches s who core → l < 16 → (s.core core).sigFull l = false →
     exec (.toksigLWrite who core l v) s = .next (s.setCore core ((s.core core).signal l (bits v.toNat 15 0)).refresh)) ∧
  (∀ (s : State) (who : Who) (core : Nat) (n : Nat) (v : W64), governs s who core → n < 8 →
     ¬(11 ≤ bits (v ||| 2).toNat 11 8 ∧ bits (v ||| 2).toNat 11 8 ≤ 14) → (s.slot core n).st.live = true →
     exec (.ctxCtrlStop who core n v) s = .next (((s.mapSlot core n
       fun c => { c with eclass := bits (v ||| 2).toNat 11 8, bank := bits (v ||| 2).toNat 5 4 }).mapCore core Core.refresh).endOne core
       (((s.mapSlot core n fun c => { c with eclass := bits (v ||| 2).toNat 11 8, bank := bits (v ||| 2).toNat 5 4 }).mapCore core
       Core.refresh).slot core n).lctx .killed stKilled)) ∧
  (∀ (s : State) (who : Who) (core : Nat) (n : Nat) (v : W64), governs s who core → n < 8 →
     ¬(11 ≤ bits (v ||| 1).toNat 11 8 ∧ bits (v ||| 1).toNat 11 8 ≤ 14) → (s.slot core n).st.live = false →
     (n == 7 || ((s.mapSlot core n fun c => { c with eclass := bits (v ||| 1).toNat 11 8, bank := bits (v ||| 1).toNat 5 4 }).mapCore
       core Core.refresh).declared core (((s.mapSlot core n
       fun c => { c with eclass := bits (v ||| 1).toNat 11 8, bank := bits (v ||| 1).toNat 5 4 }).mapCore core Core.refresh).slot core
       n).lctx) = true →
     exec (.ctxCtrlStart who core n v) s = .next ((((s.mapSlot core n
       fun c => { c with eclass := bits (v ||| 1).toNat 11 8, bank := bits (v ||| 1).toNat 5 4 }).mapCore core Core.refresh).mapCore core
       fun k => k.startIn core n (k.slotLctx n)).partEvent (s.pno core) none 0)) ∧
  (∀ (s : State) (who : Who) (core : Nat) (n : Nat) (v : W64), governs s who core → n < 8 →
     ¬(11 ≤ bits (v ||| 1).toNat 11 8 ∧ bits (v ||| 1).toNat 11 8 ≤ 14) → (s.slot core n).st.live = false →
     (n == 7 || ((s.mapSlot core n fun c => { c with eclass := bits (v ||| 1).toNat 11 8, bank := bits (v ||| 1).toNat 5 4 }).mapCore
       core Core.refresh).declared core (((s.mapSlot core n
       fun c => { c with eclass := bits (v ||| 1).toNat 11 8, bank := bits (v ||| 1).toNat 5 4 }).mapCore core Core.refresh).slot core
       n).lctx) = false →
     exec (.ctxCtrlStart who core n v) s = .next ((s.mapSlot core n
       fun c => { c with eclass := bits (v ||| 1).toNat 11 8, bank := bits (v ||| 1).toNat 5 4 }).mapCore core Core.refresh)) ∧
  (∀ (k : Core) (core n l : Nat), (k.slot n).st.live = false → k.ctx? l = none → Tab.find k.ended l = none → k.fenced = false →
     k.startIn core n l = ({ k.setSlot n (((k.slot n).started l k.stamp (n == 7)).freshRegs core k.stamp) with stamp := k.stamp + 1 } :
       Core).refresh) ∧
  (∀ (s : State) (who : Who) (core : Nat) (n : Nat) (v : W64), governs s who core → n < 8 → (s.slot core n).st.live = false →
     exec (.ctxCmdptrWrite who core n v) s = .next (s.setSlot core n
       { s.slot core n with fptr := ⟨bits v.toNat 17 16, bits v.toNat 15 0⟩, buf := [] })) ∧
  (∀ (s : State) (who : Who) (core : Nat) (n : Nat) (v : W64), governs s who core → n < 8 → (s.slot core n).st.live = true →
     (s.slot core n).paused = true →
     exec (.ctxCmdptrWrite who core n v) s = .next (s.emptyBuf core n (some ⟨bits v.toNat 17 16, bits v.toNat 15 0⟩))) ∧
  (∀ (s : State) (who : Who) (core : Nat) (n p : Nat) (limit : Bool) (v : W64), governs s who core → n < 8 → p < 4 →
     (if limit then bits v.toNat 16 0 ≤ 65536 else bits v.toNat 1 0 < 2) → (s.slot core n).st.live = false →
     s.pairLegal core (if limit then { (s.slot core n).pair p with limit := BitVec.ofNat 64 (bits v.toNat 16 0) }
       else { (s.slot core n).pair p with base := BitVec.ofNat 64 (bits v.toNat 47 0) }) = true →
     exec (.bbWrite who core n p limit v) s = .next (s.setSlot core n
       { s.slot core n with
       pairs := Tab.put (s.slot core n).pairs p (if limit then
       { (s.slot core n).pair p with limit := BitVec.ofNat 64 (bits v.toNat 16 0) }
       else { (s.slot core n).pair p with base := BitVec.ofNat 64 (bits v.toNat 47 0) }) })) ∧
  (∀ (s : State) (who : Who) (core : Nat) (n p : Nat) (limit : Bool) (v : W64), governs s who core → n < 8 → p < 4 →
     (if limit then bits v.toNat 16 0 ≤ 65536 else bits v.toNat 1 0 < 2) → (s.slot core n).st.live = true →
     (s.slot core n).paused = true →
     s.pairLegal core (if limit then { (s.slot core n).pair p with limit := BitVec.ofNat 64 (bits v.toNat 16 0) }
       else { (s.slot core n).pair p with base := BitVec.ofNat 64 (bits v.toNat 47 0) }) = true →
     exec (.bbWrite who core n p limit v) s = .next ((s.setSlot core n
       { s.slot core n with
       pairs := Tab.put (s.slot core n).pairs p (if limit then
       { (s.slot core n).pair p with limit := BitVec.ofNat 64 (bits v.toNat 16 0) }
       else { (s.slot core n).pair p with base := BitVec.ofNat 64 (bits v.toNat 47 0) }) }).emptyBuf core n none))

/-- Context 7 sets a row repair, which takes effect when no pass is in flight; CIRC_CFG places a region that may be configured, and
  enabling it empties it, while disabling it leaves its positions; the owner of a region advances its head, at once when none of its
  commands reads the region and otherwise when those have completed; ST_SLOT assigns an UNASSIGNED stream slot, leaves one that is
  assigned as it is, and unassigns one, dropping the transfers it held; CHAIN_CFG and the larder registers are placed while nothing is in
  flight or held. -/
def Obligations.ScratchRegisterWritesComplete : Prop :=
  (∀ (s : State) (who : Who) (core : Nat) (a : Nat) (v : W64), reaches s who core → isService who = true → a < 4 →
     exec (.arrRepairWrite who core a v) s = .next (s.setCore core ((s.core core).setArray a
       { (s.core core).array a with pending := some (bits v.toNat 5 0) }).applyRepairs)) ∧
  (∀ (s : State) (who : Who) (core : Nat) (g : Nat) (v : W64), governs s who core → g < 4 → v.getLsbD 63 = true →
     s.circOk core
       { (s.core core).circAt g with
       en := true, tok := bits v.toNat 59 56, lctx := bits v.toNat 55 52, chunk := bits v.toNat 51 36 + 1,
       size := bits v.toNat 35 20 + 1, start := bits v.toNat 15 0 } = true →
     exec (.circCfgWrite who core g v) s = .next (s.setCore core ((s.core core).setCirc g
       { (s.core core).circAt g with
       en := true, tok := bits v.toNat 59 56, lctx := bits v.toNat 55 52, chunk := bits v.toNat 51 36 + 1,
       size := bits v.toNat 35 20 + 1, start := bits v.toNat 15 0, headPos := 0, headWrap := false, tailPos := 0, tailWrap := false,
       pendHead := none }))) ∧
  (∀ (s : State) (who : Who) (core : Nat) (g : Nat) (v : W64), governs s who core → g < 4 → v.getLsbD 63 = false →
     s.circOk core
       { (s.core core).circAt g with
       en := false, tok := bits v.toNat 59 56, lctx := bits v.toNat 55 52, chunk := bits v.toNat 51 36 + 1,
       size := bits v.toNat 35 20 + 1, start := bits v.toNat 15 0 } = true →
     exec (.circCfgWrite who core g v) s = .next (s.setCore core ((s.core core).setCirc g
       { (s.core core).circAt g with
       en := false, tok := bits v.toNat 59 56, lctx := bits v.toNat 55 52, chunk := bits v.toNat 51 36 + 1,
       size := bits v.toNat 35 20 + 1, start := bits v.toNat 15 0 }))) ∧
  (∀ (s : State) (core n g : Nat) (v : W64), core < 2048 → n < 8 → (s.slot core n).st.live = true →
     s.denied core core (n == 7) = false → g < 4 → (s.slot core n).lctx = ((s.core core).circAt g).lctx →
     bits v.toNat 15 0 < ((s.core core).circAt g).size → ((s.core core).circAt g).pendHead = none →
     (((s.core core).circAt g).turn (bits v.toNat 15 0) (v.toNat.testBit 16) + 2 * ((s.core core).circAt g).size - ((s.core core).circAt
       g).turn ((s.core core).circAt g).headPos ((s.core core).circAt g).headWrap) % (2 * ((s.core core).circAt g).size) ≤ (((s.core
       core).circAt g).turn ((s.core core).circAt g).tailPos ((s.core core).circAt g).tailWrap + 2 * ((s.core core).circAt g).size -
       ((s.core core).circAt g).turn ((s.core core).circAt g).headPos ((s.core core).circAt g).headWrap) % (2 * ((s.core core).circAt
       g).size) →
     let c := (s.core core).circAt g
     let ids := (s.core core).readers core c
     exec (.circHeadWrite (.ctx core n) core g v) s =
       .next (s.setCore core ((s.core core).setCirc g (if ids.isEmpty then c.setHead v.toNat
       else { c with pendHead := some (v.toNat % 2 ^ 17, ids) })))) ∧
  (∀ (s : State) (who : Who) (core : Nat) (n lctx : Nat), governs s who core → n < 16 → lctx < 16 →
     ((s.core core).stSlot n).st = .unassigned →
     exec (.slotAssign who core n lctx) s = .next (s.setCore core ((s.core core).setStSlot n
       { ((s.core core).stSlot n).emptied with owned := true, lctx := lctx, st := .empty }).refresh)) ∧
  (∀ (s : State) (who : Who) (core : Nat) (n lctx : Nat), governs s who core → n < 16 → lctx < 16 →
     ((s.core core).stSlot n).st ≠ .unassigned → exec (.slotAssign who core n lctx) s = .next (s)) ∧
  (∀ (s : State) (who : Who) (core : Nat) (n : Nat), governs s who core → n < 16 →
     exec (.slotUnassign who core n) s = .next (s.setCore core
       ({ ((s.core core).abandon fun y => y.slot == n).setStSlot n { ((s.core core).stSlot n).emptied with
       owned := false, lctx := 0, st := .unassigned
       } with
       pend := ((s.core core).abandon fun y => y.slot == n).pend.filter fun p => !(((s.core core).stSlot n).queue.any
       fun q => q.id == p.id) } : Core).refresh)) ∧
  (∀ (s : State) (who : Who) (core : Nat) (v : W64), governs s who core → (s.core core).chain = none →
     s.partOf (bits v.toNat 10 0) = s.partOf core →
     exec (.chainCfgWrite who core v) s = .next (s.setCore core
       { s.core core with
       chainEn := v.toNat.testBit 63, chainRx := bits v.toNat 19 16, chainNext := bits v.toNat 10 0, chainSet := true })) ∧
  (∀ (s : State) (who : Who) (core : Nat) (v : W64), governs s who core → (s.core core).larder.recs = [] →
     (s.core core).larder.busy = false → bits v.toNat 11 0 + (bits v.toNat 27 16 + 1) ≤ 2048 →
     exec (.larderCfgWrite who core false v) s = .next (s.setCore core
       { s.core core with
       larder :=
       { (s.core core).larder with
       en := v.toNat.testBit 63, owner := bits v.toNat 59 56, lowater := bits v.toNat 43 32, size := bits v.toNat 27 16 + 1,
       start := bits v.toNat 11 0, dir := none, waiting := false, waitingInj := false } })) ∧
  (∀ (s : State) (who : Who) (core : Nat) (v : W64), governs s who core → (s.core core).larder.recs = [] →
     (s.core core).larder.busy = false → bits v.toNat 5 0 ≤ 32 →
     exec (.larderCfgWrite who core true v) s = .next (s.setCore core
       { s.core core with
       larder := { (s.core core).larder with spillAddr := fld (bits v.toNat 47 21) 21, spillPages := bits v.toNat 5 0 } }))

/-- A write of a control window register that its rule performs gives the state of that rule, one that its rule refuses ends a context
  that made it, and a read returns the value and clears what the register clears when read; the same for BAR0 on a function that answers,
  where a poisoned write changes no register and is logged, and a short read gives the addressed bytes of the one register that they lie
  in. BANK_PWR.TARGET takes on and retention, and off unless R130 refuses it, which ends the writer with DENIED, as does a writer that is
  neither context 7 nor the dispatch path. -/
def Obligations.RegisterAccessesComplete : Prop :=
  (∀ (s t : State) (who : Who) (core off : Nat) (v : W64), reaches s who core → 0xC0000 ≤ off → off < 0x100000 → off % 8 = 0 →
     s.winWrite who core off v.toNat = .done t → exec (.registerWrite who (.win core off) v) s = .next t) ∧
  (∀ (s : State) (core n st tgt off : Nat) (v : W64), reaches s (.ctx core n) tgt → 0xC0000 ≤ off → off < 0x100000 → off % 8 = 0 →
     s.winWrite (.ctx core n) tgt off v.toNat = .refused st →
     exec (.registerWrite (.ctx core n) (.win tgt off) v) s = .next (s.faultCtx core (s.slot core n).lctx st)) ∧
  (∀ (s : State) (port func off len : Nat) (v : W64), port < 2 → func < 16 → off < 0x4000000 → off % 8 = 0 →
     s.answers port func = true →
     exec (.registerWrite (.host port func) (.bar0 off len false) v) s = .next (s.bar0Write port func off v.toNat)) ∧
  (∀ (s : State) (port func off len : Nat) (v : W64), port < 2 → func < 16 → off < 0x4000000 → off % 8 = 0 →
     s.answers port func = true →
     exec (.registerWrite (.host port func) (.bar0 off len true) v) s = .next (s.mapFunc port func fun f => f.logAer .poisonedTlp)) ∧
  (∀ (s : State) (port func off len : Nat), port < 2 → func < 16 → 0 < len → off % 8 + len ≤ 8 → off + len ≤ 0x4000000 →
     s.answers port func = true →
     let x := s.bar0Read port func (off / 8 * 8)
     exec (.rcRegisterRead (.host port func) (.bar0 off len false)) s = .next
       { x.2 with busData := BitVec.ofNat 64 (x.1 % 2 ^ 64 / 2 ^ (8 * (off % 8)) % 2 ^ (8 * len)) }) ∧
  (∀ (s : State) (who : Who) (core off : Nat), reaches s who core → 0xC0000 ≤ off → off < 0x100000 → off % 8 = 0 →
     exec (.rcRegisterRead who (.win core off)) s = .next { (s.winRead core off).2 with busData := BitVec.ofNat 64 (s.winValue core off) }) ∧
  (∀ (s : State) (port func off : Nat), port < 2 → func < 16 → off < 0x4000000 → off % 8 = 0 → s.answers port func = true →
     exec (.rcRegisterRead (.host port func) (.bar0 off 8 false)) s = .next
       { (s.bar0Read port func off).2 with busData := BitVec.ofNat 64 (s.bar0Read port func off).1 }) ∧
  (∀ (s : State) (core : Nat),
     ((s.winRead core 0xC4810).2.core core).scr = { (s.core core).scr with corrected := 0, poisoned := 0, wakes := 0, offrefused := 0 }) ∧
  (∀ (s : State) (who : Who) (core b : Nat), governs s who core → b < 6 →
     exec (.bankTargetOn who core b) s = .next (s.setCore core ((s.core core).setBank b (((s.core core).bank b).retarget 0)))) ∧
  (∀ (s : State) (who : Who) (core b : Nat), governs s who core → b < 6 →
     exec (.bankTargetRetention who core b) s = .next (s.setCore core ((s.core core).setBank b (((s.core core).bank b).retarget 1)))) ∧
  (∀ (s : State) (who : Who) (core b : Nat), governs s who core → b < 6 → (s.core core).offRefused b = false →
     exec (.bankTargetOff who core b) s = .next (s.setCore core ((s.core core).setBank b (((s.core core).bank b).retarget 2)))) ∧
  (∀ (s : State) (core n tgt b : Nat), governs s (.ctx core n) tgt → b < 6 → (s.core tgt).offRefused b = true →
     exec (.bankTargetOff (.ctx core n) tgt b) s = .next (s.faultCtx core (s.slot core n).lctx stDenied)) ∧
  (∀ (s : State) (core n tgt b : Nat), reaches s (.ctx core n) tgt → b < 6 → s.mayWrite (.ctx core n) tgt = false →
     exec (.bankTargetOn (.ctx core n) tgt b) s = .next (s.faultCtx core (s.slot core n).lctx stDenied)) ∧
  (∀ (s : State) (core n tgt b : Nat), reaches s (.ctx core n) tgt → b < 6 → s.mayWrite (.ctx core n) tgt = false →
     exec (.bankTargetRetention (.ctx core n) tgt b) s = .next (s.faultCtx core (s.slot core n).lctx stDenied)) ∧
  (∀ (s : State) (core n tgt b : Nat), reaches s (.ctx core n) tgt → b < 6 → s.mayWrite (.ctx core n) tgt = false →
     exec (.bankTargetOff (.ctx core n) tgt b) s = .next (s.faultCtx core (s.slot core n).lctx stDenied))

/-- A vector command whose issue checks pass, whose banks are on, for which the engine is idle, and whose first segment the account
  covers, issues: its tokens are consumed, its charge is taken, it stands among the outstanding commands of its context with its SIG
  token, and its first segment is executed by the rules of its opcode. -/
def Obligations.VectorCommandsComplete : Prop :=
  (∀ (s : State) (core n : Nat) (h : Head) (pl : VPlan), heads s core n 0x60 h → vopPlan s h = .ok pl → vectorReady s h pl →
     affords s h pl.cls (vTerm h.w pl.ops pl.acc 0) → exec (.vop core n) s = .next (vectorStarted s h pl)) ∧
  (∀ (s : State) (core n : Nat) (h : Head) (pl : VPlan), heads s core n 0x61 h → vfuncPlan s h = .ok pl → vectorReady s h pl →
     affords s h pl.cls (vTerm h.w pl.ops pl.acc 0) → exec (.vfunc core n) s = .next (vectorStarted s h pl)) ∧
  (∀ (s : State) (core n : Nat) (h : Head) (pl : VPlan), heads s core n 0x62 h → vderivPlan s h = .ok pl → vectorReady s h pl →
     affords s h pl.cls (vTerm h.w pl.ops pl.acc 0) → exec (.vderiv core n) s = .next (vectorStarted s h pl)) ∧
  (∀ (s : State) (core n : Nat) (h : Head) (pl : VPlan), heads s core n 0x63 h → vreducePlan s h = .ok pl → vectorReady s h pl →
     affords s h pl.cls (vTerm h.w pl.ops pl.acc 0) → exec (.vreduce core n) s = .next (vectorStarted s h pl)) ∧
  (∀ (s : State) (core n : Nat) (h : Head) (pl : VPlan), heads s core n 0x64 h → vnormPlan s h = .ok pl → vectorReady s h pl →
     affords s h pl.cls (vTerm h.w pl.ops pl.acc 0) → exec (.vnormBwd core n) s = .next (vectorStarted s h pl)) ∧
  (∀ (s : State) (core n : Nat) (h : Head) (pl : VPlan), heads s core n 0x65 h → vsoftPlan s h = .ok pl → vectorReady s h pl →
     affords s h pl.cls (vTerm h.w pl.ops pl.acc 0) → exec (.vsoftmaxBwd core n) s = .next (vectorStarted s h pl)) ∧
  (∀ (s : State) (core n : Nat) (h : Head) (pl : VPlan), heads s core n 0x66 h → vcompPlan s h = .ok pl → vectorReady s h pl →
     affords s h pl.cls (vTerm h.w pl.ops pl.acc 0) → exec (.vcompress1 core n) s = .next (vectorStarted s h pl)) ∧
  (∀ (s : State) (core n : Nat) (h : Head) (pl : VPlan), heads s core n 0x67 h → vdecompPlan s h = .ok pl → vectorReady s h pl →
     affords s h pl.cls (vTerm h.w pl.ops pl.acc 0) → exec (.vdecompSum core n) s = .next (vectorStarted s h pl)) ∧
  (∀ (s : State) (core n : Nat) (h : Head) (pl : VPlan), heads s core n 0x68 h → vrandPlan s h = .ok pl → vectorReady s h pl →
     affords s h pl.cls (vTerm h.w pl.ops pl.acc 0) → exec (.vrand core n) s = .next (vectorStarted s h pl)) ∧
  (∀ (s : State) (core n : Nat) (h : Head) (pl : VPlan), heads s core n 0x69 h → vconvPlan s h = .ok pl → vectorReady s h pl →
     affords s h pl.cls (vTerm h.w pl.ops pl.acc 0) → exec (.vconvert core n) s = .next (vectorStarted s h pl)) ∧
  (∀ (s : State) (core n : Nat) (h : Head) (pl : VPlan), heads s core n 0x6a h → vdigPlan s h = .ok pl → vectorReady s h pl →
     affords s h pl.cls (vTerm h.w pl.ops pl.acc 0) → exec (.vdigest core n) s = .next (vectorStarted s h pl))

/-- A further segment of the command in the engine is charged and executed when the account covers it; a lane fault executes the segment
  again, which counts; a command of a context that swaps out is suspended at a segment boundary (OWNER_SUM at the end of a group of
  rows), which counts, with its running values kept; and it enters the engine again, from its next segment, when its context is back and
  the engine is idle. -/
def Obligations.VectorEventsComplete : Prop :=
  (∀ (s : State) (core : Nat) (r : VecRun), core < 2048 → (s.core core).vec = some r →
     s.covers (clusterOf core) (classRate (vRunClass (((s.core core).ctx? r.lctx).getD {}) r.cmd)) (vTerm r.cmd r.ops r.acc r.seg) = true
       →
     s.halts = false →
     let rate := classRate (vRunClass (((s.core core).ctx? r.lctx).getD {}) r.cmd)
     exec (.segmentStart core) s = .next (((s.charge (clusterOf core) rate (vTerm r.cmd r.ops r.acc r.seg)).vStep core r).badHead core
       r.slot)) ∧
  (∀ (s : State) (core : Nat), core < 2048 → s.halts = false →
     exec (.laneFault core) s = .next (s.mapCore core fun k => { k with vx := { k.vx with restarts := sat16 k.vx.restarts 1 } })) ∧
  (∀ (s : State) (core : Nat) (r : VecRun), core < 2048 → (s.core core).vec = some r →
     ((s.core core).ctx? r.lctx).any (fun c => c.st == .swapOut) = true → s.halts = false →
     exec (.vectorSuspend core) s = .next ((s.normBack core r).mapCore core
       fun k => { (k.mapCtx r.lctx fun c => { c with
       vsusp := some (if opcodeOf r.cmd = 0x91 then { r with seg := r.seg / (ownAdds r.acc + 1) * (ownAdds r.acc + 1) }
       else r) }) with vec := none, vx := { k.vx with suspends := sat16 k.vx.suspends 1 } })) ∧
  (∀ (s : State) (core n : Nat) (r : VecRun), core < 2048 → n < 8 → (s.slot core n).vsusp = some r → (s.core core).vec = none →
     ((s.slot core n).st == .ready || (s.slot core n).st == .blocked) = true → s.halts = false →
     exec (.vectorResume core n) s = .next (s.setCore core
       { (s.core core).setSlot n { s.slot core n with vsusp := none } with vec := some (s.normLoad core { r with slot := n }) }))

/-- An idle bank that is on goes to retention, enters it and, when its target is off, turns off; a bank whose wake time has elapsed is
  on, zeroed if it was off, performs the accesses that waited for it in order, and then follows its target; a grant to a guest, at most
  one in 64 cycles, performs the oldest request of the mesh for that bank, if there is one, and counts; without a waiting request it
  counts when an engine of the core that does not own the bank works in it. -/
def Obligations.BanksSleepAndWake : Prop :=
  (∀ (s : State) (core b : Nat), core < 2048 → b < 6 → ((s.core core).bank b).st = .on → (s.core core).bankBusy core b = false →
     (s.cluster (clusterOf core)).retidle ≠ 0 → s.halts = false →
     exec (.bankIdleRetention core b) s = .next (s.mapCore core fun k => k.setBank b { k.bank b with st := .toRet })) ∧
  (∀ (s : State) (core b : Nat), core < 2048 → b < 6 → ((s.core core).bank b).st = .toRet → (s.core core).bankBusy core b = false →
     s.halts = false → exec (.bankRetentionEntry core b) s = .next (s.mapCore core fun k => k.setBank b { k.bank b with st := .ret })) ∧
  (∀ (s : State) (core b : Nat), core < 2048 → b < 6 → ((s.core core).bank b).st = .toOff → (s.core core).bankBusy core b = false →
     s.halts = false → exec (.bankOffEntry core b) s = .next (s.mapCore core fun k => k.setBank b { k.bank b with st := .off })) ∧
  (∀ (s : State) (core b : Nat), core < 2048 → b < 6 → ((s.core core).bank b).st = .wake → s.halts = false →
     let x := (s.core core).bank b
     let u := (if x.fromOff then s.zeroBank core b
       else s).mapCore core fun k => k.setBank b { x with st := .on, held := [], fromOff := false }
     exec (.bankWakeElapsed core b) s = .next ((u.performHeld core x.held).mapCore core
       fun k => k.setBank b ((k.bank b).retarget x.target))) ∧
  (∀ (s : State) (core b : Nat) (m : RemMsg), core < 2048 → b < 6 → ((s.core core).bank b).st = .on →
     ((s.canTake core).find? fun m => s.bankFor m == some b) = some m → s.clusterRuns (clusterOf core) = true →
     (((s.core core).bank b).guestAt.any fun t => (s.core core).clk < t + 25 * 64) = false →
     exec (.guestGrant core b) s = .next ((s.takeRequest core m).mapCore core
       fun k => { k.setBank b { k.bank b with guestAt := some k.clk } with scr := { k.scr with guests := sat16 k.scr.guests 1 } })) ∧
  (∀ (s : State) (core b : Nat), core < 2048 → b < 6 → ((s.core core).bank b).st = .on →
     ((s.canTake core).find? fun m => s.bankFor m == some b) = none → s.clusterRuns (clusterOf core) = true →
     (((s.core core).bank b).guestAt.any fun t => (s.core core).clk < t + 25 * 64) = false →
     exec (.guestGrant core b) s = .next (if (s.core core).hasGuest core b then s.mapCore core
       fun k => { k.setBank b { k.bank b with guestAt := some k.clk } with scr := { k.scr with guests := sat16 k.scr.guests 1 } } else s))

/-- The oldest access that has reached a core and can be performed is performed there and its answer goes back, or it waits for a bank
  that wakes, and one whose holder has been revoked is not performed and poisons what it would have written; an answer that comes back
  completes the access: a load writes its destination register, a store is acknowledged, and a refusal ends the context with its status;
  an answer whose command is gone only gives its place back. The oldest remote signal that has reached a core: from a context of the same
  partition (or from service firmware) it increments the tokens of its target logical context and completes the command of its sender;
  aimed at another partition it is discarded and counted, and its sender, if its command still stands, ends with DENIED. -/
def Obligations.RemoteAccessesComplete : Prop :=
  (∀ (s t : State) (core st : Nat) (m : RemMsg) (q : List RemMsg) (v : W64) (bad : Bool), core < 2048 → s.canTake core = m :: q →
     ((s.mapCore core fun k => { k with arriving := k.arriving.erase m }).remArrive core m).remDo core m = .answer st v bad t →
     s.alive m = true → s.halts = false → exec (.remoteRequest core) s = .next (t.answerTo m st v bad)) ∧
  (∀ (s : State) (core : Nat) (m : RemMsg) (q : List RemMsg), core < 2048 → s.canTake core = m :: q → s.alive m = false →
     s.halts = false →
     exec (.remoteRequest core) s = .next ((s.mapCore core fun k => { k with arriving := k.arriving.erase m }).remDead m)) ∧
  (∀ (s : State) (core b : Nat) (m : RemMsg) (q : List RemMsg), core < 2048 → s.canTake core = m :: q →
     ((s.mapCore core fun k => { k with arriving := k.arriving.erase m }).remArrive core m).remDo core m = .held b → s.alive m = true →
     s.halts = false →
     let u := (s.mapCore core fun k => { k with arriving := k.arriving.erase m }).remArrive core m
     exec (.remoteRequest core) s = .next (u.mapCore core fun k => k.setBank b { k.bank b with held := (k.bank b).held ++ [m] })) ∧
  (∀ (s : State) (core : Nat) (m : RemMsg) (q : List RemMsg) (v : W64), core < 2048 → (s.core core).answers = m :: q → m.isRead = true →
     ((s.core core).pend.any fun p => p.id == m.id) = true → m.answer = some (stOk, v) → s.halts = false →
     let k := { s.core core with answers := q, outR := (s.core core).outR - 1 }
     exec (.remoteResponse core) s = .next (((s.setCore core k).setCore core ((k.mapCtx m.lctx
       fun c => { c.put m.rd (m.value v) m.poison with ccLoad := none }).complete m.id)).badHead core m.slot)) ∧
  (∀ (s : State) (core : Nat) (m : RemMsg) (q : List RemMsg) (v : W64), core < 2048 → (s.core core).answers = m :: q →
     m.isRead = false → ((s.core core).pend.any fun p => p.id == m.id) = true → m.answer = some (stOk, v) → s.halts = false →
     let k := { s.core core with answers := q, outW := (s.core core).outW - 1 }
     exec (.remoteResponse core) s = .next (((s.setCore core k).setCore core (k.complete m.id)).badHead core m.slot)) ∧
  (∀ (s : State) (core st : Nat) (m : RemMsg) (q : List RemMsg) (v : W64), core < 2048 → (s.core core).answers = m :: q →
     ((s.core core).pend.any fun p => p.id == m.id) = true → m.answer = some (st, v) → st ≠ stOk → s.halts = false →
     let k := { s.core core with
       answers := q, outR := if m.isRead then (s.core core).outR - 1 else (s.core core).outR, outW := if m.isRead then (s.core core).outW
       else (s.core core).outW - 1 }
     exec (.remoteResponse core) s = .next ((s.setCore core k).faultCtx core m.lctx st)) ∧
  (∀ (s : State) (core : Nat) (m : RemMsg) (q : List RemMsg), core < 2048 → (s.core core).answers = m :: q →
     ((s.core core).pend.any fun p => p.id == m.id) = false → s.halts = false →
     exec (.remoteResponse core) s = .next (s.setCore core
       { s.core core with
       answers := q, outR := if m.isRead then (s.core core).outR - 1 else (s.core core).outR, outW := if m.isRead then (s.core core).outW
       else (s.core core).outW - 1 })) ∧
  (∀ (s : State) (core lctx mask : Nat) (m : RemMsg), core < 2048 → s.firstSignal (s.core core).arriving [] = some m →
     m.op = .signal lctx mask → m.svc = true ∨ ((s.partOf core).isSome = true ∧ s.partOf core = s.partOf m.src) →
     (s.core core).fenced = false → (s.core core).sigFull lctx = false → s.halts = false →
     exec (.remoteSignalArrival core) s = .next (((s.mapCore core
       fun k => ({ k with arriving := k.arriving.erase m } : Core).signal lctx mask).mapCore m.src
       fun k => ({ k with outW := k.outW - 1 } : Core).complete m.id).badHead m.src m.slot)) ∧
  (∀ (s : State) (core lctx mask : Nat) (m : RemMsg), core < 2048 → s.firstSignal (s.core core).arriving [] = some m →
     m.op = .signal lctx mask → m.svc = false → s.partOf core ≠ s.partOf m.src → ((s.core m.src).pend.any fun p => p.id == m.id) = true →
     s.halts = false →
     exec (.remoteSignalArrival core) s = .next (((s.mapCore core
       fun k => { k with arriving := k.arriving.erase m, scr := { k.scr with remdenied := sat16 k.scr.remdenied 1 } }).mapCore m.src
       fun k => { k with outW := k.outW - 1 }).faultCtx m.src m.lctx stDenied)) ∧
  (∀ (s : State) (core lctx mask : Nat) (m : RemMsg), core < 2048 → s.firstSignal (s.core core).arriving [] = some m →
     m.op = .signal lctx mask → m.svc = false → s.partOf core ≠ s.partOf m.src → ((s.core m.src).pend.any fun p => p.id == m.id) = false →
     s.halts = false →
     exec (.remoteSignalArrival core) s = .next ((s.mapCore core
       fun k => { k with arriving := k.arriving.erase m, scr := { k.scr with remdenied := sat16 k.scr.remdenied 1 } }).mapCore m.src
       fun k => { k with outW := k.outW - 1 }))

/-- ARM reads the descriptor: in a slot without transfers it becomes the active one, behind transfers the shadow, and a slot that holds a
  shadow drops it with DESC_BUSY as the last status and a signal of its BUSY token. STREAM_IN, STREAM_OUT and TRANSPOSE_IN hand a
  transfer off to their slot with the descriptor and far starts that come next. SWAP_HALVES toggles the half and can place the half it
  leaves in a pair. COPY_REMOTE copies in requests of 64 bytes and pays for those that leave the core; a request that its target refuses
  ends the context, after those before it. -/
def Obligations.StreamCommandsComplete : Prop :=
  (∀ (s : State) (core n off : Nat) (h : Head) (d : BitVec 512), heads s core n 0x25 h →
     ((s.core core).stSlot (cf h.w 23 20)).isOf h.ctx.lctx = true → (h.ctx.pair (cf h.w 25 24)).isLocal core = true →
     cf h.w 41 26 * 16 + 64 ≤ (h.ctx.pair (cf h.w 25 24)).lim * 16 →
     off = ((h.ctx.pair (cf h.w 25 24)).addr - scratchBase) % 2 ^ 20 + cf h.w 41 26 * 16 → (s.core core).bankIsOff off 64 = false →
     (s.core core).bankIsOn off 64 = true → d = BitVec.ofNat 512 (leNat (s.rds (scrPa core off) 64)) →
     descOk d ((h.ctx.pair (dNpair d)).mode == 1) = true → affords s h 0 1 → ((s.core core).stSlot (cf h.w 23 20)).queue = [] →
     exec (.arm core n) s = .next (((issued s h 0 1).mapCore core
       fun k => k.setStSlot (cf h.w 23 20) { (k.stSlot (cf h.w 23 20)).activate d (dFar d) (dSfar d) with st := .armed }).done h)) ∧
  (∀ (s : State) (core n off : Nat) (h : Head) (d : BitVec 512), heads s core n 0x25 h →
     ((s.core core).stSlot (cf h.w 23 20)).isOf h.ctx.lctx = true → (h.ctx.pair (cf h.w 25 24)).isLocal core = true →
     cf h.w 41 26 * 16 + 64 ≤ (h.ctx.pair (cf h.w 25 24)).lim * 16 →
     off = ((h.ctx.pair (cf h.w 25 24)).addr - scratchBase) % 2 ^ 20 + cf h.w 41 26 * 16 → (s.core core).bankIsOff off 64 = false →
     (s.core core).bankIsOn off 64 = true → d = BitVec.ofNat 512 (leNat (s.rds (scrPa core off) 64)) →
     descOk d ((h.ctx.pair (dNpair d)).mode == 1) = true → affords s h 0 1 → ((s.core core).stSlot (cf h.w 23 20)).queue.isEmpty = false →
     ((s.core core).stSlot (cf h.w 23 20)).shadow.isNone = true →
     exec (.arm core n) s = .next (((issued s h 0 1).mapCore core
       fun k => k.setStSlot (cf h.w 23 20)
       { k.stSlot (cf h.w 23 20) with
       shadow := some d, farS := dFar d, sfarS := dSfar d, shadowAt := ((s.core core).stSlot (cf h.w 23 20)).queue.length }).done h)) ∧
  (∀ (s : State) (core n off : Nat) (h : Head) (d : BitVec 512), heads s core n 0x25 h →
     ((s.core core).stSlot (cf h.w 23 20)).isOf h.ctx.lctx = true → (h.ctx.pair (cf h.w 25 24)).isLocal core = true →
     cf h.w 41 26 * 16 + 64 ≤ (h.ctx.pair (cf h.w 25 24)).lim * 16 →
     off = ((h.ctx.pair (cf h.w 25 24)).addr - scratchBase) % 2 ^ 20 + cf h.w 41 26 * 16 → (s.core core).bankIsOff off 64 = false →
     (s.core core).bankIsOn off 64 = true → d = BitVec.ofNat 512 (leNat (s.rds (scrPa core off) 64)) →
     descOk d ((h.ctx.pair (dNpair d)).mode == 1) = true → affords s h 0 1 → ((s.core core).stSlot (cf h.w 23 20)).queue.isEmpty = false →
     ((s.core core).stSlot (cf h.w 23 20)).shadow.isNone = false →
     let u := (issued s h 0 1).mapCore core fun k =>
       { (k.mapCtx h.ctx.lctx fun c => { c with lastStatus := stDescBusy }) with descbusy := sat16 k.descbusy 1 }
     exec (.arm core n) s = .next ((if cf h.w 45 42 = 0xF then u
       else u.mapCore core fun k => k.signal h.ctx.lctx (2 ^ cf h.w 45 42)).settle core n)) ∧
  (∀ (s : State) (core n : Nat) (h : Head) (near : Near), heads s core n 0x20 h →
     ((s.core core).stSlot (cf h.w 23 20)).isOf h.ctx.lctx = true → ((s.core core).stSlot (cf h.w 23 20)).st ≠ .empty →
     nearPlan s core h.ctx ((s.core core).stSlot (cf h.w 23 20)).nextDesc.1 ((s.core core).stSlot (cf h.w 23 20)).nextDesc.2.2.2 false
       false = .ok near →
     near.isOff (s.core core) = false → near.isOn (s.core core) = true → ((s.core core).stSlot (cf h.w 23 20)).queue.length < 4 →
     s.farHeld core = false → affords s h 0 1 →
     let q := cf h.w 23 20
     let d := ((s.core core).stSlot q).nextDesc
     let u := (issued s h 0 1).leave h .stream
     exec (.streamIn core n) s = .next ((u.2.handOff core q ⟨u.1, n, h.ctx.lctx, .streamIn, d.1, near.at', near.circ, d.2.1, d.2.2.1,
       nearExt d.1 false, 0, false⟩ (cb h.w 24)).settle core n)) ∧
  (∀ (s : State) (core n : Nat) (h : Head) (near : Near), heads s core n 0x21 h →
     ((s.core core).stSlot (cf h.w 23 20)).isOf h.ctx.lctx = true → ((s.core core).stSlot (cf h.w 23 20)).st ≠ .empty →
     nearPlan s core h.ctx ((s.core core).stSlot (cf h.w 23 20)).nextDesc.1 ((s.core core).stSlot (cf h.w 23 20)).nextDesc.2.2.2 false
       true = .ok near →
     near.isOff (s.core core) = false → near.isOn (s.core core) = true → ((s.core core).stSlot (cf h.w 23 20)).queue.length < 4 →
     s.farHeld core = false → affords s h 0 1 →
     let q := cf h.w 23 20
     let d := ((s.core core).stSlot q).nextDesc
     let u := (issued s h 0 1).leave h .stream
     exec (.streamOut core n) s = .next ((u.2.handOff core q ⟨u.1, n, h.ctx.lctx, .streamOut, d.1, near.at', near.circ, d.2.1, d.2.2.1,
       nearExt d.1 false, 0, false⟩ (cb h.w 24)).settle core n)) ∧
  (∀ (s : State) (core n : Nat) (h : Head) (near : Near), heads s core n 0x26 h →
     ((s.core core).stSlot (cf h.w 23 20)).isOf h.ctx.lctx = true → ((s.core core).stSlot (cf h.w 23 20)).st ≠ .empty →
     nearPlan s core h.ctx ((s.core core).stSlot (cf h.w 23 20)).nextDesc.1 ((s.core core).stSlot (cf h.w 23 20)).nextDesc.2.2.2 true
       false = .ok near →
     near.isOff (s.core core) = false → near.isOn (s.core core) = true → ((s.core core).stSlot (cf h.w 23 20)).queue.length < 4 →
     s.farHeld core = false → affords s h 0 1 →
     let q := cf h.w 23 20
     let d := ((s.core core).stSlot q).nextDesc
     let u := (issued s h 0 1).leave h .stream
     exec (.transposeIn core n) s = .next ((u.2.handOff core q ⟨u.1, n, h.ctx.lctx, .transposeIn, d.1, near.at', near.circ, d.2.1,
       d.2.2.1, nearExt d.1 true, 0, false⟩ (cb h.w 24)).settle core n)) ∧
  (∀ (s : State) (core n : Nat) (h : Head), heads s core n 0x24 h → ((s.core core).stSlot (cf h.w 23 20)).isOf h.ctx.lctx = true →
     ((s.core core).stSlot (cf h.w 23 20)).st ≠ .empty → ((s.core core).stSlot (cf h.w 23 20)).queue = [] → cb h.w 26 = false →
     cf h.w 25 24 ≠ dNpair ((s.core core).stSlot (cf h.w 23 20)).desc → dHalves ((s.core core).stSlot (cf h.w 23 20)).desc = true →
     nearExt ((s.core core).stSlot (cf h.w 23 20)).desc false ≤ dHsize ((s.core core).stSlot (cf h.w 23 20)).desc → affords s h 0 1 →
     exec (.swapHalves core n) s = .next (((issued s h 0 1).mapCore core
       fun k => k.setStSlot (cf h.w 23 20) { k.stSlot (cf h.w 23 20) with hsel := !((s.core core).stSlot (cf h.w 23 20)).hsel }).done h)) ∧
  (∀ (s : State) (core n : Nat) (h : Head), heads s core n 0x24 h → ((s.core core).stSlot (cf h.w 23 20)).isOf h.ctx.lctx = true →
     ((s.core core).stSlot (cf h.w 23 20)).st ≠ .empty → ((s.core core).stSlot (cf h.w 23 20)).queue = [] → cb h.w 26 = true →
     (s.core core).pairBusy h.ctx.lctx (cf h.w 25 24) = false → cf h.w 25 24 ≠ dNpair ((s.core core).stSlot (cf h.w 23 20)).desc →
     dHalves ((s.core core).stSlot (cf h.w 23 20)).desc = true →
     nearExt ((s.core core).stSlot (cf h.w 23 20)).desc false ≤ dHsize ((s.core core).stSlot (cf h.w 23 20)).desc → affords s h 0 1 →
     let x := ((s.core core).stSlot (cf h.w 23 20))
     let base := (h.ctx.pair (dNpair x.desc)).addr + dNoff x.desc * 16 + (if x.hsel then dHsize x.desc else 0)
     exec (.swapHalves core n) s = .next ((((issued s h 0 1).mapCore core
       fun k => k.setStSlot (cf h.w 23 20) { k.stSlot (cf h.w 23 20) with hsel := !x.hsel }).mapSlot core n fun c =>
     { c with pairs := Tab.put c.pairs (cf h.w 25 24) ⟨BitVec.ofNat 64 base, BitVec.ofNat 64 (dHsize x.desc / 16)⟩ }).done h)) ∧
  (∀ (s : State) (core n ts os td od : Nat) (h : Head), heads s core n 0x23 h →
     copySide s core h.ctx (cf h.w 21 20) (cf h.w 37 22) ((cf h.w 71 56 + 1) * 16) = .ok (ts, os) →
     copySide s core h.ctx (cf h.w 39 38) (cf h.w 55 40) ((cf h.w 71 56 + 1) * 16) = .ok (td, od) → s.farHeld core = false →
     ts = core ∨ (s.core core).outR < 64 → td = core ∨ (s.core core).writesFull = false →
     s.copyMeets core n ts os td od ((cf h.w 71 56 + 1) * 16) = (none, false) → affords s h 0 1 →
     let len := (cf h.w 71 56 + 1) * 16
     let reqs := (if ts = core then 0 else cdiv len 64) + (if td = core then 0 else cdiv len 64)
     exec (.copyRemote core n) s = .next ((((((issued s h 0 1).touchBanks ts os len).touchBanks td od len).copyLines (scrPa td od) (scrPa
       ts os) len).chargeData core (40 * reqs)).done h)) ∧
  (∀ (s : State) (core n ts os td od i t st : Nat) (h : Head), heads s core n 0x23 h →
     copySide s core h.ctx (cf h.w 21 20) (cf h.w 37 22) ((cf h.w 71 56 + 1) * 16) = .ok (ts, os) →
     copySide s core h.ctx (cf h.w 39 38) (cf h.w 55 40) ((cf h.w 71 56 + 1) * 16) = .ok (td, od) → s.farHeld core = false →
     ts = core ∨ (s.core core).outR < 64 → td = core ∨ (s.core core).writesFull = false →
     s.copyMeets core n ts os td od ((cf h.w 71 56 + 1) * 16) = (some (i, t, st), false) → affords s h 0 1 →
     let len := 64 * i
     let reqs := (if ts = core then 0 else cdiv len 64) + (if td = core then 0 else cdiv len 64)
     exec (.copyRemote core n) s = .next (((((((issued s h 0 1).touchBanks ts os len).touchBanks td od len).copyLines (scrPa td od)
       (scrPa ts os) len).chargeData core (40 * reqs)).noteRefused t st).faultCtx core h.ctx.lctx st))

/-- The front transfer of a slot runs as far as it goes: when all of it has moved, it leaves the slot and its command completes; at a far
  line that does not translate it stops with its place kept, the slot suspends, the suspension counts, and the fault goes to the
  partition; at a condition of Table 5.4 the slot empties and its context ends with the status. A prefetch fetches the missing far lines
  of the nearest prefetchable command. -/
def Obligations.StreamEventsComplete : Prop :=
  (∀ (s : State) (core n : Nat) (x : Xfer) (q : List Xfer), core < 2048 → n < 16 → ((s.core core).stSlot n).queue = x :: q →
     ((s.core core).stSlot n).st = .active → (s.core core).fenced = false → s.farHeld core = false → s.nearWaits core x = false →
     (s.runXfer core n x).1 = .complete → x.kind ≠ .chainHead →
     let u := ((s.runXfer core n x).2.2.usePf core n ((s.core core).stSlot n).gen x).mapCore core
       fun k => k.setStSlot n (k.stSlot n).advance
     exec (.transferComplete core n) s = .next ((u.mapCore core fun k => k.complete x.id).badHead core x.hw)) ∧
  (∀ (s : State) (core n va : Nat) (x : Xfer) (q : List Xfer) (u : XUnit) (er : TransFail), core < 2048 → n < 16 →
     ((s.core core).stSlot n).queue = x :: q → ((s.core core).stSlot n).st = .active → (s.core core).fenced = false →
     s.farHeld core = false → s.nearWaits core x = false → (s.runXfer core n x).1 = .suspend u va er →
     let v := (s.runXfer core n x).2.2.mapCore core fun k =>
     { k.setStSlot n { k.stSlot n with
       st := .suspended, queue := (s.runXfer core n x).2.1 :: q, idx := u.idx, sph := u.sph,
       faultVa := va } with suspensions := sat16 k.suspensions 1 }
     exec (.transferSuspend core n) s = .next (((v.transFault (v.pno core) va er 0 n x.lctx (x.kind == .streamOut) core).imageSusp core
       x.lctx n).mapCore core Core.refresh)) ∧
  (∀ (s : State) (core n st : Nat) (x : Xfer) (q : List Xfer), core < 2048 → n < 16 → ((s.core core).stSlot n).queue = x :: q →
     ((s.core core).stSlot n).st = .active → (s.core core).fenced = false → s.farHeld core = false → s.nearWaits core x = false →
     (s.runXfer core n x).1 = .fail st →
     exec (.transferFailure core n) s = .next (((s.runXfer core n x).2.2.noteRefused (nearPlace x.near).2.1 st).stopXfer core n x.lctx st)) ∧
  (∀ (s : State) (core n : Nat) (x : PfCand), core < 2048 → n < 8 →
     ((s.slot core n).st == .ready || (s.slot core n).st == .blocked) = true → (s.core core).fenced = false → s.farHeld core = false →
     ((pfCands (s.core core) (s.slot core n)).find?
       fun y => !(s.core core).gaveUp (s.slot core n).lctx y && !((s.core core).pfWant (s.slot core n).lctx y).isEmpty) = some x →
     exec (.prefetch core n) s = .next (s.fetchAhead core (s.slot core n).lctx x))

/-- A head of a chain sends its tile from its own bank W, or streams it in first through its slot; a relay or tail takes what its link
  has received. A message that arrives goes to the receiver in progress, else into the receive buffer, where a line without its header is
  dropped, and the sender completes when its last line has left the link. -/
def Obligations.ChainCommandsComplete : Prop :=
  (∀ (s : State) (core n off : Nat) (h : Head), heads s core n 0x22 h → chRole h.w = 0 → cb h.w 56 = true → cf h.w 55 52 = 0 →
     (s.core core).chainEn = true → chainOff s core h.ctx h.w = .ok off → (s.core core).bankIsOn off (chLen h.w) = true →
     (s.core core).chain = none → affords s h 0 1 →
     let u := (issued s h 0 1).leave h .chain
     exec (.chainW core n) s = .next ((u.2.chainSend core ⟨u.1, n, h.ctx.lctx, h.w, off, false, 0⟩).settle core n)) ∧
  (∀ (s : State) (core n off : Nat) (h : Head), heads s core n 0x22 h → chRole h.w = 0 → cb h.w 56 = false →
     ((s.core core).stSlot (cf h.w 55 52)).isOf h.ctx.lctx = true → ((s.core core).stSlot (cf h.w 55 52)).st ≠ .empty →
     (s.core core).chainEn = true → nearExt ((s.core core).stSlot (cf h.w 55 52)).nextDesc.1 false = chLen h.w →
     chainOff s core h.ctx h.w = .ok off → (s.core core).bankIsOn off (chLen h.w) = true → (s.core core).chain = none →
     ((s.core core).stSlot (cf h.w 55 52)).queue.length < 4 → s.farHeld core = false → affords s h 0 1 →
     let q := cf h.w 55 52
     let d := ((s.core core).stSlot q).nextDesc
     let u := (issued s h 0 1).leave h .chain
     let v := u.2.mapCore core fun k => { k with chain := some ⟨u.1, n, h.ctx.lctx, h.w, off, false, 0⟩ }
     exec (.chainW core n) s = .next ((v.handOff core q ⟨u.1, n, h.ctx.lctx, .chainHead, d.1, scrPa core off, none, d.2.1, d.2.2.1,
       chLen h.w, 0, false⟩ false).settle core n)) ∧
  (∀ (s : State) (core n off : Nat) (h : Head), heads s core n 0x22 h → chRole h.w = 1 ∧ (s.core core).chainEn = true ∨ chRole h.w = 2 →
     cb h.w 56 = false → cf h.w 55 52 = 0 → chainOff s core h.ctx h.w = .ok off → (s.core core).bankIsOn off (chLen h.w) = true →
     (s.core core).chain = none → (s.core core).chainRx = h.ctx.lctx → affords s h 0 1 →
     let u := (issued s h 0 1).leave h .chain
     exec (.chainW core n) s = .next (((u.2.mapCore core
       fun k => { k with chain := some ⟨u.1, n, h.ctx.lctx, h.w, off, false, 0⟩ }).chainDrain core 64).settle core n)) ∧
  (∀ (s : State) (core : Nat) (m : Nat × ChainMsg) (q : List (Nat × ChainMsg)), core < 2048 → (s.core core).chainIn = m :: q →
     (s.core core).chain = none → (s.core core).chainBuf.length < 32 →
     ((s.core core).chainBuf.isEmpty && (match m.2 with | .line _ _ => true | _ => false)) = false →
     ((s.setCore core { s.core core with chainIn := q }).mapCore core
       fun k => { k with chainBuf := k.chainBuf ++ [m] }).upstream core = none →
     s.halts = false →
     exec (.chainLineArrival core) s = .next (((s.setCore core { s.core core with chainIn := q }).mapCore core
       fun k => { k with chainBuf := k.chainBuf ++ [m] }))) ∧
  (∀ (s : State) (core : Nat) (m : Nat × ChainMsg) (q : List (Nat × ChainMsg)), core < 2048 → (s.core core).chainIn = m :: q →
     (s.core core).chain = none → (s.core core).chainBuf = [] → (match m.2 with | .line _ _ => true | _ => false) = true →
     (s.setCore core { s.core core with chainIn := q }).upstream core = none → s.halts = false →
     exec (.chainLineArrival core) s = .next (s.setCore core { s.core core with chainIn := q })) ∧
  (∀ (s : State) (core : Nat) (c : ChainRun) (m : Nat × ChainMsg) (q : List (Nat × ChainMsg)), core < 2048 →
     (s.core core).chainIn = m :: q → (s.core core).chain = some c → chRole c.cmd ≠ 0 →
     ((s.setCore core { s.core core with chainIn := q }).chainFeed core c m.2).upstream core = none → s.halts = false →
     exec (.chainLineArrival core) s = .next ((s.setCore core { s.core core with chainIn := q }).chainFeed core c m.2)) ∧
  (∀ (s : State) (core v : Nat) (c d : ChainRun) (m : Nat × ChainMsg) (q : List (Nat × ChainMsg)), core < 2048 →
     (s.core core).chainIn = m :: q → (s.core core).chain = some c → chRole c.cmd ≠ 0 →
     ((s.setCore core { s.core core with chainIn := q }).chainFeed core c m.2).upstream core = some v →
     (((s.setCore core { s.core core with chainIn := q }).chainFeed core c m.2).core v).chain = some d → s.halts = false →
     exec (.chainLineArrival core) s = .next ((((s.setCore core { s.core core with chainIn := q }).chainFeed core c m.2).mapCore v
       fun k => ({ k with chain := none } : Core).complete d.id).badHead v d.hw)) ∧
  (∀ (s : State) (core v : Nat) (d : ChainRun) (m : Nat × ChainMsg) (q : List (Nat × ChainMsg)), core < 2048 →
     (s.core core).chainIn = m :: q → (s.core core).chain.filter (fun c => chRole c.cmd != 0) = none →
     ((s.core core).chainBuf.isEmpty && (match m.2 with | .line _ _ => true | _ => false)) = false → (s.core core).chainBuf.length < 32 →
     ((s.setCore core { s.core core with chainIn := q }).mapCore core
       fun k => { k with chainBuf := k.chainBuf ++ [m] }).upstream core = some v →
     (((s.setCore core { s.core core with chainIn := q }).mapCore core
       fun k => { k with chainBuf := k.chainBuf ++ [m] }).core v).chain = some d →
     s.halts = false →
     exec (.chainLineArrival core) s = .next (((((s.setCore core { s.core core with chainIn := q }).mapCore core
       fun k => { k with chainBuf := k.chainBuf ++ [m] }).mapCore v
       fun k => ({ k with chain := none } : Core).complete d.id)).badHead v d.hw))

/-- PUSH_CKPT, when the larder can take the record and has made room for it, writes it at the top, and a poisoned source ends its context
  with nothing pushed; POP_CKPT with DROP removes the top record that the command names, without DROP it delivers the data too, with the
  pepper state when PEP is set, and a record that the command does not name or whose fetch-back failed ends the context; PEEK_CKPT
  delivers a record, on chip or spilled, and leaves the larder as it is; REPLAY_BEGIN pushes its return and jumps in replay mode,
  REPLAY_END returns from it, and outside replay takes one cycle. -/
def Obligations.CheckpointCommandsComplete : Prop :=
  (∀ (s : State) (core n off : Nat) (h : Head), heads s core n 0x80 h → pushCheck (s.core core) core h = .ok off →
     (s.core core).bankIsOn off (pushData h.w) = true →
     (s.core core).bankIsOn (s.core core).larder.region.1 (s.core core).larder.region.2 = true →
     cb h.w 20 = false ∨ (s.core core).vecOf h.ctx = false → (s.core core).larder.canTake (pushLen h.w / 128) = true →
     pushLen h.w / 128 ≤ ((s.core core).larder.makeRoom (pushLen h.w / 128) (s.farHeld core)).freeLines →
     affords s h 0 (14 + pushLen h.w / 128 + cellarT off) →
     (issued s h 0 (14 + pushLen h.w / 128 + cellarT off)).anyPoison (scrPa core off) (pushData h.w) = false →
     exec (.pushCkpt core n) s = .next (((issued s h 0 (14 + pushLen h.w / 128 + cellarT off)).pushRec h ((s.core core).larder.makeRoom
       (pushLen h.w / 128) (s.farHeld core)) off).done h)) ∧
  (∀ (s : State) (core n off : Nat) (h : Head), heads s core n 0x80 h → pushCheck (s.core core) core h = .ok off →
     (s.core core).bankIsOn off (pushData h.w) = true →
     (s.core core).bankIsOn (s.core core).larder.region.1 (s.core core).larder.region.2 = true →
     cb h.w 20 = false ∨ (s.core core).vecOf h.ctx = false → (s.core core).larder.canTake (pushLen h.w / 128) = true →
     pushLen h.w / 128 ≤ ((s.core core).larder.makeRoom (pushLen h.w / 128) (s.farHeld core)).freeLines →
     affords s h 0 (14 + pushLen h.w / 128 + cellarT off) →
     (issued s h 0 (14 + pushLen h.w / 128 + cellarT off)).anyPoison (scrPa core off) (pushData h.w) = true →
     exec (.pushCkpt core n) s = .next ((issued s h 0 (14 + pushLen h.w / 128 + cellarT off)).failed h stPoisoned)) ∧
  (∀ (s : State) (core n : Nat) (h : Head) (r : Rec) (t : List Rec), heads s core n 0x81 h → popCheck (s.core core) core h = .ok () →
     (s.core core).larder.recs = r :: t → cb h.w 21 = true → r.st ≠ .spilling → r.block = cf h.w 55 40 → r.step = cf h.w 87 56 →
     affords s h 0 4 → exec (.popCkpt core n) s = .next (((issued s h 0 4).popRec core h.injected t).done h)) ∧
  (∀ (s : State) (core n off : Nat) (h : Head) (r : Rec) (t : List Rec), heads s core n 0x81 h →
     popCheck (s.core core) core h = .ok () → (s.core core).larder.recs = r :: t → cb h.w 21 = false → r.st = .onChip →
     r.block = cf h.w 55 40 → r.step = cf h.w 87 56 → (cb h.w 20 = true → r.pep = true ∧ (s.core core).vecOf h.ctx = false) →
     ckOff (s.core core) core h.ctx (cf h.w 23 22) (cf h.w 39 24) r.dlen = .ok off → (s.core core).bankIsOn off r.dlen = true →
     (s.core core).bankIsOn (s.core core).larder.region.1 (s.core core).larder.region.2 = true →
     affords s h 0 (14 + r.lines + cellarT off) →
     let u := issued s h 0 (14 + r.lines + cellarT off)
     let d := u.larRead core (r.line * 128 + 32) r.dlen
     let bad := u.larBads core (r.line * 128 + 32) r.dlen
     let snap := if cb h.w 20 then some (u.larRead core (r.line * 128 + 32 + r.dlen) 2048) else none
     exec (.popCkpt core n) s = .next ((u.popRec core h.injected t).ckDeliver h off d.1 bad snap)) ∧
  (∀ (s : State) (core n : Nat) (h : Head) (r : Rec) (t : List Rec), heads s core n 0x81 h → popCheck (s.core core) core h = .ok () →
     (s.core core).larder.recs = r :: t →
     (r.st = .failed ∧ cb h.w 21 = false) ∨ (r.st = .onChip ∧ (r.block ≠ cf h.w 55 40 ∨ r.step ≠ cf h.w 87 56)) →
     exec (.popCkpt core n) s = .next (s.failed h (if r.st = .failed then stCheckMismatch else stIllegalOp))) ∧
  (∀ (s : State) (core n off : Nat) (h : Head) (r : Rec), heads s core n 0x82 h → peekCheck (s.core core) core h = .ok () →
     (s.core core).larder.recs[cf h.w 41 38]? = some r → r.st = .onChip →
     (cb h.w 43 = true → r.pep = true ∧ (s.core core).vecOf h.ctx = false) →
     ckOff (s.core core) core h.ctx (cf h.w 21 20) (cf h.w 37 22) (if cb h.w 42 then 32 else r.dlen) = .ok off →
     (s.core core).bankIsOn off (if cb h.w 42 then 32 else r.dlen) = true →
     (s.core core).bankIsOn (s.core core).larder.region.1 (s.core core).larder.region.2 = true →
     affords s h 0 (14 + cdiv (if cb h.w 42 then 32 else r.dlen) 128 + cellarT off) →
     let len := if cb h.w 42 then 32 else r.dlen
     let u := issued s h 0 (14 + cdiv len 128 + cellarT off)
     let d := u.larRead core (r.line * 128 + if cb h.w 42 then 0 else 32) len
     let bad := u.larBads core (r.line * 128 + if cb h.w 42 then 0 else 32) len
     let snap := if cb h.w 43 then some (u.larRead core (r.line * 128 + 32 + r.dlen) 2048) else none
     exec (.peekCkpt core n) s = .next (u.ckDeliver h off d.1 bad snap)) ∧
  (∀ (s : State) (core n off : Nat) (h : Head) (r : Rec) (img : List Byte) (lines : List Bool), heads s core n 0x82 h →
     peekCheck (s.core core) core h = .ok () → (s.core core).larder.recs[cf h.w 41 38]? = some r → r.st = .spilled ∨ r.st = .fetching →
     cb h.w 43 = false → ckOff (s.core core) core h.ctx (cf h.w 21 20) (cf h.w 37 22) (if cb h.w 42 then 32 else r.dlen) = .ok off →
     (s.core core).bankIsOn off (if cb h.w 42 then 32 else r.dlen) = true →
     (s.core core).bankIsOn (s.core core).larder.region.1 (s.core core).larder.region.2 = true → s.farHeld core = false →
     s.spillRead core (s.core core).larder r = .ok (img, lines, true) →
     affords s h 0 (max (14 + cdiv (if cb h.w 42 then 32 else r.dlen) 128) (8 + cdiv (if cb h.w 42 then 32
       else r.dlen) 64) + cellarT off) →
     let len := if cb h.w 42 then 32 else r.dlen
     let u := issued s h 0 (max (14 + cdiv len 128) (8 + cdiv len 64) + cellarT off)
     let o := if cb h.w 42 then 0 else 32
     let va := (s.core core).larder.spillAddr + r.spill
     let bad := (List.range (cdiv len 64)).map fun j => badRun lines (o + 64 * j) (min 64 (len - 64 * j))
     exec (.peekCkpt core n) s = .next ((((u.vtake (u.pno core) va r.rlen).ckPages core va r.rlen).chargeData core (40 * cdiv len
       64)).ckDeliver h off ((img.drop o).take len) bad none)) ∧
  (∀ (s : State) (core n off : Nat) (h : Head) (r : Rec), heads s core n 0x82 h → peekCheck (s.core core) core h = .ok () →
     (s.core core).larder.recs[cf h.w 41 38]? = some r → r.st = .failed →
     ckOff (s.core core) core h.ctx (cf h.w 21 20) (cf h.w 37 22) (if cb h.w 42 then 32 else r.dlen) = .ok off →
     (s.core core).bankIsOn off (if cb h.w 42 then 32 else r.dlen) = true →
     (s.core core).bankIsOn (s.core core).larder.region.1 (s.core core).larder.region.2 = true →
     exec (.peekCkpt core n) s = .next (s.failed h stCheckMismatch)) ∧
  (∀ (s : State) (core n : Nat) (h : Head), heads s core n 0x83 h → aware h.w = false → h.ctx.calls.length < 4 →
     affords s h 0 (h.jumpCycles (targetOf h.w)) →
     exec (.replayBegin core n) s = .next (((issued s h 0 (h.jumpCycles (targetOf h.w))).mapSlot core n
       fun c => ({ c with
       calls := ⟨if h.injected then h.ptr else { h.ptr with off := h.ptr.off + 1 }, true⟩ :: c.calls, replay := true,
       replays := sat16 c.replays 1 } : Ctx).goto (targetOf h.w)).done h)) ∧
  (∀ (s : State) (core n : Nat) (h : Head), heads s core n 0x84 h → aware h.w = false → h.replay = false → affords s h 0 1 →
     exec (.replayEnd core n) s = .next ((issued s h 0 1).done h)) ∧
  (∀ (s : State) (core n : Nat) (h : Head) (e : CallEnt) (t : List CallEnt), heads s core n 0x84 h → aware h.w = false →
     h.replay = true → h.ctx.calls = e :: t → e.mark = true → affords s h 0 (h.jumpCycles e.ret) →
     exec (.replayEnd core n) s = .next (((issued s h 0 (h.jumpCycles e.ret)).mapSlot core n
       fun c => ({ c with calls := t, replay := false } : Ctx).goto e.ret).done h))

/-- After a push, with fewer free lines than LOWATER, the oldest record on chip starts to spill; its image goes to the spill region with
  a check value for each 2 KiB, and the spill counts; a poisoned line bound for a host page ends the owner. After a pop, the newest
  spilled record that fits starts to come back; its image is checked, written on chip with its poison, and the fetch-back counts, and an
  image whose check fails leaves its record failed. -/
def Obligations.LarderMovesItsRecords : Prop :=
  (∀ (s : State) (core i : Nat), core < 2048 → (s.core core).larder.oldest = some i → (s.core core).larder.en = true →
     (s.core core).larder.dir = some true → (s.core core).larder.freeLines < (s.core core).larder.lowater →
     1 < ((s.core core).larder.recs.filter fun r => r.st == .onChip).length → (s.core core).larder.busy = false →
     ((s.core core).larder.recs[i]?).any ((s.core core).larder.fitsSpill ·) = true → s.farHeld core = false →
     exec (.spillAhead core) s = .next (s.mapLarder core fun l => l.spill i)) ∧
  (∀ (s t : State) (core i : Nat) (r : Rec), core < 2048 → (s.core core).larder.inState .spilling = some i →
     (s.core core).larder.recs[i]? = some r → s.farHeld core = false →
     (s.core core).bankIsOn (s.core core).larder.region.1 (s.core core).larder.region.2 = true →
     s.vok (s.pno core) ((s.core core).larder.spillAddr + r.spill) r.rlen true = true →
     s.spillOut core r ((s.core core).larder.spillAddr + r.spill) = (t, false) →
     exec (.recordSpillComplete core) s = .next ((((t.ckPages core ((s.core core).larder.spillAddr + r.spill) r.rlen).chargeData core (40
       * (r.rlen / 64))).mapLarder core fun l =>
     { l.mapRec i (fun r => { r with st := .spilled }) with spills := sat16 l.spills 1 }).mapCore core Core.refresh)) ∧
  (∀ (s t : State) (core i : Nat) (r : Rec), core < 2048 → (s.core core).larder.inState .spilling = some i →
     (s.core core).larder.recs[i]? = some r → s.farHeld core = false →
     (s.core core).bankIsOn (s.core core).larder.region.1 (s.core core).larder.region.2 = true →
     s.vok (s.pno core) ((s.core core).larder.spillAddr + r.spill) r.rlen true = true →
     s.spillOut core r ((s.core core).larder.spillAddr + r.spill) = (t, true) →
     exec (.recordSpillComplete core) s = .next (t.faultCtx core (s.core core).larder.owner stPoisoned)) ∧
  (∀ (s : State) (core i : Nat) (r : Rec), core < 2048 → (s.core core).larder.newestSpilled = some i →
     (s.core core).larder.recs[i]? = some r → (s.core core).larder.en = true → (s.core core).larder.dir = some false → r.st = .spilled →
     (s.core core).larder.busy = false → r.lines ≤ (s.core core).larder.freeLines → s.farHeld core = false →
     let l := (s.core core).larder
     let line := match l.oldest.bind (l.recs[·]?) with | some o => (o.line + l.size - r.lines) % l.size | none => 0
     exec (.fetchBack core) s = .next (s.mapLarder core fun l => l.mapRec i fun r => { r with st := .fetching, line := line })) ∧
  (∀ (s : State) (core i : Nat) (r : Rec) (img : List Byte) (bads : List Bool), core < 2048 →
     (s.core core).larder.inState .fetching = some i → (s.core core).larder.recs[i]? = some r →
     (s.core core).bankIsOn (s.core core).larder.region.1 (s.core core).larder.region.2 = true →
     s.spillRead core (s.core core).larder r = .ok (img, bads, true) → s.farHeld core = false →
     exec (.fetchBackComplete core) s = .next (((((s.vtake (s.pno core) ((s.core core).larder.spillAddr + r.spill) r.rlen).ckPages core
       ((s.core core).larder.spillAddr + r.spill) r.rlen).fetchIn core r img bads).chargeData core (40 * (r.rlen / 64))).mapLarder core
       fun l => { l.mapRec i (fun r => { r with st := .onChip }) with fetches := sat16 l.fetches 1 })) ∧
  (∀ (s : State) (core i : Nat) (r : Rec) (img : List Byte) (bads : List Bool), core < 2048 →
     (s.core core).larder.inState .fetching = some i → (s.core core).larder.recs[i]? = some r →
     (s.core core).bankIsOn (s.core core).larder.region.1 (s.core core).larder.region.2 = true →
     s.spillRead core (s.core core).larder r = .ok (img, bads, false) → s.farHeld core = false →
     exec (.fetchBackComplete core) s = .next (s.noteCheck.mapLarder core fun l => l.mapRec i fun r => { r with st := .failed }))

/-- A page walk below the limit fills the translation caches of its die with the entries it reads, and above it reads none. A page whose
  move has ended lies in its new frame with its check values, its transfers go on, and the host is told. The loss of a pseudo-channel is
  recorded with its retirement; an uncorrectable error poisons its line and counts, in HBM, in the attic and in a core, and a corrected
  one counts, in the attic per channel; the scrub counts its passes. -/
def Obligations.MemoryEventsComplete : Prop :=
  (∀ (s : State) (die p va : Nat), die < 4 → p < 64 → va < (s.part p).vaLimit → s.halts = false →
     exec (.pageWalk die p va) s = .next { s with tlbs := Tab.put s.tlbs die ((Tab.get {} s.tlbs die).fill p ((s.part p).walk p va)) }) ∧
  (∀ (s : State) (die p va : Nat), die < 4 → p < 64 → (s.part p).vaLimit ≤ va → exec (.pageWalk die p va) s = .next s) ∧
  (∀ (s : State) (p va f d fva : Nat) (e : W64), p < 64 → Tab.find (s.part p).moving (va / 2 ^ 21) = some (f, d, fva) →
     Tab.find (s.part p).ptes (va / 2 ^ 21) = some e → s.halts = false →
     let page := va / 2 ^ 21
     let u := (s.movePage (fld (bits e.toNat 47 21) 21) (f * 2 ^ 21)).setPart p
       { s.part p with
       moving := Tab.del (s.part p).moving page, ptes := Tab.put (s.part p).ptes page (BitVec.ofNat 64 (f * 2 ^ 21 + 5 + 2 * bits e.toNat
       1 1)) }
     exec (.migrationComplete p va) s = .next (((u.invalidate p [page]).resumePage p
       fun v => v / 2 ^ 21 == page).1.raiseFault p fva (fld 3 28 + d % 2 ^ 28))) ∧
  (∀ (s : State) (stack pc : Nat), stack < 8 → pc < 64 → (s.stack stack).lost.testBit pc = false →
     let u := { s with
       hbm := Tab.put s.hbm stack { s.stack stack with lost := (s.stack stack).lost + 2 ^ pc }, retired := Keys.add s.retired (pc / 2) }
     exec (.pseudoChannelLoss stack pc) s = .next (u.inField 4 (fld stack 6 + pc) stInternal 0xFF 0)) ∧
  (∀ (s : State) (pa : Nat) (c : Bool), s.region pa = .hbm ∨ s.region pa = .check →
     exec (.uncorrectableError pa c) s = .next (s.hbmError pa c)) ∧
  (∀ (s : State) (pa : Nat), s.region pa = .attic →
     exec (.uncorrectableError pa false) s = .next
       { s with memStat := { s.memStat with atticUnc := sat16 s.memStat.atticUnc 1 }, poison := Keys.add s.poison (pa / 64) }) ∧
  (∀ (s : State) (pa : Nat), s.region pa = .attic →
     exec (.uncorrectableError pa true) s = .next
       { s with
       memStat :=
       { s.memStat with
       atticCorr := Tab.put s.memStat.atticCorr (s.atticChannel pa) (Tab.get 0 s.memStat.atticCorr (s.atticChannel pa) + 1) } }) ∧
  (∀ (s : State) (core off : Nat), core < 2048 → off < 0xC0000 →
     let u := s.mapCore core fun k => { k with scr := { k.scr with poisoned := sat16 k.scr.poisoned 1 } }
     exec (.scratchUncorrectable core off false) s =
       .next (({ u with poison := Keys.add u.poison (scrPa core off / 64) } : State).inField 2 (u.coreUnit core + fld (bankOf off) 16)
       stPoisoned ((u.partOf core).getD 0xFF) 0)) ∧
  (∀ (s : State) (core off : Nat), core < 2048 → off < 0xC0000 →
     exec (.scratchUncorrectable core off true) s =
       .next (s.mapCore core fun k => { k with scr := { k.scr with corrected := sat16 k.scr.corrected 1 } })) ∧
  (∀ (s : State) (stack : Nat), stack < 8 → s.halts = false →
     exec (.patrolScrub stack) s = .next
       { s with hbm := Tab.put s.hbm stack { s.stack stack with scrubs := ((s.stack stack).scrubs + 1) % 2 ^ 16 } })

/-- A host read of BAR2 by a function that answers and is bound reads the bytes at the partition's virtual address, and a host write
  writes them, with poison if the write is poisoned, which is logged; a read of a poisoned line is answered as poisoned, counts, and ends
  the partition's running job or kills the partition; an access that does not translate, or by a function that is not bound, reads
  nothing, writes nothing and counts. -/
def Obligations.HostWindowAccesses : Prop :=
  (∀ (s : State) (port func off len p : Nat) (bs : List Byte), port < 2 → func < 16 → s.answers port func = true →
     s.boundPart port func = some p → 0 < len → len ≤ 4096 → off + len ≤ s.bar2Size port func →
     s.vread p (s.bar2Va port func off) len = .ok (bs, false) →
     exec (.bar2Read port func off len) s = .next
       { s.vtake p (s.bar2Va port func off) len with busData := BitVec.ofNat 64 (leNat (bs.take 8)) }) ∧
  (∀ (s : State) (port func off p : Nat) (data : List Byte) (bad : Bool), port < 2 → func < 16 → s.answers port func = true →
     s.boundPart port func = some p → data ≠ [] → data.length ≤ 4096 → off + data.length ≤ s.bar2Size port func →
     s.vok p (s.bar2Va port func off) data.length true = true →
     let v := if bad then s.mapFunc port func fun f => f.logAer .poisonedTlp else s
     exec (.bar2Write port func off data bad) s = .next (v.vwrite p (s.bar2Va port func off) data bad)) ∧
  (∀ (s : State) (port func off p : Nat) (data : List Byte) (bad : Bool), port < 2 → func < 16 → s.answers port func = true →
     s.boundPart port func = some p → data ≠ [] → data.length ≤ 4096 → off + data.length ≤ s.bar2Size port func →
     s.vok p (s.bar2Va port func off) data.length true = false →
     let v := if bad then s.mapFunc port func fun f => f.logAer .poisonedTlp else s
     exec (.bar2Write port func off data bad) s = .next (v.mapFunc port func fun f => { f with dropwr := sat16 f.dropwr 1 })) ∧
  (∀ (s : State) (port func off len p : Nat) (x : TransFail), port < 2 → func < 16 → s.answers port func = true →
     s.boundPart port func = some p → 0 < len → len ≤ 4096 → off + len ≤ s.bar2Size port func →
     s.vread p (s.bar2Va port func off) len = .error x →
     exec (.bar2Read port func off len) s = .next (s.mapFunc port func fun f => { f with urreads := sat16 f.urreads 1 })) ∧
  (∀ (s : State) (port func off len : Nat), port < 2 → func < 16 → s.answers port func = true → s.boundPart port func = none → 0 < len →
     len ≤ 4096 → off + len ≤ s.bar2Size port func →
     exec (.bar2Read port func off len) s = .next (s.mapFunc port func fun f => { f with urreads := sat16 f.urreads 1 })) ∧
  (∀ (s : State) (port func off : Nat) (data : List Byte) (bad : Bool), port < 2 → func < 16 → s.answers port func = true →
     s.boundPart port func = none → data ≠ [] → data.length ≤ 4096 → off + data.length ≤ s.bar2Size port func →
     let v := if bad then s.mapFunc port func fun f => f.logAer .poisonedTlp else s
     exec (.bar2Write port func off data bad) s = .next (v.mapFunc port func fun f => { f with dropwr := sat16 f.dropwr 1 })) ∧
  (∀ (s : State) (port func off len p : Nat) (bs : List Byte), port < 2 → func < 16 → s.answers port func = true →
     s.boundPart port func = some p → 0 < len → len ≤ 4096 → off + len ≤ s.bar2Size port func →
     s.vread p (s.bar2Va port func off) len = .ok (bs, true) →
     let u := { s.vtake p (s.bar2Va port func off) len with busData := BitVec.ofNat 64 (leNat (bs.take 8)) }.mapFunc port func
       fun f => { f with epreads := sat16 f.epreads 1 }
     exec (.bar2Read port func off len) s = .next (({ u with memStat := { u.memStat with hostEp := sat16 u.memStat.hostEp 1 } } :
       State).hostPoison p))

/-- An update command whose issue checks pass is handed to the scheduler of its partition, behind the commands that wait there;
  GRAD_MERGE takes its descriptor with it. -/
def Obligations.UpdateCommandsComplete : Prop :=
  (∀ (s : State) (core n : Nat) (h : Head), heads s core n 0xA0 h → cf h.w 101 100 ≠ 3 → (s.updOf (s.pno core)).en = true →
     affords s h 0 1 → exec (.updateBlocks core n) s = .next ((issued s h 0 1).toScheduler h [])) ∧
  (∀ (s : State) (core n : Nat) (h : Head), heads s core n 0xA2 h → (s.updOf (s.pno core)).names h.w = true → affords s h 0 1 →
     exec (.commitShadow core n) s = .next ((issued s h 0 1).toScheduler h [])) ∧
  (∀ (s : State) (core n : Nat) (h : Head), heads s core n 0xA3 h → (s.updOf (s.pno core)).names h.w = true → affords s h 0 1 →
     exec (.discardShadow core n) s = .next ((issued s h 0 1).toScheduler h [])) ∧
  (∀ (s : State) (core n off : Nat) (h : Head), heads s core n 0xA1 h → (s.updOf (s.pno core)).en = true →
     (h.ctx.pair (cf h.w 21 20)).mode = 0 → ((h.ctx.pair (cf h.w 21 20)).lim = 0 ∨ (h.ctx.pair (cf h.w 21 20)).isLocal core = true) →
     localOff (s.core core) h.ctx core (cf h.w 21 20) (cf h.w 37 22) 64 = .ok off → (s.core core).bankIsOff off 64 = false →
     (s.core core).bankIsOn off 64 = true → mergeOk (s.rds (scrPa core off) 64) = true → affords s h 0 1 →
     exec (.gradMerge core n) s = .next ((issued s h 0 1).toScheduler h (s.rds (scrPa core off) 64)))

/-- The scheduler accepts the merge, or the update whose region and step are right, at the front of its queue, and opens the shadow when
  none is open; it skips a frozen region and counts; a run of at most 64 blocks reads the current arrays and writes the shadow, and the
  last one completes the command; a poisoned input closes the shadow and ends the command POISONED, and a gradient or a merge source
  whose block check fails ends it CHECK_MISMATCH; an engine fault runs it again and counts; a commit checks its regions and is then
  carried on, 512 page exchanges of a region at a time, until the shadow of each is closed at its new step; a discard closes the shadows
  of its regions. -/
def Obligations.UpdatesRun : Prop :=
  (∀ (s : State) (p : Nat) (u : UpdCmd) (q : List UpdCmd), p < 64 → (s.part p).updQ = u :: q → u.accepted = false →
     opcodeOf u.cmd = 0xA1 → (s.updOf p).en = true → s.halts = false →
     exec (.updateAccept p) s = .next (s.mapPart p fun pt => { pt with updQ := { u with accepted := true } :: q })) ∧
  (∀ (s : State) (p : Nat) (u : UpdCmd) (q : List UpdCmd) (b : List Byte) (e : RegEnt) (h : ShHdr), p < 64 → (s.part p).updQ = u :: q →
     u.accepted = false → opcodeOf u.cmd = 0xA0 → (s.updOf p).en = true → (updF u.cmd u.imm).reg < (s.updOf p).count →
     s.region? p (updF u.cmd u.imm).reg = .ok (b, e, h) → e.frozen = false → (updF u.cmd u.imm).steplo = (h.step + 1) % 2 ^ 24 →
     updChecks (updF u.cmd u.imm) e (if h.shv then h.shdone else 0) = true →
     (s.regionTake 0 p (updF u.cmd u.imm).reg).hdrFail p e = none → s.halts = false →
     let h1 := if h.shv then h else { h with shv := true, shstep := (h.step + 1) % 2 ^ 64, shdone := 0, nonfin := 0, crc := crc32c b }
     exec (.updateAccept p) s = .next (((s.regionTake 0 p (updF u.cmd u.imm).reg).putHdr p e h1).mapPart p
       fun pt => { pt with updQ := { u with accepted := true, entry := b, t := h.step + 1, run := 0 } :: q })) ∧
  (∀ (s : State) (p : Nat) (u : UpdCmd) (q : List UpdCmd) (b : List Byte) (e : RegEnt) (h : ShHdr), p < 64 → (s.part p).updQ = u :: q →
     u.accepted = false → opcodeOf u.cmd = 0xA0 → (s.updOf p).en = true → (updF u.cmd u.imm).reg < (s.updOf p).count →
     s.region? p (updF u.cmd u.imm).reg = .ok (b, e, h) → e.frozen = true → (s.regionTake 0 p (updF u.cmd u.imm).reg).hdrFail p e = none →
     s.halts = false →
     let v := ((s.regionTake 0 p (updF u.cmd u.imm).reg).putHdr p e
       { h with frozenskip := (h.frozenskip + (updF u.cmd u.imm).count) % 2 ^ 32 }).mapUpd p
       fun r => { r with frozen := sat16 r.frozen 1 }
     exec (.updateAccept p) s = .next ((v.mapCore u.core fun k => k.mapCtx u.lctx
       fun c => { c with lastStatus := stFrozenSkipped }).updDone p u)) ∧
  (∀ (s : State) (p : Nat) (u : UpdCmd) (q : List UpdCmd), p < 64 → (s.part p).updQ = u :: q → u.accepted = true →
     opcodeOf u.cmd = 0xA0 → s.vfailAny p u.exts.1 false = none → s.vfailAny p u.exts.2 true = none →
     s.hdrFail p (regEnt u.entry) = none → (u.exts.1.any fun y => s.vpoison p y.1 y.2) = false →
     ((regEnt u.entry).chk = true → s.vcheckBad p ((regEnt u.entry).grad + (if (regEnt u.entry).gfp then 128
       else 64) * ((updF u.cmd u.imm).first + 64 * u.run)) ((if (regEnt u.entry).gfp then 128
       else 64) * min 64 ((updF u.cmd u.imm).first + (updF u.cmd u.imm).count - ((updF u.cmd u.imm).first + 64 * u.run))) = false
       ∧ s.vchecked p ((regEnt u.entry).grad + (if (regEnt u.entry).gfp then 128
       else 64) * ((updF u.cmd u.imm).first + 64 * u.run)) ((if (regEnt u.entry).gfp then 128
       else 64) * min 64 ((updF u.cmd u.imm).first + (updF u.cmd u.imm).count - ((updF u.cmd u.imm).first + 64 * u.run))) = true) →
     s.halts = false →
     let f := updF u.cmd u.imm
     let e := regEnt u.entry
     let b := f.first + 64 * u.run
     let n := min 64 (f.first + f.count - b)
     let x := (s.runTake p u.run ((e.hdr, 64) :: u.exts.1) u.exts.2).updRun p f e u.t b n
     let h := s.hdrAt p e
     let v := (x.1.mapUpd p fun r => { r with nonfin := sat16 r.nonfin x.2, blks := (r.blks + n) % 2 ^ 64 }).putHdr p e
       { h with
       nonfin := (h.nonfin + x.2) % 2 ^ 32, shdone := if f.first + f.count ≤ b + n then max h.shdone (f.first + f.count) else h.shdone }
     exec (.runComplete p) s = .next (if f.first + f.count ≤ b + n then v.updDone p u
       else v.mapPart p fun pt => { pt with updQ := { u with run := u.run + 1 } :: q })) ∧
  (∀ (s : State) (p : Nat) (u : UpdCmd) (q : List UpdCmd), p < 64 → (s.part p).updQ = u :: q → u.accepted = true →
     opcodeOf u.cmd = 0xA0 → s.vfailAny p u.exts.1 false = none → s.vfailAny p u.exts.2 true = none →
     s.hdrFail p (regEnt u.entry) = none → (u.exts.1.any fun y => s.vpoison p y.1 y.2) = true → s.halts = false →
     exec (.runComplete p) s = .next ((s.putHdr p (regEnt u.entry) { s.hdrAt p (regEnt u.entry) with shv := false }).updFail p u
       stPoisoned)) ∧
  (∀ (s : State) (p : Nat) (u : UpdCmd) (q : List UpdCmd), p < 64 → (s.part p).updQ = u :: q → u.accepted = true →
     opcodeOf u.cmd = 0xA0 → s.vfailAny p u.exts.1 false = none → s.vfailAny p u.exts.2 true = none →
     s.hdrFail p (regEnt u.entry) = none → (u.exts.1.any fun y => s.vpoison p y.1 y.2) = false → (regEnt u.entry).chk = true →
     s.vcheckBad p ((regEnt u.entry).grad + (if (regEnt u.entry).gfp then 128
       else 64) * ((updF u.cmd u.imm).first + 64 * u.run)) ((if (regEnt u.entry).gfp then 128
       else 64) * min 64 ((updF u.cmd u.imm).first + (updF u.cmd u.imm).count - ((updF u.cmd u.imm).first + 64 * u.run))) = false →
     s.vchecked p ((regEnt u.entry).grad + (if (regEnt u.entry).gfp then 128
       else 64) * ((updF u.cmd u.imm).first + 64 * u.run)) ((if (regEnt u.entry).gfp then 128
       else 64) * min 64 ((updF u.cmd u.imm).first + (updF u.cmd u.imm).count - ((updF u.cmd u.imm).first + 64 * u.run))) = false →
     s.halts = false → exec (.runComplete p) s = .next (s.noteCheck.updFail p u stCheckMismatch)) ∧
  (∀ (s : State) (p : Nat) (u : UpdCmd) (q : List UpdCmd), p < 64 → (s.part p).updQ = u :: q → u.accepted = true →
     opcodeOf u.cmd = 0xA1 → (bit (at8 u.desc 44 44) 2 = true → (u.mergeReads.all fun x => s.vchecked p x.1 x.2) = true) →
     s.vfailAny p u.mergeReads false = none → s.vfail p u.mergeWrite.1 u.mergeWrite.2 true = none → s.halts = false →
     let b := 64 * u.run
     let n := min 64 (at8 u.desc 40 43 - b)
     let v := (s.runTake p u.run (u.mergeWrite :: u.mergeReads) []).mergeRun p u.desc b n
     exec (.runComplete p) s = .next (if b + n < at8 u.desc 40 43 then v.mapPart p
       fun pt => { pt with updQ := { u with run := u.run + 1 } :: q } else v.updDone p u)) ∧
  (∀ (s : State) (p : Nat) (u : UpdCmd) (q : List UpdCmd), p < 64 → (s.part p).updQ = u :: q → u.accepted = true →
     opcodeOf u.cmd = 0xA1 → bit (at8 u.desc 44 44) 2 = true → (u.mergeReads.all fun x => s.vchecked p x.1 x.2) = false →
     s.vfailAny p u.mergeReads false = none → s.vfail p u.mergeWrite.1 u.mergeWrite.2 true = none → s.halts = false →
     exec (.runComplete p) s = .next (s.noteCheck.updFail p u stCheckMismatch)) ∧
  (∀ (s : State) (p : Nat) (u : UpdCmd) (q : List UpdCmd), p < 64 → (s.part p).updQ = u :: q → u.accepted = true →
     opcodeOf u.cmd < 0xA2 → s.halts = false →
     exec (.updateEngineFault p) s = .next (s.mapUpd p fun r => { r with restarts := min 255 (r.restarts + 1) })) ∧
  (∀ (s : State) (p : Nat) (u : UpdCmd) (q : List UpdCmd), p < 64 → (s.part p).updQ = u :: q → opcodeOf u.cmd = 0xA2 →
     u.accepted = false → (s.pageSeqs p).isEmpty = true → (s.updOf p).names u.cmd = true → s.shadowMissing p u = none →
     s.shadowFixed p u = none → s.shadowRefused p u = none → s.halts = false →
     let v := { u with accepted := true, entry := s.shadowEntries p u, run := 0 }
     exec (.shadowCommit p) s = .next (State.commitOn p (shadowRegs u.cmd).length v (s.shadowTake p u))) ∧
  (∀ (s : State) (p : Nat) (u : UpdCmd) (q : List UpdCmd), p < 64 → (s.part p).updQ = u :: q → opcodeOf u.cmd = 0xA2 →
     u.accepted = true → s.halts = false → exec (.shadowCommit p) s = .next (State.commitOn p ((shadowRegs u.cmd).length - u.run) u s)) ∧
  (∀ (s : State) (p : Nat) (e : RegEnt), e.frozen = false →
     e.pairs.length ≤ (if (s.hdrAt p e).cmt then (s.hdrAt p e).cmtdone else 0) + 512 →
     let k := if (s.hdrAt p e).cmt then (s.hdrAt p e).cmtdone else 0
     let v := s.mapPart p fun pt => (e.pairs.drop k).foldl (fun pt x => pt.exchange x.1 x.2) pt
     s.commitSome p e = ((v.invalidate p (e.pairs.flatMap
       fun x => [x.1, x.2])).putHdr p e { s.hdrAt p e with step := (s.hdrAt p e).shstep, shv := false, cmt := false, cmtdone := 0 }, true)) ∧
  (∀ (s v : State) (p n : Nat) (u : UpdCmd), s.commitSome p (regEnt ((u.entry.drop (128 * u.run)).take 128)) = (v, true) →
     State.commitOn p (n + 1) u s = State.commitOn p n { u with run := u.run + 1 } v) ∧
  (∀ (s : State) (p : Nat) (u : UpdCmd) (q : List UpdCmd), p < 64 → (s.part p).updQ = u :: q → opcodeOf u.cmd = 0xA3 →
     (s.updOf p).names u.cmd = true → s.shadowMissing p u = none → s.shadowFixed p u = none → s.halts = false →
     exec (.shadowDiscard p) s = .next (((shadowRegs u.cmd).foldl (fun s i => s.discardRegion p i) (s.shadowTake p u)).updDone p u))

/-- A port that exists, is down and has no retired lane comes up, asks for its gateway, and takes the messages that had no usable port;
  alignment loss, a remote fault and a FEC window with too many uncorrectable codewords bring it down, and FEC windows count; a link
  retry has no effect on the port; the management port configures a quad; a resolved next hop is kept and a request for a local address
  is answered; a pause frame of an enabled priority stops it, the watchdog starts it again, counts and ignores further pauses until that
  expires; a token returns to the HS_INIT bucket. -/
def Obligations.LinkEventsComplete : Prop :=
  (∀ (s : State) (p : Nat), p < 64 → s.present p = true → (s.fport p).up = false → s.laneRetired p = false → s.sup.shed = false →
     let u := (s.mapPort p fun x => { x with up := true }).reline.onLink (.request p (s.fport p).gw)
     let ups (q : Nat) : Bool := (u.fport q).up
     exec (.portUp p) s = .next (u.mapFab fun f =>
       { f with
       peers := f.peers.map fun y => if (u.usable y.2).isEmpty then y
       else (y.1,
       { y.2 with cur := y.2.cur.map fun x => x.revive ups (u.usable y.2), old := y.2.old.map fun x => x.revive ups (u.usable y.2) }) })) ∧
  (∀ (s : State) (lane : Nat), lane < 64 → (s.fport ((s.quad (lane / 4)).portOf lane)).up = true →
     exec (.alignmentLoss lane) s = .next ((s.inField 3 lane stInternal 0xFF 0).portFall ((s.quad (lane / 4)).portOf lane))) ∧
  (∀ (s : State) (p : Nat), p < 64 → (s.fport p).up = true →
     exec (.linkRemoteFault p) s = .next ((s.inField 3 p stInternal 0xFF 0).portFall p)) ∧
  (∀ (s : State) (p c u : Nat), p < 64 → s.present p = true → (s.fport p).fecdeg = 0 ∨ u < (s.fport p).fecdeg →
     exec (.fecWindowEnd p c u) s = .next (s.mapPort p fun x => { x with feccorr := sat16 x.feccorr c, fecunc := sat16 x.fecunc u })) ∧
  (∀ (s : State) (p c u : Nat), p < 64 → s.present p = true → (s.fport p).fecdeg ≠ 0 → (s.fport p).fecdeg ≤ u →
     exec (.fecWindowEnd p c u) s = .next ((s.mapPort p
       fun x => { x with feccorr := sat16 x.feccorr c, fecunc := sat16 x.fecunc u }).portDown p p)) ∧
  (∀ (s : State) (p : Nat), p < 64 → exec (.linkRetry p) s = .next s) ∧
  (∀ (s : State) (who : Who) (q : Nat) (v : W64), q < 16 → s.isMgmt who = true → bits v.toNat 1 0 ≠ 3 → bits v.toNat 5 4 ≠ 3 →
     (s.quad q).en = false ∨ v.toNat.testBit 7 = false →
     exec (.quadConfigWrite who q v) s = .next (s.setQuad q ⟨v.toNat.testBit 7 && s.wired q, v.toNat.testBit 6, bits v.toNat 5 4,
       bits v.toNat 1 0⟩)) ∧
  (∀ (s : State) (p mac : Nat), p < 64 → (s.fport p).up = true →
     exec (.neighbourResolution p (.answer mac)) s = .next (s.mapPort p fun x => { x with hop := some (mac % 2 ^ 48) })) ∧
  (∀ (s : State) (p : Nat), p < 64 → (s.fport p).up = true → exec (.neighbourResolution p .request) s = .next (s.onLink (.answer p))) ∧
  (∀ (s : State) (p prio : Nat) (on : Bool), p < 64 → prio < 8 → (s.fport p).pfcen = true → (s.fport p).pfcpri.testBit prio = true →
     Keys.has (s.fport p).ignoring prio = false →
     exec (.pfcPause p prio on) s = .next ((s.mapPort p
       fun x => { x with paused := if on then Keys.add x.paused prio else Keys.del x.paused prio }).unpause p)) ∧
  (∀ (s : State) (p prio : Nat), p < 64 → prio < 8 → Keys.has (s.fport p).paused prio = true →
     exec (.pfcWatchdog p prio) s = .next (((s.mapPort p
       fun x => { x with paused := Keys.del x.paused prio, ignoring := Keys.add x.ignoring prio }).unpause p).mapJcnt
       fun c => { c with pfcwd := sat16 c.pfcwd 1 })) ∧
  (∀ (s : State) (p prio : Nat), p < 64 → prio < 8 →
     exec (.pfcIgnoreExpiry p prio) s = .next (s.mapPort p fun x => { x with ignoring := Keys.del x.ignoring prio })) ∧
  (∀ (s : State) (p : Nat), p < 64 → exec (.hsTokenRefill p) s = .next (s.mapPort p fun x => { x with bucket := min 8 (x.bucket + 1) }))

/-- A queued message to an idle peer, and a rekey of an open one whose session is due, start a handshake; a HS_INIT is sent again at most
  four times, and then a handshake without an answer ends; a whole HS_INIT, HS_RESP, HS_FIN or HS_REJECT is answered, confirmed, finished
  or counts and ends the handshake in progress; equal nonces cross, and the handshake starts again after the wait. Without the identity
  key, to a peer that is failed, down or unused, or with another length, HS_INIT is not answered; the INIT that a responder has answered
  gets the same response again, and another one is answered anew; a second response that differs from the first one is ignored. -/
def Obligations.HandshakesComplete : Prop :=
  (∀ (s : State) (n : Nat), n < 4096 → (s.peer n).st = .idle → (s.peer n).queue.isEmpty = false →
     exec (.handshakeStart n) s = .next (s.hsStart n)) ∧
  (∀ (s : State) (n : Nat) (y : Session), n < 4096 → (s.peer n).st = .opened → (s.peer n).hs = none → (s.peer n).old = none →
     (s.peer n).cur = some y → s.rekeyDue (s.peer n) y = true → exec (.rekey n) s = .next (s.hsStart n)) ∧
  (∀ (s : State) (n : Nat) (h : Hs), n < 4096 → (s.peer n).hs = some h → h.init = true → h.crossed = false → h.tries < 4 →
     exec (.hsInitRetry n) s = .next ((s.mapPeer n fun x => { x with hs := some { h with tries := h.tries + 1 } }).sendHs n 0x8 h.initPay)) ∧
  (∀ (s : State) (n : Nat) (h : Hs), n < 4096 → (s.peer n).hs = some h → h.init = true → h.crossed = false → 4 ≤ h.tries → h.stage = 0 →
     exec (.hsInitRetry n) s = .next (s.hsEnd n)) ∧
  (∀ (s : State) (n : Nat) (h : Hs), n < 4096 → (s.peer n).hs = some h → h.crossed = true →
     exec (.handshakeCrossRetry n) s = .next (s.hsStart n)) ∧
  (∀ (s u : State) (n : Nat) (pay : List Byte), n < 4096 → s.takeHs n 8 = (u, some pay) → u.boot.idok = true →
     (u.peer n).st = .idle ∨ (u.peer n).st = .handshake ∨ (u.peer n).st = .opened → pay.length = 13818 → (u.peer n).hs = none →
     exec (.hsInit n) s = .next (u.hsAnswer n pay)) ∧
  (∀ (s u : State) (n : Nat) (pay : List Byte) (h : Hs), n < 4096 → s.takeHs n 8 = (u, some pay) → u.boot.idok = true →
     (u.peer n).st = .idle ∨ (u.peer n).st = .handshake ∨ (u.peer n).st = .opened → pay.length = 13818 → (u.peer n).hs = some h →
     h.init = true → h.crossed = false →
     let mine := leNat (h.initPay.take 32)
     let theirs := leNat (pay.take 32)
     exec (.hsInit n) s = .next (if theirs < mine then u else if mine < theirs then u.hsAnswer n pay
       else u.mapPeer n fun x => { x with hs := some { h with crossed := true } })) ∧
  (∀ (s u : State) (n : Nat) (pay : List Byte), n < 4096 → s.takeHs n 8 = (u, some pay) →
     u.boot.idok = false ∨ (u.peer n).st = .failed ∨ (u.peer n).st = .down ∨ (u.peer n).st = .unused ∨ pay.length ≠ 13818 →
     exec (.hsInit n) s = .next u) ∧
  (∀ (s u : State) (n : Nat) (pay : List Byte) (h : Hs), n < 4096 → s.takeHs n 8 = (u, some pay) → u.boot.idok = true →
     (u.peer n).st = .idle ∨ (u.peer n).st = .handshake ∨ (u.peer n).st = .opened → pay.length = 13818 → (u.peer n).hs = some h →
     h.init = false ∨ h.crossed = true →
     exec (.hsInit n) s = .next (if h.crossed = false ∧ h.initPay = pay then u.sendHs n 0x9 h.respPay else u.hsAnswer n pay)) ∧
  (∀ (s u : State) (n : Nat) (resp : List Byte) (h : Hs), n < 4096 → s.takeHs n 9 = (u, some resp) → (u.peer n).hs = some h →
     u.boot.idok = true → h.init = true → h.crossed = false → resp.length = 17035 → h.stage = 2 → resp ≠ h.respPay →
     exec (.hsResp n) s = .next u) ∧
  (∀ (s u : State) (n : Nat) (resp : List Byte) (h : Hs), n < 4096 → s.takeHs n 9 = (u, some resp) → (u.peer n).hs = some h →
     u.boot.idok = true → h.init = true → h.crossed = false → resp.length = 17035 → h.stage ≠ 2 →
     exec (.hsResp n) s = .next (u.hsConfirm n h resp)) ∧
  (∀ (s u : State) (n : Nat) (fin : List Byte) (h : Hs), n < 4096 → s.takeHs n 0xA = (u, some fin) → (u.peer n).hs = some h →
     h.init = false → fin.length = 3313 → exec (.hsFin n) s = .next (u.hsFinish n h fin)) ∧
  (∀ (s u : State) (n : Nat) (m : List Byte) (h : Hs), n < 4096 → s.takeHs n 0xB = (u, some m) → (u.peer n).hs = some h →
     exec (.hsReject n) s = .next (((u.mapJcnt fun c => { c with authfail := sat16 c.authfail 1 }).notice (u.peer n).part ⟨1, stAuthFail,
       (u.peer n).pidx % 4096 + fld (num m 0 3 % 16) 12, 0⟩).hsEnd n)) ∧
  (∀ (s u : State) (n : Nat) (m : List Byte), n < 4096 → s.takeHs n 0xB = (u, some m) → (u.peer n).hs = none →
     exec (.hsReject n) s = .next (u.mapJcnt fun c => { c with authfail := sat16 c.authfail 1 }))

/-- At a port that is up, a frame that its 1 MiB receive buffer cannot take is dropped. Otherwise a frame with a wrong length, FCS, VID
  or type counts in MACDROP of its port and goes no further; a datagram for no address or UDP port of this device counts in NOADDR, and
  one from no peer in STRANGER; a packet of a known peer whose version, type and length are wrong counts in BADVER; a right one is
  accepted as a handshake packet, HS_INIT against a token of the port's bucket and otherwise counted in RATELIM, or goes to the session
  check. -/
def Obligations.FramesAreTakenIn : Prop :=
  (∀ (s : State) (f : Frame), f.port < 64 → (s.fport f.port).up = true → 2 ^ 20 < s.rxFill f.port + f.bytes.length →
     exec (.frameReceive f) s = .next s) ∧
  (∀ (s : State) (f : Frame), f.port < 64 → (s.fport f.port).up = true → s.rxFill f.port + f.bytes.length ≤ 2 ^ 20 →
     f.bytes.length < 64 ∨ 9216 < f.bytes.length ∨ f.fcsOk = false →
     exec (.frameReceive f) s = .next (s.mapPort f.port fun x => { x with macdrop := sat16 x.macdrop 1 })) ∧
  (∀ (s : State) (f : Frame), f.port < 64 → (s.fport f.port).up = true → s.rxFill f.port + f.bytes.length ≤ 2 ^ 20 →
     netNum (f.bytes.take (f.bytes.length - 4)) 12 13 ≠ 0x8100 → (s.fport f.port).vid ≠ 0 →
     exec (.frameReceive f) s = .next (s.mapPort f.port fun x => { x with macdrop := sat16 x.macdrop 1 })) ∧
  (∀ (s : State) (f : Frame), f.port < 64 → (s.fport f.port).up = true → s.rxFill f.port + f.bytes.length ≤ 2 ^ 20 →
     netNum (f.bytes.take (f.bytes.length - 4)) 12 13 = 0x8100 →
     netNum (f.bytes.take (f.bytes.length - 4)) 14 15 % 4096 ≠ (s.fport f.port).vid →
     exec (.frameReceive f) s = .next (s.mapPort f.port fun x => { x with macdrop := sat16 x.macdrop 1 })) ∧
  (∀ (s : State) (f : Frame), f.port < 64 → (s.fport f.port).up = true → s.rxFill f.port + f.bytes.length ≤ 2 ^ 20 →
     netNum (f.bytes.take (f.bytes.length - 4)) 12 13 ∉ [0x8100, 0x0806, 0x8808, 0x86DD, 0x0800] →
     exec (.frameReceive f) s = .next (s.mapPort f.port fun x => { x with macdrop := sat16 x.macdrop 1 })) ∧
  (∀ (s : State) (f : Frame), f.port < 64 → (s.fport f.port).up = true → s.rxFill f.port + f.bytes.length ≤ 2 ^ 20 →
     s.ingress f = .noaddr → exec (.frameReceive f) s = .next (s.mapJcnt fun c => { c with noaddr := satW 12 c.noaddr 1 })) ∧
  (∀ (s : State) (f : Frame) (src dst data : List Byte) (sport dport : Nat) (ce : Bool), f.port < 64 → (s.fport f.port).up = true →
     s.rxFill f.port + f.bytes.length ≤ 2 ^ 20 → s.ingress f = .udp src dst sport dport ce data →
     (s.fab.addrs.find? fun y => y.2 == dst) = none →
     exec (.frameReceive f) s = .next (s.mapJcnt fun c => { c with noaddr := satW 12 c.noaddr 1 })) ∧
  (∀ (s : State) (f : Frame) (src dst data : List Byte) (sport dport : Nat) (ce : Bool) (part : Nat), f.port < 64 →
     (s.fport f.port).up = true → s.rxFill f.port + f.bytes.length ≤ 2 ^ 20 → s.ingress f = .udp src dst sport dport ce data →
     (s.fab.addrs.find? fun y => y.2 == dst) = some (part, dst) → dport ≠ s.fab.cfg.udp → dport ≠ s.fab.cfg.udp2 →
     exec (.frameReceive f) s = .next (s.mapJcnt fun c => { c with noaddr := satW 12 c.noaddr 1 })) ∧
  (∀ (s : State) (f : Frame) (src dst data : List Byte) (sport dport part : Nat) (ce : Bool), f.port < 64 → (s.fport f.port).up = true →
     s.rxFill f.port + f.bytes.length ≤ 2 ^ 20 → s.ingress f = .udp src dst sport dport ce data →
     (s.fab.addrs.find? fun y => y.2 == dst) = some (part, dst) → dport = s.fab.cfg.udp ∨ dport = s.fab.cfg.udp2 →
     s.sourceOf part src sport (readPkt (data.take 32) []).session = none →
     exec (.frameReceive f) s = .next (s.mapJcnt fun c => { c with stranger := satW 12 c.stranger 1 })) ∧
  (∀ (s : State) (f : Frame) (src dst data : List Byte) (sport dport part n : Nat) (ce : Bool), f.port < 64 →
     (s.fport f.port).up = true → s.rxFill f.port + f.bytes.length ≤ 2 ^ 20 → s.ingress f = .udp src dst sport dport ce data →
     (s.fab.addrs.find? fun y => y.2 == dst) = some (part, dst) → dport = s.fab.cfg.udp ∨ dport = s.fab.cfg.udp2 →
     s.sourceOf part src sport (readPkt (data.take 32) []).session = some n →
     data.length < 32 ∨ (data.drop 32).length < num (data.take 32) 2 3 ∨ (readPkt (data.take 32) []).ver ≠ (s.peer n).ver →
     exec (.frameReceive f) s = .next (s.mapJcnt fun c => { c with badver := satW 12 c.badver 1 })) ∧
  (∀ (s : State) (f : Frame) (src dst data : List Byte) (sport dport part n : Nat) (ce : Bool), f.port < 64 →
     (s.fport f.port).up = true → s.rxFill f.port + f.bytes.length ≤ 2 ^ 20 → s.ingress f = .udp src dst sport dport ce data →
     (s.fab.addrs.find? fun y => y.2 == dst) = some (part, dst) → dport = s.fab.cfg.udp ∨ dport = s.fab.cfg.udp2 →
     s.sourceOf part src sport (readPkt (data.take 32) []).session = some n → 32 ≤ data.length →
     num (data.take 32) 2 3 ≤ (data.drop 32).length → (readPkt (data.take 32) []).ver = (s.peer n).ver →
     (readPkt (data.take 32) []).typ < 3 →
     exec (.frameReceive f) s = .next (s.stage6 n f.port ce f.bytes.length (data.take 32) (data.drop 32) (readPkt (data.take 32) []))) ∧
  (∀ (s : State) (f : Frame) (src dst data : List Byte) (sport dport part n : Nat) (ce : Bool), f.port < 64 →
     (s.fport f.port).up = true → s.rxFill f.port + f.bytes.length ≤ 2 ^ 20 → s.ingress f = .udp src dst sport dport ce data →
     (s.fab.addrs.find? fun y => y.2 == dst) = some (part, dst) → dport = s.fab.cfg.udp ∨ dport = s.fab.cfg.udp2 →
     s.sourceOf part src sport (readPkt (data.take 32) []).session = some n → 32 ≤ data.length →
     num (data.take 32) 2 3 ≤ (data.drop 32).length → (readPkt (data.take 32) []).ver = (s.peer n).ver →
     (readPkt (data.take 32) []).typ ∈ [3, 4, 5, 6, 7, 12, 13, 14, 15] →
     exec (.frameReceive f) s = .next (s.mapJcnt fun c => { c with badver := satW 12 c.badver 1 })) ∧
  (∀ (s : State) (f : Frame) (src dst data : List Byte) (sport dport part n : Nat) (ce : Bool), f.port < 64 →
     (s.fport f.port).up = true → s.rxFill f.port + f.bytes.length ≤ 2 ^ 20 → s.ingress f = .udp src dst sport dport ce data →
     (s.fab.addrs.find? fun y => y.2 == dst) = some (part, dst) → dport = s.fab.cfg.udp ∨ dport = s.fab.cfg.udp2 →
     s.sourceOf part src sport (readPkt (data.take 32) []).session = some n → 32 ≤ data.length →
     num (data.take 32) 2 3 ≤ (data.drop 32).length → (readPkt (data.take 32) []).ver = (s.peer n).ver →
     8 < (readPkt (data.take 32) []).typ → (readPkt (data.take 32) []).typ ≤ 0xB →
     exec (.frameReceive f) s = .next (s.acceptPkt n f.port ce f.bytes.length
       { readPkt (data.take 32) [] with payload := (data.drop 32).take (num (data.take 32) 2 3) })) ∧
  (∀ (s : State) (f : Frame) (src dst data : List Byte) (sport dport part n : Nat) (ce : Bool), f.port < 64 →
     (s.fport f.port).up = true → s.rxFill f.port + f.bytes.length ≤ 2 ^ 20 → s.ingress f = .udp src dst sport dport ce data →
     (s.fab.addrs.find? fun y => y.2 == dst) = some (part, dst) → dport = s.fab.cfg.udp ∨ dport = s.fab.cfg.udp2 →
     s.sourceOf part src sport (readPkt (data.take 32) []).session = some n → 32 ≤ data.length →
     num (data.take 32) 2 3 ≤ (data.drop 32).length → (readPkt (data.take 32) []).ver = (s.peer n).ver →
     (readPkt (data.take 32) []).typ = 8 → (s.fport f.port).bucket = 0 →
     exec (.frameReceive f) s = .next (s.mapJcnt fun c => { c with ratelim := sat16 c.ratelim 1 })) ∧
  (∀ (s : State) (f : Frame) (src dst data : List Byte) (sport dport part n : Nat) (ce : Bool), f.port < 64 →
     (s.fport f.port).up = true → s.rxFill f.port + f.bytes.length ≤ 2 ^ 20 → s.ingress f = .udp src dst sport dport ce data →
     (s.fab.addrs.find? fun y => y.2 == dst) = some (part, dst) → dport = s.fab.cfg.udp ∨ dport = s.fab.cfg.udp2 →
     s.sourceOf part src sport (readPkt (data.take 32) []).session = some n → 32 ≤ data.length →
     num (data.take 32) 2 3 ≤ (data.drop 32).length → (readPkt (data.take 32) []).ver = (s.peer n).ver →
     (readPkt (data.take 32) []).typ = 8 → 0 < (s.fport f.port).bucket →
     exec (.frameReceive f) s = .next ((s.mapPort f.port
       fun x => { x with bucket := x.bucket - 1 }).acceptPkt n f.port ce f.bytes.length
       { readPkt (data.take 32) [] with payload := (data.drop 32).take (num (data.take 32) 2 3) }))

/-- A DATA packet within the window of its session is placed and may call for an ACK or a CNP, one beyond it counts; an ACK moves its
  session forward, and the first one opens the session at the initiator; a CNP marks its peer; a peer whose pacing time has come sends
  the first packet that has its turn on its port, and with nothing to send it begins a queued message; the ACK timer acknowledges what a
  session owes; a retransmission timeout acts on the oldest unacknowledged packet; an epoch moves the rates of all open peers; a dead
  peer is closed with TIMEOUT and goes DOWN; FAILED and DOWN expire into IDLE. -/
def Obligations.JigrailTransportCompletes : Prop :=
  (∀ (s u : State) (n : Nat) (r : RxPkt) (y : Session), n < 4096 → s.takeRx n 0 = some (r, u) →
     ((u.takeAck n r.pkt.session r.pkt.cack []).peer n).session r.pkt.session = some y →
     r.pkt.psn < y.rxCack + ((u.takeAck n r.pkt.session r.pkt.cack []).peer n).win →
     exec (.data n) s = .next ((u.takeAck n r.pkt.session r.pkt.cack []).dataIn n r y)) ∧
  (∀ (s u : State) (n : Nat) (r : RxPkt) (y : Session), n < 4096 → s.takeRx n 0 = some (r, u) →
     ((u.takeAck n r.pkt.session r.pkt.cack []).peer n).session r.pkt.session = some y →
     y.rxCack + ((u.takeAck n r.pkt.session r.pkt.cack []).peer n).win ≤ r.pkt.psn →
     exec (.data n) s = .next ((u.takeAck n r.pkt.session r.pkt.cack []).mapJcnt fun c => { c with window := satW 12 c.window 1 })) ∧
  (∀ (s u : State) (n : Nat) (r : RxPkt) (y : Session), n < 4096 → s.takeRx n 1 = some (r, u) →
     (u.peer n).session r.pkt.session = some y →
     exec (.ack n) s = .next (u.takeAck n r.pkt.session r.pkt.cack (((List.range (8 * r.pkt.payload.length)).filter
       fun i => (r.pkt.payload.getD (i / 8) 0).toNat.testBit (i % 8)).map fun i => r.pkt.cack + 1 + i))) ∧
  (∀ (s u : State) (n : Nat) (r : RxPkt) (h : Hs), n < 4096 → s.takeRx n 1 = some (r, u) → (u.peer n).session r.pkt.session = none →
     (u.peer n).hs = some h → h.stage = 2 → h.sidMine = r.pkt.session →
     exec (.ack n) s = .next ((u.hsOpen n).mapPeer n fun x => x.mapSid r.pkt.session fun y => { y with ctlRx := some r.pkt.psn })) ∧
  (∀ (s u : State) (n : Nat) (r : RxPkt), n < 4096 → s.takeRx n 2 = some (r, u) →
     exec (.cnp n) s = .next ((u.takeAck n r.pkt.session r.pkt.cack []).mapPeer n fun x => { x with cnpSeen := true })) ∧
  (∀ (s : State) (n : Nat) (k : Nat × NextPkt) (q : List (Nat × NextPkt)) (d : Tab Nat), n < 4096 → (s.peer n).paceAt ≤ s.ltime →
     s.sendable (s.peer n) = k :: q → s.portTurn (s.peer n).part k.2 = some d → exec (.dataTransmit n) s = .next (s.sendOne n k d)) ∧
  (∀ (s : State) (n : Nat), n < 4096 → (s.peer n).paceAt ≤ s.ltime → s.sendable (s.peer n) = [] →
     exec (.dataTransmit n) s = .next (((s.beginMsg n).sendNext n).getD (s.beginMsg n))) ∧
  (∀ (s : State) (n : Nat), n < 4096 → s.ltime < (s.peer n).paceAt → exec (.dataTransmit n) s = .next s) ∧
  (∀ (s : State) (n : Nat) (y : Session) (m : JMsg) (q : List JMsg), (s.peer n).cur = some y → (s.peer n).old = none → y.unacked = [] →
     y.msgs = m :: q → m.next < m.len → y.txPsn < y.txCack + (s.peer n).win → y.txPsn < 0xFFFFFF00 → s.portFree m.port = true →
     (s.sendable (s.peer n)).head? = some (y.sidMine, .piece m)) ∧
  (∀ (s : State) (n : Nat) (y : Session), n < 4096 →
     ((s.peer n).cur.toList ++ (s.peer n).old.toList).find? (fun y => 0 < y.ackOwed) = some y →
     exec (.ackTimer n) s = .next (s.sendAck n y.sidMine)) ∧
  (∀ (s : State) (n : Nat) (y : Session) (a : Unacked) (t : List Unacked), n < 4096 →
     ((s.peer n).old.toList ++ (s.peer n).cur.toList).find? (fun y => !y.unacked.isEmpty) = some y → y.unacked = a :: t →
     exec (.retransmitTimeout n) s = .next (s.timedOut n y.sidMine a)) ∧
  (∀ (s : State),
     exec .rateEpoch s = .next (s.mapFab fun f =>
       { f with peers := f.peers.map fun y => if y.2.st = .opened then (y.1, y.2.epoch) else y })) ∧
  (∀ (s : State) (n : Nat), n < 4096 → (s.peer n).st = .opened → s.peerDead (s.peer n) = true →
     exec (.peerDeath n) s = .next ((s.closePeer n stTimeout .down).peerLost n)) ∧
  (∀ (s : State) (n : Nat), n < 4096 → (s.peer n).st = .failed →
     exec (.peerFailedExpiry n) s = .next (s.mapPeer n fun x => { x with st := .idle })) ∧
  (∀ (s : State) (n : Nat), n < 4096 → (s.peer n).st = .down →
     exec (.peerDownExpiry n) s = .next (s.mapPeer n fun x => { x with st := .idle }))

/-- A collective command whose issue checks hold does nothing once the round is decided (but that OWNER_SUM posts PEER_LATE if its window
  has closed); before that CONTRIB and PARAM_BCAST hand over one message for each chunk and destination, OWNER_SUM waits at its head for
  the copies of its chunk, reads them when all have landed, and issues with PEER_LATE and no effect when its window has closed without
  them, and STEP_VOTE leaves its vote, which completes with a decision already taken. RING_PASS uses the credit of its slot and sends its
  block, or sends a credit; without the credit it is held. A command whose checks fail ends its context with their status. -/
def Obligations.CollectiveCommandsComplete : Prop :=
  (∀ (s : State) (core n : Nat) (h : Head), heads s core n 0x90 h → contribCheck s h = none → affords s h 0 1 →
     let u := issued s h 0 1
     let p := u.pno core
     let l := u.leave h .collective
     exec (.contrib core n) s = .next (if (u.coll p).dec ≠ 0 then u.done h else
     ((l.2.mapColl p fun c => { c with sends := c.sends ++ [(core, l.1)] }).handMsgs h ((u.coll p).contribMsgs h l.1)).settle core n)) ∧
  (∀ (s : State) (core n : Nat) (h : Head) (g : Coll), heads s core n 0x92 h → bcastCheck s h = none → s.coll (s.pno core) = g →
     g.dec ≠ 0 → affords s h 0 1 →
     let u := issued s h 0 1
     exec (.paramBcast core n) s = .next (u.done h)) ∧
  (∀ (s : State) (core n : Nat) (h : Head) (g : Coll) (b : List Byte) (e : RegEnt) (hd : ShHdr), heads s core n 0x92 h →
     bcastCheck s h = none → s.coll (s.pno core) = g → g.dec = 0 → s.shard? (s.pno core) g.self = .ok (b, e, hd) → affords s h 0 1 →
     let p := s.pno core
     let u := (issued s h 0 1).regionTake fabEngine p (g.rreg g.self)
     let l := u.leave h .collective
     exec (.paramBcast core n) s = .next (((l.2.mapColl p
       fun c => { c with sends := c.sends ++ [(core, l.1)] }).handMsgs h (g.bcastMsgs h e l.1)).settle core n)) ∧
  (∀ (s : State) (core n : Nat) (h : Head), heads s core n 0x91 h → ownerCheck s h = none → (s.coll (s.pno core)).dec ≠ 0 →
     affords s h 4 1 →
     let u := (issued s h 4 1).mapCore h.core fun k => k.mapCtx h.ctx.lctx
       fun x => { x with lastStatus := if (s.coll (s.pno core)).winDone then stPeerLate else x.lastStatus }
     exec (.ownerSum core n) s = .next (u.done h)) ∧
  (∀ (s : State) (core n : Nat) (h : Head), heads s core n 0x91 h → ownerCheck s h = none → (s.coll (s.pno core)).dec = 0 →
     (s.coll (s.pno core)).allLanded (cf h.w 37 20) = false → (s.coll (s.pno core)).winDone = true → affords s h 4 1 →
     let u := (issued s h 4 1).mapCore core fun k => k.mapCtx h.ctx.lctx fun y => { y with lastStatus := stPeerLate }
     exec (.ownerSum core n) s = .next (u.done h)) ∧
  (∀ (s : State) (core n : Nat) (h : Head), heads s core n 0x91 h → ownerCheck s h = none → (s.coll (s.pno core)).dec = 0 →
     (s.coll (s.pno core)).allLanded (cf h.w 37 20) = false → (s.coll (s.pno core)).winDone = false →
     let u := if (s.coll (s.pno core)).sums.any fun y => y.core == h.core && y.lctx == h.ctx.lctx then s
       else s.mapColl (s.pno core) fun c => { c with sums := c.sums ++ [⟨h.core, h.ctx.lctx, h.w, s.ltime⟩] }
     exec (.ownerSum core n) s = .next (u.hold core n 3)) ∧
  (∀ (s : State) (core n : Nat) (h : Head) (b : List Byte) (e : RegEnt) (hd : ShHdr), heads s core n 0x91 h → ownerCheck s h = none →
     (s.coll (s.pno core)).dec = 0 → (s.coll (s.pno core)).allLanded (cf h.w 37 20) = true → (s.core core).vecReady h.ctx = true →
     s.shard? (s.pno core) (s.coll (s.pno core)).self = .ok (b, e, hd) →
     s.vfailAny (s.pno core) (ownExts (s.coll (s.pno core)) e h.w).1 false = none →
     s.vfailAny (s.pno core) (ownExts (s.coll (s.pno core)) e h.w).2 true = none →
     affords s h 4 (ownTerm h.w ((s.coll (s.pno core)).ownAcc e) 0) →
     let x := ownExts (s.coll (s.pno core)) e h.w
     let v := (issued s h 4 (ownTerm h.w ((s.coll (s.pno core)).ownAcc e) 0)).regionTake fabEngine (s.pno core) ((s.coll (s.pno
       core)).rreg (s.coll (s.pno core)).self)
     let z := (x.1.foldl (fun t y => t.vtake (s.pno core) y.1 y.2) v).enginePages fabEngine (s.pno core) ((x.1 ++ x.2).flatMap
       fun y => pageRun y.1 y.2)
     let l := z.leave h .collective
     let u := l.2.mapColl (s.pno core) fun c => { c with sums := c.sums.filter fun y => !(y.core == core && y.lctx == h.ctx.lctx) }
     exec (.ownerSum core n) s = .next ((u.vStep core ⟨l.1, h.slot, h.ctx.lctx, h.w, [], 0, (s.coll (s.pno core)).ownAcc e, false,
       []⟩).settle core n)) ∧
  (∀ (s : State) (core n : Nat) (h : Head), heads s core n 0x93 h → stepCheck s h = none → affords s h 0 1 →
     let p := (issued s h 0 1).pno core
     let l := (issued s h 0 1).leave h .collective
     let v := l.2.mapColl p fun c => { c with vote := some ⟨core, n, h.ctx.lctx, l.1, cb h.w 28, cf h.w 27 24, cf h.w 23 20⟩ }
     exec (.stepVote core n) s = .next (if (v.coll p).dec ≠ 0 then (v.completeVote p).settle core n else (v.voteCheck p).settle core n)) ∧
  (∀ (s : State) (core n : Nat) (h : Head), heads s core n 0x94 h → ringCheck s h = none →
     cb h.w 21 = true ∨ cf h.w 38 23 < 2 ∨ ((s.coll (s.pno core)).credits.contains (cf h.w 20 20, cf h.w 38 23 - 2)) = true →
     affords s h 0 1 →
     let p := s.pno core
     let l := (issued s h 0 1).leave h .collective
     let v := if cb h.w 21 then l.2 else
     l.2.mapColl p fun c => { c with credits := c.credits.filter fun x => x != (cf h.w 20 20, cf h.w 38 23 - 2) || cf h.w 38 23 < 2 }
     exec (.ringPass core n) s = .next ((v.handMsgs h [(s.coll p).ringMsg h l.1]).settle core n)) ∧
  (∀ (s : State) (core n : Nat) (h : Head), heads s core n 0x94 h → ringCheck s h = none → cb h.w 21 = false → 2 ≤ cf h.w 38 23 →
     ((s.coll (s.pno core)).credits.contains (cf h.w 20 20, cf h.w 38 23 - 2)) = false →
     exec (.ringPass core n) s = .next (s.hold core n 3)) ∧
  (∀ (s : State) (core n st : Nat) (h : Head), heads s core n 0x90 h → contribCheck s h = some st →
     exec (.contrib core n) s = .next (s.failed h st)) ∧
  (∀ (s : State) (core n st : Nat) (h : Head), heads s core n 0x91 h → ownerCheck s h = some st →
     exec (.ownerSum core n) s = .next (s.failed h st)) ∧
  (∀ (s : State) (core n st : Nat) (h : Head), heads s core n 0x92 h → bcastCheck s h = some st →
     exec (.paramBcast core n) s = .next (s.failed h st)) ∧
  (∀ (s : State) (core n st : Nat) (h : Head), heads s core n 0x93 h → stepCheck s h = some st →
     exec (.stepVote core n) s = .next (s.failed h st)) ∧
  (∀ (s : State) (core n st : Nat) (h : Head), heads s core n 0x94 h → ringCheck s h = some st →
     exec (.ringPass core n) s = .next (s.failed h st))

/-- A contribution or broadcast chunk of a member, in form and round, opens its window; one that has landed already is dropped, and after
  the window it is late. A window that closes with chunks missing sets LATE. A waiting OWNER_SUM issues in its turn: it runs when all
  copies of its chunk have landed, and completes without writing when its window has closed, when a decision is held (both post PEER_LATE
  if the window has closed), and after VOTET ticks without an open window. The vote is cast when the round is ready; votes are tallied at
  the coordinator, who decides REPEAT at the timeout; the decision of the coordinator that is awaited is taken in, or kept while an
  earlier one is held; a member without one ends its STEP_VOTE with TIMEOUT. A ring block lands in its slot and signals its token; a ring
  credit is kept. COLL_GRP takes a valid descriptor, and COLL_STATE sets the round while the group is off. -/
def Obligations.CollectiveEventsComplete : Prop :=
  (∀ (s u : State) (p i : Nat) (m : Landed), p < 64 → s.takeIn p (fun m => kindOf m == 0) = some (m, u) →
     (u.coll p).memberOf (u.peer m.peer).pidx = some i → (u.coll p).en = true → bits m.minfo 17 0 < (u.coll p).cps →
     m.bytes.length = 192 * (u.coll p).tiles (bits m.minfo 17 0) + 64 → (u.coll p).roundOf m.minfo ≠ 2 → s.halts = false →
     let c := u.coll p
     let cur := c.roundOf m.minfo == 0
     let start := (if cur then c.winAt else c.winAtN).getD m.stamp
     let v := u.mapColl p fun c => if cur then { c with winAt := some start } else { c with winAtN := some start }
     exec (.contributionLanding p) s = .next (if (if cur then c.winDone
       else c.winDoneN) ∨ start + c.window ≤ m.stamp then (v.contribLate p cur).voteCheck p
     else if (if cur then c.landed else c.landedN).contains (i, bits m.minfo 17 0) then v.dropIn p
       else v.contribInto p i (bits m.minfo 17 0) cur m)) ∧
  (∀ (s u : State) (p i : Nat) (m : Landed), p < 64 → s.takeIn p (fun m => kindOf m == 1) = some (m, u) →
     (u.coll p).memberOf (u.peer m.peer).pidx = some i → (u.coll p).en = true → bits m.minfo 17 0 < (u.coll p).bps →
     m.bytes.length = 64 * (u.coll p).blocks (bits m.minfo 17 0) + 64 → (u.coll p).roundOf m.minfo = 0 → s.halts = false →
     let c := u.coll p
     let start := c.bwinAt.getD m.stamp
     let v := u.mapColl p fun c => { c with bwinAt := some start }
     exec (.broadcastLanding p) s = .next (if c.bwinDone ∨ start + c.window ≤ m.stamp then (v.mapColl p
       fun c => { c with late := true, cLate := sat16 c.cLate 1 }).voteCheck p
     else if c.bland.contains (i, bits m.minfo 17 0) then v.dropIn p else v.bcastInto p i (bits m.minfo 17 0) m)) ∧
  (∀ (s : State) (p : Nat), p < 64 → ((s.coll p).winAt.any fun t => t + (s.coll p).window ≤ s.ltime) = true →
     (s.coll p).winDone = false →
     let miss := ((s.coll p).n - 1) * (s.coll p).cps - (s.coll p).landed.length
     exec (.contributionWindowClose p) s = .next ((s.mapColl p
       fun c => { c with winDone := true, late := c.late || miss != 0, cLate := sat16 c.cLate miss }).voteCheck p)) ∧
  (∀ (s : State) (p : Nat), p < 64 →
     ((s.coll p).winAt.any fun t => t + (s.coll p).window ≤ s.ltime) = false ∨ (s.coll p).winDone = true →
     ((s.coll p).winAtN.any fun t => t + (s.coll p).window ≤ s.ltime) = true → (s.coll p).winDoneN = false →
     let miss := ((s.coll p).n - 1) * (s.coll p).cps - (s.coll p).landedN.length
     exec (.contributionWindowClose p) s = .next (s.mapColl p
       fun c => { c with winDoneN := true, nlate := c.nlate || miss != 0, cLate := sat16 c.cLate miss })) ∧
  (∀ (s : State) (p : Nat), p < 64 → ((s.coll p).bwinAt.any fun t => t + (s.coll p).window ≤ s.ltime) = true →
     (s.coll p).bwinDone = false →
     let c := s.coll p
     let bad := (List.range c.n).any fun i => i != c.self &&
     (match s.shard? p i with | .ok (_, e, h) => !(c.opened.contains i) || decide (h.shdone < e.nblk) | .error _ => true)
     let miss := (c.n - 1) * c.bps - c.bland.length
     exec (.broadcastWindowClose p) s = .next (((s.shardsTake p).mapColl p
       fun c => { c with bwinDone := true, late := c.late || bad, cLate := sat16 c.cLate (if bad then miss else 0) }).voteCheck p)) ∧
  (∀ (s : State) (core n : Nat) (x : OwnSum) (h : Head), core < 2048 →
     ((s.coll (s.pno core)).sums.find? fun x => x.core == core && ((s.coll (s.pno core)).dec != 0 || (s.coll (s.pno core)).winDone ||
       (s.coll (s.pno core)).allLanded (cf x.cmd 37 20)) && ((s.core core).findSlot x.lctx).isSome) = some x →
     (s.core core).findSlot x.lctx = some n → heads s core n 0x91 h → ownerCheck s h = none → (s.coll (s.pno core)).dec ≠ 0 →
     affords s h 4 1 →
     let u := (issued s h 4 1).mapCore h.core fun k => k.mapCtx h.ctx.lctx
       fun x => { x with lastStatus := if (s.coll (s.pno core)).winDone then stPeerLate else x.lastStatus }
     exec (.ownerSumStart core) s = .next (u.done h)) ∧
  (∀ (s : State) (core n : Nat) (x : OwnSum) (h : Head), core < 2048 →
     ((s.coll (s.pno core)).sums.find? fun x => x.core == core && ((s.coll (s.pno core)).dec != 0 || (s.coll (s.pno core)).winDone ||
       (s.coll (s.pno core)).allLanded (cf x.cmd 37 20)) && ((s.core core).findSlot x.lctx).isSome) = some x →
     (s.core core).findSlot x.lctx = some n → heads s core n 0x91 h → ownerCheck s h = none → (s.coll (s.pno core)).dec = 0 →
     (s.coll (s.pno core)).allLanded (cf h.w 37 20) = false → (s.coll (s.pno core)).winDone = true → affords s h 4 1 →
     let u := (issued s h 4 1).mapCore core fun k => k.mapCtx h.ctx.lctx fun y => { y with lastStatus := stPeerLate }
     exec (.ownerSumStart core) s = .next (u.done h)) ∧
  (∀ (s : State) (core n : Nat) (x : OwnSum) (h : Head) (b : List Byte) (e : RegEnt) (hd : ShHdr), core < 2048 →
     ((s.coll (s.pno core)).sums.find? fun x => x.core == core && ((s.coll (s.pno core)).dec != 0 || (s.coll (s.pno core)).winDone ||
       (s.coll (s.pno core)).allLanded (cf x.cmd 37 20)) && ((s.core core).findSlot x.lctx).isSome) = some x →
     (s.core core).findSlot x.lctx = some n → heads s core n 0x91 h → ownerCheck s h = none → (s.coll (s.pno core)).dec = 0 →
     (s.coll (s.pno core)).allLanded (cf h.w 37 20) = true → (s.core core).vecReady h.ctx = true →
     s.shard? (s.pno core) (s.coll (s.pno core)).self = .ok (b, e, hd) →
     s.vfailAny (s.pno core) (ownExts (s.coll (s.pno core)) e h.w).1 false = none →
     s.vfailAny (s.pno core) (ownExts (s.coll (s.pno core)) e h.w).2 true = none →
     affords s h 4 (ownTerm h.w ((s.coll (s.pno core)).ownAcc e) 0) →
     let x := ownExts (s.coll (s.pno core)) e h.w
     let v := (issued s h 4 (ownTerm h.w ((s.coll (s.pno core)).ownAcc e) 0)).regionTake fabEngine (s.pno core) ((s.coll (s.pno
       core)).rreg (s.coll (s.pno core)).self)
     let z := (x.1.foldl (fun t y => t.vtake (s.pno core) y.1 y.2) v).enginePages fabEngine (s.pno core) ((x.1 ++ x.2).flatMap
       fun y => pageRun y.1 y.2)
     let l := z.leave h .collective
     let u := l.2.mapColl (s.pno core) fun c => { c with sums := c.sums.filter fun y => !(y.core == core && y.lctx == h.ctx.lctx) }
     exec (.ownerSumStart core) s = .next ((u.vStep core ⟨l.1, h.slot, h.ctx.lctx, h.w, [], 0, (s.coll (s.pno core)).ownAcc e, false,
       []⟩).settle core n)) ∧
  (∀ (s : State) (core : Nat) (x : OwnSum), core < 2048 →
     (s.coll (s.pno core)).sums.find? (fun x => x.core == core && decide (x.at' + (s.coll (s.pno core)).votet ≤ s.ltime)) = some x →
     (s.coll (s.pno core)).winAt.isSome = false →
     exec (.ownerSumVotetExpiry core) s = .next (((s.mapColl (s.pno core)
       fun c => { c with late := true }).endSum (s.pno core) x none).voteCheck (s.pno core))) ∧
  (∀ (s : State) (p : Nat), p < 64 → (s.coll p).en = true → (s.coll p).vote.isSome = true → (s.coll p).voted = false →
     (s.coll p).dec = 0 → (s.coll p).late = false → (s.coll p).digest = false → s.roundReady p = true → s.halts = false →
     exec (.voteReady p) s = .next ((s.shardsTake p).castVote p 1 0)) ∧
  (∀ (s u : State) (p i : Nat) (m : Landed), p < 64 → s.takeIn p (fun m => kindOf m == 2 && bits m 17 0 == 0) = some (m, u) →
     (u.coll p).memberOf (u.peer m.peer).pidx = some i → (u.coll p).en = true → m.bytes.length = 64 → num m.bytes 6 7 = i →
     (u.coll p).self = (u.coll p).coord → (u.coll p).takesVote (num m.bytes 0 3 % 2 ^ 24, num m.bytes 4 4) = true →
     exec (.voteReceive p) s = .next ((u.mapColl p fun c => { c with votes := c.votes ++ [m.bytes.take 12] }).tally p)) ∧
  (∀ (s : State) (p : Nat), p < 64 → (s.coll p).en = true → (s.coll p).self = (s.coll p).coord → (s.coll p).voted = true →
     (s.coll p).decided = false → (s.coll p).dec = 0 → (s.coll p).votedAt + (s.coll p).votet ≤ s.ltime →
     exec (.voteTimeout p) s = .next (s.decide p (2, 0, 0))) ∧
  (∀ (s u : State) (p i : Nat) (m : Landed), p < 64 → s.takeIn p (fun m => kindOf m == 2 && bits m 17 0 == 1) = some (m, u) →
     (u.coll p).memberOf (u.peer m.peer).pidx = some i → (u.coll p).en = true → m.bytes.length = 64 → i = (u.coll p).coord →
     1 ≤ num m.bytes 5 5 ∧ num m.bytes 5 5 ≤ 3 → (u.coll p).awaited = some (num m.bytes 0 3 % 2 ^ 24, num m.bytes 4 4) →
     (u.coll p).dec = 0 → exec (.decisionReceive p) s = .next (((u.recordDecision p m.bytes).takeDecision p m.bytes).completeVote p)) ∧
  (∀ (s u : State) (p i : Nat) (m : Landed), p < 64 → s.takeIn p (fun m => kindOf m == 2 && bits m 17 0 == 1) = some (m, u) →
     (u.coll p).memberOf (u.peer m.peer).pidx = some i → (u.coll p).en = true → m.bytes.length = 64 → i = (u.coll p).coord →
     1 ≤ num m.bytes 5 5 ∧ num m.bytes 5 5 ≤ 3 → (u.coll p).awaited = some (num m.bytes 0 3 % 2 ^ 24, num m.bytes 4 4) →
     (u.coll p).dec ≠ 0 →
     exec (.decisionReceive p) s = .next ((u.recordDecision p m.bytes).mapColl p fun c => { c with early := c.early ++ [m.bytes] })) ∧
  (∀ (s : State) (p : Nat) (v : StepVote), p < 64 → (s.coll p).vote = some v → (s.coll p).voted = true → (s.coll p).dec = 0 →
     (s.coll p).votedAt + 2 * (s.coll p).votet ≤ s.ltime →
     exec (.decisionTimeout p) s = .next (((s.mapColl p
       fun c => { c with vote := none }).endStepBegin p stTimeout).faultCtx v.core v.lctx stTimeout)) ∧
  (∀ (s u : State) (p : Nat) (m : Landed), p < 64 → s.takeIn p (fun m => kindOf m == 3 && !bit m 16) = some (m, u) →
     (u.coll p).en = true →
     (u.coll p).memberOf (u.peer m.peer).pidx = some (if bits m.minfo 17 17 = 0 then (u.coll p).rpred else (u.coll p).rsucc) →
     m.bytes.length ≤ (u.coll p).rslot → m.bytes.length % 16 = 0 →
     u.vfail p ((u.coll p).rbuf (bits m.minfo 17 17) + bits m.minfo 15 0 % 2 * (u.coll p).rslot) m.bytes.length true = none →
     s.halts = false →
     let c := u.coll p
     let dir := bits m.minfo 17 17
     exec (.ringLanding p) s = .next ((u.vwrite p (c.rbuf dir + bits m.minfo 15 0 % 2 * c.rslot) m.bytes).signalTok (bits (c.rxc dir) 10
       0) (bits (c.rxc dir) 14 11) (bits (c.rxt dir) 3 0))) ∧
  (∀ (s u : State) (p : Nat) (m : Landed), p < 64 → s.takeIn p (fun m => kindOf m == 3 && bit m 16) = some (m, u) →
     (u.coll p).en = true →
     (u.coll p).memberOf (u.peer m.peer).pidx = some (if bits m.minfo 17 17 = 0 then (u.coll p).rsucc else (u.coll p).rpred) →
     m.bytes.length = 16 →
     let v := u.mapColl p fun c => { c with credits := c.credits ++ [(bits m.minfo 17 17, bits m.minfo 15 0)] }
     exec (.ringCredit p) s = .next ((v.coresOf p).foldl (fun s n => if (s.core n).slots.isEmpty then s else s.mapCore n Core.refresh) v)) ∧
  (∀ (s : State) (who : Who) (p : Nat) (v : W64) (d : List Byte), p < 64 → s.ownsPart who p = true → s.collBusy p = false →
     v.toNat.testBit 63 = true → s.groupDesc p (fld (bits v.toNat 47 7) 7) = .ok d →
     let a := fld (bits v.toNat 47 7) 7
     let c1 : Coll := { s.coll p with addr := a, desc := d }
     let u := (List.range c1.n).foldl (fun s i => s.regionTake fabEngine p (c1.rreg i)) ((s.vtake p a d.length).enginePages fabEngine p
       (pageRun a d.length))
     exec (.collGrpWrite who p v) s = .next (if s.groupOk p c1 then u.mapColl p
       fun c => { c1 with en := true, rounds := if c.en then c.rounds else 0 }
     else s.mapColl p fun c => { c with en := false, addr := fld (bits v.toNat 47 7) 7 })) ∧
  (∀ (s : State) (who : Who) (p : Nat) (v : W64), p < 64 → s.ownsPart who p = true → (s.coll p).en = false →
     exec (.collStateWrite who p v) s = .next (s.mapColl p fun c => c.setRound v.toNat))

/-- A refill tick gives each free cluster one token and each partition with clusters its floor, carried fraction and share of what the
  metered power leaves, and wakes every core that slept for the budget. A head passed over 4,096 times for budget takes the reservation.
  A power window puts the accepted cap in force, records the powers and sets every clock step; the fast limiter stretches the clocks of
  clusters without a floor above 1.10 times the cap and stops below 1.05 times; a thermal window records the sensors and moves the
  thermal step, and a rising step asserts the alert. An idle cluster gates, turns its PLL off after that and wakes; the last PLL turned
  off makes the device READY and the first wake ACTIVE. The management port sets the cap, or is refused. At the boundary of a serving
  step, when the DONE word holds the number of the last step and a step is outstanding or a batch has arrived, the sequencer ends, builds
  and writes the next step. -/
def Obligations.PowerEventsComplete : Prop :=
  (∀ (s : State),
     ∃ t : State, exec .refillTick s = .next t ∧ (∀ k < 128,
       (s.cluster k).owner = none → t.cluster k = ((s.cluster k).newCycle.refill 65536).1) ∧
     (∀ p < 64, (s.part p).exist = true → (s.clustersOf p).length ≠ 0 → t.part p = (s.part p).ticked s.metered.shares p (s.clustersOf
       p).length) ∧
     (∀ c, t.core c = { s.core c with asleep := false })) ∧
  (∀ (s : State) (core n : Nat), core < 2048 → n < 8 → ((s.core core).slot n).cause = 4 → 4096 ≤ ((s.core core).slot n).budSkips →
     (s.core core).reserved.isNone = true → s.halts = false →
     exec (.headReservation core n) s = .next (s.mapCore core fun k => { k with reserved := some n })) ∧
  (∀ (s : State) (pin nc : Nat),
     let u : State := { s with
     pwr := { s.pwr with cap := s.pwr.accepted, capNext := none, pin := pin % 4096, punc := nc, ncLast := nc }
     parts := s.parts.map fun x => (x.1, { x.2 with used := ((s.clustersOf x.1).map fun k => (s.cluster k).spent).sum / (65536 * 4000) })
       }
     ∃ t : State, exec (.powerWindow pin nc) s = .next t ∧ t.pwr = u.pwr ∧ t.parts = u.parts
       ∧ (∀ k < 128, t.cluster k = { s.cluster k with step := u.nextStep (s.cluster k), spent := 0, ranCyc := 0, heldCyc := 0 })) ∧
  (∀ (s : State) (mean : Nat), s.pwr.limiting = false → 11 * s.pwr.cap < 10 * mean →
     ∃ t : State, exec (.fastLimiter mean) s = .next t ∧ t.pwr = { s.pwr with limiting := true, limits := sat16 s.pwr.limits 1 } ∧
     (∀ k < 128, t.cluster k = { s.cluster k with stretch := s.floorOf (s.cluster k) == 0 })) ∧
  (∀ (s : State) (mean : Nat), s.pwr.limiting = true → 20 * mean < 21 * s.pwr.cap →
     ∃ t : State, exec (.fastLimiter mean) s = .next t ∧ t.pwr = { s.pwr with limiting := false } ∧
     (∀ k < 128, t.cluster k = { s.cluster k with stretch := false })) ∧
  (∀ (s : State) (r : List (Nat × Nat)), (r.any fun x => 512 ≤ x.1) = false → s.pwr.devState ≠ 0 →
     let sens := r.foldl (fun t x => Tab.put t x.1 x.2) s.sup.sensors
     let hot := hottest sens 0 512
     let n := thermNext s.pwr.thstep s.pwr.calm (if s.sup.therm.active then max hot 100 else hot)
     ∃ t : State, exec (.thermalWindow r) s = .next t
       ∧ t.sup = { s.sup with sensors := sens, tjmax := hot % 256, alert := s.sup.alert || s.pwr.thstep < n.1 } ∧
     t.pwr = { s.pwr with thstep := n.1, calm := n.2 }
       ∧ (∀ k < 128, t.cluster k = { s.cluster k with tmax := hottest sens (4 * k) 4 % 256 })) ∧
  (∀ (s : State) (k : Nat), k < 128 → (s.cluster k).clk = .run → s.clusterIdle k = true →
     exec (.clusterGate k) s = .next (s.setCluster k { s.cluster k with clk := .gated })) ∧
  (∀ (s : State) (k : Nat), k < 128 → s.powered = true → s.sup.shed = false → (s.cluster k).clk = .pllOff →
     exec (.clusterWake k) s = .next (({ s with pwr := { s.pwr with devState := 3 } } : State).setCluster k
       { s.cluster k with clk := .locking })) ∧
  (∀ (s : State) (k : Nat), k < 128 → s.powered = true → s.sup.shed = false → (s.cluster k).clk = .gated →
     exec (.clusterWake k) s = .next (s.setCluster k { s.cluster k with clk := .run })) ∧
  (∀ (s : State) (k : Nat), k < 128 → (s.cluster k).clk = .gated → (s.cluster k).plloff ≠ 0 → s.clusterIdle k = true →
     let u := s.setCluster k { s.cluster k with clk := .pllOff }
     exec (.pllOff k) s = .next (if s.pwr.devState = 3
       ∧ ((List.range 128).all fun j => (u.cluster j).clk == .pllOff) = true then { u with pwr := { s.pwr with devState := 2 } } else u)) ∧
  (∀ (s : State) (k : Nat), k < 128 → (s.cluster k).clk = .locking →
     exec (.pllLock k) s = .next (s.setCluster k { s.cluster k with clk := .run })) ∧
  (∀ (s : State) (port : Nat) (v : W64), port = s.mgmt → 1200 ≤ bits v.toNat 11 0 → bits v.toNat 11 0 ≤ 3000 →
     s.floorSum ≤ floorMaxOf (min s.pwr.cap (bits v.toNat 11 0)) →
     exec (.pwrCapWrite (.host port 0) v) s = .next { s with pwr := { s.pwr with capNext := some (bits v.toNat 11 0) } }) ∧
  (∀ (s : State) (port : Nat) (v : W64), port = s.mgmt →
     bits v.toNat 11 0 < 1200 ∨ 3000 < bits v.toNat 11 0 ∨ floorMaxOf (min s.pwr.cap (bits v.toNat 11 0)) < s.floorSum →
     exec (.pwrCapWrite (.host port 0) v) s = .next { s with pwr := { s.pwr with capref := true } }) ∧
  (∀ (s : State) (p : Nat) (c : ServeCfg), p < 64 → (s.serve p).cfg = some c →
     s.donew p c = some (if (s.serve p).step = 0 then 2 ^ 64 - 1 else (s.serve p).step - 1) →
     (s.serve p).outst = true ∨ (s.serve p).arrived = true → s.halts = false →
     exec (.serveStepBoundary p) s = .next (s.boundary p (s.serve p) c))

/-- A packet whose common checks and own checks hold has its effect and replies OK: identity and capabilities are written or replied, the
  power cap is accepted or denied, the management role moves, a partition is created, begins to be destroyed or is reported, pages are
  mapped and unmapped, frames return from the pool, and a page fault is resolved by resuming or stopping. -/
def Obligations.QueryPacketsComplete : Prop :=
  (∀ (s u : State) (port ring : Nat) (k : Pkt), takes s u 0x0101 port ring k →
     let v := leNat stepping + fld 0x0C 24 + fld (u.boot.version % 2 ^ 32) 32
     let d := port + 2 * b01 (port == u.mgmt)
     exec (.identify port ring) s = .next (if k.n 8 15 = 0 then u.fin k stOk d v else u.writeFin k (k.n 8 15) u.idBytes d v)) ∧
  (∀ (s u : State) (port ring : Nat) (k : Pkt), takes s u 0x0102 port ring k → 64 ≤ k.n 16 19 →
     exec (.getCaps port ring) s = .next (u.writeFin k (k.n 8 15) u.capsBytes 0 64)) ∧
  (∀ (s u : State) (port ring : Nat) (k : Pkt), takes s u 0x0103 port ring k → 1200 ≤ k.n 8 9 → k.n 8 9 ≤ 3000 →
     exec (.setPowerCap port ring) s = .next (if floorMaxOf (min u.pwr.cap (k.n 8 9)) < u.floorSum then u.failPkt k stBudgetDenied else
     ({ u with pwr := { u.pwr with capNext := some (k.n 8 9) } } : State).fin k stOk 0 (floorMaxOf (min u.pwr.cap (k.n 8 9))))) ∧
  (∀ (s u : State) (port ring : Nat) (k : Pkt), takes s u 0x0104 port ring k → bits (k.n 8 8) 0 0 = u.mgmt →
     exec (.grantMgmt port ring) s = .next (u.fin k stOk 0 0)) ∧
  (∀ (s u : State) (port ring : Nat) (k : Pkt), takes s u 0x0104 port ring k → bits (k.n 8 8) 0 0 ≠ u.mgmt →
     u.hasPortRing (bits (k.n 8 8) 0 0) = true →
     ((u.hport port).rings.any fun x => x.1 != ring && x.2.part == 0xFF && x.2.taken.head?.any fun t => num t.b 0 1 != 0x0104) = false →
     exec (.grantMgmt port ring) s = .next ((u.moveRole (bits (k.n 8 8) 0 0)).fin k stOk 0 0)) ∧
  (∀ (s u : State) (port ring : Nat) (k : Pkt), takes s u 0x0901 port ring k →
     exec (.powerState port ring) s = .next (u.fin k stOk u.pwr.devState u.pwrStatus)) ∧
  (∀ (s u : State) (port ring : Nat) (k : Pkt), takes s u 0x0201 port ring k → u.createFail k k.create = none →
     let v := u.giveClusters k.part k.create
     let x := v.setPart k.part (v.newPart k k.create)
     exec (.partCreate port ring) s = .next (({ x with hpParts := Tab.put x.hpParts k.part { ({} : HpPart) with func := k.create.func } }
       : State).fin k stOk 0 0)) ∧
  (∀ (s u : State) (port ring : Nat) (k : Pkt), takes s u 0x0202 port ring k → ((u.accept k).part k.part).draining = false →
     exec (.partDestroy port ring) s = .next ((u.accept k).killPart k.part stKilled true)) ∧
  (∀ (s u : State) (port ring : Nat) (k : Pkt), takes s u 0x0203 port ring k →
     exec (.partQuery port ring) s = .next (if k.n 8 15 = 0 then u.fin k stOk 0 (u.partInfo k.part) else
     u.writeFin k (k.n 8 15) (sized 56 (u.part k.part).params ++ leBytes 4 (u.held k.part).1 ++ leBytes 4 (u.held k.part).2) 0
       (u.partInfo k.part))) ∧
  (∀ (s u : State) (port ring : Nat) (k : Pkt) (v : State) (l : List Byte), takes s u 0x0301 port ring k → k.mapOk = true →
     (if bit (k.n 28 28) 4 then u.read k (k.n 16 23) (8 * k.n 24 27) else (u, .ok [])) = (v, .ok l) → v.mapFails k (k.mapPages l) = none →
     v.mapPends k (k.mapPages l) = false → (v.mapAll k (k.mapPages l)).inQuota k.part = true →
     let size := if bit (k.n 28 28) 0 then 2 ^ 30 else 2 ^ 21
     let old := if bit (k.n 28 28) 5 then [] else (k.mapPages l).flatMap fun x => rangeIn (x.1 / 2 ^ 21) (size / 2 ^ 21)
     exec (.mapPages port ring) s = .next (((v.mapAll k (k.mapPages l)).invalidate k.part old).fin k stOk 0 (k.n 24 27))) ∧
  (∀ (s u : State) (port ring : Nat) (k : Pkt), takes s u 0x0302 port ring k → u.unmapOk k = true → bit (k.n 20 20) 1 = true →
     let fs := rangeIn (k.n 8 15 / 2 ^ 21) (k.n 16 19)
     exec (.unmap port ring) s = .next ((u.setPart k.part
       { u.part k.part with pool := (u.part k.part).pool.filter fun x => !fs.contains x }).fin k stOk 0 ((u.part k.part).pool.filter
       fs.contains).length)) ∧
  (∀ (s u : State) (port ring : Nat) (k : Pkt), takes s u 0x0302 port ring k → u.unmapOk k = true → bit (k.n 20 20) 1 = false →
     k.n 8 15 + k.n 16 19 * (if bit (k.n 20 20) 0 then 2 ^ 30 else 2 ^ 21) ≤ u.v2Base k.part →
     let g := bit (k.n 20 20) 0
     let size := if g then 2 ^ 30 else 2 ^ 21
     let gone := (u.part k.part).mapped g (k.n 8 15 / size) (k.n 16 19)
     exec (.unmap port ring) s = .next (((u.setPart k.part ((u.part k.part).unmap g gone)).invalidate k.part (gone.flatMap
       fun i => rangeIn (i * (size / 2 ^ 21)) (size / 2 ^ 21))).fin k stOk 0 gone.length)) ∧
  (∀ (s u : State) (port ring : Nat) (k : Pkt), takes s u 0x0303 port ring k →
     (((u.part k.part).faults.filter fun f => f.covers (k.n 8 15)).isEmpty) = false →
     let on (v : Nat) : Bool := ((u.part k.part).faults.filter fun f => f.covers (k.n 8 15)).any fun f => f.covers v
     let v := u.mapPart k.part fun pt => { pt with faults := pt.faults.filter fun f => !f.covers (k.n 8 15) }
     let r := if bit (k.n 16 16) 0 then v.stopPage k.part on else v.resumePage k.part on
     exec (.faultResolve port ring) s = .next (((r.1.admitFaults k.part).partEvent k.part none 0).fin k stOk 0 r.2))

/-- LOAD_STREAMS and LAUNCH reply ACCEPTED and begin their work, the copy of a load ends with its reply, PREEMPT stays at the head of its
  ring until the named contexts have stopped and RESUME lets them run again. STEP_BEGIN signals its cores in a round that is not decided,
  STEP_STATUS reports, PEER_TABLE_SET replaces the peers, SERVE_CONFIG sets or ends serving and SERVE_BATCH takes records in. Test
  bundles are kept, test runs begin when their clusters are free or are shared out, and the fault log is read. -/
def Obligations.WorkPacketsComplete : Prop :=
  (∀ (s u : State) (port ring : Nat) (k : Pkt), takes s u 0x0401 port ring k → k.n 16 19 % 16 = 0 → k.n 28 31 % 16 = 0 → k.n 26 27 ≠ 0 →
     k.n 28 31 + k.n 16 19 ≤ 0xC0000 → (u.part k.part).hitsSave (k.n 28 31) (k.n 16 19) = false →
     u.allIn k.part (coreRun (k.n 24 25) (k.n 26 27)) = true →
     let v := (u.accept k).mapPart k.part fun pt =>
       { pt with loads := pt.loads.drop (pt.loads.length - 63) ++ [(port, ring, k.b)], loadN := pt.loadN + 1 }
     exec (.loadStreams port ring) s = .next ((v.startProgress k.part (port, ring, k.tag)).partEvent k.part none 0)) ∧
  (∀ (s : State) (port ring : Nat) (l : LongOp), port < 2 → ring < 256 →
     (s.ring port ring).longs.find? (fun l => l.opcode == 0x0401) = some l → s.halts = false →
     let k : Pkt := { port := port, ring := ring, b := l.pkt }
     let r := s.loadRun k (k.n 26 27) 0
     let v := r.1.setProgress l.part (port, ring, l.tag) r.2.1
     exec (.loadStreamsComplete port ring) s = .next (match r.2.2 with
     | some none => s.mapCore (k.n 24 25 + r.2.1) fun x => x.arriveAll (k.n 28 31) (k.n 16 19)
     | some (some st) => v.finishLong port ring l.tag st 0 r.2.1
     | none => v.finishLong port ring l.tag stOk 0 r.2.1)) ∧
  (∀ (s u : State) (port ring : Nat) (k : Pkt) (v : State) (rs : List (List Byte)), takes s u 0x0402 port ring k → u.launchOk k = true →
     u.allIn k.part (coreRun k.launch.first k.launch.count) = true →
     u.launchRecs port ring k.launch.recAddr k.launch.recStride k.launch.count = .ok rs →
     v = u.recsTake port ring k.launch.recAddr k.launch.recStride k.launch.count →
     (((coreRun k.launch.first k.launch.count).zip rs).all fun x => v.recOk k.part x.1 k.launch.v2 x.2) = true →
     ((coreRun k.launch.first k.launch.count).any fun c => ((v.core c).ctx? k.launch.lctx).isSome) = false →
     exec (.launch port ring) s = .next (v.begin k ((coreRun k.launch.first k.launch.count).zip rs))) ∧
  (∀ (s u : State) (port ring : Nat) (k : Pkt), takes s u 0x0403 port ring k → (u.part k.part).nctx ≠ 7 →
     u.allIn k.part (coreRun (k.n 8 9) (k.n 10 11)) = true →
     let cs := coreRun (k.n 8 9) (k.n 10 11)
     let v := cs.foldl (fun s c => s.mapCore c fun x => x.preempt k.named) u
     let me := (port * 256 + ring, k.tag)
     exec (.preempt port ring) s = .next (if (cs.any fun c => (v.core c).preempting k.named) = true then
     ((v.mapRing port ring fun r => { r with taken := ⟨k.b, k.seq, k.mute⟩ :: r.taken }).mapPart k.part fun pt =>
     { pt with preempting := if pt.preempting.contains me then pt.preempting else pt.preempting ++ [me] }).partEvent k.part none 0
     else ((v.mapPart k.part fun pt => { pt with preempting := pt.preempting.filter fun x => x != me }).partEvent k.part none 0).fin k
       stOk 0 (cs.map fun c => ((v.core c).images.filter fun x => k.named x.1).length).sum)) ∧
  (∀ (s u : State) (port ring : Nat) (k : Pkt), takes s u 0x0404 port ring k → u.allIn k.part (coreRun (k.n 8 9) (k.n 10 11)) = true →
     let cs := coreRun (k.n 8 9) (k.n 10 11)
     let n := (cs.map fun c => ((u.core c).heldL.filter fun l => k.named l && (Tab.find (u.core c).images l).isSome).length).sum
     exec (.resume port ring) s = .next ((cs.foldl (fun s c => s.mapCore c fun x => (x.resume k.named).refresh) u).fin k stOk 0 n)) ∧
  (∀ (s u : State) (port ring : Nat) (k : Pkt), takes s u 0x0501 port ring k → (u.coll k.part).en = true →
     u.allIn k.part (coreRun (k.n 16 17) (k.n 18 19)) = true → k.n 8 15 % 2 ^ 24 = (u.coll k.part).step →
     (u.coll k.part).stepBegin.isSome = false →
     let x := ((u.accept k).startProgress k.part (port, ring, k.tag)).mapColl k.part
       fun c => { c with stepBegin := some (port, ring, k.tag, 0) }
     let v := (coreRun (k.n 16 17) (k.n 18 19)).foldl (fun s n => s.mapCore n
       fun x => (x.signal (bits (k.n 20 20) 3 0) (2 ^ bits (k.n 20 20) 7 4)).refresh) x
     exec (.stepBegin port ring) s = .next ((if (u.coll k.part).dec = 3 then v.endStepBegin k.part stStepRepeat
       else v).partEvent k.part none 0)) ∧
  (∀ (s u : State) (port ring : Nat) (k : Pkt), takes s u 0x0502 port ring k →
     exec (.stepStatus port ring) s = .next (u.fin k stOk (match (u.part k.part).ledgerNew with | some i => i | none => 2 ^ 31) (u.coll
       k.part).word)) ∧
  (∀ (s u : State) (port ring : Nat) (k : Pkt) (v : State) (l : List Byte), takes s u 0x0503 port ring k →
     (if k.n 16 17 = 0 then (u, .ok []) else u.read k (k.n 8 15) (64 + 64 * k.n 16 17)) = (v, .ok l) →
     k.n 16 17 = 0 ∨ (zeroAt l 16 63 = true ∧ (((List.range (k.n 16 17)).map
       fun i => slice l (64 + 64 * i) (127 + 64 * i)).all peerEntryOk) = true
       ∧ peerTwice v.fab.cfg ((List.range (k.n 16 17)).map fun i => slice l (64 + 64 * i) (127 + 64 * i)) = false
       ∧ (v.fab.addrs.any fun x => x.1 != k.part && x.2 == slice l 0 15) = false) →
     (v.fab.peers.filter fun x => x.2.part != k.part).length + k.n 16 17 ≤ 4096 →
     let n := k.n 16 17
     let w := v.loadPeers k.part ((List.range n).map fun i => slice l (64 + 64 * i) (127 + 64 * i))
     exec (.peerTableSet port ring) s = .next ((w.mapFab
       fun f => { f with addrs := if n = 0 then Tab.del f.addrs k.part else Tab.put f.addrs k.part (slice l 0 15) }).fin k stOk 0 n)) ∧
  (∀ (s u : State) (port ring : Nat) (k : Pkt), takes s u 0x0601 port ring k → bit (k.n 59 59) 0 = false →
     (u.serve k.part).seqs.isEmpty = true → (u.serve k.part).queue.isEmpty = true → u.serveOk k.part k.serveCfg = true →
     u.vok k.part k.serveCfg.donew 8 true = true →
     exec (.serveConfig port ring) s = .next (((u.vwrite k.part k.serveCfg.donew (List.replicate 8 0xFF)).setServe k.part
       { ({} : Serve) with cfg := some k.serveCfg }).fin k stOk 0 0)) ∧
  (∀ (s u : State) (port ring : Nat) (k : Pkt), takes s u 0x0601 port ring k → bit (k.n 59 59) 0 = true → zeroAt k.b 8 58 = true →
     (u.serve k.part).seqs.isEmpty = true → (u.serve k.part).queue.isEmpty = true →
     exec (.serveConfig port ring) s = .next (({ u with serves := Tab.del u.serves k.part } : State).fin k stOk 0 0)) ∧
  (∀ (s u : State) (port ring : Nat) (k : Pkt) (w : State) (l : List Byte), takes s u 0x0602 port ring k → k.n 16 17 ≠ 0 →
     k.n 16 17 ≤ 4096 → u.read k (k.n 8 15) (16 * k.n 16 17) = (w, .ok l) →
     let r := Serve.records l (k.n 16 17) 0 (w.serve k.part)
     let v := if r.2.1 = 0 then w else w.setServe k.part r.1
     exec (.serveBatch port ring) s = .next (match r.2.2 with | some st => v.fin k st r.2.1 r.2.1 | none => v.fin k stOk 0 (k.n 16 17))) ∧
  (∀ (s u : State) (port ring : Nat) (k : Pkt) (w : State) (l : List Byte), takes s u 0x0701 port ring k →
     u.read k (k.n 8 15) (k.n 16 19) = (w, .ok l) →
     let x : Bundle := ⟨num l 8 11, num l 16 16, bit (num l 17 17) 0, l⟩
     let others := w.flt.bundles.filter fun y => y.id != x.id
     exec (.testBundleLoad port ring) s = .next (if !w.bundleOk l then w.failPkt k stSignatureBad
     else if 8 ≤ others.length ∨ 2 ^ 20 < (others.map fun y => y.bytes.length).sum + l.length then w.failPkt k stNoResource
     else (w.mapFlt fun f => { f with bundles := others ++ [x] }).fin k stOk 0 x.id)) ∧
  (∀ (s u : State) (port ring : Nat) (k : Pkt), takes s u 0x0702 port ring k → (u.flt.bundles.all fun b => b.id != k.n 8 11) = false →
     let cs := (List.range 128).filter fun c => (k.n 16 31).testBit c
     let free := cs.filter u.clusterFree
     let t : TestRun := if bit (k.n 12 12) 0 then ⟨port, ring, k.tag, k.n 8 11, [], free, cs.length - free.length, 0⟩
       else ⟨port, ring, k.tag, k.n 8 11, cs, [], 0, 0⟩
     exec (.testRun port ring) s = .next (((u.accept k).mapFlt
       fun f => { f with tests := f.tests ++ [t] }).testStarts (k.n 8 11) t.running)) ∧
  (∀ (s : State) (c : Nat), c < 128 → s.clusterFree c = true →
     let ts := s.flt.tests.map fun t => if t.waiting.contains c then
       { t with waiting := t.waiting.filter fun x => x != c, running := t.running ++ [c] } else t
     exec (.testRunIdleStart c) s = .next ((s.flt.tests.filter
       fun t => t.waiting.contains c).foldl (fun u t => u.testStarts t.bundle [c]) (s.mapFlt fun f => { f with tests := ts }))) ∧
  (∀ (s u : State) (port ring : Nat) (k : Pkt), takes s u 0x0703 port ring k → k.n 20 23 ≠ 0 → k.n 20 23 ≤ 32768 →
     let rs := u.flt.log.filter fun r => (r.seq + 2 ^ 32 - k.n 16 19) % 2 ^ 32 < k.n 20 23
     exec (.faultLogRead port ring) s = .next (u.writeFin k (k.n 8 15) (rs.flatMap FaultRec.bytes) 0 rs.length))

/-- Standby power starts the standby phase and its loss leaves OFF; the power-up phase begins when the supply has stood and runs a stage
  at a time (IdleStepTicks), and one that times out drops the trial, falls back or ends in recovery. A device reset and a loss of the
  reference clock are taken. Staging keeps the bytes of an object and begins its verification with the last packet; an activation starts
  the staged objects on trial, or the previous image. A quote is written. The debug port answers its instructions, and an unlock with a
  token that holds opens it while a failed one counts. -/
def Obligations.StartUpEventsComplete : Prop :=
  (∀ (s : State), s.pwr.devState = 0 →
     exec .vsbRise s = .next (State.startUp
       { s with sup := { s.sup with vinOn := (Config.fresh s.free).toNat.testBit 0, vinHeld := false }, free := s.free + 1 } false)) ∧
  (∀ (s : State),
     let u := s.wiped false
     exec .vsbLoss s = .next ({ u with
     flt := { u.flt with pend := [], unitsPend := [] }
     boot := { u.boot with jtag := 0xFF, tdo := [], act := none }
     sup := { ({} : Sup) with refclk := s.sup.refclk, vinOn := false, vinHeld := false }
     pwr := { u.pwr with devState := 0 } } : State)) ∧
  (∀ (s : State), s.canPowerUp = true →
     exec .powerUpStart s = .next ((s.mapSup fun x => { x with warn := false, vinOn := true, vinHeld := true }).mapBoot
       fun b => { b with stage := 2 })) ∧
  (∀ (s : State),
     exec .refclkSysReturn s = .next ((s.mapSup fun x => { x with refclk := true }).mapBoot fun b => { b with waitRef := false })) ∧
  (∀ (s : State), s.rising = true →
     let keep := s.boot.act.isSome
     exec .startUpTimeout s = .next (match s.mram.trial with
     | some _ => (((s.bootRecord stTimeout).dropTrial stTimeout).standbyBegin keep).runActive none
     | none => if s.boot.fallback then (s.standbyBegin keep).recovery 5 stTimeout else (s.standbyBegin keep).runActive (some 5))) ∧
  (∀ (s : State), s.sup.reset.active = false → s.pwr.devState ≠ 0 →
     exec .devResetN s = .next (s.mapSup fun x => { x with reset := { x.reset with active := true } }).takeReset) ∧
  (∀ (s : State), 2 ≤ s.pwr.devState ∨ s.rising = true →
     let u := s.mapSup fun x => { x with refclk := false }
     exec .refclkSysLoss s = .next ((u.mapSup fun x => { x with refFault := true }).bootRecord stInternal).takeReset) ∧
  (∀ (s : State), s.pwr.devState < 2 → s.rising = false → exec .refclkSysLoss s = .next (s.mapSup fun x => { x with refclk := false })) ∧
  (∀ (s u : State) (port ring : Nat) (k : Pkt) (w : State) (l : List Byte) (v : State) (kd : Nat), takes s u 0x0802 port ring k →
     u.read k (k.n 8 15) (k.n 16 19) = (w, .ok l) → w.stageStart l (k.n 20 23) = some (v, kd) →
     k.n 20 23 + k.n 16 19 ≤ (v.staged kd).len →
     let y := (v.staged kd).add (k.n 20 23) l
     let t := v.setStaged kd y
     exec (.fwUpdateStage port ring) s = .next (if bit (k.n 24 24) 0 = false then t.fin k stOk 0 0
       else if !y.full || (kd == 0 && imgVersion y.object < imgSetFloor y.object) then t.failPkt k stBadParam
     else (t.accept k).mapBoot fun b => { b with stageKind := none, verifying := Tab.put b.verifying (verKey k) kd })) ∧
  (∀ (s : State) (port ring : Nat) (l : LongOp), port < 2 → ring < 256 →
     (s.ring port ring).longs.find? (fun l => l.opcode == 0x0802) = some l →
     let key := l.tag + fld ring 16 + fld port 24
     let kd := Tab.get 0 s.boot.verifying key
     let x := s.staged kd
     let st := if s.boot.act.isSome then stDenied else if !x.active then stSignatureBad else s.stageStatus kd x.object
     let u := s.mapBoot fun b => { b with verifying := Tab.del b.verifying key }
     exec (.stageVerificationComplete port ring) s =
       .next ((if st = stOk then (u.setStaged kd { x with verified := true }).mapMram fun m => m.store kd x.object
     else u.mapBoot fun b => { b with staging := Tab.del b.staging kd }).finishLong port ring l.tag st 0 0)) ∧
  (∀ (s u : State) (port ring : Nat) (k : Pkt), takes s u 0x0803 port ring k → u.partList.isEmpty = true → bit (k.n 8 8) 0 = false →
     ((List.range 3).any fun i => (u.staged i).verified) = true →
     exec (.fwActivate port ring) s = .next (u.activate k (if (u.staged 0).verified then u.mram.staging else u.mram.actSlot))) ∧
  (∀ (s u : State) (port ring : Nat) (k : Pkt), takes s u 0x0803 port ring k → u.partList.isEmpty = true → bit (k.n 8 8) 0 = true →
     u.mram.prevSlot < 3 → u.mram.image u.mram.prevSlot ≠ [] →
     exec (.fwActivate port ring) s = .next (if ((u.withRevoked (u.stagedMask.getD 0)).imageFail (u.mram.image u.mram.prevSlot)).isSome
       then u.failPkt k stDenied else u.activate k u.mram.prevSlot)) ∧
  (∀ (s u : State) (port ring : Nat) (k : Pkt), takes s u 0x0801 port ring k → 17943 ≤ k.n 48 51 → u.boot.idok = true →
     exec (.attestQuote port ring) s = .next (u.writeFin k (k.n 40 47) (u.quote (slice k.b 8 39)) 0 (u.quote (slice k.b 8 39)).length)) ∧
  (∀ (s : State),
     ∃ v : Nat, v < 16 ∧ (Config.stepLetter = 1 ∧ Config.stepDigit = 1 → v = 1) ∧ exec .idcode s =
       .next (s.jtag 0x01 (leBytes 4 (0x04A0456F + fld v 28)))) ∧
  (∀ (s : State), exec .samplePreload s = .next (s.jtag 0x02 [])) ∧
  (∀ (s : State), exec .extest s = .next (s.jtag (if s.sup.reset.active then 0x00 else 0xFF) [])) ∧
  (∀ (s : State), exec .clamp s = .next (s.jtag (if s.sup.reset.active then 0x03 else 0xFF) [])) ∧
  (∀ (s : State), exec .highz s = .next (s.jtag (if s.sup.reset.active then 0x04 else 0xFF) [])) ∧
  (∀ (s : State), exec .dbgAccess s = .next (s.jtag (if s.boot.unlocked ∧ s.boot.scope ≠ 0 then 0x30 else 0xFF) [])) ∧
  (∀ (s : State), exec .bypass s = .next (s.jtag 0xFF [])) ∧
  (∀ (s : State),
     exec .challenge s = .next ((s.random.2.jtag 0x20 (s.random.2.iddig ++ s.random.1)).mapBoot
       fun b => { b with challenge := some s.random.1 })) ∧
  (∀ (s : State) (t : List Byte), t.length = 5341 → s.boot.act.isSome = false → s.startingUp = false →
     let u := if (s.powered || s.boot.recovery) && s.boot.allow && !s.boot.lockout && s.tokenOk t then s.unlock t else
     s.mapBoot fun b => { b with challenge := none, fails := min 3 (b.fails + 1), lockout := b.lockout || 2 ≤ b.fails }
     exec (.unlock t) s = .next (u.jtag 0x21 (leBytes 2 (u.boot.dbgCtrl % 2 ^ 16))))

/-- A sag warning and SAG_IN_N shed load, and the shed ends when the sag has; a deeper sag, a held SAG_IN_N and a thermal shutdown begin
  a save, with reasons 0, 1 and 2; the end of a save seals the record and leaves SAFE_HOLD, or takes a waiting reset; SAFE_HOLD is left
  at recovery and collapse. Board inputs activate, re-arm and count their glitches, and nothing does in OFF. The SMBus reads leave their
  words on the bus, and the alert response gives the address of the device and releases the alert. -/
def Obligations.SupplyEventsComplete : Prop :=
  (∀ (s : State), s.pwr.devState ≠ 0 →
     let u := s.mapSup fun x => { x with warn := true, vinOn := true, vinHeld := false }
     exec .sagWarning s = .next (if s.rising then u.mapBoot fun b => { b with waitRef := false, stage := 1 } else u.shedLoad)) ∧
  (∀ (s : State), s.sup.sagIn.active = false → s.pwr.devState ≠ 0 →
     exec .sagInN s = .next (s.mapSup fun x => { x with sagIn := { x.sagIn with active := true } }).shedLoad) ∧
  (∀ (s : State), s.sup.shed = true → s.powered = true → s.sup.sagIn.active = false →
     exec .shedEnd s = .next ((s.sup.perstPend.foldl State.perst s).mapSup
       fun x => { x with shed := false, warn := false, vinHeld := true, perstPend := [] })) ∧
  (∀ (s : State), s.powered = true →
     exec .saveStart s = .next ((s.mapSup fun x => { x with warn := true, vinHeld := false }).beginSave 0)) ∧
  (∀ (s : State), s.powered = true → s.sup.sagIn.active = true → exec .sagInNHeld s = .next (s.beginSave 1)) ∧
  (∀ (s : State), s.pwr.devState ≠ 0 →
     let u := s.mapSup fun x => { x with tlatch := true, alert := true }
     exec .thermalShutdown s = .next (if u.powered then u.beginSave 2 else u)) ∧
  (∀ (s : State), s.pwr.devState = 4 → s.sup.resetPend = true → exec .saveComplete s = .next s.sealSave.devReset) ∧
  (∀ (s : State), s.pwr.devState = 4 → s.sup.resetPend = false →
     exec .saveComplete s = .next { s.sealSave with
     pwr := { s.pwr with devState := 5 }
     sup := { s.sup with alert := true }
     hports := s.hports.map fun x => (x.1, { x.2 with up := false, speed := 0, width := 0 }) }) ∧
  (∀ (s : State), s.pwr.devState = 5 → s.sup.sagIn.active = false →
     exec .safeHoldRecovery s = .next (s.mapSup fun x => { x with warn := false, vinOn := true, vinHeld := false }).leaveHold) ∧
  (∀ (s : State), s.pwr.devState = 5 → s.sup.sagIn.active = false →
     exec .safeHoldCollapse s = .next (s.mapSup fun x => { x with vinOn := false, vinHeld := false }).leaveHold) ∧
  (∀ (s : State), s.pwr.devState ≠ 0 → exec .thermInN s = .next (s.mapSup fun x => { x with therm := { x.therm with active := true } })) ∧
  (∀ (s : State), s.pwr.devState ≠ 0 →
     exec (.inputRearm .sagInN) s = .next (s.mapSup fun x => { x with sagIn := { x.sagIn with active := false } })) ∧
  (∀ (s : State), s.pwr.devState ≠ 0 →
     exec (.inputRearm .thermInN) s = .next (s.mapSup fun x => { x with therm := { x.therm with active := false } })) ∧
  (∀ (s : State), s.pwr.devState ≠ 0 →
     let u := s.mapSup fun x => { x with reset := { x.reset with active := false } }
     exec (.inputRearm .devResetN) s = .next (if u.boot.standby then u.standbyPhase false else u)) ∧
  (∀ (s : State), s.pwr.devState ≠ 0 → exec (.inputRearm .perstA) s = .next (s.perstFree 0)) ∧
  (∀ (s : State), s.pwr.devState ≠ 0 → exec (.inputRearm .perstB) s = .next (s.perstFree 1)) ∧
  (∀ (s : State) (i : BoardInput), s.pwr.devState ≠ 0 →
     let bump (x : InputSt) : InputSt := { x with glitches := min 255 (x.glitches + 1) }
     exec (.boardInputGlitch i) s = .next (s.mapSup fun x => match i with
     | .sagInN => { x with sagIn := bump x.sagIn }
     | .thermInN => { x with therm := bump x.therm }
     | .devResetN => { x with reset := bump x.reset }
     | .perstA => { x with perstA := bump x.perstA }
     | .perstB => { x with perstB := bump x.perstB })) ∧
  (∀ (s : State) (i : BoardInput), s.pwr.devState = 0 → exec (.boardInputGlitch i) s = .next s) ∧
  (∀ (s : State), exec .faultNHoldExpiry s = .next (s.mapSup fun x => { x with refFault := false })) ∧
  (∀ (s : State), s.smbus = true →
     exec .smbDevstate s = .next { s with busData := BitVec.ofNat 64 (s.pwr.devState + fld (b01 s.sup.tlatch) 7) }) ∧
  (∀ (s : State), s.smbus = true → exec .smbHottestReading s = .next { s with busData := BitVec.ofNat 64 (s.sup.tjmax % 256) }) ∧
  (∀ (s : State), s.smbus = true → exec .smbInputPower s = .next { s with busData := BitVec.ofNat 64 (s.pwr.pin % 2 ^ 16) }) ∧
  (∀ (s : State), s.smbus = true → exec .smbSaveStatus s = .next { s with busData := BitVec.ofNat 64 (s.saveStatus) }) ∧
  (∀ (s : State), s.smbus = true → exec .smbBootStatus s = .next { s with busData := BitVec.ofNat 64 (s.bootStatus) }) ∧
  (∀ (s : State), s.smbus = true → exec .smbVin s = .next { s.sampleSupply with busData := BitVec.ofNat 64 s.sampleSupply.sup.vin }) ∧
  (∀ (s : State), s.smbus = true → s.sup.alert = true →
     exec .alertResponseAddress s = .next { s.mapSup fun x => { x with alert := false } with busData := BitVec.ofNat 64 (2 * s.smbAddr) }) ∧
  (∀ (s : State), s.sup.alert = false → exec .alertResponseAddress s = .next s) ∧
  (∀ (s : State) (c : Nat), c = 0 ∨ 6 < c → c < 256 → exec (.smbusUnlistedCommand c) s = .next s)

/-- A doorbell keeps its tail, or sets BADDB when it is out of range; a completion head moves within the entries posted; serving a
  doorbell takes packets in. Rings are enabled and disabled, a paced vector sends its message, a mask ends and reports are copied. Port
  and function resets, link events and power states change the port, and a failed completion is logged and marks its lines; an
  invalidation drops the translations that it names, and counts. -/
def Obligations.HostPortCommandsComplete : Prop :=
  (∀ (s : State) (port func ring : Nat) (v : BitVec 32), port < 2 → func < 16 → ring < 256 → s.answers port func = true →
     s.reachesRing port func ring = true → (s.ring port ring).en = true → v.toNat % 2 ^ 16 < 2 ^ (s.ring port ring).sqsz →
     exec (.sqTail port func ring v) s = .next (s.mapRing port ring fun r => { r with tailNew := some (v.toNat % 2 ^ 16) })) ∧
  (∀ (s : State) (port func ring : Nat) (v : BitVec 32), port < 2 → func < 16 → ring < 256 → s.answers port func = true →
     s.reachesRing port func ring = true → (s.ring port ring).en = true → 2 ^ (s.ring port ring).sqsz ≤ v.toNat % 2 ^ 16 →
     exec (.sqTail port func ring v) s = .next (s.mapRing port ring fun r => { r with baddb := true })) ∧
  (∀ (s : State) (port func ring d : Nat) (v : BitVec 32), port < 2 → func < 16 → ring < 256 → s.answers port func = true →
     s.reachesRing port func ring = true → (s.ring port ring).en = true → v.toNat % 2 ^ 16 < 2 ^ (s.ring port ring).cqsz →
     d = (v.toNat % 2 ^ 16 + 2 ^ (s.ring port ring).cqsz - (s.ring port ring).cqhead % 2 ^ (s.ring port ring).cqsz) % 2 ^ (s.ring port
       ring).cqsz →
     d ≤ (s.ring port ring).cqtail - (s.ring port ring).cqhead →
     let u := s.mapRing port ring fun r => { r with cqhead := r.cqhead + d }
     exec (.cqHead port func ring v) s = .next (if (s.ring port ring).note
       ∧ (s.ring port ring).part ≠ 0xFF then (State.flushNotices 4096 (s.ring port ring).part u).admitFaults (s.ring port ring).part
       else u)) ∧
  (∀ (s : State) (port func ring : Nat) (v : BitVec 32), port < 2 → func < 16 → ring < 256 → s.answers port func = true →
     s.reachesRing port func ring = true → (s.ring port ring).en = true → 2 ^ (s.ring port ring).cqsz ≤ v.toNat % 2 ^ 16 →
     exec (.cqHead port func ring v) s = .next (s.mapRing port ring fun r => { r with baddb := true })) ∧
  (∀ (s : State) (port ring : Nat), port < 2 → ring < 256 → (s.ring port ring).en = true → (s.ring port ring).err = false →
     (s.hport port).d3 = false → (s.hport port).inReset = false → s.served = true → s.boot.act.isSome = false →
     exec (.doorbellService port ring) s = .next (State.takeAll (2 ^ (s.ring port ring).sqsz) port ring (s.setRing port ring
     { s.ring port ring with sqtail := (s.ring port ring).tailNew.getD (s.ring port ring).sqtail, tailNew := none }))) ∧
  (∀ (s : State) (port func vec : Nat), port < 2 → func < 16 → vec < 64 →
     (Tab.get ({} : Msix) (s.func port func).vecs vec).pacing = true →
     let f := s.func port func
     let v := Tab.get ({} : Msix) f.vecs vec
     let u := s.setFunc port func { f with vecs := Tab.put f.vecs vec { v with pacing := false } }
     exec (.msixMessage port func vec) s = .next (if v.due then u.msixSend port func vec else u)) ∧
  (∀ (s : State) (port func vec : Nat), port < 2 → func < 16 → vec < 64 → s.answers port func = true →
     exec (.vectorUnmask port func vec) s = .next (s.setMask port func vec false)) ∧
  (∀ (s : State) (p : Nat), p < 64 → s.halts = false →
     exec (.reportCopy p) s = .next (((s.part p).launches.filter fun l => l.rpt != 0).foldl (fun s l => s.copyReport p l) s)) ∧
  (∀ (s : State) (port func ring : Nat) (v : W64), ring < 256 → v.toNat.testBit 63 = true → s.reachesRing port func ring = true →
     (s.ring port ring).en = false → (s.ring port ring).outst = 0 → func = 0 →
     s.ringFieldsOk port ring (ringFields (s.ring port ring) v.toNat) = true → s.answers port func = true →
     let r := ringFields (s.ring port ring) v.toNat
     let u := s.setRing port ring
       { r with en := true, sqhead := 0, sqtail := 0, cqhead := 0, cqtail := 0, tailNew := none, err := false, stall := false }
     exec (.ringEnable (.host port func) ring v) s =
       .next (if r.note ∧ r.part ≠ 0xFF then (State.flushNotices 4096 r.part u).admitFaults r.part else u)) ∧
  (∀ (s : State) (port func ring : Nat) (v : W64), ring < 256 → v.toNat.testBit 63 = false → s.reachesRing port func ring = true →
     (s.ring port ring).en = true → s.answers port func = true →
     exec (.ringDisable (.host port func) ring v) s = .next (s.setRing port ring { s.ring port ring with en := false })) ∧
  (∀ (s : State), s.mgmtPend = true → s.autofail = true → s.qualifies (1 - s.mgmt) = true →
     exec .mgmtRoleQualify s = .next (s.moveRole (1 - s.mgmt))) ∧
  (∀ (s : State) (port : Nat), port < 2 → s.perstActive port = false → s.pwr.devState ≠ 0 →
     let u := s.perstIn port true
     exec (.perstAssert port) s = .next (if s.sup.shed then { u with sup := { u.sup with perstPend := u.sup.perstPend ++ [port] } }
       else u.perst port)) ∧
  (∀ (s : State) (port : Nat), port < 2 → exec (.perstRelease port) s = .next (s.perstFree port)) ∧
  (∀ (s : State) (port : Nat), port < 2 → exec (.hotReset port) s = .next (s.portReset port true)) ∧
  (∀ (s : State) (port : Nat), port < 2 → (s.hport port).up = true → exec (.pcieLinkDown port) s = .next (s.portReset port true)) ∧
  (∀ (s : State) (port speed width : Nat), port < 2 → 1 ≤ speed → speed ≤ 5 → (([1, 2, 4, 8, 16] : List Nat).contains width) = true →
     (s.hport port).inReset = false → s.perstActive port = false → port = 0 ∨ (num s.boot.recNow 2056 2056).testBit 2 = false →
     s.powered = true →
     exec (.pcieLinkUp port speed width) s = .next (s.setHport port
       { s.hport port with up := true, speed := speed, width := width, retry := s.rising })) ∧
  (∀ (s : State) (port : Nat), port < 2 → exec (.pfFlr port) s = .next (s.portReset port false)) ∧
  (∀ (s : State) (port func : Nat), port < 2 → 1 ≤ func → func < 16 →
     let u := s.countReset port
     let v := match u.boundPart port func with
     | none => u
     | some p => (u.stopRings port fun r => r.part == p).killPart p stKilled false
     exec (.vfFlr port func) s = .next (v.setHport port { v.hport port with funcs := Tab.del (v.hport port).funcs func })) ∧
  (∀ (s : State) (port : Nat) (en : Bool) (n : Nat), port < 2 → n ≤ 15 → s.boot.recovery = false →
     let h := s.hport port
     let ps := s.partList.filter fun p => (s.part p).port == port && (s.part p).func != 0
     let u := ps.foldl (fun s p => s.killPart p stKilled true) ((s.countReset port).stopRings port fun r => ps.contains r.part)
     exec (.vfEnableChange port en n) s = .next (if (h.vfEn && !en) || n != h.numVfs then
     u.setHport port { u.hport port with vfEn := en, numVfs := n, funcs := (u.hport port).funcs.filter fun x => x.1 == 0 }
     else s.setHport port { h with vfEn := en })) ∧
  (∀ (s : State) (port : Nat), port < 2 → exec (.d3hotEntry port) s = .next (s.setHport port { s.hport port with d3 := true })) ∧
  (∀ (s : State) (port : Nat), port < 2 → exec (.d0Return port) s = .next (s.setHport port { s.hport port with d3 := false })) ∧
  (∀ (s : State) (port func part va len : Nat), port < 2 → func < 16 → s.answers port func = true → (s.func port func).atsEn = true →
     let named (e : AtsEnt) : Bool :=
     e.func == func && e.pasid == (if part < 64 then s.pasidOf part else none) && va < 4096 * e.page + 4096 && 4096 * e.page < va + len
     let u := s.setHport port { s.hport port with ats := (s.hport port).ats.filter fun e => !named e }
     exec (.atsInvalidate port func part va len) s = .next (u.mapFunc port func fun f => { f with atsinv := sat16 f.atsinv 1 })) ∧
  (∀ (s : State) (port pa len : Nat) (kind : CplKind), port < 2 → hostBase port ≤ pa → pa + len ≤ hostBase (port + 1) → 1 ≤ len →
     len ≤ 4096 →
     let v := s.setFunc port 0 ((s.func port 0).logAer (if kind = .ur then .unsupportedRequest else if kind = .ca then .completerAbort
       else .poisonedTlp))
     let u := v.setHport port { v.hport port with cplerr := min 255 ((v.hport port).cplerr + 1) }
     exec (.completionError port pa len kind) s = .next { u with cplBad := (linesOf pa len).foldl Keys.add u.cplBad }) ∧
  (∀ (s : State) (port pa len : Nat), port < 2 → hostBase port ≤ pa → pa + len ≤ hostBase (port + 1) → 1 ≤ len → len ≤ 4096 →
     let v := s.setFunc port 0 ((s.func port 0).logAer .completionTimeout)
     let u := v.setHport port { v.hport port with cplerr := min 255 ((v.hport port).cplerr + 1) }
     exec (.completionTimeout port pa len) s = .next { u with cplBad := (linesOf pa len).foldl Keys.add u.cplBad })

/-- A lost core, a missed heartbeat and a stalled router lose their core; the end of a route update puts lost cores on their spares,
  hands over what waited and ends losses without a relaunch; a relaunch starts the waiting launches again, or ends them after a round
  that stopped. A lost dispatch core leaves the record of its loss. A late write of a revoked pass lands whole lines or poisons. A retest
  of a unit that is out of service or idle records its three runs and retires the unit or takes it back, a test run reports, records
  commit, a scrub ends the draining of a partition, and a zeroed frame reads as zeros. -/
def Obligations.FaultEventsComplete : Prop :=
  (∀ (s : State) (core : Nat), core < 2048 → exec (.coreLoss core) s = .next (s.loseCore core)) ∧
  (∀ (s : State) (core : Nat), core < 2048 → s.halts = false → exec (.heartbeatMiss core) s = .next (s.loseCore core)) ∧
  (∀ (s : State) (core : Nat), core < 2048 → exec (.routerStall core) s = .next (s.loseCore core)) ∧
  (∀ (s : State), s.flt.route.isEmpty = false → s.powered = true →
     let x := s.flt.route.foldl (fun s x => s.mapCore x.1
       fun k => { k.onSpare x.2 (s.unitArrays (spareUnit (x.1 / 512) x.2)) with fenced := Keys.has s.flt.scrub (clusterOf x.1) }) s
     let y := x.flt.held.foldl (fun s x => s.mapCore x.1 fun k => { k with arriving := k.arriving ++ [x.2] }) x
     let z := y.mapFlt fun f => { f with route := [], held := [], recoveries := sat16 f.recoveries s.flt.route.length }
     let waits (p : Nat) : Bool := (z.part p).launches.any fun l => !l.again.isEmpty
     exec .routeUpdateEnd s = .next (((z.flt.losses.filter
       fun x => !waits x.1).foldl (fun s x => s.recovered x.2.1 (if x.1 = 64 then 0xFF else x.1) x.2.2) z).mapFlt fun f =>
     { f with losses := f.losses.filter fun x => waits x.1 })) ∧
  (∀ (s : State) (p : Nat), p < 64 → s.mayRelaunch p = true → (s.coll p).en = false ∨ (s.coll p).dec ≠ 3 → s.powered = true →
     exec (.relaunch p) s = .next (s.startAgain p)) ∧
  (∀ (s : State) (p : Nat), p < 64 → s.mayRelaunch p = true → (s.coll p).en = true → (s.coll p).dec = 3 → s.powered = true →
     exec (.relaunch p) s = .next (((s.waiting p).foldl (fun s l => s.finishLaunch p { l with code := stInternal }) s).lossesEnd p)) ∧
  (∀ (s : State) (k : Nat), k < 8 → s.flt.dispok.testBit k = true →
     let u := (s.inField 5 k stInternal 0xFF 0).mapFlt
       fun f => { f with dispok := f.dispok - 2 ^ k, revokes := sat16 f.revokes 1, recoveries := sat16 f.recoveries 1 }
     exec (.dispatchCoreLoss k) s = .next ((u.faultRecord 5 5 k stInternal 0 0xFF 0 0).faultRecord 6 5 k stOk 0 0xFF 0 0)) ∧
  (∀ (s : State) (pa : Nat) (data : List Byte), s.region pa = .hbm ∨ s.region pa = .attic →
     exec (.lateRevokedWrite pa data) s = .next (if 64 ≤ data.length then s.wr pa data true
       else { s with poison := (linesOf pa data.length).foldl Keys.add s.poison })) ∧
  (∀ (s : State) (pa c t o : Nat) (data : List Byte), s.region pa = .scratch c t o →
     exec (.lateRevokedWrite pa data) s = .next (if 64 ≤ data.length then s.wr (scrPa t o) data true
       else { s with poison := Keys.add s.poison (scrPa t o / 64) })) ∧
  (∀ (s : State) (unit fails : Nat), unit / 2 ^ 24 < 6 → fails < 4 → (Tab.get ({} : UnitEnt) s.flt.units unit).times.isEmpty = false →
     s.testable (unit / 2 ^ 24) (unit % 2 ^ 24) = true →
     let ut := unit / 2 ^ 24
     let n := unit % 2 ^ 24
     let u := s.retestRecords ut n fails
     exec (.unitRetest unit fails) s = .next (if (Tab.get ({} : UnitEnt) s.flt.units unit).isPermanent fails then (u.faultRecord 3 ut n
       stOk 1 0xFF 0 0).retire ut n
     else ((u.faultRecord 3 ut n stOk 0 0xFF 0 0).mapUnit unit fun e => { e with permanent := false }).unretire ut n)) ∧
  (∀ (s : State), exec .faultRecordCommit s = .next (s.mapFlt Flt.commit)) ∧
  (∀ (s : State) (port ring : Nat) (t : TestRun) (b : Bundle), port < 2 → ring < 256 →
     s.flt.tests.find? (fun t => t.port == port && t.ring == ring && t.waiting.isEmpty) = some t →
     s.flt.bundles.find? (fun b => b.id == t.bundle) = some b → s.halts = false →
     let u := s.mapFlt fun f => { f with tests := f.tests.filter fun x => !(x.port == port && x.ring == ring && x.tag == t.tag) }
     let r := (s.testUnits b t.running).foldl (fun (a : State × Nat) n => ((a.1.testUnit b n).1, if (a.1.testUnit b n).2 then a.2 + 1
       else a.2)) (t.running.foldl State.testStop u, 0)
     exec (.testRunComplete port ring) s = .next (r.1.finishLong port ring t.tag stOk t.skipped r.2)) ∧
  (∀ (s : State), exec .hbmShareWindow s = .next s) ∧
  (∀ (s : State) (k : Nat), k < 128 → Keys.has s.flt.scrub k = true → (s.flt.route.any fun x => clusterOf x.1 == k) = false →
     s.halts = false →
     let x := (clusterCores k).foldl State.scrubCore s
     let u : State := { x with flt := { x.flt with scrub := Keys.del x.flt.scrub k } }
     exec (.scrubComplete k) s = .next (match (u.cluster k).owner with
     | none => u
     | some p => if (u.clustersOf p).any (Keys.has u.flt.scrub) then u else if (u.part p).destroying then u.endDestroy p
     else (u.mapPart p fun pt => { pt with draining := false }).partEvent p none 0)) ∧
  (∀ (s : State) (f : Nat), (s.zeroing.any fun x => x.1 == f) = true → s.halts = false →
     let lo := f * 2 ^ 21
     let hi := lo + 2 ^ 21
     let out (l : Nat) : Bool := l * 64 < lo || hi ≤ l * 64
     exec (.pendingFrameZeroed f) s = .next { s with
     zeroing := s.zeroing.filter fun x => x.1 != f
     mem := s.mem.filter fun c => c.1 < lo || hi ≤ c.1
     poison := s.poison.filter out
     cv := s.cv.filter out
     codeErr := s.codeErr.filter fun c => out c.1 })

/-- Conditions on the state and the operands alone in which these commands and events answer a next state, and that state. A BAR2 read of
  a bound function returns the bytes, counts a poisoned line, or counts an unsupported request where the translation fails; a BAR2 write
  stores, or is counted and dropped, and a poisoned one is logged. A frame of a port that is up and has room for it is counted by the
  stage of the ingress that drops it, or is taken. The oldest accepted DATA packet is placed in the window or counted outside it, after
  its CACK; the oldest ACK and CNP take effect. An owed acknowledgement is sent at the timer, the oldest unacknowledged packet again at
  the timeout, a retransmission before other data; every open peer ends its rate epoch; a peer with a packet unacknowledged for DEADT
  dies; FAILED and DOWN end as IDLE, every other peer unchanged. A served step that is due is built, and a stalled router loses its core.
  -/
def Obligations.WindowAndPeerEventsComplete : Prop :=
  (∀ (s : State) (port func off len p : Nat), port < 2 → func < 16 → s.answers port func = true → s.boundPart port func = some p →
     0 < len → len ≤ 4096 → off + len ≤ s.bar2Size port func →
     ∃ t, exec (.bar2Read port func off len) s = .next t ∧
     (∀ bs, s.vread p (s.bar2Va port func off) len = .ok (bs,
       false) → t = { s.vtake p (s.bar2Va port func off) len with busData := BitVec.ofNat 64 (leNat (bs.take 8)) }) ∧
     (∀ bs, s.vread p (s.bar2Va port func off) len = .ok (bs, true) → ∃ u : State, u.busData = BitVec.ofNat 64 (leNat (bs.take 8))
       ∧ u.memStat.hostEp = sat16 (s.vtake p (s.bar2Va port func off) len).memStat.hostEp 1
       ∧ u.mem = (s.vtake p (s.bar2Va port func off) len).mem ∧ t = u.hostPoison p) ∧
     (∀ x, s.vread p (s.bar2Va port func off) len = .error x → t = s.mapFunc port func fun f => { f with urreads := sat16 f.urreads 1 })) ∧
  (∀ (s : State) (port func off p : Nat) (data : List Byte) (bad : Bool), port < 2 → func < 16 → s.answers port func = true →
     s.boundPart port func = some p → data ≠ [] → data.length ≤ 4096 → off + data.length ≤ s.bar2Size port func →
     let v := if bad then s.mapFunc port func fun f => f.logAer .poisonedTlp else s
     exec (.bar2Write port func off data bad) s = .next (if s.vok p (s.bar2Va port func off) data.length true = true then v.vwrite p
       (s.bar2Va port func off) data bad else v.mapFunc port func fun f => { f with dropwr := sat16 f.dropwr 1 })) ∧
  (∀ (s : State) (f : Frame), f.port < 64 → (s.fport f.port).up = true → s.rxFill f.port + f.bytes.length ≤ 2 ^ 20 →
     ∃ t, exec (.frameReceive f) s = .next t ∧ (s.ingress f = .mac → t = s.mapPort f.port
       fun x => { x with macdrop := sat16 x.macdrop 1 })
       ∧ (s.ingress f = .noaddr → t = s.mapJcnt fun c => { c with noaddr := satW 12 c.noaddr 1 }) ∧ (s.ingress f = .other → t = s) ∧
     (∀ src dst sport dport ce data part n, s.ingress f = .udp src dst sport dport ce data → (s.fab.addrs.find?
       fun y => y.2 == dst) = some (part, dst) → dport = s.fab.cfg.udp → s.sourceOf part src sport (readPkt (data.take 32) []).session =
       some n → 32 ≤ data.length → num (data.take 32) 2 3 ≤ (data.drop 32).length → (readPkt (data.take 32) []).ver = (s.peer n).ver →
       (readPkt (data.take 32) []).typ < 3 → t = s.stage6 n f.port ce f.bytes.length (data.take 32) (data.drop 32) (readPkt (data.take
       32) []))) ∧
  (∀ (s : State) (n : Nat) (r : RxPkt) (q : List RxPkt), n < 4096 → (s.peer n).rx = r :: q → r.pkt.typ = 0 →
     let u := (s.mapPeer n fun x => { x with rx := q }).pfcOn r.port
     let v := u.takeAck n r.pkt.session r.pkt.cack []
     ∃ t, exec (.data n) s = .next t ∧ ((v.peer n).session r.pkt.session = none → t = v) ∧
     (∀ y, (v.peer n).session r.pkt.session = some y → t = if y.rxCack + (v.peer n).win ≤ r.pkt.psn then v.mapJcnt
       fun c => { c with window := satW 12 c.window 1 } else v.dataIn n r y)) ∧
  (∀ (s : State) (n : Nat) (r : RxPkt) (q : List RxPkt), n < 4096 → (s.peer n).rx = r :: q → r.pkt.typ = 1 → (s.peer n).hs = none →
     let u := (s.mapPeer n fun x => { x with rx := q }).pfcOn r.port
     exec (.ack n) s = .next (u.takeAck n r.pkt.session r.pkt.cack (((List.range (8 * r.pkt.payload.length)).filter
       fun i => (r.pkt.payload.getD (i / 8) 0).toNat.testBit (i % 8)).map fun i => r.pkt.cack + 1 + i))) ∧
  (∀ (s : State) (n : Nat) (r : RxPkt) (q : List RxPkt), n < 4096 → (s.peer n).rx = r :: q → r.pkt.typ = 2 →
     let u := (s.mapPeer n fun x => { x with rx := q }).pfcOn r.port
     exec (.cnp n) s = .next ((u.takeAck n r.pkt.session r.pkt.cack []).mapPeer n fun x => { x with cnpSeen := true })) ∧
  (∀ (s : State) (n : Nat) (k : Nat × NextPkt) (q : List (Nat × NextPkt)), n < 4096 → (s.peer n).paceAt ≤ s.ltime →
     s.sendable (s.peer n) = k :: q → ∃ t, exec (.dataTransmit n) s = .next t ∧ t = ((s.sendNext n).getD s)) ∧
  (∀ (s : State) (n : Nat) (y : Session), n < 4096 → (s.peer n).cur = some y → 0 < y.ackOwed →
     exec (.ackTimer n) s = .next (s.sendAck n y.sidMine)) ∧
  (∀ (s : State) (n : Nat) (y : Session) (a : Unacked) (q : List Unacked), n < 4096 → (s.peer n).old = none → (s.peer n).cur = some y →
     y.unacked = a :: q → exec (.retransmitTimeout n) s = .next (s.timedOut n y.sidMine a)) ∧
  (∀ (s : State), ∃ t, exec .rateEpoch s = .next t ∧ ∀ n, t.peer n = if (s.peer n).st = .opened then (s.peer n).epoch else s.peer n) ∧
  (∀ (s : State) (n : Nat) (y : Session) (a : Unacked), n < 4096 → (s.peer n).st = .opened → (s.peer n).cur = some y → a ∈ y.unacked →
     a.first + y.deadt * ticksMs ≤ s.ltime → exec (.peerDeath n) s = .next ((s.closePeer n stTimeout .down).peerLost n)) ∧
  (∀ (s : State) (n : Nat), n < 4096 → (s.peer n).st = .failed →
     ∃ t, exec (.peerFailedExpiry n) s = .next t ∧ (t.peer n).st = .idle ∧ ∀ m, m ≠ n → t.peer m = s.peer m) ∧
  (∀ (s : State) (n : Nat), n < 4096 → (s.peer n).st = .down →
     ∃ t, exec (.peerDownExpiry n) s = .next t ∧ (t.peer n).st = .idle ∧ ∀ m, m ≠ n → t.peer m = s.peer m) ∧
  (∀ (s : State) (p : Nat) (c : ServeCfg), p < 64 → (s.serve p).cfg = some c → (s.serve p).step = 0 → s.donew p c = some (2 ^ 64 - 1) →
     (s.serve p).arrived = true → s.halts = false → exec (.serveStepBoundary p) s = .next (s.boundary p (s.serve p) c)) ∧
  (∀ (s : State) (core : Nat), core < 2048 →
     exec (.routerStall core) s = .next (s.loseCore core) ∧ exec (.coreLoss core) s = .next (s.loseCore core))

/-- A router output that has moved nothing of a waiting class for 1 ms is handled as the loss of its core. -/
def Obligations.RouterStallLosesTheCore : Prop :=
  ∀ (s : State) (core : Nat), exec (.routerStall core) s = exec (.coreLoss core) s

/-- A wake event takes PLL_OFF to LOCKING and GATED to RUN, the lock of the PLL takes LOCKING to RUN, a microsecond idle takes RUN to
  GATED, and the PLL-off time takes GATED to PLL_OFF; in every other state the event leaves the state unchanged, and other clusters
  always. -/
def Obligations.ClusterClocksFollowTheirTable : Prop :=
  (∀ (s : State) (k : Nat), k < 128 →
     ∃ t, exec (.clusterGate k) s = .next t ∧ (t.cluster k).clk = (if (s.cluster k).clk = .run
       ∧ s.clusterIdle k = true then .gated else (s.cluster k).clk) ∧ ∀ j, j ≠ k → t.cluster j = s.cluster j) ∧
  (∀ (s : State) (k : Nat), k < 128 →
     ∃ t, exec (.clusterWake k) s = .next t ∧ (t.cluster k).clk = (if s.powered = true
       ∧ s.sup.shed = false then (match (s.cluster k).clk with | .pllOff => .locking | .gated => .run | x => x) else (s.cluster k).clk)
       ∧ ∀ j, j ≠ k → t.cluster j = s.cluster j) ∧
  (∀ (s : State) (k : Nat), k < 128 →
     ∃ t, exec (.pllOff k) s = .next t ∧ (t.cluster k).clk = (if (s.cluster k).clk = .gated ∧ (s.cluster k).plloff ≠ 0
       ∧ s.clusterIdle k = true then .pllOff else (s.cluster k).clk) ∧ ∀ j, j ≠ k → t.cluster j = s.cluster j) ∧
  (∀ (s : State) (k : Nat), k < 128 →
     ∃ t, exec (.pllLock k) s = .next t ∧ (t.cluster k).clk = (if (s.cluster k).clk = .locking then .run else (s.cluster k).clk)
       ∧ ∀ j, j ≠ k → t.cluster j = s.cluster j)
end

