-- ==== Sys2Proof/Laws/Memory.lean ====
section
/-! SUPPORT. Memory: what a write changes, and that every memory operation keeps the canonical form. -/

-- One proof at a time: the thread of every theorem of a large file would not fit in memory.
set_option Elab.async false

namespace Sys2Proof.Machine

theorem Memory.wfFrom_mono {m : List Host.Cell} {lo hi : Nat} (h : lo ≤ hi) (w : Memory.wfFrom hi m = true) :
    Memory.wfFrom lo m = true := by
  cases m with
  | nil => rfl
  | cons c t =>
    obtain ⟨j, b⟩ := c
    simp only [Memory.wfFrom, Bool.and_eq_true, decide_eq_true_eq] at w ⊢
    exact ⟨⟨by omega, w.1.2⟩, w.2⟩

/-- A write keeps the canonical form. -/
theorem Memory.write_wfFrom {m : List Host.Cell} {lo a : Nat} {b : Byte} (h : lo ≤ a) (w : Memory.wfFrom lo m = true) :
    Memory.wfFrom lo (Memory.write m a b) = true := by
  induction m generalizing lo with
  | nil => by_cases e : b = memDefault <;> simp [Memory.write, Memory.wfFrom, e, h]
  | cons c t ih =>
    obtain ⟨j, d⟩ := c
    simp only [Memory.wfFrom, Bool.and_eq_true, decide_eq_true_eq] at w
    unfold Memory.write
    split
    · next e =>
      subst e
      split
      · exact Memory.wfFrom_mono (by omega) w.2
      · next n => simp [Memory.wfFrom, h, w.2, n]
    · next n1 =>
      split
      · next lt =>
        split
        · simp [Memory.wfFrom, w.1.1, w.2]
          simpa using w.1.2
        · next n =>
          have hd : d ≠ memDefault := by simpa using w.1.2
          have hj : a + 1 ≤ j := by omega
          simp [Memory.wfFrom, h, n, w.2, hd, hj]
      · next nlt =>
        have hd : d ≠ memDefault := by simpa using w.1.2
        have hr := ih (lo := j + 1) (by omega) w.2
        simp [Memory.wfFrom, w.1.1, hd, hr]

theorem Memory.write_wf {m : List Host.Cell} {a : Nat} {b : Byte} (w : Memory.wf m = true) : Memory.wf (Memory.write m a b) = true :=
  Memory.write_wfFrom (Nat.zero_le _) w

/-- A run of writes keeps the canonical form. -/
theorem Memory.writes_wf {m : List Host.Cell} {a : Nat} {bs : List Byte} (w : Memory.wf m = true) :
    Memory.wf (Memory.writes m a bs) = true := by
  induction bs generalizing m a with
  | nil => exact w
  | cons b t ih => exact ih (Memory.write_wf w)

theorem Memory.filter_wfFrom {m : List Host.Cell} {p : Host.Cell → Bool} {lo : Nat} (w : Memory.wfFrom lo m = true) :
    Memory.wfFrom lo (m.filter p) = true := by
  induction m generalizing lo with
  | nil => rfl
  | cons c t ih =>
    obtain ⟨j, d⟩ := c
    simp only [Memory.wfFrom, Bool.and_eq_true, decide_eq_true_eq] at w
    by_cases e : p (j, d) = true
    · simp [List.filter, e, Memory.wfFrom, w.1.1, ih w.2]
      simpa using w.1.2
    · simp [List.filter, e]
      exact Memory.wfFrom_mono (by omega) (ih w.2)

/-- Dropping entries keeps the canonical form. -/
theorem Memory.filter_wf {m : List Host.Cell} {p : Host.Cell → Bool} (w : Memory.wf m = true) : Memory.wf (m.filter p) = true :=
  Memory.filter_wfFrom w

/-- Writes taken from a list keep the canonical form. -/
theorem Memory.foldl_write_wf {α : Type} {xs : List α} {m : List Host.Cell} {f : List Host.Cell → α → List Host.Cell}
    (hf : ∀ m x, Memory.wf m = true → Memory.wf (f m x) = true) (w : Memory.wf m = true) : Memory.wf (xs.foldl f m) = true := by
  induction xs generalizing m with
  | nil => exact w
  | cons x t ih => exact ih (hf m x w)

/-- Below the first entry of a canonical memory every byte reads as the default. -/
theorem Memory.read_below {m : List Host.Cell} {lo a : Nat} (w : Memory.wfFrom lo m = true) (h : a < lo) : Memory.read m a = memDefault := by
  cases m with
  | nil => rfl
  | cons c t =>
    obtain ⟨j, d⟩ := c
    simp only [Memory.wfFrom, Bool.and_eq_true, decide_eq_true_eq] at w
    have h1 : j ≠ a := by omega
    have h2 : a < j := by omega
    simp [Memory.read, h1, h2]

/-- A byte written reads back. -/
theorem Memory.read_write_same {m : List Host.Cell} {lo a : Nat} {b : Byte} (w : Memory.wfFrom lo m = true) :
    Memory.read (Memory.write m a b) a = b := by
  induction m generalizing lo with
  | nil => by_cases e : b = memDefault <;> simp [Memory.write, Memory.read, e]
  | cons c t ih =>
    obtain ⟨j, d⟩ := c
    simp only [Memory.wfFrom, Bool.and_eq_true, decide_eq_true_eq] at w
    unfold Memory.write
    split
    · next e =>
      subst e
      split
      · next eb => rw [eb]; exact Memory.read_below w.2 (by omega)
      · simp [Memory.read]
    · next n1 =>
      split
      · next lt =>
        split
        · next eb => simp [Memory.read, n1, lt, eb]
        · simp [Memory.read]
      · next nlt =>
        simp [Memory.read, n1, nlt, ih w.2]

/-- A write leaves every other byte alone. -/
theorem Memory.read_write_other {m : List Host.Cell} {lo a c : Nat} {b : Byte} (w : Memory.wfFrom lo m = true) (h : c ≠ a) :
    Memory.read (Memory.write m a b) c = Memory.read m c := by
  induction m generalizing lo with
  | nil =>
    by_cases e : b = memDefault
    · simp [Memory.write, e]
    · have h1 : a ≠ c := fun x => h x.symm
      by_cases h2 : c < a <;> simp [Memory.write, Memory.read, e, h1]
  | cons x t ih =>
    obtain ⟨j, d⟩ := x
    simp only [Memory.wfFrom, Bool.and_eq_true, decide_eq_true_eq] at w
    have h1 : a ≠ c := fun x => h x.symm
    unfold Memory.write
    split
    · next e =>
      subst e
      split
      · simp only [Memory.read, h1, if_false]
        split
        · exact Memory.read_below w.2 (by omega)
        · rfl
      · simp [Memory.read, h1]
    · next n1 =>
      split
      · next lt =>
        split
        · rfl
        · simp only [Memory.read, h1, if_false]
          split
          · next c1 =>
            have h3 : j ≠ c := by omega
            have h4 : c < j := by omega
            simp [h3, h4]
          · rfl
      · simp only [Memory.read]
        split
        · rfl
        · split
          · rfl
          · exact ih w.2

end Sys2Proof.Machine
end

