-- ==== Sys2Proof/Laws/State.lean ====
section
/-! SUPPORT. Tables and the updates of the state: what each update leaves as it was, and what reads back. -/

-- One proof at a time: the thread of every theorem of a large file would not fit in memory.
set_option Elab.async false

namespace Sys2Proof.Machine

@[simp] theorem Tab.find_put_same {β : Type} (t : Tab β) (k : Nat) (v : β) : Tab.find (Tab.put t k v) k = some v := by
  induction t with
  | nil => simp [Tab.put, Tab.find]
  | cons c t ih =>
    obtain ⟨j, w⟩ := c
    unfold Tab.put
    split
    · simp [Tab.find]
    · next h1 =>
      split
      · simp [Tab.find]
      · next h2 => simp [Tab.find, h1, h2, ih]

@[simp] theorem Tab.get_put_same {β : Type} (d : β) (t : Tab β) (k : Nat) (v : β) : Tab.get d (Tab.put t k v) k = v := by
  simp [Tab.get]

theorem Tab.find_put_other {β : Type} (t : Tab β) {k m : Nat} (v : β) (h : m ≠ k) : Tab.find (Tab.put t k v) m = Tab.find t m := by
  have h' : k ≠ m := fun e => h e.symm
  induction t with
  | nil =>
    by_cases h2 : m < k <;> simp [Tab.put, Tab.find, h']
  | cons c t ih =>
    obtain ⟨j, w⟩ := c
    unfold Tab.put
    split
    · next e => subst e; simp [Tab.find, h']
    · next h1 =>
      split
      · next h2 =>
        by_cases h3 : m < k
        · have h4 : j ≠ m := by omega
          have h5 : m < j := by omega
          simp [Tab.find, h', h3, h4, h5]
        · simp [Tab.find, h', h3]
      · simp only [Tab.find, ih]

theorem Tab.get_put_other {β : Type} (d : β) (t : Tab β) {k m : Nat} (v : β) (h : m ≠ k) :
    Tab.get d (Tab.put t k v) m = Tab.get d t m := by
  simp [Tab.get, Tab.find_put_other t v h]

/-! State.setCore writes cores only. -/
@[simp] theorem State.setCore_clusters (s : State) (n : Nat) (k : Core) : (s.setCore n k).clusters = s.clusters := rfl
@[simp] theorem State.setCore_parts (s : State) (n : Nat) (k : Core) : (s.setCore n k).parts = s.parts := rfl
@[simp] theorem State.setCore_hports (s : State) (n : Nat) (k : Core) : (s.setCore n k).hports = s.hports := rfl
@[simp] theorem State.setCore_hpParts (s : State) (n : Nat) (k : Core) : (s.setCore n k).hpParts = s.hpParts := rfl
@[simp] theorem State.setCore_mgmt (s : State) (n : Nat) (k : Core) : (s.setCore n k).mgmt = s.mgmt := rfl
@[simp] theorem State.setCore_autofail (s : State) (n : Nat) (k : Core) : (s.setCore n k).autofail = s.autofail := rfl
@[simp] theorem State.setCore_moves (s : State) (n : Nat) (k : Core) : (s.setCore n k).moves = s.moves := rfl
@[simp] theorem State.setCore_mgmtPend (s : State) (n : Nat) (k : Core) : (s.setCore n k).mgmtPend = s.mgmtPend := rfl
@[simp] theorem State.setCore_mem (s : State) (n : Nat) (k : Core) : (s.setCore n k).mem = s.mem := rfl
@[simp] theorem State.setCore_poison (s : State) (n : Nat) (k : Core) : (s.setCore n k).poison = s.poison := rfl
@[simp] theorem State.setCore_cv (s : State) (n : Nat) (k : Core) : (s.setCore n k).cv = s.cv := rfl
@[simp] theorem State.setCore_codeErr (s : State) (n : Nat) (k : Core) : (s.setCore n k).codeErr = s.codeErr := rfl
@[simp] theorem State.setCore_cplBad (s : State) (n : Nat) (k : Core) : (s.setCore n k).cplBad = s.cplBad := rfl
@[simp] theorem State.setCore_takeSeq (s : State) (n : Nat) (k : Core) : (s.setCore n k).takeSeq = s.takeSeq := rfl
@[simp] theorem State.setCore_engSeed (s : State) (n : Nat) (k : Core) : (s.setCore n k).engSeed = s.engSeed := rfl
@[simp] theorem State.setCore_resvs (s : State) (n : Nat) (k : Core) : (s.setCore n k).resvs = s.resvs := rfl
@[simp] theorem State.setCore_hbm (s : State) (n : Nat) (k : Core) : (s.setCore n k).hbm = s.hbm := rfl
@[simp] theorem State.setCore_memStat (s : State) (n : Nat) (k : Core) : (s.setCore n k).memStat = s.memStat := rfl
@[simp] theorem State.setCore_dimms (s : State) (n : Nat) (k : Core) : (s.setCore n k).dimms = s.dimms := rfl
@[simp] theorem State.setCore_tlbs (s : State) (n : Nat) (k : Core) : (s.setCore n k).tlbs = s.tlbs := rfl
@[simp] theorem State.setCore_engTlbs (s : State) (n : Nat) (k : Core) : (s.setCore n k).engTlbs = s.engTlbs := rfl
@[simp] theorem State.setCore_upd (s : State) (n : Nat) (k : Core) : (s.setCore n k).upd = s.upd := rfl
@[simp] theorem State.setCore_fltParts (s : State) (n : Nat) (k : Core) : (s.setCore n k).fltParts = s.fltParts := rfl
@[simp] theorem State.setCore_flt (s : State) (n : Nat) (k : Core) : (s.setCore n k).flt = s.flt := rfl
@[simp] theorem State.setCore_retired (s : State) (n : Nat) (k : Core) : (s.setCore n k).retired = s.retired := rfl
@[simp] theorem State.setCore_zeroing (s : State) (n : Nat) (k : Core) : (s.setCore n k).zeroing = s.zeroing := rfl
@[simp] theorem State.setCore_fab (s : State) (n : Nat) (k : Core) : (s.setCore n k).fab = s.fab := rfl
@[simp] theorem State.setCore_colls (s : State) (n : Nat) (k : Core) : (s.setCore n k).colls = s.colls := rfl
@[simp] theorem State.setCore_serves (s : State) (n : Nat) (k : Core) : (s.setCore n k).serves = s.serves := rfl
@[simp] theorem State.setCore_pwr (s : State) (n : Nat) (k : Core) : (s.setCore n k).pwr = s.pwr := rfl
@[simp] theorem State.setCore_mram (s : State) (n : Nat) (k : Core) : (s.setCore n k).mram = s.mram := rfl
@[simp] theorem State.setCore_boot (s : State) (n : Nat) (k : Core) : (s.setCore n k).boot = s.boot := rfl
@[simp] theorem State.setCore_sup (s : State) (n : Nat) (k : Core) : (s.setCore n k).sup = s.sup := rfl
@[simp] theorem State.setCore_ltime (s : State) (n : Nat) (k : Core) : (s.setCore n k).ltime = s.ltime := rfl
@[simp] theorem State.setCore_free (s : State) (n : Nat) (k : Core) : (s.setCore n k).free = s.free := rfl
@[simp] theorem State.setCore_busData (s : State) (n : Nat) (k : Core) : (s.setCore n k).busData = s.busData := rfl
@[simp] theorem State.setCore_pending (s : State) (n : Nat) (k : Core) : (s.setCore n k).pending = s.pending := rfl

/-! State.mapCore writes cores only. -/
@[simp] theorem State.mapCore_clusters (s : State) (n : Nat) (f : Core → Core) : (s.mapCore n f).clusters = s.clusters := rfl
@[simp] theorem State.mapCore_parts (s : State) (n : Nat) (f : Core → Core) : (s.mapCore n f).parts = s.parts := rfl
@[simp] theorem State.mapCore_hports (s : State) (n : Nat) (f : Core → Core) : (s.mapCore n f).hports = s.hports := rfl
@[simp] theorem State.mapCore_hpParts (s : State) (n : Nat) (f : Core → Core) : (s.mapCore n f).hpParts = s.hpParts := rfl
@[simp] theorem State.mapCore_mgmt (s : State) (n : Nat) (f : Core → Core) : (s.mapCore n f).mgmt = s.mgmt := rfl
@[simp] theorem State.mapCore_autofail (s : State) (n : Nat) (f : Core → Core) : (s.mapCore n f).autofail = s.autofail := rfl
@[simp] theorem State.mapCore_moves (s : State) (n : Nat) (f : Core → Core) : (s.mapCore n f).moves = s.moves := rfl
@[simp] theorem State.mapCore_mgmtPend (s : State) (n : Nat) (f : Core → Core) : (s.mapCore n f).mgmtPend = s.mgmtPend := rfl
@[simp] theorem State.mapCore_mem (s : State) (n : Nat) (f : Core → Core) : (s.mapCore n f).mem = s.mem := rfl
@[simp] theorem State.mapCore_poison (s : State) (n : Nat) (f : Core → Core) : (s.mapCore n f).poison = s.poison := rfl
@[simp] theorem State.mapCore_cv (s : State) (n : Nat) (f : Core → Core) : (s.mapCore n f).cv = s.cv := rfl
@[simp] theorem State.mapCore_codeErr (s : State) (n : Nat) (f : Core → Core) : (s.mapCore n f).codeErr = s.codeErr := rfl
@[simp] theorem State.mapCore_cplBad (s : State) (n : Nat) (f : Core → Core) : (s.mapCore n f).cplBad = s.cplBad := rfl
@[simp] theorem State.mapCore_takeSeq (s : State) (n : Nat) (f : Core → Core) : (s.mapCore n f).takeSeq = s.takeSeq := rfl
@[simp] theorem State.mapCore_engSeed (s : State) (n : Nat) (f : Core → Core) : (s.mapCore n f).engSeed = s.engSeed := rfl
@[simp] theorem State.mapCore_resvs (s : State) (n : Nat) (f : Core → Core) : (s.mapCore n f).resvs = s.resvs := rfl
@[simp] theorem State.mapCore_hbm (s : State) (n : Nat) (f : Core → Core) : (s.mapCore n f).hbm = s.hbm := rfl
@[simp] theorem State.mapCore_memStat (s : State) (n : Nat) (f : Core → Core) : (s.mapCore n f).memStat = s.memStat := rfl
@[simp] theorem State.mapCore_dimms (s : State) (n : Nat) (f : Core → Core) : (s.mapCore n f).dimms = s.dimms := rfl
@[simp] theorem State.mapCore_tlbs (s : State) (n : Nat) (f : Core → Core) : (s.mapCore n f).tlbs = s.tlbs := rfl
@[simp] theorem State.mapCore_engTlbs (s : State) (n : Nat) (f : Core → Core) : (s.mapCore n f).engTlbs = s.engTlbs := rfl
@[simp] theorem State.mapCore_upd (s : State) (n : Nat) (f : Core → Core) : (s.mapCore n f).upd = s.upd := rfl
@[simp] theorem State.mapCore_fltParts (s : State) (n : Nat) (f : Core → Core) : (s.mapCore n f).fltParts = s.fltParts := rfl
@[simp] theorem State.mapCore_flt (s : State) (n : Nat) (f : Core → Core) : (s.mapCore n f).flt = s.flt := rfl
@[simp] theorem State.mapCore_retired (s : State) (n : Nat) (f : Core → Core) : (s.mapCore n f).retired = s.retired := rfl
@[simp] theorem State.mapCore_zeroing (s : State) (n : Nat) (f : Core → Core) : (s.mapCore n f).zeroing = s.zeroing := rfl
@[simp] theorem State.mapCore_fab (s : State) (n : Nat) (f : Core → Core) : (s.mapCore n f).fab = s.fab := rfl
@[simp] theorem State.mapCore_colls (s : State) (n : Nat) (f : Core → Core) : (s.mapCore n f).colls = s.colls := rfl
@[simp] theorem State.mapCore_serves (s : State) (n : Nat) (f : Core → Core) : (s.mapCore n f).serves = s.serves := rfl
@[simp] theorem State.mapCore_pwr (s : State) (n : Nat) (f : Core → Core) : (s.mapCore n f).pwr = s.pwr := rfl
@[simp] theorem State.mapCore_mram (s : State) (n : Nat) (f : Core → Core) : (s.mapCore n f).mram = s.mram := rfl
@[simp] theorem State.mapCore_boot (s : State) (n : Nat) (f : Core → Core) : (s.mapCore n f).boot = s.boot := rfl
@[simp] theorem State.mapCore_sup (s : State) (n : Nat) (f : Core → Core) : (s.mapCore n f).sup = s.sup := rfl
@[simp] theorem State.mapCore_ltime (s : State) (n : Nat) (f : Core → Core) : (s.mapCore n f).ltime = s.ltime := rfl
@[simp] theorem State.mapCore_free (s : State) (n : Nat) (f : Core → Core) : (s.mapCore n f).free = s.free := rfl
@[simp] theorem State.mapCore_busData (s : State) (n : Nat) (f : Core → Core) : (s.mapCore n f).busData = s.busData := rfl
@[simp] theorem State.mapCore_pending (s : State) (n : Nat) (f : Core → Core) : (s.mapCore n f).pending = s.pending := rfl

/-! State.setSlot writes cores only. -/
@[simp] theorem State.setSlot_clusters (s : State) (core n : Nat) (c : Ctx) : (s.setSlot core n c).clusters = s.clusters := rfl
@[simp] theorem State.setSlot_parts (s : State) (core n : Nat) (c : Ctx) : (s.setSlot core n c).parts = s.parts := rfl
@[simp] theorem State.setSlot_hports (s : State) (core n : Nat) (c : Ctx) : (s.setSlot core n c).hports = s.hports := rfl
@[simp] theorem State.setSlot_hpParts (s : State) (core n : Nat) (c : Ctx) : (s.setSlot core n c).hpParts = s.hpParts := rfl
@[simp] theorem State.setSlot_mgmt (s : State) (core n : Nat) (c : Ctx) : (s.setSlot core n c).mgmt = s.mgmt := rfl
@[simp] theorem State.setSlot_autofail (s : State) (core n : Nat) (c : Ctx) : (s.setSlot core n c).autofail = s.autofail := rfl
@[simp] theorem State.setSlot_moves (s : State) (core n : Nat) (c : Ctx) : (s.setSlot core n c).moves = s.moves := rfl
@[simp] theorem State.setSlot_mgmtPend (s : State) (core n : Nat) (c : Ctx) : (s.setSlot core n c).mgmtPend = s.mgmtPend := rfl
@[simp] theorem State.setSlot_mem (s : State) (core n : Nat) (c : Ctx) : (s.setSlot core n c).mem = s.mem := rfl
@[simp] theorem State.setSlot_poison (s : State) (core n : Nat) (c : Ctx) : (s.setSlot core n c).poison = s.poison := rfl
@[simp] theorem State.setSlot_cv (s : State) (core n : Nat) (c : Ctx) : (s.setSlot core n c).cv = s.cv := rfl
@[simp] theorem State.setSlot_codeErr (s : State) (core n : Nat) (c : Ctx) : (s.setSlot core n c).codeErr = s.codeErr := rfl
@[simp] theorem State.setSlot_cplBad (s : State) (core n : Nat) (c : Ctx) : (s.setSlot core n c).cplBad = s.cplBad := rfl
@[simp] theorem State.setSlot_takeSeq (s : State) (core n : Nat) (c : Ctx) : (s.setSlot core n c).takeSeq = s.takeSeq := rfl
@[simp] theorem State.setSlot_engSeed (s : State) (core n : Nat) (c : Ctx) : (s.setSlot core n c).engSeed = s.engSeed := rfl
@[simp] theorem State.setSlot_resvs (s : State) (core n : Nat) (c : Ctx) : (s.setSlot core n c).resvs = s.resvs := rfl
@[simp] theorem State.setSlot_hbm (s : State) (core n : Nat) (c : Ctx) : (s.setSlot core n c).hbm = s.hbm := rfl
@[simp] theorem State.setSlot_memStat (s : State) (core n : Nat) (c : Ctx) : (s.setSlot core n c).memStat = s.memStat := rfl
@[simp] theorem State.setSlot_dimms (s : State) (core n : Nat) (c : Ctx) : (s.setSlot core n c).dimms = s.dimms := rfl
@[simp] theorem State.setSlot_tlbs (s : State) (core n : Nat) (c : Ctx) : (s.setSlot core n c).tlbs = s.tlbs := rfl
@[simp] theorem State.setSlot_engTlbs (s : State) (core n : Nat) (c : Ctx) : (s.setSlot core n c).engTlbs = s.engTlbs := rfl
@[simp] theorem State.setSlot_upd (s : State) (core n : Nat) (c : Ctx) : (s.setSlot core n c).upd = s.upd := rfl
@[simp] theorem State.setSlot_fltParts (s : State) (core n : Nat) (c : Ctx) : (s.setSlot core n c).fltParts = s.fltParts := rfl
@[simp] theorem State.setSlot_flt (s : State) (core n : Nat) (c : Ctx) : (s.setSlot core n c).flt = s.flt := rfl
@[simp] theorem State.setSlot_retired (s : State) (core n : Nat) (c : Ctx) : (s.setSlot core n c).retired = s.retired := rfl
@[simp] theorem State.setSlot_zeroing (s : State) (core n : Nat) (c : Ctx) : (s.setSlot core n c).zeroing = s.zeroing := rfl
@[simp] theorem State.setSlot_fab (s : State) (core n : Nat) (c : Ctx) : (s.setSlot core n c).fab = s.fab := rfl
@[simp] theorem State.setSlot_colls (s : State) (core n : Nat) (c : Ctx) : (s.setSlot core n c).colls = s.colls := rfl
@[simp] theorem State.setSlot_serves (s : State) (core n : Nat) (c : Ctx) : (s.setSlot core n c).serves = s.serves := rfl
@[simp] theorem State.setSlot_pwr (s : State) (core n : Nat) (c : Ctx) : (s.setSlot core n c).pwr = s.pwr := rfl
@[simp] theorem State.setSlot_mram (s : State) (core n : Nat) (c : Ctx) : (s.setSlot core n c).mram = s.mram := rfl
@[simp] theorem State.setSlot_boot (s : State) (core n : Nat) (c : Ctx) : (s.setSlot core n c).boot = s.boot := rfl
@[simp] theorem State.setSlot_sup (s : State) (core n : Nat) (c : Ctx) : (s.setSlot core n c).sup = s.sup := rfl
@[simp] theorem State.setSlot_ltime (s : State) (core n : Nat) (c : Ctx) : (s.setSlot core n c).ltime = s.ltime := rfl
@[simp] theorem State.setSlot_free (s : State) (core n : Nat) (c : Ctx) : (s.setSlot core n c).free = s.free := rfl
@[simp] theorem State.setSlot_busData (s : State) (core n : Nat) (c : Ctx) : (s.setSlot core n c).busData = s.busData := rfl
@[simp] theorem State.setSlot_pending (s : State) (core n : Nat) (c : Ctx) : (s.setSlot core n c).pending = s.pending := rfl

/-! State.mapSlot writes cores only. -/
@[simp] theorem State.mapSlot_clusters (s : State) (core n : Nat) (f : Ctx → Ctx) : (s.mapSlot core n f).clusters = s.clusters := rfl
@[simp] theorem State.mapSlot_parts (s : State) (core n : Nat) (f : Ctx → Ctx) : (s.mapSlot core n f).parts = s.parts := rfl
@[simp] theorem State.mapSlot_hports (s : State) (core n : Nat) (f : Ctx → Ctx) : (s.mapSlot core n f).hports = s.hports := rfl
@[simp] theorem State.mapSlot_hpParts (s : State) (core n : Nat) (f : Ctx → Ctx) : (s.mapSlot core n f).hpParts = s.hpParts := rfl
@[simp] theorem State.mapSlot_mgmt (s : State) (core n : Nat) (f : Ctx → Ctx) : (s.mapSlot core n f).mgmt = s.mgmt := rfl
@[simp] theorem State.mapSlot_autofail (s : State) (core n : Nat) (f : Ctx → Ctx) : (s.mapSlot core n f).autofail = s.autofail := rfl
@[simp] theorem State.mapSlot_moves (s : State) (core n : Nat) (f : Ctx → Ctx) : (s.mapSlot core n f).moves = s.moves := rfl
@[simp] theorem State.mapSlot_mgmtPend (s : State) (core n : Nat) (f : Ctx → Ctx) : (s.mapSlot core n f).mgmtPend = s.mgmtPend := rfl
@[simp] theorem State.mapSlot_mem (s : State) (core n : Nat) (f : Ctx → Ctx) : (s.mapSlot core n f).mem = s.mem := rfl
@[simp] theorem State.mapSlot_poison (s : State) (core n : Nat) (f : Ctx → Ctx) : (s.mapSlot core n f).poison = s.poison := rfl
@[simp] theorem State.mapSlot_cv (s : State) (core n : Nat) (f : Ctx → Ctx) : (s.mapSlot core n f).cv = s.cv := rfl
@[simp] theorem State.mapSlot_codeErr (s : State) (core n : Nat) (f : Ctx → Ctx) : (s.mapSlot core n f).codeErr = s.codeErr := rfl
@[simp] theorem State.mapSlot_cplBad (s : State) (core n : Nat) (f : Ctx → Ctx) : (s.mapSlot core n f).cplBad = s.cplBad := rfl
@[simp] theorem State.mapSlot_takeSeq (s : State) (core n : Nat) (f : Ctx → Ctx) : (s.mapSlot core n f).takeSeq = s.takeSeq := rfl
@[simp] theorem State.mapSlot_engSeed (s : State) (core n : Nat) (f : Ctx → Ctx) : (s.mapSlot core n f).engSeed = s.engSeed := rfl
@[simp] theorem State.mapSlot_resvs (s : State) (core n : Nat) (f : Ctx → Ctx) : (s.mapSlot core n f).resvs = s.resvs := rfl
@[simp] theorem State.mapSlot_hbm (s : State) (core n : Nat) (f : Ctx → Ctx) : (s.mapSlot core n f).hbm = s.hbm := rfl
@[simp] theorem State.mapSlot_memStat (s : State) (core n : Nat) (f : Ctx → Ctx) : (s.mapSlot core n f).memStat = s.memStat := rfl
@[simp] theorem State.mapSlot_dimms (s : State) (core n : Nat) (f : Ctx → Ctx) : (s.mapSlot core n f).dimms = s.dimms := rfl
@[simp] theorem State.mapSlot_tlbs (s : State) (core n : Nat) (f : Ctx → Ctx) : (s.mapSlot core n f).tlbs = s.tlbs := rfl
@[simp] theorem State.mapSlot_engTlbs (s : State) (core n : Nat) (f : Ctx → Ctx) : (s.mapSlot core n f).engTlbs = s.engTlbs := rfl
@[simp] theorem State.mapSlot_upd (s : State) (core n : Nat) (f : Ctx → Ctx) : (s.mapSlot core n f).upd = s.upd := rfl
@[simp] theorem State.mapSlot_fltParts (s : State) (core n : Nat) (f : Ctx → Ctx) : (s.mapSlot core n f).fltParts = s.fltParts := rfl
@[simp] theorem State.mapSlot_flt (s : State) (core n : Nat) (f : Ctx → Ctx) : (s.mapSlot core n f).flt = s.flt := rfl
@[simp] theorem State.mapSlot_retired (s : State) (core n : Nat) (f : Ctx → Ctx) : (s.mapSlot core n f).retired = s.retired := rfl
@[simp] theorem State.mapSlot_zeroing (s : State) (core n : Nat) (f : Ctx → Ctx) : (s.mapSlot core n f).zeroing = s.zeroing := rfl
@[simp] theorem State.mapSlot_fab (s : State) (core n : Nat) (f : Ctx → Ctx) : (s.mapSlot core n f).fab = s.fab := rfl
@[simp] theorem State.mapSlot_colls (s : State) (core n : Nat) (f : Ctx → Ctx) : (s.mapSlot core n f).colls = s.colls := rfl
@[simp] theorem State.mapSlot_serves (s : State) (core n : Nat) (f : Ctx → Ctx) : (s.mapSlot core n f).serves = s.serves := rfl
@[simp] theorem State.mapSlot_pwr (s : State) (core n : Nat) (f : Ctx → Ctx) : (s.mapSlot core n f).pwr = s.pwr := rfl
@[simp] theorem State.mapSlot_mram (s : State) (core n : Nat) (f : Ctx → Ctx) : (s.mapSlot core n f).mram = s.mram := rfl
@[simp] theorem State.mapSlot_boot (s : State) (core n : Nat) (f : Ctx → Ctx) : (s.mapSlot core n f).boot = s.boot := rfl
@[simp] theorem State.mapSlot_sup (s : State) (core n : Nat) (f : Ctx → Ctx) : (s.mapSlot core n f).sup = s.sup := rfl
@[simp] theorem State.mapSlot_ltime (s : State) (core n : Nat) (f : Ctx → Ctx) : (s.mapSlot core n f).ltime = s.ltime := rfl
@[simp] theorem State.mapSlot_free (s : State) (core n : Nat) (f : Ctx → Ctx) : (s.mapSlot core n f).free = s.free := rfl
@[simp] theorem State.mapSlot_busData (s : State) (core n : Nat) (f : Ctx → Ctx) : (s.mapSlot core n f).busData = s.busData := rfl
@[simp] theorem State.mapSlot_pending (s : State) (core n : Nat) (f : Ctx → Ctx) : (s.mapSlot core n f).pending = s.pending := rfl

/-! State.setCluster writes clusters only. -/
@[simp] theorem State.setCluster_cores (s : State) (n : Nat) (c : Cluster) : (s.setCluster n c).cores = s.cores := rfl
@[simp] theorem State.setCluster_parts (s : State) (n : Nat) (c : Cluster) : (s.setCluster n c).parts = s.parts := rfl
@[simp] theorem State.setCluster_hports (s : State) (n : Nat) (c : Cluster) : (s.setCluster n c).hports = s.hports := rfl
@[simp] theorem State.setCluster_hpParts (s : State) (n : Nat) (c : Cluster) : (s.setCluster n c).hpParts = s.hpParts := rfl
@[simp] theorem State.setCluster_mgmt (s : State) (n : Nat) (c : Cluster) : (s.setCluster n c).mgmt = s.mgmt := rfl
@[simp] theorem State.setCluster_autofail (s : State) (n : Nat) (c : Cluster) : (s.setCluster n c).autofail = s.autofail := rfl
@[simp] theorem State.setCluster_moves (s : State) (n : Nat) (c : Cluster) : (s.setCluster n c).moves = s.moves := rfl
@[simp] theorem State.setCluster_mgmtPend (s : State) (n : Nat) (c : Cluster) : (s.setCluster n c).mgmtPend = s.mgmtPend := rfl
@[simp] theorem State.setCluster_mem (s : State) (n : Nat) (c : Cluster) : (s.setCluster n c).mem = s.mem := rfl
@[simp] theorem State.setCluster_poison (s : State) (n : Nat) (c : Cluster) : (s.setCluster n c).poison = s.poison := rfl
@[simp] theorem State.setCluster_cv (s : State) (n : Nat) (c : Cluster) : (s.setCluster n c).cv = s.cv := rfl
@[simp] theorem State.setCluster_codeErr (s : State) (n : Nat) (c : Cluster) : (s.setCluster n c).codeErr = s.codeErr := rfl
@[simp] theorem State.setCluster_cplBad (s : State) (n : Nat) (c : Cluster) : (s.setCluster n c).cplBad = s.cplBad := rfl
@[simp] theorem State.setCluster_takeSeq (s : State) (n : Nat) (c : Cluster) : (s.setCluster n c).takeSeq = s.takeSeq := rfl
@[simp] theorem State.setCluster_engSeed (s : State) (n : Nat) (c : Cluster) : (s.setCluster n c).engSeed = s.engSeed := rfl
@[simp] theorem State.setCluster_resvs (s : State) (n : Nat) (c : Cluster) : (s.setCluster n c).resvs = s.resvs := rfl
@[simp] theorem State.setCluster_hbm (s : State) (n : Nat) (c : Cluster) : (s.setCluster n c).hbm = s.hbm := rfl
@[simp] theorem State.setCluster_memStat (s : State) (n : Nat) (c : Cluster) : (s.setCluster n c).memStat = s.memStat := rfl
@[simp] theorem State.setCluster_dimms (s : State) (n : Nat) (c : Cluster) : (s.setCluster n c).dimms = s.dimms := rfl
@[simp] theorem State.setCluster_tlbs (s : State) (n : Nat) (c : Cluster) : (s.setCluster n c).tlbs = s.tlbs := rfl
@[simp] theorem State.setCluster_engTlbs (s : State) (n : Nat) (c : Cluster) : (s.setCluster n c).engTlbs = s.engTlbs := rfl
@[simp] theorem State.setCluster_upd (s : State) (n : Nat) (c : Cluster) : (s.setCluster n c).upd = s.upd := rfl
@[simp] theorem State.setCluster_fltParts (s : State) (n : Nat) (c : Cluster) : (s.setCluster n c).fltParts = s.fltParts := rfl
@[simp] theorem State.setCluster_flt (s : State) (n : Nat) (c : Cluster) : (s.setCluster n c).flt = s.flt := rfl
@[simp] theorem State.setCluster_retired (s : State) (n : Nat) (c : Cluster) : (s.setCluster n c).retired = s.retired := rfl
@[simp] theorem State.setCluster_zeroing (s : State) (n : Nat) (c : Cluster) : (s.setCluster n c).zeroing = s.zeroing := rfl
@[simp] theorem State.setCluster_fab (s : State) (n : Nat) (c : Cluster) : (s.setCluster n c).fab = s.fab := rfl
@[simp] theorem State.setCluster_colls (s : State) (n : Nat) (c : Cluster) : (s.setCluster n c).colls = s.colls := rfl
@[simp] theorem State.setCluster_serves (s : State) (n : Nat) (c : Cluster) : (s.setCluster n c).serves = s.serves := rfl
@[simp] theorem State.setCluster_pwr (s : State) (n : Nat) (c : Cluster) : (s.setCluster n c).pwr = s.pwr := rfl
@[simp] theorem State.setCluster_mram (s : State) (n : Nat) (c : Cluster) : (s.setCluster n c).mram = s.mram := rfl
@[simp] theorem State.setCluster_boot (s : State) (n : Nat) (c : Cluster) : (s.setCluster n c).boot = s.boot := rfl
@[simp] theorem State.setCluster_sup (s : State) (n : Nat) (c : Cluster) : (s.setCluster n c).sup = s.sup := rfl
@[simp] theorem State.setCluster_ltime (s : State) (n : Nat) (c : Cluster) : (s.setCluster n c).ltime = s.ltime := rfl
@[simp] theorem State.setCluster_free (s : State) (n : Nat) (c : Cluster) : (s.setCluster n c).free = s.free := rfl
@[simp] theorem State.setCluster_busData (s : State) (n : Nat) (c : Cluster) : (s.setCluster n c).busData = s.busData := rfl
@[simp] theorem State.setCluster_pending (s : State) (n : Nat) (c : Cluster) : (s.setCluster n c).pending = s.pending := rfl

/-! State.setPart writes parts only. -/
@[simp] theorem State.setPart_cores (s : State) (n : Nat) (p : Part) : (s.setPart n p).cores = s.cores := rfl
@[simp] theorem State.setPart_clusters (s : State) (n : Nat) (p : Part) : (s.setPart n p).clusters = s.clusters := rfl
@[simp] theorem State.setPart_hports (s : State) (n : Nat) (p : Part) : (s.setPart n p).hports = s.hports := rfl
@[simp] theorem State.setPart_hpParts (s : State) (n : Nat) (p : Part) : (s.setPart n p).hpParts = s.hpParts := rfl
@[simp] theorem State.setPart_mgmt (s : State) (n : Nat) (p : Part) : (s.setPart n p).mgmt = s.mgmt := rfl
@[simp] theorem State.setPart_autofail (s : State) (n : Nat) (p : Part) : (s.setPart n p).autofail = s.autofail := rfl
@[simp] theorem State.setPart_moves (s : State) (n : Nat) (p : Part) : (s.setPart n p).moves = s.moves := rfl
@[simp] theorem State.setPart_mgmtPend (s : State) (n : Nat) (p : Part) : (s.setPart n p).mgmtPend = s.mgmtPend := rfl
@[simp] theorem State.setPart_mem (s : State) (n : Nat) (p : Part) : (s.setPart n p).mem = s.mem := rfl
@[simp] theorem State.setPart_poison (s : State) (n : Nat) (p : Part) : (s.setPart n p).poison = s.poison := rfl
@[simp] theorem State.setPart_cv (s : State) (n : Nat) (p : Part) : (s.setPart n p).cv = s.cv := rfl
@[simp] theorem State.setPart_codeErr (s : State) (n : Nat) (p : Part) : (s.setPart n p).codeErr = s.codeErr := rfl
@[simp] theorem State.setPart_cplBad (s : State) (n : Nat) (p : Part) : (s.setPart n p).cplBad = s.cplBad := rfl
@[simp] theorem State.setPart_takeSeq (s : State) (n : Nat) (p : Part) : (s.setPart n p).takeSeq = s.takeSeq := rfl
@[simp] theorem State.setPart_engSeed (s : State) (n : Nat) (p : Part) : (s.setPart n p).engSeed = s.engSeed := rfl
@[simp] theorem State.setPart_resvs (s : State) (n : Nat) (p : Part) : (s.setPart n p).resvs = s.resvs := rfl
@[simp] theorem State.setPart_hbm (s : State) (n : Nat) (p : Part) : (s.setPart n p).hbm = s.hbm := rfl
@[simp] theorem State.setPart_memStat (s : State) (n : Nat) (p : Part) : (s.setPart n p).memStat = s.memStat := rfl
@[simp] theorem State.setPart_dimms (s : State) (n : Nat) (p : Part) : (s.setPart n p).dimms = s.dimms := rfl
@[simp] theorem State.setPart_tlbs (s : State) (n : Nat) (p : Part) : (s.setPart n p).tlbs = s.tlbs := rfl
@[simp] theorem State.setPart_engTlbs (s : State) (n : Nat) (p : Part) : (s.setPart n p).engTlbs = s.engTlbs := rfl
@[simp] theorem State.setPart_upd (s : State) (n : Nat) (p : Part) : (s.setPart n p).upd = s.upd := rfl
@[simp] theorem State.setPart_fltParts (s : State) (n : Nat) (p : Part) : (s.setPart n p).fltParts = s.fltParts := rfl
@[simp] theorem State.setPart_flt (s : State) (n : Nat) (p : Part) : (s.setPart n p).flt = s.flt := rfl
@[simp] theorem State.setPart_retired (s : State) (n : Nat) (p : Part) : (s.setPart n p).retired = s.retired := rfl
@[simp] theorem State.setPart_zeroing (s : State) (n : Nat) (p : Part) : (s.setPart n p).zeroing = s.zeroing := rfl
@[simp] theorem State.setPart_fab (s : State) (n : Nat) (p : Part) : (s.setPart n p).fab = s.fab := rfl
@[simp] theorem State.setPart_colls (s : State) (n : Nat) (p : Part) : (s.setPart n p).colls = s.colls := rfl
@[simp] theorem State.setPart_serves (s : State) (n : Nat) (p : Part) : (s.setPart n p).serves = s.serves := rfl
@[simp] theorem State.setPart_pwr (s : State) (n : Nat) (p : Part) : (s.setPart n p).pwr = s.pwr := rfl
@[simp] theorem State.setPart_mram (s : State) (n : Nat) (p : Part) : (s.setPart n p).mram = s.mram := rfl
@[simp] theorem State.setPart_boot (s : State) (n : Nat) (p : Part) : (s.setPart n p).boot = s.boot := rfl
@[simp] theorem State.setPart_sup (s : State) (n : Nat) (p : Part) : (s.setPart n p).sup = s.sup := rfl
@[simp] theorem State.setPart_ltime (s : State) (n : Nat) (p : Part) : (s.setPart n p).ltime = s.ltime := rfl
@[simp] theorem State.setPart_free (s : State) (n : Nat) (p : Part) : (s.setPart n p).free = s.free := rfl
@[simp] theorem State.setPart_busData (s : State) (n : Nat) (p : Part) : (s.setPart n p).busData = s.busData := rfl
@[simp] theorem State.setPart_pending (s : State) (n : Nat) (p : Part) : (s.setPart n p).pending = s.pending := rfl

/-! State.mapPart writes parts only. -/
@[simp] theorem State.mapPart_cores (s : State) (n : Nat) (f : Part → Part) : (s.mapPart n f).cores = s.cores := rfl
@[simp] theorem State.mapPart_clusters (s : State) (n : Nat) (f : Part → Part) : (s.mapPart n f).clusters = s.clusters := rfl
@[simp] theorem State.mapPart_hports (s : State) (n : Nat) (f : Part → Part) : (s.mapPart n f).hports = s.hports := rfl
@[simp] theorem State.mapPart_hpParts (s : State) (n : Nat) (f : Part → Part) : (s.mapPart n f).hpParts = s.hpParts := rfl
@[simp] theorem State.mapPart_mgmt (s : State) (n : Nat) (f : Part → Part) : (s.mapPart n f).mgmt = s.mgmt := rfl
@[simp] theorem State.mapPart_autofail (s : State) (n : Nat) (f : Part → Part) : (s.mapPart n f).autofail = s.autofail := rfl
@[simp] theorem State.mapPart_moves (s : State) (n : Nat) (f : Part → Part) : (s.mapPart n f).moves = s.moves := rfl
@[simp] theorem State.mapPart_mgmtPend (s : State) (n : Nat) (f : Part → Part) : (s.mapPart n f).mgmtPend = s.mgmtPend := rfl
@[simp] theorem State.mapPart_mem (s : State) (n : Nat) (f : Part → Part) : (s.mapPart n f).mem = s.mem := rfl
@[simp] theorem State.mapPart_poison (s : State) (n : Nat) (f : Part → Part) : (s.mapPart n f).poison = s.poison := rfl
@[simp] theorem State.mapPart_cv (s : State) (n : Nat) (f : Part → Part) : (s.mapPart n f).cv = s.cv := rfl
@[simp] theorem State.mapPart_codeErr (s : State) (n : Nat) (f : Part → Part) : (s.mapPart n f).codeErr = s.codeErr := rfl
@[simp] theorem State.mapPart_cplBad (s : State) (n : Nat) (f : Part → Part) : (s.mapPart n f).cplBad = s.cplBad := rfl
@[simp] theorem State.mapPart_takeSeq (s : State) (n : Nat) (f : Part → Part) : (s.mapPart n f).takeSeq = s.takeSeq := rfl
@[simp] theorem State.mapPart_engSeed (s : State) (n : Nat) (f : Part → Part) : (s.mapPart n f).engSeed = s.engSeed := rfl
@[simp] theorem State.mapPart_resvs (s : State) (n : Nat) (f : Part → Part) : (s.mapPart n f).resvs = s.resvs := rfl
@[simp] theorem State.mapPart_hbm (s : State) (n : Nat) (f : Part → Part) : (s.mapPart n f).hbm = s.hbm := rfl
@[simp] theorem State.mapPart_memStat (s : State) (n : Nat) (f : Part → Part) : (s.mapPart n f).memStat = s.memStat := rfl
@[simp] theorem State.mapPart_dimms (s : State) (n : Nat) (f : Part → Part) : (s.mapPart n f).dimms = s.dimms := rfl
@[simp] theorem State.mapPart_tlbs (s : State) (n : Nat) (f : Part → Part) : (s.mapPart n f).tlbs = s.tlbs := rfl
@[simp] theorem State.mapPart_engTlbs (s : State) (n : Nat) (f : Part → Part) : (s.mapPart n f).engTlbs = s.engTlbs := rfl
@[simp] theorem State.mapPart_upd (s : State) (n : Nat) (f : Part → Part) : (s.mapPart n f).upd = s.upd := rfl
@[simp] theorem State.mapPart_fltParts (s : State) (n : Nat) (f : Part → Part) : (s.mapPart n f).fltParts = s.fltParts := rfl
@[simp] theorem State.mapPart_flt (s : State) (n : Nat) (f : Part → Part) : (s.mapPart n f).flt = s.flt := rfl
@[simp] theorem State.mapPart_retired (s : State) (n : Nat) (f : Part → Part) : (s.mapPart n f).retired = s.retired := rfl
@[simp] theorem State.mapPart_zeroing (s : State) (n : Nat) (f : Part → Part) : (s.mapPart n f).zeroing = s.zeroing := rfl
@[simp] theorem State.mapPart_fab (s : State) (n : Nat) (f : Part → Part) : (s.mapPart n f).fab = s.fab := rfl
@[simp] theorem State.mapPart_colls (s : State) (n : Nat) (f : Part → Part) : (s.mapPart n f).colls = s.colls := rfl
@[simp] theorem State.mapPart_serves (s : State) (n : Nat) (f : Part → Part) : (s.mapPart n f).serves = s.serves := rfl
@[simp] theorem State.mapPart_pwr (s : State) (n : Nat) (f : Part → Part) : (s.mapPart n f).pwr = s.pwr := rfl
@[simp] theorem State.mapPart_mram (s : State) (n : Nat) (f : Part → Part) : (s.mapPart n f).mram = s.mram := rfl
@[simp] theorem State.mapPart_boot (s : State) (n : Nat) (f : Part → Part) : (s.mapPart n f).boot = s.boot := rfl
@[simp] theorem State.mapPart_sup (s : State) (n : Nat) (f : Part → Part) : (s.mapPart n f).sup = s.sup := rfl
@[simp] theorem State.mapPart_ltime (s : State) (n : Nat) (f : Part → Part) : (s.mapPart n f).ltime = s.ltime := rfl
@[simp] theorem State.mapPart_free (s : State) (n : Nat) (f : Part → Part) : (s.mapPart n f).free = s.free := rfl
@[simp] theorem State.mapPart_busData (s : State) (n : Nat) (f : Part → Part) : (s.mapPart n f).busData = s.busData := rfl
@[simp] theorem State.mapPart_pending (s : State) (n : Nat) (f : Part → Part) : (s.mapPart n f).pending = s.pending := rfl

/-! State.setHport writes hports only. -/
@[simp] theorem State.setHport_cores (s : State) (n : Nat) (p : HostPort) : (s.setHport n p).cores = s.cores := rfl
@[simp] theorem State.setHport_clusters (s : State) (n : Nat) (p : HostPort) : (s.setHport n p).clusters = s.clusters := rfl
@[simp] theorem State.setHport_parts (s : State) (n : Nat) (p : HostPort) : (s.setHport n p).parts = s.parts := rfl
@[simp] theorem State.setHport_hpParts (s : State) (n : Nat) (p : HostPort) : (s.setHport n p).hpParts = s.hpParts := rfl
@[simp] theorem State.setHport_mgmt (s : State) (n : Nat) (p : HostPort) : (s.setHport n p).mgmt = s.mgmt := rfl
@[simp] theorem State.setHport_autofail (s : State) (n : Nat) (p : HostPort) : (s.setHport n p).autofail = s.autofail := rfl
@[simp] theorem State.setHport_moves (s : State) (n : Nat) (p : HostPort) : (s.setHport n p).moves = s.moves := rfl
@[simp] theorem State.setHport_mgmtPend (s : State) (n : Nat) (p : HostPort) : (s.setHport n p).mgmtPend = s.mgmtPend := rfl
@[simp] theorem State.setHport_mem (s : State) (n : Nat) (p : HostPort) : (s.setHport n p).mem = s.mem := rfl
@[simp] theorem State.setHport_poison (s : State) (n : Nat) (p : HostPort) : (s.setHport n p).poison = s.poison := rfl
@[simp] theorem State.setHport_cv (s : State) (n : Nat) (p : HostPort) : (s.setHport n p).cv = s.cv := rfl
@[simp] theorem State.setHport_codeErr (s : State) (n : Nat) (p : HostPort) : (s.setHport n p).codeErr = s.codeErr := rfl
@[simp] theorem State.setHport_cplBad (s : State) (n : Nat) (p : HostPort) : (s.setHport n p).cplBad = s.cplBad := rfl
@[simp] theorem State.setHport_takeSeq (s : State) (n : Nat) (p : HostPort) : (s.setHport n p).takeSeq = s.takeSeq := rfl
@[simp] theorem State.setHport_engSeed (s : State) (n : Nat) (p : HostPort) : (s.setHport n p).engSeed = s.engSeed := rfl
@[simp] theorem State.setHport_resvs (s : State) (n : Nat) (p : HostPort) : (s.setHport n p).resvs = s.resvs := rfl
@[simp] theorem State.setHport_hbm (s : State) (n : Nat) (p : HostPort) : (s.setHport n p).hbm = s.hbm := rfl
@[simp] theorem State.setHport_memStat (s : State) (n : Nat) (p : HostPort) : (s.setHport n p).memStat = s.memStat := rfl
@[simp] theorem State.setHport_dimms (s : State) (n : Nat) (p : HostPort) : (s.setHport n p).dimms = s.dimms := rfl
@[simp] theorem State.setHport_tlbs (s : State) (n : Nat) (p : HostPort) : (s.setHport n p).tlbs = s.tlbs := rfl
@[simp] theorem State.setHport_engTlbs (s : State) (n : Nat) (p : HostPort) : (s.setHport n p).engTlbs = s.engTlbs := rfl
@[simp] theorem State.setHport_upd (s : State) (n : Nat) (p : HostPort) : (s.setHport n p).upd = s.upd := rfl
@[simp] theorem State.setHport_fltParts (s : State) (n : Nat) (p : HostPort) : (s.setHport n p).fltParts = s.fltParts := rfl
@[simp] theorem State.setHport_flt (s : State) (n : Nat) (p : HostPort) : (s.setHport n p).flt = s.flt := rfl
@[simp] theorem State.setHport_retired (s : State) (n : Nat) (p : HostPort) : (s.setHport n p).retired = s.retired := rfl
@[simp] theorem State.setHport_zeroing (s : State) (n : Nat) (p : HostPort) : (s.setHport n p).zeroing = s.zeroing := rfl
@[simp] theorem State.setHport_fab (s : State) (n : Nat) (p : HostPort) : (s.setHport n p).fab = s.fab := rfl
@[simp] theorem State.setHport_colls (s : State) (n : Nat) (p : HostPort) : (s.setHport n p).colls = s.colls := rfl
@[simp] theorem State.setHport_serves (s : State) (n : Nat) (p : HostPort) : (s.setHport n p).serves = s.serves := rfl
@[simp] theorem State.setHport_pwr (s : State) (n : Nat) (p : HostPort) : (s.setHport n p).pwr = s.pwr := rfl
@[simp] theorem State.setHport_mram (s : State) (n : Nat) (p : HostPort) : (s.setHport n p).mram = s.mram := rfl
@[simp] theorem State.setHport_boot (s : State) (n : Nat) (p : HostPort) : (s.setHport n p).boot = s.boot := rfl
@[simp] theorem State.setHport_sup (s : State) (n : Nat) (p : HostPort) : (s.setHport n p).sup = s.sup := rfl
@[simp] theorem State.setHport_ltime (s : State) (n : Nat) (p : HostPort) : (s.setHport n p).ltime = s.ltime := rfl
@[simp] theorem State.setHport_free (s : State) (n : Nat) (p : HostPort) : (s.setHport n p).free = s.free := rfl
@[simp] theorem State.setHport_busData (s : State) (n : Nat) (p : HostPort) : (s.setHport n p).busData = s.busData := rfl
@[simp] theorem State.setHport_pending (s : State) (n : Nat) (p : HostPort) : (s.setHport n p).pending = s.pending := rfl

/-! State.setRing writes hports only. -/
@[simp] theorem State.setRing_cores (s : State) (port n : Nat) (r : Ring) : (s.setRing port n r).cores = s.cores := rfl
@[simp] theorem State.setRing_clusters (s : State) (port n : Nat) (r : Ring) : (s.setRing port n r).clusters = s.clusters := rfl
@[simp] theorem State.setRing_parts (s : State) (port n : Nat) (r : Ring) : (s.setRing port n r).parts = s.parts := rfl
@[simp] theorem State.setRing_hpParts (s : State) (port n : Nat) (r : Ring) : (s.setRing port n r).hpParts = s.hpParts := rfl
@[simp] theorem State.setRing_mgmt (s : State) (port n : Nat) (r : Ring) : (s.setRing port n r).mgmt = s.mgmt := rfl
@[simp] theorem State.setRing_autofail (s : State) (port n : Nat) (r : Ring) : (s.setRing port n r).autofail = s.autofail := rfl
@[simp] theorem State.setRing_moves (s : State) (port n : Nat) (r : Ring) : (s.setRing port n r).moves = s.moves := rfl
@[simp] theorem State.setRing_mgmtPend (s : State) (port n : Nat) (r : Ring) : (s.setRing port n r).mgmtPend = s.mgmtPend := rfl
@[simp] theorem State.setRing_mem (s : State) (port n : Nat) (r : Ring) : (s.setRing port n r).mem = s.mem := rfl
@[simp] theorem State.setRing_poison (s : State) (port n : Nat) (r : Ring) : (s.setRing port n r).poison = s.poison := rfl
@[simp] theorem State.setRing_cv (s : State) (port n : Nat) (r : Ring) : (s.setRing port n r).cv = s.cv := rfl
@[simp] theorem State.setRing_codeErr (s : State) (port n : Nat) (r : Ring) : (s.setRing port n r).codeErr = s.codeErr := rfl
@[simp] theorem State.setRing_cplBad (s : State) (port n : Nat) (r : Ring) : (s.setRing port n r).cplBad = s.cplBad := rfl
@[simp] theorem State.setRing_takeSeq (s : State) (port n : Nat) (r : Ring) : (s.setRing port n r).takeSeq = s.takeSeq := rfl
@[simp] theorem State.setRing_engSeed (s : State) (port n : Nat) (r : Ring) : (s.setRing port n r).engSeed = s.engSeed := rfl
@[simp] theorem State.setRing_resvs (s : State) (port n : Nat) (r : Ring) : (s.setRing port n r).resvs = s.resvs := rfl
@[simp] theorem State.setRing_hbm (s : State) (port n : Nat) (r : Ring) : (s.setRing port n r).hbm = s.hbm := rfl
@[simp] theorem State.setRing_memStat (s : State) (port n : Nat) (r : Ring) : (s.setRing port n r).memStat = s.memStat := rfl
@[simp] theorem State.setRing_dimms (s : State) (port n : Nat) (r : Ring) : (s.setRing port n r).dimms = s.dimms := rfl
@[simp] theorem State.setRing_tlbs (s : State) (port n : Nat) (r : Ring) : (s.setRing port n r).tlbs = s.tlbs := rfl
@[simp] theorem State.setRing_engTlbs (s : State) (port n : Nat) (r : Ring) : (s.setRing port n r).engTlbs = s.engTlbs := rfl
@[simp] theorem State.setRing_upd (s : State) (port n : Nat) (r : Ring) : (s.setRing port n r).upd = s.upd := rfl
@[simp] theorem State.setRing_fltParts (s : State) (port n : Nat) (r : Ring) : (s.setRing port n r).fltParts = s.fltParts := rfl
@[simp] theorem State.setRing_flt (s : State) (port n : Nat) (r : Ring) : (s.setRing port n r).flt = s.flt := rfl
@[simp] theorem State.setRing_retired (s : State) (port n : Nat) (r : Ring) : (s.setRing port n r).retired = s.retired := rfl
@[simp] theorem State.setRing_zeroing (s : State) (port n : Nat) (r : Ring) : (s.setRing port n r).zeroing = s.zeroing := rfl
@[simp] theorem State.setRing_fab (s : State) (port n : Nat) (r : Ring) : (s.setRing port n r).fab = s.fab := rfl
@[simp] theorem State.setRing_colls (s : State) (port n : Nat) (r : Ring) : (s.setRing port n r).colls = s.colls := rfl
@[simp] theorem State.setRing_serves (s : State) (port n : Nat) (r : Ring) : (s.setRing port n r).serves = s.serves := rfl
@[simp] theorem State.setRing_pwr (s : State) (port n : Nat) (r : Ring) : (s.setRing port n r).pwr = s.pwr := rfl
@[simp] theorem State.setRing_mram (s : State) (port n : Nat) (r : Ring) : (s.setRing port n r).mram = s.mram := rfl
@[simp] theorem State.setRing_boot (s : State) (port n : Nat) (r : Ring) : (s.setRing port n r).boot = s.boot := rfl
@[simp] theorem State.setRing_sup (s : State) (port n : Nat) (r : Ring) : (s.setRing port n r).sup = s.sup := rfl
@[simp] theorem State.setRing_ltime (s : State) (port n : Nat) (r : Ring) : (s.setRing port n r).ltime = s.ltime := rfl
@[simp] theorem State.setRing_free (s : State) (port n : Nat) (r : Ring) : (s.setRing port n r).free = s.free := rfl
@[simp] theorem State.setRing_busData (s : State) (port n : Nat) (r : Ring) : (s.setRing port n r).busData = s.busData := rfl
@[simp] theorem State.setRing_pending (s : State) (port n : Nat) (r : Ring) : (s.setRing port n r).pending = s.pending := rfl

/-! State.mapRing writes hports only. -/
@[simp] theorem State.mapRing_cores (s : State) (port n : Nat) (f : Ring → Ring) : (s.mapRing port n f).cores = s.cores := rfl
@[simp] theorem State.mapRing_clusters (s : State) (port n : Nat) (f : Ring → Ring) : (s.mapRing port n f).clusters = s.clusters := rfl
@[simp] theorem State.mapRing_parts (s : State) (port n : Nat) (f : Ring → Ring) : (s.mapRing port n f).parts = s.parts := rfl
@[simp] theorem State.mapRing_hpParts (s : State) (port n : Nat) (f : Ring → Ring) : (s.mapRing port n f).hpParts = s.hpParts := rfl
@[simp] theorem State.mapRing_mgmt (s : State) (port n : Nat) (f : Ring → Ring) : (s.mapRing port n f).mgmt = s.mgmt := rfl
@[simp] theorem State.mapRing_autofail (s : State) (port n : Nat) (f : Ring → Ring) : (s.mapRing port n f).autofail = s.autofail := rfl
@[simp] theorem State.mapRing_moves (s : State) (port n : Nat) (f : Ring → Ring) : (s.mapRing port n f).moves = s.moves := rfl
@[simp] theorem State.mapRing_mgmtPend (s : State) (port n : Nat) (f : Ring → Ring) : (s.mapRing port n f).mgmtPend = s.mgmtPend := rfl
@[simp] theorem State.mapRing_mem (s : State) (port n : Nat) (f : Ring → Ring) : (s.mapRing port n f).mem = s.mem := rfl
@[simp] theorem State.mapRing_poison (s : State) (port n : Nat) (f : Ring → Ring) : (s.mapRing port n f).poison = s.poison := rfl
@[simp] theorem State.mapRing_cv (s : State) (port n : Nat) (f : Ring → Ring) : (s.mapRing port n f).cv = s.cv := rfl
@[simp] theorem State.mapRing_codeErr (s : State) (port n : Nat) (f : Ring → Ring) : (s.mapRing port n f).codeErr = s.codeErr := rfl
@[simp] theorem State.mapRing_cplBad (s : State) (port n : Nat) (f : Ring → Ring) : (s.mapRing port n f).cplBad = s.cplBad := rfl
@[simp] theorem State.mapRing_takeSeq (s : State) (port n : Nat) (f : Ring → Ring) : (s.mapRing port n f).takeSeq = s.takeSeq := rfl
@[simp] theorem State.mapRing_engSeed (s : State) (port n : Nat) (f : Ring → Ring) : (s.mapRing port n f).engSeed = s.engSeed := rfl
@[simp] theorem State.mapRing_resvs (s : State) (port n : Nat) (f : Ring → Ring) : (s.mapRing port n f).resvs = s.resvs := rfl
@[simp] theorem State.mapRing_hbm (s : State) (port n : Nat) (f : Ring → Ring) : (s.mapRing port n f).hbm = s.hbm := rfl
@[simp] theorem State.mapRing_memStat (s : State) (port n : Nat) (f : Ring → Ring) : (s.mapRing port n f).memStat = s.memStat := rfl
@[simp] theorem State.mapRing_dimms (s : State) (port n : Nat) (f : Ring → Ring) : (s.mapRing port n f).dimms = s.dimms := rfl
@[simp] theorem State.mapRing_tlbs (s : State) (port n : Nat) (f : Ring → Ring) : (s.mapRing port n f).tlbs = s.tlbs := rfl
@[simp] theorem State.mapRing_engTlbs (s : State) (port n : Nat) (f : Ring → Ring) : (s.mapRing port n f).engTlbs = s.engTlbs := rfl
@[simp] theorem State.mapRing_upd (s : State) (port n : Nat) (f : Ring → Ring) : (s.mapRing port n f).upd = s.upd := rfl
@[simp] theorem State.mapRing_fltParts (s : State) (port n : Nat) (f : Ring → Ring) : (s.mapRing port n f).fltParts = s.fltParts := rfl
@[simp] theorem State.mapRing_flt (s : State) (port n : Nat) (f : Ring → Ring) : (s.mapRing port n f).flt = s.flt := rfl
@[simp] theorem State.mapRing_retired (s : State) (port n : Nat) (f : Ring → Ring) : (s.mapRing port n f).retired = s.retired := rfl
@[simp] theorem State.mapRing_zeroing (s : State) (port n : Nat) (f : Ring → Ring) : (s.mapRing port n f).zeroing = s.zeroing := rfl
@[simp] theorem State.mapRing_fab (s : State) (port n : Nat) (f : Ring → Ring) : (s.mapRing port n f).fab = s.fab := rfl
@[simp] theorem State.mapRing_colls (s : State) (port n : Nat) (f : Ring → Ring) : (s.mapRing port n f).colls = s.colls := rfl
@[simp] theorem State.mapRing_serves (s : State) (port n : Nat) (f : Ring → Ring) : (s.mapRing port n f).serves = s.serves := rfl
@[simp] theorem State.mapRing_pwr (s : State) (port n : Nat) (f : Ring → Ring) : (s.mapRing port n f).pwr = s.pwr := rfl
@[simp] theorem State.mapRing_mram (s : State) (port n : Nat) (f : Ring → Ring) : (s.mapRing port n f).mram = s.mram := rfl
@[simp] theorem State.mapRing_boot (s : State) (port n : Nat) (f : Ring → Ring) : (s.mapRing port n f).boot = s.boot := rfl
@[simp] theorem State.mapRing_sup (s : State) (port n : Nat) (f : Ring → Ring) : (s.mapRing port n f).sup = s.sup := rfl
@[simp] theorem State.mapRing_ltime (s : State) (port n : Nat) (f : Ring → Ring) : (s.mapRing port n f).ltime = s.ltime := rfl
@[simp] theorem State.mapRing_free (s : State) (port n : Nat) (f : Ring → Ring) : (s.mapRing port n f).free = s.free := rfl
@[simp] theorem State.mapRing_busData (s : State) (port n : Nat) (f : Ring → Ring) : (s.mapRing port n f).busData = s.busData := rfl
@[simp] theorem State.mapRing_pending (s : State) (port n : Nat) (f : Ring → Ring) : (s.mapRing port n f).pending = s.pending := rfl

/-! State.setFunc writes hports only. -/
@[simp] theorem State.setFunc_cores (s : State) (port n : Nat) (x : HFunc) : (s.setFunc port n x).cores = s.cores := rfl
@[simp] theorem State.setFunc_clusters (s : State) (port n : Nat) (x : HFunc) : (s.setFunc port n x).clusters = s.clusters := rfl
@[simp] theorem State.setFunc_parts (s : State) (port n : Nat) (x : HFunc) : (s.setFunc port n x).parts = s.parts := rfl
@[simp] theorem State.setFunc_hpParts (s : State) (port n : Nat) (x : HFunc) : (s.setFunc port n x).hpParts = s.hpParts := rfl
@[simp] theorem State.setFunc_mgmt (s : State) (port n : Nat) (x : HFunc) : (s.setFunc port n x).mgmt = s.mgmt := rfl
@[simp] theorem State.setFunc_autofail (s : State) (port n : Nat) (x : HFunc) : (s.setFunc port n x).autofail = s.autofail := rfl
@[simp] theorem State.setFunc_moves (s : State) (port n : Nat) (x : HFunc) : (s.setFunc port n x).moves = s.moves := rfl
@[simp] theorem State.setFunc_mgmtPend (s : State) (port n : Nat) (x : HFunc) : (s.setFunc port n x).mgmtPend = s.mgmtPend := rfl
@[simp] theorem State.setFunc_mem (s : State) (port n : Nat) (x : HFunc) : (s.setFunc port n x).mem = s.mem := rfl
@[simp] theorem State.setFunc_poison (s : State) (port n : Nat) (x : HFunc) : (s.setFunc port n x).poison = s.poison := rfl
@[simp] theorem State.setFunc_cv (s : State) (port n : Nat) (x : HFunc) : (s.setFunc port n x).cv = s.cv := rfl
@[simp] theorem State.setFunc_codeErr (s : State) (port n : Nat) (x : HFunc) : (s.setFunc port n x).codeErr = s.codeErr := rfl
@[simp] theorem State.setFunc_cplBad (s : State) (port n : Nat) (x : HFunc) : (s.setFunc port n x).cplBad = s.cplBad := rfl
@[simp] theorem State.setFunc_takeSeq (s : State) (port n : Nat) (x : HFunc) : (s.setFunc port n x).takeSeq = s.takeSeq := rfl
@[simp] theorem State.setFunc_engSeed (s : State) (port n : Nat) (x : HFunc) : (s.setFunc port n x).engSeed = s.engSeed := rfl
@[simp] theorem State.setFunc_resvs (s : State) (port n : Nat) (x : HFunc) : (s.setFunc port n x).resvs = s.resvs := rfl
@[simp] theorem State.setFunc_hbm (s : State) (port n : Nat) (x : HFunc) : (s.setFunc port n x).hbm = s.hbm := rfl
@[simp] theorem State.setFunc_memStat (s : State) (port n : Nat) (x : HFunc) : (s.setFunc port n x).memStat = s.memStat := rfl
@[simp] theorem State.setFunc_dimms (s : State) (port n : Nat) (x : HFunc) : (s.setFunc port n x).dimms = s.dimms := rfl
@[simp] theorem State.setFunc_tlbs (s : State) (port n : Nat) (x : HFunc) : (s.setFunc port n x).tlbs = s.tlbs := rfl
@[simp] theorem State.setFunc_engTlbs (s : State) (port n : Nat) (x : HFunc) : (s.setFunc port n x).engTlbs = s.engTlbs := rfl
@[simp] theorem State.setFunc_upd (s : State) (port n : Nat) (x : HFunc) : (s.setFunc port n x).upd = s.upd := rfl
@[simp] theorem State.setFunc_fltParts (s : State) (port n : Nat) (x : HFunc) : (s.setFunc port n x).fltParts = s.fltParts := rfl
@[simp] theorem State.setFunc_flt (s : State) (port n : Nat) (x : HFunc) : (s.setFunc port n x).flt = s.flt := rfl
@[simp] theorem State.setFunc_retired (s : State) (port n : Nat) (x : HFunc) : (s.setFunc port n x).retired = s.retired := rfl
@[simp] theorem State.setFunc_zeroing (s : State) (port n : Nat) (x : HFunc) : (s.setFunc port n x).zeroing = s.zeroing := rfl
@[simp] theorem State.setFunc_fab (s : State) (port n : Nat) (x : HFunc) : (s.setFunc port n x).fab = s.fab := rfl
@[simp] theorem State.setFunc_colls (s : State) (port n : Nat) (x : HFunc) : (s.setFunc port n x).colls = s.colls := rfl
@[simp] theorem State.setFunc_serves (s : State) (port n : Nat) (x : HFunc) : (s.setFunc port n x).serves = s.serves := rfl
@[simp] theorem State.setFunc_pwr (s : State) (port n : Nat) (x : HFunc) : (s.setFunc port n x).pwr = s.pwr := rfl
@[simp] theorem State.setFunc_mram (s : State) (port n : Nat) (x : HFunc) : (s.setFunc port n x).mram = s.mram := rfl
@[simp] theorem State.setFunc_boot (s : State) (port n : Nat) (x : HFunc) : (s.setFunc port n x).boot = s.boot := rfl
@[simp] theorem State.setFunc_sup (s : State) (port n : Nat) (x : HFunc) : (s.setFunc port n x).sup = s.sup := rfl
@[simp] theorem State.setFunc_ltime (s : State) (port n : Nat) (x : HFunc) : (s.setFunc port n x).ltime = s.ltime := rfl
@[simp] theorem State.setFunc_free (s : State) (port n : Nat) (x : HFunc) : (s.setFunc port n x).free = s.free := rfl
@[simp] theorem State.setFunc_busData (s : State) (port n : Nat) (x : HFunc) : (s.setFunc port n x).busData = s.busData := rfl
@[simp] theorem State.setFunc_pending (s : State) (port n : Nat) (x : HFunc) : (s.setFunc port n x).pending = s.pending := rfl

/-! State.mapFab writes fab only. -/
@[simp] theorem State.mapFab_cores (s : State) (f : Fabric → Fabric) : (s.mapFab f).cores = s.cores := rfl
@[simp] theorem State.mapFab_clusters (s : State) (f : Fabric → Fabric) : (s.mapFab f).clusters = s.clusters := rfl
@[simp] theorem State.mapFab_parts (s : State) (f : Fabric → Fabric) : (s.mapFab f).parts = s.parts := rfl
@[simp] theorem State.mapFab_hports (s : State) (f : Fabric → Fabric) : (s.mapFab f).hports = s.hports := rfl
@[simp] theorem State.mapFab_hpParts (s : State) (f : Fabric → Fabric) : (s.mapFab f).hpParts = s.hpParts := rfl
@[simp] theorem State.mapFab_mgmt (s : State) (f : Fabric → Fabric) : (s.mapFab f).mgmt = s.mgmt := rfl
@[simp] theorem State.mapFab_autofail (s : State) (f : Fabric → Fabric) : (s.mapFab f).autofail = s.autofail := rfl
@[simp] theorem State.mapFab_moves (s : State) (f : Fabric → Fabric) : (s.mapFab f).moves = s.moves := rfl
@[simp] theorem State.mapFab_mgmtPend (s : State) (f : Fabric → Fabric) : (s.mapFab f).mgmtPend = s.mgmtPend := rfl
@[simp] theorem State.mapFab_mem (s : State) (f : Fabric → Fabric) : (s.mapFab f).mem = s.mem := rfl
@[simp] theorem State.mapFab_poison (s : State) (f : Fabric → Fabric) : (s.mapFab f).poison = s.poison := rfl
@[simp] theorem State.mapFab_cv (s : State) (f : Fabric → Fabric) : (s.mapFab f).cv = s.cv := rfl
@[simp] theorem State.mapFab_codeErr (s : State) (f : Fabric → Fabric) : (s.mapFab f).codeErr = s.codeErr := rfl
@[simp] theorem State.mapFab_cplBad (s : State) (f : Fabric → Fabric) : (s.mapFab f).cplBad = s.cplBad := rfl
@[simp] theorem State.mapFab_takeSeq (s : State) (f : Fabric → Fabric) : (s.mapFab f).takeSeq = s.takeSeq := rfl
@[simp] theorem State.mapFab_engSeed (s : State) (f : Fabric → Fabric) : (s.mapFab f).engSeed = s.engSeed := rfl
@[simp] theorem State.mapFab_resvs (s : State) (f : Fabric → Fabric) : (s.mapFab f).resvs = s.resvs := rfl
@[simp] theorem State.mapFab_hbm (s : State) (f : Fabric → Fabric) : (s.mapFab f).hbm = s.hbm := rfl
@[simp] theorem State.mapFab_memStat (s : State) (f : Fabric → Fabric) : (s.mapFab f).memStat = s.memStat := rfl
@[simp] theorem State.mapFab_dimms (s : State) (f : Fabric → Fabric) : (s.mapFab f).dimms = s.dimms := rfl
@[simp] theorem State.mapFab_tlbs (s : State) (f : Fabric → Fabric) : (s.mapFab f).tlbs = s.tlbs := rfl
@[simp] theorem State.mapFab_engTlbs (s : State) (f : Fabric → Fabric) : (s.mapFab f).engTlbs = s.engTlbs := rfl
@[simp] theorem State.mapFab_upd (s : State) (f : Fabric → Fabric) : (s.mapFab f).upd = s.upd := rfl
@[simp] theorem State.mapFab_fltParts (s : State) (f : Fabric → Fabric) : (s.mapFab f).fltParts = s.fltParts := rfl
@[simp] theorem State.mapFab_flt (s : State) (f : Fabric → Fabric) : (s.mapFab f).flt = s.flt := rfl
@[simp] theorem State.mapFab_retired (s : State) (f : Fabric → Fabric) : (s.mapFab f).retired = s.retired := rfl
@[simp] theorem State.mapFab_zeroing (s : State) (f : Fabric → Fabric) : (s.mapFab f).zeroing = s.zeroing := rfl
@[simp] theorem State.mapFab_colls (s : State) (f : Fabric → Fabric) : (s.mapFab f).colls = s.colls := rfl
@[simp] theorem State.mapFab_serves (s : State) (f : Fabric → Fabric) : (s.mapFab f).serves = s.serves := rfl
@[simp] theorem State.mapFab_pwr (s : State) (f : Fabric → Fabric) : (s.mapFab f).pwr = s.pwr := rfl
@[simp] theorem State.mapFab_mram (s : State) (f : Fabric → Fabric) : (s.mapFab f).mram = s.mram := rfl
@[simp] theorem State.mapFab_boot (s : State) (f : Fabric → Fabric) : (s.mapFab f).boot = s.boot := rfl
@[simp] theorem State.mapFab_sup (s : State) (f : Fabric → Fabric) : (s.mapFab f).sup = s.sup := rfl
@[simp] theorem State.mapFab_ltime (s : State) (f : Fabric → Fabric) : (s.mapFab f).ltime = s.ltime := rfl
@[simp] theorem State.mapFab_free (s : State) (f : Fabric → Fabric) : (s.mapFab f).free = s.free := rfl
@[simp] theorem State.mapFab_busData (s : State) (f : Fabric → Fabric) : (s.mapFab f).busData = s.busData := rfl
@[simp] theorem State.mapFab_pending (s : State) (f : Fabric → Fabric) : (s.mapFab f).pending = s.pending := rfl

/-! State.mapFlt writes flt only. -/
@[simp] theorem State.mapFlt_cores (s : State) (f : Flt → Flt) : (s.mapFlt f).cores = s.cores := rfl
@[simp] theorem State.mapFlt_clusters (s : State) (f : Flt → Flt) : (s.mapFlt f).clusters = s.clusters := rfl
@[simp] theorem State.mapFlt_parts (s : State) (f : Flt → Flt) : (s.mapFlt f).parts = s.parts := rfl
@[simp] theorem State.mapFlt_hports (s : State) (f : Flt → Flt) : (s.mapFlt f).hports = s.hports := rfl
@[simp] theorem State.mapFlt_hpParts (s : State) (f : Flt → Flt) : (s.mapFlt f).hpParts = s.hpParts := rfl
@[simp] theorem State.mapFlt_mgmt (s : State) (f : Flt → Flt) : (s.mapFlt f).mgmt = s.mgmt := rfl
@[simp] theorem State.mapFlt_autofail (s : State) (f : Flt → Flt) : (s.mapFlt f).autofail = s.autofail := rfl
@[simp] theorem State.mapFlt_moves (s : State) (f : Flt → Flt) : (s.mapFlt f).moves = s.moves := rfl
@[simp] theorem State.mapFlt_mgmtPend (s : State) (f : Flt → Flt) : (s.mapFlt f).mgmtPend = s.mgmtPend := rfl
@[simp] theorem State.mapFlt_mem (s : State) (f : Flt → Flt) : (s.mapFlt f).mem = s.mem := rfl
@[simp] theorem State.mapFlt_poison (s : State) (f : Flt → Flt) : (s.mapFlt f).poison = s.poison := rfl
@[simp] theorem State.mapFlt_cv (s : State) (f : Flt → Flt) : (s.mapFlt f).cv = s.cv := rfl
@[simp] theorem State.mapFlt_codeErr (s : State) (f : Flt → Flt) : (s.mapFlt f).codeErr = s.codeErr := rfl
@[simp] theorem State.mapFlt_cplBad (s : State) (f : Flt → Flt) : (s.mapFlt f).cplBad = s.cplBad := rfl
@[simp] theorem State.mapFlt_takeSeq (s : State) (f : Flt → Flt) : (s.mapFlt f).takeSeq = s.takeSeq := rfl
@[simp] theorem State.mapFlt_engSeed (s : State) (f : Flt → Flt) : (s.mapFlt f).engSeed = s.engSeed := rfl
@[simp] theorem State.mapFlt_resvs (s : State) (f : Flt → Flt) : (s.mapFlt f).resvs = s.resvs := rfl
@[simp] theorem State.mapFlt_hbm (s : State) (f : Flt → Flt) : (s.mapFlt f).hbm = s.hbm := rfl
@[simp] theorem State.mapFlt_memStat (s : State) (f : Flt → Flt) : (s.mapFlt f).memStat = s.memStat := rfl
@[simp] theorem State.mapFlt_dimms (s : State) (f : Flt → Flt) : (s.mapFlt f).dimms = s.dimms := rfl
@[simp] theorem State.mapFlt_tlbs (s : State) (f : Flt → Flt) : (s.mapFlt f).tlbs = s.tlbs := rfl
@[simp] theorem State.mapFlt_engTlbs (s : State) (f : Flt → Flt) : (s.mapFlt f).engTlbs = s.engTlbs := rfl
@[simp] theorem State.mapFlt_upd (s : State) (f : Flt → Flt) : (s.mapFlt f).upd = s.upd := rfl
@[simp] theorem State.mapFlt_fltParts (s : State) (f : Flt → Flt) : (s.mapFlt f).fltParts = s.fltParts := rfl
@[simp] theorem State.mapFlt_retired (s : State) (f : Flt → Flt) : (s.mapFlt f).retired = s.retired := rfl
@[simp] theorem State.mapFlt_zeroing (s : State) (f : Flt → Flt) : (s.mapFlt f).zeroing = s.zeroing := rfl
@[simp] theorem State.mapFlt_fab (s : State) (f : Flt → Flt) : (s.mapFlt f).fab = s.fab := rfl
@[simp] theorem State.mapFlt_colls (s : State) (f : Flt → Flt) : (s.mapFlt f).colls = s.colls := rfl
@[simp] theorem State.mapFlt_serves (s : State) (f : Flt → Flt) : (s.mapFlt f).serves = s.serves := rfl
@[simp] theorem State.mapFlt_pwr (s : State) (f : Flt → Flt) : (s.mapFlt f).pwr = s.pwr := rfl
@[simp] theorem State.mapFlt_mram (s : State) (f : Flt → Flt) : (s.mapFlt f).mram = s.mram := rfl
@[simp] theorem State.mapFlt_boot (s : State) (f : Flt → Flt) : (s.mapFlt f).boot = s.boot := rfl
@[simp] theorem State.mapFlt_sup (s : State) (f : Flt → Flt) : (s.mapFlt f).sup = s.sup := rfl
@[simp] theorem State.mapFlt_ltime (s : State) (f : Flt → Flt) : (s.mapFlt f).ltime = s.ltime := rfl
@[simp] theorem State.mapFlt_free (s : State) (f : Flt → Flt) : (s.mapFlt f).free = s.free := rfl
@[simp] theorem State.mapFlt_busData (s : State) (f : Flt → Flt) : (s.mapFlt f).busData = s.busData := rfl
@[simp] theorem State.mapFlt_pending (s : State) (f : Flt → Flt) : (s.mapFlt f).pending = s.pending := rfl

/-! State.mapBoot writes boot only. -/
@[simp] theorem State.mapBoot_cores (s : State) (f : Boot → Boot) : (s.mapBoot f).cores = s.cores := rfl
@[simp] theorem State.mapBoot_clusters (s : State) (f : Boot → Boot) : (s.mapBoot f).clusters = s.clusters := rfl
@[simp] theorem State.mapBoot_parts (s : State) (f : Boot → Boot) : (s.mapBoot f).parts = s.parts := rfl
@[simp] theorem State.mapBoot_hports (s : State) (f : Boot → Boot) : (s.mapBoot f).hports = s.hports := rfl
@[simp] theorem State.mapBoot_hpParts (s : State) (f : Boot → Boot) : (s.mapBoot f).hpParts = s.hpParts := rfl
@[simp] theorem State.mapBoot_mgmt (s : State) (f : Boot → Boot) : (s.mapBoot f).mgmt = s.mgmt := rfl
@[simp] theorem State.mapBoot_autofail (s : State) (f : Boot → Boot) : (s.mapBoot f).autofail = s.autofail := rfl
@[simp] theorem State.mapBoot_moves (s : State) (f : Boot → Boot) : (s.mapBoot f).moves = s.moves := rfl
@[simp] theorem State.mapBoot_mgmtPend (s : State) (f : Boot → Boot) : (s.mapBoot f).mgmtPend = s.mgmtPend := rfl
@[simp] theorem State.mapBoot_mem (s : State) (f : Boot → Boot) : (s.mapBoot f).mem = s.mem := rfl
@[simp] theorem State.mapBoot_poison (s : State) (f : Boot → Boot) : (s.mapBoot f).poison = s.poison := rfl
@[simp] theorem State.mapBoot_cv (s : State) (f : Boot → Boot) : (s.mapBoot f).cv = s.cv := rfl
@[simp] theorem State.mapBoot_codeErr (s : State) (f : Boot → Boot) : (s.mapBoot f).codeErr = s.codeErr := rfl
@[simp] theorem State.mapBoot_cplBad (s : State) (f : Boot → Boot) : (s.mapBoot f).cplBad = s.cplBad := rfl
@[simp] theorem State.mapBoot_takeSeq (s : State) (f : Boot → Boot) : (s.mapBoot f).takeSeq = s.takeSeq := rfl
@[simp] theorem State.mapBoot_engSeed (s : State) (f : Boot → Boot) : (s.mapBoot f).engSeed = s.engSeed := rfl
@[simp] theorem State.mapBoot_resvs (s : State) (f : Boot → Boot) : (s.mapBoot f).resvs = s.resvs := rfl
@[simp] theorem State.mapBoot_hbm (s : State) (f : Boot → Boot) : (s.mapBoot f).hbm = s.hbm := rfl
@[simp] theorem State.mapBoot_memStat (s : State) (f : Boot → Boot) : (s.mapBoot f).memStat = s.memStat := rfl
@[simp] theorem State.mapBoot_dimms (s : State) (f : Boot → Boot) : (s.mapBoot f).dimms = s.dimms := rfl
@[simp] theorem State.mapBoot_tlbs (s : State) (f : Boot → Boot) : (s.mapBoot f).tlbs = s.tlbs := rfl
@[simp] theorem State.mapBoot_engTlbs (s : State) (f : Boot → Boot) : (s.mapBoot f).engTlbs = s.engTlbs := rfl
@[simp] theorem State.mapBoot_upd (s : State) (f : Boot → Boot) : (s.mapBoot f).upd = s.upd := rfl
@[simp] theorem State.mapBoot_fltParts (s : State) (f : Boot → Boot) : (s.mapBoot f).fltParts = s.fltParts := rfl
@[simp] theorem State.mapBoot_flt (s : State) (f : Boot → Boot) : (s.mapBoot f).flt = s.flt := rfl
@[simp] theorem State.mapBoot_retired (s : State) (f : Boot → Boot) : (s.mapBoot f).retired = s.retired := rfl
@[simp] theorem State.mapBoot_zeroing (s : State) (f : Boot → Boot) : (s.mapBoot f).zeroing = s.zeroing := rfl
@[simp] theorem State.mapBoot_fab (s : State) (f : Boot → Boot) : (s.mapBoot f).fab = s.fab := rfl
@[simp] theorem State.mapBoot_colls (s : State) (f : Boot → Boot) : (s.mapBoot f).colls = s.colls := rfl
@[simp] theorem State.mapBoot_serves (s : State) (f : Boot → Boot) : (s.mapBoot f).serves = s.serves := rfl
@[simp] theorem State.mapBoot_pwr (s : State) (f : Boot → Boot) : (s.mapBoot f).pwr = s.pwr := rfl
@[simp] theorem State.mapBoot_mram (s : State) (f : Boot → Boot) : (s.mapBoot f).mram = s.mram := rfl
@[simp] theorem State.mapBoot_sup (s : State) (f : Boot → Boot) : (s.mapBoot f).sup = s.sup := rfl
@[simp] theorem State.mapBoot_ltime (s : State) (f : Boot → Boot) : (s.mapBoot f).ltime = s.ltime := rfl
@[simp] theorem State.mapBoot_free (s : State) (f : Boot → Boot) : (s.mapBoot f).free = s.free := rfl
@[simp] theorem State.mapBoot_busData (s : State) (f : Boot → Boot) : (s.mapBoot f).busData = s.busData := rfl
@[simp] theorem State.mapBoot_pending (s : State) (f : Boot → Boot) : (s.mapBoot f).pending = s.pending := rfl

/-! State.mapMram writes mram only. -/
@[simp] theorem State.mapMram_cores (s : State) (f : Mram → Mram) : (s.mapMram f).cores = s.cores := rfl
@[simp] theorem State.mapMram_clusters (s : State) (f : Mram → Mram) : (s.mapMram f).clusters = s.clusters := rfl
@[simp] theorem State.mapMram_parts (s : State) (f : Mram → Mram) : (s.mapMram f).parts = s.parts := rfl
@[simp] theorem State.mapMram_hports (s : State) (f : Mram → Mram) : (s.mapMram f).hports = s.hports := rfl
@[simp] theorem State.mapMram_hpParts (s : State) (f : Mram → Mram) : (s.mapMram f).hpParts = s.hpParts := rfl
@[simp] theorem State.mapMram_mgmt (s : State) (f : Mram → Mram) : (s.mapMram f).mgmt = s.mgmt := rfl
@[simp] theorem State.mapMram_autofail (s : State) (f : Mram → Mram) : (s.mapMram f).autofail = s.autofail := rfl
@[simp] theorem State.mapMram_moves (s : State) (f : Mram → Mram) : (s.mapMram f).moves = s.moves := rfl
@[simp] theorem State.mapMram_mgmtPend (s : State) (f : Mram → Mram) : (s.mapMram f).mgmtPend = s.mgmtPend := rfl
@[simp] theorem State.mapMram_mem (s : State) (f : Mram → Mram) : (s.mapMram f).mem = s.mem := rfl
@[simp] theorem State.mapMram_poison (s : State) (f : Mram → Mram) : (s.mapMram f).poison = s.poison := rfl
@[simp] theorem State.mapMram_cv (s : State) (f : Mram → Mram) : (s.mapMram f).cv = s.cv := rfl
@[simp] theorem State.mapMram_codeErr (s : State) (f : Mram → Mram) : (s.mapMram f).codeErr = s.codeErr := rfl
@[simp] theorem State.mapMram_cplBad (s : State) (f : Mram → Mram) : (s.mapMram f).cplBad = s.cplBad := rfl
@[simp] theorem State.mapMram_takeSeq (s : State) (f : Mram → Mram) : (s.mapMram f).takeSeq = s.takeSeq := rfl
@[simp] theorem State.mapMram_engSeed (s : State) (f : Mram → Mram) : (s.mapMram f).engSeed = s.engSeed := rfl
@[simp] theorem State.mapMram_resvs (s : State) (f : Mram → Mram) : (s.mapMram f).resvs = s.resvs := rfl
@[simp] theorem State.mapMram_hbm (s : State) (f : Mram → Mram) : (s.mapMram f).hbm = s.hbm := rfl
@[simp] theorem State.mapMram_memStat (s : State) (f : Mram → Mram) : (s.mapMram f).memStat = s.memStat := rfl
@[simp] theorem State.mapMram_dimms (s : State) (f : Mram → Mram) : (s.mapMram f).dimms = s.dimms := rfl
@[simp] theorem State.mapMram_tlbs (s : State) (f : Mram → Mram) : (s.mapMram f).tlbs = s.tlbs := rfl
@[simp] theorem State.mapMram_engTlbs (s : State) (f : Mram → Mram) : (s.mapMram f).engTlbs = s.engTlbs := rfl
@[simp] theorem State.mapMram_upd (s : State) (f : Mram → Mram) : (s.mapMram f).upd = s.upd := rfl
@[simp] theorem State.mapMram_fltParts (s : State) (f : Mram → Mram) : (s.mapMram f).fltParts = s.fltParts := rfl
@[simp] theorem State.mapMram_flt (s : State) (f : Mram → Mram) : (s.mapMram f).flt = s.flt := rfl
@[simp] theorem State.mapMram_retired (s : State) (f : Mram → Mram) : (s.mapMram f).retired = s.retired := rfl
@[simp] theorem State.mapMram_zeroing (s : State) (f : Mram → Mram) : (s.mapMram f).zeroing = s.zeroing := rfl
@[simp] theorem State.mapMram_fab (s : State) (f : Mram → Mram) : (s.mapMram f).fab = s.fab := rfl
@[simp] theorem State.mapMram_colls (s : State) (f : Mram → Mram) : (s.mapMram f).colls = s.colls := rfl
@[simp] theorem State.mapMram_serves (s : State) (f : Mram → Mram) : (s.mapMram f).serves = s.serves := rfl
@[simp] theorem State.mapMram_pwr (s : State) (f : Mram → Mram) : (s.mapMram f).pwr = s.pwr := rfl
@[simp] theorem State.mapMram_boot (s : State) (f : Mram → Mram) : (s.mapMram f).boot = s.boot := rfl
@[simp] theorem State.mapMram_sup (s : State) (f : Mram → Mram) : (s.mapMram f).sup = s.sup := rfl
@[simp] theorem State.mapMram_ltime (s : State) (f : Mram → Mram) : (s.mapMram f).ltime = s.ltime := rfl
@[simp] theorem State.mapMram_free (s : State) (f : Mram → Mram) : (s.mapMram f).free = s.free := rfl
@[simp] theorem State.mapMram_busData (s : State) (f : Mram → Mram) : (s.mapMram f).busData = s.busData := rfl
@[simp] theorem State.mapMram_pending (s : State) (f : Mram → Mram) : (s.mapMram f).pending = s.pending := rfl

/-! State.mapSup writes sup only. -/
@[simp] theorem State.mapSup_cores (s : State) (f : Sup → Sup) : (s.mapSup f).cores = s.cores := rfl
@[simp] theorem State.mapSup_clusters (s : State) (f : Sup → Sup) : (s.mapSup f).clusters = s.clusters := rfl
@[simp] theorem State.mapSup_parts (s : State) (f : Sup → Sup) : (s.mapSup f).parts = s.parts := rfl
@[simp] theorem State.mapSup_hports (s : State) (f : Sup → Sup) : (s.mapSup f).hports = s.hports := rfl
@[simp] theorem State.mapSup_hpParts (s : State) (f : Sup → Sup) : (s.mapSup f).hpParts = s.hpParts := rfl
@[simp] theorem State.mapSup_mgmt (s : State) (f : Sup → Sup) : (s.mapSup f).mgmt = s.mgmt := rfl
@[simp] theorem State.mapSup_autofail (s : State) (f : Sup → Sup) : (s.mapSup f).autofail = s.autofail := rfl
@[simp] theorem State.mapSup_moves (s : State) (f : Sup → Sup) : (s.mapSup f).moves = s.moves := rfl
@[simp] theorem State.mapSup_mgmtPend (s : State) (f : Sup → Sup) : (s.mapSup f).mgmtPend = s.mgmtPend := rfl
@[simp] theorem State.mapSup_mem (s : State) (f : Sup → Sup) : (s.mapSup f).mem = s.mem := rfl
@[simp] theorem State.mapSup_poison (s : State) (f : Sup → Sup) : (s.mapSup f).poison = s.poison := rfl
@[simp] theorem State.mapSup_cv (s : State) (f : Sup → Sup) : (s.mapSup f).cv = s.cv := rfl
@[simp] theorem State.mapSup_codeErr (s : State) (f : Sup → Sup) : (s.mapSup f).codeErr = s.codeErr := rfl
@[simp] theorem State.mapSup_cplBad (s : State) (f : Sup → Sup) : (s.mapSup f).cplBad = s.cplBad := rfl
@[simp] theorem State.mapSup_takeSeq (s : State) (f : Sup → Sup) : (s.mapSup f).takeSeq = s.takeSeq := rfl
@[simp] theorem State.mapSup_engSeed (s : State) (f : Sup → Sup) : (s.mapSup f).engSeed = s.engSeed := rfl
@[simp] theorem State.mapSup_resvs (s : State) (f : Sup → Sup) : (s.mapSup f).resvs = s.resvs := rfl
@[simp] theorem State.mapSup_hbm (s : State) (f : Sup → Sup) : (s.mapSup f).hbm = s.hbm := rfl
@[simp] theorem State.mapSup_memStat (s : State) (f : Sup → Sup) : (s.mapSup f).memStat = s.memStat := rfl
@[simp] theorem State.mapSup_dimms (s : State) (f : Sup → Sup) : (s.mapSup f).dimms = s.dimms := rfl
@[simp] theorem State.mapSup_tlbs (s : State) (f : Sup → Sup) : (s.mapSup f).tlbs = s.tlbs := rfl
@[simp] theorem State.mapSup_engTlbs (s : State) (f : Sup → Sup) : (s.mapSup f).engTlbs = s.engTlbs := rfl
@[simp] theorem State.mapSup_upd (s : State) (f : Sup → Sup) : (s.mapSup f).upd = s.upd := rfl
@[simp] theorem State.mapSup_fltParts (s : State) (f : Sup → Sup) : (s.mapSup f).fltParts = s.fltParts := rfl
@[simp] theorem State.mapSup_flt (s : State) (f : Sup → Sup) : (s.mapSup f).flt = s.flt := rfl
@[simp] theorem State.mapSup_retired (s : State) (f : Sup → Sup) : (s.mapSup f).retired = s.retired := rfl
@[simp] theorem State.mapSup_zeroing (s : State) (f : Sup → Sup) : (s.mapSup f).zeroing = s.zeroing := rfl
@[simp] theorem State.mapSup_fab (s : State) (f : Sup → Sup) : (s.mapSup f).fab = s.fab := rfl
@[simp] theorem State.mapSup_colls (s : State) (f : Sup → Sup) : (s.mapSup f).colls = s.colls := rfl
@[simp] theorem State.mapSup_serves (s : State) (f : Sup → Sup) : (s.mapSup f).serves = s.serves := rfl
@[simp] theorem State.mapSup_pwr (s : State) (f : Sup → Sup) : (s.mapSup f).pwr = s.pwr := rfl
@[simp] theorem State.mapSup_mram (s : State) (f : Sup → Sup) : (s.mapSup f).mram = s.mram := rfl
@[simp] theorem State.mapSup_boot (s : State) (f : Sup → Sup) : (s.mapSup f).boot = s.boot := rfl
@[simp] theorem State.mapSup_ltime (s : State) (f : Sup → Sup) : (s.mapSup f).ltime = s.ltime := rfl
@[simp] theorem State.mapSup_free (s : State) (f : Sup → Sup) : (s.mapSup f).free = s.free := rfl
@[simp] theorem State.mapSup_busData (s : State) (f : Sup → Sup) : (s.mapSup f).busData = s.busData := rfl
@[simp] theorem State.mapSup_pending (s : State) (f : Sup → Sup) : (s.mapSup f).pending = s.pending := rfl

/-! State.mapColl writes colls only. -/
@[simp] theorem State.mapColl_cores (s : State) (p : Nat) (f : Coll → Coll) : (s.mapColl p f).cores = s.cores := rfl
@[simp] theorem State.mapColl_clusters (s : State) (p : Nat) (f : Coll → Coll) : (s.mapColl p f).clusters = s.clusters := rfl
@[simp] theorem State.mapColl_parts (s : State) (p : Nat) (f : Coll → Coll) : (s.mapColl p f).parts = s.parts := rfl
@[simp] theorem State.mapColl_hports (s : State) (p : Nat) (f : Coll → Coll) : (s.mapColl p f).hports = s.hports := rfl
@[simp] theorem State.mapColl_hpParts (s : State) (p : Nat) (f : Coll → Coll) : (s.mapColl p f).hpParts = s.hpParts := rfl
@[simp] theorem State.mapColl_mgmt (s : State) (p : Nat) (f : Coll → Coll) : (s.mapColl p f).mgmt = s.mgmt := rfl
@[simp] theorem State.mapColl_autofail (s : State) (p : Nat) (f : Coll → Coll) : (s.mapColl p f).autofail = s.autofail := rfl
@[simp] theorem State.mapColl_moves (s : State) (p : Nat) (f : Coll → Coll) : (s.mapColl p f).moves = s.moves := rfl
@[simp] theorem State.mapColl_mgmtPend (s : State) (p : Nat) (f : Coll → Coll) : (s.mapColl p f).mgmtPend = s.mgmtPend := rfl
@[simp] theorem State.mapColl_mem (s : State) (p : Nat) (f : Coll → Coll) : (s.mapColl p f).mem = s.mem := rfl
@[simp] theorem State.mapColl_poison (s : State) (p : Nat) (f : Coll → Coll) : (s.mapColl p f).poison = s.poison := rfl
@[simp] theorem State.mapColl_cv (s : State) (p : Nat) (f : Coll → Coll) : (s.mapColl p f).cv = s.cv := rfl
@[simp] theorem State.mapColl_codeErr (s : State) (p : Nat) (f : Coll → Coll) : (s.mapColl p f).codeErr = s.codeErr := rfl
@[simp] theorem State.mapColl_cplBad (s : State) (p : Nat) (f : Coll → Coll) : (s.mapColl p f).cplBad = s.cplBad := rfl
@[simp] theorem State.mapColl_takeSeq (s : State) (p : Nat) (f : Coll → Coll) : (s.mapColl p f).takeSeq = s.takeSeq := rfl
@[simp] theorem State.mapColl_engSeed (s : State) (p : Nat) (f : Coll → Coll) : (s.mapColl p f).engSeed = s.engSeed := rfl
@[simp] theorem State.mapColl_resvs (s : State) (p : Nat) (f : Coll → Coll) : (s.mapColl p f).resvs = s.resvs := rfl
@[simp] theorem State.mapColl_hbm (s : State) (p : Nat) (f : Coll → Coll) : (s.mapColl p f).hbm = s.hbm := rfl
@[simp] theorem State.mapColl_memStat (s : State) (p : Nat) (f : Coll → Coll) : (s.mapColl p f).memStat = s.memStat := rfl
@[simp] theorem State.mapColl_dimms (s : State) (p : Nat) (f : Coll → Coll) : (s.mapColl p f).dimms = s.dimms := rfl
@[simp] theorem State.mapColl_tlbs (s : State) (p : Nat) (f : Coll → Coll) : (s.mapColl p f).tlbs = s.tlbs := rfl
@[simp] theorem State.mapColl_engTlbs (s : State) (p : Nat) (f : Coll → Coll) : (s.mapColl p f).engTlbs = s.engTlbs := rfl
@[simp] theorem State.mapColl_upd (s : State) (p : Nat) (f : Coll → Coll) : (s.mapColl p f).upd = s.upd := rfl
@[simp] theorem State.mapColl_fltParts (s : State) (p : Nat) (f : Coll → Coll) : (s.mapColl p f).fltParts = s.fltParts := rfl
@[simp] theorem State.mapColl_flt (s : State) (p : Nat) (f : Coll → Coll) : (s.mapColl p f).flt = s.flt := rfl
@[simp] theorem State.mapColl_retired (s : State) (p : Nat) (f : Coll → Coll) : (s.mapColl p f).retired = s.retired := rfl
@[simp] theorem State.mapColl_zeroing (s : State) (p : Nat) (f : Coll → Coll) : (s.mapColl p f).zeroing = s.zeroing := rfl
@[simp] theorem State.mapColl_fab (s : State) (p : Nat) (f : Coll → Coll) : (s.mapColl p f).fab = s.fab := rfl
@[simp] theorem State.mapColl_serves (s : State) (p : Nat) (f : Coll → Coll) : (s.mapColl p f).serves = s.serves := rfl
@[simp] theorem State.mapColl_pwr (s : State) (p : Nat) (f : Coll → Coll) : (s.mapColl p f).pwr = s.pwr := rfl
@[simp] theorem State.mapColl_mram (s : State) (p : Nat) (f : Coll → Coll) : (s.mapColl p f).mram = s.mram := rfl
@[simp] theorem State.mapColl_boot (s : State) (p : Nat) (f : Coll → Coll) : (s.mapColl p f).boot = s.boot := rfl
@[simp] theorem State.mapColl_sup (s : State) (p : Nat) (f : Coll → Coll) : (s.mapColl p f).sup = s.sup := rfl
@[simp] theorem State.mapColl_ltime (s : State) (p : Nat) (f : Coll → Coll) : (s.mapColl p f).ltime = s.ltime := rfl
@[simp] theorem State.mapColl_free (s : State) (p : Nat) (f : Coll → Coll) : (s.mapColl p f).free = s.free := rfl
@[simp] theorem State.mapColl_busData (s : State) (p : Nat) (f : Coll → Coll) : (s.mapColl p f).busData = s.busData := rfl
@[simp] theorem State.mapColl_pending (s : State) (p : Nat) (f : Coll → Coll) : (s.mapColl p f).pending = s.pending := rfl

/-! State.mapUpd writes upd only. -/
@[simp] theorem State.mapUpd_cores (s : State) (p : Nat) (f : UpdRegs → UpdRegs) : (s.mapUpd p f).cores = s.cores := rfl
@[simp] theorem State.mapUpd_clusters (s : State) (p : Nat) (f : UpdRegs → UpdRegs) : (s.mapUpd p f).clusters = s.clusters := rfl
@[simp] theorem State.mapUpd_parts (s : State) (p : Nat) (f : UpdRegs → UpdRegs) : (s.mapUpd p f).parts = s.parts := rfl
@[simp] theorem State.mapUpd_hports (s : State) (p : Nat) (f : UpdRegs → UpdRegs) : (s.mapUpd p f).hports = s.hports := rfl
@[simp] theorem State.mapUpd_hpParts (s : State) (p : Nat) (f : UpdRegs → UpdRegs) : (s.mapUpd p f).hpParts = s.hpParts := rfl
@[simp] theorem State.mapUpd_mgmt (s : State) (p : Nat) (f : UpdRegs → UpdRegs) : (s.mapUpd p f).mgmt = s.mgmt := rfl
@[simp] theorem State.mapUpd_autofail (s : State) (p : Nat) (f : UpdRegs → UpdRegs) : (s.mapUpd p f).autofail = s.autofail := rfl
@[simp] theorem State.mapUpd_moves (s : State) (p : Nat) (f : UpdRegs → UpdRegs) : (s.mapUpd p f).moves = s.moves := rfl
@[simp] theorem State.mapUpd_mgmtPend (s : State) (p : Nat) (f : UpdRegs → UpdRegs) : (s.mapUpd p f).mgmtPend = s.mgmtPend := rfl
@[simp] theorem State.mapUpd_mem (s : State) (p : Nat) (f : UpdRegs → UpdRegs) : (s.mapUpd p f).mem = s.mem := rfl
@[simp] theorem State.mapUpd_poison (s : State) (p : Nat) (f : UpdRegs → UpdRegs) : (s.mapUpd p f).poison = s.poison := rfl
@[simp] theorem State.mapUpd_cv (s : State) (p : Nat) (f : UpdRegs → UpdRegs) : (s.mapUpd p f).cv = s.cv := rfl
@[simp] theorem State.mapUpd_codeErr (s : State) (p : Nat) (f : UpdRegs → UpdRegs) : (s.mapUpd p f).codeErr = s.codeErr := rfl
@[simp] theorem State.mapUpd_cplBad (s : State) (p : Nat) (f : UpdRegs → UpdRegs) : (s.mapUpd p f).cplBad = s.cplBad := rfl
@[simp] theorem State.mapUpd_takeSeq (s : State) (p : Nat) (f : UpdRegs → UpdRegs) : (s.mapUpd p f).takeSeq = s.takeSeq := rfl
@[simp] theorem State.mapUpd_engSeed (s : State) (p : Nat) (f : UpdRegs → UpdRegs) : (s.mapUpd p f).engSeed = s.engSeed := rfl
@[simp] theorem State.mapUpd_resvs (s : State) (p : Nat) (f : UpdRegs → UpdRegs) : (s.mapUpd p f).resvs = s.resvs := rfl
@[simp] theorem State.mapUpd_hbm (s : State) (p : Nat) (f : UpdRegs → UpdRegs) : (s.mapUpd p f).hbm = s.hbm := rfl
@[simp] theorem State.mapUpd_memStat (s : State) (p : Nat) (f : UpdRegs → UpdRegs) : (s.mapUpd p f).memStat = s.memStat := rfl
@[simp] theorem State.mapUpd_dimms (s : State) (p : Nat) (f : UpdRegs → UpdRegs) : (s.mapUpd p f).dimms = s.dimms := rfl
@[simp] theorem State.mapUpd_tlbs (s : State) (p : Nat) (f : UpdRegs → UpdRegs) : (s.mapUpd p f).tlbs = s.tlbs := rfl
@[simp] theorem State.mapUpd_engTlbs (s : State) (p : Nat) (f : UpdRegs → UpdRegs) : (s.mapUpd p f).engTlbs = s.engTlbs := rfl
@[simp] theorem State.mapUpd_fltParts (s : State) (p : Nat) (f : UpdRegs → UpdRegs) : (s.mapUpd p f).fltParts = s.fltParts := rfl
@[simp] theorem State.mapUpd_flt (s : State) (p : Nat) (f : UpdRegs → UpdRegs) : (s.mapUpd p f).flt = s.flt := rfl
@[simp] theorem State.mapUpd_retired (s : State) (p : Nat) (f : UpdRegs → UpdRegs) : (s.mapUpd p f).retired = s.retired := rfl
@[simp] theorem State.mapUpd_zeroing (s : State) (p : Nat) (f : UpdRegs → UpdRegs) : (s.mapUpd p f).zeroing = s.zeroing := rfl
@[simp] theorem State.mapUpd_fab (s : State) (p : Nat) (f : UpdRegs → UpdRegs) : (s.mapUpd p f).fab = s.fab := rfl
@[simp] theorem State.mapUpd_colls (s : State) (p : Nat) (f : UpdRegs → UpdRegs) : (s.mapUpd p f).colls = s.colls := rfl
@[simp] theorem State.mapUpd_serves (s : State) (p : Nat) (f : UpdRegs → UpdRegs) : (s.mapUpd p f).serves = s.serves := rfl
@[simp] theorem State.mapUpd_pwr (s : State) (p : Nat) (f : UpdRegs → UpdRegs) : (s.mapUpd p f).pwr = s.pwr := rfl
@[simp] theorem State.mapUpd_mram (s : State) (p : Nat) (f : UpdRegs → UpdRegs) : (s.mapUpd p f).mram = s.mram := rfl
@[simp] theorem State.mapUpd_boot (s : State) (p : Nat) (f : UpdRegs → UpdRegs) : (s.mapUpd p f).boot = s.boot := rfl
@[simp] theorem State.mapUpd_sup (s : State) (p : Nat) (f : UpdRegs → UpdRegs) : (s.mapUpd p f).sup = s.sup := rfl
@[simp] theorem State.mapUpd_ltime (s : State) (p : Nat) (f : UpdRegs → UpdRegs) : (s.mapUpd p f).ltime = s.ltime := rfl
@[simp] theorem State.mapUpd_free (s : State) (p : Nat) (f : UpdRegs → UpdRegs) : (s.mapUpd p f).free = s.free := rfl
@[simp] theorem State.mapUpd_busData (s : State) (p : Nat) (f : UpdRegs → UpdRegs) : (s.mapUpd p f).busData = s.busData := rfl
@[simp] theorem State.mapUpd_pending (s : State) (p : Nat) (f : UpdRegs → UpdRegs) : (s.mapUpd p f).pending = s.pending := rfl

/-! State.setServe writes serves only. -/
@[simp] theorem State.setServe_cores (s : State) (p : Nat) (v : Serve) : (s.setServe p v).cores = s.cores := rfl
@[simp] theorem State.setServe_clusters (s : State) (p : Nat) (v : Serve) : (s.setServe p v).clusters = s.clusters := rfl
@[simp] theorem State.setServe_parts (s : State) (p : Nat) (v : Serve) : (s.setServe p v).parts = s.parts := rfl
@[simp] theorem State.setServe_hports (s : State) (p : Nat) (v : Serve) : (s.setServe p v).hports = s.hports := rfl
@[simp] theorem State.setServe_hpParts (s : State) (p : Nat) (v : Serve) : (s.setServe p v).hpParts = s.hpParts := rfl
@[simp] theorem State.setServe_mgmt (s : State) (p : Nat) (v : Serve) : (s.setServe p v).mgmt = s.mgmt := rfl
@[simp] theorem State.setServe_autofail (s : State) (p : Nat) (v : Serve) : (s.setServe p v).autofail = s.autofail := rfl
@[simp] theorem State.setServe_moves (s : State) (p : Nat) (v : Serve) : (s.setServe p v).moves = s.moves := rfl
@[simp] theorem State.setServe_mgmtPend (s : State) (p : Nat) (v : Serve) : (s.setServe p v).mgmtPend = s.mgmtPend := rfl
@[simp] theorem State.setServe_mem (s : State) (p : Nat) (v : Serve) : (s.setServe p v).mem = s.mem := rfl
@[simp] theorem State.setServe_poison (s : State) (p : Nat) (v : Serve) : (s.setServe p v).poison = s.poison := rfl
@[simp] theorem State.setServe_cv (s : State) (p : Nat) (v : Serve) : (s.setServe p v).cv = s.cv := rfl
@[simp] theorem State.setServe_codeErr (s : State) (p : Nat) (v : Serve) : (s.setServe p v).codeErr = s.codeErr := rfl
@[simp] theorem State.setServe_cplBad (s : State) (p : Nat) (v : Serve) : (s.setServe p v).cplBad = s.cplBad := rfl
@[simp] theorem State.setServe_takeSeq (s : State) (p : Nat) (v : Serve) : (s.setServe p v).takeSeq = s.takeSeq := rfl
@[simp] theorem State.setServe_engSeed (s : State) (p : Nat) (v : Serve) : (s.setServe p v).engSeed = s.engSeed := rfl
@[simp] theorem State.setServe_resvs (s : State) (p : Nat) (v : Serve) : (s.setServe p v).resvs = s.resvs := rfl
@[simp] theorem State.setServe_hbm (s : State) (p : Nat) (v : Serve) : (s.setServe p v).hbm = s.hbm := rfl
@[simp] theorem State.setServe_memStat (s : State) (p : Nat) (v : Serve) : (s.setServe p v).memStat = s.memStat := rfl
@[simp] theorem State.setServe_dimms (s : State) (p : Nat) (v : Serve) : (s.setServe p v).dimms = s.dimms := rfl
@[simp] theorem State.setServe_tlbs (s : State) (p : Nat) (v : Serve) : (s.setServe p v).tlbs = s.tlbs := rfl
@[simp] theorem State.setServe_engTlbs (s : State) (p : Nat) (v : Serve) : (s.setServe p v).engTlbs = s.engTlbs := rfl
@[simp] theorem State.setServe_upd (s : State) (p : Nat) (v : Serve) : (s.setServe p v).upd = s.upd := rfl
@[simp] theorem State.setServe_fltParts (s : State) (p : Nat) (v : Serve) : (s.setServe p v).fltParts = s.fltParts := rfl
@[simp] theorem State.setServe_flt (s : State) (p : Nat) (v : Serve) : (s.setServe p v).flt = s.flt := rfl
@[simp] theorem State.setServe_retired (s : State) (p : Nat) (v : Serve) : (s.setServe p v).retired = s.retired := rfl
@[simp] theorem State.setServe_zeroing (s : State) (p : Nat) (v : Serve) : (s.setServe p v).zeroing = s.zeroing := rfl
@[simp] theorem State.setServe_fab (s : State) (p : Nat) (v : Serve) : (s.setServe p v).fab = s.fab := rfl
@[simp] theorem State.setServe_colls (s : State) (p : Nat) (v : Serve) : (s.setServe p v).colls = s.colls := rfl
@[simp] theorem State.setServe_pwr (s : State) (p : Nat) (v : Serve) : (s.setServe p v).pwr = s.pwr := rfl
@[simp] theorem State.setServe_mram (s : State) (p : Nat) (v : Serve) : (s.setServe p v).mram = s.mram := rfl
@[simp] theorem State.setServe_boot (s : State) (p : Nat) (v : Serve) : (s.setServe p v).boot = s.boot := rfl
@[simp] theorem State.setServe_sup (s : State) (p : Nat) (v : Serve) : (s.setServe p v).sup = s.sup := rfl
@[simp] theorem State.setServe_ltime (s : State) (p : Nat) (v : Serve) : (s.setServe p v).ltime = s.ltime := rfl
@[simp] theorem State.setServe_free (s : State) (p : Nat) (v : Serve) : (s.setServe p v).free = s.free := rfl
@[simp] theorem State.setServe_busData (s : State) (p : Nat) (v : Serve) : (s.setServe p v).busData = s.busData := rfl
@[simp] theorem State.setServe_pending (s : State) (p : Nat) (v : Serve) : (s.setServe p v).pending = s.pending := rfl

/-! What reads back after an update. -/

@[simp] theorem State.core_setCore (s : State) (n : Nat) (k : Core) : (s.setCore n k).core n = k := by
  simp [State.core, State.setCore]

theorem State.core_setCore_other (s : State) {n m : Nat} (k : Core) (h : m ≠ n) : (s.setCore n k).core m = s.core m := by
  simp [State.core, State.setCore, Tab.get_put_other _ _ _ h]

@[simp] theorem State.core_mapCore (s : State) (n : Nat) (f : Core → Core) : (s.mapCore n f).core n = f (s.core n) := by
  simp [State.mapCore]

theorem State.core_mapCore_other (s : State) {n m : Nat} (f : Core → Core) (h : m ≠ n) : (s.mapCore n f).core m = s.core m := by
  simp [State.mapCore, State.core_setCore_other _ _ h]

@[simp] theorem Core.slot_setSlot (k : Core) (n : Nat) (c : Ctx) : (k.setSlot n c).slot n = c := by
  simp [Core.slot, Core.setSlot]

theorem Core.slot_setSlot_other (k : Core) {n m : Nat} (c : Ctx) (h : m ≠ n) : (k.setSlot n c).slot m = k.slot m := by
  simp [Core.slot, Core.setSlot, Tab.get_put_other _ _ _ h]

@[simp] theorem State.cluster_setCluster (s : State) (n : Nat) (c : Cluster) : (s.setCluster n c).cluster n = c := by
  simp [State.cluster, State.setCluster]

theorem State.cluster_setCluster_other (s : State) {n m : Nat} (c : Cluster) (h : m ≠ n) : (s.setCluster n c).cluster m = s.cluster m := by
  simp [State.cluster, State.setCluster, Tab.get_put_other _ _ _ h]

@[simp] theorem State.part_setPart (s : State) (n : Nat) (p : Part) : (s.setPart n p).part n = p := by
  simp [State.part, State.setPart]

theorem State.part_setPart_other (s : State) {n m : Nat} (p : Part) (h : m ≠ n) : (s.setPart n p).part m = s.part m := by
  simp [State.part, State.setPart, Tab.get_put_other _ _ _ h]

@[simp] theorem State.part_mapPart (s : State) (n : Nat) (f : Part → Part) : (s.mapPart n f).part n = f (s.part n) := by
  simp [State.mapPart]

@[simp] theorem State.hport_setHport (s : State) (n : Nat) (p : HostPort) : (s.setHport n p).hport n = p := by
  simp [State.hport, State.setHport]

@[simp] theorem State.ring_setRing (s : State) (port n : Nat) (r : Ring) : (s.setRing port n r).ring port n = r := by
  simp [State.ring, State.setRing, HostPort.ring, HostPort.setRing]

@[simp] theorem State.cluster_setCore (s : State) (n m : Nat) (k : Core) : (s.setCore n k).cluster m = s.cluster m := rfl
@[simp] theorem State.part_setCore (s : State) (n m : Nat) (k : Core) : (s.setCore n k).part m = s.part m := rfl
@[simp] theorem State.core_setCluster (s : State) (n m : Nat) (c : Cluster) : (s.setCluster n c).core m = s.core m := rfl
@[simp] theorem State.part_setCluster (s : State) (n m : Nat) (c : Cluster) : (s.setCluster n c).part m = s.part m := rfl
@[simp] theorem State.core_setPart (s : State) (n m : Nat) (p : Part) : (s.setPart n p).core m = s.core m := rfl
@[simp] theorem State.cluster_setPart (s : State) (n m : Nat) (p : Part) : (s.setPart n p).cluster m = s.cluster m := rfl

end Sys2Proof.Machine
end

