-- ==== Sys2Proof/Laws/Bytes.lean ====
section
/-! SUPPORT. Runs of bytes: little-endian numbers, and what is read after a write. -/

-- One proof at a time: the thread of every theorem of a large file would not fit in memory.
set_option Elab.async false

namespace Sys2Proof.Machine

open Sys2Proof

theorem leBytes_length (n v : Nat) : (leBytes n v).length = n := by
  induction n generalizing v with
  | zero => rfl
  | succ n ih => simp [leBytes, ih]

/-- The bytes of a number, read back, are the number without what does not fit. -/
theorem leNat_leBytes (n v : Nat) : leNat (leBytes n v) = v % 2 ^ (8 * n) := by
  induction n generalizing v with
  | zero => simp [leBytes, leNat, Nat.mod_one]
  | succ n ih =>
    have h : 2 ^ (8 * (n + 1)) = 256 * 2 ^ (8 * n) := by
      rw [show 8 * (n + 1) = 8 * n + 8 from rfl, Nat.pow_add, Nat.mul_comm]
    simp only [leBytes, leNat, ih, BitVec.toNat_ofNat, h]
    rw [Nat.mod_mul]

theorem leNat_lt (bs : List Byte) : leNat bs < 2 ^ (8 * bs.length) := by
  induction bs with
  | nil => simp [leNat]
  | cons b t ih =>
    have h : 2 ^ (8 * (t.length + 1)) = 256 * 2 ^ (8 * t.length) := by
      rw [show 8 * (t.length + 1) = 8 * t.length + 8 from rfl, Nat.pow_add, Nat.mul_comm]
    simp only [leNat, List.length_cons, h]
    have := b.isLt
    omega

/-- A byte outside a run that is written reads as before. -/
theorem Memory.read_writes_other {m : List Host.Cell} {a c : Nat} {bs : List Byte} (w : Memory.wf m = true)
    (h : c < a ∨ a + bs.length ≤ c) : Memory.read (Memory.writes m a bs) c = Memory.read m c := by
  induction bs generalizing m a with
  | nil => rfl
  | cons b t ih =>
    simp only [List.length_cons] at h
    rw [Memory.writes, ih (Memory.write_wf w) (by omega)]
    exact Memory.read_write_other w (by omega)

/-- A run that is written reads as written. -/
theorem Memory.reads_writes {m : List Host.Cell} {a : Nat} {bs : List Byte} (w : Memory.wf m = true) :
    Memory.reads (Memory.writes m a bs) a bs.length = bs := by
  induction bs generalizing m a with
  | nil => rfl
  | cons b t ih =>
    have e := ih (m := Memory.write m a b) (a := a + 1) (Memory.write_wf w)
    unfold Memory.reads at e ⊢
    rw [List.length_cons, List.range_succ_eq_map, List.map_cons, List.map_map]
    congr 1
    · show Memory.read (Memory.writes (Memory.write m a b) (a + 1) t) a = b
      rw [Memory.read_writes_other (Memory.write_wf w) (by omega)]
      exact Memory.read_write_same w
    · rw [Memory.writes]
      conv_rhs => rw [← e]
      apply List.map_congr_left
      intro i _
      simp only [Function.comp]
      congr 1
      omega

/-- Scratch is never lost with a pseudo-channel of HBM. -/
theorem State.isLost_scratch (s : State) {pa : Nat} (h : scratchBase ≤ pa) : s.isLost pa = false := by
  unfold State.isLost
  simp [Nat.not_lt.mpr h]

theorem State.rd_scratch (s : State) {pa : Nat} (h : scratchBase ≤ pa) : s.rd pa = Memory.read s.mem pa := by
  unfold State.rd
  simp [State.isLost_scratch s h]

theorem State.rds_scratch (s : State) {pa n : Nat} (h : scratchBase ≤ pa) : s.rds pa n = Memory.reads s.mem pa n := by
  unfold State.rds Memory.reads
  exact List.map_congr_left fun i _ => State.rd_scratch s (Nat.le_trans h (Nat.le_add_right _ _))

theorem linesOf_scratch {pa n l : Nat} (h : scratchBase ≤ pa) (hl : l ∈ linesOf pa n) : scratchBase ≤ l * 64 := by
  unfold linesOf at hl
  split at hl
  · cases hl
  · obtain ⟨i, _, rfl⟩ := List.mem_map.mp hl
    unfold scratchBase at *
    omega

/-- A write of scratch writes its bytes. -/
theorem State.wr_mem_scratch (s : State) {pa : Nat} {bs : List Byte} {p : Bool} (h : scratchBase ≤ pa) :
    (s.wr pa bs p).mem = Memory.writes s.mem pa bs := by
  have k : ((linesOf pa bs.length).all fun l => !s.isLost (l * 64)) = true := by
    simp only [List.all_eq_true]
    intro l hl
    simp [State.isLost_scratch s (linesOf_scratch h hl)]
  unfold State.wr
  simp [k]

/-- What is written to scratch is read back. -/
theorem State.rds_wr_scratch (s : State) {pa : Nat} {bs : List Byte} {p : Bool} (w : Memory.wf s.mem = true) (h : scratchBase ≤ pa) :
    (s.wr pa bs p).rds pa bs.length = bs := by
  rw [State.rds_scratch _ h, State.wr_mem_scratch s h]
  exact Memory.reads_writes w

/-- A byte outside a write of scratch reads as before. -/
theorem State.rd_wr_scratch_other (s : State) {pa a : Nat} {bs : List Byte} {p : Bool} (w : Memory.wf s.mem = true)
    (h : scratchBase ≤ pa) (ha : a < pa ∨ pa + bs.length ≤ a) : (s.wr pa bs p).rd a = s.rd a := by
  have e : (s.wr pa bs p).isLost a = s.isLost a := rfl
  unfold State.rd
  rw [e, State.wr_mem_scratch s h, Memory.read_writes_other w ha]

/-- A number written to scratch little-endian is read back. -/
theorem State.leNat_rds_wr (s : State) {pa n v : Nat} {p : Bool} (w : Memory.wf s.mem = true) (h : scratchBase ≤ pa)
    (hv : v < 2 ^ (8 * n)) : leNat ((s.wr pa (leBytes n v) p).rds pa n) = v := by
  have e := State.rds_wr_scratch s (bs := leBytes n v) (p := p) w h
  rw [leBytes_length] at e
  rw [e, leNat_leBytes, Nat.mod_eq_of_lt hv]

theorem State.leNat_rds_lt (s : State) (pa n : Nat) : leNat (s.rds pa n) < 2 ^ (8 * n) := by
  have h := leNat_lt (s.rds pa n)
  unfold State.rds at *
  simpa using h

theorem scrPa_ge (core off : Nat) : scratchBase ≤ scrPa core off := by
  unfold scrPa
  omega

/-- A virtual run that translates for a read is read. -/
theorem State.vread_of_vok (s : State) {p va n : Nat} (h : s.vok p va n false = true) : ∃ r, s.vread p va n = .ok r := by
  unfold State.vok at h
  unfold State.vread
  generalize pieces va n = xs at h ⊢
  generalize (([], false) : List Byte × Bool) = r
  induction xs generalizing r with
  | nil => exact ⟨r, rfl⟩
  | cons x t ih =>
    simp only [List.all_cons, Bool.and_eq_true] at h
    simp only [List.foldlM_cons]
    cases e : s.translate p x.1 false with
    | error z =>
      rw [e] at h
      exact absurd h.1 (by simp [Except.isOk, Except.toBool])
    | ok pa => exact ih h.2 _

/-- Reading a virtual run leaves the cores alone. -/
theorem State.vtake_cores (s : State) (p va n : Nat) : (s.vtake p va n).cores = s.cores := by
  have step : ∀ (u : State) (x : Nat × Nat), (match u.translate p x.1 false with
      | .ok pa => (match u.region pa with | .host port => u.hostTake p port pa | _ => u.cacheRead p x.1 pa)
      | .error _ => u).cores = u.cores := by
    intro u x
    split
    · split
      · unfold State.hostTake State.atsUse
        dsimp only
        repeat' split
        all_goals rfl
      · unfold State.cacheRead
        dsimp only
        repeat' split
        all_goals rfl
    · rfl
  unfold State.vtake
  split
  · rfl
  · generalize pieces va n = ps
    rename_i h
    clear h
    induction ps generalizing s with
    | nil => rfl
    | cons x t ih =>
      rw [List.foldl_cons]
      exact (ih _).trans (step s x)

end Sys2Proof.Machine
end

