-- ==== Sys2Proof/Laws/Core.lean ====
section
/-! SUPPORT. What bringing the contexts of a core up to date, and abandoning prefetched lines, change in the context slots. -/

-- One proof at a time: the thread of every theorem of a large file would not fit in memory.
set_option Elab.async false

namespace Sys2Proof.Machine

open Sys2Proof

/-- Of two writes of one entry the second remains. -/
theorem Tab.put_put {β : Type} (t : Tab β) (k : Nat) (v w : β) : Tab.put (Tab.put t k v) k w = Tab.put t k w := by
  induction t with
  | nil => simp [Tab.put]
  | cons x t ih =>
    obtain ⟨j, y⟩ := x
    by_cases h1 : j = k
    · simp [Tab.put, h1]
    · by_cases h2 : k < j
      · simp [Tab.put, h1, h2]
      · simp [Tab.put, h1, h2, ih]

/-- Refreshing one slot changes at most the state, the cause and the stamps of the contexts in the slots. -/
theorem Core.refreshSlot_slot (k : Core) (n m : Nat) :
    ∃ a b d r w, (k.refreshSlot n).slot m = { k.slot m with st := a, cause := b, blockedAt := d, rdyAt := r, waitAt := w } := by
  unfold Core.refreshSlot
  dsimp only
  split
  · by_cases e : m = n
    · subst e
      exact ⟨_, _, _, _, _, Tab.get_put_same _ _ _ _⟩
    · refine ⟨(k.slot m).st, (k.slot m).cause, (k.slot m).blockedAt, (k.slot m).rdyAt, (k.slot m).waitAt, ?_⟩
      simp [Core.slot, Core.setSlot, Tab.get_put_other _ _ _ e]
  · exact ⟨_, _, _, _, _, rfl⟩

theorem Core.refreshSlots_slot (xs : List Nat) (k : Core) (m : Nat) :
    ∃ a b d r w, (xs.foldl Core.refreshSlot k).slot m = { k.slot m with st := a, cause := b, blockedAt := d, rdyAt := r, waitAt := w } := by
  induction xs generalizing k with
  | nil => exact ⟨_, _, _, _, _, rfl⟩
  | cons x t ih =>
    obtain ⟨a, b, d, r, w, e⟩ := Core.refreshSlot_slot k x m
    obtain ⟨a', b', d', r', w', e'⟩ := ih (k.refreshSlot x)
    exact ⟨a', b', d', r', w', by rw [List.foldl_cons, e', e]⟩

theorem Core.refreshImages_slots (k : Core) : k.refreshImages.slots = k.slots := by
  unfold Core.refreshImages
  generalize k.images = xs
  induction xs generalizing k with
  | nil => rfl
  | cons x t ih =>
    rw [List.foldl_cons, ih]
    split
    · split <;> rfl
    · rfl

theorem Core.refreshImages_core (k : Core) : ∃ im rc st, k.refreshImages = { k with images := im, readyCnt := rc, stamp := st } := by
  unfold Core.refreshImages
  generalize k.images = xs
  induction xs generalizing k with
  | nil => exact ⟨k.images, k.readyCnt, k.stamp, rfl⟩
  | cons x t ih =>
    rw [List.foldl_cons]
    split
    · split
      · obtain ⟨a, b, c, e⟩ := ih { k with images := Tab.put k.images x.1 { x.2 with runAt := k.stamp }, stamp := k.stamp + 1 }
        exact ⟨a, b, c, by rw [e]⟩
      · exact ih k
    · obtain ⟨a, b, c, e⟩ := ih { k with images := Tab.put k.images x.1 { x.2 with runAt := 0 }, readyCnt := Tab.del k.readyCnt x.1 }
      exact ⟨a, b, c, by rw [e]⟩

/-- Bringing a core up to date changes at most the state, the cause and the stamps of the contexts in the slots. -/
theorem Core.refresh_slot (k : Core) (m : Nat) :
    ∃ a b d r w, k.refresh.slot m = { k.slot m with st := a, cause := b, blockedAt := d, rdyAt := r, waitAt := w } := by
  obtain ⟨a, b, d, r, w, e⟩ := Core.refreshSlots_slot (List.range 8) k m
  refine ⟨a, b, d, r, w, ?_⟩
  rw [← e]
  unfold Core.refresh Core.slot
  rw [Core.refreshImages_slots]

/-- Bringing a core up to date changes its slots, its images and their ready counts, and its stamp only. -/
theorem Core.refresh_core (k : Core) :
    ∃ sl im rc st, k.refresh = { k with slots := sl, images := im, readyCnt := rc, stamp := st } := by
  have slot (k : Core) (n : Nat) : ∃ sl st, k.refreshSlot n = { k with slots := sl, stamp := st } := by
    unfold Core.refreshSlot
    dsimp only
    split
    · exact ⟨_, _, rfl⟩
    · exact ⟨k.slots, k.stamp, rfl⟩
  have slots : ∀ (xs : List Nat) (k : Core), ∃ sl st, xs.foldl Core.refreshSlot k = { k with slots := sl, stamp := st } := by
    intro xs
    induction xs with
    | nil => exact fun k => ⟨k.slots, k.stamp, rfl⟩
    | cons x t ih =>
      intro k
      obtain ⟨a, b, e⟩ := slot k x
      obtain ⟨c, d, f⟩ := ih (k.refreshSlot x)
      exact ⟨c, d, by rw [List.foldl_cons, f, e]⟩
  obtain ⟨a, b, e⟩ := slots (List.range 8) k
  unfold Core.refresh
  rw [e]
  obtain ⟨im, rc, st, f⟩ := Core.refreshImages_core { k with slots := a, stamp := b }
  exact ⟨a, im, rc, st, by rw [f]⟩

/-- A signal changes the tokens, the state, the cause and the stamps of contexts in slots at most, and of the core the slots, the
images, their ready counts, the stamp and the pending signals. -/
theorem Core.signal_core (k : Core) (l m : Nat) : (∃ sl im rc st sb,
    k.signal l m = { k with slots := sl, images := im, readyCnt := rc, stamp := st, sigBuf := sb }) ∧
    ∀ x, ∃ a b d r w t o, (k.signal l m).slot x = { k.slot x with st := a, cause := b, blockedAt := d, rdyAt := r, waitAt := w, tokens := t, tokovf := o } := by
  unfold Core.signal
  split
  · next n _ =>
    dsimp only
    split
    · exact ⟨⟨k.slots, k.images, k.readyCnt, k.stamp, _, rfl⟩, fun x => ⟨_, _, _, _, _, _, _, rfl⟩⟩
    · constructor
      · unfold Core.refreshSlot
        dsimp only
        split
        · exact ⟨_, k.images, k.readyCnt, _, k.sigBuf, rfl⟩
        · exact ⟨_, k.images, k.readyCnt, k.stamp, k.sigBuf, rfl⟩
      · intro x
        obtain ⟨a, b, d, r, w, e⟩ := Core.refreshSlot_slot (k.setSlot n ((k.slot n).give m)) n x
        rw [e]
        by_cases h : x = n
        · subst h
          refine ⟨a, b, d, r, w, ((k.slot x).give m).tokens, ((k.slot x).give m).tokovf, ?_⟩
          simp only [Core.slot, Core.setSlot, Tab.get_put_same]
          rfl
        · refine ⟨a, b, d, r, w, (k.slot x).tokens, (k.slot x).tokovf, ?_⟩
          simp only [Core.slot, Core.setSlot, Tab.get_put_other _ _ _ h]
  · split
    · next c _ =>
      constructor
      · obtain ⟨im, rc, st, e⟩ := Core.refreshImages_core { k with images := Tab.put k.images l (c.give m) }
        exact ⟨k.slots, im, rc, st, k.sigBuf, by rw [e]⟩
      · intro x
        refine ⟨(k.slot x).st, (k.slot x).cause, (k.slot x).blockedAt, (k.slot x).rdyAt, (k.slot x).waitAt, (k.slot x).tokens, (k.slot x).tokovf, ?_⟩
        unfold Core.slot
        rw [Core.refreshImages_slots]
    · exact ⟨⟨k.slots, k.images, k.readyCnt, k.stamp, k.sigBuf, rfl⟩, fun x => ⟨_, _, _, _, _, _, _, rfl⟩⟩

/-- Abandoning prefetched lines changes at most the stream counters of the contexts in the slots. -/
theorem Core.abandon_slot (k : Core) (p : PfLine → Bool) (m : Nat) : ∃ x, (k.abandon p).slot m = { k.slot m with sctr := x } := by
  unfold Core.abandon
  generalize k.lineBuf.filter p = gone
  have h : ∀ (gone : List PfLine) (k0 : Core), ∃ x,
      (gone.foldl (fun k l => k.mapCtx l.lctx fun c => c.count 2 1) k0).slot m = { k0.slot m with sctr := x } := by
    intro gone
    induction gone with
    | nil => exact fun k0 => ⟨_, rfl⟩
    | cons g t ih =>
      intro k0
      obtain ⟨x, hx⟩ := ih (k0.mapCtx g.lctx fun c => c.count 2 1)
      refine ⟨x, ?_⟩
      rw [List.foldl_cons, hx]
      unfold Core.mapCtx
      split
      · next n _ =>
        by_cases e : m = n
        · subst e
          simp only [Core.slot, Core.setSlot, Tab.get_put_same]
          unfold Ctx.count
          split <;> rfl
        · simp only [Core.slot, Core.setSlot, Tab.get_put_other _ _ _ e]
      · split <;> rfl
  exact h gone _

theorem State.mapCore_slot (s : State) (core n : Nat) (f : Core → Core) :
    (s.mapCore core f).slot core n = (f (s.core core)).slot n :=
  congrArg (fun x => Core.slot x n) (Tab.get_put_same _ _ _ _)

theorem State.setSlot_slot (s : State) (core n : Nat) (c : Ctx) : ((s.setSlot core n c).core core).slot n = c :=
  (congrArg (fun x => Core.slot x n) (Tab.get_put_same _ _ _ _)).trans (Tab.get_put_same _ _ _ _)

/-- Emptying a run-ahead buffer leaves it empty, with its fetcher at the pointer given (R21, R162). -/
theorem State.emptyBuf_slot (s : State) (core n : Nat) (ptr : Option Ptr) :
    ((s.emptyBuf core n ptr).slot core n).buf = [] ∧
      ((s.emptyBuf core n ptr).slot core n).fptr = ptr.getD (s.slot core n).nextPtr := by
  unfold State.emptyBuf
  dsimp only
  rw [State.mapCore_slot]
  generalize hk : State.core (State.setSlot s core n _) core = k
  have hc := congrArg (fun x : Core => x.slot n) hk
  simp only [State.setSlot_slot] at hc
  let p : PfLine → Bool := fun l => l.lctx == (s.slot core n).lctx && !k.lineTaken l
  obtain ⟨x, f⟩ := Core.abandon_slot k p n
  obtain ⟨a, b, d, r, w, e⟩ :=
    Core.refresh_slot { k.abandon p with givenUp := k.givenUp.filter fun x => x.1 != (s.slot core n).lctx } n
  have g : ({ k.abandon p with givenUp := k.givenUp.filter fun x => x.1 != (s.slot core n).lctx } : Core).slot n =
      (k.abandon p).slot n := rfl
  rw [g, f, ← hc] at e
  exact ⟨congrArg Ctx.buf e, congrArg Ctx.fptr e⟩

end Sys2Proof.Machine
end

