-- ==== Sys2Proof/Laws/Keeps.lean ====
section
/-! SUPPORT. What every command keeps: the queue of waiting commands, and the canonical form of memory. One lemma for each operation
says that it keeps both; this file holds the relation and its rules. -/

-- One proof at a time: the thread of every theorem of a large file would not fit in memory.
set_option Elab.async false

namespace Sys2Proof.Machine

/-- `t` has the queue of `s`, and a memory in canonical form if `s` has. -/
structure Keeps (s t : State) : Prop where
  pending : t.pending = s.pending
  mem : Memory.wf s.mem = true → Memory.wf t.mem = true

theorem Keeps.refl (s : State) : Keeps s s := ⟨rfl, id⟩

theorem Keeps.ofId {s t : State} (h : Keeps s t) : Keeps s (id t) := h

theorem Keeps.trans {s t u : State} (h : Keeps s t) (g : Keeps t u) : Keeps s u :=
  ⟨g.pending.trans h.pending, fun w => g.mem (h.mem w)⟩

/-- The outcome keeps both, if it is a next state. -/
def KeepsO (s : State) (o : Out) : Prop := ∀ t, o = .next t → Keeps s t
def KeepsE {ε : Type} (s : State) (x : Except ε State) : Prop := ∀ t, x = .ok t → Keeps s t
def KeepsX (s : State) (x : Option State) : Prop := ∀ t, x = some t → Keeps s t
def KeepsP {α : Type} (s : State) (x : α × State) : Prop := Keeps s x.2
def KeepsQ {α : Type} (s : State) (x : State × α) : Prop := Keeps s x.1

def KeepsW (s : State) (r : WinRes) : Prop := ∀ t, r = .done t → Keeps s t
def KeepsM (s : State) (r : RemRes) : Prop := ∀ st v bad t, r = .answer st v bad t → Keeps s t

theorem KeepsW.done {s t : State} (h : Keeps s t) : KeepsW s (.done t) := by
  intro u e
  cases e
  exact h

theorem KeepsW.refused {s : State} {st : Nat} : KeepsW s (.refused st) := by
  intro u e
  cases e

theorem KeepsW.wait {s : State} : KeepsW s .wait := by
  intro u e
  cases e

theorem KeepsW.out {s t : State} {r : WinRes} (h : KeepsW s r) (e : r = .done t) : Keeps s t := h t e

theorem KeepsW.ite {s : State} {x y : WinRes} {c : Prop} [Decidable c] (h : KeepsW s x) (g : KeepsW s y) :
    KeepsW s (if c then x else y) := by
  split
  · exact h
  · exact g

theorem KeepsW.onlyIf {s : State} {b : Bool} {r : WinRes} (h : KeepsW s r) : KeepsW s (r.onlyIf b) := by
  unfold WinRes.onlyIf
  exact KeepsW.ite h KeepsW.refused

/-- What a row of the control core does to a state keeps both. -/
def KeepsF (x : Option (State → State)) : Prop := ∀ f, x = some f → ∀ s u, Keeps s u → Keeps s (f u)

theorem KeepsF.some {f : State → State} (h : ∀ s u, Keeps s u → Keeps s (f u)) : KeepsF (Option.some f) := by
  intro g e
  cases e
  exact h

theorem KeepsF.none : KeepsF Option.none := by
  intro g e
  cases e

theorem KeepsF.ite {x y : Option (State → State)} {c : Prop} [Decidable c] (h : KeepsF x) (g : KeepsF y) :
    KeepsF (if c then x else y) := by
  split
  · exact h
  · exact g

theorem KeepsM.answer {s t : State} {st : Nat} {v : W64} {bad : Bool} (h : Keeps s t) : KeepsM s (.answer st v bad t) := by
  intro _ _ _ _ e
  cases e
  exact h

theorem KeepsM.held {s : State} {b : Nat} : KeepsM s (.held b) := by
  intro _ _ _ _ e
  cases e

theorem KeepsM.wait {s : State} : KeepsM s .wait := by
  intro _ _ _ _ e
  cases e

theorem KeepsM.out {s t : State} {r : RemRes} {st : Nat} {v : W64} {bad : Bool} (h : KeepsM s r) (e : r = .answer st v bad t) :
    Keeps s t := h st v bad t e

theorem Keeps.getD {s t : State} {x : Option State} (h : KeepsX s x) (g : Keeps s t) : Keeps s (x.getD t) := by
  cases x with
  | none => exact g
  | some u => exact h u rfl

theorem Keeps.orNext {s t : State} {o : Out} (h : KeepsO s o) (g : Keeps s t) : Keeps s (t.orNext o) := by
  unfold State.orNext
  split
  · exact h _ rfl
  · exact g

theorem KeepsX.bind {α : Type} {s : State} {x : Option α} {f : α → Option State} (h : ∀ a, KeepsX s (f a)) : KeepsX s (x.bind f) := by
  cases x with
  | none => exact fun t e => by cases e
  | some a => exact h a

theorem KeepsX.orElse {s : State} {x : Option State} {f : Unit → Option State} (h : KeepsX s x) (g : KeepsX s (f ())) :
    KeepsX s (x.orElse f) := by
  cases x with
  | none => exact g
  | some u => exact h

theorem KeepsO.next {s t : State} (h : Keeps s t) : KeepsO s (.next t) := by
  intro u e
  cases e
  exact h

theorem KeepsO.fault {s : State} {r : Fault} : KeepsO s (.fault r) := by
  intro u e
  cases e

theorem KeepsE.ok {ε : Type} {s t : State} (h : Keeps s t) : KeepsE s (Except.ok t : Except ε State) := by
  intro u e
  cases e
  exact h

theorem KeepsE.error {ε : Type} {s : State} {x : ε} : KeepsE s (Except.error x : Except ε State) := by
  intro u e
  cases e

theorem KeepsX.some {s t : State} (h : Keeps s t) : KeepsX s (Option.some t) := by
  intro u e
  cases e
  exact h

theorem KeepsX.none {s : State} : KeepsX s Option.none := by
  intro u e
  cases e

theorem KeepsP.mk {α : Type} {s t : State} {a : α} (h : Keeps s t) : KeepsP s (a, t) := h
theorem KeepsQ.mk {α : Type} {s t : State} {a : α} (h : Keeps s t) : KeepsQ s (t, a) := h
theorem KeepsP.out {α : Type} {s t : State} {a : α} {x : α × State} (h : KeepsP s x) (e : x = (a, t)) : Keeps s t := by
  subst e
  exact h
theorem KeepsQ.out {α : Type} {s t : State} {a : α} {x : State × α} (h : KeepsQ s x) (e : x = (t, a)) : Keeps s t := by
  subst e
  exact h

theorem KeepsQ.ite {α : Type} {s : State} {x y : State × α} {c : Prop} [Decidable c] (h : KeepsQ s x) (g : KeepsQ s y) :
    KeepsQ s (if c then x else y) := by
  split
  · exact h
  · exact g

theorem KeepsO.ite {s : State} {x y : Out} {c : Prop} [Decidable c] (h : KeepsO s x) (g : KeepsO s y) :
    KeepsO s (if c then x else y) := by
  split
  · exact h
  · exact g

theorem KeepsX.ite {s : State} {x y : Option State} {c : Prop} [Decidable c] (h : KeepsX s x) (g : KeepsX s y) :
    KeepsX s (if c then x else y) := by
  split
  · exact h
  · exact g

theorem KeepsO.out {s t : State} {o : Out} (h : KeepsO s o) (e : o = .next t) : Keeps s t := h t e
theorem KeepsE.out {ε : Type} {s t : State} {x : Except ε State} (h : KeepsE s x) (e : x = .ok t) : Keeps s t := h t e
theorem KeepsX.out {s t : State} {x : Option State} (h : KeepsX s x) (e : x = Option.some t) : Keeps s t := h t e
theorem KeepsP.snd {α : Type} {s : State} {x : α × State} (h : KeepsP s x) : Keeps s x.2 := h
theorem KeepsQ.fst {α : Type} {s : State} {x : State × α} (h : KeepsQ s x) : Keeps s x.1 := h

/-- An update of fields other than the queue and memory. -/
theorem Keeps.step {s t u : State} (h : Keeps s t) (hp : u.pending = t.pending) (hm : u.mem = t.mem) : Keeps s u :=
  ⟨hp.trans h.pending, fun w => by rw [hm]; exact h.mem w⟩

theorem Keeps.ite {s t u : State} {c : Prop} [Decidable c] (h : Keeps s t) (g : Keeps s u) : Keeps s (if c then t else u) := by
  split
  · exact h
  · exact g

/-- A state written field by field with the queue and the memory of `t`. -/
theorem Keeps.mkState {s t : State} {a_cores : Tab Core} {a_clusters : Tab Cluster} {a_parts : Tab Part} {a_hports : Tab HostPort}
    {a_hpParts : Tab HpPart} {a_mgmt : Nat} {a_autofail : Bool} {a_moves : Nat} {a_mgmtPend : Bool} {a_poison : List Nat}
    {a_cv : List Nat} {a_codeErr : Tab Nat} {a_cplBad : List Nat} {a_takeSeq : Nat} {a_engSeed : List Byte}
    {a_resvs : List (Nat × Nat × Nat)} {a_hbm : Tab Stack} {a_memStat : MemStat} {a_dimms : Tab Dimm} {a_tlbs : Tab DieTlb}
    {a_engTlbs : Tab (List TlbEnt)} {a_upd : Tab UpdRegs} {a_fltParts : Tab FltPart} {a_flt : Flt} {a_retired : List Nat}
    {a_zeroing : List (Nat × Nat)} {a_fab : Fabric} {a_colls : Tab Coll} {a_serves : Tab Serve} {a_pwr : Pwr} {a_mram : Mram}
    {a_boot : Boot} {a_sup : Sup} {a_ltime : Nat} {a_free : Nat} {a_busData : W64}
    (h : Keeps s t) : Keeps s (State.mk a_cores a_clusters a_parts a_hports a_hpParts a_mgmt a_autofail a_moves a_mgmtPend t.mem
      a_poison a_cv a_codeErr a_cplBad a_takeSeq a_engSeed a_resvs a_hbm a_memStat a_dimms a_tlbs a_engTlbs a_upd a_fltParts a_flt
      a_retired a_zeroing a_fab a_colls a_serves a_pwr a_mram a_boot a_sup a_ltime a_free a_busData t.pending) :=
  ⟨h.pending, h.mem⟩

theorem Keeps.foldl {α : Type} {s t : State} {f : State → α → State} {xs : List α} (h : Keeps s t)
    (hf : ∀ u x, Keeps s u → Keeps s (f u x)) : Keeps s (xs.foldl f t) := by
  induction xs generalizing t with
  | nil => exact h
  | cons x r ih => exact ih (hf t x h)

theorem Keeps.foldlQ {α β : Type} {s : State} {t : State × β} {f : State × β → α → State × β} {xs : List α} (h : Keeps s t.1)
    (hf : ∀ u x, Keeps s u.1 → Keeps s (f u x).1) : Keeps s (xs.foldl f t).1 := by
  induction xs generalizing t with
  | nil => exact h
  | cons x r ih => exact ih (hf t x h)

theorem Keeps.foldlP {α β : Type} {s : State} {t : β × State} {f : β × State → α → β × State} {xs : List α} (h : Keeps s t.2)
    (hf : ∀ u x, Keeps s u.2 → Keeps s (f u x).2) : Keeps s (xs.foldl f t).2 := by
  induction xs generalizing t with
  | nil => exact h
  | cons x r ih => exact ih (hf t x h)

theorem KeepsE.foldlM {α ε : Type} {s : State} {t : State} {f : State → α → Except ε State} {xs : List α} (h : Keeps s t)
    (hf : ∀ u x, Keeps s u → KeepsE s (f u x)) : KeepsE s (xs.foldlM f t) := by
  induction xs generalizing t with
  | nil => exact KeepsE.ok h
  | cons x r ih =>
    intro v e
    simp only [List.foldlM, bind, Except.bind] at e
    split at e
    · cases e
    · next u hu => exact ih (hf t x h u hu) v e

end Sys2Proof.Machine
end

