-- ==== Sys2Proof/Laws/KeepsBase.lean ====
section
/-! SUPPORT. That the queue and the canonical form of memory are kept by the shared operations, rings, contexts, trust, links, paging and
operand forms: one lemma for each operation. -/

-- One proof at a time: the thread of every theorem of a large file would not fit in memory.
set_option Elab.async false

namespace Sys2Proof.Machine

open Sys2Proof

theorem keeps_State_setCore {s0 : State} {s : State} {n : Nat} {k : Core}
    (h0 : Keeps s0 s) : Keeps s0 (State.setCore s n k) := by
  unfold State.setCore
  repeat' (first
    | with_reducible assumption
    | with_reducible refine Keeps.ite ?_ ?_
    | split
    | with_reducible intro _
    | dsimp only
    | with_reducible refine Keeps.mkState (by with_reducible assumption))

theorem keeps_State_setSlot {s0 : State} {s : State} {core n : Nat} {c : Ctx}
    (h0 : Keeps s0 s) : Keeps s0 (State.setSlot s core n c) := by
  unfold State.setSlot
  repeat' (first
    | with_reducible assumption
    | with_reducible apply keeps_State_setCore)

theorem keeps_State_setCluster {s0 : State} {s : State} {n : Nat} {c : Cluster}
    (h0 : Keeps s0 s) : Keeps s0 (State.setCluster s n c) := by
  unfold State.setCluster
  repeat' (first
    | with_reducible assumption
    | with_reducible refine Keeps.ite ?_ ?_
    | split
    | with_reducible intro _
    | dsimp only
    | with_reducible refine Keeps.mkState (by with_reducible assumption))

theorem keeps_State_setPart {s0 : State} {s : State} {n : Nat} {p : Part}
    (h0 : Keeps s0 s) : Keeps s0 (State.setPart s n p) := by
  unfold State.setPart
  repeat' (first
    | with_reducible assumption
    | with_reducible refine Keeps.ite ?_ ?_
    | split
    | with_reducible intro _
    | dsimp only
    | with_reducible refine Keeps.mkState (by with_reducible assumption))

theorem keeps_State_setHport {s0 : State} {s : State} {n : Nat} {p : HostPort}
    (h0 : Keeps s0 s) : Keeps s0 (State.setHport s n p) := by
  unfold State.setHport
  repeat' (first
    | with_reducible assumption
    | with_reducible refine Keeps.ite ?_ ?_
    | split
    | with_reducible intro _
    | dsimp only
    | with_reducible refine Keeps.mkState (by with_reducible assumption))

theorem keeps_State_setRing {s0 : State} {s : State} {port n : Nat} {r : Ring}
    (h0 : Keeps s0 s) : Keeps s0 (State.setRing s port n r) := by
  unfold State.setRing
  repeat' (first
    | with_reducible assumption
    | with_reducible apply keeps_State_setHport)

theorem keeps_State_setFunc {s0 : State} {s : State} {port n : Nat} {f : HFunc}
    (h0 : Keeps s0 s) : Keeps s0 (State.setFunc s port n f) := by
  unfold State.setFunc
  repeat' (first
    | with_reducible assumption
    | with_reducible apply keeps_State_setHport)

theorem keeps_State_mapClusters {s0 : State} {s : State} {f : Nat → Cluster → Cluster}
    (h0 : Keeps s0 s) : Keeps s0 (State.mapClusters s f) := by
  unfold State.mapClusters
  repeat' (first
    | with_reducible assumption
    | with_reducible apply Keeps.foldl
    | with_reducible apply Keeps.foldlQ
    | with_reducible apply Keeps.foldlP
    | with_reducible refine Keeps.ite ?_ ?_
    | split
    | with_reducible intro _
    | dsimp only
    | with_reducible refine Keeps.mkState (by with_reducible assumption))

theorem keeps_State_mapCore {s0 : State} {s : State} {n : Nat} {f : Core → Core}
    (h0 : Keeps s0 s) : Keeps s0 (State.mapCore s n f) := by
  unfold State.mapCore
  repeat' (first
    | with_reducible assumption
    | with_reducible apply keeps_State_setCore)

theorem keeps_State_mapSlot {s0 : State} {s : State} {core n : Nat} {f : Ctx → Ctx}
    (h0 : Keeps s0 s) : Keeps s0 (State.mapSlot s core n f) := by
  unfold State.mapSlot
  repeat' (first
    | with_reducible assumption
    | with_reducible apply keeps_State_setSlot)

theorem keeps_State_mapPart {s0 : State} {s : State} {n : Nat} {f : Part → Part}
    (h0 : Keeps s0 s) : Keeps s0 (State.mapPart s n f) := by
  unfold State.mapPart
  repeat' (first
    | with_reducible assumption
    | with_reducible apply keeps_State_setPart)

theorem keeps_State_mapRing {s0 : State} {s : State} {port n : Nat} {f : Ring → Ring}
    (h0 : Keeps s0 s) : Keeps s0 (State.mapRing s port n f) := by
  unfold State.mapRing
  repeat' (first
    | with_reducible assumption
    | with_reducible apply keeps_State_setRing)

theorem keeps_State_mapFab {s0 : State} {s : State} {f : Fabric → Fabric}
    (h0 : Keeps s0 s) : Keeps s0 (State.mapFab s f) := by
  unfold State.mapFab
  repeat' (first
    | with_reducible assumption
    | with_reducible refine Keeps.ite ?_ ?_
    | split
    | with_reducible intro _
    | dsimp only
    | with_reducible refine Keeps.mkState (by with_reducible assumption))

theorem keeps_State_takeFree {s0 : State} {s : State}
    (h0 : Keeps s0 s) : KeepsP s0 (State.takeFree s) := by
  unfold State.takeFree
  repeat' (first
    | with_reducible assumption
    | with_reducible apply KeepsP.mk
    | with_reducible refine Keeps.ite ?_ ?_
    | split
    | with_reducible intro _
    | dsimp only
    | with_reducible refine Keeps.mkState (by with_reducible assumption))

theorem keeps_State_wr {s0 s : State} {pa : Nat} {bs : List Byte} {poisoned : Bool}
    (h0 : Keeps s0 s) : Keeps s0 (State.wr s pa bs poisoned) := by
  refine ⟨h0.pending, fun w => ?_⟩
  have hs := h0.mem w
  unfold State.wr
  dsimp only
  split
  · exact Memory.writes_wf hs
  · refine Memory.foldl_write_wf ?_ hs
    intro m x hm
    split
    · exact hm
    · exact Memory.write_wf hm

theorem keeps_State_wrPieces {s0 s : State} {pa : Nat} {bs : List Byte} {bad : List Bool} (h0 : Keeps s0 s) :
    Keeps s0 (State.wrPieces s pa bs bad) := by
  induction bad generalizing s pa bs with
  | nil => exact h0
  | cons b t ih =>
    unfold State.wrPieces
    exact ih (keeps_State_wr h0)

theorem keeps_State_wrBads {s0 s : State} {pa : Nat} {bs : List Byte} {bad : List Bool} (h0 : Keeps s0 s) :
    Keeps s0 (State.wrBads s pa bs bad) := by
  unfold State.wrBads
  split
  · exact keeps_State_wrPieces h0
  · exact keeps_State_wr h0

theorem keeps_State_wrChecked {s0 : State} {s : State} {pa : Nat} {bs : List Byte} {bad : List Bool}
    (h0 : Keeps s0 s) : Keeps s0 (State.wrChecked s pa bs bad) := by
  unfold State.wrChecked
  repeat' (first
    | with_reducible assumption
    | with_reducible apply Keeps.foldl
    | with_reducible apply Keeps.foldlQ
    | with_reducible apply Keeps.foldlP
    | with_reducible apply keeps_State_wr
    | with_reducible apply keeps_State_wrBads
    | with_reducible refine Keeps.ite ?_ ?_
    | split
    | with_reducible intro _
    | dsimp only
    | with_reducible refine Keeps.mkState (by with_reducible assumption)
    | with_reducible refine Keeps.mkState (keeps_State_wr ?_))

theorem keeps_State_noteCheck {s0 : State} {s : State}
    (h0 : Keeps s0 s) : Keeps s0 (State.noteCheck s) := by
  unfold State.noteCheck
  repeat' (first
    | with_reducible assumption
    | with_reducible refine Keeps.ite ?_ ?_
    | split
    | with_reducible intro _
    | dsimp only
    | with_reducible refine Keeps.mkState (by with_reducible assumption))

theorem keeps_State_cacheRead {s0 : State} {s : State} {p va pa : Nat}
    (h0 : Keeps s0 s) : Keeps s0 (State.cacheRead s p va pa) := by
  unfold State.cacheRead
  repeat' (first
    | with_reducible assumption
    | with_reducible apply KeepsX.some
    | with_reducible exact KeepsX.none
    | with_reducible refine KeepsX.ite ?_ ?_
    | with_reducible refine Keeps.getD ?_ ?_
    | with_reducible apply keeps_State_mapPart
    | with_reducible refine Keeps.ite ?_ ?_
    | split)

theorem keeps_State_cacheStore {s0 : State} {s : State} {p pa n : Nat} {poisoned checked : Bool}
    (h0 : Keeps s0 s) : Keeps s0 (State.cacheStore s p pa n poisoned checked) := by
  unfold State.cacheStore
  repeat' (first
    | with_reducible assumption
    | with_reducible apply keeps_State_mapPart
    | with_reducible refine Keeps.ite ?_ ?_)

theorem keeps_State_cacheMark {s0 : State} {s : State} {p : Nat} {lines : List Nat} {bad : Bool}
    (h0 : Keeps s0 s) : Keeps s0 (State.cacheMark s p lines bad) := by
  unfold State.cacheMark
  repeat' (first
    | with_reducible assumption
    | with_reducible apply keeps_State_mapPart
    | with_reducible refine Keeps.ite ?_ ?_)

theorem keeps_State_hostWrite {s0 : State} {s : State} {port func addr : Nat} {bs : List Byte}
    (h0 : Keeps s0 s) : Keeps s0 (State.hostWrite s port func addr bs) := by
  unfold State.hostWrite
  repeat' (first
    | with_reducible assumption
    | with_reducible apply keeps_State_setFunc
    | with_reducible apply keeps_State_wr
    | with_reducible refine Keeps.ite ?_ ?_)

theorem keeps_State_noRead {s0 : State} {s : State} {port func n : Nat}
    (h0 : Keeps s0 s) : Keeps s0 (State.noRead s port func n) := by
  unfold State.noRead
  repeat' (first
    | with_reducible assumption
    | with_reducible apply keeps_State_setFunc
    | with_reducible apply keeps_State_setHport)

theorem keeps_State_atsUse {s0 : State} {s : State} {p port pa : Nat}
    (h0 : Keeps s0 s) : Keeps s0 (State.atsUse s p port pa) := by
  unfold State.atsUse
  repeat' (first
    | with_reducible assumption
    | with_reducible apply keeps_State_setHport
    | with_reducible refine Keeps.ite ?_ ?_)

theorem keeps_State_hostTake {s0 : State} {s : State} {p port pa : Nat}
    (h0 : Keeps s0 s) : Keeps s0 (State.hostTake s p port pa) := by
  unfold State.hostTake
  repeat' (first
    | with_reducible assumption
    | with_reducible apply keeps_State_atsUse
    | with_reducible apply keeps_State_noRead
    | with_reducible refine Keeps.ite ?_ ?_
    | split
    | with_reducible intro _
    | dsimp only
    | with_reducible refine Keeps.mkState (by with_reducible assumption))

theorem keeps_State_vtake {s0 : State} {s : State} {p va n : Nat}
    (h0 : Keeps s0 s) : Keeps s0 (State.vtake s p va n) := by
  unfold State.vtake
  repeat' (first
    | with_reducible assumption
    | with_reducible apply Keeps.foldl
    | with_reducible apply Keeps.foldlQ
    | with_reducible apply Keeps.foldlP
    | with_reducible apply keeps_State_cacheRead
    | with_reducible apply keeps_State_hostTake
    | with_reducible refine Keeps.ite ?_ ?_
    | split
    | with_reducible intro _)

theorem keeps_State_engWrite {s0 : State} {s : State} {p pa : Nat} {bs : List Byte} {poisoned : Bool}
    (h0 : Keeps s0 s) : Keeps s0 (State.engWrite s p pa bs poisoned) := by
  unfold State.engWrite
  repeat' (first
    | with_reducible assumption
    | with_reducible apply keeps_State_atsUse
    | with_reducible apply keeps_State_cacheStore
    | with_reducible apply keeps_State_hostWrite
    | with_reducible apply keeps_State_wr
    | with_reducible refine Keeps.ite ?_ ?_
    | split)

theorem keeps_State_engWriteChecked {s0 : State} {s : State} {p pa : Nat} {bs : List Byte} {bad : List Bool}
    (h0 : Keeps s0 s) : Keeps s0 (State.engWriteChecked s p pa bs bad) := by
  unfold State.engWriteChecked
  repeat' (first
    | with_reducible assumption
    | with_reducible apply Keeps.foldl
    | with_reducible apply Keeps.foldlQ
    | with_reducible apply Keeps.foldlP
    | with_reducible apply keeps_State_cacheStore
    | with_reducible apply keeps_State_wrChecked
    | with_reducible refine Keeps.ite ?_ ?_
    | split
    | with_reducible intro _)

theorem keeps_State_vwrite {s0 : State} {s : State} {p va : Nat} {bs : List Byte} {poisoned : Bool}
    (h0 : Keeps s0 s) : Keeps s0 (State.vwrite s p va bs poisoned) := by
  unfold State.vwrite
  repeat' (first
    | with_reducible assumption
    | with_reducible apply Keeps.foldl
    | with_reducible apply Keeps.foldlQ
    | with_reducible apply Keeps.foldlP
    | with_reducible apply keeps_State_engWrite
    | with_reducible refine Keeps.ite ?_ ?_
    | split
    | with_reducible intro _)

theorem keeps_State_charge {s0 : State} {s : State} {cl rate cycles : Nat}
    (h0 : Keeps s0 s) : Keeps s0 (State.charge s cl rate cycles) := by
  unfold State.charge
  repeat' (first
    | with_reducible assumption
    | with_reducible apply keeps_State_setCluster)

theorem keeps_State_chargeIssue {s0 : State} {s : State} {core rate cycles : Nat}
    (h0 : Keeps s0 s) : Keeps s0 (State.chargeIssue s core rate cycles) := by
  unfold State.chargeIssue
  repeat' (first
    | with_reducible assumption
    | with_reducible apply keeps_State_setCluster)

theorem keeps_State_chargeData {s0 : State} {s : State} {core n : Nat}
    (h0 : Keeps s0 s) : Keeps s0 (State.chargeData s core n) := by
  unfold State.chargeData
  repeat' (first
    | with_reducible assumption
    | with_reducible apply keeps_State_setCluster)

theorem keeps_State_msixSend {s0 : State} {s : State} {port func vec : Nat}
    (h0 : Keeps s0 s) : Keeps s0 (State.msixSend s port func vec) := by
  unfold State.msixSend
  repeat' (first
    | with_reducible assumption
    | with_reducible apply keeps_State_hostWrite
    | with_reducible apply keeps_State_setFunc
    | with_reducible refine Keeps.ite ?_ ?_)

theorem keeps_State_msixSignal {s0 : State} {s : State} {port func vec : Nat}
    (h0 : Keeps s0 s) : Keeps s0 (State.msixSignal s port func vec) := by
  unfold State.msixSignal
  repeat' (first
    | with_reducible assumption
    | with_reducible apply keeps_State_msixSend
    | with_reducible apply keeps_State_setFunc
    | with_reducible refine Keeps.ite ?_ ?_)

theorem keeps_State_postEntry {s0 : State} {s : State} {port ring : Nat} {tag status detail value flags cls part : Nat} {irq : Bool}
    (h0 : Keeps s0 s) : Keeps s0 (State.postEntry s port ring tag status detail value flags cls part irq) := by
  unfold State.postEntry
  repeat' (first
    | with_reducible assumption
    | with_reducible apply keeps_State_hostWrite
    | with_reducible apply keeps_State_mapRing
    | with_reducible apply keeps_State_msixSignal
    | with_reducible refine Keeps.ite ?_ ?_)

theorem keeps_State_silence {s0 : State} {s : State} {port ring : Nat}
    (h0 : Keeps s0 s) : Keeps s0 (State.silence s port ring) := by
  unfold State.silence
  repeat' (first
    | with_reducible assumption
    | with_reducible apply keeps_State_mapRing
    | with_reducible refine Keeps.ite ?_ ?_
    | split
    | with_reducible intro _
    | dsimp only
    | with_reducible refine Keeps.mkState (by with_reducible assumption)
    | with_reducible refine Keeps.mkState (keeps_State_mapRing ?_))

theorem keeps_State_ringError {s0 : State} {s : State} {port ring : Nat}
    (h0 : Keeps s0 s) : Keeps s0 (State.ringError s port ring) := by
  unfold State.ringError
  repeat' (first
    | with_reducible assumption
    | with_reducible apply keeps_State_mapRing
    | with_reducible apply keeps_State_silence)

theorem keeps_State_reply {s0 : State} {s : State} {port ring : Nat} {tag status detail value : Nat} {irq final last mute : Bool}
    (h0 : Keeps s0 s) : Keeps s0 (State.reply s port ring tag status detail value irq final last mute) := by
  unfold State.reply
  repeat' (first
    | with_reducible assumption
    | with_reducible apply keeps_State_mapRing
    | with_reducible apply keeps_State_postEntry
    | with_reducible apply keeps_State_ringError
    | with_reducible refine Keeps.ite ?_ ?_)

theorem keeps_State_fin {s0 : State} {s : State} {k : Pkt} {status detail value : Nat}
    (h0 : Keeps s0 s) : Keeps s0 (State.fin s k status detail value) := by
  unfold State.fin
  repeat' (first
    | with_reducible assumption
    | with_reducible apply keeps_State_mapRing
    | with_reducible apply keeps_State_reply
    | with_reducible refine Keeps.ite ?_ ?_)

theorem keeps_State_putNotice {s0 : State} {s : State} {p ring : Nat} {n : Notice}
    (h0 : Keeps s0 s) : Keeps s0 (State.putNotice s p ring n) := by
  unfold State.putNotice
  repeat' (first
    | with_reducible assumption
    | with_reducible apply keeps_State_postEntry
    | with_reducible apply keeps_State_setPart)

theorem keeps_State_flushNotices {s0 s : State} {n p : Nat} (h0 : Keeps s0 s) : Keeps s0 (State.flushNotices n p s) := by
  induction n generalizing s with
  | zero => exact h0
  | succ n ih =>
    unfold State.flushNotices
    dsimp only
    repeat' (first
      | with_reducible assumption
      | with_reducible apply ih
      | with_reducible apply keeps_State_putNotice
      | with_reducible apply keeps_State_setPart
      | split)

theorem keeps_State_notify {s0 : State} {s : State} {p : Nat} {n : Notice}
    (h0 : Keeps s0 s) : Keeps s0 (State.notify s p n) := by
  unfold State.notify
  repeat' (first
    | with_reducible assumption
    | with_reducible apply KeepsX.some
    | with_reducible exact KeepsX.none
    | with_reducible refine KeepsX.ite ?_ ?_
    | with_reducible apply keeps_State_flushNotices
    | with_reducible apply keeps_State_mapRing
    | with_reducible apply keeps_State_setPart
    | with_reducible refine Keeps.ite ?_ ?_
    | split)

theorem keeps_State_partEvent {s0 : State} {s : State} {p : Nat} {status : Option Nat} {detail : Nat}
    (h0 : Keeps s0 s) : Keeps s0 (State.partEvent s p status detail) := by
  unfold State.partEvent
  repeat' (first
    | with_reducible assumption
    | with_reducible refine Keeps.getD ?_ ?_
    | with_reducible apply keeps_State_notify
    | with_reducible apply keeps_State_setPart
    | with_reducible refine Keeps.ite ?_ ?_)

theorem keeps_State_notice {s0 : State} {s : State} {p : Nat} {n : Notice}
    (h0 : Keeps s0 s) : Keeps s0 (State.notice s p n) := by
  unfold State.notice
  repeat' (first
    | with_reducible assumption
    | with_reducible apply KeepsX.some
    | with_reducible exact KeepsX.none
    | with_reducible refine KeepsX.ite ?_ ?_
    | with_reducible apply keeps_State_notify
    | with_reducible apply keeps_State_partEvent)

theorem keeps_State_faultRecord {s0 : State} {s : State} {kind utype unit status result part bundle detail : Nat}
    (h0 : Keeps s0 s) : Keeps s0 (State.faultRecord s kind utype unit status result part bundle detail) := by
  unfold State.faultRecord
  repeat' (first
    | with_reducible assumption
    | with_reducible refine Keeps.ite ?_ ?_
    | split
    | with_reducible intro _
    | dsimp only
    | with_reducible refine Keeps.mkState (by with_reducible assumption))

theorem keeps_State_inField {s0 : State} {s : State} {utype unit status part detail : Nat}
    (h0 : Keeps s0 s) : Keeps s0 (State.inField s utype unit status part detail) := by
  unfold State.inField
  repeat' (first
    | with_reducible assumption
    | with_reducible apply keeps_State_faultRecord
    | with_reducible refine Keeps.ite ?_ ?_
    | split
    | with_reducible intro _
    | dsimp only
    | with_reducible refine Keeps.mkState (by with_reducible assumption)
    | with_reducible refine Keeps.mkState (keeps_State_faultRecord ?_))

theorem keeps_State_noteRevoke {s0 : State} {s : State} {core : Nat} {part status : Nat}
    (h0 : Keeps s0 s) : Keeps s0 (State.noteRevoke s core part status) := by
  unfold State.noteRevoke
  repeat' (first
    | with_reducible assumption
    | with_reducible apply keeps_State_faultRecord
    | with_reducible refine Keeps.ite ?_ ?_
    | split
    | with_reducible intro _
    | dsimp only
    | with_reducible refine Keeps.mkState (by with_reducible assumption))

theorem keeps_State_finishLong {s0 : State} {s : State} {port ring tag status detail value : Nat}
    (h0 : Keeps s0 s) : Keeps s0 (State.finishLong s port ring tag status detail value) := by
  unfold State.finishLong
  repeat' (first
    | with_reducible assumption
    | with_reducible apply KeepsX.some
    | with_reducible exact KeepsX.none
    | with_reducible refine KeepsX.ite ?_ ?_
    | with_reducible refine Keeps.getD ?_ ?_
    | with_reducible apply keeps_State_mapRing
    | with_reducible apply keeps_State_partEvent
    | with_reducible apply keeps_State_reply
    | with_reducible refine Keeps.ite ?_ ?_
    | split)

theorem keeps_State_revokeLocks {s0 : State} {s : State} {core lctx : Nat}
    (h0 : Keeps s0 s) : Keeps s0 (State.revokeLocks s core lctx) := by
  unfold State.revokeLocks
  repeat' (first
    | with_reducible assumption
    | with_reducible apply Keeps.foldl
    | with_reducible apply Keeps.foldlQ
    | with_reducible apply Keeps.foldlP
    | with_reducible apply keeps_State_mapCore
    | with_reducible apply keeps_State_wr
    | with_reducible refine Keeps.ite ?_ ?_
    | split
    | with_reducible intro _
    | dsimp only
    | with_reducible refine Keeps.mkState (by with_reducible assumption)
    | with_reducible refine Keeps.mkState (keeps_State_mapCore ?_)
    | with_reducible refine Keeps.mkState (keeps_State_wr ?_))

theorem keeps_State_bufTake {s0 : State} {s : State} {port ring addr n : Nat}
    (h0 : Keeps s0 s) : Keeps s0 (State.bufTake s port ring addr n) := by
  unfold State.bufTake
  repeat' (first
    | with_reducible assumption
    | with_reducible apply Keeps.foldl
    | with_reducible apply Keeps.foldlQ
    | with_reducible apply Keeps.foldlP
    | with_reducible apply keeps_State_noRead
    | with_reducible apply keeps_State_vtake
    | with_reducible refine Keeps.ite ?_ ?_
    | split
    | with_reducible intro _
    | dsimp only
    | with_reducible refine Keeps.mkState (by with_reducible assumption))

theorem keeps_State_bufWrite {s0 : State} {s : State} {port ring addr : Nat} {bs : List Byte}
    (h0 : Keeps s0 s) : KeepsE s0 (State.bufWrite s port ring addr bs) := by
  unfold State.bufWrite
  repeat' (first
    | with_reducible assumption
    | with_reducible apply KeepsO.next
    | with_reducible exact KeepsO.fault
    | with_reducible apply KeepsE.ok
    | with_reducible exact KeepsE.error
    | with_reducible apply KeepsX.some
    | with_reducible exact KeepsX.none
    | with_reducible apply keeps_State_hostWrite
    | with_reducible apply keeps_State_vwrite
    | with_reducible refine Keeps.ite ?_ ?_
    | split
    | with_reducible intro _
    | dsimp only)

theorem keeps_State_copyReport {s0 : State} {s : State} {p : Nat} {l : Launch}
    (h0 : Keeps s0 s) : Keeps s0 (State.copyReport s p l) := by
  unfold State.copyReport
  repeat' (first
    | with_reducible assumption
    | with_reducible apply keeps_State_bufTake
    | with_reducible apply keeps_State_mapPart
    | with_reducible refine Keeps.ite ?_ ?_)

theorem keeps_State_finishLaunch {s0 : State} {s : State} {p : Nat} {l : Launch}
    (h0 : Keeps s0 s) : Keeps s0 (State.finishLaunch s p l) := by
  unfold State.finishLaunch
  repeat' (first
    | with_reducible assumption
    | with_reducible apply KeepsX.some
    | with_reducible exact KeepsX.none
    | with_reducible refine KeepsX.ite ?_ ?_
    | with_reducible apply keeps_State_copyReport
    | with_reducible apply keeps_State_mapPart
    | with_reducible apply keeps_State_mapRing
    | with_reducible apply keeps_State_partEvent
    | with_reducible apply keeps_State_reply
    | with_reducible refine Keeps.ite ?_ ?_)

theorem keeps_State_leaveLaunch {s0 : State} {s : State} {p core lctx status : Nat}
    (h0 : Keeps s0 s) : Keeps s0 (State.leaveLaunch s p core lctx status) := by
  unfold State.leaveLaunch
  repeat' (first
    | with_reducible assumption
    | with_reducible apply KeepsX.some
    | with_reducible exact KeepsX.none
    | with_reducible refine KeepsX.ite ?_ ?_
    | with_reducible apply keeps_State_mapPart
    | with_reducible refine Keeps.ite ?_ ?_
    | split)

theorem keeps_State_closeLaunch {s0 : State} {s : State} {p : Nat}
    (h0 : Keeps s0 s) : Keeps s0 (State.closeLaunch s p) := by
  unfold State.closeLaunch
  repeat' (first
    | with_reducible assumption
    | with_reducible apply KeepsX.some
    | with_reducible exact KeepsX.none
    | with_reducible refine KeepsX.ite ?_ ?_
    | with_reducible apply keeps_State_finishLaunch
    | with_reducible refine Keeps.ite ?_ ?_
    | split)

theorem keeps_State_spoil {s0 : State} {s : State} {m : RemMsg}
    (h0 : Keeps s0 s) : Keeps s0 (State.spoil s m) := by
  unfold State.spoil
  repeat' (first
    | with_reducible assumption
    | with_reducible refine Keeps.ite ?_ ?_
    | split
    | with_reducible intro _
    | dsimp only
    | with_reducible refine Keeps.mkState (by with_reducible assumption))

theorem keeps_State_dropRequests {s0 s : State} {core lctx : Nat} (h0 : Keeps s0 s) : Keeps s0 (State.dropRequests s core lctx) := by
  unfold State.dropRequests
  extract_lets mine ms s1 f s2
  have h1 : Keeps s0 s1 := Keeps.foldl h0 fun u x hu => Keeps.ite (keeps_State_mapCore hu) hu
  have h2 : Keeps s0 s2 := Keeps.mkState h1
  exact Keeps.ite h0 (keeps_State_mapCore (Keeps.foldl h2 fun u x hu => keeps_State_spoil hu))

theorem keeps_State_dropChain {s0 : State} {s : State} {core lctx : Nat}
    (h0 : Keeps s0 s) : Keeps s0 (State.dropChain s core lctx) := by
  unfold State.dropChain
  repeat' (first
    | with_reducible assumption
    | with_reducible apply keeps_State_mapCore
    | with_reducible refine Keeps.ite ?_ ?_)

theorem keeps_State_stopMsgs {s0 : State} {s : State} {q : JMsg → Bool}
    (h0 : Keeps s0 s) : Keeps s0 (State.stopMsgs s q) := by
  unfold State.stopMsgs
  repeat' (first
    | with_reducible assumption
    | with_reducible apply keeps_State_mapFab
    | with_reducible refine Keeps.ite ?_ ?_)

theorem keeps_State_dropColl {s0 : State} {s : State} {p core lctx : Nat}
    (h0 : Keeps s0 s) : Keeps s0 (State.dropColl s p core lctx) := by
  unfold State.dropColl
  repeat' (first
    | with_reducible assumption
    | with_reducible apply KeepsX.some
    | with_reducible exact KeepsX.none
    | with_reducible refine KeepsX.ite ?_ ?_
    | with_reducible apply keeps_State_stopMsgs
    | with_reducible refine Keeps.ite ?_ ?_
    | split
    | with_reducible intro _
    | dsimp only
    | with_reducible refine Keeps.mkState (by with_reducible assumption)
    | with_reducible refine Keeps.mkState (keeps_State_stopMsgs ?_))

theorem keeps_State_revoke {s0 : State} {s : State} {p core lctx status : Nat}
    (h0 : Keeps s0 s) : Keeps s0 (State.revoke s p core lctx status) := by
  unfold State.revoke
  repeat' (first
    | with_reducible assumption
    | with_reducible apply keeps_State_dropRequests
    | with_reducible apply keeps_State_mapPart
    | with_reducible apply keeps_State_noteRevoke
    | with_reducible apply keeps_State_revokeLocks)

theorem keeps_State_endOne {s0 s : State} {core lctx : Nat} {st : CtxSt} {status : Nat} (h0 : Keeps s0 s) :
    Keeps s0 (State.endOne s core lctx st status) := by
  unfold State.endOne
  extract_lets a k
  have ha : Keeps s0 a := Keeps.ite (keeps_State_dropChain h0) h0
  split
  · exact ha
  · extract_lets b s1 s2 s3
    have h1 : Keeps s0 s1 := Keeps.mkState (keeps_State_setCore (keeps_State_dropColl ha))
    have h2 : Keeps s0 s2 := Keeps.ite (keeps_State_revoke h1) h1
    have h3 : Keeps s0 s3 := Keeps.ite (keeps_State_mapPart h2) h2
    exact keeps_State_closeLaunch (keeps_State_partEvent (keeps_State_leaveLaunch h3))

theorem keeps_State_killAll {s0 : State} {s : State} {xs : List (Nat × Nat)}
    (h0 : Keeps s0 s) : Keeps s0 (State.killAll s xs) := by
  unfold State.killAll
  repeat' (first
    | with_reducible assumption
    | with_reducible apply Keeps.foldl
    | with_reducible apply Keeps.foldlQ
    | with_reducible apply Keeps.foldlP
    | with_reducible apply keeps_State_endOne
    | with_reducible refine Keeps.ite ?_ ?_
    | split
    | with_reducible intro _)

theorem keeps_State_faultCtx {s0 : State} {s : State} {core lctx status : Nat} {whole : Bool}
    (h0 : Keeps s0 s) : Keeps s0 (State.faultCtx s core lctx status whole) := by
  unfold State.faultCtx
  repeat' (first
    | with_reducible assumption
    | with_reducible apply keeps_State_endOne
    | with_reducible apply keeps_State_killAll
    | with_reducible refine Keeps.ite ?_ ?_
    | split
    | with_reducible intro _
    | dsimp only
    | with_reducible refine Keeps.mkState (by with_reducible assumption)
    | with_reducible refine Keeps.mkState (keeps_State_endOne ?_))

theorem keeps_State_hold {s0 : State} {s : State} {core n cause : Nat}
    (h0 : Keeps s0 s) : Keeps s0 (State.hold s core n cause) := by
  unfold State.hold
  repeat' (first
    | with_reducible assumption
    | with_reducible apply keeps_State_mapCore)

theorem keeps_State_holdIf {s0 : State} {s : State} {b : Bool} {core n : Nat}
    (h0 : Keeps s0 s) : Keeps s0 (State.holdIf s b core n) := by
  unfold State.holdIf
  repeat' (first
    | with_reducible assumption
    | with_reducible apply keeps_State_hold
    | with_reducible refine Keeps.ite ?_ ?_)

theorem keeps_State_random {s0 : State} {s : State}
    (h0 : Keeps s0 s) : KeepsP s0 (State.random s) := by
  unfold State.random
  repeat' (first
    | with_reducible assumption
    | with_reducible apply KeepsP.mk
    | with_reducible refine Keeps.ite ?_ ?_
    | split
    | with_reducible intro _
    | dsimp only
    | with_reducible refine Keeps.mkState (by with_reducible assumption))

theorem keeps_State_mapPort {s0 : State} {s : State} {p : Nat} {f : FabPort → FabPort}
    (h0 : Keeps s0 s) : Keeps s0 (State.mapPort s p f) := by
  unfold State.mapPort
  repeat' (first
    | with_reducible assumption
    | with_reducible apply keeps_State_mapFab)

theorem keeps_State_mapPeer {s0 : State} {s : State} {n : Nat} {f : Peer → Peer}
    (h0 : Keeps s0 s) : Keeps s0 (State.mapPeer s n f) := by
  unfold State.mapPeer
  repeat' (first
    | with_reducible assumption
    | with_reducible apply keeps_State_mapFab)

theorem keeps_State_mapJcnt {s0 : State} {s : State} {f : JigCnt → JigCnt}
    (h0 : Keeps s0 s) : Keeps s0 (State.mapJcnt s f) := by
  unfold State.mapJcnt
  repeat' (first
    | with_reducible assumption
    | with_reducible apply keeps_State_mapFab)

theorem keeps_State_unpause {s0 : State} {s : State} {p : Nat}
    (h0 : Keeps s0 s) : Keeps s0 (State.unpause s p) := by
  unfold State.unpause
  repeat' (first
    | with_reducible assumption
    | with_reducible apply keeps_State_mapFab
    | with_reducible apply keeps_State_mapPort
    | with_reducible refine Keeps.ite ?_ ?_)

theorem keeps_State_reline {s0 : State} {s : State}
    (h0 : Keeps s0 s) : Keeps s0 (State.reline s) := by
  unfold State.reline
  repeat' (first
    | with_reducible assumption
    | with_reducible apply KeepsX.some
    | with_reducible exact KeepsX.none
    | with_reducible refine KeepsX.ite ?_ ?_
    | with_reducible refine Keeps.getD ?_ ?_
    | with_reducible apply keeps_State_mapFab)

theorem keeps_State_portFall {s0 : State} {s : State} {p : Nat}
    (h0 : Keeps s0 s) : Keeps s0 (State.portFall s p) := by
  unfold State.portFall
  repeat' (first
    | with_reducible assumption
    | with_reducible apply keeps_State_mapFab
    | with_reducible apply keeps_State_mapPort
    | with_reducible apply keeps_State_reline
    | with_reducible refine Keeps.ite ?_ ?_)

theorem keeps_State_portDown {s0 : State} {s : State} {p lane : Nat}
    (h0 : Keeps s0 s) : Keeps s0 (State.portDown s p lane) := by
  unfold State.portDown
  repeat' (first
    | with_reducible assumption
    | with_reducible apply keeps_State_inField
    | with_reducible apply keeps_State_portFall
    | with_reducible refine Keeps.ite ?_ ?_)

theorem keeps_State_onLink {s0 : State} {s : State} {x : LinkOut}
    (h0 : Keeps s0 s) : Keeps s0 (State.onLink s x) := by
  unfold State.onLink
  repeat' (first
    | with_reducible assumption
    | with_reducible apply keeps_State_mapFab)

theorem keeps_execPortUp {s0 : State} {p : Nat} {s : State}
    (h0 : Keeps s0 s) : KeepsO s0 (execPortUp p s) := by
  unfold execPortUp
  repeat' (first
    | with_reducible assumption
    | with_reducible apply KeepsO.next
    | with_reducible exact KeepsO.fault
    | with_reducible apply KeepsE.ok
    | with_reducible exact KeepsE.error
    | with_reducible apply KeepsX.some
    | with_reducible exact KeepsX.none
    | with_reducible refine KeepsO.ite ?_ ?_
    | with_reducible apply keeps_State_mapFab
    | with_reducible apply keeps_State_mapPort
    | with_reducible apply keeps_State_onLink
    | with_reducible apply keeps_State_reline)

theorem keeps_execAlignmentLoss {s0 : State} {lane : Nat} {s : State}
    (h0 : Keeps s0 s) : KeepsO s0 (execAlignmentLoss lane s) := by
  unfold execAlignmentLoss
  repeat' (first
    | with_reducible assumption
    | with_reducible apply KeepsO.next
    | with_reducible exact KeepsO.fault
    | with_reducible apply KeepsE.ok
    | with_reducible exact KeepsE.error
    | with_reducible apply KeepsX.some
    | with_reducible exact KeepsX.none
    | with_reducible refine KeepsO.ite ?_ ?_
    | with_reducible apply keeps_State_portDown)

theorem keeps_execFecWindowEnd {s0 : State} {p corrected uncorrectable : Nat} {s : State}
    (h0 : Keeps s0 s) : KeepsO s0 (execFecWindowEnd p corrected uncorrectable s) := by
  unfold execFecWindowEnd
  repeat' (first
    | with_reducible assumption
    | with_reducible apply KeepsO.next
    | with_reducible exact KeepsO.fault
    | with_reducible apply KeepsE.ok
    | with_reducible exact KeepsE.error
    | with_reducible apply KeepsX.some
    | with_reducible exact KeepsX.none
    | with_reducible refine KeepsO.ite ?_ ?_
    | with_reducible apply keeps_State_mapPort
    | with_reducible apply keeps_State_portDown
    | with_reducible refine Keeps.ite ?_ ?_)

theorem keeps_execLinkRemoteFault {s0 : State} {p : Nat} {s : State}
    (h0 : Keeps s0 s) : KeepsO s0 (execLinkRemoteFault p s) := by
  unfold execLinkRemoteFault
  repeat' (first
    | with_reducible assumption
    | with_reducible apply KeepsO.next
    | with_reducible exact KeepsO.fault
    | with_reducible apply KeepsE.ok
    | with_reducible exact KeepsE.error
    | with_reducible apply KeepsX.some
    | with_reducible exact KeepsX.none
    | with_reducible refine KeepsO.ite ?_ ?_
    | with_reducible apply keeps_State_portDown)

theorem keeps_execLinkRetry {s0 : State} {p : Nat} {s : State}
    (h0 : Keeps s0 s) : KeepsO s0 (execLinkRetry p s) := by
  unfold execLinkRetry
  repeat' (first
    | with_reducible assumption
    | with_reducible apply KeepsO.next
    | with_reducible exact KeepsO.fault
    | with_reducible apply KeepsE.ok
    | with_reducible exact KeepsE.error
    | with_reducible apply KeepsX.some
    | with_reducible exact KeepsX.none
    | with_reducible refine KeepsO.ite ?_ ?_)

theorem keeps_State_setQuad {s0 : State} {s : State} {q : Nat} {x : Quad}
    (h0 : Keeps s0 s) : Keeps s0 (State.setQuad s q x) := by
  unfold State.setQuad
  repeat' (first
    | with_reducible assumption
    | with_reducible apply Keeps.foldl
    | with_reducible apply Keeps.foldlQ
    | with_reducible apply Keeps.foldlP
    | with_reducible apply keeps_State_faultRecord
    | with_reducible apply keeps_State_mapFab
    | with_reducible apply keeps_State_portFall
    | with_reducible refine Keeps.ite ?_ ?_
    | split
    | with_reducible intro _)

theorem keeps_execQuadConfigWrite {s0 : State} {who : Who} {q : Nat} {v : W64} {s : State}
    (h0 : Keeps s0 s) : KeepsO s0 (execQuadConfigWrite who q v s) := by
  unfold execQuadConfigWrite
  repeat' (first
    | with_reducible assumption
    | with_reducible apply KeepsO.next
    | with_reducible exact KeepsO.fault
    | with_reducible apply KeepsE.ok
    | with_reducible exact KeepsE.error
    | with_reducible apply KeepsX.some
    | with_reducible exact KeepsX.none
    | with_reducible refine KeepsO.ite ?_ ?_
    | with_reducible apply keeps_State_setQuad)

theorem keeps_execNeighbourResolution {s0 : State} {p : Nat} {r : Resolution} {s : State}
    (h0 : Keeps s0 s) : KeepsO s0 (execNeighbourResolution p r s) := by
  unfold execNeighbourResolution
  repeat' (first
    | with_reducible assumption
    | with_reducible apply KeepsX.some
    | with_reducible exact KeepsX.none
    | with_reducible apply KeepsO.next
    | with_reducible exact KeepsO.fault
    | with_reducible apply KeepsE.ok
    | with_reducible exact KeepsE.error
    | with_reducible apply KeepsX.some
    | with_reducible exact KeepsX.none
    | with_reducible refine KeepsX.ite ?_ ?_
    | with_reducible refine KeepsO.ite ?_ ?_
    | with_reducible apply keeps_State_mapPort
    | with_reducible apply keeps_State_onLink
    | with_reducible refine Keeps.ite ?_ ?_
    | split)

theorem keeps_execPfcPause {s0 : State} {p prio : Nat} {on : Bool} {s : State}
    (h0 : Keeps s0 s) : KeepsO s0 (execPfcPause p prio on s) := by
  unfold execPfcPause
  repeat' (first
    | with_reducible assumption
    | with_reducible apply KeepsO.next
    | with_reducible exact KeepsO.fault
    | with_reducible apply KeepsE.ok
    | with_reducible exact KeepsE.error
    | with_reducible apply KeepsX.some
    | with_reducible exact KeepsX.none
    | with_reducible refine KeepsO.ite ?_ ?_
    | with_reducible apply keeps_State_mapPort
    | with_reducible apply keeps_State_unpause)

theorem keeps_execPfcWatchdog {s0 : State} {p prio : Nat} {s : State}
    (h0 : Keeps s0 s) : KeepsO s0 (execPfcWatchdog p prio s) := by
  unfold execPfcWatchdog
  repeat' (first
    | with_reducible assumption
    | with_reducible apply KeepsO.next
    | with_reducible exact KeepsO.fault
    | with_reducible apply KeepsE.ok
    | with_reducible exact KeepsE.error
    | with_reducible apply KeepsX.some
    | with_reducible exact KeepsX.none
    | with_reducible refine KeepsO.ite ?_ ?_
    | with_reducible apply keeps_State_mapJcnt
    | with_reducible apply keeps_State_mapPort
    | with_reducible apply keeps_State_unpause)

theorem keeps_execPfcIgnoreExpiry {s0 : State} {p prio : Nat} {s : State}
    (h0 : Keeps s0 s) : KeepsO s0 (execPfcIgnoreExpiry p prio s) := by
  unfold execPfcIgnoreExpiry
  repeat' (first
    | with_reducible assumption
    | with_reducible apply KeepsO.next
    | with_reducible exact KeepsO.fault
    | with_reducible apply KeepsE.ok
    | with_reducible exact KeepsE.error
    | with_reducible apply KeepsX.some
    | with_reducible exact KeepsX.none
    | with_reducible refine KeepsO.ite ?_ ?_
    | with_reducible apply keeps_State_mapPort)

theorem keeps_execHsTokenRefill {s0 : State} {p : Nat} {s : State}
    (h0 : Keeps s0 s) : KeepsO s0 (execHsTokenRefill p s) := by
  unfold execHsTokenRefill
  repeat' (first
    | with_reducible assumption
    | with_reducible apply KeepsO.next
    | with_reducible exact KeepsO.fault
    | with_reducible apply KeepsE.ok
    | with_reducible exact KeepsE.error
    | with_reducible apply KeepsX.some
    | with_reducible exact KeepsX.none
    | with_reducible refine KeepsO.ite ?_ ?_
    | with_reducible apply keeps_State_mapPort)

theorem keeps_State_enterFault {s0 : State} {s : State} {p va detail : Nat}
    (h0 : Keeps s0 s) : Keeps s0 (State.enterFault s p va detail) := by
  unfold State.enterFault
  repeat' (first
    | with_reducible assumption
    | with_reducible apply KeepsX.some
    | with_reducible exact KeepsX.none
    | with_reducible refine KeepsX.ite ?_ ?_
    | with_reducible apply keeps_State_flushNotices
    | with_reducible apply keeps_State_partEvent
    | with_reducible apply keeps_State_setPart
    | with_reducible refine Keeps.ite ?_ ?_)

theorem keeps_State_raiseFault {s0 : State} {s : State} {p va detail : Nat}
    (h0 : Keeps s0 s) : Keeps s0 (State.raiseFault s p va detail) := by
  unfold State.raiseFault
  repeat' (first
    | with_reducible assumption
    | with_reducible apply keeps_State_enterFault
    | with_reducible apply keeps_State_setPart
    | with_reducible refine Keeps.ite ?_ ?_)

theorem keeps_State_admitFaults {s0 : State} {s : State} {p : Nat}
    (h0 : Keeps s0 s) : Keeps s0 (State.admitFaults s p) := by
  unfold State.admitFaults
  repeat' (first
    | with_reducible assumption
    | with_reducible apply Keeps.foldl
    | with_reducible apply Keeps.foldlQ
    | with_reducible apply Keeps.foldlP
    | with_reducible apply keeps_State_mapPart
    | with_reducible apply keeps_State_raiseFault
    | with_reducible refine Keeps.ite ?_ ?_
    | split
    | with_reducible intro _)

theorem keeps_State_startMigration {s0 : State} {s : State} {p va detail : Nat}
    (h0 : Keeps s0 s) : Keeps s0 (State.startMigration s p va detail) := by
  unfold State.startMigration
  repeat' (first
    | with_reducible assumption
    | with_reducible apply keeps_State_raiseFault
    | with_reducible apply keeps_State_setPart
    | with_reducible refine Keeps.ite ?_ ?_
    | split)

theorem keeps_State_transFault {s0 : State} {s : State} {p va : Nat} {e : TransFail} {src slot lctx : Nat} {wr : Bool} {core : Nat}
    (h0 : Keeps s0 s) : Keeps s0 (State.transFault s p va e src slot lctx wr core) := by
  unfold State.transFault
  repeat' (first
    | with_reducible assumption
    | with_reducible apply keeps_State_raiseFault
    | with_reducible apply keeps_State_startMigration
    | with_reducible apply keeps_State_wr
    | with_reducible refine Keeps.ite ?_ ?_
    | split)

theorem keeps_State_streamPages {s0 : State} {s : State} {core : Nat} {pages : List Nat}
    (h0 : Keeps s0 s) : Keeps s0 (State.streamPages s core pages) := by
  unfold State.streamPages
  repeat' (first
    | with_reducible assumption
    | with_reducible apply keeps_State_mapCore)

theorem keeps_State_ckPages {s0 : State} {s : State} {core va n : Nat}
    (h0 : Keeps s0 s) : Keeps s0 (State.ckPages s core va n) := by
  unfold State.ckPages
  repeat' (first
    | with_reducible assumption
    | with_reducible apply keeps_State_mapCore)

theorem keeps_State_enginePages {s0 : State} {s : State} {engine p : Nat} {pages : List Nat}
    (h0 : Keeps s0 s) : Keeps s0 (State.enginePages s engine p pages) := by
  unfold State.enginePages
  repeat' (first
    | with_reducible assumption
    | with_reducible refine Keeps.ite ?_ ?_
    | split
    | with_reducible intro _
    | dsimp only
    | with_reducible refine Keeps.mkState (by with_reducible assumption))

theorem keeps_State_areaFault {s0 : State} {s : State} {core lctx va n src : Nat} {wr : Bool}
    (h0 : Keeps s0 s) : Keeps s0 (State.areaFault s core lctx va n src wr) := by
  unfold State.areaFault
  repeat' (first
    | with_reducible assumption
    | with_reducible apply KeepsX.some
    | with_reducible exact KeepsX.none
    | with_reducible refine KeepsX.ite ?_ ?_
    | with_reducible apply keeps_State_faultCtx
    | with_reducible apply keeps_State_transFault
    | with_reducible apply keeps_State_wr
    | with_reducible refine Keeps.ite ?_ ?_
    | split)

theorem keeps_State_issueTaking {s0 : State} {s : State} {h : Head} {mask rate cycles : Nat}
    (h0 : Keeps s0 s) : Keeps s0 (State.issueTaking s h mask rate cycles) := by
  unfold State.issueTaking
  repeat' (first
    | with_reducible assumption
    | with_reducible apply KeepsX.some
    | with_reducible exact KeepsX.none
    | with_reducible refine KeepsX.ite ?_ ?_
    | with_reducible apply Keeps.foldl
    | with_reducible apply Keeps.foldlQ
    | with_reducible apply Keeps.foldlP
    | with_reducible apply keeps_State_chargeIssue
    | with_reducible apply keeps_State_setCore)

theorem keeps_State_issue {s0 : State} {s : State} {h : Head} {rate cycles : Nat}
    (h0 : Keeps s0 s) : Keeps s0 (State.issue s h rate cycles) := by
  unfold State.issue
  repeat' (first
    | with_reducible assumption
    | with_reducible apply keeps_State_issueTaking)

theorem keeps_State_badHead {s0 : State} {s : State} {core n : Nat}
    (h0 : Keeps s0 s) : Keeps s0 (State.badHead s core n) := by
  unfold State.badHead
  repeat' (first
    | with_reducible assumption
    | with_reducible apply KeepsX.some
    | with_reducible exact KeepsX.none
    | with_reducible refine KeepsX.ite ?_ ?_
    | with_reducible apply keeps_State_faultCtx
    | with_reducible refine Keeps.ite ?_ ?_
    | split)

theorem keeps_State_settle {s0 : State} {s : State} {core n : Nat}
    (h0 : Keeps s0 s) : Keeps s0 (State.settle s core n) := by
  unfold State.settle
  repeat' (first
    | with_reducible assumption
    | with_reducible apply keeps_State_badHead
    | with_reducible apply keeps_State_mapCore)

theorem keeps_State_done {s0 : State} {s : State} {h : Head}
    (h0 : Keeps s0 s) : Keeps s0 (State.done s h) := by
  unfold State.done
  repeat' (first
    | with_reducible assumption
    | with_reducible apply keeps_State_mapCore
    | with_reducible apply keeps_State_settle
    | with_reducible refine Keeps.ite ?_ ?_)

theorem keeps_State_leave {s0 : State} {s : State} {h : Head} {kind : PendKind}
    (h0 : Keeps s0 s) : KeepsP s0 (State.leave s h kind) := by
  unfold State.leave
  repeat' (first
    | with_reducible assumption
    | with_reducible apply KeepsP.mk
    | with_reducible apply keeps_State_setCore)

theorem keeps_State_skipped {s0 : State} {s : State} {h : Head} {silent : Bool}
    (h0 : Keeps s0 s) : Keeps s0 (State.skipped s h silent) := by
  unfold State.skipped
  repeat' (first
    | with_reducible assumption
    | with_reducible apply keeps_State_done
    | with_reducible apply keeps_State_issue
    | with_reducible apply keeps_State_issueTaking
    | with_reducible apply keeps_State_settle
    | with_reducible refine Keeps.ite ?_ ?_)

theorem keeps_work {s0 : State} {core n op : Nat} {s : State} {body : Head → State → State} {onSkip : Head → State → State} (h_body : ∀ (z0 : Head) (z1 : State), Keeps s0 z1 → Keeps s0 (body z0 z1)) (h_onSkip : ∀ (z0 : Head) (z1 : State), Keeps s0 z1 → Keeps s0 (onSkip z0 z1))
    (h0 : Keeps s0 s) : KeepsO s0 (work core n op s body onSkip) := by
  unfold work
  repeat' (first
    | with_reducible assumption
    | with_reducible apply KeepsO.next
    | with_reducible exact KeepsO.fault
    | with_reducible apply KeepsE.ok
    | with_reducible exact KeepsE.error
    | with_reducible apply KeepsX.some
    | with_reducible exact KeepsX.none
    | with_reducible refine KeepsO.ite ?_ ?_
    | with_reducible apply h_body
    | with_reducible apply h_onSkip
    | with_reducible apply keeps_State_faultCtx
    | with_reducible apply keeps_State_hold
    | with_reducible apply keeps_State_skipped
    | with_reducible refine Keeps.ite ?_ ?_
    | split)

theorem keeps_State_pay {s0 : State} {s : State} {h : Head} {natural cycles : Nat} {k : State → State} (h_k : ∀ (z0 : State), Keeps s0 z0 → Keeps s0 (k z0))
    (h0 : Keeps s0 s) : Keeps s0 (State.pay s h natural cycles k) := by
  unfold State.pay
  repeat' (first
    | with_reducible assumption
    | with_reducible apply KeepsO.next
    | with_reducible exact KeepsO.fault
    | with_reducible apply KeepsE.ok
    | with_reducible exact KeepsE.error
    | with_reducible apply KeepsX.some
    | with_reducible exact KeepsX.none
    | with_reducible apply h_k
    | with_reducible apply keeps_State_hold
    | with_reducible apply keeps_State_issue
    | with_reducible refine Keeps.ite ?_ ?_)

theorem keeps_State_failed {s0 : State} {s : State} {h : Head} {status : Nat}
    (h0 : Keeps s0 s) : Keeps s0 (State.failed s h status) := by
  unfold State.failed
  repeat' (first
    | with_reducible assumption
    | with_reducible apply keeps_State_faultCtx
    | with_reducible apply keeps_State_mapCore
    | with_reducible refine Keeps.ite ?_ ?_)

theorem keeps_State_imageSusp {s0 : State} {s : State} {core lctx slot : Nat}
    (h0 : Keeps s0 s) : Keeps s0 (State.imageSusp s core lctx slot) := by
  unfold State.imageSusp
  repeat' (first
    | with_reducible assumption
    | with_reducible apply keeps_State_wr
    | with_reducible refine Keeps.ite ?_ ?_)

theorem keeps_State_writeImage {s0 : State} {s : State} {core : Nat} {c : Ctx}
    (h0 : Keeps s0 s) : Keeps s0 (State.writeImage s core c) := by
  unfold State.writeImage
  repeat' (first
    | with_reducible assumption
    | with_reducible apply keeps_State_wr
    | with_reducible refine Keeps.ite ?_ ?_
    | split
    | with_reducible intro _
    | dsimp only
    | with_reducible refine Keeps.mkState (by with_reducible assumption))

end Sys2Proof.Machine
end

