-- ==== Sys2Proof/Laws/KeepsWork.lean ====
section
/-! SUPPORT. That the queue and the canonical form of memory are kept by the sequencer, the matrix and vector engines, scratch and streams:
one lemma for each operation. -/

-- One proof at a time: the thread of every theorem of a large file would not fit in memory.
set_option Elab.async false

namespace Sys2Proof.Machine

open Sys2Proof

theorem keeps_State_emptyBuf {s0 : State} {s : State} {core n : Nat} {ptr : Option Ptr}
    (h0 : Keeps s0 s) : Keeps s0 (State.emptyBuf s core n ptr) := by
  unfold State.emptyBuf
  repeat' (first
    | with_reducible assumption
    | with_reducible refine Keeps.getD ?_ ?_
    | with_reducible apply keeps_State_mapCore
    | with_reducible apply keeps_State_setSlot)

theorem keeps_State_enterBuf {s0 : State} {s : State} {core n : Nat} {c : Ctx} {f : Fetched}
    (h0 : Keeps s0 s) : Keeps s0 (State.enterBuf s core n c f) := by
  unfold State.enterBuf
  repeat' (first
    | with_reducible assumption
    | with_reducible apply KeepsX.some
    | with_reducible exact KeepsX.none
    | with_reducible refine KeepsX.ite ?_ ?_
    | with_reducible apply keeps_State_mapCore
    | with_reducible apply keeps_State_setSlot
    | with_reducible apply keeps_State_settle
    | with_reducible refine Keeps.ite ?_ ?_)

theorem keeps_execCommandFetch {s0 : State} {core n : Nat} {s : State}
    (h0 : Keeps s0 s) : KeepsO s0 (execCommandFetch core n s) := by
  unfold execCommandFetch
  repeat' (first
    | with_reducible assumption
    | with_reducible apply KeepsX.some
    | with_reducible exact KeepsX.none
    | with_reducible apply KeepsO.next
    | with_reducible exact KeepsO.fault
    | with_reducible apply KeepsE.ok
    | with_reducible exact KeepsE.error
    | with_reducible apply KeepsX.some
    | with_reducible exact KeepsX.none
    | with_reducible refine KeepsX.ite ?_ ?_
    | with_reducible refine KeepsO.ite ?_ ?_
    | with_reducible apply keeps_State_enterBuf
    | with_reducible apply keeps_State_mapCore
    | with_reducible refine Keeps.ite ?_ ?_
    | split)

theorem keeps_workNop {s0 : State} {core n : Nat} {s : State}
    (h0 : Keeps s0 s) : KeepsO s0 (workNop core n s) := by
  unfold workNop
  repeat' (first
    | with_reducible assumption
    | with_reducible apply KeepsO.next
    | with_reducible exact KeepsO.fault
    | with_reducible apply KeepsE.ok
    | with_reducible exact KeepsE.error
    | with_reducible apply KeepsX.some
    | with_reducible exact KeepsX.none
    | with_reducible refine KeepsO.ite ?_ ?_
    | with_reducible apply keeps_State_done
    | with_reducible apply keeps_State_pay
    | with_reducible apply keeps_work
    | with_reducible refine Keeps.ite ?_ ?_
    | split
    | with_reducible intro _)

theorem keeps_workWait {s0 : State} {core n : Nat} {s : State}
    (h0 : Keeps s0 s) : KeepsO s0 (workWait core n s) := by
  unfold workWait
  repeat' (first
    | with_reducible assumption
    | with_reducible apply KeepsO.next
    | with_reducible exact KeepsO.fault
    | with_reducible apply KeepsE.ok
    | with_reducible exact KeepsE.error
    | with_reducible apply KeepsX.some
    | with_reducible exact KeepsX.none
    | with_reducible refine KeepsO.ite ?_ ?_
    | with_reducible apply keeps_State_done
    | with_reducible apply keeps_State_mapSlot
    | with_reducible apply keeps_State_pay
    | with_reducible apply keeps_work
    | with_reducible refine Keeps.ite ?_ ?_
    | split
    | with_reducible intro _)

theorem keeps_execWaitTimeout {s0 : State} {core lctx : Nat} {s : State}
    (h0 : Keeps s0 s) : KeepsO s0 (execWaitTimeout core lctx s) := by
  unfold execWaitTimeout
  repeat' (first
    | with_reducible assumption
    | with_reducible apply KeepsX.some
    | with_reducible exact KeepsX.none
    | with_reducible apply KeepsO.next
    | with_reducible exact KeepsO.fault
    | with_reducible apply KeepsE.ok
    | with_reducible exact KeepsE.error
    | with_reducible apply KeepsX.some
    | with_reducible exact KeepsX.none
    | with_reducible refine KeepsX.ite ?_ ?_
    | with_reducible refine KeepsO.ite ?_ ?_
    | with_reducible refine Keeps.getD ?_ ?_
    | with_reducible apply keeps_State_faultCtx
    | with_reducible refine Keeps.ite ?_ ?_
    | split)

theorem keeps_State_sendRemote {s0 : State} {s : State} {target : Nat} {m : RemMsg}
    (h0 : Keeps s0 s) : Keeps s0 (State.sendRemote s target m) := by
  unfold State.sendRemote
  repeat' (first
    | with_reducible assumption
    | with_reducible apply keeps_State_mapCore
    | with_reducible refine Keeps.ite ?_ ?_
    | split
    | with_reducible intro _
    | dsimp only
    | with_reducible refine Keeps.mkState (by with_reducible assumption))

theorem keeps_State_sendSignal {s0 : State} {s : State} {core n target lctx mask id : Nat}
    (h0 : Keeps s0 s) : Keeps s0 (State.sendSignal s core n target lctx mask id) := by
  unfold State.sendSignal
  repeat' (first
    | with_reducible assumption
    | with_reducible apply keeps_State_chargeData
    | with_reducible apply keeps_State_mapCore
    | with_reducible apply keeps_State_sendRemote)

theorem keeps_workSignal {s0 : State} {core n : Nat} {s : State}
    (h0 : Keeps s0 s) : KeepsO s0 (workSignal core n s) := by
  unfold workSignal
  repeat' (first
    | with_reducible assumption
    | with_reducible apply KeepsO.next
    | with_reducible exact KeepsO.fault
    | with_reducible apply KeepsE.ok
    | with_reducible exact KeepsE.error
    | with_reducible apply KeepsX.some
    | with_reducible exact KeepsX.none
    | with_reducible refine KeepsO.ite ?_ ?_
    | with_reducible apply keeps_State_done
    | with_reducible apply keeps_State_hold
    | with_reducible refine KeepsP.snd (keeps_State_leave ?_)
    | with_reducible refine KeepsP.out (keeps_State_leave ?_) (by assumption)
    | with_reducible apply keeps_State_leave
    | with_reducible apply keeps_State_mapCore
    | with_reducible apply keeps_State_pay
    | with_reducible apply keeps_State_sendSignal
    | with_reducible apply keeps_State_settle
    | with_reducible apply keeps_work
    | with_reducible apply Keeps.ofId
    | with_reducible refine Keeps.ite ?_ ?_
    | split
    | with_reducible intro _)

theorem keeps_workFence {s0 : State} {core n : Nat} {s : State}
    (h0 : Keeps s0 s) : KeepsO s0 (workFence core n s) := by
  unfold workFence
  repeat' (first
    | with_reducible assumption
    | with_reducible apply KeepsO.next
    | with_reducible exact KeepsO.fault
    | with_reducible apply KeepsE.ok
    | with_reducible exact KeepsE.error
    | with_reducible apply KeepsX.some
    | with_reducible exact KeepsX.none
    | with_reducible refine KeepsO.ite ?_ ?_
    | with_reducible apply keeps_State_done
    | with_reducible apply keeps_State_failed
    | with_reducible apply keeps_State_pay
    | with_reducible apply keeps_work
    | with_reducible refine Keeps.ite ?_ ?_
    | split
    | with_reducible intro _)

theorem keeps_workLoop {s0 : State} {core n : Nat} {s : State}
    (h0 : Keeps s0 s) : KeepsO s0 (workLoop core n s) := by
  unfold workLoop
  repeat' (first
    | with_reducible assumption
    | with_reducible apply KeepsO.next
    | with_reducible exact KeepsO.fault
    | with_reducible apply KeepsE.ok
    | with_reducible exact KeepsE.error
    | with_reducible apply KeepsX.some
    | with_reducible exact KeepsX.none
    | with_reducible refine KeepsO.ite ?_ ?_
    | with_reducible apply keeps_State_done
    | with_reducible apply keeps_State_failed
    | with_reducible apply keeps_State_mapSlot
    | with_reducible apply keeps_State_hold
    | with_reducible apply keeps_State_mapCore
    | with_reducible apply keeps_State_pay
    | with_reducible apply keeps_work
    | with_reducible refine Keeps.ite ?_ ?_
    | split
    | with_reducible intro _
    | dsimp only)

theorem keeps_workEndloop {s0 : State} {core n : Nat} {s : State}
    (h0 : Keeps s0 s) : KeepsO s0 (workEndloop core n s) := by
  unfold workEndloop
  repeat' (first
    | with_reducible assumption
    | with_reducible apply KeepsO.next
    | with_reducible exact KeepsO.fault
    | with_reducible apply KeepsE.ok
    | with_reducible exact KeepsE.error
    | with_reducible apply KeepsX.some
    | with_reducible exact KeepsX.none
    | with_reducible refine KeepsO.ite ?_ ?_
    | with_reducible apply keeps_State_done
    | with_reducible apply keeps_State_failed
    | with_reducible apply keeps_State_mapSlot
    | with_reducible apply keeps_State_pay
    | with_reducible apply keeps_work
    | with_reducible refine Keeps.ite ?_ ?_
    | split
    | with_reducible intro _)

theorem keeps_workJump {s0 : State} {core n : Nat} {s : State}
    (h0 : Keeps s0 s) : KeepsO s0 (workJump core n s) := by
  unfold workJump
  repeat' (first
    | with_reducible assumption
    | with_reducible apply KeepsO.next
    | with_reducible exact KeepsO.fault
    | with_reducible apply KeepsE.ok
    | with_reducible exact KeepsE.error
    | with_reducible apply KeepsX.some
    | with_reducible exact KeepsX.none
    | with_reducible refine KeepsO.ite ?_ ?_
    | with_reducible apply keeps_State_done
    | with_reducible apply keeps_State_failed
    | with_reducible apply keeps_State_mapSlot
    | with_reducible apply keeps_State_pay
    | with_reducible apply keeps_work
    | with_reducible refine Keeps.ite ?_ ?_
    | split
    | with_reducible intro _)

theorem keeps_workCall {s0 : State} {core n : Nat} {s : State}
    (h0 : Keeps s0 s) : KeepsO s0 (workCall core n s) := by
  unfold workCall
  repeat' (first
    | with_reducible assumption
    | with_reducible apply KeepsO.next
    | with_reducible exact KeepsO.fault
    | with_reducible apply KeepsE.ok
    | with_reducible exact KeepsE.error
    | with_reducible apply KeepsX.some
    | with_reducible exact KeepsX.none
    | with_reducible refine KeepsO.ite ?_ ?_
    | with_reducible apply keeps_State_done
    | with_reducible apply keeps_State_failed
    | with_reducible apply keeps_State_mapSlot
    | with_reducible apply keeps_State_pay
    | with_reducible apply keeps_work
    | with_reducible refine Keeps.ite ?_ ?_
    | split
    | with_reducible intro _)

theorem keeps_workYield {s0 : State} {core n : Nat} {s : State}
    (h0 : Keeps s0 s) : KeepsO s0 (workYield core n s) := by
  unfold workYield
  repeat' (first
    | with_reducible assumption
    | with_reducible apply KeepsO.next
    | with_reducible exact KeepsO.fault
    | with_reducible apply KeepsE.ok
    | with_reducible exact KeepsE.error
    | with_reducible apply KeepsX.some
    | with_reducible exact KeepsX.none
    | with_reducible refine KeepsO.ite ?_ ?_
    | with_reducible apply keeps_State_done
    | with_reducible apply keeps_State_pay
    | with_reducible apply keeps_work
    | with_reducible refine Keeps.ite ?_ ?_
    | split
    | with_reducible intro _)

theorem keeps_workHalt {s0 : State} {core n : Nat} {s : State}
    (h0 : Keeps s0 s) : KeepsO s0 (workHalt core n s) := by
  unfold workHalt
  repeat' (first
    | with_reducible assumption
    | with_reducible apply KeepsO.next
    | with_reducible exact KeepsO.fault
    | with_reducible apply KeepsE.ok
    | with_reducible exact KeepsE.error
    | with_reducible apply KeepsX.some
    | with_reducible exact KeepsX.none
    | with_reducible refine KeepsO.ite ?_ ?_
    | with_reducible apply keeps_State_endOne
    | with_reducible apply keeps_State_failed
    | with_reducible apply keeps_State_notify
    | with_reducible apply keeps_State_pay
    | with_reducible apply keeps_work
    | with_reducible refine Keeps.ite ?_ ?_
    | split
    | with_reducible intro _)

theorem keeps_workReservedCommand {s0 : State} {core n : Nat} {s : State}
    (h0 : Keeps s0 s) : KeepsO s0 (workReservedCommand core n s) := by
  unfold workReservedCommand
  repeat' (first
    | with_reducible assumption
    | with_reducible apply KeepsO.next
    | with_reducible exact KeepsO.fault
    | with_reducible apply KeepsE.ok
    | with_reducible exact KeepsE.error
    | with_reducible apply KeepsX.some
    | with_reducible exact KeepsX.none
    | with_reducible refine KeepsO.ite ?_ ?_
    | with_reducible apply keeps_State_faultCtx
    | with_reducible apply keeps_State_hold
    | with_reducible refine Keeps.ite ?_ ?_
    | split)

theorem keeps_execSwapOnBlock {s0 : State} {core : Nat} {s : State}
    (h0 : Keeps s0 s) : KeepsO s0 (execSwapOnBlock core s) := by
  unfold execSwapOnBlock
  repeat' (first
    | with_reducible assumption
    | with_reducible apply KeepsX.some
    | with_reducible exact KeepsX.none
    | with_reducible apply KeepsO.next
    | with_reducible exact KeepsO.fault
    | with_reducible apply KeepsE.ok
    | with_reducible exact KeepsE.error
    | with_reducible apply KeepsX.some
    | with_reducible exact KeepsX.none
    | with_reducible refine KeepsX.ite ?_ ?_
    | with_reducible refine KeepsO.ite ?_ ?_
    | with_reducible apply keeps_State_setCore
    | with_reducible refine Keeps.ite ?_ ?_
    | split)

theorem keeps_execSwapQuantumExpiry {s0 : State} {core lctx : Nat} {s : State}
    (h0 : Keeps s0 s) : KeepsO s0 (execSwapQuantumExpiry core lctx s) := by
  unfold execSwapQuantumExpiry
  repeat' (first
    | with_reducible assumption
    | with_reducible apply KeepsX.some
    | with_reducible exact KeepsX.none
    | with_reducible apply KeepsO.next
    | with_reducible exact KeepsO.fault
    | with_reducible apply KeepsE.ok
    | with_reducible exact KeepsE.error
    | with_reducible apply KeepsX.some
    | with_reducible exact KeepsX.none
    | with_reducible refine KeepsX.ite ?_ ?_
    | with_reducible refine KeepsO.ite ?_ ?_
    | with_reducible apply keeps_State_setCore
    | with_reducible refine Keeps.ite ?_ ?_
    | split)

theorem keeps_execFreeSlotAdmission {s0 : State} {core : Nat} {s : State}
    (h0 : Keeps s0 s) : KeepsO s0 (execFreeSlotAdmission core s) := by
  unfold execFreeSlotAdmission
  repeat' (first
    | with_reducible assumption
    | with_reducible apply KeepsX.some
    | with_reducible exact KeepsX.none
    | with_reducible apply KeepsO.next
    | with_reducible exact KeepsO.fault
    | with_reducible apply KeepsE.ok
    | with_reducible exact KeepsE.error
    | with_reducible apply KeepsX.some
    | with_reducible exact KeepsX.none
    | with_reducible refine KeepsX.ite ?_ ?_
    | with_reducible refine KeepsO.ite ?_ ?_
    | with_reducible apply keeps_State_setCore
    | with_reducible refine Keeps.ite ?_ ?_
    | split)

theorem keeps_State_spillAcc {s0 : State} {s : State} {core phys psave : Nat}
    (h0 : Keeps s0 s) : KeepsX s0 (State.spillAcc s core phys psave) := by
  unfold State.spillAcc
  repeat' (first
    | with_reducible assumption
    | with_reducible apply KeepsO.next
    | with_reducible exact KeepsO.fault
    | with_reducible apply KeepsE.ok
    | with_reducible exact KeepsE.error
    | with_reducible apply KeepsX.some
    | with_reducible exact KeepsX.none
    | with_reducible refine KeepsX.ite ?_ ?_
    | with_reducible apply keeps_State_chargeData
    | with_reducible apply keeps_State_ckPages
    | with_reducible apply keeps_State_mapCore
    | with_reducible apply keeps_State_vwrite)

theorem keeps_State_drainAll {s0 s : State} {core lctx psave : Nat} (h0 : Keeps s0 s) :
    KeepsE s0 (State.drainAll s core lctx psave) := by
  unfold State.drainAll
  refine KeepsE.foldlM h0 ?_
  intro u x hu
  dsimp only
  split
  · split
    · next t e => exact KeepsE.ok (KeepsX.out (keeps_State_spillAcc hu) e)
    · exact KeepsE.error
  · exact KeepsE.ok hu

theorem keeps_execSwapImageWrite {s0 : State} {core : Nat} {s : State}
    (h0 : Keeps s0 s) : KeepsO s0 (execSwapImageWrite core s) := by
  unfold execSwapImageWrite
  repeat' (first
    | with_reducible assumption
    | with_reducible apply KeepsX.some
    | with_reducible exact KeepsX.none
    | with_reducible apply KeepsO.next
    | with_reducible exact KeepsO.fault
    | with_reducible apply KeepsE.ok
    | with_reducible exact KeepsE.error
    | with_reducible apply KeepsX.some
    | with_reducible exact KeepsX.none
    | with_reducible refine KeepsX.ite ?_ ?_
    | with_reducible refine KeepsO.ite ?_ ?_
    | with_reducible apply keeps_State_areaFault
    | with_reducible refine KeepsE.out (keeps_State_drainAll ?_) (by assumption)
    | with_reducible apply keeps_State_drainAll
    | with_reducible apply keeps_State_mapCore
    | with_reducible apply keeps_State_writeImage
    | with_reducible refine Keeps.ite ?_ ?_
    | split
    | with_reducible intro _
    | dsimp only)

theorem keeps_execSwapEnd {s0 : State} {core : Nat} {s : State}
    (h0 : Keeps s0 s) : KeepsO s0 (execSwapEnd core s) := by
  unfold execSwapEnd
  repeat' (first
    | with_reducible assumption
    | with_reducible apply KeepsX.some
    | with_reducible exact KeepsX.none
    | with_reducible apply KeepsO.next
    | with_reducible exact KeepsO.fault
    | with_reducible apply KeepsE.ok
    | with_reducible exact KeepsE.error
    | with_reducible apply KeepsX.some
    | with_reducible exact KeepsX.none
    | with_reducible refine KeepsX.ite ?_ ?_
    | with_reducible refine KeepsO.ite ?_ ?_
    | with_reducible apply Keeps.foldl
    | with_reducible apply Keeps.foldlQ
    | with_reducible apply Keeps.foldlP
    | with_reducible apply keeps_State_badHead
    | with_reducible apply keeps_State_faultCtx
    | with_reducible apply keeps_State_mapCore
    | with_reducible apply keeps_State_setCore
    | with_reducible refine Keeps.ite ?_ ?_
    | split
    | with_reducible intro _
    | dsimp only)

theorem keeps_execRemoteSignalArrival {s0 : State} {core : Nat} {s : State}
    (h0 : Keeps s0 s) : KeepsO s0 (execRemoteSignalArrival core s) := by
  unfold execRemoteSignalArrival
  repeat' (first
    | with_reducible assumption
    | with_reducible apply KeepsX.some
    | with_reducible exact KeepsX.none
    | with_reducible apply KeepsO.next
    | with_reducible exact KeepsO.fault
    | with_reducible apply KeepsE.ok
    | with_reducible exact KeepsE.error
    | with_reducible apply KeepsX.some
    | with_reducible exact KeepsX.none
    | with_reducible refine KeepsX.ite ?_ ?_
    | with_reducible refine KeepsO.ite ?_ ?_
    | with_reducible apply keeps_State_badHead
    | with_reducible apply keeps_State_faultCtx
    | with_reducible apply keeps_State_mapCore
    | with_reducible apply Keeps.ofId
    | with_reducible refine Keeps.ite ?_ ?_
    | split
    | with_reducible intro _
    | dsimp only)

theorem keeps_startPass {s0 : State} {h : Head} {s : State} {pl : PassPlan}
    (h0 : Keeps s0 s) : Keeps s0 (startPass h s pl) := by
  unfold startPass
  repeat' (first
    | with_reducible assumption
    | with_reducible apply KeepsX.some
    | with_reducible exact KeepsX.none
    | with_reducible refine KeepsX.ite ?_ ?_
    | with_reducible apply keeps_State_hold
    | with_reducible refine KeepsP.snd (keeps_State_leave ?_)
    | with_reducible refine KeepsP.out (keeps_State_leave ?_) (by assumption)
    | with_reducible apply keeps_State_leave
    | with_reducible apply keeps_State_mapCore
    | with_reducible apply keeps_State_pay
    | with_reducible apply keeps_State_setCore
    | with_reducible apply keeps_State_settle
    | with_reducible apply Keeps.ofId
    | with_reducible refine Keeps.ite ?_ ?_
    | split
    | with_reducible intro _)

theorem keeps_runPass {s0 : State} {h : Head} {s : State} {pl : Except Nat PassPlan}
    (h0 : Keeps s0 s) : Keeps s0 (runPass h s pl) := by
  unfold runPass
  repeat' (first
    | with_reducible assumption
    | with_reducible apply keeps_State_failed
    | with_reducible apply keeps_startPass
    | with_reducible refine Keeps.ite ?_ ?_
    | split)

theorem keeps_workMm {s0 : State} {core n : Nat} {s : State}
    (h0 : Keeps s0 s) : KeepsO s0 (workMm core n s) := by
  unfold workMm
  repeat' (first
    | with_reducible assumption
    | with_reducible apply KeepsO.next
    | with_reducible exact KeepsO.fault
    | with_reducible apply KeepsE.ok
    | with_reducible exact KeepsE.error
    | with_reducible apply KeepsX.some
    | with_reducible exact KeepsX.none
    | with_reducible refine KeepsO.ite ?_ ?_
    | with_reducible apply keeps_State_done
    | with_reducible apply keeps_State_failed
    | with_reducible apply keeps_State_hold
    | with_reducible apply keeps_State_issue
    | with_reducible apply keeps_State_mapCore
    | with_reducible apply keeps_runPass
    | with_reducible apply keeps_work
    | with_reducible refine Keeps.ite ?_ ?_
    | split
    | with_reducible intro _)

theorem keeps_workMmWide {s0 : State} {core n : Nat} {s : State}
    (h0 : Keeps s0 s) : KeepsO s0 (workMmWide core n s) := by
  unfold workMmWide
  repeat' (first
    | with_reducible assumption
    | with_reducible apply KeepsO.next
    | with_reducible exact KeepsO.fault
    | with_reducible apply KeepsE.ok
    | with_reducible exact KeepsE.error
    | with_reducible apply KeepsX.some
    | with_reducible exact KeepsX.none
    | with_reducible refine KeepsO.ite ?_ ?_
    | with_reducible apply keeps_runPass
    | with_reducible apply keeps_work
    | with_reducible refine Keeps.ite ?_ ?_
    | split
    | with_reducible intro _)

theorem keeps_workMmSemi {s0 : State} {core n : Nat} {s : State}
    (h0 : Keeps s0 s) : KeepsO s0 (workMmSemi core n s) := by
  unfold workMmSemi
  repeat' (first
    | with_reducible assumption
    | with_reducible apply KeepsO.next
    | with_reducible exact KeepsO.fault
    | with_reducible apply KeepsE.ok
    | with_reducible exact KeepsE.error
    | with_reducible apply KeepsX.some
    | with_reducible exact KeepsX.none
    | with_reducible refine KeepsO.ite ?_ ?_
    | with_reducible apply keeps_runPass
    | with_reducible apply keeps_work
    | with_reducible refine Keeps.ite ?_ ?_
    | split
    | with_reducible intro _)

theorem keeps_workMmDist {s0 : State} {core n : Nat} {s : State}
    (h0 : Keeps s0 s) : KeepsO s0 (workMmDist core n s) := by
  unfold workMmDist
  repeat' (first
    | with_reducible assumption
    | with_reducible apply KeepsO.next
    | with_reducible exact KeepsO.fault
    | with_reducible apply KeepsE.ok
    | with_reducible exact KeepsE.error
    | with_reducible apply KeepsX.some
    | with_reducible exact KeepsX.none
    | with_reducible refine KeepsO.ite ?_ ?_
    | with_reducible apply keeps_runPass
    | with_reducible apply keeps_work
    | with_reducible refine Keeps.ite ?_ ?_
    | split
    | with_reducible intro _)

theorem keeps_workMmCmp {s0 : State} {core n : Nat} {s : State}
    (h0 : Keeps s0 s) : KeepsO s0 (workMmCmp core n s) := by
  unfold workMmCmp
  repeat' (first
    | with_reducible assumption
    | with_reducible apply KeepsO.next
    | with_reducible exact KeepsO.fault
    | with_reducible apply KeepsE.ok
    | with_reducible exact KeepsE.error
    | with_reducible apply KeepsX.some
    | with_reducible exact KeepsX.none
    | with_reducible refine KeepsO.ite ?_ ?_
    | with_reducible apply keeps_runPass
    | with_reducible apply keeps_work
    | with_reducible refine Keeps.ite ?_ ?_
    | split
    | with_reducible intro _)

theorem keeps_workMmF32x3 {s0 : State} {core n : Nat} {s : State}
    (h0 : Keeps s0 s) : KeepsO s0 (workMmF32x3 core n s) := by
  unfold workMmF32x3
  repeat' (first
    | with_reducible assumption
    | with_reducible apply KeepsO.next
    | with_reducible exact KeepsO.fault
    | with_reducible apply KeepsE.ok
    | with_reducible exact KeepsE.error
    | with_reducible apply KeepsX.some
    | with_reducible exact KeepsX.none
    | with_reducible refine KeepsO.ite ?_ ?_
    | with_reducible apply keeps_runPass
    | with_reducible apply keeps_work
    | with_reducible refine Keeps.ite ?_ ?_
    | split
    | with_reducible intro _)

theorem keeps_workLoadW {s0 : State} {core n : Nat} {s : State}
    (h0 : Keeps s0 s) : KeepsO s0 (workLoadW core n s) := by
  unfold workLoadW
  repeat' (first
    | with_reducible assumption
    | with_reducible apply KeepsX.some
    | with_reducible exact KeepsX.none
    | with_reducible apply KeepsO.next
    | with_reducible exact KeepsO.fault
    | with_reducible apply KeepsE.ok
    | with_reducible exact KeepsE.error
    | with_reducible apply KeepsX.some
    | with_reducible exact KeepsX.none
    | with_reducible refine KeepsX.ite ?_ ?_
    | with_reducible refine KeepsO.ite ?_ ?_
    | with_reducible apply keeps_State_done
    | with_reducible apply keeps_State_failed
    | with_reducible apply keeps_State_hold
    | with_reducible apply keeps_State_mapCore
    | with_reducible apply keeps_State_pay
    | with_reducible apply keeps_work
    | with_reducible refine Keeps.ite ?_ ?_
    | split
    | with_reducible intro _
    | dsimp only)

theorem keeps_execPassComplete {s0 : State} {core : Nat} {s : State}
    (h0 : Keeps s0 s) : KeepsO s0 (execPassComplete core s) := by
  unfold execPassComplete
  repeat' (first
    | with_reducible assumption
    | with_reducible apply KeepsO.next
    | with_reducible exact KeepsO.fault
    | with_reducible apply KeepsE.ok
    | with_reducible exact KeepsE.error
    | with_reducible apply KeepsX.some
    | with_reducible exact KeepsX.none
    | with_reducible refine KeepsO.ite ?_ ?_
    | with_reducible apply keeps_State_mapCore
    | with_reducible apply Keeps.ofId
    | with_reducible refine Keeps.ite ?_ ?_
    | split)

theorem keeps_workDrainAcc {s0 : State} {core n : Nat} {s : State}
    (h0 : Keeps s0 s) : KeepsO s0 (workDrainAcc core n s) := by
  unfold workDrainAcc
  repeat' (first
    | with_reducible assumption
    | with_reducible apply KeepsX.some
    | with_reducible exact KeepsX.none
    | with_reducible apply KeepsO.next
    | with_reducible exact KeepsO.fault
    | with_reducible apply KeepsE.ok
    | with_reducible exact KeepsE.error
    | with_reducible apply KeepsX.some
    | with_reducible exact KeepsX.none
    | with_reducible refine KeepsX.ite ?_ ?_
    | with_reducible refine KeepsO.ite ?_ ?_
    | with_reducible apply keeps_State_failed
    | with_reducible apply keeps_State_hold
    | with_reducible refine KeepsP.snd (keeps_State_leave ?_)
    | with_reducible refine KeepsP.out (keeps_State_leave ?_) (by assumption)
    | with_reducible apply keeps_State_leave
    | with_reducible apply keeps_State_mapCore
    | with_reducible apply keeps_State_pay
    | with_reducible apply keeps_State_settle
    | with_reducible apply keeps_work
    | with_reducible apply Keeps.ofId
    | with_reducible refine Keeps.ite ?_ ?_
    | split
    | with_reducible intro _
    | dsimp only)

theorem keeps_execDrainComplete {s0 : State} {core : Nat} {s : State}
    (h0 : Keeps s0 s) : KeepsO s0 (execDrainComplete core s) := by
  unfold execDrainComplete
  repeat' (first
    | with_reducible assumption
    | with_reducible apply KeepsX.some
    | with_reducible exact KeepsX.none
    | with_reducible apply KeepsO.next
    | with_reducible exact KeepsO.fault
    | with_reducible apply KeepsE.ok
    | with_reducible exact KeepsE.error
    | with_reducible apply KeepsX.some
    | with_reducible exact KeepsX.none
    | with_reducible refine KeepsX.ite ?_ ?_
    | with_reducible refine KeepsO.ite ?_ ?_
    | with_reducible apply keeps_State_mapCore
    | with_reducible apply keeps_State_wr
    | with_reducible apply Keeps.ofId
    | with_reducible refine Keeps.ite ?_ ?_
    | split)

theorem keeps_execAccSlotSpill {s0 : State} {core n : Nat} {s : State}
    (h0 : Keeps s0 s) : KeepsO s0 (execAccSlotSpill core n s) := by
  unfold execAccSlotSpill
  repeat' (first
    | with_reducible assumption
    | with_reducible apply KeepsX.some
    | with_reducible exact KeepsX.none
    | with_reducible apply KeepsO.next
    | with_reducible exact KeepsO.fault
    | with_reducible apply KeepsE.ok
    | with_reducible exact KeepsE.error
    | with_reducible apply KeepsX.some
    | with_reducible exact KeepsX.none
    | with_reducible refine KeepsX.ite ?_ ?_
    | with_reducible refine KeepsO.ite ?_ ?_
    | with_reducible apply keeps_State_areaFault
    | with_reducible refine KeepsX.out (keeps_State_spillAcc ?_) (by assumption)
    | with_reducible apply keeps_State_spillAcc
    | with_reducible refine Keeps.ite ?_ ?_
    | split
    | with_reducible intro _
    | dsimp only)

theorem keeps_execAccSlotReload {s0 : State} {core n : Nat} {s : State}
    (h0 : Keeps s0 s) : KeepsO s0 (execAccSlotReload core n s) := by
  unfold execAccSlotReload
  repeat' (first
    | with_reducible assumption
    | with_reducible apply KeepsX.some
    | with_reducible exact KeepsX.none
    | with_reducible apply KeepsO.next
    | with_reducible exact KeepsO.fault
    | with_reducible apply KeepsE.ok
    | with_reducible exact KeepsE.error
    | with_reducible apply KeepsX.some
    | with_reducible exact KeepsX.none
    | with_reducible refine KeepsX.ite ?_ ?_
    | with_reducible refine KeepsO.ite ?_ ?_
    | with_reducible apply keeps_State_areaFault
    | with_reducible apply keeps_State_chargeData
    | with_reducible apply keeps_State_ckPages
    | with_reducible apply keeps_State_mapCore
    | with_reducible apply keeps_State_vtake
    | with_reducible apply Keeps.ofId
    | with_reducible refine Keeps.ite ?_ ?_
    | split
    | with_reducible intro _
    | dsimp only)

theorem keeps_State_wrElems {s0 : State} {s : State} {pa eb : Nat} {xs : List (Nat × Bool)}
    (h0 : Keeps s0 s) : Keeps s0 (State.wrElems s pa eb xs) := by
  unfold State.wrElems
  repeat' (first
    | with_reducible assumption
    | with_reducible apply Keeps.foldl
    | with_reducible apply Keeps.foldlQ
    | with_reducible apply Keeps.foldlP
    | with_reducible apply keeps_State_wr
    | with_reducible refine Keeps.ite ?_ ?_
    | split
    | with_reducible intro _
    | dsimp only
    | with_reducible refine Keeps.mkState (by with_reducible assumption))

theorem keeps_State_vxRaise {s0 : State} {s : State} {core : Nat} {f : Fl}
    (h0 : Keeps s0 s) : Keeps s0 (State.vxRaise s core f) := by
  unfold State.vxRaise
  repeat' (first
    | with_reducible assumption
    | with_reducible apply keeps_State_mapCore)

theorem keeps_State_putSeg {s0 : State} {s : State} {core off eb : Nat} {xs : List ((Nat × Fl) × Bool)}
    (h0 : Keeps s0 s) : Keeps s0 (State.putSeg s core off eb xs) := by
  unfold State.putSeg
  repeat' (first
    | with_reducible assumption
    | with_reducible apply Keeps.foldl
    | with_reducible apply Keeps.foldlQ
    | with_reducible apply Keeps.foldlP
    | with_reducible apply keeps_State_vxRaise
    | with_reducible apply keeps_State_wrElems)

theorem keeps_segVop {s0 : State} {s : State} {core : Nat} {c : Ctx} {r : VecRun}
    (h0 : Keeps s0 s) : Keeps s0 (segVop s core c r) := by
  unfold segVop
  repeat' (first
    | with_reducible assumption
    | with_reducible refine Keeps.getD ?_ ?_
    | with_reducible apply keeps_State_putSeg)

theorem keeps_segFunc {s0 : State} {s : State} {core : Nat} {c : Ctx} {r : VecRun}
    (h0 : Keeps s0 s) : Keeps s0 (segFunc s core c r) := by
  unfold segFunc
  repeat' (first
    | with_reducible assumption
    | with_reducible refine Keeps.getD ?_ ?_
    | with_reducible apply keeps_State_putSeg)

theorem keeps_loadTab {s0 : State} {s : State} {core : Nat} {r : VecRun}
    (h0 : Keeps s0 s) : Keeps s0 (loadTab s core r) := by
  unfold loadTab
  repeat' (first
    | with_reducible assumption
    | with_reducible apply KeepsX.some
    | with_reducible exact KeepsX.none
    | with_reducible refine KeepsX.ite ?_ ?_
    | with_reducible refine Keeps.getD ?_ ?_
    | with_reducible apply keeps_State_mapCore
    | with_reducible apply keeps_State_vxRaise)

theorem keeps_segReduce {s0 s : State} {core : Nat} {r : VecRun} (h0 : Keeps s0 s) : KeepsQ s0 (segReduce s core r) := by
  unfold segReduce
  dsimp only
  split
  · exact KeepsQ.mk (keeps_State_vxRaise h0)
  · exact KeepsQ.mk (keeps_State_vxRaise (keeps_State_wr (keeps_State_vxRaise h0)))

theorem keeps_segNorm {s0 : State} {s : State} {core : Nat} {r : VecRun}
    (h0 : Keeps s0 s) : KeepsQ s0 (segNorm s core r) := by
  unfold segNorm
  repeat' (first
    | with_reducible assumption
    | with_reducible refine KeepsQ.ite ?_ ?_
    | with_reducible refine Keeps.getD ?_ ?_
    | with_reducible apply KeepsQ.mk
    | with_reducible apply Keeps.foldl
    | with_reducible apply Keeps.foldlQ
    | with_reducible apply Keeps.foldlP
    | with_reducible apply keeps_State_putSeg
    | with_reducible apply keeps_State_vxRaise)

theorem keeps_State_normBack {s0 : State} {s : State} {core : Nat} {r : VecRun}
    (h0 : Keeps s0 s) : Keeps s0 (State.normBack s core r) := by
  unfold State.normBack
  repeat' (first
    | with_reducible assumption
    | with_reducible refine Keeps.getD ?_ ?_
    | with_reducible apply keeps_State_wr
    | with_reducible refine Keeps.ite ?_ ?_)

theorem keeps_segSoft {s0 : State} {s : State} {core : Nat} {r : VecRun}
    (h0 : Keeps s0 s) : KeepsQ s0 (segSoft s core r) := by
  unfold segSoft
  repeat' (first
    | with_reducible assumption
    | with_reducible refine KeepsQ.ite ?_ ?_
    | with_reducible refine Keeps.getD ?_ ?_
    | with_reducible apply KeepsQ.mk
    | with_reducible apply Keeps.foldl
    | with_reducible apply Keeps.foldlQ
    | with_reducible apply Keeps.foldlP
    | with_reducible apply keeps_State_fin
    | with_reducible apply keeps_State_putSeg
    | with_reducible apply keeps_State_vxRaise)

theorem keeps_State_poisonLines {s0 : State} {s : State} {ls : List Nat}
    (h0 : Keeps s0 s) : Keeps s0 (State.poisonLines s ls) := by
  unfold State.poisonLines
  repeat' (first
    | with_reducible assumption
    | with_reducible apply Keeps.foldl
    | with_reducible apply Keeps.foldlQ
    | with_reducible apply Keeps.foldlP
    | with_reducible refine Keeps.ite ?_ ?_
    | split
    | with_reducible intro _
    | dsimp only
    | with_reducible refine Keeps.mkState (by with_reducible assumption))

theorem keeps_segCompress {s0 : State} {s : State} {core : Nat} {r : VecRun}
    (h0 : Keeps s0 s) : Keeps s0 (segCompress s core r) := by
  unfold segCompress
  repeat' (first
    | with_reducible assumption
    | with_reducible apply KeepsX.some
    | with_reducible exact KeepsX.none
    | with_reducible refine KeepsX.ite ?_ ?_
    | with_reducible refine Keeps.getD ?_ ?_
    | with_reducible apply Keeps.foldl
    | with_reducible apply Keeps.foldlQ
    | with_reducible apply Keeps.foldlP
    | with_reducible apply keeps_State_fin
    | with_reducible apply keeps_State_poisonLines
    | with_reducible apply keeps_State_vxRaise
    | with_reducible apply keeps_State_wr)

theorem keeps_segDecomp {s0 : State} {s : State} {core : Nat} {r : VecRun}
    (h0 : Keeps s0 s) : Keeps s0 (segDecomp s core r) := by
  unfold segDecomp
  repeat' (first
    | with_reducible assumption
    | with_reducible refine Keeps.getD ?_ ?_
    | with_reducible apply keeps_State_putSeg)

theorem keeps_segOwner {s0 : State} {s : State} {core : Nat} {r : VecRun}
    (h0 : Keeps s0 s) : Keeps s0 (segOwner s core r) := by
  unfold segOwner
  repeat' (first
    | with_reducible assumption
    | with_reducible refine Keeps.getD ?_ ?_
    | with_reducible apply Keeps.foldl
    | with_reducible apply Keeps.foldlQ
    | with_reducible apply Keeps.foldlP
    | with_reducible apply keeps_State_chargeData
    | with_reducible apply keeps_State_vwrite
    | with_reducible apply keeps_State_vxRaise
    | with_reducible refine Keeps.ite ?_ ?_
    | split
    | with_reducible intro _)

theorem keeps_State_draws {s0 : State} {s : State} {core lctx first n : Nat}
    (h0 : Keeps s0 s) : KeepsP s0 (State.draws s core lctx first n) := by
  unfold State.draws
  repeat' (first
    | with_reducible assumption
    | with_reducible apply KeepsX.some
    | with_reducible exact KeepsX.none
    | with_reducible refine KeepsX.ite ?_ ?_
    | with_reducible apply KeepsP.mk
    | with_reducible apply keeps_State_mapCore
    | with_reducible refine Keeps.ite ?_ ?_
    | split
    | with_reducible intro _
    | dsimp only
    | with_reducible refine Keeps.mkState (by with_reducible assumption))

theorem keeps_segRand {s0 : State} {s : State} {core : Nat} {r : VecRun}
    (h0 : Keeps s0 s) : KeepsQ s0 (segRand s core r) := by
  unfold segRand
  repeat' (first
    | with_reducible assumption
    | with_reducible apply KeepsX.some
    | with_reducible exact KeepsX.none
    | with_reducible refine KeepsQ.ite ?_ ?_
    | with_reducible refine KeepsX.ite ?_ ?_
    | with_reducible refine Keeps.getD ?_ ?_
    | with_reducible apply KeepsQ.mk
    | with_reducible refine KeepsP.snd (keeps_State_draws ?_)
    | with_reducible refine KeepsP.out (keeps_State_draws ?_) (by assumption)
    | with_reducible apply keeps_State_draws
    | with_reducible apply keeps_State_fin
    | with_reducible apply keeps_State_mapCore
    | with_reducible apply keeps_State_wr
    | with_reducible refine Keeps.ite ?_ ?_
    | split
    | with_reducible intro _
    | dsimp only
    | with_reducible refine Keeps.mkState (by with_reducible assumption)
    | with_reducible refine Keeps.mkState (KeepsP.snd (keeps_State_draws ?_))
    | with_reducible refine Keeps.mkState (keeps_State_fin ?_)
    | with_reducible refine Keeps.mkState (keeps_State_mapCore ?_))

theorem keeps_segConv {s0 s : State} {core : Nat} {r : VecRun} (h0 : Keeps s0 s) : Keeps s0 (segConv s core r) := by
  have hd : ∀ (b : Bool) (f n : Nat), Keeps s0 (if b = true then s.draws core r.lctx f n else ([], s)).2 := by
    intro b f n
    split
    · exact keeps_State_draws h0
    · exact h0
  unfold segConv
  refine Keeps.ite ?_ ?_
  · exact keeps_State_poisonLines (keeps_State_vxRaise (keeps_State_wr (keeps_State_wr h0)))
  · exact keeps_State_poisonLines (keeps_State_vxRaise (keeps_State_wr (hd _ _ _)))

theorem keeps_segDigest {s0 : State} {s : State} {core : Nat} {r : VecRun}
    (h0 : Keeps s0 s) : KeepsQ s0 (segDigest s core r) := by
  unfold segDigest
  repeat' (first
    | with_reducible assumption
    | with_reducible refine KeepsQ.ite ?_ ?_
    | with_reducible refine Keeps.getD ?_ ?_
    | with_reducible apply KeepsQ.mk
    | with_reducible apply Keeps.foldl
    | with_reducible apply Keeps.foldlQ
    | with_reducible apply Keeps.foldlP
    | with_reducible apply keeps_State_mapCore
    | with_reducible apply keeps_State_vxRaise
    | with_reducible apply keeps_State_wr
    | with_reducible refine Keeps.ite ?_ ?_)

theorem keeps_vSegment {s0 s : State} {core : Nat} {r : VecRun} (h0 : Keeps s0 s) : KeepsQ s0 (vSegment s core r) := by
  have h1 : KeepsQ s0 (segReduce s core r) := keeps_segReduce h0
  have h2 : KeepsQ s0 (segNorm s core r) := keeps_segNorm h0
  have h3 : KeepsQ s0 (segSoft s core r) := keeps_segSoft h0
  have h4 : KeepsQ s0 (segRand s core r) := keeps_segRand h0
  have h5 : KeepsQ s0 (segDigest s core r) := keeps_segDigest h0
  unfold vSegment
  show Keeps s0 (Prod.fst _)
  dsimp only
  split
  · exact keeps_segVop h0
  · split
    · exact keeps_loadTab h0
    · exact keeps_segFunc h0
  · exact keeps_segFunc h0
  · exact h1
  · exact h2
  · exact h3
  · exact keeps_segCompress h0
  · exact keeps_segDecomp h0
  · exact h4
  · exact keeps_segConv h0
  · exact keeps_segOwner h0
  · exact h5

theorem keeps_State_vStep {s0 : State} {s : State} {core : Nat} {r : VecRun}
    (h0 : Keeps s0 s) : Keeps s0 (State.vStep s core r) := by
  unfold State.vStep
  repeat' (first
    | with_reducible assumption
    | with_reducible apply KeepsX.some
    | with_reducible exact KeepsX.none
    | with_reducible refine KeepsX.ite ?_ ?_
    | with_reducible apply keeps_State_faultCtx
    | with_reducible apply keeps_State_mapCore
    | with_reducible apply keeps_State_normBack
    | with_reducible refine KeepsQ.fst (keeps_vSegment ?_)
    | with_reducible refine KeepsQ.out (keeps_vSegment ?_) (by assumption)
    | with_reducible apply keeps_vSegment
    | with_reducible apply Keeps.ofId
    | with_reducible refine Keeps.ite ?_ ?_)

theorem keeps_runVec {s0 : State} {h : Head} {s : State} {pl : Except Nat VPlan}
    (h0 : Keeps s0 s) : Keeps s0 (runVec h s pl) := by
  unfold runVec
  repeat' (first
    | with_reducible assumption
    | with_reducible refine Keeps.getD ?_ ?_
    | with_reducible apply Keeps.foldl
    | with_reducible apply Keeps.foldlQ
    | with_reducible apply Keeps.foldlP
    | with_reducible apply keeps_State_failed
    | with_reducible apply keeps_State_hold
    | with_reducible refine KeepsP.snd (keeps_State_leave ?_)
    | with_reducible refine KeepsP.out (keeps_State_leave ?_) (by assumption)
    | with_reducible apply keeps_State_leave
    | with_reducible apply keeps_State_mapCore
    | with_reducible apply keeps_State_pay
    | with_reducible apply keeps_State_settle
    | with_reducible apply keeps_State_vStep
    | with_reducible apply Keeps.ofId
    | with_reducible refine Keeps.ite ?_ ?_
    | split
    | with_reducible intro _)

theorem keeps_workVop {s0 : State} {core n : Nat} {s : State}
    (h0 : Keeps s0 s) : KeepsO s0 (workVop core n s) := by
  unfold workVop
  repeat' (first
    | with_reducible assumption
    | with_reducible apply KeepsO.next
    | with_reducible exact KeepsO.fault
    | with_reducible apply KeepsE.ok
    | with_reducible exact KeepsE.error
    | with_reducible apply KeepsX.some
    | with_reducible exact KeepsX.none
    | with_reducible refine KeepsO.ite ?_ ?_
    | with_reducible apply keeps_runVec
    | with_reducible apply keeps_work
    | with_reducible refine Keeps.ite ?_ ?_
    | split
    | with_reducible intro _)

theorem keeps_workVfunc {s0 : State} {core n : Nat} {s : State}
    (h0 : Keeps s0 s) : KeepsO s0 (workVfunc core n s) := by
  unfold workVfunc
  repeat' (first
    | with_reducible assumption
    | with_reducible apply KeepsO.next
    | with_reducible exact KeepsO.fault
    | with_reducible apply KeepsE.ok
    | with_reducible exact KeepsE.error
    | with_reducible apply KeepsX.some
    | with_reducible exact KeepsX.none
    | with_reducible refine KeepsO.ite ?_ ?_
    | with_reducible apply keeps_runVec
    | with_reducible apply keeps_work
    | with_reducible refine Keeps.ite ?_ ?_
    | split
    | with_reducible intro _)

theorem keeps_workVderiv {s0 : State} {core n : Nat} {s : State}
    (h0 : Keeps s0 s) : KeepsO s0 (workVderiv core n s) := by
  unfold workVderiv
  repeat' (first
    | with_reducible assumption
    | with_reducible apply KeepsO.next
    | with_reducible exact KeepsO.fault
    | with_reducible apply KeepsE.ok
    | with_reducible exact KeepsE.error
    | with_reducible apply KeepsX.some
    | with_reducible exact KeepsX.none
    | with_reducible refine KeepsO.ite ?_ ?_
    | with_reducible apply keeps_runVec
    | with_reducible apply keeps_work
    | with_reducible refine Keeps.ite ?_ ?_
    | split
    | with_reducible intro _)

theorem keeps_workVreduce {s0 : State} {core n : Nat} {s : State}
    (h0 : Keeps s0 s) : KeepsO s0 (workVreduce core n s) := by
  unfold workVreduce
  repeat' (first
    | with_reducible assumption
    | with_reducible apply KeepsO.next
    | with_reducible exact KeepsO.fault
    | with_reducible apply KeepsE.ok
    | with_reducible exact KeepsE.error
    | with_reducible apply KeepsX.some
    | with_reducible exact KeepsX.none
    | with_reducible refine KeepsO.ite ?_ ?_
    | with_reducible apply keeps_runVec
    | with_reducible apply keeps_work
    | with_reducible refine Keeps.ite ?_ ?_
    | split
    | with_reducible intro _)

theorem keeps_workVnormBwd {s0 : State} {core n : Nat} {s : State}
    (h0 : Keeps s0 s) : KeepsO s0 (workVnormBwd core n s) := by
  unfold workVnormBwd
  repeat' (first
    | with_reducible assumption
    | with_reducible apply KeepsO.next
    | with_reducible exact KeepsO.fault
    | with_reducible apply KeepsE.ok
    | with_reducible exact KeepsE.error
    | with_reducible apply KeepsX.some
    | with_reducible exact KeepsX.none
    | with_reducible refine KeepsO.ite ?_ ?_
    | with_reducible apply keeps_runVec
    | with_reducible apply keeps_work
    | with_reducible refine Keeps.ite ?_ ?_
    | split
    | with_reducible intro _)

theorem keeps_workVsoftmaxBwd {s0 : State} {core n : Nat} {s : State}
    (h0 : Keeps s0 s) : KeepsO s0 (workVsoftmaxBwd core n s) := by
  unfold workVsoftmaxBwd
  repeat' (first
    | with_reducible assumption
    | with_reducible apply KeepsO.next
    | with_reducible exact KeepsO.fault
    | with_reducible apply KeepsE.ok
    | with_reducible exact KeepsE.error
    | with_reducible apply KeepsX.some
    | with_reducible exact KeepsX.none
    | with_reducible refine KeepsO.ite ?_ ?_
    | with_reducible apply keeps_runVec
    | with_reducible apply keeps_work
    | with_reducible refine Keeps.ite ?_ ?_
    | split
    | with_reducible intro _)

theorem keeps_workVcompress1 {s0 : State} {core n : Nat} {s : State}
    (h0 : Keeps s0 s) : KeepsO s0 (workVcompress1 core n s) := by
  unfold workVcompress1
  repeat' (first
    | with_reducible assumption
    | with_reducible apply KeepsO.next
    | with_reducible exact KeepsO.fault
    | with_reducible apply KeepsE.ok
    | with_reducible exact KeepsE.error
    | with_reducible apply KeepsX.some
    | with_reducible exact KeepsX.none
    | with_reducible refine KeepsO.ite ?_ ?_
    | with_reducible apply keeps_runVec
    | with_reducible apply keeps_work
    | with_reducible refine Keeps.ite ?_ ?_
    | split
    | with_reducible intro _)

theorem keeps_workVdecompSum {s0 : State} {core n : Nat} {s : State}
    (h0 : Keeps s0 s) : KeepsO s0 (workVdecompSum core n s) := by
  unfold workVdecompSum
  repeat' (first
    | with_reducible assumption
    | with_reducible apply KeepsO.next
    | with_reducible exact KeepsO.fault
    | with_reducible apply KeepsE.ok
    | with_reducible exact KeepsE.error
    | with_reducible apply KeepsX.some
    | with_reducible exact KeepsX.none
    | with_reducible refine KeepsO.ite ?_ ?_
    | with_reducible apply keeps_runVec
    | with_reducible apply keeps_work
    | with_reducible refine Keeps.ite ?_ ?_
    | split
    | with_reducible intro _)

theorem keeps_workVrand {s0 : State} {core n : Nat} {s : State}
    (h0 : Keeps s0 s) : KeepsO s0 (workVrand core n s) := by
  unfold workVrand
  repeat' (first
    | with_reducible assumption
    | with_reducible apply KeepsO.next
    | with_reducible exact KeepsO.fault
    | with_reducible apply KeepsE.ok
    | with_reducible exact KeepsE.error
    | with_reducible apply KeepsX.some
    | with_reducible exact KeepsX.none
    | with_reducible refine KeepsO.ite ?_ ?_
    | with_reducible apply keeps_runVec
    | with_reducible apply keeps_work
    | with_reducible refine Keeps.ite ?_ ?_
    | split
    | with_reducible intro _)

theorem keeps_workVconvert {s0 : State} {core n : Nat} {s : State}
    (h0 : Keeps s0 s) : KeepsO s0 (workVconvert core n s) := by
  unfold workVconvert
  repeat' (first
    | with_reducible assumption
    | with_reducible apply KeepsO.next
    | with_reducible exact KeepsO.fault
    | with_reducible apply KeepsE.ok
    | with_reducible exact KeepsE.error
    | with_reducible apply KeepsX.some
    | with_reducible exact KeepsX.none
    | with_reducible refine KeepsO.ite ?_ ?_
    | with_reducible apply keeps_runVec
    | with_reducible apply keeps_work
    | with_reducible refine Keeps.ite ?_ ?_
    | split
    | with_reducible intro _)

theorem keeps_workVdigest {s0 : State} {core n : Nat} {s : State}
    (h0 : Keeps s0 s) : KeepsO s0 (workVdigest core n s) := by
  unfold workVdigest
  repeat' (first
    | with_reducible assumption
    | with_reducible apply KeepsO.next
    | with_reducible exact KeepsO.fault
    | with_reducible apply KeepsE.ok
    | with_reducible exact KeepsE.error
    | with_reducible apply KeepsX.some
    | with_reducible exact KeepsX.none
    | with_reducible refine KeepsO.ite ?_ ?_
    | with_reducible apply keeps_runVec
    | with_reducible apply keeps_work
    | with_reducible refine Keeps.ite ?_ ?_
    | split
    | with_reducible intro _)

theorem keeps_execSegmentStart {s0 : State} {core : Nat} {s : State}
    (h0 : Keeps s0 s) : KeepsO s0 (execSegmentStart core s) := by
  unfold execSegmentStart
  repeat' (first
    | with_reducible assumption
    | with_reducible apply KeepsX.some
    | with_reducible exact KeepsX.none
    | with_reducible apply KeepsO.next
    | with_reducible exact KeepsO.fault
    | with_reducible apply KeepsE.ok
    | with_reducible exact KeepsE.error
    | with_reducible apply KeepsX.some
    | with_reducible exact KeepsX.none
    | with_reducible refine KeepsX.ite ?_ ?_
    | with_reducible refine KeepsO.ite ?_ ?_
    | with_reducible refine Keeps.getD ?_ ?_
    | with_reducible apply keeps_State_badHead
    | with_reducible apply keeps_State_charge
    | with_reducible apply keeps_State_vStep
    | with_reducible refine Keeps.ite ?_ ?_
    | split)

theorem keeps_execLaneFault {s0 : State} {core : Nat} {s : State}
    (h0 : Keeps s0 s) : KeepsO s0 (execLaneFault core s) := by
  unfold execLaneFault
  repeat' (first
    | with_reducible assumption
    | with_reducible apply KeepsO.next
    | with_reducible exact KeepsO.fault
    | with_reducible apply KeepsE.ok
    | with_reducible exact KeepsE.error
    | with_reducible apply KeepsX.some
    | with_reducible exact KeepsX.none
    | with_reducible refine KeepsO.ite ?_ ?_
    | with_reducible apply keeps_State_mapCore)

theorem keeps_execVectorSuspend {s0 : State} {core : Nat} {s : State}
    (h0 : Keeps s0 s) : KeepsO s0 (execVectorSuspend core s) := by
  unfold execVectorSuspend
  repeat' (first
    | with_reducible assumption
    | with_reducible apply KeepsX.some
    | with_reducible exact KeepsX.none
    | with_reducible apply KeepsO.next
    | with_reducible exact KeepsO.fault
    | with_reducible apply KeepsE.ok
    | with_reducible exact KeepsE.error
    | with_reducible apply KeepsX.some
    | with_reducible exact KeepsX.none
    | with_reducible refine KeepsX.ite ?_ ?_
    | with_reducible refine KeepsO.ite ?_ ?_
    | with_reducible apply keeps_State_mapCore
    | with_reducible apply keeps_State_normBack
    | with_reducible refine Keeps.ite ?_ ?_
    | split
    | with_reducible intro _
    | dsimp only)

theorem keeps_execVectorResume {s0 : State} {core n : Nat} {s : State}
    (h0 : Keeps s0 s) : KeepsO s0 (execVectorResume core n s) := by
  unfold execVectorResume
  repeat' (first
    | with_reducible assumption
    | with_reducible apply KeepsX.some
    | with_reducible exact KeepsX.none
    | with_reducible apply KeepsO.next
    | with_reducible exact KeepsO.fault
    | with_reducible apply KeepsE.ok
    | with_reducible exact KeepsE.error
    | with_reducible apply KeepsX.some
    | with_reducible exact KeepsX.none
    | with_reducible refine KeepsX.ite ?_ ?_
    | with_reducible refine KeepsO.ite ?_ ?_
    | with_reducible apply keeps_State_setCore
    | with_reducible apply keeps_State_setSlot
    | with_reducible refine Keeps.ite ?_ ?_
    | split
    | with_reducible intro _
    | dsimp only)

theorem keeps_State_noteRefused {s0 : State} {s : State} {target status : Nat}
    (h0 : Keeps s0 s) : Keeps s0 (State.noteRefused s target status) := by
  unfold State.noteRefused
  repeat' (first
    | with_reducible assumption
    | with_reducible apply keeps_State_mapCore)

theorem keeps_State_wakeBanks {s0 : State} {s : State} {target off n : Nat}
    (h0 : Keeps s0 s) : Keeps s0 (State.wakeBanks s target off n) := by
  unfold State.wakeBanks
  repeat' (first
    | with_reducible assumption
    | with_reducible apply keeps_State_mapCore)

theorem keeps_State_touchBanks {s0 : State} {s : State} {target off n : Nat}
    (h0 : Keeps s0 s) : Keeps s0 (State.touchBanks s target off n) := by
  unfold State.touchBanks
  repeat' (first
    | with_reducible assumption
    | with_reducible apply keeps_State_wakeBanks
    | with_reducible refine Keeps.ite ?_ ?_)

theorem keeps_State_aliasStore {s0 : State} {s : State} {view target off size : Nat} {v : Nat}
    (h0 : Keeps s0 s) : Keeps s0 (State.aliasStore s view target off size v) := by
  unfold State.aliasStore
  repeat' (first
    | with_reducible assumption
    | with_reducible apply keeps_State_mapCore
    | with_reducible apply keeps_State_wr
    | with_reducible refine Keeps.ite ?_ ?_)

theorem keeps_State_scrStore {s0 : State} {s : State} {view target off n v : Nat} {bad : Bool}
    (h0 : Keeps s0 s) : Keeps s0 (State.scrStore s view target off n v bad) := by
  unfold State.scrStore
  repeat' (first
    | with_reducible assumption
    | with_reducible apply keeps_State_aliasStore
    | with_reducible apply keeps_State_wr
    | with_reducible refine Keeps.ite ?_ ?_
    | split
    | with_reducible intro _
    | dsimp only
    | with_reducible refine Keeps.mkState (by with_reducible assumption)
    | with_reducible refine Keeps.mkState (keeps_State_aliasStore ?_))

theorem keeps_State_aliasLoad {s0 : State} {s : State} {view target off size core lctx : Nat}
    (h0 : Keeps s0 s) : KeepsP s0 (State.aliasLoad s view target off size core lctx) := by
  unfold State.aliasLoad
  repeat' (first
    | with_reducible assumption
    | with_reducible apply KeepsP.mk
    | with_reducible apply keeps_State_mapCore
    | with_reducible apply keeps_State_wr
    | with_reducible refine Keeps.ite ?_ ?_
    | split)

theorem keeps_State_zeroBank {s0 s : State} {core b : Nat} (h0 : Keeps s0 s) : Keeps s0 (State.zeroBank s core b) :=
  ⟨h0.pending, fun w => Memory.filter_wf (h0.mem w)⟩

theorem keeps_execBankIdleRetention {s0 : State} {core b : Nat} {s : State}
    (h0 : Keeps s0 s) : KeepsO s0 (execBankIdleRetention core b s) := by
  unfold execBankIdleRetention
  repeat' (first
    | with_reducible assumption
    | with_reducible apply KeepsO.next
    | with_reducible exact KeepsO.fault
    | with_reducible apply KeepsE.ok
    | with_reducible exact KeepsE.error
    | with_reducible apply KeepsX.some
    | with_reducible exact KeepsX.none
    | with_reducible refine KeepsO.ite ?_ ?_
    | with_reducible apply keeps_State_mapCore)

theorem keeps_execBankRetentionEntry {s0 : State} {core b : Nat} {s : State}
    (h0 : Keeps s0 s) : KeepsO s0 (execBankRetentionEntry core b s) := by
  unfold execBankRetentionEntry
  repeat' (first
    | with_reducible assumption
    | with_reducible apply KeepsO.next
    | with_reducible exact KeepsO.fault
    | with_reducible apply KeepsE.ok
    | with_reducible exact KeepsE.error
    | with_reducible apply KeepsX.some
    | with_reducible exact KeepsX.none
    | with_reducible refine KeepsO.ite ?_ ?_
    | with_reducible apply keeps_State_mapCore)

theorem keeps_execBankOffEntry {s0 : State} {core b : Nat} {s : State}
    (h0 : Keeps s0 s) : KeepsO s0 (execBankOffEntry core b s) := by
  unfold execBankOffEntry
  repeat' (first
    | with_reducible assumption
    | with_reducible apply KeepsO.next
    | with_reducible exact KeepsO.fault
    | with_reducible apply KeepsE.ok
    | with_reducible exact KeepsE.error
    | with_reducible apply KeepsX.some
    | with_reducible exact KeepsX.none
    | with_reducible refine KeepsO.ite ?_ ?_
    | with_reducible apply keeps_State_setCore)

theorem keeps_XRun_put {s0 : State} {r : XRun} {pa : Nat} {bs : List Byte} {poison : Bool} {wr : State → State} {p : Nat}
    (h0 : Keeps s0 (wr r.s)) : Keeps s0 (r.put pa bs poison wr p).s := by
  unfold XRun.put
  dsimp only
  split
  · exact h0
  · exact keeps_State_cacheMark (Keeps.step h0 rfl rfl)

theorem XRun.ask_s {r : XRun} {va n : Nat} {b : Bool} : (r.ask va n b).s = r.s := by
  unfold XRun.ask
  generalize linesOf va n = xs
  induction xs generalizing r with
  | nil => rfl
  | cons x t ih =>
    simp only [List.foldl]
    rw [ih]
    split <;> rfl

theorem XRun.askNear_s {r : XRun} {far byAlias : Bool} {off n : Nat} : (r.askNear far byAlias off n).s = r.s := by
  unfold XRun.askNear
  split
  · rfl
  · split
    · rfl
    · generalize linesOf off n = xs
      induction xs generalizing r with
      | nil => rfl
      | cons x t ih =>
        simp only [List.foldl]
        rw [ih]
        split <;> rfl

theorem keeps_XRun_demand {s0 : State} {r : XRun} {core n gen : Nat} {x : Xfer} {u : XUnit} (h0 : Keeps s0 r.s) :
    Keeps s0 (r.demand core n gen x u).s := by
  unfold XRun.demand
  dsimp only
  generalize r.s.core core = k
  generalize pieces u.far u.len = ps
  induction ps generalizing r with
  | nil => exact h0
  | cons y t ih =>
    simp only [List.foldl]
    refine ih ?_
    split
    · rw [XRun.ask_s]
      exact h0
    · dsimp only
      rw [XRun.ask_s]
      exact keeps_State_vtake h0

theorem keeps_XRun_putRing {s0 : State} {r : XRun} {core : Nat} {c : Circ} {pos : Nat} {bs : List Byte} {poison : Bool}
    (h0 : Keeps s0 r.s) : Keeps s0 (r.putRing core c pos bs poison).s := by
  unfold XRun.putRing
  dsimp only
  split
  · exact keeps_XRun_put (keeps_State_wr h0)
  · exact keeps_XRun_put (keeps_State_wr (keeps_XRun_put (keeps_State_wr h0)))

theorem keeps_XRun_putAll {s0 : State} {r : XRun} {wr : XRun → Nat → List Byte → Bool → XRun} {parts : List (List Byte × Bool)}
    (hw : ∀ (r : XRun) (o : Nat) (bs : List Byte) (bad : Bool), Keeps s0 r.s → Keeps s0 (wr r o bs bad).s) (h0 : Keeps s0 r.s) :
    Keeps s0 (r.putAll wr parts).s := by
  unfold XRun.putAll
  have : ∀ (xs : List (List Byte × Bool)) (a : XRun × Nat), Keeps s0 a.1.s →
      Keeps s0 (xs.foldl (fun (a : XRun × Nat) x => (wr a.1 a.2 x.1 x.2, a.2 + x.1.length)) a).1.s := by
    intro xs
    induction xs with
    | nil => exact fun _ h => h
    | cons x t ih => exact fun a h => ih _ (hw _ _ _ _ h)
  exact this parts (r, 0) h0

/-- A unit that moves, and one that cannot, keep both. -/
def KeepsR (s : State) : Except (XStop × XRun) XRun → Prop
  | .ok r => Keeps s r.s
  | .error x => Keeps s x.2.s

theorem KeepsR.ok {s : State} {r : XRun} (h : Keeps s r.s) : KeepsR s (.ok r) := h

theorem KeepsR.error {s : State} {x : XStop × XRun} (h : Keeps s x.2.s) : KeepsR s (.error x) := h

theorem KeepsR.ite {s : State} {x y : Except (XStop × XRun) XRun} {c : Prop} [Decidable c] (h : KeepsR s x) (g : KeepsR s y) :
    KeepsR s (if c then x else y) := by
  split
  · exact h
  · exact g

theorem keeps_moveIn {s0 : State} {core n gen : Nat} {x : Xfer} {u : XUnit} {r : XRun} (h0 : Keeps s0 r.s) :
    KeepsR s0 (moveIn core n gen x u r) := by
  have hd : Keeps s0 (r.demand core n gen x u).s := keeps_XRun_demand h0
  have he : ∀ e : XStop, KeepsR s0 (.error (e, r)) := fun e => h0
  unfold moveIn
  dsimp only
  refine KeepsR.ite (he _) ?_
  split
  · exact he _
  · exact he _
  · generalize (if (dBchk x.desc && u.far % 2048 == 0) = true then _ else CheckRes.ok) = chk
    generalize List.map _ (r.s.farParts core n gen x u) = parts
    refine KeepsR.ite (he _) ?_
    split
    · refine KeepsR.ite (he _) (KeepsR.ite (he _) (KeepsR.ite (KeepsR.error ?_) (KeepsR.ok ?_)))
      · exact Keeps.foldl h0 fun v y hv => keeps_State_wakeBanks hv
      · exact keeps_XRun_putAll (fun r o bs bad h => keeps_XRun_putRing h) (Keeps.foldl hd fun v y hv => keeps_State_touchBanks hv)
    · split
      · exact KeepsR.error (keeps_State_wakeBanks h0)
      · exact he _
      · refine KeepsR.ite (KeepsR.ok ?_) (KeepsR.ok ?_)
        · exact keeps_XRun_putAll (fun r o bs bad h => keeps_XRun_put (by rw [XRun.askNear_s]; exact keeps_State_wr h)) (keeps_State_touchBanks hd)
        · exact keeps_XRun_putAll (fun r o bs bad h => keeps_XRun_put (by rw [XRun.askNear_s]; exact keeps_State_scrStore h)) (keeps_State_touchBanks hd)

theorem keeps_moveOut {s0 : State} {core : Nat} {x : Xfer} {u : XUnit} {r : XRun} (h0 : Keeps s0 r.s) :
    KeepsR s0 (moveOut core x u r) := by
  have he : ∀ e : XStop, KeepsR s0 (.error (e, r)) := fun e => h0
  have ha : ∀ (target off : Nat) (b : Bool),
      Keeps s0 (({ r with s := r.s.touchBanks target off u.len }.ask u.far u.len).askNear b false off u.len).s := by
    intro target off b
    rw [XRun.askNear_s, XRun.ask_s]
    exact keeps_State_touchBanks h0
  unfold moveOut
  dsimp only
  refine KeepsR.ite (he _) ?_
  split
  · exact he _
  · exact he _
  · split
    · exact KeepsR.error (keeps_State_wakeBanks h0)
    · exact he _
    · split
      · exact he _
      · generalize hr : (({ r with s := r.s.touchBanks _ _ u.len } : XRun).ask u.far u.len).askNear _ false _ u.len = r1
        have h1 : Keeps s0 r1.s := hr ▸ ha _ _ _
        clear hr ha
        refine KeepsR.ite (KeepsR.error (keeps_XRun_put (keeps_State_mapCore (keeps_State_vwrite h1)))) (KeepsR.ite (KeepsR.ok ?_) (KeepsR.ok ?_))
        · dsimp only
          exact keeps_State_mapCore (keeps_State_engWriteChecked h1)
        · exact keeps_XRun_put (keeps_State_mapCore (keeps_State_vwrite h1))

theorem keeps_runUnits {s0 : State} {core n gen fuel : Nat} {x : Xfer} {r : XRun} (h0 : Keeps s0 r.s) :
    Keeps s0 (runUnits core n gen fuel x r).2.2.s := by
  induction fuel generalizing x r with
  | zero => exact h0
  | succ fuel ih =>
    unfold runUnits
    dsimp only
    have h1 : KeepsR s0 (if x.kind = .streamOut then moveOut core x (xUnit x.desc (x.kind == .transposeIn) x.far x.sfar r.done) r
        else moveIn core n gen x (xUnit x.desc (x.kind == .transposeIn) x.far x.sfar r.done) r) := by
      split
      · exact keeps_moveOut h0
      · exact keeps_moveIn h0
    split
    · next e r1 hm =>
      rw [hm] at h1
      exact h1
    · next r1 hm =>
      rw [hm] at h1
      split
      · exact ih h1
      · exact ih (keeps_State_mapCore h1)

theorem keeps_State_runXfer {s0 s : State} {core n : Nat} {x : Xfer} (h0 : Keeps s0 s) : Keeps s0 (State.runXfer s core n x).2.2 := by
  have h1 := keeps_runUnits (core := core) (n := n) (gen := ((s.core core).stSlot n).gen)
    (fuel := xUnits x.desc (x.kind == .transposeIn) - x.done) (x := x) (r := { s := s, done := x.done }) h0
  unfold State.runXfer
  dsimp only
  refine keeps_State_streamPages ?_
  split
  · exact keeps_State_chargeData h1
  · exact keeps_State_mapCore (keeps_State_chargeData h1)

theorem keeps_State_usePf {s0 : State} {s : State} {core n gen : Nat} {x : Xfer}
    (h0 : Keeps s0 s) : Keeps s0 (State.usePf s core n gen x) := by
  unfold State.usePf
  repeat' (first
    | with_reducible assumption
    | with_reducible apply keeps_State_setCore
    | with_reducible refine Keeps.ite ?_ ?_
    | split
    | with_reducible intro _
    | dsimp only
    | with_reducible refine Keeps.mkState (by with_reducible assumption))

theorem keeps_State_chainSend {s0 : State} {s : State} {core : Nat} {c : ChainRun}
    (h0 : Keeps s0 s) : Keeps s0 (State.chainSend s core c) := by
  unfold State.chainSend
  repeat' (first
    | with_reducible assumption
    | with_reducible apply KeepsX.some
    | with_reducible exact KeepsX.none
    | with_reducible refine KeepsX.ite ?_ ?_
    | with_reducible apply keeps_State_chargeData
    | with_reducible apply keeps_State_mapCore)

theorem keeps_execTransferComplete {s0 : State} {core n : Nat} {s : State}
    (h0 : Keeps s0 s) : KeepsO s0 (execTransferComplete core n s) := by
  unfold execTransferComplete
  repeat' (first
    | with_reducible assumption
    | with_reducible apply KeepsX.some
    | with_reducible exact KeepsX.none
    | with_reducible apply KeepsO.next
    | with_reducible exact KeepsO.fault
    | with_reducible apply KeepsE.ok
    | with_reducible exact KeepsE.error
    | with_reducible apply KeepsX.some
    | with_reducible exact KeepsX.none
    | with_reducible refine KeepsX.ite ?_ ?_
    | with_reducible refine KeepsO.ite ?_ ?_
    | with_reducible apply keeps_State_badHead
    | with_reducible apply keeps_State_chainSend
    | with_reducible apply keeps_State_mapCore
    | with_reducible apply keeps_State_usePf
    | with_reducible apply keeps_State_runXfer
    | with_reducible refine Keeps.ite ?_ ?_
    | split
    | with_reducible intro _
    | dsimp only)

theorem keeps_execTransferSuspend {s0 : State} {core n : Nat} {s : State}
    (h0 : Keeps s0 s) : KeepsO s0 (execTransferSuspend core n s) := by
  unfold execTransferSuspend
  repeat' (first
    | with_reducible assumption
    | with_reducible apply KeepsO.next
    | with_reducible exact KeepsO.fault
    | with_reducible apply KeepsE.ok
    | with_reducible exact KeepsE.error
    | with_reducible apply KeepsX.some
    | with_reducible exact KeepsX.none
    | with_reducible refine KeepsO.ite ?_ ?_
    | with_reducible apply keeps_State_imageSusp
    | with_reducible apply keeps_State_mapCore
    | with_reducible apply keeps_State_transFault
    | with_reducible apply keeps_State_runXfer
    | with_reducible refine Keeps.ite ?_ ?_
    | split
    | with_reducible intro _
    | dsimp only)

theorem keeps_State_stopXfer {s0 : State} {s : State} {core n lctx status : Nat}
    (h0 : Keeps s0 s) : Keeps s0 (State.stopXfer s core n lctx status) := by
  unfold State.stopXfer
  repeat' (first
    | with_reducible assumption
    | with_reducible apply keeps_State_faultCtx
    | with_reducible apply keeps_State_mapCore
    | with_reducible apply keeps_State_noteCheck
    | with_reducible refine Keeps.ite ?_ ?_)

theorem keeps_execTransferFailure {s0 : State} {core n : Nat} {s : State}
    (h0 : Keeps s0 s) : KeepsO s0 (execTransferFailure core n s) := by
  unfold execTransferFailure
  repeat' (first
    | with_reducible assumption
    | with_reducible apply KeepsO.next
    | with_reducible exact KeepsO.fault
    | with_reducible apply KeepsE.ok
    | with_reducible exact KeepsE.error
    | with_reducible apply KeepsX.some
    | with_reducible exact KeepsX.none
    | with_reducible refine KeepsO.ite ?_ ?_
    | with_reducible apply keeps_State_noteRefused
    | with_reducible apply keeps_State_stopXfer
    | with_reducible apply keeps_State_runXfer
    | with_reducible refine Keeps.ite ?_ ?_
    | split
    | with_reducible intro _
    | dsimp only)

theorem keeps_workArm {s0 : State} {core n : Nat} {s : State}
    (h0 : Keeps s0 s) : KeepsO s0 (workArm core n s) := by
  unfold workArm
  repeat' (first
    | with_reducible assumption
    | with_reducible apply KeepsX.some
    | with_reducible exact KeepsX.none
    | with_reducible apply KeepsO.next
    | with_reducible exact KeepsO.fault
    | with_reducible apply KeepsE.ok
    | with_reducible exact KeepsE.error
    | with_reducible apply KeepsX.some
    | with_reducible exact KeepsX.none
    | with_reducible refine KeepsX.ite ?_ ?_
    | with_reducible refine KeepsO.ite ?_ ?_
    | with_reducible apply keeps_State_activate
    | with_reducible apply keeps_State_done
    | with_reducible apply keeps_State_failed
    | with_reducible apply keeps_State_hold
    | with_reducible apply keeps_State_mapCore
    | with_reducible apply keeps_State_pay
    | with_reducible apply keeps_State_settle
    | with_reducible apply keeps_State_wakeBanks
    | with_reducible apply keeps_work
    | with_reducible refine Keeps.ite ?_ ?_
    | split
    | with_reducible intro _)

theorem keeps_State_handOff {s0 : State} {s : State} {core : Nat} {q : Nat} {x : Xfer} {noadv : Bool}
    (h0 : Keeps s0 s) : Keeps s0 (State.handOff s core q x noadv) := by
  unfold State.handOff
  repeat' (first
    | with_reducible assumption
    | with_reducible apply keeps_State_mapCore)

theorem keeps_runStream {s0 : State} {kind : XKind} {h : Head} {s : State}
    (h0 : Keeps s0 s) : Keeps s0 (runStream kind h s) := by
  unfold runStream
  repeat' (first
    | with_reducible assumption
    | with_reducible apply Keeps.foldl
    | with_reducible apply Keeps.foldlQ
    | with_reducible apply Keeps.foldlP
    | with_reducible apply keeps_State_failed
    | with_reducible apply keeps_State_handOff
    | with_reducible apply keeps_State_hold
    | with_reducible refine KeepsP.snd (keeps_State_leave ?_)
    | with_reducible refine KeepsP.out (keeps_State_leave ?_) (by assumption)
    | with_reducible apply keeps_State_leave
    | with_reducible apply keeps_State_pay
    | with_reducible apply keeps_State_settle
    | with_reducible apply keeps_State_wakeBanks
    | with_reducible refine Keeps.ite ?_ ?_
    | split
    | with_reducible intro _)

theorem keeps_workStreamIn {s0 : State} {core n : Nat} {s : State}
    (h0 : Keeps s0 s) : KeepsO s0 (workStreamIn core n s) := by
  unfold workStreamIn
  repeat' (first
    | with_reducible assumption
    | with_reducible apply KeepsO.next
    | with_reducible exact KeepsO.fault
    | with_reducible apply KeepsE.ok
    | with_reducible exact KeepsE.error
    | with_reducible apply KeepsX.some
    | with_reducible exact KeepsX.none
    | with_reducible refine KeepsO.ite ?_ ?_
    | with_reducible apply keeps_runStream
    | with_reducible apply keeps_work
    | with_reducible refine Keeps.ite ?_ ?_
    | split
    | with_reducible intro _)

theorem keeps_workStreamOut {s0 : State} {core n : Nat} {s : State}
    (h0 : Keeps s0 s) : KeepsO s0 (workStreamOut core n s) := by
  unfold workStreamOut
  repeat' (first
    | with_reducible assumption
    | with_reducible apply KeepsO.next
    | with_reducible exact KeepsO.fault
    | with_reducible apply KeepsE.ok
    | with_reducible exact KeepsE.error
    | with_reducible apply KeepsX.some
    | with_reducible exact KeepsX.none
    | with_reducible refine KeepsO.ite ?_ ?_
    | with_reducible apply keeps_State_mapCore
    | with_reducible apply keeps_runStream
    | with_reducible apply keeps_work
    | with_reducible refine Keeps.ite ?_ ?_
    | split
    | with_reducible intro _)

theorem keeps_workTransposeIn {s0 : State} {core n : Nat} {s : State}
    (h0 : Keeps s0 s) : KeepsO s0 (workTransposeIn core n s) := by
  unfold workTransposeIn
  repeat' (first
    | with_reducible assumption
    | with_reducible apply KeepsO.next
    | with_reducible exact KeepsO.fault
    | with_reducible apply KeepsE.ok
    | with_reducible exact KeepsE.error
    | with_reducible apply KeepsX.some
    | with_reducible exact KeepsX.none
    | with_reducible refine KeepsO.ite ?_ ?_
    | with_reducible apply keeps_runStream
    | with_reducible apply keeps_work
    | with_reducible refine Keeps.ite ?_ ?_
    | split
    | with_reducible intro _)

theorem keeps_workSwapHalves {s0 : State} {core n : Nat} {s : State}
    (h0 : Keeps s0 s) : KeepsO s0 (workSwapHalves core n s) := by
  unfold workSwapHalves
  repeat' (first
    | with_reducible assumption
    | with_reducible apply KeepsO.next
    | with_reducible exact KeepsO.fault
    | with_reducible apply KeepsE.ok
    | with_reducible exact KeepsE.error
    | with_reducible apply KeepsX.some
    | with_reducible exact KeepsX.none
    | with_reducible refine KeepsO.ite ?_ ?_
    | with_reducible apply keeps_State_done
    | with_reducible apply keeps_State_failed
    | with_reducible apply keeps_State_hold
    | with_reducible apply keeps_State_mapCore
    | with_reducible apply keeps_State_mapSlot
    | with_reducible apply keeps_State_pay
    | with_reducible apply keeps_work
    | with_reducible refine Keeps.ite ?_ ?_
    | split
    | with_reducible intro _)

theorem keeps_State_copyLines {s0 s : State} {dst src n : Nat} (h0 : Keeps s0 s) : Keeps s0 (State.copyLines s dst src n) := by
  cases n with
  | zero => exact h0
  | succ n =>
    unfold State.copyLines
    exact Keeps.foldl h0 fun u x hu => keeps_State_wr hu

theorem keeps_workCopyRemote {s0 : State} {core n : Nat} {s : State}
    (h0 : Keeps s0 s) : KeepsO s0 (workCopyRemote core n s) := by
  unfold workCopyRemote
  repeat' (first
    | with_reducible assumption
    | with_reducible apply KeepsX.some
    | with_reducible exact KeepsX.none
    | with_reducible apply KeepsO.next
    | with_reducible exact KeepsO.fault
    | with_reducible apply KeepsE.ok
    | with_reducible exact KeepsE.error
    | with_reducible apply KeepsX.some
    | with_reducible exact KeepsX.none
    | with_reducible refine KeepsX.ite ?_ ?_
    | with_reducible refine KeepsO.ite ?_ ?_
    | with_reducible apply keeps_State_chargeData
    | with_reducible apply keeps_State_copyLines
    | with_reducible apply keeps_State_done
    | with_reducible apply keeps_State_failed
    | with_reducible apply keeps_State_faultCtx
    | with_reducible apply keeps_State_hold
    | with_reducible apply keeps_State_noteRefused
    | with_reducible apply keeps_State_pay
    | with_reducible apply keeps_State_touchBanks
    | with_reducible apply keeps_State_wakeBanks
    | with_reducible apply keeps_work
    | with_reducible refine Keeps.ite ?_ ?_
    | split
    | with_reducible intro _
    | dsimp only)

theorem keeps_State_chainLine {s0 : State} {s : State} {core : Nat} {c : ChainRun} {bs : List Byte} {bad : List Bool}
    (h0 : Keeps s0 s) : Keeps s0 (State.chainLine s core c bs bad) := by
  unfold State.chainLine
  repeat' (first
    | with_reducible assumption
    | with_reducible apply KeepsX.some
    | with_reducible exact KeepsX.none
    | with_reducible refine KeepsX.ite ?_ ?_
    | with_reducible apply keeps_State_chargeData
    | with_reducible apply keeps_State_mapCore
    | with_reducible apply keeps_State_wrBads
    | with_reducible refine Keeps.ite ?_ ?_)

theorem keeps_State_chainFeed {s0 : State} {s : State} {core : Nat} {c : ChainRun} {m : ChainMsg}
    (h0 : Keeps s0 s) : Keeps s0 (State.chainFeed s core c m) := by
  unfold State.chainFeed
  repeat' (first
    | with_reducible assumption
    | with_reducible apply KeepsX.some
    | with_reducible exact KeepsX.none
    | with_reducible refine KeepsX.ite ?_ ?_
    | with_reducible apply keeps_State_badHead
    | with_reducible apply keeps_State_chainLine
    | with_reducible apply keeps_State_faultCtx
    | with_reducible apply keeps_State_mapCore
    | with_reducible refine Keeps.ite ?_ ?_
    | split)

theorem keeps_State_chainDrain {s0 s : State} {core n : Nat} (h0 : Keeps s0 s) : Keeps s0 (State.chainDrain s core n) := by
  induction n generalizing s with
  | zero => exact h0
  | succ n ih =>
    unfold State.chainDrain
    dsimp only
    split
    · split
      · exact h0
      · exact ih (keeps_State_chainFeed (keeps_State_setCore h0))
    · exact h0

theorem keeps_workChainW {s0 : State} {core n : Nat} {s : State}
    (h0 : Keeps s0 s) : KeepsO s0 (workChainW core n s) := by
  unfold workChainW
  repeat' (first
    | with_reducible assumption
    | with_reducible apply KeepsX.some
    | with_reducible exact KeepsX.none
    | with_reducible apply KeepsO.next
    | with_reducible exact KeepsO.fault
    | with_reducible apply KeepsE.ok
    | with_reducible exact KeepsE.error
    | with_reducible apply KeepsX.some
    | with_reducible exact KeepsX.none
    | with_reducible refine KeepsX.ite ?_ ?_
    | with_reducible refine KeepsO.ite ?_ ?_
    | with_reducible apply keeps_State_chainDrain
    | with_reducible apply keeps_State_chainSend
    | with_reducible apply keeps_State_failed
    | with_reducible apply keeps_State_handOff
    | with_reducible apply keeps_State_hold
    | with_reducible refine KeepsP.snd (keeps_State_leave ?_)
    | with_reducible refine KeepsP.out (keeps_State_leave ?_) (by assumption)
    | with_reducible apply keeps_State_leave
    | with_reducible apply keeps_State_mapCore
    | with_reducible apply keeps_State_pay
    | with_reducible apply keeps_State_settle
    | with_reducible apply keeps_State_wakeBanks
    | with_reducible apply keeps_work
    | with_reducible refine Keeps.ite ?_ ?_
    | split
    | with_reducible intro _)

theorem keeps_execChainLineArrival {s0 : State} {core : Nat} {s : State}
    (h0 : Keeps s0 s) : KeepsO s0 (execChainLineArrival core s) := by
  unfold execChainLineArrival
  repeat' (first
    | with_reducible assumption
    | with_reducible apply KeepsX.some
    | with_reducible exact KeepsX.none
    | with_reducible apply KeepsO.next
    | with_reducible exact KeepsO.fault
    | with_reducible apply KeepsE.ok
    | with_reducible exact KeepsE.error
    | with_reducible apply KeepsX.some
    | with_reducible exact KeepsX.none
    | with_reducible refine KeepsX.ite ?_ ?_
    | with_reducible refine KeepsO.ite ?_ ?_
    | with_reducible apply keeps_State_badHead
    | with_reducible apply keeps_State_chainFeed
    | with_reducible apply keeps_State_mapCore
    | with_reducible apply keeps_State_setCore
    | with_reducible refine Keeps.ite ?_ ?_
    | split
    | with_reducible intro _
    | dsimp only)

theorem keeps_State_pfLine {s0 : State} {core lctx : Nat} {x : PfCand} {a : State × Bool} {l : Nat} (h0 : Keeps s0 a.1) :
    Keeps s0 (State.pfLine core lctx x a l).1 := by
  unfold State.pfLine
  dsimp only
  split
  · exact h0
  · generalize a.1.vread _ _ _ = v
    cases v with
    | error e => exact keeps_State_setCore h0
    | ok b => exact keeps_State_chargeData (keeps_State_streamPages (keeps_State_vtake (keeps_State_setCore h0)))

theorem keeps_State_fetchAhead {s0 s : State} {core lctx : Nat} {x : PfCand} (h0 : Keeps s0 s) :
    Keeps s0 (State.fetchAhead s core lctx x) := by
  unfold State.fetchAhead
  generalize ((s.core core).pfWant lctx x) = ls
  have : ∀ (ls : List Nat) (a : State × Bool), Keeps s0 a.1 → Keeps s0 (ls.foldl (State.pfLine core lctx x) a).1 := by
    intro ls
    induction ls with
    | nil => exact fun _ h => h
    | cons l t ih => exact fun a h => ih _ (keeps_State_pfLine h)
  exact this ls _ h0

theorem keeps_execPrefetch {s0 : State} {core n : Nat} {s : State}
    (h0 : Keeps s0 s) : KeepsO s0 (execPrefetch core n s) := by
  unfold execPrefetch
  repeat' (first
    | with_reducible assumption
    | with_reducible apply KeepsX.some
    | with_reducible exact KeepsX.none
    | with_reducible apply KeepsO.next
    | with_reducible exact KeepsO.fault
    | with_reducible apply KeepsE.ok
    | with_reducible exact KeepsE.error
    | with_reducible apply KeepsX.some
    | with_reducible exact KeepsX.none
    | with_reducible refine KeepsX.ite ?_ ?_
    | with_reducible refine KeepsO.ite ?_ ?_
    | with_reducible apply keeps_State_fetchAhead
    | with_reducible refine Keeps.ite ?_ ?_
    | split)

end Sys2Proof.Machine
end

