-- ==== Sys2Proof/Laws/KeepsDevice.lean ====
section
/-! SUPPORT. That the queue and the canonical form of memory are kept by updates, sessions, votes, collectives, power, serving, kills,
memory, packets and launches: one lemma for each operation. -/

-- One proof at a time: the thread of every theorem of a large file would not fit in memory.
set_option Elab.async false

namespace Sys2Proof.Machine

open Sys2Proof

theorem keeps_State_mapUpd {s0 : State} {s : State} {p : Nat} {f : UpdRegs → UpdRegs}
    (h0 : Keeps s0 s) : Keeps s0 (State.mapUpd s p f) := by
  unfold State.mapUpd
  repeat' (first
    | with_reducible assumption
    | with_reducible refine Keeps.ite ?_ ?_
    | split
    | with_reducible intro _
    | dsimp only
    | with_reducible refine Keeps.mkState (by with_reducible assumption))

theorem keeps_State_regionTake {s0 : State} {s : State} {eng p i : Nat}
    (h0 : Keeps s0 s) : Keeps s0 (State.regionTake s eng p i) := by
  unfold State.regionTake
  repeat' (first
    | with_reducible assumption
    | with_reducible apply keeps_State_enginePages
    | with_reducible apply keeps_State_vtake
    | with_reducible refine Keeps.ite ?_ ?_
    | split)

theorem keeps_State_putHdr {s0 : State} {s : State} {p : Nat} {e : RegEnt} {h : ShHdr}
    (h0 : Keeps s0 s) : Keeps s0 (State.putHdr s p e h) := by
  unfold State.putHdr
  repeat' (first
    | with_reducible assumption
    | with_reducible apply keeps_State_vwrite)

theorem keeps_State_toScheduler {s0 : State} {s : State} {h : Head} {desc : List Byte}
    (h0 : Keeps s0 s) : Keeps s0 (State.toScheduler s h desc) := by
  unfold State.toScheduler
  repeat' (first
    | with_reducible assumption
    | with_reducible refine KeepsP.snd (keeps_State_leave ?_)
    | with_reducible refine KeepsP.out (keeps_State_leave ?_) (by assumption)
    | with_reducible apply keeps_State_leave
    | with_reducible apply keeps_State_mapPart
    | with_reducible apply keeps_State_settle)

theorem keeps_workUpdateBlocks {s0 : State} {core n : Nat} {s : State}
    (h0 : Keeps s0 s) : KeepsO s0 (workUpdateBlocks core n s) := by
  unfold workUpdateBlocks
  repeat' (first
    | with_reducible assumption
    | with_reducible apply KeepsO.next
    | with_reducible exact KeepsO.fault
    | with_reducible apply KeepsE.ok
    | with_reducible exact KeepsE.error
    | with_reducible apply KeepsX.some
    | with_reducible exact KeepsX.none
    | with_reducible refine KeepsO.ite ?_ ?_
    | with_reducible apply keeps_State_failed
    | with_reducible apply keeps_State_pay
    | with_reducible apply keeps_State_toScheduler
    | with_reducible apply keeps_work
    | with_reducible refine Keeps.ite ?_ ?_
    | split
    | with_reducible intro _)

theorem keeps_workGradMerge {s0 : State} {core n : Nat} {s : State}
    (h0 : Keeps s0 s) : KeepsO s0 (workGradMerge core n s) := by
  unfold workGradMerge
  repeat' (first
    | with_reducible assumption
    | with_reducible apply KeepsO.next
    | with_reducible exact KeepsO.fault
    | with_reducible apply KeepsE.ok
    | with_reducible exact KeepsE.error
    | with_reducible apply KeepsX.some
    | with_reducible exact KeepsX.none
    | with_reducible refine KeepsO.ite ?_ ?_
    | with_reducible apply keeps_State_failed
    | with_reducible apply keeps_State_hold
    | with_reducible apply keeps_State_pay
    | with_reducible apply keeps_State_toScheduler
    | with_reducible apply keeps_State_wakeBanks
    | with_reducible apply keeps_work
    | with_reducible refine Keeps.ite ?_ ?_
    | split
    | with_reducible intro _)

theorem keeps_workCommitShadow {s0 : State} {core n : Nat} {s : State}
    (h0 : Keeps s0 s) : KeepsO s0 (workCommitShadow core n s) := by
  unfold workCommitShadow
  repeat' (first
    | with_reducible assumption
    | with_reducible apply KeepsO.next
    | with_reducible exact KeepsO.fault
    | with_reducible apply KeepsE.ok
    | with_reducible exact KeepsE.error
    | with_reducible apply KeepsX.some
    | with_reducible exact KeepsX.none
    | with_reducible refine KeepsO.ite ?_ ?_
    | with_reducible apply keeps_State_failed
    | with_reducible apply keeps_State_pay
    | with_reducible apply keeps_State_toScheduler
    | with_reducible apply keeps_work
    | with_reducible refine Keeps.ite ?_ ?_
    | split
    | with_reducible intro _)

theorem keeps_workDiscardShadow {s0 : State} {core n : Nat} {s : State}
    (h0 : Keeps s0 s) : KeepsO s0 (workDiscardShadow core n s) := by
  unfold workDiscardShadow
  repeat' (first
    | with_reducible assumption
    | with_reducible apply KeepsO.next
    | with_reducible exact KeepsO.fault
    | with_reducible apply KeepsE.ok
    | with_reducible exact KeepsE.error
    | with_reducible apply KeepsX.some
    | with_reducible exact KeepsX.none
    | with_reducible refine KeepsO.ite ?_ ?_
    | with_reducible apply keeps_State_failed
    | with_reducible apply keeps_State_pay
    | with_reducible apply keeps_State_toScheduler
    | with_reducible apply keeps_work
    | with_reducible refine Keeps.ite ?_ ?_
    | split
    | with_reducible intro _)

theorem keeps_State_updDone {s0 : State} {s : State} {p : Nat} {u : UpdCmd}
    (h0 : Keeps s0 s) : Keeps s0 (State.updDone s p u) := by
  unfold State.updDone
  repeat' (first
    | with_reducible assumption
    | with_reducible apply keeps_State_badHead
    | with_reducible apply keeps_State_mapCore
    | with_reducible apply keeps_State_mapPart)

theorem keeps_State_updFail {s0 : State} {s : State} {p : Nat} {u : UpdCmd} {status : Nat}
    (h0 : Keeps s0 s) : Keeps s0 (State.updFail s p u status) := by
  unfold State.updFail
  repeat' (first
    | with_reducible assumption
    | with_reducible apply keeps_State_faultCtx
    | with_reducible apply keeps_State_mapPart)

theorem keeps_State_updPageFault {s0 : State} {s : State} {p : Nat} {u : UpdCmd} {x : Nat × TransFail} {wr : Bool}
    (h0 : Keeps s0 s) : Keeps s0 (State.updPageFault s p u x wr) := by
  unfold State.updPageFault
  repeat' (first
    | with_reducible assumption
    | with_reducible apply keeps_State_transFault
    | with_reducible apply keeps_State_updFail
    | with_reducible apply keeps_State_wr
    | with_reducible refine Keeps.ite ?_ ?_
    | split)

theorem keeps_execUpdateAccept {s0 : State} {p : Nat} {s : State}
    (h0 : Keeps s0 s) : KeepsO s0 (execUpdateAccept p s) := by
  unfold execUpdateAccept
  repeat' (first
    | with_reducible assumption
    | with_reducible apply KeepsX.some
    | with_reducible exact KeepsX.none
    | with_reducible apply KeepsO.next
    | with_reducible exact KeepsO.fault
    | with_reducible apply KeepsE.ok
    | with_reducible exact KeepsE.error
    | with_reducible apply KeepsX.some
    | with_reducible exact KeepsX.none
    | with_reducible refine KeepsX.ite ?_ ?_
    | with_reducible refine KeepsO.ite ?_ ?_
    | with_reducible refine KeepsQ.fst (keeps_State_accepted ?_)
    | with_reducible apply keeps_State_accepted
    | with_reducible apply keeps_State_mapCore
    | with_reducible apply keeps_State_mapPart
    | with_reducible apply keeps_State_mapUpd
    | with_reducible apply keeps_State_putHdr
    | with_reducible apply keeps_State_regionTake
    | with_reducible apply keeps_State_updDone
    | with_reducible apply keeps_State_updFail
    | with_reducible apply keeps_State_updPageFault
    | with_reducible refine Keeps.ite ?_ ?_
    | split
    | with_reducible intro _
    | dsimp only)

theorem keeps_State_vwriteChecked {s0 : State} {s : State} {p va : Nat} {bs : List Byte}
    (h0 : Keeps s0 s) : Keeps s0 (State.vwriteChecked s p va bs) := by
  unfold State.vwriteChecked
  repeat' (first
    | with_reducible assumption
    | with_reducible apply Keeps.foldl
    | with_reducible apply Keeps.foldlQ
    | with_reducible apply Keeps.foldlP
    | with_reducible apply keeps_State_engWriteChecked
    | with_reducible apply keeps_State_vwrite
    | with_reducible refine Keeps.ite ?_ ?_
    | split
    | with_reducible intro _)

theorem keeps_State_updRun {s0 : State} {s : State} {p : Nat} {f : UpdF} {e : RegEnt} {t b n : Nat}
    (h0 : Keeps s0 s) : KeepsQ s0 (State.updRun s p f e t b n) := by
  unfold State.updRun
  repeat' (first
    | with_reducible assumption
    | with_reducible refine KeepsQ.ite ?_ ?_
    | with_reducible apply KeepsQ.mk
    | with_reducible apply Keeps.foldl
    | with_reducible apply Keeps.foldlQ
    | with_reducible apply Keeps.foldlP
    | with_reducible apply keeps_State_vwrite
    | with_reducible apply keeps_State_vwriteChecked
    | with_reducible refine Keeps.ite ?_ ?_
    | split
    | with_reducible intro _
    | dsimp only
    | with_reducible refine Keeps.mkState (by with_reducible assumption)
    | with_reducible refine Keeps.mkState (keeps_State_vwrite ?_))

theorem keeps_State_mergeRun {s0 : State} {s : State} {p : Nat} {d : List Byte} {b n : Nat}
    (h0 : Keeps s0 s) : Keeps s0 (State.mergeRun s p d b n) := by
  unfold State.mergeRun
  repeat' (first
    | with_reducible assumption
    | with_reducible apply Keeps.foldl
    | with_reducible apply Keeps.foldlQ
    | with_reducible apply Keeps.foldlP
    | with_reducible apply keeps_State_cacheMark
    | with_reducible apply keeps_State_vwrite
    | with_reducible apply keeps_State_vwriteChecked
    | with_reducible refine Keeps.ite ?_ ?_
    | split
    | with_reducible intro _
    | dsimp only
    | with_reducible refine Keeps.mkState (by with_reducible assumption))

theorem keeps_State_runTake {s0 : State} {s : State} {p run : Nat} {reads writes : List (Nat × Nat)}
    (h0 : Keeps s0 s) : Keeps s0 (State.runTake s p run reads writes) := by
  unfold State.runTake
  repeat' (first
    | with_reducible assumption
    | with_reducible apply Keeps.foldl
    | with_reducible apply Keeps.foldlQ
    | with_reducible apply Keeps.foldlP
    | with_reducible apply keeps_State_enginePages
    | with_reducible apply keeps_State_vtake
    | with_reducible refine Keeps.ite ?_ ?_
    | split
    | with_reducible intro _)

theorem keeps_execRunComplete {s0 : State} {p : Nat} {s : State}
    (h0 : Keeps s0 s) : KeepsO s0 (execRunComplete p s) := by
  unfold execRunComplete
  repeat' (first
    | with_reducible assumption
    | with_reducible apply KeepsX.some
    | with_reducible exact KeepsX.none
    | with_reducible apply KeepsO.next
    | with_reducible exact KeepsO.fault
    | with_reducible apply KeepsE.ok
    | with_reducible exact KeepsE.error
    | with_reducible apply KeepsX.some
    | with_reducible exact KeepsX.none
    | with_reducible refine KeepsX.ite ?_ ?_
    | with_reducible refine KeepsO.ite ?_ ?_
    | with_reducible refine KeepsQ.fst (keeps_State_accepted ?_)
    | with_reducible apply keeps_State_accepted
    | with_reducible apply keeps_State_mapPart
    | with_reducible apply keeps_State_mapUpd
    | with_reducible apply keeps_State_mergeRun
    | with_reducible apply keeps_State_noteCheck
    | with_reducible apply keeps_State_putHdr
    | with_reducible apply keeps_State_runTake
    | with_reducible apply keeps_State_updDone
    | with_reducible apply keeps_State_updFail
    | with_reducible apply keeps_State_updPageFault
    | with_reducible refine KeepsQ.fst (keeps_State_updRun ?_)
    | with_reducible refine KeepsQ.out (keeps_State_updRun ?_) (by assumption)
    | with_reducible apply keeps_State_updRun
    | with_reducible refine Keeps.ite ?_ ?_
    | split
    | with_reducible intro _
    | dsimp only)

theorem keeps_execUpdateEngineFault {s0 : State} {p : Nat} {s : State}
    (h0 : Keeps s0 s) : KeepsO s0 (execUpdateEngineFault p s) := by
  unfold execUpdateEngineFault
  repeat' (first
    | with_reducible assumption
    | with_reducible apply KeepsO.next
    | with_reducible exact KeepsO.fault
    | with_reducible apply KeepsE.ok
    | with_reducible exact KeepsE.error
    | with_reducible apply KeepsX.some
    | with_reducible exact KeepsX.none
    | with_reducible refine KeepsO.ite ?_ ?_
    | with_reducible refine KeepsQ.fst (keeps_State_accepted ?_)
    | with_reducible apply keeps_State_accepted
    | with_reducible apply keeps_State_mapUpd
    | with_reducible refine Keeps.ite ?_ ?_
    | split)

theorem keeps_State_dropTlbs {s0 : State} {s : State} {p : Nat} {hit : TlbEnt → Bool}
    (h0 : Keeps s0 s) : Keeps s0 (State.dropTlbs s p hit) := by
  unfold State.dropTlbs
  repeat' (first
    | with_reducible assumption
    | with_reducible apply Keeps.foldl
    | with_reducible apply Keeps.foldlQ
    | with_reducible apply Keeps.foldlP
    | with_reducible apply keeps_State_mapCore
    | with_reducible refine Keeps.ite ?_ ?_
    | split
    | with_reducible intro _
    | dsimp only
    | with_reducible refine Keeps.mkState (by with_reducible assumption))

theorem keeps_State_invalidate {s0 : State} {s : State} {p : Nat} {pages : List Nat}
    (h0 : Keeps s0 s) : Keeps s0 (State.invalidate s p pages) := by
  unfold State.invalidate
  repeat' (first
    | with_reducible assumption
    | with_reducible apply Keeps.foldl
    | with_reducible apply Keeps.foldlQ
    | with_reducible apply Keeps.foldlP
    | with_reducible apply keeps_State_dropTlbs
    | with_reducible apply keeps_State_mapCore
    | with_reducible apply keeps_State_mapPart
    | with_reducible refine Keeps.ite ?_ ?_
    | split
    | with_reducible intro _)

theorem keeps_State_shadowTake {s0 : State} {s : State} {p : Nat} {u : UpdCmd}
    (h0 : Keeps s0 s) : Keeps s0 (State.shadowTake s p u) := by
  unfold State.shadowTake
  repeat' (first
    | with_reducible assumption
    | with_reducible apply Keeps.foldl
    | with_reducible apply Keeps.foldlQ
    | with_reducible apply Keeps.foldlP
    | with_reducible apply keeps_State_regionTake
    | with_reducible refine Keeps.ite ?_ ?_
    | split
    | with_reducible intro _)

theorem keeps_State_commitSome {s0 : State} {s : State} {p : Nat} {e : RegEnt}
    (h0 : Keeps s0 s) : KeepsQ s0 (State.commitSome s p e) := by
  unfold State.commitSome
  repeat' (first
    | with_reducible assumption
    | with_reducible refine KeepsQ.ite ?_ ?_
    | with_reducible apply KeepsQ.mk
    | with_reducible apply Keeps.foldl
    | with_reducible apply Keeps.foldlQ
    | with_reducible apply Keeps.foldlP
    | with_reducible apply keeps_State_invalidate
    | with_reducible apply keeps_State_mapPart
    | with_reducible apply keeps_State_putHdr)

theorem keeps_State_commitOn {s0 s : State} {p n : Nat} {u : UpdCmd} (h0 : Keeps s0 s) : Keeps s0 (State.commitOn p n u s) := by
  induction n generalizing s u with
  | zero => exact keeps_State_updDone (keeps_State_mapUpd h0)
  | succ n ih =>
    unfold State.commitOn
    dsimp only
    split
    · exact ih (KeepsQ.fst (keeps_State_commitSome h0))
    · exact keeps_State_mapPart (KeepsQ.fst (keeps_State_commitSome h0))

theorem keeps_execShadowCommit {s0 : State} {p : Nat} {s : State}
    (h0 : Keeps s0 s) : KeepsO s0 (execShadowCommit p s) := by
  unfold execShadowCommit
  repeat' (first
    | with_reducible assumption
    | with_reducible apply KeepsX.some
    | with_reducible exact KeepsX.none
    | with_reducible apply KeepsO.next
    | with_reducible exact KeepsO.fault
    | with_reducible apply KeepsE.ok
    | with_reducible exact KeepsE.error
    | with_reducible apply KeepsX.some
    | with_reducible exact KeepsX.none
    | with_reducible refine KeepsX.ite ?_ ?_
    | with_reducible refine KeepsO.ite ?_ ?_
    | with_reducible refine KeepsQ.fst (keeps_State_accepted ?_)
    | with_reducible apply keeps_State_accepted
    | with_reducible apply keeps_State_shadowTake
    | with_reducible apply keeps_State_updFail
    | with_reducible apply keeps_State_updPageFault
    | with_reducible apply keeps_State_commitOn
    | with_reducible refine Keeps.ite ?_ ?_
    | split)

theorem keeps_State_discardRegion {s0 : State} {s : State} {p i : Nat}
    (h0 : Keeps s0 s) : Keeps s0 (State.discardRegion s p i) := by
  unfold State.discardRegion
  repeat' (first
    | with_reducible assumption
    | with_reducible apply keeps_State_putHdr
    | with_reducible refine Keeps.ite ?_ ?_
    | split)

theorem keeps_execShadowDiscard {s0 : State} {p : Nat} {s : State}
    (h0 : Keeps s0 s) : KeepsO s0 (execShadowDiscard p s) := by
  unfold execShadowDiscard
  repeat' (first
    | with_reducible assumption
    | with_reducible apply KeepsX.some
    | with_reducible exact KeepsX.none
    | with_reducible apply KeepsO.next
    | with_reducible exact KeepsO.fault
    | with_reducible apply KeepsE.ok
    | with_reducible exact KeepsE.error
    | with_reducible apply KeepsX.some
    | with_reducible exact KeepsX.none
    | with_reducible refine KeepsX.ite ?_ ?_
    | with_reducible refine KeepsO.ite ?_ ?_
    | with_reducible apply Keeps.foldl
    | with_reducible apply Keeps.foldlQ
    | with_reducible apply Keeps.foldlP
    | with_reducible apply keeps_State_discardRegion
    | with_reducible apply keeps_State_shadowTake
    | with_reducible apply keeps_State_updDone
    | with_reducible apply keeps_State_updFail
    | with_reducible apply keeps_State_updPageFault
    | with_reducible refine Keeps.ite ?_ ?_
    | split
    | with_reducible intro _)

theorem keeps_State_onWire {s0 : State} {s : State} {n port sport : Nat} {bytes : List Byte}
    (h0 : Keeps s0 s) : Keeps s0 (State.onWire s n port sport bytes) := by
  unfold State.onWire
  repeat' (first
    | with_reducible assumption
    | with_reducible apply KeepsX.some
    | with_reducible exact KeepsX.none
    | with_reducible refine KeepsX.ite ?_ ?_
    | with_reducible apply keeps_State_mapFab
    | with_reducible apply keeps_State_mapPort
    | with_reducible refine Keeps.ite ?_ ?_
    | split)

theorem keeps_State_onControl {s0 : State} {s : State} {n : Nat} {bytes : List Byte}
    (h0 : Keeps s0 s) : Keeps s0 (State.onControl s n bytes) := by
  unfold State.onControl
  repeat' (first
    | with_reducible assumption
    | with_reducible apply keeps_State_onWire
    | with_reducible refine Keeps.ite ?_ ?_
    | split)

theorem keeps_State_sendHs {s0 : State} {s : State} {n typ : Nat} {msg : List Byte}
    (h0 : Keeps s0 s) : Keeps s0 (State.sendHs s n typ msg) := by
  unfold State.sendHs
  repeat' (first
    | with_reducible assumption
    | with_reducible apply Keeps.foldl
    | with_reducible apply Keeps.foldlQ
    | with_reducible apply Keeps.foldlP
    | with_reducible apply keeps_State_onControl
    | with_reducible refine Keeps.ite ?_ ?_
    | split
    | with_reducible intro _)

theorem keeps_State_closeOld {s0 : State} {s : State} {n : Nat}
    (h0 : Keeps s0 s) : Keeps s0 (State.closeOld s n) := by
  unfold State.closeOld
  repeat' (first
    | with_reducible assumption
    | with_reducible apply keeps_State_mapPeer)

theorem keeps_State_sendAck {s0 : State} {s : State} {n sid : Nat}
    (h0 : Keeps s0 s) : Keeps s0 (State.sendAck s n sid) := by
  unfold State.sendAck
  repeat' (first
    | with_reducible assumption
    | with_reducible apply KeepsX.some
    | with_reducible exact KeepsX.none
    | with_reducible refine KeepsX.ite ?_ ?_
    | with_reducible apply keeps_State_closeOld
    | with_reducible apply keeps_State_mapPeer
    | with_reducible apply keeps_State_onControl
    | with_reducible refine Keeps.ite ?_ ?_
    | split
    | with_reducible intro _
    | dsimp only)

theorem keeps_State_sendCnp {s0 : State} {s : State} {n sid : Nat}
    (h0 : Keeps s0 s) : Keeps s0 (State.sendCnp s n sid) := by
  unfold State.sendCnp
  repeat' (first
    | with_reducible assumption
    | with_reducible apply KeepsX.some
    | with_reducible exact KeepsX.none
    | with_reducible refine KeepsX.ite ?_ ?_
    | with_reducible apply keeps_State_mapPeer
    | with_reducible apply keeps_State_onControl
    | with_reducible refine Keeps.ite ?_ ?_
    | split
    | with_reducible intro _
    | dsimp only)

theorem keeps_State_queueMsg {s0 : State} {s : State} {n : Nat} {m : JMsg}
    (h0 : Keeps s0 s) : Keeps s0 (State.queueMsg s n m) := by
  unfold State.queueMsg
  repeat' (first
    | with_reducible assumption
    | with_reducible apply keeps_State_mapPeer)

theorem keeps_State_failOwner {s0 : State} {s : State} {o : Owner} {status : Nat}
    (h0 : Keeps s0 s) : Keeps s0 (State.failOwner s o status) := by
  unfold State.failOwner
  repeat' (first
    | with_reducible assumption
    | with_reducible apply keeps_State_faultCtx
    | with_reducible refine Keeps.ite ?_ ?_
    | split)

theorem keeps_State_ownerDone {s0 : State} {s : State} {p : Nat} {o : Owner}
    (h0 : Keeps s0 s) : Keeps s0 (State.ownerDone s p o) := by
  unfold State.ownerDone
  repeat' (first
    | with_reducible assumption
    | with_reducible apply keeps_State_mapCore
    | with_reducible refine Keeps.ite ?_ ?_
    | split
    | with_reducible intro _
    | dsimp only
    | with_reducible refine Keeps.mkState (by with_reducible assumption))

theorem keeps_State_srcFailed {s0 : State} {s : State} {p : Nat} {o : Owner} {e : SrcFail} {drop : State → State} (h_drop : ∀ (z0 : State), Keeps s0 z0 → Keeps s0 (drop z0))
    (h0 : Keeps s0 s) : Keeps s0 (State.srcFailed s p o e drop) := by
  unfold State.srcFailed
  repeat' (first
    | with_reducible assumption
    | with_reducible apply KeepsO.next
    | with_reducible exact KeepsO.fault
    | with_reducible apply KeepsE.ok
    | with_reducible exact KeepsE.error
    | with_reducible apply KeepsX.some
    | with_reducible exact KeepsX.none
    | with_reducible apply h_drop
    | with_reducible apply keeps_State_failOwner
    | with_reducible apply keeps_State_noteCheck
    | with_reducible apply keeps_State_transFault
    | with_reducible refine Keeps.ite ?_ ?_
    | split)

theorem keeps_State_srcTake {s0 : State} {s : State} {p : Nat} {ex : List (Nat × Nat)}
    (h0 : Keeps s0 s) : Keeps s0 (State.srcTake s p ex) := by
  unfold State.srcTake
  repeat' (first
    | with_reducible assumption
    | with_reducible apply Keeps.foldl
    | with_reducible apply Keeps.foldlQ
    | with_reducible apply Keeps.foldlP
    | with_reducible apply keeps_State_enginePages
    | with_reducible apply keeps_State_vtake
    | with_reducible refine Keeps.ite ?_ ?_
    | split
    | with_reducible intro _)

theorem keeps_State_settleSession {s0 : State} {s : State} {n sid : Nat}
    (h0 : Keeps s0 s) : Keeps s0 (State.settleSession s n sid) := by
  unfold State.settleSession
  repeat' (first
    | with_reducible assumption
    | with_reducible apply KeepsX.some
    | with_reducible exact KeepsX.none
    | with_reducible refine KeepsX.ite ?_ ?_
    | with_reducible apply Keeps.foldl
    | with_reducible apply Keeps.foldlQ
    | with_reducible apply Keeps.foldlP
    | with_reducible apply keeps_State_closeOld
    | with_reducible apply keeps_State_fin
    | with_reducible apply keeps_State_mapPeer
    | with_reducible apply keeps_State_ownerDone
    | with_reducible refine Keeps.ite ?_ ?_
    | split
    | with_reducible intro _
    | dsimp only)

theorem keeps_State_takeAck {s0 : State} {s : State} {n sid cack : Nat} {got : List Nat}
    (h0 : Keeps s0 s) : Keeps s0 (State.takeAck s n sid cack got) := by
  unfold State.takeAck
  repeat' (first
    | with_reducible assumption
    | with_reducible apply keeps_State_mapPeer
    | with_reducible apply keeps_State_settleSession)

theorem keeps_State_resend {s0 : State} {s : State} {n sid : Nat} {a : Unacked}
    (h0 : Keeps s0 s) : Keeps s0 (State.resend s n sid a) := by
  unfold State.resend
  repeat' (first
    | with_reducible assumption
    | with_reducible apply KeepsX.some
    | with_reducible exact KeepsX.none
    | with_reducible refine KeepsX.ite ?_ ?_
    | with_reducible apply keeps_State_failOwner
    | with_reducible apply keeps_State_mapPeer
    | with_reducible apply keeps_State_onWire
    | with_reducible apply keeps_State_srcFailed
    | with_reducible apply keeps_State_srcTake
    | with_reducible apply Keeps.ofId
    | with_reducible refine Keeps.ite ?_ ?_
    | split
    | with_reducible intro _
    | dsimp only)

theorem keeps_State_sendPiece {s0 : State} {s : State} {n sid : Nat} {m : JMsg}
    (h0 : Keeps s0 s) : Keeps s0 (State.sendPiece s n sid m) := by
  unfold State.sendPiece
  repeat' (first
    | with_reducible assumption
    | with_reducible apply KeepsX.some
    | with_reducible exact KeepsX.none
    | with_reducible refine KeepsX.ite ?_ ?_
    | with_reducible apply keeps_State_mapPeer
    | with_reducible apply keeps_State_onWire
    | with_reducible apply keeps_State_srcFailed
    | with_reducible apply keeps_State_srcTake
    | with_reducible apply Keeps.ofId
    | with_reducible refine Keeps.ite ?_ ?_
    | split
    | with_reducible intro _
    | dsimp only)

theorem keeps_State_beginMsg {s0 : State} {s : State} {n : Nat}
    (h0 : Keeps s0 s) : Keeps s0 (State.beginMsg s n) := by
  unfold State.beginMsg
  repeat' (first
    | with_reducible assumption
    | with_reducible apply KeepsX.some
    | with_reducible exact KeepsX.none
    | with_reducible refine KeepsX.ite ?_ ?_
    | with_reducible apply keeps_State_mapPeer
    | with_reducible apply keeps_State_srcFailed
    | with_reducible apply keeps_State_srcTake
    | with_reducible apply Keeps.ofId
    | with_reducible refine Keeps.ite ?_ ?_
    | split
    | with_reducible intro _
    | dsimp only)

theorem keeps_State_sendOne {s0 : State} {s : State} {n : Nat} {k : Nat × NextPkt} {d : Tab Nat}
    (h0 : Keeps s0 s) : Keeps s0 (State.sendOne s n k d) := by
  unfold State.sendOne
  repeat' (first
    | with_reducible assumption
    | with_reducible apply keeps_State_mapPeer
    | with_reducible apply keeps_State_mapPort
    | with_reducible apply keeps_State_resend
    | with_reducible apply keeps_State_sendPiece
    | with_reducible refine Keeps.ite ?_ ?_
    | split)

theorem keeps_State_sendNext {s0 s : State} {n : Nat} (h0 : Keeps s0 s) : KeepsX s0 (State.sendNext s n) := by
  intro t e
  unfold State.sendNext at e
  obtain ⟨k, -, e⟩ := List.exists_of_findSome?_eq_some e
  cases hd : s.portTurn (s.peer n).part k.2 with
  | none => rw [hd] at e; cases e
  | some d =>
    rw [hd] at e
    cases e
    exact keeps_State_sendOne h0

theorem keeps_execDataTransmit {s0 : State} {n : Nat} {s : State}
    (h0 : Keeps s0 s) : KeepsO s0 (execDataTransmit n s) := by
  unfold execDataTransmit
  repeat' (first
    | with_reducible assumption
    | with_reducible apply KeepsO.next
    | with_reducible exact KeepsO.fault
    | with_reducible apply KeepsE.ok
    | with_reducible exact KeepsE.error
    | with_reducible apply KeepsX.some
    | with_reducible exact KeepsX.none
    | with_reducible refine KeepsO.ite ?_ ?_
    | with_reducible refine Keeps.getD ?_ ?_
    | with_reducible apply keeps_State_beginMsg
    | with_reducible refine KeepsX.out (keeps_State_sendNext ?_) (by assumption)
    | with_reducible apply keeps_State_sendNext)

theorem keeps_State_timedOut {s0 : State} {s : State} {n sid : Nat} {a : Unacked}
    (h0 : Keeps s0 s) : Keeps s0 (State.timedOut s n sid a) := by
  unfold State.timedOut
  repeat' (first
    | with_reducible assumption
    | with_reducible refine Keeps.getD ?_ ?_
    | with_reducible apply keeps_State_mapPeer
    | with_reducible refine KeepsX.out (keeps_State_sendNext ?_) (by assumption)
    | with_reducible apply keeps_State_sendNext
    | with_reducible refine Keeps.ite ?_ ?_)

theorem keeps_execRetransmitTimeout {s0 : State} {n : Nat} {s : State}
    (h0 : Keeps s0 s) : KeepsO s0 (execRetransmitTimeout n s) := by
  unfold execRetransmitTimeout
  repeat' (first
    | with_reducible assumption
    | with_reducible apply KeepsX.some
    | with_reducible exact KeepsX.none
    | with_reducible apply KeepsO.next
    | with_reducible exact KeepsO.fault
    | with_reducible apply KeepsE.ok
    | with_reducible exact KeepsE.error
    | with_reducible apply KeepsX.some
    | with_reducible exact KeepsX.none
    | with_reducible refine KeepsX.ite ?_ ?_
    | with_reducible refine KeepsO.ite ?_ ?_
    | with_reducible apply keeps_State_timedOut
    | with_reducible refine Keeps.ite ?_ ?_
    | split
    | with_reducible intro _
    | dsimp only)

theorem keeps_execRateEpoch {s0 : State} {s : State}
    (h0 : Keeps s0 s) : KeepsO s0 (execRateEpoch s) := by
  unfold execRateEpoch
  repeat' (first
    | with_reducible assumption
    | with_reducible apply KeepsO.next
    | with_reducible exact KeepsO.fault
    | with_reducible apply KeepsE.ok
    | with_reducible exact KeepsE.error
    | with_reducible apply KeepsX.some
    | with_reducible exact KeepsX.none
    | with_reducible refine KeepsO.ite ?_ ?_
    | with_reducible apply keeps_State_mapFab)

theorem keeps_execAckTimer {s0 : State} {n : Nat} {s : State}
    (h0 : Keeps s0 s) : KeepsO s0 (execAckTimer n s) := by
  unfold execAckTimer
  repeat' (first
    | with_reducible assumption
    | with_reducible apply KeepsX.some
    | with_reducible exact KeepsX.none
    | with_reducible apply KeepsO.next
    | with_reducible exact KeepsO.fault
    | with_reducible apply KeepsE.ok
    | with_reducible exact KeepsE.error
    | with_reducible apply KeepsX.some
    | with_reducible exact KeepsX.none
    | with_reducible refine KeepsX.ite ?_ ?_
    | with_reducible refine KeepsO.ite ?_ ?_
    | with_reducible apply keeps_State_sendAck
    | with_reducible refine Keeps.ite ?_ ?_
    | split
    | with_reducible intro _
    | dsimp only)

theorem keeps_State_mapColl {s0 : State} {s : State} {p : Nat} {f : Coll → Coll}
    (h0 : Keeps s0 s) : Keeps s0 (State.mapColl s p f) := by
  unfold State.mapColl
  repeat' (first
    | with_reducible assumption
    | with_reducible refine Keeps.ite ?_ ?_
    | split
    | with_reducible intro _
    | dsimp only
    | with_reducible refine Keeps.mkState (by with_reducible assumption))

theorem keeps_State_sendVote {s0 : State} {s : State} {p member index : Nat} {bs : List Byte}
    (h0 : Keeps s0 s) : Keeps s0 (State.sendVote s p member index bs) := by
  unfold State.sendVote
  repeat' (first
    | with_reducible assumption
    | with_reducible apply KeepsX.some
    | with_reducible exact KeepsX.none
    | with_reducible refine KeepsX.ite ?_ ?_
    | with_reducible apply keeps_State_queueMsg
    | with_reducible refine Keeps.ite ?_ ?_
    | split
    | with_reducible intro _
    | dsimp only)

theorem keeps_State_signalTok {s0 : State} {s : State} {core lctx t : Nat}
    (h0 : Keeps s0 s) : Keeps s0 (State.signalTok s core lctx t) := by
  unfold State.signalTok
  repeat' (first
    | with_reducible assumption
    | with_reducible apply keeps_State_mapCore
    | with_reducible refine Keeps.ite ?_ ?_)

theorem keeps_State_endSum {s0 : State} {s : State} {p : Nat} {x : OwnSum} {status : Option Nat}
    (h0 : Keeps s0 s) : Keeps s0 (State.endSum s p x status) := by
  unfold State.endSum
  repeat' (first
    | with_reducible assumption
    | with_reducible apply KeepsX.some
    | with_reducible exact KeepsX.none
    | with_reducible refine KeepsX.ite ?_ ?_
    | with_reducible refine Keeps.getD ?_ ?_
    | with_reducible apply keeps_State_badHead
    | with_reducible apply keeps_State_charge
    | with_reducible apply keeps_State_mapColl
    | with_reducible apply keeps_State_mapCore
    | with_reducible refine Keeps.ite ?_ ?_
    | split
    | with_reducible intro _
    | dsimp only)

theorem keeps_State_endRoundWork {s0 : State} {s : State} {p : Nat}
    (h0 : Keeps s0 s) : Keeps s0 (State.endRoundWork s p) := by
  unfold State.endRoundWork
  repeat' (first
    | with_reducible assumption
    | with_reducible apply KeepsX.some
    | with_reducible exact KeepsX.none
    | with_reducible refine KeepsX.ite ?_ ?_
    | with_reducible apply Keeps.foldl
    | with_reducible apply Keeps.foldlQ
    | with_reducible apply Keeps.foldlP
    | with_reducible apply keeps_State_endSum
    | with_reducible apply keeps_State_mapColl
    | with_reducible apply keeps_State_mapCore
    | with_reducible apply keeps_State_stopMsgs
    | with_reducible apply keeps_State_sumPosts
    | with_reducible apply Keeps.ofId
    | with_reducible refine Keeps.ite ?_ ?_
    | split
    | with_reducible intro _
    | dsimp only)

theorem keeps_State_endStepBegin {s0 : State} {s : State} {p status : Nat}
    (h0 : Keeps s0 s) : Keeps s0 (State.endStepBegin s p status) := by
  unfold State.endStepBegin
  repeat' (first
    | with_reducible assumption
    | with_reducible apply KeepsX.some
    | with_reducible exact KeepsX.none
    | with_reducible refine KeepsX.ite ?_ ?_
    | with_reducible apply keeps_State_finishLong
    | with_reducible apply keeps_State_mapColl
    | with_reducible refine Keeps.ite ?_ ?_
    | split)

theorem keeps_State_closeVote {s0 : State} {s : State} {p : Nat}
    (h0 : Keeps s0 s) : Keeps s0 (State.closeVote s p) := by
  unfold State.closeVote
  repeat' (first
    | with_reducible assumption
    | with_reducible apply KeepsX.some
    | with_reducible exact KeepsX.none
    | with_reducible refine KeepsX.ite ?_ ?_
    | with_reducible apply Keeps.foldl
    | with_reducible apply Keeps.foldlQ
    | with_reducible apply Keeps.foldlP
    | with_reducible apply keeps_State_badHead
    | with_reducible apply keeps_State_endStepBegin
    | with_reducible apply keeps_State_faultCtx
    | with_reducible apply keeps_State_fin
    | with_reducible apply keeps_State_invalidate
    | with_reducible apply keeps_State_mapColl
    | with_reducible apply keeps_State_mapCore
    | with_reducible apply keeps_State_mapPart
    | with_reducible apply keeps_State_signalTok
    | with_reducible apply Keeps.ofId
    | with_reducible refine Keeps.ite ?_ ?_
    | split
    | with_reducible intro _
    | dsimp only)

theorem keeps_State_recordDecision {s0 : State} {s : State} {p : Nat} {bs : List Byte}
    (h0 : Keeps s0 s) : Keeps s0 (State.recordDecision s p bs) := by
  unfold State.recordDecision
  repeat' (first
    | with_reducible assumption
    | with_reducible apply KeepsX.some
    | with_reducible exact KeepsX.none
    | with_reducible refine KeepsX.ite ?_ ?_
    | with_reducible apply keeps_State_mapColl
    | with_reducible apply keeps_State_mapPart)

theorem keeps_State_takeDecision {s0 : State} {s : State} {p : Nat} {bs : List Byte}
    (h0 : Keeps s0 s) : Keeps s0 (State.takeDecision s p bs) := by
  unfold State.takeDecision
  repeat' (first
    | with_reducible assumption
    | with_reducible apply keeps_State_endRoundWork
    | with_reducible apply keeps_State_mapColl)

theorem keeps_State_announce {s0 : State} {s : State} {p : Nat} {x : Nat × Nat × Nat}
    (h0 : Keeps s0 s) : KeepsQ s0 (State.announce s p x) := by
  unfold State.announce
  repeat' (first
    | with_reducible assumption
    | with_reducible refine KeepsQ.ite ?_ ?_
    | with_reducible apply KeepsQ.mk
    | with_reducible apply Keeps.foldl
    | with_reducible apply Keeps.foldlQ
    | with_reducible apply Keeps.foldlP
    | with_reducible apply keeps_State_mapColl
    | with_reducible apply keeps_State_recordDecision
    | with_reducible apply keeps_State_sendVote
    | with_reducible refine Keeps.ite ?_ ?_
    | split
    | with_reducible intro _)

theorem keeps_State_newRound {s0 : State} {s : State} {p : Nat}
    (h0 : Keeps s0 s) : Keeps s0 (State.newRound s p) := by
  unfold State.newRound
  repeat' (first
    | with_reducible assumption
    | with_reducible apply KeepsX.some
    | with_reducible exact KeepsX.none
    | with_reducible refine KeepsX.ite ?_ ?_
    | with_reducible refine KeepsQ.fst (keeps_State_announce ?_)
    | with_reducible refine KeepsQ.out (keeps_State_announce ?_) (by assumption)
    | with_reducible apply keeps_State_announce
    | with_reducible apply keeps_State_mapColl
    | with_reducible apply keeps_State_takeDecision
    | with_reducible refine Keeps.ite ?_ ?_
    | split
    | with_reducible intro _
    | dsimp only)

theorem keeps_State_completeVote {s0 : State} {s : State} {p : Nat}
    (h0 : Keeps s0 s) : Keeps s0 (State.completeVote s p) := by
  unfold State.completeVote
  repeat' (first
    | with_reducible assumption
    | with_reducible apply keeps_State_closeVote
    | with_reducible apply keeps_State_newRound
    | with_reducible refine Keeps.ite ?_ ?_)

theorem keeps_State_decide {s0 : State} {s : State} {p : Nat} {x : Nat × Nat × Nat}
    (h0 : Keeps s0 s) : Keeps s0 (State.decide s p x) := by
  unfold State.decide
  repeat' (first
    | with_reducible assumption
    | with_reducible refine KeepsQ.fst (keeps_State_announce ?_)
    | with_reducible refine KeepsQ.out (keeps_State_announce ?_) (by assumption)
    | with_reducible apply keeps_State_announce
    | with_reducible apply keeps_State_completeVote
    | with_reducible apply keeps_State_takeDecision)

theorem keeps_State_tally {s0 : State} {s : State} {p : Nat}
    (h0 : Keeps s0 s) : Keeps s0 (State.tally s p) := by
  unfold State.tally
  repeat' (first
    | with_reducible assumption
    | with_reducible apply KeepsX.some
    | with_reducible exact KeepsX.none
    | with_reducible refine KeepsX.ite ?_ ?_
    | with_reducible apply keeps_State_decide
    | with_reducible refine Keeps.ite ?_ ?_
    | split)

theorem keeps_State_castVote {s0 : State} {s : State} {p vote verdict : Nat}
    (h0 : Keeps s0 s) : Keeps s0 (State.castVote s p vote verdict) := by
  unfold State.castVote
  repeat' (first
    | with_reducible assumption
    | with_reducible apply keeps_State_mapColl
    | with_reducible apply keeps_State_sendVote
    | with_reducible apply keeps_State_tally
    | with_reducible refine Keeps.ite ?_ ?_)

theorem keeps_State_voteCheck {s0 : State} {s : State} {p : Nat}
    (h0 : Keeps s0 s) : Keeps s0 (State.voteCheck s p) := by
  unfold State.voteCheck
  repeat' (first
    | with_reducible assumption
    | with_reducible apply KeepsX.some
    | with_reducible exact KeepsX.none
    | with_reducible refine KeepsX.ite ?_ ?_
    | with_reducible apply keeps_State_castVote
    | with_reducible refine Keeps.ite ?_ ?_
    | split
    | with_reducible intro _
    | dsimp only)

theorem keeps_State_peerLost {s0 : State} {s : State} {n : Nat}
    (h0 : Keeps s0 s) : Keeps s0 (State.peerLost s n) := by
  unfold State.peerLost
  repeat' (first
    | with_reducible assumption
    | with_reducible apply keeps_State_mapColl
    | with_reducible apply keeps_State_voteCheck
    | with_reducible refine Keeps.ite ?_ ?_)

theorem keeps_State_failMsgs {s0 : State} {s : State} {ms : List JMsg} {status : Nat}
    (h0 : Keeps s0 s) : Keeps s0 (State.failMsgs s ms status) := by
  unfold State.failMsgs
  repeat' (first
    | with_reducible assumption
    | with_reducible apply Keeps.foldl
    | with_reducible apply Keeps.foldlQ
    | with_reducible apply Keeps.foldlP
    | with_reducible apply keeps_State_failOwner
    | with_reducible refine Keeps.ite ?_ ?_
    | split
    | with_reducible intro _)

theorem keeps_State_pfcOff {s0 : State} {s : State} {p : Nat}
    (h0 : Keeps s0 s) : Keeps s0 (State.pfcOff s p) := by
  unfold State.pfcOff
  repeat' (first
    | with_reducible assumption
    | with_reducible apply keeps_State_decide
    | with_reducible apply keeps_State_mapPort
    | with_reducible apply keeps_State_onLink
    | with_reducible refine Keeps.ite ?_ ?_)

theorem keeps_State_pfcOn {s0 : State} {s : State} {p : Nat}
    (h0 : Keeps s0 s) : Keeps s0 (State.pfcOn s p) := by
  unfold State.pfcOn
  repeat' (first
    | with_reducible assumption
    | with_reducible apply keeps_State_decide
    | with_reducible apply keeps_State_mapPort
    | with_reducible apply keeps_State_onLink
    | with_reducible refine Keeps.ite ?_ ?_)

theorem keeps_State_closePeer {s0 : State} {s : State} {n status : Nat} {st : PeerSt}
    (h0 : Keeps s0 s) : Keeps s0 (State.closePeer s n status st) := by
  unfold State.closePeer
  repeat' (first
    | with_reducible assumption
    | with_reducible apply Keeps.foldl
    | with_reducible apply Keeps.foldlQ
    | with_reducible apply Keeps.foldlP
    | with_reducible apply keeps_State_failMsgs
    | with_reducible apply keeps_State_mapPeer
    | with_reducible apply keeps_State_pfcOn)

theorem keeps_State_removePeer {s0 : State} {s : State} {n : Nat}
    (h0 : Keeps s0 s) : Keeps s0 (State.removePeer s n) := by
  unfold State.removePeer
  repeat' (first
    | with_reducible assumption
    | with_reducible apply keeps_State_closePeer
    | with_reducible apply keeps_State_mapFab)

theorem keeps_State_hsEnd {s0 : State} {s : State} {n : Nat}
    (h0 : Keeps s0 s) : Keeps s0 (State.hsEnd s n) := by
  unfold State.hsEnd
  repeat' (first
    | with_reducible assumption
    | with_reducible apply keeps_State_failMsgs
    | with_reducible apply keeps_State_failed
    | with_reducible apply keeps_State_mapPeer
    | with_reducible apply keeps_State_peerLost
    | with_reducible refine Keeps.ite ?_ ?_)

theorem keeps_State_hsFail {s0 : State} {s : State} {n reason : Nat}
    (h0 : Keeps s0 s) : Keeps s0 (State.hsFail s n reason) := by
  unfold State.hsFail
  repeat' (first
    | with_reducible assumption
    | with_reducible apply keeps_State_hsEnd
    | with_reducible apply keeps_State_mapJcnt
    | with_reducible apply keeps_State_notice
    | with_reducible apply keeps_State_sendHs)

theorem keeps_State_hsStart {s0 : State} {s : State} {n : Nat}
    (h0 : Keeps s0 s) : Keeps s0 (State.hsStart s n) := by
  unfold State.hsStart
  repeat' (first
    | with_reducible assumption
    | with_reducible apply KeepsX.some
    | with_reducible exact KeepsX.none
    | with_reducible refine KeepsX.ite ?_ ?_
    | with_reducible apply keeps_State_mapPeer
    | with_reducible apply keeps_State_pay
    | with_reducible refine KeepsP.snd (keeps_State_random ?_)
    | with_reducible refine KeepsP.out (keeps_State_random ?_) (by assumption)
    | with_reducible apply keeps_State_random
    | with_reducible apply keeps_State_sendHs
    | with_reducible refine Keeps.ite ?_ ?_)

theorem keeps_State_hsRespond {s0 : State} {s : State} {n : Nat} {initPay : List Byte}
    (h0 : Keeps s0 s) : Keeps s0 (State.hsRespond s n initPay) := by
  unfold State.hsRespond
  repeat' (first
    | with_reducible assumption
    | with_reducible apply KeepsX.some
    | with_reducible exact KeepsX.none
    | with_reducible refine KeepsX.ite ?_ ?_
    | with_reducible apply keeps_State_mapFab
    | with_reducible apply keeps_State_mapPeer
    | with_reducible refine KeepsP.snd (keeps_State_random ?_)
    | with_reducible refine KeepsP.out (keeps_State_random ?_) (by assumption)
    | with_reducible apply keeps_State_random
    | with_reducible apply keeps_State_sendHs)

theorem keeps_State_hsOpen {s0 : State} {s : State} {n : Nat}
    (h0 : Keeps s0 s) : Keeps s0 (State.hsOpen s n) := by
  unfold State.hsOpen
  repeat' (first
    | with_reducible assumption
    | with_reducible apply KeepsX.some
    | with_reducible exact KeepsX.none
    | with_reducible refine KeepsX.ite ?_ ?_
    | with_reducible apply keeps_State_failMsgs
    | with_reducible apply keeps_State_mapJcnt
    | with_reducible apply keeps_State_mapPeer
    | with_reducible refine Keeps.ite ?_ ?_
    | split
    | with_reducible intro _
    | dsimp only)

theorem keeps_execHandshakeStart {s0 : State} {n : Nat} {s : State}
    (h0 : Keeps s0 s) : KeepsO s0 (execHandshakeStart n s) := by
  unfold execHandshakeStart
  repeat' (first
    | with_reducible assumption
    | with_reducible apply KeepsO.next
    | with_reducible exact KeepsO.fault
    | with_reducible apply KeepsE.ok
    | with_reducible exact KeepsE.error
    | with_reducible apply KeepsX.some
    | with_reducible exact KeepsX.none
    | with_reducible refine KeepsO.ite ?_ ?_
    | with_reducible apply keeps_State_hsStart
    | with_reducible refine Keeps.ite ?_ ?_)

theorem keeps_execRekey {s0 : State} {n : Nat} {s : State}
    (h0 : Keeps s0 s) : KeepsO s0 (execRekey n s) := by
  unfold execRekey
  repeat' (first
    | with_reducible assumption
    | with_reducible apply KeepsO.next
    | with_reducible exact KeepsO.fault
    | with_reducible apply KeepsE.ok
    | with_reducible exact KeepsE.error
    | with_reducible apply KeepsX.some
    | with_reducible exact KeepsX.none
    | with_reducible refine KeepsO.ite ?_ ?_
    | with_reducible apply keeps_State_hsStart
    | with_reducible refine Keeps.ite ?_ ?_)

theorem keeps_execHsInitRetry {s0 : State} {n : Nat} {s : State}
    (h0 : Keeps s0 s) : KeepsO s0 (execHsInitRetry n s) := by
  unfold execHsInitRetry
  repeat' (first
    | with_reducible assumption
    | with_reducible apply KeepsX.some
    | with_reducible exact KeepsX.none
    | with_reducible apply KeepsO.next
    | with_reducible exact KeepsO.fault
    | with_reducible apply KeepsE.ok
    | with_reducible exact KeepsE.error
    | with_reducible apply KeepsX.some
    | with_reducible exact KeepsX.none
    | with_reducible refine KeepsX.ite ?_ ?_
    | with_reducible refine KeepsO.ite ?_ ?_
    | with_reducible apply keeps_State_hsEnd
    | with_reducible apply keeps_State_mapPeer
    | with_reducible apply keeps_State_sendHs
    | with_reducible refine Keeps.ite ?_ ?_
    | split)

theorem keeps_execHandshakeCrossRetry {s0 : State} {n : Nat} {s : State}
    (h0 : Keeps s0 s) : KeepsO s0 (execHandshakeCrossRetry n s) := by
  unfold execHandshakeCrossRetry
  repeat' (first
    | with_reducible assumption
    | with_reducible apply KeepsX.some
    | with_reducible exact KeepsX.none
    | with_reducible apply KeepsO.next
    | with_reducible exact KeepsO.fault
    | with_reducible apply KeepsE.ok
    | with_reducible exact KeepsE.error
    | with_reducible apply KeepsX.some
    | with_reducible exact KeepsX.none
    | with_reducible refine KeepsX.ite ?_ ?_
    | with_reducible refine KeepsO.ite ?_ ?_
    | with_reducible apply keeps_State_hsStart
    | with_reducible refine Keeps.ite ?_ ?_
    | split)

theorem keeps_State_acceptPkt {s0 : State} {s : State} {n port : Nat} {ce : Bool} {size : Nat} {k : JPkt}
    (h0 : Keeps s0 s) : Keeps s0 (State.acceptPkt s n port ce size k) := by
  unfold State.acceptPkt
  repeat' (first
    | with_reducible assumption
    | with_reducible apply keeps_State_mapPeer
    | with_reducible apply keeps_State_pfcOff)

theorem keeps_State_stage6 {s0 : State} {s : State} {n port : Nat} {ce : Bool} {size : Nat} {hdr body : List Byte} {k : JPkt}
    (h0 : Keeps s0 s) : Keeps s0 (State.stage6 s n port ce size hdr body k) := by
  unfold State.stage6
  repeat' (first
    | with_reducible assumption
    | with_reducible apply KeepsX.some
    | with_reducible exact KeepsX.none
    | with_reducible refine KeepsX.ite ?_ ?_
    | with_reducible apply keeps_State_acceptPkt
    | with_reducible apply keeps_State_hsFail
    | with_reducible apply keeps_State_mapJcnt
    | with_reducible apply keeps_State_mapPeer
    | with_reducible refine Keeps.ite ?_ ?_
    | split
    | with_reducible intro _
    | dsimp only)

theorem keeps_State_noAddr {s0 : State} {s : State}
    (h0 : Keeps s0 s) : Keeps s0 (State.noAddr s) := by
  unfold State.noAddr
  repeat' (first
    | with_reducible assumption
    | with_reducible apply keeps_State_mapJcnt)

theorem keeps_State_badVer {s0 : State} {s : State}
    (h0 : Keeps s0 s) : Keeps s0 (State.badVer s) := by
  unfold State.badVer
  repeat' (first
    | with_reducible assumption
    | with_reducible apply keeps_State_mapJcnt)

theorem keeps_execFrameReceive {s0 : State} {f : Frame} {s : State}
    (h0 : Keeps s0 s) : KeepsO s0 (execFrameReceive f s) := by
  unfold execFrameReceive
  repeat' (first
    | with_reducible assumption
    | with_reducible apply KeepsX.some
    | with_reducible exact KeepsX.none
    | with_reducible apply KeepsO.next
    | with_reducible exact KeepsO.fault
    | with_reducible apply KeepsE.ok
    | with_reducible exact KeepsE.error
    | with_reducible apply KeepsX.some
    | with_reducible exact KeepsX.none
    | with_reducible refine KeepsX.ite ?_ ?_
    | with_reducible refine KeepsO.ite ?_ ?_
    | with_reducible apply keeps_State_acceptPkt
    | with_reducible apply keeps_State_badVer
    | with_reducible apply keeps_State_mapJcnt
    | with_reducible apply keeps_State_mapPort
    | with_reducible apply keeps_State_noAddr
    | with_reducible apply keeps_State_stage6
    | with_reducible refine Keeps.ite ?_ ?_
    | split
    | with_reducible intro _
    | dsimp only)

theorem keeps_State_takeRx {s0 s t : State} {n typ : Nat} {r : RxPkt} (h0 : Keeps s0 s) (e : State.takeRx s n typ = some (r, t)) : Keeps s0 t := by
  unfold State.takeRx at e
  dsimp only at e
  split at e
  · cases e
  · cases e
    exact keeps_State_pfcOn (keeps_State_mapPeer h0)

theorem keeps_State_takeHs {s0 : State} {s : State} {n typ : Nat}
    (h0 : Keeps s0 s) : KeepsQ s0 (State.takeHs s n typ) := by
  unfold State.takeHs
  repeat' (first
    | with_reducible assumption
    | with_reducible apply KeepsX.some
    | with_reducible exact KeepsX.none
    | with_reducible refine KeepsQ.ite ?_ ?_
    | with_reducible refine KeepsX.ite ?_ ?_
    | with_reducible refine Keeps.getD ?_ ?_
    | with_reducible apply KeepsQ.mk
    | with_reducible apply keeps_State_mapPeer
    | with_reducible refine keeps_State_takeRx ?_ (by assumption)
    | with_reducible refine Keeps.ite ?_ ?_
    | split
    | with_reducible intro _
    | dsimp only)

theorem keeps_State_hsAnswer {s0 : State} {s : State} {n : Nat} {pay : List Byte}
    (h0 : Keeps s0 s) : Keeps s0 (State.hsAnswer s n pay) := by
  unfold State.hsAnswer
  repeat' (first
    | with_reducible assumption
    | with_reducible apply KeepsX.some
    | with_reducible exact KeepsX.none
    | with_reducible refine KeepsX.ite ?_ ?_
    | with_reducible apply keeps_State_hsFail
    | with_reducible apply keeps_State_hsRespond
    | with_reducible apply keeps_State_mapPeer
    | with_reducible apply keeps_State_pay
    | with_reducible refine Keeps.ite ?_ ?_
    | split)

theorem keeps_State_hsConfirm {s0 : State} {s : State} {n : Nat} {h : Hs} {resp : List Byte}
    (h0 : Keeps s0 s) : Keeps s0 (State.hsConfirm s n h resp) := by
  unfold State.hsConfirm
  repeat' (first
    | with_reducible assumption
    | with_reducible apply KeepsX.some
    | with_reducible exact KeepsX.none
    | with_reducible refine KeepsX.ite ?_ ?_
    | with_reducible apply keeps_State_hsFail
    | with_reducible apply keeps_State_mapFab
    | with_reducible apply keeps_State_mapPeer
    | with_reducible apply keeps_State_sendHs
    | with_reducible refine Keeps.ite ?_ ?_
    | split
    | with_reducible intro _
    | dsimp only)

theorem keeps_State_hsFinish {s0 : State} {s : State} {n : Nat} {h : Hs} {fin : List Byte}
    (h0 : Keeps s0 s) : Keeps s0 (State.hsFinish s n h fin) := by
  unfold State.hsFinish
  repeat' (first
    | with_reducible assumption
    | with_reducible apply KeepsX.some
    | with_reducible exact KeepsX.none
    | with_reducible refine KeepsX.ite ?_ ?_
    | with_reducible apply keeps_State_fin
    | with_reducible apply keeps_State_hsFail
    | with_reducible apply keeps_State_hsOpen
    | with_reducible apply keeps_State_mapPeer
    | with_reducible apply keeps_State_sendAck
    | with_reducible refine Keeps.ite ?_ ?_
    | split
    | with_reducible intro _
    | dsimp only)

theorem keeps_execHsInit {s0 : State} {n : Nat} {s : State}
    (h0 : Keeps s0 s) : KeepsO s0 (execHsInit n s) := by
  unfold execHsInit
  repeat' (first
    | with_reducible assumption
    | with_reducible apply KeepsX.some
    | with_reducible exact KeepsX.none
    | with_reducible apply KeepsO.next
    | with_reducible exact KeepsO.fault
    | with_reducible apply KeepsE.ok
    | with_reducible exact KeepsE.error
    | with_reducible apply KeepsX.some
    | with_reducible exact KeepsX.none
    | with_reducible refine KeepsX.ite ?_ ?_
    | with_reducible refine KeepsO.ite ?_ ?_
    | with_reducible apply keeps_State_failed
    | with_reducible apply keeps_State_hsAnswer
    | with_reducible apply keeps_State_mapPeer
    | with_reducible apply keeps_State_pay
    | with_reducible apply keeps_State_sendHs
    | with_reducible refine KeepsQ.fst (keeps_State_takeHs ?_)
    | with_reducible refine KeepsQ.out (keeps_State_takeHs ?_) (by assumption)
    | with_reducible apply keeps_State_takeHs
    | with_reducible refine Keeps.ite ?_ ?_
    | split)

theorem keeps_execHsResp {s0 : State} {n : Nat} {s : State}
    (h0 : Keeps s0 s) : KeepsO s0 (execHsResp n s) := by
  unfold execHsResp
  repeat' (first
    | with_reducible assumption
    | with_reducible apply KeepsX.some
    | with_reducible exact KeepsX.none
    | with_reducible apply KeepsO.next
    | with_reducible exact KeepsO.fault
    | with_reducible apply KeepsE.ok
    | with_reducible exact KeepsE.error
    | with_reducible apply KeepsX.some
    | with_reducible exact KeepsX.none
    | with_reducible refine KeepsX.ite ?_ ?_
    | with_reducible refine KeepsO.ite ?_ ?_
    | with_reducible apply keeps_State_hsConfirm
    | with_reducible apply keeps_State_sendHs
    | with_reducible refine KeepsQ.fst (keeps_State_takeHs ?_)
    | with_reducible refine KeepsQ.out (keeps_State_takeHs ?_) (by assumption)
    | with_reducible apply keeps_State_takeHs
    | with_reducible refine Keeps.ite ?_ ?_
    | split)

theorem keeps_execHsFin {s0 : State} {n : Nat} {s : State}
    (h0 : Keeps s0 s) : KeepsO s0 (execHsFin n s) := by
  unfold execHsFin
  repeat' (first
    | with_reducible assumption
    | with_reducible apply KeepsX.some
    | with_reducible exact KeepsX.none
    | with_reducible apply KeepsO.next
    | with_reducible exact KeepsO.fault
    | with_reducible apply KeepsE.ok
    | with_reducible exact KeepsE.error
    | with_reducible apply KeepsX.some
    | with_reducible exact KeepsX.none
    | with_reducible refine KeepsX.ite ?_ ?_
    | with_reducible refine KeepsO.ite ?_ ?_
    | with_reducible apply keeps_State_fin
    | with_reducible apply keeps_State_hsFinish
    | with_reducible refine KeepsQ.fst (keeps_State_takeHs ?_)
    | with_reducible refine KeepsQ.out (keeps_State_takeHs ?_) (by assumption)
    | with_reducible apply keeps_State_takeHs
    | with_reducible refine Keeps.ite ?_ ?_
    | split)

theorem keeps_execHsReject {s0 : State} {n : Nat} {s : State}
    (h0 : Keeps s0 s) : KeepsO s0 (execHsReject n s) := by
  unfold execHsReject
  repeat' (first
    | with_reducible assumption
    | with_reducible apply KeepsX.some
    | with_reducible exact KeepsX.none
    | with_reducible apply KeepsO.next
    | with_reducible exact KeepsO.fault
    | with_reducible apply KeepsE.ok
    | with_reducible exact KeepsE.error
    | with_reducible apply KeepsX.some
    | with_reducible exact KeepsX.none
    | with_reducible refine KeepsX.ite ?_ ?_
    | with_reducible refine KeepsO.ite ?_ ?_
    | with_reducible apply keeps_State_hsEnd
    | with_reducible apply keeps_State_mapJcnt
    | with_reducible apply keeps_State_notice
    | with_reducible refine KeepsQ.fst (keeps_State_takeHs ?_)
    | with_reducible refine KeepsQ.out (keeps_State_takeHs ?_) (by assumption)
    | with_reducible apply keeps_State_takeHs
    | with_reducible refine Keeps.ite ?_ ?_
    | split)

theorem keeps_State_place {s0 : State} {s : State} {n sid : Nat} {r : RxPkt}
    (h0 : Keeps s0 s) : Keeps s0 (State.place s n sid r) := by
  unfold State.place
  repeat' (first
    | with_reducible assumption
    | with_reducible apply KeepsX.some
    | with_reducible exact KeepsX.none
    | with_reducible refine KeepsX.ite ?_ ?_
    | with_reducible refine Keeps.getD ?_ ?_
    | with_reducible apply keeps_State_mapColl
    | with_reducible apply keeps_State_mapPeer
    | with_reducible refine Keeps.ite ?_ ?_
    | split
    | with_reducible intro _
    | dsimp only)

theorem keeps_State_dataIn {s0 : State} {s : State} {n : Nat} {r : RxPkt} {y : Session}
    (h0 : Keeps s0 s) : Keeps s0 (State.dataIn s n r y) := by
  unfold State.dataIn
  repeat' (first
    | with_reducible assumption
    | with_reducible apply KeepsX.some
    | with_reducible exact KeepsX.none
    | with_reducible refine KeepsX.ite ?_ ?_
    | with_reducible apply keeps_State_mapPeer
    | with_reducible apply keeps_State_place
    | with_reducible apply keeps_State_sendAck
    | with_reducible apply keeps_State_sendCnp
    | with_reducible refine Keeps.ite ?_ ?_)

theorem keeps_execData {s0 : State} {n : Nat} {s : State}
    (h0 : Keeps s0 s) : KeepsO s0 (execData n s) := by
  unfold execData
  repeat' (first
    | with_reducible assumption
    | with_reducible apply KeepsX.some
    | with_reducible exact KeepsX.none
    | with_reducible apply KeepsO.next
    | with_reducible exact KeepsO.fault
    | with_reducible apply KeepsE.ok
    | with_reducible exact KeepsE.error
    | with_reducible apply KeepsX.some
    | with_reducible exact KeepsX.none
    | with_reducible refine KeepsX.ite ?_ ?_
    | with_reducible refine KeepsO.ite ?_ ?_
    | with_reducible apply keeps_State_dataIn
    | with_reducible apply keeps_State_mapJcnt
    | with_reducible apply keeps_State_takeAck
    | with_reducible refine keeps_State_takeRx ?_ (by assumption)
    | with_reducible refine Keeps.ite ?_ ?_
    | split
    | with_reducible intro _
    | dsimp only)

theorem keeps_execAck {s0 : State} {n : Nat} {s : State}
    (h0 : Keeps s0 s) : KeepsO s0 (execAck n s) := by
  unfold execAck
  repeat' (first
    | with_reducible assumption
    | with_reducible apply KeepsX.some
    | with_reducible exact KeepsX.none
    | with_reducible apply KeepsO.next
    | with_reducible exact KeepsO.fault
    | with_reducible apply KeepsE.ok
    | with_reducible exact KeepsE.error
    | with_reducible apply KeepsX.some
    | with_reducible exact KeepsX.none
    | with_reducible refine KeepsX.ite ?_ ?_
    | with_reducible refine KeepsO.ite ?_ ?_
    | with_reducible refine Keeps.getD ?_ ?_
    | with_reducible apply keeps_State_hsOpen
    | with_reducible apply keeps_State_mapPeer
    | with_reducible apply keeps_State_takeAck
    | with_reducible refine keeps_State_takeRx ?_ (by assumption)
    | with_reducible refine Keeps.ite ?_ ?_
    | split)

theorem keeps_execCnp {s0 : State} {n : Nat} {s : State}
    (h0 : Keeps s0 s) : KeepsO s0 (execCnp n s) := by
  unfold execCnp
  repeat' (first
    | with_reducible assumption
    | with_reducible apply KeepsX.some
    | with_reducible exact KeepsX.none
    | with_reducible apply KeepsO.next
    | with_reducible exact KeepsO.fault
    | with_reducible apply KeepsE.ok
    | with_reducible exact KeepsE.error
    | with_reducible apply KeepsX.some
    | with_reducible exact KeepsX.none
    | with_reducible refine KeepsX.ite ?_ ?_
    | with_reducible refine KeepsO.ite ?_ ?_
    | with_reducible apply keeps_State_mapPeer
    | with_reducible apply keeps_State_takeAck
    | with_reducible refine keeps_State_takeRx ?_ (by assumption)
    | with_reducible refine Keeps.ite ?_ ?_
    | split)

theorem keeps_execPeerDeath {s0 : State} {n : Nat} {s : State}
    (h0 : Keeps s0 s) : KeepsO s0 (execPeerDeath n s) := by
  unfold execPeerDeath
  repeat' (first
    | with_reducible assumption
    | with_reducible apply KeepsO.next
    | with_reducible exact KeepsO.fault
    | with_reducible apply KeepsE.ok
    | with_reducible exact KeepsE.error
    | with_reducible apply KeepsX.some
    | with_reducible exact KeepsX.none
    | with_reducible refine KeepsO.ite ?_ ?_
    | with_reducible apply keeps_State_closePeer
    | with_reducible apply keeps_State_peerLost)

theorem keeps_execPeerFailedExpiry {s0 : State} {n : Nat} {s : State}
    (h0 : Keeps s0 s) : KeepsO s0 (execPeerFailedExpiry n s) := by
  unfold execPeerFailedExpiry
  repeat' (first
    | with_reducible assumption
    | with_reducible apply KeepsO.next
    | with_reducible exact KeepsO.fault
    | with_reducible apply KeepsE.ok
    | with_reducible exact KeepsE.error
    | with_reducible apply KeepsX.some
    | with_reducible exact KeepsX.none
    | with_reducible refine KeepsO.ite ?_ ?_
    | with_reducible apply keeps_State_failed
    | with_reducible apply keeps_State_mapPeer
    | with_reducible refine Keeps.ite ?_ ?_)

theorem keeps_execPeerDownExpiry {s0 : State} {n : Nat} {s : State}
    (h0 : Keeps s0 s) : KeepsO s0 (execPeerDownExpiry n s) := by
  unfold execPeerDownExpiry
  repeat' (first
    | with_reducible assumption
    | with_reducible apply KeepsO.next
    | with_reducible exact KeepsO.fault
    | with_reducible apply KeepsE.ok
    | with_reducible exact KeepsE.error
    | with_reducible apply KeepsX.some
    | with_reducible exact KeepsX.none
    | with_reducible refine KeepsO.ite ?_ ?_
    | with_reducible apply keeps_State_mapPeer
    | with_reducible refine Keeps.ite ?_ ?_)

theorem keeps_State_handMsgs {s0 : State} {s : State} {h : Head} {ms : List (Nat × JMsg)}
    (h0 : Keeps s0 s) : Keeps s0 (State.handMsgs s h ms) := by
  unfold State.handMsgs
  repeat' (first
    | with_reducible assumption
    | with_reducible apply KeepsX.some
    | with_reducible exact KeepsX.none
    | with_reducible refine KeepsX.ite ?_ ?_
    | with_reducible apply Keeps.foldl
    | with_reducible apply Keeps.foldlQ
    | with_reducible apply Keeps.foldlP
    | with_reducible apply keeps_State_faultCtx
    | with_reducible apply keeps_State_queueMsg
    | with_reducible refine Keeps.ite ?_ ?_
    | split
    | with_reducible intro _)

theorem keeps_workContrib {s0 : State} {core n : Nat} {s : State}
    (h0 : Keeps s0 s) : KeepsO s0 (workContrib core n s) := by
  unfold workContrib
  repeat' (first
    | with_reducible assumption
    | with_reducible apply KeepsX.some
    | with_reducible exact KeepsX.none
    | with_reducible apply KeepsO.next
    | with_reducible exact KeepsO.fault
    | with_reducible apply KeepsE.ok
    | with_reducible exact KeepsE.error
    | with_reducible apply KeepsX.some
    | with_reducible exact KeepsX.none
    | with_reducible refine KeepsX.ite ?_ ?_
    | with_reducible refine KeepsO.ite ?_ ?_
    | with_reducible apply keeps_State_done
    | with_reducible apply keeps_State_failed
    | with_reducible apply keeps_State_handMsgs
    | with_reducible refine KeepsP.snd (keeps_State_leave ?_)
    | with_reducible refine KeepsP.out (keeps_State_leave ?_) (by assumption)
    | with_reducible apply keeps_State_leave
    | with_reducible apply keeps_State_mapColl
    | with_reducible apply keeps_State_pay
    | with_reducible apply keeps_State_settle
    | with_reducible apply keeps_work
    | with_reducible apply Keeps.ofId
    | with_reducible refine Keeps.ite ?_ ?_
    | split
    | with_reducible intro _)

theorem keeps_State_fabFault {s0 : State} {s : State} {h : Head} {x : Nat × TransFail} {wr : Bool}
    (h0 : Keeps s0 s) : Keeps s0 (State.fabFault s h x wr) := by
  unfold State.fabFault
  repeat' (first
    | with_reducible assumption
    | with_reducible apply keeps_State_faultCtx
    | with_reducible apply keeps_State_hold
    | with_reducible apply keeps_State_transFault
    | with_reducible apply keeps_State_wr
    | with_reducible refine Keeps.ite ?_ ?_)

theorem keeps_workParamBcast {s0 : State} {core n : Nat} {s : State}
    (h0 : Keeps s0 s) : KeepsO s0 (workParamBcast core n s) := by
  unfold workParamBcast
  repeat' (first
    | with_reducible assumption
    | with_reducible apply KeepsX.some
    | with_reducible exact KeepsX.none
    | with_reducible apply KeepsO.next
    | with_reducible exact KeepsO.fault
    | with_reducible apply KeepsE.ok
    | with_reducible exact KeepsE.error
    | with_reducible apply KeepsX.some
    | with_reducible exact KeepsX.none
    | with_reducible refine KeepsX.ite ?_ ?_
    | with_reducible refine KeepsO.ite ?_ ?_
    | with_reducible apply keeps_State_done
    | with_reducible apply keeps_State_fabFault
    | with_reducible apply keeps_State_failed
    | with_reducible apply keeps_State_handMsgs
    | with_reducible refine KeepsP.snd (keeps_State_leave ?_)
    | with_reducible refine KeepsP.out (keeps_State_leave ?_) (by assumption)
    | with_reducible apply keeps_State_leave
    | with_reducible apply keeps_State_mapColl
    | with_reducible apply keeps_State_pay
    | with_reducible apply keeps_State_regionTake
    | with_reducible apply keeps_State_settle
    | with_reducible apply keeps_work
    | with_reducible apply Keeps.ofId
    | with_reducible refine Keeps.ite ?_ ?_
    | split
    | with_reducible intro _)

theorem keeps_State_ownerRun {s0 : State} {s : State} {h : Head} {e : RegEnt}
    (h0 : Keeps s0 s) : Keeps s0 (State.ownerRun s h e) := by
  unfold State.ownerRun
  repeat' (first
    | with_reducible assumption
    | with_reducible apply KeepsX.some
    | with_reducible exact KeepsX.none
    | with_reducible refine KeepsX.ite ?_ ?_
    | with_reducible apply Keeps.foldl
    | with_reducible apply Keeps.foldlQ
    | with_reducible apply Keeps.foldlP
    | with_reducible apply keeps_State_enginePages
    | with_reducible apply keeps_State_fabFault
    | with_reducible refine KeepsP.snd (keeps_State_leave ?_)
    | with_reducible refine KeepsP.out (keeps_State_leave ?_) (by assumption)
    | with_reducible apply keeps_State_leave
    | with_reducible apply keeps_State_mapColl
    | with_reducible apply keeps_State_pay
    | with_reducible apply keeps_State_regionTake
    | with_reducible apply keeps_State_settle
    | with_reducible apply keeps_State_vStep
    | with_reducible apply keeps_State_vtake
    | with_reducible apply Keeps.ofId
    | with_reducible refine Keeps.ite ?_ ?_
    | split
    | with_reducible intro _
    | dsimp only)

theorem keeps_State_ownerWait {s0 : State} {s : State} {h : Head}
    (h0 : Keeps s0 s) : Keeps s0 (State.ownerWait s h) := by
  unfold State.ownerWait
  repeat' (first
    | with_reducible assumption
    | with_reducible apply keeps_State_hold
    | with_reducible apply keeps_State_mapColl
    | with_reducible refine Keeps.ite ?_ ?_)

theorem keeps_State_sumPosts {s0 : State} {s : State} {h : Head} {c : Coll}
    (h0 : Keeps s0 s) : Keeps s0 (State.sumPosts s h c) := by
  unfold State.sumPosts
  repeat' (first
    | with_reducible assumption
    | with_reducible apply keeps_State_mapCore)

theorem keeps_workOwnerSum {s0 : State} {core n : Nat} {s : State}
    (h0 : Keeps s0 s) : KeepsO s0 (workOwnerSum core n s) := by
  unfold workOwnerSum
  repeat' (first
    | with_reducible assumption
    | with_reducible apply KeepsX.some
    | with_reducible exact KeepsX.none
    | with_reducible apply KeepsO.next
    | with_reducible exact KeepsO.fault
    | with_reducible apply KeepsE.ok
    | with_reducible exact KeepsE.error
    | with_reducible apply KeepsX.some
    | with_reducible exact KeepsX.none
    | with_reducible refine KeepsX.ite ?_ ?_
    | with_reducible refine KeepsO.ite ?_ ?_
    | with_reducible apply keeps_State_done
    | with_reducible apply keeps_State_fabFault
    | with_reducible apply keeps_State_failed
    | with_reducible apply keeps_State_ownerRun
    | with_reducible apply keeps_State_ownerWait
    | with_reducible apply keeps_State_pay
    | with_reducible apply keeps_State_sumPosts
    | with_reducible apply keeps_work
    | with_reducible refine Keeps.ite ?_ ?_
    | split
    | with_reducible intro _)

theorem keeps_execOwnerSumVotetExpiry {s0 : State} {core : Nat} {s : State}
    (h0 : Keeps s0 s) : KeepsO s0 (execOwnerSumVotetExpiry core s) := by
  unfold execOwnerSumVotetExpiry
  repeat' (first
    | with_reducible assumption
    | with_reducible apply KeepsX.some
    | with_reducible exact KeepsX.none
    | with_reducible apply KeepsO.next
    | with_reducible exact KeepsO.fault
    | with_reducible apply KeepsE.ok
    | with_reducible exact KeepsE.error
    | with_reducible apply KeepsX.some
    | with_reducible exact KeepsX.none
    | with_reducible refine KeepsX.ite ?_ ?_
    | with_reducible refine KeepsO.ite ?_ ?_
    | with_reducible apply keeps_State_decide
    | with_reducible apply keeps_State_endSum
    | with_reducible apply keeps_State_mapColl
    | with_reducible apply keeps_State_voteCheck
    | with_reducible refine Keeps.ite ?_ ?_
    | split
    | with_reducible intro _
    | dsimp only)

theorem keeps_workStepVote {s0 : State} {core n : Nat} {s : State}
    (h0 : Keeps s0 s) : KeepsO s0 (workStepVote core n s) := by
  unfold workStepVote
  repeat' (first
    | with_reducible assumption
    | with_reducible apply KeepsX.some
    | with_reducible exact KeepsX.none
    | with_reducible apply KeepsO.next
    | with_reducible exact KeepsO.fault
    | with_reducible apply KeepsE.ok
    | with_reducible exact KeepsE.error
    | with_reducible apply KeepsX.some
    | with_reducible exact KeepsX.none
    | with_reducible refine KeepsX.ite ?_ ?_
    | with_reducible refine KeepsO.ite ?_ ?_
    | with_reducible apply keeps_State_completeVote
    | with_reducible apply keeps_State_failed
    | with_reducible refine KeepsP.snd (keeps_State_leave ?_)
    | with_reducible refine KeepsP.out (keeps_State_leave ?_) (by assumption)
    | with_reducible apply keeps_State_leave
    | with_reducible apply keeps_State_mapColl
    | with_reducible apply keeps_State_pay
    | with_reducible apply keeps_State_settle
    | with_reducible apply keeps_State_voteCheck
    | with_reducible apply keeps_work
    | with_reducible apply Keeps.ofId
    | with_reducible refine Keeps.ite ?_ ?_
    | split
    | with_reducible intro _)

theorem keeps_State_shardsTake {s0 : State} {s : State} {p : Nat}
    (h0 : Keeps s0 s) : Keeps s0 (State.shardsTake s p) := by
  unfold State.shardsTake
  repeat' (first
    | with_reducible assumption
    | with_reducible apply Keeps.foldl
    | with_reducible apply Keeps.foldlQ
    | with_reducible apply Keeps.foldlP
    | with_reducible apply keeps_State_regionTake
    | with_reducible refine Keeps.ite ?_ ?_
    | split
    | with_reducible intro _)

theorem keeps_execVoteReady {s0 : State} {p : Nat} {s : State}
    (h0 : Keeps s0 s) : KeepsO s0 (execVoteReady p s) := by
  unfold execVoteReady
  repeat' (first
    | with_reducible assumption
    | with_reducible apply KeepsO.next
    | with_reducible exact KeepsO.fault
    | with_reducible apply KeepsE.ok
    | with_reducible exact KeepsE.error
    | with_reducible apply KeepsX.some
    | with_reducible exact KeepsX.none
    | with_reducible refine KeepsO.ite ?_ ?_
    | with_reducible apply keeps_State_castVote
    | with_reducible apply keeps_State_shardsTake
    | with_reducible refine Keeps.ite ?_ ?_)

theorem keeps_workRingPass {s0 : State} {core n : Nat} {s : State}
    (h0 : Keeps s0 s) : KeepsO s0 (workRingPass core n s) := by
  unfold workRingPass
  repeat' (first
    | with_reducible assumption
    | with_reducible apply KeepsX.some
    | with_reducible exact KeepsX.none
    | with_reducible apply KeepsO.next
    | with_reducible exact KeepsO.fault
    | with_reducible apply KeepsE.ok
    | with_reducible exact KeepsE.error
    | with_reducible apply KeepsX.some
    | with_reducible exact KeepsX.none
    | with_reducible refine KeepsX.ite ?_ ?_
    | with_reducible refine KeepsO.ite ?_ ?_
    | with_reducible apply keeps_State_failed
    | with_reducible apply keeps_State_handMsgs
    | with_reducible apply keeps_State_hold
    | with_reducible refine KeepsP.snd (keeps_State_leave ?_)
    | with_reducible refine KeepsP.out (keeps_State_leave ?_) (by assumption)
    | with_reducible apply keeps_State_leave
    | with_reducible apply keeps_State_mapColl
    | with_reducible apply keeps_State_pay
    | with_reducible apply keeps_State_settle
    | with_reducible apply keeps_work
    | with_reducible apply Keeps.ofId
    | with_reducible refine Keeps.ite ?_ ?_
    | split
    | with_reducible intro _)

theorem keeps_State_takeIn {s0 s t : State} {p : Nat} {want : Nat → Bool} {r : Landed} (h0 : Keeps s0 s)
    (e : State.takeIn s p want = some (r, t)) : Keeps s0 t := by
  unfold State.takeIn at e
  dsimp only at e
  split at e
  · cases e
  · cases e
    exact keeps_State_mapColl h0

theorem keeps_State_dropIn {s0 : State} {s : State} {p : Nat}
    (h0 : Keeps s0 s) : Keeps s0 (State.dropIn s p) := by
  unfold State.dropIn
  repeat' (first
    | with_reducible assumption
    | with_reducible apply keeps_State_mapColl)

theorem keeps_State_digestBad {s0 : State} {s : State} {p member index : Nat} {bcast : Bool} {round : Nat × Nat}
    (h0 : Keeps s0 s) : Keeps s0 (State.digestBad s p member index bcast round) := by
  unfold State.digestBad
  repeat' (first
    | with_reducible assumption
    | with_reducible apply keeps_State_mapColl
    | with_reducible apply keeps_State_notice)

theorem keeps_State_contribLate {s0 : State} {s : State} {p : Nat} {cur : Bool}
    (h0 : Keeps s0 s) : Keeps s0 (State.contribLate s p cur) := by
  unfold State.contribLate
  repeat' (first
    | with_reducible assumption
    | with_reducible apply keeps_State_mapColl)

theorem keeps_State_contribInto {s0 : State} {s : State} {p i j : Nat} {cur : Bool} {m : Landed}
    (h0 : Keeps s0 s) : Keeps s0 (State.contribInto s p i j cur m) := by
  unfold State.contribInto
  repeat' (first
    | with_reducible assumption
    | with_reducible apply KeepsX.some
    | with_reducible exact KeepsX.none
    | with_reducible refine KeepsX.ite ?_ ?_
    | with_reducible apply keeps_State_digestBad
    | with_reducible apply keeps_State_mapColl
    | with_reducible apply keeps_State_transFault
    | with_reducible apply keeps_State_voteCheck
    | with_reducible apply keeps_State_vwrite
    | with_reducible refine Keeps.ite ?_ ?_
    | split
    | with_reducible intro _
    | dsimp only)

theorem keeps_execContributionLanding {s0 : State} {p : Nat} {s : State}
    (h0 : Keeps s0 s) : KeepsO s0 (execContributionLanding p s) := by
  unfold execContributionLanding
  repeat' (first
    | with_reducible assumption
    | with_reducible apply KeepsX.some
    | with_reducible exact KeepsX.none
    | with_reducible apply KeepsO.next
    | with_reducible exact KeepsO.fault
    | with_reducible apply KeepsE.ok
    | with_reducible exact KeepsE.error
    | with_reducible apply KeepsX.some
    | with_reducible exact KeepsX.none
    | with_reducible refine KeepsX.ite ?_ ?_
    | with_reducible refine KeepsO.ite ?_ ?_
    | with_reducible refine Keeps.getD ?_ ?_
    | with_reducible apply keeps_State_contribInto
    | with_reducible apply keeps_State_contribLate
    | with_reducible apply keeps_State_dropIn
    | with_reducible apply keeps_State_mapColl
    | with_reducible apply keeps_State_voteCheck
    | with_reducible refine keeps_State_takeIn ?_ (by assumption)
    | with_reducible refine Keeps.ite ?_ ?_
    | split
    | with_reducible intro _
    | dsimp only)

theorem keeps_State_recheck {s0 : State} {s : State} {p va n : Nat}
    (h0 : Keeps s0 s) : Keeps s0 (State.recheck s p va n) := by
  unfold State.recheck
  repeat' (first
    | with_reducible assumption
    | with_reducible apply Keeps.foldl
    | with_reducible apply Keeps.foldlQ
    | with_reducible apply Keeps.foldlP
    | with_reducible apply keeps_State_engWriteChecked
    | with_reducible refine Keeps.ite ?_ ?_
    | split
    | with_reducible intro _
    | dsimp only)

theorem keeps_State_bcastInto {s0 : State} {s : State} {p i j : Nat} {m : Landed}
    (h0 : Keeps s0 s) : Keeps s0 (State.bcastInto s p i j m) := by
  unfold State.bcastInto
  repeat' (first
    | with_reducible assumption
    | with_reducible apply KeepsX.some
    | with_reducible exact KeepsX.none
    | with_reducible refine KeepsX.ite ?_ ?_
    | with_reducible apply keeps_State_digestBad
    | with_reducible apply keeps_State_dropIn
    | with_reducible apply keeps_State_mapColl
    | with_reducible apply keeps_State_putHdr
    | with_reducible apply keeps_State_recheck
    | with_reducible apply keeps_State_regionTake
    | with_reducible apply keeps_State_transFault
    | with_reducible apply keeps_State_voteCheck
    | with_reducible apply keeps_State_vwrite
    | with_reducible refine Keeps.ite ?_ ?_
    | split
    | with_reducible intro _
    | dsimp only)

theorem keeps_execBroadcastLanding {s0 : State} {p : Nat} {s : State}
    (h0 : Keeps s0 s) : KeepsO s0 (execBroadcastLanding p s) := by
  unfold execBroadcastLanding
  repeat' (first
    | with_reducible assumption
    | with_reducible apply KeepsX.some
    | with_reducible exact KeepsX.none
    | with_reducible apply KeepsO.next
    | with_reducible exact KeepsO.fault
    | with_reducible apply KeepsE.ok
    | with_reducible exact KeepsE.error
    | with_reducible apply KeepsX.some
    | with_reducible exact KeepsX.none
    | with_reducible refine KeepsX.ite ?_ ?_
    | with_reducible refine KeepsO.ite ?_ ?_
    | with_reducible refine Keeps.getD ?_ ?_
    | with_reducible apply keeps_State_bcastInto
    | with_reducible apply keeps_State_dropIn
    | with_reducible apply keeps_State_mapColl
    | with_reducible apply keeps_State_voteCheck
    | with_reducible refine keeps_State_takeIn ?_ (by assumption)
    | with_reducible refine Keeps.ite ?_ ?_
    | split
    | with_reducible intro _
    | dsimp only)

theorem keeps_execContributionWindowClose {s0 : State} {p : Nat} {s : State}
    (h0 : Keeps s0 s) : KeepsO s0 (execContributionWindowClose p s) := by
  unfold execContributionWindowClose
  repeat' (first
    | with_reducible assumption
    | with_reducible apply KeepsO.next
    | with_reducible exact KeepsO.fault
    | with_reducible apply KeepsE.ok
    | with_reducible exact KeepsE.error
    | with_reducible apply KeepsX.some
    | with_reducible exact KeepsX.none
    | with_reducible refine KeepsO.ite ?_ ?_
    | with_reducible apply keeps_State_mapColl
    | with_reducible apply keeps_State_voteCheck)

theorem keeps_execBroadcastWindowClose {s0 : State} {p : Nat} {s : State}
    (h0 : Keeps s0 s) : KeepsO s0 (execBroadcastWindowClose p s) := by
  unfold execBroadcastWindowClose
  repeat' (first
    | with_reducible assumption
    | with_reducible apply KeepsO.next
    | with_reducible exact KeepsO.fault
    | with_reducible apply KeepsE.ok
    | with_reducible exact KeepsE.error
    | with_reducible apply KeepsX.some
    | with_reducible exact KeepsX.none
    | with_reducible refine KeepsO.ite ?_ ?_
    | with_reducible apply keeps_State_decide
    | with_reducible apply keeps_State_mapColl
    | with_reducible apply keeps_State_shardsTake
    | with_reducible apply keeps_State_voteCheck)

theorem keeps_execVoteReceive {s0 : State} {p : Nat} {s : State}
    (h0 : Keeps s0 s) : KeepsO s0 (execVoteReceive p s) := by
  unfold execVoteReceive
  repeat' (first
    | with_reducible assumption
    | with_reducible apply KeepsX.some
    | with_reducible exact KeepsX.none
    | with_reducible apply KeepsO.next
    | with_reducible exact KeepsO.fault
    | with_reducible apply KeepsE.ok
    | with_reducible exact KeepsE.error
    | with_reducible apply KeepsX.some
    | with_reducible exact KeepsX.none
    | with_reducible refine KeepsX.ite ?_ ?_
    | with_reducible refine KeepsO.ite ?_ ?_
    | with_reducible apply keeps_State_dropIn
    | with_reducible apply keeps_State_mapColl
    | with_reducible apply keeps_State_tally
    | with_reducible refine keeps_State_takeIn ?_ (by assumption)
    | with_reducible refine Keeps.ite ?_ ?_
    | split
    | with_reducible intro _
    | dsimp only)

theorem keeps_execVoteTimeout {s0 : State} {p : Nat} {s : State}
    (h0 : Keeps s0 s) : KeepsO s0 (execVoteTimeout p s) := by
  unfold execVoteTimeout
  repeat' (first
    | with_reducible assumption
    | with_reducible apply KeepsO.next
    | with_reducible exact KeepsO.fault
    | with_reducible apply KeepsE.ok
    | with_reducible exact KeepsE.error
    | with_reducible apply KeepsX.some
    | with_reducible exact KeepsX.none
    | with_reducible refine KeepsO.ite ?_ ?_
    | with_reducible apply keeps_State_decide
    | with_reducible refine Keeps.ite ?_ ?_)

theorem keeps_execDecisionReceive {s0 : State} {p : Nat} {s : State}
    (h0 : Keeps s0 s) : KeepsO s0 (execDecisionReceive p s) := by
  unfold execDecisionReceive
  repeat' (first
    | with_reducible assumption
    | with_reducible apply KeepsX.some
    | with_reducible exact KeepsX.none
    | with_reducible apply KeepsO.next
    | with_reducible exact KeepsO.fault
    | with_reducible apply KeepsE.ok
    | with_reducible exact KeepsE.error
    | with_reducible apply KeepsX.some
    | with_reducible exact KeepsX.none
    | with_reducible refine KeepsX.ite ?_ ?_
    | with_reducible refine KeepsO.ite ?_ ?_
    | with_reducible apply keeps_State_completeVote
    | with_reducible apply keeps_State_dropIn
    | with_reducible apply keeps_State_mapColl
    | with_reducible apply keeps_State_recordDecision
    | with_reducible apply keeps_State_takeDecision
    | with_reducible refine keeps_State_takeIn ?_ (by assumption)
    | with_reducible refine Keeps.ite ?_ ?_
    | split
    | with_reducible intro _
    | dsimp only)

theorem keeps_execDecisionTimeout {s0 : State} {p : Nat} {s : State}
    (h0 : Keeps s0 s) : KeepsO s0 (execDecisionTimeout p s) := by
  unfold execDecisionTimeout
  repeat' (first
    | with_reducible assumption
    | with_reducible apply KeepsX.some
    | with_reducible exact KeepsX.none
    | with_reducible apply KeepsO.next
    | with_reducible exact KeepsO.fault
    | with_reducible apply KeepsE.ok
    | with_reducible exact KeepsE.error
    | with_reducible apply KeepsX.some
    | with_reducible exact KeepsX.none
    | with_reducible refine KeepsX.ite ?_ ?_
    | with_reducible refine KeepsO.ite ?_ ?_
    | with_reducible apply keeps_State_endStepBegin
    | with_reducible apply keeps_State_faultCtx
    | with_reducible apply keeps_State_mapColl
    | with_reducible refine Keeps.ite ?_ ?_
    | split
    | with_reducible intro _
    | dsimp only)

theorem keeps_execRingLanding {s0 : State} {p : Nat} {s : State}
    (h0 : Keeps s0 s) : KeepsO s0 (execRingLanding p s) := by
  unfold execRingLanding
  repeat' (first
    | with_reducible assumption
    | with_reducible apply KeepsX.some
    | with_reducible exact KeepsX.none
    | with_reducible apply KeepsO.next
    | with_reducible exact KeepsO.fault
    | with_reducible apply KeepsE.ok
    | with_reducible exact KeepsE.error
    | with_reducible apply KeepsX.some
    | with_reducible exact KeepsX.none
    | with_reducible refine KeepsX.ite ?_ ?_
    | with_reducible refine KeepsO.ite ?_ ?_
    | with_reducible apply keeps_State_dropIn
    | with_reducible apply keeps_State_signalTok
    | with_reducible apply keeps_State_transFault
    | with_reducible apply keeps_State_vwrite
    | with_reducible refine keeps_State_takeIn ?_ (by assumption)
    | with_reducible refine Keeps.ite ?_ ?_
    | split
    | with_reducible intro _
    | dsimp only)

theorem keeps_execRingCredit {s0 : State} {p : Nat} {s : State}
    (h0 : Keeps s0 s) : KeepsO s0 (execRingCredit p s) := by
  unfold execRingCredit
  repeat' (first
    | with_reducible assumption
    | with_reducible apply KeepsX.some
    | with_reducible exact KeepsX.none
    | with_reducible apply KeepsO.next
    | with_reducible exact KeepsO.fault
    | with_reducible apply KeepsE.ok
    | with_reducible exact KeepsE.error
    | with_reducible apply KeepsX.some
    | with_reducible exact KeepsX.none
    | with_reducible refine KeepsX.ite ?_ ?_
    | with_reducible refine KeepsO.ite ?_ ?_
    | with_reducible apply Keeps.foldl
    | with_reducible apply Keeps.foldlQ
    | with_reducible apply Keeps.foldlP
    | with_reducible apply keeps_State_dropIn
    | with_reducible apply keeps_State_mapColl
    | with_reducible apply keeps_State_mapCore
    | with_reducible refine keeps_State_takeIn ?_ (by assumption)
    | with_reducible refine Keeps.ite ?_ ?_
    | split
    | with_reducible intro _)

theorem keeps_execCollGrpWrite {s0 : State} {who : Who} {p : Nat} {v : W64} {s : State}
    (h0 : Keeps s0 s) : KeepsO s0 (execCollGrpWrite who p v s) := by
  unfold execCollGrpWrite
  repeat' (first
    | with_reducible assumption
    | with_reducible apply KeepsO.next
    | with_reducible exact KeepsO.fault
    | with_reducible apply KeepsE.ok
    | with_reducible exact KeepsE.error
    | with_reducible apply KeepsX.some
    | with_reducible exact KeepsX.none
    | with_reducible refine KeepsO.ite ?_ ?_
    | with_reducible apply Keeps.foldl
    | with_reducible apply Keeps.foldlQ
    | with_reducible apply Keeps.foldlP
    | with_reducible apply keeps_State_enginePages
    | with_reducible apply keeps_State_mapColl
    | with_reducible apply keeps_State_regionTake
    | with_reducible apply keeps_State_vtake
    | with_reducible refine Keeps.ite ?_ ?_
    | split
    | with_reducible intro _)

theorem keeps_execCollStateWrite {s0 : State} {who : Who} {p : Nat} {v : W64} {s : State}
    (h0 : Keeps s0 s) : KeepsO s0 (execCollStateWrite who p v s) := by
  unfold execCollStateWrite
  repeat' (first
    | with_reducible assumption
    | with_reducible apply KeepsO.next
    | with_reducible exact KeepsO.fault
    | with_reducible apply KeepsE.ok
    | with_reducible exact KeepsE.error
    | with_reducible apply KeepsX.some
    | with_reducible exact KeepsX.none
    | with_reducible refine KeepsO.ite ?_ ?_
    | with_reducible apply keeps_State_mapColl)

theorem keeps_State_setCap {s0 s : State} {cap : Nat} (h0 : Keeps s0 s) : KeepsP s0 (State.setCap s cap) := by
  unfold State.setCap
  generalize floorMaxOf (min s.pwr.cap cap) = x
  split
  · exact h0
  · exact Keeps.step h0 rfl rfl

theorem keeps_State_refillClusters {s0 : State} {s : State} {ks : List Nat} {n : Nat}
    (h0 : Keeps s0 s) : Keeps s0 (State.refillClusters s ks n) := by
  unfold State.refillClusters
  repeat' (first
    | with_reducible assumption
    | with_reducible apply Keeps.foldl
    | with_reducible apply Keeps.foldlQ
    | with_reducible apply Keeps.foldlP
    | with_reducible apply keeps_State_setCluster
    | with_reducible refine Keeps.ite ?_ ?_
    | split
    | with_reducible intro _)

theorem keeps_State_refillPart {s0 : State} {s : State} {shares : List (Nat × Nat)} {p n : Nat}
    (h0 : Keeps s0 s) : Keeps s0 (State.refillPart s shares p n) := by
  unfold State.refillPart
  repeat' (first
    | with_reducible assumption
    | with_reducible apply keeps_State_mapPart
    | with_reducible apply keeps_State_refillClusters
    | with_reducible refine Keeps.ite ?_ ?_)

theorem keeps_State_metered {s0 : State} {s : State}
    (h0 : Keeps s0 s) : Keeps s0 (State.metered s) := by
  unfold State.metered
  repeat' (first
    | with_reducible assumption
    | with_reducible refine Keeps.ite ?_ ?_
    | split
    | with_reducible intro _
    | dsimp only
    | with_reducible refine Keeps.mkState (by with_reducible assumption))

theorem keeps_State_wakeCores {s0 : State} {s : State}
    (h0 : Keeps s0 s) : Keeps s0 (State.wakeCores s) := by
  unfold State.wakeCores
  repeat' (first
    | with_reducible assumption
    | with_reducible refine Keeps.ite ?_ ?_
    | split
    | with_reducible intro _
    | dsimp only
    | with_reducible refine Keeps.mkState (by with_reducible assumption))

theorem keeps_execRefillTick {s0 : State} {s : State}
    (h0 : Keeps s0 s) : KeepsO s0 (execRefillTick s) := by
  unfold execRefillTick
  repeat' (first
    | with_reducible assumption
    | with_reducible apply KeepsO.next
    | with_reducible exact KeepsO.fault
    | with_reducible apply KeepsE.ok
    | with_reducible exact KeepsE.error
    | with_reducible apply KeepsX.some
    | with_reducible exact KeepsX.none
    | with_reducible refine KeepsO.ite ?_ ?_
    | with_reducible apply Keeps.foldl
    | with_reducible apply Keeps.foldlQ
    | with_reducible apply Keeps.foldlP
    | with_reducible apply keeps_State_metered
    | with_reducible apply keeps_State_refillClusters
    | with_reducible apply keeps_State_refillPart
    | with_reducible apply keeps_State_wakeCores
    | with_reducible refine Keeps.ite ?_ ?_
    | split
    | with_reducible intro _)

theorem keeps_execHeadReservation {s0 : State} {core n : Nat} {s : State}
    (h0 : Keeps s0 s) : KeepsO s0 (execHeadReservation core n s) := by
  unfold execHeadReservation
  repeat' (first
    | with_reducible assumption
    | with_reducible apply KeepsX.some
    | with_reducible exact KeepsX.none
    | with_reducible apply KeepsO.next
    | with_reducible exact KeepsO.fault
    | with_reducible apply KeepsE.ok
    | with_reducible exact KeepsE.error
    | with_reducible apply KeepsX.some
    | with_reducible exact KeepsX.none
    | with_reducible refine KeepsX.ite ?_ ?_
    | with_reducible refine KeepsO.ite ?_ ?_
    | with_reducible apply keeps_State_setCore)

theorem keeps_execPowerWindow {s0 : State} {pin nonCluster : Nat} {s : State}
    (h0 : Keeps s0 s) : KeepsO s0 (execPowerWindow pin nonCluster s) := by
  unfold execPowerWindow
  repeat' (first
    | with_reducible assumption
    | with_reducible apply KeepsO.next
    | with_reducible exact KeepsO.fault
    | with_reducible apply KeepsE.ok
    | with_reducible exact KeepsE.error
    | with_reducible apply KeepsX.some
    | with_reducible exact KeepsX.none
    | with_reducible refine KeepsO.ite ?_ ?_
    | with_reducible refine KeepsQ.fst (keeps_State_accepted ?_)
    | with_reducible apply keeps_State_accepted
    | with_reducible apply keeps_State_mapClusters
    | with_reducible refine Keeps.ite ?_ ?_
    | split
    | with_reducible intro _
    | dsimp only
    | with_reducible refine Keeps.mkState (by with_reducible assumption))

theorem keeps_execFastLimiter {s0 : State} {mean : Nat} {s : State}
    (h0 : Keeps s0 s) : KeepsO s0 (execFastLimiter mean s) := by
  unfold execFastLimiter
  repeat' (first
    | with_reducible assumption
    | with_reducible apply KeepsO.next
    | with_reducible exact KeepsO.fault
    | with_reducible apply KeepsE.ok
    | with_reducible exact KeepsE.error
    | with_reducible apply KeepsX.some
    | with_reducible exact KeepsX.none
    | with_reducible refine KeepsO.ite ?_ ?_
    | with_reducible apply keeps_State_mapClusters
    | with_reducible refine Keeps.ite ?_ ?_
    | split
    | with_reducible intro _
    | dsimp only
    | with_reducible refine Keeps.mkState (by with_reducible assumption))

theorem keeps_execThermalWindow {s0 : State} {readings : List (Nat × Nat)} {s : State}
    (h0 : Keeps s0 s) : KeepsO s0 (execThermalWindow readings s) := by
  unfold execThermalWindow
  repeat' (first
    | with_reducible assumption
    | with_reducible apply KeepsO.next
    | with_reducible exact KeepsO.fault
    | with_reducible apply KeepsE.ok
    | with_reducible exact KeepsE.error
    | with_reducible apply KeepsX.some
    | with_reducible exact KeepsX.none
    | with_reducible refine KeepsO.ite ?_ ?_
    | with_reducible apply Keeps.foldl
    | with_reducible apply Keeps.foldlQ
    | with_reducible apply Keeps.foldlP
    | with_reducible apply keeps_State_mapClusters
    | with_reducible refine Keeps.ite ?_ ?_
    | split
    | with_reducible intro _
    | dsimp only
    | with_reducible refine Keeps.mkState (by with_reducible assumption))

theorem keeps_execClusterGate {s0 : State} {k : Nat} {s : State}
    (h0 : Keeps s0 s) : KeepsO s0 (execClusterGate k s) := by
  unfold execClusterGate
  repeat' (first
    | with_reducible assumption
    | with_reducible apply KeepsO.next
    | with_reducible exact KeepsO.fault
    | with_reducible apply KeepsE.ok
    | with_reducible exact KeepsE.error
    | with_reducible apply KeepsX.some
    | with_reducible exact KeepsX.none
    | with_reducible refine KeepsO.ite ?_ ?_
    | with_reducible apply keeps_State_setCluster)

theorem keeps_execClusterWake {s0 : State} {k : Nat} {s : State}
    (h0 : Keeps s0 s) : KeepsO s0 (execClusterWake k s) := by
  unfold execClusterWake
  repeat' (first
    | with_reducible assumption
    | with_reducible apply KeepsO.next
    | with_reducible exact KeepsO.fault
    | with_reducible apply KeepsE.ok
    | with_reducible exact KeepsE.error
    | with_reducible apply KeepsX.some
    | with_reducible exact KeepsX.none
    | with_reducible refine KeepsO.ite ?_ ?_
    | with_reducible apply keeps_State_setCluster
    | with_reducible refine Keeps.ite ?_ ?_
    | split
    | with_reducible intro _
    | dsimp only
    | with_reducible refine Keeps.mkState (by with_reducible assumption))

theorem keeps_execPllOff {s0 : State} {k : Nat} {s : State}
    (h0 : Keeps s0 s) : KeepsO s0 (execPllOff k s) := by
  unfold execPllOff
  repeat' (first
    | with_reducible assumption
    | with_reducible apply KeepsO.next
    | with_reducible exact KeepsO.fault
    | with_reducible apply KeepsE.ok
    | with_reducible exact KeepsE.error
    | with_reducible apply KeepsX.some
    | with_reducible exact KeepsX.none
    | with_reducible refine KeepsO.ite ?_ ?_
    | with_reducible apply keeps_State_setCluster
    | with_reducible refine Keeps.ite ?_ ?_
    | split
    | with_reducible intro _
    | dsimp only
    | with_reducible refine Keeps.mkState (by with_reducible assumption)
    | with_reducible refine Keeps.mkState (keeps_State_setCluster ?_))

theorem keeps_execPllLock {s0 : State} {k : Nat} {s : State}
    (h0 : Keeps s0 s) : KeepsO s0 (execPllLock k s) := by
  unfold execPllLock
  repeat' (first
    | with_reducible assumption
    | with_reducible apply KeepsO.next
    | with_reducible exact KeepsO.fault
    | with_reducible apply KeepsE.ok
    | with_reducible exact KeepsE.error
    | with_reducible apply KeepsX.some
    | with_reducible exact KeepsX.none
    | with_reducible refine KeepsO.ite ?_ ?_
    | with_reducible apply keeps_State_setCluster)

theorem keeps_execPwrCapWrite {s0 : State} {who : Who} {v : W64} {s : State}
    (h0 : Keeps s0 s) : KeepsO s0 (execPwrCapWrite who v s) := by
  unfold execPwrCapWrite
  repeat' (first
    | with_reducible assumption
    | with_reducible apply KeepsO.next
    | with_reducible exact KeepsO.fault
    | with_reducible apply KeepsE.ok
    | with_reducible exact KeepsE.error
    | with_reducible apply KeepsX.some
    | with_reducible exact KeepsX.none
    | with_reducible refine KeepsO.ite ?_ ?_
    | with_reducible refine KeepsP.snd (keeps_State_setCap ?_)
    | with_reducible refine KeepsP.out (keeps_State_setCap ?_) (by assumption)
    | with_reducible apply keeps_State_setCap
    | with_reducible refine Keeps.ite ?_ ?_
    | split
    | with_reducible intro _
    | dsimp only
    | with_reducible refine Keeps.mkState (by with_reducible assumption))

theorem keeps_State_setServe {s0 : State} {s : State} {p : Nat} {v : Serve}
    (h0 : Keeps s0 s) : Keeps s0 (State.setServe s p v) := by
  unfold State.setServe
  repeat' (first
    | with_reducible assumption
    | with_reducible refine Keeps.ite ?_ ?_
    | split
    | with_reducible intro _
    | dsimp only
    | with_reducible refine Keeps.mkState (by with_reducible assumption))

theorem keeps_State_writeStep {s0 : State} {s : State} {p : Nat} {c : ServeCfg} {n : Nat} {b : Build} {seqs : List Seqn}
    (h0 : Keeps s0 s) : Keeps s0 (State.writeStep s p c n b seqs) := by
  unfold State.writeStep
  repeat' (first
    | with_reducible assumption
    | with_reducible apply Keeps.foldl
    | with_reducible apply Keeps.foldlQ
    | with_reducible apply Keeps.foldlP
    | with_reducible apply keeps_State_mapCore
    | with_reducible apply keeps_State_vwrite
    | with_reducible apply Keeps.ofId
    | with_reducible refine Keeps.ite ?_ ?_
    | split
    | with_reducible intro _)

theorem keeps_State_boundary {s0 : State} {s : State} {p : Nat} {v : Serve} {c : ServeCfg}
    (h0 : Keeps s0 s) : Keeps s0 (State.boundary s p v c) := by
  unfold State.boundary
  repeat' (first
    | with_reducible assumption
    | with_reducible apply Keeps.foldl
    | with_reducible apply Keeps.foldlQ
    | with_reducible apply Keeps.foldlP
    | with_reducible apply keeps_State_decide
    | with_reducible apply keeps_State_mapPart
    | with_reducible apply keeps_State_notice
    | with_reducible apply keeps_State_partEvent
    | with_reducible apply keeps_State_setServe
    | with_reducible apply keeps_State_writeStep
    | with_reducible apply Keeps.ofId
    | with_reducible refine Keeps.ite ?_ ?_
    | split
    | with_reducible intro _)

theorem keeps_execServeStepBoundary {s0 : State} {p : Nat} {s : State}
    (h0 : Keeps s0 s) : KeepsO s0 (execServeStepBoundary p s) := by
  unfold execServeStepBoundary
  repeat' (first
    | with_reducible assumption
    | with_reducible apply KeepsX.some
    | with_reducible exact KeepsX.none
    | with_reducible apply KeepsO.next
    | with_reducible exact KeepsO.fault
    | with_reducible apply KeepsE.ok
    | with_reducible exact KeepsE.error
    | with_reducible apply KeepsX.some
    | with_reducible exact KeepsX.none
    | with_reducible refine KeepsX.ite ?_ ?_
    | with_reducible refine KeepsO.ite ?_ ?_
    | with_reducible apply keeps_State_boundary
    | with_reducible refine Keeps.ite ?_ ?_
    | split
    | with_reducible intro _
    | dsimp only)

theorem keeps_State_killCtxs {s0 : State} {s : State} {p status : Nat}
    (h0 : Keeps s0 s) : Keeps s0 (State.killCtxs s p status) := by
  unfold State.killCtxs
  repeat' (first
    | with_reducible assumption
    | with_reducible apply Keeps.foldl
    | with_reducible apply Keeps.foldlQ
    | with_reducible apply Keeps.foldlP
    | with_reducible apply keeps_State_endOne
    | with_reducible apply keeps_State_mapCore
    | with_reducible refine Keeps.ite ?_ ?_
    | split
    | with_reducible intro _)

theorem keeps_State_killPeers {s0 : State} {s : State} {p : Nat}
    (h0 : Keeps s0 s) : Keeps s0 (State.killPeers s p) := by
  unfold State.killPeers
  repeat' (first
    | with_reducible assumption
    | with_reducible apply Keeps.foldl
    | with_reducible apply Keeps.foldlQ
    | with_reducible apply Keeps.foldlP
    | with_reducible apply keeps_State_removePeer)

theorem keeps_State_killPackets {s0 : State} {s : State} {p : Nat}
    (h0 : Keeps s0 s) : Keeps s0 (State.killPackets s p) := by
  unfold State.killPackets
  repeat' (first
    | with_reducible assumption
    | with_reducible refine Keeps.getD ?_ ?_
    | with_reducible apply Keeps.foldl
    | with_reducible apply Keeps.foldlQ
    | with_reducible apply Keeps.foldlP
    | with_reducible apply keeps_State_fin
    | with_reducible apply keeps_State_finishLaunch
    | with_reducible apply keeps_State_finishLong
    | with_reducible apply keeps_State_mapRing
    | with_reducible refine Keeps.ite ?_ ?_
    | split
    | with_reducible intro _)

theorem keeps_State_emptyTables {s0 : State} {s : State} {p : Nat}
    (h0 : Keeps s0 s) : Keeps s0 (State.emptyTables s p) := by
  unfold State.emptyTables
  repeat' (first
    | with_reducible assumption
    | with_reducible apply keeps_State_dropTlbs
    | with_reducible refine Keeps.ite ?_ ?_
    | split
    | with_reducible intro _
    | dsimp only
    | with_reducible refine Keeps.mkState (by with_reducible assumption)
    | with_reducible refine Keeps.mkState (keeps_State_dropTlbs ?_))

theorem keeps_State_toScrub {s0 : State} {s : State} {p : Nat}
    (h0 : Keeps s0 s) : Keeps s0 (State.toScrub s p) := by
  unfold State.toScrub
  repeat' (first
    | with_reducible assumption
    | with_reducible apply Keeps.foldl
    | with_reducible apply Keeps.foldlQ
    | with_reducible apply Keeps.foldlP
    | with_reducible refine Keeps.ite ?_ ?_
    | split
    | with_reducible intro _
    | dsimp only
    | with_reducible refine Keeps.mkState (by with_reducible assumption))

theorem keeps_State_killPart {s0 s : State} {p status : Nat} {destroy : Bool} (h0 : Keeps s0 s) :
    Keeps s0 (State.killPart s p status destroy) := by
  unfold State.killPart
  refine Keeps.ite h0 ?_
  refine keeps_State_partEvent (keeps_State_mapPart (keeps_State_toScrub ?_))
  refine Keeps.foldl ?_ fun u x hu => keeps_State_mapCore hu
  refine keeps_State_emptyTables (keeps_State_mapColl (keeps_State_killPackets (keeps_State_killPeers ?_)))
  refine Keeps.foldl ?_ fun u x hu => keeps_State_discardRegion hu
  exact keeps_State_killCtxs (keeps_State_mapPart h0)

theorem keeps_State_endDestroy {s0 : State} {s : State} {p : Nat}
    (h0 : Keeps s0 s) : Keeps s0 (State.endDestroy s p) := by
  unfold State.endDestroy
  repeat' (first
    | with_reducible assumption
    | with_reducible apply KeepsX.some
    | with_reducible exact KeepsX.none
    | with_reducible refine KeepsX.ite ?_ ?_
    | with_reducible apply Keeps.foldl
    | with_reducible apply Keeps.foldlQ
    | with_reducible apply Keeps.foldlP
    | with_reducible apply keeps_State_finishLong
    | with_reducible apply keeps_State_setCluster
    | with_reducible apply keeps_State_setHport
    | with_reducible refine Keeps.ite ?_ ?_
    | split
    | with_reducible intro _
    | dsimp only
    | with_reducible refine Keeps.mkState (by with_reducible assumption)
    | with_reducible refine Keeps.mkState (keeps_State_finishLong ?_)
    | with_reducible refine Keeps.mkState (keeps_State_setCluster ?_)
    | with_reducible refine Keeps.mkState (keeps_State_setHport ?_))

theorem keeps_State_scrubCore {s0 : State} {s : State} {n : Nat}
    (h0 : Keeps s0 s) : Keeps s0 (State.scrubCore s n) := by
  unfold State.scrubCore
  repeat' (first
    | with_reducible assumption
    | with_reducible apply Keeps.foldl
    | with_reducible apply Keeps.foldlQ
    | with_reducible apply Keeps.foldlP
    | with_reducible apply keeps_State_mapCore
    | with_reducible apply keeps_State_zeroBank
    | with_reducible refine Keeps.ite ?_ ?_
    | split
    | with_reducible intro _)

theorem keeps_execScrubComplete {s0 s : State} {k : Nat} (h0 : Keeps s0 s) : KeepsO s0 (execScrubComplete k s) := by
  have h1 : Keeps s0 ((clusterCores k).foldl State.scrubCore s) := Keeps.foldl h0 fun u x hu => keeps_State_scrubCore hu
  generalize hs : (clusterCores k).foldl State.scrubCore s = u at h1
  have h2 : Keeps s0 { u with flt := { u.flt with scrub := Keys.del u.flt.scrub k } } := Keeps.step h1 rfl rfl
  unfold execScrubComplete
  rw [hs]
  dsimp only
  split
  · exact KeepsO.next h0
  · split
    · exact KeepsO.next h0
    · split
      · exact KeepsO.next h2
      · split
        · exact KeepsO.next h2
        · split
          · exact KeepsO.next (keeps_State_endDestroy h2)
          · exact KeepsO.next (keeps_State_partEvent (keeps_State_mapPart h2))

theorem keeps_execPendingFrameZeroed {s0 s : State} {f : Nat} (h0 : Keeps s0 s) : KeepsO s0 (execPendingFrameZeroed f s) := by
  unfold execPendingFrameZeroed
  dsimp only
  split
  · exact KeepsO.next ⟨h0.pending, fun w => Memory.filter_wf (h0.mem w)⟩
  · exact KeepsO.next h0

theorem keeps_execPageWalk {s0 : State} {die p va : Nat} {s : State}
    (h0 : Keeps s0 s) : KeepsO s0 (execPageWalk die p va s) := by
  unfold execPageWalk
  repeat' (first
    | with_reducible assumption
    | with_reducible apply KeepsO.next
    | with_reducible exact KeepsO.fault
    | with_reducible apply KeepsE.ok
    | with_reducible exact KeepsE.error
    | with_reducible apply KeepsX.some
    | with_reducible exact KeepsX.none
    | with_reducible refine KeepsO.ite ?_ ?_
    | with_reducible refine Keeps.ite ?_ ?_
    | split
    | with_reducible intro _
    | dsimp only
    | with_reducible refine Keeps.mkState (by with_reducible assumption))

theorem keeps_State_copyRange {s0 s : State} {dst src n : Nat} (h0 : Keeps s0 s) : Keeps s0 (State.copyRange s dst src n) := by
  refine ⟨h0.pending, fun w => ?_⟩
  unfold State.copyRange
  dsimp only
  refine Memory.foldl_write_wf ?_ (Memory.filter_wf (h0.mem w))
  intro m x hm
  exact Memory.write_wf hm

theorem keeps_State_resumePage {s0 : State} {s : State} {p : Nat} {covers : Nat → Bool}
    (h0 : Keeps s0 s) : KeepsQ s0 (State.resumePage s p covers) := by
  unfold State.resumePage
  repeat' (first
    | with_reducible assumption
    | with_reducible refine KeepsQ.ite ?_ ?_
    | with_reducible apply KeepsQ.mk
    | with_reducible apply Keeps.foldl
    | with_reducible apply Keeps.foldlQ
    | with_reducible apply Keeps.foldlP
    | with_reducible apply keeps_State_mapCore
    | with_reducible refine Keeps.ite ?_ ?_
    | split
    | with_reducible intro _
    | dsimp only)

theorem keeps_State_movePage {s0 : State} {s : State} {src dst : Nat}
    (h0 : Keeps s0 s) : Keeps s0 (State.movePage s src dst) := by
  unfold State.movePage
  repeat' (first
    | with_reducible assumption
    | with_reducible apply Keeps.foldl
    | with_reducible apply Keeps.foldlQ
    | with_reducible apply Keeps.foldlP
    | with_reducible apply keeps_State_copyRange
    | with_reducible refine Keeps.ite ?_ ?_
    | split
    | with_reducible intro _
    | dsimp only
    | with_reducible refine Keeps.mkState (by with_reducible assumption)
    | with_reducible refine Keeps.mkState (keeps_State_copyRange ?_))

theorem keeps_execMigrationComplete {s0 : State} {p va : Nat} {s : State}
    (h0 : Keeps s0 s) : KeepsO s0 (execMigrationComplete p va s) := by
  unfold execMigrationComplete
  repeat' (first
    | with_reducible assumption
    | with_reducible apply KeepsX.some
    | with_reducible exact KeepsX.none
    | with_reducible apply KeepsO.next
    | with_reducible exact KeepsO.fault
    | with_reducible apply KeepsE.ok
    | with_reducible exact KeepsE.error
    | with_reducible apply KeepsX.some
    | with_reducible exact KeepsX.none
    | with_reducible refine KeepsX.ite ?_ ?_
    | with_reducible refine KeepsO.ite ?_ ?_
    | with_reducible apply keeps_State_invalidate
    | with_reducible apply keeps_State_movePage
    | with_reducible apply keeps_State_raiseFault
    | with_reducible refine KeepsQ.fst (keeps_State_resumePage ?_)
    | with_reducible refine KeepsQ.out (keeps_State_resumePage ?_) (by assumption)
    | with_reducible apply keeps_State_resumePage
    | with_reducible apply keeps_State_setPart
    | with_reducible refine Keeps.ite ?_ ?_
    | split
    | with_reducible intro _
    | dsimp only)

theorem keeps_execPseudoChannelLoss {s0 : State} {stack pc : Nat} {s : State}
    (h0 : Keeps s0 s) : KeepsO s0 (execPseudoChannelLoss stack pc s) := by
  unfold execPseudoChannelLoss
  repeat' (first
    | with_reducible assumption
    | with_reducible apply KeepsO.next
    | with_reducible exact KeepsO.fault
    | with_reducible apply KeepsE.ok
    | with_reducible exact KeepsE.error
    | with_reducible apply KeepsX.some
    | with_reducible exact KeepsX.none
    | with_reducible refine KeepsO.ite ?_ ?_
    | with_reducible apply keeps_State_inField
    | with_reducible refine Keeps.ite ?_ ?_
    | split
    | with_reducible intro _
    | dsimp only
    | with_reducible refine Keeps.mkState (by with_reducible assumption))

theorem keeps_State_hbmError {s0 : State} {s : State} {pa : Nat} {correctable : Bool}
    (h0 : Keeps s0 s) : Keeps s0 (State.hbmError s pa correctable) := by
  unfold State.hbmError
  repeat' (first
    | with_reducible assumption
    | with_reducible apply keeps_State_inField
    | with_reducible refine Keeps.ite ?_ ?_
    | split
    | with_reducible intro _
    | dsimp only
    | with_reducible refine Keeps.mkState (by with_reducible assumption))

theorem keeps_execUncorrectableError {s0 : State} {pa : Nat} {correctable : Bool} {s : State}
    (h0 : Keeps s0 s) : KeepsO s0 (execUncorrectableError pa correctable s) := by
  unfold execUncorrectableError
  repeat' (first
    | with_reducible assumption
    | with_reducible apply KeepsO.next
    | with_reducible exact KeepsO.fault
    | with_reducible apply KeepsE.ok
    | with_reducible exact KeepsE.error
    | with_reducible apply KeepsX.some
    | with_reducible exact KeepsX.none
    | with_reducible refine KeepsO.ite ?_ ?_
    | with_reducible apply keeps_State_hbmError
    | with_reducible refine Keeps.ite ?_ ?_
    | split
    | with_reducible intro _
    | dsimp only
    | with_reducible refine Keeps.mkState (by with_reducible assumption))

theorem keeps_execScratchUncorrectable {s0 : State} {core off : Nat} {correctable : Bool} {s : State}
    (h0 : Keeps s0 s) : KeepsO s0 (execScratchUncorrectable core off correctable s) := by
  unfold execScratchUncorrectable
  repeat' (first
    | with_reducible assumption
    | with_reducible apply KeepsO.next
    | with_reducible exact KeepsO.fault
    | with_reducible apply KeepsE.ok
    | with_reducible exact KeepsE.error
    | with_reducible apply KeepsX.some
    | with_reducible exact KeepsX.none
    | with_reducible refine KeepsO.ite ?_ ?_
    | with_reducible refine Keeps.getD ?_ ?_
    | with_reducible apply keeps_State_inField
    | with_reducible apply keeps_State_mapCore
    | with_reducible refine Keeps.ite ?_ ?_
    | split
    | with_reducible intro _
    | dsimp only
    | with_reducible refine Keeps.mkState (by with_reducible assumption)
    | with_reducible refine Keeps.mkState (keeps_State_inField ?_)
    | with_reducible refine Keeps.mkState (keeps_State_mapCore ?_))

theorem keeps_execPatrolScrub {s0 : State} {stack : Nat} {s : State}
    (h0 : Keeps s0 s) : KeepsO s0 (execPatrolScrub stack s) := by
  unfold execPatrolScrub
  repeat' (first
    | with_reducible assumption
    | with_reducible apply KeepsO.next
    | with_reducible exact KeepsO.fault
    | with_reducible apply KeepsE.ok
    | with_reducible exact KeepsE.error
    | with_reducible apply KeepsX.some
    | with_reducible exact KeepsX.none
    | with_reducible refine KeepsO.ite ?_ ?_
    | with_reducible refine Keeps.ite ?_ ?_
    | split
    | with_reducible intro _
    | dsimp only
    | with_reducible refine Keeps.mkState (by with_reducible assumption))

theorem keeps_State_hostPoison {s0 : State} {s : State} {p : Nat}
    (h0 : Keeps s0 s) : Keeps s0 (State.hostPoison s p) := by
  unfold State.hostPoison
  repeat' (first
    | with_reducible assumption
    | with_reducible apply Keeps.foldl
    | with_reducible apply Keeps.foldlQ
    | with_reducible apply Keeps.foldlP
    | with_reducible apply keeps_State_endOne
    | with_reducible apply keeps_State_killPart
    | with_reducible refine Keeps.ite ?_ ?_
    | split
    | with_reducible intro _
    | dsimp only
    | with_reducible refine Keeps.mkState (by with_reducible assumption))

theorem keeps_State_mapFunc {s0 : State} {s : State} {port func : Nat} {f : HFunc → HFunc}
    (h0 : Keeps s0 s) : Keeps s0 (State.mapFunc s port func f) := by
  unfold State.mapFunc
  repeat' (first
    | with_reducible assumption
    | with_reducible apply keeps_State_setFunc)

theorem keeps_execBar2Read {s0 : State} {port func off len : Nat} {s : State}
    (h0 : Keeps s0 s) : KeepsO s0 (execBar2Read port func off len s) := by
  unfold execBar2Read
  repeat' (first
    | with_reducible assumption
    | with_reducible apply KeepsX.some
    | with_reducible exact KeepsX.none
    | with_reducible apply KeepsO.next
    | with_reducible exact KeepsO.fault
    | with_reducible apply KeepsE.ok
    | with_reducible exact KeepsE.error
    | with_reducible apply KeepsX.some
    | with_reducible exact KeepsX.none
    | with_reducible refine KeepsX.ite ?_ ?_
    | with_reducible refine KeepsO.ite ?_ ?_
    | with_reducible apply keeps_State_hostPoison
    | with_reducible apply keeps_State_mapFunc
    | with_reducible apply keeps_State_vtake
    | with_reducible refine Keeps.ite ?_ ?_
    | split
    | with_reducible intro _
    | dsimp only
    | with_reducible refine Keeps.mkState (by with_reducible assumption)
    | with_reducible refine Keeps.mkState (keeps_State_hostPoison ?_)
    | with_reducible refine Keeps.mkState (keeps_State_mapFunc ?_)
    | with_reducible refine Keeps.mkState (keeps_State_vtake ?_))

theorem keeps_execBar2Write {s0 : State} {port func off : Nat} {data : List Byte} {poisoned : Bool} {s : State}
    (h0 : Keeps s0 s) : KeepsO s0 (execBar2Write port func off data poisoned s) := by
  unfold execBar2Write
  repeat' (first
    | with_reducible assumption
    | with_reducible apply KeepsX.some
    | with_reducible exact KeepsX.none
    | with_reducible apply KeepsO.next
    | with_reducible exact KeepsO.fault
    | with_reducible apply KeepsE.ok
    | with_reducible exact KeepsE.error
    | with_reducible apply KeepsX.some
    | with_reducible exact KeepsX.none
    | with_reducible refine KeepsX.ite ?_ ?_
    | with_reducible refine KeepsO.ite ?_ ?_
    | with_reducible apply keeps_State_mapFunc
    | with_reducible apply keeps_State_vwrite
    | with_reducible refine Keeps.ite ?_ ?_
    | split
    | with_reducible intro _
    | dsimp only)

theorem keeps_State_failPkt {s0 : State} {s : State} {k : Pkt} {status : Nat}
    (h0 : Keeps s0 s) : Keeps s0 (State.failPkt s k status) := by
  unfold State.failPkt
  repeat' (first
    | with_reducible assumption
    | with_reducible apply keeps_State_fin)

theorem keeps_State_accepted {s0 : State} {s : State} {k : Pkt}
    (h0 : Keeps s0 s) : KeepsQ s0 (State.accepted s k) := by
  unfold State.accepted
  repeat' (first
    | with_reducible assumption
    | with_reducible refine KeepsQ.ite ?_ ?_
    | with_reducible apply KeepsQ.mk
    | with_reducible apply keeps_State_reply)

theorem keeps_State_accept {s0 : State} {s : State} {k : Pkt}
    (h0 : Keeps s0 s) : Keeps s0 (State.accept s k) := by
  unfold State.accept
  repeat' (first
    | with_reducible assumption
    | with_reducible refine KeepsQ.fst (keeps_State_accepted ?_)
    | with_reducible refine KeepsQ.out (keeps_State_accepted ?_) (by assumption)
    | with_reducible apply keeps_State_accepted
    | with_reducible apply keeps_State_mapRing)

theorem keeps_packet {s0 : State} {op port ring : Nat} {s : State} {body : Pkt → State → Option State} (h_body : ∀ (z0 : Pkt) (z1 : State), Keeps s0 z1 → KeepsX s0 (body z0 z1))
    (h0 : Keeps s0 s) : KeepsO s0 (packet op port ring s body) := by
  unfold packet
  repeat' (first
    | with_reducible assumption
    | with_reducible apply KeepsX.some
    | with_reducible exact KeepsX.none
    | with_reducible apply KeepsO.next
    | with_reducible exact KeepsO.fault
    | with_reducible apply KeepsE.ok
    | with_reducible exact KeepsE.error
    | with_reducible apply KeepsX.some
    | with_reducible exact KeepsX.none
    | with_reducible refine KeepsX.ite ?_ ?_
    | with_reducible refine KeepsO.ite ?_ ?_
    | with_reducible refine KeepsX.out (h_body _ _ ?_) (by assumption)
    | with_reducible apply h_body
    | with_reducible apply keeps_State_failPkt
    | with_reducible apply keeps_State_setRing
    | with_reducible refine Keeps.ite ?_ ?_
    | split
    | with_reducible intro _
    | dsimp only)

theorem keeps_State_read {s0 : State} {s : State} {k : Pkt} {addr n : Nat}
    (h0 : Keeps s0 s) : KeepsQ s0 (State.read s k addr n) := by
  unfold State.read
  repeat' (first
    | with_reducible assumption
    | with_reducible refine KeepsQ.ite ?_ ?_
    | with_reducible apply KeepsQ.mk
    | with_reducible apply keeps_State_bufTake)

theorem keeps_State_writeFin {s0 : State} {s : State} {k : Pkt} {addr : Nat} {bs : List Byte} {detail value : Nat}
    (h0 : Keeps s0 s) : Keeps s0 (State.writeFin s k addr bs detail value) := by
  unfold State.writeFin
  repeat' (first
    | with_reducible assumption
    | with_reducible refine KeepsE.out (keeps_State_bufWrite ?_) (by assumption)
    | with_reducible apply keeps_State_bufWrite
    | with_reducible apply keeps_State_failPkt
    | with_reducible apply keeps_State_fin
    | with_reducible refine Keeps.ite ?_ ?_
    | split)

theorem keeps_execIdentify {s0 : State} {port ring : Nat} {s : State}
    (h0 : Keeps s0 s) : KeepsO s0 (execIdentify port ring s) := by
  unfold execIdentify
  repeat' (first
    | with_reducible assumption
    | with_reducible apply KeepsX.some
    | with_reducible exact KeepsX.none
    | with_reducible apply KeepsO.next
    | with_reducible exact KeepsO.fault
    | with_reducible apply KeepsE.ok
    | with_reducible exact KeepsE.error
    | with_reducible apply KeepsX.some
    | with_reducible exact KeepsX.none
    | with_reducible refine KeepsX.ite ?_ ?_
    | with_reducible refine KeepsO.ite ?_ ?_
    | with_reducible apply keeps_State_fin
    | with_reducible apply keeps_packet
    | with_reducible apply keeps_State_writeFin
    | with_reducible refine Keeps.ite ?_ ?_
    | split
    | with_reducible intro _)

theorem keeps_execGetCaps {s0 : State} {port ring : Nat} {s : State}
    (h0 : Keeps s0 s) : KeepsO s0 (execGetCaps port ring s) := by
  unfold execGetCaps
  repeat' (first
    | with_reducible assumption
    | with_reducible apply KeepsX.some
    | with_reducible exact KeepsX.none
    | with_reducible apply KeepsO.next
    | with_reducible exact KeepsO.fault
    | with_reducible apply KeepsE.ok
    | with_reducible exact KeepsE.error
    | with_reducible apply KeepsX.some
    | with_reducible exact KeepsX.none
    | with_reducible refine KeepsX.ite ?_ ?_
    | with_reducible refine KeepsO.ite ?_ ?_
    | with_reducible apply keeps_State_failPkt
    | with_reducible apply keeps_packet
    | with_reducible apply keeps_State_writeFin
    | with_reducible refine Keeps.ite ?_ ?_
    | split
    | with_reducible intro _)

theorem keeps_execSetPowerCap {s0 : State} {port ring : Nat} {s : State}
    (h0 : Keeps s0 s) : KeepsO s0 (execSetPowerCap port ring s) := by
  unfold execSetPowerCap
  repeat' (first
    | with_reducible assumption
    | with_reducible apply KeepsX.some
    | with_reducible exact KeepsX.none
    | with_reducible apply KeepsO.next
    | with_reducible exact KeepsO.fault
    | with_reducible apply KeepsE.ok
    | with_reducible exact KeepsE.error
    | with_reducible apply KeepsX.some
    | with_reducible exact KeepsX.none
    | with_reducible refine KeepsX.ite ?_ ?_
    | with_reducible refine KeepsO.ite ?_ ?_
    | with_reducible apply keeps_State_failPkt
    | with_reducible apply keeps_State_fin
    | with_reducible apply keeps_packet
    | with_reducible refine KeepsP.snd (keeps_State_setCap ?_)
    | with_reducible refine KeepsP.out (keeps_State_setCap ?_) (by assumption)
    | with_reducible apply keeps_State_setCap
    | with_reducible refine Keeps.ite ?_ ?_
    | split
    | with_reducible intro _)

theorem keeps_State_moveRole {s0 : State} {s : State} {port : Nat}
    (h0 : Keeps s0 s) : Keeps s0 (State.moveRole s port) := by
  unfold State.moveRole
  repeat' (first
    | with_reducible assumption
    | with_reducible refine Keeps.ite ?_ ?_
    | split
    | with_reducible intro _
    | dsimp only
    | with_reducible refine Keeps.mkState (by with_reducible assumption))

theorem keeps_execGrantMgmt {s0 : State} {port ring : Nat} {s : State}
    (h0 : Keeps s0 s) : KeepsO s0 (execGrantMgmt port ring s) := by
  unfold execGrantMgmt
  repeat' (first
    | with_reducible assumption
    | with_reducible apply KeepsX.some
    | with_reducible exact KeepsX.none
    | with_reducible apply KeepsO.next
    | with_reducible exact KeepsO.fault
    | with_reducible apply KeepsE.ok
    | with_reducible exact KeepsE.error
    | with_reducible apply KeepsX.some
    | with_reducible exact KeepsX.none
    | with_reducible refine KeepsX.ite ?_ ?_
    | with_reducible refine KeepsO.ite ?_ ?_
    | with_reducible apply keeps_State_failPkt
    | with_reducible apply keeps_State_fin
    | with_reducible apply keeps_State_moveRole
    | with_reducible apply keeps_packet
    | with_reducible refine Keeps.ite ?_ ?_
    | split
    | with_reducible intro _)

theorem keeps_execPowerState {s0 : State} {port ring : Nat} {s : State}
    (h0 : Keeps s0 s) : KeepsO s0 (execPowerState port ring s) := by
  unfold execPowerState
  repeat' (first
    | with_reducible assumption
    | with_reducible apply KeepsX.some
    | with_reducible exact KeepsX.none
    | with_reducible apply KeepsO.next
    | with_reducible exact KeepsO.fault
    | with_reducible apply KeepsE.ok
    | with_reducible exact KeepsE.error
    | with_reducible apply KeepsX.some
    | with_reducible exact KeepsX.none
    | with_reducible refine KeepsX.ite ?_ ?_
    | with_reducible refine KeepsO.ite ?_ ?_
    | with_reducible apply keeps_State_fin
    | with_reducible apply keeps_packet
    | with_reducible refine Keeps.ite ?_ ?_
    | split
    | with_reducible intro _)

theorem keeps_State_abandonTests {s0 : State} {s : State} {cs : List Nat}
    (h0 : Keeps s0 s) : Keeps s0 (State.abandonTests s cs) := by
  unfold State.abandonTests
  repeat' (first
    | with_reducible assumption
    | with_reducible apply keeps_State_skipped
    | with_reducible refine Keeps.ite ?_ ?_
    | split
    | with_reducible intro _
    | dsimp only
    | with_reducible refine Keeps.mkState (by with_reducible assumption))

theorem keeps_State_giveClusters {s0 : State} {s : State} {p : Nat} {c : Create}
    (h0 : Keeps s0 s) : Keeps s0 (State.giveClusters s p c) := by
  unfold State.giveClusters
  repeat' (first
    | with_reducible assumption
    | with_reducible apply KeepsX.some
    | with_reducible exact KeepsX.none
    | with_reducible refine KeepsX.ite ?_ ?_
    | with_reducible apply Keeps.foldl
    | with_reducible apply Keeps.foldlQ
    | with_reducible apply Keeps.foldlP
    | with_reducible apply keeps_State_abandonTests
    | with_reducible apply keeps_State_mapCore
    | with_reducible apply keeps_State_scrubCore
    | with_reducible apply keeps_State_setCluster
    | with_reducible refine Keeps.ite ?_ ?_
    | split
    | with_reducible intro _)

theorem keeps_execPartCreate {s0 : State} {port ring : Nat} {s : State}
    (h0 : Keeps s0 s) : KeepsO s0 (execPartCreate port ring s) := by
  unfold execPartCreate
  repeat' (first
    | with_reducible assumption
    | with_reducible apply KeepsX.some
    | with_reducible exact KeepsX.none
    | with_reducible apply KeepsO.next
    | with_reducible exact KeepsO.fault
    | with_reducible apply KeepsE.ok
    | with_reducible exact KeepsE.error
    | with_reducible apply KeepsX.some
    | with_reducible exact KeepsX.none
    | with_reducible refine KeepsX.ite ?_ ?_
    | with_reducible refine KeepsO.ite ?_ ?_
    | with_reducible apply keeps_State_failPkt
    | with_reducible apply keeps_State_fin
    | with_reducible apply keeps_State_giveClusters
    | with_reducible apply keeps_packet
    | with_reducible apply keeps_State_setPart
    | with_reducible refine Keeps.ite ?_ ?_
    | split
    | with_reducible intro _
    | dsimp only
    | with_reducible refine Keeps.mkState (by with_reducible assumption)
    | with_reducible refine Keeps.mkState (keeps_State_failPkt ?_)
    | with_reducible refine Keeps.mkState (keeps_State_fin ?_)
    | with_reducible refine Keeps.mkState (keeps_State_giveClusters ?_)
    | with_reducible refine Keeps.mkState (keeps_State_setPart ?_))

theorem keeps_execPartDestroy {s0 : State} {port ring : Nat} {s : State}
    (h0 : Keeps s0 s) : KeepsO s0 (execPartDestroy port ring s) := by
  unfold execPartDestroy
  repeat' (first
    | with_reducible assumption
    | with_reducible apply KeepsX.some
    | with_reducible exact KeepsX.none
    | with_reducible apply KeepsO.next
    | with_reducible exact KeepsO.fault
    | with_reducible apply KeepsE.ok
    | with_reducible exact KeepsE.error
    | with_reducible apply KeepsX.some
    | with_reducible exact KeepsX.none
    | with_reducible refine KeepsX.ite ?_ ?_
    | with_reducible refine KeepsO.ite ?_ ?_
    | with_reducible apply keeps_State_accept
    | with_reducible apply keeps_State_killPart
    | with_reducible apply keeps_State_mapPart
    | with_reducible apply keeps_packet
    | with_reducible refine Keeps.ite ?_ ?_
    | split
    | with_reducible intro _)

theorem keeps_execPartQuery {s0 : State} {port ring : Nat} {s : State}
    (h0 : Keeps s0 s) : KeepsO s0 (execPartQuery port ring s) := by
  unfold execPartQuery
  repeat' (first
    | with_reducible assumption
    | with_reducible apply KeepsX.some
    | with_reducible exact KeepsX.none
    | with_reducible apply KeepsO.next
    | with_reducible exact KeepsO.fault
    | with_reducible apply KeepsE.ok
    | with_reducible exact KeepsE.error
    | with_reducible apply KeepsX.some
    | with_reducible exact KeepsX.none
    | with_reducible refine KeepsX.ite ?_ ?_
    | with_reducible refine KeepsO.ite ?_ ?_
    | with_reducible apply keeps_State_fin
    | with_reducible apply keeps_packet
    | with_reducible apply keeps_State_writeFin
    | with_reducible refine Keeps.ite ?_ ?_
    | split
    | with_reducible intro _)

theorem keeps_State_mapAll {s0 : State} {s : State} {k : Pkt} {pages : List (Nat × Nat)}
    (h0 : Keeps s0 s) : Keeps s0 (State.mapAll s k pages) := by
  unfold State.mapAll
  repeat' (first
    | with_reducible assumption
    | with_reducible apply Keeps.foldl
    | with_reducible apply Keeps.foldlQ
    | with_reducible apply Keeps.foldlP
    | with_reducible apply keeps_State_mapPart)

theorem keeps_execMapPages {s0 : State} {port ring : Nat} {s : State}
    (h0 : Keeps s0 s) : KeepsO s0 (execMapPages port ring s) := by
  unfold execMapPages
  repeat' (first
    | with_reducible assumption
    | with_reducible apply KeepsX.some
    | with_reducible exact KeepsX.none
    | with_reducible apply KeepsO.next
    | with_reducible exact KeepsO.fault
    | with_reducible apply KeepsE.ok
    | with_reducible exact KeepsE.error
    | with_reducible apply KeepsX.some
    | with_reducible exact KeepsX.none
    | with_reducible refine KeepsX.ite ?_ ?_
    | with_reducible refine KeepsO.ite ?_ ?_
    | with_reducible apply keeps_State_failPkt
    | with_reducible apply keeps_State_fin
    | with_reducible apply keeps_State_invalidate
    | with_reducible apply keeps_State_mapAll
    | with_reducible apply keeps_packet
    | with_reducible refine KeepsQ.fst (keeps_State_read ?_)
    | with_reducible refine KeepsQ.out (keeps_State_read ?_) (by assumption)
    | with_reducible apply keeps_State_read
    | with_reducible refine KeepsQ.out (KeepsQ.mk ?_) (by assumption)
    | with_reducible refine KeepsQ.out (KeepsQ.ite (KeepsQ.mk ?_) (keeps_State_read ?_)) (by assumption)
    | with_reducible refine Keeps.ite ?_ ?_
    | split
    | with_reducible intro _
    | dsimp only)

theorem keeps_execUnmap {s0 : State} {port ring : Nat} {s : State}
    (h0 : Keeps s0 s) : KeepsO s0 (execUnmap port ring s) := by
  unfold execUnmap
  repeat' (first
    | with_reducible assumption
    | with_reducible apply KeepsX.some
    | with_reducible exact KeepsX.none
    | with_reducible apply KeepsO.next
    | with_reducible exact KeepsO.fault
    | with_reducible apply KeepsE.ok
    | with_reducible exact KeepsE.error
    | with_reducible apply KeepsX.some
    | with_reducible exact KeepsX.none
    | with_reducible refine KeepsX.ite ?_ ?_
    | with_reducible refine KeepsO.ite ?_ ?_
    | with_reducible apply keeps_State_failPkt
    | with_reducible apply keeps_State_fin
    | with_reducible apply keeps_State_invalidate
    | with_reducible apply keeps_packet
    | with_reducible apply keeps_State_setPart
    | with_reducible refine Keeps.ite ?_ ?_
    | split
    | with_reducible intro _)

theorem keeps_State_stopPage {s0 : State} {s : State} {p : Nat} {covers : Nat → Bool}
    (h0 : Keeps s0 s) : KeepsQ s0 (State.stopPage s p covers) := by
  unfold State.stopPage
  repeat' (first
    | with_reducible assumption
    | with_reducible refine KeepsQ.ite ?_ ?_
    | with_reducible apply KeepsQ.mk
    | with_reducible apply Keeps.foldl
    | with_reducible apply Keeps.foldlQ
    | with_reducible apply Keeps.foldlP
    | with_reducible apply keeps_State_faultCtx
    | with_reducible apply keeps_State_mapCore
    | with_reducible refine Keeps.ite ?_ ?_
    | split
    | with_reducible intro _
    | dsimp only)

theorem keeps_execFaultResolve {s0 s : State} {port ring : Nat} (h0 : Keeps s0 s) : KeepsO s0 (execFaultResolve port ring s) := by
  unfold execFaultResolve
  refine keeps_packet ?_ h0
  intro k u hu
  dsimp only
  split
  · exact KeepsX.some (keeps_State_failPkt hu)
  · refine KeepsX.some (keeps_State_fin (keeps_State_partEvent (keeps_State_admitFaults ?_)))
    split
    · exact keeps_State_stopPage (keeps_State_mapPart hu)
    · exact keeps_State_resumePage (keeps_State_mapPart hu)

theorem keeps_State_setProgress {s0 : State} {s : State} {p : Nat} {op : Nat × Nat × Nat} {n : Nat}
    (h0 : Keeps s0 s) : Keeps s0 (State.setProgress s p op n) := by
  unfold State.setProgress
  repeat' (first
    | with_reducible assumption
    | with_reducible apply KeepsX.some
    | with_reducible exact KeepsX.none
    | with_reducible refine KeepsX.ite ?_ ?_
    | with_reducible apply keeps_State_mapPart)

theorem keeps_State_startProgress {s0 : State} {s : State} {p : Nat} {op : Nat × Nat × Nat}
    (h0 : Keeps s0 s) : Keeps s0 (State.startProgress s p op) := by
  unfold State.startProgress
  repeat' (first
    | with_reducible assumption
    | with_reducible apply KeepsX.some
    | with_reducible exact KeepsX.none
    | with_reducible refine KeepsX.ite ?_ ?_
    | with_reducible apply keeps_State_mapPart)

theorem keeps_execLoadStreams {s0 : State} {port ring : Nat} {s : State}
    (h0 : Keeps s0 s) : KeepsO s0 (execLoadStreams port ring s) := by
  unfold execLoadStreams
  repeat' (first
    | with_reducible assumption
    | with_reducible apply KeepsX.some
    | with_reducible exact KeepsX.none
    | with_reducible apply KeepsO.next
    | with_reducible exact KeepsO.fault
    | with_reducible apply KeepsE.ok
    | with_reducible exact KeepsE.error
    | with_reducible apply KeepsX.some
    | with_reducible exact KeepsX.none
    | with_reducible refine KeepsX.ite ?_ ?_
    | with_reducible refine KeepsO.ite ?_ ?_
    | with_reducible apply keeps_State_accept
    | with_reducible apply keeps_State_failPkt
    | with_reducible apply keeps_State_mapPart
    | with_reducible apply keeps_packet
    | with_reducible apply keeps_State_partEvent
    | with_reducible apply keeps_State_startProgress
    | with_reducible refine Keeps.ite ?_ ?_
    | split
    | with_reducible intro _)

theorem keeps_State_loadCore {s0 : State} {s : State} {k : Pkt} {i : Nat}
    (h0 : Keeps s0 s) : KeepsE s0 (State.loadCore s k i) := by
  unfold State.loadCore
  repeat' (first
    | with_reducible assumption
    | with_reducible apply KeepsO.next
    | with_reducible exact KeepsO.fault
    | with_reducible apply KeepsE.ok
    | with_reducible exact KeepsE.error
    | with_reducible apply KeepsX.some
    | with_reducible exact KeepsX.none
    | with_reducible refine KeepsX.ite ?_ ?_
    | with_reducible apply keeps_State_bufTake
    | with_reducible apply keeps_State_wrBads
    | with_reducible refine Keeps.ite ?_ ?_
    | split
    | with_reducible intro _
    | dsimp only)

theorem keeps_State_loadRun {s0 s : State} {k : Pkt} {n i : Nat} (h0 : Keeps s0 s) : KeepsQ s0 (State.loadRun s k n i) := by
  induction n generalizing s i with
  | zero => exact h0
  | succ n ih =>
    unfold State.loadRun
    split
    · exact KeepsQ.mk (Keeps.ite (keeps_State_mapCore h0) (Keeps.ite h0 (keeps_State_bufTake h0)))
    · next s1 e => exact ih (KeepsE.out (keeps_State_loadCore h0) e)

theorem keeps_execLoadStreamsComplete {s0 : State} {port ring : Nat} {s : State}
    (h0 : Keeps s0 s) : KeepsO s0 (execLoadStreamsComplete port ring s) := by
  unfold execLoadStreamsComplete
  repeat' (first
    | with_reducible assumption
    | with_reducible apply KeepsX.some
    | with_reducible exact KeepsX.none
    | with_reducible apply KeepsO.next
    | with_reducible exact KeepsO.fault
    | with_reducible apply KeepsE.ok
    | with_reducible exact KeepsE.error
    | with_reducible apply KeepsX.some
    | with_reducible exact KeepsX.none
    | with_reducible refine KeepsX.ite ?_ ?_
    | with_reducible refine KeepsO.ite ?_ ?_
    | with_reducible apply keeps_State_finishLong
    | with_reducible apply keeps_State_mapCore
    | with_reducible apply keeps_State_setProgress
    | with_reducible refine KeepsQ.fst (keeps_State_loadRun ?_)
    | with_reducible refine Keeps.ite ?_ ?_
    | split
    | with_reducible intro _
    | dsimp only)

theorem keeps_State_recsTake {s0 : State} {s : State} {port ring recAddr stride n : Nat}
    (h0 : Keeps s0 s) : Keeps s0 (State.recsTake s port ring recAddr stride n) := by
  unfold State.recsTake
  repeat' (first
    | with_reducible assumption
    | with_reducible apply Keeps.foldl
    | with_reducible apply Keeps.foldlQ
    | with_reducible apply Keeps.foldlP
    | with_reducible apply keeps_State_bufTake
    | with_reducible refine Keeps.ite ?_ ?_
    | split
    | with_reducible intro _)

theorem keeps_State_firstImage {s0 : State} {s : State} {core lctx : Nat}
    (h0 : Keeps s0 s) : Keeps s0 (State.firstImage s core lctx) := by
  unfold State.firstImage
  repeat' (first
    | with_reducible assumption
    | with_reducible apply KeepsX.some
    | with_reducible exact KeepsX.none
    | with_reducible refine KeepsX.ite ?_ ?_
    | with_reducible apply keeps_State_mapCore
    | with_reducible apply keeps_State_writeImage
    | with_reducible refine Keeps.ite ?_ ?_
    | split)

theorem keeps_State_startAll {s0 : State} {s : State} {p lctx : Nat} {v2 : Bool} {xs : List (Nat × List Byte)}
    (h0 : Keeps s0 s) : Keeps s0 (State.startAll s p lctx v2 xs) := by
  unfold State.startAll
  repeat' (first
    | with_reducible assumption
    | with_reducible apply Keeps.foldl
    | with_reducible apply Keeps.foldlQ
    | with_reducible apply Keeps.foldlP
    | with_reducible apply keeps_State_firstImage
    | with_reducible apply keeps_State_mapCore
    | with_reducible refine Keeps.ite ?_ ?_
    | split
    | with_reducible intro _)

theorem keeps_State_begin {s0 : State} {s : State} {k : Pkt} {xs : List (Nat × List Byte)}
    (h0 : Keeps s0 s) : Keeps s0 (State.begin s k xs) := by
  unfold State.begin
  repeat' (first
    | with_reducible assumption
    | with_reducible refine KeepsQ.fst (keeps_State_accepted ?_)
    | with_reducible refine KeepsQ.out (keeps_State_accepted ?_) (by assumption)
    | with_reducible apply keeps_State_accepted
    | with_reducible apply keeps_State_mapPart
    | with_reducible apply keeps_State_partEvent
    | with_reducible apply keeps_State_startAll)

theorem keeps_execLaunch {s0 : State} {port ring : Nat} {s : State}
    (h0 : Keeps s0 s) : KeepsO s0 (execLaunch port ring s) := by
  unfold execLaunch
  repeat' (first
    | with_reducible assumption
    | with_reducible apply KeepsX.some
    | with_reducible exact KeepsX.none
    | with_reducible apply KeepsO.next
    | with_reducible exact KeepsO.fault
    | with_reducible apply KeepsE.ok
    | with_reducible exact KeepsE.error
    | with_reducible apply KeepsX.some
    | with_reducible exact KeepsX.none
    | with_reducible refine KeepsX.ite ?_ ?_
    | with_reducible refine KeepsO.ite ?_ ?_
    | with_reducible apply keeps_State_begin
    | with_reducible apply keeps_State_failPkt
    | with_reducible apply keeps_packet
    | with_reducible apply keeps_State_recsTake
    | with_reducible refine Keeps.ite ?_ ?_
    | split
    | with_reducible intro _)

theorem keeps_execPreempt {s0 : State} {port ring : Nat} {s : State}
    (h0 : Keeps s0 s) : KeepsO s0 (execPreempt port ring s) := by
  unfold execPreempt
  repeat' (first
    | with_reducible assumption
    | with_reducible apply KeepsX.some
    | with_reducible exact KeepsX.none
    | with_reducible apply KeepsO.next
    | with_reducible exact KeepsO.fault
    | with_reducible apply KeepsE.ok
    | with_reducible exact KeepsE.error
    | with_reducible apply KeepsX.some
    | with_reducible exact KeepsX.none
    | with_reducible refine KeepsX.ite ?_ ?_
    | with_reducible refine KeepsO.ite ?_ ?_
    | with_reducible apply Keeps.foldl
    | with_reducible apply Keeps.foldlQ
    | with_reducible apply Keeps.foldlP
    | with_reducible apply keeps_State_failPkt
    | with_reducible apply keeps_State_fin
    | with_reducible apply keeps_State_mapCore
    | with_reducible apply keeps_State_mapPart
    | with_reducible apply keeps_State_mapRing
    | with_reducible apply keeps_packet
    | with_reducible apply keeps_State_partEvent
    | with_reducible apply Keeps.ofId
    | with_reducible refine Keeps.ite ?_ ?_
    | split
    | with_reducible intro _)

theorem keeps_execResume {s0 : State} {port ring : Nat} {s : State}
    (h0 : Keeps s0 s) : KeepsO s0 (execResume port ring s) := by
  unfold execResume
  repeat' (first
    | with_reducible assumption
    | with_reducible apply KeepsX.some
    | with_reducible exact KeepsX.none
    | with_reducible apply KeepsO.next
    | with_reducible exact KeepsO.fault
    | with_reducible apply KeepsE.ok
    | with_reducible exact KeepsE.error
    | with_reducible apply KeepsX.some
    | with_reducible exact KeepsX.none
    | with_reducible refine KeepsX.ite ?_ ?_
    | with_reducible refine KeepsO.ite ?_ ?_
    | with_reducible apply Keeps.foldl
    | with_reducible apply Keeps.foldlQ
    | with_reducible apply Keeps.foldlP
    | with_reducible apply keeps_State_failPkt
    | with_reducible apply keeps_State_fin
    | with_reducible apply keeps_State_mapCore
    | with_reducible apply keeps_packet
    | with_reducible refine Keeps.ite ?_ ?_
    | split
    | with_reducible intro _)

theorem keeps_execStepBegin {s0 : State} {port ring : Nat} {s : State}
    (h0 : Keeps s0 s) : KeepsO s0 (execStepBegin port ring s) := by
  unfold execStepBegin
  repeat' (first
    | with_reducible assumption
    | with_reducible apply KeepsX.some
    | with_reducible exact KeepsX.none
    | with_reducible apply KeepsO.next
    | with_reducible exact KeepsO.fault
    | with_reducible apply KeepsE.ok
    | with_reducible exact KeepsE.error
    | with_reducible apply KeepsX.some
    | with_reducible exact KeepsX.none
    | with_reducible refine KeepsX.ite ?_ ?_
    | with_reducible refine KeepsO.ite ?_ ?_
    | with_reducible apply Keeps.foldl
    | with_reducible apply Keeps.foldlQ
    | with_reducible apply Keeps.foldlP
    | with_reducible apply keeps_State_accept
    | with_reducible apply keeps_State_endStepBegin
    | with_reducible apply keeps_State_failPkt
    | with_reducible apply keeps_State_mapColl
    | with_reducible apply keeps_State_mapCore
    | with_reducible apply keeps_packet
    | with_reducible apply keeps_State_partEvent
    | with_reducible apply keeps_State_startProgress
    | with_reducible refine Keeps.ite ?_ ?_
    | split
    | with_reducible intro _)

theorem keeps_execStepStatus {s0 : State} {port ring : Nat} {s : State}
    (h0 : Keeps s0 s) : KeepsO s0 (execStepStatus port ring s) := by
  unfold execStepStatus
  repeat' (first
    | with_reducible assumption
    | with_reducible apply KeepsX.some
    | with_reducible exact KeepsX.none
    | with_reducible apply KeepsO.next
    | with_reducible exact KeepsO.fault
    | with_reducible apply KeepsE.ok
    | with_reducible exact KeepsE.error
    | with_reducible apply KeepsX.some
    | with_reducible exact KeepsX.none
    | with_reducible refine KeepsX.ite ?_ ?_
    | with_reducible refine KeepsO.ite ?_ ?_
    | with_reducible apply keeps_State_fin
    | with_reducible apply keeps_packet
    | with_reducible refine Keeps.ite ?_ ?_
    | split
    | with_reducible intro _)

theorem keeps_State_loadPeers {s0 : State} {s : State} {p : Nat} {es : List (List Byte)}
    (h0 : Keeps s0 s) : Keeps s0 (State.loadPeers s p es) := by
  unfold State.loadPeers
  repeat' (first
    | with_reducible assumption
    | with_reducible apply KeepsX.some
    | with_reducible exact KeepsX.none
    | with_reducible refine KeepsX.ite ?_ ?_
    | with_reducible refine Keeps.getD ?_ ?_
    | with_reducible apply Keeps.foldl
    | with_reducible apply Keeps.foldlQ
    | with_reducible apply Keeps.foldlP
    | with_reducible apply keeps_State_mapPeer
    | with_reducible apply keeps_State_removePeer
    | with_reducible refine Keeps.ite ?_ ?_
    | split
    | with_reducible intro _)

theorem keeps_execPeerTableSet {s0 : State} {port ring : Nat} {s : State}
    (h0 : Keeps s0 s) : KeepsO s0 (execPeerTableSet port ring s) := by
  unfold execPeerTableSet
  repeat' (first
    | with_reducible assumption
    | with_reducible apply KeepsX.some
    | with_reducible exact KeepsX.none
    | with_reducible apply KeepsO.next
    | with_reducible exact KeepsO.fault
    | with_reducible apply KeepsE.ok
    | with_reducible exact KeepsE.error
    | with_reducible apply KeepsX.some
    | with_reducible exact KeepsX.none
    | with_reducible refine KeepsX.ite ?_ ?_
    | with_reducible refine KeepsO.ite ?_ ?_
    | with_reducible apply keeps_State_failPkt
    | with_reducible apply keeps_State_fin
    | with_reducible apply keeps_State_loadPeers
    | with_reducible apply keeps_State_mapFab
    | with_reducible apply keeps_packet
    | with_reducible refine KeepsQ.fst (keeps_State_read ?_)
    | with_reducible refine KeepsQ.out (keeps_State_read ?_) (by assumption)
    | with_reducible apply keeps_State_read
    | with_reducible refine KeepsQ.out (KeepsQ.mk ?_) (by assumption)
    | with_reducible refine KeepsQ.out (KeepsQ.ite (KeepsQ.mk ?_) (keeps_State_read ?_)) (by assumption)
    | with_reducible refine Keeps.ite ?_ ?_
    | split
    | with_reducible intro _
    | dsimp only)

theorem keeps_execServeConfig {s0 : State} {port ring : Nat} {s : State}
    (h0 : Keeps s0 s) : KeepsO s0 (execServeConfig port ring s) := by
  unfold execServeConfig
  repeat' (first
    | with_reducible assumption
    | with_reducible apply KeepsX.some
    | with_reducible exact KeepsX.none
    | with_reducible apply KeepsO.next
    | with_reducible exact KeepsO.fault
    | with_reducible apply KeepsE.ok
    | with_reducible exact KeepsE.error
    | with_reducible apply KeepsX.some
    | with_reducible exact KeepsX.none
    | with_reducible refine KeepsX.ite ?_ ?_
    | with_reducible refine KeepsO.ite ?_ ?_
    | with_reducible apply keeps_State_failPkt
    | with_reducible apply keeps_State_fin
    | with_reducible apply keeps_packet
    | with_reducible apply keeps_State_setServe
    | with_reducible apply keeps_State_vwrite
    | with_reducible refine Keeps.ite ?_ ?_
    | split
    | with_reducible intro _
    | dsimp only
    | with_reducible refine Keeps.mkState (by with_reducible assumption))

theorem keeps_execServeBatch {s0 : State} {port ring : Nat} {s : State}
    (h0 : Keeps s0 s) : KeepsO s0 (execServeBatch port ring s) := by
  unfold execServeBatch
  repeat' (first
    | with_reducible assumption
    | with_reducible apply KeepsX.some
    | with_reducible exact KeepsX.none
    | with_reducible apply KeepsO.next
    | with_reducible exact KeepsO.fault
    | with_reducible apply KeepsE.ok
    | with_reducible exact KeepsE.error
    | with_reducible apply KeepsX.some
    | with_reducible exact KeepsX.none
    | with_reducible refine KeepsX.ite ?_ ?_
    | with_reducible refine KeepsO.ite ?_ ?_
    | with_reducible apply keeps_State_failPkt
    | with_reducible apply keeps_State_fin
    | with_reducible apply keeps_packet
    | with_reducible refine KeepsQ.fst (keeps_State_read ?_)
    | with_reducible refine KeepsQ.out (keeps_State_read ?_) (by assumption)
    | with_reducible apply keeps_State_read
    | with_reducible apply keeps_State_setServe
    | with_reducible refine KeepsQ.out (KeepsQ.mk ?_) (by assumption)
    | with_reducible refine KeepsQ.out (KeepsQ.ite (KeepsQ.mk ?_) (keeps_State_read ?_)) (by assumption)
    | with_reducible refine Keeps.ite ?_ ?_
    | split
    | with_reducible intro _
    | dsimp only)

end Sys2Proof.Machine
end

