-- ==== Sys2Proof/Laws/KeepsSystem.lean ====
section
/-! SUPPORT. That the queue and the canonical form of memory are kept by faults, host ports, boot, the larder, the selector, supplies, the
registers, the control core, the mesh and the tick: one lemma for each operation. -/

-- One proof at a time: the thread of every theorem of a large file would not fit in memory.
set_option Elab.async false

namespace Sys2Proof.Machine

open Sys2Proof

theorem keeps_State_mapFlt {s0 : State} {s : State} {f : Flt → Flt}
    (h0 : Keeps s0 s) : Keeps s0 (State.mapFlt s f) := by
  unfold State.mapFlt
  repeat' (first
    | with_reducible assumption
    | with_reducible refine Keeps.ite ?_ ?_
    | split
    | with_reducible intro _
    | dsimp only
    | with_reducible refine Keeps.mkState (by with_reducible assumption))

theorem keeps_State_loseCore {s0 : State} {s : State} {core : Nat}
    (h0 : Keeps s0 s) : Keeps s0 (State.loseCore s core) := by
  unfold State.loseCore
  repeat' (first
    | with_reducible assumption
    | with_reducible apply KeepsX.some
    | with_reducible exact KeepsX.none
    | with_reducible refine KeepsX.ite ?_ ?_
    | with_reducible refine Keeps.getD ?_ ?_
    | with_reducible apply Keeps.foldl
    | with_reducible apply Keeps.foldlQ
    | with_reducible apply Keeps.foldlP
    | with_reducible apply keeps_State_castVote
    | with_reducible apply keeps_State_endOne
    | with_reducible apply keeps_State_inField
    | with_reducible apply keeps_State_killAll
    | with_reducible apply keeps_State_killPart
    | with_reducible apply keeps_State_mapCore
    | with_reducible apply keeps_State_mapFlt
    | with_reducible apply keeps_State_mapPart
    | with_reducible apply keeps_State_noteRevoke
    | with_reducible apply keeps_State_setCluster
    | with_reducible refine Keeps.ite ?_ ?_
    | split
    | with_reducible intro _
    | dsimp only)

theorem keeps_execCoreLoss {s0 : State} {core : Nat} {s : State}
    (h0 : Keeps s0 s) : KeepsO s0 (execCoreLoss core s) := by
  unfold execCoreLoss
  repeat' (first
    | with_reducible assumption
    | with_reducible apply KeepsO.next
    | with_reducible exact KeepsO.fault
    | with_reducible apply KeepsE.ok
    | with_reducible exact KeepsE.error
    | with_reducible apply KeepsX.some
    | with_reducible exact KeepsX.none
    | with_reducible refine KeepsO.ite ?_ ?_
    | with_reducible apply keeps_State_loseCore)

theorem keeps_execHeartbeatMiss {s0 : State} {core : Nat} {s : State}
    (h0 : Keeps s0 s) : KeepsO s0 (execHeartbeatMiss core s) := by
  unfold execHeartbeatMiss
  repeat' (first
    | with_reducible assumption
    | with_reducible apply KeepsO.next
    | with_reducible exact KeepsO.fault
    | with_reducible apply KeepsE.ok
    | with_reducible exact KeepsE.error
    | with_reducible apply KeepsX.some
    | with_reducible exact KeepsX.none
    | with_reducible refine KeepsO.ite ?_ ?_
    | with_reducible apply keeps_State_loseCore)

theorem keeps_execRouterStall {s0 : State} {core : Nat} {s : State}
    (h0 : Keeps s0 s) : KeepsO s0 (execRouterStall core s) := by
  unfold execRouterStall
  repeat' (first
    | with_reducible assumption
    | with_reducible apply KeepsO.next
    | with_reducible exact KeepsO.fault
    | with_reducible apply KeepsE.ok
    | with_reducible exact KeepsE.error
    | with_reducible apply KeepsX.some
    | with_reducible exact KeepsX.none
    | with_reducible refine KeepsO.ite ?_ ?_
    | with_reducible apply keeps_State_loseCore)

theorem keeps_execArrayFault {s0 : State} {core array : Nat} {parity : Bool} {s : State}
    (h0 : Keeps s0 s) : KeepsO s0 (execArrayFault core array parity s) := by
  unfold execArrayFault
  repeat' (first
    | with_reducible assumption
    | with_reducible apply KeepsO.next
    | with_reducible exact KeepsO.fault
    | with_reducible apply KeepsE.ok
    | with_reducible exact KeepsE.error
    | with_reducible apply KeepsX.some
    | with_reducible exact KeepsX.none
    | with_reducible refine KeepsO.ite ?_ ?_
    | with_reducible apply keeps_State_loseCore
    | with_reducible apply keeps_State_mapCore
    | with_reducible refine Keeps.ite ?_ ?_)

theorem keeps_execRowTestComplete {s0 : State} {core array : Nat} {row : Option Nat} {s : State}
    (h0 : Keeps s0 s) : KeepsO s0 (execRowTestComplete core array row s) := by
  unfold execRowTestComplete
  repeat' (first
    | with_reducible assumption
    | with_reducible apply KeepsX.some
    | with_reducible exact KeepsX.none
    | with_reducible apply KeepsO.next
    | with_reducible exact KeepsO.fault
    | with_reducible apply KeepsE.ok
    | with_reducible exact KeepsE.error
    | with_reducible apply KeepsX.some
    | with_reducible exact KeepsX.none
    | with_reducible refine KeepsX.ite ?_ ?_
    | with_reducible refine KeepsO.ite ?_ ?_
    | with_reducible apply keeps_State_inField
    | with_reducible apply keeps_State_loseCore
    | with_reducible apply keeps_State_mapCore
    | with_reducible refine Keeps.ite ?_ ?_
    | split)

theorem keeps_State_recovered {s0 : State} {s : State} {core part at' : Nat}
    (h0 : Keeps s0 s) : Keeps s0 (State.recovered s core part at') := by
  unfold State.recovered
  repeat' (first
    | with_reducible assumption
    | with_reducible apply keeps_State_faultRecord)

theorem keeps_execRouteUpdateEnd {s0 : State} {s : State}
    (h0 : Keeps s0 s) : KeepsO s0 (execRouteUpdateEnd s) := by
  unfold execRouteUpdateEnd
  repeat' (first
    | with_reducible assumption
    | with_reducible apply KeepsO.next
    | with_reducible exact KeepsO.fault
    | with_reducible apply KeepsE.ok
    | with_reducible exact KeepsE.error
    | with_reducible apply KeepsX.some
    | with_reducible exact KeepsX.none
    | with_reducible refine KeepsO.ite ?_ ?_
    | with_reducible apply Keeps.foldl
    | with_reducible apply Keeps.foldlQ
    | with_reducible apply Keeps.foldlP
    | with_reducible apply keeps_State_fin
    | with_reducible apply keeps_State_mapCore
    | with_reducible apply keeps_State_mapFlt
    | with_reducible apply keeps_State_recovered
    | with_reducible refine Keeps.ite ?_ ?_
    | split
    | with_reducible intro _)

theorem keeps_State_replayLoads {s0 : State} {s : State} {p core : Nat}
    (h0 : Keeps s0 s) : Keeps s0 (State.replayLoads s p core) := by
  unfold State.replayLoads
  repeat' (first
    | with_reducible assumption
    | with_reducible apply Keeps.foldl
    | with_reducible apply Keeps.foldlQ
    | with_reducible apply Keeps.foldlP
    | with_reducible refine KeepsE.out (keeps_State_loadCore ?_) (by assumption)
    | with_reducible apply keeps_State_loadCore
    | with_reducible refine Keeps.ite ?_ ?_
    | split
    | with_reducible intro _)

theorem keeps_State_relaunchOne {s0 : State} {s : State} {p : Nat} {l : Launch}
    (h0 : Keeps s0 s) : Keeps s0 (State.relaunchOne s p l) := by
  unfold State.relaunchOne
  repeat' (first
    | with_reducible assumption
    | with_reducible apply KeepsX.some
    | with_reducible exact KeepsX.none
    | with_reducible refine KeepsX.ite ?_ ?_
    | with_reducible apply keeps_State_finishLaunch
    | with_reducible apply keeps_State_mapPart
    | with_reducible apply keeps_State_startAll
    | with_reducible refine Keeps.ite ?_ ?_
    | split
    | with_reducible intro _
    | dsimp only)

theorem keeps_State_lossesEnd {s0 : State} {s : State} {p : Nat}
    (h0 : Keeps s0 s) : Keeps s0 (State.lossesEnd s p) := by
  unfold State.lossesEnd
  repeat' (first
    | with_reducible assumption
    | with_reducible apply Keeps.foldl
    | with_reducible apply Keeps.foldlQ
    | with_reducible apply Keeps.foldlP
    | with_reducible apply keeps_State_mapFlt
    | with_reducible apply keeps_State_recovered
    | with_reducible refine Keeps.ite ?_ ?_
    | split
    | with_reducible intro _)

theorem keeps_State_startAgain {s0 : State} {s : State} {p : Nat}
    (h0 : Keeps s0 s) : Keeps s0 (State.startAgain s p) := by
  unfold State.startAgain
  repeat' (first
    | with_reducible assumption
    | with_reducible apply Keeps.foldl
    | with_reducible apply Keeps.foldlQ
    | with_reducible apply Keeps.foldlP
    | with_reducible apply keeps_State_discardRegion
    | with_reducible apply keeps_State_lossesEnd
    | with_reducible apply keeps_State_mapColl
    | with_reducible apply keeps_State_newRound
    | with_reducible apply keeps_State_partEvent
    | with_reducible apply keeps_State_relaunchOne
    | with_reducible apply keeps_State_replayLoads
    | with_reducible refine Keeps.ite ?_ ?_
    | split
    | with_reducible intro _)

theorem keeps_execRelaunch {s0 : State} {p : Nat} {s : State}
    (h0 : Keeps s0 s) : KeepsO s0 (execRelaunch p s) := by
  unfold execRelaunch
  repeat' (first
    | with_reducible assumption
    | with_reducible apply KeepsO.next
    | with_reducible exact KeepsO.fault
    | with_reducible apply KeepsE.ok
    | with_reducible exact KeepsE.error
    | with_reducible apply KeepsX.some
    | with_reducible exact KeepsX.none
    | with_reducible refine KeepsO.ite ?_ ?_
    | with_reducible apply Keeps.foldl
    | with_reducible apply Keeps.foldlQ
    | with_reducible apply Keeps.foldlP
    | with_reducible apply keeps_State_finishLaunch
    | with_reducible apply keeps_State_lossesEnd
    | with_reducible apply keeps_State_startAgain
    | with_reducible refine Keeps.ite ?_ ?_
    | split
    | with_reducible intro _)

theorem keeps_execDispatchCoreLoss {s0 : State} {k : Nat} {s : State}
    (h0 : Keeps s0 s) : KeepsO s0 (execDispatchCoreLoss k s) := by
  unfold execDispatchCoreLoss
  repeat' (first
    | with_reducible assumption
    | with_reducible apply KeepsO.next
    | with_reducible exact KeepsO.fault
    | with_reducible apply KeepsE.ok
    | with_reducible exact KeepsE.error
    | with_reducible apply KeepsX.some
    | with_reducible exact KeepsX.none
    | with_reducible refine KeepsO.ite ?_ ?_
    | with_reducible apply keeps_State_faultRecord
    | with_reducible apply keeps_State_inField
    | with_reducible apply keeps_State_mapFlt)

theorem keeps_execLateRevokedWrite {s0 : State} {pa : Nat} {data : List Byte} {s : State}
    (h0 : Keeps s0 s) : KeepsO s0 (execLateRevokedWrite pa data s) := by
  unfold execLateRevokedWrite
  repeat' (first
    | with_reducible assumption
    | with_reducible apply KeepsO.next
    | with_reducible exact KeepsO.fault
    | with_reducible apply KeepsE.ok
    | with_reducible exact KeepsE.error
    | with_reducible apply KeepsX.some
    | with_reducible exact KeepsX.none
    | with_reducible refine KeepsO.ite ?_ ?_
    | with_reducible apply Keeps.foldl
    | with_reducible apply Keeps.foldlQ
    | with_reducible apply Keeps.foldlP
    | with_reducible apply keeps_State_wr
    | with_reducible refine Keeps.ite ?_ ?_
    | split
    | with_reducible intro _
    | dsimp only
    | with_reducible refine Keeps.mkState (by with_reducible assumption))

theorem keeps_State_mapUnit {s0 : State} {s : State} {key : Nat} {f : UnitEnt → UnitEnt}
    (h0 : Keeps s0 s) : Keeps s0 (State.mapUnit s key f) := by
  unfold State.mapUnit
  repeat' (first
    | with_reducible assumption
    | with_reducible apply keeps_State_mapFlt)

theorem keeps_State_retireRow {s0 : State} {s : State} {core a row : Nat}
    (h0 : Keeps s0 s) : Keeps s0 (State.retireRow s core a row) := by
  unfold State.retireRow
  repeat' (first
    | with_reducible assumption
    | with_reducible apply keeps_State_loseCore
    | with_reducible apply keeps_State_mapCore
    | with_reducible refine Keeps.ite ?_ ?_)

theorem keeps_State_retire {s0 : State} {s : State} {utype unit : Nat}
    (h0 : Keeps s0 s) : Keeps s0 (State.retire s utype unit) := by
  unfold State.retire
  repeat' (first
    | with_reducible assumption
    | with_reducible apply KeepsX.some
    | with_reducible exact KeepsX.none
    | with_reducible refine KeepsX.ite ?_ ?_
    | with_reducible apply keeps_State_faultRecord
    | with_reducible apply keeps_State_loseCore
    | with_reducible apply keeps_State_mapUnit
    | with_reducible apply keeps_State_retireRow
    | with_reducible refine Keeps.ite ?_ ?_
    | split
    | with_reducible intro _
    | dsimp only
    | with_reducible refine Keeps.mkState (by with_reducible assumption)
    | with_reducible refine Keeps.mkState (keeps_State_faultRecord ?_))

theorem keeps_State_channelBack {s0 s : State} {stack pc : Nat} (h0 : Keeps s0 s) : Keeps s0 (State.channelBack s stack pc) := by
  have h1 : ∀ (x : Tab Stack) (q : Nat × Byte → Bool) (l r : List Nat),
      Keeps s0 { s with hbm := x, mem := s.mem.filter q, poison := l, retired := r } :=
    fun _ _ _ _ => ⟨h0.pending, fun w => Memory.filter_wf (h0.mem w)⟩
  unfold State.channelBack
  dsimp only
  exact Keeps.ite (h1 _ _ _ _) (h1 _ _ _ _)

theorem keeps_State_unretire {s0 : State} {s : State} {utype unit : Nat}
    (h0 : Keeps s0 s) : Keeps s0 (State.unretire s utype unit) := by
  unfold State.unretire
  repeat' (first
    | with_reducible assumption
    | with_reducible apply KeepsX.some
    | with_reducible exact KeepsX.none
    | with_reducible refine KeepsX.ite ?_ ?_
    | with_reducible apply keeps_State_channelBack
    | with_reducible apply keeps_State_mapCore
    | with_reducible apply keeps_State_mapFlt
    | with_reducible refine Keeps.ite ?_ ?_
    | split)

theorem keeps_State_retestRecords {s0 : State} {s : State} {utype unit fails : Nat}
    (h0 : Keeps s0 s) : Keeps s0 (State.retestRecords s utype unit fails) := by
  unfold State.retestRecords
  repeat' (first
    | with_reducible assumption
    | with_reducible apply Keeps.foldl
    | with_reducible apply Keeps.foldlQ
    | with_reducible apply Keeps.foldlP
    | with_reducible apply keeps_State_decide
    | with_reducible apply keeps_State_faultRecord
    | with_reducible refine Keeps.ite ?_ ?_
    | split
    | with_reducible intro _)

theorem keeps_execUnitRetest {s0 : State} {unit fails : Nat} {s : State}
    (h0 : Keeps s0 s) : KeepsO s0 (execUnitRetest unit fails s) := by
  unfold execUnitRetest
  repeat' (first
    | with_reducible assumption
    | with_reducible apply KeepsO.next
    | with_reducible exact KeepsO.fault
    | with_reducible apply KeepsE.ok
    | with_reducible exact KeepsE.error
    | with_reducible apply KeepsX.some
    | with_reducible exact KeepsX.none
    | with_reducible refine KeepsO.ite ?_ ?_
    | with_reducible apply keeps_State_faultRecord
    | with_reducible apply keeps_State_mapUnit
    | with_reducible apply keeps_State_retestRecords
    | with_reducible apply keeps_State_retire
    | with_reducible apply keeps_State_unretire)

theorem keeps_execFaultRecordCommit {s0 : State} {s : State}
    (h0 : Keeps s0 s) : KeepsO s0 (execFaultRecordCommit s) := by
  unfold execFaultRecordCommit
  repeat' (first
    | with_reducible assumption
    | with_reducible apply KeepsO.next
    | with_reducible exact KeepsO.fault
    | with_reducible apply KeepsE.ok
    | with_reducible exact KeepsE.error
    | with_reducible apply KeepsX.some
    | with_reducible exact KeepsX.none
    | with_reducible refine KeepsO.ite ?_ ?_
    | with_reducible apply keeps_State_mapFlt)

theorem keeps_execFaultLogRead {s0 : State} {port ring : Nat} {s : State}
    (h0 : Keeps s0 s) : KeepsO s0 (execFaultLogRead port ring s) := by
  unfold execFaultLogRead
  repeat' (first
    | with_reducible assumption
    | with_reducible apply KeepsX.some
    | with_reducible exact KeepsX.none
    | with_reducible apply KeepsO.next
    | with_reducible exact KeepsO.fault
    | with_reducible apply KeepsE.ok
    | with_reducible exact KeepsE.error
    | with_reducible apply KeepsX.some
    | with_reducible exact KeepsX.none
    | with_reducible refine KeepsX.ite ?_ ?_
    | with_reducible refine KeepsO.ite ?_ ?_
    | with_reducible apply keeps_State_failPkt
    | with_reducible apply keeps_packet
    | with_reducible apply keeps_State_writeFin
    | with_reducible refine Keeps.ite ?_ ?_
    | split
    | with_reducible intro _)

theorem keeps_execTestBundleLoad {s0 : State} {port ring : Nat} {s : State}
    (h0 : Keeps s0 s) : KeepsO s0 (execTestBundleLoad port ring s) := by
  unfold execTestBundleLoad
  repeat' (first
    | with_reducible assumption
    | with_reducible apply KeepsX.some
    | with_reducible exact KeepsX.none
    | with_reducible apply KeepsO.next
    | with_reducible exact KeepsO.fault
    | with_reducible apply KeepsE.ok
    | with_reducible exact KeepsE.error
    | with_reducible apply KeepsX.some
    | with_reducible exact KeepsX.none
    | with_reducible refine KeepsX.ite ?_ ?_
    | with_reducible refine KeepsO.ite ?_ ?_
    | with_reducible apply keeps_State_failPkt
    | with_reducible apply keeps_State_fin
    | with_reducible apply keeps_State_mapFlt
    | with_reducible apply keeps_packet
    | with_reducible refine KeepsQ.fst (keeps_State_read ?_)
    | with_reducible refine KeepsQ.out (keeps_State_read ?_) (by assumption)
    | with_reducible apply keeps_State_read
    | with_reducible refine KeepsQ.out (KeepsQ.mk ?_) (by assumption)
    | with_reducible refine KeepsQ.out (KeepsQ.ite (KeepsQ.mk ?_) (keeps_State_read ?_)) (by assumption)
    | with_reducible refine Keeps.ite ?_ ?_
    | split
    | with_reducible intro _)

theorem keeps_State_testStart {s0 : State} {s : State} {b : Bundle} {cl : Nat}
    (h0 : Keeps s0 s) : Keeps s0 (State.testStart s b cl) := by
  unfold State.testStart
  repeat' (first
    | with_reducible assumption
    | with_reducible apply Keeps.foldl
    | with_reducible apply Keeps.foldlQ
    | with_reducible apply Keeps.foldlP
    | with_reducible apply keeps_State_mapCore
    | with_reducible apply keeps_State_wr
    | with_reducible refine Keeps.ite ?_ ?_
    | split
    | with_reducible intro _)

theorem keeps_State_testStarts {s0 : State} {s : State} {id : Nat} {cls : List Nat}
    (h0 : Keeps s0 s) : Keeps s0 (State.testStarts s id cls) := by
  unfold State.testStarts
  repeat' (first
    | with_reducible assumption
    | with_reducible apply KeepsX.some
    | with_reducible exact KeepsX.none
    | with_reducible refine KeepsX.ite ?_ ?_
    | with_reducible apply Keeps.foldl
    | with_reducible apply Keeps.foldlQ
    | with_reducible apply Keeps.foldlP
    | with_reducible apply keeps_State_testStart
    | with_reducible refine Keeps.ite ?_ ?_
    | split
    | with_reducible intro _)

theorem keeps_State_testStop {s0 : State} {s : State} {cl : Nat}
    (h0 : Keeps s0 s) : Keeps s0 (State.testStop s cl) := by
  unfold State.testStop
  repeat' (first
    | with_reducible assumption
    | with_reducible apply Keeps.foldl
    | with_reducible apply Keeps.foldlQ
    | with_reducible apply Keeps.foldlP
    | with_reducible apply keeps_State_endOne
    | with_reducible refine Keeps.ite ?_ ?_
    | split
    | with_reducible intro _)

theorem keeps_execTestRun {s0 : State} {port ring : Nat} {s : State}
    (h0 : Keeps s0 s) : KeepsO s0 (execTestRun port ring s) := by
  unfold execTestRun
  repeat' (first
    | with_reducible assumption
    | with_reducible apply KeepsX.some
    | with_reducible exact KeepsX.none
    | with_reducible apply KeepsO.next
    | with_reducible exact KeepsO.fault
    | with_reducible apply KeepsE.ok
    | with_reducible exact KeepsE.error
    | with_reducible apply KeepsX.some
    | with_reducible exact KeepsX.none
    | with_reducible refine KeepsX.ite ?_ ?_
    | with_reducible refine KeepsO.ite ?_ ?_
    | with_reducible apply keeps_State_accept
    | with_reducible apply keeps_State_failPkt
    | with_reducible apply keeps_State_mapFlt
    | with_reducible apply keeps_packet
    | with_reducible apply keeps_State_testStarts
    | with_reducible refine Keeps.ite ?_ ?_
    | split
    | with_reducible intro _)

theorem keeps_execTestRunIdleStart {s0 : State} {c : Nat} {s : State}
    (h0 : Keeps s0 s) : KeepsO s0 (execTestRunIdleStart c s) := by
  unfold execTestRunIdleStart
  repeat' (first
    | with_reducible assumption
    | with_reducible apply KeepsO.next
    | with_reducible exact KeepsO.fault
    | with_reducible apply KeepsE.ok
    | with_reducible exact KeepsE.error
    | with_reducible apply KeepsX.some
    | with_reducible exact KeepsX.none
    | with_reducible refine KeepsO.ite ?_ ?_
    | with_reducible apply Keeps.foldl
    | with_reducible apply Keeps.foldlQ
    | with_reducible apply Keeps.foldlP
    | with_reducible apply keeps_State_mapFlt
    | with_reducible apply keeps_State_testStarts
    | with_reducible refine Keeps.ite ?_ ?_
    | split
    | with_reducible intro _)

theorem keeps_State_testUnit {s0 : State} {s : State} {b : Bundle} {u : Nat × Nat}
    (h0 : Keeps s0 s) : KeepsQ s0 (State.testUnit s b u) := by
  unfold State.testUnit
  repeat' (first
    | with_reducible assumption
    | with_reducible refine KeepsQ.ite ?_ ?_
    | with_reducible apply KeepsQ.mk
    | with_reducible apply keeps_State_faultRecord
    | with_reducible apply keeps_State_mapUnit
    | with_reducible apply keeps_State_unretire
    | with_reducible refine Keeps.ite ?_ ?_
    | split
    | with_reducible intro _
    | dsimp only
    | with_reducible refine Keeps.mkState (by with_reducible assumption))

theorem keeps_execTestRunComplete {s0 : State} {port ring : Nat} {s : State}
    (h0 : Keeps s0 s) : KeepsO s0 (execTestRunComplete port ring s) := by
  unfold execTestRunComplete
  repeat' (first
    | with_reducible assumption
    | with_reducible apply KeepsX.some
    | with_reducible exact KeepsX.none
    | with_reducible apply KeepsO.next
    | with_reducible exact KeepsO.fault
    | with_reducible apply KeepsE.ok
    | with_reducible exact KeepsE.error
    | with_reducible apply KeepsX.some
    | with_reducible exact KeepsX.none
    | with_reducible refine KeepsX.ite ?_ ?_
    | with_reducible refine KeepsO.ite ?_ ?_
    | with_reducible apply Keeps.foldl
    | with_reducible apply Keeps.foldlQ
    | with_reducible apply Keeps.foldlP
    | with_reducible apply keeps_State_finishLong
    | with_reducible apply keeps_State_mapFlt
    | with_reducible apply keeps_State_skipped
    | with_reducible apply keeps_State_testStop
    | with_reducible refine KeepsQ.fst (keeps_State_testUnit ?_)
    | with_reducible refine KeepsQ.out (keeps_State_testUnit ?_) (by assumption)
    | with_reducible apply keeps_State_testUnit
    | with_reducible refine Keeps.ite ?_ ?_
    | split
    | with_reducible intro _)

theorem keeps_execHbmShareWindow {s0 : State} {s : State}
    (h0 : Keeps s0 s) : KeepsO s0 (execHbmShareWindow s) := by
  unfold execHbmShareWindow
  repeat' (first
    | with_reducible assumption
    | with_reducible apply KeepsO.next)

theorem keeps_State_sqTail {s0 : State} {s : State} {port func ring v : Nat}
    (h0 : Keeps s0 s) : Keeps s0 (State.sqTail s port func ring v) := by
  unfold State.sqTail
  repeat' (first
    | with_reducible assumption
    | with_reducible apply KeepsX.some
    | with_reducible exact KeepsX.none
    | with_reducible refine KeepsX.ite ?_ ?_
    | with_reducible apply keeps_State_mapRing
    | with_reducible refine Keeps.ite ?_ ?_)

theorem keeps_State_cqHead {s0 : State} {s : State} {port func ring v : Nat}
    (h0 : Keeps s0 s) : Keeps s0 (State.cqHead s port func ring v) := by
  unfold State.cqHead
  repeat' (first
    | with_reducible assumption
    | with_reducible apply keeps_State_admitFaults
    | with_reducible apply keeps_State_flushNotices
    | with_reducible apply keeps_State_mapRing
    | with_reducible refine Keeps.ite ?_ ?_)

theorem keeps_execSqTail {s0 : State} {port func ring : Nat} {v : BitVec 32} {s : State}
    (h0 : Keeps s0 s) : KeepsO s0 (execSqTail port func ring v s) := by
  unfold execSqTail
  repeat' (first
    | with_reducible assumption
    | with_reducible apply KeepsO.next
    | with_reducible exact KeepsO.fault
    | with_reducible apply KeepsE.ok
    | with_reducible exact KeepsE.error
    | with_reducible apply KeepsX.some
    | with_reducible exact KeepsX.none
    | with_reducible refine KeepsO.ite ?_ ?_
    | with_reducible apply keeps_State_sqTail)

theorem keeps_execCqHead {s0 : State} {port func ring : Nat} {v : BitVec 32} {s : State}
    (h0 : Keeps s0 s) : KeepsO s0 (execCqHead port func ring v s) := by
  unfold execCqHead
  repeat' (first
    | with_reducible assumption
    | with_reducible apply KeepsO.next
    | with_reducible exact KeepsO.fault
    | with_reducible apply KeepsE.ok
    | with_reducible exact KeepsE.error
    | with_reducible apply KeepsX.some
    | with_reducible exact KeepsX.none
    | with_reducible refine KeepsO.ite ?_ ?_
    | with_reducible apply keeps_State_cqHead)

theorem keeps_State_enterPkt {s0 : State} {s : State} {k : Pkt} {need : Nat} {early : Option Nat}
    (h0 : Keeps s0 s) : Keeps s0 (State.enterPkt s k need early) := by
  unfold State.enterPkt
  repeat' (first
    | with_reducible assumption
    | with_reducible apply KeepsX.some
    | with_reducible exact KeepsX.none
    | with_reducible refine KeepsX.ite ?_ ?_
    | with_reducible apply keeps_State_mapRing
    | with_reducible apply keeps_State_reply
    | with_reducible refine Keeps.ite ?_ ?_
    | split
    | with_reducible intro _
    | dsimp only
    | with_reducible refine Keeps.mkState (by with_reducible assumption)
    | with_reducible refine Keeps.mkState (keeps_State_mapRing ?_))

theorem keeps_State_takeOne {s0 s : State} {port ring : Nat} (h0 : Keeps s0 s) : KeepsQ s0 (State.takeOne s port ring) := by
  unfold State.takeOne
  refine KeepsQ.ite (KeepsQ.mk h0) (KeepsQ.ite (KeepsQ.mk (keeps_State_mapRing h0)) ?_)
  refine KeepsQ.ite (KeepsQ.mk (keeps_State_ringError (Keeps.ite (Keeps.step h0 rfl rfl) (keeps_State_noRead h0)))) ?_
  exact KeepsQ.ite (KeepsQ.mk (keeps_State_mapRing h0)) (KeepsQ.mk (keeps_State_enterPkt h0))

theorem keeps_State_takeAll {s0 s : State} {n port ring : Nat} (h0 : Keeps s0 s) : Keeps s0 (State.takeAll n port ring s) := by
  induction n generalizing s with
  | zero => exact h0
  | succ n ih =>
    unfold State.takeAll
    dsimp only
    split
    · exact ih (KeepsQ.fst (keeps_State_takeOne h0))
    · exact KeepsQ.fst (keeps_State_takeOne h0)

theorem keeps_execDoorbellService {s0 : State} {port ring : Nat} {s : State}
    (h0 : Keeps s0 s) : KeepsO s0 (execDoorbellService port ring s) := by
  unfold execDoorbellService
  repeat' (first
    | with_reducible assumption
    | with_reducible apply KeepsO.next
    | with_reducible exact KeepsO.fault
    | with_reducible apply KeepsE.ok
    | with_reducible exact KeepsE.error
    | with_reducible apply KeepsX.some
    | with_reducible exact KeepsX.none
    | with_reducible refine KeepsO.ite ?_ ?_
    | with_reducible refine Keeps.getD ?_ ?_
    | with_reducible apply keeps_State_setRing
    | with_reducible apply keeps_State_takeAll)

theorem keeps_execMsixMessage {s0 : State} {port func vec : Nat} {s : State}
    (h0 : Keeps s0 s) : KeepsO s0 (execMsixMessage port func vec s) := by
  unfold execMsixMessage
  repeat' (first
    | with_reducible assumption
    | with_reducible apply KeepsO.next
    | with_reducible exact KeepsO.fault
    | with_reducible apply KeepsE.ok
    | with_reducible exact KeepsE.error
    | with_reducible apply KeepsX.some
    | with_reducible exact KeepsX.none
    | with_reducible refine KeepsO.ite ?_ ?_
    | with_reducible apply keeps_State_msixSend
    | with_reducible apply keeps_State_setFunc
    | with_reducible refine Keeps.ite ?_ ?_)

theorem keeps_State_setMask {s0 : State} {s : State} {port func vec : Nat} {on : Bool}
    (h0 : Keeps s0 s) : Keeps s0 (State.setMask s port func vec on) := by
  unfold State.setMask
  repeat' (first
    | with_reducible assumption
    | with_reducible apply keeps_State_msixSignal
    | with_reducible apply keeps_State_setFunc
    | with_reducible refine Keeps.ite ?_ ?_)

theorem keeps_execVectorUnmask {s0 : State} {port func vec : Nat} {s : State}
    (h0 : Keeps s0 s) : KeepsO s0 (execVectorUnmask port func vec s) := by
  unfold execVectorUnmask
  repeat' (first
    | with_reducible assumption
    | with_reducible apply KeepsO.next
    | with_reducible exact KeepsO.fault
    | with_reducible apply KeepsE.ok
    | with_reducible exact KeepsE.error
    | with_reducible apply KeepsX.some
    | with_reducible exact KeepsX.none
    | with_reducible refine KeepsO.ite ?_ ?_
    | with_reducible apply keeps_State_setMask)

theorem keeps_execReportCopy {s0 : State} {p : Nat} {s : State}
    (h0 : Keeps s0 s) : KeepsO s0 (execReportCopy p s) := by
  unfold execReportCopy
  repeat' (first
    | with_reducible assumption
    | with_reducible apply KeepsO.next
    | with_reducible exact KeepsO.fault
    | with_reducible apply KeepsE.ok
    | with_reducible exact KeepsE.error
    | with_reducible apply KeepsX.some
    | with_reducible exact KeepsX.none
    | with_reducible refine KeepsO.ite ?_ ?_
    | with_reducible apply Keeps.foldl
    | with_reducible apply Keeps.foldlQ
    | with_reducible apply Keeps.foldlP
    | with_reducible apply keeps_State_copyReport
    | with_reducible refine Keeps.ite ?_ ?_
    | split
    | with_reducible intro _)

theorem keeps_State_ringCfgWrite {s0 : State} {s : State} {port func ring v : Nat}
    (h0 : Keeps s0 s) : Keeps s0 (State.ringCfgWrite s port func ring v) := by
  unfold State.ringCfgWrite
  repeat' (first
    | with_reducible assumption
    | with_reducible apply keeps_State_admitFaults
    | with_reducible apply keeps_State_flushNotices
    | with_reducible apply keeps_State_setRing
    | with_reducible refine Keeps.ite ?_ ?_)

theorem keeps_execRingEnable {s0 : State} {who : Who} {ring : Nat} {v : W64} {s : State}
    (h0 : Keeps s0 s) : KeepsO s0 (execRingEnable who ring v s) := by
  unfold execRingEnable
  repeat' (first
    | with_reducible assumption
    | with_reducible apply KeepsO.next
    | with_reducible exact KeepsO.fault
    | with_reducible apply KeepsE.ok
    | with_reducible exact KeepsE.error
    | with_reducible apply KeepsX.some
    | with_reducible exact KeepsX.none
    | with_reducible refine KeepsO.ite ?_ ?_
    | with_reducible apply keeps_State_ringCfgWrite
    | with_reducible refine Keeps.ite ?_ ?_
    | split)

theorem keeps_execRingDisable {s0 : State} {who : Who} {ring : Nat} {v : W64} {s : State}
    (h0 : Keeps s0 s) : KeepsO s0 (execRingDisable who ring v s) := by
  unfold execRingDisable
  repeat' (first
    | with_reducible assumption
    | with_reducible apply KeepsO.next
    | with_reducible exact KeepsO.fault
    | with_reducible apply KeepsE.ok
    | with_reducible exact KeepsE.error
    | with_reducible apply KeepsX.some
    | with_reducible exact KeepsX.none
    | with_reducible refine KeepsO.ite ?_ ?_
    | with_reducible apply keeps_State_ringCfgWrite
    | with_reducible refine Keeps.ite ?_ ?_
    | split)

theorem keeps_State_roleLost {s0 : State} {s : State} {port : Nat}
    (h0 : Keeps s0 s) : Keeps s0 (State.roleLost s port) := by
  unfold State.roleLost
  repeat' (first
    | with_reducible assumption
    | with_reducible apply keeps_State_moveRole
    | with_reducible refine Keeps.ite ?_ ?_
    | split
    | with_reducible intro _
    | dsimp only
    | with_reducible refine Keeps.mkState (by with_reducible assumption))

theorem keeps_execMgmtRoleQualify {s0 : State} {s : State}
    (h0 : Keeps s0 s) : KeepsO s0 (execMgmtRoleQualify s) := by
  unfold execMgmtRoleQualify
  repeat' (first
    | with_reducible assumption
    | with_reducible apply KeepsO.next
    | with_reducible exact KeepsO.fault
    | with_reducible apply KeepsE.ok
    | with_reducible exact KeepsE.error
    | with_reducible apply KeepsX.some
    | with_reducible exact KeepsX.none
    | with_reducible refine KeepsO.ite ?_ ?_
    | with_reducible apply keeps_State_moveRole
    | with_reducible refine Keeps.ite ?_ ?_)

theorem keeps_State_stopRings {s0 : State} {s : State} {port : Nat} {want : Ring → Bool}
    (h0 : Keeps s0 s) : Keeps s0 (State.stopRings s port want) := by
  unfold State.stopRings
  repeat' (first
    | with_reducible assumption
    | with_reducible apply Keeps.foldl
    | with_reducible apply Keeps.foldlQ
    | with_reducible apply Keeps.foldlP
    | with_reducible apply keeps_State_mapPart
    | with_reducible apply keeps_State_mapRing
    | with_reducible apply keeps_State_silence
    | with_reducible refine Keeps.ite ?_ ?_
    | split
    | with_reducible intro _)

theorem keeps_State_portReset {s0 : State} {s : State} {port : Nat} {down : Bool}
    (h0 : Keeps s0 s) : Keeps s0 (State.portReset s port down) := by
  unfold State.portReset
  repeat' (first
    | with_reducible assumption
    | with_reducible apply Keeps.foldl
    | with_reducible apply Keeps.foldlQ
    | with_reducible apply Keeps.foldlP
    | with_reducible apply keeps_State_killPart
    | with_reducible apply keeps_State_roleLost
    | with_reducible apply keeps_State_setHport
    | with_reducible apply keeps_State_stopRings
    | with_reducible refine Keeps.ite ?_ ?_
    | split
    | with_reducible intro _)

theorem keeps_State_perst {s0 : State} {s : State} {port : Nat}
    (h0 : Keeps s0 s) : Keeps s0 (State.perst s port) := by
  unfold State.perst
  repeat' (first
    | with_reducible assumption
    | with_reducible apply keeps_State_portReset
    | with_reducible apply keeps_State_setHport)

theorem keeps_State_perstIn {s0 : State} {s : State} {port : Nat} {on : Bool}
    (h0 : Keeps s0 s) : Keeps s0 (State.perstIn s port on) := by
  unfold State.perstIn
  repeat' (first
    | with_reducible assumption
    | with_reducible refine Keeps.ite ?_ ?_
    | split
    | with_reducible intro _
    | dsimp only
    | with_reducible refine Keeps.mkState (by with_reducible assumption))

theorem keeps_execPerstAssert {s0 : State} {port : Nat} {s : State}
    (h0 : Keeps s0 s) : KeepsO s0 (execPerstAssert port s) := by
  unfold execPerstAssert
  repeat' (first
    | with_reducible assumption
    | with_reducible apply KeepsO.next
    | with_reducible exact KeepsO.fault
    | with_reducible apply KeepsE.ok
    | with_reducible exact KeepsE.error
    | with_reducible apply KeepsX.some
    | with_reducible exact KeepsX.none
    | with_reducible refine KeepsO.ite ?_ ?_
    | with_reducible apply keeps_State_perst
    | with_reducible apply keeps_State_perstIn
    | with_reducible refine Keeps.ite ?_ ?_
    | split
    | with_reducible intro _
    | dsimp only
    | with_reducible refine Keeps.mkState (by with_reducible assumption)
    | with_reducible refine Keeps.mkState (keeps_State_perst ?_)
    | with_reducible refine Keeps.mkState (keeps_State_perstIn ?_))

theorem keeps_State_perstFree {s0 : State} {s : State} {port : Nat}
    (h0 : Keeps s0 s) : Keeps s0 (State.perstFree s port) := by
  unfold State.perstFree
  repeat' (first
    | with_reducible assumption
    | with_reducible apply keeps_State_perstIn
    | with_reducible apply keeps_State_setHport
    | with_reducible refine Keeps.ite ?_ ?_)

theorem keeps_execPerstRelease {s0 : State} {port : Nat} {s : State}
    (h0 : Keeps s0 s) : KeepsO s0 (execPerstRelease port s) := by
  unfold execPerstRelease
  repeat' (first
    | with_reducible assumption
    | with_reducible apply KeepsO.next
    | with_reducible exact KeepsO.fault
    | with_reducible apply KeepsE.ok
    | with_reducible exact KeepsE.error
    | with_reducible apply KeepsX.some
    | with_reducible exact KeepsX.none
    | with_reducible refine KeepsO.ite ?_ ?_
    | with_reducible apply keeps_State_perstFree)

theorem keeps_execHotReset {s0 : State} {port : Nat} {s : State}
    (h0 : Keeps s0 s) : KeepsO s0 (execHotReset port s) := by
  unfold execHotReset
  repeat' (first
    | with_reducible assumption
    | with_reducible apply KeepsO.next
    | with_reducible exact KeepsO.fault
    | with_reducible apply KeepsE.ok
    | with_reducible exact KeepsE.error
    | with_reducible apply KeepsX.some
    | with_reducible exact KeepsX.none
    | with_reducible refine KeepsO.ite ?_ ?_
    | with_reducible apply keeps_State_portReset)

theorem keeps_execPcieLinkDown {s0 : State} {port : Nat} {s : State}
    (h0 : Keeps s0 s) : KeepsO s0 (execPcieLinkDown port s) := by
  unfold execPcieLinkDown
  repeat' (first
    | with_reducible assumption
    | with_reducible apply KeepsO.next
    | with_reducible exact KeepsO.fault
    | with_reducible apply KeepsE.ok
    | with_reducible exact KeepsE.error
    | with_reducible apply KeepsX.some
    | with_reducible exact KeepsX.none
    | with_reducible refine KeepsO.ite ?_ ?_
    | with_reducible apply keeps_State_portReset)

theorem keeps_execPcieLinkUp {s0 : State} {port speed width : Nat} {s : State}
    (h0 : Keeps s0 s) : KeepsO s0 (execPcieLinkUp port speed width s) := by
  unfold execPcieLinkUp
  repeat' (first
    | with_reducible assumption
    | with_reducible apply KeepsO.next
    | with_reducible exact KeepsO.fault
    | with_reducible apply KeepsE.ok
    | with_reducible exact KeepsE.error
    | with_reducible apply KeepsX.some
    | with_reducible exact KeepsX.none
    | with_reducible refine KeepsO.ite ?_ ?_
    | with_reducible apply keeps_State_recovery
    | with_reducible apply keeps_State_setHport)

theorem keeps_execPfFlr {s0 : State} {port : Nat} {s : State}
    (h0 : Keeps s0 s) : KeepsO s0 (execPfFlr port s) := by
  unfold execPfFlr
  repeat' (first
    | with_reducible assumption
    | with_reducible apply KeepsO.next
    | with_reducible exact KeepsO.fault
    | with_reducible apply KeepsE.ok
    | with_reducible exact KeepsE.error
    | with_reducible apply KeepsX.some
    | with_reducible exact KeepsX.none
    | with_reducible refine KeepsO.ite ?_ ?_
    | with_reducible apply keeps_State_portReset)

theorem keeps_State_countReset {s0 : State} {s : State} {port : Nat}
    (h0 : Keeps s0 s) : Keeps s0 (State.countReset s port) := by
  unfold State.countReset
  repeat' (first
    | with_reducible assumption
    | with_reducible apply keeps_State_setHport)

theorem keeps_execVfFlr {s0 : State} {port func : Nat} {s : State}
    (h0 : Keeps s0 s) : KeepsO s0 (execVfFlr port func s) := by
  unfold execVfFlr
  repeat' (first
    | with_reducible assumption
    | with_reducible apply KeepsX.some
    | with_reducible exact KeepsX.none
    | with_reducible apply KeepsO.next
    | with_reducible exact KeepsO.fault
    | with_reducible apply KeepsE.ok
    | with_reducible exact KeepsE.error
    | with_reducible apply KeepsX.some
    | with_reducible exact KeepsX.none
    | with_reducible refine KeepsX.ite ?_ ?_
    | with_reducible refine KeepsO.ite ?_ ?_
    | with_reducible apply keeps_State_countReset
    | with_reducible apply keeps_State_killPart
    | with_reducible apply keeps_State_setHport
    | with_reducible apply keeps_State_stopRings
    | with_reducible refine Keeps.ite ?_ ?_
    | split)

theorem keeps_execVfEnableChange {s0 : State} {port : Nat} {enable : Bool} {numVfs : Nat} {s : State}
    (h0 : Keeps s0 s) : KeepsO s0 (execVfEnableChange port enable numVfs s) := by
  unfold execVfEnableChange
  repeat' (first
    | with_reducible assumption
    | with_reducible apply KeepsO.next
    | with_reducible exact KeepsO.fault
    | with_reducible apply KeepsE.ok
    | with_reducible exact KeepsE.error
    | with_reducible apply KeepsX.some
    | with_reducible exact KeepsX.none
    | with_reducible refine KeepsO.ite ?_ ?_
    | with_reducible apply Keeps.foldl
    | with_reducible apply Keeps.foldlQ
    | with_reducible apply Keeps.foldlP
    | with_reducible apply keeps_State_countReset
    | with_reducible apply keeps_State_killPart
    | with_reducible apply keeps_State_recovery
    | with_reducible apply keeps_State_setHport
    | with_reducible apply keeps_State_stopRings
    | with_reducible refine Keeps.ite ?_ ?_
    | split
    | with_reducible intro _)

theorem keeps_execD3hotEntry {s0 : State} {port : Nat} {s : State}
    (h0 : Keeps s0 s) : KeepsO s0 (execD3hotEntry port s) := by
  unfold execD3hotEntry
  repeat' (first
    | with_reducible assumption
    | with_reducible apply KeepsO.next
    | with_reducible exact KeepsO.fault
    | with_reducible apply KeepsE.ok
    | with_reducible exact KeepsE.error
    | with_reducible apply KeepsX.some
    | with_reducible exact KeepsX.none
    | with_reducible refine KeepsO.ite ?_ ?_
    | with_reducible apply keeps_State_setHport)

theorem keeps_execD0Return {s0 : State} {port : Nat} {s : State}
    (h0 : Keeps s0 s) : KeepsO s0 (execD0Return port s) := by
  unfold execD0Return
  repeat' (first
    | with_reducible assumption
    | with_reducible apply KeepsO.next
    | with_reducible exact KeepsO.fault
    | with_reducible apply KeepsE.ok
    | with_reducible exact KeepsE.error
    | with_reducible apply KeepsX.some
    | with_reducible exact KeepsX.none
    | with_reducible refine KeepsO.ite ?_ ?_
    | with_reducible apply keeps_State_setHport)

theorem keeps_State_cplFail {s0 : State} {s : State} {port pa len : Nat} {e : AerEvent}
    (h0 : Keeps s0 s) : KeepsO s0 (State.cplFail s port pa len e) := by
  unfold State.cplFail
  repeat' (first
    | with_reducible assumption
    | with_reducible apply KeepsO.next
    | with_reducible exact KeepsO.fault
    | with_reducible apply KeepsE.ok
    | with_reducible exact KeepsE.error
    | with_reducible apply KeepsX.some
    | with_reducible exact KeepsX.none
    | with_reducible refine KeepsO.ite ?_ ?_
    | with_reducible apply Keeps.foldl
    | with_reducible apply Keeps.foldlQ
    | with_reducible apply Keeps.foldlP
    | with_reducible apply keeps_State_setFunc
    | with_reducible apply keeps_State_setHport
    | with_reducible refine Keeps.ite ?_ ?_
    | split
    | with_reducible intro _
    | dsimp only
    | with_reducible refine Keeps.mkState (by with_reducible assumption)
    | with_reducible refine Keeps.mkState (keeps_State_setFunc ?_)
    | with_reducible refine Keeps.mkState (keeps_State_setHport ?_))

theorem keeps_execCompletionError {s0 : State} {port pa len : Nat} {kind : CplKind} {s : State}
    (h0 : Keeps s0 s) : KeepsO s0 (execCompletionError port pa len kind s) := by
  unfold execCompletionError
  repeat' (first
    | with_reducible assumption
    | with_reducible apply KeepsO.next
    | with_reducible exact KeepsO.fault
    | with_reducible apply KeepsE.ok
    | with_reducible exact KeepsE.error
    | with_reducible apply KeepsX.some
    | with_reducible exact KeepsX.none
    | with_reducible refine KeepsO.ite ?_ ?_
    | with_reducible apply keeps_State_cplFail)

theorem keeps_execCompletionTimeout {s0 : State} {port pa len : Nat} {s : State}
    (h0 : Keeps s0 s) : KeepsO s0 (execCompletionTimeout port pa len s) := by
  unfold execCompletionTimeout
  repeat' (first
    | with_reducible assumption
    | with_reducible apply KeepsO.next
    | with_reducible exact KeepsO.fault
    | with_reducible apply KeepsE.ok
    | with_reducible exact KeepsE.error
    | with_reducible apply KeepsX.some
    | with_reducible exact KeepsX.none
    | with_reducible refine KeepsO.ite ?_ ?_
    | with_reducible apply keeps_State_cplFail)

theorem keeps_execAtsInvalidate {s0 : State} {port func : Nat} {part va len : Nat} {s : State}
    (h0 : Keeps s0 s) : KeepsO s0 (execAtsInvalidate port func part va len s) := by
  unfold execAtsInvalidate
  repeat' (first
    | with_reducible assumption
    | with_reducible apply KeepsO.next
    | with_reducible exact KeepsO.fault
    | with_reducible apply KeepsE.ok
    | with_reducible exact KeepsE.error
    | with_reducible apply KeepsX.some
    | with_reducible exact KeepsX.none
    | with_reducible refine KeepsO.ite ?_ ?_
    | with_reducible apply keeps_State_mapFunc
    | with_reducible apply keeps_State_setHport)

theorem keeps_State_withRevoked {s0 : State} {s : State} {mask : Nat}
    (h0 : Keeps s0 s) : Keeps s0 (State.withRevoked s mask) := by
  unfold State.withRevoked
  repeat' (first
    | with_reducible assumption
    | with_reducible refine Keeps.ite ?_ ?_
    | split
    | with_reducible intro _
    | dsimp only
    | with_reducible refine Keeps.mkState (by with_reducible assumption))

theorem keeps_State_mapBoot {s0 : State} {s : State} {f : Boot → Boot}
    (h0 : Keeps s0 s) : Keeps s0 (State.mapBoot s f) := by
  unfold State.mapBoot
  repeat' (first
    | with_reducible assumption
    | with_reducible refine Keeps.ite ?_ ?_
    | split
    | with_reducible intro _
    | dsimp only
    | with_reducible refine Keeps.mkState (by with_reducible assumption))

theorem keeps_State_mapMram {s0 : State} {s : State} {f : Mram → Mram}
    (h0 : Keeps s0 s) : Keeps s0 (State.mapMram s f) := by
  unfold State.mapMram
  repeat' (first
    | with_reducible assumption
    | with_reducible refine Keeps.ite ?_ ?_
    | split
    | with_reducible intro _
    | dsimp only
    | with_reducible refine Keeps.mkState (by with_reducible assumption))

theorem keeps_State_mapSup {s0 : State} {s : State} {f : Sup → Sup}
    (h0 : Keeps s0 s) : Keeps s0 (State.mapSup s f) := by
  unfold State.mapSup
  repeat' (first
    | with_reducible assumption
    | with_reducible refine Keeps.ite ?_ ?_
    | split
    | with_reducible intro _
    | dsimp only
    | with_reducible refine Keeps.mkState (by with_reducible assumption))

theorem keeps_State_bootRecord {s0 : State} {s : State} {status : Nat}
    (h0 : Keeps s0 s) : Keeps s0 (State.bootRecord s status) := by
  unfold State.bootRecord
  repeat' (first
    | with_reducible assumption
    | with_reducible apply keeps_State_faultRecord)

theorem keeps_State_wiped {s0 s : State} {keep : Bool} (h0 : Keeps s0 s) : Keeps s0 (State.wiped s keep) :=
  ⟨h0.pending, fun w => Memory.filter_wf (h0.mem w)⟩

theorem keeps_State_identity {s0 : State} {s : State}
    (h0 : Keeps s0 s) : Keeps s0 (State.identity s) := by
  unfold State.identity
  repeat' (first
    | with_reducible assumption
    | with_reducible apply KeepsX.some
    | with_reducible exact KeepsX.none
    | with_reducible refine KeepsX.ite ?_ ?_
    | with_reducible apply keeps_State_bootRecord
    | with_reducible apply keeps_State_mapBoot
    | with_reducible refine Keeps.ite ?_ ?_
    | split)

theorem keeps_State_standbyBegin {s0 : State} {s : State} {keep : Bool}
    (h0 : Keeps s0 s) : Keeps s0 (State.standbyBegin s keep) := by
  unfold State.standbyBegin
  repeat' (first
    | with_reducible assumption
    | with_reducible apply keeps_State_bootRecord
    | with_reducible apply keeps_State_identity
    | with_reducible apply keeps_State_mapBoot
    | with_reducible apply keeps_State_mapMram
    | with_reducible refine KeepsQ.fst (keeps_State_read ?_)
    | with_reducible refine KeepsQ.out (keeps_State_read ?_) (by assumption)
    | with_reducible apply keeps_State_read
    | with_reducible apply keeps_State_wiped
    | with_reducible refine KeepsQ.out (KeepsQ.mk ?_) (by assumption)
    | with_reducible refine KeepsQ.out (KeepsQ.ite (KeepsQ.mk ?_) (keeps_State_read ?_)) (by assumption)
    | with_reducible refine Keeps.ite ?_ ?_)

theorem keeps_State_standbyRun {s0 : State} {s : State} {slot : Nat} {cr : List Byte}
    (h0 : Keeps s0 s) : Keeps s0 (State.standbyRun s slot cr) := by
  unfold State.standbyRun
  repeat' (first
    | with_reducible assumption
    | with_reducible refine Keeps.getD ?_ ?_
    | with_reducible apply Keeps.foldl
    | with_reducible apply Keeps.foldlQ
    | with_reducible apply Keeps.foldlP
    | with_reducible refine Keeps.ite ?_ ?_
    | split
    | with_reducible intro _
    | dsimp only
    | with_reducible refine Keeps.mkState (by with_reducible assumption))

theorem keeps_State_endActivation {s0 : State} {s : State}
    (h0 : Keeps s0 s) : Keeps s0 (State.endActivation s) := by
  unfold State.endActivation
  repeat' (first
    | with_reducible assumption
    | with_reducible apply KeepsX.some
    | with_reducible exact KeepsX.none
    | with_reducible refine KeepsX.ite ?_ ?_
    | with_reducible apply keeps_State_finishLong
    | with_reducible apply keeps_State_mapBoot
    | with_reducible refine Keeps.ite ?_ ?_
    | split)

theorem keeps_State_recoveryPorts {s0 : State} {s : State}
    (h0 : Keeps s0 s) : Keeps s0 (State.recoveryPorts s) := by
  unfold State.recoveryPorts
  repeat' (first
    | with_reducible assumption
    | with_reducible apply keeps_State_setHport)

theorem keeps_State_recovery {s0 : State} {s : State} {fail status : Nat}
    (h0 : Keeps s0 s) : Keeps s0 (State.recovery s fail status) := by
  unfold State.recovery
  repeat' (first
    | with_reducible assumption
    | with_reducible apply keeps_State_bootRecord
    | with_reducible apply keeps_State_endActivation
    | with_reducible apply keeps_State_mapBoot
    | with_reducible apply keeps_State_recoveryPorts)

theorem keeps_State_runActive {s0 : State} {s : State} {lost : Option Nat}
    (h0 : Keeps s0 s) : Keeps s0 (State.runActive s lost) := by
  unfold State.runActive
  repeat' (first
    | with_reducible assumption
    | with_reducible apply KeepsX.some
    | with_reducible exact KeepsX.none
    | with_reducible refine KeepsX.ite ?_ ?_
    | with_reducible apply keeps_State_bootRecord
    | with_reducible apply keeps_State_mapBoot
    | with_reducible apply keeps_State_recovery
    | with_reducible apply keeps_State_standbyRun
    | with_reducible refine Keeps.ite ?_ ?_
    | split
    | with_reducible intro _
    | dsimp only)

theorem keeps_State_dropTrial {s0 : State} {s : State} {status : Nat}
    (h0 : Keeps s0 s) : Keeps s0 (State.dropTrial s status) := by
  unfold State.dropTrial
  repeat' (first
    | with_reducible assumption
    | with_reducible apply KeepsX.some
    | with_reducible exact KeepsX.none
    | with_reducible refine KeepsX.ite ?_ ?_
    | with_reducible refine Keeps.ite ?_ ?_
    | split
    | with_reducible intro _
    | dsimp only
    | with_reducible refine Keeps.mkState (by with_reducible assumption))

theorem keeps_State_standbyPhase {s0 : State} {s : State} {keep : Bool}
    (h0 : Keeps s0 s) : Keeps s0 (State.standbyPhase s keep) := by
  unfold State.standbyPhase
  repeat' (first
    | with_reducible assumption
    | with_reducible apply KeepsX.some
    | with_reducible exact KeepsX.none
    | with_reducible refine KeepsX.ite ?_ ?_
    | with_reducible refine Keeps.getD ?_ ?_
    | with_reducible apply keeps_State_bootRecord
    | with_reducible apply keeps_State_dropTrial
    | with_reducible apply keeps_State_mapMram
    | with_reducible apply keeps_State_revoke
    | with_reducible apply keeps_State_runActive
    | with_reducible apply keeps_State_standbyBegin
    | with_reducible apply keeps_State_standbyRun
    | with_reducible apply keeps_State_withRevoked
    | with_reducible refine Keeps.ite ?_ ?_
    | split
    | with_reducible intro _
    | dsimp only)

theorem keeps_State_startUp {s0 : State} {s : State} {keep : Bool}
    (h0 : Keeps s0 s) : Keeps s0 (State.startUp s keep) := by
  unfold State.startUp
  repeat' (first
    | with_reducible assumption
    | with_reducible apply keeps_State_mapBoot
    | with_reducible apply keeps_State_standbyPhase
    | with_reducible apply keeps_State_wiped
    | with_reducible refine Keeps.ite ?_ ?_)

theorem keeps_State_bootRetire {s0 : State} {s : State} {core : Nat}
    (h0 : Keeps s0 s) : Keeps s0 (State.bootRetire s core) := by
  unfold State.bootRetire
  repeat' (first
    | with_reducible assumption
    | with_reducible apply KeepsX.some
    | with_reducible exact KeepsX.none
    | with_reducible refine KeepsX.ite ?_ ?_
    | with_reducible apply keeps_State_mapCore
    | with_reducible apply keeps_State_mapFlt
    | with_reducible apply keeps_State_setCluster
    | with_reducible refine Keeps.ite ?_ ?_
    | split)

theorem keeps_State_applyRetired {s0 : State} {s : State} {u : Nat × Nat}
    (h0 : Keeps s0 s) : Keeps s0 (State.applyRetired s u) := by
  unfold State.applyRetired
  repeat' (first
    | with_reducible assumption
    | with_reducible apply KeepsX.some
    | with_reducible exact KeepsX.none
    | with_reducible refine KeepsX.ite ?_ ?_
    | with_reducible apply keeps_State_bootRetire
    | with_reducible apply keeps_State_mapCore
    | with_reducible apply keeps_State_mapFlt
    | with_reducible refine Keeps.ite ?_ ?_
    | split
    | with_reducible intro _
    | dsimp only
    | with_reducible refine Keeps.mkState (by with_reducible assumption))

theorem keeps_State_spareMaps {s0 : State} {s : State}
    (h0 : Keeps s0 s) : Keeps s0 (State.spareMaps s) := by
  unfold State.spareMaps
  repeat' (first
    | with_reducible assumption
    | with_reducible apply KeepsX.some
    | with_reducible exact KeepsX.none
    | with_reducible refine KeepsX.ite ?_ ?_
    | with_reducible apply Keeps.foldl
    | with_reducible apply Keeps.foldlQ
    | with_reducible apply Keeps.foldlP
    | with_reducible apply keeps_State_mapCore
    | with_reducible refine Keeps.ite ?_ ?_
    | split
    | with_reducible intro _)

theorem keeps_State_trainAttic {s0 : State} {s : State}
    (h0 : Keeps s0 s) : Keeps s0 (State.trainAttic s) := by
  unfold State.trainAttic
  repeat' (first
    | with_reducible assumption
    | with_reducible apply KeepsX.some
    | with_reducible exact KeepsX.none
    | with_reducible refine KeepsX.ite ?_ ?_
    | with_reducible apply keeps_State_bootRecord
    | with_reducible refine Keeps.ite ?_ ?_
    | split
    | with_reducible intro _
    | dsimp only
    | with_reducible refine Keeps.mkState (by with_reducible assumption))

theorem keeps_State_atticPending {s0 : State} {s : State}
    (h0 : Keeps s0 s) : Keeps s0 (State.atticPending s) := by
  unfold State.atticPending
  repeat' (first
    | with_reducible assumption
    | with_reducible refine Keeps.ite ?_ ?_
    | split
    | with_reducible intro _
    | dsimp only
    | with_reducible refine Keeps.mkState (by with_reducible assumption))

theorem keeps_State_commitTrial {s0 : State} {s : State}
    (h0 : Keeps s0 s) : Keeps s0 (State.commitTrial s) := by
  unfold State.commitTrial
  repeat' (first
    | with_reducible assumption
    | with_reducible apply KeepsX.some
    | with_reducible exact KeepsX.none
    | with_reducible refine KeepsX.ite ?_ ?_
    | with_reducible refine Keeps.getD ?_ ?_
    | with_reducible apply keeps_State_revoke
    | with_reducible refine Keeps.ite ?_ ?_
    | split
    | with_reducible intro _
    | dsimp only
    | with_reducible refine Keeps.mkState (by with_reducible assumption))

theorem keeps_State_enterReady {s0 : State} {s : State} {us : List (Nat × Nat)}
    (h0 : Keeps s0 s) : Keeps s0 (State.enterReady s us) := by
  unfold State.enterReady
  repeat' (first
    | with_reducible assumption
    | with_reducible apply keeps_State_commitTrial
    | with_reducible apply keeps_State_endActivation
    | with_reducible apply keeps_State_setHport
    | with_reducible refine Keeps.ite ?_ ?_
    | split
    | with_reducible intro _
    | dsimp only
    | with_reducible refine Keeps.mkState (by with_reducible assumption))

theorem keeps_execPowerUpStart {s0 : State} {s : State}
    (h0 : Keeps s0 s) : KeepsO s0 (execPowerUpStart s) := by
  unfold execPowerUpStart
  repeat' (first
    | with_reducible assumption
    | with_reducible apply KeepsO.next
    | with_reducible exact KeepsO.fault
    | with_reducible apply KeepsE.ok
    | with_reducible exact KeepsE.error
    | with_reducible apply KeepsX.some
    | with_reducible exact KeepsX.none
    | with_reducible refine KeepsO.ite ?_ ?_
    | with_reducible apply keeps_State_mapBoot
    | with_reducible apply keeps_State_mapSup)

theorem keeps_State_powerStep {s0 : State} {s : State}
    (h0 : Keeps s0 s) : Keeps s0 (State.powerStep s) := by
  unfold State.powerStep
  repeat' (first
    | with_reducible assumption
    | with_reducible apply Keeps.foldl
    | with_reducible apply Keeps.foldlQ
    | with_reducible apply Keeps.foldlP
    | with_reducible apply keeps_State_applyRetired
    | with_reducible apply keeps_State_atticPending
    | with_reducible apply keeps_State_enterReady
    | with_reducible apply keeps_State_mapBoot
    | with_reducible apply keeps_State_spareMaps
    | with_reducible apply keeps_State_trainAttic
    | with_reducible refine Keeps.ite ?_ ?_
    | split
    | with_reducible intro _
    | dsimp only
    | with_reducible refine Keeps.mkState (by with_reducible assumption))

theorem keeps_execRefclkSysReturn {s0 : State} {s : State}
    (h0 : Keeps s0 s) : KeepsO s0 (execRefclkSysReturn s) := by
  unfold execRefclkSysReturn
  repeat' (first
    | with_reducible assumption
    | with_reducible apply KeepsO.next
    | with_reducible exact KeepsO.fault
    | with_reducible apply KeepsE.ok
    | with_reducible exact KeepsE.error
    | with_reducible apply KeepsX.some
    | with_reducible exact KeepsX.none
    | with_reducible refine KeepsO.ite ?_ ?_
    | with_reducible apply keeps_State_mapBoot
    | with_reducible apply keeps_State_mapSup)

theorem keeps_execStartUpTimeout {s0 : State} {s : State}
    (h0 : Keeps s0 s) : KeepsO s0 (execStartUpTimeout s) := by
  unfold execStartUpTimeout
  repeat' (first
    | with_reducible assumption
    | with_reducible apply KeepsX.some
    | with_reducible exact KeepsX.none
    | with_reducible apply KeepsO.next
    | with_reducible exact KeepsO.fault
    | with_reducible apply KeepsE.ok
    | with_reducible exact KeepsE.error
    | with_reducible apply KeepsX.some
    | with_reducible exact KeepsX.none
    | with_reducible refine KeepsX.ite ?_ ?_
    | with_reducible refine KeepsO.ite ?_ ?_
    | with_reducible apply keeps_State_bootRecord
    | with_reducible apply keeps_State_dropTrial
    | with_reducible apply keeps_State_recovery
    | with_reducible apply keeps_State_runActive
    | with_reducible apply keeps_State_standbyBegin
    | with_reducible refine Keeps.ite ?_ ?_
    | split)

theorem keeps_execVsbRise {s0 : State} {s : State}
    (h0 : Keeps s0 s) : KeepsO s0 (execVsbRise s) := by
  unfold execVsbRise
  repeat' (first
    | with_reducible assumption
    | with_reducible apply KeepsO.next
    | with_reducible exact KeepsO.fault
    | with_reducible apply KeepsE.ok
    | with_reducible exact KeepsE.error
    | with_reducible apply KeepsX.some
    | with_reducible exact KeepsX.none
    | with_reducible refine KeepsO.ite ?_ ?_
    | with_reducible apply keeps_State_startUp
    | with_reducible refine Keeps.ite ?_ ?_
    | split
    | with_reducible intro _
    | dsimp only
    | with_reducible refine Keeps.mkState (by with_reducible assumption))

theorem keeps_execVsbLoss {s0 : State} {s : State}
    (h0 : Keeps s0 s) : KeepsO s0 (execVsbLoss s) := by
  unfold execVsbLoss
  repeat' (first
    | with_reducible assumption
    | with_reducible apply KeepsO.next
    | with_reducible exact KeepsO.fault
    | with_reducible apply KeepsE.ok
    | with_reducible exact KeepsE.error
    | with_reducible apply KeepsX.some
    | with_reducible exact KeepsX.none
    | with_reducible refine KeepsO.ite ?_ ?_
    | with_reducible apply keeps_State_jtag
    | with_reducible apply keeps_State_wiped
    | with_reducible refine Keeps.ite ?_ ?_
    | split
    | with_reducible intro _
    | dsimp only
    | with_reducible refine Keeps.mkState (by with_reducible assumption)
    | with_reducible refine Keeps.mkState (keeps_State_jtag ?_)
    | with_reducible refine Keeps.mkState (keeps_State_wiped ?_))

theorem keeps_State_devReset {s0 : State} {s : State}
    (h0 : Keeps s0 s) : Keeps s0 (State.devReset s) := by
  unfold State.devReset
  repeat' (first
    | with_reducible assumption
    | with_reducible apply keeps_State_mapFlt
    | with_reducible apply keeps_State_mapSup
    | with_reducible apply keeps_State_startUp)

theorem keeps_State_takeReset {s0 : State} {s : State}
    (h0 : Keeps s0 s) : Keeps s0 (State.takeReset s) := by
  unfold State.takeReset
  repeat' (first
    | with_reducible assumption
    | with_reducible apply keeps_State_devReset
    | with_reducible apply keeps_State_mapSup
    | with_reducible refine Keeps.ite ?_ ?_)

theorem keeps_execDevResetN {s0 : State} {s : State}
    (h0 : Keeps s0 s) : KeepsO s0 (execDevResetN s) := by
  unfold execDevResetN
  repeat' (first
    | with_reducible assumption
    | with_reducible apply KeepsO.next
    | with_reducible exact KeepsO.fault
    | with_reducible apply KeepsE.ok
    | with_reducible exact KeepsE.error
    | with_reducible apply KeepsX.some
    | with_reducible exact KeepsX.none
    | with_reducible refine KeepsO.ite ?_ ?_
    | with_reducible apply keeps_State_mapSup
    | with_reducible apply keeps_State_takeReset)

theorem keeps_execRefclkSysLoss {s0 : State} {s : State}
    (h0 : Keeps s0 s) : KeepsO s0 (execRefclkSysLoss s) := by
  unfold execRefclkSysLoss
  repeat' (first
    | with_reducible assumption
    | with_reducible apply KeepsO.next
    | with_reducible exact KeepsO.fault
    | with_reducible apply KeepsE.ok
    | with_reducible exact KeepsE.error
    | with_reducible apply KeepsX.some
    | with_reducible exact KeepsX.none
    | with_reducible refine KeepsO.ite ?_ ?_
    | with_reducible apply keeps_State_bootRecord
    | with_reducible apply keeps_State_mapSup
    | with_reducible apply keeps_State_takeReset)

theorem keeps_State_setStaged {s0 : State} {s : State} {kind : Nat} {x : Staging}
    (h0 : Keeps s0 s) : Keeps s0 (State.setStaged s kind x) := by
  unfold State.setStaged
  repeat' (first
    | with_reducible assumption
    | with_reducible apply keeps_State_mapBoot)

theorem keeps_State_stageBegin {s0 : State} {s : State} {kind len : Nat}
    (h0 : Keeps s0 s) : Keeps s0 (State.stageBegin s kind len) := by
  unfold State.stageBegin
  repeat' (first
    | with_reducible assumption
    | with_reducible apply KeepsX.some
    | with_reducible exact KeepsX.none
    | with_reducible refine KeepsX.ite ?_ ?_
    | with_reducible apply keeps_State_mapBoot
    | with_reducible apply keeps_State_mapMram
    | with_reducible apply keeps_State_setStaged)

theorem keeps_State_stageStart {s0 s t : State} {b : List Byte} {off kd : Nat} (h0 : Keeps s0 s)
    (e : State.stageStart s b off = some (t, kd)) : Keeps s0 t := by
  unfold State.stageStart at e
  split at e
  · cases hh : stageHead b with
    | none => rw [hh] at e; cases e
    | some h =>
      rw [hh] at e
      cases e
      exact keeps_State_stageBegin h0
  · cases hh : s.boot.stageKind with
    | none => rw [hh] at e; cases e
    | some h =>
      rw [hh] at e
      cases e
      exact h0

theorem keeps_execFwUpdateStage {s0 : State} {port ring : Nat} {s : State}
    (h0 : Keeps s0 s) : KeepsO s0 (execFwUpdateStage port ring s) := by
  unfold execFwUpdateStage
  repeat' (first
    | with_reducible assumption
    | with_reducible apply KeepsX.some
    | with_reducible exact KeepsX.none
    | with_reducible apply KeepsO.next
    | with_reducible exact KeepsO.fault
    | with_reducible apply KeepsE.ok
    | with_reducible exact KeepsE.error
    | with_reducible apply KeepsX.some
    | with_reducible exact KeepsX.none
    | with_reducible refine KeepsX.ite ?_ ?_
    | with_reducible refine KeepsO.ite ?_ ?_
    | with_reducible apply keeps_State_accept
    | with_reducible apply keeps_State_failPkt
    | with_reducible apply keeps_State_fin
    | with_reducible apply keeps_State_mapBoot
    | with_reducible apply keeps_packet
    | with_reducible refine KeepsQ.fst (keeps_State_read ?_)
    | with_reducible refine KeepsQ.out (keeps_State_read ?_) (by assumption)
    | with_reducible apply keeps_State_read
    | with_reducible apply keeps_State_setStaged
    | with_reducible refine KeepsQ.out (KeepsQ.mk ?_) (by assumption)
    | with_reducible refine KeepsQ.out (KeepsQ.ite (KeepsQ.mk ?_) (keeps_State_read ?_)) (by assumption)
    | with_reducible refine keeps_State_stageStart ?_ (by assumption)
    | with_reducible refine Keeps.ite ?_ ?_
    | split
    | with_reducible intro _
    | dsimp only)

theorem keeps_execStageVerificationComplete {s0 : State} {port ring : Nat} {s : State}
    (h0 : Keeps s0 s) : KeepsO s0 (execStageVerificationComplete port ring s) := by
  unfold execStageVerificationComplete
  repeat' (first
    | with_reducible assumption
    | with_reducible apply KeepsX.some
    | with_reducible exact KeepsX.none
    | with_reducible apply KeepsO.next
    | with_reducible exact KeepsO.fault
    | with_reducible apply KeepsE.ok
    | with_reducible exact KeepsE.error
    | with_reducible apply KeepsX.some
    | with_reducible exact KeepsX.none
    | with_reducible refine KeepsX.ite ?_ ?_
    | with_reducible refine KeepsO.ite ?_ ?_
    | with_reducible apply keeps_State_finishLong
    | with_reducible apply keeps_State_mapBoot
    | with_reducible apply keeps_State_mapMram
    | with_reducible apply keeps_State_setStaged
    | with_reducible refine Keeps.ite ?_ ?_
    | split)

theorem keeps_State_activate {s0 : State} {s : State} {k : Pkt} {slot : Nat}
    (h0 : Keeps s0 s) : Keeps s0 (State.activate s k slot) := by
  unfold State.activate
  repeat' (first
    | with_reducible assumption
    | with_reducible apply KeepsX.some
    | with_reducible exact KeepsX.none
    | with_reducible refine KeepsX.ite ?_ ?_
    | with_reducible apply keeps_State_accept
    | with_reducible apply keeps_State_mapBoot
    | with_reducible apply keeps_State_mapMram
    | with_reducible apply keeps_State_startUp)

theorem keeps_execFwActivate {s0 : State} {port ring : Nat} {s : State}
    (h0 : Keeps s0 s) : KeepsO s0 (execFwActivate port ring s) := by
  unfold execFwActivate
  repeat' (first
    | with_reducible assumption
    | with_reducible apply KeepsX.some
    | with_reducible exact KeepsX.none
    | with_reducible apply KeepsO.next
    | with_reducible exact KeepsO.fault
    | with_reducible apply KeepsE.ok
    | with_reducible exact KeepsE.error
    | with_reducible apply KeepsX.some
    | with_reducible exact KeepsX.none
    | with_reducible refine KeepsX.ite ?_ ?_
    | with_reducible refine KeepsO.ite ?_ ?_
    | with_reducible refine Keeps.getD ?_ ?_
    | with_reducible apply keeps_State_activate
    | with_reducible apply keeps_State_failPkt
    | with_reducible apply keeps_packet
    | with_reducible apply keeps_State_withRevoked
    | with_reducible refine Keeps.ite ?_ ?_
    | split
    | with_reducible intro _)

theorem keeps_execAttestQuote {s0 : State} {port ring : Nat} {s : State}
    (h0 : Keeps s0 s) : KeepsO s0 (execAttestQuote port ring s) := by
  unfold execAttestQuote
  repeat' (first
    | with_reducible assumption
    | with_reducible apply KeepsX.some
    | with_reducible exact KeepsX.none
    | with_reducible apply KeepsO.next
    | with_reducible exact KeepsO.fault
    | with_reducible apply KeepsE.ok
    | with_reducible exact KeepsE.error
    | with_reducible apply KeepsX.some
    | with_reducible exact KeepsX.none
    | with_reducible refine KeepsX.ite ?_ ?_
    | with_reducible refine KeepsO.ite ?_ ?_
    | with_reducible apply keeps_State_failPkt
    | with_reducible apply keeps_packet
    | with_reducible apply keeps_State_writeFin
    | with_reducible refine Keeps.ite ?_ ?_
    | split
    | with_reducible intro _)

theorem keeps_State_jtag {s0 : State} {s : State} {code : Nat} {tdo : List Byte}
    (h0 : Keeps s0 s) : Keeps s0 (State.jtag s code tdo) := by
  unfold State.jtag
  repeat' (first
    | with_reducible assumption
    | with_reducible apply keeps_State_mapBoot)

theorem keeps_execIdcode {s0 : State} {s : State}
    (h0 : Keeps s0 s) : KeepsO s0 (execIdcode s) := by
  unfold execIdcode
  repeat' (first
    | with_reducible assumption
    | with_reducible apply KeepsO.next
    | with_reducible exact KeepsO.fault
    | with_reducible apply KeepsE.ok
    | with_reducible exact KeepsE.error
    | with_reducible apply KeepsX.some
    | with_reducible exact KeepsX.none
    | with_reducible refine KeepsO.ite ?_ ?_
    | with_reducible apply keeps_State_jtag)

theorem keeps_execSamplePreload {s0 : State} {s : State}
    (h0 : Keeps s0 s) : KeepsO s0 (execSamplePreload s) := by
  unfold execSamplePreload
  repeat' (first
    | with_reducible assumption
    | with_reducible apply KeepsO.next
    | with_reducible exact KeepsO.fault
    | with_reducible apply KeepsE.ok
    | with_reducible exact KeepsE.error
    | with_reducible apply KeepsX.some
    | with_reducible exact KeepsX.none
    | with_reducible refine KeepsO.ite ?_ ?_
    | with_reducible apply keeps_State_jtag)

theorem keeps_State_jtagInReset {s0 : State} {s : State} {code : Nat}
    (h0 : Keeps s0 s) : Keeps s0 (State.jtagInReset s code) := by
  unfold State.jtagInReset
  repeat' (first
    | with_reducible assumption
    | with_reducible apply keeps_State_jtag)

theorem keeps_execExtest {s0 : State} {s : State}
    (h0 : Keeps s0 s) : KeepsO s0 (execExtest s) := by
  unfold execExtest
  repeat' (first
    | with_reducible assumption
    | with_reducible apply KeepsO.next
    | with_reducible exact KeepsO.fault
    | with_reducible apply KeepsE.ok
    | with_reducible exact KeepsE.error
    | with_reducible apply KeepsX.some
    | with_reducible exact KeepsX.none
    | with_reducible refine KeepsO.ite ?_ ?_
    | with_reducible apply keeps_State_jtagInReset)

theorem keeps_execClamp {s0 : State} {s : State}
    (h0 : Keeps s0 s) : KeepsO s0 (execClamp s) := by
  unfold execClamp
  repeat' (first
    | with_reducible assumption
    | with_reducible apply KeepsO.next
    | with_reducible exact KeepsO.fault
    | with_reducible apply KeepsE.ok
    | with_reducible exact KeepsE.error
    | with_reducible apply KeepsX.some
    | with_reducible exact KeepsX.none
    | with_reducible refine KeepsO.ite ?_ ?_
    | with_reducible apply keeps_State_jtagInReset)

theorem keeps_execHighz {s0 : State} {s : State}
    (h0 : Keeps s0 s) : KeepsO s0 (execHighz s) := by
  unfold execHighz
  repeat' (first
    | with_reducible assumption
    | with_reducible apply KeepsO.next
    | with_reducible exact KeepsO.fault
    | with_reducible apply KeepsE.ok
    | with_reducible exact KeepsE.error
    | with_reducible apply KeepsX.some
    | with_reducible exact KeepsX.none
    | with_reducible refine KeepsO.ite ?_ ?_
    | with_reducible apply keeps_State_jtagInReset)

theorem keeps_execChallenge {s0 : State} {s : State}
    (h0 : Keeps s0 s) : KeepsO s0 (execChallenge s) := by
  unfold execChallenge
  repeat' (first
    | with_reducible assumption
    | with_reducible apply KeepsX.some
    | with_reducible exact KeepsX.none
    | with_reducible apply KeepsO.next
    | with_reducible exact KeepsO.fault
    | with_reducible apply KeepsE.ok
    | with_reducible exact KeepsE.error
    | with_reducible apply KeepsX.some
    | with_reducible exact KeepsX.none
    | with_reducible refine KeepsX.ite ?_ ?_
    | with_reducible refine KeepsO.ite ?_ ?_
    | with_reducible apply keeps_State_jtag
    | with_reducible apply keeps_State_mapBoot
    | with_reducible refine KeepsP.snd (keeps_State_random ?_))

theorem keeps_State_unlock {s0 : State} {s : State} {t : List Byte}
    (h0 : Keeps s0 s) : Keeps s0 (State.unlock s t) := by
  unfold State.unlock
  repeat' (first
    | with_reducible assumption
    | with_reducible apply Keeps.foldl
    | with_reducible apply Keeps.foldlQ
    | with_reducible apply Keeps.foldlP
    | with_reducible apply keeps_State_killPart
    | with_reducible apply keeps_State_mapBoot
    | with_reducible refine Keeps.ite ?_ ?_
    | split
    | with_reducible intro _)

theorem keeps_execUnlock {s0 : State} {t : List Byte} {s : State}
    (h0 : Keeps s0 s) : KeepsO s0 (execUnlock t s) := by
  unfold execUnlock
  repeat' (first
    | with_reducible assumption
    | with_reducible apply KeepsO.next
    | with_reducible exact KeepsO.fault
    | with_reducible apply KeepsE.ok
    | with_reducible exact KeepsE.error
    | with_reducible apply KeepsX.some
    | with_reducible exact KeepsX.none
    | with_reducible refine KeepsO.ite ?_ ?_
    | with_reducible apply keeps_State_jtag
    | with_reducible apply keeps_State_mapBoot
    | with_reducible apply keeps_State_recovery
    | with_reducible apply keeps_State_unlock)

theorem keeps_execDbgAccess {s0 : State} {s : State}
    (h0 : Keeps s0 s) : KeepsO s0 (execDbgAccess s) := by
  unfold execDbgAccess
  repeat' (first
    | with_reducible assumption
    | with_reducible apply KeepsO.next
    | with_reducible exact KeepsO.fault
    | with_reducible apply KeepsE.ok
    | with_reducible exact KeepsE.error
    | with_reducible apply KeepsX.some
    | with_reducible exact KeepsX.none
    | with_reducible refine KeepsO.ite ?_ ?_
    | with_reducible apply keeps_State_jtag)

theorem keeps_execBypass {s0 : State} {s : State}
    (h0 : Keeps s0 s) : KeepsO s0 (execBypass s) := by
  unfold execBypass
  repeat' (first
    | with_reducible assumption
    | with_reducible apply KeepsO.next
    | with_reducible exact KeepsO.fault
    | with_reducible apply KeepsE.ok
    | with_reducible exact KeepsE.error
    | with_reducible apply KeepsX.some
    | with_reducible exact KeepsX.none
    | with_reducible refine KeepsO.ite ?_ ?_
    | with_reducible apply keeps_State_jtag)

theorem keeps_State_larWrite {s0 : State} {s : State} {core pos : Nat} {bs : List Byte} {poison : Bool}
    (h0 : Keeps s0 s) : Keeps s0 (State.larWrite s core pos bs poison) := by
  unfold State.larWrite
  repeat' (first
    | with_reducible assumption
    | with_reducible apply Keeps.foldl
    | with_reducible apply Keeps.foldlQ
    | with_reducible apply Keeps.foldlP
    | with_reducible apply keeps_State_place
    | with_reducible apply keeps_State_wr
    | with_reducible refine Keeps.ite ?_ ?_
    | split
    | with_reducible intro _)

theorem keeps_State_mapLarder {s0 : State} {s : State} {core : Nat} {f : Larder → Larder}
    (h0 : Keeps s0 s) : Keeps s0 (State.mapLarder s core f) := by
  unfold State.mapLarder
  repeat' (first
    | with_reducible assumption
    | with_reducible apply keeps_State_mapCore)

theorem keeps_State_pushRec {s0 : State} {s : State} {h : Head} {l : Larder} {off : Nat}
    (h0 : Keeps s0 s) : Keeps s0 (State.pushRec s h l off) := by
  unfold State.pushRec
  repeat' (first
    | with_reducible assumption
    | with_reducible apply KeepsX.some
    | with_reducible exact KeepsX.none
    | with_reducible refine KeepsX.ite ?_ ?_
    | with_reducible apply keeps_State_larWrite
    | with_reducible apply keeps_State_mapLarder)

theorem keeps_workPushCkpt {s0 : State} {core n : Nat} {s : State}
    (h0 : Keeps s0 s) : KeepsO s0 (workPushCkpt core n s) := by
  unfold workPushCkpt
  repeat' (first
    | with_reducible assumption
    | with_reducible apply KeepsO.next
    | with_reducible exact KeepsO.fault
    | with_reducible apply KeepsE.ok
    | with_reducible exact KeepsE.error
    | with_reducible apply KeepsX.some
    | with_reducible exact KeepsX.none
    | with_reducible refine KeepsO.ite ?_ ?_
    | with_reducible apply keeps_State_done
    | with_reducible apply keeps_State_failed
    | with_reducible apply keeps_State_hold
    | with_reducible apply keeps_State_mapLarder
    | with_reducible apply keeps_State_pay
    | with_reducible apply keeps_State_pushRec
    | with_reducible apply keeps_State_wakeBanks
    | with_reducible apply keeps_work
    | with_reducible refine Keeps.ite ?_ ?_
    | split
    | with_reducible intro _
    | dsimp only)

theorem keeps_State_pepRestore {s0 : State} {s : State} {core lctx : Nat} {bs : List Byte}
    (h0 : Keeps s0 s) : Keeps s0 (State.pepRestore s core lctx bs) := by
  unfold State.pepRestore
  repeat' (first
    | with_reducible assumption
    | with_reducible apply keeps_State_mapCore)

theorem keeps_State_ckDeliver {s0 : State} {s : State} {h : Head} {off : Nat} {data : List Byte} {bad : List Bool} {snap : Option (List Byte × Bool)}
    (h0 : Keeps s0 s) : Keeps s0 (State.ckDeliver s h off data bad snap) := by
  unfold State.ckDeliver
  repeat' (first
    | with_reducible assumption
    | with_reducible apply KeepsX.some
    | with_reducible exact KeepsX.none
    | with_reducible refine KeepsX.ite ?_ ?_
    | with_reducible apply keeps_State_done
    | with_reducible apply keeps_State_failed
    | with_reducible apply keeps_State_pepRestore
    | with_reducible apply keeps_State_wrBads
    | with_reducible refine Keeps.ite ?_ ?_
    | split)

theorem keeps_State_popRec {s0 : State} {s : State} {core : Nat} {inj : Bool} {t : List Rec}
    (h0 : Keeps s0 s) : Keeps s0 (State.popRec s core inj t) := by
  unfold State.popRec
  repeat' (first
    | with_reducible assumption
    | with_reducible apply KeepsX.some
    | with_reducible exact KeepsX.none
    | with_reducible refine KeepsX.ite ?_ ?_
    | with_reducible apply keeps_State_mapLarder)

theorem keeps_workPopCkpt {s0 : State} {core n : Nat} {s : State}
    (h0 : Keeps s0 s) : KeepsO s0 (workPopCkpt core n s) := by
  unfold workPopCkpt
  repeat' (first
    | with_reducible assumption
    | with_reducible apply KeepsX.some
    | with_reducible exact KeepsX.none
    | with_reducible apply KeepsO.next
    | with_reducible exact KeepsO.fault
    | with_reducible apply KeepsE.ok
    | with_reducible exact KeepsE.error
    | with_reducible apply KeepsX.some
    | with_reducible exact KeepsX.none
    | with_reducible refine KeepsX.ite ?_ ?_
    | with_reducible refine KeepsO.ite ?_ ?_
    | with_reducible apply keeps_State_ckDeliver
    | with_reducible apply keeps_State_done
    | with_reducible apply keeps_State_failed
    | with_reducible apply keeps_State_hold
    | with_reducible apply keeps_State_mapLarder
    | with_reducible apply keeps_State_pay
    | with_reducible apply keeps_State_popRec
    | with_reducible apply keeps_State_wakeBanks
    | with_reducible apply keeps_work
    | with_reducible refine Keeps.ite ?_ ?_
    | split
    | with_reducible intro _
    | dsimp only)

theorem keeps_workPeekCkpt {s0 : State} {core n : Nat} {s : State}
    (h0 : Keeps s0 s) : KeepsO s0 (workPeekCkpt core n s) := by
  unfold workPeekCkpt
  repeat' (first
    | with_reducible assumption
    | with_reducible apply KeepsX.some
    | with_reducible exact KeepsX.none
    | with_reducible apply KeepsO.next
    | with_reducible exact KeepsO.fault
    | with_reducible apply KeepsE.ok
    | with_reducible exact KeepsE.error
    | with_reducible apply KeepsX.some
    | with_reducible exact KeepsX.none
    | with_reducible refine KeepsX.ite ?_ ?_
    | with_reducible refine KeepsO.ite ?_ ?_
    | with_reducible apply keeps_State_areaFault
    | with_reducible apply keeps_State_chargeData
    | with_reducible apply keeps_State_ckDeliver
    | with_reducible apply keeps_State_ckPages
    | with_reducible apply keeps_State_failed
    | with_reducible apply keeps_State_hold
    | with_reducible apply keeps_State_holdIf
    | with_reducible apply keeps_State_noteCheck
    | with_reducible apply keeps_State_pay
    | with_reducible apply keeps_State_vtake
    | with_reducible apply keeps_State_wakeBanks
    | with_reducible apply keeps_work
    | with_reducible refine Keeps.ite ?_ ?_
    | split
    | with_reducible intro _
    | dsimp only)

theorem keeps_workReplayBegin {s0 : State} {core n : Nat} {s : State}
    (h0 : Keeps s0 s) : KeepsO s0 (workReplayBegin core n s) := by
  unfold workReplayBegin
  repeat' (first
    | with_reducible assumption
    | with_reducible apply KeepsO.next
    | with_reducible exact KeepsO.fault
    | with_reducible apply KeepsE.ok
    | with_reducible exact KeepsE.error
    | with_reducible apply KeepsX.some
    | with_reducible exact KeepsX.none
    | with_reducible refine KeepsO.ite ?_ ?_
    | with_reducible apply keeps_State_done
    | with_reducible apply keeps_State_failed
    | with_reducible apply keeps_State_mapSlot
    | with_reducible apply keeps_State_pay
    | with_reducible apply keeps_work
    | with_reducible refine Keeps.ite ?_ ?_
    | split
    | with_reducible intro _)

theorem keeps_workReplayEnd {s0 : State} {core n : Nat} {s : State}
    (h0 : Keeps s0 s) : KeepsO s0 (workReplayEnd core n s) := by
  unfold workReplayEnd
  repeat' (first
    | with_reducible assumption
    | with_reducible apply KeepsO.next
    | with_reducible exact KeepsO.fault
    | with_reducible apply KeepsE.ok
    | with_reducible exact KeepsE.error
    | with_reducible apply KeepsX.some
    | with_reducible exact KeepsX.none
    | with_reducible refine KeepsO.ite ?_ ?_
    | with_reducible apply keeps_State_done
    | with_reducible apply keeps_State_failed
    | with_reducible apply keeps_State_mapSlot
    | with_reducible apply keeps_State_pay
    | with_reducible apply keeps_work
    | with_reducible refine Keeps.ite ?_ ?_
    | split
    | with_reducible intro _)

theorem keeps_execSpillAhead {s0 : State} {core : Nat} {s : State}
    (h0 : Keeps s0 s) : KeepsO s0 (execSpillAhead core s) := by
  unfold execSpillAhead
  repeat' (first
    | with_reducible assumption
    | with_reducible apply KeepsX.some
    | with_reducible exact KeepsX.none
    | with_reducible apply KeepsO.next
    | with_reducible exact KeepsO.fault
    | with_reducible apply KeepsE.ok
    | with_reducible exact KeepsE.error
    | with_reducible apply KeepsX.some
    | with_reducible exact KeepsX.none
    | with_reducible refine KeepsX.ite ?_ ?_
    | with_reducible refine KeepsO.ite ?_ ?_
    | with_reducible apply keeps_State_mapLarder
    | with_reducible refine Keeps.ite ?_ ?_
    | split
    | with_reducible intro _
    | dsimp only)

theorem keeps_State_partWrite {s0 : State} {s : State} {p va : Nat} {bs : List Byte} {bads : List Bool}
    (h0 : Keeps s0 s) : KeepsQ s0 (State.partWrite s p va bs bads) := by
  unfold State.partWrite
  repeat' (first
    | with_reducible assumption
    | with_reducible refine KeepsQ.ite ?_ ?_
    | with_reducible apply KeepsQ.mk
    | with_reducible apply keeps_State_engWriteChecked
    | with_reducible apply keeps_State_vwrite
    | with_reducible refine Keeps.ite ?_ ?_
    | split)

theorem keeps_State_spillOut {s0 : State} {s : State} {core : Nat} {r : Rec} {va : Nat}
    (h0 : Keeps s0 s) : KeepsQ s0 (State.spillOut s core r va) := by
  unfold State.spillOut
  repeat' (first
    | with_reducible assumption
    | with_reducible refine KeepsQ.ite ?_ ?_
    | with_reducible apply KeepsQ.mk
    | with_reducible apply Keeps.foldl
    | with_reducible apply Keeps.foldlQ
    | with_reducible apply Keeps.foldlP
    | with_reducible refine KeepsQ.fst (keeps_State_partWrite ?_)
    | with_reducible refine KeepsQ.out (keeps_State_partWrite ?_) (by assumption)
    | with_reducible apply keeps_State_partWrite
    | with_reducible refine Keeps.ite ?_ ?_
    | split
    | with_reducible intro _)

theorem keeps_execRecordSpillComplete {s0 : State} {core : Nat} {s : State}
    (h0 : Keeps s0 s) : KeepsO s0 (execRecordSpillComplete core s) := by
  unfold execRecordSpillComplete
  repeat' (first
    | with_reducible assumption
    | with_reducible apply KeepsX.some
    | with_reducible exact KeepsX.none
    | with_reducible apply KeepsO.next
    | with_reducible exact KeepsO.fault
    | with_reducible apply KeepsE.ok
    | with_reducible exact KeepsE.error
    | with_reducible apply KeepsX.some
    | with_reducible exact KeepsX.none
    | with_reducible refine KeepsX.ite ?_ ?_
    | with_reducible refine KeepsO.ite ?_ ?_
    | with_reducible apply keeps_State_areaFault
    | with_reducible apply keeps_State_chargeData
    | with_reducible apply keeps_State_ckPages
    | with_reducible apply keeps_State_faultCtx
    | with_reducible apply keeps_State_mapCore
    | with_reducible apply keeps_State_mapLarder
    | with_reducible refine KeepsQ.fst (keeps_State_spillOut ?_)
    | with_reducible refine KeepsQ.out (keeps_State_spillOut ?_) (by assumption)
    | with_reducible apply keeps_State_spillOut
    | with_reducible apply keeps_State_wakeBanks
    | with_reducible refine Keeps.ite ?_ ?_
    | split
    | with_reducible intro _
    | dsimp only)

theorem keeps_execFetchBack {s0 : State} {core : Nat} {s : State}
    (h0 : Keeps s0 s) : KeepsO s0 (execFetchBack core s) := by
  unfold execFetchBack
  repeat' (first
    | with_reducible assumption
    | with_reducible apply KeepsX.some
    | with_reducible exact KeepsX.none
    | with_reducible apply KeepsO.next
    | with_reducible exact KeepsO.fault
    | with_reducible apply KeepsE.ok
    | with_reducible exact KeepsE.error
    | with_reducible apply KeepsX.some
    | with_reducible exact KeepsX.none
    | with_reducible refine KeepsX.ite ?_ ?_
    | with_reducible refine KeepsO.ite ?_ ?_
    | with_reducible apply keeps_State_mapLarder
    | with_reducible refine Keeps.ite ?_ ?_
    | split
    | with_reducible intro _
    | dsimp only)

theorem keeps_State_fetchIn {s0 : State} {s : State} {core : Nat} {r : Rec} {img : List Byte} {lines : List Bool}
    (h0 : Keeps s0 s) : Keeps s0 (State.fetchIn s core r img lines) := by
  unfold State.fetchIn
  repeat' (first
    | with_reducible assumption
    | with_reducible refine Keeps.getD ?_ ?_
    | with_reducible apply Keeps.foldl
    | with_reducible apply Keeps.foldlQ
    | with_reducible apply Keeps.foldlP
    | with_reducible apply keeps_State_larWrite
    | with_reducible refine Keeps.ite ?_ ?_
    | split
    | with_reducible intro _)

theorem keeps_execFetchBackComplete {s0 : State} {core : Nat} {s : State}
    (h0 : Keeps s0 s) : KeepsO s0 (execFetchBackComplete core s) := by
  unfold execFetchBackComplete
  repeat' (first
    | with_reducible assumption
    | with_reducible apply KeepsX.some
    | with_reducible exact KeepsX.none
    | with_reducible apply KeepsO.next
    | with_reducible exact KeepsO.fault
    | with_reducible apply KeepsE.ok
    | with_reducible exact KeepsE.error
    | with_reducible apply KeepsX.some
    | with_reducible exact KeepsX.none
    | with_reducible refine KeepsX.ite ?_ ?_
    | with_reducible refine KeepsO.ite ?_ ?_
    | with_reducible apply keeps_State_areaFault
    | with_reducible apply keeps_State_chargeData
    | with_reducible apply keeps_State_ckPages
    | with_reducible apply keeps_State_failed
    | with_reducible apply keeps_State_fetchIn
    | with_reducible apply keeps_State_mapLarder
    | with_reducible apply keeps_State_noteCheck
    | with_reducible apply keeps_State_vtake
    | with_reducible apply keeps_State_wakeBanks
    | with_reducible refine Keeps.ite ?_ ?_
    | split
    | with_reducible intro _
    | dsimp only)

theorem keeps_select {s0 s : State} {core n : Nat} {out : Out} (h0 : Keeps s0 s) (h1 : KeepsO s0 out) :
    KeepsO s0 (select core n s out) := by
  unfold select
  split
  · split
    · exact KeepsO.next h0
    · exact h1
  · exact h1

theorem keeps_execNop {s0 : State} {core n : Nat} {s : State}
    (h0 : Keeps s0 s) : KeepsO s0 (execNop core n s) := by
  unfold execNop
  repeat' (first
    | with_reducible assumption
    | with_reducible apply KeepsO.next
    | with_reducible exact KeepsO.fault
    | with_reducible apply KeepsE.ok
    | with_reducible exact KeepsE.error
    | with_reducible apply KeepsX.some
    | with_reducible exact KeepsX.none
    | with_reducible refine KeepsO.ite ?_ ?_
    | with_reducible apply keeps_select
    | with_reducible apply keeps_workNop)

theorem keeps_execWait {s0 : State} {core n : Nat} {s : State}
    (h0 : Keeps s0 s) : KeepsO s0 (execWait core n s) := by
  unfold execWait
  repeat' (first
    | with_reducible assumption
    | with_reducible apply KeepsO.next
    | with_reducible exact KeepsO.fault
    | with_reducible apply KeepsE.ok
    | with_reducible exact KeepsE.error
    | with_reducible apply KeepsX.some
    | with_reducible exact KeepsX.none
    | with_reducible refine KeepsO.ite ?_ ?_
    | with_reducible apply keeps_select
    | with_reducible apply keeps_workWait)

theorem keeps_execSignal {s0 : State} {core n : Nat} {s : State}
    (h0 : Keeps s0 s) : KeepsO s0 (execSignal core n s) := by
  unfold execSignal
  repeat' (first
    | with_reducible assumption
    | with_reducible apply KeepsO.next
    | with_reducible exact KeepsO.fault
    | with_reducible apply KeepsE.ok
    | with_reducible exact KeepsE.error
    | with_reducible apply KeepsX.some
    | with_reducible exact KeepsX.none
    | with_reducible refine KeepsO.ite ?_ ?_
    | with_reducible apply keeps_select
    | with_reducible apply keeps_workSignal)

theorem keeps_execFence {s0 : State} {core n : Nat} {s : State}
    (h0 : Keeps s0 s) : KeepsO s0 (execFence core n s) := by
  unfold execFence
  repeat' (first
    | with_reducible assumption
    | with_reducible apply KeepsO.next
    | with_reducible exact KeepsO.fault
    | with_reducible apply KeepsE.ok
    | with_reducible exact KeepsE.error
    | with_reducible apply KeepsX.some
    | with_reducible exact KeepsX.none
    | with_reducible refine KeepsO.ite ?_ ?_
    | with_reducible apply keeps_select
    | with_reducible apply keeps_workFence)

theorem keeps_execLoop {s0 : State} {core n : Nat} {s : State}
    (h0 : Keeps s0 s) : KeepsO s0 (execLoop core n s) := by
  unfold execLoop
  repeat' (first
    | with_reducible assumption
    | with_reducible apply KeepsO.next
    | with_reducible exact KeepsO.fault
    | with_reducible apply KeepsE.ok
    | with_reducible exact KeepsE.error
    | with_reducible apply KeepsX.some
    | with_reducible exact KeepsX.none
    | with_reducible refine KeepsO.ite ?_ ?_
    | with_reducible apply keeps_select
    | with_reducible apply keeps_workLoop)

theorem keeps_execEndloop {s0 : State} {core n : Nat} {s : State}
    (h0 : Keeps s0 s) : KeepsO s0 (execEndloop core n s) := by
  unfold execEndloop
  repeat' (first
    | with_reducible assumption
    | with_reducible apply KeepsO.next
    | with_reducible exact KeepsO.fault
    | with_reducible apply KeepsE.ok
    | with_reducible exact KeepsE.error
    | with_reducible apply KeepsX.some
    | with_reducible exact KeepsX.none
    | with_reducible refine KeepsO.ite ?_ ?_
    | with_reducible apply keeps_select
    | with_reducible apply keeps_workEndloop)

theorem keeps_execJump {s0 : State} {core n : Nat} {s : State}
    (h0 : Keeps s0 s) : KeepsO s0 (execJump core n s) := by
  unfold execJump
  repeat' (first
    | with_reducible assumption
    | with_reducible apply KeepsO.next
    | with_reducible exact KeepsO.fault
    | with_reducible apply KeepsE.ok
    | with_reducible exact KeepsE.error
    | with_reducible apply KeepsX.some
    | with_reducible exact KeepsX.none
    | with_reducible refine KeepsO.ite ?_ ?_
    | with_reducible apply keeps_select
    | with_reducible apply keeps_workJump)

theorem keeps_execCall {s0 : State} {core n : Nat} {s : State}
    (h0 : Keeps s0 s) : KeepsO s0 (execCall core n s) := by
  unfold execCall
  repeat' (first
    | with_reducible assumption
    | with_reducible apply KeepsO.next
    | with_reducible exact KeepsO.fault
    | with_reducible apply KeepsE.ok
    | with_reducible exact KeepsE.error
    | with_reducible apply KeepsX.some
    | with_reducible exact KeepsX.none
    | with_reducible refine KeepsO.ite ?_ ?_
    | with_reducible apply keeps_select
    | with_reducible apply keeps_workCall)

theorem keeps_execYield {s0 : State} {core n : Nat} {s : State}
    (h0 : Keeps s0 s) : KeepsO s0 (execYield core n s) := by
  unfold execYield
  repeat' (first
    | with_reducible assumption
    | with_reducible apply KeepsO.next
    | with_reducible exact KeepsO.fault
    | with_reducible apply KeepsE.ok
    | with_reducible exact KeepsE.error
    | with_reducible apply KeepsX.some
    | with_reducible exact KeepsX.none
    | with_reducible refine KeepsO.ite ?_ ?_
    | with_reducible apply keeps_select
    | with_reducible apply keeps_workYield)

theorem keeps_execHalt {s0 : State} {core n : Nat} {s : State}
    (h0 : Keeps s0 s) : KeepsO s0 (execHalt core n s) := by
  unfold execHalt
  repeat' (first
    | with_reducible assumption
    | with_reducible apply KeepsO.next
    | with_reducible exact KeepsO.fault
    | with_reducible apply KeepsE.ok
    | with_reducible exact KeepsE.error
    | with_reducible apply KeepsX.some
    | with_reducible exact KeepsX.none
    | with_reducible refine KeepsO.ite ?_ ?_
    | with_reducible apply keeps_select
    | with_reducible apply keeps_workHalt)

theorem keeps_execStreamIn {s0 : State} {core n : Nat} {s : State}
    (h0 : Keeps s0 s) : KeepsO s0 (execStreamIn core n s) := by
  unfold execStreamIn
  repeat' (first
    | with_reducible assumption
    | with_reducible apply KeepsO.next
    | with_reducible exact KeepsO.fault
    | with_reducible apply KeepsE.ok
    | with_reducible exact KeepsE.error
    | with_reducible apply KeepsX.some
    | with_reducible exact KeepsX.none
    | with_reducible refine KeepsO.ite ?_ ?_
    | with_reducible apply keeps_select
    | with_reducible apply keeps_workStreamIn)

theorem keeps_execStreamOut {s0 : State} {core n : Nat} {s : State}
    (h0 : Keeps s0 s) : KeepsO s0 (execStreamOut core n s) := by
  unfold execStreamOut
  repeat' (first
    | with_reducible assumption
    | with_reducible apply KeepsO.next
    | with_reducible exact KeepsO.fault
    | with_reducible apply KeepsE.ok
    | with_reducible exact KeepsE.error
    | with_reducible apply KeepsX.some
    | with_reducible exact KeepsX.none
    | with_reducible refine KeepsO.ite ?_ ?_
    | with_reducible apply keeps_select
    | with_reducible apply keeps_workStreamOut)

theorem keeps_execChainW {s0 : State} {core n : Nat} {s : State}
    (h0 : Keeps s0 s) : KeepsO s0 (execChainW core n s) := by
  unfold execChainW
  repeat' (first
    | with_reducible assumption
    | with_reducible apply KeepsO.next
    | with_reducible exact KeepsO.fault
    | with_reducible apply KeepsE.ok
    | with_reducible exact KeepsE.error
    | with_reducible apply KeepsX.some
    | with_reducible exact KeepsX.none
    | with_reducible refine KeepsO.ite ?_ ?_
    | with_reducible apply keeps_select
    | with_reducible apply keeps_workChainW)

theorem keeps_execCopyRemote {s0 : State} {core n : Nat} {s : State}
    (h0 : Keeps s0 s) : KeepsO s0 (execCopyRemote core n s) := by
  unfold execCopyRemote
  repeat' (first
    | with_reducible assumption
    | with_reducible apply KeepsO.next
    | with_reducible exact KeepsO.fault
    | with_reducible apply KeepsE.ok
    | with_reducible exact KeepsE.error
    | with_reducible apply KeepsX.some
    | with_reducible exact KeepsX.none
    | with_reducible refine KeepsO.ite ?_ ?_
    | with_reducible apply keeps_select
    | with_reducible apply keeps_workCopyRemote)

theorem keeps_execSwapHalves {s0 : State} {core n : Nat} {s : State}
    (h0 : Keeps s0 s) : KeepsO s0 (execSwapHalves core n s) := by
  unfold execSwapHalves
  repeat' (first
    | with_reducible assumption
    | with_reducible apply KeepsO.next
    | with_reducible exact KeepsO.fault
    | with_reducible apply KeepsE.ok
    | with_reducible exact KeepsE.error
    | with_reducible apply KeepsX.some
    | with_reducible exact KeepsX.none
    | with_reducible refine KeepsO.ite ?_ ?_
    | with_reducible apply keeps_select
    | with_reducible apply keeps_workSwapHalves)

theorem keeps_execArm {s0 : State} {core n : Nat} {s : State}
    (h0 : Keeps s0 s) : KeepsO s0 (execArm core n s) := by
  unfold execArm
  repeat' (first
    | with_reducible assumption
    | with_reducible apply KeepsO.next
    | with_reducible exact KeepsO.fault
    | with_reducible apply KeepsE.ok
    | with_reducible exact KeepsE.error
    | with_reducible apply KeepsX.some
    | with_reducible exact KeepsX.none
    | with_reducible refine KeepsO.ite ?_ ?_
    | with_reducible apply keeps_select
    | with_reducible apply keeps_workArm)

theorem keeps_execTransposeIn {s0 : State} {core n : Nat} {s : State}
    (h0 : Keeps s0 s) : KeepsO s0 (execTransposeIn core n s) := by
  unfold execTransposeIn
  repeat' (first
    | with_reducible assumption
    | with_reducible apply KeepsO.next
    | with_reducible exact KeepsO.fault
    | with_reducible apply KeepsE.ok
    | with_reducible exact KeepsE.error
    | with_reducible apply KeepsX.some
    | with_reducible exact KeepsX.none
    | with_reducible refine KeepsO.ite ?_ ?_
    | with_reducible apply keeps_select
    | with_reducible apply keeps_workTransposeIn)

theorem keeps_execMm {s0 : State} {core n : Nat} {s : State}
    (h0 : Keeps s0 s) : KeepsO s0 (execMm core n s) := by
  unfold execMm
  repeat' (first
    | with_reducible assumption
    | with_reducible apply KeepsO.next
    | with_reducible exact KeepsO.fault
    | with_reducible apply KeepsE.ok
    | with_reducible exact KeepsE.error
    | with_reducible apply KeepsX.some
    | with_reducible exact KeepsX.none
    | with_reducible refine KeepsO.ite ?_ ?_
    | with_reducible apply keeps_select
    | with_reducible apply keeps_workMm)

theorem keeps_execMmWide {s0 : State} {core n : Nat} {s : State}
    (h0 : Keeps s0 s) : KeepsO s0 (execMmWide core n s) := by
  unfold execMmWide
  repeat' (first
    | with_reducible assumption
    | with_reducible apply KeepsO.next
    | with_reducible exact KeepsO.fault
    | with_reducible apply KeepsE.ok
    | with_reducible exact KeepsE.error
    | with_reducible apply KeepsX.some
    | with_reducible exact KeepsX.none
    | with_reducible refine KeepsO.ite ?_ ?_
    | with_reducible apply keeps_select
    | with_reducible apply keeps_workMmWide)

theorem keeps_execMmSemi {s0 : State} {core n : Nat} {s : State}
    (h0 : Keeps s0 s) : KeepsO s0 (execMmSemi core n s) := by
  unfold execMmSemi
  repeat' (first
    | with_reducible assumption
    | with_reducible apply KeepsO.next
    | with_reducible exact KeepsO.fault
    | with_reducible apply KeepsE.ok
    | with_reducible exact KeepsE.error
    | with_reducible apply KeepsX.some
    | with_reducible exact KeepsX.none
    | with_reducible refine KeepsO.ite ?_ ?_
    | with_reducible apply keeps_select
    | with_reducible apply keeps_workMmSemi)

theorem keeps_execMmDist {s0 : State} {core n : Nat} {s : State}
    (h0 : Keeps s0 s) : KeepsO s0 (execMmDist core n s) := by
  unfold execMmDist
  repeat' (first
    | with_reducible assumption
    | with_reducible apply KeepsO.next
    | with_reducible exact KeepsO.fault
    | with_reducible apply KeepsE.ok
    | with_reducible exact KeepsE.error
    | with_reducible apply KeepsX.some
    | with_reducible exact KeepsX.none
    | with_reducible refine KeepsO.ite ?_ ?_
    | with_reducible apply keeps_select
    | with_reducible apply keeps_workMmDist)

theorem keeps_execMmCmp {s0 : State} {core n : Nat} {s : State}
    (h0 : Keeps s0 s) : KeepsO s0 (execMmCmp core n s) := by
  unfold execMmCmp
  repeat' (first
    | with_reducible assumption
    | with_reducible apply KeepsO.next
    | with_reducible exact KeepsO.fault
    | with_reducible apply KeepsE.ok
    | with_reducible exact KeepsE.error
    | with_reducible apply KeepsX.some
    | with_reducible exact KeepsX.none
    | with_reducible refine KeepsO.ite ?_ ?_
    | with_reducible apply keeps_select
    | with_reducible apply keeps_workMmCmp)

theorem keeps_execLoadW {s0 : State} {core n : Nat} {s : State}
    (h0 : Keeps s0 s) : KeepsO s0 (execLoadW core n s) := by
  unfold execLoadW
  repeat' (first
    | with_reducible assumption
    | with_reducible apply KeepsO.next
    | with_reducible exact KeepsO.fault
    | with_reducible apply KeepsE.ok
    | with_reducible exact KeepsE.error
    | with_reducible apply KeepsX.some
    | with_reducible exact KeepsX.none
    | with_reducible refine KeepsO.ite ?_ ?_
    | with_reducible apply keeps_select
    | with_reducible apply keeps_workLoadW)

theorem keeps_execDrainAcc {s0 : State} {core n : Nat} {s : State}
    (h0 : Keeps s0 s) : KeepsO s0 (execDrainAcc core n s) := by
  unfold execDrainAcc
  repeat' (first
    | with_reducible assumption
    | with_reducible apply KeepsO.next
    | with_reducible exact KeepsO.fault
    | with_reducible apply KeepsE.ok
    | with_reducible exact KeepsE.error
    | with_reducible apply KeepsX.some
    | with_reducible exact KeepsX.none
    | with_reducible refine KeepsO.ite ?_ ?_
    | with_reducible apply keeps_select
    | with_reducible apply keeps_workDrainAcc)

theorem keeps_execMmF32x3 {s0 : State} {core n : Nat} {s : State}
    (h0 : Keeps s0 s) : KeepsO s0 (execMmF32x3 core n s) := by
  unfold execMmF32x3
  repeat' (first
    | with_reducible assumption
    | with_reducible apply KeepsO.next
    | with_reducible exact KeepsO.fault
    | with_reducible apply KeepsE.ok
    | with_reducible exact KeepsE.error
    | with_reducible apply KeepsX.some
    | with_reducible exact KeepsX.none
    | with_reducible refine KeepsO.ite ?_ ?_
    | with_reducible apply keeps_select
    | with_reducible apply keeps_workMmF32x3)

theorem keeps_execVop {s0 : State} {core n : Nat} {s : State}
    (h0 : Keeps s0 s) : KeepsO s0 (execVop core n s) := by
  unfold execVop
  repeat' (first
    | with_reducible assumption
    | with_reducible apply KeepsO.next
    | with_reducible exact KeepsO.fault
    | with_reducible apply KeepsE.ok
    | with_reducible exact KeepsE.error
    | with_reducible apply KeepsX.some
    | with_reducible exact KeepsX.none
    | with_reducible refine KeepsO.ite ?_ ?_
    | with_reducible apply keeps_select
    | with_reducible apply keeps_workVop)

theorem keeps_execVfunc {s0 : State} {core n : Nat} {s : State}
    (h0 : Keeps s0 s) : KeepsO s0 (execVfunc core n s) := by
  unfold execVfunc
  repeat' (first
    | with_reducible assumption
    | with_reducible apply KeepsO.next
    | with_reducible exact KeepsO.fault
    | with_reducible apply KeepsE.ok
    | with_reducible exact KeepsE.error
    | with_reducible apply KeepsX.some
    | with_reducible exact KeepsX.none
    | with_reducible refine KeepsO.ite ?_ ?_
    | with_reducible apply keeps_select
    | with_reducible apply keeps_workVfunc)

theorem keeps_execVderiv {s0 : State} {core n : Nat} {s : State}
    (h0 : Keeps s0 s) : KeepsO s0 (execVderiv core n s) := by
  unfold execVderiv
  repeat' (first
    | with_reducible assumption
    | with_reducible apply KeepsO.next
    | with_reducible exact KeepsO.fault
    | with_reducible apply KeepsE.ok
    | with_reducible exact KeepsE.error
    | with_reducible apply KeepsX.some
    | with_reducible exact KeepsX.none
    | with_reducible refine KeepsO.ite ?_ ?_
    | with_reducible apply keeps_select
    | with_reducible apply keeps_workVderiv)

theorem keeps_execVreduce {s0 : State} {core n : Nat} {s : State}
    (h0 : Keeps s0 s) : KeepsO s0 (execVreduce core n s) := by
  unfold execVreduce
  repeat' (first
    | with_reducible assumption
    | with_reducible apply KeepsO.next
    | with_reducible exact KeepsO.fault
    | with_reducible apply KeepsE.ok
    | with_reducible exact KeepsE.error
    | with_reducible apply KeepsX.some
    | with_reducible exact KeepsX.none
    | with_reducible refine KeepsO.ite ?_ ?_
    | with_reducible apply keeps_select
    | with_reducible apply keeps_workVreduce)

theorem keeps_execVnormBwd {s0 : State} {core n : Nat} {s : State}
    (h0 : Keeps s0 s) : KeepsO s0 (execVnormBwd core n s) := by
  unfold execVnormBwd
  repeat' (first
    | with_reducible assumption
    | with_reducible apply KeepsO.next
    | with_reducible exact KeepsO.fault
    | with_reducible apply KeepsE.ok
    | with_reducible exact KeepsE.error
    | with_reducible apply KeepsX.some
    | with_reducible exact KeepsX.none
    | with_reducible refine KeepsO.ite ?_ ?_
    | with_reducible apply keeps_select
    | with_reducible apply keeps_workVnormBwd)

theorem keeps_execVsoftmaxBwd {s0 : State} {core n : Nat} {s : State}
    (h0 : Keeps s0 s) : KeepsO s0 (execVsoftmaxBwd core n s) := by
  unfold execVsoftmaxBwd
  repeat' (first
    | with_reducible assumption
    | with_reducible apply KeepsO.next
    | with_reducible exact KeepsO.fault
    | with_reducible apply KeepsE.ok
    | with_reducible exact KeepsE.error
    | with_reducible apply KeepsX.some
    | with_reducible exact KeepsX.none
    | with_reducible refine KeepsO.ite ?_ ?_
    | with_reducible apply keeps_select
    | with_reducible apply keeps_workVsoftmaxBwd)

theorem keeps_execVcompress1 {s0 : State} {core n : Nat} {s : State}
    (h0 : Keeps s0 s) : KeepsO s0 (execVcompress1 core n s) := by
  unfold execVcompress1
  repeat' (first
    | with_reducible assumption
    | with_reducible apply KeepsO.next
    | with_reducible exact KeepsO.fault
    | with_reducible apply KeepsE.ok
    | with_reducible exact KeepsE.error
    | with_reducible apply KeepsX.some
    | with_reducible exact KeepsX.none
    | with_reducible refine KeepsO.ite ?_ ?_
    | with_reducible apply keeps_select
    | with_reducible apply keeps_workVcompress1)

theorem keeps_execVdecompSum {s0 : State} {core n : Nat} {s : State}
    (h0 : Keeps s0 s) : KeepsO s0 (execVdecompSum core n s) := by
  unfold execVdecompSum
  repeat' (first
    | with_reducible assumption
    | with_reducible apply KeepsO.next
    | with_reducible exact KeepsO.fault
    | with_reducible apply KeepsE.ok
    | with_reducible exact KeepsE.error
    | with_reducible apply KeepsX.some
    | with_reducible exact KeepsX.none
    | with_reducible refine KeepsO.ite ?_ ?_
    | with_reducible apply keeps_select
    | with_reducible apply keeps_workVdecompSum)

theorem keeps_execVrand {s0 : State} {core n : Nat} {s : State}
    (h0 : Keeps s0 s) : KeepsO s0 (execVrand core n s) := by
  unfold execVrand
  repeat' (first
    | with_reducible assumption
    | with_reducible apply KeepsO.next
    | with_reducible exact KeepsO.fault
    | with_reducible apply KeepsE.ok
    | with_reducible exact KeepsE.error
    | with_reducible apply KeepsX.some
    | with_reducible exact KeepsX.none
    | with_reducible refine KeepsO.ite ?_ ?_
    | with_reducible apply keeps_select
    | with_reducible apply keeps_workVrand)

theorem keeps_execVconvert {s0 : State} {core n : Nat} {s : State}
    (h0 : Keeps s0 s) : KeepsO s0 (execVconvert core n s) := by
  unfold execVconvert
  repeat' (first
    | with_reducible assumption
    | with_reducible apply KeepsO.next
    | with_reducible exact KeepsO.fault
    | with_reducible apply KeepsE.ok
    | with_reducible exact KeepsE.error
    | with_reducible apply KeepsX.some
    | with_reducible exact KeepsX.none
    | with_reducible refine KeepsO.ite ?_ ?_
    | with_reducible apply keeps_select
    | with_reducible apply keeps_workVconvert)

theorem keeps_execVdigest {s0 : State} {core n : Nat} {s : State}
    (h0 : Keeps s0 s) : KeepsO s0 (execVdigest core n s) := by
  unfold execVdigest
  repeat' (first
    | with_reducible assumption
    | with_reducible apply KeepsO.next
    | with_reducible exact KeepsO.fault
    | with_reducible apply KeepsE.ok
    | with_reducible exact KeepsE.error
    | with_reducible apply KeepsX.some
    | with_reducible exact KeepsX.none
    | with_reducible refine KeepsO.ite ?_ ?_
    | with_reducible apply keeps_select
    | with_reducible apply keeps_workVdigest)

theorem keeps_execPushCkpt {s0 : State} {core n : Nat} {s : State}
    (h0 : Keeps s0 s) : KeepsO s0 (execPushCkpt core n s) := by
  unfold execPushCkpt
  repeat' (first
    | with_reducible assumption
    | with_reducible apply KeepsO.next
    | with_reducible exact KeepsO.fault
    | with_reducible apply KeepsE.ok
    | with_reducible exact KeepsE.error
    | with_reducible apply KeepsX.some
    | with_reducible exact KeepsX.none
    | with_reducible refine KeepsO.ite ?_ ?_
    | with_reducible apply keeps_select
    | with_reducible apply keeps_workPushCkpt)

theorem keeps_execPopCkpt {s0 : State} {core n : Nat} {s : State}
    (h0 : Keeps s0 s) : KeepsO s0 (execPopCkpt core n s) := by
  unfold execPopCkpt
  repeat' (first
    | with_reducible assumption
    | with_reducible apply KeepsO.next
    | with_reducible exact KeepsO.fault
    | with_reducible apply KeepsE.ok
    | with_reducible exact KeepsE.error
    | with_reducible apply KeepsX.some
    | with_reducible exact KeepsX.none
    | with_reducible refine KeepsO.ite ?_ ?_
    | with_reducible apply keeps_select
    | with_reducible apply keeps_workPopCkpt)

theorem keeps_execPeekCkpt {s0 : State} {core n : Nat} {s : State}
    (h0 : Keeps s0 s) : KeepsO s0 (execPeekCkpt core n s) := by
  unfold execPeekCkpt
  repeat' (first
    | with_reducible assumption
    | with_reducible apply KeepsO.next
    | with_reducible exact KeepsO.fault
    | with_reducible apply KeepsE.ok
    | with_reducible exact KeepsE.error
    | with_reducible apply KeepsX.some
    | with_reducible exact KeepsX.none
    | with_reducible refine KeepsO.ite ?_ ?_
    | with_reducible apply keeps_select
    | with_reducible apply keeps_workPeekCkpt)

theorem keeps_execReplayBegin {s0 : State} {core n : Nat} {s : State}
    (h0 : Keeps s0 s) : KeepsO s0 (execReplayBegin core n s) := by
  unfold execReplayBegin
  repeat' (first
    | with_reducible assumption
    | with_reducible apply KeepsO.next
    | with_reducible exact KeepsO.fault
    | with_reducible apply KeepsE.ok
    | with_reducible exact KeepsE.error
    | with_reducible apply KeepsX.some
    | with_reducible exact KeepsX.none
    | with_reducible refine KeepsO.ite ?_ ?_
    | with_reducible apply keeps_select
    | with_reducible apply keeps_workReplayBegin)

theorem keeps_execReplayEnd {s0 : State} {core n : Nat} {s : State}
    (h0 : Keeps s0 s) : KeepsO s0 (execReplayEnd core n s) := by
  unfold execReplayEnd
  repeat' (first
    | with_reducible assumption
    | with_reducible apply KeepsO.next
    | with_reducible exact KeepsO.fault
    | with_reducible apply KeepsE.ok
    | with_reducible exact KeepsE.error
    | with_reducible apply KeepsX.some
    | with_reducible exact KeepsX.none
    | with_reducible refine KeepsO.ite ?_ ?_
    | with_reducible apply keeps_select
    | with_reducible apply keeps_workReplayEnd)

theorem keeps_execContrib {s0 : State} {core n : Nat} {s : State}
    (h0 : Keeps s0 s) : KeepsO s0 (execContrib core n s) := by
  unfold execContrib
  repeat' (first
    | with_reducible assumption
    | with_reducible apply KeepsO.next
    | with_reducible exact KeepsO.fault
    | with_reducible apply KeepsE.ok
    | with_reducible exact KeepsE.error
    | with_reducible apply KeepsX.some
    | with_reducible exact KeepsX.none
    | with_reducible refine KeepsO.ite ?_ ?_
    | with_reducible apply keeps_select
    | with_reducible apply keeps_workContrib)

theorem keeps_execOwnerSum {s0 : State} {core n : Nat} {s : State}
    (h0 : Keeps s0 s) : KeepsO s0 (execOwnerSum core n s) := by
  unfold execOwnerSum
  repeat' (first
    | with_reducible assumption
    | with_reducible apply KeepsO.next
    | with_reducible exact KeepsO.fault
    | with_reducible apply KeepsE.ok
    | with_reducible exact KeepsE.error
    | with_reducible apply KeepsX.some
    | with_reducible exact KeepsX.none
    | with_reducible refine KeepsO.ite ?_ ?_
    | with_reducible apply keeps_select
    | with_reducible apply keeps_workOwnerSum)

theorem keeps_execParamBcast {s0 : State} {core n : Nat} {s : State}
    (h0 : Keeps s0 s) : KeepsO s0 (execParamBcast core n s) := by
  unfold execParamBcast
  repeat' (first
    | with_reducible assumption
    | with_reducible apply KeepsO.next
    | with_reducible exact KeepsO.fault
    | with_reducible apply KeepsE.ok
    | with_reducible exact KeepsE.error
    | with_reducible apply KeepsX.some
    | with_reducible exact KeepsX.none
    | with_reducible refine KeepsO.ite ?_ ?_
    | with_reducible apply keeps_select
    | with_reducible apply keeps_workParamBcast)

theorem keeps_execStepVote {s0 : State} {core n : Nat} {s : State}
    (h0 : Keeps s0 s) : KeepsO s0 (execStepVote core n s) := by
  unfold execStepVote
  repeat' (first
    | with_reducible assumption
    | with_reducible apply KeepsO.next
    | with_reducible exact KeepsO.fault
    | with_reducible apply KeepsE.ok
    | with_reducible exact KeepsE.error
    | with_reducible apply KeepsX.some
    | with_reducible exact KeepsX.none
    | with_reducible refine KeepsO.ite ?_ ?_
    | with_reducible apply keeps_select
    | with_reducible apply keeps_workStepVote)

theorem keeps_execRingPass {s0 : State} {core n : Nat} {s : State}
    (h0 : Keeps s0 s) : KeepsO s0 (execRingPass core n s) := by
  unfold execRingPass
  repeat' (first
    | with_reducible assumption
    | with_reducible apply KeepsO.next
    | with_reducible exact KeepsO.fault
    | with_reducible apply KeepsE.ok
    | with_reducible exact KeepsE.error
    | with_reducible apply KeepsX.some
    | with_reducible exact KeepsX.none
    | with_reducible refine KeepsO.ite ?_ ?_
    | with_reducible apply keeps_select
    | with_reducible apply keeps_workRingPass)

theorem keeps_execUpdateBlocks {s0 : State} {core n : Nat} {s : State}
    (h0 : Keeps s0 s) : KeepsO s0 (execUpdateBlocks core n s) := by
  unfold execUpdateBlocks
  repeat' (first
    | with_reducible assumption
    | with_reducible apply KeepsO.next
    | with_reducible exact KeepsO.fault
    | with_reducible apply KeepsE.ok
    | with_reducible exact KeepsE.error
    | with_reducible apply KeepsX.some
    | with_reducible exact KeepsX.none
    | with_reducible refine KeepsO.ite ?_ ?_
    | with_reducible apply keeps_select
    | with_reducible apply keeps_workUpdateBlocks)

theorem keeps_execGradMerge {s0 : State} {core n : Nat} {s : State}
    (h0 : Keeps s0 s) : KeepsO s0 (execGradMerge core n s) := by
  unfold execGradMerge
  repeat' (first
    | with_reducible assumption
    | with_reducible apply KeepsO.next
    | with_reducible exact KeepsO.fault
    | with_reducible apply KeepsE.ok
    | with_reducible exact KeepsE.error
    | with_reducible apply KeepsX.some
    | with_reducible exact KeepsX.none
    | with_reducible refine KeepsO.ite ?_ ?_
    | with_reducible apply keeps_select
    | with_reducible apply keeps_workGradMerge)

theorem keeps_execCommitShadow {s0 : State} {core n : Nat} {s : State}
    (h0 : Keeps s0 s) : KeepsO s0 (execCommitShadow core n s) := by
  unfold execCommitShadow
  repeat' (first
    | with_reducible assumption
    | with_reducible apply KeepsO.next
    | with_reducible exact KeepsO.fault
    | with_reducible apply KeepsE.ok
    | with_reducible exact KeepsE.error
    | with_reducible apply KeepsX.some
    | with_reducible exact KeepsX.none
    | with_reducible refine KeepsO.ite ?_ ?_
    | with_reducible apply keeps_select
    | with_reducible apply keeps_workCommitShadow)

theorem keeps_execDiscardShadow {s0 : State} {core n : Nat} {s : State}
    (h0 : Keeps s0 s) : KeepsO s0 (execDiscardShadow core n s) := by
  unfold execDiscardShadow
  repeat' (first
    | with_reducible assumption
    | with_reducible apply KeepsO.next
    | with_reducible exact KeepsO.fault
    | with_reducible apply KeepsE.ok
    | with_reducible exact KeepsE.error
    | with_reducible apply KeepsX.some
    | with_reducible exact KeepsX.none
    | with_reducible refine KeepsO.ite ?_ ?_
    | with_reducible apply keeps_select
    | with_reducible apply keeps_workDiscardShadow)

theorem keeps_execReservedCommand {s0 : State} {core n : Nat} {s : State}
    (h0 : Keeps s0 s) : KeepsO s0 (execReservedCommand core n s) := by
  unfold execReservedCommand
  repeat' (first
    | with_reducible assumption
    | with_reducible apply KeepsO.next
    | with_reducible exact KeepsO.fault
    | with_reducible apply KeepsE.ok
    | with_reducible exact KeepsE.error
    | with_reducible apply KeepsX.some
    | with_reducible exact KeepsX.none
    | with_reducible refine KeepsO.ite ?_ ?_
    | with_reducible apply keeps_select
    | with_reducible apply keeps_workReservedCommand)

theorem keeps_execServiceContextOverdue {s0 : State} {core : Nat} {s : State}
    (h0 : Keeps s0 s) : KeepsO s0 (execServiceContextOverdue core s) := by
  unfold execServiceContextOverdue
  repeat' (first
    | with_reducible assumption
    | with_reducible apply KeepsX.some
    | with_reducible exact KeepsX.none
    | with_reducible apply KeepsO.next
    | with_reducible exact KeepsO.fault
    | with_reducible apply KeepsE.ok
    | with_reducible exact KeepsE.error
    | with_reducible apply KeepsX.some
    | with_reducible exact KeepsX.none
    | with_reducible refine KeepsX.ite ?_ ?_
    | with_reducible refine KeepsO.ite ?_ ?_
    | with_reducible refine Keeps.getD ?_ ?_
    | with_reducible apply keeps_State_setCore)

theorem keeps_execOwnerSumStart {s0 : State} {core : Nat} {s : State}
    (h0 : Keeps s0 s) : KeepsO s0 (execOwnerSumStart core s) := by
  unfold execOwnerSumStart
  repeat' (first
    | with_reducible assumption
    | with_reducible apply KeepsX.some
    | with_reducible exact KeepsX.none
    | with_reducible apply KeepsO.next
    | with_reducible exact KeepsO.fault
    | with_reducible apply KeepsE.ok
    | with_reducible exact KeepsE.error
    | with_reducible apply KeepsX.some
    | with_reducible exact KeepsX.none
    | with_reducible refine KeepsX.ite ?_ ?_
    | with_reducible refine KeepsO.ite ?_ ?_
    | with_reducible apply keeps_execOwnerSum
    | with_reducible refine Keeps.ite ?_ ?_
    | split
    | with_reducible intro _
    | dsimp only)

theorem keeps_State_sampleSupply {s0 : State} {s : State}
    (h0 : Keeps s0 s) : Keeps s0 (State.sampleSupply s) := by
  unfold State.sampleSupply
  repeat' (first
    | with_reducible assumption
    | with_reducible refine Keeps.ite ?_ ?_
    | split
    | with_reducible intro _
    | dsimp only
    | with_reducible refine Keeps.mkState (by with_reducible assumption))

theorem keeps_State_shedLoad {s0 : State} {s : State}
    (h0 : Keeps s0 s) : Keeps s0 (State.shedLoad s) := by
  unfold State.shedLoad
  repeat' (first
    | with_reducible assumption
    | with_reducible apply Keeps.foldl
    | with_reducible apply Keeps.foldlQ
    | with_reducible apply Keeps.foldlP
    | with_reducible apply keeps_State_mapSup
    | with_reducible apply keeps_State_portFall
    | with_reducible refine Keeps.ite ?_ ?_)

theorem keeps_execSagWarning {s0 : State} {s : State}
    (h0 : Keeps s0 s) : KeepsO s0 (execSagWarning s) := by
  unfold execSagWarning
  repeat' (first
    | with_reducible assumption
    | with_reducible apply KeepsO.next
    | with_reducible exact KeepsO.fault
    | with_reducible apply KeepsE.ok
    | with_reducible exact KeepsE.error
    | with_reducible apply KeepsX.some
    | with_reducible exact KeepsX.none
    | with_reducible refine KeepsO.ite ?_ ?_
    | with_reducible apply keeps_State_mapBoot
    | with_reducible apply keeps_State_mapSup
    | with_reducible apply keeps_State_shedLoad
    | with_reducible refine Keeps.ite ?_ ?_)

theorem keeps_execSagInN {s0 : State} {s : State}
    (h0 : Keeps s0 s) : KeepsO s0 (execSagInN s) := by
  unfold execSagInN
  repeat' (first
    | with_reducible assumption
    | with_reducible apply KeepsO.next
    | with_reducible exact KeepsO.fault
    | with_reducible apply KeepsE.ok
    | with_reducible exact KeepsE.error
    | with_reducible apply KeepsX.some
    | with_reducible exact KeepsX.none
    | with_reducible refine KeepsO.ite ?_ ?_
    | with_reducible apply keeps_State_mapSup
    | with_reducible apply keeps_State_shedLoad)

theorem keeps_execShedEnd {s0 : State} {s : State}
    (h0 : Keeps s0 s) : KeepsO s0 (execShedEnd s) := by
  unfold execShedEnd
  repeat' (first
    | with_reducible assumption
    | with_reducible apply KeepsO.next
    | with_reducible exact KeepsO.fault
    | with_reducible apply KeepsE.ok
    | with_reducible exact KeepsE.error
    | with_reducible apply KeepsX.some
    | with_reducible exact KeepsX.none
    | with_reducible refine KeepsO.ite ?_ ?_
    | with_reducible apply Keeps.foldl
    | with_reducible apply Keeps.foldlQ
    | with_reducible apply Keeps.foldlP
    | with_reducible apply keeps_State_mapSup
    | with_reducible apply keeps_State_perst)

theorem keeps_State_beginSave {s0 : State} {s : State} {reason : Nat}
    (h0 : Keeps s0 s) : Keeps s0 (State.beginSave s reason) := by
  unfold State.beginSave
  repeat' (first
    | with_reducible assumption
    | with_reducible apply Keeps.foldl
    | with_reducible apply Keeps.foldlQ
    | with_reducible apply Keeps.foldlP
    | with_reducible apply keeps_State_mapBoot
    | with_reducible apply keeps_State_mapFlt
    | with_reducible apply keeps_State_sampleSupply
    | with_reducible refine Keeps.ite ?_ ?_
    | split
    | with_reducible intro _
    | dsimp only
    | with_reducible refine Keeps.mkState (by with_reducible assumption)
    | with_reducible refine Keeps.mkState (keeps_State_mapBoot ?_))

theorem keeps_execSaveStart {s0 : State} {s : State}
    (h0 : Keeps s0 s) : KeepsO s0 (execSaveStart s) := by
  unfold execSaveStart
  repeat' (first
    | with_reducible assumption
    | with_reducible apply KeepsO.next
    | with_reducible exact KeepsO.fault
    | with_reducible apply KeepsE.ok
    | with_reducible exact KeepsE.error
    | with_reducible apply KeepsX.some
    | with_reducible exact KeepsX.none
    | with_reducible refine KeepsO.ite ?_ ?_
    | with_reducible apply keeps_State_beginSave
    | with_reducible apply keeps_State_mapSup
    | with_reducible refine Keeps.ite ?_ ?_)

theorem keeps_execSagInNHeld {s0 : State} {s : State}
    (h0 : Keeps s0 s) : KeepsO s0 (execSagInNHeld s) := by
  unfold execSagInNHeld
  repeat' (first
    | with_reducible assumption
    | with_reducible apply KeepsO.next
    | with_reducible exact KeepsO.fault
    | with_reducible apply KeepsE.ok
    | with_reducible exact KeepsE.error
    | with_reducible apply KeepsX.some
    | with_reducible exact KeepsX.none
    | with_reducible refine KeepsO.ite ?_ ?_
    | with_reducible apply keeps_State_beginSave
    | with_reducible refine Keeps.ite ?_ ?_)

theorem keeps_execThermalShutdown {s0 : State} {s : State}
    (h0 : Keeps s0 s) : KeepsO s0 (execThermalShutdown s) := by
  unfold execThermalShutdown
  repeat' (first
    | with_reducible assumption
    | with_reducible apply KeepsO.next
    | with_reducible exact KeepsO.fault
    | with_reducible apply KeepsE.ok
    | with_reducible exact KeepsE.error
    | with_reducible apply KeepsX.some
    | with_reducible exact KeepsX.none
    | with_reducible refine KeepsO.ite ?_ ?_
    | with_reducible apply keeps_State_beginSave
    | with_reducible apply keeps_State_mapSup
    | with_reducible refine Keeps.ite ?_ ?_)

theorem keeps_State_sealSave {s0 : State} {s : State}
    (h0 : Keeps s0 s) : Keeps s0 (State.sealSave s) := by
  unfold State.sealSave
  repeat' (first
    | with_reducible assumption
    | with_reducible refine KeepsQ.fst (keeps_State_read ?_)
    | with_reducible refine KeepsQ.out (keeps_State_read ?_) (by assumption)
    | with_reducible apply keeps_State_read
    | with_reducible refine KeepsQ.out (KeepsQ.mk ?_) (by assumption)
    | with_reducible refine KeepsQ.out (KeepsQ.ite (KeepsQ.mk ?_) (keeps_State_read ?_)) (by assumption)
    | with_reducible refine Keeps.ite ?_ ?_
    | split
    | with_reducible intro _
    | dsimp only
    | with_reducible refine Keeps.mkState (by with_reducible assumption))

theorem keeps_execSaveComplete {s0 : State} {s : State}
    (h0 : Keeps s0 s) : KeepsO s0 (execSaveComplete s) := by
  unfold execSaveComplete
  repeat' (first
    | with_reducible assumption
    | with_reducible apply KeepsO.next
    | with_reducible exact KeepsO.fault
    | with_reducible apply KeepsE.ok
    | with_reducible exact KeepsE.error
    | with_reducible apply KeepsX.some
    | with_reducible exact KeepsX.none
    | with_reducible refine KeepsO.ite ?_ ?_
    | with_reducible apply keeps_State_devReset
    | with_reducible apply keeps_State_sealSave
    | with_reducible refine Keeps.ite ?_ ?_
    | split
    | with_reducible intro _
    | dsimp only
    | with_reducible refine Keeps.mkState (by with_reducible assumption)
    | with_reducible refine Keeps.mkState (keeps_State_devReset ?_)
    | with_reducible refine Keeps.mkState (keeps_State_sealSave ?_))

theorem keeps_State_leaveHold {s0 : State} {s : State}
    (h0 : Keeps s0 s) : Keeps s0 (State.leaveHold s) := by
  unfold State.leaveHold
  repeat' (first
    | with_reducible assumption
    | with_reducible apply keeps_State_devReset
    | with_reducible apply keeps_State_startUp
    | with_reducible refine Keeps.ite ?_ ?_)

theorem keeps_execSafeHoldRecovery {s0 : State} {s : State}
    (h0 : Keeps s0 s) : KeepsO s0 (execSafeHoldRecovery s) := by
  unfold execSafeHoldRecovery
  repeat' (first
    | with_reducible assumption
    | with_reducible apply KeepsO.next
    | with_reducible exact KeepsO.fault
    | with_reducible apply KeepsE.ok
    | with_reducible exact KeepsE.error
    | with_reducible apply KeepsX.some
    | with_reducible exact KeepsX.none
    | with_reducible refine KeepsO.ite ?_ ?_
    | with_reducible apply keeps_State_leaveHold
    | with_reducible apply keeps_State_mapSup
    | with_reducible refine Keeps.ite ?_ ?_)

theorem keeps_execSafeHoldCollapse {s0 : State} {s : State}
    (h0 : Keeps s0 s) : KeepsO s0 (execSafeHoldCollapse s) := by
  unfold execSafeHoldCollapse
  repeat' (first
    | with_reducible assumption
    | with_reducible apply KeepsO.next
    | with_reducible exact KeepsO.fault
    | with_reducible apply KeepsE.ok
    | with_reducible exact KeepsE.error
    | with_reducible apply KeepsX.some
    | with_reducible exact KeepsX.none
    | with_reducible refine KeepsO.ite ?_ ?_
    | with_reducible apply keeps_State_leaveHold
    | with_reducible apply keeps_State_mapSup
    | with_reducible refine Keeps.ite ?_ ?_)

theorem keeps_execThermInN {s0 : State} {s : State}
    (h0 : Keeps s0 s) : KeepsO s0 (execThermInN s) := by
  unfold execThermInN
  repeat' (first
    | with_reducible assumption
    | with_reducible apply KeepsO.next
    | with_reducible exact KeepsO.fault
    | with_reducible apply KeepsE.ok
    | with_reducible exact KeepsE.error
    | with_reducible apply KeepsX.some
    | with_reducible exact KeepsX.none
    | with_reducible refine KeepsO.ite ?_ ?_
    | with_reducible apply keeps_State_mapSup
    | with_reducible refine Keeps.ite ?_ ?_)

theorem keeps_execInputRearm {s0 : State} {i : BoardInput} {s : State}
    (h0 : Keeps s0 s) : KeepsO s0 (execInputRearm i s) := by
  unfold execInputRearm
  repeat' (first
    | with_reducible assumption
    | with_reducible apply KeepsO.next
    | with_reducible exact KeepsO.fault
    | with_reducible apply KeepsE.ok
    | with_reducible exact KeepsE.error
    | with_reducible apply KeepsX.some
    | with_reducible exact KeepsX.none
    | with_reducible refine KeepsO.ite ?_ ?_
    | with_reducible apply keeps_State_mapSup
    | with_reducible apply keeps_State_perstFree
    | with_reducible apply keeps_State_standbyPhase
    | with_reducible refine Keeps.ite ?_ ?_
    | split)

theorem keeps_execBoardInputGlitch {s0 : State} {i : BoardInput} {s : State}
    (h0 : Keeps s0 s) : KeepsO s0 (execBoardInputGlitch i s) := by
  unfold execBoardInputGlitch
  repeat' (first
    | with_reducible assumption
    | with_reducible apply KeepsO.next
    | with_reducible exact KeepsO.fault
    | with_reducible apply KeepsE.ok
    | with_reducible exact KeepsE.error
    | with_reducible apply KeepsX.some
    | with_reducible exact KeepsX.none
    | with_reducible refine KeepsO.ite ?_ ?_
    | with_reducible apply keeps_State_mapSup)

theorem keeps_execFaultNHoldExpiry {s0 : State} {s : State}
    (h0 : Keeps s0 s) : KeepsO s0 (execFaultNHoldExpiry s) := by
  unfold execFaultNHoldExpiry
  repeat' (first
    | with_reducible assumption
    | with_reducible apply KeepsO.next
    | with_reducible exact KeepsO.fault
    | with_reducible apply KeepsE.ok
    | with_reducible exact KeepsE.error
    | with_reducible apply KeepsX.some
    | with_reducible exact KeepsX.none
    | with_reducible refine KeepsO.ite ?_ ?_
    | with_reducible apply keeps_State_mapSup)

theorem keeps_State_smbRead {s0 : State} {s : State} {v : Nat}
    (h0 : Keeps s0 s) : Keeps s0 (State.smbRead s v) := by
  unfold State.smbRead
  repeat' (first
    | with_reducible assumption
    | with_reducible refine Keeps.ite ?_ ?_
    | split
    | with_reducible intro _
    | dsimp only
    | with_reducible refine Keeps.mkState (by with_reducible assumption))

theorem keeps_execSmbDevstate {s0 : State} {s : State}
    (h0 : Keeps s0 s) : KeepsO s0 (execSmbDevstate s) := by
  unfold execSmbDevstate
  repeat' (first
    | with_reducible assumption
    | with_reducible apply KeepsO.next
    | with_reducible exact KeepsO.fault
    | with_reducible apply KeepsE.ok
    | with_reducible exact KeepsE.error
    | with_reducible apply KeepsX.some
    | with_reducible exact KeepsX.none
    | with_reducible refine KeepsO.ite ?_ ?_
    | with_reducible apply keeps_State_smbRead)

theorem keeps_execSmbHottestReading {s0 : State} {s : State}
    (h0 : Keeps s0 s) : KeepsO s0 (execSmbHottestReading s) := by
  unfold execSmbHottestReading
  repeat' (first
    | with_reducible assumption
    | with_reducible apply KeepsO.next
    | with_reducible exact KeepsO.fault
    | with_reducible apply KeepsE.ok
    | with_reducible exact KeepsE.error
    | with_reducible apply KeepsX.some
    | with_reducible exact KeepsX.none
    | with_reducible refine KeepsO.ite ?_ ?_
    | with_reducible apply keeps_State_smbRead)

theorem keeps_execSmbInputPower {s0 : State} {s : State}
    (h0 : Keeps s0 s) : KeepsO s0 (execSmbInputPower s) := by
  unfold execSmbInputPower
  repeat' (first
    | with_reducible assumption
    | with_reducible apply KeepsO.next
    | with_reducible exact KeepsO.fault
    | with_reducible apply KeepsE.ok
    | with_reducible exact KeepsE.error
    | with_reducible apply KeepsX.some
    | with_reducible exact KeepsX.none
    | with_reducible refine KeepsO.ite ?_ ?_
    | with_reducible apply keeps_State_smbRead)

theorem keeps_execSmbVin {s0 : State} {s : State}
    (h0 : Keeps s0 s) : KeepsO s0 (execSmbVin s) := by
  unfold execSmbVin
  repeat' (first
    | with_reducible assumption
    | with_reducible apply KeepsO.next
    | with_reducible exact KeepsO.fault
    | with_reducible apply KeepsE.ok
    | with_reducible exact KeepsE.error
    | with_reducible apply KeepsX.some
    | with_reducible exact KeepsX.none
    | with_reducible refine KeepsO.ite ?_ ?_
    | with_reducible apply keeps_State_sampleSupply
    | with_reducible apply keeps_State_smbRead)

theorem keeps_execSmbSaveStatus {s0 : State} {s : State}
    (h0 : Keeps s0 s) : KeepsO s0 (execSmbSaveStatus s) := by
  unfold execSmbSaveStatus
  repeat' (first
    | with_reducible assumption
    | with_reducible apply KeepsO.next
    | with_reducible exact KeepsO.fault
    | with_reducible apply KeepsE.ok
    | with_reducible exact KeepsE.error
    | with_reducible apply KeepsX.some
    | with_reducible exact KeepsX.none
    | with_reducible refine KeepsO.ite ?_ ?_
    | with_reducible apply keeps_State_smbRead)

theorem keeps_execSmbBootStatus {s0 : State} {s : State}
    (h0 : Keeps s0 s) : KeepsO s0 (execSmbBootStatus s) := by
  unfold execSmbBootStatus
  repeat' (first
    | with_reducible assumption
    | with_reducible apply KeepsO.next
    | with_reducible exact KeepsO.fault
    | with_reducible apply KeepsE.ok
    | with_reducible exact KeepsE.error
    | with_reducible apply KeepsX.some
    | with_reducible exact KeepsX.none
    | with_reducible refine KeepsO.ite ?_ ?_
    | with_reducible apply keeps_State_smbRead)

theorem keeps_execAlertResponseAddress {s0 : State} {s : State}
    (h0 : Keeps s0 s) : KeepsO s0 (execAlertResponseAddress s) := by
  unfold execAlertResponseAddress
  repeat' (first
    | with_reducible assumption
    | with_reducible apply KeepsO.next
    | with_reducible exact KeepsO.fault
    | with_reducible apply KeepsE.ok
    | with_reducible exact KeepsE.error
    | with_reducible apply KeepsX.some
    | with_reducible exact KeepsX.none
    | with_reducible refine KeepsO.ite ?_ ?_
    | with_reducible apply keeps_State_mapSup
    | with_reducible refine Keeps.ite ?_ ?_
    | split
    | with_reducible intro _
    | dsimp only
    | with_reducible refine Keeps.mkState (by with_reducible assumption)
    | with_reducible refine Keeps.mkState (keeps_State_mapSup ?_))

theorem keeps_execSmbusUnlistedCommand {s0 : State} {_code : Nat} {s : State}
    (h0 : Keeps s0 s) : KeepsO s0 (execSmbusUnlistedCommand _code s) := by
  unfold execSmbusUnlistedCommand
  repeat' (first
    | with_reducible assumption
    | with_reducible apply KeepsO.next)

theorem keeps_State_winRead {s0 : State} {s : State} {core off : Nat}
    (h0 : Keeps s0 s) : KeepsP s0 (State.winRead s core off) := by
  unfold State.winRead
  repeat' (first
    | with_reducible assumption
    | with_reducible apply KeepsP.mk
    | with_reducible apply keeps_State_setCore
    | with_reducible refine Keeps.ite ?_ ?_)

theorem keeps_State_writeCtxCtrl {s0 : State} {s : State} {core n v : Nat}
    (h0 : Keeps s0 s) : KeepsW s0 (State.writeCtxCtrl s core n v) := by
  unfold State.writeCtxCtrl
  repeat' (first
    | with_reducible assumption
    | with_reducible apply KeepsW.done
    | with_reducible exact KeepsW.refused
    | with_reducible exact KeepsW.wait
    | with_reducible apply KeepsW.onlyIf
    | with_reducible refine KeepsW.ite ?_ ?_
    | with_reducible apply keeps_State_done
    | with_reducible apply keeps_State_endOne
    | with_reducible apply keeps_State_mapCore
    | with_reducible apply keeps_State_mapSlot
    | with_reducible apply keeps_State_partEvent)

theorem keeps_State_writeCmdptr {s0 : State} {s : State} {core n v : Nat}
    (h0 : Keeps s0 s) : KeepsW s0 (State.writeCmdptr s core n v) := by
  unfold State.writeCmdptr
  repeat' (first
    | with_reducible assumption
    | with_reducible apply KeepsX.some
    | with_reducible exact KeepsX.none
    | with_reducible apply KeepsW.done
    | with_reducible exact KeepsW.refused
    | with_reducible exact KeepsW.wait
    | with_reducible apply KeepsW.onlyIf
    | with_reducible refine KeepsW.ite ?_ ?_
    | with_reducible refine KeepsX.ite ?_ ?_
    | with_reducible apply keeps_State_done
    | with_reducible apply keeps_State_emptyBuf
    | with_reducible apply keeps_State_setSlot)

theorem keeps_State_writeBB {s0 : State} {s : State} {core n i : Nat} {limit : Bool} {v : Nat}
    (h0 : Keeps s0 s) : KeepsW s0 (State.writeBB s core n i limit v) := by
  unfold State.writeBB
  repeat' (first
    | with_reducible assumption
    | with_reducible apply KeepsW.done
    | with_reducible exact KeepsW.refused
    | with_reducible exact KeepsW.wait
    | with_reducible apply KeepsW.onlyIf
    | with_reducible refine KeepsW.ite ?_ ?_
    | with_reducible apply keeps_State_done
    | with_reducible apply keeps_State_emptyBuf
    | with_reducible apply keeps_State_setSlot
    | with_reducible refine Keeps.ite ?_ ?_)

theorem keeps_State_writeCirc {s0 : State} {s : State} {core g v : Nat}
    (h0 : Keeps s0 s) : KeepsW s0 (State.writeCirc s core g v) := by
  unfold State.writeCirc
  repeat' (first
    | with_reducible assumption
    | with_reducible apply KeepsW.done
    | with_reducible exact KeepsW.refused
    | with_reducible exact KeepsW.wait
    | with_reducible apply KeepsW.onlyIf
    | with_reducible refine KeepsW.ite ?_ ?_
    | with_reducible apply keeps_State_done
    | with_reducible apply keeps_State_setCore)

theorem keeps_State_writeHead {s0 : State} {s : State} {core g v : Nat}
    (h0 : Keeps s0 s) : KeepsW s0 (State.writeHead s core g v) := by
  unfold State.writeHead
  repeat' (first
    | with_reducible assumption
    | with_reducible apply KeepsX.some
    | with_reducible exact KeepsX.none
    | with_reducible apply KeepsW.done
    | with_reducible exact KeepsW.refused
    | with_reducible exact KeepsW.wait
    | with_reducible apply KeepsW.onlyIf
    | with_reducible refine KeepsW.ite ?_ ?_
    | with_reducible refine KeepsX.ite ?_ ?_
    | with_reducible apply keeps_State_done
    | with_reducible apply keeps_State_setCore)

theorem keeps_State_setTarget {s0 : State} {s : State} {core b t : Nat}
    (h0 : Keeps s0 s) : KeepsW s0 (State.setTarget s core b t) := by
  unfold State.setTarget
  repeat' (first
    | with_reducible assumption
    | with_reducible apply KeepsW.done
    | with_reducible exact KeepsW.refused
    | with_reducible exact KeepsW.wait
    | with_reducible apply KeepsW.onlyIf
    | with_reducible refine KeepsW.ite ?_ ?_
    | with_reducible apply keeps_State_done
    | with_reducible apply keeps_State_setCore)

theorem keeps_State_writeBankPwr {s0 : State} {s : State} {core v : Nat}
    (h0 : Keeps s0 s) : KeepsW s0 (State.writeBankPwr s core v) := by
  unfold State.writeBankPwr
  repeat' (first
    | with_reducible assumption
    | with_reducible apply KeepsW.done
    | with_reducible exact KeepsW.refused
    | with_reducible exact KeepsW.wait
    | with_reducible apply KeepsW.onlyIf
    | with_reducible refine KeepsW.ite ?_ ?_
    | with_reducible apply Keeps.foldl
    | with_reducible apply Keeps.foldlQ
    | with_reducible apply Keeps.foldlP
    | with_reducible apply keeps_State_done
    | with_reducible apply keeps_State_setCore)

theorem keeps_State_writeStSlot {s0 : State} {s : State} {core n v : Nat}
    (h0 : Keeps s0 s) : KeepsW s0 (State.writeStSlot s core n v) := by
  unfold State.writeStSlot
  repeat' (first
    | with_reducible assumption
    | with_reducible apply KeepsW.done
    | with_reducible exact KeepsW.refused
    | with_reducible exact KeepsW.wait
    | with_reducible apply KeepsW.onlyIf
    | with_reducible refine KeepsW.ite ?_ ?_
    | with_reducible apply keeps_State_done
    | with_reducible apply keeps_State_setCore)

theorem keeps_State_writeChain {s0 : State} {s : State} {core v : Nat}
    (h0 : Keeps s0 s) : KeepsW s0 (State.writeChain s core v) := by
  unfold State.writeChain
  repeat' (first
    | with_reducible assumption
    | with_reducible apply KeepsW.done
    | with_reducible exact KeepsW.refused
    | with_reducible exact KeepsW.wait
    | with_reducible apply KeepsW.onlyIf
    | with_reducible refine KeepsW.ite ?_ ?_
    | with_reducible apply keeps_State_done
    | with_reducible apply keeps_State_setCore)

theorem keeps_State_writeLarder {s0 : State} {s : State} {core : Nat} {spill : Bool} {v : Nat}
    (h0 : Keeps s0 s) : KeepsW s0 (State.writeLarder s core spill v) := by
  unfold State.writeLarder
  repeat' (first
    | with_reducible assumption
    | with_reducible apply KeepsW.done
    | with_reducible exact KeepsW.refused
    | with_reducible exact KeepsW.wait
    | with_reducible apply KeepsW.onlyIf
    | with_reducible refine KeepsW.ite ?_ ?_
    | with_reducible apply keeps_State_done
    | with_reducible apply keeps_State_setCore)

theorem keeps_State_winWrite {s0 : State} {s : State} {w : Who} {core off v : Nat}
    (h0 : Keeps s0 s) : KeepsW s0 (State.winWrite s w core off v) := by
  unfold State.winWrite
  repeat' (first
    | with_reducible assumption
    | with_reducible apply KeepsX.some
    | with_reducible exact KeepsX.none
    | with_reducible apply KeepsW.done
    | with_reducible exact KeepsW.refused
    | with_reducible exact KeepsW.wait
    | with_reducible apply KeepsW.onlyIf
    | with_reducible refine KeepsW.ite ?_ ?_
    | with_reducible refine KeepsX.ite ?_ ?_
    | with_reducible apply keeps_State_done
    | with_reducible apply keeps_State_mapSlot
    | with_reducible apply keeps_State_setCore
    | with_reducible refine KeepsW.out (keeps_State_writeBB ?_) (by assumption)
    | with_reducible apply keeps_State_writeBB
    | with_reducible refine KeepsW.out (keeps_State_writeBankPwr ?_) (by assumption)
    | with_reducible apply keeps_State_writeBankPwr
    | with_reducible refine KeepsW.out (keeps_State_writeChain ?_) (by assumption)
    | with_reducible apply keeps_State_writeChain
    | with_reducible refine KeepsW.out (keeps_State_writeCirc ?_) (by assumption)
    | with_reducible apply keeps_State_writeCirc
    | with_reducible refine KeepsW.out (keeps_State_writeCmdptr ?_) (by assumption)
    | with_reducible apply keeps_State_writeCmdptr
    | with_reducible refine KeepsW.out (keeps_State_writeCtxCtrl ?_) (by assumption)
    | with_reducible apply keeps_State_writeCtxCtrl
    | with_reducible refine KeepsW.out (keeps_State_writeHead ?_) (by assumption)
    | with_reducible apply keeps_State_writeHead
    | with_reducible refine KeepsW.out (keeps_State_writeLarder ?_) (by assumption)
    | with_reducible apply keeps_State_writeLarder
    | with_reducible refine KeepsW.out (keeps_State_writeStSlot ?_) (by assumption)
    | with_reducible apply keeps_State_writeStSlot)

theorem keeps_State_globalClear {s0 : State} {s : State} {port func off : Nat}
    (h0 : Keeps s0 s) : Keeps s0 (State.globalClear s port func off) := by
  unfold State.globalClear
  repeat' (first
    | with_reducible assumption
    | with_reducible apply keeps_State_mapColl
    | with_reducible apply keeps_State_mapJcnt
    | with_reducible apply keeps_State_mapPart
    | with_reducible apply keeps_State_mapPort
    | with_reducible apply keeps_State_setHport
    | with_reducible refine Keeps.ite ?_ ?_
    | split
    | with_reducible intro _
    | dsimp only
    | with_reducible refine Keeps.mkState (by with_reducible assumption))

theorem keeps_State_bar0Read {s0 : State} {s : State} {port func off : Nat}
    (h0 : Keeps s0 s) : KeepsP s0 (State.bar0Read s port func off) := by
  unfold State.bar0Read
  repeat' (first
    | with_reducible assumption
    | with_reducible apply KeepsX.some
    | with_reducible exact KeepsX.none
    | with_reducible refine KeepsX.ite ?_ ?_
    | with_reducible apply KeepsP.mk
    | with_reducible apply keeps_State_globalClear
    | with_reducible apply keeps_State_mapFunc
    | with_reducible apply keeps_State_sampleSupply
    | with_reducible refine Keeps.ite ?_ ?_
    | split
    | with_reducible intro _
    | dsimp only)

theorem keeps_State_bar0Run {s0 s : State} {port func off n : Nat} (h0 : Keeps s0 s) : KeepsP s0 (State.bar0Run s port func off n) := by
  induction n generalizing s off with
  | zero => exact h0
  | succ n ih =>
    unfold State.bar0Run
    exact KeepsP.mk (ih (keeps_State_bar0Read h0).snd).snd

theorem keeps_State_bar0Bytes {s0 s : State} {port func off len : Nat} (h0 : Keeps s0 s) :
    KeepsP s0 (State.bar0Bytes s port func off len) := keeps_State_bar0Run (n := (off % 8 + len + 7) / 8) h0

theorem keeps_State_writeJig {s0 : State} {s : State} {v : Nat}
    (h0 : Keeps s0 s) : Keeps s0 (State.writeJig s v) := by
  unfold State.writeJig
  repeat' (first
    | with_reducible assumption
    | with_reducible apply keeps_State_mapFab
    | with_reducible refine Keeps.ite ?_ ?_)

theorem keeps_State_setGateway {s0 : State} {s : State} {p : Nat} {high : Bool} {v : Nat}
    (h0 : Keeps s0 s) : Keeps s0 (State.setGateway s p high v) := by
  unfold State.setGateway
  repeat' (first
    | with_reducible assumption
    | with_reducible apply keeps_State_mapPort
    | with_reducible apply keeps_State_onLink
    | with_reducible refine Keeps.ite ?_ ?_)

theorem keeps_State_globalWrite {s0 : State} {s : State} {port func off v : Nat}
    (h0 : Keeps s0 s) : Keeps s0 (State.globalWrite s port func off v) := by
  unfold State.globalWrite
  repeat' (first
    | with_reducible assumption
    | with_reducible apply KeepsX.some
    | with_reducible exact KeepsX.none
    | with_reducible refine KeepsX.ite ?_ ?_
    | with_reducible refine Keeps.orNext ?_ ?_
    | with_reducible apply keeps_execCollGrpWrite
    | with_reducible apply keeps_execCollStateWrite
    | with_reducible apply keeps_execPwrCapWrite
    | with_reducible apply keeps_execQuadConfigWrite
    | with_reducible apply keeps_State_mapPort
    | with_reducible apply keeps_State_setCluster
    | with_reducible apply keeps_State_setGateway
    | with_reducible apply keeps_State_unpause
    | with_reducible apply keeps_State_writeJig
    | with_reducible refine Keeps.ite ?_ ?_
    | split
    | with_reducible intro _
    | dsimp only
    | with_reducible refine Keeps.mkState (by with_reducible assumption))

theorem keeps_State_ringWrite {s0 : State} {s : State} {port func ring reg v : Nat}
    (h0 : Keeps s0 s) : Keeps s0 (State.ringWrite s port func ring reg v) := by
  unfold State.ringWrite
  repeat' (first
    | with_reducible assumption
    | with_reducible apply keeps_State_ringCfgWrite
    | with_reducible apply keeps_State_setRing
    | with_reducible refine Keeps.ite ?_ ?_
    | split)

theorem keeps_State_msixWrite {s0 : State} {s : State} {port func off v : Nat}
    (h0 : Keeps s0 s) : Keeps s0 (State.msixWrite s port func off v) := by
  unfold State.msixWrite
  repeat' (first
    | with_reducible assumption
    | with_reducible apply keeps_State_setFunc
    | with_reducible apply keeps_State_setMask
    | with_reducible refine Keeps.ite ?_ ?_)

theorem keeps_State_bar0Write {s0 : State} {s : State} {port func off v : Nat}
    (h0 : Keeps s0 s) : Keeps s0 (State.bar0Write s port func off v) := by
  unfold State.bar0Write
  repeat' (first
    | with_reducible assumption
    | with_reducible apply keeps_State_cqHead
    | with_reducible apply keeps_State_globalWrite
    | with_reducible apply keeps_State_mapFunc
    | with_reducible apply keeps_State_msixWrite
    | with_reducible apply keeps_State_ringWrite
    | with_reducible apply keeps_State_sqTail
    | with_reducible refine Keeps.ite ?_ ?_)

theorem keeps_State_refuse {s0 : State} {s : State} {w : Who} {status : Nat}
    (h0 : Keeps s0 s) : Keeps s0 (State.refuse s w status) := by
  unfold State.refuse
  repeat' (first
    | with_reducible assumption
    | with_reducible apply keeps_State_faultCtx
    | with_reducible refine Keeps.ite ?_ ?_
    | split)

theorem keeps_State_winAccess {s0 : State} {s : State} {w : Who} {core off v : Nat}
    (h0 : Keeps s0 s) : Keeps s0 (State.winAccess s w core off v) := by
  unfold State.winAccess
  repeat' (first
    | with_reducible assumption
    | with_reducible apply keeps_State_done
    | with_reducible apply keeps_State_noteRefused
    | with_reducible apply keeps_State_refuse
    | with_reducible refine KeepsW.out (keeps_State_winWrite ?_) (by assumption)
    | with_reducible apply keeps_State_winWrite
    | with_reducible refine Keeps.ite ?_ ?_
    | split)

theorem keeps_winCmd {s0 : State} {who : Who} {core off : Nat} {v : Nat} {s : State}
    (h0 : Keeps s0 s) : KeepsO s0 (winCmd who core off v s) := by
  unfold winCmd
  repeat' (first
    | with_reducible assumption
    | with_reducible apply KeepsO.next
    | with_reducible exact KeepsO.fault
    | with_reducible apply KeepsE.ok
    | with_reducible exact KeepsE.error
    | with_reducible apply KeepsX.some
    | with_reducible exact KeepsX.none
    | with_reducible refine KeepsO.ite ?_ ?_
    | with_reducible apply keeps_State_winAccess)

theorem keeps_execToksigLWrite {s0 : State} {who : Who} {core l : Nat} {v : W64} {s : State}
    (h0 : Keeps s0 s) : KeepsO s0 (execToksigLWrite who core l v s) := by
  unfold execToksigLWrite
  repeat' (first
    | with_reducible assumption
    | with_reducible apply KeepsO.next
    | with_reducible exact KeepsO.fault
    | with_reducible apply KeepsE.ok
    | with_reducible exact KeepsE.error
    | with_reducible apply KeepsX.some
    | with_reducible exact KeepsX.none
    | with_reducible refine KeepsO.ite ?_ ?_
    | with_reducible apply keeps_winCmd)

theorem keeps_execCtxCtrlStart {s0 : State} {who : Who} {core n : Nat} {v : W64} {s : State}
    (h0 : Keeps s0 s) : KeepsO s0 (execCtxCtrlStart who core n v s) := by
  unfold execCtxCtrlStart
  repeat' (first
    | with_reducible assumption
    | with_reducible apply KeepsO.next
    | with_reducible exact KeepsO.fault
    | with_reducible apply KeepsE.ok
    | with_reducible exact KeepsE.error
    | with_reducible apply KeepsX.some
    | with_reducible exact KeepsX.none
    | with_reducible refine KeepsO.ite ?_ ?_
    | with_reducible apply keeps_winCmd)

theorem keeps_execCtxCtrlStop {s0 : State} {who : Who} {core n : Nat} {v : W64} {s : State}
    (h0 : Keeps s0 s) : KeepsO s0 (execCtxCtrlStop who core n v s) := by
  unfold execCtxCtrlStop
  repeat' (first
    | with_reducible assumption
    | with_reducible apply KeepsO.next
    | with_reducible exact KeepsO.fault
    | with_reducible apply KeepsE.ok
    | with_reducible exact KeepsE.error
    | with_reducible apply KeepsX.some
    | with_reducible exact KeepsX.none
    | with_reducible refine KeepsO.ite ?_ ?_
    | with_reducible apply keeps_winCmd)

theorem keeps_execCtxCmdptrWrite {s0 : State} {who : Who} {core n : Nat} {v : W64} {s : State}
    (h0 : Keeps s0 s) : KeepsO s0 (execCtxCmdptrWrite who core n v s) := by
  unfold execCtxCmdptrWrite
  repeat' (first
    | with_reducible assumption
    | with_reducible apply KeepsO.next
    | with_reducible exact KeepsO.fault
    | with_reducible apply KeepsE.ok
    | with_reducible exact KeepsE.error
    | with_reducible apply KeepsX.some
    | with_reducible exact KeepsX.none
    | with_reducible refine KeepsO.ite ?_ ?_
    | with_reducible apply keeps_winCmd)

theorem keeps_execArrRepairWrite {s0 : State} {who : Who} {core a : Nat} {v : W64} {s : State}
    (h0 : Keeps s0 s) : KeepsO s0 (execArrRepairWrite who core a v s) := by
  unfold execArrRepairWrite
  repeat' (first
    | with_reducible assumption
    | with_reducible apply KeepsO.next
    | with_reducible exact KeepsO.fault
    | with_reducible apply KeepsE.ok
    | with_reducible exact KeepsE.error
    | with_reducible apply KeepsX.some
    | with_reducible exact KeepsX.none
    | with_reducible refine KeepsO.ite ?_ ?_
    | with_reducible apply keeps_winCmd)

theorem keeps_bankTarget {s0 : State} {who : Who} {core b t : Nat} {s : State}
    (h0 : Keeps s0 s) : KeepsO s0 (bankTarget who core b t s) := by
  unfold bankTarget
  repeat' (first
    | with_reducible assumption
    | with_reducible apply KeepsO.next
    | with_reducible exact KeepsO.fault
    | with_reducible apply KeepsE.ok
    | with_reducible exact KeepsE.error
    | with_reducible apply KeepsX.some
    | with_reducible exact KeepsX.none
    | with_reducible refine KeepsO.ite ?_ ?_
    | with_reducible apply keeps_State_done
    | with_reducible apply keeps_State_noteRefused
    | with_reducible apply keeps_State_refuse
    | with_reducible refine KeepsW.out (keeps_State_setTarget ?_) (by assumption)
    | with_reducible apply keeps_State_setTarget
    | with_reducible refine Keeps.ite ?_ ?_
    | split)

theorem keeps_execBankTargetOn {s0 : State} {who : Who} {core b : Nat} {s : State}
    (h0 : Keeps s0 s) : KeepsO s0 (execBankTargetOn who core b s) := by
  unfold execBankTargetOn
  repeat' (first
    | with_reducible assumption
    | with_reducible apply KeepsO.next
    | with_reducible exact KeepsO.fault
    | with_reducible apply KeepsE.ok
    | with_reducible exact KeepsE.error
    | with_reducible apply KeepsX.some
    | with_reducible exact KeepsX.none
    | with_reducible refine KeepsO.ite ?_ ?_
    | with_reducible apply keeps_bankTarget)

theorem keeps_execBankTargetRetention {s0 : State} {who : Who} {core b : Nat} {s : State}
    (h0 : Keeps s0 s) : KeepsO s0 (execBankTargetRetention who core b s) := by
  unfold execBankTargetRetention
  repeat' (first
    | with_reducible assumption
    | with_reducible apply KeepsO.next
    | with_reducible exact KeepsO.fault
    | with_reducible apply KeepsE.ok
    | with_reducible exact KeepsE.error
    | with_reducible apply KeepsX.some
    | with_reducible exact KeepsX.none
    | with_reducible refine KeepsO.ite ?_ ?_
    | with_reducible apply keeps_bankTarget)

theorem keeps_execBankTargetOff {s0 : State} {who : Who} {core b : Nat} {s : State}
    (h0 : Keeps s0 s) : KeepsO s0 (execBankTargetOff who core b s) := by
  unfold execBankTargetOff
  repeat' (first
    | with_reducible assumption
    | with_reducible apply KeepsO.next
    | with_reducible exact KeepsO.fault
    | with_reducible apply KeepsE.ok
    | with_reducible exact KeepsE.error
    | with_reducible apply KeepsX.some
    | with_reducible exact KeepsX.none
    | with_reducible refine KeepsO.ite ?_ ?_
    | with_reducible apply keeps_bankTarget)

theorem keeps_execCircCfgWrite {s0 : State} {who : Who} {core g : Nat} {v : W64} {s : State}
    (h0 : Keeps s0 s) : KeepsO s0 (execCircCfgWrite who core g v s) := by
  unfold execCircCfgWrite
  repeat' (first
    | with_reducible assumption
    | with_reducible apply KeepsO.next
    | with_reducible exact KeepsO.fault
    | with_reducible apply KeepsE.ok
    | with_reducible exact KeepsE.error
    | with_reducible apply KeepsX.some
    | with_reducible exact KeepsX.none
    | with_reducible refine KeepsO.ite ?_ ?_
    | with_reducible apply keeps_winCmd)

theorem keeps_execCircHeadWrite {s0 : State} {who : Who} {core g : Nat} {v : W64} {s : State}
    (h0 : Keeps s0 s) : KeepsO s0 (execCircHeadWrite who core g v s) := by
  unfold execCircHeadWrite
  repeat' (first
    | with_reducible assumption
    | with_reducible apply KeepsO.next
    | with_reducible exact KeepsO.fault
    | with_reducible apply KeepsE.ok
    | with_reducible exact KeepsE.error
    | with_reducible apply KeepsX.some
    | with_reducible exact KeepsX.none
    | with_reducible refine KeepsO.ite ?_ ?_
    | with_reducible apply keeps_winCmd)

theorem keeps_execBbWrite {s0 : State} {who : Who} {core n p : Nat} {limit : Bool} {v : W64} {s : State}
    (h0 : Keeps s0 s) : KeepsO s0 (execBbWrite who core n p limit v s) := by
  unfold execBbWrite
  repeat' (first
    | with_reducible assumption
    | with_reducible apply KeepsO.next
    | with_reducible exact KeepsO.fault
    | with_reducible apply KeepsE.ok
    | with_reducible exact KeepsE.error
    | with_reducible apply KeepsX.some
    | with_reducible exact KeepsX.none
    | with_reducible refine KeepsO.ite ?_ ?_
    | with_reducible apply keeps_winCmd)

theorem keeps_execSlotAssign {s0 : State} {who : Who} {core n lctx : Nat} {s : State}
    (h0 : Keeps s0 s) : KeepsO s0 (execSlotAssign who core n lctx s) := by
  unfold execSlotAssign
  repeat' (first
    | with_reducible assumption
    | with_reducible apply KeepsO.next
    | with_reducible exact KeepsO.fault
    | with_reducible apply KeepsE.ok
    | with_reducible exact KeepsE.error
    | with_reducible apply KeepsX.some
    | with_reducible exact KeepsX.none
    | with_reducible refine KeepsO.ite ?_ ?_
    | with_reducible apply keeps_winCmd)

theorem keeps_execSlotUnassign {s0 : State} {who : Who} {core n : Nat} {s : State}
    (h0 : Keeps s0 s) : KeepsO s0 (execSlotUnassign who core n s) := by
  unfold execSlotUnassign
  repeat' (first
    | with_reducible assumption
    | with_reducible apply KeepsO.next
    | with_reducible exact KeepsO.fault
    | with_reducible apply KeepsE.ok
    | with_reducible exact KeepsE.error
    | with_reducible apply KeepsX.some
    | with_reducible exact KeepsX.none
    | with_reducible refine KeepsO.ite ?_ ?_
    | with_reducible apply keeps_winCmd)

theorem keeps_execChainCfgWrite {s0 : State} {who : Who} {core : Nat} {v : W64} {s : State}
    (h0 : Keeps s0 s) : KeepsO s0 (execChainCfgWrite who core v s) := by
  unfold execChainCfgWrite
  repeat' (first
    | with_reducible assumption
    | with_reducible apply KeepsO.next
    | with_reducible exact KeepsO.fault
    | with_reducible apply KeepsE.ok
    | with_reducible exact KeepsE.error
    | with_reducible apply KeepsX.some
    | with_reducible exact KeepsX.none
    | with_reducible refine KeepsO.ite ?_ ?_
    | with_reducible apply keeps_winCmd)

theorem keeps_execLarderCfgWrite {s0 : State} {who : Who} {core : Nat} {spill : Bool} {v : W64} {s : State}
    (h0 : Keeps s0 s) : KeepsO s0 (execLarderCfgWrite who core spill v s) := by
  unfold execLarderCfgWrite
  repeat' (first
    | with_reducible assumption
    | with_reducible apply KeepsO.next
    | with_reducible exact KeepsO.fault
    | with_reducible apply KeepsE.ok
    | with_reducible exact KeepsE.error
    | with_reducible apply KeepsX.some
    | with_reducible exact KeepsX.none
    | with_reducible refine KeepsO.ite ?_ ?_
    | with_reducible apply keeps_winCmd)

theorem keeps_execRegisterWrite {s0 : State} {who : Who} {r : RegAddr} {v : W64} {s : State}
    (h0 : Keeps s0 s) : KeepsO s0 (execRegisterWrite who r v s) := by
  unfold execRegisterWrite
  repeat' (first
    | with_reducible assumption
    | with_reducible apply KeepsO.next
    | with_reducible exact KeepsO.fault
    | with_reducible apply KeepsE.ok
    | with_reducible exact KeepsE.error
    | with_reducible apply KeepsX.some
    | with_reducible exact KeepsX.none
    | with_reducible refine KeepsO.ite ?_ ?_
    | with_reducible apply keeps_State_bar0Write
    | with_reducible apply keeps_State_mapFunc
    | with_reducible apply keeps_State_refuse
    | with_reducible apply keeps_State_winAccess
    | with_reducible refine Keeps.ite ?_ ?_
    | split)

theorem keeps_execRcRegisterRead {s0 : State} {who : Who} {r : RegAddr} {s : State}
    (h0 : Keeps s0 s) : KeepsO s0 (execRcRegisterRead who r s) := by
  unfold execRcRegisterRead
  repeat' (first
    | with_reducible assumption
    | with_reducible apply KeepsO.next
    | with_reducible exact KeepsO.fault
    | with_reducible apply KeepsE.ok
    | with_reducible exact KeepsE.error
    | with_reducible apply KeepsX.some
    | with_reducible exact KeepsX.none
    | with_reducible refine KeepsO.ite ?_ ?_
    | with_reducible refine KeepsP.snd (keeps_State_bar0Bytes ?_)
    | with_reducible refine KeepsP.out (keeps_State_bar0Bytes ?_) (by assumption)
    | with_reducible apply keeps_State_bar0Bytes
    | with_reducible apply keeps_State_noteRefused
    | with_reducible apply keeps_State_refuse
    | with_reducible refine KeepsP.snd (keeps_State_winRead ?_)
    | with_reducible refine KeepsP.out (keeps_State_winRead ?_) (by assumption)
    | with_reducible apply keeps_State_winRead
    | with_reducible refine Keeps.ite ?_ ?_
    | split
    | with_reducible intro _
    | dsimp only
    | with_reducible refine Keeps.mkState (by with_reducible assumption)
    | with_reducible refine Keeps.mkState (KeepsP.snd (keeps_State_bar0Bytes ?_))
    | with_reducible refine Keeps.mkState (keeps_State_noteRefused ?_)
    | with_reducible refine Keeps.mkState (keeps_State_refuse ?_)
    | with_reducible refine Keeps.mkState (KeepsP.snd (keeps_State_winRead ?_)))

theorem keeps_State_ccDone {s0 : State} {s : State} {core slot len : Nat} {f : Ctx → Ctx}
    (h0 : Keeps s0 s) : Keeps s0 (State.ccDone s core slot len f) := by
  unfold State.ccDone
  repeat' (first
    | with_reducible assumption
    | with_reducible apply keeps_State_mapSlot)

theorem keeps_State_ccJump {s0 : State} {s : State} {core slot : Nat} {target : W64} {f : Ctx → Ctx}
    (h0 : Keeps s0 s) : Keeps s0 (State.ccJump s core slot target f) := by
  unfold State.ccJump
  repeat' (first
    | with_reducible assumption
    | with_reducible apply keeps_State_mapSlot)

theorem keeps_State_ccTrap {s0 : State} {s : State} {core slot cause : Nat} {tval : W64}
    (h0 : Keeps s0 s) : Keeps s0 (State.ccTrap s core slot cause tval) := by
  unfold State.ccTrap
  repeat' (first
    | with_reducible assumption
    | with_reducible apply keeps_State_faultCtx
    | with_reducible apply keeps_State_mapSlot
    | with_reducible refine Keeps.ite ?_ ?_)

theorem keeps_State_csrWrite {s0 : State} {s : State} {core slot a : Nat} {v : W64}
    (h0 : Keeps s0 s) : Keeps s0 (State.csrWrite s core slot a v) := by
  unfold State.csrWrite
  repeat' (first
    | with_reducible assumption
    | with_reducible apply keeps_State_mapCore
    | with_reducible apply keeps_State_mapSlot
    | with_reducible refine Keeps.ite ?_ ?_
    | split)

theorem keeps_State_ccCsr {s0 : State} {s : State} {core slot len f3 rd rs1 a : Nat}
    (h0 : Keeps s0 s) : Keeps s0 (State.ccCsr s core slot len f3 rd rs1 a) := by
  unfold State.ccCsr
  repeat' (first
    | with_reducible assumption
    | with_reducible apply KeepsX.some
    | with_reducible exact KeepsX.none
    | with_reducible refine KeepsX.ite ?_ ?_
    | with_reducible apply keeps_State_ccDone
    | with_reducible apply keeps_State_ccTrap
    | with_reducible apply keeps_State_csrWrite
    | with_reducible apply keeps_State_wr
    | with_reducible refine Keeps.ite ?_ ?_
    | split
    | with_reducible intro _
    | dsimp only)

theorem keeps_ccRow {s0 s : State} {core slot : Nat} {w : BitVec 32} {body : Ctx → RvOp → Nat → Option (State → State)}
    (hb : ∀ c o n, KeepsF (body c o n)) (h0 : Keeps s0 s) : KeepsO s0 (ccRow core slot w s body) := by
  unfold ccRow
  split
  · exact KeepsO.next h0
  · split
    · exact KeepsO.next h0
    · exact KeepsO.next (keeps_State_wakeBanks h0)
    · exact KeepsO.next (keeps_State_faultCtx (keeps_State_noteRefused h0))
    · split
      · exact KeepsO.next h0
      · split
        · exact KeepsO.next h0
        · next f e => exact KeepsO.next (hb _ _ _ f e _ _ (keeps_State_mapCore h0))

theorem keeps_State_ccRequest {s0 : State} {s : State} {core slot len target a : Nat} {op : RemOp} {rd : Nat} {signed fp bad : Bool}
    (h0 : Keeps s0 s) : Keeps s0 (State.ccRequest s core slot len target a op rd signed fp bad) := by
  unfold State.ccRequest
  repeat' (first
    | with_reducible assumption
    | with_reducible apply KeepsX.some
    | with_reducible exact KeepsX.none
    | with_reducible refine KeepsX.ite ?_ ?_
    | with_reducible apply keeps_State_chargeData
    | with_reducible apply keeps_State_sendRemote
    | with_reducible apply keeps_State_setCore
    | with_reducible apply keeps_State_setSlot
    | with_reducible apply Keeps.ofId
    | with_reducible refine Keeps.ite ?_ ?_)

theorem keeps_State_ccBad {s0 : State} {s : State} {core slot st : Nat}
    (h0 : Keeps s0 s) : Keeps s0 (State.ccBad s core slot st) := by
  unfold State.ccBad
  repeat' (first
    | with_reducible assumption
    | with_reducible apply keeps_State_faultCtx
    | with_reducible apply keeps_State_noteRefused)

theorem keeps_State_ccLoadOp {s0 : State} {s : State} {core slot len : Nat} {fp : Bool} {f3 rd rs1 : Nat} {off : Int}
    (h0 : Keeps s0 s) : Keeps s0 (State.ccLoadOp s core slot len fp f3 rd rs1 off) := by
  unfold State.ccLoadOp
  repeat' (first
    | with_reducible assumption
    | with_reducible refine KeepsP.snd (keeps_State_aliasLoad ?_)
    | with_reducible refine KeepsP.out (keeps_State_aliasLoad ?_) (by assumption)
    | with_reducible apply keeps_State_aliasLoad
    | with_reducible apply keeps_State_ccBad
    | with_reducible apply keeps_State_ccDone
    | with_reducible apply keeps_State_ccRequest
    | with_reducible apply keeps_State_ccTrap
    | with_reducible apply keeps_State_wakeBanks
    | with_reducible refine KeepsP.snd (keeps_State_winRead ?_)
    | with_reducible refine KeepsP.out (keeps_State_winRead ?_) (by assumption)
    | with_reducible apply keeps_State_winRead
    | with_reducible refine Keeps.ite ?_ ?_
    | split
    | with_reducible intro _
    | dsimp only)

theorem keeps_State_ccStoreOp {s0 : State} {s : State} {core slot len : Nat} {fp : Bool} {f3 rs1 rs2 : Nat} {off : Int}
    (h0 : Keeps s0 s) : Keeps s0 (State.ccStoreOp s core slot len fp f3 rs1 rs2 off) := by
  unfold State.ccStoreOp
  repeat' (first
    | with_reducible assumption
    | with_reducible apply keeps_State_ccBad
    | with_reducible apply keeps_State_ccDone
    | with_reducible apply keeps_State_ccRequest
    | with_reducible apply keeps_State_ccTrap
    | with_reducible apply keeps_State_done
    | with_reducible apply keeps_State_faultCtx
    | with_reducible apply keeps_State_scrStore
    | with_reducible apply keeps_State_wakeBanks
    | with_reducible refine KeepsW.out (keeps_State_winWrite ?_) (by assumption)
    | with_reducible apply keeps_State_winWrite
    | with_reducible apply Keeps.ofId
    | with_reducible refine Keeps.ite ?_ ?_
    | split
    | with_reducible intro _
    | dsimp only)

theorem keeps_State_amoAt {s0 : State} {s : State} {target off n f5 : Nat} {v : Nat} {bad : Bool} {core lctx : Nat}
    (h0 : Keeps s0 s) : KeepsP s0 (State.amoAt s target off n f5 v bad core lctx) := by
  unfold State.amoAt
  repeat' (first
    | with_reducible assumption
    | with_reducible apply KeepsP.mk
    | with_reducible apply keeps_State_wr
    | with_reducible refine Keeps.ite ?_ ?_
    | split
    | with_reducible intro _
    | dsimp only
    | with_reducible refine Keeps.mkState (by with_reducible assumption))

theorem keeps_State_ccAmo {s0 : State} {s : State} {core slot len f5 n rd rs1 rs2 : Nat}
    (h0 : Keeps s0 s) : Keeps s0 (State.ccAmo s core slot len f5 n rd rs1 rs2) := by
  unfold State.ccAmo
  repeat' (first
    | with_reducible assumption
    | with_reducible refine KeepsP.snd (keeps_State_amoAt ?_)
    | with_reducible refine KeepsP.out (keeps_State_amoAt ?_) (by assumption)
    | with_reducible apply keeps_State_amoAt
    | with_reducible apply keeps_State_ccBad
    | with_reducible apply keeps_State_ccDone
    | with_reducible apply keeps_State_ccRequest
    | with_reducible apply keeps_State_ccTrap
    | with_reducible apply keeps_State_wakeBanks
    | with_reducible refine Keeps.ite ?_ ?_
    | split
    | with_reducible intro _
    | dsimp only)

theorem keeps_State_ccPlain {s0 : State} {s : State} {core slot len : Nat} {op : RvOp}
    (h0 : Keeps s0 s) : Keeps s0 (State.ccPlain s core slot len op) := by
  unfold State.ccPlain
  repeat' (first
    | with_reducible assumption
    | with_reducible apply KeepsX.some
    | with_reducible exact KeepsX.none
    | with_reducible refine KeepsX.ite ?_ ?_
    | with_reducible apply keeps_State_ccAmo
    | with_reducible apply keeps_State_ccCsr
    | with_reducible apply keeps_State_ccDone
    | with_reducible apply keeps_State_ccJump
    | with_reducible apply keeps_State_ccTrap
    | with_reducible apply keeps_State_faultCtx
    | with_reducible apply keeps_State_mapSlot
    | with_reducible apply Keeps.ofId
    | with_reducible refine Keeps.ite ?_ ?_
    | split
    | with_reducible intro _
    | dsimp only)

theorem keeps_execControlCoreInstruction {s0 : State} {core slot : Nat} {w : BitVec 32} {s : State}
    (h0 : Keeps s0 s) : KeepsO s0 (execControlCoreInstruction core slot w s) := by
  unfold execControlCoreInstruction
  repeat' (first
    | with_reducible assumption
    | with_reducible apply KeepsF.some
    | with_reducible exact KeepsF.none
    | with_reducible refine KeepsF.ite ?_ ?_
    | with_reducible apply KeepsX.some
    | with_reducible exact KeepsX.none
    | with_reducible apply KeepsO.next
    | with_reducible exact KeepsO.fault
    | with_reducible apply KeepsE.ok
    | with_reducible exact KeepsE.error
    | with_reducible apply KeepsX.some
    | with_reducible exact KeepsX.none
    | with_reducible refine KeepsX.ite ?_ ?_
    | with_reducible refine KeepsO.ite ?_ ?_
    | with_reducible apply keeps_State_ccPlain
    | with_reducible apply keeps_ccRow
    | with_reducible refine Keeps.ite ?_ ?_
    | split
    | with_reducible intro _)

theorem keeps_execControlCoreAccess {s0 : State} {core slot : Nat} {w : BitVec 32} {s : State}
    (h0 : Keeps s0 s) : KeepsO s0 (execControlCoreAccess core slot w s) := by
  unfold execControlCoreAccess
  repeat' (first
    | with_reducible assumption
    | with_reducible apply KeepsF.some
    | with_reducible exact KeepsF.none
    | with_reducible refine KeepsF.ite ?_ ?_
    | with_reducible apply KeepsX.some
    | with_reducible exact KeepsX.none
    | with_reducible apply KeepsO.next
    | with_reducible exact KeepsO.fault
    | with_reducible apply KeepsE.ok
    | with_reducible exact KeepsE.error
    | with_reducible apply KeepsX.some
    | with_reducible exact KeepsX.none
    | with_reducible refine KeepsX.ite ?_ ?_
    | with_reducible refine KeepsO.ite ?_ ?_
    | with_reducible apply keeps_State_ccLoadOp
    | with_reducible apply keeps_ccRow
    | with_reducible apply keeps_State_ccStoreOp
    | with_reducible refine Keeps.ite ?_ ?_
    | split
    | with_reducible intro _)

theorem keeps_aliasStoreRow {s0 : State} {view core slot : Nat} {w : BitVec 32} {s : State}
    (h0 : Keeps s0 s) : KeepsO s0 (aliasStoreRow view core slot w s) := by
  unfold aliasStoreRow
  repeat' (first
    | with_reducible assumption
    | with_reducible apply KeepsF.some
    | with_reducible exact KeepsF.none
    | with_reducible refine KeepsF.ite ?_ ?_
    | with_reducible apply KeepsX.some
    | with_reducible exact KeepsX.none
    | with_reducible apply KeepsO.next
    | with_reducible exact KeepsO.fault
    | with_reducible apply KeepsE.ok
    | with_reducible exact KeepsE.error
    | with_reducible apply KeepsX.some
    | with_reducible exact KeepsX.none
    | with_reducible refine KeepsX.ite ?_ ?_
    | with_reducible refine KeepsO.ite ?_ ?_
    | with_reducible apply keeps_ccRow
    | with_reducible apply keeps_State_ccStoreOp
    | with_reducible refine Keeps.ite ?_ ?_
    | split
    | with_reducible intro _)

theorem keeps_aliasLoadRow {s0 : State} {view core slot : Nat} {w : BitVec 32} {s : State}
    (h0 : Keeps s0 s) : KeepsO s0 (aliasLoadRow view core slot w s) := by
  unfold aliasLoadRow
  repeat' (first
    | with_reducible assumption
    | with_reducible apply KeepsF.some
    | with_reducible exact KeepsF.none
    | with_reducible refine KeepsF.ite ?_ ?_
    | with_reducible apply KeepsX.some
    | with_reducible exact KeepsX.none
    | with_reducible apply KeepsO.next
    | with_reducible exact KeepsO.fault
    | with_reducible apply KeepsE.ok
    | with_reducible exact KeepsE.error
    | with_reducible apply KeepsX.some
    | with_reducible exact KeepsX.none
    | with_reducible refine KeepsX.ite ?_ ?_
    | with_reducible refine KeepsO.ite ?_ ?_
    | with_reducible apply keeps_State_ccLoadOp
    | with_reducible apply keeps_ccRow
    | with_reducible refine Keeps.ite ?_ ?_
    | split
    | with_reducible intro _)

theorem keeps_execSetAliasStore {s0 : State} {core slot : Nat} {w : BitVec 32} {s : State}
    (h0 : Keeps s0 s) : KeepsO s0 (execSetAliasStore core slot w s) := by
  unfold execSetAliasStore
  repeat' (first
    | with_reducible assumption
    | with_reducible apply KeepsO.next
    | with_reducible exact KeepsO.fault
    | with_reducible apply KeepsE.ok
    | with_reducible exact KeepsE.error
    | with_reducible apply KeepsX.some
    | with_reducible exact KeepsX.none
    | with_reducible refine KeepsO.ite ?_ ?_
    | with_reducible apply keeps_aliasStoreRow)

theorem keeps_execSetAliasLoad {s0 : State} {core slot : Nat} {w : BitVec 32} {s : State}
    (h0 : Keeps s0 s) : KeepsO s0 (execSetAliasLoad core slot w s) := by
  unfold execSetAliasLoad
  repeat' (first
    | with_reducible assumption
    | with_reducible apply KeepsO.next
    | with_reducible exact KeepsO.fault
    | with_reducible apply KeepsE.ok
    | with_reducible exact KeepsE.error
    | with_reducible apply KeepsX.some
    | with_reducible exact KeepsX.none
    | with_reducible refine KeepsO.ite ?_ ?_
    | with_reducible apply keeps_aliasLoadRow)

theorem keeps_execClearAliasStore {s0 : State} {core slot : Nat} {w : BitVec 32} {s : State}
    (h0 : Keeps s0 s) : KeepsO s0 (execClearAliasStore core slot w s) := by
  unfold execClearAliasStore
  repeat' (first
    | with_reducible assumption
    | with_reducible apply KeepsO.next
    | with_reducible exact KeepsO.fault
    | with_reducible apply KeepsE.ok
    | with_reducible exact KeepsE.error
    | with_reducible apply KeepsX.some
    | with_reducible exact KeepsX.none
    | with_reducible refine KeepsO.ite ?_ ?_
    | with_reducible apply keeps_aliasStoreRow)

theorem keeps_execClearAliasLoad {s0 : State} {core slot : Nat} {w : BitVec 32} {s : State}
    (h0 : Keeps s0 s) : KeepsO s0 (execClearAliasLoad core slot w s) := by
  unfold execClearAliasLoad
  repeat' (first
    | with_reducible assumption
    | with_reducible apply KeepsO.next
    | with_reducible exact KeepsO.fault
    | with_reducible apply KeepsE.ok
    | with_reducible exact KeepsE.error
    | with_reducible apply KeepsX.some
    | with_reducible exact KeepsX.none
    | with_reducible refine KeepsO.ite ?_ ?_
    | with_reducible apply keeps_aliasLoadRow)

theorem keeps_custom0 {s0 : State} {core slot : Nat} {w : BitVec 32} {s : State} {f3 : Nat} {body : Ctx → Nat → Nat → Nat → Nat → Option (State → State)} (h_body : ∀ (z0 : Ctx) (z1 : Nat) (z2 : Nat) (z3 : Nat) (z4 : Nat), KeepsF (body z0 z1 z2 z3 z4))
    (h0 : Keeps s0 s) : KeepsO s0 (custom0 core slot w s f3 body) := by
  unfold custom0
  repeat' (first
    | with_reducible assumption
    | with_reducible apply KeepsF.some
    | with_reducible exact KeepsF.none
    | with_reducible refine KeepsF.ite ?_ ?_
    | with_reducible apply KeepsX.some
    | with_reducible exact KeepsX.none
    | with_reducible apply KeepsO.next
    | with_reducible exact KeepsO.fault
    | with_reducible apply KeepsE.ok
    | with_reducible exact KeepsE.error
    | with_reducible apply KeepsX.some
    | with_reducible exact KeepsX.none
    | with_reducible refine KeepsX.ite ?_ ?_
    | with_reducible refine KeepsO.ite ?_ ?_
    | with_reducible apply h_body
    | with_reducible apply keeps_ccRow
    | with_reducible refine Keeps.ite ?_ ?_
    | split
    | with_reducible intro _)

theorem keeps_execWcmdPush {s0 : State} {core slot : Nat} {w : BitVec 32} {s : State}
    (h0 : Keeps s0 s) : KeepsO s0 (execWcmdPush core slot w s) := by
  unfold execWcmdPush
  repeat' (first
    | with_reducible assumption
    | with_reducible apply KeepsF.some
    | with_reducible exact KeepsF.none
    | with_reducible refine KeepsF.ite ?_ ?_
    | with_reducible apply KeepsX.some
    | with_reducible exact KeepsX.none
    | with_reducible apply KeepsO.next
    | with_reducible exact KeepsO.fault
    | with_reducible apply KeepsE.ok
    | with_reducible exact KeepsE.error
    | with_reducible apply KeepsX.some
    | with_reducible exact KeepsX.none
    | with_reducible refine KeepsX.ite ?_ ?_
    | with_reducible refine KeepsO.ite ?_ ?_
    | with_reducible apply keeps_State_ccDone
    | with_reducible apply keeps_custom0
    | with_reducible apply keeps_State_settle
    | with_reducible refine Keeps.ite ?_ ?_
    | split
    | with_reducible intro _)

theorem keeps_execTokWait {s0 : State} {core slot : Nat} {w : BitVec 32} {s : State}
    (h0 : Keeps s0 s) : KeepsO s0 (execTokWait core slot w s) := by
  unfold execTokWait
  repeat' (first
    | with_reducible assumption
    | with_reducible apply KeepsF.some
    | with_reducible exact KeepsF.none
    | with_reducible refine KeepsF.ite ?_ ?_
    | with_reducible apply KeepsX.some
    | with_reducible exact KeepsX.none
    | with_reducible apply KeepsO.next
    | with_reducible exact KeepsO.fault
    | with_reducible apply KeepsE.ok
    | with_reducible exact KeepsE.error
    | with_reducible apply KeepsX.some
    | with_reducible exact KeepsX.none
    | with_reducible refine KeepsX.ite ?_ ?_
    | with_reducible refine KeepsO.ite ?_ ?_
    | with_reducible apply keeps_State_ccDone
    | with_reducible apply keeps_custom0
    | with_reducible apply keeps_State_settle
    | with_reducible refine Keeps.ite ?_ ?_
    | split
    | with_reducible intro _)

theorem keeps_execTokSignal {s0 : State} {core slot : Nat} {w : BitVec 32} {s : State}
    (h0 : Keeps s0 s) : KeepsO s0 (execTokSignal core slot w s) := by
  unfold execTokSignal
  repeat' (first
    | with_reducible assumption
    | with_reducible apply KeepsF.some
    | with_reducible exact KeepsF.none
    | with_reducible refine KeepsF.ite ?_ ?_
    | with_reducible apply KeepsX.some
    | with_reducible exact KeepsX.none
    | with_reducible apply KeepsO.next
    | with_reducible exact KeepsO.fault
    | with_reducible apply KeepsE.ok
    | with_reducible exact KeepsE.error
    | with_reducible apply KeepsX.some
    | with_reducible exact KeepsX.none
    | with_reducible refine KeepsX.ite ?_ ?_
    | with_reducible refine KeepsO.ite ?_ ?_
    | with_reducible apply keeps_State_ccDone
    | with_reducible apply keeps_custom0
    | with_reducible apply keeps_State_mapCore
    | with_reducible apply keeps_State_settle
    | with_reducible apply Keeps.ofId
    | with_reducible refine Keeps.ite ?_ ?_
    | split
    | with_reducible intro _)

theorem keeps_execTokRead {s0 : State} {core slot : Nat} {w : BitVec 32} {s : State}
    (h0 : Keeps s0 s) : KeepsO s0 (execTokRead core slot w s) := by
  unfold execTokRead
  repeat' (first
    | with_reducible assumption
    | with_reducible apply KeepsF.some
    | with_reducible exact KeepsF.none
    | with_reducible refine KeepsF.ite ?_ ?_
    | with_reducible apply KeepsX.some
    | with_reducible exact KeepsX.none
    | with_reducible apply KeepsO.next
    | with_reducible exact KeepsO.fault
    | with_reducible apply KeepsE.ok
    | with_reducible exact KeepsE.error
    | with_reducible apply KeepsX.some
    | with_reducible exact KeepsX.none
    | with_reducible refine KeepsX.ite ?_ ?_
    | with_reducible refine KeepsO.ite ?_ ?_
    | with_reducible apply keeps_State_ccDone
    | with_reducible apply keeps_custom0
    | with_reducible refine Keeps.ite ?_ ?_
    | split
    | with_reducible intro _)

theorem keeps_execCtrRead {s0 : State} {core slot : Nat} {w : BitVec 32} {s : State}
    (h0 : Keeps s0 s) : KeepsO s0 (execCtrRead core slot w s) := by
  unfold execCtrRead
  repeat' (first
    | with_reducible assumption
    | with_reducible apply KeepsF.some
    | with_reducible exact KeepsF.none
    | with_reducible refine KeepsF.ite ?_ ?_
    | with_reducible apply KeepsX.some
    | with_reducible exact KeepsX.none
    | with_reducible apply KeepsO.next
    | with_reducible exact KeepsO.fault
    | with_reducible apply KeepsE.ok
    | with_reducible exact KeepsE.error
    | with_reducible apply KeepsX.some
    | with_reducible exact KeepsX.none
    | with_reducible refine KeepsX.ite ?_ ?_
    | with_reducible refine KeepsO.ite ?_ ?_
    | with_reducible apply keeps_State_ccDone
    | with_reducible apply keeps_custom0
    | with_reducible refine Keeps.ite ?_ ?_
    | split
    | with_reducible intro _)

theorem keeps_execCtxYield {s0 : State} {core slot : Nat} {w : BitVec 32} {s : State}
    (h0 : Keeps s0 s) : KeepsO s0 (execCtxYield core slot w s) := by
  unfold execCtxYield
  repeat' (first
    | with_reducible assumption
    | with_reducible apply KeepsF.some
    | with_reducible exact KeepsF.none
    | with_reducible refine KeepsF.ite ?_ ?_
    | with_reducible apply KeepsX.some
    | with_reducible exact KeepsX.none
    | with_reducible apply KeepsO.next
    | with_reducible exact KeepsO.fault
    | with_reducible apply KeepsE.ok
    | with_reducible exact KeepsE.error
    | with_reducible apply KeepsX.some
    | with_reducible exact KeepsX.none
    | with_reducible refine KeepsX.ite ?_ ?_
    | with_reducible refine KeepsO.ite ?_ ?_
    | with_reducible apply keeps_State_ccDone
    | with_reducible apply keeps_custom0
    | with_reducible apply keeps_State_mapCore
    | with_reducible apply Keeps.ofId
    | with_reducible refine Keeps.ite ?_ ?_
    | split
    | with_reducible intro _)

theorem keeps_seqCtl {s0 : State} {core slot : Nat} {w : BitVec 32} {s : State} {o : Nat} {body : Ctx → Nat → Nat → Nat → State → State} (h_body : ∀ (z0 : Ctx) (z1 : Nat) (z2 : Nat) (z3 : Nat) (z4 : State) (s1 : State), Keeps s1 z4 → Keeps s1 (body z0 z1 z2 z3 z4))
    (h0 : Keeps s0 s) : KeepsO s0 (seqCtl core slot w s o body) := by
  unfold seqCtl
  repeat' (first
    | with_reducible assumption
    | with_reducible apply KeepsF.some
    | with_reducible exact KeepsF.none
    | with_reducible refine KeepsF.ite ?_ ?_
    | with_reducible apply KeepsX.some
    | with_reducible exact KeepsX.none
    | with_reducible apply KeepsO.next
    | with_reducible exact KeepsO.fault
    | with_reducible apply KeepsE.ok
    | with_reducible exact KeepsE.error
    | with_reducible apply KeepsX.some
    | with_reducible exact KeepsX.none
    | with_reducible refine KeepsX.ite ?_ ?_
    | with_reducible refine KeepsO.ite ?_ ?_
    | with_reducible apply h_body
    | with_reducible apply keeps_custom0
    | with_reducible refine Keeps.ite ?_ ?_
    | split
    | with_reducible intro _)

theorem keeps_execSeqCtlReadPointer {s0 : State} {core slot : Nat} {w : BitVec 32} {s : State}
    (h0 : Keeps s0 s) : KeepsO s0 (execSeqCtlReadPointer core slot w s) := by
  unfold execSeqCtlReadPointer
  repeat' (first
    | with_reducible assumption
    | with_reducible apply KeepsO.next
    | with_reducible exact KeepsO.fault
    | with_reducible apply KeepsE.ok
    | with_reducible exact KeepsE.error
    | with_reducible apply KeepsX.some
    | with_reducible exact KeepsX.none
    | with_reducible refine KeepsO.ite ?_ ?_
    | with_reducible apply keeps_State_ccDone
    | with_reducible apply keeps_seqCtl
    | with_reducible refine Keeps.ite ?_ ?_
    | split
    | with_reducible intro _)

theorem keeps_execSeqCtlSetPointer {s0 : State} {core slot : Nat} {w : BitVec 32} {s : State}
    (h0 : Keeps s0 s) : KeepsO s0 (execSeqCtlSetPointer core slot w s) := by
  unfold execSeqCtlSetPointer
  repeat' (first
    | with_reducible assumption
    | with_reducible apply KeepsX.some
    | with_reducible exact KeepsX.none
    | with_reducible apply KeepsO.next
    | with_reducible exact KeepsO.fault
    | with_reducible apply KeepsE.ok
    | with_reducible exact KeepsE.error
    | with_reducible apply KeepsX.some
    | with_reducible exact KeepsX.none
    | with_reducible refine KeepsX.ite ?_ ?_
    | with_reducible refine KeepsO.ite ?_ ?_
    | with_reducible apply keeps_State_ccDone
    | with_reducible apply keeps_State_emptyBuf
    | with_reducible apply keeps_State_faultCtx
    | with_reducible apply keeps_seqCtl
    | with_reducible apply Keeps.ofId
    | with_reducible refine Keeps.ite ?_ ?_
    | split
    | with_reducible intro _)

theorem keeps_execSeqCtlPause {s0 : State} {core slot : Nat} {w : BitVec 32} {s : State}
    (h0 : Keeps s0 s) : KeepsO s0 (execSeqCtlPause core slot w s) := by
  unfold execSeqCtlPause
  repeat' (first
    | with_reducible assumption
    | with_reducible apply KeepsO.next
    | with_reducible exact KeepsO.fault
    | with_reducible apply KeepsE.ok
    | with_reducible exact KeepsE.error
    | with_reducible apply KeepsX.some
    | with_reducible exact KeepsX.none
    | with_reducible refine KeepsO.ite ?_ ?_
    | with_reducible apply keeps_State_ccDone
    | with_reducible apply keeps_seqCtl
    | with_reducible refine Keeps.ite ?_ ?_
    | split
    | with_reducible intro _)

theorem keeps_execSeqCtlResume {s0 : State} {core slot : Nat} {w : BitVec 32} {s : State}
    (h0 : Keeps s0 s) : KeepsO s0 (execSeqCtlResume core slot w s) := by
  unfold execSeqCtlResume
  repeat' (first
    | with_reducible assumption
    | with_reducible apply KeepsO.next
    | with_reducible exact KeepsO.fault
    | with_reducible apply KeepsE.ok
    | with_reducible exact KeepsE.error
    | with_reducible apply KeepsX.some
    | with_reducible exact KeepsX.none
    | with_reducible refine KeepsO.ite ?_ ?_
    | with_reducible apply keeps_State_ccDone
    | with_reducible apply keeps_seqCtl
    | with_reducible refine Keeps.ite ?_ ?_
    | split
    | with_reducible intro _)

theorem keeps_ctxCtl {s0 : State} {core slot : Nat} {w : BitVec 32} {s : State} {o : Nat} {body : Nat → State → State} (h_body : ∀ (z0 : Nat) (z1 : State) (s1 : State), Keeps s1 z1 → Keeps s1 (body z0 z1))
    (h0 : Keeps s0 s) : KeepsO s0 (ctxCtl core slot w s o body) := by
  unfold ctxCtl
  repeat' (first
    | with_reducible assumption
    | with_reducible apply KeepsF.some
    | with_reducible exact KeepsF.none
    | with_reducible refine KeepsF.ite ?_ ?_
    | with_reducible apply KeepsX.some
    | with_reducible exact KeepsX.none
    | with_reducible apply KeepsO.next
    | with_reducible exact KeepsO.fault
    | with_reducible apply KeepsE.ok
    | with_reducible exact KeepsE.error
    | with_reducible apply KeepsX.some
    | with_reducible exact KeepsX.none
    | with_reducible refine KeepsX.ite ?_ ?_
    | with_reducible refine KeepsO.ite ?_ ?_
    | with_reducible apply h_body
    | with_reducible apply keeps_State_ccDone
    | with_reducible apply keeps_custom0
    | with_reducible apply Keeps.ofId
    | with_reducible refine Keeps.ite ?_ ?_
    | split
    | with_reducible intro _)

theorem keeps_execCtxCtlStart {s0 : State} {core slot : Nat} {w : BitVec 32} {s : State}
    (h0 : Keeps s0 s) : KeepsO s0 (execCtxCtlStart core slot w s) := by
  unfold execCtxCtlStart
  repeat' (first
    | with_reducible assumption
    | with_reducible apply KeepsX.some
    | with_reducible exact KeepsX.none
    | with_reducible apply KeepsO.next
    | with_reducible exact KeepsO.fault
    | with_reducible apply KeepsE.ok
    | with_reducible exact KeepsE.error
    | with_reducible apply KeepsX.some
    | with_reducible exact KeepsX.none
    | with_reducible refine KeepsX.ite ?_ ?_
    | with_reducible refine KeepsO.ite ?_ ?_
    | with_reducible apply keeps_ctxCtl
    | with_reducible apply keeps_State_mapCore
    | with_reducible apply keeps_State_partEvent
    | with_reducible refine Keeps.ite ?_ ?_
    | split
    | with_reducible intro _)

theorem keeps_execCtxCtlStop {s0 : State} {core slot : Nat} {w : BitVec 32} {s : State}
    (h0 : Keeps s0 s) : KeepsO s0 (execCtxCtlStop core slot w s) := by
  unfold execCtxCtlStop
  repeat' (first
    | with_reducible assumption
    | with_reducible apply KeepsX.some
    | with_reducible exact KeepsX.none
    | with_reducible apply KeepsO.next
    | with_reducible exact KeepsO.fault
    | with_reducible apply KeepsE.ok
    | with_reducible exact KeepsE.error
    | with_reducible apply KeepsX.some
    | with_reducible exact KeepsX.none
    | with_reducible refine KeepsX.ite ?_ ?_
    | with_reducible refine KeepsO.ite ?_ ?_
    | with_reducible apply keeps_ctxCtl
    | with_reducible apply keeps_State_endOne
    | with_reducible apply keeps_State_mapCore
    | with_reducible refine Keeps.ite ?_ ?_
    | split
    | with_reducible intro _)

theorem keeps_execCtxCtlSwapOut {s0 : State} {core slot : Nat} {w : BitVec 32} {s : State}
    (h0 : Keeps s0 s) : KeepsO s0 (execCtxCtlSwapOut core slot w s) := by
  unfold execCtxCtlSwapOut
  repeat' (first
    | with_reducible assumption
    | with_reducible apply KeepsX.some
    | with_reducible exact KeepsX.none
    | with_reducible apply KeepsO.next
    | with_reducible exact KeepsO.fault
    | with_reducible apply KeepsE.ok
    | with_reducible exact KeepsE.error
    | with_reducible apply KeepsX.some
    | with_reducible exact KeepsX.none
    | with_reducible refine KeepsX.ite ?_ ?_
    | with_reducible refine KeepsO.ite ?_ ?_
    | with_reducible apply keeps_ctxCtl
    | with_reducible apply keeps_State_mapCore
    | with_reducible refine Keeps.ite ?_ ?_
    | split
    | with_reducible intro _)

theorem keeps_execCtxCtlSwapIn {s0 : State} {core slot : Nat} {w : BitVec 32} {s : State}
    (h0 : Keeps s0 s) : KeepsO s0 (execCtxCtlSwapIn core slot w s) := by
  unfold execCtxCtlSwapIn
  repeat' (first
    | with_reducible assumption
    | with_reducible apply KeepsX.some
    | with_reducible exact KeepsX.none
    | with_reducible apply KeepsO.next
    | with_reducible exact KeepsO.fault
    | with_reducible apply KeepsE.ok
    | with_reducible exact KeepsE.error
    | with_reducible apply KeepsX.some
    | with_reducible exact KeepsX.none
    | with_reducible refine KeepsX.ite ?_ ?_
    | with_reducible refine KeepsO.ite ?_ ?_
    | with_reducible apply keeps_ctxCtl
    | with_reducible apply keeps_State_mapCore
    | with_reducible refine Keeps.ite ?_ ?_
    | split
    | with_reducible intro _)

theorem keeps_execTokRemote {s0 : State} {core slot : Nat} {w : BitVec 32} {s : State}
    (h0 : Keeps s0 s) : KeepsO s0 (execTokRemote core slot w s) := by
  unfold execTokRemote
  repeat' (first
    | with_reducible assumption
    | with_reducible apply KeepsF.some
    | with_reducible exact KeepsF.none
    | with_reducible refine KeepsF.ite ?_ ?_
    | with_reducible apply KeepsX.some
    | with_reducible exact KeepsX.none
    | with_reducible apply KeepsO.next
    | with_reducible exact KeepsO.fault
    | with_reducible apply KeepsE.ok
    | with_reducible exact KeepsE.error
    | with_reducible apply KeepsX.some
    | with_reducible exact KeepsX.none
    | with_reducible refine KeepsX.ite ?_ ?_
    | with_reducible refine KeepsO.ite ?_ ?_
    | with_reducible apply keeps_State_ccDone
    | with_reducible apply keeps_ccRow
    | with_reducible apply keeps_State_sendSignal
    | with_reducible apply keeps_State_setCore
    | with_reducible apply Keeps.ofId
    | with_reducible refine Keeps.ite ?_ ?_
    | split
    | with_reducible intro _)

theorem keeps_State_remWin {s0 : State} {s : State} {core o : Nat} {m : RemMsg}
    (h0 : Keeps s0 s) : KeepsM s0 (State.remWin s core o m) := by
  unfold State.remWin
  repeat' (first
    | with_reducible assumption
    | with_reducible apply KeepsM.answer
    | with_reducible exact KeepsM.held
    | with_reducible exact KeepsM.wait
    | with_reducible apply keeps_State_done
    | with_reducible refine KeepsP.snd (keeps_State_winRead ?_)
    | with_reducible refine KeepsP.out (keeps_State_winRead ?_) (by assumption)
    | with_reducible apply keeps_State_winRead
    | with_reducible refine KeepsW.out (keeps_State_winWrite ?_) (by assumption)
    | with_reducible apply keeps_State_winWrite
    | with_reducible refine Keeps.ite ?_ ?_
    | split)

theorem keeps_State_remMem {s0 : State} {s : State} {core view o : Nat} {m : RemMsg}
    (h0 : Keeps s0 s) : KeepsM s0 (State.remMem s core view o m) := by
  unfold State.remMem
  repeat' (first
    | with_reducible assumption
    | with_reducible apply KeepsM.answer
    | with_reducible exact KeepsM.held
    | with_reducible exact KeepsM.wait
    | with_reducible refine KeepsP.snd (keeps_State_aliasLoad ?_)
    | with_reducible refine KeepsP.out (keeps_State_aliasLoad ?_) (by assumption)
    | with_reducible apply keeps_State_aliasLoad
    | with_reducible refine KeepsP.snd (keeps_State_amoAt ?_)
    | with_reducible refine KeepsP.out (keeps_State_amoAt ?_) (by assumption)
    | with_reducible apply keeps_State_amoAt
    | with_reducible apply keeps_State_scrStore
    | with_reducible refine Keeps.ite ?_ ?_
    | split)

theorem keeps_State_remDo {s0 : State} {s : State} {core : Nat} {m : RemMsg}
    (h0 : Keeps s0 s) : KeepsM s0 (State.remDo s core m) := by
  unfold State.remDo
  repeat' (first
    | with_reducible assumption
    | with_reducible apply KeepsM.answer
    | with_reducible exact KeepsM.held
    | with_reducible exact KeepsM.wait
    | with_reducible apply keeps_State_noteRefused
    | with_reducible refine KeepsM.out (keeps_State_remMem ?_) (by assumption)
    | with_reducible apply keeps_State_remMem
    | with_reducible refine KeepsM.out (keeps_State_remWin ?_) (by assumption)
    | with_reducible apply keeps_State_remWin
    | with_reducible refine Keeps.ite ?_ ?_
    | split)

theorem keeps_State_answerTo {s0 : State} {s : State} {m : RemMsg} {status : Nat} {v : W64} {bad : Bool}
    (h0 : Keeps s0 s) : Keeps s0 (State.answerTo s m status v bad) := by
  unfold State.answerTo
  repeat' (first
    | with_reducible assumption
    | with_reducible apply KeepsX.some
    | with_reducible exact KeepsX.none
    | with_reducible refine KeepsX.ite ?_ ?_
    | with_reducible apply keeps_State_mapCore)

theorem keeps_State_remArrive {s0 : State} {s : State} {core : Nat} {m : RemMsg}
    (h0 : Keeps s0 s) : Keeps s0 (State.remArrive s core m) := by
  unfold State.remArrive
  repeat' (first
    | with_reducible assumption
    | with_reducible apply KeepsX.some
    | with_reducible exact KeepsX.none
    | with_reducible refine KeepsX.ite ?_ ?_
    | with_reducible apply keeps_State_mapCore
    | with_reducible refine Keeps.ite ?_ ?_
    | split)

theorem keeps_State_remDead {s0 : State} {s : State} {m : RemMsg}
    (h0 : Keeps s0 s) : Keeps s0 (State.remDead s m) := by
  unfold State.remDead
  repeat' (first
    | with_reducible assumption
    | with_reducible apply keeps_State_mapCore
    | with_reducible apply keeps_State_spoil)

theorem keeps_State_takeRequest {s0 : State} {s : State} {core : Nat} {m : RemMsg}
    (h0 : Keeps s0 s) : Keeps s0 (State.takeRequest s core m) := by
  unfold State.takeRequest
  repeat' (first
    | with_reducible assumption
    | with_reducible apply keeps_State_answerTo
    | with_reducible apply keeps_State_mapCore
    | with_reducible apply keeps_State_remArrive
    | with_reducible apply keeps_State_remDead
    | with_reducible refine KeepsM.out (keeps_State_remDo ?_) (by assumption)
    | with_reducible apply keeps_State_remDo
    | with_reducible refine Keeps.ite ?_ ?_
    | split
    | with_reducible intro _
    | dsimp only)

theorem keeps_execRemoteRequest {s0 : State} {core : Nat} {s : State}
    (h0 : Keeps s0 s) : KeepsO s0 (execRemoteRequest core s) := by
  unfold execRemoteRequest
  repeat' (first
    | with_reducible assumption
    | with_reducible apply KeepsO.next
    | with_reducible exact KeepsO.fault
    | with_reducible apply KeepsE.ok
    | with_reducible exact KeepsE.error
    | with_reducible apply KeepsX.some
    | with_reducible exact KeepsX.none
    | with_reducible refine KeepsO.ite ?_ ?_
    | with_reducible apply keeps_State_takeRequest
    | with_reducible refine Keeps.ite ?_ ?_
    | split)

theorem keeps_execGuestGrant {s0 : State} {core b : Nat} {s : State}
    (h0 : Keeps s0 s) : KeepsO s0 (execGuestGrant core b s) := by
  unfold execGuestGrant
  repeat' (first
    | with_reducible assumption
    | with_reducible apply KeepsX.some
    | with_reducible exact KeepsX.none
    | with_reducible apply KeepsO.next
    | with_reducible exact KeepsO.fault
    | with_reducible apply KeepsE.ok
    | with_reducible exact KeepsE.error
    | with_reducible apply KeepsX.some
    | with_reducible exact KeepsX.none
    | with_reducible refine KeepsX.ite ?_ ?_
    | with_reducible refine KeepsO.ite ?_ ?_
    | with_reducible apply keeps_State_mapCore
    | with_reducible apply keeps_State_takeRequest
    | with_reducible refine Keeps.ite ?_ ?_
    | split)

theorem keeps_State_performHeld {s0 : State} {s : State} {core : Nat} {ms : List RemMsg}
    (h0 : Keeps s0 s) : Keeps s0 (State.performHeld s core ms) := by
  unfold State.performHeld
  repeat' (first
    | with_reducible assumption
    | with_reducible apply Keeps.foldl
    | with_reducible apply Keeps.foldlQ
    | with_reducible apply Keeps.foldlP
    | with_reducible apply keeps_State_answerTo
    | with_reducible apply keeps_State_remDead
    | with_reducible refine KeepsM.out (keeps_State_remDo ?_) (by assumption)
    | with_reducible apply keeps_State_remDo
    | with_reducible refine Keeps.ite ?_ ?_
    | split
    | with_reducible intro _)

theorem keeps_execBankWakeElapsed {s0 : State} {core b : Nat} {s : State}
    (h0 : Keeps s0 s) : KeepsO s0 (execBankWakeElapsed core b s) := by
  unfold execBankWakeElapsed
  repeat' (first
    | with_reducible assumption
    | with_reducible apply KeepsO.next
    | with_reducible exact KeepsO.fault
    | with_reducible apply KeepsE.ok
    | with_reducible exact KeepsE.error
    | with_reducible apply KeepsX.some
    | with_reducible exact KeepsX.none
    | with_reducible refine KeepsO.ite ?_ ?_
    | with_reducible apply keeps_State_mapCore
    | with_reducible apply keeps_State_performHeld
    | with_reducible apply keeps_State_zeroBank
    | with_reducible refine Keeps.ite ?_ ?_)

theorem keeps_execRemoteResponse {s0 : State} {core : Nat} {s : State}
    (h0 : Keeps s0 s) : KeepsO s0 (execRemoteResponse core s) := by
  unfold execRemoteResponse
  repeat' (first
    | with_reducible assumption
    | with_reducible apply KeepsX.some
    | with_reducible exact KeepsX.none
    | with_reducible apply KeepsO.next
    | with_reducible exact KeepsO.fault
    | with_reducible apply KeepsE.ok
    | with_reducible exact KeepsE.error
    | with_reducible apply KeepsX.some
    | with_reducible exact KeepsX.none
    | with_reducible refine KeepsX.ite ?_ ?_
    | with_reducible refine KeepsO.ite ?_ ?_
    | with_reducible apply keeps_State_badHead
    | with_reducible apply keeps_State_faultCtx
    | with_reducible apply keeps_State_setCore
    | with_reducible apply Keeps.ofId
    | with_reducible refine Keeps.ite ?_ ?_
    | split
    | with_reducible intro _
    | dsimp only)

theorem keeps_State_tickCluster {s0 : State} {s : State} {cl : Nat}
    (h0 : Keeps s0 s) : Keeps s0 (State.tickCluster s cl) := by
  unfold State.tickCluster
  repeat' (first
    | with_reducible assumption
    | with_reducible apply KeepsX.some
    | with_reducible exact KeepsX.none
    | with_reducible refine KeepsX.ite ?_ ?_
    | with_reducible apply Keeps.foldl
    | with_reducible apply Keeps.foldlQ
    | with_reducible apply Keeps.foldlP
    | with_reducible apply keeps_State_mapPart
    | with_reducible apply keeps_State_setCluster
    | with_reducible apply keeps_State_setCore
    | with_reducible apply keeps_State_tick
    | with_reducible refine Keeps.ite ?_ ?_
    | split
    | with_reducible intro _
    | dsimp only)

theorem keeps_State_tick {s0 : State} {s : State}
    (h0 : Keeps s0 s) : Keeps s0 (State.tick s) := by
  unfold State.tick
  repeat' (first
    | with_reducible assumption
    | with_reducible apply Keeps.foldl
    | with_reducible apply Keeps.foldlQ
    | with_reducible apply Keeps.foldlP
    | with_reducible apply keeps_State_tickCluster
    | with_reducible refine Keeps.ite ?_ ?_
    | split
    | with_reducible intro _
    | dsimp only
    | with_reducible refine Keeps.mkState (by with_reducible assumption))

end Sys2Proof.Machine
end

