-- ==== Sys2Proof/Laws/KeepsExec.lean ====
section
/-! SUPPORT. That every command keeps the queue and the canonical form of memory. -/

-- One proof at a time: the thread of every theorem of a large file would not fit in memory.
set_option Elab.async false

namespace Sys2Proof.Machine

open Sys2Proof

/-- What time does on an empty queue keeps both. -/
theorem keeps_State_idle {s0 s : State} (h0 : Keeps s0 s) : Keeps s0 s.idle := by
  unfold State.idle
  exact Keeps.ite (keeps_State_powerStep h0) (keeps_State_tick h0)

theorem exec_keeps (i : Instr) (s : State) : KeepsO s (exec i s) := by
  have h0 := Keeps.refl s
  unfold exec
  split
  · exact keeps_execWcmdPush h0
  · exact keeps_execTokWait h0
  · exact keeps_execTokSignal h0
  · exact keeps_execTokRead h0
  · exact keeps_execCtrRead h0
  · exact keeps_execCtxYield h0
  · exact keeps_execSeqCtlReadPointer h0
  · exact keeps_execSeqCtlSetPointer h0
  · exact keeps_execSeqCtlPause h0
  · exact keeps_execSeqCtlResume h0
  · exact keeps_execCtxCtlStart h0
  · exact keeps_execCtxCtlStop h0
  · exact keeps_execCtxCtlSwapOut h0
  · exact keeps_execCtxCtlSwapIn h0
  · exact keeps_execTokRemote h0
  · exact keeps_execControlCoreAccess h0
  · exact keeps_execControlCoreInstruction h0
  · exact keeps_execNop h0
  · exact keeps_execWait h0
  · exact keeps_execWaitTimeout h0
  · exact keeps_execSignal h0
  · exact keeps_execFence h0
  · exact keeps_execLoop h0
  · exact keeps_execEndloop h0
  · exact keeps_execJump h0
  · exact keeps_execCall h0
  · exact keeps_execYield h0
  · exact keeps_execHalt h0
  · exact keeps_execCommandFetch h0
  · exact keeps_execSwapOnBlock h0
  · exact keeps_execSwapQuantumExpiry h0
  · exact keeps_execFreeSlotAdmission h0
  · exact keeps_execSwapImageWrite h0
  · exact keeps_execSwapEnd h0
  · exact keeps_execServiceContextOverdue h0
  · exact keeps_execRemoteSignalArrival h0
  · exact keeps_execToksigLWrite h0
  · exact keeps_execCtxCtrlStart h0
  · exact keeps_execCtxCtrlStop h0
  · exact keeps_execCtxCmdptrWrite h0
  · exact keeps_execRegisterWrite h0
  · exact keeps_execRcRegisterRead h0
  · exact keeps_execMm h0
  · exact keeps_execMmWide h0
  · exact keeps_execMmSemi h0
  · exact keeps_execMmDist h0
  · exact keeps_execMmCmp h0
  · exact keeps_execMmF32x3 h0
  · exact keeps_execLoadW h0
  · exact keeps_execDrainAcc h0
  · exact keeps_execPassComplete h0
  · exact keeps_execDrainComplete h0
  · exact keeps_execAccSlotSpill h0
  · exact keeps_execAccSlotReload h0
  · exact keeps_execArrayFault h0
  · exact keeps_execRowTestComplete h0
  · exact keeps_execArrRepairWrite h0
  · exact keeps_execVop h0
  · exact keeps_execVfunc h0
  · exact keeps_execVderiv h0
  · exact keeps_execVreduce h0
  · exact keeps_execVnormBwd h0
  · exact keeps_execVsoftmaxBwd h0
  · exact keeps_execVcompress1 h0
  · exact keeps_execVdecompSum h0
  · exact keeps_execVrand h0
  · exact keeps_execVconvert h0
  · exact keeps_execVdigest h0
  · exact keeps_execSegmentStart h0
  · exact keeps_execLaneFault h0
  · exact keeps_execVectorSuspend h0
  · exact keeps_execVectorResume h0
  · exact keeps_execGuestGrant h0
  · exact keeps_execSetAliasStore h0
  · exact keeps_execSetAliasLoad h0
  · exact keeps_execClearAliasStore h0
  · exact keeps_execClearAliasLoad h0
  · exact keeps_execBankTargetOn h0
  · exact keeps_execBankTargetRetention h0
  · exact keeps_execBankTargetOff h0
  · exact keeps_execBankIdleRetention h0
  · exact keeps_execBankRetentionEntry h0
  · exact keeps_execBankOffEntry h0
  · exact keeps_execBankWakeElapsed h0
  · exact keeps_execRemoteRequest h0
  · exact keeps_execRemoteResponse h0
  · exact keeps_execCircCfgWrite h0
  · exact keeps_execCircHeadWrite h0
  · exact keeps_execBbWrite h0
  · exact keeps_execArm h0
  · exact keeps_execStreamIn h0
  · exact keeps_execStreamOut h0
  · exact keeps_execTransposeIn h0
  · exact keeps_execSwapHalves h0
  · exact keeps_execCopyRemote h0
  · exact keeps_execChainW h0
  · exact keeps_execTransferComplete h0
  · exact keeps_execTransferFailure h0
  · exact keeps_execTransferSuspend h0
  · exact keeps_execPrefetch h0
  · exact keeps_execChainLineArrival h0
  · exact keeps_execSlotAssign h0
  · exact keeps_execSlotUnassign h0
  · exact keeps_execChainCfgWrite h0
  · exact keeps_execPushCkpt h0
  · exact keeps_execPopCkpt h0
  · exact keeps_execPeekCkpt h0
  · exact keeps_execReplayBegin h0
  · exact keeps_execReplayEnd h0
  · exact keeps_execSpillAhead h0
  · exact keeps_execRecordSpillComplete h0
  · exact keeps_execFetchBack h0
  · exact keeps_execFetchBackComplete h0
  · exact keeps_execLarderCfgWrite h0
  · exact keeps_execPageWalk h0
  · exact keeps_execMigrationComplete h0
  · exact keeps_execPseudoChannelLoss h0
  · exact keeps_execUncorrectableError h0
  · exact keeps_execScratchUncorrectable h0
  · exact keeps_execPatrolScrub h0
  · exact keeps_execBar2Read h0
  · exact keeps_execBar2Write h0
  · exact keeps_execUpdateBlocks h0
  · exact keeps_execGradMerge h0
  · exact keeps_execCommitShadow h0
  · exact keeps_execDiscardShadow h0
  · exact keeps_execUpdateAccept h0
  · exact keeps_execRunComplete h0
  · exact keeps_execUpdateEngineFault h0
  · exact keeps_execShadowCommit h0
  · exact keeps_execShadowDiscard h0
  · exact keeps_execPortUp h0
  · exact keeps_execAlignmentLoss h0
  · exact keeps_execFecWindowEnd h0
  · exact keeps_execLinkRemoteFault h0
  · exact keeps_execLinkRetry h0
  · exact keeps_execQuadConfigWrite h0
  · exact keeps_execFrameReceive h0
  · exact keeps_execNeighbourResolution h0
  · exact keeps_execPfcPause h0
  · exact keeps_execPfcWatchdog h0
  · exact keeps_execPfcIgnoreExpiry h0
  · exact keeps_execHsInit h0
  · exact keeps_execHsResp h0
  · exact keeps_execHsFin h0
  · exact keeps_execHsReject h0
  · exact keeps_execHsTokenRefill h0
  · exact keeps_execHandshakeStart h0
  · exact keeps_execHsInitRetry h0
  · exact keeps_execHandshakeCrossRetry h0
  · exact keeps_execData h0
  · exact keeps_execAck h0
  · exact keeps_execCnp h0
  · exact keeps_execAckTimer h0
  · exact keeps_execRetransmitTimeout h0
  · exact keeps_execDataTransmit h0
  · exact keeps_execRateEpoch h0
  · exact keeps_execRekey h0
  · exact keeps_execPeerDeath h0
  · exact keeps_execPeerFailedExpiry h0
  · exact keeps_execPeerDownExpiry h0
  · exact keeps_execContrib h0
  · exact keeps_execOwnerSum h0
  · exact keeps_execOwnerSumStart h0
  · exact keeps_execOwnerSumVotetExpiry h0
  · exact keeps_execParamBcast h0
  · exact keeps_execStepVote h0
  · exact keeps_execVoteReady h0
  · exact keeps_execRingPass h0
  · exact keeps_execContributionLanding h0
  · exact keeps_execBroadcastLanding h0
  · exact keeps_execContributionWindowClose h0
  · exact keeps_execBroadcastWindowClose h0
  · exact keeps_execVoteReceive h0
  · exact keeps_execVoteTimeout h0
  · exact keeps_execDecisionReceive h0
  · exact keeps_execDecisionTimeout h0
  · exact keeps_execRingLanding h0
  · exact keeps_execRingCredit h0
  · exact keeps_execCollGrpWrite h0
  · exact keeps_execCollStateWrite h0
  · exact keeps_execRefillTick h0
  · exact keeps_execHeadReservation h0
  · exact keeps_execPowerWindow h0
  · exact keeps_execFastLimiter h0
  · exact keeps_execThermalWindow h0
  · exact keeps_execClusterGate h0
  · exact keeps_execClusterWake h0
  · exact keeps_execPllOff h0
  · exact keeps_execPllLock h0
  · exact keeps_execServeStepBoundary h0
  · exact keeps_execPwrCapWrite h0
  · exact keeps_execIdentify h0
  · exact keeps_execGetCaps h0
  · exact keeps_execSetPowerCap h0
  · exact keeps_execGrantMgmt h0
  · exact keeps_execPartCreate h0
  · exact keeps_execPartDestroy h0
  · exact keeps_execPartQuery h0
  · exact keeps_execMapPages h0
  · exact keeps_execUnmap h0
  · exact keeps_execFaultResolve h0
  · exact keeps_execLoadStreams h0
  · exact keeps_execLaunch h0
  · exact keeps_execPreempt h0
  · exact keeps_execResume h0
  · exact keeps_execStepBegin h0
  · exact keeps_execStepStatus h0
  · exact keeps_execPeerTableSet h0
  · exact keeps_execServeConfig h0
  · exact keeps_execServeBatch h0
  · exact keeps_execTestBundleLoad h0
  · exact keeps_execTestRun h0
  · exact keeps_execTestRunIdleStart h0
  · exact keeps_execFaultLogRead h0
  · exact keeps_execAttestQuote h0
  · exact keeps_execFwUpdateStage h0
  · exact keeps_execFwActivate h0
  · exact keeps_execPowerState h0
  · exact keeps_execSqTail h0
  · exact keeps_execCqHead h0
  · exact keeps_execDoorbellService h0
  · exact keeps_execMsixMessage h0
  · exact keeps_execReportCopy h0
  · exact keeps_execRingEnable h0
  · exact keeps_execRingDisable h0
  · exact keeps_execPerstAssert h0
  · exact keeps_execMgmtRoleQualify h0
  · exact keeps_execPerstRelease h0
  · exact keeps_execHotReset h0
  · exact keeps_execPcieLinkDown h0
  · exact keeps_execPfFlr h0
  · exact keeps_execVfFlr h0
  · exact keeps_execVfEnableChange h0
  · exact keeps_execD3hotEntry h0
  · exact keeps_execD0Return h0
  · exact keeps_execCompletionError h0
  · exact keeps_execCompletionTimeout h0
  · exact keeps_execAtsInvalidate h0
  · exact keeps_execVectorUnmask h0
  · exact keeps_execCoreLoss h0
  · exact keeps_execHeartbeatMiss h0
  · exact keeps_execRouteUpdateEnd h0
  · exact keeps_execRelaunch h0
  · exact keeps_execDispatchCoreLoss h0
  · exact keeps_execLateRevokedWrite h0
  · exact keeps_execUnitRetest h0
  · exact keeps_execRouterStall h0
  · exact keeps_execScrubComplete h0
  · exact keeps_execPendingFrameZeroed h0
  · exact keeps_execFaultRecordCommit h0
  · exact keeps_execVsbRise h0
  · exact keeps_execPowerUpStart h0
  · exact keeps_execStartUpTimeout h0
  · exact keeps_execVsbLoss h0
  · exact keeps_execDevResetN h0
  · exact keeps_execRefclkSysLoss h0
  · exact keeps_execSagWarning h0
  · exact keeps_execShedEnd h0
  · exact keeps_execSaveStart h0
  · exact keeps_execSaveComplete h0
  · exact keeps_execSafeHoldRecovery h0
  · exact keeps_execSafeHoldCollapse h0
  · exact keeps_execSagInN h0
  · exact keeps_execSagInNHeld h0
  · exact keeps_execThermInN h0
  · exact keeps_execInputRearm h0
  · exact keeps_execThermalShutdown h0
  · exact keeps_execSmbDevstate h0
  · exact keeps_execSmbHottestReading h0
  · exact keeps_execSmbInputPower h0
  · exact keeps_execSmbVin h0
  · exact keeps_execSmbSaveStatus h0
  · exact keeps_execSmbBootStatus h0
  · exact keeps_execAlertResponseAddress h0
  · exact keeps_execIdcode h0
  · exact keeps_execSamplePreload h0
  · exact keeps_execExtest h0
  · exact keeps_execClamp h0
  · exact keeps_execHighz h0
  · exact keeps_execChallenge h0
  · exact keeps_execUnlock h0
  · exact keeps_execDbgAccess h0
  · exact keeps_execBypass h0
  · exact keeps_execHbmShareWindow h0
  · exact keeps_execRefclkSysReturn h0
  · exact keeps_execFaultNHoldExpiry h0
  · exact keeps_execLoadStreamsComplete h0
  · exact keeps_execTestRunComplete h0
  · exact keeps_execStageVerificationComplete h0
  · exact keeps_execBoardInputGlitch h0
  · exact keeps_execReservedCommand h0
  · exact keeps_execPcieLinkUp h0
  · exact keeps_execSmbusUnlistedCommand h0

end Sys2Proof.Machine
end

