-- ==== Sys2Proof/Laws/Work.lean ====
section
/-! SUPPORT. What the gate of the work commands, the payment of a command's charge, and the shared way of running a work command do:
one lemma for each. -/

-- One proof at a time: the thread of every theorem of a large file would not fit in memory.
set_option Elab.async false

namespace Sys2Proof.Machine

open Sys2Proof

/-- A head that may issue is that of the core and slot asked for, and its opcode is one that was asked for. -/
theorem gateOn_go {s : State} {core n : Nat} {ok : Nat → Bool} {h : Head} (e : gateOn s core n ok = .go h) :
    h.core = core ∧ h.slot = n ∧ h.ctx = s.slot core n ∧ ok (opcodeOf h.w) = true := by
  unfold gateOn at e
  simp only at e
  repeat' (first
    | (cases e; done)
    | split at e)
  all_goals first
    | (simp only [Gate.go.injEq] at e
       subst e
       simp_all [State.slot])

theorem heads_core {s : State} {core n op : Nat} {h : Head} (e : heads s core n op h) :
    h.core = core ∧ h.slot = n ∧ h.ctx = s.slot core n ∧ opcodeOf h.w = op := by
  have g := gateOn_go e.2.2.1
  exact ⟨g.1, g.2.1, g.2.2.1, by simpa using g.2.2.2⟩

/-- A command at the head that may issue runs its group's own meaning. -/
theorem work_of_heads {s : State} {core n op : Nat} {h : Head} {body onSkip : Head → State → State} (e : heads s core n op h) :
    work core n op s body onSkip = .next (body h s) := by
  obtain ⟨a, b, c, -⟩ := e
  unfold work
  rw [if_neg (by omega), c]

/-- The selector lets the command that stands at such a head take its effect (R23, R24). -/
theorem select_of_heads {s : State} {core n op : Nat} {h : Head} {out : Out} (e : heads s core n op h) :
    select core n s out = out := by
  unfold select
  split
  · rw [e.2.2.2]
    simp
  · rfl

/-- A command whose charge the account covers issues. -/
theorem pay_of_affords {s : State} {h : Head} {natural cycles : Nat} {k : State → State} (e : affords s h natural cycles) :
    s.pay h natural cycles k = k (issued s h natural cycles) := by
  unfold State.pay
  exact if_pos e

/-- A command whose charge the account does not cover is held. -/
theorem pay_of_not_affords {s : State} {h : Head} {natural cycles : Nat} {k : State → State} (e : ¬affords s h natural cycles) :
    s.pay h natural cycles k = s.hold h.core h.slot 4 := by
  unfold State.pay
  exact if_neg e

/-- What a row of the control core does with an instruction that the control core executes: nothing where the row does not cover it,
else the row's effect on the state in which the context has the control core. -/
theorem ccRow_of_executes {s : State} {core slot len : Nat} {w : BitVec 32} {op : RvOp}
    {body : Ctx → RvOp → Nat → Option (State → State)} (e : executes s core slot w len op) :
    ccRow core slot w s body =
      match body (s.slot core slot) op len with
      | none => .next s
      | some f => .next (f (turn s core slot)) := by
  obtain ⟨a, b, c, d⟩ := e
  unfold ccRow
  rw [if_neg (by omega), c]
  simp only [d]
  rw [if_neg (by simp)]
  rfl

/-- The same for a custom-0 instruction that R19 lets the context run. -/
theorem custom0_of_executes {s : State} {core slot len f3 rd rs1 rs2 : Nat} {w : BitVec 32}
    {body : Ctx → Nat → Nat → Nat → Nat → Option (State → State)} (e : executes s core slot w len (.custom false 0 f3 rd rs1 rs2))
    (hr : customRuns slot (s.slot core slot) false 0 f3 rs2 = true) :
    custom0 core slot w s f3 body =
      match body (s.slot core slot) len rd rs1 rs2 with
      | none => .next s
      | some f => .next (f (turn s core slot)) := by
  unfold custom0
  rw [ccRow_of_executes e]
  simp [hr]

/-- An issue changes, of its core, the context slots, the stamp, the last issuing slot and the reserved slot only (R25, R308). -/
theorem issueTaking_core (s : State) (h : Head) (mask rate cycles : Nat) : ∃ sl rs, (s.issueTaking h mask rate cycles).core h.core =
    { s.core h.core with slots := sl, stamp := (s.core h.core).stamp + 1, lastIssue := some h.slot, reserved := rs } := by
  have hf : ∀ (xs : List Nat) (k : Core), ∃ sl, xs.foldl (fun (k : Core) m =>
      if m = h.slot then k
      else
        let d := k.slot m
        if d.cause = 4 then
          let d1 := { d with budSkips := d.budSkips + 1 }
          k.setSlot m d1
        else k) k = { k with slots := sl } := by
    intro xs
    induction xs with
    | nil => exact fun k => ⟨k.slots, rfl⟩
    | cons x t ih =>
      intro k
      rw [List.foldl_cons]
      split
      · exact ih k
      · dsimp only
        split
        · obtain ⟨sl, e⟩ := ih (k.setSlot x { k.slot x with budSkips := (k.slot x).budSkips + 1 })
          exact ⟨sl, e⟩
        · exact ih k
  obtain ⟨sl, e⟩ := hf (List.range 8) (s.core h.core)
  have hc : (s.chargeIssue h.core rate cycles).core h.core = s.core h.core := rfl
  unfold State.issueTaking
  dsimp only
  rw [hc, e]
  refine ⟨_, _, Tab.get_put_same _ _ _ _⟩

theorem issue_core (s : State) (h : Head) (rate cycles : Nat) : ∃ sl rs, (s.issue h rate cycles).core h.core =
    { s.core h.core with slots := sl, stamp := (s.core h.core).stamp + 1, lastIssue := some h.slot, reserved := rs } :=
  issueTaking_core s h _ rate cycles

/-- The same for the state in which a command has issued. -/
theorem issued_core (s : State) (h : Head) (natural cycles : Nat) : ∃ sl rs, (issued s h natural cycles).core h.core =
    { s.core h.core with slots := sl, stamp := (s.core h.core).stamp + 1, lastIssue := some h.slot, reserved := rs } :=
  issue_core s h _ _

/-- Of the state, an issue changes the table of cores and the account of the core's cluster only. -/
theorem issued_frame (s : State) (h : Head) (natural cycles : Nat) : ∃ cs cl,
    issued s h natural cycles = { s with cores := Tab.put s.cores h.core cs, clusters := Tab.put s.clusters (clusterOf h.core) cl } :=
  ⟨_, _, rfl⟩

/-- What an issue that consumes the tokens of `mask` leaves in its slot (R25, R35, R41). -/
theorem issueTaking_slot (s : State) (h : Head) (mask rate cycles : Nat) : ∃ x,
    ((s.issueTaking h mask rate cycles).core h.core).slot h.slot =
      let c := (s.core h.core).slot h.slot
      { c with
        tokens := tokTake c.tokens mask, inj := c.inj.drop (slotsOf h.w)
        buf := if c.inj.isEmpty then c.buf.tail else c.buf, issued := c.issued + 1, issuedAt := x, budSkips := 0
        rdyAt := none, waitAt := none, cause := 0 } := by
  unfold State.issueTaking
  exact ⟨_, (congrArg (fun k => Core.slot k h.slot) (Tab.get_put_same _ _ _ _)).trans (Tab.get_put_same _ _ _ _)⟩

/-- What an issue leaves in its slot (R25, R35). -/
theorem issued_slot (s : State) (h : Head) (natural cycles : Nat) : ∃ x,
    ((issued s h natural cycles).core h.core).slot h.slot =
      let c := (s.core h.core).slot h.slot
      { c with
        tokens := tokTake c.tokens (waitMask c.bank h.w), inj := c.inj.drop (slotsOf h.w)
        buf := if c.inj.isEmpty then c.buf.tail else c.buf, issued := c.issued + 1, issuedAt := x, budSkips := 0
        rdyAt := none, waitAt := none, cause := 0 } :=
  issueTaking_slot s h _ _ _

/-- When the position that stands at a head carries no status, bringing the contexts up to date ends nothing. -/
theorem settle_quiet {s : State} {core n : Nat} (h : ∀ f ∈ ((s.core core).slot n).buf.head?, f.bad = none) :
    s.settle core n = s.mapCore core Core.refresh := by
  unfold State.settle State.badHead
  dsimp only
  split
  · have e : ((s.mapCore core Core.refresh).slot core n).buf = ((s.core core).slot n).buf := by
      rw [State.mapCore_slot]
      obtain ⟨a, b, d, x, y, e⟩ := Core.refresh_slot (s.core core) n
      rw [e]
    rw [e]
    cases hb : ((s.core core).slot n).buf with
    | nil => rfl
    | cons f t =>
      have := h f (by rw [hb]; rfl)
      simp only [this]
  · rfl

/-- The frame of a command that completes at issue and behind which no status stands: it changes its own core's contexts, and nothing
else of the core. -/
theorem done_quiet {s : State} {h : Head} (q : ∀ f ∈ ((s.core h.core).slot h.slot).buf.head?, f.bad = none) :
    ∃ sl im rc st sb, s.done h = s.setCore h.core
      { s.core h.core with slots := sl, images := im, readyCnt := rc, stamp := st, sigBuf := sb } := by
  unfold State.done
  dsimp only
  split
  · rw [settle_quiet q]
    obtain ⟨a, b, c, d, e⟩ := Core.refresh_core (s.core h.core)
    exact ⟨a, b, c, d, (s.core h.core).sigBuf, by unfold State.mapCore; rw [e]⟩
  · obtain ⟨⟨a, b, c, d, f, e⟩, g⟩ := Core.signal_core (s.core h.core) h.ctx.lctx (2 ^ sigOf h.w)
    have sc : (s.mapCore h.core fun k => k.signal h.ctx.lctx (2 ^ sigOf h.w)).core h.core = (s.core h.core).signal h.ctx.lctx (2 ^ sigOf h.w) :=
      Tab.get_put_same _ _ _ _
    rw [settle_quiet (by
      obtain ⟨x1, x2, x3, x4, x5, x6, x7, hx⟩ := g h.slot
      rw [sc, hx]
      exact q)]
    obtain ⟨a2, b2, c2, d2, e2⟩ := Core.refresh_core ((s.core h.core).signal h.ctx.lctx (2 ^ sigOf h.w))
    refine ⟨a2, b2, c2, d2, f, ?_⟩
    unfold State.mapCore at sc ⊢
    rw [sc, e2, e]
    unfold State.setCore
    rw [Tab.put_put]

end Sys2Proof.Machine
end

