-- ==== Sys2Proof/Laws/Matrix.lean ====
section
/-! SUPPORT. What starting a matrix pass does. -/

-- One proof at a time: the thread of every theorem of a large file would not fit in memory.
set_option Elab.async false

namespace Sys2Proof.Machine

open Sys2Proof

/-- Claiming a slot changes the accumulator slots only. -/
theorem Core.claim_core (k : Core) (h : Head) (l kind : Nat) (zero : Bool) : ∃ a, (k.claim h l kind zero).1 = { k with acc := a } := by
  unfold Core.claim
  dsimp only
  split
  · split
    · exact ⟨_, rfl⟩
    · exact ⟨_, rfl⟩
  · exact ⟨_, rfl⟩

/-- A pass that can start and whose charge is covered issues, claims its slots, and joins the passes in flight and the outstanding
commands; the core is then brought up to date. -/
theorem startPass_goes {s : State} {h : Head} {pl : PassPlan} (r : passReady s h pl) (e : affords s h pl.cls pl.cycles) :
    ∃ p : Pass, startPass h s pl = (passStarted s h pl p).settle h.core h.slot ∧
      passLine p = (((issued s h pl.cls pl.cycles).leave h .matrix).1, h.ctx.lctx, h.w, pl.aOff, pl.wOff) ∧ p.slot = h.slot := by
  obtain ⟨r1, r2, r3, r4, r5⟩ := r
  unfold startPass
  dsimp only
  have g : ¬(2 ≤ (s.core h.core).passes.length ∨ (!(s.core h.core).restart.isEmpty) = true ∨
      (!slotsReady (s.core h.core) h.ctx.lctx pl.slots pl.zero) = true) := by
    simp only [r4, r5]
    simp
    omega
  rw [if_neg (by simp [r1, r2]), if_neg g, pay_of_affords e]
  unfold passStarted claimed State.mapCore
  cases ha : pl.arg
  · exact ⟨_, rfl, rfl, rfl⟩
  · exact ⟨_, rfl, rfl, rfl⟩

end Sys2Proof.Machine
end

