-- ==== Sys2Proof/Laws/Outcomes.lean ====
section
/-! SUPPORT. The shared ways of running a work command, a row of the control core, a packet and a head under the selector all answer a
next state. -/

-- One proof at a time: the thread of every theorem of a large file would not fit in memory.
set_option Elab.async false

namespace Sys2Proof.Machine

open Sys2Proof

theorem work_next {core n op : Nat} {s : State} {body onSkip : Head → State → State} :
    ∃ t, work core n op s body onSkip = .next t := by
  unfold work
  repeat' split
  all_goals exact ⟨_, rfl⟩

theorem ccRow_next {core slot : Nat} {w : BitVec 32} {s : State} {body : Ctx → RvOp → Nat → Option (State → State)} :
    ∃ t, ccRow core slot w s body = .next t := by
  unfold ccRow
  repeat' split
  all_goals exact ⟨_, rfl⟩

theorem packet_next {op port ring : Nat} {s : State} {body : Pkt → State → Option State} :
    ∃ t, packet op port ring s body = .next t := by
  unfold packet
  dsimp only
  repeat' split
  all_goals exact ⟨_, rfl⟩

/-- The selector lets a command take its effect or leaves the state as it is (R23). -/
theorem select_cases (core n : Nat) (s : State) (out : Out) :
    select core n s out = out ∨ (select core n s out = .next s ∧ ∃ t, out = .next t) := by
  unfold select
  split
  · split
    · exact .inr ⟨rfl, _, rfl⟩
    · exact .inl rfl
  · exact .inl rfl

theorem select_next {core n : Nat} {s : State} {out : Out} (h : ∃ t, out = .next t) : ∃ t, select core n s out = .next t := by
  obtain ⟨t, rfl⟩ := h
  rcases select_cases core n s (.next t) with e | ⟨e, -⟩
  · exact ⟨t, e⟩
  · exact ⟨s, e⟩

end Sys2Proof.Machine
end

