-- ==== Sys2Proof/Laws/Packets.lean ====
section
/-! SUPPORT. What the shared way of acting on a packet does with one whose common checks hold. -/

-- One proof at a time: the thread of every theorem of a large file would not fit in memory.
set_option Elab.async false

namespace Sys2Proof.Machine

open Sys2Proof

/-- A packet whose common checks hold runs its own meaning. -/
theorem packet_of_takes {s u : State} {op port ring : Nat} {k : Pkt} {body : Pkt → State → Option State}
    (h : takes s u op port ring k) :
    packet op port ring s body = match body k u with | some t => .next t | none => .next s := by
  obtain ⟨h1, h2, h3, h4, h5, h6, h7, h8, h9, h10, hp, h11, h12, h13, h14, h15, h16⟩ := h
  obtain ⟨kp, kr, kb, kq, km⟩ := k
  dsimp only at h3 h4 h6
  subst h3 h4
  have hk : ∀ t : Taken, t = ⟨kb, kq, km⟩ → t.pkt kp kr = ⟨kp, kr, kb, kq, km⟩ := fun t e => by rw [e]; rfl
  unfold packet
  rw [if_neg (by omega)]
  dsimp only
  cases ht : (s.ring kp kr).taken with
  | nil => rw [ht] at h6; cases h6
  | cons b t =>
    rw [ht] at h6 h7
    simp only [List.head?_cons, Option.some.injEq] at h6
    subst h6
    dsimp only
    rw [hk _ rfl]
    rw [if_neg (by simp [h5, h8]), if_neg (by simp [h9]), if_neg (by
      rintro ⟨a, b⟩
      rcases h10 with e | e
      · rw [e] at a
        cases a
      · rw [e] at b
        simp at b)]
    rw [if_neg (by
      rintro ⟨a, b⟩
      rw [h5] at a
      rw [a, b] at hp
      cases hp)]
    rw [if_neg (by simp [h11, h12]; simpa using h13)]
    simp only [List.tail_cons] at h7
    rw [← h7]
    simp only [h14, h15, h16, Bool.false_eq_true, if_false]
    -- The two matches are one constant in the joined text and two in the modules.
    try (cases body ⟨kp, kr, kb, kq, km⟩ u <;> rfl)

end Sys2Proof.Machine
end

