-- ==== Sys2Proof/Laws/Power.lean ====
section
/-! SUPPORT. What an update of every cluster and a refill of accounts do. -/

-- One proof at a time: the thread of every theorem of a large file would not fit in memory.
set_option Elab.async false

namespace Sys2Proof.Machine

open Sys2Proof

/-- A pass over tables that changes the entries `ks` changes each of them once, and no other. -/
theorem tab_foldl_put {β : Type} (d : β) (f : Nat → β → β) : ∀ (ks : List Nat) (t : Tab β) (j : Nat), ks.Nodup →
    Tab.get d (ks.foldl (fun t k => Tab.put t k (f k (Tab.get d t k))) t) j =
      if j ∈ ks then f j (Tab.get d t j) else Tab.get d t j
  | [], t, j, _ => by simp
  | k :: ks, t, j, h => by
    rw [List.foldl_cons, tab_foldl_put d f ks _ j (List.nodup_cons.1 h).2]
    have hk := (List.nodup_cons.1 h).1
    by_cases e : j = k
    · subst e
      simp [hk]
    · simp [e, Tab.get_put_other d t _ e]

theorem State.cluster_mapClusters (s : State) (f : Nat → Cluster → Cluster) {k : Nat} (h : k < 128) :
    (s.mapClusters f).cluster k = f k (s.cluster k) := by
  have := tab_foldl_put ({} : Cluster) f (List.range 128) s.clusters k List.nodup_range
  simpa [State.mapClusters, State.cluster, h] using this

/-- A refill changes the accounts of the clusters it names, and nothing else. -/
structure Refilled (s t : State) (ks : List Nat) : Prop where
  same : ∃ cl, t = { s with clusters := cl }
  owner : ∀ k, (t.cluster k).owner = (s.cluster k).owner
  other : ∀ k, k ∉ ks → t.cluster k = s.cluster k

theorem Refilled.rfl (s : State) (ks : List Nat) : Refilled s s ks := ⟨⟨s.clusters, Eq.refl _⟩, fun _ => Eq.refl _, fun _ _ => Eq.refl _⟩

theorem Refilled.trans {s t u : State} {ks : List Nat} (a : Refilled s t ks) (b : Refilled t u ks) : Refilled s u ks := by
  obtain ⟨⟨c, rfl⟩, ao, an⟩ := a
  obtain ⟨⟨d, rfl⟩, bo, bn⟩ := b
  exact ⟨⟨d, Eq.refl _⟩, fun k => (bo k).trans (ao k), fun k h => (bn k h).trans (an k h)⟩

theorem cluster_set_refill (s : State) (k n j : Nat) :
    ((s.setCluster k ((s.cluster k).refill n).1).cluster j).owner = (s.cluster j).owner := by
  by_cases e : j = k
  · subst e
    unfold State.setCluster State.cluster Cluster.refill
    rw [Tab.get_put_same]
    dsimp only
    repeat' split
    all_goals rfl
  · unfold State.setCluster State.cluster
    exact congrArg Cluster.owner (Tab.get_put_other _ _ _ e)

theorem refilled_one (s : State) (k n : Nat) (ks : List Nat) (h : k ∈ ks) : Refilled s (s.setCluster k ((s.cluster k).refill n).1) ks := by
  refine ⟨⟨_, Eq.refl _⟩, fun j => cluster_set_refill s k n j, fun j hj => ?_⟩
  exact Tab.get_put_other _ _ _ (fun e => hj (e ▸ h))

theorem refillClusters_refilled (s : State) (ks : List Nat) (n : Nat) : Refilled s (s.refillClusters ks n) ks := by
  have hA : ∀ (l : List Nat) (acc : State × Nat), (∀ k ∈ l, k ∈ ks) → Refilled s acc.1 ks →
      Refilled s (l.foldl (fun (acc : State × Nat) k =>
        ((acc.1.setCluster k ((acc.1.cluster k).refill n).1, acc.2 + ((acc.1.cluster k).refill n).2) : State × Nat)) acc).1 ks := by
    intro l
    induction l with
    | nil => exact fun _ _ h => h
    | cons k t ih =>
      intro acc hk h
      exact ih _ (fun j hj => hk j (List.mem_cons_of_mem _ hj)) (h.trans (refilled_one _ _ _ _ (hk k List.mem_cons_self)))
  have hB : ∀ (l : List Nat) (acc : State × Nat), (∀ k ∈ l, k ∈ ks) → Refilled s acc.1 ks →
      Refilled s (l.foldl (fun (acc : State × Nat) k => if acc.2 = 0 then acc else
        ((acc.1.setCluster k ((acc.1.cluster k).refill acc.2).1, ((acc.1.cluster k).refill acc.2).2) : State × Nat)) acc).1 ks := by
    intro l
    induction l with
    | nil => exact fun _ _ h => h
    | cons k t ih =>
      intro acc hk h
      rw [List.foldl_cons]
      refine ih _ (fun j hj => hk j (List.mem_cons_of_mem _ hj)) ?_
      split
      · exact h
      · exact h.trans (refilled_one _ _ _ _ (hk k List.mem_cons_self))
  have a := hA ks (s, 0) (fun _ h => h) (Refilled.rfl s ks)
  unfold State.refillClusters
  dsimp only
  split
  · exact a
  · exact hB ks _ (fun _ h => h) a

/-- What a refill leaves over is left because the account stands at its top. -/
theorem refill_over (c : Cluster) (n : Nat) (h : (c.refill n).2 ≠ 0) (m : Nat) : ((c.refill n).1.refill m).1 = (c.refill n).1 := by
  have top : acctTop ≤ (c.refill n).1.acct := by
    unfold Cluster.refill at h ⊢
    split at h
    · rename_i e
      rw [if_pos e]
      exact e
    · rename_i e
      rw [if_neg e]
      dsimp only at h ⊢
      split at h
      · exact absurd rfl h
      · rename_i e2
        rw [if_neg e2]
  generalize (c.refill n).1 = d at top
  unfold Cluster.refill
  rw [if_pos top]

theorem refillClusters_one (s : State) (k n : Nat) : (s.refillClusters [k] n).cluster k = ((s.cluster k).refill n).1 := by
  unfold State.refillClusters
  simp only [List.foldl_cons, List.foldl_nil, Nat.zero_add]
  split
  · simp [State.setCluster, State.cluster]
  · rename_i h
    have := refill_over (s.cluster k) n h ((s.cluster k).refill n).2
    simpa [State.setCluster, State.cluster] using this

/-- A tick gives every free cluster its token once, and leaves the others and everything else alone. -/
theorem refill_free (s : State) (ks : List Nat) (n : Nat) : ks.Nodup →
    Refilled s (ks.foldl (fun s k => s.refillClusters [k] n) s) ks ∧
      ∀ k ∈ ks, (ks.foldl (fun s k => s.refillClusters [k] n) s).cluster k = ((s.cluster k).refill n).1 := by
  induction ks generalizing s with
  | nil => exact fun _ => ⟨Refilled.rfl s [], fun k h => by cases h⟩
  | cons j t ih =>
    intro nd
    obtain ⟨nj, nt⟩ := List.nodup_cons.1 nd
    have a := refillClusters_refilled s [j] n
    obtain ⟨b, c⟩ := ih (s.refillClusters [j] n) nt
    have wide {u v : State} {ls : List Nat} (h : Refilled u v ls) (hs : ∀ k ∈ ls, k ∈ j :: t) : Refilled u v (j :: t) :=
      ⟨h.same, h.owner, fun k hk => h.other k fun e => hk (hs k e)⟩
    refine ⟨(wide a (by simp)).trans (wide b fun k hk => List.mem_cons_of_mem _ hk), fun k hk => ?_⟩
    rw [List.foldl_cons]
    rcases List.mem_cons.1 hk with e | hk
    · subst e
      rw [b.other _ nj, refillClusters_one]
    · have : k ∉ [j] := by
        simp only [List.mem_singleton]
        exact fun e => nj (e ▸ hk)
      rw [c k hk, a.other k this]

theorem part_refillPart (s : State) (sh : List (Nat × Nat)) (p n q : Nat) (h : n ≠ 0) :
    (s.refillPart sh p n).part q = if q = p then (s.part p).ticked sh p n else s.part q := by
  obtain ⟨⟨cl, e⟩, _, _⟩ := refillClusters_refilled s (s.clustersOf p) ((s.part p).tickTotal sh p / (shareUnit * n))
  unfold State.refillPart
  rw [if_neg h]
  rw [e]
  unfold State.mapPart State.setPart State.part
  dsimp only
  by_cases he : q = p
  · subst he
    rw [Tab.get_put_same, if_pos rfl]
  · rw [Tab.get_put_other _ _ _ he, if_neg he]

theorem cluster_refillPart (s : State) (sh : List (Nat × Nat)) (p n k : Nat) :
    ((s.refillPart sh p n).cluster k).owner = (s.cluster k).owner ∧
      ((s.cluster k).owner ≠ some p → (s.refillPart sh p n).cluster k = s.cluster k) := by
  unfold State.refillPart
  split
  · exact ⟨rfl, fun _ => rfl⟩
  · obtain ⟨_, o, r⟩ := refillClusters_refilled s (s.clustersOf p) ((s.part p).tickTotal sh p / (shareUnit * n))
    refine ⟨o k, fun h => r k fun hm => h ?_⟩
    simpa [State.clustersOf] using (List.mem_filter.1 hm).2

/-- The partitions of a list receive once each; clusters that none of them holds stay as they are. -/
theorem refill_parts (sh : List (Nat × Nat)) (n : Nat → Nat) : ∀ (ps : List Nat) (s : State), ps.Nodup →
    (∀ q, q ∉ ps → (ps.foldl (fun u p => u.refillPart sh p (n p)) s).part q = s.part q) ∧
    (∀ q, q ∈ ps → n q ≠ 0 → (ps.foldl (fun u p => u.refillPart sh p (n p)) s).part q = (s.part q).ticked sh q (n q)) ∧
    (∀ k, (s.cluster k).owner = none → (ps.foldl (fun u p => u.refillPart sh p (n p)) s).cluster k = s.cluster k)
  | [], s, _ => ⟨fun _ _ => rfl, fun _ h _ => absurd h List.not_mem_nil, fun _ _ => rfl⟩
  | p :: t, s, nd => by
    obtain ⟨np, nt⟩ := List.nodup_cons.1 nd
    obtain ⟨a, b, c⟩ := refill_parts sh n t (s.refillPart sh p (n p)) nt
    have hp : ∀ q, q ≠ p → (s.refillPart sh p (n p)).part q = s.part q := by
      intro q hq
      by_cases h0 : n p = 0
      · unfold State.refillPart
        rw [if_pos h0]
      · rw [part_refillPart s sh p (n p) q h0, if_neg hq]
    refine ⟨fun q hq => ?_, fun q hq h0 => ?_, fun k hk => ?_⟩
    · rw [List.foldl_cons, a q fun h => hq (List.mem_cons_of_mem _ h), hp q fun e => hq (by simp [e])]
    · rw [List.foldl_cons]
      rcases List.mem_cons.1 hq with e | h
      · subst e
        rw [a _ np, part_refillPart s sh _ _ _ h0, if_pos rfl]
      · rw [b q h h0, hp q (fun e => np (e ▸ h))]
    · rw [List.foldl_cons]
      have := cluster_refillPart s sh p (n p) k
      rw [c k (this.1.trans hk), this.2 (by simp [hk])]

/-- Refills leave the cores alone. -/
theorem refill_parts_cores (sh : List (Nat × Nat)) (n : Nat → Nat) (ps : List Nat) (s : State) :
    (ps.foldl (fun u p => u.refillPart sh p (n p)) s).cores = s.cores := by
  induction ps generalizing s with
  | nil => rfl
  | cons p t ih =>
    rw [List.foldl_cons, ih]
    unfold State.refillPart
    split
    · rfl
    · obtain ⟨⟨cl, e⟩, _, _⟩ := refillClusters_refilled s (s.clustersOf p) ((s.part p).tickTotal sh p / (shareUnit * n p))
      rw [e]
      rfl

/-- Reading a table whose entries have been mapped, by a map that leaves the default as it is. -/
theorem tab_get_map {β : Type} {d : β} {f : β → β} (h : f d = d) (t : Tab β) (k : Nat) :
    Tab.get d (t.map fun (x : Nat × β) => (x.1, f x.2)) k = f (Tab.get d t k) := by
  induction t with
  | nil => exact h.symm
  | cons x t ih =>
    obtain ⟨j, v⟩ := x
    unfold Tab.get at ih ⊢
    simp only [List.map_cons, Tab.find]
    split
    · rfl
    · split
      · exact h.symm
      · exact ih

/-- What a refill tick begins: a new cycle in every cluster, and every core awake. -/
theorem wakeCores_cluster (s : State) (k : Nat) : s.wakeCores.cluster k = (s.cluster k).newCycle :=
  tab_get_map (d := ({} : Cluster)) (f := Cluster.newCycle) rfl s.clusters k

theorem wakeCores_core (s : State) (c : Nat) : s.wakeCores.core c = { s.core c with asleep := false } :=
  tab_get_map (d := ({} : Core)) (f := fun k => { k with asleep := false }) rfl s.cores c

theorem wakeCores_clustersOf (s : State) (p : Nat) : s.wakeCores.clustersOf p = s.clustersOf p := by
  unfold State.clustersOf
  simp only [wakeCores_cluster]
  rfl

theorem wakeCores_shares (s : State) : s.wakeCores.shares = s.shares := by
  unfold State.shares State.restOf
  simp only [wakeCores_clustersOf, wakeCores_cluster]
  rfl

/-- A tick, for free clusters, for partitions that hold some, and for the cores (R303, R304, R308). -/
theorem refill_tick (s : State) : ∃ t, execRefillTick s = .next t ∧
    (∀ k < 128, (s.cluster k).owner = none → t.cluster k = ((s.cluster k).newCycle.refill 65536).1) ∧
    (∀ p < 64, (s.part p).exist = true → (s.clustersOf p).length ≠ 0 →
      t.part p = (s.part p).ticked s.metered.shares p (s.clustersOf p).length) ∧
    ∀ c, t.core c = { s.core c with asleep := false } := by
  have hc : ∀ k, (s.cluster k).newCycle = s.metered.wakeCores.cluster k := fun k => (wakeCores_cluster s.metered k).symm
  have hp : ∀ p, s.part p = s.metered.wakeCores.part p := fun _ => rfl
  have hl : ∀ p, s.clustersOf p = s.metered.wakeCores.clustersOf p := fun p => (wakeCores_clustersOf s.metered p).symm
  have hs : s.metered.shares = s.metered.wakeCores.shares := (wakeCores_shares s.metered).symm
  have ho : ∀ k, (s.cluster k).owner = (s.metered.wakeCores.cluster k).owner :=
    fun k => show (s.cluster k).newCycle.owner = _ from congrArg Cluster.owner (hc k)
  have hk : ∀ c, ({ s.core c with asleep := false } : Core) = s.metered.wakeCores.core c := fun c => (wakeCores_core s.metered c).symm
  unfold execRefillTick
  simp only [hc, hp, hl, hs, ho, hk]
  generalize s.metered.wakeCores = s
  have a := refill_free s ((List.range 128).filter fun k => (s.cluster k).owner.isNone) 65536 (List.nodup_range.filter _)
  have c := refill_parts s.shares (fun p => (s.clustersOf p).length) s.partList
    (((List.range 128).filter fun k => (s.cluster k).owner.isNone).foldl (fun s k => s.refillClusters [k] 65536) s)
    (List.nodup_range.filter _)
  have g := refill_parts_cores s.shares (fun p => (s.clustersOf p).length) s.partList
    (((List.range 128).filter fun k => (s.cluster k).owner.isNone).foldl (fun s k => s.refillClusters [k] 65536) s)
  obtain ⟨a, b⟩ := a
  obtain ⟨c, d, e⟩ := c
  refine ⟨_, rfl, fun k hk ho => ?_, fun p hp he hn => ?_, fun m => ?_⟩
  · rw [e k (by rw [a.owner k, ho]), b k (by simp [hk, ho])]
  · rw [d p (by simp [State.partList, hp, he]) hn]
    obtain ⟨⟨cl, ec⟩, _, _⟩ := a
    rw [ec]
    rfl
  · obtain ⟨⟨cl, ec⟩, _, _⟩ := a
    unfold State.core
    rw [g, ec]

end Sys2Proof.Machine
end

