-- ==== Sys2Proof/Laws/Tokens.lean ====
section
/-! SUPPORT. What taking and giving tokens do to each token of a context. -/

-- One proof at a time: the thread of every theorem of a large file would not fit in memory.
set_option Elab.async false

namespace Sys2Proof.Machine

open Sys2Proof

/-- A digit of a number, base 16. -/
theorem tok_eq (t : W64) (k : Nat) : tok t k = t.toNat / 16 ^ k % 16 := by
  unfold tok bits
  have e : 2 ^ (4 * k) = 16 ^ k := by rw [Nat.pow_mul]
  rw [Nat.shiftRight_eq_div_pow, e, show 4 * k + 3 + 1 - 4 * k = 4 by omega]
  rfl

/-- Adding 1 to a digit below 15 changes that digit only. -/
theorem digit_add (n j k : Nat) (h : n / 16 ^ j % 16 < 15) :
    (n + 16 ^ j) / 16 ^ k % 16 = if k = j then n / 16 ^ j % 16 + 1 else n / 16 ^ k % 16 := by
  have pj : 0 < 16 ^ j := Nat.pow_pos (by omega)
  have dj : (n + 16 ^ j) / 16 ^ j = n / 16 ^ j + 1 := Nat.add_div_right n pj
  rcases Nat.lt_trichotomy k j with hk | hk | hk
  · rw [if_neg (by omega)]
    obtain ⟨m, rfl⟩ : ∃ m, j = k + 1 + m := ⟨j - (k + 1), by omega⟩
    have pk : 0 < 16 ^ k := Nat.pow_pos (by omega)
    rw [show (16 : Nat) ^ (k + 1 + m) = 16 ^ k * (16 * 16 ^ m) by rw [Nat.pow_add, Nat.pow_succ]; ring, Nat.add_mul_div_left _ _ pk]
    omega
  · subst hk
    rw [if_pos rfl, dj]
    omega
  · rw [if_neg (by omega)]
    obtain ⟨m, rfl⟩ : ∃ m, k = j + (m + 1) := ⟨k - j - 1, by omega⟩
    rw [Nat.pow_add, ← Nat.div_div_eq_div_mul, ← Nat.div_div_eq_div_mul, dj, Nat.pow_succ, Nat.mul_comm (16 ^ m) 16,
      ← Nat.div_div_eq_div_mul, ← Nat.div_div_eq_div_mul, show (n / 16 ^ j + 1) / 16 = n / 16 ^ j / 16 by omega]

/-- Taking 1 from a digit of at least 1 changes that digit only. -/
theorem digit_sub (n j k : Nat) (h : 1 ≤ n / 16 ^ j % 16) :
    (n - 16 ^ j) / 16 ^ k % 16 = if k = j then n / 16 ^ j % 16 - 1 else n / 16 ^ k % 16 := by
  have pj : 0 < 16 ^ j := Nat.pow_pos (by omega)
  have le : 16 ^ j ≤ n := by
    by_contra hc
    rw [Nat.div_eq_of_lt (by omega)] at h
    omega
  obtain ⟨m, rfl⟩ : ∃ m, n = m + 16 ^ j := ⟨n - 16 ^ j, by omega⟩
  have dj : (m + 16 ^ j) / 16 ^ j = m / 16 ^ j + 1 := Nat.add_div_right m pj
  rw [dj] at h
  have hm : m / 16 ^ j % 16 < 15 := by omega
  rw [Nat.add_sub_cancel, digit_add m j k hm, digit_add m j j hm, if_pos rfl]
  split <;> simp_all

theorem tok_add (t : W64) (j k : Nat) (hj : j < 16) (h : tok t j < 15) :
    tok (t + BitVec.ofNat 64 (16 ^ j)) k = if k = j then tok t j + 1 else tok t k := by
  rw [tok_eq] at h
  have small : t.toNat + 16 ^ j < 2 ^ 64 := by
    have top : t.toNat / 16 ^ j + 1 ≤ 16 ^ (16 - j) := by
      have a : t.toNat / 16 ^ j < 16 ^ (16 - j) := by
        rw [Nat.div_lt_iff_lt_mul (Nat.pow_pos (by omega)), ← Nat.pow_add, show 16 - j + j = 16 by omega]
        exact t.isLt
      omega
    have ne : t.toNat / 16 ^ j + 1 ≠ 16 ^ (16 - j) := by
      intro e
      obtain ⟨m, hm⟩ : ∃ m, 16 - j = m + 1 := ⟨15 - j, by omega⟩
      rw [hm, Nat.pow_succ] at e
      omega
    have b : t.toNat < (t.toNat / 16 ^ j + 1) * 16 ^ j := by
      have := Nat.lt_div_mul_add (a := t.toNat) (b := 16 ^ j) (Nat.pow_pos (by omega))
      rw [Nat.add_mul, Nat.one_mul]
      exact this
    have c : (t.toNat / 16 ^ j + 1 + 1) * 16 ^ j ≤ 16 ^ (16 - j) * 16 ^ j := Nat.mul_le_mul_right _ (by omega)
    rw [← Nat.pow_add, show 16 - j + j = 16 by omega, Nat.add_mul, Nat.one_mul] at c
    have d : (16 : Nat) ^ 16 = 2 ^ 64 := by norm_num
    omega
  have e : (t + BitVec.ofNat 64 (16 ^ j)).toNat = t.toNat + 16 ^ j := by
    rw [BitVec.toNat_add, BitVec.toNat_ofNat, Nat.mod_eq_of_lt (show 16 ^ j < 2 ^ 64 by omega), Nat.mod_eq_of_lt small]
  rw [tok_eq, tok_eq, tok_eq, e, digit_add _ _ _ h]

theorem tok_sub (t : W64) (j k : Nat) (h : 1 ≤ tok t j) :
    tok (t - BitVec.ofNat 64 (16 ^ j)) k = if k = j then tok t j - 1 else tok t k := by
  rw [tok_eq] at h
  have le : 16 ^ j ≤ t.toNat := by
    by_contra hc
    rw [Nat.div_eq_of_lt (by omega)] at h
    omega
  have lt := t.isLt
  have e : (t - BitVec.ofNat 64 (16 ^ j)).toNat = t.toNat - 16 ^ j := by
    have small : 16 ^ j < 2 ^ 64 := by omega
    rw [BitVec.toNat_sub, BitVec.toNat_ofNat, Nat.mod_eq_of_lt small]
    generalize 16 ^ j = x at le small ⊢
    omega
  rw [tok_eq, tok_eq, tok_eq, e, digit_sub _ _ _ h]

/-- A wait is met when every token of its mask is at least 1. -/
theorem tokMet_iff (t : W64) (m : Nat) : tokMet t m = true ↔ ∀ k < 16, m.testBit k = true → 1 ≤ tok t k := by
  unfold tokMet
  rw [List.all_eq_true]
  constructor
  · intro h k hk hb
    have := h k (List.mem_range.2 hk)
    simpa [hb] using this
  · intro h k hk
    cases hb : m.testBit k
    · simp
    · simpa using h k (List.mem_range.1 hk) hb

theorem tokTake_go (m : Nat) : ∀ (ks : List Nat) (t : W64) (k : Nat), ks.Nodup →
    tok (ks.foldl (fun t k => if m.testBit k && tok t k ≥ 1 then t - BitVec.ofNat 64 (16 ^ k) else t) t) k =
      tok t k - if k ∈ ks ∧ m.testBit k = true then 1 else 0
  | [], t, k, _ => by simp
  | j :: ks, t, k, nd => by
    obtain ⟨nj, nk⟩ := List.nodup_cons.1 nd
    rw [List.foldl_cons, tokTake_go m ks _ k nk]
    by_cases hb : m.testBit j = true ∧ 1 ≤ tok t j
    · rw [if_pos (by simp [hb.1, hb.2]), tok_sub t j k hb.2]
      by_cases e : k = j
      · subst e
        simp [nj, hb.1]
      · simp [e]
    · rw [if_neg (by simpa using hb)]
      by_cases e : k = j
      · subst e
        by_cases hm : m.testBit k = true
        · have z : tok t k = 0 := by
            have : ¬ 1 ≤ tok t k := fun h => hb ⟨hm, h⟩
            omega
          simp [z]
        · simp [hm]
      · simp [e]

/-- Taking the tokens of a mask takes 1 from each of them. -/
theorem tok_tokTake (t : W64) (m k : Nat) (hk : k < 16) : tok (tokTake t m) k = tok t k - if m.testBit k then 1 else 0 := by
  unfold tokTake
  rw [tokTake_go m _ t k List.nodup_range]
  simp [hk]

theorem tokGive_go (m : Nat) : ∀ (ks : List Nat) (a : W64 × Bool) (k : Nat), ks.Nodup → (∀ j ∈ ks, j < 16) →
    tok (ks.foldl (fun (a : W64 × Bool) k => if !m.testBit k then a
      else if tok a.1 k = 15 then (a.1, true) else (a.1 + BitVec.ofNat 64 (16 ^ k), a.2)) a).1 k =
        (if k ∈ ks ∧ m.testBit k = true then min 15 (tok a.1 k + 1) else tok a.1 k) ∧
    ((ks.foldl (fun (a : W64 × Bool) k => if !m.testBit k then a
      else if tok a.1 k = 15 then (a.1, true) else (a.1 + BitVec.ofNat 64 (16 ^ k), a.2)) a).2 = true ↔
        a.2 = true ∨ ∃ j ∈ ks, m.testBit j = true ∧ tok a.1 j = 15)
  | [], a, k, _, _ => by simp
  | j :: ks, a, k, nd, lt => by
    obtain ⟨nj, nk⟩ := List.nodup_cons.1 nd
    have top : ∀ (t : W64) (i : Nat), tok t i ≤ 15 := by
      intro t i
      rw [tok_eq]
      omega
    rw [List.foldl_cons]
    obtain ⟨x, y⟩ := tokGive_go m ks (if !m.testBit j then a
      else if tok a.1 j = 15 then (a.1, true) else (a.1 + BitVec.ofNat 64 (16 ^ j), a.2)) k nk fun i hi => lt i (List.mem_cons_of_mem _ hi)
    rw [x, y]
    by_cases hm : m.testBit j = true
    · simp only [hm, Bool.not_true, Bool.false_eq_true, if_false]
      by_cases h15 : tok a.1 j = 15
      · simp only [h15, if_true]
        constructor
        · by_cases e : k = j
          · subst e
            simp [nj, hm, h15]
          · simp [e]
        · simp [hm, h15]
      · simp only [h15, if_false]
        have t := top a.1 j
        have add := fun i => tok_add a.1 j i (lt j List.mem_cons_self) (by omega)
        constructor
        · rw [add k]
          by_cases e : k = j
          · subst e
            rw [if_neg (fun h => nj h.1), if_pos rfl, if_pos ⟨List.mem_cons_self, hm⟩]
            omega
          · simp [e]
        · have : (∃ i ∈ ks, m.testBit i = true ∧ tok (a.1 + BitVec.ofNat 64 (16 ^ j)) i = 15) ↔
              ∃ i ∈ ks, m.testBit i = true ∧ tok a.1 i = 15 := by
            constructor
            · rintro ⟨i, hi, hb, ht⟩
              rw [add i, if_neg (by rintro rfl; exact nj hi)] at ht
              exact ⟨i, hi, hb, ht⟩
            · rintro ⟨i, hi, hb, ht⟩
              refine ⟨i, hi, hb, ?_⟩
              rw [add i, if_neg (by rintro rfl; exact nj hi)]
              exact ht
          rw [this]
          simp [hm, h15]
    · simp only [hm, Bool.not_false, if_true]
      constructor
      · by_cases e : k = j
        · subst e
          simp [hm]
        · simp [e]
      · simp [hm]

/-- Giving the tokens of a mask adds 1 to each of them up to 15, and notes a token that stood at 15. -/
theorem tok_tokGive (t : W64) (m k : Nat) (hk : k < 16) :
    tok (tokGive t m).1 k = if m.testBit k then min 15 (tok t k + 1) else tok t k := by
  have := (tokGive_go m (List.range 16) (t, false) k List.nodup_range fun j h => List.mem_range.1 h).1
  simpa [tokGive, hk] using this

theorem tokGive_over (t : W64) (m : Nat) : (tokGive t m).2 = true ↔ ∃ k < 16, m.testBit k = true ∧ tok t k = 15 := by
  have := (tokGive_go m (List.range 16) (t, false) 0 List.nodup_range fun j h => List.mem_range.1 h).2
  simpa [tokGive] using this

end Sys2Proof.Machine
end

