-- ==== Sys2Proof/Laws/Vector.lean ====
section
/-! SUPPORT. What the issue of a vector command does. -/

-- One proof at a time: the thread of every theorem of a large file would not fit in memory.
set_option Elab.async false

namespace Sys2Proof.Machine

open Sys2Proof

/-- A vector command that can start, and whose first segment the account covers, issues and runs that segment. -/
theorem runVec_goes {s : State} {h : Head} {pl : VPlan} (r : vectorReady s h pl) (e : affords s h pl.cls (vTerm h.w pl.ops pl.acc 0)) :
    runVec h s (.ok pl) = vectorStarted s h pl := by
  obtain ⟨a, b, c⟩ := r
  unfold runVec
  dsimp only
  rw [a, b, c, pay_of_affords e]
  rfl

end Sys2Proof.Machine
end

