-- ==== Sys2Proof/Laws/Window.lean ====
section
/-! SUPPORT. Which rule of the control window a write at each register's offset follows (R436). -/

-- One proof at a time: the thread of every theorem of a large file would not fit in memory.
set_option Elab.async false

namespace Sys2Proof.Machine

open Sys2Proof

/-- Context 7 and the core's dispatch path meet the write right. -/
theorem WinRes.onlyIf_true (r : WinRes) : WinRes.onlyIf true r = r := rfl

theorem State.winWrite_toksig (s : State) (w : Who) (core l v : Nat) (h : l < 16) :
    s.winWrite w core (0xC0800 + 8 * l) v =
      if (s.core core).sigFull l then .wait else .done (s.setCore core ((s.core core).signal l (bits v 15 0)).refresh) := by
  have e : (0xC0800 + 8 * l - 0xC0800) / 8 = l := by omega
  unfold State.winWrite
  repeat rw [if_neg (by omega)]
  rw [if_pos (by omega), e]

theorem State.winWrite_ctxCtrl (s : State) (w : Who) (core n v : Nat) (h : n < 8) (m : s.mayWrite w core = true) :
    s.winWrite w core (0xC1000 + 0x100 * n) v = s.writeCtxCtrl core n v := by
  have e : (0xC1000 + 0x100 * n - 0xC1000) / 0x100 = n := by omega
  unfold State.winWrite
  repeat rw [if_neg (by omega)]
  rw [if_pos (by omega), e, m]
  rfl

theorem State.winWrite_cmdptr (s : State) (w : Who) (core n v : Nat) (h : n < 8) (m : s.mayWrite w core = true) :
    s.winWrite w core (0xC1018 + 0x100 * n) v = s.writeCmdptr core n v := by
  have e : (0xC1018 + 0x100 * n - 0xC1000) / 0x100 = n := by omega
  unfold State.winWrite
  repeat rw [if_neg (by omega)]
  rw [if_pos (by omega), e, m]
  rfl

theorem State.winWrite_arrRepair (s : State) (core a v : Nat) (w : Who) (h : a < 4) (m : isService w = true) :
    s.winWrite w core (0xC2008 + 8 * a) v =
      .done (s.setCore core ((s.core core).setArray a { (s.core core).array a with pending := some (bits v 5 0) }).applyRepairs) := by
  have e : (0xC2008 + 8 * a - 0xC2008) / 8 = a := by omega
  unfold State.winWrite
  repeat rw [if_neg (by omega)]
  rw [if_pos (by omega), m]
  simp only [e]
  rfl

theorem State.winWrite_bb (s : State) (w : Who) (core n p v : Nat) (limit : Bool) (h : n < 8) (hp : p < 4) (m : s.mayWrite w core = true) :
    s.winWrite w core (0xC4000 + 0x40 * n + 0x10 * p + if limit then 8 else 0) v = s.writeBB core n p limit v := by
  have b : (if limit then 8 else 0) < 0x10 := by split <;> omega
  have e : (0xC4000 + 0x40 * n + 0x10 * p + (if limit then 8 else 0) - 0xC4000) / 0x40 = n := by omega
  have f : (0xC4000 + 0x40 * n + 0x10 * p + if limit then 8 else 0) % 0x40 / 0x10 = p := by omega
  have g : ((0xC4000 + 0x40 * n + 0x10 * p + if limit then 8 else 0) % 0x10 != 0) = limit := by
    cases limit <;> simp <;> omega
  unfold State.winWrite
  repeat rw [if_neg (by omega)]
  rw [if_pos (by omega), e, f, g, m]
  rfl

theorem State.winWrite_circ (s : State) (w : Who) (core g v : Nat) (h : g < 4) (m : s.mayWrite w core = true) :
    s.winWrite w core (0xC4400 + 0x20 * g) v = s.writeCirc core g v := by
  have e : (0xC4400 + 0x20 * g - 0xC4400) / 0x20 = g := by omega
  unfold State.winWrite
  repeat rw [if_neg (by omega)]
  rw [if_pos (by omega), e, m]
  rfl

/-- The owner of a region on its own core may move the head. -/
theorem State.winWrite_head (s : State) (core n g v : Nat) (h : g < 4) (o : (s.slot core n).lctx = ((s.core core).circAt g).lctx) :
    s.winWrite (.ctx core n) core (0xC4408 + 0x20 * g) v = s.writeHead core g v := by
  have e : (0xC4408 + 0x20 * g - 0xC4400) / 0x20 = g := by omega
  unfold State.winWrite
  repeat rw [if_neg (by omega)]
  rw [if_pos (by omega)]
  simp only [e, o, beq_self_eq_true, Bool.and_self, Bool.true_or]
  rfl

theorem State.winWrite_stSlot (s : State) (w : Who) (core n v : Nat) (h : n < 16) (m : s.mayWrite w core = true) :
    s.winWrite w core (0xC5400 + 0x10 * n) v = s.writeStSlot core n v := by
  have e : (0xC5400 + 0x10 * n - 0xC5400) / 0x10 = n := by omega
  unfold State.winWrite
  repeat rw [if_neg (by omega)]
  rw [if_pos (by omega), e, m]
  rfl

theorem State.winWrite_chain (s : State) (w : Who) (core v : Nat) (m : s.mayWrite w core = true) :
    s.winWrite w core 0xC5600 v = s.writeChain core v := by
  unfold State.winWrite
  simp [m, WinRes.onlyIf]

theorem State.winWrite_larder (s : State) (w : Who) (core v : Nat) (spill : Bool) (m : s.mayWrite w core = true) :
    s.winWrite w core (if spill then 0xC6008 else 0xC6000) v = s.writeLarder core spill v := by
  unfold State.winWrite
  cases spill <;> simp [m, WinRes.onlyIf]

/-- What a window write that may reach the core does is what the register's rule says. -/
theorem winCmd_of_done {s t : State} {who : Who} {core off v : Nat} (h : core < 2048) (p : s.present? who = true)
    (o : s.outside who core = false) (w : s.winWrite who core off v = .done t) : winCmd who core off v s = .next t := by
  unfold winCmd State.winAccess
  rw [if_neg (by omega), p, o, w]
  rfl

end Sys2Proof.Machine
end

