-- ==== Sys2Proof/Tests/Slice0.lean ====
section
/-! SUPPORT. Small tests: ill-formed commands that the checks refuse, and for every statement with hypotheses a state and operands that
meet all of them. -/

-- One proof at a time: the thread of every theorem of a large file would not fit in memory.
set_option Elab.async false

-- A witness shows a state also where the hypotheses do not speak of it.
set_option linter.unusedVariables false

namespace Sys2Proof

open Sys2Proof.Machine

/-! One ill-formed command for each check, which the check refuses, and one well-formed command. -/

theorem test_wf_core : Instr.wf (.nop 2048 0) = false := by decide
theorem test_wf_slot : Instr.wf (.nop 0 8) = false := by decide
theorem test_wf_logical_context : Instr.wf (.waitTimeout 0 17) = false := by decide
theorem test_wf_job_context : Instr.wf (.toksigLWrite (.host 0 0) 0 16 0) = false := by decide
theorem test_wf_array : Instr.wf (.arrayFault 0 4 false) = false := by decide
theorem test_wf_array_row : Instr.wf (.rowTestComplete 0 0 (some 33)) = false := by decide
theorem test_wf_bank : Instr.wf (.guestGrant 0 6) = false := by decide
theorem test_wf_pair : Instr.wf (.bbWrite (.host 0 0) 0 0 4 false 0) = false := by decide
theorem test_wf_region : Instr.wf (.circCfgWrite (.host 0 0) 0 4 0) = false := by decide
theorem test_wf_stream_slot : Instr.wf (.transferComplete 0 16) = false := by decide
theorem test_wf_scratch_offset : Instr.wf (.scratchUncorrectable 0 0xC0000 false) = false := by decide
theorem test_wf_window_offset : Instr.wf (.registerWrite (.ctx 0 0) (.win 0 0) 0) = false := by decide
theorem test_wf_bar0_offset : Instr.wf (.registerWrite (.host 0 0) (.bar0 1) 0) = false := by decide
theorem test_wf_die : Instr.wf (.pageWalk 4 0 0) = false := by decide
theorem test_wf_partition : Instr.wf (.runComplete 64) = false := by decide
theorem test_wf_stack : Instr.wf (.pseudoChannelLoss 8 0) = false := by decide
theorem test_wf_pseudo_channel : Instr.wf (.pseudoChannelLoss 0 64) = false := by decide
theorem test_wf_memory_address : Instr.wf (.uncorrectableError 0x8000000000 false) = false := by decide
theorem test_wf_bar2_length : Instr.wf (.bar2Read 0 0 0 4097) = false := by decide
theorem test_wf_bar2_data : Instr.wf (.bar2Write 0 0 0 [] false) = false := by decide
theorem test_wf_lane : Instr.wf (.alignmentLoss 64) = false := by decide
theorem test_wf_quad : Instr.wf (.quadConfigWrite (.host 0 0) 16 0) = false := by decide
theorem test_wf_frame_port : Instr.wf (.frameReceive { port := 64, bytes := [], fcsOk := true }) = false := by decide
theorem test_wf_priority : Instr.wf (.pfcPause 0 8 true) = false := by decide
theorem test_wf_peer : Instr.wf (.hsInit 4096) = false := by decide
theorem test_wf_sensor : Instr.wf (.thermalWindow [(512, 0)]) = false := by decide
theorem test_wf_cluster : Instr.wf (.clusterGate 128) = false := by decide
theorem test_wf_port : Instr.wf (.identify 2 0) = false := by decide
theorem test_wf_ring : Instr.wf (.identify 0 256) = false := by decide
theorem test_wf_virtual_functions : Instr.wf (.vfEnableChange 0 true 16) = false := by decide
theorem test_wf_host_run : Instr.wf (.completionError 0 0 4 .ep) = false := by decide
theorem test_wf_dispatch_core : Instr.wf (.dispatchCoreLoss 8) = false := by decide
theorem test_wf_revoked_address : Instr.wf (.lateRevokedWrite 0x7FC0000000 []) = false := by decide
theorem test_wf_unit : Instr.wf (.unitRetest 0x6000000 0) = false := by decide
theorem test_wf_token_length : Instr.wf (.unlock []) = false := by decide
theorem test_wf_link_speed : Instr.wf (.pcieLinkUp 0 6 4) = false := by decide
theorem test_wf_link_width : Instr.wf (.pcieLinkUp 0 5 3) = false := by decide
theorem test_wf_smbus_code : Instr.wf (.smbusUnlistedCommand 1) = false := by decide
theorem test_wf_accepts : Instr.wf (.nop 2047 7) = true := by decide

/-- No row of the table gives bits, so no word spells a command. -/
theorem test_decode_none (n w : Nat) : decodeTableWord n w = none := rfl

/-! A small state: cluster 0 runs with a full account, core 0 belongs to partition 0, and context slot 0 of core 0 holds the running
logical context 0 whose head is the command `w`. -/

/-- A context that runs with `w` at its head. -/
def demoCtx (w : Cmd) : Ctx := { st := .ready, buf := [{ ptr := { base := 0, off := 0 }, w := w }], fptr := { base := 0, off := 1 } }

/-- A state with cluster 0 running in partition 0. -/
def demoRun : State :=
  { clusters := [(0, { owner := some 0, acct := 1000000000, clk := .run, step := 1 })]
    parts := [(0, { exist := true, nctx := 4 })]
    pwr := { devState := 3 } }

/-- The running state with the head `w`. -/
def demoCmd (w : Cmd) : State := { demoRun with cores := [(0, { slots := [(0, demoCtx w)] })] }

/-- The head that `demoCmd w` has. -/
def demoHead (w : Cmd) : Head := { core := 0, slot := 0, ctx := demoCtx w, w := w, replay := false }

/-- The running state with the head `w` in a context changed by `f`. -/
def demoWith (w : Cmd) (f : Ctx → Ctx) : State := { demoRun with cores := [(0, { slots := [(0, f (demoCtx w))] })] }

/-- The head that `demoWith w f` has. -/
def demoHeadWith (w : Cmd) (f : Ctx → Ctx) : Head := { core := 0, slot := 0, ctx := f (demoCtx w), w := w, replay := false }

/-- A context with the whole scratch window of core 0 in pair 0. -/
def demoPair (c : Ctx) : Ctx := { c with pairs := [(0, { base := 0x8000000000, limit := 0xC000 })] }

/-- A LOOP with count 0 whose SKIP names the ENDLOOP one command on. -/
def demoZeroLoopCtx : Ctx := demoPair (demoCtx 0x100000000004)

def demoZeroLoop : State :=
  { demoRun with cores := [(0, { slots := [(0, demoZeroLoopCtx)] })], mem := [(scrPa 0 16, 0x05)] }

/-- The same where SKIP names a NOP. -/
def demoNoLoop : State := { demoRun with cores := [(0, { slots := [(0, demoZeroLoopCtx)] })] }

/-- A context whose buffer is empty and whose fetcher stands at the second command of its window, in bank 0 that is on. -/
def demoFetch : State :=
  { demoRun with cores := [(0, { slots := [(0, demoPair { demoCtx 0 with buf := [] })] })] }

/-- The same with bank 0 in retention. -/
def demoSleep : State :=
  { demoRun with cores := [(0, { slots := [(0, demoPair { demoCtx 0 with buf := [] })], banks := [(0, { st := .ret })] })] }

/-- Logical context 0 waits in slot 0 on a token it does not have, and context 1 is swapped out and runnable. -/
def demoSwapCore : Core :=
  { slots := [(0, { demoCtx 0x100001 with st := .blocked, cause := 1 })], images := [(1, { lctx := 1 })], swapEn := true }

def demoSwap : State := { demoRun with cores := [(0, demoSwapCore)] }

/-- Slot 0 swaps out for context 1. -/
def demoSwapOut : State :=
  { demoRun with
    cores := [(0, { demoSwapCore with
      slots := [(0, { demoCtx 0x100001 with st := .swapOut })], swap := some ⟨0, true, false, some 1, false⟩ })] }

/-- Slot 0 swaps in context 1. -/
def demoSwapIn : State :=
  { demoRun with
    cores := [(0, { demoSwapCore with
      slots := [(0, { lctx := 1, st := .swapIn })], swap := some ⟨0, true, false, some 1, true⟩ })] }

/-- Slot 0 swaps, `second` half or first, with cellar bank 1 in retention. -/
def demoSwapAsleep (second : Bool) : State :=
  { demoRun with
    cores := [(0, { demoSwapCore with
      slots := [(0, { demoCtx 0x100001 with st := .swapOut })], swap := some ⟨0, true, false, some 1, second⟩, banks := [(5, { st := .ret })] })] }

/-- Slot 0 swaps in context 1, which has a table bound in bank 0, which stands at `b`. -/
def demoSwapTab (b : BankSt) : State :=
  { demoRun with
    cores := [(0, { demoSwapCore with
      slots := [(0, demoPair { lctx := 1, st := .swapIn, fwd := some { base := 0, off := 0, img := [], bad := false } })]
      swap := some ⟨0, true, false, some 1, true⟩, banks := [(0, { st := b })] })] }

/-- The same with a quantum that has run out. -/
def demoSwapDue : State := { demoRun with cores := [(0, { demoSwapCore with quantum := 0 })] }

/-- Context `c` in slot `n` of core 0 after `clk` + 6400 ticks of the core's clock. -/
def demoOverdue (n clk : Nat) (c : Ctx) : State := { demoRun with cores := [(0, { slots := [(n, c)], clk := clk + 6400 })] }

/-- A signal of token 0 from core 1, which has reached core 0. -/
def demoSignalMsg : RemMsg :=
  { src := 1, slot := 0, lctx := 0, svc := false, addr := 0, op := .signal 0 1, rd := 0, signed := false, fp := false, id := 0 }

def demoSignal : State := { demoRun with cores := [(0, { slots := [(0, demoCtx 0)], arriving := [demoSignalMsg] })] }

/-- The same from core 4, which lies in another cluster and has the commands `p` outstanding. -/
def demoSignalFar (p : List Pend) : State :=
  { demoRun with
    cores := [(0, { slots := [(0, demoCtx 0)], arriving := [{ demoSignalMsg with src := 4 }] }), (4, { slots := [(0, demoCtx 0)], pend := p })] }

/-- A context that runs the instruction `w` on the control core, changed by `f`. -/
def demoInsnCtx (f : Ctx → Ctx) : Ctx := f (demoPair { demoCtx 0 with pc := 0x8000000000 })

/-- The state whose slot `n` of core 0 runs the instruction `w`. -/
def demoInsn (n w : Nat) (f : Ctx → Ctx := id) : State :=
  { demoRun with
    cores := [(0, { slots := [(n, demoInsnCtx f)] })]
    mem := Memory.writes [] (scrPa 0 0) (leBytes 4 w) }

/-- The same with logical context 1 swapped out. -/
def demoInsnImg (n w : Nat) (f : Ctx → Ctx) : State :=
  { demoRun with
    cores := [(0, { slots := [(n, demoInsnCtx f)], images := [(1, { lctx := 1 })] })]
    mem := Memory.writes [] (scrPa 0 0) (leBytes 4 w) }

/-- Pairs over the whole scratch window of core 0, in the normal view and through both aliases. -/
def demoPairs : Tab Pair :=
  [(0, { base := 0x8000000000, limit := 0xC000 }), (1, { base := 0x8100000000, limit := 0xC000 }),
   (2, { base := 0x8200000000, limit := 0xC000 })]

/-- A context that may use accumulator slots: it has a save area and pairs over its window. -/
def demoMmCtx (w : Cmd) : Ctx := { demoCtx w with pairs := demoPairs, psave := 0x10000 }

def demoMm (w : Cmd) : State := { demoRun with cores := [(0, { slots := [(0, demoMmCtx w)] })] }

/-- A context whose pair 0 names the scratch of core 1. -/
def demoFarCtx (w : Cmd) : Ctx := { demoCtx w with pairs := [(0, ⟨0x8000100000, 0xC000⟩)] }

/-- The same where core 1's bank 0 is off. -/
def demoFar (w : Cmd) : State :=
  { demoRun with cores := [(0, { slots := [(0, demoFarCtx w)] }), (1, { banks := [(0, { st := .off })] })] }

def demoMmHead (w : Cmd) : Head := { core := 0, slot := 0, ctx := demoMmCtx w, w := w, replay := false }

/-- The plan of the pass that `demoMm w` has at its head. -/
def demoPlan (op : Nat) (w : Cmd) : PassPlan :=
  ((if op = 0x41 then widePlan (demoMm w) (demoMmHead w) else mmPlan (demoMm w) op (demoMmHead w)).toOption).getD
    ⟨0, 0, 0, 0, 0, 0, false, false, 0, 0⟩

/-- Logical slot 0 of context 0 is bound to physical slot 0. -/
def demoAcc (w : Cmd) : State :=
  { demoRun with cores := [(0, { slots := [(0, demoMmCtx w)], acc := [(0, { held := true })] })] }

def demoAccHead (w : Cmd) : Head := demoMmHead w

def demoPassRec : Pass := ⟨0, 0, 0, 0x40, 0, 0x4000, 0, none, none, false, 0⟩

def demoDrainRec : Drain := ⟨1, 0, 0, 0x46, 0, 0, []⟩

/-- A pass and a drain in flight. -/
def demoPass : State :=
  { demoRun with
    cores := [(0, { slots := [(0, demoMmCtx 0)], passes := [demoPassRec], drain := some demoDrainRec, acc := [(0, { held := true })] })] }

/-- Array 0 is under the row test. -/
def demoTest : State := { demoRun with cores := [(0, { arrays := [(0, { testing := true })] })] }

/-- The same with the spare row in use. -/
def demoSpareTest : State := { demoRun with cores := [(0, { arrays := [(0, { testing := true, spareOn := true })] })] }

/-- Partition 0 with its first 2 MiB page mapped to frame 0, writable. -/
def demoPaged : State := { demoRun with parts := [(0, { exist := true, nctx := 4, vaLimit := 0x200000, ptes := [(0, 3)] })] }

/-- All eight physical slots are held by logical context 1, in slot 1; the head of context 0 needs one. -/
def demoSpill : State :=
  { demoPaged with
    cores := [(0, {
      slots := [(0, demoMmCtx 0x20000400000000000040), (1, { demoMmCtx 0 with lctx := 1 })]
      acc := (List.range 8).map fun i => (i, { held := true, lctx := 1, lslot := i }) })] }

/-- Logical slot 0 of context 0 is spilled. -/
def demoReload : State := { demoPaged with cores := [(0, { slots := [(0, demoMmCtx 0x40)], spilledAcc := [⟨0, 0, 0⟩] })] }

/-- What its save area reads. -/
def demoReloaded : List Byte × Bool :=
  (demoReload.vread (demoReload.pno 0) (psaveAddr ((demoReload.core 0).slot 0) + 0 * 0x4000) 0x4000).toOption.getD ([], false)

theorem demo_reloaded : demoReload.vread (demoReload.pno 0) (psaveAddr ((demoReload.core 0).slot 0) + 0 * 0x4000) 0x4000 =
    .ok (demoReloaded.1, demoReloaded.2) := by
  have h : (demoReload.vread (demoReload.pno 0) (psaveAddr ((demoReload.core 0).slot 0) + 0 * 0x4000) 0x4000).toOption.isSome = true := by
    decide +kernel
  unfold demoReloaded
  generalize demoReload.vread (demoReload.pno 0) (psaveAddr ((demoReload.core 0).slot 0) + 0 * 0x4000) 0x4000 = r at h ⊢
  cases r
  · simp [Except.toOption] at h
  · rfl

/-- A spilled slot whose save area lies beyond the limit of its partition. -/
def demoReloadUnmapped : State := { demoRun with cores := [(0, { slots := [(0, demoMmCtx 0x40)], spilledAcc := [⟨0, 0, 0⟩] })] }

/-- Circular region 0 of core 0, of 32 positions with 16 filled, owned by the running logical context 0. -/
def demoCirc : State :=
  { demoRun with cores := [(0, { slots := [(0, demoCtx 0)], circ := [(0, { en := true, size := 32, chunk := 1, tailPos := 16 })] })] }

/-- Host port 1 is up. -/
def demoHost : State := { demoRun with hports := [(0, { up := true }), (1, { up := true })] }

/-- A VOP, ADD of two FP32 elements, in the vector engine. -/
def demoVecRun : VecRun := ⟨0, 0, 0, 0x2000000000100000000000000C00060, [32, 0, 16], 0, [], false, []⟩

def demoVec : State := { demoRun with cores := [(0, { slots := [(0, demoMmCtx 0)], vec := some demoVecRun })] }

/-- The same with its context swapping out. -/
def demoVecOut : State :=
  { demoRun with cores := [(0, { slots := [(0, { demoMmCtx 0 with st := .swapOut })], vec := some demoVecRun })] }

/-- The same suspended, with its context back. -/
def demoVecIn : State := { demoRun with cores := [(0, { slots := [(0, { demoMmCtx 0 with vsusp := some demoVecRun })] })] }

/-- Bank 0 of core 0 in the power state `x`. -/
def demoBank (x : BankSt) : State := { demoRun with cores := [(0, { banks := [(0, { st := x })] })] }

/-- A load of 8 bytes by core 1 that has reached core 0. -/
def demoRemoteMsg : RemMsg :=
  { src := 1, slot := 0, lctx := 0, svc := false, addr := 0x8000000000, op := .load 8, rd := 0, signed := false, fp := false, id := 0 }

def demoRemote : State :=
  { demoRun with cores := [(0, { arriving := [demoRemoteMsg] }), (1, { pend := [⟨0, 0, .remote, 0xF⟩] })] }

/-- The same while bank 0 is in retention. -/
def demoRemoteSleep : State := { demoRun with
    cores := [(0, { arriving := [demoRemoteMsg], banks := [(0, { st := .ret })] }), (1, { pend := [⟨0, 0, .remote, 0xF⟩] })] }

/-- The answer of a load into x5, with the status `st` and the data 7. -/
def demoAnswerMsg (st : Nat) : RemMsg := { demoRemoteMsg with src := 0, rd := 5, answer := some (st, 7) }

def demoAnswer (st : Nat) : State :=
  { demoRun with
    cores := [(0, { slots := [(0, demoCtx 0)], answers := [demoAnswerMsg st], pend := [⟨0, 0, .remote, 0⟩], outR := 1, nextId := 1 })] }

/-- The acknowledgement of a store of context 0. -/
def demoStoredMsg (st : Nat) : RemMsg := { demoAnswerMsg st with op := .store 8 1 }

def demoStored (st : Nat) : State :=
  { demoRun with
    cores := [(0, { slots := [(0, demoCtx 0)], answers := [demoStoredMsg st], pend := [⟨0, 0, .remote, 0⟩], outW := 1, nextId := 1 })] }

/-- A descriptor of one run of 16 bytes at virtual address 0, near offset 0 of pair 0. -/
def demoDesc : BitVec 512 := BitVec.ofNat 512 (2 ^ 64 + 15 * 2 ^ 224)

/-- Stream slot 0 of logical context 0 armed with the descriptor, changed by `f`; the head is `w`. -/
def demoStream (w : Cmd) (f : StSlot → StSlot := id) : State :=
  { demoPaged with
    cores := [(0, { slots := [(0, demoMmCtx w)], stSlots := [(0, f { owned := true, st := .armed, desc := demoDesc })] })] }

/-- A transfer of the slot. -/
def demoXfer (k : XKind) (va : Nat) : Xfer := ⟨0, 0, 0, k, demoDesc, scrPa 0 0, none, va, 0, 16, 0, false⟩

/-- The slot with that transfer in progress. -/
def demoMoving (k : XKind) (va : Nat) : State := demoStream 0 fun x => { x with st := .active, queue := [demoXfer k va] }

/-- A slot whose descriptor names two halves of 16 bytes. -/
def demoHalvesDesc : BitVec 512 := BitVec.ofNat 512 (2 ^ 64 + 15 * 2 ^ 224 + 2 ^ 345)

/-- A chain into core 1, with the head `w` on core 0. -/
def demoChain (w : Cmd) : State :=
  { demoRun with cores := [(0, { slots := [(0, demoMmCtx w)], chainEn := true, chainNext := 1, chainRx := 0 })] }

/-- A receiver of one line with the messages `q` in its link, from core 1, which has sent its last line. -/
def demoChainIn (run : Option ChainRun) (q : List ChainMsg) : State :=
  { demoRun with
    cores := [(0, { slots := [(0, demoMmCtx 0)], chainIn := q.map fun m => (1, m), chain := run }),
      (1, { slots := [(0, demoMmCtx 0)], chainEn := true, chainNext := 0, chain := some ⟨0, 0, 0, 0x22, 0x10000, true, 0⟩ })] }

/-- The head of a chain that streams its tile through slot 0. -/
def demoChainSlot (w : Cmd) : State :=
  { demoPaged with
    cores := [(0, {
      slots := [(0, demoMmCtx w)], chainEn := true, chainNext := 1
      stSlots := [(0, { owned := true, st := .armed, desc := demoDesc })] })] }

/-- An ARM at the head, with the descriptor at the start of the window, and slot 0 changed by `f`. -/
def demoArm (f : StSlot → StSlot) : State :=
  { demoStream 0x3C0000000025 f with mem := Memory.writes [] (scrPa 0 0) (leBytes 64 demoDesc.toNat) }

/-- A transfer from a page that is not mapped. -/
def demoStall : State :=
  { demoMoving .streamIn 0x200000 with parts := [(0, { exist := true, nctx := 4, vaLimit := 0x400000, ptes := [(0, 3)] })] }

/-- A record of one line in the state `x`. -/
def demoRec (x : RecSt) : Rec := ⟨128, 16, 0, 0, false, 0, x, 0, 0⟩

/-- A larder of 16 lines owned by logical context 0, with the records `rs`, whose head is `w`. -/
def demoLarder (w : Cmd) (rs : List Rec) (dir : Option Bool := none) : State :=
  { demoPaged with
    cores := [(0, {
      slots := [(0, demoMmCtx w)]
      larder := { en := true, size := 16, lowater := 15, spillPages := 1, recs := rs, dir := dir } })]
    cv := [0, 1] }

/-- A spilling record whose first line is poisoned and whose spill page lies in host memory. -/
def demoHostSpill : State :=
  let s := demoLarder 0 [demoRec .spilling]
  { s with
    parts := [(0, { exist := true, nctx := 4, vaLimit := 0x200000, ptes := [(0, BitVec.ofNat 64 (hostBase 0 + 3))] })]
    poison := [scrPa 0 (s.core 0).larder.region.1 / 64] }

/-- Two pages of partition 0: page 0 in frame 0 and page 1 in the attic, being moved to frame 5. -/
def demoMigrate : State :=
  { demoRun with
    parts := [(0, { exist := true, nctx := 4, vaLimit := 0x400000, ptes := [(0, 3), (1, 0x20000000003)], moving := [(1, (5, 0, 0x200040))] })] }

/-- Port 0 is up, and function 0 is bound to partition 0 with its first page mapped. -/
def demoBar2 : State := { demoPaged with hports := [(0, { up := true })] }

/-- A region of one block whose arrays lie in the pages 1 to 4, with its header at 0x1000. -/
def demoEntry : List Byte :=
  leBytes 8 1 ++ leBytes 8 0x1000 ++ leBytes 8 0x2000 ++ leBytes 8 0x200000 ++ leBytes 8 0x400000 ++ leBytes 8 0x600000 ++
    leBytes 8 0x800000 ++ List.replicate 72 0

/-- Partition 0 with that region and its header `hd`; core 0 runs context 0 with the head `w`, and `q` waits for the scheduler. -/
def demoUpd (w : Cmd) (q : List UpdCmd) (hd : List Byte := []) : State :=
  { demoRun with
    cores := [(0, { slots := [(0, demoMmCtx w)] })]
    parts := [(0, {
      exist := true, nctx := 4, vaLimit := 0xA00000
      ptes := [(0, 3), (1, 0x200003), (2, 0x400003), (3, 0x600003), (4, 0x800003)], updQ := q })]
    upd := [(0, { rtab := 1 })]
    mem := Memory.writes (Memory.writes [] 0 demoEntry) 0x1000 hd }

/-- An update of the block, without moments, for step 1. -/
def demoUpdCmd : UpdCmd := ⟨0, 0, 0, 0, 0x200000100000000000000000a0, 0, [], false, [], 0, 0⟩

/-- The same accepted. -/
def demoUpdRun : UpdCmd := { demoUpdCmd with accepted := true, entry := demoEntry, t := 1 }

/-- A merge of one BF16 block at 0x4000 into 0x3000, accepted or not. -/
def demoMerge (a : Bool) : UpdCmd :=
  ⟨0, 0, 0, 0, 0xA1, 0, leBytes 8 0x3000 ++ leBytes 8 0x4000 ++ List.replicate 24 0 ++ leBytes 4 1 ++ List.replicate 20 0, a, [], 0, 0⟩

/-- A commit of the region at step 1, and a discard. -/
def demoCommit : UpdCmd := ⟨0, 0, 0, 0, 0x10000000A2, 0, [], false, [], 0, 0⟩

def demoDiscard : UpdCmd := ⟨0, 0, 0, 0, 0xA3, 0, [], false, [], 0, 0⟩

/-- The header of an open shadow of step 1 that holds the block. -/
def demoShadow : List Byte := ShHdr.bytes ⟨0, 1, 1, crc32c demoEntry, true, false, 0, 0, 0, 0⟩

/-- An UPDATE_BLOCKS with its immediate slot at the head. -/
def demoImmCtx : Ctx := { demoMmCtx 0xA0 with buf := [{ ptr := { base := 0, off := 0 }, w := 0xA0, imm := 0xAF }] }

def demoUpdIssue : State := { demoUpd 0 [] with cores := [(0, { slots := [(0, demoImmCtx)] })] }

def demoImmHead : Head := { core := 0, slot := 0, ctx := demoImmCtx, w := 0xA0, replay := false, imm := 0xAF }

/-- The entry of a version 3 peer at address ::1. -/
def demoPeerEntry : List Byte := List.replicate 15 0 ++ [1, 0, 0, 1] ++ List.replicate 45 0

/-- Quad 0 with four ports of one lane, of which port 0 is up; partition 0 has the address ::2 and one peer, changed by `f`. -/
def demoFab (f : Peer → Peer) : State :=
  { demoRun with
    fab := {
      quads := [(0, { en := true, mode := 2 })], ports := [(0, { up := true, pfcen := true })]
      addrs := [(0, List.replicate 15 0 ++ [2])], peers := [(0, f { entry := demoPeerEntry, st := .idle })] } }

/-- A session with the keys of zeros. -/
def demoSession : Session :=
  { sidMine := 1, sidPeer := 1, init := true, kir := [], kri := [], ivir := [], ivri := [], openedAt := 0, maxpay := 8192,
    rtomin := 50, deadt := 20 }

/-- A packet of type `t` with the message length `l` and the payload `b`. -/
def demoPkt (t l : Nat) (b : List Byte) : RxPkt := ⟨⟨3, t, 2, 1, 0, 0, 0, 0, l, 0, b⟩, false, 0, 0, 0⟩

/-- The peer with an open session and accepted packets `q`. -/
def demoOpen (q : List RxPkt) (y : Session := demoSession) : State := demoFab fun x => { x with st := .opened, cur := some y, rx := q }

/-- A message of ten bytes of zeros. -/
def demoMsg : JMsg := { owner := .vote, minfo := 0, segs := [.lit (List.replicate 10 0)], len := 10 }

/-- The peer with that message begun on its session; the next hop of its port is resolved. -/
def demoSend : State := (demoOpen [] { demoSession with msgs := [demoMsg] }).mapPort 0 fun x => { x with hop := some 0 }

/-- A packet not acknowledged. -/
def demoUnacked : Unacked := ⟨⟨3, 0, 2, 1, 0, 0, 0, 0, 10, 0, []⟩, 10, 0, 0, 0, 1, 0, false⟩

/-- A handshake of the initiator. -/
def demoHs : Hs := { init := true, tries := 1, stage := 0 }

/-- A whole handshake message of `l` bytes of zeros has arrived from a peer with the handshake `h`. -/
def demoHsMsg (t l : Nat) (h : Option Hs) : State :=
  { demoFab (fun x => { x with st := .handshake, hs := h, rx := [demoPkt t l (List.replicate l 0)] }) with boot := { idok := true } }

/-- The same with the message taken. -/
def demoHsTaken (h : Option Hs) : State :=
  { demoFab (fun x => { x with st := .handshake, hs := h }) with boot := { idok := true } }

/-- The bytes of that message. -/
def demoHsBytes (l : Nat) : List Byte := Memory.reads (Memory.writes [] 0 (List.replicate l 0)) 0 l

theorem demo_takeHs (t l : Nat) (h : Option Hs) : (demoHsMsg t l h).takeHs 0 t = (demoHsTaken h, some (demoHsBytes l)) := by
  simp [State.takeHs, State.takeRx, demoHsMsg, demoFab, demoPkt, State.peer, Tab.get, RxMsg.add, RxMsg.whole, demoHsTaken,
    demoHsBytes, State.mapPeer, State.mapFab, Tab.find, Tab.put, State.pfcOn, State.fport]

theorem demo_takeHsBoot (t l : Nat) (h : Option Hs) (b : Boot) :
    ({ demoHsMsg t l h with boot := b } : State).takeHs 0 t = ({ demoHsTaken h with boot := b }, some (demoHsBytes l)) := by
  simp [State.takeHs, State.takeRx, demoHsMsg, demoFab, demoPkt, State.peer, Tab.get, RxMsg.add, RxMsg.whole, demoHsTaken,
    demoHsBytes, State.mapPeer, State.mapFab, Tab.find, Tab.put, State.pfcOn, State.fport]

theorem demo_hsBytes (l : Nat) : (demoHsBytes l).length = l := by simp [demoHsBytes, Memory.reads]

/-- A frame from the peer with a Jigrail header of type `t` and no payload; `c` is the UDP checksum. -/
def demoFrame (t : Nat) (c0 c1 : Byte) : Frame :=
  { port := 0, fcsOk := true
    bytes := List.replicate 12 0 ++ [0x86, 0xDD, 0x60, 0, 0, 0, 0, 0x28, 0x11, 0x40] ++ List.replicate 15 0 ++ [1] ++
      List.replicate 15 0 ++ [2, 0xC0, 0, 0xC2, 0xED, 0, 0x28, c0, c1, BitVec.ofNat 8 (0x30 + t), 2] ++ List.replicate 34 0 }

/-- A collective group of two members with one block each: this device is member 0 and coordinator, member 1 is the peer with index 0. -/
def demoGroup : List Byte :=
  leBytes 2 2 ++ leBytes 2 0 ++ leBytes 2 0 ++ [1, 0] ++ leBytes 4 1000 ++ leBytes 4 1000 ++ leBytes 4 1 ++ leBytes 4 0 ++
    leBytes 8 0x600000 ++ leBytes 8 0x800000 ++ leBytes 8 0x200000 ++ leBytes 8 0x400000 ++ leBytes 4 1 ++ leBytes 4 0 ++
    leBytes 8 0x200000 ++ leBytes 8 0x400000 ++ leBytes 4 16 ++ leBytes 2 1 ++ leBytes 2 1 ++ List.replicate 40 0 ++
    leBytes 8 0xFFFF ++ leBytes 8 0x10000

/-- Region 1, which holds the received copy of the peer's block, with its header at 0x2000. -/
def demoEntry1 : List Byte :=
  leBytes 4 1 ++ leBytes 4 1 ++ leBytes 8 0x2000 ++ leBytes 8 0 ++ leBytes 8 0x200000 ++ leBytes 8 0x400000 ++ List.replicate 88 0

/-- Partition 0 is in that group in round (0, 0), changed by `f`, with the messages `q` arrived; the head of context 0 is `w`. -/
def demoColl (w : Cmd) (q : List Landed) (f : Coll → Coll) : State :=
  { demoFab id with
    cores := [(0, { slots := [(0, demoMmCtx w)] })]
    parts := [(0, {
      exist := true, nctx := 4, vaLimit := 0x1000000
      ptes := [(0, 3), (1, 0x200003), (2, 0x400003), (3, 0x600003), (4, 0x800003), (5, 0xA00003), (6, 0xC00003)] })]
    upd := [(0, { rtab := 1 })]
    colls := [(0, f { en := true, addr := 0x4000, desc := demoGroup, inbox := q })]
    mem := Memory.writes (Memory.writes [] 0 (demoEntry ++ demoEntry1)) 0x4000 demoGroup }

/-- An OWNER_SUM of one tile that waits, and the vote of a STEP_VOTE. -/
def demoSum : OwnSum := ⟨0, 0, 0x91, 0⟩

def demoVote : StepVote := ⟨0, 0, 0, 0, false, 15, 15⟩

/-- A message of kind `k`, flag bits and index `m`, and `n` bytes of zeros from the peer. -/
def demoLanded (k m n : Nat) : Landed := ⟨0, k * 2 ^ 30 + m, List.replicate n 0, 5⟩

/-- A vote or decision of round (0, 0) with outcome 1 from member 1. -/
def demoBallot (m : Nat) (member : Nat) : Landed := ⟨0, 2 * 2 ^ 30 + m, voteBytes 0 0 1 member 0, 5⟩

/-- The coordinator's decision of the round after a COMMIT of round (0, 0). -/
def demoNext : Landed := ⟨0, 2 * 2 ^ 30 + 1, voteBytes 1 0 1 1 0, 5⟩

/-- The state in which the collective has taken the first of its messages. -/
def demoTake (s : State) : State := s.mapColl 0 fun c => { c with inbox := c.inbox.tail }

/-- Partition 0 serves: DONEW at virtual address 0, no step so far, and a batch has arrived. -/
def demoServe : State :=
  { demoPaged with
    serves := [(0, { cfg := some ⟨0x10000, 4, 16, 1, 512, 1000, 1000, 10, 4, 0x20000, 0x30000, 0, 0, 0, 0⟩, arrived := true })]
    mem := Memory.writes [] 0 (leBytes 8 (2 ^ 64 - 1)) }

/-- Ring 1 of port 0 belongs to partition `part` and has taken the packet of opcode `op` for partition 0 with the bytes `w` set. -/
def demoPkt3 (op w : Nat) : Pkt := { port := 0, ring := 1, b := leBytes 64 (op + 3 * 2 ^ 24 + 5 * 2 ^ 32 + w) }

def demoRingB (part : Nat) (t : List Taken) (r : Ring := {}) : State :=
  { demoPaged with hports := [(0, { up := true, rings := [(1, { r with en := true, part := part, taken := t })] })] }

/-- A ring of port 0 that has taken `k`. -/
def demoTakes (k : Pkt) (part : Nat := 0xFF) (f : State → State := id) : State := f (demoRingB part [⟨k.b, k.seq, k.mute⟩])

/-- The same without it. -/
def demoAfter (k : Pkt) (part : Nat := 0xFF) (f : State → State := id) : State :=
  (demoTakes k part f).setRing 0 1 { (demoTakes k part f).ring 0 1 with taken := [] }

/-- A launch of partition 0 waits to start again on core 0, and its collective state is `c`. -/
def demoAgain (c : Coll) : State :=
  { demoRun with
    parts := [(0, { exist := true, nctx := 4, launches := [{
      port := 0, ring := 1, tag := 5, final := true, lctx := 0, first := 0, count := 1, recAddr := 0, recStride := 128, v2 := false
      rpt := 0, live := [], ended := 0, code := 0, codeDetail := 0, again := [(0, 0)] }] })]
    colls := [(0, c)] }

/-! Witnesses of the hypotheses of the statements, clause by clause. -/

theorem witness_StepRunsFrontCommand : ∃ (s : State) (c : Instr) (rest : List Instr), s.pending = c :: rest :=
  ⟨{ demoRun with pending := [.idcode] }, .idcode, [], by decide⟩

theorem witness_IdleStepTicks_1 : ∃ (s : State), s.pending = [] ∧ s.rising = true :=
  ⟨{ demoRun with pwr := { devState := 1 }, boot := { stage := 2 } }, by decide⟩

theorem witness_IdleStepTicks_2 : ∃ (s : State), s.pending = [] ∧ s.rising = false ∧ (s.pwr.devState < 2 ∨ 4 < s.pwr.devState) :=
  ⟨{ demoRun with pwr := { devState := 1 } }, by decide⟩

theorem witness_IdleStepTicks_3 : ∃ (s : State), s.pending = [] ∧ 2 ≤ s.pwr.devState ∧ s.pwr.devState ≤ 4 :=
  ⟨demoRun, by decide⟩

theorem witness_QueueServedInOrder : ∃ (s t : State), step s = .next t :=
  ⟨{ demoRun with pending := [.bypass, .idcode] }, { demoRun with pending := [.idcode] }, by rfl⟩

theorem witness_MemoryStaysCanonical : ∃ (s t : State), memOk s ∧ step s = .next t :=
  ⟨{ demoRun with pending := [.bypass] }, demoRun, by exact ⟨by decide, rfl⟩⟩

theorem witness_KnownCommandsNeverStop_2 : ∃ (s : State) (c : Instr), known s c = false :=
  ⟨demoRun, .nop 2048 0, by decide⟩

theorem witness_KnownCommandsNeverStop_3 : ∃ (s : State) (c : Instr), heldByHalt c = true ∧ s.halts = true :=
  ⟨{ demoRun with sup := { shed := true } }, .passComplete 0, by exact ⟨rfl, rfl⟩⟩

theorem witness_HeadsIssueWhenReady_1 : ∃ (s : State) (core n : Nat) (w i : Cmd), core < 2048 ∧ n < 8 ∧ (s.core core).fenced = false
  ∧ s.clocked core = true ∧ ((s.slot core n).st = .ready ∨ (s.slot core n).st = .blocked) ∧ (s.slot core n).paused = false
  ∧ (s.slot core n).head = some w ∧ headCause (s.core core) (s.slot core n) = 0
  ∧ ((s.core core).reserved = none ∨ (s.core core).reserved = some n) ∧ cb w 19 = false ∧ reservedZero w = true
  ∧ ((s.slot core n).inj = [] ∨ opcodeOf w < 4 ∨ 7 < opcodeOf w)
  ∧ (cb w 18 = false ∨ (s.slot core n).eclass < 11 ∨ 14 < (s.slot core n).eclass)
  ∧ (if opcodeOf w = 0xA0 then (s.slot core n).headImm else some (.ok 0)) = some (.ok i)
  ∧ ((s.slot core n).replay = false ∨ replayAct w = .run) ∧ (((s.core core).reserved = some n ∨ ∀ m < 7, m = n ∨ (n ≠ 7
  ∧ (s.slot core n).issuedAt ≤ (s.slot core m).issuedAt) ∨ s.ready core m = false)) :=
  ⟨demoCmd 0, 0, 0, 0, 0, by and_intros <;> decide +kernel⟩

theorem witness_HeadsIssueWhenReady_2 : ∃ (s : State) (core n : Nat) (w i : Cmd) (b : Bool), core < 2048 ∧ n < 8
  ∧ (s.core core).fenced = false ∧ s.clocked core = true ∧ ((s.slot core n).st = .ready ∨ (s.slot core n).st = .blocked)
  ∧ (s.slot core n).paused = false ∧ (s.slot core n).head = some w ∧ headCause (s.core core) (s.slot core n) = 0
  ∧ ((s.core core).reserved = none ∨ (s.core core).reserved = some n) ∧ cb w 19 = false ∧ reservedZero w = true
  ∧ ((s.slot core n).inj = [] ∨ opcodeOf w < 4 ∨ 7 < opcodeOf w)
  ∧ (cb w 18 = false ∨ (s.slot core n).eclass < 11 ∨ 14 < (s.slot core n).eclass)
  ∧ (if opcodeOf w = 0xA0 then (s.slot core n).headImm else some (.ok 0)) = some (.ok i) ∧ (s.slot core n).replay = true
  ∧ replayAct w = (if b then .skipSilent else .skip) :=
  ⟨demoWith 0x20000 fun c => { c with replay := true }, 0, 0, 0x20000, 0, true, by and_intros <;> decide +kernel⟩

theorem witness_HeadsIssueWhenReady_3 : ∃ (s : State) (core n : Nat) (w : Cmd), core < 2048 ∧ n < 8 ∧ (s.core core).fenced = false
  ∧ s.clocked core = true ∧ ((s.slot core n).st = .ready ∨ (s.slot core n).st = .blocked) ∧ (s.slot core n).paused = false
  ∧ (s.slot core n).head = some w ∧ headCause (s.core core) (s.slot core n) = 0
  ∧ ((s.core core).reserved = none ∨ (s.core core).reserved = some n)
  ∧ (cb w 19 = true ∨ reservedZero w = false ∨ ((s.slot core n).inj ≠ [] ∧ 4 ≤ opcodeOf w ∧ opcodeOf w ≤ 7) ∨ (cb w 18 = true
  ∧ 11 ≤ (s.slot core n).eclass ∧ (s.slot core n).eclass ≤ 14)) :=
  ⟨demoCmd 0x80000, 0, 0, 0x80000, by and_intros <;> decide +kernel⟩

theorem witness_SequencerCommandsLeaveTheRest_1 : ∃ (s : State) (core n : Nat) (h : Head), heads s core n 0x00 h ∧ affords s h 0 1
  ∧ quiet h :=
  ⟨demoCmd 0, 0, 0, demoHead 0, by and_intros <;> decide +kernel⟩

theorem witness_SequencerCommandsLeaveTheRest_2 : ∃ (s : State) (core n : Nat) (h : Head), heads s core n 0x08 h ∧ affords s h 0 1
  ∧ quiet h :=
  ⟨demoCmd 8, 0, 0, demoHead 8, by and_intros <;> decide +kernel⟩

theorem witness_SequencerCommandsLeaveTheRest_3 : ∃ (s : State) (core n : Nat) (h : Head), heads s core n 0x03 h ∧ affords s h 0 1
  ∧ quiet h ∧ cf h.w 21 20 ≠ 3 :=
  ⟨demoCmd 3, 0, 0, demoHead 3, by and_intros <;> decide +kernel⟩

theorem witness_DeviceCommandsLeaveTheCores : ∃ (s t : State) (c : Instr), deviceOnly c = true ∧ exec c s = .next t :=
  ⟨demoRun, demoRun.jtag 0xFF [], .bypass, by exact ⟨rfl, rfl⟩⟩

theorem witness_LogicalIdsAndClusters : ∃ (d r c : Nat), d < 4 ∧ r < 16 ∧ c < 32 :=
  ⟨3, 15, 31, by decide⟩

theorem witness_TokensAreTakenAndGiven_2 : ∃ (s : State) (h : Head) (a b k : Nat), k < 16
  ∧ tokMet ((s.core h.core).slot h.slot).tokens (waitMask ((s.core h.core).slot h.slot).bank h.w) = true :=
  ⟨demoWith 0x100001 fun c => { c with tokens := 1 }, demoHeadWith 0x100001 fun c => { c with tokens := 1 }, 0, 1, 0,
    by decide⟩

theorem witness_TokensAreTakenAndGiven_3 : ∃ (c : Ctx) (m k : Nat), k < 16 :=
  ⟨{ tokens := 0xF }, 1, 0, by decide⟩

theorem witness_ControlCommandsComplete_1 : ∃ (s : State) (core n : Nat) (h : Head), heads s core n 0x00 h ∧ affords s h 0 1 :=
  ⟨demoCmd 0, 0, 0, demoHead 0, by decide⟩

theorem witness_ControlCommandsComplete_2 : ∃ (s : State) (core n : Nat) (h : Head), heads s core n 0x08 h ∧ affords s h 0 1 :=
  ⟨demoCmd 0x08, 0, 0, demoHead 0x08, by decide⟩

theorem witness_ControlCommandsComplete_3 : ∃ (s : State) (core n : Nat) (h : Head), heads s core n 0x03 h ∧ cf h.w 21 20 ≠ 3
  ∧ affords s h 0 1 :=
  ⟨demoCmd 0x200003, 0, 0, demoHead 0x200003, by decide⟩

theorem witness_ControlCommandsComplete_4 : ∃ (s : State) (core n : Nat) (h : Head), heads s core n 0x01 h ∧ affords s h 0 1 :=
  ⟨demoCmd 0x7000000001, 0, 0, demoHead 0x7000000001, by decide⟩

theorem witness_ControlCommandsComplete_5 : ∃ (s : State) (core n : Nat) (h : Head), heads s core n 0x02 h ∧ cb h.w 36 = false
  ∧ affords s h 0 1 :=
  ⟨demoCmd 0xFFFF00002, 0, 0, demoHead 0xFFFF00002, by decide⟩

theorem witness_ControlCommandsComplete_6 : ∃ (s : State) (core n : Nat) (h : Head), heads s core n 0x02 h ∧ cb h.w 36 = true
  ∧ s.farHeld core = false ∧ (s.core core).writesFull = false ∧ affords s h 0 1 :=
  ⟨demoCmd 0xFFFFF00002, 0, 0, demoHead 0xFFFFF00002, by decide⟩

theorem witness_LoopsCallsAndJumpsComplete_1 : ∃ (s : State) (core n : Nat) (h : Head), heads s core n 0x04 h ∧ cf h.w 43 20 ≠ 0
  ∧ h.ctx.loops.length < 4 ∧ affords s h 0 1 :=
  ⟨demoCmd 0x100004, 0, 0, demoHead 0x100004, by decide⟩

theorem witness_LoopsCallsAndJumpsComplete_2 : ∃ (s : State) (core n off : Nat) (h : Head), heads s core n 0x04 h ∧ cf h.w 43 20 = 0
  ∧ fetchOff (s.core core) h.ctx core h.ptr.base (h.ptr.off + cf h.w 59 44) = .ok off ∧ (s.core core).bankIsOff off 16 = false
  ∧ (s.core core).bankIsOn off 16 = true ∧ s.anyPoison (scrPa core off) 16 = false ∧ (s.rd (scrPa core off)).toNat = 0x05
  ∧ affords s h 0 1 :=
  ⟨demoZeroLoop, 0, 0, 16, { demoHead 0x100000000004 with ctx := demoZeroLoopCtx }, by decide⟩

theorem witness_LoopsCallsAndJumpsComplete_3 : ∃ (s : State) (core n : Nat) (h : Head) (l : LoopEnt) (t : List LoopEnt),
  heads s core n 0x05 h ∧ h.ctx.loops = l :: t ∧ l.count ≤ 1 ∧ affords s h 0 1 :=
  ⟨demoWith 0x05 fun c => { c with loops := [⟨1, {}⟩] }, 0, 0, demoHeadWith 0x05 fun c => { c with loops := [⟨1, {}⟩] }, ⟨1, {}⟩, [],
    by decide⟩

theorem witness_LoopsCallsAndJumpsComplete_4 : ∃ (s : State) (core n : Nat) (h : Head) (l : LoopEnt) (t : List LoopEnt),
  heads s core n 0x05 h ∧ h.ctx.loops = l :: t ∧ 1 < l.count ∧ affords s h 0 (backCycles l.body h.ptr) :=
  ⟨demoWith 0x05 fun c => { c with loops := [⟨2, {}⟩] }, 0, 0, demoHeadWith 0x05 fun c => { c with loops := [⟨2, {}⟩] }, ⟨2, {}⟩, [],
    by decide⟩

theorem witness_LoopsCallsAndJumpsComplete_5 : ∃ (s : State) (core n : Nat) (h : Head), heads s core n 0x06 h ∧ cb h.w 38 = false
  ∧ cb h.w 39 = false ∧ affords s h 0 (h.jumpCycles (targetOf h.w)) :=
  ⟨demoCmd 0x400006, 0, 0, demoHead 0x400006, by decide⟩

theorem witness_LoopsCallsAndJumpsComplete_6 : ∃ (s : State) (core n : Nat) (h : Head), heads s core n 0x06 h ∧ cb h.w 38 = false
  ∧ cb h.w 39 = true ∧ tok (tokTake h.ctx.tokens (waitMask h.ctx.bank h.w)) (cf h.w 43 40) = 0 ∧ affords s h 0 1 :=
  ⟨demoCmd 0x8000400006, 0, 0, demoHead 0x8000400006, by decide⟩

theorem witness_LoopsCallsAndJumpsComplete_7 : ∃ (s : State) (core n : Nat) (h : Head), heads s core n 0x06 h ∧ cb h.w 38 = false
  ∧ cb h.w 39 = true ∧ 1 ≤ tok (tokTake h.ctx.tokens (waitMask h.ctx.bank h.w)) (cf h.w 43 40)
  ∧ affords s h 0 (h.jumpCycles (targetOf h.w)) :=
  ⟨demoWith 0x108000400006 fun c => { c with tokens := 1 }, 0, 0, demoHeadWith 0x108000400006 fun c => { c with tokens := 1 },
    by decide⟩

theorem witness_LoopsCallsAndJumpsComplete_8 : ∃ (s : State) (core n : Nat) (h : Head) (e : CallEnt) (t : List CallEnt),
  heads s core n 0x06 h ∧ cb h.w 38 = true ∧ cf h.w 37 20 = 0 ∧ cb h.w 39 = false ∧ h.ctx.calls = e :: t ∧ e.mark = false
  ∧ affords s h 0 (h.jumpCycles e.ret) :=
  ⟨demoWith 0x4000000006 fun c => { c with calls := [⟨{}, false⟩] }, 0, 0, demoHeadWith 0x4000000006
  fun c => { c with calls := [⟨{}, false⟩] }, ⟨{}, false⟩, [],
    by decide⟩

theorem witness_LoopsCallsAndJumpsComplete_9 : ∃ (s : State) (core n : Nat) (h : Head), heads s core n 0x06 h ∧ cb h.w 38 = true
  ∧ cf h.w 37 20 = 0 ∧ cb h.w 39 = true ∧ tok (tokTake h.ctx.tokens (waitMask h.ctx.bank h.w)) (cf h.w 43 40) = 0 ∧ affords s h 0 1 :=
  ⟨demoCmd 0xC000000006, 0, 0, demoHead 0xC000000006, by decide⟩

theorem witness_LoopsCallsAndJumpsComplete_10 : ∃ (s : State) (core n : Nat) (h : Head) (e : CallEnt) (t : List CallEnt),
  heads s core n 0x06 h ∧ cb h.w 38 = true ∧ cf h.w 37 20 = 0 ∧ cb h.w 39 = true
  ∧ 1 ≤ tok (tokTake h.ctx.tokens (waitMask h.ctx.bank h.w)) (cf h.w 43 40) ∧ h.ctx.calls = e :: t ∧ e.mark = false
  ∧ affords s h 0 (h.jumpCycles e.ret) :=
  ⟨demoWith 0x10C000000006 fun c => { c with calls := [⟨{}, false⟩], tokens := 1 }, 0, 0, demoHeadWith 0x10C000000006
  fun c => { c with calls := [⟨{}, false⟩], tokens := 1 }, ⟨{}, false⟩, [],
    by decide⟩

theorem witness_LoopsCallsAndJumpsComplete_11 : ∃ (s : State) (core n : Nat) (h : Head), heads s core n 0x07 h ∧ h.ctx.calls.length < 4
  ∧ affords s h 0 (h.jumpCycles (targetOf h.w)) :=
  ⟨demoCmd 0x400007, 0, 0, demoHead 0x400007, by decide⟩

theorem witness_HaltAndTimeoutEndTheContext_1 : ∃ (s : State) (core n : Nat) (h : Head), heads s core n 0x09 h
  ∧ statusCodes.contains (cf h.w 36 21) = true ∧ affords s h 0 1 :=
  ⟨demoCmd 0x09, 0, 0, demoHead 0x09, by decide⟩

theorem witness_HaltAndTimeoutEndTheContext_2 : ∃ (s : State) (core n : Nat) (h : Head), heads s core n 0x09 h
  ∧ statusCodes.contains (cf h.w 36 21) = false :=
  ⟨demoCmd 0x1FFFE00009, 0, 0, demoHead 0x1FFFE00009, by decide⟩

theorem witness_HaltAndTimeoutEndTheContext_3 : ∃ (s : State) (core lctx : Nat) (c : Ctx) (w : Cmd), core < 2048 ∧ lctx < 17
  ∧ (s.core core).ctx? lctx = some c ∧ c.head = some w ∧ c.waiting = true ∧ cf w 63 40 ≠ 0
  ∧ 25 * (cf w 63 40 * 256) ≤ (s.core core).clk - c.waitAt.getD (s.core core).clk ∧ s.halts = false :=
  ⟨demoOverdue 0 0 { demoCtx 0x10000100001 with waitAt := some 0 }, 0, 0, { demoCtx 0x10000100001 with waitAt := some 0 }, 0x10000100001,
    by decide⟩

theorem witness_ReservedOpcodesEndTheContext_1 : ∃ (s : State) (core n : Nat) (h : Head), core < 2048 ∧ n < 8
  ∧ gateOn s core n reservedOp = .go h ∧ chosen s core n = true :=
  ⟨demoCmd 0x0A, 0, 0, demoHead 0x0A, by decide⟩

theorem witness_ReservedOpcodesEndTheContext_2 : ∃ (s : State) (core n : Nat) (h : Head), heads s core n 0x04 h ∧ cf h.w 43 20 ≠ 0
  ∧ 4 ≤ h.ctx.loops.length :=
  ⟨demoWith 0x100004 fun c => { c with loops := [⟨1, {}⟩, ⟨1, {}⟩, ⟨1, {}⟩, ⟨1, {}⟩] }, 0, 0, demoHeadWith 0x100004
  fun c => { c with loops := [⟨1, {}⟩, ⟨1, {}⟩, ⟨1, {}⟩, ⟨1, {}⟩] },
    by decide⟩

theorem witness_ReservedOpcodesEndTheContext_3 : ∃ (s : State) (core n : Nat) (h : Head), heads s core n 0x05 h ∧ h.ctx.loops = [] :=
  ⟨demoCmd 0x05, 0, 0, demoHead 0x05, by decide⟩

theorem witness_ReservedOpcodesEndTheContext_4 : ∃ (s : State) (core n : Nat) (h : Head), heads s core n 0x06 h ∧ cb h.w 38 = true
  ∧ cf h.w 37 20 = 0 ∧ ¬(cb h.w 39 = true ∧ tok (tokTake h.ctx.tokens (waitMask h.ctx.bank h.w)) (cf h.w 43 40) = 0)
  ∧ (∀ e ∈ h.ctx.calls.head?, e.mark = true) :=
  ⟨demoCmd 0x4000000006, 0, 0, demoHead 0x4000000006, by decide⟩

theorem witness_ReservedOpcodesEndTheContext_5 : ∃ (s : State) (core n : Nat) (h : Head), heads s core n 0x06 h ∧ cb h.w 38 = true
  ∧ cf h.w 37 20 ≠ 0 :=
  ⟨demoCmd 0x4000400006, 0, 0, demoHead 0x4000400006, by decide⟩

theorem witness_ReservedOpcodesEndTheContext_6 : ∃ (s : State) (core n off : Nat) (h : Head), heads s core n 0x04 h ∧ cf h.w 43 20 = 0
  ∧ fetchOff (s.core core) h.ctx core h.ptr.base (h.ptr.off + cf h.w 59 44) = .ok off ∧ (s.core core).bankIsOff off 16 = false
  ∧ (s.core core).bankIsOn off 16 = true ∧ s.anyPoison (scrPa core off) 16 = false ∧ (s.rd (scrPa core off)).toNat ≠ 0x05 :=
  ⟨demoNoLoop, 0, 0, 16, { demoHead 0x100000000004 with ctx := demoZeroLoopCtx }, by decide⟩

theorem witness_ReservedOpcodesEndTheContext_7 : ∃ (s : State) (core n : Nat) (h : Head), heads s core n 0x07 h
  ∧ 4 ≤ h.ctx.calls.length :=
  ⟨demoWith 0x400007 fun c => { c with calls := [⟨{}, false⟩, ⟨{}, false⟩, ⟨{}, false⟩, ⟨{}, false⟩] }, 0, 0, demoHeadWith 0x400007
  fun c => { c with calls := [⟨{}, false⟩, ⟨{}, false⟩, ⟨{}, false⟩, ⟨{}, false⟩] },
    by decide⟩

theorem witness_ReservedOpcodesEndTheContext_8 : ∃ (s : State) (core n : Nat) (h : Head), heads s core n 0x03 h ∧ cf h.w 21 20 = 3 :=
  ⟨demoCmd 0x300003, 0, 0, demoHead 0x300003, by decide⟩

theorem witness_CommandFetchFillsTheBuffer_1 : ∃ (s : State) (core n off : Nat) (w : Cmd), core < 2048 ∧ n < 8
  ∧ ((s.slot core n).st = .ready ∨ (s.slot core n).st = .blocked) ∧ (s.slot core n).fetchStopped = false ∧ (s.core core).fenced = false
  ∧ s.clocked core = true ∧ fetchOff (s.core core) (s.slot core n) core (s.slot core n).fptr.base (s.slot core n).fptr.off = .ok off
  ∧ (s.core core).bankIsOff off 16 = false ∧ (s.core core).bankIsOn off 16 = true ∧ s.anyPoison (scrPa core off) 16 = false
  ∧ w = BitVec.ofNat 128 (leNat (s.rds (scrPa core off) 16)) ∧ opcodeOf w ≠ 0xA0 :=
  ⟨demoFetch, 0, 0, 16, 0, by decide⟩

theorem witness_CommandFetchFillsTheBuffer_2 : ∃ (s : State) (core n off : Nat), core < 2048 ∧ n < 8
  ∧ ((s.slot core n).st = .ready ∨ (s.slot core n).st = .blocked) ∧ (s.slot core n).fetchStopped = false ∧ (s.core core).fenced = false
  ∧ s.clocked core = true ∧ fetchOff (s.core core) (s.slot core n) core (s.slot core n).fptr.base (s.slot core n).fptr.off = .ok off
  ∧ (s.core core).bankIsOff off 16 = false ∧ (s.core core).bankIsOn off 16 = false :=
  ⟨demoSleep, 0, 0, 16, by decide⟩

theorem witness_CommandFetchFillsTheBuffer_3 : ∃ (s : State) (core n st : Nat), core < 2048 ∧ n < 8
  ∧ ((s.slot core n).st = .ready ∨ (s.slot core n).st = .blocked) ∧ (s.slot core n).fetchStopped = false ∧ (s.core core).fenced = false
  ∧ s.clocked core = true ∧ fetchOff (s.core core) (s.slot core n) core (s.slot core n).fptr.base (s.slot core n).fptr.off = .error st :=
  ⟨demoCmd 0, 0, 0, stBoundFault, by decide⟩

theorem witness_SwapsComplete_1 : ∃ (s : State) (core v l : Nat) (k : Core), core < 2048 ∧ k = (s.core core).refresh ∧ k.swapEn = true
  ∧ k.swap = none ∧ k.swapQ = [] ∧ k.fenced = false ∧ k.residents ≠ [] ∧ (∀ n ∈ k.residents, (k.slot n).st = .blocked)
  ∧ k.bestRunnable = some l ∧ listBest (fun (a b : Nat) => (k.slot a).blockedAt < (k.slot b).blockedAt) (k.residents.filter
  fun n => !k.midPass (k.slot n).lctx) = some v ∧ s.halts = false :=
  ⟨demoSwap, 0, 0, 1, (demoSwap.core 0).refresh, ⟨by decide, rfl, by decide⟩⟩

theorem witness_SwapsComplete_2 : ∃ (s : State) (core v l : Nat) (k : Core), core < 2048 ∧ l < 16 ∧ k = (s.core core).refresh
  ∧ k.swapEn = true ∧ k.swap = none ∧ k.swapQ = [] ∧ k.fenced = false ∧ k.quantumDue = some l
  ∧ listBest (fun (a b : Nat) => (k.slot a).inAt < (k.slot b).inAt) (k.residents.filter
  fun n => (k.slot n).st == .ready || (k.slot n).st == .blocked) = some v ∧ s.halts = false :=
  ⟨demoSwapDue, 0, 0, 1, (demoSwapDue.core 0).refresh, ⟨by decide, by decide, rfl, by decide⟩⟩

theorem witness_SwapsComplete_3 : ∃ (s : State) (core n l : Nat) (k : Core), core < 2048 ∧ k = (s.core core).refresh ∧ k.swapEn = true
  ∧ k.swap = none ∧ k.swapQ = [] ∧ k.fenced = false ∧ k.freeSlot = some n ∧ k.bestRunnable = some l ∧ s.halts = false :=
  ⟨demoSwap, 0, 1, 1, (demoSwap.core 0).refresh, ⟨by decide, rfl, by decide⟩⟩

theorem witness_SwapsComplete_4 : ∃ (s t : State) (core : Nat) (w : Swap), core < 2048 ∧ (s.core core).swap = some w ∧ w.second = false
  ∧ (s.core core).midPass ((s.core core).slot w.slot).lctx = false
  ∧ ((s.core core).vec.any fun v => v.lctx == ((s.core core).slot w.slot).lctx) = false ∧ ((s.core core).bank 5).st = .on
  ∧ s.drainAll core ((s.core core).slot w.slot).lctx (psaveAddr ((s.core core).slot w.slot)) = .ok t ∧ s.halts = false :=
  ⟨demoSwapOut, demoSwapOut, 0, ⟨0, true, false, some 1, false⟩, by decide⟩

theorem witness_SwapsComplete_5 : ∃ (k : Core) (w : Swap) (c : Ctx) (l : Nat), w.inl = some l
  ∧ Keys.has (if w.hold then Keys.add k.heldL c.lctx else k.heldL) l = false :=
  ⟨demoSwapCore, ⟨0, true, false, some 1, false⟩, demoCtx 0, 1, by decide⟩

theorem witness_SwapsComplete_6 : ∃ (s : State) (core l : Nat) (w : Swap), core < 2048 ∧ (s.core core).swap = some w ∧ w.second = true
  ∧ w.inl = some l ∧ ((s.core core).bank 5).st = .on
  ∧ ((s.core core).tabOffs ((s.core core).slot w.slot) core).any (fun o => (s.core core).bankIsOff o 8256) = false
  ∧ ((s.core core).tabOffs ((s.core core).slot w.slot) core).all (fun o => (s.core core).bankIsOn o 8256) = true ∧ s.halts = false :=
  ⟨demoSwapIn, 0, 1, ⟨0, true, false, some 1, true⟩, by decide⟩

theorem witness_SwapsComplete_7 : ∃ (s : State) (core l : Nat) (w : Swap), core < 2048 ∧ (s.core core).swap = some w ∧ w.second = true
  ∧ w.inl = some l ∧ ((s.core core).bank 5).st = .on
  ∧ ((s.core core).tabOffs ((s.core core).slot w.slot) core).any (fun o => (s.core core).bankIsOff o 8256) = true ∧ s.halts = false :=
  ⟨demoSwapTab .off, 0, 1, ⟨0, true, false, some 1, true⟩, by decide⟩

theorem witness_SwapsComplete_8 : ∃ (s : State) (core l : Nat) (w : Swap), core < 2048 ∧ (s.core core).swap = some w ∧ w.second = true
  ∧ w.inl = some l ∧ ((s.core core).bank 5).st = .on
  ∧ ((s.core core).tabOffs ((s.core core).slot w.slot) core).any (fun o => (s.core core).bankIsOff o 8256) = false
  ∧ ((s.core core).tabOffs ((s.core core).slot w.slot) core).all (fun o => (s.core core).bankIsOn o 8256) = false ∧ s.halts = false :=
  ⟨demoSwapTab .ret, 0, 1, ⟨0, true, false, some 1, true⟩, by decide⟩

theorem witness_SwapsComplete_9 : ∃ (s : State) (core : Nat) (w : Swap), core < 2048 ∧ (s.core core).swap = some w ∧ w.second = false
  ∧ (s.core core).midPass ((s.core core).slot w.slot).lctx = false
  ∧ ((s.core core).vec.any fun v => v.lctx == ((s.core core).slot w.slot).lctx) = false ∧ ((s.core core).bank 5).st ≠ .on
  ∧ s.halts = false :=
  ⟨demoSwapAsleep false, 0, ⟨0, true, false, some 1, false⟩, by decide⟩

theorem witness_SwapsComplete_10 : ∃ (s : State) (core l : Nat) (w : Swap), core < 2048 ∧ (s.core core).swap = some w ∧ w.second = true
  ∧ w.inl = some l ∧ ((s.core core).bank 5).st ≠ .on ∧ s.halts = false :=
  ⟨demoSwapAsleep true, 0, 1, ⟨0, true, false, some 1, true⟩, by decide⟩

theorem witness_SwapsComplete_11 : ∃ (s : State) (core : Nat), core < 2048 ∧ ((s.core core).slot 7).st = .ready ∧ s.holdOf core 7 = 0
  ∧ (s.core core).reserved = none ∧ 25 * 8192 ≤ (s.core core).clk - ((s.core core).slot 7).rdyAt.getD (s.core core).clk
  ∧ s.halts = false :=
  ⟨demoOverdue 7 204800 { demoCtx 0 with lctx := 16, rdyAt := some 0 }, 0, by and_intros <;> decide +kernel⟩

theorem witness_CustomInstructionsComplete_1 : ∃ (s : State) (core slot len rd rs1 rs2 : Nat) (w : BitVec 32),
  executes s core slot w len (.custom false 0 0 rd rs1 rs2) ∧ (s.slot core slot).inj.length < 4 :=
  ⟨demoInsn 0 0x20800b, 0, 0, 4, 0, 1, 2, 0x20800b, by decide⟩

theorem witness_CustomInstructionsComplete_2 : ∃ (s : State) (core slot len rd rs1 rs2 : Nat) (w : BitVec 32),
  executes s core slot w len (.custom false 0 0 rd rs1 rs2) ∧ 4 ≤ (s.slot core slot).inj.length :=
  ⟨demoInsn 0 0x20800b (fun c => { c with inj := [0, 0, 0, 0] }), 0, 0, 4, 0, 1, 2, 0x20800b, by decide⟩

theorem witness_CustomInstructionsComplete_3 : ∃ (s : State) (core slot len rd rs1 rs2 : Nat) (w : BitVec 32),
  executes s core slot w len (.custom false 0 1 rd rs1 rs2)
  ∧ tokMet (s.slot core slot).tokens (((s.slot core slot).x rs1).toNat % 2 ^ 16) = true :=
  ⟨demoInsn 0 0x900b (fun c => { c with tokens := 1, xs := [(1, 1)] }), 0, 0, 4, 0, 1, 0, 0x900b, by decide⟩

theorem witness_CustomInstructionsComplete_4 : ∃ (s : State) (core slot len rd rs1 rs2 : Nat) (w : BitVec 32),
  executes s core slot w len (.custom false 0 1 rd rs1 rs2)
  ∧ tokMet (s.slot core slot).tokens (((s.slot core slot).x rs1).toNat % 2 ^ 16) = false :=
  ⟨demoInsn 0 0x900b (fun c => { c with xs := [(1, 1)] }), 0, 0, 4, 0, 1, 0, 0x900b, by decide⟩

theorem witness_CustomInstructionsComplete_5 : ∃ (s : State) (core slot len rd rs1 rs2 : Nat) (w : BitVec 32),
  executes s core slot w len (.custom false 0 2 rd rs1 rs2) :=
  ⟨demoInsn 0 0xa00b, 0, 0, 4, 0, 1, 0, 0xa00b, by decide⟩

theorem witness_CustomInstructionsComplete_6 : ∃ (s : State) (core slot len rd rs1 rs2 : Nat) (w : BitVec 32),
  executes s core slot w len (.custom false 0 3 rd rs1 rs2) :=
  ⟨demoInsn 0 0x328b, 0, 0, 4, 5, 0, 0, 0x328b, by decide⟩

theorem witness_CustomInstructionsComplete_7 : ∃ (s : State) (core slot len rd rs1 rs2 : Nat) (w : BitVec 32),
  executes s core slot w len (.custom false 0 4 rd rs1 rs2) :=
  ⟨demoInsn 0 0xc28b, 0, 0, 4, 5, 1, 0, 0xc28b, by decide⟩

theorem witness_CustomInstructionsComplete_8 : ∃ (s : State) (core slot len rd rs1 rs2 : Nat) (w : BitVec 32),
  executes s core slot w len (.custom false 0 5 rd rs1 rs2) :=
  ⟨demoInsn 0 0x500b, 0, 0, 4, 0, 0, 0, 0x500b, by decide⟩

theorem witness_CustomInstructionsComplete_9 : ∃ (s : State) (core slot len rd rs1 rs2 : Nat) (w : BitVec 32),
  executes s core slot w len (.custom false 0 6 rd rs1 rs2) ∧ ((s.slot core slot).x rs1).toNat % 4 = 0 :=
  ⟨demoInsn 0 0xe28b, 0, 0, 4, 5, 1, 0, 0xe28b, by decide⟩

theorem witness_CustomInstructionsComplete_10 : ∃ (s : State) (core slot len rd rs1 rs2 : Nat) (w : BitVec 32),
  executes s core slot w len (.custom false 0 6 rd rs1 rs2) ∧ ((s.slot core slot).x rs1).toNat % 4 = 2 :=
  ⟨demoInsn 0 0xe28b (fun c => { c with xs := [(1, 2)] }), 0, 0, 4, 5, 1, 0, 0xe28b, by decide⟩

theorem witness_CustomInstructionsComplete_11 : ∃ (s : State) (core slot len rd rs1 rs2 : Nat) (w : BitVec 32),
  executes s core slot w len (.custom false 0 6 rd rs1 rs2) ∧ ((s.slot core slot).x rs1).toNat % 4 = 3 :=
  ⟨demoInsn 0 0xe28b (fun c => { c with xs := [(1, 3)] }), 0, 0, 4, 5, 1, 0, 0xe28b, by decide⟩

theorem witness_CustomInstructionsComplete_12 : ∃ (s : State) (core slot len rd rs1 rs2 : Nat) (w : BitVec 32),
  executes s core slot w len (.custom true 0 0 rd rs1 rs2) ∧ (turn s core slot).farHeld core = false
  ∧ ((turn s core slot).core core).writesFull = false :=
  ⟨demoInsn 0 0x20802b, 0, 0, 4, 0, 1, 2, 0x20802b, by decide⟩

theorem witness_SeqCtlSetsThePointer_1 : ∃ (s : State) (core slot len rd rs1 rs2 : Nat) (w : BitVec 32),
  executes s core slot w len (.custom false 0 6 rd rs1 rs2) ∧ ((s.slot core slot).x rs1).toNat % 4 = 1
  ∧ (s.slot core slot).paused = false :=
  ⟨demoInsn 0 0x20e00b (fun c => { c with xs := [(1, 1)] }), 0, 0, 4, 0, 1, 2, 0x20e00b, by decide⟩

theorem witness_SeqCtlSetsThePointer_2 : ∃ (s : State) (core slot len rd rs1 rs2 : Nat) (w : BitVec 32),
  executes s core slot w len (.custom false 0 6 rd rs1 rs2) ∧ ((s.slot core slot).x rs1).toNat % 4 = 1
  ∧ (s.slot core slot).paused = true :=
  ⟨demoInsn 0 0x20e00b (fun c => { c with paused := true, xs := [(1, 1)] }), 0, 0, 4, 0, 1, 2, 0x20e00b, by decide⟩

theorem witness_ContextControlCompletes_1 : ∃ (s : State) (core slot len rd rs1 rs2 : Nat) (w : BitVec 32) (m : Nat),
  executes s core slot w len (.custom false 0 7 rd rs1 rs2) ∧ slot = 7 ∧ ((s.slot core slot).x rs2).toNat = 0
  ∧ (((turn s core slot).ccDone core slot len id).core core).freeSlot = some m
  ∧ ((turn s core slot).ccDone core slot len id).declared core (((s.slot core slot).x rs1).toNat % 16) = true :=
  ⟨demoInsn 7 0x20f00b (fun c => { c with xs := [(1, 1)] }), 0, 7, 4, 0, 1, 2, 0x20f00b, 0, by decide⟩

theorem witness_ContextControlCompletes_2 : ∃ (s : State) (core slot len rd rs1 rs2 : Nat) (w : BitVec 32),
  executes s core slot w len (.custom false 0 7 rd rs1 rs2) ∧ slot = 7 ∧ ((s.slot core slot).x rs2).toNat = 1
  ∧ ((((turn s core slot).ccDone core slot len id).core core).ctx? (((s.slot core slot).x rs1).toNat % 16)).isSome = true :=
  ⟨demoInsn 7 0x20f00b (fun c => { c with xs := [(1, 0), (2, 1)] }), 0, 7, 4, 0, 1, 2, 0x20f00b, by decide⟩

theorem witness_ContextControlCompletes_3 : ∃ (s : State) (core slot len rd rs1 rs2 : Nat) (w : BitVec 32),
  executes s core slot w len (.custom false 0 7 rd rs1 rs2) ∧ slot = 7 ∧ ((s.slot core slot).x rs2).toNat = 1
  ∧ (((turn s core slot).ccDone core slot len id).core core).ctx? (((s.slot core slot).x rs1).toNat % 16) = none :=
  ⟨demoInsn 7 0x20f00b (fun c => { c with xs := [(1, 1), (2, 1)] }), 0, 7, 4, 0, 1, 2, 0x20f00b, by decide⟩

theorem witness_ContextControlCompletes_4 : ∃ (s : State) (core slot len rd rs1 rs2 : Nat) (w : BitVec 32) (m : Nat),
  executes s core slot w len (.custom false 0 7 rd rs1 rs2) ∧ slot = 7 ∧ ((s.slot core slot).x rs2).toNat = 2
  ∧ (((turn s core slot).ccDone core slot len id).core core).findSlot (((s.slot core slot).x rs1).toNat % 16) = some m
  ∧ (((((turn s core slot).ccDone core slot len id).core core).slot m).st = .ready ∨ ((((turn s core slot).ccDone core slot len id).core
  core).slot m).st = .blocked) :=
  ⟨demoInsn 7 0x20f00b (fun c => { c with xs := [(1, 0), (2, 2)] }), 0, 7, 4, 0, 1, 2, 0x20f00b, 7, by decide⟩

theorem witness_ContextControlCompletes_5 : ∃ (s : State) (core slot len rd rs1 rs2 : Nat) (w : BitVec 32) (m : Nat),
  executes s core slot w len (.custom false 0 7 rd rs1 rs2) ∧ slot = 7 ∧ ((s.slot core slot).x rs2).toNat = 3
  ∧ (((turn s core slot).ccDone core slot len id).core core).freeSlot = some m
  ∧ (Tab.find (((turn s core slot).ccDone core slot len id).core core).images (((s.slot core slot).x rs1).toNat % 16)).isSome = true
  ∧ (((((turn s core slot).ccDone core slot len id).core core).swapQ ++ (((turn s core slot).ccDone core slot len id).core
  core).swap.toList).any fun x => x.inl == some (((s.slot core slot).x rs1).toNat % 16)) = false :=
  ⟨demoInsnImg 7 0x20f00b (fun c => { c with xs := [(1, 1), (2, 3)] }), 0, 7, 4, 0, 1, 2, 0x20f00b, 0, by decide⟩

theorem witness_ScratchAccessesComplete_1 : ∃ (s : State) (core slot len : Nat) (w : BitVec 32) (f3 rs1 rs2 o v : Nat) (fp : Bool) (off :
  Int), executes s core slot w len (.store fp f3 rs1 rs2 off)
  ∧ (turn s core slot).ccPlace core slot (ccAddr ((turn s core slot).slot core slot) rs1 off) (rvSize f3) true = .own 0 o
  ∧ v = (if fp then ((turn s core slot).slot core slot).f rs2
  else ((turn s core slot).slot core slot).x rs2).toNat % 2 ^ (8 * rvSize f3) :=
  ⟨demoInsn 0 0x20b023 (fun c => { c with xs := [(1, 0x8000000100), (2, 5)], pairs := demoPairs }), 0, 0, 4, 0x20b023, 3, 1, 2, 0x100, 5,
  false, 0,
    by decide⟩

theorem witness_ScratchAccessesComplete_2 : ∃ (s : State) (core slot len : Nat) (w : BitVec 32) (f3 rd rs1 o : Nat) (fp : Bool) (off :
  Int), executes s core slot w len (.load fp f3 rd rs1 off)
  ∧ (turn s core slot).ccPlace core slot (ccAddr ((turn s core slot).slot core slot) rs1 off) (rvSize f3) true = .own 0 o :=
  ⟨demoInsn 0 0xb283 (fun c => { c with xs := [(1, 0x8000000100)], pairs := demoPairs }), 0, 0, 4, 0xb283, 3, 5, 1, 0x100, false, 0,
    by decide⟩

theorem witness_ScratchAccessesComplete_3 : ∃ (s : State) (core slot len : Nat) (w : BitVec 32) (f3 rs1 rs2 o v : Nat) (fp : Bool) (off :
  Int), executes s core slot w len (.store fp f3 rs1 rs2 off) ∧ viewOf s (ccAddr (s.slot core slot) rs1 off) = some 1
  ∧ (turn s core slot).ccPlace core slot (ccAddr ((turn s core slot).slot core slot) rs1 off) (rvSize f3) true = .own 1 o
  ∧ v = (if fp then ((turn s core slot).slot core slot).f rs2
  else ((turn s core slot).slot core slot).x rs2).toNat % 2 ^ (8 * rvSize f3) :=
  ⟨demoInsn 0 0x20b023 (fun c => { c with xs := [(1, 0x8100000100), (2, 5)], pairs := demoPairs }), 0, 0, 4, 0x20b023, 3, 1, 2, 0x100, 5,
  false, 0,
    by decide⟩

theorem witness_ScratchAccessesComplete_4 : ∃ (s : State) (core slot len : Nat) (w : BitVec 32) (f3 rd rs1 o : Nat) (fp : Bool) (off :
  Int), executes s core slot w len (.load fp f3 rd rs1 off) ∧ viewOf s (ccAddr (s.slot core slot) rs1 off) = some 1
  ∧ (turn s core slot).ccPlace core slot (ccAddr ((turn s core slot).slot core slot) rs1 off) (rvSize f3) true = .own 1 o :=
  ⟨demoInsn 0 0xb283 (fun c => { c with xs := [(1, 0x8100000100)], pairs := demoPairs }), 0, 0, 4, 0xb283, 3, 5, 1, 0x100, false, 0,
    by decide⟩

theorem witness_ScratchAccessesComplete_5 : ∃ (s : State) (core slot len : Nat) (w : BitVec 32) (f3 rs1 rs2 o v : Nat) (fp : Bool) (off :
  Int), executes s core slot w len (.store fp f3 rs1 rs2 off) ∧ viewOf s (ccAddr (s.slot core slot) rs1 off) = some 2
  ∧ (turn s core slot).ccPlace core slot (ccAddr ((turn s core slot).slot core slot) rs1 off) (rvSize f3) true = .own 2 o
  ∧ v = (if fp then ((turn s core slot).slot core slot).f rs2
  else ((turn s core slot).slot core slot).x rs2).toNat % 2 ^ (8 * rvSize f3) :=
  ⟨demoInsn 0 0x20b023 (fun c => { c with xs := [(1, 0x8200000100), (2, 5)], pairs := demoPairs }), 0, 0, 4, 0x20b023, 3, 1, 2, 0x100, 5,
  false, 0,
    by decide⟩

theorem witness_ScratchAccessesComplete_6 : ∃ (s : State) (core slot len : Nat) (w : BitVec 32) (f3 rd rs1 o : Nat) (fp : Bool) (off :
  Int), executes s core slot w len (.load fp f3 rd rs1 off) ∧ viewOf s (ccAddr (s.slot core slot) rs1 off) = some 2
  ∧ (turn s core slot).ccPlace core slot (ccAddr ((turn s core slot).slot core slot) rs1 off) (rvSize f3) true = .own 2 o :=
  ⟨demoInsn 0 0xb283 (fun c => { c with xs := [(1, 0x8200000100)], pairs := demoPairs }), 0, 0, 4, 0xb283, 3, 5, 1, 0x100, false, 0,
    by decide⟩

theorem witness_AliasEffects_1 : ∃ (s : State) (core off size v : Nat), memOk s ∧ (size = 4 ∨ size = 8) ∧ v < 2 ^ (8 * size)
  ∧ core < 2048 ∧ off + size ≤ 0xC0000 :=
  ⟨demoRun, 0, 0xBFFFC, 4, 0xFFFFFFFF, by decide⟩

theorem witness_AliasEffects_2 : ∃ (s : State) (core off size v : Nat), memOk s ∧ (size = 4 ∨ size = 8) ∧ v < 2 ^ (8 * size)
  ∧ core < 2048 ∧ off + size ≤ 0xC0000 :=
  ⟨demoRun, 2047, 0, 8, 0xFFFFFFFFFFFFFFFF, by decide⟩

theorem witness_AliasEffects_3 : ∃ (s : State) (core off size c lctx : Nat), memOk s ∧ (size = 4 ∨ size = 8) ∧ core < 2048
  ∧ off + size ≤ 0xC0000 ∧ leNat (s.rds (scrPa core off) size) % 2 = 0 ∧ (s.core core).locks.length < 32 :=
  ⟨demoRun, 0, 0, 4, 0, 0, by decide⟩

theorem witness_AliasEffects_4 : ∃ (s : State) (core off size c lctx : Nat), memOk s ∧ (size = 4 ∨ size = 8) ∧ core < 2048
  ∧ off + size ≤ 0xC0000 :=
  ⟨demoRun, 0, 0, 4, 0, 0, by decide⟩

theorem witness_ControlCoreInstructionsComplete_1 : ∃ (s : State) (core slot len : Nat) (w : BitVec 32) (rd : Nat) (i : Int),
  executes s core slot w len (.lui rd i) :=
  ⟨demoInsn 0 0x123452b7, 0, 0, 4, 0x123452b7, 5, 0x12345000, by decide⟩

theorem witness_ControlCoreInstructionsComplete_2 : ∃ (s : State) (core slot len : Nat) (w : BitVec 32) (rd : Nat) (i : Int),
  executes s core slot w len (.auipc rd i) :=
  ⟨demoInsn 0 0x12345297, 0, 0, 4, 0x12345297, 5, 0x12345000, by decide⟩

theorem witness_ControlCoreInstructionsComplete_3 : ∃ (s : State) (core slot len : Nat) (w : BitVec 32) (f3 rd rs1 rs2 : Nat) (alt w32 :
  Bool), executes s core slot w len (.alu f3 alt w32 rd rs1 (.reg rs2)) :=
  ⟨demoInsn 0 0x2082b3, 0, 0, 4, 0x2082b3, 0, 5, 1, 2, false, false, by decide⟩

theorem witness_ControlCoreInstructionsComplete_4 : ∃ (s : State) (core slot len : Nat) (w : BitVec 32) (f3 rd rs1 : Nat) (alt w32 :
  Bool) (i : Int), executes s core slot w len (.alu f3 alt w32 rd rs1 (.imm i)) :=
  ⟨demoInsn 0 0x7ff08293, 0, 0, 4, 0x7ff08293, 0, 5, 1, false, false, 2047, by decide⟩

theorem witness_ControlCoreInstructionsComplete_5 : ∃ (s : State) (core slot len : Nat) (w : BitVec 32) (f3 rd rs1 rs2 : Nat) (w32 :
  Bool), executes s core slot w len (.muldiv f3 w32 rd rs1 rs2) :=
  ⟨demoInsn 0 0x22082b3, 0, 0, 4, 0x22082b3, 0, 5, 1, 2, false, by decide⟩

theorem witness_ControlCoreInstructionsComplete_6 : ∃ (s : State) (core slot len : Nat) (w : BitVec 32) (rd : Nat) (off : Int),
  executes s core slot w len (.jal rd off) :=
  ⟨demoInsn 0 0x8000ef, 0, 0, 4, 0x8000ef, 1, 8, by decide⟩

theorem witness_ControlCoreInstructionsComplete_7 : ∃ (s : State) (core slot len : Nat) (w : BitVec 32) (rd rs1 : Nat) (off : Int),
  executes s core slot w len (.jalr rd rs1 off) :=
  ⟨demoInsn 0 0x80e7, 0, 0, 4, 0x80e7, 1, 1, 0, by decide⟩

theorem witness_ControlCoreInstructionsComplete_8 : ∃ (s : State) (core slot len : Nat) (w : BitVec 32) (f3 rs1 rs2 : Nat) (off : Int),
  executes s core slot w len (.branch f3 rs1 rs2 off)
  ∧ rvTaken f3 (((turn s core slot).slot core slot).x rs1) (((turn s core slot).slot core slot).x rs2) = true :=
  ⟨demoInsn 0 0x208463, 0, 0, 4, 0x208463, 0, 1, 2, 8, by decide⟩

theorem witness_ControlCoreInstructionsComplete_9 : ∃ (s : State) (core slot len : Nat) (w : BitVec 32) (f3 rs1 rs2 : Nat) (off : Int),
  executes s core slot w len (.branch f3 rs1 rs2 off)
  ∧ rvTaken f3 (((turn s core slot).slot core slot).x rs1) (((turn s core slot).slot core slot).x rs2) = false :=
  ⟨demoInsn 0 0x209463, 0, 0, 4, 0x209463, 1, 1, 2, 8, by decide⟩

theorem witness_ControlCoreInstructionsComplete_10 : ∃ (s : State) (core slot len : Nat) (w : BitVec 32),
  executes s core slot w len .ecall ∧ slot < 7 :=
  ⟨demoInsn 0 0x73, 0, 0, 4, 0x73, by decide⟩

theorem witness_ControlCoreInstructionsComplete_11 : ∃ (s : State) (core slot len : Nat) (w : BitVec 32),
  executes s core slot w len .ebreak ∧ slot < 7 :=
  ⟨demoInsn 0 0x100073, 0, 0, 4, 0x100073, by decide⟩

theorem witness_ControlCoreInstructionsComplete_13 : ∃ (c : Ctx) (d : Nat) (v : W64) (bad : Bool), 0 < d ∧ d < 32 :=
  ⟨demoCtx 0, 31, 0xFFFFFFFFFFFFFFFF, true, by decide⟩

theorem witness_MatrixPassesStart_1 : ∃ (s : State) (core n : Nat) (h : Head) (pl : PassPlan), heads s core n 0x40 h ∧ cb h.w 80 = false
  ∧ mmPlan s 0x40 h = .ok pl ∧ passReady s h pl ∧ affords s h pl.cls pl.cycles :=
  ⟨demoMm 0x20000400000000000040, 0, 0, demoMmHead 0x20000400000000000040, demoPlan 0x40 0x20000400000000000040,
    ⟨by decide, by decide, by decide, by decide, by decide⟩⟩

theorem witness_MatrixPassesStart_2 : ∃ (s : State) (core n : Nat) (h : Head) (pl : PassPlan), heads s core n 0x41 h
  ∧ widePlan s h = .ok pl ∧ passReady s h pl ∧ affords s h pl.cls pl.cycles :=
  ⟨demoMm 0x8000000000000000000041, 0, 0, demoMmHead 0x8000000000000000000041, demoPlan 0x41 0x8000000000000000000041,
    ⟨by decide, by decide, by decide, by decide⟩⟩

theorem witness_MatrixPassesStart_3 : ∃ (s : State) (core n : Nat) (h : Head) (pl : PassPlan), heads s core n 0x42 h
  ∧ mmPlan s 0x42 h = .ok pl ∧ passReady s h pl ∧ affords s h pl.cls pl.cycles :=
  ⟨demoMm 0x20000400000000000042, 0, 0, demoMmHead 0x20000400000000000042, demoPlan 0x42 0x20000400000000000042,
    ⟨by decide, by decide, by decide, by decide⟩⟩

theorem witness_MatrixPassesStart_4 : ∃ (s : State) (core n : Nat) (h : Head) (pl : PassPlan), heads s core n 0x43 h
  ∧ mmPlan s 0x43 h = .ok pl ∧ passReady s h pl ∧ affords s h pl.cls pl.cycles :=
  ⟨demoMm 0x20000400000000000043, 0, 0, demoMmHead 0x20000400000000000043, demoPlan 0x43 0x20000400000000000043,
    ⟨by decide, by decide, by decide, by decide⟩⟩

theorem witness_MatrixPassesStart_5 : ∃ (s : State) (core n : Nat) (h : Head) (pl : PassPlan), heads s core n 0x44 h
  ∧ mmPlan s 0x44 h = .ok pl ∧ passReady s h pl ∧ affords s h pl.cls pl.cycles :=
  ⟨demoMm 0x20000400000000000044, 0, 0, demoMmHead 0x20000400000000000044, demoPlan 0x44 0x20000400000000000044,
    ⟨by decide, by decide, by decide, by decide⟩⟩

theorem witness_MatrixPassesStart_6 : ∃ (s : State) (core n : Nat) (h : Head) (pl : PassPlan), heads s core n 0x47 h
  ∧ mmPlan s 0x47 h = .ok pl ∧ passReady s h pl ∧ affords s h pl.cls pl.cycles :=
  ⟨demoMm 0x2000040000000cc00047, 0, 0, demoMmHead 0x2000040000000cc00047, demoPlan 0x47 0x2000040000000cc00047,
    ⟨by decide, by decide, by decide, by decide⟩⟩

theorem witness_FailedChecksEndTheContext_1 : ∃ (s : State) (core n st : Nat) (h : Head), heads s core n 0x40 h ∧ cb h.w 80 = false
  ∧ mmPlan s 0x40 h = .error st :=
  ⟨demoCmd 0x20000400000001000040, 0, 0, stIllegalOp, demoHead 0x20000400000001000040, by decide⟩

theorem witness_FailedChecksEndTheContext_2 : ∃ (s : State) (core n st : Nat) (h : Head), heads s core n 0x41 h
  ∧ widePlan s h = .error st :=
  ⟨demoCmd 0x1000041, 0, 0, stIllegalOp, demoHead 0x1000041, by decide⟩

theorem witness_FailedChecksEndTheContext_3 : ∃ (s : State) (core n st : Nat) (h : Head), heads s core n 0x42 h
  ∧ mmPlan s 0x42 h = .error st :=
  ⟨demoCmd 0x20000400000001000042, 0, 0, stIllegalOp, demoHead 0x20000400000001000042, by decide⟩

theorem witness_FailedChecksEndTheContext_4 : ∃ (s : State) (core n st : Nat) (h : Head), heads s core n 0x43 h
  ∧ mmPlan s 0x43 h = .error st :=
  ⟨demoCmd 0x20000400000001000043, 0, 0, stIllegalOp, demoHead 0x20000400000001000043, by decide⟩

theorem witness_FailedChecksEndTheContext_5 : ∃ (s : State) (core n st : Nat) (h : Head), heads s core n 0x44 h
  ∧ mmPlan s 0x44 h = .error st :=
  ⟨demoCmd 0x20000400000001000044, 0, 0, stIllegalOp, demoHead 0x20000400000001000044, by decide⟩

theorem witness_FailedChecksEndTheContext_6 : ∃ (s : State) (core n st : Nat) (h : Head), heads s core n 0x47 h
  ∧ mmPlan s 0x47 h = .error st :=
  ⟨demoCmd 0x20000400000000000047, 0, 0, stIllegalOp, demoHead 0x20000400000000000047, by decide⟩

theorem witness_FailedChecksEndTheContext_7 : ∃ (s : State) (core n st : Nat) (h : Head), heads s core n 0x46 h
  ∧ drainPlan s h = .error st :=
  ⟨demoCmd 0x46, 0, 0, stIllegalOp, demoHead 0x46, by decide⟩

theorem witness_FailedChecksEndTheContext_8 : ∃ (s : State) (core n st : Nat) (h : Head), heads s core n 0x60 h
  ∧ vopPlan s h = .error st :=
  ⟨demoCmd 0x1ec00060, 0, 0, stIllegalOp, demoHead 0x1ec00060, by and_intros <;> decide +kernel⟩

theorem witness_FailedChecksEndTheContext_9 : ∃ (s : State) (core n st : Nat) (h : Head), heads s core n 0x61 h
  ∧ vfuncPlan s h = .error st :=
  ⟨demoCmd 0x700061, 0, 0, stIllegalOp, demoHead 0x700061, by and_intros <;> decide +kernel⟩

theorem witness_FailedChecksEndTheContext_10 : ∃ (s : State) (core n st : Nat) (h : Head), heads s core n 0x62 h
  ∧ vderivPlan s h = .error st :=
  ⟨demoCmd 0x700062, 0, 0, stIllegalOp, demoHead 0x700062, by and_intros <;> decide +kernel⟩

theorem witness_FailedChecksEndTheContext_11 : ∃ (s : State) (core n st : Nat) (h : Head), heads s core n 0x63 h
  ∧ vreducePlan s h = .error st :=
  ⟨demoCmd 0x7000000000000000000063, 0, 0, stIllegalOp, demoHead 0x7000000000000000000063, by and_intros <;> decide +kernel⟩

theorem witness_FailedChecksEndTheContext_12 : ∃ (s : State) (core n st : Nat) (h : Head), heads s core n 0x64 h
  ∧ vnormPlan s h = .error st :=
  ⟨demoCmd 0x7000000000000000000000000064, 0, 0, stIllegalOp, demoHead 0x7000000000000000000000000064,
    by and_intros <;> decide +kernel⟩

theorem witness_FailedChecksEndTheContext_13 : ∃ (s : State) (core n st : Nat) (h : Head), heads s core n 0x65 h
  ∧ vsoftPlan s h = .error st :=
  ⟨demoCmd 0x1c000000000000000000065, 0, 0, stIllegalOp, demoHead 0x1c000000000000000000065,
    by and_intros <;> decide +kernel⟩

theorem witness_FailedChecksEndTheContext_14 : ∃ (s : State) (core n st : Nat) (h : Head), heads s core n 0x66 h
  ∧ vcompPlan s h = .error st :=
  ⟨demoCmd 0x700066, 0, 0, stIllegalOp, demoHead 0x700066, by and_intros <;> decide +kernel⟩

theorem witness_FailedChecksEndTheContext_15 : ∃ (s : State) (core n st : Nat) (h : Head), heads s core n 0x67 h
  ∧ vdecompPlan s h = .error st :=
  ⟨demoCmd 0x67, 0, 0, stBoundFault, demoHead 0x67, by and_intros <;> decide +kernel⟩

theorem witness_FailedChecksEndTheContext_16 : ∃ (s : State) (core n st : Nat) (h : Head), heads s core n 0x68 h
  ∧ vrandPlan s h = .error st :=
  ⟨demoCmd 0x7000068, 0, 0, stIllegalOp, demoHead 0x7000068, by and_intros <;> decide +kernel⟩

theorem witness_FailedChecksEndTheContext_17 : ∃ (s : State) (core n st : Nat) (h : Head), heads s core n 0x69 h
  ∧ vconvPlan s h = .error st :=
  ⟨demoCmd 0xf000000000000000069, 0, 0, stIllegalOp, demoHead 0xf000000000000000069, by and_intros <;> decide +kernel⟩

theorem witness_FailedChecksEndTheContext_18 : ∃ (s : State) (core n st : Nat) (h : Head), heads s core n 0x6a h
  ∧ vdigPlan s h = .error st :=
  ⟨demoCmd 0x6a, 0, 0, stIllegalOp, demoHead 0x6a, by and_intros <;> decide +kernel⟩

theorem witness_MatrixCommandsComplete_1 : ∃ (s : State) (core n : Nat) (h : Head) (c : MClass), heads s core n 0x40 h ∧ cb h.w 80 = true
  ∧ mmFormats 0x40 h.w = .ok c ∧ s.fits core (classRate 0) 1 = true :=
  ⟨demoMm 0x1a0000400000000000040, 0, 0, demoMmHead 0x1a0000400000000000040, .h, by decide⟩

theorem witness_MatrixCommandsComplete_2 : ∃ (s : State) (core n off : Nat) (h : Head) (c : MClass), heads s core n 0x45 h
  ∧ mclass (mmF h.w).afmt (mmF h.w).wfmt = some c ∧ c ≠ .f
  ∧ localOff (s.core core) h.ctx core (mmF h.w).wbase (mmF h.w).woff (tileBytes (mmF h.w).wfmt c.kt) = .ok off
  ∧ (s.core core).bankIsOff off (tileBytes (mmF h.w).wfmt c.kt) = false
  ∧ (s.core core).bankIsOn off (tileBytes (mmF h.w).wfmt c.kt) = true ∧ affords s h 5 (loadW (mmF h.w).wfmt c.kt) :=
  ⟨demoMm 0x45, 0, 0, 0, demoMmHead 0x45, .h, by decide⟩

theorem witness_MatrixCommandsComplete_3 : ∃ (s : State) (core n off ph : Nat) (h : Head), heads s core n 0x46 h
  ∧ drainPlan s h = .ok off ∧ (s.core core).physOf h.ctx.lctx (cf h.w 24 23) = some ph ∧ (s.core core).bankIsOn off (drainLen h.w) = true
  ∧ (s.core core).drain = none ∧ affords s h 5 (drainCycles h.w (0x40000 ≤ off)) :=
  ⟨demoAcc 0x46, 0, 0, 0, 0, demoAccHead 0x46, by decide⟩

theorem witness_MatrixCommandsComplete_4 : ∃ (s : State) (core : Nat) (p : Pass) (t : List Pass), core < 2048
  ∧ (s.core core).passes = p :: t ∧ s.halts = false :=
  ⟨demoPass, 0, demoPassRec, [], by decide⟩

theorem witness_MatrixCommandsComplete_5 : ∃ (s : State) (core : Nat) (d : Drain), core < 2048 ∧ (s.core core).drain = some d
  ∧ (s.core core).drainWaits d = false ∧ s.halts = false :=
  ⟨demoPass, 0, demoDrainRec, by decide⟩

theorem witness_AccumulatorsAndArrayFaults_1 : ∃ (s : State) (core n v : Nat), core < 2048 ∧ n < 8 ∧ s.farHeld core = false
  ∧ (s.core core).freeCount < (s.core core).unbound ((s.core core).slot n).lctx (s.wantedSlots core n)
  ∧ listBest (fun (a b : Nat) => ((s.core core).accAt a).used < ((s.core core).accAt b).used) ((List.range 8).filter
  fun p => ((s.core core).accAt p).held && ((s.core core).accAt p).lctx != ((s.core core).slot n).lctx && !(s.core core).accInUse p) =
  some v ∧ s.vok (s.pno core) (((s.core core).ctx? ((s.core core).accAt v).lctx).elim 0 psaveAddr + ((s.core core).accAt v).lslot *
  0x4000) 0x4000 true = true :=
  ⟨demoSpill, 0, 0, 0, by and_intros <;> decide +kernel⟩

theorem witness_AccumulatorsAndArrayFaults_2 : ∃ (s : State) (core n ph : Nat) (x : SpilledAcc) (bs : List Byte) (bad : Bool),
  core < 2048 ∧ n < 8 ∧ s.farHeld core = false ∧ ((s.wantedSlots core n).findSome?
  fun l => (s.core core).isSpilled ((s.core core).slot n).lctx l) = some x ∧ (s.core core).freePhys = some ph
  ∧ s.vread (s.pno core) (psaveAddr ((s.core core).slot n) + x.lslot * 0x4000) 0x4000 = .ok (bs, bad) :=
  ⟨demoReload, 0, 0, 0, ⟨0, 0, 0⟩, demoReloaded.1, demoReloaded.2,
    by refine ⟨by decide, by decide, by decide, by decide +kernel, by decide +kernel, demo_reloaded⟩⟩

theorem witness_AccumulatorsAndArrayFaults_3 : ∃ (s : State) (core n ph : Nat) (x : SpilledAcc) (er : TransFail), core < 2048 ∧ n < 8
  ∧ s.farHeld core = false ∧ ((s.wantedSlots core n).findSome? fun l => (s.core core).isSpilled ((s.core core).slot n).lctx l) = some x
  ∧ (s.core core).freePhys = some ph ∧ s.vread (s.pno core) (psaveAddr ((s.core core).slot n) + x.lslot * 0x4000) 0x4000 = .error er :=
  ⟨demoReloadUnmapped, 0, 0, 0, ⟨0, 0, 0⟩, .beyond, by and_intros <;> decide +kernel⟩

theorem witness_AccumulatorsAndArrayFaults_4 : ∃ (s : State) (core a : Nat), core < 2048 ∧ a < 4 ∧ s.halts = false :=
  ⟨demoPass, 2047, 3, by decide⟩

theorem witness_AccumulatorsAndArrayFaults_5 : ∃ (s : State) (core a : Nat), core < 2048 ∧ a < 4 ∧ s.halts = false :=
  ⟨demoPass, 0, 0, by decide⟩

theorem witness_AccumulatorsAndArrayFaults_6 : ∃ (s : State) (core a : Nat), core < 2048 ∧ a < 4 ∧ ((s.core core).array a).testing = true
  ∧ s.halts = false :=
  ⟨demoTest, 0, 0, by decide⟩

theorem witness_AccumulatorsAndArrayFaults_7 : ∃ (s : State) (core a r : Nat), core < 2048 ∧ a < 4 ∧ r < 32
  ∧ ((s.core core).array a).testing = true ∧ ((s.core core).array a).spareOn = false ∧ s.halts = false :=
  ⟨demoTest, 0, 0, 31, by decide⟩

theorem witness_AccumulatorsAndArrayFaults_8 : ∃ (s : State) (core a r : Nat), core < 2048 ∧ a < 4 ∧ r < 33
  ∧ ((s.core core).array a).testing = true ∧ ((s.core core).array a).spareOn = true ∧ s.halts = false :=
  ⟨demoSpareTest, 0, 0, 32, by decide⟩

theorem witness_ContextRegisterWritesComplete_1 : ∃ (s : State) (who : Who) (core : Nat) (l : Nat) (v : W64), reaches s who core ∧ l < 16
  ∧ (s.core core).sigFull l = false :=
  ⟨demoRun, (.dispatch 0), 0, 15, 5, by decide⟩

theorem witness_ContextRegisterWritesComplete_2 : ∃ (s : State) (who : Who) (core : Nat) (n : Nat) (v : W64), governs s who core ∧ n < 8
  ∧ ¬(11 ≤ bits (v ||| 2).toNat 11 8 ∧ bits (v ||| 2).toNat 11 8 ≤ 14) ∧ (s.slot core n).st.live = true :=
  ⟨demoCmd 0, (.dispatch 0), 0, 0, 0x30, by decide⟩

theorem witness_ContextRegisterWritesComplete_3 : ∃ (s : State) (who : Who) (core : Nat) (n : Nat) (v : W64), governs s who core ∧ n < 8
  ∧ ¬(11 ≤ bits (v ||| 1).toNat 11 8 ∧ bits (v ||| 1).toNat 11 8 ≤ 14) ∧ (s.slot core n).st.live = false
  ∧ (n == 7 || ((s.mapSlot core n fun c => { c with eclass := bits (v ||| 1).toNat 11 8, bank := bits (v ||| 1).toNat 5 4 }).mapCore core
  Core.refresh).declared core (((s.mapSlot core n
  fun c => { c with eclass := bits (v ||| 1).toNat 11 8, bank := bits (v ||| 1).toNat 5 4 }).mapCore core Core.refresh).slot core
  n).lctx) = true :=
  ⟨demoRun, (.dispatch 0), 0, 7, 0x300, by decide⟩

theorem witness_ContextRegisterWritesComplete_4 : ∃ (s : State) (who : Who) (core : Nat) (n : Nat) (v : W64), governs s who core ∧ n < 8
  ∧ ¬(11 ≤ bits (v ||| 1).toNat 11 8 ∧ bits (v ||| 1).toNat 11 8 ≤ 14) ∧ (s.slot core n).st.live = false
  ∧ (n == 7 || ((s.mapSlot core n fun c => { c with eclass := bits (v ||| 1).toNat 11 8, bank := bits (v ||| 1).toNat 5 4 }).mapCore core
  Core.refresh).declared core (((s.mapSlot core n
  fun c => { c with eclass := bits (v ||| 1).toNat 11 8, bank := bits (v ||| 1).toNat 5 4 }).mapCore core Core.refresh).slot core
  n).lctx) = false :=
  ⟨{ demoRun with cores := [(0, { slots := [(6, { lctx := 9 })] })] }, (.dispatch 0), 0, 6, 0x300, by decide⟩

theorem witness_ContextRegisterWritesComplete_5 : ∃ (k : Core) (core n l : Nat), (k.slot n).st.live = false ∧ k.ctx? l = none
  ∧ Tab.find k.ended l = none ∧ k.fenced = false :=
  ⟨{}, 0, 3, 2, by decide⟩

theorem witness_ContextRegisterWritesComplete_6 : ∃ (s : State) (who : Who) (core : Nat) (n : Nat) (v : W64), governs s who core ∧ n < 8
  ∧ (s.slot core n).st.live = false :=
  ⟨demoRun, (.dispatch 0), 0, 3, 0x30004, by decide⟩

theorem witness_ContextRegisterWritesComplete_7 : ∃ (s : State) (who : Who) (core : Nat) (n : Nat) (v : W64), governs s who core ∧ n < 8
  ∧ (s.slot core n).st.live = true ∧ (s.slot core n).paused = true :=
  ⟨demoWith 0 fun c => { c with paused := true }, (.dispatch 0), 0, 0, 0x30004, by decide⟩

theorem witness_ContextRegisterWritesComplete_8 : ∃ (s : State) (who : Who) (core : Nat) (n p : Nat) (limit : Bool) (v : W64),
  governs s who core ∧ n < 8 ∧ p < 4 ∧ (if limit then bits v.toNat 16 0 ≤ 65536 else bits v.toNat 1 0 < 2)
  ∧ (s.slot core n).st.live = false ∧ s.pairLegal core (if limit then
  { (s.slot core n).pair p with limit := BitVec.ofNat 64 (bits v.toNat 16 0) }
  else { (s.slot core n).pair p with base := BitVec.ofNat 64 (bits v.toNat 47 0) }) = true :=
  ⟨demoRun, (.dispatch 0), 0, 7, 3, false, 0x8000000000, by decide⟩

theorem witness_ContextRegisterWritesComplete_9 : ∃ (s : State) (who : Who) (core : Nat) (n p : Nat) (limit : Bool) (v : W64),
  governs s who core ∧ n < 8 ∧ p < 4 ∧ (if limit then bits v.toNat 16 0 ≤ 65536 else bits v.toNat 1 0 < 2)
  ∧ (s.slot core n).st.live = true ∧ (s.slot core n).paused = true
  ∧ s.pairLegal core (if limit then { (s.slot core n).pair p with limit := BitVec.ofNat 64 (bits v.toNat 16 0) }
  else { (s.slot core n).pair p with base := BitVec.ofNat 64 (bits v.toNat 47 0) }) = true :=
  ⟨demoWith 0 fun c => { c with paused := true }, (.dispatch 0), 0, 0, 3, false, 0x8000000000, by decide⟩

theorem witness_ScratchRegisterWritesComplete_1 : ∃ (s : State) (who : Who) (core : Nat) (a : Nat) (v : W64), reaches s who core
  ∧ isService who = true ∧ a < 4 :=
  ⟨demoOverdue 7 0 { demoCtx 0 with lctx := 16 }, .ctx 0 7, 0, 3, 0x21, by decide⟩

theorem witness_ScratchRegisterWritesComplete_2 : ∃ (s : State) (who : Who) (core : Nat) (g : Nat) (v : W64), governs s who core ∧ g < 4
  ∧ v.getLsbD 63 = true ∧ s.circOk core
  { (s.core core).circAt g with
  en := true, tok := bits v.toNat 59 56, lctx := bits v.toNat 55 52, chunk := bits v.toNat 51 36 + 1, size := bits v.toNat 35 20 + 1,
  start := bits v.toNat 15 0 } = true :=
  ⟨demoRun, (.dispatch 0), 0, 3, 0x8120000000000000, by decide⟩

theorem witness_ScratchRegisterWritesComplete_3 : ∃ (s : State) (who : Who) (core : Nat) (g : Nat) (v : W64), governs s who core ∧ g < 4
  ∧ v.getLsbD 63 = false ∧ s.circOk core
  { (s.core core).circAt g with
  en := false, tok := bits v.toNat 59 56, lctx := bits v.toNat 55 52, chunk := bits v.toNat 51 36 + 1, size := bits v.toNat 35 20 + 1,
  start := bits v.toNat 15 0 } = true :=
  ⟨demoCirc, (.dispatch 0), 0, 0, 0x0120000000000000, by decide⟩

theorem witness_ScratchRegisterWritesComplete_4 : ∃ (s : State) (core n g : Nat) (v : W64), core < 2048 ∧ n < 8
  ∧ (s.slot core n).st.live = true ∧ s.denied core core (n == 7) = false ∧ g < 4 ∧ (s.slot core n).lctx = ((s.core core).circAt g).lctx
  ∧ bits v.toNat 15 0 < ((s.core core).circAt g).size ∧ ((s.core core).circAt g).pendHead = none
  ∧ (((s.core core).circAt g).turn (bits v.toNat 15 0) (v.toNat.testBit 16) + 2 * ((s.core core).circAt g).size - ((s.core core).circAt
  g).turn ((s.core core).circAt g).headPos ((s.core core).circAt g).headWrap) % (2 * ((s.core core).circAt g).size) ≤ (((s.core
  core).circAt g).turn ((s.core core).circAt g).tailPos ((s.core core).circAt g).tailWrap + 2 * ((s.core core).circAt g).size - ((s.core
  core).circAt g).turn ((s.core core).circAt g).headPos ((s.core core).circAt g).headWrap) % (2 * ((s.core core).circAt g).size) :=
  ⟨demoCirc, 0, 0, 0, 0x10, by decide⟩

theorem witness_ScratchRegisterWritesComplete_5 : ∃ (s : State) (who : Who) (core : Nat) (n lctx : Nat), governs s who core ∧ n < 16
  ∧ lctx < 16 ∧ ((s.core core).stSlot n).st = .unassigned :=
  ⟨demoRun, (.dispatch 0), 0, 15, 15, by decide⟩

theorem witness_ScratchRegisterWritesComplete_6 : ∃ (s : State) (who : Who) (core : Nat) (n lctx : Nat), governs s who core ∧ n < 16
  ∧ lctx < 16 ∧ ((s.core core).stSlot n).st ≠ .unassigned :=
  ⟨demoStream 0, (.dispatch 0), 0, 0, 1, by decide⟩

theorem witness_ScratchRegisterWritesComplete_7 : ∃ (s : State) (who : Who) (core : Nat) (n : Nat), governs s who core ∧ n < 16 :=
  ⟨demoRun, (.dispatch 0), 0, 15, by decide⟩

theorem witness_ScratchRegisterWritesComplete_8 : ∃ (s : State) (who : Who) (core : Nat) (v : W64), governs s who core
  ∧ (s.core core).chain = none ∧ s.partOf (bits v.toNat 10 0) = s.partOf core :=
  ⟨demoRun, (.dispatch 0), 0, 0x8000000000000001, by decide⟩

theorem witness_ScratchRegisterWritesComplete_9 : ∃ (s : State) (who : Who) (core : Nat) (v : W64), governs s who core
  ∧ (s.core core).larder.recs = [] ∧ (s.core core).larder.busy = false ∧ bits v.toNat 11 0 + (bits v.toNat 27 16 + 1) ≤ 2048 :=
  ⟨demoRun, (.dispatch 0), 0, 0x8000000007FF0000, by decide⟩

theorem witness_ScratchRegisterWritesComplete_10 : ∃ (s : State) (who : Who) (core : Nat) (v : W64), governs s who core
  ∧ (s.core core).larder.recs = [] ∧ (s.core core).larder.busy = false ∧ bits v.toNat 5 0 ≤ 32 :=
  ⟨demoRun, (.dispatch 0), 0, 0x0000800000000020, by decide⟩

theorem witness_RegisterAccessesComplete_1 : ∃ (s t : State) (who : Who) (core off : Nat) (v : W64), reaches s who core ∧ 0xC0000 ≤ off
  ∧ off < 0x100000 ∧ off % 8 = 0 ∧ s.winWrite who core off v.toNat = .done t :=
  ⟨demoRun, demoRun.setCore 0 { demoRun.core 0 with mx := (demoRun.core 0).mx.clear 0 }, (.dispatch 0), 0, 0xC2000, 0,
    by refine ⟨?_, ?_, ?_, ?_, rfl⟩ <;> decide⟩

theorem witness_RegisterAccessesComplete_2 : ∃ (s : State) (core n st tgt off : Nat) (v : W64), reaches s (.ctx core n) tgt
  ∧ 0xC0000 ≤ off ∧ off < 0x100000 ∧ off % 8 = 0 ∧ s.winWrite (.ctx core n) tgt off v.toNat = .refused st :=
  ⟨demoCmd 0, 0, 0, stDenied, 0, 0xC0000, 0, by refine ⟨?_, ?_, ?_, ?_, rfl⟩ <;> decide⟩

theorem witness_RegisterAccessesComplete_3 : ∃ (s : State) (port func off len : Nat) (v : W64), port < 2 ∧ func < 16 ∧ off < 0x4000000
  ∧ off % 8 = 0 ∧ s.answers port func = true :=
  ⟨demoHost, 1, 0, 0x3FFFFF8, 8, 1, by decide⟩

theorem witness_RegisterAccessesComplete_4 : ∃ (s : State) (port func off len : Nat) (v : W64), port < 2 ∧ func < 16 ∧ off < 0x4000000
  ∧ off % 8 = 0 ∧ s.answers port func = true :=
  ⟨demoHost, 1, 0, 0x3FFFFF8, 8, 1, by decide⟩

theorem witness_RegisterAccessesComplete_5 : ∃ (s : State) (port func off len : Nat), port < 2 ∧ func < 16 ∧ 0 < len ∧ off % 8 + len ≤ 8
  ∧ off + len ≤ 0x4000000 ∧ s.answers port func = true :=
  ⟨demoHost, 1, 0, 0x3FFFFFF, 1, by decide⟩

theorem witness_RegisterAccessesComplete_6 : ∃ (s : State) (who : Who) (core off : Nat), reaches s who core ∧ 0xC0000 ≤ off
  ∧ off < 0x100000 ∧ off % 8 = 0 :=
  ⟨demoRun, (.dispatch 0), 0, 0xC4810, by decide⟩

theorem witness_RegisterAccessesComplete_7 : ∃ (s : State) (port func off : Nat), port < 2 ∧ func < 16 ∧ off < 0x4000000 ∧ off % 8 = 0
  ∧ s.answers port func = true :=
  ⟨demoHost, 1, 0, 0x3FFFFF8, by decide⟩

theorem witness_RegisterAccessesComplete_9 : ∃ (s : State) (who : Who) (core b : Nat), governs s who core ∧ b < 6 :=
  ⟨demoRun, (.dispatch 0), 0, 5, by decide⟩

theorem witness_RegisterAccessesComplete_10 : ∃ (s : State) (who : Who) (core b : Nat), governs s who core ∧ b < 6 :=
  ⟨demoRun, (.dispatch 0), 0, 5, by decide⟩

theorem witness_RegisterAccessesComplete_11 : ∃ (s : State) (who : Who) (core b : Nat), governs s who core ∧ b < 6
  ∧ (s.core core).offRefused b = false :=
  ⟨demoRun, (.dispatch 0), 0, 5, by decide⟩

theorem witness_RegisterAccessesComplete_12 : ∃ (s : State) (core n tgt b : Nat), governs s (.ctx core n) tgt ∧ b < 6
  ∧ (s.core tgt).offRefused b = true :=
  ⟨(demoOverdue 7 0 { demoCtx 0 with lctx := 16 }).mapCore 0 fun k => { k with circ := [(0, { en := true, size := 1 })] }, 0, 7, 0, 0,
    by decide⟩

theorem witness_RegisterAccessesComplete_13 : ∃ (s : State) (core n tgt b : Nat), reaches s (.ctx core n) tgt ∧ b < 6
  ∧ s.mayWrite (.ctx core n) tgt = false :=
  ⟨demoCmd 0, 0, 0, 0, 5, by decide⟩

theorem witness_RegisterAccessesComplete_14 : ∃ (s : State) (core n tgt b : Nat), reaches s (.ctx core n) tgt ∧ b < 6
  ∧ s.mayWrite (.ctx core n) tgt = false :=
  ⟨demoCmd 0, 0, 0, 0, 5, by decide⟩

theorem witness_RegisterAccessesComplete_15 : ∃ (s : State) (core n tgt b : Nat), reaches s (.ctx core n) tgt ∧ b < 6
  ∧ s.mayWrite (.ctx core n) tgt = false :=
  ⟨demoCmd 0, 0, 0, 0, 5, by decide⟩

theorem witness_VectorCommandsComplete_1 : ∃ (s : State) (core n : Nat) (h : Head) (pl : VPlan), heads s core n 0x60 h
  ∧ vopPlan s h = .ok pl ∧ vectorReady s h pl ∧ affords s h pl.cls (vTerm h.w pl.ops pl.acc 0) :=
  ⟨demoMm 0x200000000100000000000c00060, 0, 0, demoMmHead 0x200000000100000000000c00060,
  (((vopPlan (demoMm 0x200000000100000000000c00060) (demoMmHead 0x200000000100000000000c00060)).toOption).getD ⟨[], [], [], 0⟩),
    by and_intros <;> decide +kernel⟩

theorem witness_VectorCommandsComplete_2 : ∃ (s : State) (core n : Nat) (h : Head) (pl : VPlan), heads s core n 0x61 h
  ∧ vfuncPlan s h = .ok pl ∧ vectorReady s h pl ∧ affords s h pl.cls (vTerm h.w pl.ops pl.acc 0) :=
  ⟨demoMm 0x10000000020000000c00061, 0, 0, demoMmHead 0x10000000020000000c00061,
  (((vfuncPlan (demoMm 0x10000000020000000c00061) (demoMmHead 0x10000000020000000c00061)).toOption).getD ⟨[], [], [], 0⟩),
    by and_intros <;> decide +kernel⟩

theorem witness_VectorCommandsComplete_3 : ∃ (s : State) (core n : Nat) (h : Head) (pl : VPlan), heads s core n 0x62 h
  ∧ vderivPlan s h = .ok pl ∧ vectorReady s h pl ∧ affords s h pl.cls (vTerm h.w pl.ops pl.acc 0) :=
  ⟨demoMm 0x10000400020000000c00062, 0, 0, demoMmHead 0x10000400020000000c00062,
  (((vderivPlan (demoMm 0x10000400020000000c00062) (demoMmHead 0x10000400020000000c00062)).toOption).getD ⟨[], [], [], 0⟩),
    by and_intros <;> decide +kernel⟩

theorem witness_VectorCommandsComplete_4 : ∃ (s : State) (core n : Nat) (h : Head) (pl : VPlan), heads s core n 0x63 h
  ∧ vreducePlan s h = .ok pl ∧ vectorReady s h pl ∧ affords s h pl.cls (vTerm h.w pl.ops pl.acc 0) :=
  ⟨demoMm 0xc0000000000000000000008000000063, 0, 0, demoMmHead 0xc0000000000000000000008000000063,
  (((vreducePlan (demoMm 0xc0000000000000000000008000000063) (demoMmHead 0xc0000000000000000000008000000063)).toOption).getD ⟨[], [], [],
  0⟩),
    by and_intros <;> decide +kernel⟩

theorem witness_VectorCommandsComplete_5 : ∃ (s : State) (core n : Nat) (h : Head) (pl : VPlan), heads s core n 0x64 h
  ∧ vnormPlan s h = .ok pl ∧ vectorReady s h pl ∧ affords s h pl.cls (vTerm h.w pl.ops pl.acc 0) :=
  ⟨demoMm 0xc00000000c000200004000000064, 0, 0, demoMmHead 0xc00000000c000200004000000064,
  (((vnormPlan (demoMm 0xc00000000c000200004000000064) (demoMmHead 0xc00000000c000200004000000064)).toOption).getD ⟨[], [], [], 0⟩),
    by and_intros <;> decide +kernel⟩

theorem witness_VectorCommandsComplete_6 : ∃ (s : State) (core n : Nat) (h : Head) (pl : VPlan), heads s core n 0x65 h
  ∧ vsoftPlan s h = .ok pl ∧ vectorReady s h pl ∧ affords s h pl.cls (vTerm h.w pl.ops pl.acc 0) :=
  ⟨demoMm 0x30000000000200004000065, 0, 0, demoMmHead 0x30000000000200004000065,
  (((vsoftPlan (demoMm 0x30000000000200004000065) (demoMmHead 0x30000000000200004000065)).toOption).getD ⟨[], [], [], 0⟩),
    by and_intros <;> decide +kernel⟩

theorem witness_VectorCommandsComplete_7 : ∃ (s : State) (core n : Nat) (h : Head) (pl : VPlan), heads s core n 0x66 h
  ∧ vcompPlan s h = .ok pl ∧ vectorReady s h pl ∧ affords s h pl.cls (vTerm h.w pl.ops pl.acc 0) :=
  ⟨demoMm 0x100002000000000c00066, 0, 0, demoMmHead 0x100002000000000c00066,
  (((vcompPlan (demoMm 0x100002000000000c00066) (demoMmHead 0x100002000000000c00066)).toOption).getD ⟨[], [], [], 0⟩),
    by and_intros <;> decide +kernel⟩

theorem witness_VectorCommandsComplete_8 : ∃ (s : State) (core n : Nat) (h : Head) (pl : VPlan), heads s core n 0x67 h
  ∧ vdecompPlan s h = .ok pl ∧ vectorReady s h pl ∧ affords s h pl.cls (vTerm h.w pl.ops pl.acc 0) :=
  ⟨demoMm 0x80000000000067, 0, 0, demoMmHead 0x80000000000067,
  (((vdecompPlan (demoMm 0x80000000000067) (demoMmHead 0x80000000000067)).toOption).getD ⟨[], [], [], 0⟩),
    by and_intros <;> decide +kernel⟩

theorem witness_VectorCommandsComplete_9 : ∃ (s : State) (core n : Nat) (h : Head) (pl : VPlan), heads s core n 0x68 h
  ∧ vrandPlan s h = .ok pl ∧ vectorReady s h pl ∧ affords s h pl.cls (vTerm h.w pl.ops pl.acc 0) :=
  ⟨demoMm 0x800000c00068, 0, 0, demoMmHead 0x800000c00068,
  (((vrandPlan (demoMm 0x800000c00068) (demoMmHead 0x800000c00068)).toOption).getD ⟨[], [], [], 0⟩),
    by and_intros <;> decide +kernel⟩

theorem witness_VectorCommandsComplete_10 : ∃ (s : State) (core n : Nat) (h : Head) (pl : VPlan), heads s core n 0x69 h
  ∧ vconvPlan s h = .ok pl ∧ vectorReady s h pl ∧ affords s h pl.cls (vTerm h.w pl.ops pl.acc 0) :=
  ⟨demoMm 0xc000000008000000069, 0, 0, demoMmHead 0xc000000008000000069,
  (((vconvPlan (demoMm 0xc000000008000000069) (demoMmHead 0xc000000008000000069)).toOption).getD ⟨[], [], [], 0⟩),
    by and_intros <;> decide +kernel⟩

theorem witness_VectorCommandsComplete_11 : ∃ (s : State) (core n : Nat) (h : Head) (pl : VPlan), heads s core n 0x6a h
  ∧ vdigPlan s h = .ok pl ∧ vectorReady s h pl ∧ affords s h pl.cls (vTerm h.w pl.ops pl.acc 0) :=
  ⟨demoMm 0x200000000010006a, 0, 0, demoMmHead 0x200000000010006a,
  (((vdigPlan (demoMm 0x200000000010006a) (demoMmHead 0x200000000010006a)).toOption).getD ⟨[], [], [], 0⟩),
    by and_intros <;> decide +kernel⟩

theorem witness_VectorEventsComplete_1 : ∃ (s : State) (core : Nat) (r : VecRun), core < 2048 ∧ (s.core core).vec = some r
  ∧ s.covers (clusterOf core) (classRate (vRunClass (((s.core core).ctx? r.lctx).getD {}) r.cmd)) (vTerm r.cmd r.ops r.acc r.seg) = true
  ∧ s.halts = false :=
  ⟨demoVec, 0, demoVecRun, by decide⟩

theorem witness_VectorEventsComplete_2 : ∃ (s : State) (core : Nat), core < 2048 ∧ s.halts = false :=
  ⟨demoVec, 0, by decide⟩

theorem witness_VectorEventsComplete_3 : ∃ (s : State) (core : Nat) (r : VecRun), core < 2048 ∧ (s.core core).vec = some r
  ∧ ((s.core core).ctx? r.lctx).any (fun c => c.st == .swapOut) = true ∧ s.halts = false :=
  ⟨demoVecOut, 0, demoVecRun, by decide⟩

theorem witness_VectorEventsComplete_4 : ∃ (s : State) (core n : Nat) (r : VecRun), core < 2048 ∧ n < 8 ∧ (s.slot core n).vsusp = some r
  ∧ (s.core core).vec = none ∧ ((s.slot core n).st == .ready || (s.slot core n).st == .blocked) = true ∧ s.halts = false :=
  ⟨demoVecIn, 0, 0, demoVecRun, by decide⟩

theorem witness_BanksSleepAndWake_1 : ∃ (s : State) (core b : Nat), core < 2048 ∧ b < 6 ∧ ((s.core core).bank b).st = .on
  ∧ (s.core core).bankBusy core b = false ∧ (s.cluster (clusterOf core)).retidle ≠ 0 ∧ s.halts = false :=
  ⟨demoRun, 0, 5, by decide⟩

theorem witness_BanksSleepAndWake_2 : ∃ (s : State) (core b : Nat), core < 2048 ∧ b < 6 ∧ ((s.core core).bank b).st = .toRet
  ∧ (s.core core).bankBusy core b = false ∧ s.halts = false :=
  ⟨demoBank .toRet, 0, 0, by decide⟩

theorem witness_BanksSleepAndWake_3 : ∃ (s : State) (core b : Nat), core < 2048 ∧ b < 6 ∧ ((s.core core).bank b).st = .toOff
  ∧ (s.core core).bankBusy core b = false ∧ s.halts = false :=
  ⟨demoBank .toOff, 0, 0, by decide⟩

theorem witness_BanksSleepAndWake_4 : ∃ (s : State) (core b : Nat), core < 2048 ∧ b < 6 ∧ ((s.core core).bank b).st = .wake
  ∧ s.halts = false :=
  ⟨demoBank .wake, 0, 0, by decide⟩

theorem witness_BanksSleepAndWake_5 : ∃ (s : State) (core b : Nat) (m : RemMsg), core < 2048 ∧ b < 6 ∧ ((s.core core).bank b).st = .on
  ∧ ((s.canTake core).find? fun m => s.bankFor m == some b) = some m ∧ s.clusterRuns (clusterOf core) = true
  ∧ (((s.core core).bank b).guestAt.any fun t => (s.core core).clk < t + 25 * 64) = false :=
  ⟨demoRemote, 0, 0, demoRemoteMsg, by and_intros <;> decide +kernel⟩

theorem witness_BanksSleepAndWake_6 : ∃ (s : State) (core b : Nat), core < 2048 ∧ b < 6 ∧ ((s.core core).bank b).st = .on
  ∧ ((s.canTake core).find? fun m => s.bankFor m == some b) = none ∧ s.clusterRuns (clusterOf core) = true
  ∧ (((s.core core).bank b).guestAt.any fun t => (s.core core).clk < t + 25 * 64) = false :=
  ⟨demoRun, 0, 5, by decide⟩

theorem witness_RemoteAccessesComplete_1 : ∃ (s t : State) (core st : Nat) (m : RemMsg) (q : List RemMsg) (v : W64) (bad : Bool),
  core < 2048 ∧ s.canTake core = m :: q ∧ ((s.mapCore core
  fun k => { k with arriving := k.arriving.erase m }).remArrive core m).remDo core m = .answer st v bad t ∧ s.alive m = true
  ∧ s.halts = false :=
  ⟨demoRemote, (demoRemote.mapCore 0 fun k => { k with arriving := [] }).remArrive 0 demoRemoteMsg, 0, stOk, demoRemoteMsg, [], 0, false,
    by and_intros <;> decide +kernel⟩

theorem witness_RemoteAccessesComplete_2 : ∃ (s : State) (core : Nat) (m : RemMsg) (q : List RemMsg), core < 2048
  ∧ s.canTake core = m :: q ∧ s.alive m = false ∧ s.halts = false :=
  ⟨{ demoRun with cores := [(0, { arriving := [demoRemoteMsg] })] }, 0, demoRemoteMsg, [], by and_intros <;> decide +kernel⟩

theorem witness_RemoteAccessesComplete_3 : ∃ (s : State) (core b : Nat) (m : RemMsg) (q : List RemMsg), core < 2048
  ∧ s.canTake core = m :: q ∧ ((s.mapCore core fun k => { k with arriving := k.arriving.erase m }).remArrive core m).remDo core m = .held
  b ∧ s.alive m = true ∧ s.halts = false :=
  ⟨demoRemoteSleep, 0, 0, demoRemoteMsg, [], by and_intros <;> decide +kernel⟩

theorem witness_RemoteAccessesComplete_4 : ∃ (s : State) (core : Nat) (m : RemMsg) (q : List RemMsg) (v : W64), core < 2048
  ∧ (s.core core).answers = m :: q ∧ m.isRead = true ∧ ((s.core core).pend.any fun p => p.id == m.id) = true ∧ m.answer = some (stOk, v)
  ∧ s.halts = false :=
  ⟨demoAnswer 0, 0, demoAnswerMsg 0, [], 7, by and_intros <;> decide +kernel⟩

theorem witness_RemoteAccessesComplete_5 : ∃ (s : State) (core : Nat) (m : RemMsg) (q : List RemMsg) (v : W64), core < 2048
  ∧ (s.core core).answers = m :: q ∧ m.isRead = false ∧ ((s.core core).pend.any fun p => p.id == m.id) = true ∧ m.answer = some (stOk, v)
  ∧ s.halts = false :=
  ⟨demoStored stOk, 0, demoStoredMsg stOk, [], 7, by and_intros <;> decide +kernel⟩

theorem witness_RemoteAccessesComplete_6 : ∃ (s : State) (core st : Nat) (m : RemMsg) (q : List RemMsg) (v : W64), core < 2048
  ∧ (s.core core).answers = m :: q ∧ ((s.core core).pend.any fun p => p.id == m.id) = true ∧ m.answer = some (st, v) ∧ st ≠ stOk
  ∧ s.halts = false :=
  ⟨demoAnswer stDenied, 0, stDenied, demoAnswerMsg stDenied, [], 7, by and_intros <;> decide +kernel⟩

theorem witness_RemoteAccessesComplete_7 : ∃ (s : State) (core : Nat) (m : RemMsg) (q : List RemMsg), core < 2048
  ∧ (s.core core).answers = m :: q ∧ ((s.core core).pend.any fun p => p.id == m.id) = false ∧ s.halts = false :=
  ⟨{ demoRun with cores := [(0, { answers := [demoAnswerMsg stOk] })] }, 0, demoAnswerMsg stOk, [],
    by and_intros <;> decide +kernel⟩

theorem witness_RemoteAccessesComplete_8 : ∃ (s : State) (core lctx mask : Nat) (m : RemMsg), core < 2048
  ∧ s.firstSignal (s.core core).arriving [] = some m ∧ m.op = .signal lctx mask ∧ (m.svc = true ∨ ((s.partOf core).isSome = true
  ∧ s.partOf core = s.partOf m.src)) ∧ (s.core core).fenced = false ∧ (s.core core).sigFull lctx = false ∧ s.halts = false :=
  ⟨demoSignal, 0, 0, 1, demoSignalMsg, by decide⟩

theorem witness_RemoteAccessesComplete_9 : ∃ (s : State) (core lctx mask : Nat) (m : RemMsg), core < 2048
  ∧ s.firstSignal (s.core core).arriving [] = some m ∧ m.op = .signal lctx mask ∧ m.svc = false ∧ s.partOf core ≠ s.partOf m.src
  ∧ ((s.core m.src).pend.any fun p => p.id == m.id) = true ∧ s.halts = false :=
  ⟨demoSignalFar [⟨0, 0, .remote, 0xF⟩], 0, 0, 1, { demoSignalMsg with src := 4 }, by decide⟩

theorem witness_RemoteAccessesComplete_10 : ∃ (s : State) (core lctx mask : Nat) (m : RemMsg), core < 2048
  ∧ s.firstSignal (s.core core).arriving [] = some m ∧ m.op = .signal lctx mask ∧ m.svc = false ∧ s.partOf core ≠ s.partOf m.src
  ∧ ((s.core m.src).pend.any fun p => p.id == m.id) = false ∧ s.halts = false :=
  ⟨demoSignalFar [], 0, 0, 1, { demoSignalMsg with src := 4 }, by decide⟩

theorem witness_StreamCommandsComplete_1 : ∃ (s : State) (core n off : Nat) (h : Head) (d : BitVec 512), heads s core n 0x25 h
  ∧ ((s.core core).stSlot (cf h.w 23 20)).isOf h.ctx.lctx = true ∧ (h.ctx.pair (cf h.w 25 24)).isLocal core = true
  ∧ cf h.w 41 26 * 16 + 64 ≤ (h.ctx.pair (cf h.w 25 24)).lim * 16
  ∧ off = ((h.ctx.pair (cf h.w 25 24)).addr - scratchBase) % 2 ^ 20 + cf h.w 41 26 * 16 ∧ (s.core core).bankIsOff off 64 = false
  ∧ (s.core core).bankIsOn off 64 = true ∧ d = BitVec.ofNat 512 (leNat (s.rds (scrPa core off) 64))
  ∧ descOk d ((h.ctx.pair (dNpair d)).mode == 1) = true ∧ affords s h 0 1 ∧ ((s.core core).stSlot (cf h.w 23 20)).queue = [] :=
  ⟨demoArm (fun x => x), 0, 0, 0, demoMmHead 0x3c0000000025, demoDesc, by and_intros <;> decide +kernel⟩

theorem witness_StreamCommandsComplete_2 : ∃ (s : State) (core n off : Nat) (h : Head) (d : BitVec 512), heads s core n 0x25 h
  ∧ ((s.core core).stSlot (cf h.w 23 20)).isOf h.ctx.lctx = true ∧ (h.ctx.pair (cf h.w 25 24)).isLocal core = true
  ∧ cf h.w 41 26 * 16 + 64 ≤ (h.ctx.pair (cf h.w 25 24)).lim * 16
  ∧ off = ((h.ctx.pair (cf h.w 25 24)).addr - scratchBase) % 2 ^ 20 + cf h.w 41 26 * 16 ∧ (s.core core).bankIsOff off 64 = false
  ∧ (s.core core).bankIsOn off 64 = true ∧ d = BitVec.ofNat 512 (leNat (s.rds (scrPa core off) 64))
  ∧ descOk d ((h.ctx.pair (dNpair d)).mode == 1) = true ∧ affords s h 0 1 ∧ ((s.core core).stSlot (cf h.w 23 20)).queue.isEmpty = false
  ∧ ((s.core core).stSlot (cf h.w 23 20)).shadow.isNone = true :=
  ⟨demoArm fun x => { x with st := .active, queue := [demoXfer .streamIn 0] }, 0, 0, 0, demoMmHead 0x3c0000000025, demoDesc,
    by and_intros <;> decide +kernel⟩

theorem witness_StreamCommandsComplete_3 : ∃ (s : State) (core n off : Nat) (h : Head) (d : BitVec 512), heads s core n 0x25 h
  ∧ ((s.core core).stSlot (cf h.w 23 20)).isOf h.ctx.lctx = true ∧ (h.ctx.pair (cf h.w 25 24)).isLocal core = true
  ∧ cf h.w 41 26 * 16 + 64 ≤ (h.ctx.pair (cf h.w 25 24)).lim * 16
  ∧ off = ((h.ctx.pair (cf h.w 25 24)).addr - scratchBase) % 2 ^ 20 + cf h.w 41 26 * 16 ∧ (s.core core).bankIsOff off 64 = false
  ∧ (s.core core).bankIsOn off 64 = true ∧ d = BitVec.ofNat 512 (leNat (s.rds (scrPa core off) 64))
  ∧ descOk d ((h.ctx.pair (dNpair d)).mode == 1) = true ∧ affords s h 0 1 ∧ ((s.core core).stSlot (cf h.w 23 20)).queue.isEmpty = false
  ∧ ((s.core core).stSlot (cf h.w 23 20)).shadow.isNone = false :=
  ⟨demoArm fun x => { x with st := .active, queue := [demoXfer .streamIn 0], shadow := some demoDesc }, 0, 0, 0,
  demoMmHead 0x3c0000000025, demoDesc,
    by and_intros <;> decide +kernel⟩

theorem witness_StreamCommandsComplete_4 : ∃ (s : State) (core n : Nat) (h : Head) (near : Near), heads s core n 0x20 h
  ∧ ((s.core core).stSlot (cf h.w 23 20)).isOf h.ctx.lctx = true ∧ ((s.core core).stSlot (cf h.w 23 20)).st ≠ .empty
  ∧ nearPlan s core h.ctx ((s.core core).stSlot (cf h.w 23 20)).nextDesc.1 ((s.core core).stSlot (cf h.w 23 20)).nextDesc.2.2.2 false
  false = .ok near ∧ near.isOff (s.core core) = false ∧ near.isOn (s.core core) = true
  ∧ ((s.core core).stSlot (cf h.w 23 20)).queue.length < 4 ∧ s.farHeld core = false ∧ affords s h 0 1 :=
  ⟨demoStream 0x20, 0, 0, demoMmHead 0x20, ⟨scrPa 0 0, none, some (0, nearExt demoDesc false)⟩,
    by and_intros <;> decide +kernel⟩

theorem witness_StreamCommandsComplete_5 : ∃ (s : State) (core n : Nat) (h : Head) (near : Near), heads s core n 0x21 h
  ∧ ((s.core core).stSlot (cf h.w 23 20)).isOf h.ctx.lctx = true ∧ ((s.core core).stSlot (cf h.w 23 20)).st ≠ .empty
  ∧ nearPlan s core h.ctx ((s.core core).stSlot (cf h.w 23 20)).nextDesc.1 ((s.core core).stSlot (cf h.w 23 20)).nextDesc.2.2.2 false
  true = .ok near ∧ near.isOff (s.core core) = false ∧ near.isOn (s.core core) = true
  ∧ ((s.core core).stSlot (cf h.w 23 20)).queue.length < 4 ∧ s.farHeld core = false ∧ affords s h 0 1 :=
  ⟨demoStream 0x21, 0, 0, demoMmHead 0x21, ⟨scrPa 0 0, none, some (0, nearExt demoDesc false)⟩,
    by and_intros <;> decide +kernel⟩

theorem witness_StreamCommandsComplete_6 : ∃ (s : State) (core n : Nat) (h : Head) (near : Near), heads s core n 0x26 h
  ∧ ((s.core core).stSlot (cf h.w 23 20)).isOf h.ctx.lctx = true ∧ ((s.core core).stSlot (cf h.w 23 20)).st ≠ .empty
  ∧ nearPlan s core h.ctx ((s.core core).stSlot (cf h.w 23 20)).nextDesc.1 ((s.core core).stSlot (cf h.w 23 20)).nextDesc.2.2.2 true
  false = .ok near ∧ near.isOff (s.core core) = false ∧ near.isOn (s.core core) = true
  ∧ ((s.core core).stSlot (cf h.w 23 20)).queue.length < 4 ∧ s.farHeld core = false ∧ affords s h 0 1 :=
  ⟨demoStream 0x26 fun x => { x with desc := demoDesc + 2 ^ 323 }, 0, 0, demoMmHead 0x26, ⟨scrPa 0 0, none, some (0,
  nearExt (demoDesc + 2 ^ 323) true)⟩,
    by and_intros <;> decide +kernel⟩

theorem witness_StreamCommandsComplete_7 : ∃ (s : State) (core n : Nat) (h : Head), heads s core n 0x24 h
  ∧ ((s.core core).stSlot (cf h.w 23 20)).isOf h.ctx.lctx = true ∧ ((s.core core).stSlot (cf h.w 23 20)).st ≠ .empty
  ∧ ((s.core core).stSlot (cf h.w 23 20)).queue = [] ∧ cb h.w 26 = false
  ∧ cf h.w 25 24 ≠ dNpair ((s.core core).stSlot (cf h.w 23 20)).desc ∧ dHalves ((s.core core).stSlot (cf h.w 23 20)).desc = true
  ∧ nearExt ((s.core core).stSlot (cf h.w 23 20)).desc false ≤ dHsize ((s.core core).stSlot (cf h.w 23 20)).desc ∧ affords s h 0 1 :=
  ⟨demoStream 0x1000024 fun x => { x with desc := demoHalvesDesc }, 0, 0, demoMmHead 0x1000024,
    by and_intros <;> decide +kernel⟩

theorem witness_StreamCommandsComplete_8 : ∃ (s : State) (core n : Nat) (h : Head), heads s core n 0x24 h
  ∧ ((s.core core).stSlot (cf h.w 23 20)).isOf h.ctx.lctx = true ∧ ((s.core core).stSlot (cf h.w 23 20)).st ≠ .empty
  ∧ ((s.core core).stSlot (cf h.w 23 20)).queue = [] ∧ cb h.w 26 = true ∧ (s.core core).pairBusy h.ctx.lctx (cf h.w 25 24) = false
  ∧ cf h.w 25 24 ≠ dNpair ((s.core core).stSlot (cf h.w 23 20)).desc ∧ dHalves ((s.core core).stSlot (cf h.w 23 20)).desc = true
  ∧ nearExt ((s.core core).stSlot (cf h.w 23 20)).desc false ≤ dHsize ((s.core core).stSlot (cf h.w 23 20)).desc ∧ affords s h 0 1 :=
  ⟨demoStream 0x7000024 fun x => { x with desc := demoHalvesDesc }, 0, 0, demoMmHead 0x7000024,
    by and_intros <;> decide +kernel⟩

theorem witness_StreamCommandsComplete_9 : ∃ (s : State) (core n ts os td od : Nat) (h : Head), heads s core n 0x23 h
  ∧ copySide s core h.ctx (cf h.w 21 20) (cf h.w 37 22) ((cf h.w 71 56 + 1) * 16) = .ok (ts, os)
  ∧ copySide s core h.ctx (cf h.w 39 38) (cf h.w 55 40) ((cf h.w 71 56 + 1) * 16) = .ok (td, od) ∧ s.farHeld core = false
  ∧ (ts = core ∨ (s.core core).outR < 64) ∧ (td = core ∨ (s.core core).writesFull = false)
  ∧ s.copyMeets core n ts os td od ((cf h.w 71 56 + 1) * 16) = (none, false) ∧ affords s h 0 1 :=
  ⟨demoMm 0x10000000023, 0, 0, 0, 0, 0, 16, demoMmHead 0x10000000023, by and_intros <;> decide +kernel⟩

theorem witness_StreamCommandsComplete_10 : ∃ (s : State) (core n ts os td od i t st : Nat) (h : Head), heads s core n 0x23 h
  ∧ copySide s core h.ctx (cf h.w 21 20) (cf h.w 37 22) ((cf h.w 71 56 + 1) * 16) = .ok (ts, os)
  ∧ copySide s core h.ctx (cf h.w 39 38) (cf h.w 55 40) ((cf h.w 71 56 + 1) * 16) = .ok (td, od) ∧ s.farHeld core = false
  ∧ (ts = core ∨ (s.core core).outR < 64) ∧ (td = core ∨ (s.core core).writesFull = false)
  ∧ s.copyMeets core n ts os td od ((cf h.w 71 56 + 1) * 16) = (some (i, t, st), false) ∧ affords s h 0 1 :=
  ⟨demoFar 0x10000000023, 0, 0, 1, 0, 1, 16, 0, 1, stBankOff, { demoMmHead 0x10000000023 with ctx := demoFarCtx 0x10000000023 },
    by and_intros <;> decide +kernel⟩

theorem witness_StreamEventsComplete_1 : ∃ (s : State) (core n : Nat) (x : Xfer) (q : List Xfer), core < 2048 ∧ n < 16
  ∧ ((s.core core).stSlot n).queue = x :: q ∧ ((s.core core).stSlot n).st = .active ∧ (s.core core).fenced = false
  ∧ s.farHeld core = false ∧ s.nearWaits core x = false ∧ (s.runXfer core n x).1 = .complete ∧ x.kind ≠ .chainHead :=
  ⟨demoMoving .streamIn 0, 0, 0, demoXfer .streamIn 0, [], by and_intros <;> decide +kernel⟩

theorem witness_StreamEventsComplete_2 : ∃ (s : State) (core n va : Nat) (x : Xfer) (q : List Xfer) (u : XUnit) (er : TransFail),
  core < 2048 ∧ n < 16 ∧ ((s.core core).stSlot n).queue = x :: q ∧ ((s.core core).stSlot n).st = .active ∧ (s.core core).fenced = false
  ∧ s.farHeld core = false ∧ s.nearWaits core x = false ∧ (s.runXfer core n x).1 = .suspend u va er :=
  ⟨demoStall, 0, 0, 0x200000, demoXfer .streamIn 0x200000, [], xUnit demoDesc false 0x200000 0 0, .notPresent,
    by and_intros <;> decide +kernel⟩

theorem witness_StreamEventsComplete_3 : ∃ (s : State) (core n st : Nat) (x : Xfer) (q : List Xfer), core < 2048 ∧ n < 16
  ∧ ((s.core core).stSlot n).queue = x :: q ∧ ((s.core core).stSlot n).st = .active ∧ (s.core core).fenced = false
  ∧ s.farHeld core = false ∧ s.nearWaits core x = false ∧ (s.runXfer core n x).1 = .fail st :=
  ⟨(demoMoving .streamIn 0).setCore 0 { (demoMoving .streamIn 0).core 0 with banks := [(0, { st := .off })] }, 0, 0, stBankOff,
  demoXfer .streamIn 0, [],
    by and_intros <;> decide +kernel⟩

theorem witness_StreamEventsComplete_4 : ∃ (s : State) (core n : Nat) (x : PfCand), core < 2048 ∧ n < 8
  ∧ ((s.slot core n).st == .ready || (s.slot core n).st == .blocked) = true ∧ (s.core core).fenced = false ∧ s.farHeld core = false
  ∧ ((pfCands (s.core core) (s.slot core n)).find?
  fun y => !(s.core core).gaveUp (s.slot core n).lctx y && !((s.core core).pfWant (s.slot core n).lctx y).isEmpty) = some x :=
  ⟨demoStream 0x20, 0, 0, ⟨0, 0, 0, 0, false⟩, by and_intros <;> decide +kernel⟩

theorem witness_ChainCommandsComplete_1 : ∃ (s : State) (core n off : Nat) (h : Head), heads s core n 0x22 h ∧ chRole h.w = 0
  ∧ cb h.w 56 = true ∧ cf h.w 55 52 = 0 ∧ (s.core core).chainEn = true ∧ chainOff s core h.ctx h.w = .ok off
  ∧ (s.core core).bankIsOn off (chLen h.w) = true ∧ (s.core core).chain = none ∧ affords s h 0 1 :=
  ⟨demoChain 0x100001000000022, 0, 0, 0x10000, demoMmHead 0x100001000000022, by and_intros <;> decide +kernel⟩

theorem witness_ChainCommandsComplete_2 : ∃ (s : State) (core n off : Nat) (h : Head), heads s core n 0x22 h ∧ chRole h.w = 0
  ∧ cb h.w 56 = false ∧ ((s.core core).stSlot (cf h.w 55 52)).isOf h.ctx.lctx = true ∧ ((s.core core).stSlot (cf h.w 55 52)).st ≠ .empty
  ∧ (s.core core).chainEn = true ∧ nearExt ((s.core core).stSlot (cf h.w 55 52)).nextDesc.1 false = chLen h.w
  ∧ chainOff s core h.ctx h.w = .ok off ∧ (s.core core).bankIsOn off (chLen h.w) = true ∧ (s.core core).chain = none
  ∧ ((s.core core).stSlot (cf h.w 55 52)).queue.length < 4 ∧ s.farHeld core = false ∧ affords s h 0 1 :=
  ⟨demoChainSlot 0x1000000022, 0, 0, 0x10000, demoMmHead 0x1000000022, by and_intros <;> decide +kernel⟩

theorem witness_ChainCommandsComplete_3 : ∃ (s : State) (core n off : Nat) (h : Head), heads s core n 0x22 h ∧ (chRole h.w = 1
  ∧ (s.core core).chainEn = true ∨ chRole h.w = 2) ∧ cb h.w 56 = false ∧ cf h.w 55 52 = 0 ∧ chainOff s core h.ctx h.w = .ok off
  ∧ (s.core core).bankIsOn off (chLen h.w) = true ∧ (s.core core).chain = none ∧ (s.core core).chainRx = h.ctx.lctx ∧ affords s h 0 1 :=
  ⟨demoChain 0x1000200022, 0, 0, 0x10000, demoMmHead 0x1000200022, by and_intros <;> decide +kernel⟩

theorem witness_ChainCommandsComplete_4 : ∃ (s : State) (core : Nat) (m : Nat × ChainMsg) (q : List (Nat × ChainMsg)), core < 2048
  ∧ (s.core core).chainIn = m :: q ∧ (s.core core).chain = none ∧ (s.core core).chainBuf.length < 32
  ∧ ((s.core core).chainBuf.isEmpty && (match m.2 with | .line _ _ => true | _ => false)) = false
  ∧ ((s.setCore core { s.core core with chainIn := q }).mapCore core
  fun k => { k with chainBuf := k.chainBuf ++ [m] }).upstream core = none ∧ s.halts = false :=
  ⟨demoChainIn none [.hdr 0 16, .line [] []], 0, (1, .hdr 0 16), [(1, .line [] [])], by decide⟩

theorem witness_ChainCommandsComplete_5 : ∃ (s : State) (core : Nat) (m : Nat × ChainMsg) (q : List (Nat × ChainMsg)), core < 2048
  ∧ (s.core core).chainIn = m :: q ∧ (s.core core).chain = none ∧ (s.core core).chainBuf = []
  ∧ (match m.2 with | .line _ _ => true | _ => false) = true ∧ (s.setCore core { s.core core with chainIn := q }).upstream core = none
  ∧ s.halts = false :=
  ⟨demoChainIn none [.line [] [], .line [] []], 0, (1, .line [] []), [(1, .line [] [])], by decide⟩

theorem witness_ChainCommandsComplete_6 : ∃ (s : State) (core : Nat) (c : ChainRun) (m : Nat × ChainMsg) (q : List (Nat × ChainMsg)),
  core < 2048 ∧ (s.core core).chainIn = m :: q ∧ (s.core core).chain = some c ∧ chRole c.cmd ≠ 0
  ∧ ((s.setCore core { s.core core with chainIn := q }).chainFeed core c m.2).upstream core = none ∧ s.halts = false :=
  ⟨demoChainIn (some ⟨0, 0, 0, 0x200022, 0x10000, false, 0⟩) [.hdr 0 16, .line [] []], 0, ⟨0, 0, 0, 0x200022, 0x10000, false, 0⟩, (1,
  .hdr 0 16), [(1, .line [] [])],
    by and_intros <;> decide +kernel⟩

theorem witness_ChainCommandsComplete_7 : ∃ (s : State) (core v : Nat) (c d : ChainRun) (m : Nat × ChainMsg) (q : List (Nat × ChainMsg)),
  core < 2048 ∧ (s.core core).chainIn = m :: q ∧ (s.core core).chain = some c ∧ chRole c.cmd ≠ 0
  ∧ ((s.setCore core { s.core core with chainIn := q }).chainFeed core c m.2).upstream core = some v
  ∧ (((s.setCore core { s.core core with chainIn := q }).chainFeed core c m.2).core v).chain = some d ∧ s.halts = false :=
  ⟨demoChainIn (some ⟨1, 0, 0, 0x200022, 0x10000, true, 0⟩) [.line (List.replicate 16 0) []], 0, 1, ⟨1, 0, 0, 0x200022, 0x10000, true,
  0⟩, ⟨0, 0, 0, 0x22, 0x10000, true, 0⟩, (1, .line (List.replicate 16 0) []), [],
    by and_intros <;> decide +kernel⟩

theorem witness_ChainCommandsComplete_8 : ∃ (s : State) (core v : Nat) (d : ChainRun) (m : Nat × ChainMsg) (q : List (Nat × ChainMsg)),
  core < 2048 ∧ (s.core core).chainIn = m :: q ∧ (s.core core).chain.filter (fun c => chRole c.cmd != 0) = none
  ∧ ((s.core core).chainBuf.isEmpty && (match m.2 with | .line _ _ => true | _ => false)) = false ∧ (s.core core).chainBuf.length < 32
  ∧ ((s.setCore core { s.core core with chainIn := q }).mapCore core
  fun k => { k with chainBuf := k.chainBuf ++ [m] }).upstream core = some v
  ∧ (((s.setCore core { s.core core with chainIn := q }).mapCore core
  fun k => { k with chainBuf := k.chainBuf ++ [m] }).core v).chain = some d ∧ s.halts = false :=
  ⟨demoChainIn (some ⟨1, 0, 0, 0x22, 0x10000, true, 1⟩) [.hdr 0 16], 0, 1, ⟨0, 0, 0, 0x22, 0x10000, true, 0⟩, (1, .hdr 0 16), [],
    by and_intros <;> decide +kernel⟩

theorem witness_CheckpointCommandsComplete_1 : ∃ (s : State) (core n off : Nat) (h : Head), heads s core n 0x80 h
  ∧ pushCheck (s.core core) core h = .ok off ∧ (s.core core).bankIsOn off (pushData h.w) = true
  ∧ (s.core core).bankIsOn (s.core core).larder.region.1 (s.core core).larder.region.2 = true
  ∧ (cb h.w 20 = false ∨ (s.core core).vecOf h.ctx = false) ∧ (s.core core).larder.canTake (pushLen h.w / 128) = true
  ∧ pushLen h.w / 128 ≤ ((s.core core).larder.makeRoom (pushLen h.w / 128) (s.farHeld core)).freeLines
  ∧ affords s h 0 (14 + pushLen h.w / 128 + cellarT off)
  ∧ (issued s h 0 (14 + pushLen h.w / 128 + cellarT off)).anyPoison (scrPa core off) (pushData h.w) = false :=
  ⟨demoLarder 0x80 [], 0, 0, 0, demoMmHead 0x80, by and_intros <;> decide +kernel⟩

theorem witness_CheckpointCommandsComplete_2 : ∃ (s : State) (core n off : Nat) (h : Head), heads s core n 0x80 h
  ∧ pushCheck (s.core core) core h = .ok off ∧ (s.core core).bankIsOn off (pushData h.w) = true
  ∧ (s.core core).bankIsOn (s.core core).larder.region.1 (s.core core).larder.region.2 = true
  ∧ (cb h.w 20 = false ∨ (s.core core).vecOf h.ctx = false) ∧ (s.core core).larder.canTake (pushLen h.w / 128) = true
  ∧ pushLen h.w / 128 ≤ ((s.core core).larder.makeRoom (pushLen h.w / 128) (s.farHeld core)).freeLines
  ∧ affords s h 0 (14 + pushLen h.w / 128 + cellarT off)
  ∧ (issued s h 0 (14 + pushLen h.w / 128 + cellarT off)).anyPoison (scrPa core off) (pushData h.w) = true :=
  ⟨{ demoLarder 0x80 [] with poison := [scrPa 0 0 / 64] }, 0, 0, 0, demoMmHead 0x80, by and_intros <;> decide +kernel⟩

theorem witness_CheckpointCommandsComplete_3 : ∃ (s : State) (core n : Nat) (h : Head) (r : Rec) (t : List Rec), heads s core n 0x81 h
  ∧ popCheck (s.core core) core h = .ok () ∧ (s.core core).larder.recs = r :: t ∧ cb h.w 21 = true ∧ r.st ≠ .spilling
  ∧ r.block = cf h.w 55 40 ∧ r.step = cf h.w 87 56 ∧ affords s h 0 4 :=
  ⟨demoLarder 0x200081 [demoRec .spilled], 0, 0, demoMmHead 0x200081, demoRec .spilled, [],
    by and_intros <;> decide +kernel⟩

theorem witness_CheckpointCommandsComplete_4 : ∃ (s : State) (core n off : Nat) (h : Head) (r : Rec) (t : List Rec),
  heads s core n 0x81 h ∧ popCheck (s.core core) core h = .ok () ∧ (s.core core).larder.recs = r :: t ∧ cb h.w 21 = false
  ∧ r.st = .onChip ∧ r.block = cf h.w 55 40 ∧ r.step = cf h.w 87 56 ∧ (cb h.w 20 = true → r.pep = true
  ∧ (s.core core).vecOf h.ctx = false) ∧ ckOff (s.core core) core h.ctx (cf h.w 23 22) (cf h.w 39 24) r.dlen = .ok off
  ∧ (s.core core).bankIsOn off r.dlen = true ∧ (s.core core).bankIsOn (s.core core).larder.region.1 (s.core core).larder.region.2 = true
  ∧ affords s h 0 (14 + r.lines + cellarT off) :=
  ⟨demoLarder 0x10100081 [{ demoRec .onChip with pep := true }], 0, 0, 256, demoMmHead 0x10100081, { demoRec .onChip with pep := true },
  [],
    by and_intros <;> decide +kernel⟩

theorem witness_CheckpointCommandsComplete_5 : ∃ (s : State) (core n : Nat) (h : Head) (r : Rec) (t : List Rec), heads s core n 0x81 h
  ∧ popCheck (s.core core) core h = .ok () ∧ (s.core core).larder.recs = r :: t ∧ ((r.st = .failed ∧ cb h.w 21 = false) ∨ (r.st = .onChip
  ∧ (r.block ≠ cf h.w 55 40 ∨ r.step ≠ cf h.w 87 56))) :=
  ⟨demoLarder 0x10000081 [demoRec .failed], 0, 0, demoMmHead 0x10000081, demoRec .failed, [],
    by and_intros <;> decide +kernel⟩

theorem witness_CheckpointCommandsComplete_6 : ∃ (s : State) (core n off : Nat) (h : Head) (r : Rec), heads s core n 0x82 h
  ∧ peekCheck (s.core core) core h = .ok () ∧ (s.core core).larder.recs[cf h.w 41 38]? = some r ∧ r.st = .onChip
  ∧ (cb h.w 43 = true → r.pep = true ∧ (s.core core).vecOf h.ctx = false)
  ∧ ckOff (s.core core) core h.ctx (cf h.w 21 20) (cf h.w 37 22) (if cb h.w 42 then 32 else r.dlen) = .ok off
  ∧ (s.core core).bankIsOn off (if cb h.w 42 then 32 else r.dlen) = true
  ∧ (s.core core).bankIsOn (s.core core).larder.region.1 (s.core core).larder.region.2 = true
  ∧ affords s h 0 (14 + cdiv (if cb h.w 42 then 32 else r.dlen) 128 + cellarT off) :=
  ⟨demoLarder 0x80004000082 [{ demoRec .onChip with pep := true }], 0, 0, 256, demoMmHead 0x80004000082,
  { demoRec .onChip with pep := true },
    by and_intros <;> decide +kernel⟩

theorem witness_CheckpointCommandsComplete_7 : ∃ (s : State) (core n off : Nat) (h : Head) (r : Rec) (img : List Byte) (lines : List
  Bool), heads s core n 0x82 h ∧ peekCheck (s.core core) core h = .ok () ∧ (s.core core).larder.recs[cf h.w 41 38]? = some r
  ∧ (r.st = .spilled ∨ r.st = .fetching) ∧ cb h.w 43 = false
  ∧ ckOff (s.core core) core h.ctx (cf h.w 21 20) (cf h.w 37 22) (if cb h.w 42 then 32 else r.dlen) = .ok off
  ∧ (s.core core).bankIsOn off (if cb h.w 42 then 32 else r.dlen) = true
  ∧ (s.core core).bankIsOn (s.core core).larder.region.1 (s.core core).larder.region.2 = true ∧ s.farHeld core = false
  ∧ s.spillRead core (s.core core).larder r = .ok (img, lines, true)
  ∧ affords s h 0 (max (14 + cdiv (if cb h.w 42 then 32 else r.dlen) 128) (8 + cdiv (if cb h.w 42 then 32
  else r.dlen) 64) + cellarT off) :=
  ⟨((demoLarder 0x4000082 [demoRec .spilled]).spillOut 0 (demoRec .spilled) 0).1, 0, 0, 256, demoMmHead 0x4000082, demoRec .spilled,
  List.replicate 128 0, [false, false],
    by and_intros <;> decide +kernel⟩

theorem witness_CheckpointCommandsComplete_8 : ∃ (s : State) (core n off : Nat) (h : Head) (r : Rec), heads s core n 0x82 h
  ∧ peekCheck (s.core core) core h = .ok () ∧ (s.core core).larder.recs[cf h.w 41 38]? = some r ∧ r.st = .failed
  ∧ ckOff (s.core core) core h.ctx (cf h.w 21 20) (cf h.w 37 22) (if cb h.w 42 then 32 else r.dlen) = .ok off
  ∧ (s.core core).bankIsOn off (if cb h.w 42 then 32 else r.dlen) = true
  ∧ (s.core core).bankIsOn (s.core core).larder.region.1 (s.core core).larder.region.2 = true :=
  ⟨demoLarder 0x4000082 [demoRec .failed], 0, 0, 256, demoMmHead 0x4000082, demoRec .failed,
    by and_intros <;> decide +kernel⟩

theorem witness_CheckpointCommandsComplete_9 : ∃ (s : State) (core n : Nat) (h : Head), heads s core n 0x83 h ∧ aware h.w = false
  ∧ h.ctx.calls.length < 4 ∧ affords s h 0 (h.jumpCycles (targetOf h.w)) :=
  ⟨demoMm 0x83, 0, 0, demoMmHead 0x83, by and_intros <;> decide +kernel⟩

theorem witness_CheckpointCommandsComplete_10 : ∃ (s : State) (core n : Nat) (h : Head), heads s core n 0x84 h ∧ aware h.w = false
  ∧ h.replay = false ∧ affords s h 0 1 :=
  ⟨demoMm 0x84, 0, 0, demoMmHead 0x84, by and_intros <;> decide +kernel⟩

theorem witness_CheckpointCommandsComplete_11 : ∃ (s : State) (core n : Nat) (h : Head) (e : CallEnt) (t : List CallEnt),
  heads s core n 0x84 h ∧ aware h.w = false ∧ h.replay = true ∧ h.ctx.calls = e :: t ∧ e.mark = true
  ∧ affords s h 0 (h.jumpCycles e.ret) :=
  ⟨demoWith 0x84 fun c => { c with replay := true, calls := [⟨⟨0, 3⟩, true⟩] }, 0, 0,
  { demoHeadWith 0x84 (fun c => { c with replay := true, calls := [⟨⟨0, 3⟩, true⟩] }) with replay := true }, ⟨⟨0, 3⟩, true⟩, [],
    by and_intros <;> decide +kernel⟩

theorem witness_LarderMovesItsRecords_1 : ∃ (s : State) (core i : Nat), core < 2048 ∧ (s.core core).larder.oldest = some i
  ∧ (s.core core).larder.en = true ∧ (s.core core).larder.dir = some true ∧ (s.core core).larder.freeLines < (s.core core).larder.lowater
  ∧ 1 < ((s.core core).larder.recs.filter fun r => r.st == .onChip).length ∧ (s.core core).larder.busy = false
  ∧ ((s.core core).larder.recs[i]?).any ((s.core core).larder.fitsSpill ·) = true ∧ s.farHeld core = false :=
  ⟨demoLarder 0 [demoRec .onChip, demoRec .onChip] (some true), 0, 1, by and_intros <;> decide +kernel⟩

theorem witness_LarderMovesItsRecords_2 : ∃ (s t : State) (core i : Nat) (r : Rec), core < 2048
  ∧ (s.core core).larder.inState .spilling = some i ∧ (s.core core).larder.recs[i]? = some r ∧ s.farHeld core = false
  ∧ (s.core core).bankIsOn (s.core core).larder.region.1 (s.core core).larder.region.2 = true
  ∧ s.vok (s.pno core) ((s.core core).larder.spillAddr + r.spill) r.rlen true = true
  ∧ s.spillOut core r ((s.core core).larder.spillAddr + r.spill) = (t, false) :=
  ⟨demoLarder 0 [demoRec .spilling], ((demoLarder 0 [demoRec .spilling]).spillOut 0 (demoRec .spilling) 0).1, 0, 0, demoRec .spilling,
    by and_intros <;> decide +kernel⟩

theorem witness_LarderMovesItsRecords_3 : ∃ (s t : State) (core i : Nat) (r : Rec), core < 2048
  ∧ (s.core core).larder.inState .spilling = some i ∧ (s.core core).larder.recs[i]? = some r ∧ s.farHeld core = false
  ∧ (s.core core).bankIsOn (s.core core).larder.region.1 (s.core core).larder.region.2 = true
  ∧ s.vok (s.pno core) ((s.core core).larder.spillAddr + r.spill) r.rlen true = true
  ∧ s.spillOut core r ((s.core core).larder.spillAddr + r.spill) = (t, true) :=
  ⟨demoHostSpill, (demoHostSpill.spillOut 0 (demoRec .spilling) 0).1, 0, 0, demoRec .spilling,
    by and_intros <;> decide +kernel⟩

theorem witness_LarderMovesItsRecords_4 : ∃ (s : State) (core i : Nat) (r : Rec), core < 2048
  ∧ (s.core core).larder.newestSpilled = some i ∧ (s.core core).larder.recs[i]? = some r ∧ (s.core core).larder.en = true
  ∧ (s.core core).larder.dir = some false ∧ r.st = .spilled ∧ (s.core core).larder.busy = false
  ∧ r.lines ≤ (s.core core).larder.freeLines ∧ s.farHeld core = false :=
  ⟨demoLarder 0 [demoRec .spilled] (some false), 0, 0, demoRec .spilled, by and_intros <;> decide +kernel⟩

theorem witness_LarderMovesItsRecords_5 : ∃ (s : State) (core i : Nat) (r : Rec) (img : List Byte) (bads : List Bool), core < 2048
  ∧ (s.core core).larder.inState .fetching = some i ∧ (s.core core).larder.recs[i]? = some r
  ∧ (s.core core).bankIsOn (s.core core).larder.region.1 (s.core core).larder.region.2 = true
  ∧ s.spillRead core (s.core core).larder r = .ok (img, bads, true) ∧ s.farHeld core = false :=
  ⟨((demoLarder 0 [demoRec .fetching]).spillOut 0 (demoRec .fetching) 0).1, 0, 0, demoRec .fetching, List.replicate 128 0, [false, false],
    by and_intros <;> decide +kernel⟩

theorem witness_LarderMovesItsRecords_6 : ∃ (s : State) (core i : Nat) (r : Rec) (img : List Byte) (bads : List Bool), core < 2048
  ∧ (s.core core).larder.inState .fetching = some i ∧ (s.core core).larder.recs[i]? = some r
  ∧ (s.core core).bankIsOn (s.core core).larder.region.1 (s.core core).larder.region.2 = true
  ∧ s.spillRead core (s.core core).larder r = .ok (img, bads, false) ∧ s.farHeld core = false :=
  ⟨demoLarder 0 [demoRec .fetching], 0, 0, demoRec .fetching, List.replicate 128 0, [false, false],
    by and_intros <;> decide +kernel⟩

theorem witness_MemoryEventsComplete_1 : ∃ (s : State) (die p va : Nat), die < 4 ∧ p < 64 ∧ va < (s.part p).vaLimit ∧ s.halts = false :=
  ⟨demoPaged, 3, 0, 0x1FFFFF, by decide⟩

theorem witness_MemoryEventsComplete_2 : ∃ (s : State) (die p va : Nat), die < 4 ∧ p < 64 ∧ (s.part p).vaLimit ≤ va :=
  ⟨demoPaged, 3, 0, 0x200000, by decide⟩

theorem witness_MemoryEventsComplete_3 : ∃ (s : State) (p va f d fva : Nat) (e : W64), p < 64
  ∧ Tab.find (s.part p).moving (va / 2 ^ 21) = some (f, d, fva) ∧ Tab.find (s.part p).ptes (va / 2 ^ 21) = some e ∧ s.halts = false :=
  ⟨demoMigrate, 0, 0x200000, 5, 0, 0x200040, 0x20000000003, by decide⟩

theorem witness_MemoryEventsComplete_4 : ∃ (s : State) (stack pc : Nat), stack < 8 ∧ pc < 64 ∧ (s.stack stack).lost.testBit pc = false :=
  ⟨demoRun, 7, 63, by decide⟩

theorem witness_MemoryEventsComplete_5 : ∃ (s : State) (pa : Nat) (c : Bool), (s.region pa = .hbm ∨ s.region pa = .check) :=
  ⟨demoRun, 0, false, by decide⟩

theorem witness_MemoryEventsComplete_6 : ∃ (s : State) (pa : Nat), s.region pa = .attic :=
  ⟨{ demoRun with memStat := { demoRun.memStat with dimmGib := 64, channels := 12, type := 1 } }, 0x40000000000, by decide⟩

theorem witness_MemoryEventsComplete_7 : ∃ (s : State) (pa : Nat), s.region pa = .attic :=
  ⟨{ demoRun with memStat := { demoRun.memStat with dimmGib := 64, channels := 12, type := 1 } }, 0x40000000000, by decide⟩

theorem witness_MemoryEventsComplete_8 : ∃ (s : State) (core off : Nat), core < 2048 ∧ off < 0xC0000 :=
  ⟨demoRun, 2047, 0xBFFFF, by decide⟩

theorem witness_MemoryEventsComplete_9 : ∃ (s : State) (core off : Nat), core < 2048 ∧ off < 0xC0000 :=
  ⟨demoRun, 2047, 0xBFFFF, by decide⟩

theorem witness_MemoryEventsComplete_10 : ∃ (s : State) (stack : Nat), stack < 8 ∧ s.halts = false :=
  ⟨demoRun, 7, by decide⟩

theorem witness_HostWindowAccesses_1 : ∃ (s : State) (port func off len p : Nat) (bs : List Byte), port < 2 ∧ func < 16
  ∧ s.answers port func = true ∧ s.boundPart port func = some p ∧ 0 < len ∧ len ≤ 4096 ∧ off + len ≤ s.bar2Size port func
  ∧ s.vread p (s.bar2Va port func off) len = .ok (bs, false) :=
  ⟨demoBar2, 0, 0, 0, 4, 0, [0, 0, 0, 0], by decide⟩

theorem witness_HostWindowAccesses_2 : ∃ (s : State) (port func off p : Nat) (data : List Byte) (bad : Bool), port < 2 ∧ func < 16
  ∧ s.answers port func = true ∧ s.boundPart port func = some p ∧ data ≠ [] ∧ data.length ≤ 4096
  ∧ off + data.length ≤ s.bar2Size port func ∧ s.vok p (s.bar2Va port func off) data.length true = true :=
  ⟨demoBar2, 0, 0, 0, 0, [1], false, by decide⟩

theorem witness_HostWindowAccesses_3 : ∃ (s : State) (port func off p : Nat) (data : List Byte) (bad : Bool), port < 2 ∧ func < 16
  ∧ s.answers port func = true ∧ s.boundPart port func = some p ∧ data ≠ [] ∧ data.length ≤ 4096
  ∧ off + data.length ≤ s.bar2Size port func ∧ s.vok p (s.bar2Va port func off) data.length true = false :=
  ⟨demoBar2, 0, 0, 0x200000, 0, [1], false, by decide⟩

theorem witness_HostWindowAccesses_4 : ∃ (s : State) (port func off len p : Nat) (x : TransFail), port < 2 ∧ func < 16
  ∧ s.answers port func = true ∧ s.boundPart port func = some p ∧ 0 < len ∧ len ≤ 4096 ∧ off + len ≤ s.bar2Size port func
  ∧ s.vread p (s.bar2Va port func off) len = .error x :=
  ⟨demoBar2, 0, 0, 0x200000, 4, 0, .beyond, by decide⟩

theorem witness_HostWindowAccesses_5 : ∃ (s : State) (port func off len : Nat), port < 2 ∧ func < 16 ∧ s.answers port func = true
  ∧ s.boundPart port func = none ∧ 0 < len ∧ len ≤ 4096 ∧ off + len ≤ s.bar2Size port func :=
  ⟨{ demoBar2 with parts := [] }, 0, 0, 0, 4, by and_intros <;> decide +kernel⟩

theorem witness_HostWindowAccesses_6 : ∃ (s : State) (port func off : Nat) (data : List Byte) (bad : Bool), port < 2 ∧ func < 16
  ∧ s.answers port func = true ∧ s.boundPart port func = none ∧ data ≠ [] ∧ data.length ≤ 4096
  ∧ off + data.length ≤ s.bar2Size port func :=
  ⟨{ demoBar2 with parts := [] }, 0, 0, 0, [1], false, by and_intros <;> decide +kernel⟩

theorem witness_HostWindowAccesses_7 : ∃ (s : State) (port func off len p : Nat) (bs : List Byte), port < 2 ∧ func < 16
  ∧ s.answers port func = true ∧ s.boundPart port func = some p ∧ 0 < len ∧ len ≤ 4096 ∧ off + len ≤ s.bar2Size port func
  ∧ s.vread p (s.bar2Va port func off) len = .ok (bs, true) :=
  ⟨{ demoBar2 with poison := [0] }, 0, 0, 0, 4, 0, [0, 0, 0, 0], by decide⟩

theorem witness_UpdateCommandsComplete_1 : ∃ (s : State) (core n : Nat) (h : Head), heads s core n 0xA0 h ∧ cf h.w 101 100 ≠ 3
  ∧ (s.updOf (s.pno core)).en = true ∧ affords s h 0 1 :=
  ⟨demoUpdIssue, 0, 0, demoImmHead, by and_intros <;> decide +kernel⟩

theorem witness_UpdateCommandsComplete_2 : ∃ (s : State) (core n : Nat) (h : Head), heads s core n 0xA2 h
  ∧ (s.updOf (s.pno core)).names h.w = true ∧ affords s h 0 1 :=
  ⟨demoUpd 0xA2 [], 0, 0, demoMmHead 0xA2, by and_intros <;> decide +kernel⟩

theorem witness_UpdateCommandsComplete_3 : ∃ (s : State) (core n : Nat) (h : Head), heads s core n 0xA3 h
  ∧ (s.updOf (s.pno core)).names h.w = true ∧ affords s h 0 1 :=
  ⟨demoUpd 0xA3 [], 0, 0, demoMmHead 0xA3, by and_intros <;> decide +kernel⟩

theorem witness_UpdateCommandsComplete_4 : ∃ (s : State) (core n off : Nat) (h : Head), heads s core n 0xA1 h
  ∧ (s.updOf (s.pno core)).en = true ∧ (h.ctx.pair (cf h.w 21 20)).mode = 0
  ∧ (((h.ctx.pair (cf h.w 21 20)).lim = 0 ∨ (h.ctx.pair (cf h.w 21 20)).isLocal core = true))
  ∧ localOff (s.core core) h.ctx core (cf h.w 21 20) (cf h.w 37 22) 64 = .ok off ∧ (s.core core).bankIsOff off 64 = false
  ∧ (s.core core).bankIsOn off 64 = true ∧ mergeOk (s.rds (scrPa core off) 64) = true ∧ affords s h 0 1 :=
  ⟨{ demoUpd 0xA1 [] with mem := Memory.writes [] (scrPa 0 0) (demoMerge false).desc }, 0, 0, 0, demoMmHead 0xA1,
    by and_intros <;> decide +kernel⟩

theorem witness_UpdatesRun_1 : ∃ (s : State) (p : Nat) (u : UpdCmd) (q : List UpdCmd), p < 64 ∧ (s.part p).updQ = u :: q
  ∧ u.accepted = false ∧ opcodeOf u.cmd = 0xA1 ∧ (s.updOf p).en = true ∧ s.halts = false :=
  ⟨demoUpd 0 [demoMerge false], 0, demoMerge false, [], by and_intros <;> decide +kernel⟩

theorem witness_UpdatesRun_2 : ∃ (s : State) (p : Nat) (u : UpdCmd) (q : List UpdCmd) (b : List Byte) (e : RegEnt) (h : ShHdr), p < 64
  ∧ (s.part p).updQ = u :: q ∧ u.accepted = false ∧ opcodeOf u.cmd = 0xA0 ∧ (s.updOf p).en = true
  ∧ (updF u.cmd u.imm).reg < (s.updOf p).count ∧ s.region? p (updF u.cmd u.imm).reg = .ok (b, e, h) ∧ e.frozen = false
  ∧ (updF u.cmd u.imm).steplo = (h.step + 1) % 2 ^ 24 ∧ updChecks (updF u.cmd u.imm) e (if h.shv then h.shdone else 0) = true
  ∧ (s.regionTake 0 p (updF u.cmd u.imm).reg).hdrFail p e = none ∧ s.halts = false :=
  ⟨demoUpd 0 [demoUpdCmd], 0, demoUpdCmd, [], demoEntry, regEnt demoEntry, shHdr (List.replicate 64 0),
    by and_intros <;> decide +kernel⟩

theorem witness_UpdatesRun_3 : ∃ (s : State) (p : Nat) (u : UpdCmd) (q : List UpdCmd) (b : List Byte) (e : RegEnt) (h : ShHdr), p < 64
  ∧ (s.part p).updQ = u :: q ∧ u.accepted = false ∧ opcodeOf u.cmd = 0xA0 ∧ (s.updOf p).en = true
  ∧ (updF u.cmd u.imm).reg < (s.updOf p).count ∧ s.region? p (updF u.cmd u.imm).reg = .ok (b, e, h) ∧ e.frozen = true
  ∧ (s.regionTake 0 p (updF u.cmd u.imm).reg).hdrFail p e = none ∧ s.halts = false :=
  ⟨{ demoUpd 0 [demoUpdCmd] with mem := Memory.writes [] 0 (demoEntry.set 4 4) }, 0, demoUpdCmd, [], demoEntry.set 4 4,
  regEnt (demoEntry.set 4 4), shHdr (List.replicate 64 0),
    by and_intros <;> decide +kernel⟩

theorem witness_UpdatesRun_4 : ∃ (s : State) (p : Nat) (u : UpdCmd) (q : List UpdCmd), p < 64 ∧ (s.part p).updQ = u :: q
  ∧ u.accepted = true ∧ opcodeOf u.cmd = 0xA0 ∧ s.vfailAny p u.exts.1 false = none ∧ s.vfailAny p u.exts.2 true = none
  ∧ s.hdrFail p (regEnt u.entry) = none ∧ (u.exts.1.any fun y => s.vpoison p y.1 y.2) = false
  ∧ ((regEnt u.entry).chk = true → s.vcheckBad p ((regEnt u.entry).grad + (if (regEnt u.entry).gfp then 128
  else 64) * ((updF u.cmd u.imm).first + 64 * u.run)) ((if (regEnt u.entry).gfp then 128
  else 64) * min 64 ((updF u.cmd u.imm).first + (updF u.cmd u.imm).count - ((updF u.cmd u.imm).first + 64 * u.run))) = false
  ∧ s.vchecked p ((regEnt u.entry).grad + (if (regEnt u.entry).gfp then 128
  else 64) * ((updF u.cmd u.imm).first + 64 * u.run)) ((if (regEnt u.entry).gfp then 128
  else 64) * min 64 ((updF u.cmd u.imm).first + (updF u.cmd u.imm).count - ((updF u.cmd u.imm).first + 64 * u.run))) = true)
  ∧ s.halts = false :=
  ⟨demoUpd 0 [demoUpdRun], 0, demoUpdRun, [], by and_intros <;> decide +kernel⟩

theorem witness_UpdatesRun_5 : ∃ (s : State) (p : Nat) (u : UpdCmd) (q : List UpdCmd), p < 64 ∧ (s.part p).updQ = u :: q
  ∧ u.accepted = true ∧ opcodeOf u.cmd = 0xA0 ∧ s.vfailAny p u.exts.1 false = none ∧ s.vfailAny p u.exts.2 true = none
  ∧ s.hdrFail p (regEnt u.entry) = none ∧ (u.exts.1.any fun y => s.vpoison p y.1 y.2) = true ∧ s.halts = false :=
  ⟨{ demoUpd 0 [demoUpdRun] with poison := [128] }, 0, demoUpdRun, [], by and_intros <;> decide +kernel⟩

theorem witness_UpdatesRun_6 : ∃ (s : State) (p : Nat) (u : UpdCmd) (q : List UpdCmd), p < 64 ∧ (s.part p).updQ = u :: q
  ∧ u.accepted = true ∧ opcodeOf u.cmd = 0xA0 ∧ s.vfailAny p u.exts.1 false = none ∧ s.vfailAny p u.exts.2 true = none
  ∧ s.hdrFail p (regEnt u.entry) = none ∧ (u.exts.1.any fun y => s.vpoison p y.1 y.2) = false ∧ (regEnt u.entry).chk = true
  ∧ s.vcheckBad p ((regEnt u.entry).grad + (if (regEnt u.entry).gfp then 128
  else 64) * ((updF u.cmd u.imm).first + 64 * u.run)) ((if (regEnt u.entry).gfp then 128
  else 64) * min 64 ((updF u.cmd u.imm).first + (updF u.cmd u.imm).count - ((updF u.cmd u.imm).first + 64 * u.run))) = false
  ∧ s.vchecked p ((regEnt u.entry).grad + (if (regEnt u.entry).gfp then 128
  else 64) * ((updF u.cmd u.imm).first + 64 * u.run)) ((if (regEnt u.entry).gfp then 128
  else 64) * min 64 ((updF u.cmd u.imm).first + (updF u.cmd u.imm).count - ((updF u.cmd u.imm).first + 64 * u.run))) = false
  ∧ s.halts = false :=
  ⟨{ demoUpd 0 [{ demoUpdRun with entry := demoEntry.set 4 0x20 }] with cv := [4] }, 0,
  { demoUpdRun with entry := demoEntry.set 4 0x20 }, [],
    by and_intros <;> decide +kernel⟩

theorem witness_UpdatesRun_7 : ∃ (s : State) (p : Nat) (u : UpdCmd) (q : List UpdCmd), p < 64 ∧ (s.part p).updQ = u :: q
  ∧ u.accepted = true ∧ opcodeOf u.cmd = 0xA1 ∧ (bit (at8 u.desc 44 44) 2 = true → (u.mergeReads.all
  fun x => s.vchecked p x.1 x.2) = true) ∧ s.vfailAny p u.mergeReads false = none ∧ s.vfail p u.mergeWrite.1 u.mergeWrite.2 true = none
  ∧ s.halts = false :=
  ⟨demoUpd 0 [demoMerge true], 0, demoMerge true, [], by and_intros <;> decide +kernel⟩

theorem witness_UpdatesRun_8 : ∃ (s : State) (p : Nat) (u : UpdCmd) (q : List UpdCmd), p < 64 ∧ (s.part p).updQ = u :: q
  ∧ u.accepted = true ∧ opcodeOf u.cmd = 0xA1 ∧ bit (at8 u.desc 44 44) 2 = true
  ∧ (u.mergeReads.all fun x => s.vchecked p x.1 x.2) = false ∧ s.vfailAny p u.mergeReads false = none
  ∧ s.vfail p u.mergeWrite.1 u.mergeWrite.2 true = none ∧ s.halts = false :=
  ⟨{ demoUpd 0 [{ demoMerge true with desc := (demoMerge true).desc.set 44 4 }] with cv := [8] }, 0,
  { demoMerge true with desc := (demoMerge true).desc.set 44 4 }, [],
    by and_intros <;> decide +kernel⟩

theorem witness_UpdatesRun_9 : ∃ (s : State) (p : Nat) (u : UpdCmd) (q : List UpdCmd), p < 64 ∧ (s.part p).updQ = u :: q
  ∧ u.accepted = true ∧ opcodeOf u.cmd < 0xA2 ∧ s.halts = false :=
  ⟨demoUpd 0 [demoUpdRun], 0, demoUpdRun, [], by and_intros <;> decide +kernel⟩

theorem witness_UpdatesRun_10 : ∃ (s : State) (p : Nat) (u : UpdCmd) (q : List UpdCmd), p < 64 ∧ (s.part p).updQ = u :: q
  ∧ opcodeOf u.cmd = 0xA2 ∧ u.accepted = false ∧ (s.pageSeqs p).isEmpty = true ∧ (s.updOf p).names u.cmd = true
  ∧ s.shadowMissing p u = none ∧ s.shadowFixed p u = none ∧ s.shadowRefused p u = none ∧ s.halts = false :=
  ⟨demoUpd 0 [demoCommit] demoShadow, 0, demoCommit, [], by and_intros <;> decide +kernel⟩

theorem witness_UpdatesRun_11 : ∃ (s : State) (p : Nat) (u : UpdCmd) (q : List UpdCmd), p < 64 ∧ (s.part p).updQ = u :: q
  ∧ opcodeOf u.cmd = 0xA2 ∧ u.accepted = true ∧ s.halts = false :=
  ⟨demoUpd 0 [{ demoCommit with accepted := true, entry := demoEntry }] demoShadow, 0,
  { demoCommit with accepted := true, entry := demoEntry }, [],
    by and_intros <;> decide +kernel⟩

theorem witness_UpdatesRun_12 : ∃ (s : State) (p : Nat) (e : RegEnt), e.frozen = false
  ∧ e.pairs.length ≤ (if (s.hdrAt p e).cmt then (s.hdrAt p e).cmtdone else 0) + 512 :=
  ⟨demoUpd 0 [demoCommit] demoShadow, 0, regEnt demoEntry, by and_intros <;> decide +kernel⟩

theorem witness_UpdatesRun_13 : ∃ (s v : State) (p n : Nat) (u : UpdCmd),
  s.commitSome p (regEnt ((u.entry.drop (128 * u.run)).take 128)) = (v, true) :=
  ⟨demoUpd 0 [demoCommit] demoShadow, ((demoUpd 0 [demoCommit] demoShadow).commitSome 0 (regEnt demoEntry)).1, 0, 0,
  { demoCommit with accepted := true, entry := demoEntry },
    by decide +kernel⟩

theorem witness_UpdatesRun_14 : ∃ (s : State) (p : Nat) (u : UpdCmd) (q : List UpdCmd), p < 64 ∧ (s.part p).updQ = u :: q
  ∧ opcodeOf u.cmd = 0xA3 ∧ (s.updOf p).names u.cmd = true ∧ s.shadowMissing p u = none ∧ s.shadowFixed p u = none ∧ s.halts = false :=
  ⟨demoUpd 0 [demoDiscard] demoShadow, 0, demoDiscard, [], by and_intros <;> decide +kernel⟩

theorem witness_LinkEventsComplete_1 : ∃ (s : State) (p : Nat), p < 64 ∧ s.present p = true ∧ (s.fport p).up = false
  ∧ s.laneRetired p = false ∧ s.sup.shed = false :=
  ⟨demoFab id, 1, by and_intros <;> decide +kernel⟩

theorem witness_LinkEventsComplete_2 : ∃ (s : State) (lane : Nat), lane < 64 ∧ (s.fport ((s.quad (lane / 4)).portOf lane)).up = true :=
  ⟨demoFab id, 0, by and_intros <;> decide +kernel⟩

theorem witness_LinkEventsComplete_3 : ∃ (s : State) (p : Nat), p < 64 ∧ (s.fport p).up = true :=
  ⟨demoFab id, 0, by and_intros <;> decide +kernel⟩

theorem witness_LinkEventsComplete_4 : ∃ (s : State) (p c u : Nat), p < 64 ∧ s.present p = true
  ∧ ((s.fport p).fecdeg = 0 ∨ u < (s.fport p).fecdeg) :=
  ⟨demoFab id, 3, 5, 31, by and_intros <;> decide +kernel⟩

theorem witness_LinkEventsComplete_5 : ∃ (s : State) (p c u : Nat), p < 64 ∧ s.present p = true ∧ (s.fport p).fecdeg ≠ 0
  ∧ (s.fport p).fecdeg ≤ u :=
  ⟨demoFab id, 0, 5, 32, by and_intros <;> decide +kernel⟩

theorem witness_LinkEventsComplete_6 : ∃ (s : State) (p : Nat), p < 64 :=
  ⟨demoFab id, 63, by decide +kernel⟩

theorem witness_LinkEventsComplete_7 : ∃ (s : State) (who : Who) (q : Nat) (v : W64), q < 16 ∧ s.isMgmt who = true ∧ bits v.toNat 1 0 ≠ 3
  ∧ bits v.toNat 5 4 ≠ 3 ∧ ((s.quad q).en = false ∨ v.toNat.testBit 7 = false) :=
  ⟨demoRun, .host 0 0, 15, 0x2, by and_intros <;> decide +kernel⟩

theorem witness_LinkEventsComplete_8 : ∃ (s : State) (p mac : Nat), p < 64 ∧ (s.fport p).up = true :=
  ⟨demoFab id, 0, 0x112233445566, by and_intros <;> decide +kernel⟩

theorem witness_LinkEventsComplete_9 : ∃ (s : State) (p : Nat), p < 64 ∧ (s.fport p).up = true :=
  ⟨demoFab id, 0, by and_intros <;> decide +kernel⟩

theorem witness_LinkEventsComplete_10 : ∃ (s : State) (p prio : Nat) (on : Bool), p < 64 ∧ prio < 8 ∧ (s.fport p).pfcen = true
  ∧ (s.fport p).pfcpri.testBit prio = true ∧ Keys.has (s.fport p).ignoring prio = false :=
  ⟨demoFab id, 0, 3, true, by and_intros <;> decide +kernel⟩

theorem witness_LinkEventsComplete_11 : ∃ (s : State) (p prio : Nat), p < 64 ∧ prio < 8 ∧ Keys.has (s.fport p).paused prio = true :=
  ⟨(demoFab id).mapPort 0 fun x => { x with paused := [3] }, 0, 3, by and_intros <;> decide +kernel⟩

theorem witness_LinkEventsComplete_12 : ∃ (s : State) (p prio : Nat), p < 64 ∧ prio < 8 :=
  ⟨demoFab id, 63, 7, by and_intros <;> decide +kernel⟩

theorem witness_LinkEventsComplete_13 : ∃ (s : State) (p : Nat), p < 64 :=
  ⟨demoFab id, 63, by decide +kernel⟩

theorem witness_HandshakesComplete_1 : ∃ (s : State) (n : Nat), n < 4096 ∧ (s.peer n).st = .idle ∧ (s.peer n).queue.isEmpty = false :=
  ⟨demoFab fun x => { x with queue := [demoMsg] }, 0, by and_intros <;> decide +kernel⟩

theorem witness_HandshakesComplete_2 : ∃ (s : State) (n : Nat) (y : Session), n < 4096 ∧ (s.peer n).st = .opened ∧ (s.peer n).hs = none
  ∧ (s.peer n).old = none ∧ (s.peer n).cur = some y ∧ s.rekeyDue (s.peer n) y = true :=
  ⟨demoOpen [] { demoSession with txPsn := 0xF0000000 }, 0, { demoSession with txPsn := 0xF0000000 },
    by and_intros <;> decide +kernel⟩

theorem witness_HandshakesComplete_3 : ∃ (s : State) (n : Nat) (h : Hs), n < 4096 ∧ (s.peer n).hs = some h ∧ h.init = true
  ∧ h.crossed = false ∧ h.tries < 4 :=
  ⟨demoHsTaken (some demoHs), 0, demoHs, by and_intros <;> decide +kernel⟩

theorem witness_HandshakesComplete_4 : ∃ (s : State) (n : Nat) (h : Hs), n < 4096 ∧ (s.peer n).hs = some h ∧ h.init = true
  ∧ h.crossed = false ∧ 4 ≤ h.tries ∧ h.stage = 0 :=
  ⟨demoHsTaken (some { demoHs with tries := 4 }), 0, { demoHs with tries := 4 }, by and_intros <;> decide +kernel⟩

theorem witness_HandshakesComplete_5 : ∃ (s : State) (n : Nat) (h : Hs), n < 4096 ∧ (s.peer n).hs = some h ∧ h.crossed = true :=
  ⟨demoHsTaken (some { demoHs with crossed := true }), 0, { demoHs with crossed := true }, by and_intros <;> decide +kernel⟩

theorem witness_HandshakesComplete_6 : ∃ (s u : State) (n : Nat) (pay : List Byte), n < 4096 ∧ s.takeHs n 8 = (u, some pay)
  ∧ u.boot.idok = true ∧ ((u.peer n).st = .idle ∨ (u.peer n).st = .handshake ∨ (u.peer n).st = .opened) ∧ pay.length = 13818
  ∧ (u.peer n).hs = none :=
  ⟨demoHsMsg 8 13818 none, demoHsTaken none, 0, demoHsBytes 13818,
    by refine ⟨by decide, demo_takeHs 8 13818 none, by decide, by decide, demo_hsBytes 13818, by decide⟩⟩

theorem witness_HandshakesComplete_7 : ∃ (s u : State) (n : Nat) (pay : List Byte) (h : Hs), n < 4096 ∧ s.takeHs n 8 = (u, some pay)
  ∧ u.boot.idok = true ∧ ((u.peer n).st = .idle ∨ (u.peer n).st = .handshake ∨ (u.peer n).st = .opened) ∧ pay.length = 13818
  ∧ (u.peer n).hs = some h ∧ h.init = true ∧ h.crossed = false :=
  ⟨demoHsMsg 8 13818 (some demoHs), demoHsTaken (some demoHs), 0, demoHsBytes 13818, demoHs,
    by refine ⟨by decide, demo_takeHs 8 13818 _, by decide, by decide, demo_hsBytes 13818, by decide, by decide, by decide⟩⟩

theorem witness_HandshakesComplete_8 : ∃ (s u : State) (n : Nat) (pay : List Byte), n < 4096 ∧ s.takeHs n 8 = (u, some pay)
  ∧ (u.boot.idok = false ∨ (u.peer n).st = .failed ∨ (u.peer n).st = .down ∨ (u.peer n).st = .unused ∨ pay.length ≠ 13818) :=
  ⟨{ demoHsMsg 8 13818 none with boot := {} }, { demoHsTaken none with boot := {} }, 0, demoHsBytes 13818,
    by refine ⟨by decide, demo_takeHsBoot 8 13818 none {}, by decide⟩⟩

theorem witness_HandshakesComplete_9 : ∃ (s u : State) (n : Nat) (pay : List Byte) (h : Hs), n < 4096 ∧ s.takeHs n 8 = (u, some pay)
  ∧ u.boot.idok = true ∧ ((u.peer n).st = .idle ∨ (u.peer n).st = .handshake ∨ (u.peer n).st = .opened) ∧ pay.length = 13818
  ∧ (u.peer n).hs = some h ∧ (h.init = false ∨ h.crossed = true) :=
  ⟨demoHsMsg 8 13818 (some { demoHs with init := false }), demoHsTaken (some { demoHs with init := false }), 0, demoHsBytes 13818,
  { demoHs with init := false },
    by refine ⟨by decide, demo_takeHs 8 13818 _, by decide, by decide, demo_hsBytes 13818, by decide, by decide⟩⟩

theorem witness_HandshakesComplete_10 : ∃ (s u : State) (n : Nat) (resp : List Byte) (h : Hs), n < 4096 ∧ s.takeHs n 9 = (u, some resp)
  ∧ (u.peer n).hs = some h ∧ u.boot.idok = true ∧ h.init = true ∧ h.crossed = false ∧ resp.length = 17035 ∧ h.stage = 2
  ∧ resp ≠ h.respPay :=
  ⟨demoHsMsg 9 17035 (some { demoHs with stage := 2, respPay := [] }), demoHsTaken (some { demoHs with stage := 2, respPay := [] }), 0,
  demoHsBytes 17035, { demoHs with stage := 2, respPay := [] },
    by refine ⟨by decide, demo_takeHs 9 17035 _, by decide, by decide, by decide, by decide, demo_hsBytes 17035, by decide, fun e => absurd (congrArg List.length e) (by rw [demo_hsBytes]; decide)⟩⟩

theorem witness_HandshakesComplete_11 : ∃ (s u : State) (n : Nat) (resp : List Byte) (h : Hs), n < 4096 ∧ s.takeHs n 9 = (u, some resp)
  ∧ (u.peer n).hs = some h ∧ u.boot.idok = true ∧ h.init = true ∧ h.crossed = false ∧ resp.length = 17035 ∧ h.stage ≠ 2 :=
  ⟨demoHsMsg 9 17035 (some demoHs), demoHsTaken (some demoHs), 0, demoHsBytes 17035, demoHs,
    by refine ⟨by decide, demo_takeHs 9 17035 _, by decide, by decide, by decide, by decide, demo_hsBytes 17035, by decide⟩⟩

theorem witness_HandshakesComplete_12 : ∃ (s u : State) (n : Nat) (fin : List Byte) (h : Hs), n < 4096 ∧ s.takeHs n 0xA = (u, some fin)
  ∧ (u.peer n).hs = some h ∧ h.init = false ∧ fin.length = 3313 :=
  ⟨demoHsMsg 0xA 3313 (some { demoHs with init := false }), demoHsTaken (some { demoHs with init := false }), 0, demoHsBytes 3313,
  { demoHs with init := false },
    by refine ⟨by decide, demo_takeHs 0xA 3313 _, by decide, by decide, demo_hsBytes 3313⟩⟩

theorem witness_HandshakesComplete_13 : ∃ (s u : State) (n : Nat) (m : List Byte) (h : Hs), n < 4096 ∧ s.takeHs n 0xB = (u, some m)
  ∧ (u.peer n).hs = some h :=
  ⟨demoHsMsg 0xB 4 (some demoHs), demoHsTaken (some demoHs), 0, demoHsBytes 4, demoHs,
    by refine ⟨by decide, demo_takeHs 0xB 4 _, by decide⟩⟩

theorem witness_HandshakesComplete_14 : ∃ (s u : State) (n : Nat) (m : List Byte), n < 4096 ∧ s.takeHs n 0xB = (u, some m)
  ∧ (u.peer n).hs = none :=
  ⟨demoHsMsg 0xB 4 none, demoHsTaken none, 0, demoHsBytes 4, by refine ⟨by decide, demo_takeHs 0xB 4 _, by decide⟩⟩

theorem witness_FramesAreTakenIn_1 : ∃ (s : State) (f : Frame), f.port < 64 ∧ (s.fport f.port).up = true
  ∧ 2 ^ 20 < s.rxFill f.port + f.bytes.length :=
  ⟨demoOpen [{ demoPkt 0 0 [] with size := 2 ^ 20 }], demoFrame 9 0 0, by and_intros <;> decide +kernel⟩

theorem witness_FramesAreTakenIn_2 : ∃ (s : State) (f : Frame), f.port < 64 ∧ (s.fport f.port).up = true
  ∧ s.rxFill f.port + f.bytes.length ≤ 2 ^ 20 ∧ (f.bytes.length < 64 ∨ 9216 < f.bytes.length ∨ f.fcsOk = false) :=
  ⟨demoFab id, ⟨0, [], true⟩, by and_intros <;> decide +kernel⟩

theorem witness_FramesAreTakenIn_3 : ∃ (s : State) (f : Frame), f.port < 64 ∧ (s.fport f.port).up = true
  ∧ s.rxFill f.port + f.bytes.length ≤ 2 ^ 20 ∧ netNum (f.bytes.take (f.bytes.length - 4)) 12 13 ≠ 0x8100 ∧ (s.fport f.port).vid ≠ 0 :=
  ⟨(demoFab id).mapPort 0 fun x => { x with vid := 5 }, ⟨0, [], true⟩, by and_intros <;> decide +kernel⟩

theorem witness_FramesAreTakenIn_4 : ∃ (s : State) (f : Frame), f.port < 64 ∧ (s.fport f.port).up = true
  ∧ s.rxFill f.port + f.bytes.length ≤ 2 ^ 20 ∧ netNum (f.bytes.take (f.bytes.length - 4)) 12 13 = 0x8100
  ∧ netNum (f.bytes.take (f.bytes.length - 4)) 14 15 % 4096 ≠ (s.fport f.port).vid :=
  ⟨demoFab id, ⟨0, List.replicate 12 0 ++ [0x81, 0, 0, 5] ++ List.replicate 52 0, true⟩, by and_intros <;> decide +kernel⟩

theorem witness_FramesAreTakenIn_5 : ∃ (s : State) (f : Frame), f.port < 64 ∧ (s.fport f.port).up = true
  ∧ s.rxFill f.port + f.bytes.length ≤ 2 ^ 20 ∧ netNum (f.bytes.take (f.bytes.length - 4)) 12 13 ∉ [0x8100, 0x0806, 0x8808, 0x86DD,
  0x0800] :=
  ⟨demoFab id, ⟨0, List.replicate 68 0, true⟩, by and_intros <;> decide +kernel⟩

theorem witness_FramesAreTakenIn_6 : ∃ (s : State) (f : Frame), f.port < 64 ∧ (s.fport f.port).up = true
  ∧ s.rxFill f.port + f.bytes.length ≤ 2 ^ 20 ∧ s.ingress f = .noaddr :=
  ⟨demoFab id, demoFrame 9 0 0, by and_intros <;> decide +kernel⟩

theorem witness_FramesAreTakenIn_7 : ∃ (s : State) (f : Frame) (src dst data : List Byte) (sport dport : Nat) (ce : Bool), f.port < 64
  ∧ (s.fport f.port).up = true ∧ s.rxFill f.port + f.bytes.length ≤ 2 ^ 20 ∧ s.ingress f = .udp src dst sport dport ce data
  ∧ (s.fab.addrs.find? fun y => y.2 == dst) = none :=
  ⟨{ demoOpen [] with fab := { (demoOpen []).fab with addrs := [] } }, demoFrame 1 0x4B 0xAB, List.replicate 15 0 ++ [1],
  List.replicate 15 0 ++ [2], [BitVec.ofNat 8 (0x30 + 1), 2] ++ List.replicate 30 0, 49152, 0xC2ED, false,
    by and_intros <;> decide +kernel⟩

theorem witness_FramesAreTakenIn_8 : ∃ (s : State) (f : Frame) (src dst data : List Byte) (sport dport : Nat) (ce : Bool) (part : Nat),
  f.port < 64 ∧ (s.fport f.port).up = true ∧ s.rxFill f.port + f.bytes.length ≤ 2 ^ 20 ∧ s.ingress f = .udp src dst sport dport ce data
  ∧ (s.fab.addrs.find? fun y => y.2 == dst) = some (part, dst) ∧ dport ≠ s.fab.cfg.udp ∧ dport ≠ s.fab.cfg.udp2 :=
  ⟨{ demoOpen [] with fab := { (demoOpen []).fab with cfg := { udp := 7, udp2 := 8 } } }, demoFrame 1 0x4B 0xAB,
  List.replicate 15 0 ++ [1], List.replicate 15 0 ++ [2], [BitVec.ofNat 8 (0x30 + 1), 2] ++ List.replicate 30 0, 49152, 0xC2ED, false, 0,
    by and_intros <;> decide +kernel⟩

theorem witness_FramesAreTakenIn_9 : ∃ (s : State) (f : Frame) (src dst data : List Byte) (sport dport part : Nat) (ce : Bool),
  f.port < 64 ∧ (s.fport f.port).up = true ∧ s.rxFill f.port + f.bytes.length ≤ 2 ^ 20 ∧ s.ingress f = .udp src dst sport dport ce data
  ∧ (s.fab.addrs.find? fun y => y.2 == dst) = some (part, dst) ∧ (dport = s.fab.cfg.udp ∨ dport = s.fab.cfg.udp2)
  ∧ s.sourceOf part src sport (readPkt (data.take 32) []).session = none :=
  ⟨{ demoOpen [] with fab := { (demoOpen []).fab with peers := [] } }, demoFrame 1 0x4B 0xAB, List.replicate 15 0 ++ [1],
  List.replicate 15 0 ++ [2], [BitVec.ofNat 8 (0x30 + 1), 2] ++ List.replicate 30 0, 49152, 0xC2ED, 0, false,
    by and_intros <;> decide +kernel⟩

theorem witness_FramesAreTakenIn_10 : ∃ (s : State) (f : Frame) (src dst data : List Byte) (sport dport part n : Nat) (ce : Bool),
  f.port < 64 ∧ (s.fport f.port).up = true ∧ s.rxFill f.port + f.bytes.length ≤ 2 ^ 20 ∧ s.ingress f = .udp src dst sport dport ce data
  ∧ (s.fab.addrs.find? fun y => y.2 == dst) = some (part, dst) ∧ (dport = s.fab.cfg.udp ∨ dport = s.fab.cfg.udp2)
  ∧ s.sourceOf part src sport (readPkt (data.take 32) []).session = some n
  ∧ (data.length < 32 ∨ (data.drop 32).length < num (data.take 32) 2 3 ∨ (readPkt (data.take 32) []).ver ≠ (s.peer n).ver) :=
  ⟨(demoOpen []).mapPeer 0 fun x => { x with entry := List.replicate 15 0 ++ [1, 0, 0, 3] ++ List.replicate 45 0 },
  demoFrame 1 0x4B 0xAB, List.replicate 15 0 ++ [1], List.replicate 15 0 ++ [2], [BitVec.ofNat 8 (0x30 + 1), 2] ++ List.replicate 30 0,
  49152, 0xC2ED, 0, 0, false,
    by and_intros <;> decide +kernel⟩

theorem witness_FramesAreTakenIn_11 : ∃ (s : State) (f : Frame) (src dst data : List Byte) (sport dport part n : Nat) (ce : Bool),
  f.port < 64 ∧ (s.fport f.port).up = true ∧ s.rxFill f.port + f.bytes.length ≤ 2 ^ 20 ∧ s.ingress f = .udp src dst sport dport ce data
  ∧ (s.fab.addrs.find? fun y => y.2 == dst) = some (part, dst) ∧ (dport = s.fab.cfg.udp ∨ dport = s.fab.cfg.udp2)
  ∧ s.sourceOf part src sport (readPkt (data.take 32) []).session = some n ∧ 32 ≤ data.length
  ∧ num (data.take 32) 2 3 ≤ (data.drop 32).length ∧ (readPkt (data.take 32) []).ver = (s.peer n).ver
  ∧ (readPkt (data.take 32) []).typ < 3 :=
  ⟨demoOpen [], demoFrame 1 0x4B 0xAB, List.replicate 15 0 ++ [1], List.replicate 15 0 ++ [2], [BitVec.ofNat 8 (0x30 + 1),
  2] ++ List.replicate 30 0, 49152, 0xC2ED, 0, 0, false,
    by and_intros <;> decide +kernel⟩

theorem witness_FramesAreTakenIn_12 : ∃ (s : State) (f : Frame) (src dst data : List Byte) (sport dport part n : Nat) (ce : Bool),
  f.port < 64 ∧ (s.fport f.port).up = true ∧ s.rxFill f.port + f.bytes.length ≤ 2 ^ 20 ∧ s.ingress f = .udp src dst sport dport ce data
  ∧ (s.fab.addrs.find? fun y => y.2 == dst) = some (part, dst) ∧ (dport = s.fab.cfg.udp ∨ dport = s.fab.cfg.udp2)
  ∧ s.sourceOf part src sport (readPkt (data.take 32) []).session = some n ∧ 32 ≤ data.length
  ∧ num (data.take 32) 2 3 ≤ (data.drop 32).length ∧ (readPkt (data.take 32) []).ver = (s.peer n).ver
  ∧ (readPkt (data.take 32) []).typ ∈ [3, 4, 5, 6, 7, 12, 13, 14, 15] :=
  ⟨demoOpen [], demoFrame 3 0x49 0xAB, List.replicate 15 0 ++ [1], List.replicate 15 0 ++ [2], [BitVec.ofNat 8 (0x30 + 3),
  2] ++ List.replicate 30 0, 49152, 0xC2ED, 0, 0, false,
    by and_intros <;> decide +kernel⟩

theorem witness_FramesAreTakenIn_13 : ∃ (s : State) (f : Frame) (src dst data : List Byte) (sport dport part n : Nat) (ce : Bool),
  f.port < 64 ∧ (s.fport f.port).up = true ∧ s.rxFill f.port + f.bytes.length ≤ 2 ^ 20 ∧ s.ingress f = .udp src dst sport dport ce data
  ∧ (s.fab.addrs.find? fun y => y.2 == dst) = some (part, dst) ∧ (dport = s.fab.cfg.udp ∨ dport = s.fab.cfg.udp2)
  ∧ s.sourceOf part src sport (readPkt (data.take 32) []).session = some n ∧ 32 ≤ data.length
  ∧ num (data.take 32) 2 3 ≤ (data.drop 32).length ∧ (readPkt (data.take 32) []).ver = (s.peer n).ver
  ∧ 8 < (readPkt (data.take 32) []).typ ∧ (readPkt (data.take 32) []).typ ≤ 0xB :=
  ⟨demoOpen [], demoFrame 9 0x43 0xAB, List.replicate 15 0 ++ [1], List.replicate 15 0 ++ [2], [BitVec.ofNat 8 (0x30 + 9),
  2] ++ List.replicate 30 0, 49152, 0xC2ED, 0, 0, false,
    by and_intros <;> decide +kernel⟩

theorem witness_FramesAreTakenIn_14 : ∃ (s : State) (f : Frame) (src dst data : List Byte) (sport dport part n : Nat) (ce : Bool),
  f.port < 64 ∧ (s.fport f.port).up = true ∧ s.rxFill f.port + f.bytes.length ≤ 2 ^ 20 ∧ s.ingress f = .udp src dst sport dport ce data
  ∧ (s.fab.addrs.find? fun y => y.2 == dst) = some (part, dst) ∧ (dport = s.fab.cfg.udp ∨ dport = s.fab.cfg.udp2)
  ∧ s.sourceOf part src sport (readPkt (data.take 32) []).session = some n ∧ 32 ≤ data.length
  ∧ num (data.take 32) 2 3 ≤ (data.drop 32).length ∧ (readPkt (data.take 32) []).ver = (s.peer n).ver
  ∧ (readPkt (data.take 32) []).typ = 8 ∧ (s.fport f.port).bucket = 0 :=
  ⟨(demoOpen []).mapPort 0 fun x => { x with bucket := 0 }, demoFrame 8 0x44 0xAB, List.replicate 15 0 ++ [1],
  List.replicate 15 0 ++ [2], [BitVec.ofNat 8 (0x30 + 8), 2] ++ List.replicate 30 0, 49152, 0xC2ED, 0, 0, false,
    by and_intros <;> decide +kernel⟩

theorem witness_FramesAreTakenIn_15 : ∃ (s : State) (f : Frame) (src dst data : List Byte) (sport dport part n : Nat) (ce : Bool),
  f.port < 64 ∧ (s.fport f.port).up = true ∧ s.rxFill f.port + f.bytes.length ≤ 2 ^ 20 ∧ s.ingress f = .udp src dst sport dport ce data
  ∧ (s.fab.addrs.find? fun y => y.2 == dst) = some (part, dst) ∧ (dport = s.fab.cfg.udp ∨ dport = s.fab.cfg.udp2)
  ∧ s.sourceOf part src sport (readPkt (data.take 32) []).session = some n ∧ 32 ≤ data.length
  ∧ num (data.take 32) 2 3 ≤ (data.drop 32).length ∧ (readPkt (data.take 32) []).ver = (s.peer n).ver
  ∧ (readPkt (data.take 32) []).typ = 8 ∧ 0 < (s.fport f.port).bucket :=
  ⟨demoOpen [], demoFrame 8 0x44 0xAB, List.replicate 15 0 ++ [1], List.replicate 15 0 ++ [2], [BitVec.ofNat 8 (0x30 + 8),
  2] ++ List.replicate 30 0, 49152, 0xC2ED, 0, 0, false,
    by and_intros <;> decide +kernel⟩

theorem witness_JigrailTransportCompletes_1 : ∃ (s u : State) (n : Nat) (r : RxPkt) (y : Session), n < 4096 ∧ s.takeRx n 0 = some (r, u)
  ∧ ((u.takeAck n r.pkt.session r.pkt.cack []).peer n).session r.pkt.session = some y
  ∧ r.pkt.psn < y.rxCack + ((u.takeAck n r.pkt.session r.pkt.cack []).peer n).win :=
  ⟨demoOpen [demoPkt 0 10 [1]], demoOpen [], 0, demoPkt 0 10 [1], demoSession, by and_intros <;> decide +kernel⟩

theorem witness_JigrailTransportCompletes_2 : ∃ (s u : State) (n : Nat) (r : RxPkt) (y : Session), n < 4096 ∧ s.takeRx n 0 = some (r, u)
  ∧ ((u.takeAck n r.pkt.session r.pkt.cack []).peer n).session r.pkt.session = some y
  ∧ y.rxCack + ((u.takeAck n r.pkt.session r.pkt.cack []).peer n).win ≤ r.pkt.psn :=
  ⟨demoOpen [{ demoPkt 0 10 [1] with pkt := { (demoPkt 0 10 [1]).pkt with psn := 1024 } }], demoOpen [], 0,
  { demoPkt 0 10 [1] with pkt := { (demoPkt 0 10 [1]).pkt with psn := 1024 } }, demoSession,
    by and_intros <;> decide +kernel⟩

theorem witness_JigrailTransportCompletes_3 : ∃ (s u : State) (n : Nat) (r : RxPkt) (y : Session), n < 4096 ∧ s.takeRx n 1 = some (r, u)
  ∧ (u.peer n).session r.pkt.session = some y :=
  ⟨demoOpen [demoPkt 1 0 [1]], demoOpen [], 0, demoPkt 1 0 [1], demoSession, by and_intros <;> decide +kernel⟩

theorem witness_JigrailTransportCompletes_4 : ∃ (s u : State) (n : Nat) (r : RxPkt) (h : Hs), n < 4096 ∧ s.takeRx n 1 = some (r, u)
  ∧ (u.peer n).session r.pkt.session = none ∧ (u.peer n).hs = some h ∧ h.stage = 2 ∧ h.sidMine = r.pkt.session :=
  ⟨demoFab fun x => { x with st := .handshake, hs := some { demoHs with stage := 2, sidMine := 1 }, rx := [demoPkt 1 0 []] }, demoFab
  fun x => { x with st := .handshake, hs := some { demoHs with stage := 2, sidMine := 1 } }, 0, demoPkt 1 0 [],
  { demoHs with stage := 2, sidMine := 1 },
    by and_intros <;> decide +kernel⟩

theorem witness_JigrailTransportCompletes_5 : ∃ (s u : State) (n : Nat) (r : RxPkt), n < 4096 ∧ s.takeRx n 2 = some (r, u) :=
  ⟨demoOpen [demoPkt 2 0 []], demoOpen [], 0, demoPkt 2 0 [], by and_intros <;> decide +kernel⟩

theorem witness_JigrailTransportCompletes_6 : ∃ (s : State) (n : Nat) (k : Nat × NextPkt) (q : List (Nat × NextPkt)) (d : Tab Nat),
  n < 4096 ∧ (s.peer n).paceAt ≤ s.ltime ∧ s.sendable (s.peer n) = k :: q ∧ s.portTurn (s.peer n).part k.2 = some d :=
  ⟨demoSend, 0, (1, .piece demoMsg), [], [(0, 9158)], by and_intros <;> decide +kernel⟩

theorem witness_JigrailTransportCompletes_7 : ∃ (s : State) (n : Nat), n < 4096 ∧ (s.peer n).paceAt ≤ s.ltime
  ∧ s.sendable (s.peer n) = [] :=
  ⟨demoOpen [], 0, by and_intros <;> decide +kernel⟩

theorem witness_JigrailTransportCompletes_8 : ∃ (s : State) (n : Nat), n < 4096 ∧ s.ltime < (s.peer n).paceAt :=
  ⟨(demoOpen []).mapPeer 0 fun x => { x with paceAt := 1 }, 0, by and_intros <;> decide +kernel⟩

theorem witness_JigrailTransportCompletes_9 : ∃ (s : State) (n : Nat) (y : Session) (m : JMsg) (q : List JMsg), (s.peer n).cur = some y
  ∧ (s.peer n).old = none ∧ y.unacked = [] ∧ y.msgs = m :: q ∧ m.next < m.len ∧ y.txPsn < y.txCack + (s.peer n).win
  ∧ y.txPsn < 0xFFFFFF00 ∧ s.portFree m.port = true :=
  ⟨demoSend, 0, { demoSession with msgs := [demoMsg] }, demoMsg, [], by and_intros <;> decide +kernel⟩

theorem witness_JigrailTransportCompletes_10 : ∃ (s : State) (n : Nat) (y : Session), n < 4096
  ∧ ((s.peer n).cur.toList ++ (s.peer n).old.toList).find? (fun y => 0 < y.ackOwed) = some y :=
  ⟨demoOpen [] { demoSession with ackOwed := 1 }, 0, { demoSession with ackOwed := 1 }, by and_intros <;> decide +kernel⟩

theorem witness_JigrailTransportCompletes_11 : ∃ (s : State) (n : Nat) (y : Session) (a : Unacked) (t : List Unacked), n < 4096
  ∧ ((s.peer n).old.toList ++ (s.peer n).cur.toList).find? (fun y => !y.unacked.isEmpty) = some y ∧ y.unacked = a :: t :=
  ⟨demoOpen [] { demoSession with unacked := [demoUnacked] }, 0, { demoSession with unacked := [demoUnacked] }, demoUnacked, [],
    by and_intros <;> decide +kernel⟩

theorem witness_JigrailTransportCompletes_13 : ∃ (s : State) (n : Nat), n < 4096 ∧ (s.peer n).st = .opened
  ∧ s.peerDead (s.peer n) = true :=
  ⟨{ demoOpen [] { demoSession with unacked := [demoUnacked] } with ltime := 20 * ticksMs }, 0,
    by and_intros <;> decide +kernel⟩

theorem witness_JigrailTransportCompletes_14 : ∃ (s : State) (n : Nat), n < 4096 ∧ (s.peer n).st = .failed :=
  ⟨demoFab fun x => { x with st := .failed }, 0, by decide⟩

theorem witness_JigrailTransportCompletes_15 : ∃ (s : State) (n : Nat), n < 4096 ∧ (s.peer n).st = .down :=
  ⟨demoFab fun x => { x with st := .down }, 0, by decide⟩

theorem witness_CollectiveCommandsComplete_1 : ∃ (s : State) (core n : Nat) (h : Head), heads s core n 0x90 h ∧ contribCheck s h = none
  ∧ affords s h 0 1 :=
  ⟨demoColl 0x100090 [] fun c => c, 0, 0, demoMmHead 0x100090, by and_intros <;> decide +kernel⟩

theorem witness_CollectiveCommandsComplete_2 : ∃ (s : State) (core n : Nat) (h : Head) (g : Coll), heads s core n 0x92 h
  ∧ bcastCheck s h = none ∧ s.coll (s.pno core) = g ∧ g.dec ≠ 0 ∧ affords s h 0 1 :=
  ⟨demoColl 0x92 [] fun c => { c with dec := 1 }, 0, 0, demoMmHead 0x92, (demoColl 0x92 [] fun c => { c with dec := 1 }).coll 0,
    by and_intros <;> decide +kernel⟩

theorem witness_CollectiveCommandsComplete_3 : ∃ (s : State) (core n : Nat) (h : Head) (g : Coll) (b : List Byte) (e : RegEnt) (hd :
  ShHdr), heads s core n 0x92 h ∧ bcastCheck s h = none ∧ s.coll (s.pno core) = g ∧ g.dec = 0
  ∧ s.shard? (s.pno core) g.self = .ok (b, e, hd) ∧ affords s h 0 1 :=
  ⟨demoColl 0x92 [] fun c => c, 0, 0, demoMmHead 0x92, (demoColl 0x92 []
  fun c => c).coll 0, demoEntry, regEnt demoEntry, shHdr (List.replicate 64 0),
    by and_intros <;> decide +kernel⟩

theorem witness_CollectiveCommandsComplete_4 : ∃ (s : State) (core n : Nat) (h : Head), heads s core n 0x91 h ∧ ownerCheck s h = none
  ∧ (s.coll (s.pno core)).dec ≠ 0 ∧ affords s h 4 1 :=
  ⟨demoColl 0x91 [] fun c => { c with dec := 1 }, 0, 0, demoMmHead 0x91, by and_intros <;> decide +kernel⟩

theorem witness_CollectiveCommandsComplete_5 : ∃ (s : State) (core n : Nat) (h : Head), heads s core n 0x91 h ∧ ownerCheck s h = none
  ∧ (s.coll (s.pno core)).dec = 0 ∧ (s.coll (s.pno core)).allLanded (cf h.w 37 20) = false ∧ (s.coll (s.pno core)).winDone = true
  ∧ affords s h 4 1 :=
  ⟨demoColl 0x91 [] fun c => { c with winDone := true }, 0, 0, demoMmHead 0x91, by and_intros <;> decide +kernel⟩

theorem witness_CollectiveCommandsComplete_6 : ∃ (s : State) (core n : Nat) (h : Head), heads s core n 0x91 h ∧ ownerCheck s h = none
  ∧ (s.coll (s.pno core)).dec = 0 ∧ (s.coll (s.pno core)).allLanded (cf h.w 37 20) = false ∧ (s.coll (s.pno core)).winDone = false :=
  ⟨demoColl 0x91 [] fun c => c, 0, 0, demoMmHead 0x91, by and_intros <;> decide +kernel⟩

theorem witness_CollectiveCommandsComplete_7 : ∃ (s : State) (core n : Nat) (h : Head) (b : List Byte) (e : RegEnt) (hd : ShHdr),
  heads s core n 0x91 h ∧ ownerCheck s h = none ∧ (s.coll (s.pno core)).dec = 0 ∧ (s.coll (s.pno core)).allLanded (cf h.w 37 20) = true
  ∧ (s.core core).vecReady h.ctx = true ∧ s.shard? (s.pno core) (s.coll (s.pno core)).self = .ok (b, e, hd)
  ∧ s.vfailAny (s.pno core) (ownExts (s.coll (s.pno core)) e h.w).1 false = none
  ∧ s.vfailAny (s.pno core) (ownExts (s.coll (s.pno core)) e h.w).2 true = none
  ∧ affords s h 4 (ownTerm h.w ((s.coll (s.pno core)).ownAcc e) 0) :=
  ⟨demoColl 0x91 [] fun c => { c with landed := [(1, 0)] }, 0, 0, demoMmHead 0x91, demoEntry, regEnt demoEntry,
  shHdr (List.replicate 64 0),
    by and_intros <;> decide +kernel⟩

theorem witness_CollectiveCommandsComplete_8 : ∃ (s : State) (core n : Nat) (h : Head), heads s core n 0x93 h ∧ stepCheck s h = none
  ∧ affords s h 0 1 :=
  ⟨demoColl 0x93 [] fun c => c, 0, 0, demoMmHead 0x93, by and_intros <;> decide +kernel⟩

theorem witness_CollectiveCommandsComplete_9 : ∃ (s : State) (core n : Nat) (h : Head), heads s core n 0x94 h ∧ ringCheck s h = none
  ∧ (cb h.w 21 = true ∨ cf h.w 38 23 < 2 ∨ ((s.coll (s.pno core)).credits.contains (cf h.w 20 20, cf h.w 38 23 - 2)) = true)
  ∧ affords s h 0 1 :=
  ⟨demoColl 0x94 [] fun c => c, 0, 0, demoMmHead 0x94, by and_intros <;> decide +kernel⟩

theorem witness_CollectiveCommandsComplete_10 : ∃ (s : State) (core n : Nat) (h : Head), heads s core n 0x94 h ∧ ringCheck s h = none
  ∧ cb h.w 21 = false ∧ 2 ≤ cf h.w 38 23 ∧ ((s.coll (s.pno core)).credits.contains (cf h.w 20 20, cf h.w 38 23 - 2)) = false :=
  ⟨demoColl 0x1000094 [] fun c => c, 0, 0, demoMmHead 0x1000094, by and_intros <;> decide +kernel⟩

theorem witness_CollectiveCommandsComplete_11 : ∃ (s : State) (core n st : Nat) (h : Head), heads s core n 0x90 h
  ∧ contribCheck s h = some st :=
  ⟨demoMm 0x90, 0, 0, stIllegalOp, demoMmHead 0x90, by and_intros <;> decide +kernel⟩

theorem witness_CollectiveCommandsComplete_12 : ∃ (s : State) (core n st : Nat) (h : Head), heads s core n 0x91 h
  ∧ ownerCheck s h = some st :=
  ⟨demoMm 0x91, 0, 0, stIllegalOp, demoMmHead 0x91, by and_intros <;> decide +kernel⟩

theorem witness_CollectiveCommandsComplete_13 : ∃ (s : State) (core n st : Nat) (h : Head), heads s core n 0x92 h
  ∧ bcastCheck s h = some st :=
  ⟨demoMm 0x92, 0, 0, stIllegalOp, demoMmHead 0x92, by and_intros <;> decide +kernel⟩

theorem witness_CollectiveCommandsComplete_14 : ∃ (s : State) (core n st : Nat) (h : Head), heads s core n 0x93 h
  ∧ stepCheck s h = some st :=
  ⟨demoMm 0x93, 0, 0, stIllegalOp, demoMmHead 0x93, by and_intros <;> decide +kernel⟩

theorem witness_CollectiveCommandsComplete_15 : ∃ (s : State) (core n st : Nat) (h : Head), heads s core n 0x94 h
  ∧ ringCheck s h = some st :=
  ⟨demoMm 0x94, 0, 0, stIllegalOp, demoMmHead 0x94, by and_intros <;> decide +kernel⟩

theorem witness_CollectiveEventsComplete_1 : ∃ (s u : State) (p i : Nat) (m : Landed), p < 64
  ∧ s.takeIn p (fun m => kindOf m == 0) = some (m, u) ∧ (u.coll p).memberOf (u.peer m.peer).pidx = some i ∧ (u.coll p).en = true
  ∧ bits m.minfo 17 0 < (u.coll p).cps ∧ m.bytes.length = 192 * (u.coll p).tiles (bits m.minfo 17 0) + 64
  ∧ (u.coll p).roundOf m.minfo ≠ 2 ∧ s.halts = false :=
  ⟨demoColl 0 [demoLanded 0 0 256] fun c => c, demoTake (demoColl 0 [demoLanded 0 0 256] fun c => c), 0, 1, demoLanded 0 0 256,
    by and_intros <;> decide +kernel⟩

theorem witness_CollectiveEventsComplete_2 : ∃ (s u : State) (p i : Nat) (m : Landed), p < 64
  ∧ s.takeIn p (fun m => kindOf m == 1) = some (m, u) ∧ (u.coll p).memberOf (u.peer m.peer).pidx = some i ∧ (u.coll p).en = true
  ∧ bits m.minfo 17 0 < (u.coll p).bps ∧ m.bytes.length = 64 * (u.coll p).blocks (bits m.minfo 17 0) + 64
  ∧ (u.coll p).roundOf m.minfo = 0 ∧ s.halts = false :=
  ⟨demoColl 0 [demoLanded 1 0 128] fun c => c, demoTake (demoColl 0 [demoLanded 1 0 128] fun c => c), 0, 1, demoLanded 1 0 128,
    by and_intros <;> decide +kernel⟩

theorem witness_CollectiveEventsComplete_3 : ∃ (s : State) (p : Nat), p < 64
  ∧ ((s.coll p).winAt.any fun t => t + (s.coll p).window ≤ s.ltime) = true ∧ (s.coll p).winDone = false :=
  ⟨{ demoColl 0 [] (fun c => { c with winAt := some 0 }) with ltime := 1000 }, 0, by and_intros <;> decide +kernel⟩

theorem witness_CollectiveEventsComplete_4 : ∃ (s : State) (p : Nat), p < 64
  ∧ (((s.coll p).winAt.any fun t => t + (s.coll p).window ≤ s.ltime) = false ∨ (s.coll p).winDone = true)
  ∧ ((s.coll p).winAtN.any fun t => t + (s.coll p).window ≤ s.ltime) = true ∧ (s.coll p).winDoneN = false :=
  ⟨{ demoColl 0 [] (fun c => { c with winAtN := some 0 }) with ltime := 1000 }, 0, by and_intros <;> decide +kernel⟩

theorem witness_CollectiveEventsComplete_5 : ∃ (s : State) (p : Nat), p < 64
  ∧ ((s.coll p).bwinAt.any fun t => t + (s.coll p).window ≤ s.ltime) = true ∧ (s.coll p).bwinDone = false :=
  ⟨{ demoColl 0 [] (fun c => { c with bwinAt := some 0 }) with ltime := 1000 }, 0, by and_intros <;> decide +kernel⟩

theorem witness_CollectiveEventsComplete_6 : ∃ (s : State) (core n : Nat) (x : OwnSum) (h : Head), core < 2048
  ∧ ((s.coll (s.pno core)).sums.find? fun x => x.core == core && ((s.coll (s.pno core)).dec != 0 || (s.coll (s.pno core)).winDone ||
  (s.coll (s.pno core)).allLanded (cf x.cmd 37 20)) && ((s.core core).findSlot x.lctx).isSome) = some x
  ∧ (s.core core).findSlot x.lctx = some n ∧ heads s core n 0x91 h ∧ ownerCheck s h = none ∧ (s.coll (s.pno core)).dec ≠ 0
  ∧ affords s h 4 1 :=
  ⟨demoColl 0x91 [] fun c => { c with dec := 1, sums := [demoSum] }, 0, 0, demoSum, demoMmHead 0x91,
    by and_intros <;> decide +kernel⟩

theorem witness_CollectiveEventsComplete_7 : ∃ (s : State) (core n : Nat) (x : OwnSum) (h : Head), core < 2048
  ∧ ((s.coll (s.pno core)).sums.find? fun x => x.core == core && ((s.coll (s.pno core)).dec != 0 || (s.coll (s.pno core)).winDone ||
  (s.coll (s.pno core)).allLanded (cf x.cmd 37 20)) && ((s.core core).findSlot x.lctx).isSome) = some x
  ∧ (s.core core).findSlot x.lctx = some n ∧ heads s core n 0x91 h ∧ ownerCheck s h = none ∧ (s.coll (s.pno core)).dec = 0
  ∧ (s.coll (s.pno core)).allLanded (cf h.w 37 20) = false ∧ (s.coll (s.pno core)).winDone = true ∧ affords s h 4 1 :=
  ⟨demoColl 0x91 [] fun c => { c with winDone := true, sums := [demoSum] }, 0, 0, demoSum, demoMmHead 0x91,
    by and_intros <;> decide +kernel⟩

theorem witness_CollectiveEventsComplete_8 : ∃ (s : State) (core n : Nat) (x : OwnSum) (h : Head) (b : List Byte) (e : RegEnt) (hd :
  ShHdr), core < 2048 ∧ ((s.coll (s.pno core)).sums.find?
  fun x => x.core == core && ((s.coll (s.pno core)).dec != 0 || (s.coll (s.pno core)).winDone || (s.coll (s.pno core)).allLanded (cf
  x.cmd 37 20)) && ((s.core core).findSlot x.lctx).isSome) = some x ∧ (s.core core).findSlot x.lctx = some n ∧ heads s core n 0x91 h
  ∧ ownerCheck s h = none ∧ (s.coll (s.pno core)).dec = 0 ∧ (s.coll (s.pno core)).allLanded (cf h.w 37 20) = true
  ∧ (s.core core).vecReady h.ctx = true ∧ s.shard? (s.pno core) (s.coll (s.pno core)).self = .ok (b, e, hd)
  ∧ s.vfailAny (s.pno core) (ownExts (s.coll (s.pno core)) e h.w).1 false = none
  ∧ s.vfailAny (s.pno core) (ownExts (s.coll (s.pno core)) e h.w).2 true = none
  ∧ affords s h 4 (ownTerm h.w ((s.coll (s.pno core)).ownAcc e) 0) :=
  ⟨demoColl 0x91 [] fun c => { c with landed := [(1, 0)], sums := [demoSum] }, 0, 0, demoSum, demoMmHead 0x91, demoEntry,
  regEnt demoEntry, shHdr (List.replicate 64 0),
    by and_intros <;> decide +kernel⟩

theorem witness_CollectiveEventsComplete_9 : ∃ (s : State) (core : Nat) (x : OwnSum), core < 2048
  ∧ (s.coll (s.pno core)).sums.find? (fun x => x.core == core && decide (x.at' + (s.coll (s.pno core)).votet ≤ s.ltime)) = some x
  ∧ (s.coll (s.pno core)).winAt.isSome = false :=
  ⟨{ demoColl 0 [] (fun c => { c with sums := [demoSum] }) with ltime := 1000 }, 0, demoSum,
    by and_intros <;> decide +kernel⟩

theorem witness_CollectiveEventsComplete_10 : ∃ (s : State) (p : Nat), p < 64 ∧ (s.coll p).en = true ∧ (s.coll p).vote.isSome = true
  ∧ (s.coll p).voted = false ∧ (s.coll p).dec = 0 ∧ (s.coll p).late = false ∧ (s.coll p).digest = false ∧ s.roundReady p = true
  ∧ s.halts = false :=
  ⟨{ demoColl 0 [] (fun c => { c with
  vote := some demoVote
  }) with mem := Memory.writes (Memory.writes (Memory.writes [] 0 (demoEntry ++ demoEntry1)) 0x1000 demoShadow) 0x2000 demoShadow }, 0,
    by and_intros <;> decide +kernel⟩

theorem witness_CollectiveEventsComplete_11 : ∃ (s u : State) (p i : Nat) (m : Landed), p < 64
  ∧ s.takeIn p (fun m => kindOf m == 2 && bits m 17 0 == 0) = some (m, u) ∧ (u.coll p).memberOf (u.peer m.peer).pidx = some i
  ∧ (u.coll p).en = true ∧ m.bytes.length = 64 ∧ num m.bytes 6 7 = i ∧ (u.coll p).self = (u.coll p).coord
  ∧ (u.coll p).takesVote (num m.bytes 0 3 % 2 ^ 24, num m.bytes 4 4) = true :=
  ⟨demoColl 0 [demoBallot 0 1] fun c => c, demoTake (demoColl 0 [demoBallot 0 1] fun c => c), 0, 1, demoBallot 0 1,
    by and_intros <;> decide +kernel⟩

theorem witness_CollectiveEventsComplete_12 : ∃ (s : State) (p : Nat), p < 64 ∧ (s.coll p).en = true ∧ (s.coll p).self = (s.coll p).coord
  ∧ (s.coll p).voted = true ∧ (s.coll p).decided = false ∧ (s.coll p).dec = 0 ∧ (s.coll p).votedAt + (s.coll p).votet ≤ s.ltime :=
  ⟨{ demoColl 0 [] (fun c => { c with voted := true }) with ltime := 1000 }, 0, by and_intros <;> decide +kernel⟩

theorem witness_CollectiveEventsComplete_13 : ∃ (s u : State) (p i : Nat) (m : Landed), p < 64
  ∧ s.takeIn p (fun m => kindOf m == 2 && bits m 17 0 == 1) = some (m, u) ∧ (u.coll p).memberOf (u.peer m.peer).pidx = some i
  ∧ (u.coll p).en = true ∧ m.bytes.length = 64 ∧ i = (u.coll p).coord ∧ 1 ≤ num m.bytes 5 5 ∧ num m.bytes 5 5 ≤ 3
  ∧ (u.coll p).awaited = some (num m.bytes 0 3 % 2 ^ 24, num m.bytes 4 4) ∧ (u.coll p).dec = 0 :=
  ⟨demoColl 0 [demoBallot 1 1] fun c => { c with desc := demoGroup.take 4 ++ [1] ++ demoGroup.drop 5 },
  demoTake (demoColl 0 [demoBallot 1 1] fun c => { c with desc := demoGroup.take 4 ++ [1] ++ demoGroup.drop 5 }), 0, 1, demoBallot 1 1,
    by and_intros <;> decide +kernel⟩

theorem witness_CollectiveEventsComplete_14 : ∃ (s u : State) (p i : Nat) (m : Landed), p < 64
  ∧ s.takeIn p (fun m => kindOf m == 2 && bits m 17 0 == 1) = some (m, u) ∧ (u.coll p).memberOf (u.peer m.peer).pidx = some i
  ∧ (u.coll p).en = true ∧ m.bytes.length = 64 ∧ i = (u.coll p).coord ∧ 1 ≤ num m.bytes 5 5 ∧ num m.bytes 5 5 ≤ 3
  ∧ (u.coll p).awaited = some (num m.bytes 0 3 % 2 ^ 24, num m.bytes 4 4) ∧ (u.coll p).dec ≠ 0 :=
  ⟨demoColl 0 [demoNext] fun c => { c with dec := 1, desc := demoGroup.take 4 ++ [1] ++ demoGroup.drop 5 },
  demoTake (demoColl 0 [demoNext] fun c => { c with dec := 1, desc := demoGroup.take 4 ++ [1] ++ demoGroup.drop 5 }), 0, 1, demoNext,
    by and_intros <;> decide +kernel⟩

theorem witness_CollectiveEventsComplete_15 : ∃ (s : State) (p : Nat) (v : StepVote), p < 64 ∧ (s.coll p).vote = some v
  ∧ (s.coll p).voted = true ∧ (s.coll p).dec = 0 ∧ (s.coll p).votedAt + 2 * (s.coll p).votet ≤ s.ltime :=
  ⟨{ demoColl 0 [] (fun c => { c with voted := true, vote := some demoVote }) with ltime := 2000 }, 0, demoVote,
    by and_intros <;> decide +kernel⟩

theorem witness_CollectiveEventsComplete_16 : ∃ (s u : State) (p : Nat) (m : Landed), p < 64
  ∧ s.takeIn p (fun m => kindOf m == 3 && !bit m 16) = some (m, u) ∧ (u.coll p).en = true
  ∧ (u.coll p).memberOf (u.peer m.peer).pidx = some (if bits m.minfo 17 17 = 0 then (u.coll p).rpred else (u.coll p).rsucc)
  ∧ m.bytes.length ≤ (u.coll p).rslot ∧ m.bytes.length % 16 = 0
  ∧ u.vfail p ((u.coll p).rbuf (bits m.minfo 17 17) + bits m.minfo 15 0 % 2 * (u.coll p).rslot) m.bytes.length true = none
  ∧ s.halts = false :=
  ⟨demoColl 0 [demoLanded 3 0 16] fun c => c, demoTake (demoColl 0 [demoLanded 3 0 16] fun c => c), 0, demoLanded 3 0 16,
    by and_intros <;> decide +kernel⟩

theorem witness_CollectiveEventsComplete_17 : ∃ (s u : State) (p : Nat) (m : Landed), p < 64
  ∧ s.takeIn p (fun m => kindOf m == 3 && bit m 16) = some (m, u) ∧ (u.coll p).en = true
  ∧ (u.coll p).memberOf (u.peer m.peer).pidx = some (if bits m.minfo 17 17 = 0 then (u.coll p).rsucc else (u.coll p).rpred)
  ∧ m.bytes.length = 16 :=
  ⟨demoColl 0 [demoLanded 3 65536 16] fun c => c, demoTake (demoColl 0 [demoLanded 3 65536 16] fun c => c), 0, demoLanded 3 65536 16,
    by and_intros <;> decide +kernel⟩

theorem witness_CollectiveEventsComplete_18 : ∃ (s : State) (who : Who) (p : Nat) (v : W64) (d : List Byte), p < 64
  ∧ s.ownsPart who p = true ∧ s.collBusy p = false ∧ v.toNat.testBit 63 = true ∧ s.groupDesc p (fld (bits v.toNat 47 7) 7) = .ok d :=
  ⟨demoColl 0 [] fun c => c, .host 0 0, 0, 0x8000000000004000, demoGroup, by and_intros <;> decide +kernel⟩

theorem witness_CollectiveEventsComplete_19 : ∃ (s : State) (who : Who) (p : Nat) (v : W64), p < 64 ∧ s.ownsPart who p = true
  ∧ (s.coll p).en = false :=
  ⟨demoRun, .host 0 0, 0, 0x123450000000000, by and_intros <;> decide +kernel⟩

theorem witness_PowerEventsComplete_2 : ∃ (s : State) (core n : Nat), core < 2048 ∧ n < 8 ∧ ((s.core core).slot n).cause = 4
  ∧ 4096 ≤ ((s.core core).slot n).budSkips ∧ (s.core core).reserved.isNone = true ∧ s.halts = false :=
  ⟨demoWith 0x100000004 fun c => { c with cause := 4, budSkips := 4096 }, 0, 0, by and_intros <;> decide +kernel⟩

theorem witness_PowerEventsComplete_4 : ∃ (s : State) (mean : Nat), s.pwr.limiting = false ∧ 11 * s.pwr.cap < 10 * mean :=
  ⟨demoRun, 10000, by and_intros <;> decide +kernel⟩

theorem witness_PowerEventsComplete_5 : ∃ (s : State) (mean : Nat), s.pwr.limiting = true ∧ 20 * mean < 21 * s.pwr.cap :=
  ⟨{ demoRun with pwr := { cap := 2000, limiting := true } }, 2099, by and_intros <;> decide +kernel⟩

theorem witness_PowerEventsComplete_6 : ∃ (s : State) (r : List (Nat × Nat)), (r.any fun x => 512 ≤ x.1) = false ∧ s.pwr.devState ≠ 0 :=
  ⟨demoRun, [(0, 101), (511, 40)], by and_intros <;> decide +kernel⟩

theorem witness_PowerEventsComplete_7 : ∃ (s : State) (k : Nat), k < 128 ∧ (s.cluster k).clk = .run ∧ s.clusterIdle k = true :=
  ⟨demoRun, 0, by and_intros <;> decide +kernel⟩

theorem witness_PowerEventsComplete_8 : ∃ (s : State) (k : Nat), k < 128 ∧ s.powered = true ∧ s.sup.shed = false
  ∧ (s.cluster k).clk = .pllOff :=
  ⟨demoRun, 127, by and_intros <;> decide +kernel⟩

theorem witness_PowerEventsComplete_9 : ∃ (s : State) (k : Nat), k < 128 ∧ s.powered = true ∧ s.sup.shed = false
  ∧ (s.cluster k).clk = .gated :=
  ⟨{ demoRun with clusters := [(0, { owner := some 0, clk := .gated })] }, 0, by and_intros <;> decide +kernel⟩

theorem witness_PowerEventsComplete_10 : ∃ (s : State) (k : Nat), k < 128 ∧ (s.cluster k).clk = .gated ∧ (s.cluster k).plloff ≠ 0
  ∧ s.clusterIdle k = true :=
  ⟨{ demoRun with clusters := [(0, { owner := some 0, clk := .gated })] }, 0, by and_intros <;> decide +kernel⟩

theorem witness_PowerEventsComplete_11 : ∃ (s : State) (k : Nat), k < 128 ∧ (s.cluster k).clk = .locking :=
  ⟨{ demoRun with clusters := [(0, { owner := some 0, clk := .locking })] }, 0, by and_intros <;> decide +kernel⟩

theorem witness_PowerEventsComplete_12 : ∃ (s : State) (port : Nat) (v : W64), port = s.mgmt ∧ 1200 ≤ bits v.toNat 11 0
  ∧ bits v.toNat 11 0 ≤ 3000 ∧ s.floorSum ≤ floorMaxOf (min s.pwr.cap (bits v.toNat 11 0)) :=
  ⟨demoRun, 0, 2000, by and_intros <;> decide +kernel⟩

theorem witness_PowerEventsComplete_13 : ∃ (s : State) (port : Nat) (v : W64), port = s.mgmt
  ∧ (bits v.toNat 11 0 < 1200 ∨ 3000 < bits v.toNat 11 0 ∨ floorMaxOf (min s.pwr.cap (bits v.toNat 11 0)) < s.floorSum) :=
  ⟨demoRun, 0, 1199, by and_intros <;> decide +kernel⟩

theorem witness_PowerEventsComplete_14 : ∃ (s : State) (p : Nat) (c : ServeCfg), p < 64 ∧ (s.serve p).cfg = some c
  ∧ s.donew p c = some (if (s.serve p).step = 0 then 2 ^ 64 - 1 else (s.serve p).step - 1)
  ∧ ((s.serve p).outst = true ∨ (s.serve p).arrived = true) ∧ s.halts = false :=
  ⟨demoServe, 0, ⟨0x10000, 4, 16, 1, 512, 1000, 1000, 10, 4, 0x20000, 0x30000, 0, 0, 0, 0⟩,
    by and_intros <;> decide +kernel⟩

theorem witness_QueryPacketsComplete_1 : ∃ (s u : State) (port ring : Nat) (k : Pkt), takes s u 0x0101 port ring k :=
  ⟨demoTakes (demoPkt3 0x0101 0x0) 0xFF, demoAfter (demoPkt3 0x0101 0x0) 0xFF, 0, 1, demoPkt3 0x0101 0x0, by decide +kernel⟩

theorem witness_QueryPacketsComplete_2 : ∃ (s u : State) (port ring : Nat) (k : Pkt), takes s u 0x0102 port ring k ∧ 64 ≤ k.n 16 19 :=
  ⟨demoTakes (demoPkt3 0x0102 0x4000000000000000000000000000000000) 0xFF,
  demoAfter (demoPkt3 0x0102 0x4000000000000000000000000000000000) 0xFF, 0, 1, demoPkt3 0x0102 0x4000000000000000000000000000000000,
    by and_intros <;> decide +kernel⟩

theorem witness_QueryPacketsComplete_3 : ∃ (s u : State) (port ring : Nat) (k : Pkt), takes s u 0x0103 port ring k ∧ 1200 ≤ k.n 8 9
  ∧ k.n 8 9 ≤ 3000 :=
  ⟨demoTakes (demoPkt3 0x0103 0x7d00000000000000000) 0xFF, demoAfter (demoPkt3 0x0103 0x7d00000000000000000) 0xFF, 0, 1,
  demoPkt3 0x0103 0x7d00000000000000000,
    by and_intros <;> decide +kernel⟩

theorem witness_QueryPacketsComplete_4 : ∃ (s u : State) (port ring : Nat) (k : Pkt), takes s u 0x0104 port ring k
  ∧ bits (k.n 8 8) 0 0 = u.mgmt :=
  ⟨demoTakes (demoPkt3 0x0104 0x0) 0xFF, demoAfter (demoPkt3 0x0104 0x0) 0xFF, 0, 1, demoPkt3 0x0104 0x0,
    by and_intros <;> decide +kernel⟩

theorem witness_QueryPacketsComplete_5 : ∃ (s u : State) (port ring : Nat) (k : Pkt), takes s u 0x0104 port ring k
  ∧ bits (k.n 8 8) 0 0 ≠ u.mgmt ∧ u.hasPortRing (bits (k.n 8 8) 0 0) = true
  ∧ ((u.hport port).rings.any fun x => x.1 != ring && x.2.part == 0xFF && x.2.taken.head?.any fun t => num t.b 0 1 != 0x0104) = false :=
  ⟨demoTakes (demoPkt3 0x0104 0x10000000000000000) 0xFF (fun s => s.setHport 1
  { up := true, rings := [(2, { en := true, part := 0xFF })] }),
  demoAfter (demoPkt3 0x0104 0x10000000000000000) 0xFF (fun s => s.setHport 1
  { up := true, rings := [(2, { en := true, part := 0xFF })] }), 0, 1, demoPkt3 0x0104 0x10000000000000000,
    by and_intros <;> decide +kernel⟩

theorem witness_QueryPacketsComplete_6 : ∃ (s u : State) (port ring : Nat) (k : Pkt), takes s u 0x0901 port ring k :=
  ⟨demoTakes (demoPkt3 0x0901 0x0) 0xFF, demoAfter (demoPkt3 0x0901 0x0) 0xFF, 0, 1, demoPkt3 0x0901 0x0, by decide +kernel⟩

theorem witness_QueryPacketsComplete_7 : ∃ (s u : State) (port ring : Nat) (k : Pkt), takes s u 0x0201 port ring k
  ∧ u.createFail k k.create = none :=
  ⟨demoTakes (demoPkt3 0x0201 0x10700000000000100000001000000000000000000000000000000060001000000000000) 0xFF (fun s => s.setHport 0
  { s.hport 0 with vfEn := true, numVfs := 4 }), demoAfter (demoPkt3 0x0201
  0x10700000000000100000001000000000000000000000000000000060001000000000000) 0xFF (fun s => s.setHport 0
  { s.hport 0 with vfEn := true, numVfs := 4 }), 0, 1,
  demoPkt3 0x0201 0x10700000000000100000001000000000000000000000000000000060001000000000000,
    by and_intros <;> decide +kernel⟩

theorem witness_QueryPacketsComplete_8 : ∃ (s u : State) (port ring : Nat) (k : Pkt), takes s u 0x0202 port ring k
  ∧ ((u.accept k).part k.part).draining = false :=
  ⟨demoTakes (demoPkt3 0x0202 0x0) 0xFF, demoAfter (demoPkt3 0x0202 0x0) 0xFF, 0, 1, demoPkt3 0x0202 0x0,
    by and_intros <;> decide +kernel⟩

theorem witness_QueryPacketsComplete_9 : ∃ (s u : State) (port ring : Nat) (k : Pkt), takes s u 0x0203 port ring k :=
  ⟨demoTakes (demoPkt3 0x0203 0x0) 0xFF, demoAfter (demoPkt3 0x0203 0x0) 0xFF, 0, 1, demoPkt3 0x0203 0x0, by decide +kernel⟩

theorem witness_QueryPacketsComplete_10 : ∃ (s u : State) (port ring : Nat) (k : Pkt) (v : State) (l : List Byte),
  takes s u 0x0301 port ring k ∧ k.mapOk = true ∧ (if bit (k.n 28 28) 4 then u.read k (k.n 16 23) (8 * k.n 24 27)
  else (u, .ok [])) = (v, .ok l) ∧ v.mapFails k (k.mapPages l) = none ∧ v.mapPends k (k.mapPages l) = false
  ∧ (v.mapAll k (k.mapPages l)).inQuota k.part = true :=
  ⟨demoTakes (demoPkt3 0x0301 0x200000001000000000020000000000000002000000000000000000000) 0xFF (fun s => s.mapPart 0
  fun pt => { pt with vaLimit := 0x40000000, hbmq := 1 }),
  demoAfter (demoPkt3 0x0301 0x200000001000000000020000000000000002000000000000000000000) 0xFF (fun s => s.mapPart 0
  fun pt => { pt with vaLimit := 0x40000000, hbmq := 1 }), 0, 1,
  demoPkt3 0x0301 0x200000001000000000020000000000000002000000000000000000000,
  demoAfter (demoPkt3 0x0301 0x200000001000000000020000000000000002000000000000000000000) 0xFF (fun s => s.mapPart 0
  fun pt => { pt with vaLimit := 0x40000000, hbmq := 1 }), [],
    by and_intros <;> decide +kernel⟩

theorem witness_QueryPacketsComplete_11 : ∃ (s u : State) (port ring : Nat) (k : Pkt), takes s u 0x0302 port ring k ∧ u.unmapOk k = true
  ∧ bit (k.n 20 20) 1 = true :=
  ⟨demoTakes (demoPkt3 0x0302 0x20000000100000000000000000000000000000000) 0xFF,
  demoAfter (demoPkt3 0x0302 0x20000000100000000000000000000000000000000) 0xFF, 0, 1,
  demoPkt3 0x0302 0x20000000100000000000000000000000000000000,
    by and_intros <;> decide +kernel⟩

theorem witness_QueryPacketsComplete_12 : ∃ (s u : State) (port ring : Nat) (k : Pkt), takes s u 0x0302 port ring k ∧ u.unmapOk k = true
  ∧ bit (k.n 20 20) 1 = false ∧ k.n 8 15 + k.n 16 19 * (if bit (k.n 20 20) 0 then 2 ^ 30 else 2 ^ 21) ≤ u.v2Base k.part :=
  ⟨demoTakes (demoPkt3 0x0302 0x100000000000000000000000000000000) 0xFF,
  demoAfter (demoPkt3 0x0302 0x100000000000000000000000000000000) 0xFF, 0, 1, demoPkt3 0x0302 0x100000000000000000000000000000000,
    by and_intros <;> decide +kernel⟩

theorem witness_QueryPacketsComplete_13 : ∃ (s u : State) (port ring : Nat) (k : Pkt), takes s u 0x0303 port ring k
  ∧ (((u.part k.part).faults.filter fun f => f.covers (k.n 8 15)).isEmpty) = false :=
  ⟨demoTakes (demoPkt3 0x0303 0x2000000000000000000000) 0xFF (fun s => s.mapPart 0
  fun pt => { pt with faults := [⟨1, 0x200000, 0, true, false⟩] }),
  demoAfter (demoPkt3 0x0303 0x2000000000000000000000) 0xFF (fun s => s.mapPart 0
  fun pt => { pt with faults := [⟨1, 0x200000, 0, true, false⟩] }), 0, 1, demoPkt3 0x0303 0x2000000000000000000000,
    by and_intros <;> decide +kernel⟩

theorem witness_WorkPacketsComplete_1 : ∃ (s u : State) (port ring : Nat) (k : Pkt), takes s u 0x0401 port ring k ∧ k.n 16 19 % 16 = 0
  ∧ k.n 28 31 % 16 = 0 ∧ k.n 26 27 ≠ 0 ∧ k.n 28 31 + k.n 16 19 ≤ 0xC0000 ∧ (u.part k.part).hitsSave (k.n 28 31) (k.n 16 19) = false
  ∧ u.allIn k.part (coreRun (k.n 24 25) (k.n 26 27)) = true :=
  ⟨demoTakes (demoPkt3 0x0401 0x10000000000000000001000000000000000000000000000000000) 0xFF,
  demoAfter (demoPkt3 0x0401 0x10000000000000000001000000000000000000000000000000000) 0xFF, 0, 1,
  demoPkt3 0x0401 0x10000000000000000001000000000000000000000000000000000,
    by and_intros <;> decide +kernel⟩

theorem witness_WorkPacketsComplete_2 : ∃ (s : State) (port ring : Nat) (l : LongOp), port < 2 ∧ ring < 256
  ∧ (s.ring port ring).longs.find? (fun l => l.opcode == 0x0401) = some l ∧ s.halts = false :=
  ⟨demoRingB 0xFF [] { longs := [⟨5, 0x0401, 0, true, leBytes 64 0x10000000000000000001000000000000000000000000000000000, false⟩] }, 0,
  1, ⟨5, 0x0401, 0, true, leBytes 64 0x10000000000000000001000000000000000000000000000000000, false⟩,
    by and_intros <;> decide +kernel⟩

theorem witness_WorkPacketsComplete_3 : ∃ (s u : State) (port ring : Nat) (k : Pkt) (v : State) (rs : List (List Byte)),
  takes s u 0x0402 port ring k ∧ u.launchOk k = true ∧ u.allIn k.part (coreRun k.launch.first k.launch.count) = true
  ∧ u.launchRecs port ring k.launch.recAddr k.launch.recStride k.launch.count = .ok rs
  ∧ v = u.recsTake port ring k.launch.recAddr k.launch.recStride k.launch.count
  ∧ (((coreRun k.launch.first k.launch.count).zip rs).all fun x => v.recOk k.part x.1 k.launch.v2 x.2) = true
  ∧ ((coreRun k.launch.first k.launch.count).any fun c => ((v.core c).ctx? k.launch.lctx).isSome) = false :=
  ⟨demoTakes (demoPkt3 0x0402 0x100000000000000000000001000000000000000000000) 0xFF,
  demoAfter (demoPkt3 0x0402 0x100000000000000000000001000000000000000000000) 0xFF, 0, 1,
  demoPkt3 0x0402 0x100000000000000000000001000000000000000000000,
  (demoAfter (demoPkt3 0x0402 0x100000000000000000000001000000000000000000000) 0xFF).recsTake 0 1 0x100000 0 1, [List.replicate 128 0],
    by and_intros <;> decide +kernel⟩

theorem witness_WorkPacketsComplete_4 : ∃ (s u : State) (port ring : Nat) (k : Pkt), takes s u 0x0403 port ring k
  ∧ (u.part k.part).nctx ≠ 7 ∧ u.allIn k.part (coreRun (k.n 8 9) (k.n 10 11)) = true :=
  ⟨demoTakes (demoPkt3 0x0403 0x100000000000000000000) 0xFF, demoAfter (demoPkt3 0x0403 0x100000000000000000000) 0xFF, 0, 1,
  demoPkt3 0x0403 0x100000000000000000000,
    by and_intros <;> decide +kernel⟩

theorem witness_WorkPacketsComplete_5 : ∃ (s u : State) (port ring : Nat) (k : Pkt), takes s u 0x0404 port ring k
  ∧ u.allIn k.part (coreRun (k.n 8 9) (k.n 10 11)) = true :=
  ⟨demoTakes (demoPkt3 0x0404 0x100000000000000000000) 0xFF, demoAfter (demoPkt3 0x0404 0x100000000000000000000) 0xFF, 0, 1,
  demoPkt3 0x0404 0x100000000000000000000,
    by and_intros <;> decide +kernel⟩

theorem witness_WorkPacketsComplete_6 : ∃ (s u : State) (port ring : Nat) (k : Pkt), takes s u 0x0501 port ring k
  ∧ (u.coll k.part).en = true ∧ u.allIn k.part (coreRun (k.n 16 17) (k.n 18 19)) = true ∧ k.n 8 15 % 2 ^ 24 = (u.coll k.part).step
  ∧ (u.coll k.part).stepBegin.isSome = false :=
  ⟨demoTakes (demoPkt3 0x0501 0x1000000000000000000000000000000000000) 0xFF (fun s => s.mapColl 0
  fun c => { c with en := true }), demoAfter (demoPkt3 0x0501 0x1000000000000000000000000000000000000) 0xFF (fun s => s.mapColl 0
  fun c => { c with en := true }), 0, 1, demoPkt3 0x0501 0x1000000000000000000000000000000000000,
    by and_intros <;> decide +kernel⟩

theorem witness_WorkPacketsComplete_7 : ∃ (s u : State) (port ring : Nat) (k : Pkt), takes s u 0x0502 port ring k :=
  ⟨demoTakes (demoPkt3 0x0502 0x0) 0xFF, demoAfter (demoPkt3 0x0502 0x0) 0xFF, 0, 1, demoPkt3 0x0502 0x0, by decide +kernel⟩

theorem witness_WorkPacketsComplete_8 : ∃ (s u : State) (port ring : Nat) (k : Pkt) (v : State) (l : List Byte),
  takes s u 0x0503 port ring k ∧ (if k.n 16 17 = 0 then (u, .ok []) else u.read k (k.n 8 15) (64 + 64 * k.n 16 17)) = (v, .ok l)
  ∧ (k.n 16 17 = 0 ∨ (zeroAt l 16 63 = true ∧ (((List.range (k.n 16 17)).map
  fun i => slice l (64 + 64 * i) (127 + 64 * i)).all peerEntryOk) = true
  ∧ peerTwice v.fab.cfg ((List.range (k.n 16 17)).map fun i => slice l (64 + 64 * i) (127 + 64 * i)) = false
  ∧ (v.fab.addrs.any fun x => x.1 != k.part && x.2 == slice l 0 15) = false))
  ∧ (v.fab.peers.filter fun x => x.2.part != k.part).length + k.n 16 17 ≤ 4096 :=
  ⟨demoTakes (demoPkt3 0x0503 0x100000000000010000000000000000000) 0xFF,
  demoAfter (demoPkt3 0x0503 0x100000000000010000000000000000000) 0xFF, 0, 1, demoPkt3 0x0503 0x100000000000010000000000000000000,
  ((demoAfter (demoPkt3 0x0503 0x100000000000010000000000000000000) 0xFF).read (demoPkt3 0x0503 0x100000000000010000000000000000000)
  0x1000 128).1, List.replicate 128 0,
    by and_intros <;> decide +kernel⟩

theorem witness_WorkPacketsComplete_9 : ∃ (s u : State) (port ring : Nat) (k : Pkt), takes s u 0x0601 port ring k
  ∧ bit (k.n 59 59) 0 = false ∧ (u.serve k.part).seqs.isEmpty = true ∧ (u.serve k.part).queue.isEmpty = true
  ∧ u.serveOk k.part k.serveCfg = true ∧ u.vok k.part k.serveCfg.donew 8 true = true :=
  ⟨demoTakes (demoPkt3 0x0601 0x80010001000100000000000000000000000000000000000000000000000000000000000000000000000000000000000000000)
  0xFF, demoAfter (demoPkt3 0x0601
  0x80010001000100000000000000000000000000000000000000000000000000000000000000000000000000000000000000000) 0xFF, 0, 1,
  demoPkt3 0x0601 0x80010001000100000000000000000000000000000000000000000000000000000000000000000000000000000000000000000,
    by and_intros <;> decide +kernel⟩

theorem witness_WorkPacketsComplete_10 : ∃ (s u : State) (port ring : Nat) (k : Pkt), takes s u 0x0601 port ring k
  ∧ bit (k.n 59 59) 0 = true ∧ zeroAt k.b 8 58 = true ∧ (u.serve k.part).seqs.isEmpty = true ∧ (u.serve k.part).queue.isEmpty = true :=
  ⟨demoTakes (demoPkt3 0x0601
  0x10000000000000000000000000000000000000000000000000000000000000000000000000000000000000000000000000000000000000000000000) 0xFF,
  demoAfter (demoPkt3 0x0601
  0x10000000000000000000000000000000000000000000000000000000000000000000000000000000000000000000000000000000000000000000000) 0xFF, 0, 1,
  demoPkt3 0x0601
  0x10000000000000000000000000000000000000000000000000000000000000000000000000000000000000000000000000000000000000000000000,
    by and_intros <;> decide +kernel⟩

theorem witness_WorkPacketsComplete_11 : ∃ (s u : State) (port ring : Nat) (k : Pkt) (w : State) (l : List Byte),
  takes s u 0x0602 port ring k ∧ k.n 16 17 ≠ 0 ∧ k.n 16 17 ≤ 4096 ∧ u.read k (k.n 8 15) (16 * k.n 16 17) = (w, .ok l) :=
  ⟨demoTakes (demoPkt3 0x0602 0x100000000000000000000000000000000) 0xFF,
  demoAfter (demoPkt3 0x0602 0x100000000000000000000000000000000) 0xFF, 0, 1, demoPkt3 0x0602 0x100000000000000000000000000000000,
  ((demoAfter (demoPkt3 0x0602 0x100000000000000000000000000000000) 0xFF).read (demoPkt3 0x0602 0x100000000000000000000000000000000) 0
  16).1, List.replicate 16 0,
    by and_intros <;> decide +kernel⟩

theorem witness_WorkPacketsComplete_12 : ∃ (s u : State) (port ring : Nat) (k : Pkt) (w : State) (l : List Byte),
  takes s u 0x0701 port ring k ∧ u.read k (k.n 8 15) (k.n 16 19) = (w, .ok l) :=
  ⟨demoTakes (demoPkt3 0x0701 0x1000000000000000000000000000000000) 0xFF,
  demoAfter (demoPkt3 0x0701 0x1000000000000000000000000000000000) 0xFF, 0, 1, demoPkt3 0x0701 0x1000000000000000000000000000000000,
  ((demoAfter (demoPkt3 0x0701 0x1000000000000000000000000000000000) 0xFF).read (demoPkt3 0x0701 0x1000000000000000000000000000000000) 0
  16).1, List.replicate 16 0,
    by and_intros <;> decide +kernel⟩

theorem witness_WorkPacketsComplete_13 : ∃ (s u : State) (port ring : Nat) (k : Pkt), takes s u 0x0702 port ring k
  ∧ (u.flt.bundles.all fun b => b.id != k.n 8 11) = false :=
  ⟨demoTakes (demoPkt3 0x0702 0x300000000000000070000000000000000) 0xFF (fun s => s.mapFlt
  fun f => { f with bundles := [⟨7, 0, false, List.replicate 64 0⟩] }),
  demoAfter (demoPkt3 0x0702 0x300000000000000070000000000000000) 0xFF (fun s => s.mapFlt
  fun f => { f with bundles := [⟨7, 0, false, List.replicate 64 0⟩] }), 0, 1, demoPkt3 0x0702 0x300000000000000070000000000000000,
    by and_intros <;> decide +kernel⟩

theorem witness_WorkPacketsComplete_14 : ∃ (s : State) (c : Nat), c < 128 ∧ s.clusterFree c = true :=
  ⟨demoRun, 127, by and_intros <;> decide +kernel⟩

theorem witness_WorkPacketsComplete_15 : ∃ (s u : State) (port ring : Nat) (k : Pkt), takes s u 0x0703 port ring k ∧ k.n 20 23 ≠ 0
  ∧ k.n 20 23 ≤ 32768 :=
  ⟨demoTakes (demoPkt3 0x0703 0x10000000000000000000000000000000000000000) 0xFF,
  demoAfter (demoPkt3 0x0703 0x10000000000000000000000000000000000000000) 0xFF, 0, 1,
  demoPkt3 0x0703 0x10000000000000000000000000000000000000000,
    by and_intros <;> decide +kernel⟩

theorem witness_StartUpEventsComplete_1 : ∃ (s : State), s.pwr.devState = 0 :=
  ⟨({ demoRun with pwr := { devState := 0 } } : State), by decide +kernel⟩

theorem witness_StartUpEventsComplete_3 : ∃ (s : State), s.canPowerUp = true :=
  ⟨({ demoRun with pwr := { devState := 1 }, boot := { stage := 1 } } : State), by decide +kernel⟩

theorem witness_StartUpEventsComplete_5 : ∃ (s : State), s.rising = true :=
  ⟨{ ({ demoRun with pwr := { devState := 1 }, boot := { stage := 1 } } : State) with boot := { stage := 2 } },
    by decide +kernel⟩

theorem witness_StartUpEventsComplete_6 : ∃ (s : State), s.sup.reset.active = false ∧ s.pwr.devState ≠ 0 :=
  ⟨demoRun, by and_intros <;> decide +kernel⟩

theorem witness_StartUpEventsComplete_7 : ∃ (s : State), (2 ≤ s.pwr.devState ∨ s.rising = true) :=
  ⟨demoRun, by decide +kernel⟩

theorem witness_StartUpEventsComplete_8 : ∃ (s : State), s.pwr.devState < 2 ∧ s.rising = false :=
  ⟨({ demoRun with pwr := { devState := 1 }, boot := { stage := 1 } } : State), by and_intros <;> decide +kernel⟩

theorem witness_StartUpEventsComplete_9 : ∃ (s u : State) (port ring : Nat) (k : Pkt) (w : State) (l : List Byte) (v : State) (kd : Nat),
  takes s u 0x0802 port ring k ∧ u.read k (k.n 8 15) (k.n 16 19) = (w, .ok l) ∧ w.stageStart l (k.n 20 23) = some (v, kd)
  ∧ k.n 20 23 + k.n 16 19 ≤ (v.staged kd).len :=
  ⟨demoTakes (demoPkt3 0x0802 0x100000001000000000000000000000000000000000) 0xFF (fun s =>
  { s with boot := { stageKind := some 1, staging := [(1, { len := 64, active := true })] } }),
  demoAfter (demoPkt3 0x0802 0x100000001000000000000000000000000000000000) 0xFF (fun s =>
  { s with boot := { stageKind := some 1, staging := [(1, { len := 64, active := true })] } }), 0, 1,
  demoPkt3 0x0802 0x100000001000000000000000000000000000000000,
  (State.read (demoAfter (demoPkt3 0x0802 0x100000001000000000000000000000000000000000) 0xFF (fun s =>
  { s with boot := { stageKind := some 1, staging := [(1, { len := 64, active := true })] } })) (demoPkt3 0x0802
  0x100000001000000000000000000000000000000000) 0 16).1, List.replicate 16 0,
  demoAfter (demoPkt3 0x0802 0x100000001000000000000000000000000000000000) 0xFF (fun s =>
  { s with boot := { stageKind := some 1, staging := [(1, { len := 64, active := true })] } }), 1,
    by and_intros <;> decide +kernel⟩

theorem witness_StartUpEventsComplete_10 : ∃ (s : State) (port ring : Nat) (l : LongOp), port < 2 ∧ ring < 256
  ∧ (s.ring port ring).longs.find? (fun l => l.opcode == 0x0802) = some l :=
  ⟨demoRingB 0xFF [] { longs := [⟨5, 0x0802, 0, true, [], false⟩] }, 0, 1, ⟨5, 0x0802, 0, true, [], false⟩,
    by and_intros <;> decide +kernel⟩

theorem witness_StartUpEventsComplete_11 : ∃ (s u : State) (port ring : Nat) (k : Pkt), takes s u 0x0803 port ring k
  ∧ u.partList.isEmpty = true ∧ bit (k.n 8 8) 0 = false ∧ ((List.range 3).any fun i => (u.staged i).verified) = true :=
  ⟨demoTakes (demoPkt3 0x0803 0x0) 0xFF (fun s =>
  { s with parts := [], boot := { staging := [(1, { len := 64, active := true, verified := true })] } }),
  demoAfter (demoPkt3 0x0803 0x0) 0xFF (fun s =>
  { s with parts := [], boot := { staging := [(1, { len := 64, active := true, verified := true })] } }), 0, 1, demoPkt3 0x0803 0x0,
    by and_intros <;> decide +kernel⟩

theorem witness_StartUpEventsComplete_12 : ∃ (s u : State) (port ring : Nat) (k : Pkt), takes s u 0x0803 port ring k
  ∧ u.partList.isEmpty = true ∧ bit (k.n 8 8) 0 = true ∧ u.mram.prevSlot < 3 ∧ u.mram.image u.mram.prevSlot ≠ [] :=
  ⟨demoTakes (demoPkt3 0x0803 0x10000000000000000) 0xFF (fun s =>
  { s with parts := [], mram := { prevSlot := 1, images := [(1, [0])] } }),
  demoAfter (demoPkt3 0x0803 0x10000000000000000) 0xFF (fun s =>
  { s with parts := [], mram := { prevSlot := 1, images := [(1, [0])] } }), 0, 1, demoPkt3 0x0803 0x10000000000000000,
    by and_intros <;> decide +kernel⟩

theorem witness_StartUpEventsComplete_13 : ∃ (s u : State) (port ring : Nat) (k : Pkt), takes s u 0x0801 port ring k ∧ 17943 ≤ k.n 48 51
  ∧ u.boot.idok = true :=
  ⟨demoTakes (demoPkt3 0x0801 0x4650000000000000000000000000000000000000000000000000000000000000000000000000000000000000000000000000)
  0xFF (fun s => { s with boot := { idok := true } }),
  demoAfter (demoPkt3 0x0801 0x4650000000000000000000000000000000000000000000000000000000000000000000000000000000000000000000000000) 0xFF
  (fun s => { s with boot := { idok := true } }), 0, 1,
  demoPkt3 0x0801 0x4650000000000000000000000000000000000000000000000000000000000000000000000000000000000000000000000000,
    by and_intros <;> decide +kernel⟩

theorem witness_StartUpEventsComplete_22 : ∃ (s : State) (t : List Byte), t.length = 5341 ∧ s.boot.act.isSome = false
  ∧ s.startingUp = false :=
  ⟨demoRun, List.replicate 5341 0, by and_intros <;> decide +kernel⟩

theorem witness_SupplyEventsComplete_1 : ∃ (s : State), s.pwr.devState ≠ 0 :=
  ⟨demoRun, by decide +kernel⟩

theorem witness_SupplyEventsComplete_2 : ∃ (s : State), s.sup.sagIn.active = false ∧ s.pwr.devState ≠ 0 :=
  ⟨demoRun, by and_intros <;> decide +kernel⟩

theorem witness_SupplyEventsComplete_3 : ∃ (s : State), s.sup.shed = true ∧ s.powered = true ∧ s.sup.sagIn.active = false :=
  ⟨{ demoRun with sup := { shed := true } }, by and_intros <;> decide +kernel⟩

theorem witness_SupplyEventsComplete_4 : ∃ (s : State), s.powered = true :=
  ⟨demoRun, by decide +kernel⟩

theorem witness_SupplyEventsComplete_5 : ∃ (s : State), s.powered = true ∧ s.sup.sagIn.active = true :=
  ⟨{ demoRun with sup := { sagIn := { active := true } } }, by and_intros <;> decide +kernel⟩

theorem witness_SupplyEventsComplete_6 : ∃ (s : State), s.pwr.devState ≠ 0 :=
  ⟨demoRun, by decide +kernel⟩

theorem witness_SupplyEventsComplete_7 : ∃ (s : State), s.pwr.devState = 4 ∧ s.sup.resetPend = true :=
  ⟨{ ({ demoRun with pwr := { devState := 4 } } : State) with sup := { resetPend := true } },
    by and_intros <;> decide +kernel⟩

theorem witness_SupplyEventsComplete_8 : ∃ (s : State), s.pwr.devState = 4 ∧ s.sup.resetPend = false :=
  ⟨({ demoRun with pwr := { devState := 4 } } : State), by and_intros <;> decide +kernel⟩

theorem witness_SupplyEventsComplete_9 : ∃ (s : State), s.pwr.devState = 5 ∧ s.sup.sagIn.active = false :=
  ⟨({ demoRun with pwr := { devState := 5 } } : State), by and_intros <;> decide +kernel⟩

theorem witness_SupplyEventsComplete_10 : ∃ (s : State), s.pwr.devState = 5 ∧ s.sup.sagIn.active = false :=
  ⟨({ demoRun with pwr := { devState := 5 } } : State), by and_intros <;> decide +kernel⟩

theorem witness_SupplyEventsComplete_11 : ∃ (s : State), s.pwr.devState ≠ 0 :=
  ⟨demoRun, by decide +kernel⟩

theorem witness_SupplyEventsComplete_12 : ∃ (s : State), s.pwr.devState ≠ 0 :=
  ⟨demoRun, by decide +kernel⟩

theorem witness_SupplyEventsComplete_13 : ∃ (s : State), s.pwr.devState ≠ 0 :=
  ⟨demoRun, by decide +kernel⟩

theorem witness_SupplyEventsComplete_14 : ∃ (s : State), s.pwr.devState ≠ 0 :=
  ⟨demoRun, by decide +kernel⟩

theorem witness_SupplyEventsComplete_15 : ∃ (s : State), s.pwr.devState ≠ 0 :=
  ⟨demoRun, by decide +kernel⟩

theorem witness_SupplyEventsComplete_16 : ∃ (s : State), s.pwr.devState ≠ 0 :=
  ⟨demoRun, by decide +kernel⟩

theorem witness_SupplyEventsComplete_17 : ∃ (s : State) (i : BoardInput), s.pwr.devState ≠ 0 :=
  ⟨demoRun, .perstB, by decide +kernel⟩

theorem witness_SupplyEventsComplete_18 : ∃ (s : State) (i : BoardInput), s.pwr.devState = 0 :=
  ⟨({ demoRun with pwr := { devState := 0 } } : State), .perstB, by decide +kernel⟩

theorem witness_SupplyEventsComplete_20 : ∃ (s : State), s.smbus = true :=
  ⟨demoRun, by decide +kernel⟩

theorem witness_SupplyEventsComplete_21 : ∃ (s : State), s.smbus = true :=
  ⟨demoRun, by decide +kernel⟩

theorem witness_SupplyEventsComplete_22 : ∃ (s : State), s.smbus = true :=
  ⟨demoRun, by decide +kernel⟩

theorem witness_SupplyEventsComplete_23 : ∃ (s : State), s.smbus = true :=
  ⟨demoRun, by decide +kernel⟩

theorem witness_SupplyEventsComplete_24 : ∃ (s : State), s.smbus = true :=
  ⟨demoRun, by decide +kernel⟩

theorem witness_SupplyEventsComplete_25 : ∃ (s : State), s.smbus = true :=
  ⟨demoRun, by decide +kernel⟩

theorem witness_SupplyEventsComplete_26 : ∃ (s : State), s.smbus = true ∧ s.sup.alert = true :=
  ⟨{ demoRun with sup := { alert := true } }, by and_intros <;> decide +kernel⟩

theorem witness_SupplyEventsComplete_27 : ∃ (s : State), s.sup.alert = false :=
  ⟨demoRun, by decide +kernel⟩

theorem witness_SupplyEventsComplete_28 : ∃ (s : State) (c : Nat), (c = 0 ∨ 6 < c) ∧ c < 256 :=
  ⟨demoRun, 7, by and_intros <;> decide +kernel⟩

theorem witness_HostPortCommandsComplete_1 : ∃ (s : State) (port func ring : Nat) (v : BitVec 32), port < 2 ∧ func < 16 ∧ ring < 256
  ∧ s.answers port func = true ∧ s.reachesRing port func ring = true ∧ (s.ring port ring).en = true
  ∧ v.toNat % 2 ^ 16 < 2 ^ (s.ring port ring).sqsz :=
  ⟨(demoRingB 0xFF []), 0, 0, 1, 15, by and_intros <;> decide +kernel⟩

theorem witness_HostPortCommandsComplete_2 : ∃ (s : State) (port func ring : Nat) (v : BitVec 32), port < 2 ∧ func < 16 ∧ ring < 256
  ∧ s.answers port func = true ∧ s.reachesRing port func ring = true ∧ (s.ring port ring).en = true
  ∧ 2 ^ (s.ring port ring).sqsz ≤ v.toNat % 2 ^ 16 :=
  ⟨(demoRingB 0xFF []), 0, 0, 1, 16, by and_intros <;> decide +kernel⟩

theorem witness_HostPortCommandsComplete_3 : ∃ (s : State) (port func ring d : Nat) (v : BitVec 32), port < 2 ∧ func < 16 ∧ ring < 256
  ∧ s.answers port func = true ∧ s.reachesRing port func ring = true ∧ (s.ring port ring).en = true
  ∧ v.toNat % 2 ^ 16 < 2 ^ (s.ring port ring).cqsz
  ∧ d = (v.toNat % 2 ^ 16 + 2 ^ (s.ring port ring).cqsz - (s.ring port ring).cqhead % 2 ^ (s.ring port ring).cqsz) % 2 ^ (s.ring port
  ring).cqsz ∧ d ≤ (s.ring port ring).cqtail - (s.ring port ring).cqhead :=
  ⟨(demoRingB 0xFF [] { cqtail := 5, cqhead := 3 }), 0, 0, 1, 2, 5, by and_intros <;> decide +kernel⟩

theorem witness_HostPortCommandsComplete_4 : ∃ (s : State) (port func ring : Nat) (v : BitVec 32), port < 2 ∧ func < 16 ∧ ring < 256
  ∧ s.answers port func = true ∧ s.reachesRing port func ring = true ∧ (s.ring port ring).en = true
  ∧ 2 ^ (s.ring port ring).cqsz ≤ v.toNat % 2 ^ 16 :=
  ⟨(demoRingB 0xFF []), 0, 0, 1, 16, by and_intros <;> decide +kernel⟩

theorem witness_HostPortCommandsComplete_5 : ∃ (s : State) (port ring : Nat), port < 2 ∧ ring < 256 ∧ (s.ring port ring).en = true
  ∧ (s.ring port ring).err = false ∧ (s.hport port).d3 = false ∧ (s.hport port).inReset = false ∧ s.served = true
  ∧ s.boot.act.isSome = false :=
  ⟨(demoRingB 0xFF [] { tailNew := some 2 }), 0, 1, by and_intros <;> decide +kernel⟩

theorem witness_HostPortCommandsComplete_6 : ∃ (s : State) (port func vec : Nat), port < 2 ∧ func < 16 ∧ vec < 64
  ∧ (Tab.get ({} : Msix) (s.func port func).vecs vec).pacing = true :=
  ⟨{ demoRun with hports := [(0, { funcs := [(0, { vecs := [(3, { pacing := true })] })] })] }, 0, 0, 3,
    by and_intros <;> decide +kernel⟩

theorem witness_HostPortCommandsComplete_7 : ∃ (s : State) (port func vec : Nat), port < 2 ∧ func < 16 ∧ vec < 64
  ∧ s.answers port func = true :=
  ⟨demoHost, 1, 0, 63, by and_intros <;> decide +kernel⟩

theorem witness_HostPortCommandsComplete_8 : ∃ (s : State) (p : Nat), p < 64 ∧ s.halts = false :=
  ⟨demoRun, 63, by decide +kernel⟩

theorem witness_HostPortCommandsComplete_9 : ∃ (s : State) (port func ring : Nat) (v : W64), ring < 256 ∧ v.toNat.testBit 63 = true
  ∧ s.reachesRing port func ring = true ∧ (s.ring port ring).en = false ∧ (s.ring port ring).outst = 0 ∧ func = 0
  ∧ s.ringFieldsOk port ring (ringFields (s.ring port ring) v.toNat) = true ∧ s.answers port func = true :=
  ⟨(demoRun.setHport 0 { up := true }), 0, 0, 2, 0x8000FF0000000404, by and_intros <;> decide +kernel⟩

theorem witness_HostPortCommandsComplete_10 : ∃ (s : State) (port func ring : Nat) (v : W64), ring < 256 ∧ v.toNat.testBit 63 = false
  ∧ s.reachesRing port func ring = true ∧ (s.ring port ring).en = true ∧ s.answers port func = true :=
  ⟨(demoRingB 0xFF []), 0, 0, 1, 0, by and_intros <;> decide +kernel⟩

theorem witness_HostPortCommandsComplete_11 : ∃ (s : State), s.mgmtPend = true ∧ s.autofail = true ∧ s.qualifies (1 - s.mgmt) = true :=
  ⟨{ demoRun with mgmtPend := true, autofail := true, hports := [(1, { up := true, rings := [(1, { en := true, part := 0xFF })] })] },
    by and_intros <;> decide +kernel⟩

theorem witness_HostPortCommandsComplete_12 : ∃ (s : State) (port : Nat), port < 2 ∧ s.perstActive port = false ∧ s.pwr.devState ≠ 0 :=
  ⟨demoRun, 1, by and_intros <;> decide +kernel⟩

theorem witness_HostPortCommandsComplete_13 : ∃ (s : State) (port : Nat), port < 2 :=
  ⟨demoRun, 1, by decide +kernel⟩

theorem witness_HostPortCommandsComplete_14 : ∃ (s : State) (port : Nat), port < 2 :=
  ⟨demoRun, 1, by decide +kernel⟩

theorem witness_HostPortCommandsComplete_15 : ∃ (s : State) (port : Nat), port < 2 ∧ (s.hport port).up = true :=
  ⟨demoHost, 1, by and_intros <;> decide +kernel⟩

theorem witness_HostPortCommandsComplete_16 : ∃ (s : State) (port speed width : Nat), port < 2 ∧ 1 ≤ speed ∧ speed ≤ 5
  ∧ (([1, 2, 4, 8, 16] : List Nat).contains width) = true ∧ (s.hport port).inReset = false ∧ s.perstActive port = false
  ∧ (port = 0 ∨ (num s.boot.recNow 2056 2056).testBit 2 = false) ∧ s.powered = true :=
  ⟨demoRun, 1, 5, 16, by and_intros <;> decide +kernel⟩

theorem witness_HostPortCommandsComplete_17 : ∃ (s : State) (port : Nat), port < 2 :=
  ⟨demoRun, 0, by decide +kernel⟩

theorem witness_HostPortCommandsComplete_18 : ∃ (s : State) (port func : Nat), port < 2 ∧ 1 ≤ func ∧ func < 16 :=
  ⟨demoRun, 0, 15, by and_intros <;> decide +kernel⟩

theorem witness_HostPortCommandsComplete_19 : ∃ (s : State) (port : Nat) (en : Bool) (n : Nat), port < 2 ∧ n ≤ 15
  ∧ s.boot.recovery = false :=
  ⟨demoRun, 1, true, 15, by and_intros <;> decide +kernel⟩

theorem witness_HostPortCommandsComplete_20 : ∃ (s : State) (port : Nat), port < 2 :=
  ⟨demoRun, 1, by decide +kernel⟩

theorem witness_HostPortCommandsComplete_21 : ∃ (s : State) (port : Nat), port < 2 :=
  ⟨demoRun, 1, by decide +kernel⟩

theorem witness_HostPortCommandsComplete_22 : ∃ (s : State) (port func part va len : Nat), port < 2 ∧ func < 16
  ∧ s.answers port func = true ∧ (s.func port func).atsEn = true :=
  ⟨demoHost, 0, 0, 0, 0x1000, 0x1000, by and_intros <;> decide +kernel⟩

theorem witness_HostPortCommandsComplete_23 : ∃ (s : State) (port pa len : Nat) (kind : CplKind), port < 2 ∧ hostBase port ≤ pa
  ∧ pa + len ≤ hostBase (port + 1) ∧ 1 ≤ len ∧ len ≤ 4096 :=
  ⟨demoHost, 1, hostBase 1, 64, .ur, by and_intros <;> decide +kernel⟩

theorem witness_HostPortCommandsComplete_24 : ∃ (s : State) (port pa len : Nat), port < 2 ∧ hostBase port ≤ pa
  ∧ pa + len ≤ hostBase (port + 1) ∧ 1 ≤ len ∧ len ≤ 4096 :=
  ⟨demoHost, 1, hostBase 1, 64, by and_intros <;> decide +kernel⟩

theorem witness_FaultEventsComplete_1 : ∃ (s : State) (core : Nat), core < 2048 :=
  ⟨demoRun, 2047, by decide +kernel⟩

theorem witness_FaultEventsComplete_2 : ∃ (s : State) (core : Nat), core < 2048 ∧ s.halts = false :=
  ⟨demoRun, 2047, by decide +kernel⟩

theorem witness_FaultEventsComplete_3 : ∃ (s : State) (core : Nat), core < 2048 :=
  ⟨demoRun, 2047, by decide +kernel⟩

theorem witness_FaultEventsComplete_4 : ∃ (s : State), s.flt.route.isEmpty = false ∧ s.powered = true :=
  ⟨demoRun.mapFlt fun f => { f with route := [(0, 5)], losses := [(0, 0, 0)] }, by and_intros <;> decide +kernel⟩

theorem witness_FaultEventsComplete_5 : ∃ (s : State) (p : Nat), p < 64 ∧ s.mayRelaunch p = true
  ∧ ((s.coll p).en = false ∨ (s.coll p).dec ≠ 3) ∧ s.powered = true :=
  ⟨demoAgain {}, 0, by and_intros <;> decide +kernel⟩

theorem witness_FaultEventsComplete_6 : ∃ (s : State) (p : Nat), p < 64 ∧ s.mayRelaunch p = true ∧ (s.coll p).en = true
  ∧ (s.coll p).dec = 3 ∧ s.powered = true :=
  ⟨demoAgain { en := true, dec := 3 }, 0, by and_intros <;> decide +kernel⟩

theorem witness_FaultEventsComplete_7 : ∃ (s : State) (k : Nat), k < 8 ∧ s.flt.dispok.testBit k = true :=
  ⟨demoRun, 7, by and_intros <;> decide +kernel⟩

theorem witness_FaultEventsComplete_8 : ∃ (s : State) (pa : Nat) (data : List Byte), (s.region pa = .hbm ∨ s.region pa = .attic) :=
  ⟨demoRun, 0, [1, 2], by decide +kernel⟩

theorem witness_FaultEventsComplete_9 : ∃ (s : State) (pa c t o : Nat) (data : List Byte), s.region pa = .scratch c t o :=
  ⟨demoRun, scrPa 3 64, 0, 3, 64, [1, 2], by decide +kernel⟩

theorem witness_FaultEventsComplete_10 : ∃ (s : State) (unit fails : Nat), unit / 2 ^ 24 < 6 ∧ fails < 4
  ∧ (Tab.get ({} : UnitEnt) s.flt.units unit).times.isEmpty = false ∧ s.testable (unit / 2 ^ 24) (unit % 2 ^ 24) = true :=
  ⟨demoRun.mapFlt fun f => { f with units := [(3 * 2 ^ 24 + 5, { times := [0] })] }, 3 * 2 ^ 24 + 5, 0,
    by and_intros <;> decide +kernel⟩

theorem witness_FaultEventsComplete_12 : ∃ (s : State) (port ring : Nat) (t : TestRun) (b : Bundle), port < 2 ∧ ring < 256
  ∧ s.flt.tests.find? (fun t => t.port == port && t.ring == ring && t.waiting.isEmpty) = some t
  ∧ s.flt.bundles.find? (fun b => b.id == t.bundle) = some b ∧ s.halts = false :=
  ⟨demoRun.mapFlt fun f => { f with bundles := [⟨7, 0, false, List.replicate 64 0⟩], tests := [⟨0, 1, 5, 7, [], [], 0, 0⟩] }, 0, 1, ⟨0,
  1, 5, 7, [], [], 0, 0⟩, ⟨7, 0, false, List.replicate 64 0⟩,
    by and_intros <;> decide +kernel⟩

theorem witness_FaultEventsComplete_14 : ∃ (s : State) (k : Nat), k < 128 ∧ Keys.has s.flt.scrub k = true
  ∧ (s.flt.route.any fun x => clusterOf x.1 == k) = false ∧ s.halts = false :=
  ⟨demoRun.mapFlt fun f => { f with scrub := [0] }, 0, by and_intros <;> decide +kernel⟩

theorem witness_FaultEventsComplete_15 : ∃ (s : State) (f : Nat), (s.zeroing.any fun x => x.1 == f) = true ∧ s.halts = false :=
  ⟨{ demoRun with zeroing := [(3, 0)], mem := [(3 * 2 ^ 21, 5)] }, 3, by and_intros <;> decide +kernel⟩

theorem witness_WindowAndPeerEventsComplete_1 : ∃ (s : State) (port func off len p : Nat), port < 2 ∧ func < 16
  ∧ s.answers port func = true ∧ s.boundPart port func = some p ∧ 0 < len ∧ len ≤ 4096 ∧ off + len ≤ s.bar2Size port func :=
  ⟨demoBar2, 0, 0, 0, 4, 0, by and_intros <;> decide +kernel⟩

theorem witness_WindowAndPeerEventsComplete_2 : ∃ (s : State) (port func off p : Nat) (data : List Byte) (bad : Bool), port < 2
  ∧ func < 16 ∧ s.answers port func = true ∧ s.boundPart port func = some p ∧ data ≠ [] ∧ data.length ≤ 4096
  ∧ off + data.length ≤ s.bar2Size port func :=
  ⟨demoBar2, 0, 0, 0, 0, [1], false, by and_intros <;> decide +kernel⟩

theorem witness_WindowAndPeerEventsComplete_3 : ∃ (s : State) (f : Frame), f.port < 64 ∧ (s.fport f.port).up = true
  ∧ s.rxFill f.port + f.bytes.length ≤ 2 ^ 20 :=
  ⟨demoSend, demoFrame 0 0 0, by and_intros <;> decide +kernel⟩

theorem witness_WindowAndPeerEventsComplete_4 : ∃ (s : State) (n : Nat) (r : RxPkt) (q : List RxPkt), n < 4096 ∧ (s.peer n).rx = r :: q
  ∧ r.pkt.typ = 0 :=
  ⟨demoOpen [demoPkt 0 10 [1]], 0, demoPkt 0 10 [1], [], by and_intros <;> decide +kernel⟩

theorem witness_WindowAndPeerEventsComplete_5 : ∃ (s : State) (n : Nat) (r : RxPkt) (q : List RxPkt), n < 4096 ∧ (s.peer n).rx = r :: q
  ∧ r.pkt.typ = 1 ∧ (s.peer n).hs = none :=
  ⟨demoOpen [demoPkt 1 0 [1]], 0, demoPkt 1 0 [1], [], by and_intros <;> decide +kernel⟩

theorem witness_WindowAndPeerEventsComplete_6 : ∃ (s : State) (n : Nat) (r : RxPkt) (q : List RxPkt), n < 4096 ∧ (s.peer n).rx = r :: q
  ∧ r.pkt.typ = 2 :=
  ⟨demoOpen [demoPkt 2 0 []], 0, demoPkt 2 0 [], [], by and_intros <;> decide +kernel⟩

theorem witness_WindowAndPeerEventsComplete_7 : ∃ (s : State) (n : Nat) (k : Nat × NextPkt) (q : List (Nat × NextPkt)), n < 4096
  ∧ (s.peer n).paceAt ≤ s.ltime ∧ s.sendable (s.peer n) = k :: q :=
  ⟨demoSend, 0, (1, .piece demoMsg), [], by and_intros <;> decide +kernel⟩

theorem witness_WindowAndPeerEventsComplete_8 : ∃ (s : State) (n : Nat) (y : Session), n < 4096 ∧ (s.peer n).cur = some y
  ∧ 0 < y.ackOwed :=
  ⟨demoOpen [] { demoSession with ackOwed := 1 }, 0, { demoSession with ackOwed := 1 }, by and_intros <;> decide +kernel⟩

theorem witness_WindowAndPeerEventsComplete_9 : ∃ (s : State) (n : Nat) (y : Session) (a : Unacked) (q : List Unacked), n < 4096
  ∧ (s.peer n).old = none ∧ (s.peer n).cur = some y ∧ y.unacked = a :: q :=
  ⟨demoOpen [] { demoSession with unacked := [demoUnacked] }, 0, { demoSession with unacked := [demoUnacked] }, demoUnacked, [],
    by and_intros <;> decide +kernel⟩

theorem witness_WindowAndPeerEventsComplete_11 : ∃ (s : State) (n : Nat) (y : Session) (a : Unacked), n < 4096 ∧ (s.peer n).st = .opened
  ∧ (s.peer n).cur = some y ∧ a ∈ y.unacked ∧ a.first + y.deadt * ticksMs ≤ s.ltime :=
  ⟨{ demoOpen [] { demoSession with unacked := [demoUnacked] } with ltime := 10 ^ 10 }, 0, { demoSession with unacked := [demoUnacked] },
  demoUnacked,
    by and_intros <;> decide +kernel⟩

theorem witness_WindowAndPeerEventsComplete_12 : ∃ (s : State) (n : Nat), n < 4096 ∧ (s.peer n).st = .failed :=
  ⟨demoFab fun x => { x with st := .failed }, 0, by and_intros <;> decide +kernel⟩

theorem witness_WindowAndPeerEventsComplete_13 : ∃ (s : State) (n : Nat), n < 4096 ∧ (s.peer n).st = .down :=
  ⟨demoFab fun x => { x with st := .down }, 0, by and_intros <;> decide +kernel⟩

theorem witness_WindowAndPeerEventsComplete_14 : ∃ (s : State) (p : Nat) (c : ServeCfg), p < 64 ∧ (s.serve p).cfg = some c
  ∧ (s.serve p).step = 0 ∧ s.donew p c = some (2 ^ 64 - 1) ∧ (s.serve p).arrived = true ∧ s.halts = false :=
  ⟨demoServe, 0, ⟨0x10000, 4, 16, 1, 512, 1000, 1000, 10, 4, 0x20000, 0x30000, 0, 0, 0, 0⟩,
    by and_intros <;> decide +kernel⟩

theorem witness_WindowAndPeerEventsComplete_15 : ∃ (s : State) (core : Nat), core < 2048 :=
  ⟨demoRun, 2047, by decide⟩

theorem witness_ClusterClocksFollowTheirTable_1 : ∃ (s : State) (k : Nat), k < 128 :=
  ⟨demoRun, 0, by decide⟩

theorem witness_ClusterClocksFollowTheirTable_2 : ∃ (s : State) (k : Nat), k < 128 :=
  ⟨demoRun, 0, by decide⟩

theorem witness_ClusterClocksFollowTheirTable_3 : ∃ (s : State) (k : Nat), k < 128 :=
  ⟨demoRun, 0, by decide⟩

theorem witness_ClusterClocksFollowTheirTable_4 : ∃ (s : State) (k : Nat), k < 128 :=
  ⟨demoRun, 0, by decide⟩

end Sys2Proof
end

section
/-! SUPPORT. Chapter 1: logical ids and clusters (R12), tokens (R35), and SEQ.CTL operation 1 (R21). -/

namespace Sys2Proof.Machine

open Sys2Proof

/-! Logical ids and clusters (R12). -/

/-- The cluster of a core lies at the row and column of the core divided by 4, on the core's die. -/
theorem clusterOf_logicalId (d : Nat) {r c : Nat} (hr : r < 16) (hc : c < 32) :
    clusterOf (d * 512 + r * 32 + c) = d * 32 + r / 4 * 8 + c / 4 := by
  unfold clusterOf
  have hdie : (d * 512 + r * 32 + c) / 512 = d := by omega
  have hrow : (d * 512 + r * 32 + c) % 512 / 32 = r := by omega
  have hcol : (d * 512 + r * 32 + c) % 32 = c := by omega
  simp only [hdie, hrow, hcol]

/-- The cores of the cluster in cluster row `R` and cluster column `C` of a die are those whose row and column divided by 4 are `R` and
`C`: core `i` of the list stands at row `4 R + i / 4` and column `4 C + i % 4`. -/
theorem mem_clusterCores_iff (d m : Nat) {R C : Nat} (hR : R < 4) (hC : C < 8) :
    m ∈ clusterCores (d * 32 + R * 8 + C) ↔ ∃ x y, x / 4 = R ∧ y / 4 = C ∧ m = d * 512 + x * 32 + y := by
  have hdie : (d * 32 + R * 8 + C) / 32 = d := by omega
  have hrow : (d * 32 + R * 8 + C) % 32 / 8 = R := by omega
  have hcol : (d * 32 + R * 8 + C) % 8 = C := by omega
  simp only [clusterCores, hdie, hrow, hcol, List.mem_map, List.mem_range]
  constructor
  · rintro ⟨i, hi, rfl⟩
    exact ⟨R * 4 + i / 4, C * 4 + i % 4, by omega, by omega, by omega⟩
  · rintro ⟨x, y, hx, hy, rfl⟩
    exact ⟨x % 4 * 4 + y % 4, by omega, by omega⟩

/-- Settles O11: the cluster of a logical id is computed from its row and column, and its cores are read off the list of the cluster. -/
theorem logicalIdsAndClusters : Obligations.LogicalIdsAndClusters := by
  unfold Obligations.LogicalIdsAndClusters
  intro d r c hd hr hc
  dsimp only
  rw [clusterOf_logicalId d hr hc]
  exact ⟨by omega, rfl, by omega, fun m => mem_clusterCores_iff d m (by omega) (by omega)⟩

/-! Tokens (R35). -/

/-- Settles O12: an issue takes the tokens of the waits from its slot, and a signal gives those of its set. -/
theorem tokensAreTakenAndGiven : Obligations.TokensAreTakenAndGiven := by
  unfold Obligations.TokensAreTakenAndGiven
  refine ⟨tokMet_iff, ?issue, fun c m k hk => tok_tokGive c.tokens m k hk, ?overflow⟩
  case issue =>
    intro s h natural cycles k hk _
    obtain ⟨_, hslot⟩ := issued_slot s h natural cycles
    rw [hslot]
    exact tok_tokTake _ _ k hk
  case overflow =>
    intro c m
    have hflag : (c.give m).tokovf = (c.tokovf || (tokGive c.tokens m).2) := rfl
    rw [hflag, Bool.or_eq_true, tokGive_over]

/-! SEQ.CTL (R19, R21). -/

/-- A SEQ.CTL instruction that the control core runs takes the effect of the operation that rs1[1:0] names. -/
theorem seqCtl_of_executes {s : State} {core slot len rd rs1 rs2 o : Nat} {w : BitVec 32}
    {body : Ctx → Nat → Nat → Nat → State → State} (e : executes s core slot w len (.custom false 0 6 rd rs1 rs2))
    (ho : ((s.slot core slot).x rs1).toNat % 4 = o) :
    seqCtl core slot w s o body = .next (body (s.slot core slot) len rd rs2 (turn s core slot)) := by
  unfold seqCtl
  rw [custom0_of_executes e rfl, if_pos ho]

/-- SEQ.CTL operation 1 ends the context while its sequencer is not paused; else it empties the buffer at the pointer in rs2. -/
theorem exec_seqCtlSetPointer_of_executes {s : State} {core slot len rd rs1 rs2 : Nat} {w : BitVec 32}
    (e : executes s core slot w len (.custom false 0 6 rd rs1 rs2)) (ho : ((s.slot core slot).x rs1).toNat % 4 = 1) :
    exec (.seqCtlSetPointer core slot w) s = .next
      (if (s.slot core slot).paused then
        ((turn s core slot).ccDone core slot len id).emptyBuf core slot
          (some ⟨bits ((s.slot core slot).x rs2).toNat 17 16, bits ((s.slot core slot).x rs2).toNat 15 0⟩)
      else (turn s core slot).faultCtx core (s.slot core slot).lctx stIllegalOp) := by
  have harm : exec (.seqCtlSetPointer core slot w) s = execSeqCtlSetPointer core slot w s := rfl
  rw [harm, execSeqCtlSetPointer, seqCtl_of_executes e ho]
  cases (s.slot core slot).paused <;> rfl

/-- Settles O20: while paused, the buffer that operation 1 empties restarts at the pointer in rs2; while not, the context ends. -/
theorem seqCtlSetsThePointer : Obligations.SeqCtlSetsThePointer := by
  unfold Obligations.SeqCtlSetsThePointer
  constructor
  · intro s core slot len rd rs1 rs2 w e ho hp
    rw [exec_seqCtlSetPointer_of_executes e ho, hp]
    rfl
  · intro s core slot len rd rs1 rs2 w e ho hp
    exact ⟨_, by rw [exec_seqCtlSetPointer_of_executes e ho, if_pos hp], State.emptyBuf_slot _ core slot (some _)⟩

end Sys2Proof.Machine
end

section
/-! A core that is lost (R372, R391): the two events that report it. -/

namespace Sys2Proof.Machine

open Sys2Proof

/-- An event of a core that leaves the state as it is for an id past the 2048 cores takes its effect `t` exactly at the ids below. -/
theorem next_guarded_by_core_id (core : Nat) (s t : State) :
    (if 2048 ≤ core then (.next s : Out) else .next t) = .next (if core < 2048 then t else s) := by
  by_cases hcore : core < 2048
  · rw [if_pos hcore, if_neg (Nat.not_le.mpr hcore)]
  · rw [if_neg hcore, if_pos (Nat.not_lt.mp hcore)]

/-- CORE_LOSS loses a core of the device, and no core where the id names none. -/
theorem exec_coreLoss (s : State) (core : Nat) :
    exec (.coreLoss core) s = .next (if core < 2048 then s.loseCore core else s) := by
  have harm : exec (.coreLoss core) s = execCoreLoss core s := rfl
  rw [harm, execCoreLoss, next_guarded_by_core_id]

/-- ROUTER_STALL loses the core of the stalled router, and no core where the id names none. -/
theorem exec_routerStall (s : State) (core : Nat) :
    exec (.routerStall core) s = .next (if core < 2048 then s.loseCore core else s) := by
  have harm : exec (.routerStall core) s = execRouterStall core s := rfl
  rw [harm, execRouterStall, next_guarded_by_core_id]

/-- Settles O59: a stalled router output and a lost core have one outcome, for every core id and every state. -/
theorem routerStallLosesTheCore : Obligations.RouterStallLosesTheCore := by
  unfold Obligations.RouterStallLosesTheCore
  intro s core
  rw [exec_routerStall, exec_coreLoss]

end Sys2Proof.Machine
end

section
/-! SUPPORT. What every step keeps (logs 1 and 2), what a step does to the queue, and the state after reset. -/

-- One proof at a time: the thread of every theorem of a large file would not fit in memory.
set_option Elab.async false

namespace Sys2Proof.Machine

open Sys2Proof

/-- A step keeps the canonical form of memory, and of the queue it drops the front command and nothing else. -/
theorem step_keeps {s t : State} (e : step s = .next t) : t.pending = s.pending.tail ∧ (memOk s → memOk t) := by
  unfold step at e
  split at e
  next hq =>
    have k : Keeps s t := by
      cases e
      exact keeps_State_idle (Keeps.refl s)
    exact ⟨by rw [k.pending, hq]; rfl, k.mem⟩
  next c rest hq =>
    have k : Keeps { s with pending := rest } t := exec_keeps c _ t e
    exact ⟨by rw [k.pending, hq]; rfl, k.mem⟩

/-- Settles O5: every command keeps the canonical form (`exec_keeps`), and so does what time does on an empty queue. -/
theorem memoryStaysCanonical : Obligations.MemoryStaysCanonical := by
  unfold Obligations.MemoryStaysCanonical
  exact fun s t hs e => (step_keeps e).2 hs

/-- Settles O4: a step takes the front command off the queue before it runs, and no command touches the queue (`exec_keeps`). -/
theorem queueServedInOrder : Obligations.QueueServedInOrder := by
  unfold Obligations.QueueServedInOrder
  exact fun s t e => (step_keeps e).1

/-- Settles O1: the first branch of `step` on a queue that is not empty. -/
theorem stepRunsFrontCommand : Obligations.StepRunsFrontCommand := by
  unfold Obligations.StepRunsFrontCommand
  intro s c rest hq
  unfold step
  rw [hq]

/-- A tick of a cluster touches cores, clusters and partitions only. -/
theorem tickCluster_frame (s : State) (k : Nat) :
    ∃ cs cl ps, s.tickCluster k = { s with cores := cs, clusters := cl, parts := ps } := by
  have cores : ∀ (ks : List (Nat × Core)) (n : Nat) (u : State),
      ∃ cs, ks.foldl (fun s x => s.setCore x.1 (x.2.tick n)) u = { u with cores := cs } := by
    intro ks n
    induction ks with
    | nil => exact fun u => ⟨u.cores, rfl⟩
    | cons x t ih =>
      intro u
      obtain ⟨cs, e⟩ := ih (u.setCore x.1 (x.2.tick n))
      exact ⟨cs, e⟩
  unfold State.tickCluster
  dsimp only
  generalize (if (s.cluster k).stretch then tickCycles 3 else tickCycles (s.cluster k).step) = n
  obtain ⟨cs, e⟩ := cores ((clusterCores k).map fun x => (x, s.ask x)) n s
  rw [e]
  split
  · split
    · exact ⟨_, _, _, rfl⟩
    · exact ⟨_, _, _, rfl⟩
  · exact ⟨_, _, _, rfl⟩

/-- A tick of local time in a powered device advances local time by 1, and touches besides powered-on time, cores, clusters and partitions
only. -/
theorem tick_frame {s : State} (lo : 2 ≤ s.pwr.devState) (hi : s.pwr.devState ≤ 4) :
    ∃ cs cl ps fl, s.tick = { s with ltime := s.ltime + 1, cores := cs, clusters := cl, parts := ps, flt := fl } := by
  have all : ∀ (xs : Tab Cluster) (u : State), ∃ cs cl ps,
      xs.foldl (fun s x => if s.clusterRuns x.1 then s.tickCluster x.1 else s) u = { u with cores := cs, clusters := cl, parts := ps } := by
    intro xs
    induction xs with
    | nil => exact fun u => ⟨u.cores, u.clusters, u.parts, rfl⟩
    | cons x t ih =>
      intro u
      rw [List.foldl_cons]
      split
      · obtain ⟨cs, cl, ps, e⟩ := tickCluster_frame u x.1
        obtain ⟨cs', cl', ps', e'⟩ := ih (u.tickCluster x.1)
        exact ⟨cs', cl', ps', by rw [e', e]⟩
      · exact ih u
  unfold State.tick
  rw [if_neg (by omega)]
  dsimp only
  obtain ⟨cs, cl, ps, e⟩ := all s.clusters { s with
    ltime := s.ltime + 1
    flt := { s.flt with pons := if (s.ltime + 1) % ticksPerSecond = 0 ∧ s.powered then s.flt.pons + 1 else s.flt.pons } }
  exact ⟨cs, cl, ps, _, e⟩

/-- The power-up phase runs in DEVSTATE 1 only. -/
theorem rising_devState {s : State} (h : s.rising = true) : s.pwr.devState = 1 := by
  unfold State.rising at h
  simp only [Bool.and_eq_true, beq_iff_eq] at h
  exact h.1.1

/-- On an empty queue time passes. -/
theorem step_of_no_command {s : State} (h : s.pending = []) : step s = .next s.idle := by
  unfold step
  rw [h]

/-- Settles O2: the stages of the power-up phase that stand for themselves, and the frame of a tick. -/
theorem idleStepTicks : Obligations.IdleStepTicks := by
  unfold Obligations.IdleStepTicks
  refine ⟨?rises, ?still, ?ticks⟩
  case rises =>
    intro s hq hr
    refine ⟨by rw [step_of_no_command hq, State.idle, if_pos hr], fun h2 hc => ?_, fun h2 hc => ?_, fun h4 => ?_⟩
    · simp [State.powerStep, h2, hc, State.mapBoot]
    · simp [State.powerStep, h2, hc, State.mapBoot]
    · simp [State.powerStep, h4, State.mapBoot]
  case still =>
    intro s hq hr hd
    rw [step_of_no_command hq, State.idle, hr, if_neg (by simp), State.tick, if_pos hd]
  case ticks =>
    intro s hq lo hi
    obtain ⟨cs, cl, ps, fl, e⟩ := tick_frame lo hi
    have hr : ¬s.rising = true := fun h => by
      have := rising_devState h
      omega
    refine ⟨s.tick, by rw [step_of_no_command hq, State.idle, if_neg hr], ?_⟩
    rw [e]
    exact ⟨rfl, hq, rfl, rfl, rfl, rfl⟩

/-- Settles O3: every table of the state after reset is empty, so each register reads as the default of its type. -/
theorem resetMatchesSpec : Obligations.ResetMatchesSpec := by
  unfold Obligations.ResetMatchesSpec
  exact ⟨rfl, rfl, rfl, fun _ => ⟨rfl, rfl, rfl⟩, rfl, fun _ => rfl, fun _ => ⟨rfl, rfl, rfl⟩, rfl, rfl, rfl, rfl, fun _ => ⟨rfl, rfl, rfl⟩,
    fun _ _ => ⟨rfl, rfl, rfl, rfl⟩, rfl, rfl, rfl, rfl⟩

end Sys2Proof.Machine
end

section
/-! SUPPORT. Every command ends in a next state (log 10), one whose operands name nothing that exists changes nothing, and while the device
halts the commands that `heldByHalt` lists change nothing (R422, log 213). -/

-- One proof at a time: the thread of every theorem of a large file would not fit in memory.
set_option Elab.async false

namespace Sys2Proof.Machine

open Sys2Proof

/-! Every command ends in a next state. -/

theorem next_next (s : State) : ∃ t, (.next s : Out) = .next t := ⟨s, rfl⟩

theorem ite_next {c : Prop} [Decidable c] {x y : Out} (h : ∃ t, x = .next t) (g : ∃ t, y = .next t) :
    ∃ t, (if c then x else y) = .next t := by
  split
  · exact h
  · exact g

/-- A command with a guard in front ends in a next state if it does behind the guard. -/
theorem guarded_next {c : Prop} [Decidable c] {s : State} {o : Out} (h : ∃ t, o = .next t) :
    ∃ t, (if c then .next s else o) = .next t := ite_next ⟨s, rfl⟩ h

theorem winCmd_next {who : Who} {core off v : Nat} {s : State} : ∃ t, winCmd who core off v s = .next t := guarded_next ⟨_, rfl⟩

theorem bankTarget_next {who : Who} {core b t : Nat} {s : State} : ∃ u, bankTarget who core b t s = .next u := by
  refine guarded_next (guarded_next (guarded_next (guarded_next ?_)))
  cases s.setTarget core b t <;> exact ⟨_, rfl⟩

theorem custom0_next {core slot f3 : Nat} {w : BitVec 32} {s : State} {body : Ctx → Nat → Nat → Nat → Nat → Option (State → State)} :
    ∃ t, custom0 core slot w s f3 body = .next t := ccRow_next

theorem seqCtl_next {core slot o : Nat} {w : BitVec 32} {s : State} {body : Ctx → Nat → Nat → Nat → State → State} :
    ∃ t, seqCtl core slot w s o body = .next t := custom0_next

theorem ctxCtl_next {core slot o : Nat} {w : BitVec 32} {s : State} {body : Nat → State → State} :
    ∃ t, ctxCtl core slot w s o body = .next t := custom0_next

theorem aliasStoreRow_next {view core slot : Nat} {w : BitVec 32} {s : State} : ∃ t, aliasStoreRow view core slot w s = .next t :=
  ccRow_next

theorem aliasLoadRow_next {view core slot : Nat} {w : BitVec 32} {s : State} : ∃ t, aliasLoadRow view core slot w s = .next t :=
  ccRow_next

theorem cplFail_next {s : State} {port pa len : Nat} {e : AerEvent} : ∃ t, s.cplFail port pa len e = .next t := guarded_next ⟨_, rfl⟩

theorem registerWrite_next {who : Who} {r : RegAddr} {v : W64} {s : State} : ∃ t, execRegisterWrite who r v s = .next t := by
  cases r <;> cases who <;> unfold execRegisterWrite <;> repeat' (first | refine ite_next ?_ ?_ | exact ⟨_, rfl⟩)

theorem rcRegisterRead_next {who : Who} {r : RegAddr} {s : State} : ∃ t, execRcRegisterRead who r s = .next t := by
  cases r <;> cases who <;> unfold execRcRegisterRead <;> repeat' (first | refine ite_next ?_ ?_ | exact ⟨_, rfl⟩)

/-- No command faults or is refused: work commands, packets, control-core rows and register accesses by the shared way of running them,
the other events by the branches of their meaning. -/
theorem exec_next (c : Instr) (s : State) : ∃ t, exec c s = .next t := by
  cases c <;> dsimp only [exec]
  case nop | wait | signal | fence | loop | endloop | jump | call | yield | halt | mm | mmWide | mmSemi | mmDist | mmCmp | mmF32x3 |
      loadW | drainAcc | vop | vfunc | vderiv | vreduce | vnormBwd | vsoftmaxBwd | vcompress1 | vdecompSum | vrand | vconvert |
      vdigest | arm | streamIn | streamOut | transposeIn | swapHalves | copyRemote | chainW | pushCkpt | popCkpt | peekCkpt |
      replayBegin | replayEnd | updateBlocks | gradMerge | commitShadow | discardShadow | contrib | ownerSum | paramBcast | stepVote |
      ringPass =>
    exact select_next work_next
  case reservedCommand => exact select_next (by unfold workReservedCommand; repeat' (first | refine ite_next ?_ ?_ | exact ⟨_, rfl⟩ | split))
  case identify | getCaps | setPowerCap | grantMgmt | partCreate | partDestroy | partQuery | mapPages | unmap | faultResolve |
      loadStreams | launch | preempt | resume | stepBegin | stepStatus | peerTableSet | serveConfig | serveBatch | testBundleLoad |
      testRun | faultLogRead | attestQuote | fwUpdateStage | fwActivate | powerState =>
    exact packet_next
  case tokRemote | controlCoreAccess | controlCoreInstruction => exact ccRow_next
  case wcmdPush | tokWait | tokSignal | tokRead | ctrRead | ctxYield => exact custom0_next
  case seqCtlReadPointer | seqCtlSetPointer | seqCtlPause | seqCtlResume => exact seqCtl_next
  case ctxCtlStart | ctxCtlStop | ctxCtlSwapOut | ctxCtlSwapIn => exact ctxCtl_next
  case setAliasStore | clearAliasStore => exact aliasStoreRow_next
  case setAliasLoad | clearAliasLoad => exact aliasLoadRow_next
  case toksigLWrite | ctxCtrlStart | ctxCtrlStop | ctxCmdptrWrite | arrRepairWrite | circCfgWrite | circHeadWrite | bbWrite |
      slotAssign | slotUnassign =>
    exact guarded_next winCmd_next
  case chainCfgWrite | larderCfgWrite => exact winCmd_next
  case bankTargetOn | bankTargetRetention | bankTargetOff => exact bankTarget_next
  case completionError | completionTimeout => exact cplFail_next
  case registerWrite => exact registerWrite_next
  case rcRegisterRead => exact rcRegisterRead_next
  case rateEpoch | refillTick | mgmtRoleQualify | faultRecordCommit | vsbLoss | saveStart | safeHoldRecovery | safeHoldCollapse |
      sagInNHeld | thermInN | smbDevstate | smbHottestReading | smbInputPower | smbSaveStatus | smbBootStatus | alertResponseAddress |
      idcode | samplePreload | extest | clamp | highz | challenge | dbgAccess | bypass | hbmShareWindow | refclkSysReturn |
      faultNHoldExpiry | smbusUnlistedCommand =>
    exact ⟨_, rfl⟩
  case waitTimeout | commandFetch | swapOnBlock | swapQuantumExpiry | freeSlotAdmission | swapImageWrite | swapEnd |
      serviceContextOverdue | remoteSignalArrival | passComplete | drainComplete | accSlotSpill | accSlotReload | arrayFault |
      rowTestComplete | segmentStart | laneFault | vectorSuspend | vectorResume | guestGrant | bankIdleRetention | bankRetentionEntry |
      bankOffEntry | bankWakeElapsed | remoteRequest | remoteResponse | transferComplete | transferFailure | transferSuspend |
      prefetch | chainLineArrival | spillAhead | recordSpillComplete | fetchBack | fetchBackComplete | pageWalk | migrationComplete |
      pseudoChannelLoss | scratchUncorrectable | patrolScrub | bar2Read | bar2Write | updateAccept | runComplete | updateEngineFault |
      shadowCommit | shadowDiscard | portUp | alignmentLoss | fecWindowEnd | linkRemoteFault | linkRetry | quadConfigWrite |
      frameReceive | neighbourResolution | pfcPause | pfcWatchdog | pfcIgnoreExpiry | hsInit | hsResp | hsFin | hsReject |
      hsTokenRefill | handshakeStart | hsInitRetry | handshakeCrossRetry | data | ack | cnp | ackTimer | retransmitTimeout |
      dataTransmit | rekey | peerDeath | peerFailedExpiry | peerDownExpiry | ownerSumVotetExpiry | voteReady | contributionLanding |
      broadcastLanding | contributionWindowClose | broadcastWindowClose | voteReceive | voteTimeout | decisionReceive |
      decisionTimeout | ringLanding | ringCredit | collGrpWrite | collStateWrite | headReservation | thermalWindow | clusterGate |
      clusterWake | pllOff | pllLock | serveStepBoundary | testRunIdleStart | sqTail | cqHead | doorbellService | msixMessage |
      reportCopy | ringEnable | ringDisable | perstAssert | perstRelease | hotReset | pcieLinkDown | pfFlr | vfFlr | vfEnableChange |
      d3hotEntry | d0Return | atsInvalidate | vectorUnmask | coreLoss | heartbeatMiss | relaunch | dispatchCoreLoss | routerStall |
      scrubComplete | vsbRise | powerUpStart | startUpTimeout | devResetN | sagWarning | shedEnd | saveComplete | sagInN | inputRearm |
      thermalShutdown | unlock | loadStreamsComplete | testRunComplete | stageVerificationComplete | pcieLinkUp =>
    refine guarded_next ?_
    repeat' (first | with_reducible refine ite_next ?_ ?_ | with_reducible exact next_next _ | split | dsimp only)
  case uncorrectableError =>
    unfold execUncorrectableError
    split <;> exact next_next _
  case pwrCapWrite => exact guarded_next (next_next _)
  case routeUpdateEnd => exact guarded_next (next_next _)
  case unitRetest => exact guarded_next (guarded_next (ite_next (next_next _) (next_next _)))
  case boardInputGlitch => exact guarded_next (next_next _)
  case ownerSumStart =>
    refine guarded_next ?_
    dsimp only
    split
    · exact next_next _
    · exact select_next work_next
  case powerWindow => exact next_next _
  case fastLimiter => exact ite_next (next_next _) (ite_next (next_next _) (next_next _))
  case pendingFrameZeroed | refclkSysLoss | smbVin => exact ite_next (next_next _) (next_next _)
  case lateRevokedWrite =>
    unfold execLateRevokedWrite
    dsimp only
    split
    all_goals repeat' (first | with_reducible refine ite_next ?_ ?_ | exact next_next _)

/-! A command whose operands name no unit changes nothing (log 10). -/

theorem select_still {core n : Nat} {s : State} : select core n s (.next s) = .next s := by
  unfold select
  dsimp only
  exact ite_self _

theorem select_work_of_no_unit {core n op : Nat} {s : State} {body onSkip : Head → State → State} (h : 2048 ≤ core ∨ 8 ≤ n) :
    select core n s (work core n op s body onSkip) = .next s := by
  unfold work
  rw [if_pos h]
  exact select_still

/-- A register write of a core that does not exist, or of a register that its guard refuses, changes nothing. -/
theorem guarded_winCmd_of_no_unit {c : Prop} [Decidable c] {who : Who} {core off v : Nat} {s : State} (h : 2048 ≤ core ∨ c) :
    (if c then .next s else winCmd who core off v s) = .next s := by
  by_cases hc : c
  · exact if_pos hc
  · rw [if_neg hc]
    exact if_pos (h.resolve_right hc)

theorem registerWrite_of_unknown {who : Who} {r : RegAddr} {v : W64} {s : State} (h : regOk who r = false) :
    execRegisterWrite who r v s = .next s := by
  cases r with
  | win core off =>
    simp only [regOk, Bool.and_eq_false_iff, decide_eq_false_iff_not] at h
    exact if_pos (by omega)
  | bar0 off len bad =>
    cases who with
    | host port func =>
      simp only [regOk, Bool.and_eq_false_iff, decide_eq_false_iff_not, beq_eq_false_iff_ne] at h
      exact if_pos (by omega)
    | ctx | dispatch => rfl

theorem rcRegisterRead_of_unknown {who : Who} {r : RegAddr} {s : State} (h : known s (.rcRegisterRead who r) = false) :
    execRcRegisterRead who r s = .next s := by
  cases r with
  | win core off =>
    simp only [known, Instr.wf, regOk, Bool.and_eq_false_iff, decide_eq_false_iff_not] at h
    exact if_pos (by omega)
  | bar0 off len bad =>
    cases who with
    | host port func =>
      simp only [known, Bool.and_eq_false_iff, decide_eq_false_iff_not] at h
      exact if_pos (by omega)
    | ctx | dispatch => rfl

theorem cplFail_of_unknown {s : State} {port pa len : Nat} {e : AerEvent} (h : 2 ≤ port ∨ hostRun port pa len = false) :
    s.cplFail port pa len e = .next s := by
  refine if_pos ?_
  simp only [hostRun, Bool.and_eq_false_iff, decide_eq_false_iff_not] at h
  unfold hostBase
  omega

theorem exec_of_unknown {c : Instr} {s : State} (h : known s c = false) : exec c s = .next s := by
  cases c <;> simp only [known, Instr.wf, Bool.and_eq_false_iff, decide_eq_false_iff_not, Nat.not_lt, Nat.not_le, reduceCtorEq] at h <;>
    dsimp only [exec]
  case nop | wait | signal | fence | loop | endloop | jump | call | yield | halt | mm | mmWide | mmSemi | mmDist | mmCmp | mmF32x3 |
      loadW | drainAcc | vop | vfunc | vderiv | vreduce | vnormBwd | vsoftmaxBwd | vcompress1 | vdecompSum | vrand | vconvert |
      vdigest | arm | streamIn | streamOut | transposeIn | swapHalves | copyRemote | chainW | pushCkpt | popCkpt | peekCkpt |
      replayBegin | replayEnd | updateBlocks | gradMerge | commitShadow | discardShadow | contrib | ownerSum | paramBcast | stepVote |
      ringPass =>
    exact select_work_of_no_unit h
  case reservedCommand => exact (congrArg (select _ _ s) (if_pos h)).trans select_still
  case toksigLWrite | ctxCtrlStart | ctxCtrlStop | ctxCmdptrWrite | arrRepairWrite | circCfgWrite | circHeadWrite | bbWrite |
      slotAssign | slotUnassign =>
    exact guarded_winCmd_of_no_unit (by omega)
  case registerWrite who r v => exact registerWrite_of_unknown h
  case rcRegisterRead who r => exact rcRegisterRead_of_unknown h
  case pageWalk =>
    rcases h with h | h
    · exact if_pos (by omega)
    · exact (congrArg (ite _ _) (if_pos h)).trans (ite_self _)
  case uncorrectableError pa _ =>
    unfold execUncorrectableError
    cases hr : s.region pa <;> simp_all
  case lateRevokedWrite pa _ =>
    unfold execLateRevokedWrite
    cases hr : s.region pa <;> simp_all
  case rowTestComplete core array row =>
    rcases h with h | h
    · exact if_pos (by omega)
    · cases row with
      | none => cases h
      | some r => exact if_pos (.inr (.inr (.inl (by simpa using h))))
  case bar2Write => exact if_pos (by simpa [or_assoc] using h)
  case thermalWindow => exact if_pos (by simp_all)
  case completionError | completionTimeout => exact cplFail_of_unknown h
  case unlock => exact if_pos (by simpa using h)
  case pcieLinkUp =>
    rcases h with h | h
    · exact if_pos (by omega)
    · exact if_pos (.inr (.inr (.inr (by rw [h]; rfl))))
  case smbusUnlistedCommand => rfl
  all_goals exact if_pos (by omega)

/-! What a halted device holds (R422, log 213). -/

theorem farHeld_of_halts {s : State} (core : Nat) (h : s.halts = true) : s.farHeld core = true := by
  unfold State.farHeld
  rw [h, Bool.true_or, Bool.true_or]

theorem clusterRuns_of_halts {s : State} (k : Nat) (h : s.halts = true) : s.clusterRuns k = false := by
  unfold State.clusterRuns
  rw [h, Bool.not_true, Bool.and_false]

theorem clocked_of_halts {s : State} (core : Nat) (h : s.halts = true) : s.clocked core = false := by
  unfold State.clocked
  rw [clusterRuns_of_halts _ h, Bool.false_and]

/-- A command with a guard in front changes nothing if it does behind the guard. -/
theorem guarded_still {c : Prop} [Decidable c] {s : State} {o : Out} (h : o = .next s) : (if c then .next s else o) = .next s := by
  rw [h]
  exact ite_self _

theorem exec_of_heldByHalt {c : Instr} {s : State} (hc : heldByHalt c = true) (h : s.halts = true) : exec c s = .next s := by
  have hf := fun core => farHeld_of_halts core h
  cases c <;> simp only [heldByHalt, Bool.false_eq_true] at hc <;> dsimp only [exec]
  case transferComplete | transferFailure | transferSuspend =>
    refine guarded_still ?_
    dsimp only
    split
    · rfl
    · exact if_pos (.inr (.inl (hf _)))
  case prefetch => exact guarded_still (if_pos (.inr (.inr (hf _))))
  case spillAhead =>
    refine guarded_still ?_
    dsimp only
    split
    · rfl
    · exact if_neg (by simp [hf])
  case fetchBack =>
    refine guarded_still ?_
    dsimp only
    split
    · rfl
    · split
      · rfl
      · exact if_neg (by simp [hf])
  case recordSpillComplete | fetchBackComplete =>
    refine guarded_still ?_
    dsimp only
    split
    · rfl
    · split
      · rfl
      · exact if_pos (hf _)
  case commandFetch => exact guarded_still (if_pos (by simp [clocked_of_halts _ h]))
  case pendingFrameZeroed => exact if_neg (by simp [h])
  case bankWakeElapsed => exact guarded_still (if_pos (.inr h))
  case guestGrant => exact guarded_still (if_pos (.inr (.inl (by simp [clusterRuns_of_halts _ h]))))
  all_goals exact if_pos (by simp [h])

/-- Settles O6: `exec` runs over its commands three times: every meaning ends in a next state, is guarded by its units, and is guarded by
the halt where the command is held by it. -/
theorem knownCommandsNeverStop : Obligations.KnownCommandsNeverStop := by
  unfold Obligations.KnownCommandsNeverStop
  exact ⟨fun s c => exec_next c s, fun s c h => exec_of_unknown h, fun s c hc h => exec_of_heldByHalt hc h⟩

end Sys2Proof.Machine
end

section
/-! SUPPORT. When a head issues, is skipped or ends its context (Table 1.14), what an issue changes (R25, R35, R306), and the frame of NOP,
YIELD and FENCE. -/

-- One proof at a time: the thread of every theorem of a large file would not fit in memory.
set_option Elab.async false

namespace Sys2Proof.Machine

open Sys2Proof

/-! The gate of a head. -/

/-- The command `w` stands at the head of a slot whose core runs, whose context may issue, and where nothing holds it (R23, R35, R38). -/
structure Stands (s : State) (core n : Nat) (w : Cmd) : Prop where
  fenced : (s.core core).fenced = false
  clocked : s.clocked core = true
  live : (s.slot core n).st = .ready ∨ (s.slot core n).st = .blocked
  paused : (s.slot core n).paused = false
  head : (s.slot core n).head = some w
  cause : headCause (s.core core) (s.slot core n) = 0
  reserved : (s.core core).reserved = none ∨ (s.core core).reserved = some n

/-- The encoding of a command is legal at its head: bit 19 and the reserved fields are zero, an injected command does not branch, and the
energy class is not reserved (R38, R41, R306). -/
structure Legal (c : Ctx) (w : Cmd) : Prop where
  bit19 : cb w 19 = false
  zero : reservedZero w = true
  branch : c.inj = [] ∨ opcodeOf w < 4 ∨ 7 < opcodeOf w
  eclass : cb w 18 = false ∨ c.eclass < 11 ∨ 14 < c.eclass

/-- What the gate of the head `h` answers for what replay does with its command (R192). -/
def actGate (h : Head) : ReplayAct → Gate
  | .run => .go h
  | .skip => .skip h false
  | .skipSilent => .skip h true
  | .illegal => .ended stIllegalOp

/-- Past the checks of its encoding, the gate of a head depends on its immediate slot and on what replay does with it. -/
theorem gate_of_legal {s : State} {core n : Nat} {w i : Cmd} (a : Stands s core n w) (l : Legal (s.slot core n) w)
    (hi : (if opcodeOf w = 0xA0 then (s.slot core n).headImm else some (.ok 0)) = some (.ok i)) {act : ReplayAct}
    (ha : (if (s.slot core n).replay then replayAct w else .run) = act) :
    gate s core n (opcodeOf w) =
      actGate { core := core, slot := n, ctx := s.slot core n, w := w, replay := (s.slot core n).replay, imm := i } act := by
  obtain ⟨a1, a2, a3, a4, a5, a6, a7⟩ := a
  obtain ⟨l1, l2, l3, l4⟩ := l
  unfold State.slot at *
  unfold gate gateOn
  dsimp only
  rw [if_neg (by simp [a1, a2]), if_neg (by rintro ⟨x, y⟩; exact a3.elim x y), if_neg (by simp [a4])]
  simp only [a5, beq_self_eq_true, Bool.not_true, Bool.false_eq_true, if_false, a6, ne_eq, not_true_eq_false]
  rw [if_neg (by rintro ⟨x, y⟩; rcases a7 with e | e <;> simp_all), if_neg (by simp [l1, l2]),
    if_neg (by rcases l3 with e | e | e <;> simp_all), if_neg (by rcases l4 with e | e | e <;> simp_all), hi, ha]
  cases act <;> rfl

/-- A head whose encoding is not legal ends its context with ILLEGAL_OP. -/
theorem gate_of_illegal {s : State} {core n : Nat} {w : Cmd} (a : Stands s core n w)
    (bad : cb w 19 = true ∨ reservedZero w = false ∨ ((s.slot core n).inj ≠ [] ∧ 4 ≤ opcodeOf w ∧ opcodeOf w ≤ 7) ∨
      (cb w 18 = true ∧ 11 ≤ (s.slot core n).eclass ∧ (s.slot core n).eclass ≤ 14)) :
    gate s core n (opcodeOf w) = .ended stIllegalOp := by
  obtain ⟨a1, a2, a3, a4, a5, a6, a7⟩ := a
  unfold State.slot at *
  unfold gate gateOn
  dsimp only
  rw [if_neg (by simp [a1, a2]), if_neg (by rintro ⟨x, y⟩; exact a3.elim x y), if_neg (by simp [a4])]
  simp only [a5, beq_self_eq_true, Bool.not_true, Bool.false_eq_true, if_false, a6, ne_eq, not_true_eq_false]
  rw [if_neg (by rintro ⟨x, y⟩; rcases a7 with e | e <;> simp_all)]
  rcases bad with e | e | e | e
  · exact if_pos (.inl e)
  · exact if_pos (.inr (by simp [e]))
  · exact (congrArg (ite _ _) (if_pos (by simp [e]))).trans (ite_self _)
  · exact (congrArg (ite _ _) ((congrArg (ite _ _) (if_pos e)).trans (ite_self _))).trans (ite_self _)

/-- The selector of R23 and R24, said on the state: the slot has the reservation, or no ready job context of the core issued less
recently. -/
theorem chosen_of_least_recent {s : State} {core n : Nat}
    (h : (s.core core).reserved = some n ∨
      ∀ m < 7, m = n ∨ (n ≠ 7 ∧ (s.slot core n).issuedAt ≤ (s.slot core m).issuedAt) ∨ s.ready core m = false) :
    chosen s core n = true := by
  unfold chosen
  rcases h with h | h
  · simp [h]
  · rw [Bool.or_eq_true]
    refine .inr (List.all_eq_true.mpr fun m hm => ?_)
    rcases h m (List.mem_range.mp hm) with e | e | e <;> simp [e]

/-- Settles O7: the three outcomes of the gate for a command that nothing holds. -/
theorem headsIssueWhenReady : Obligations.HeadsIssueWhenReady := by
  unfold Obligations.HeadsIssueWhenReady
  refine ⟨?goes, ?skips, ?ends⟩
  case goes =>
    intro s core n w i hc hn hf hk hst hp hw hcause hres h19 hz hinj hec hi hact hsel
    have g := gate_of_legal ⟨hf, hk, hst, hp, hw, hcause, hres⟩ ⟨h19, hz, hinj, hec⟩ hi (act := .run)
      (by rcases hact with e | e <;> simp [e])
    exact ⟨hc, hn, g, chosen_of_least_recent hsel⟩
  case skips =>
    intro s core n w i b hc hn hf hk hst hp hw hcause hres h19 hz hinj hec hi hrep hact
    have g := gate_of_legal ⟨hf, hk, hst, hp, hw, hcause, hres⟩ ⟨h19, hz, hinj, hec⟩ hi (act := if b then .skipSilent else .skip)
      (by rw [hrep, if_pos rfl, hact])
    rw [g, hrep]
    cases b <;> rfl
  case ends =>
    intro s core n w hc hn hf hk hst hp hw hcause hres bad
    exact gate_of_illegal ⟨hf, hk, hst, hp, hw, hcause, hres⟩ bad

/-! What an issue changes. -/

/-- An issue charges the account of the cluster, and notes the core and the account at the start of its cycle (R306, log 199). -/
theorem issued_cluster (s : State) (h : Head) (natural cycles : Nat) :
    (issued s h natural cycles).cluster (clusterOf h.core) =
      let k := s.cluster (clusterOf h.core)
      let x := s.chargeOf (clusterOf h.core) (classRate (classOf h.ctx h.w natural)) cycles
      { k with
        acct := k.acct - x.1, frac := x.2, spent := k.spent + x.1, cycAcct := k.cycleAcct h.core
        cycCores := if k.cycCores.contains h.core then [h.core] else h.core :: k.cycCores } :=
  Tab.get_put_same _ _ _ _

/-- The other cores stay as they are when a head issues. -/
theorem issued_core_other (s : State) (h : Head) (natural cycles : Nat) {m : Nat} (e : m ≠ h.core) :
    (issued s h natural cycles).core m = s.core m := by
  obtain ⟨cs, cl, f⟩ := issued_frame s h natural cycles
  rw [f]
  exact Tab.get_put_other _ _ _ e

/-- The other clusters stay as they are when a head issues. -/
theorem issued_cluster_other (s : State) (h : Head) (natural cycles : Nat) {k : Nat} (e : k ≠ clusterOf h.core) :
    (issued s h natural cycles).cluster k = s.cluster k := by
  obtain ⟨cs, cl, f⟩ := issued_frame s h natural cycles
  rw [f]
  exact Tab.get_put_other _ _ _ e

/-- Settles O8: the slot, the core, the cluster and the rest of the state after an issue, one lemma each. -/
theorem issueTakesTheHead : Obligations.IssueTakesTheHead := by
  unfold Obligations.IssueTakesTheHead
  intro s h a b
  dsimp only
  obtain ⟨x, hslot⟩ := issued_slot s h a b
  obtain ⟨cs, cl, hframe⟩ := issued_frame s h a b
  refine ⟨?_, ?_, ?_, ?_, issued_cluster s h a b, issued_core s h a b, fun n e => issued_core_other s h a b e,
    fun n e => issued_cluster_other s h a b e, ?_⟩
  · rw [hslot]
  · rw [hslot]
  · rw [hslot]
  · rw [hslot]
  · rw [hframe]
    exact ⟨rfl, rfl, rfl, rfl, rfl, rfl, rfl⟩

/-! The frame of the commands that complete at their issue. -/

/-- A command that stands at such a head runs its group's own meaning, selected. -/
theorem exec_work_of_heads {s : State} {core n op : Nat} {h : Head} {body onSkip : Head → State → State} (e : heads s core n op h) :
    select core n s (work core n op s body onSkip) = .next (body h s) := by
  rw [work_of_heads e, select_of_heads e]

/-- Behind a quiet head the buffer of the context that has issued carries no status at its front. -/
theorem issued_quiet {s : State} {core n op : Nat} {h : Head} (e : heads s core n op h) (q : quiet h) (natural cycles : Nat) :
    ∀ f ∈ (((issued s h natural cycles).core h.core).slot h.slot).buf.head?, f.bad = none := by
  obtain ⟨hcore, hslot, hctx, -⟩ := heads_core e
  obtain ⟨hinj, hbuf⟩ := q
  obtain ⟨x, hi⟩ := issued_slot s h natural cycles
  rw [hi]
  rw [hctx] at hinj hbuf
  unfold State.slot at hinj hbuf
  dsimp only
  rw [hcore, hslot, hinj]
  exact hbuf

/-- A command that completes at its issue, with nothing to end behind it, leaves all but the contexts of its core, the core's last issue
and the account of its cluster as it was. -/
theorem done_frame {s : State} {core n op : Nat} {h : Head} (e : heads s core n op h) (q : quiet h) (natural cycles : Nat) :
    let t := (issued s h natural cycles).done h
    t.mem = s.mem ∧ t.poison = s.poison ∧ t.parts = s.parts ∧ t.hports = s.hports ∧ t.colls = s.colls ∧
      (∀ m, m ≠ core → t.core m = s.core m) ∧ (∀ k, k ≠ clusterOf core → t.cluster k = s.cluster k) ∧
      (t.core core).acc = (s.core core).acc ∧ (t.core core).banks = (s.core core).banks ∧
      (t.core core).stSlots = (s.core core).stSlots ∧ (t.core core).circ = (s.core core).circ ∧
      (t.core core).larder = (s.core core).larder ∧ (t.core core).pend = (s.core core).pend ∧
      (t.core core).vec = (s.core core).vec := by
  obtain ⟨rfl, -, -, -⟩ := heads_core e
  obtain ⟨sl, im, rc, st, sb, hdone⟩ := done_quiet (issued_quiet e q natural cycles)
  obtain ⟨cs, cl, hframe⟩ := issued_frame s h natural cycles
  obtain ⟨sl', rs', hcore⟩ := issued_core s h natural cycles
  intro t
  have ht : t = _ := hdone
  rw [ht]
  refine ⟨?_, ?_, ?_, ?_, ?_, fun m hm => ?_, fun k hk => ?_, ?_⟩
  · rw [hframe]; rfl
  · rw [hframe]; rfl
  · rw [hframe]; rfl
  · rw [hframe]; rfl
  · rw [hframe]; rfl
  · rw [State.core_setCore_other _ _ hm, issued_core_other s h natural cycles hm]
  · rw [State.cluster_setCore, issued_cluster_other s h natural cycles hk]
  · rw [State.core_setCore, hcore]
    exact ⟨rfl, rfl, rfl, rfl, rfl, rfl, rfl⟩

/-- Settles O9: NOP, YIELD and a FENCE with a defined SCOPE issue and complete, and `done_frame` says what that leaves. -/
theorem sequencerCommandsLeaveTheRest : Obligations.SequencerCommandsLeaveTheRest := by
  unfold Obligations.SequencerCommandsLeaveTheRest
  refine ⟨?nop, ?yield, ?fence⟩
  case nop =>
    intro s core n h e a q
    exact ⟨_, (exec_work_of_heads e).trans (congrArg _ (pay_of_affords a)), done_frame e q 0 1⟩
  case yield =>
    intro s core n h e a q
    exact ⟨_, (exec_work_of_heads e).trans (congrArg _ (pay_of_affords a)), done_frame e q 0 1⟩
  case fence =>
    intro s core n h e a q hs
    exact ⟨_, (exec_work_of_heads e).trans (congrArg _ ((if_neg hs).trans (pay_of_affords a))), done_frame e q 0 1⟩

end Sys2Proof.Machine
end

section
/-! SUPPORT. The frame of the device's own commands and events (O10): each of them, branch by branch, writes
fields of the device around the cores only. -/
set_option Elab.async false
namespace Sys2Proof.Machine
open Sys2Proof

/-- Of the state `s`, `t` keeps memory, its poison, every core and every partition. -/
def KeepsCores (s t : State) : Prop :=
  t.mem = s.mem ∧ t.poison = s.poison ∧ t.cores = s.cores ∧ t.parts = s.parts

/-- A next state that the outcome answers keeps memory, the cores and the partitions of `s`. -/
def OutKeepsCores (s : State) (o : Out) : Prop := ∀ t, o = .next t → KeepsCores s t

theorem keepsCores_refl (s : State) : KeepsCores s s := ⟨rfl, rfl, rfl, rfl⟩

theorem keepsCores_ite {s a b : State} {p : Prop} [Decidable p] (ha : KeepsCores s a) (hb : KeepsCores s b) :
    KeepsCores s (if p then a else b) := by split <;> assumption

theorem outKeepsCores_next {s t : State} (h : KeepsCores s t) : OutKeepsCores s (.next t) := by
  intro u e; cases e; exact h

/-- A branch that does nothing: most guards of an event answer the state as it is. -/
theorem outKeepsCores_still (s : State) : OutKeepsCores s (.next s) := outKeepsCores_next (keepsCores_refl s)

theorem outKeepsCores_ite {s : State} {a b : Out} {p : Prop} [Decidable p] (ha : OutKeepsCores s a) (hb : OutKeepsCores s b) :
    OutKeepsCores s (if p then a else b) := by split <;> assumption

theorem State.unpause_keepsCores (s : State) (p : Nat) : KeepsCores s (s.unpause p) :=
  keepsCores_ite (keepsCores_refl s) ⟨rfl, rfl, rfl, rfl⟩

theorem State.smbRead_keepsCores (s : State) (v : Nat) : KeepsCores s (s.smbRead v) :=
  keepsCores_ite ⟨rfl, rfl, rfl, rfl⟩ (keepsCores_refl s)

theorem updateEngineFault_keepsCores (p : Nat) (s : State) : OutKeepsCores s (execUpdateEngineFault p s) := by
  refine outKeepsCores_ite (outKeepsCores_still s) ?_
  cases (s.part p).updQ with
  | nil => exact outKeepsCores_still s
  | cons u us => exact outKeepsCores_ite (outKeepsCores_next ⟨rfl, rfl, rfl, rfl⟩) (outKeepsCores_still s)

theorem neighbourResolution_keepsCores (p : Nat) (r : Resolution) (s : State) :
    OutKeepsCores s (execNeighbourResolution p r s) := by
  refine outKeepsCores_ite (outKeepsCores_still s) ?_
  cases r <;> exact outKeepsCores_next (keepsCores_ite ⟨rfl, rfl, rfl, rfl⟩ (keepsCores_refl s))

theorem clusterWake_keepsCores (k : Nat) (s : State) : OutKeepsCores s (execClusterWake k s) := by
  refine outKeepsCores_ite (outKeepsCores_still s) (outKeepsCores_ite (outKeepsCores_still s) ?_)
  dsimp only
  cases (s.cluster k).clk with
  | pllOff => exact outKeepsCores_next ⟨rfl, rfl, rfl, rfl⟩
  | gated => exact outKeepsCores_next ⟨rfl, rfl, rfl, rfl⟩
  | locking => exact outKeepsCores_still s
  | run => exact outKeepsCores_still s

theorem portUp_keepsCores (p : Nat) (s : State) : OutKeepsCores s (execPortUp p s) := by
  unfold execPortUp
  refine outKeepsCores_ite (outKeepsCores_still s) (outKeepsCores_ite (outKeepsCores_still s) (outKeepsCores_next ?_))
  simp only [KeepsCores, State.mapFab_mem, State.mapFab_poison, State.mapFab_cores, State.mapFab_parts]
  exact ⟨rfl, rfl, rfl, rfl⟩

theorem deviceOnly_keepsCores (s : State) (c : Instr) (h : deviceOnly c = true) : OutKeepsCores s (exec c s) := by
  have still := outKeepsCores_still s
  have one {t : State} (k : KeepsCores s t) : OutKeepsCores s (.next t) := outKeepsCores_next k
  have gd {p : Prop} [Decidable p] {o : Out} (k : OutKeepsCores s o) : OutKeepsCores s (if p then .next s else o) :=
    outKeepsCores_ite still k
  cases c
  case updateEngineFault p => exact updateEngineFault_keepsCores p s
  case neighbourResolution p r => exact neighbourResolution_keepsCores p r s
  case clusterWake k => exact clusterWake_keepsCores k s
  case linkRetry => exact gd still
  case hbmShareWindow | smbusUnlistedCommand => exact still
  -- One write behind the checks of the operands.
  case patrolScrub | pfcIgnoreExpiry | hsTokenRefill | d3hotEntry | d0Return => exact gd (one ⟨rfl, rfl, rfl, rfl⟩)
  case portUp p => exact portUp_keepsCores p s
  case pageWalk | collStateWrite | atsInvalidate | pseudoChannelLoss => exact gd (gd (one ⟨rfl, rfl, rfl, rfl⟩))
  case pcieLinkUp => exact gd (gd (gd (one ⟨rfl, rfl, rfl, rfl⟩)))
  case pfcPause => exact gd (gd (one (State.unpause_keepsCores _ _)))
  case pfcWatchdog => exact gd (gd (one (State.unpause_keepsCores _ _)))
  case boardInputGlitch => exact gd (one ⟨rfl, rfl, rfl, rfl⟩)
  -- One write where the state asks for it, and else none.
  case peerFailedExpiry | peerDownExpiry => exact gd (one (keepsCores_ite ⟨rfl, rfl, rfl, rfl⟩ (keepsCores_refl s)))
  case clusterGate | pllLock => exact gd (outKeepsCores_ite (one ⟨rfl, rfl, rfl, rfl⟩) still)
  case pllOff => exact gd (outKeepsCores_ite (one (keepsCores_ite ⟨rfl, rfl, rfl, rfl⟩ ⟨rfl, rfl, rfl, rfl⟩)) still)
  case mgmtRoleQualify | alertResponseAddress => exact one (keepsCores_ite ⟨rfl, rfl, rfl, rfl⟩ (keepsCores_refl s))
  case thermInN => exact one (keepsCores_ite (keepsCores_refl s) ⟨rfl, rfl, rfl, rfl⟩)
  case smbDevstate | smbHottestReading | smbInputPower | smbSaveStatus | smbBootStatus =>
    exact one (State.smbRead_keepsCores s _)
  case smbVin => exact outKeepsCores_ite (one (State.smbRead_keepsCores s.sampleSupply _)) still
  -- One write in every state.
  case rateEpoch | faultRecordCommit | faultNHoldExpiry | idcode | samplePreload | extest | clamp | highz | challenge |
      dbgAccess | bypass => exact one ⟨rfl, rfl, rfl, rfl⟩
  all_goals exact absurd h Bool.false_ne_true

/-- Settles O10: every command of `deviceOnly` writes the device around the cores only. -/
theorem deviceCommandsLeaveTheCores : Obligations.DeviceCommandsLeaveTheCores := by
  unfold Obligations.DeviceCommandsLeaveTheCores
  intro s t c hc e
  exact deviceOnly_keepsCores s c hc t e

end Sys2Proof.Machine
end

section
/-! SUPPORT. The set and clear views of scratch (O23): what a store or a load through the set or the clear view writes is one
word of scratch, which `State.leNat_rds_wr` reads back. -/
set_option Elab.async false
namespace Sys2Proof.Machine
open Sys2Proof

@[simp] theorem State.rds_mapCore (s : State) (core : Nat) (f : Core → Core) (pa n : Nat) :
    (s.mapCore core f).rds pa n = s.rds pa n := rfl

/-- A number written to scratch is read back, whatever lease the write has given up. -/
theorem State.leNat_rds_dropLease (s : State) (w : memOk s) (core off size v : Nat) (hv : v < 2 ^ (8 * size)) (b : Bool) :
    leNat ((if b then (s.wr (scrPa core off) (leBytes size v)).mapCore core (fun k => k.dropLease (scrPa core off))
      else s.wr (scrPa core off) (leBytes size v)).rds (scrPa core off) size) = v := by
  cases b <;> exact State.leNat_rds_wr (p := false) s w (scrPa_ge core off) hv

theorem State.aliasStore_set (s : State) (w : memOk s) (core off size v : Nat) (hv : v < 2 ^ (8 * size)) :
    leNat ((s.aliasStore 1 core off size v).rds (scrPa core off) size) = leNat (s.rds (scrPa core off) size) ||| v :=
  State.leNat_rds_wr s w (scrPa_ge core off) (Nat.or_lt_two_pow (State.leNat_rds_lt s _ size) hv)

theorem State.aliasStore_clear (s : State) (w : memOk s) (core off size v : Nat) (hv : v < 2 ^ (8 * size)) :
    leNat ((s.aliasStore 2 core off size v).rds (scrPa core off) size)
      = leNat (s.rds (scrPa core off) size) &&& (2 ^ (8 * size) - 1 - v) := by
  have e := State.leNat_rds_dropLease s w core off size
    (leNat (s.rds (scrPa core off) size) &&& (2 ^ (8 * size) - 1 - v % 2 ^ (8 * size)))
    (Nat.lt_of_le_of_lt Nat.and_le_left (State.leNat_rds_lt s _ size)) (bit v 0)
  rw [Nat.mod_eq_of_lt hv] at e
  refine Eq.trans ?_ e
  unfold State.aliasStore
  simp [Nat.mod_eq_of_lt hv]

/-- The set view takes the lock bit of a word that has it clear while a lease is free (Table 4.3). -/
theorem State.aliasLoad_set (s : State) (core off size c lctx : Nat) (even : leNat (s.rds (scrPa core off) size) % 2 = 0)
    (free : (s.core core).locks.length < 32) :
    s.aliasLoad 1 core off size c lctx
      = (leNat (s.rds (scrPa core off) size),
         (s.wr (scrPa core off) (leBytes size (leNat (s.rds (scrPa core off) size) + 1))).mapCore core fun k =>
           { k with locks := k.locks ++ [⟨scrPa core off, c, lctx, s.pno c⟩] }) := by
  unfold State.aliasLoad
  dsimp only
  rw [if_pos rfl, if_neg (by omega), if_neg (by omega)]

/-- An even number below a power of two leaves room for its lock bit. -/
theorem add_one_lt_of_even {m n : Nat} (hn : n = 4 ∨ n = 8) (even : m % 2 = 0) (h : m < 2 ^ (8 * n)) : m + 1 < 2 ^ (8 * n) := by
  obtain rfl | rfl := hn <;> omega

/-- Settles O23: each access through a view writes one word of scratch, read back by `State.leNat_rds_wr`. -/
theorem aliasEffects : Obligations.AliasEffects := by
  unfold Obligations.AliasEffects
  refine ⟨?setStore, ?clearStore, ?setLoad, ?clearLoad⟩
  case setStore => exact fun s core off size v w _ hv _ _ => State.aliasStore_set s w core off size v hv
  case clearStore => exact fun s core off size v w _ hv _ _ => State.aliasStore_clear s w core off size v hv
  case setLoad =>
    intro s core off size c lctx w hs _ _ even free
    rw [State.aliasLoad_set s core off size c lctx even free]
    refine ⟨rfl, ?_, ?_⟩
    · exact State.leNat_rds_wr (p := false) s w (scrPa_ge core off) (add_one_lt_of_even hs even (State.leNat_rds_lt s _ size))
    · rw [State.core_mapCore]
      rfl
  case clearLoad =>
    intro s core off size c lctx w _ _ _
    exact ⟨rfl, State.leNat_rds_wr (p := false) s w (scrPa_ge core off) (Nat.lt_of_le_of_lt (Nat.sub_le _ _) (State.leNat_rds_lt s _ size))⟩

end Sys2Proof.Machine
end

section
/-! SUPPORT. Matrix passes (O25): a command whose plan holds starts its pass, whichever of the six forms it is. -/
set_option Elab.async false
namespace Sys2Proof.Machine
open Sys2Proof

/-- A matrix command at a head, whose plan holds and whose pass is ready and covered, starts that pass in its own slot. -/
theorem runPass_of_heads {s : State} {core n op : Nat} {h : Head} {pl : PassPlan} (e : heads s core n op h)
    (r : passReady s h pl) (a : affords s h pl.cls pl.cycles) :
    ∃ p : Pass, passLine p = (((issued s h pl.cls pl.cycles).leave h .matrix).1, h.ctx.lctx, h.w, pl.aOff, pl.wOff) ∧ p.slot = n ∧
      runPass h s (.ok pl) = (passStarted s h pl p).settle core n := by
  obtain ⟨hcore, hslot, -, -⟩ := heads_core e
  obtain ⟨p, run, line, at_⟩ := startPass_goes r a
  rw [hcore, hslot] at run
  exact ⟨p, line, at_.trans hslot, run⟩

/-- Settles O25: all six commands run `runPass` on their plan, and `startPass_goes` says what that starts. -/
theorem matrixPassesStart : Obligations.MatrixPassesStart := by
  unfold Obligations.MatrixPassesStart
  refine ⟨?mm, ?wide, ?semi, ?dist, ?cmp, ?f32x3⟩
  case mm =>
    intro s core n h pl e nowg plan r a
    obtain ⟨p, line, at_, run⟩ := runPass_of_heads e r a
    refine ⟨p, line, at_, (exec_work_of_heads e).trans (congrArg _ ?_)⟩
    rw [if_neg (by simp [nowg]), plan, run]
  all_goals
    intro s core n h pl e plan r a
    obtain ⟨p, line, at_, run⟩ := runPass_of_heads e r a
    exact ⟨p, line, at_, (exec_work_of_heads e).trans (congrArg _ ((congrArg (runPass h s) plan).trans run))⟩

end Sys2Proof.Machine
end

section
/-! SUPPORT. Vector commands (O32): a command whose plan holds runs its first segment, whichever opcode it has. -/
set_option Elab.async false
namespace Sys2Proof.Machine
open Sys2Proof

/-- A vector command at a head, whose plan holds and whose engine and charge are ready, starts (`runVec_goes`). -/
theorem runVec_of_heads {s : State} {core n op : Nat} {h : Head} {pl : VPlan} {plan : State → Head → Except Nat VPlan}
    (e : heads s core n op h) (p : plan s h = .ok pl) (r : vectorReady s h pl)
    (a : affords s h pl.cls (vTerm h.w pl.ops pl.acc 0)) :
    select core n s (work core n op s fun h s => runVec h s (plan s h)) = .next (vectorStarted s h pl) :=
  (exec_work_of_heads e).trans (congrArg _ ((congrArg (runVec h s) p).trans (runVec_goes r a)))

/-- Settles O32: each opcode runs `runVec` on its own plan. -/
theorem vectorCommandsComplete : Obligations.VectorCommandsComplete := by
  unfold Obligations.VectorCommandsComplete
  refine ⟨?vop, ?vfunc, ?vderiv, ?vreduce, ?vnormBwd, ?vsoftmaxBwd, ?vcompress1, ?vdecompSum, ?vrand, ?vconvert, ?vdigest⟩
  all_goals exact fun s core n h pl e p r a => runVec_of_heads e p r a

end Sys2Proof.Machine
end

section
/-! SUPPORT. Writes of the registers of a context (O29): each reaches the rule of its register (`State.winWrite_ctxCtrl` and
its like), and each rule is read off once. -/
set_option Elab.async false
namespace Sys2Proof.Machine
open Sys2Proof

/-- A command that writes a window register within its range, by a writer that reaches the core, does what the register's
rule says. -/
theorem winCmd_of_reaches {s t : State} {who : Who} {core off v : Nat} {p : Prop} [Decidable p] (r : reaches s who core) (range : ¬p)
    (w : s.winWrite who core off v = .done t) : (if p then Host.Outcome.next s else winCmd who core off v s) = .next t := by
  obtain ⟨hcore, present, inside⟩ := r
  rw [if_neg range]
  exact winCmd_of_done hcore present inside w

theorem testBit_or_one (v : W64) : (v ||| 1).toNat.testBit 0 = true := by simp

theorem testBit_or_two (v : W64) : (v ||| 2).toNat.testBit 1 = true := by
  rw [BitVec.toNat_or, Nat.testBit_or]
  exact Bool.or_true _

/-- What CTX_CTRL places before it starts or stops: ECLASS and TOKBANK (Table 1.12). -/
def State.ctrlPlaced (s : State) (core n v : Nat) : State :=
  (s.mapSlot core n fun c => { c with eclass := bits v 11 8, bank := bits v 5 4 }).mapCore core Core.refresh

theorem State.writeCtxCtrl_stop (s : State) (core n v : Nat) (ec : ¬(11 ≤ bits v 11 8 ∧ bits v 11 8 ≤ 14))
    (stop : v.testBit 1 = true) (live : (s.slot core n).st.live = true) :
    s.writeCtxCtrl core n v
      = .done ((s.ctrlPlaced core n v).endOne core ((s.ctrlPlaced core n v).slot core n).lctx .killed stKilled) := by
  unfold State.writeCtxCtrl
  dsimp only
  rw [if_neg ec, if_pos (by simp [stop, live])]
  rfl

/-- With START, an idle slot begins its logical context when that may begin there, and else keeps what was placed. -/
theorem State.writeCtxCtrl_start (s : State) (core n v : Nat) (ec : ¬(11 ≤ bits v 11 8 ∧ bits v 11 8 ≤ 14))
    (start : v.testBit 0 = true) (idle : (s.slot core n).st.live = false) :
    s.writeCtxCtrl core n v
      = .done (if n == 7 || (s.ctrlPlaced core n v).declared core ((s.ctrlPlaced core n v).slot core n).lctx then
          ((s.ctrlPlaced core n v).mapCore core fun k => k.startIn core n (k.slotLctx n)).partEvent (s.pno core) none 0
        else s.ctrlPlaced core n v) := by
  unfold State.writeCtxCtrl
  dsimp only
  rw [if_neg ec, if_neg (by simp [idle]), start, idle, Bool.not_false, Bool.true_and, Bool.true_and]
  exact (apply_ite WinRes.done _ _ _).symm

theorem State.writeCmdptr_idle (s : State) (core n v : Nat) (idle : (s.slot core n).st.live = false) :
    s.writeCmdptr core n v = .done (s.setSlot core n { s.slot core n with fptr := ⟨bits v 17 16, bits v 15 0⟩, buf := [] }) := by
  unfold State.writeCmdptr
  dsimp only
  rw [if_neg (by simp [idle])]

theorem State.writeCmdptr_paused (s : State) (core n v : Nat) (live : (s.slot core n).st.live = true)
    (paused : (s.slot core n).paused = true) :
    s.writeCmdptr core n v = .done (s.emptyBuf core n (some ⟨bits v 17 16, bits v 15 0⟩)) := by
  unfold State.writeCmdptr
  dsimp only
  rw [if_pos live, if_pos paused]

/-- The pair that a write of BB_BASE or BB_LIMIT would make of `q` (Table 1.9). -/
def Pair.written (q : Pair) (limit : Bool) (v : Nat) : Pair :=
  if limit then { q with limit := BitVec.ofNat 64 (bits v 16 0) } else { q with base := BitVec.ofNat 64 (bits v 47 0) }

theorem State.writeBB_takes (s : State) (core n p v : Nat) (limit : Bool)
    (form : if limit then bits v 16 0 ≤ 65536 else bits v 1 0 < 2)
    (free : (s.slot core n).st.live = false ∨ (s.slot core n).paused = true)
    (legal : s.pairLegal core (((s.slot core n).pair p).written limit v) = true) :
    s.writeBB core n p limit v = .done
      (let t := s.setSlot core n
        { s.slot core n with pairs := Tab.put (s.slot core n).pairs p (((s.slot core n).pair p).written limit v) }
      if (s.slot core n).st.live then t.emptyBuf core n none else t) := by
  have quiet : (s.slot core n).paused = false → (s.slot core n).idleSlot = true := by
    intro h
    rw [h] at free
    simpa [Ctx.idleSlot] using free
  unfold Pair.written at legal ⊢
  unfold State.writeBB
  dsimp only
  rw [if_neg]
  cases limit <;> simp_all

/-- A logical context that is FREE begins in an idle slot with the values kept there (log 110, Table 1.5). -/
theorem Core.startIn_of_free (k : Core) (core n l : Nat) (idle : (k.slot n).st.live = false) (h1 : k.ctx? l = none)
    (h2 : Tab.find k.ended l = none) (h3 : k.fenced = false) :
    k.startIn core n l = ({ k.setSlot n (((k.slot n).started l k.stamp (n == 7)).freshRegs core k.stamp) with
      stamp := k.stamp + 1 } : Core).refresh := by
  unfold Core.startIn
  dsimp only
  rw [if_neg (by simp [Ctx.idleSlot, idle, h1, h2, h3])]

/-- Settles O29: each write reaches the rule of its register, which takes it. -/
theorem contextRegisterWritesComplete : Obligations.ContextRegisterWritesComplete := by
  unfold Obligations.ContextRegisterWritesComplete
  refine ⟨?toksig, ?stop, ?start, ?startRefused, ?startIn, ?ptrIdle, ?ptrPaused, ?pairIdle, ?pairPaused⟩
  case toksig =>
    intro s who core l v r hl full
    refine winCmd_of_reaches r (by omega) ?_
    rw [State.winWrite_toksig s who core l _ hl, full]
    rfl
  case stop =>
    intro s who core n v ⟨r, may⟩ hn ec live
    refine winCmd_of_reaches r (by omega) ?_
    exact (State.winWrite_ctxCtrl s who core n _ hn may).trans (State.writeCtxCtrl_stop s core n _ ec (testBit_or_two v) live)
  case start =>
    intro s who core n v ⟨r, may⟩ hn ec idle begins
    refine winCmd_of_reaches r (by omega) ?_
    exact (State.winWrite_ctxCtrl s who core n _ hn may).trans
      ((State.writeCtxCtrl_start s core n _ ec (testBit_or_one v) idle).trans (congrArg _ (if_pos begins)))
  case startRefused =>
    intro s who core n v ⟨r, may⟩ hn ec idle stays
    refine winCmd_of_reaches r (by omega) ?_
    exact (State.winWrite_ctxCtrl s who core n _ hn may).trans
      ((State.writeCtxCtrl_start s core n _ ec (testBit_or_one v) idle).trans
        (congrArg _ (if_neg (Bool.eq_false_iff.mp stays))))
  case startIn => exact Core.startIn_of_free
  case ptrIdle =>
    intro s who core n v ⟨r, may⟩ hn idle
    refine winCmd_of_reaches r (by omega) ?_
    exact (State.winWrite_cmdptr s who core n _ hn may).trans (State.writeCmdptr_idle s core n _ idle)
  case ptrPaused =>
    intro s who core n v ⟨r, may⟩ hn live paused
    refine winCmd_of_reaches r (by omega) ?_
    exact (State.winWrite_cmdptr s who core n _ hn may).trans (State.writeCmdptr_paused s core n _ live paused)
  case pairIdle =>
    intro s who core n p limit v ⟨r, may⟩ hn hp form idle legal
    refine winCmd_of_reaches r (by omega) ?_
    exact (State.winWrite_bb s who core n p _ limit hn hp may).trans
      ((State.writeBB_takes s core n p _ limit form (.inl idle) legal).trans (congrArg _ (if_neg (Bool.eq_false_iff.mp idle))))
  case pairPaused =>
    intro s who core n p limit v ⟨r, may⟩ hn hp form live paused legal
    refine winCmd_of_reaches r (by omega) ?_
    exact (State.winWrite_bb s who core n p _ limit hn hp may).trans
      ((State.writeBB_takes s core n p _ limit form (.inr paused) legal).trans (congrArg _ (if_pos live)))

end Sys2Proof.Machine
end

section
/-! SUPPORT. Writes of the registers of a core's scratch (O30): row repairs, circular regions, stream slots, the chain and
the larder. Each rule is read off once. -/
set_option Elab.async false
namespace Sys2Proof.Machine
open Sys2Proof

/-- The region that CIRC_CFG describes, positions as they are (Table 4.11). -/
def Circ.configured (c : Circ) (en : Bool) (v : Nat) : Circ :=
  { c with en := en, tok := bits v 59 56, lctx := bits v 55 52, chunk := bits v 51 36 + 1, size := bits v 35 20 + 1, start := bits v 15 0 }

theorem State.writeCirc_takes (s : State) (core g v : Nat) (en : Bool) (hen : v.testBit 63 = en)
    (ok : s.circOk core (((s.core core).circAt g).configured en v) = true) :
    s.writeCirc core g v = .done (s.setCore core ((s.core core).setCirc g
      (let c := ((s.core core).circAt g).configured en v
       if en then { c with headPos := 0, headWrap := false, tailPos := 0, tailWrap := false, pendHead := none } else c))) := by
  unfold Circ.configured at ok ⊢
  unfold State.writeCirc
  dsimp only
  rw [hen, ok]
  rfl

/-- A head that moves no further than the tail is taken while none waits (Table 4.11). -/
theorem State.writeHead_takes (s : State) (core g v : Nat) (inside : bits v 15 0 < ((s.core core).circAt g).size)
    (none_waits : ((s.core core).circAt g).pendHead = none)
    (behind : let c := (s.core core).circAt g
      (c.turn (bits v 15 0) (v.testBit 16) + 2 * c.size - c.turn c.headPos c.headWrap) % (2 * c.size)
        ≤ (c.turn c.tailPos c.tailWrap + 2 * c.size - c.turn c.headPos c.headWrap) % (2 * c.size)) :
    s.writeHead core g v = .done (s.setCore core ((s.core core).setCirc g
      (let c := (s.core core).circAt g
       let ids := (s.core core).readers core c
       if ids.isEmpty then c.setHead v else { c with pendHead := some (v % 2 ^ 17, ids) }))) := by
  unfold State.writeHead
  dsimp only at behind ⊢
  rw [none_waits]
  dsimp only
  rw [if_neg (by omega)]

theorem assign_bits (lctx : Nat) (h : lctx < 16) :
    (fld 1 23 + fld lctx 19).testBit 23 = true ∧ bits (fld 1 23 + fld lctx 19) 22 19 = lctx := by
  have e : fld 1 23 + fld lctx 19 = 8388608 + lctx * 524288 := by
    unfold fld
    rw [Nat.shiftLeft_eq, Nat.shiftLeft_eq]
  rw [e]
  constructor
  · rw [Nat.testBit_eq_decide_div_mod_eq]
    simp only [decide_eq_true_eq]
    omega
  · unfold bits
    rw [Nat.shiftRight_eq_div_pow]
    omega

theorem State.writeStSlot_assign (s : State) (core n lctx : Nat) (h : lctx < 16) :
    s.writeStSlot core n (fld 1 23 + fld lctx 19) = .done
      (if ((s.core core).stSlot n).st ≠ .unassigned then s
       else s.setCore core ((s.core core).setStSlot n
         { ((s.core core).stSlot n).emptied with owned := true, lctx := lctx, st := .empty }).refresh) := by
  obtain ⟨assign, owner⟩ := assign_bits lctx h
  unfold State.writeStSlot
  dsimp only
  rw [if_pos assign, owner]
  exact (apply_ite WinRes.done _ _ _).symm

theorem State.writeChain_takes (s : State) (core v : Nat) (idle : (s.core core).chain = none)
    (same : s.partOf (bits v 10 0) = s.partOf core) :
    s.writeChain core v = .done (s.setCore core { s.core core with
      chainEn := v.testBit 63, chainRx := bits v 19 16, chainNext := bits v 10 0, chainSet := true }) := by
  unfold State.writeChain
  dsimp only
  rw [if_neg (by simp [idle, same])]

theorem State.writeLarder_region (s : State) (core v : Nat) (empty : (s.core core).larder.recs = [])
    (idle : (s.core core).larder.busy = false) (fits : bits v 11 0 + (bits v 27 16 + 1) ≤ 2048) :
    s.writeLarder core false v = .done (s.setCore core { s.core core with larder := { (s.core core).larder with
      en := v.testBit 63, owner := bits v 59 56, lowater := bits v 43 32, size := bits v 27 16 + 1, start := bits v 11 0, dir := none
      waiting := false, waitingInj := false } }) := by
  unfold State.writeLarder
  dsimp only
  rw [if_neg (by simp [empty, idle]), if_neg Bool.false_ne_true, if_neg (by omega)]

theorem State.writeLarder_spill (s : State) (core v : Nat) (empty : (s.core core).larder.recs = [])
    (idle : (s.core core).larder.busy = false) (fits : bits v 5 0 ≤ 32) :
    s.writeLarder core true v = .done (s.setCore core { s.core core with larder := { (s.core core).larder with
      spillAddr := fld (bits v 47 21) 21, spillPages := bits v 5 0 } }) := by
  unfold State.writeLarder
  dsimp only
  rw [if_neg (by simp [empty, idle]), if_pos rfl, if_neg (by omega)]

/-- Settles O30: each write reaches the rule of its register, which takes it. -/
theorem scratchRegisterWritesComplete : Obligations.ScratchRegisterWritesComplete := by
  unfold Obligations.ScratchRegisterWritesComplete
  refine ⟨?repair, ?enable, ?disable, ?head, ?assign, ?assigned, ?unassign, ?chain, ?region, ?spill⟩
  case repair =>
    intro s who core a v r service ha
    exact winCmd_of_reaches r (by omega) (State.winWrite_arrRepair s core a _ who ha service)
  case enable =>
    intro s who core g v ⟨r, may⟩ hg hen ok
    refine winCmd_of_reaches r (by omega) ?_
    exact (State.winWrite_circ s who core g _ hg may).trans (State.writeCirc_takes s core g _ true hen ok)
  case disable =>
    intro s who core g v ⟨r, may⟩ hg hen ok
    refine winCmd_of_reaches r (by omega) ?_
    exact (State.winWrite_circ s who core g _ hg may).trans (State.writeCirc_takes s core g _ false hen ok)
  case head =>
    intro s core n g v hcore hn live open_ hg owner inside none_waits behind
    refine winCmd_of_reaches ⟨hcore, by simp [State.present?, hcore, hn, live], open_⟩ (by omega) ?_
    exact (State.winWrite_head s core n g _ hg owner).trans (State.writeHead_takes s core g _ inside none_waits behind)
  case assign =>
    intro s who core n lctx ⟨r, may⟩ hn hl free
    refine winCmd_of_reaches r (by omega) ?_
    exact (State.winWrite_stSlot s who core n _ hn may).trans
      ((State.writeStSlot_assign s core n lctx hl).trans (congrArg _ (if_neg (not_not_intro free))))
  case assigned =>
    intro s who core n lctx ⟨r, may⟩ hn hl taken
    refine winCmd_of_reaches r (by omega) ?_
    exact (State.winWrite_stSlot s who core n _ hn may).trans
      ((State.writeStSlot_assign s core n lctx hl).trans (congrArg _ (if_pos taken)))
  case unassign =>
    intro s who core n ⟨r, may⟩ hn
    exact winCmd_of_reaches r (by omega) (State.winWrite_stSlot s who core n 0 hn may)
  case chain =>
    intro s who core v ⟨r, may⟩ idle same
    obtain ⟨hcore, present, inside⟩ := r
    exact winCmd_of_done hcore present inside
      ((State.winWrite_chain s who core _ may).trans (State.writeChain_takes s core _ idle same))
  case region =>
    intro s who core v ⟨r, may⟩ empty idle fits
    obtain ⟨hcore, present, inside⟩ := r
    exact winCmd_of_done hcore present inside
      ((State.winWrite_larder s who core _ false may).trans (State.writeLarder_region s core _ empty idle fits))
  case spill =>
    intro s who core v ⟨r, may⟩ empty idle fits
    obtain ⟨hcore, present, inside⟩ := r
    exact winCmd_of_done hcore present inside
      ((State.winWrite_larder s who core _ true may).trans (State.writeLarder_spill s core _ empty idle fits))

end Sys2Proof.Machine
end

section
/-! SUPPORT. Streaming commands (O36): what ARM, the stream commands, SWAP_HALVES and COPY_REMOTE do once their checks hold. -/
set_option Elab.async false
namespace Sys2Proof.Machine
open Sys2Proof

/-- What ARM does with a legal descriptor `d`, on the state `t` after the issue; `x` is the slot before (Table 5.2). -/
def armEffect (core n : Nat) (h : Head) (x : StSlot) (d : Desc) (t : State) : State :=
  let q := cf h.w 23 20
  if x.queue.isEmpty then
    (t.mapCore core fun k => k.setStSlot q { (k.stSlot q).activate d (dFar d) (dSfar d) with st := .armed }).done h
  else if x.shadow.isNone then
    (t.mapCore core fun k =>
      k.setStSlot q { k.stSlot q with shadow := some d, farS := dFar d, sfarS := dSfar d, shadowAt := x.queue.length }).done h
  else
    let u := t.mapCore core fun k =>
      { (k.mapCtx h.ctx.lctx fun c => { c with lastStatus := stDescBusy }) with descbusy := sat16 k.descbusy 1 }
    (if cf h.w 45 42 = 0xF then u else u.mapCore core fun k => k.signal h.ctx.lctx (2 ^ cf h.w 45 42)).settle core n

/-- An ARM whose slot belongs to its context and whose descriptor lies in a bank that is on, within its pair, and is legal. -/
theorem exec_armStream_of_descriptor {s : State} {core n off : Nat} {h : Head} {d : BitVec 512} (e : heads s core n 0x25 h)
    (own : ((s.core core).stSlot (cf h.w 23 20)).isOf h.ctx.lctx = true) (near : (h.ctx.pair (cf h.w 25 24)).isLocal core = true)
    (bound : cf h.w 41 26 * 16 + 64 ≤ (h.ctx.pair (cf h.w 25 24)).lim * 16)
    (at' : off = ((h.ctx.pair (cf h.w 25 24)).addr - scratchBase) % 2 ^ 20 + cf h.w 41 26 * 16)
    (notOff : (s.core core).bankIsOff off 64 = false) (on : (s.core core).bankIsOn off 64 = true)
    (desc : d = BitVec.ofNat 512 (leNat (s.rds (scrPa core off) 64))) (ok : descOk d ((h.ctx.pair (dNpair d)).mode == 1) = true)
    (a : affords s h 0 1) :
    exec (.arm core n) s = .next (armEffect core n h ((s.core core).stSlot (cf h.w 23 20)) d (issued s h 0 1)) := by
  refine (exec_work_of_heads e).trans (congrArg _ ?_)
  dsimp only
  rw [← at', ← desc, own, near, notOff, on, ok]
  rw [if_neg (by simp), if_neg (by simp), if_neg (by omega), if_neg (by simp), if_neg (by simp), if_neg (by simp)]
  exact pay_of_affords a

/-- A stream command whose slot is armed by its context, whose near side is legal and in banks that are on, hands its transfer off. -/
theorem runStream_takes {s : State} {kind : XKind} {h : Head} {near : Near}
    (own : ((s.core h.core).stSlot (cf h.w 23 20)).isOf h.ctx.lctx = true) (armed : ((s.core h.core).stSlot (cf h.w 23 20)).st ≠ .empty)
    (plan : nearPlan s h.core h.ctx ((s.core h.core).stSlot (cf h.w 23 20)).nextDesc.1
      ((s.core h.core).stSlot (cf h.w 23 20)).nextDesc.2.2.2 (kind == .transposeIn) (kind == .streamOut) = .ok near)
    (notOff : near.isOff (s.core h.core) = false) (on : near.isOn (s.core h.core) = true)
    (room : ((s.core h.core).stSlot (cf h.w 23 20)).queue.length < 4) (free : s.farHeld h.core = false) (a : affords s h 0 1) :
    runStream kind h s =
      (let q := cf h.w 23 20
       let d := ((s.core h.core).stSlot q).nextDesc
       let u := (issued s h 0 1).leave h .stream
       (u.2.handOff h.core q ⟨u.1, h.slot, h.ctx.lctx, kind, d.1, near.at', near.circ, d.2.1, d.2.2.1,
         nearExt d.1 (kind == .transposeIn), 0, false⟩ (cb h.w 24)).settle h.core h.slot) := by
  unfold runStream
  dsimp only
  rw [if_neg (by simp [own, armed]), plan]
  dsimp only
  rw [notOff, on, free, if_neg (by simp), if_neg (by simp), if_neg (by simp; omega)]
  exact pay_of_affords a

/-- A stream command at a head runs `runStream`. -/
theorem exec_stream_of_heads {s : State} {core n op : Nat} {kind : XKind} {h : Head} {onSkip : Head → State → State} {near : Near}
    (e : heads s core n op h)
    (own : ((s.core core).stSlot (cf h.w 23 20)).isOf h.ctx.lctx = true) (armed : ((s.core core).stSlot (cf h.w 23 20)).st ≠ .empty)
    (plan : nearPlan s core h.ctx ((s.core core).stSlot (cf h.w 23 20)).nextDesc.1
      ((s.core core).stSlot (cf h.w 23 20)).nextDesc.2.2.2 (kind == .transposeIn) (kind == .streamOut) = .ok near)
    (notOff : near.isOff (s.core core) = false) (on : near.isOn (s.core core) = true)
    (room : ((s.core core).stSlot (cf h.w 23 20)).queue.length < 4) (free : s.farHeld core = false) (a : affords s h 0 1) :
    select core n s (work core n op s (fun h s => runStream kind h s) onSkip) = .next
      (let q := cf h.w 23 20
       let d := ((s.core core).stSlot q).nextDesc
       let u := (issued s h 0 1).leave h .stream
       (u.2.handOff core q ⟨u.1, n, h.ctx.lctx, kind, d.1, near.at', near.circ, d.2.1, d.2.2.1,
         nearExt d.1 (kind == .transposeIn), 0, false⟩ (cb h.w 24)).settle core n) := by
  obtain ⟨hcore, hslot, -, -⟩ := heads_core e
  have g := exec_work_of_heads (body := fun h s => runStream kind h s) (onSkip := onSkip) e
  subst hcore hslot
  exact g.trans (congrArg _ (runStream_takes own armed plan notOff on room free a))

/-- What a COPY_REMOTE moves and charges for its first `m` bytes, on the state `t` after the issue (log 121). -/
def copied (core ts os td od m : Nat) (t : State) : State :=
  (((t.touchBanks ts os m).touchBanks td od m).copyLines (scrPa td od) (scrPa ts os) m).chargeData core
    (40 * ((if ts = core then 0 else cdiv m 64) + (if td = core then 0 else cdiv m 64)))

/-- A COPY_REMOTE whose two sides are legal and whose core has room for its requests: `copyMeets` says how far it goes. -/
theorem exec_copyRemote_of_sides {s : State} {core n ts os td od : Nat} {h : Head} {bad : Option (Nat × Nat × Nat)}
    (e : heads s core n 0x23 h)
    (src : copySide s core h.ctx (cf h.w 21 20) (cf h.w 37 22) ((cf h.w 71 56 + 1) * 16) = .ok (ts, os))
    (dst : copySide s core h.ctx (cf h.w 39 38) (cf h.w 55 40) ((cf h.w 71 56 + 1) * 16) = .ok (td, od))
    (free : s.farHeld core = false) (reads : ts = core ∨ (s.core core).outR < 64) (writes : td = core ∨ (s.core core).writesFull = false)
    (meets : s.copyMeets core n ts os td od ((cf h.w 71 56 + 1) * 16) = (bad, false)) (a : affords s h 0 1) :
    exec (.copyRemote core n) s = .next (match bad with
      | some (i, t, st) => ((copied core ts os td od (64 * i) (issued s h 0 1)).noteRefused t st).faultCtx core h.ctx.lctx st
      | none => (copied core ts os td od ((cf h.w 71 56 + 1) * 16) (issued s h 0 1)).done h) := by
  refine (exec_work_of_heads e).trans (congrArg _ ?_)
  dsimp only
  rw [src, dst]
  dsimp only
  have goes : ¬(s.farHeld core = true ∨ ts ≠ core ∧ 64 ≤ (s.core core).outR ∨ td ≠ core ∧ (s.core core).writesFull = true) := by
    rw [free]
    obtain r | r := reads <;> obtain w | w := writes <;> simp [r, w]
  rw [if_neg goes]
  simp only [meets]
  match bad with
  | none => exact pay_of_affords a
  | some (i, t, st) => exact pay_of_affords a

/-- Settles O36: each command issues once its checks hold, and its effect is read off the model's own rule. -/
theorem streamCommandsComplete : Obligations.StreamCommandsComplete := by
  unfold Obligations.StreamCommandsComplete
  refine ⟨?armEmpty, ?armShadow, ?armBusy, ?streamIn, ?streamOut, ?transposeIn, ?swap, ?swapPair, ?copy, ?copyRefused⟩
  case armEmpty =>
    intro s core n off h d e own near bound at' notOff on desc ok a empty
    refine (exec_armStream_of_descriptor e own near bound at' notOff on desc ok a).trans (congrArg _ ?_)
    exact if_pos (by rw [empty]; rfl)
  case armShadow =>
    intro s core n off h d e own near bound at' notOff on desc ok a busy noShadow
    refine (exec_armStream_of_descriptor e own near bound at' notOff on desc ok a).trans (congrArg _ ?_)
    exact (if_neg (Bool.eq_false_iff.mp busy)).trans (if_pos noShadow)
  case armBusy =>
    intro s core n off h d e own near bound at' notOff on desc ok a busy shadow
    refine (exec_armStream_of_descriptor e own near bound at' notOff on desc ok a).trans (congrArg _ ?_)
    exact (if_neg (Bool.eq_false_iff.mp busy)).trans (if_neg (Bool.eq_false_iff.mp shadow))
  case streamIn =>
    intro s core n h near e own armed plan notOff on room free a
    exact exec_stream_of_heads e own armed plan notOff on room free a
  case streamOut =>
    intro s core n h near e own armed plan notOff on room free a
    exact exec_stream_of_heads e own armed plan notOff on room free a
  case transposeIn =>
    intro s core n h near e own armed plan notOff on room free a
    exact exec_stream_of_heads e own armed plan notOff on room free a
  case swap =>
    intro s core n h e own armed empty keep other halves fits a
    refine (exec_work_of_heads e).trans (congrArg _ ?_)
    dsimp only
    rw [if_neg (by simp [own, armed]), if_neg (by simp [empty, keep]), if_neg (by simp [halves, other, fits]), pay_of_affords a, keep]
    rfl
  case swapPair =>
    intro s core n h e own armed empty place quiet other halves fits a
    refine (exec_work_of_heads e).trans (congrArg _ ?_)
    dsimp only
    rw [if_neg (by simp [own, armed]), if_neg (by simp [empty, quiet]), if_neg (by simp [halves, other, fits]), pay_of_affords a, place]
    rfl
  case copy =>
    intro s core n ts os td od h e src dst free reads writes meets a
    exact exec_copyRemote_of_sides e src dst free reads writes meets a
  case copyRefused =>
    intro s core n ts os td od i t st h e src dst free reads writes meets a
    exact exec_copyRemote_of_sides e src dst free reads writes meets a

end Sys2Proof.Machine
end

section
/-! SUPPORT. The ends of transfers and the prefetch (O37): each event runs the front transfer of its slot (`State.runXfer`) and acts on
why that stopped. -/
set_option Elab.async false
namespace Sys2Proof.Machine
open Sys2Proof

/-- The front transfer of a slot may run: the slot is active, and nothing holds its core, its far side or its near side. -/
theorem transfer_runs {s : State} {core n : Nat} {x : Xfer} (active : ((s.core core).stSlot n).st = .active)
    (fence : (s.core core).fenced = false) (free : s.farHeld core = false) (near : s.nearWaits core x = false) :
    ¬(((s.core core).stSlot n).st ≠ .active ∨ s.farHeld core = true ∨ (s.core core).fenced = true ∨ s.nearWaits core x = true) := by
  simp [active, fence, free, near]

/-- Settles O37: what each event does once `runXfer` has stopped the front transfer as the event says. -/
theorem streamEventsComplete : Obligations.StreamEventsComplete := by
  unfold Obligations.StreamEventsComplete
  refine ⟨?complete, ?suspend, ?failure, ?prefetch⟩
  case complete =>
    intro s core n x q hcore hn front active fence free near stops kind
    show execTransferComplete core n s = _
    unfold execTransferComplete
    rw [if_neg (by omega)]
    dsimp only
    rw [front]
    dsimp only
    rw [if_neg (transfer_runs active fence free near)]
    generalize s.runXfer core n x = r at *
    obtain ⟨e, x1, s1⟩ := r
    cases stops
    exact if_neg kind
  case suspend =>
    intro s core n va x q u er hcore hn front active fence free near stops
    show execTransferSuspend core n s = _
    unfold execTransferSuspend
    rw [if_neg (by omega)]
    dsimp only
    rw [front]
    dsimp only
    rw [if_neg (transfer_runs active fence free near)]
    generalize s.runXfer core n x = r at *
    obtain ⟨e, x1, s1⟩ := r
    cases stops
    rfl
  case failure =>
    intro s core n st x q hcore hn front active fence free near stops
    show execTransferFailure core n s = _
    unfold execTransferFailure
    rw [if_neg (by omega)]
    dsimp only
    rw [front]
    dsimp only
    rw [if_neg (transfer_runs active fence free near)]
    generalize s.runXfer core n x = r at *
    obtain ⟨e, x1, s1⟩ := r
    cases stops
    rfl
  case prefetch =>
    intro s core n x hcore hn runs fence free found
    show execPrefetch core n s = _
    unfold execPrefetch
    rw [if_neg (by omega)]
    dsimp only
    have goes : ¬((!((s.slot core n).st == .ready || (s.slot core n).st == .blocked)) = true ∨ (s.core core).fenced = true ∨
        s.farHeld core = true) := by
      rw [runs, fence, free]
      simp
    unfold State.slot at found goes
    rw [if_neg goes, found]
    rfl

end Sys2Proof.Machine
end

section
/-! SUPPORT. Chains (O38): the three roles of CHAIN_W, and the arrival of a message at a link. -/
set_option Elab.async false
namespace Sys2Proof.Machine
open Sys2Proof

/-- Whether a message of a link is a line of a tile, not its header. -/
def ChainMsg.isLine (m : ChainMsg) : Bool := match m with | .line _ _ => true | _ => false

/-- Where an arriving message goes: to the receiver in progress, else into the receive buffer, and nowhere when it is a line
without its header (R181). -/
def State.lineIn (s : State) (core : Nat) (m : Nat × ChainMsg) : State :=
  match (s.core core).chain.filter fun c => chRole c.cmd != 0 with
  | some c => s.chainFeed core c m.2
  | none =>
    if (s.core core).chainBuf.isEmpty && m.2.isLine then s else s.mapCore core fun k => { k with chainBuf := k.chainBuf ++ [m] }

/-- The head of the chain that sends to `core` completes when its last line has left the link. -/
def State.senderDone (s : State) (core : Nat) : State :=
  match s.upstream core with
  | some u =>
    match (s.core u).chain with
    | some c => (s.mapCore u fun k => ({ k with chain := none } : Core).complete c.id).badHead u c.hw
    | none => s
  | none => s

theorem State.senderDone_of_none {s : State} {core : Nat} (h : s.upstream core = none) : s.senderDone core = s := by
  unfold State.senderDone
  rw [h]

theorem State.senderDone_of_some {s : State} {core u : Nat} {c : ChainRun} (h : s.upstream core = some u)
    (hc : (s.core u).chain = some c) :
    s.senderDone core = (s.mapCore u fun k => ({ k with chain := none } : Core).complete c.id).badHead u c.hw := by
  unfold State.senderDone
  rw [h]
  dsimp only
  rw [hc]

theorem next_senderDone (s : State) (core : Nat) :
    (match s.upstream core with
      | some u =>
        match (s.core u).chain with
        | some c => .next ((s.mapCore u fun k => ({ k with chain := none } : Core).complete c.id).badHead u c.hw)
        | none => .next s
      | none => .next s : Out) = .next (s.senderDone core) := by
  unfold State.senderDone
  cases s.upstream core with
  | none => rfl
  | some u =>
    dsimp only
    cases (s.core u).chain <;> rfl

/-- A message leaves the link when its receiver is in progress or the buffer has room. -/
theorem exec_chainLineArrival_of_front {s : State} {core : Nat} {m : Nat × ChainMsg} {q : List (Nat × ChainMsg)} (hcore : core < 2048)
    (front : (s.core core).chainIn = m :: q) (go : s.halts = false)
    (room : (s.core core).chain.filter (fun c => chRole c.cmd != 0) = none → (s.core core).chainBuf.length < 32) :
    exec (.chainLineArrival core) s
      = .next (((s.setCore core { s.core core with chainIn := q }).lineIn core m).senderDone core) := by
  show execChainLineArrival core s = _
  unfold execChainLineArrival
  rw [if_neg (by rw [go]; simp; omega)]
  dsimp only
  rw [front]
  dsimp only
  rw [if_neg (by
    rintro ⟨hnone, full⟩
    have := room (Option.isNone_iff_eq_none.mp hnone)
    omega)]
  unfold State.lineIn
  simp only [State.core_setCore]
  cases (s.core core).chain.filter (fun c => chRole c.cmd != 0) with
  | none => exact next_senderDone _ core
  | some c => exact next_senderDone _ core

theorem State.lineIn_receiver {s : State} {core : Nat} {c : ChainRun} (m : Nat × ChainMsg) (hc : (s.core core).chain = some c)
    (role : chRole c.cmd ≠ 0) : s.lineIn core m = s.chainFeed core c m.2 := by
  unfold State.lineIn
  rw [hc, Option.filter_some_pos (by simp [role])]

theorem State.lineIn_buffered {s : State} {core : Nat} {m : Nat × ChainMsg}
    (noRecv : (s.core core).chain.filter (fun c => chRole c.cmd != 0) = none)
    (kept : ((s.core core).chainBuf.isEmpty && m.2.isLine) = false) :
    s.lineIn core m = s.mapCore core fun k => { k with chainBuf := k.chainBuf ++ [m] } := by
  unfold State.lineIn
  rw [noRecv]
  exact if_neg (Bool.eq_false_iff.mp kept)

theorem State.lineIn_dropped {s : State} {core : Nat} {m : Nat × ChainMsg}
    (noRecv : (s.core core).chain.filter (fun c => chRole c.cmd != 0) = none)
    (orphan : ((s.core core).chainBuf.isEmpty && m.2.isLine) = true) : s.lineIn core m = s := by
  unfold State.lineIn
  rw [noRecv]
  exact if_pos orphan

/-- Settles O38: CHAIN_W by its role, and an arrival by where the message goes and by the sender that it completes. -/
theorem chainCommandsComplete : Obligations.ChainCommandsComplete := by
  unfold Obligations.ChainCommandsComplete
  refine ⟨?head, ?headStream, ?relayTail, ?buffered, ?dropped, ?fed, ?fedSender, ?bufferedSender⟩
  case head =>
    intro s core n off h e role own zero en src on idle a
    refine (exec_work_of_heads e).trans (congrArg _ ?_)
    dsimp only
    rw [if_neg (by simp [role, own, zero, en]), if_neg (by simp [own]), if_neg (by simp [own]), src]
    dsimp only
    rw [if_neg (by simp [on]), if_neg (by simp [idle, own, role]), pay_of_affords a]
    rw [if_pos role, if_pos own]
  case headStream =>
    intro s core n off h e role own mine armed en ext src on idle room free a
    refine (exec_work_of_heads e).trans (congrArg _ ?_)
    dsimp only
    rw [if_neg (by simp [role, own, en]), if_neg (by simp [mine, armed]), if_neg (by simp [ext]), src]
    dsimp only
    rw [if_neg (by simp [on]), if_neg (by simp [idle, free, role, room]), pay_of_affords a]
    rw [if_pos role, if_neg (Bool.eq_false_iff.mp own)]
  case relayTail =>
    intro s core n off h e role own zero src on idle mine a
    have r0 : chRole h.w ≠ 0 := by omega
    refine (exec_work_of_heads e).trans (congrArg _ ?_)
    dsimp only
    rw [if_neg, if_neg (by simp [r0]), if_neg (by simp [r0]), src]
    · dsimp only
      rw [if_neg (by simp [on]), if_neg (by simp [idle, mine, r0]), pay_of_affords a]
      rw [if_neg r0]
    · obtain ⟨h1, en⟩ | h2 := role
      · simp [h1, own, zero, en]
      · simp [h2, own, zero]
  case buffered =>
    intro s core m q hcore front idle room kept quiet go
    have noRecv : (s.core core).chain.filter (fun c => chRole c.cmd != 0) = none := by rw [idle]; rfl
    rw [exec_chainLineArrival_of_front hcore front go (fun _ => room),
      State.lineIn_buffered (by simpa using noRecv) (by rw [State.core_setCore]; exact kept),
      State.senderDone_of_none quiet]
  case dropped =>
    intro s core m q hcore front idle empty line quiet go
    have noRecv : (s.core core).chain.filter (fun c => chRole c.cmd != 0) = none := by rw [idle]; rfl
    rw [exec_chainLineArrival_of_front hcore front go (fun _ => by simp [empty]),
      State.lineIn_dropped (by simpa using noRecv) (by rw [State.core_setCore, empty]; exact line),
      State.senderDone_of_none quiet]
  case fed =>
    intro s core c m q hcore front run role quiet go
    rw [exec_chainLineArrival_of_front hcore front go (fun h => by simp [run, role] at h),
      State.lineIn_receiver m (by rw [State.core_setCore]; exact run) role, State.senderDone_of_none quiet]
  case fedSender =>
    intro s core v c d m q hcore front run role sender last go
    rw [exec_chainLineArrival_of_front hcore front go (fun h => by simp [run, role] at h),
      State.lineIn_receiver m (by rw [State.core_setCore]; exact run) role, State.senderDone_of_some sender last]
  case bufferedSender =>
    intro s core v d m q hcore front noRecv kept room sender last go
    rw [exec_chainLineArrival_of_front hcore front go (fun _ => room),
      State.lineIn_buffered (by rw [State.core_setCore]; exact noRecv) (by rw [State.core_setCore]; exact kept),
      State.senderDone_of_some sender last]

end Sys2Proof.Machine
end

section
/-! SUPPORT. Checkpoint and replay commands (O39): PUSH, POP and PEEK once their checks and banks hold, by the state of the record. -/
set_option Elab.async false
namespace Sys2Proof.Machine
open Sys2Proof

/-- A PUSH_CKPT for which the larder has made room issues: a poisoned source ends the context, else the record enters. -/
theorem exec_pushCkpt_of_room {s : State} {core n off : Nat} {h : Head} (e : heads s core n 0x80 h)
    (check : pushCheck (s.core core) core h = .ok off) (src : (s.core core).bankIsOn off (pushData h.w) = true)
    (lar : (s.core core).bankIsOn (s.core core).larder.region.1 (s.core core).larder.region.2 = true)
    (pep : cb h.w 20 = false ∨ (s.core core).vecOf h.ctx = false) (take : (s.core core).larder.canTake (pushLen h.w / 128) = true)
    (room : pushLen h.w / 128 ≤ ((s.core core).larder.makeRoom (pushLen h.w / 128) (s.farHeld core)).freeLines)
    (a : affords s h 0 (14 + pushLen h.w / 128 + cellarT off)) :
    exec (.pushCkpt core n) s = .next
      (let u := issued s h 0 (14 + pushLen h.w / 128 + cellarT off)
       if u.anyPoison (scrPa core off) (pushData h.w) then u.failed h stPoisoned
       else (u.pushRec h ((s.core core).larder.makeRoom (pushLen h.w / 128) (s.farHeld core)) off).done h) := by
  have noPep : ¬(cb h.w 20 = true ∧ (s.core core).vecOf h.ctx = true) := by
    obtain p | p := pep <;> simp [p]
  refine (exec_work_of_heads e).trans (congrArg _ ?_)
  dsimp only
  rw [check]
  dsimp only
  rw [src, lar, take, if_neg (by simp), if_neg noPep, if_neg (by simp), if_neg (by omega)]
  exact pay_of_affords a

/-- What a POP_CKPT without DROP or a PEEK_CKPT may ask of the pepper state. -/
theorem pep_allowed {want has busy : Bool} (h : want = true → has = true ∧ busy = false) :
    ¬(want = true ∧ (!has) = true) ∧ ¬(want = true ∧ busy = true) := by
  cases want <;> cases has <;> cases busy <;> simp_all

theorem banks_on {a b : Bool} (ha : a = true) (hb : b = true) : ¬((!(a && b)) = true) := by simp [ha, hb]

/-- Settles O39: each command behind its checks, by the record that it names. -/
theorem checkpointCommandsComplete : Obligations.CheckpointCommandsComplete := by
  unfold Obligations.CheckpointCommandsComplete
  refine ⟨?push, ?pushPoisoned, ?popDrop, ?pop, ?popFailed, ?peek, ?peekSpilled, ?peekFailed, ?replayBegin, ?replayEndOutside, ?replayEnd⟩
  case push =>
    intro s core n off h e check src lar pep take room a clean
    exact (exec_pushCkpt_of_room e check src lar pep take room a).trans (congrArg _ (if_neg (Bool.eq_false_iff.mp clean)))
  case pushPoisoned =>
    intro s core n off h e check src lar pep take room a bad
    exact (exec_pushCkpt_of_room e check src lar pep take room a).trans (congrArg _ (if_pos bad))
  case popDrop =>
    intro s core n h r t e check top drop st block step a
    refine (exec_work_of_heads e).trans (congrArg _ ?_)
    dsimp only
    rw [check]
    dsimp only
    rw [top]
    dsimp only
    rw [if_neg (by simp [st]), if_neg (by simp [drop]), if_neg (by simp [drop]), if_neg (by simp [block, step]), if_pos drop]
    exact pay_of_affords a
  case pop =>
    intro s core n off h r t e check top drop st block step pep dst on lar a
    obtain ⟨noPep, noVec⟩ := pep_allowed pep
    refine (exec_work_of_heads e).trans (congrArg _ ?_)
    dsimp only
    rw [check]
    dsimp only
    rw [top]
    dsimp only
    rw [if_neg (by simp [drop]), if_neg (by simp [st]), if_neg (by simp [st]), if_neg (by simp [block, step]), if_neg (by simp [drop]),
      if_neg noPep, dst]
    dsimp only
    rw [if_neg (by simp [on, lar]), if_neg noVec]
    exact pay_of_affords a
  case popFailed =>
    intro s core n h r t e check top why
    refine (exec_work_of_heads e).trans (congrArg _ ?_)
    dsimp only
    rw [check]
    dsimp only
    rw [top]
    dsimp only
    obtain ⟨st, drop⟩ | ⟨st, other⟩ := why
    · rw [if_neg (by simp [drop]), if_neg (by simp [st]), if_pos (by simp [st, drop]), if_pos st]
    · rw [if_neg (by simp [st]), if_neg (by simp [st]), if_neg (by simp [st]), if_pos other, if_neg (by simp [st])]
  case peek =>
    intro s core n off h r e check named st pep dst on lar a
    obtain ⟨noPep, noVec⟩ := pep_allowed pep
    have notFailed : ¬(r.st = .failed) := by simp [st]
    have free : ¬(cb h.w 43 = true ∧ (s.core core).vecOf h.ctx = true ∨ r.st = .spilling ∨ r.st ≠ .onChip ∧ s.farHeld core = true) := by
      simp [st, noVec]
    refine (exec_work_of_heads e).trans (congrArg _ ?_)
    dsimp only
    rw [check, named]
    simp only [Option.elim_some, dst]
    refine (if_neg (banks_on on lar)).trans ((if_neg notFailed).trans ((if_neg noPep).trans ((if_neg free).trans ((if_pos st).trans ?_))))
    exact pay_of_affords a
  case peekSpilled =>
    intro s core n off h r img lines e check named st noPep dst on lar free read a
    have out : r.st ≠ .failed ∧ r.st ≠ .spilling ∧ r.st ≠ .onChip := by
      obtain st | st := st <;> simp [st]
    obtain ⟨notFailed, notSpilling, notOn⟩ := out
    have pep : ¬(cb h.w 43 = true ∧ (!r.pep) = true) := by simp [noPep]
    have waits : ¬(cb h.w 43 = true ∧ (s.core core).vecOf h.ctx = true ∨ r.st = .spilling ∨ r.st ≠ .onChip ∧ s.farHeld core = true) := by
      simp [noPep, notSpilling, free]
    refine (exec_work_of_heads e).trans (congrArg _ ?_)
    dsimp only
    rw [check, named]
    simp only [Option.elim_some, dst]
    refine (if_neg (banks_on on lar)).trans ((if_neg notFailed).trans ((if_neg pep).trans ((if_neg waits).trans ((if_neg notOn).trans ?_))))
    rw [read]
    dsimp only
    rw [if_neg (by simp)]
    refine (pay_of_affords a).trans ?_
    rw [noPep]
    rfl
  case peekFailed =>
    intro s core n off h r e check named st dst on lar
    refine (exec_work_of_heads e).trans (congrArg _ ?_)
    dsimp only
    rw [check, named]
    simp only [Option.elim_some, dst]
    exact (if_neg (banks_on on lar)).trans (if_pos st)
  case replayBegin =>
    intro s core n h e unaware room a
    refine (exec_work_of_heads e).trans (congrArg _ ?_)
    dsimp only
    rw [if_neg (by simp [unaware, room])]
    exact pay_of_affords a
  case replayEndOutside =>
    intro s core n h e unaware outside a
    refine (exec_work_of_heads e).trans (congrArg _ ?_)
    rw [if_neg (by simp [unaware]), if_pos (by simp [outside])]
    exact pay_of_affords a
  case replayEnd =>
    intro s core n h c t e unaware inside calls mark a
    refine (exec_work_of_heads e).trans (congrArg _ ?_)
    rw [if_neg (by simp [unaware]), if_neg (by simp [inside]), calls]
    dsimp only
    rw [if_neg (by simp [mark])]
    exact pay_of_affords a

end Sys2Proof.Machine
end

section
/-! SUPPORT. The larder's own moves (O40): spills and fetch-backs start and end behind their conditions. -/
set_option Elab.async false
namespace Sys2Proof.Machine
open Sys2Proof

/-- A spill that may end writes its image; a poisoned line bound for the host decides how it ends (R187). -/
theorem exec_recordSpillComplete_of_ready {s : State} {core i : Nat} {r : Rec} (hcore : core < 2048)
    (spilling : (s.core core).larder.inState .spilling = some i) (at' : (s.core core).larder.recs[i]? = some r)
    (free : s.farHeld core = false) (on : (s.core core).bankIsOn (s.core core).larder.region.1 (s.core core).larder.region.2 = true)
    (ok : s.vok (s.pno core) ((s.core core).larder.spillAddr + r.spill) r.rlen true = true) :
    exec (.recordSpillComplete core) s = .next
      (let va := (s.core core).larder.spillAddr + r.spill
       let x := s.spillOut core r va
       if x.2 then x.1.faultCtx core (s.core core).larder.owner stPoisoned
       else (((x.1.ckPages core va r.rlen).chargeData core (40 * (r.rlen / 64))).mapLarder core fun l =>
         { l.mapRec i (fun r => { r with st := .spilled }) with spills := sat16 l.spills 1 }).mapCore core Core.refresh) := by
  show execRecordSpillComplete core s = _
  unfold execRecordSpillComplete
  rw [if_neg (by omega)]
  dsimp only
  rw [spilling]
  dsimp only
  rw [at']
  dsimp only
  rw [if_neg (by simp [free]), if_neg (by simp [on]), if_neg (by simp [ok])]
  exact (apply_ite Host.Outcome.next _ _ _).symm

/-- A fetch-back that may end and whose image can be read ends by its checks (R187). -/
theorem exec_fetchBackComplete_of_read {s : State} {core i : Nat} {r : Rec} {img : List Byte} {bads : List Bool} {ok : Bool}
    (hcore : core < 2048) (fetching : (s.core core).larder.inState .fetching = some i)
    (at' : (s.core core).larder.recs[i]? = some r)
    (on : (s.core core).bankIsOn (s.core core).larder.region.1 (s.core core).larder.region.2 = true)
    (read : s.spillRead core (s.core core).larder r = .ok (img, bads, ok)) (free : s.farHeld core = false) :
    exec (.fetchBackComplete core) s = .next
      (let va := (s.core core).larder.spillAddr + r.spill
       if !ok then s.noteCheck.mapLarder core fun l => l.mapRec i fun r => { r with st := .failed }
       else ((((s.vtake (s.pno core) va r.rlen).ckPages core va r.rlen).fetchIn core r img bads).chargeData core
         (40 * (r.rlen / 64))).mapLarder core fun l =>
         { l.mapRec i (fun r => { r with st := .onChip }) with fetches := sat16 l.fetches 1 }) := by
  show execFetchBackComplete core s = _
  unfold execFetchBackComplete
  rw [if_neg (by omega)]
  dsimp only
  rw [fetching]
  dsimp only
  rw [at']
  dsimp only
  rw [if_neg (by simp [free]), if_neg (by simp [on]), read]
  exact (apply_ite Host.Outcome.next _ _ _).symm

/-- Settles O40: a spill and a fetch-back start behind their conditions, and end as their image says. -/
theorem larderMovesItsRecords : Obligations.LarderMovesItsRecords := by
  unfold Obligations.LarderMovesItsRecords
  refine ⟨?spillAhead, ?spilled, ?spillPoisoned, ?fetchBack, ?fetched, ?fetchFailed⟩
  case spillAhead =>
    intro s core i hcore oldest en dir low more idle fits free
    show execSpillAhead core s = _
    unfold execSpillAhead
    rw [if_neg (by omega)]
    dsimp only
    rw [oldest]
    exact if_pos (by simp [en, dir, low, more, idle, fits, free])
  case spilled =>
    intro s t core i r hcore spilling at' free on ok out
    have g := exec_recordSpillComplete_of_ready hcore spilling at' free on ok
    dsimp only at g
    rw [out] at g
    exact g
  case spillPoisoned =>
    intro s t core i r hcore spilling at' free on ok out
    have g := exec_recordSpillComplete_of_ready hcore spilling at' free on ok
    dsimp only at g
    rw [out] at g
    exact g
  case fetchBack =>
    intro s core i r hcore newest at' en dir st idle fits free
    show execFetchBack core s = _
    unfold execFetchBack
    rw [if_neg (by omega)]
    dsimp only
    rw [newest]
    dsimp only
    rw [at']
    exact if_pos (by simp [en, dir, st, idle, fits, free])
  case fetched =>
    intro s core i r img bads hcore fetching at' on read free
    exact exec_fetchBackComplete_of_read hcore fetching at' on read free
  case fetchFailed =>
    intro s core i r img bads hcore fetching at' on read free
    exact exec_fetchBackComplete_of_read hcore fetching at' on read free

end Sys2Proof.Machine
end

section
/-! SUPPORT. Host accesses through BAR2 (O42): a read by what the virtual run holds, a write by whether it translates. -/
set_option Elab.async false
namespace Sys2Proof.Machine
open Sys2Proof

@[simp] theorem State.func_setFunc (s : State) (port n : Nat) (f : HFunc) : (s.setFunc port n f).func port n = f := by
  unfold State.setFunc State.func
  rw [State.hport_setHport]
  exact Tab.get_put_same _ _ _ _

@[simp] theorem State.func_mapFunc (s : State) (port n : Nat) (f : HFunc → HFunc) :
    (s.mapFunc port n f).func port n = f (s.func port n) := State.func_setFunc s port n _

/-- The state in which a poisoned write of the host has been logged (R357). -/
def State.writeLogged (s : State) (port func : Nat) (bad : Bool) : State :=
  if bad then s.mapFunc port func fun f => f.logAer .poisonedTlp else s

theorem State.writeLogged_bar2Va (s : State) (port func off : Nat) (bad : Bool) :
    (s.writeLogged port func bad).bar2Va port func off = s.bar2Va port func off := by
  unfold State.writeLogged State.bar2Va
  cases bad
  · rfl
  · rw [if_pos rfl, State.func_mapFunc]
    rfl

theorem State.writeLogged_boundPart (s : State) (port func : Nat) (bad : Bool) :
    (s.writeLogged port func bad).boundPart port func = s.boundPart port func := by cases bad <;> rfl

theorem State.writeLogged_vok (s : State) (port func p va n : Nat) (bad : Bool) :
    (s.writeLogged port func bad).vok p va n true = s.vok p va n true := by cases bad <;> rfl

/-- What a read by a bound function does with what its run of bytes holds (R219, R387). -/
def State.bar2Answer (s : State) (port func off len p : Nat) (r : Except TransFail (List Byte × Bool)) : State :=
  match r with
  | .error _ => s.mapFunc port func fun f => { f with urreads := sat16 f.urreads 1 }
  | .ok (bs, bad) =>
    let t := { s.vtake p (s.bar2Va port func off) len with busData := BitVec.ofNat 64 (leNat (bs.take 8)) }
    if bad then
      let u := t.mapFunc port func fun f => { f with epreads := sat16 f.epreads 1 }
      ({ u with memStat := { u.memStat with hostEp := sat16 u.memStat.hostEp 1 } } : State).hostPoison p
    else t

theorem exec_bar2Read_of_bound {s : State} {port func off len p : Nat} (hport : port < 2) (hfunc : func < 16)
    (answers : s.answers port func = true) (bound : s.boundPart port func = some p) (pos : 0 < len) (short : len ≤ 4096)
    (inside : off + len ≤ s.bar2Size port func) :
    exec (.bar2Read port func off len) s = .next (s.bar2Answer port func off len p (s.vread p (s.bar2Va port func off) len)) := by
  show execBar2Read port func off len s = _
  unfold execBar2Read
  rw [if_neg (by omega), if_neg (by simp [answers]), bound]
  dsimp only
  generalize s.vread p (s.bar2Va port func off) len = r
  match r with
  | .error _ => rfl
  | .ok (_, true) => rfl
  | .ok (_, false) => rfl

theorem exec_bar2Read_of_unbound {s : State} {port func off len : Nat} (hport : port < 2) (hfunc : func < 16)
    (answers : s.answers port func = true) (unbound : s.boundPart port func = none) (pos : 0 < len) (short : len ≤ 4096)
    (inside : off + len ≤ s.bar2Size port func) :
    exec (.bar2Read port func off len) s = .next (s.mapFunc port func fun f => { f with urreads := sat16 f.urreads 1 }) := by
  show execBar2Read port func off len s = _
  unfold execBar2Read
  rw [if_neg (by omega), if_neg (by simp [answers]), unbound]

theorem bar2Write_guard {s : State} {port func off : Nat} {data : List Byte} (hport : port < 2) (hfunc : func < 16) (some_ : data ≠ [])
    (short : data.length ≤ 4096) (inside : off + data.length ≤ s.bar2Size port func) :
    ¬(2 ≤ port ∨ 16 ≤ func ∨ data = [] ∨ 4096 < data.length ∨ s.bar2Size port func < off + data.length) := by
  simp only [some_, false_or]
  omega

theorem exec_bar2Write_of_bound {s : State} {port func off p : Nat} {data : List Byte} (bad : Bool) (hport : port < 2)
    (hfunc : func < 16) (answers : s.answers port func = true) (bound : s.boundPart port func = some p) (some_ : data ≠ [])
    (short : data.length ≤ 4096) (inside : off + data.length ≤ s.bar2Size port func) :
    exec (.bar2Write port func off data bad) s = .next
      (if s.vok p (s.bar2Va port func off) data.length true = true then
        (s.writeLogged port func bad).vwrite p (s.bar2Va port func off) data bad
      else (s.writeLogged port func bad).mapFunc port func fun f => { f with dropwr := sat16 f.dropwr 1 }) := by
  show execBar2Write port func off data bad s = _
  unfold execBar2Write
  rw [if_neg (bar2Write_guard hport hfunc some_ short inside), if_neg (by simp [answers])]
  have b := (State.writeLogged_boundPart s port func bad).trans bound
  have v := State.writeLogged_vok s port func p (s.bar2Va port func off) data.length bad
  have va := State.writeLogged_bar2Va s port func off bad
  unfold State.writeLogged at b v va ⊢
  simp only [b, va, v]
  exact (apply_ite Host.Outcome.next _ _ _).symm

theorem exec_bar2Write_of_unbound {s : State} {port func off : Nat} {data : List Byte} (bad : Bool) (hport : port < 2)
    (hfunc : func < 16) (answers : s.answers port func = true) (unbound : s.boundPart port func = none) (some_ : data ≠ [])
    (short : data.length ≤ 4096) (inside : off + data.length ≤ s.bar2Size port func) :
    exec (.bar2Write port func off data bad) s
      = .next ((s.writeLogged port func bad).mapFunc port func fun f => { f with dropwr := sat16 f.dropwr 1 }) := by
  show execBar2Write port func off data bad s = _
  unfold execBar2Write
  rw [if_neg (bar2Write_guard hport hfunc some_ short inside), if_neg (by simp [answers])]
  have b := (State.writeLogged_boundPart s port func bad).trans unbound
  unfold State.writeLogged at b ⊢
  simp only [b]

/-- Settles O42: reads by the run of bytes, writes by its translation, unbound functions by their counters. -/
theorem hostWindowAccesses : Obligations.HostWindowAccesses := by
  unfold Obligations.HostWindowAccesses
  refine ⟨?read, ?write, ?dropped, ?failed, ?unboundRead, ?unboundWrite, ?poisoned⟩
  case read =>
    intro s port func off len p bs hport hfunc answers bound pos short inside run
    rw [exec_bar2Read_of_bound hport hfunc answers bound pos short inside, run]
    rfl
  case write =>
    intro s port func off p data bad hport hfunc answers bound some_ short inside ok
    exact (exec_bar2Write_of_bound bad hport hfunc answers bound some_ short inside).trans (congrArg _ (if_pos ok))
  case dropped =>
    intro s port func off p data bad hport hfunc answers bound some_ short inside ok
    exact (exec_bar2Write_of_bound bad hport hfunc answers bound some_ short inside).trans
      (congrArg _ (if_neg (Bool.eq_false_iff.mp ok)))
  case failed =>
    intro s port func off len p x hport hfunc answers bound pos short inside run
    rw [exec_bar2Read_of_bound hport hfunc answers bound pos short inside, run]
    rfl
  case unboundRead =>
    intro s port func off len hport hfunc answers unbound pos short inside
    exact exec_bar2Read_of_unbound hport hfunc answers unbound pos short inside
  case unboundWrite =>
    intro s port func off data bad hport hfunc answers unbound some_ short inside
    exact exec_bar2Write_of_unbound bad hport hfunc answers unbound some_ short inside
  case poisoned =>
    intro s port func off len p bs hport hfunc answers bound pos short inside run
    rw [exec_bar2Read_of_bound hport hfunc answers bound pos short inside, run]
    rfl

end Sys2Proof.Machine
end

section
/-! SUPPORT. The update scheduler (O44): the front of its queue is accepted, run, committed or discarded. -/
set_option Elab.async false
namespace Sys2Proof.Machine
open Sys2Proof

/-- What the last exchange of a region does: with at most 512 pairs left they are all exchanged and the region is CLOSED (R240). -/
theorem State.commitSome_of_rest (s : State) (p : Nat) (e : RegEnt) (live : e.frozen = false)
    (rest : e.pairs.length ≤ (if (s.hdrAt p e).cmt then (s.hdrAt p e).cmtdone else 0) + 512) :
    s.commitSome p e =
      (let k := if (s.hdrAt p e).cmt then (s.hdrAt p e).cmtdone else 0
       let v := s.mapPart p fun pt => (e.pairs.drop k).foldl (fun pt x => pt.exchange x.1 x.2) pt
       ((v.invalidate p (e.pairs.flatMap fun x => [x.1, x.2])).putHdr p e
         { s.hdrAt p e with step := (s.hdrAt p e).shstep, shv := false, cmt := false, cmtdone := 0 }, true)) := by
  unfold State.commitSome
  rw [if_neg (by simp [live])]
  dsimp only
  generalize (if (s.hdrAt p e).cmt then (s.hdrAt p e).cmtdone else 0) = k at rest ⊢
  have all : (e.pairs.drop k).take 512 = e.pairs.drop k := List.take_of_length_le (by rw [List.length_drop]; omega)
  rw [all, if_neg (by rw [List.length_drop]; omega)]

/-- A region that is CLOSED hands the commit on to the next one. -/
theorem State.commitOn_of_closed {s v : State} {p : Nat} {u : UpdCmd} (n : Nat)
    (closed : s.commitSome p (regEnt ((u.entry.drop (128 * u.run)).take 128)) = (v, true)) :
    State.commitOn p (n + 1) u s = State.commitOn p n { u with run := u.run + 1 } v := by
  rw [State.commitOn, closed, if_pos rfl]

/-- Settles O44: what each event of the scheduler does with the front of the queue, by the branch that its conditions select. -/
theorem updatesRun : Obligations.UpdatesRun := by
  unfold Obligations.UpdatesRun
  refine ⟨?acceptMerge, ?acceptUpdate, ?skipFrozen, ?run, ?poisoned, ?mismatch, ?merge, ?mergeMismatch, ?fault, ?commit, ?carryOn,
    ?close, ?next, ?discard⟩
  case acceptMerge =>
    intro s p u q hp front waits op en go
    show execUpdateAccept p s = _
    unfold execUpdateAccept
    rw [if_neg (by simp [go]; omega), front]
    dsimp only
    rw [if_neg (by simp [waits, op]), if_pos op, if_pos en]
  case acceptUpdate =>
    intro s p u q b e h hp front waits op en inside region live step ok fits go
    show execUpdateAccept p s = _
    unfold execUpdateAccept
    rw [if_neg (by simp [go]; omega), front]
    dsimp only
    rw [if_neg (by simp [waits, op]), if_neg (by simp [op]), if_neg (by simp [en, inside]), region]
    dsimp only
    rw [fits]
    dsimp only
    rw [if_neg (by simp [live]), if_neg (by simp [step]), if_neg (by simp [ok])]
  case skipFrozen =>
    intro s p u q b e h hp front waits op en inside region frozen fits go
    show execUpdateAccept p s = _
    unfold execUpdateAccept
    rw [if_neg (by simp [go]; omega), front]
    dsimp only
    rw [if_neg (by simp [waits, op]), if_neg (by simp [op]), if_neg (by simp [en, inside]), region]
    dsimp only
    rw [fits]
    dsimp only
    rw [if_pos frozen]
  case run =>
    intro s p u q hp front accepted op reads writes hdr clean checked go
    show execRunComplete p s = _
    unfold execRunComplete
    rw [if_neg (by simp [go]; omega), front]
    dsimp only
    rw [if_neg (by simp [accepted, op]), if_neg (by simp [op]), reads, writes, hdr]
    dsimp only
    rw [if_neg, if_neg]
    · simp only [decide_eq_true_eq]
      exact (apply_ite Host.Outcome.next _ _ _).symm
    · rintro ⟨chk, bad⟩
      rw [(checked chk).2] at bad
      exact Bool.false_ne_true bad
    · rw [clean]
      cases chk : (regEnt u.entry).chk
      · simp
      · rw [(checked chk).1]
        simp
  case poisoned =>
    intro s p u q hp front accepted op reads writes hdr poison go
    show execRunComplete p s = _
    unfold execRunComplete
    rw [if_neg (by simp [go]; omega), front]
    dsimp only
    rw [if_neg (by simp [accepted, op]), if_neg (by simp [op]), reads, writes, hdr]
    dsimp only
    rw [if_pos (by simp [poison])]
  case mismatch =>
    intro s p u q hp front accepted op reads writes hdr clean chk sound bad go
    show execRunComplete p s = _
    unfold execRunComplete
    rw [if_neg (by simp [go]; omega), front]
    dsimp only
    rw [if_neg (by simp [accepted, op]), if_neg (by simp [op]), reads, writes, hdr]
    dsimp only
    rw [if_neg (by rw [clean, chk, sound]; simp), if_pos (by rw [chk, bad]; simp)]
  case merge =>
    intro s p u q hp front accepted op checked reads writes go
    show execRunComplete p s = _
    unfold execRunComplete
    rw [if_neg (by simp [go]; omega), front]
    dsimp only
    rw [if_neg (by simp [accepted, op]), if_pos op, reads, writes]
    dsimp only
    rw [if_neg (by rintro ⟨chk, bad⟩; simp [checked chk] at bad)]
    exact (apply_ite Host.Outcome.next _ _ _).symm
  case mergeMismatch =>
    intro s p u q hp front accepted op chk bad reads writes go
    show execRunComplete p s = _
    unfold execRunComplete
    rw [if_neg (by simp [go]; omega), front]
    dsimp only
    rw [if_neg (by simp [accepted, op]), if_pos op, reads, writes]
    dsimp only
    rw [if_pos ⟨chk, by rw [bad]; rfl⟩]
  case fault =>
    intro s p u q hp front accepted op go
    show execUpdateEngineFault p s = _
    unfold execUpdateEngineFault
    rw [if_neg (by simp [go]; omega), front]
    exact if_pos (by simp [accepted, op])
  case commit =>
    intro s p u q hp front op waits quiet named present fixed accepted go
    show execShadowCommit p s = _
    unfold execShadowCommit
    rw [if_neg (by simp [go]; omega), front]
    dsimp only
    rw [if_neg (by simp [op]), if_neg (by simp [waits]), if_neg (by simp [quiet]), if_neg (by simp [named]), present]
    dsimp only
    rw [accepted, fixed]
  case carryOn =>
    intro s p u q hp front op accepted go
    show execShadowCommit p s = _
    unfold execShadowCommit
    rw [if_neg (by simp [go]; omega), front]
    dsimp only
    rw [if_neg (by simp [op]), if_pos accepted]
  case close => exact State.commitSome_of_rest
  case next => exact fun s v p n u closed => State.commitOn_of_closed n closed
  case discard =>
    intro s p u q hp front op named present fixed go
    show execShadowDiscard p s = _
    unfold execShadowDiscard
    rw [if_neg (by simp [go]; omega), front]
    dsimp only
    rw [if_neg (by simp [op]), if_neg (by simp [named]), present, fixed]

end Sys2Proof.Machine
end

section
/-! SUPPORT. Handshakes (O46): what each message does once it is whole, by the handshake in progress. -/
set_option Elab.async false
namespace Sys2Proof.Machine
open Sys2Proof

/-- HS_INIT is answered with the identity key, by a peer that is idle or in contact, at its full length (R255, R401). -/
theorem hsInit_admitted {s : State} {n : Nat} {pay : List Byte} (key : s.boot.idok = true)
    (st : (s.peer n).st = .idle ∨ (s.peer n).st = .handshake ∨ (s.peer n).st = .opened) (len : pay.length = 13818) :
    ¬((!s.boot.idok) = true ∨ (s.peer n).st = .failed ∨ (s.peer n).st = .down ∨ (s.peer n).st = .unused ∨
      pay.length ≠ 32 + 1184 + 12602) := by
  obtain st | st | st := st <;> simp [key, st, len]

/-- What a whole HS_INIT that is admitted meets: no handshake, one that crossed, its responder's side or the initiator's (R256 to R258). -/
def State.hsInitMeets (u : State) (n : Nat) (pay : List Byte) : Option Hs → State
  | none => u.hsAnswer n pay
  | some h =>
    if h.crossed then u.hsAnswer n pay
    else if !h.init then (if h.initPay = pay then u.sendHs n 0x9 h.respPay else u.hsAnswer n pay)
    else if leNat (pay.take 32) < leNat (h.initPay.take 32) then u
    else if leNat (h.initPay.take 32) < leNat (pay.take 32) then u.hsAnswer n pay
    else u.mapPeer n fun x => { x with hs := some { h with crossed := true } }

theorem exec_hsInit_of_whole {s u : State} {n : Nat} {pay : List Byte} (hn : n < 4096) (whole : s.takeHs n 8 = (u, some pay))
    (key : u.boot.idok = true) (st : (u.peer n).st = .idle ∨ (u.peer n).st = .handshake ∨ (u.peer n).st = .opened)
    (len : pay.length = 13818) : exec (.hsInit n) s = .next (u.hsInitMeets n pay (u.peer n).hs) := by
  show execHsInit n s = _
  unfold execHsInit
  rw [if_neg (by omega), whole]
  dsimp only
  rw [if_neg (hsInit_admitted key st len)]
  cases (u.peer n).hs with
  | none => rfl
  | some h =>
    unfold State.hsInitMeets
    dsimp only
    repeat' split
    all_goals rfl

/-- Settles O46: each event by the handshake that it finds. -/
theorem handshakesComplete : Obligations.HandshakesComplete := by
  unfold Obligations.HandshakesComplete
  refine ⟨?start, ?rekey, ?retry, ?giveUp, ?crossRetry, ?answer, ?initiators, ?ignored, ?responder, ?secondResp, ?confirm, ?finish,
    ?reject, ?strayReject⟩
  case start =>
    intro s n hn idle queued
    refine (if_neg (by omega)).trans (congrArg _ (if_pos ?_))
    exact ⟨idle, by rw [queued]; rfl⟩
  case rekey =>
    intro s n y hn st noHs noOld cur due
    refine (if_neg (by omega)).trans (congrArg _ (if_pos ?_))
    exact ⟨st, by rw [noHs]; rfl, by rw [noOld]; rfl, by rw [cur]; exact due⟩
  case retry =>
    intro s n h hn hs init uncrossed tries
    show execHsInitRetry n s = _
    unfold execHsInitRetry
    rw [if_neg (by omega), hs]
    dsimp only
    rw [if_neg (by simp [init, uncrossed]), if_pos tries]
  case giveUp =>
    intro s n h hn hs init uncrossed tries stage
    show execHsInitRetry n s = _
    unfold execHsInitRetry
    rw [if_neg (by omega), hs]
    dsimp only
    rw [if_neg (by simp [init, uncrossed]), if_neg (by omega), if_pos stage]
  case crossRetry =>
    intro s n h hn hs crossed
    show execHandshakeCrossRetry n s = _
    unfold execHandshakeCrossRetry
    rw [if_neg (by omega), hs]
    exact congrArg _ (if_pos crossed)
  case answer =>
    intro s u n pay hn whole key st len noHs
    rw [exec_hsInit_of_whole hn whole key st len, noHs]
    rfl
  case initiators =>
    intro s u n pay h hn whole key st len hs init uncrossed
    rw [exec_hsInit_of_whole hn whole key st len, hs]
    unfold State.hsInitMeets
    dsimp only
    rw [if_neg (by simp [uncrossed]), if_neg (by simp [init])]
  case ignored =>
    intro s u n pay hn whole why
    show execHsInit n s = _
    unfold execHsInit
    rw [if_neg (by omega), whole]
    dsimp only
    exact if_pos (by simpa using why)
  case responder =>
    intro s u n pay h hn whole key st len hs side
    rw [exec_hsInit_of_whole hn whole key st len, hs]
    unfold State.hsInitMeets
    cases crossed : h.crossed
    · have resp : h.init = false := by simpa [crossed] using side
      simp [resp, crossed]
    · simp [crossed]
  case secondResp =>
    intro s u n resp h hn whole hs key init uncrossed len stage other
    show execHsResp n s = _
    unfold execHsResp
    rw [if_neg (by omega), whole]
    dsimp only
    rw [hs]
    dsimp only
    rw [if_neg (by simp [key, init, uncrossed, len]), if_pos stage, if_neg other]
  case confirm =>
    intro s u n resp h hn whole hs key init uncrossed len stage
    show execHsResp n s = _
    unfold execHsResp
    rw [if_neg (by omega), whole]
    dsimp only
    rw [hs]
    dsimp only
    rw [if_neg (by simp [key, init, uncrossed, len]), if_neg stage]
  case finish =>
    intro s u n fin h hn whole hs init len
    show execHsFin n s = _
    unfold execHsFin
    rw [if_neg (by omega), whole]
    dsimp only
    rw [hs]
    dsimp only
    rw [if_neg (by simp [init, len])]
  case reject =>
    intro s u n m h hn whole hs
    show execHsReject n s = _
    unfold execHsReject
    rw [if_neg (by omega), whole]
    dsimp only
    rw [hs]
    rfl
  case strayReject =>
    intro s u n m hn whole hs
    show execHsReject n s = _
    unfold execHsReject
    rw [if_neg (by omega), whole]
    dsimp only
    rw [hs]
    rfl

end Sys2Proof.Machine
end

section
/-! SUPPORT. Frames (O47): the stages of the ingress one after the other (R252), each with what it drops. -/
set_option Elab.async false
namespace Sys2Proof.Machine
open Sys2Proof

/-- A port that is up and has room takes the frame into its ingress. -/
theorem frame_taken {s : State} {f : Frame} (up : (s.fport f.port).up = true) (room : s.rxFill f.port + f.bytes.length ≤ 2 ^ 20) :
    ¬((!(s.fport f.port).up) = true ∨ 2 ^ 20 < s.rxFill f.port + f.bytes.length) := by
  simp only [up, Bool.not_true, Bool.false_eq_true, false_or]
  omega

theorem exec_frameReceive_of_mac {s : State} {f : Frame} (hp : f.port < 64) (up : (s.fport f.port).up = true)
    (room : s.rxFill f.port + f.bytes.length ≤ 2 ^ 20) (mac : s.ingress f = .mac) :
    exec (.frameReceive f) s = .next (s.mapPort f.port fun x => { x with macdrop := sat16 x.macdrop 1 }) := by
  show execFrameReceive f s = _
  unfold execFrameReceive
  rw [if_neg (by omega), if_neg (frame_taken up room), mac]

theorem exec_frameReceive_of_noaddr {s : State} {f : Frame} (hp : f.port < 64) (up : (s.fport f.port).up = true)
    (room : s.rxFill f.port + f.bytes.length ≤ 2 ^ 20) (stage : s.ingress f = .noaddr) :
    exec (.frameReceive f) s = .next s.noAddr := by
  show execFrameReceive f s = _
  unfold execFrameReceive
  rw [if_neg (by omega), if_neg (frame_taken up room), stage]

theorem exec_frameReceive_of_other {s : State} {f : Frame} (hp : f.port < 64) (up : (s.fport f.port).up = true)
    (room : s.rxFill f.port + f.bytes.length ≤ 2 ^ 20) (stage : s.ingress f = .other) : exec (.frameReceive f) s = .next s := by
  show execFrameReceive f s = _
  unfold execFrameReceive
  rw [if_neg (by omega), if_neg (frame_taken up room), stage]

/-- Stage 1 drops a frame of a wrong length or FCS (Table 9.3). -/
theorem State.ingress_of_malformed (s : State) (f : Frame) (bad : f.bytes.length < 64 ∨ 9216 < f.bytes.length ∨ f.fcsOk = false) :
    s.ingress f = .mac := by
  unfold State.ingress
  dsimp only
  exact if_pos (by simpa using bad)

/-- Stage 1 drops an untagged frame of a port with a VID. -/
theorem State.ingress_of_untagged (s : State) (f : Frame) (untagged : netNum (f.bytes.take (f.bytes.length - 4)) 12 13 ≠ 0x8100)
    (vid : (s.fport f.port).vid ≠ 0) : s.ingress f = .mac := by
  unfold State.ingress
  dsimp only
  split
  · rfl
  · rfl

/-- Stage 1 drops a tagged frame of another VID. -/
theorem State.ingress_of_tag (s : State) (f : Frame) (tagged : netNum (f.bytes.take (f.bytes.length - 4)) 12 13 = 0x8100)
    (vid : netNum (f.bytes.take (f.bytes.length - 4)) 14 15 % 4096 ≠ (s.fport f.port).vid) : s.ingress f = .mac := by
  unfold State.ingress
  dsimp only
  split
  · rfl
  · rfl

/-- Stage 2 drops a frame of an EtherType that no part of the device takes. -/
theorem State.ingress_of_etype (s : State) (f : Frame)
    (etype : netNum (f.bytes.take (f.bytes.length - 4)) 12 13 ∉ [0x8100, 0x0806, 0x8808, 0x86DD, 0x0800]) : s.ingress f = .mac := by
  simp only [List.mem_cons, List.not_mem_nil, or_false, not_or] at etype
  obtain ⟨h1, h2, h3, h4, h5⟩ := etype
  unfold State.ingress
  dsimp only
  split
  · rfl
  · split
    · rfl
    · rw [if_neg (by simp [h2, h3]), if_neg (by simp [h4, h5])]

/-- What a datagram of a known peer becomes: its packet is refused for its form, accepted as a handshake packet, or goes to the
session check. -/
def State.fromPeer (s : State) (f : Frame) (n : Nat) (ce : Bool) (data : List Byte) : State :=
  let hdr := data.take 32
  let body := data.drop 32
  let k := readPkt hdr []
  if data.length < 32 ∨ body.length < num hdr 2 3 ∨ k.ver ≠ (s.peer n).ver then s.badVer
  else if 8 ≤ k.typ ∧ k.typ ≤ 0xB then
    let k1 := { k with payload := body.take (num hdr 2 3) }
    if k.typ = 8 then
      if (s.fport f.port).bucket = 0 then s.mapJcnt fun c => { c with ratelim := sat16 c.ratelim 1 }
      else (s.mapPort f.port fun x => { x with bucket := x.bucket - 1 }).acceptPkt n f.port ce f.bytes.length k1
    else s.acceptPkt n f.port ce f.bytes.length k1
  else if 3 ≤ k.typ then s.badVer
  else s.stage6 n f.port ce f.bytes.length hdr body k

section
variable {s : State} {f : Frame} {src dst data : List Byte} {sport dport part n : Nat} {ce : Bool}

theorem exec_frameReceive_of_no_address (hp : f.port < 64) (up : (s.fport f.port).up = true)
    (room : s.rxFill f.port + f.bytes.length ≤ 2 ^ 20) (udp : s.ingress f = .udp src dst sport dport ce data)
    (away : (s.fab.addrs.find? fun y => y.2 == dst) = none) : exec (.frameReceive f) s = .next s.noAddr := by
  show execFrameReceive f s = _
  unfold execFrameReceive
  rw [if_neg (by omega), if_neg (frame_taken up room), udp]
  dsimp only
  rw [away]

theorem exec_frameReceive_of_no_port (hp : f.port < 64) (up : (s.fport f.port).up = true)
    (room : s.rxFill f.port + f.bytes.length ≤ 2 ^ 20) (udp : s.ingress f = .udp src dst sport dport ce data)
    (here : (s.fab.addrs.find? fun y => y.2 == dst) = some (part, dst)) (h1 : dport ≠ s.fab.cfg.udp) (h2 : dport ≠ s.fab.cfg.udp2) :
    exec (.frameReceive f) s = .next s.noAddr := by
  show execFrameReceive f s = _
  unfold execFrameReceive
  rw [if_neg (by omega), if_neg (frame_taken up room), udp]
  dsimp only
  rw [here]
  exact if_pos ⟨h1, h2⟩

theorem udpPort_taken (h : dport = s.fab.cfg.udp ∨ dport = s.fab.cfg.udp2) :
    ¬(dport ≠ s.fab.cfg.udp ∧ dport ≠ s.fab.cfg.udp2) := by
  rintro ⟨h1, h2⟩
  exact h.elim h1 h2

theorem exec_frameReceive_of_stranger (hp : f.port < 64) (up : (s.fport f.port).up = true)
    (room : s.rxFill f.port + f.bytes.length ≤ 2 ^ 20) (udp : s.ingress f = .udp src dst sport dport ce data)
    (here : (s.fab.addrs.find? fun y => y.2 == dst) = some (part, dst)) (port : dport = s.fab.cfg.udp ∨ dport = s.fab.cfg.udp2)
    (unknown : s.sourceOf part src sport (readPkt (data.take 32) []).session = none) :
    exec (.frameReceive f) s = .next (s.mapJcnt fun c => { c with stranger := satW 12 c.stranger 1 }) := by
  show execFrameReceive f s = _
  unfold execFrameReceive
  rw [if_neg (by omega), if_neg (frame_taken up room), udp]
  dsimp only
  rw [here]
  dsimp only
  rw [if_neg (udpPort_taken port), unknown]

theorem exec_frameReceive_of_peer (hp : f.port < 64) (up : (s.fport f.port).up = true)
    (room : s.rxFill f.port + f.bytes.length ≤ 2 ^ 20) (udp : s.ingress f = .udp src dst sport dport ce data)
    (here : (s.fab.addrs.find? fun y => y.2 == dst) = some (part, dst)) (port : dport = s.fab.cfg.udp ∨ dport = s.fab.cfg.udp2)
    (known : s.sourceOf part src sport (readPkt (data.take 32) []).session = some n) :
    exec (.frameReceive f) s = .next (s.fromPeer f n ce data) := by
  show execFrameReceive f s = _
  unfold execFrameReceive
  rw [if_neg (by omega), if_neg (frame_taken up room), udp]
  dsimp only
  rw [here]
  dsimp only
  rw [if_neg (udpPort_taken port), known]
  unfold State.fromPeer
  dsimp only
  repeat' split
  all_goals rfl

/-- A packet of the right length and version goes on by its type. -/
theorem packet_formed (long : 32 ≤ data.length) (body : num (data.take 32) 2 3 ≤ (data.drop 32).length)
    (ver : (readPkt (data.take 32) []).ver = (s.peer n).ver) :
    ¬(data.length < 32 ∨ (data.drop 32).length < num (data.take 32) 2 3 ∨ (readPkt (data.take 32) []).ver ≠ (s.peer n).ver) := by
  simp only [ver, ne_eq, not_true_eq_false, or_false]
  omega

end

/-- Settles O47: each stage of the ingress, and for a known peer the form and type of its packet. -/
theorem framesAreTakenIn : Obligations.FramesAreTakenIn := by
  unfold Obligations.FramesAreTakenIn
  refine ⟨?full, ?malformed, ?untagged, ?tag, ?etype, ?noaddr, ?noAddress, ?noPort, ?stranger, ?badForm, ?session, ?badType, ?handshake,
    ?limited, ?init⟩
  case full =>
    intro s f hp up full
    refine (if_neg (by omega)).trans (if_pos (.inr full))
  case malformed => exact fun s f hp up room bad => exec_frameReceive_of_mac hp up room (s.ingress_of_malformed f bad)
  case untagged => exact fun s f hp up room h vid => exec_frameReceive_of_mac hp up room (s.ingress_of_untagged f h vid)
  case tag => exact fun s f hp up room h vid => exec_frameReceive_of_mac hp up room (s.ingress_of_tag f h vid)
  case etype => exact fun s f hp up room h => exec_frameReceive_of_mac hp up room (s.ingress_of_etype f h)
  case noaddr => exact fun s f hp up room h => exec_frameReceive_of_noaddr hp up room h
  case noAddress =>
    exact fun s f src dst data sport dport ce hp up room udp away => exec_frameReceive_of_no_address hp up room udp away
  case noPort =>
    exact fun s f src dst data sport dport ce part hp up room udp here h1 h2 =>
      exec_frameReceive_of_no_port hp up room udp here h1 h2
  case stranger =>
    exact fun s f src dst data sport dport part ce hp up room udp here port unknown =>
      exec_frameReceive_of_stranger hp up room udp here port unknown
  case badForm =>
    intro s f src dst data sport dport part n ce hp up room udp here port known bad
    exact (exec_frameReceive_of_peer hp up room udp here port known).trans (congrArg _ (if_pos bad))
  case session =>
    intro s f src dst data sport dport part n ce hp up room udp here port known long body ver typ
    refine (exec_frameReceive_of_peer hp up room udp here port known).trans (congrArg _ ?_)
    exact (if_neg (packet_formed long body ver)).trans ((if_neg (by omega)).trans (if_neg (by omega)))
  case badType =>
    intro s f src dst data sport dport part n ce hp up room udp here port known long body ver typ
    have out : 3 ≤ (readPkt (data.take 32) []).typ ∧ ¬(8 ≤ (readPkt (data.take 32) []).typ ∧ (readPkt (data.take 32) []).typ ≤ 0xB) := by
      simp only [List.mem_cons, List.not_mem_nil, or_false] at typ
      omega
    refine (exec_frameReceive_of_peer hp up room udp here port known).trans (congrArg _ ?_)
    exact (if_neg (packet_formed long body ver)).trans ((if_neg out.2).trans (if_pos out.1))
  case handshake =>
    intro s f src dst data sport dport part n ce hp up room udp here port known long body ver lo hi
    refine (exec_frameReceive_of_peer hp up room udp here port known).trans (congrArg _ ?_)
    exact (if_neg (packet_formed long body ver)).trans ((if_pos ⟨by omega, hi⟩).trans (if_neg (by omega)))
  case limited =>
    intro s f src dst data sport dport part n ce hp up room udp here port known long body ver typ empty
    refine (exec_frameReceive_of_peer hp up room udp here port known).trans (congrArg _ ?_)
    exact (if_neg (packet_formed long body ver)).trans ((if_pos (by omega)).trans ((if_pos typ).trans (if_pos empty)))
  case init =>
    intro s f src dst data sport dport part n ce hp up room udp here port known long body ver typ tokens
    refine (exec_frameReceive_of_peer hp up room udp here port known).trans (congrArg _ ?_)
    exact (if_neg (packet_formed long body ver)).trans ((if_pos (by omega)).trans ((if_pos typ).trans (if_neg (by omega))))

end Sys2Proof.Machine
end

section
/-! SUPPORT. Jigrail packets and timers (O48): receipt by the packet that is taken, transmission by the packet whose turn it is. -/
set_option Elab.async false
namespace Sys2Proof.Machine
open Sys2Proof

/-- The oldest DATA packet of a session that is open: beyond the window it is counted, within it is placed (R262). -/
theorem exec_data_of_session {s u : State} {n : Nat} {r : RxPkt} {y : Session} (hn : n < 4096) (take : s.takeRx n 0 = some (r, u))
    (y_open : ((u.takeAck n r.pkt.session r.pkt.cack []).peer n).session r.pkt.session = some y) :
    exec (.data n) s = .next
      (let v := u.takeAck n r.pkt.session r.pkt.cack []
       if y.rxCack + (v.peer n).win ≤ r.pkt.psn then v.mapJcnt fun c => { c with window := satW 12 c.window 1 } else v.dataIn n r y) := by
  show execData n s = _
  unfold execData
  rw [if_neg (by omega), take]
  dsimp only
  rw [y_open]
  exact (apply_ite Host.Outcome.next _ _ _).symm

theorem exec_ack_of_take {s u : State} {n : Nat} {r : RxPkt} (hn : n < 4096) (take : s.takeRx n 1 = some (r, u))
    (plain : ((u.peer n).session r.pkt.session).isNone = false ∨ (u.peer n).hs = none) :
    exec (.ack n) s = .next (u.takeAck n r.pkt.session r.pkt.cack (((List.range (8 * r.pkt.payload.length)).filter
      fun i => (r.pkt.payload.getD (i / 8) 0).toNat.testBit (i % 8)).map fun i => r.pkt.cack + 1 + i)) := by
  show execAck n s = _
  unfold execAck
  rw [if_neg (by omega), take]
  refine if_neg ?_
  rintro ⟨h1, h2⟩
  obtain h | h := plain
  · exact Bool.eq_false_iff.mp h h1
  · simp [h] at h2

theorem exec_cnp_of_take {s u : State} {n : Nat} {r : RxPkt} (hn : n < 4096) (take : s.takeRx n 2 = some (r, u)) :
    exec (.cnp n) s = .next ((u.takeAck n r.pkt.session r.pkt.cack []).mapPeer n fun x => { x with cnpSeen := true }) := by
  show execCnp n s = _
  unfold execCnp
  rw [if_neg (by omega), take]

/-- The pacing time of a peer has come and it has something to send: the first packet that has its turn goes out. -/
theorem exec_dataTransmit_of_sendable {s : State} {n : Nat} {k : Nat × NextPkt} {q : List (Nat × NextPkt)} (hn : n < 4096)
    (paced : (s.peer n).paceAt ≤ s.ltime) (some_ : s.sendable (s.peer n) = k :: q) :
    exec (.dataTransmit n) s = .next ((s.sendNext n).getD s) := by
  show execDataTransmit n s = _
  unfold execDataTransmit
  rw [if_neg (by omega), if_neg (by omega), if_neg (by rw [some_]; simp)]

/-- With one session and nothing to send again, the next piece of its oldest message is the first packet it can send. -/
theorem State.sendable_of_piece (s : State) (x : Peer) (y : Session) (m : JMsg) (q : List JMsg) (cur : x.cur = some y)
    (noOld : x.old = none) (acked : y.unacked = []) (msgs : y.msgs = m :: q) (left : m.next < m.len)
    (window : y.txPsn < y.txCack + x.win) (psn : y.txPsn < 0xFFFFFF00) (free : s.portFree m.port = true) :
    (s.sendable x).head? = some (y.sidMine, .piece m) := by
  have go : y.mayGo x.win false = true := by simp [Session.mayGo, window, psn]
  have never : q.find? (fun _ => false) = none := List.find?_eq_none.mpr (by simp)
  unfold State.sendable Session.next
  simp [cur, noOld, acked, msgs, left, go, NextPkt.isAgain, NextPkt.port, free, never]

theorem exec_ackTimer_of_owed {s : State} {n : Nat} {y : Session} (hn : n < 4096)
    (owed : ((s.peer n).cur.toList ++ (s.peer n).old.toList).find? (fun y => 0 < y.ackOwed) = some y) :
    exec (.ackTimer n) s = .next (s.sendAck n y.sidMine) := by
  show execAckTimer n s = _
  unfold execAckTimer
  rw [if_neg (by omega)]
  dsimp only
  rw [owed]

theorem exec_retransmitTimeout_of_unacked {s : State} {n : Nat} {y : Session} {a : Unacked} {t : List Unacked} (hn : n < 4096)
    (found : ((s.peer n).old.toList ++ (s.peer n).cur.toList).find? (fun y => !y.unacked.isEmpty) = some y) (oldest : y.unacked = a :: t) :
    exec (.retransmitTimeout n) s = .next (s.timedOut n y.sidMine a) := by
  show execRetransmitTimeout n s = _
  unfold execRetransmitTimeout
  rw [if_neg (by omega)]
  dsimp only
  rw [found]
  dsimp only
  rw [oldest]

theorem exec_peerDeath_of_dead {s : State} {n : Nat} (hn : n < 4096) (st : (s.peer n).st = .opened)
    (dead : s.peerDead (s.peer n) = true) : exec (.peerDeath n) s = .next ((s.closePeer n stTimeout .down).peerLost n) :=
  (if_neg (by omega)).trans (if_pos ⟨st, dead⟩)

/-- Settles O48: each packet and timer behind the condition that selects it. -/
theorem jigrailTransportCompletes : Obligations.JigrailTransportCompletes := by
  unfold Obligations.JigrailTransportCompletes
  refine ⟨?placed, ?beyond, ?ack, ?firstAck, ?cnp, ?turn, ?begin, ?unpaced, ?piece, ?ackTimer, ?timeout, ?epoch, ?death, ?failed, ?down⟩
  case placed =>
    intro s u n r y hn take session within
    exact (exec_data_of_session hn take session).trans (congrArg _ (if_neg (by omega)))
  case beyond =>
    intro s u n r y hn take session beyond
    exact (exec_data_of_session hn take session).trans (congrArg _ (if_pos beyond))
  case ack =>
    intro s u n r y hn take session
    exact exec_ack_of_take hn take (.inl (by rw [session]; rfl))
  case firstAck =>
    intro s u n r h hn take session hs stage sid
    show execAck n s = _
    unfold execAck
    rw [if_neg (by omega), take]
    exact if_pos ⟨by rw [session]; rfl, by simp [hs, stage, sid]⟩
  case cnp => exact fun s u n r hn take => exec_cnp_of_take hn take
  case turn =>
    intro s n k q d hn paced some_ turn
    rw [exec_dataTransmit_of_sendable hn paced some_]
    unfold State.sendNext
    dsimp only
    rw [some_, List.findSome?_cons, turn]
    rfl
  case begin =>
    intro s n hn paced nothing
    exact (if_neg (by omega)).trans ((if_neg (by omega)).trans (if_pos (by rw [nothing]; rfl)))
  case unpaced =>
    intro s n hn early
    exact (if_neg (by omega)).trans (if_pos early)
  case piece =>
    intro s n y m q cur noOld acked msgs left window psn free
    exact s.sendable_of_piece (s.peer n) y m q cur noOld acked msgs left window psn free
  case ackTimer => exact fun s n y hn owed => exec_ackTimer_of_owed hn owed
  case timeout => exact fun s n y a t hn found oldest => exec_retransmitTimeout_of_unacked hn found oldest
  case epoch => exact fun s => rfl
  case death => exact fun s n hn st dead => exec_peerDeath_of_dead hn st dead
  case failed =>
    intro s n hn st
    exact (if_neg (by omega)).trans (congrArg _ (if_pos st))
  case down =>
    intro s n hn st
    exact (if_neg (by omega)).trans (congrArg _ (if_pos st))

end Sys2Proof.Machine
end

section
/-! SUPPORT. Window accesses, frames, accepted packets and the timers of a peer, by conditions on the state alone (O58). -/
set_option Elab.async false
namespace Sys2Proof.Machine
open Sys2Proof

@[simp] theorem State.peer_mapPeer (s : State) (n : Nat) (f : Peer → Peer) : (s.mapPeer n f).peer n = f (s.peer n) :=
  Tab.get_put_same _ _ _ _

theorem State.peer_mapPeer_other (s : State) {n m : Nat} (f : Peer → Peer) (h : m ≠ n) : (s.mapPeer n f).peer m = s.peer m :=
  Tab.get_put_other _ _ _ h

@[simp] theorem State.peer_pfcOn (s : State) (p n : Nat) : (s.pfcOn p).peer n = s.peer n := by
  unfold State.pfcOn
  dsimp only
  split <;> rfl

/-- The oldest packet of a peer, taken by its own event. -/
theorem State.takeRx_of_front {s : State} {n typ : Nat} {r : RxPkt} {q : List RxPkt} (front : (s.peer n).rx = r :: q)
    (type_ : r.pkt.typ = typ) : s.takeRx n typ = some (r, (s.mapPeer n fun x => { x with rx := q }).pfcOn r.port) := by
  have same : (r.pkt.typ == typ) = true := by simp [type_]
  unfold State.takeRx
  dsimp only
  rw [front, List.find?_cons_of_pos (p := fun r : RxPkt => r.pkt.typ == typ) same]
  unfold State.mapPeer
  simp [front, type_]

/-- Settles O58: each event by the lemma of its own family, its conditions found in the state. -/
theorem windowAndPeerEventsComplete : Obligations.WindowAndPeerEventsComplete := by
  unfold Obligations.WindowAndPeerEventsComplete
  refine ⟨?read, ?write, ?frame, ?data, ?ack, ?cnp, ?transmit, ?ackTimer, ?timeout, ?epoch, ?death, ?failed, ?down, ?serve, ?stall⟩
  case read =>
    intro s port func off len p hport hfunc answers bound pos short inside
    refine ⟨_, exec_bar2Read_of_bound hport hfunc answers bound pos short inside, ?clean, ?poisoned, ?refused⟩
    case clean =>
      intro bs run
      rw [run]
      rfl
    case poisoned =>
      intro bs run
      rw [run]
      refine ⟨_, ?_, ?_, ?_, rfl⟩ <;> rfl
    case refused =>
      intro x run
      rw [run]
      rfl
  case write =>
    intro s port func off p data bad hport hfunc answers bound some_ short inside
    exact exec_bar2Write_of_bound bad hport hfunc answers bound some_ short inside
  case frame =>
    intro s f hp up room
    obtain ⟨t, ht⟩ := exec_next (.frameReceive f) s
    refine ⟨t, ht, fun stage => ?_, fun stage => ?_, fun stage => ?_, ?_⟩
    · exact Host.Outcome.next.inj (ht.symm.trans (exec_frameReceive_of_mac hp up room stage))
    · exact Host.Outcome.next.inj (ht.symm.trans (exec_frameReceive_of_noaddr hp up room stage))
    · exact Host.Outcome.next.inj (ht.symm.trans (exec_frameReceive_of_other hp up room stage))
    · intro src dst sport dport ce data part n udp here port known long body ver typ
      have e := (exec_frameReceive_of_peer hp up room udp here (.inl port) known).symm.trans ht
      refine (Host.Outcome.next.inj e).symm.trans ?_
      exact (if_neg (packet_formed long body ver)).trans ((if_neg (by omega)).trans (if_neg (by omega)))
  case data =>
    intro s n r q hn front type_
    have take := State.takeRx_of_front front type_
    obtain ⟨t, ht⟩ := exec_next (.data n) s
    refine ⟨t, ht, fun closed => ?_, fun y session => ?_⟩
    · refine (Host.Outcome.next.inj (ht.symm.trans ?_) : t = _)
      show execData n s = _
      unfold execData
      rw [if_neg (by omega), take]
      dsimp only
      rw [closed]
    · exact Host.Outcome.next.inj (ht.symm.trans (exec_data_of_session hn take session))
  case ack =>
    intro s n r q hn front type_ noHs
    exact exec_ack_of_take hn (State.takeRx_of_front front type_) (.inr (by simpa using noHs))
  case cnp => exact fun s n r q hn front type_ => exec_cnp_of_take hn (State.takeRx_of_front front type_)
  case transmit =>
    exact fun s n k q hn paced some_ => ⟨_, exec_dataTransmit_of_sendable hn paced some_, rfl⟩
  case ackTimer =>
    intro s n y hn cur owed
    exact exec_ackTimer_of_owed hn (by rw [cur]; exact List.find?_cons_of_pos (by simpa using owed))
  case timeout =>
    intro s n y a q hn noOld cur oldest
    exact exec_retransmitTimeout_of_unacked hn (by rw [noOld, cur]; exact List.find?_cons_of_pos (by simp [oldest])) oldest
  case epoch =>
    intro s
    refine ⟨_, rfl, fun n => ?_⟩
    have e := tab_get_map (f := fun x : Peer => if x.st = .opened then x.epoch else x) (d := {}) (if_neg (by decide)) s.fab.peers n
    refine Eq.trans (congrArg (fun t => Tab.get ({} : Peer) t n) (List.map_congr_left fun y _ => ?_)) e
    split <;> rfl
  case death =>
    intro s n y a hn st cur mem late
    refine exec_peerDeath_of_dead hn st ?_
    unfold State.peerDead
    dsimp only
    rw [Bool.or_eq_true, List.any_eq_true]
    exact .inl ⟨y, by simp [cur], List.any_eq_true.mpr ⟨a, mem, by simpa using late⟩⟩
  case failed =>
    intro s n hn st
    refine ⟨s.mapPeer n fun x => { x with st := .idle }, (if_neg (by omega)).trans (congrArg _ (if_pos st)), ?_, fun m h => ?_⟩
    · rw [State.peer_mapPeer]
    · exact State.peer_mapPeer_other s _ h
  case down =>
    intro s n hn st
    refine ⟨s.mapPeer n fun x => { x with st := .idle }, (if_neg (by omega)).trans (congrArg _ (if_pos st)), ?_, fun m h => ?_⟩
    · rw [State.peer_mapPeer]
    · exact State.peer_mapPeer_other s _ h
  case serve =>
    intro s p c hp cfg step done arrived go
    show execServeStepBoundary p s = _
    unfold execServeStepBoundary
    rw [if_neg (by simp [go]; omega)]
    dsimp only
    rw [cfg]
    exact if_pos ⟨by rw [step, done]; rfl, .inr arrived⟩
  case stall => exact fun s core hcore => ⟨if_neg (by omega), if_neg (by omega)⟩

end Sys2Proof.Machine
end

section
/-! SUPPORT. Collective commands (O49): what each does once its checks hold, before and after a decision. -/
set_option Elab.async false
namespace Sys2Proof.Machine
open Sys2Proof

/-- What an OWNER_SUM without effect leaves as its status: PEER_LATE if its window has closed (log 161). -/
theorem Ctx.sumPosts_eq (x : Ctx) (c : Coll) :
    x.sumPosts c = { x with lastStatus := if c.winDone then stPeerLate else x.lastStatus } := by
  unfold Ctx.sumPosts Coll.sumStatus
  cases c.winDone <;> rfl

theorem State.sumPosts_eq (s : State) (h : Head) (c : Coll) :
    s.sumPosts h c = s.mapCore h.core fun k => k.mapCtx h.ctx.lctx fun x =>
      { x with lastStatus := if c.winDone then stPeerLate else x.lastStatus } := by
  unfold State.sumPosts
  simp only [Ctx.sumPosts_eq]

/-- An OWNER_SUM with a decision held issues without effect. -/
theorem exec_ownerSum_of_decision {s : State} {core n : Nat} {h : Head} (e : heads s core n 0x91 h) (check : ownerCheck s h = none)
    (dec : (s.coll (s.pno core)).dec ≠ 0) (a : affords s h 4 1) :
    exec (.ownerSum core n) s = .next (((issued s h 4 1).mapCore h.core fun k => k.mapCtx h.ctx.lctx fun x =>
      { x with lastStatus := if (s.coll (s.pno core)).winDone then stPeerLate else x.lastStatus }).done h) := by
  refine (exec_work_of_heads e).trans (congrArg _ ?_)
  dsimp only
  rw [check]
  refine (if_pos dec).trans ((pay_of_affords a).trans ?_)
  rw [State.sumPosts_eq]

/-- An OWNER_SUM whose window has closed without its copies issues without effect and posts PEER_LATE. -/
theorem exec_ownerSum_of_late {s : State} {core n : Nat} {h : Head} (e : heads s core n 0x91 h) (check : ownerCheck s h = none)
    (dec : (s.coll (s.pno core)).dec = 0) (missing : (s.coll (s.pno core)).allLanded (cf h.w 37 20) = false)
    (late : (s.coll (s.pno core)).winDone = true) (a : affords s h 4 1) :
    exec (.ownerSum core n) s = .next (((issued s h 4 1).mapCore core fun k => k.mapCtx h.ctx.lctx fun y =>
      { y with lastStatus := stPeerLate }).done h) := by
  refine (exec_work_of_heads e).trans (congrArg _ ?_)
  dsimp only
  rw [check]
  refine (if_neg (not_not_intro dec)).trans ((if_neg (Bool.eq_false_iff.mp missing)).trans ((if_pos late).trans
    ((pay_of_affords a).trans ?_)))
  rw [State.sumPosts_eq, late, (heads_core e).1]
  rfl

/-- What the first segment of an OWNER_SUM starts from, on the state `u` after the issue (R283). -/
def State.ownerEnters (u : State) (h : Head) (p core n : Nat) (c : Coll) (e : RegEnt) : State :=
  let x := ownExts c e h.w
  let v := u.regionTake fabEngine p (c.rreg c.self)
  let z := (x.1.foldl (fun t y => t.vtake p y.1 y.2) v).enginePages fabEngine p ((x.1 ++ x.2).flatMap fun y => pageRun y.1 y.2)
  let l := z.leave h .collective
  let t := l.2.mapColl p fun c => { c with sums := c.sums.filter fun y => !(y.core == core && y.lctx == h.ctx.lctx) }
  (t.vStep core ⟨l.1, h.slot, h.ctx.lctx, h.w, [], 0, c.ownAcc e, false, []⟩).settle core n

/-- An OWNER_SUM whose copies have landed, with a free engine and pages that translate, runs. -/
theorem exec_ownerSum_of_landed {s : State} {core n : Nat} {h : Head} {b : List Byte} {e : RegEnt} {hd : ShHdr}
    (g : heads s core n 0x91 h) (check : ownerCheck s h = none) (dec : (s.coll (s.pno core)).dec = 0)
    (landed : (s.coll (s.pno core)).allLanded (cf h.w 37 20) = true) (engine : (s.core core).vecReady h.ctx = true)
    (shard : s.shard? (s.pno core) (s.coll (s.pno core)).self = .ok (b, e, hd))
    (reads : s.vfailAny (s.pno core) (ownExts (s.coll (s.pno core)) e h.w).1 false = none)
    (writes : s.vfailAny (s.pno core) (ownExts (s.coll (s.pno core)) e h.w).2 true = none)
    (a : affords s h 4 (ownTerm h.w ((s.coll (s.pno core)).ownAcc e) 0)) :
    exec (.ownerSum core n) s = .next ((issued s h 4 (ownTerm h.w ((s.coll (s.pno core)).ownAcc e) 0)).ownerEnters h (s.pno core) core n
      (s.coll (s.pno core)) e) := by
  obtain ⟨hcore, hslot, -, -⟩ := heads_core g
  refine (exec_work_of_heads g).trans (congrArg _ ?_)
  dsimp only
  rw [check]
  refine (if_neg (not_not_intro dec)).trans ((if_pos landed).trans ?_)
  rw [if_neg (by simp [engine]), shard]
  dsimp only
  subst hcore hslot
  unfold State.ownerRun
  dsimp only
  rw [reads, writes]
  exact pay_of_affords a

/-- A collective command whose checks fail ends its context with their status (Table 10.5). -/
theorem exec_collective_of_failed {s : State} {core n op st : Nat} {h : Head} {check : State → Head → Option Nat}
    {body : Head → State → State} (e : heads s core n op h) (bad : check s h = some st)
    (fails : ∀ h s st, check s h = some st → body h s = s.failed h st) :
    select core n s (work core n op s body) = .next (s.failed h st) :=
  (exec_work_of_heads e).trans (congrArg _ (fails h s st bad))

/-- Settles O49: each command behind its checks, by the decision, the copies or the credit that it finds. -/
theorem collectiveCommandsComplete : Obligations.CollectiveCommandsComplete := by
  unfold Obligations.CollectiveCommandsComplete
  refine ⟨?contrib, ?bcastDecided, ?bcast, ?ownDecided, ?ownLate, ?ownWaits, ?own, ?vote, ?ring, ?ringHeld,
    ?contribFails, ?ownFails, ?bcastFails, ?voteFails, ?ringFails⟩
  case contrib =>
    intro s core n h e check a
    refine (exec_work_of_heads e).trans (congrArg _ ?_)
    dsimp only
    rw [check]
    exact pay_of_affords a
  case bcastDecided =>
    intro s core n h g e check group dec a
    subst group
    refine (exec_work_of_heads e).trans (congrArg _ ?_)
    dsimp only
    rw [check]
    exact (if_pos dec).trans (pay_of_affords a)
  case bcast =>
    intro s core n h g b e hd at_ check group dec shard a
    subst group
    refine (exec_work_of_heads at_).trans (congrArg _ ?_)
    dsimp only
    rw [check]
    refine (if_neg (not_not_intro dec)).trans ?_
    rw [shard]
    exact pay_of_affords a
  case ownDecided => exact fun s core n h e check dec a => exec_ownerSum_of_decision e check dec a
  case ownLate => exact fun s core n h e check dec missing late a => exec_ownerSum_of_late e check dec missing late a
  case ownWaits =>
    intro s core n h e check dec missing early
    obtain ⟨hcore, hslot, -, -⟩ := heads_core e
    refine (exec_work_of_heads e).trans (congrArg _ ?_)
    dsimp only
    rw [check]
    refine (if_neg (not_not_intro dec)).trans ((if_neg (Bool.eq_false_iff.mp missing)).trans ((if_neg (Bool.eq_false_iff.mp early)).trans ?_))
    subst hcore hslot
    rfl
  case own =>
    exact fun s core n h b e hd g check dec landed engine shard reads writes a =>
      exec_ownerSum_of_landed g check dec landed engine shard reads writes a
  case vote =>
    intro s core n h e check a
    refine (exec_work_of_heads e).trans (congrArg _ ?_)
    dsimp only
    rw [check]
    exact pay_of_affords a
  case ring =>
    intro s core n h e check credit a
    have goes : ¬((!cb h.w 21) = true ∧ 2 ≤ cf h.w 38 23 ∧
        (!(s.coll (s.pno core)).credits.contains (cf h.w 20 20, cf h.w 38 23 - 2)) = true) := by
      rintro ⟨h1, h2, h3⟩
      obtain c | c | c := credit
      · simp [c] at h1
      · omega
      · rw [c] at h3
        exact Bool.false_ne_true h3
    refine (exec_work_of_heads e).trans (congrArg _ ?_)
    dsimp only
    rw [check]
    exact (if_neg goes).trans (pay_of_affords a)
  case ringHeld =>
    intro s core n h e check pass later none_
    refine (exec_work_of_heads e).trans (congrArg _ ?_)
    dsimp only
    rw [check]
    exact if_pos ⟨by simp [pass], later, by rw [none_]; rfl⟩
  case contribFails =>
    exact fun s core n st h e bad => exec_collective_of_failed e bad fun h s st b => by rw [b]
  case ownFails =>
    exact fun s core n st h e bad => exec_collective_of_failed e bad fun h s st b => by rw [b]
  case bcastFails =>
    exact fun s core n st h e bad => exec_collective_of_failed e bad fun h s st b => by rw [b]
  case voteFails =>
    exact fun s core n st h e bad => exec_collective_of_failed e bad fun h s st b => by rw [b]
  case ringFails =>
    exact fun s core n st h e bad => exec_collective_of_failed e bad fun h s st b => by rw [b]

end Sys2Proof.Machine
end

section
/-! SUPPORT. Landings, windows, votes and decisions (O50). -/
set_option Elab.async false
namespace Sys2Proof.Machine
open Sys2Proof

/-- The oldest OWNER_SUM of a core that may issue does so in its slot (log 161). -/
theorem exec_ownerSumStart_of_sum {s : State} {core n : Nat} {x : OwnSum} (hcore : core < 2048)
    (found : ((s.coll (s.pno core)).sums.find? fun x => x.core == core && ((s.coll (s.pno core)).dec != 0 || (s.coll (s.pno core)).winDone
      || (s.coll (s.pno core)).allLanded (cf x.cmd 37 20)) && ((s.core core).findSlot x.lctx).isSome) = some x)
    (slot : (s.core core).findSlot x.lctx = some n) : exec (.ownerSumStart core) s = exec (.ownerSum core n) s := by
  show execOwnerSumStart core s = _
  unfold execOwnerSumStart
  rw [if_neg (by omega)]
  dsimp only
  rw [found, Option.bind_some, slot]
  rfl

/-- A vote or decision of a member in form goes on to the checks of its event. -/
theorem decision_formed {c : Coll} {m : Landed} {i : Nat} (en : c.en = true) (len : m.bytes.length = 64) (coord : i = c.coord)
    (out : 1 ≤ num m.bytes 5 5 ∧ num m.bytes 5 5 ≤ 3) :
    ¬((!c.en) = true ∨ m.bytes.length ≠ 64 ∨ i ≠ c.coord ∨ num m.bytes 5 5 = 0 ∨ 4 ≤ num m.bytes 5 5) := by
  simp only [en, len, coord, Bool.not_true, Bool.false_eq_true, ne_eq, not_true_eq_false, false_or]
  omega

/-- The decision that is awaited is recorded, and taken in unless an earlier one is held (R289, log 161). -/
theorem exec_decisionReceive_of_awaited {s u : State} {p i : Nat} {m : Landed} (hp : p < 64)
    (take : s.takeIn p (fun m => kindOf m == 2 && bits m 17 0 == 1) = some (m, u))
    (member : (u.coll p).memberOf (u.peer m.peer).pidx = some i) (en : (u.coll p).en = true) (len : m.bytes.length = 64)
    (coord : i = (u.coll p).coord) (out : 1 ≤ num m.bytes 5 5 ∧ num m.bytes 5 5 ≤ 3)
    (awaited : (u.coll p).awaited = some (num m.bytes 0 3 % 2 ^ 24, num m.bytes 4 4)) :
    exec (.decisionReceive p) s = .next
      (if (u.coll p).dec = 0 then ((u.recordDecision p m.bytes).takeDecision p m.bytes).completeVote p
       else (u.recordDecision p m.bytes).mapColl p fun c => { c with early := c.early ++ [m.bytes] }) := by
  show execDecisionReceive p s = _
  unfold execDecisionReceive
  rw [if_neg (by omega), take]
  dsimp only
  rw [member]
  dsimp only
  rw [if_neg (decision_formed en len coord out), if_neg (not_not_intro awaited)]
  exact (apply_ite Host.Outcome.next _ _ _).symm

/-- Settles O50: each landing, window, vote and decision by the message or the time that its event names. -/
theorem collectiveEventsComplete : Obligations.CollectiveEventsComplete := by
  unfold Obligations.CollectiveEventsComplete
  refine ⟨?contribution, ?broadcast, ?window, ?windowNext, ?bcastWindow, ?sumDecided, ?sumLate, ?sumRuns, ?votet, ?voteReady, ?vote,
    ?voteTimeout, ?decision, ?decisionEarly, ?decisionTimeout, ?ring, ?credit, ?group, ?state⟩
  case contribution =>
    intro s u p i m hp take member en chunk len round go
    show execContributionLanding p s = _
    unfold execContributionLanding
    rw [if_neg (by simp [go]; omega), take]
    dsimp only
    rw [member]
    dsimp only
    rw [if_neg (by simp [en, chunk, len, round])]
    repeat' split
    all_goals rfl
  case broadcast =>
    intro s u p i m hp take member en chunk len round go
    show execBroadcastLanding p s = _
    unfold execBroadcastLanding
    rw [if_neg (by simp [go]; omega), take]
    dsimp only
    rw [member]
    dsimp only
    rw [if_neg (by simp [en, chunk, len, round])]
    repeat' split
    all_goals rfl
  case window =>
    intro s p hp past open_
    exact (if_neg (by omega)).trans (if_pos ⟨past, by rw [open_]; rfl⟩)
  case windowNext =>
    intro s p hp quiet past open_
    refine (if_neg (by omega)).trans ((if_neg ?_).trans (if_pos ⟨past, by rw [open_]; rfl⟩))
    rintro ⟨h1, h2⟩
    obtain q | q := quiet
    · exact Bool.eq_false_iff.mp q h1
    · simp [q] at h2
  case bcastWindow =>
    intro s p hp past open_
    show execBroadcastWindowClose p s = _
    unfold execBroadcastWindowClose
    rw [if_neg (by omega)]
    exact if_neg (by rw [past, open_]; simp)
  case sumDecided =>
    intro s core n x h hcore found slot e check dec a
    exact (exec_ownerSumStart_of_sum hcore found slot).trans (exec_ownerSum_of_decision e check dec a)
  case sumLate =>
    intro s core n x h hcore found slot e check dec missing late a
    exact (exec_ownerSumStart_of_sum hcore found slot).trans (exec_ownerSum_of_late e check dec missing late a)
  case sumRuns =>
    intro s core n x h b e hd hcore found slot g check dec landed engine shard reads writes a
    exact (exec_ownerSumStart_of_sum hcore found slot).trans
      (exec_ownerSum_of_landed g check dec landed engine shard reads writes a)
  case votet =>
    intro s core x hcore found unopened
    show execOwnerSumVotetExpiry core s = _
    unfold execOwnerSumVotetExpiry
    rw [if_neg (by omega)]
    dsimp only
    rw [found]
    exact if_neg (Bool.eq_false_iff.mp unopened)
  case voteReady =>
    intro s p hp en vote voted dec late digest ready go
    refine (if_neg (by simp [go]; omega)).trans (congrArg _ (if_pos ?_))
    simp [en, vote, voted, dec, late, digest, ready]
  case vote =>
    intro s u p i m hp take member en len who coord takes
    show execVoteReceive p s = _
    unfold execVoteReceive
    rw [if_neg (by omega), take]
    dsimp only
    rw [member]
    dsimp only
    rw [if_neg (by simp [en, len, who]), if_neg (not_not_intro coord), if_neg (by rw [takes]; simp)]
  case voteTimeout =>
    intro s p hp en coord voted undecided dec past
    refine (if_neg (by omega)).trans (congrArg _ (if_pos ?_))
    exact ⟨en, coord, voted, by rw [undecided]; rfl, dec, past⟩
  case decision =>
    intro s u p i m hp take member en len coord out awaited dec
    exact (exec_decisionReceive_of_awaited hp take member en len coord out awaited).trans (congrArg _ (if_pos dec))
  case decisionEarly =>
    intro s u p i m hp take member en len coord out awaited dec
    exact (exec_decisionReceive_of_awaited hp take member en len coord out awaited).trans (congrArg _ (if_neg dec))
  case decisionTimeout =>
    intro s p v hp vote voted dec past
    show execDecisionTimeout p s = _
    unfold execDecisionTimeout
    rw [if_neg (by omega)]
    dsimp only
    rw [vote]
    exact if_neg (by simp [voted, dec, past])
  case ring =>
    intro s u p m hp take en member fits whole ok go
    show execRingLanding p s = _
    unfold execRingLanding
    rw [if_neg (by simp [go]; omega), take]
    dsimp only
    rw [if_neg (by simp [en, member, fits, whole]), ok]
  case credit =>
    intro s u p m hp take en member len
    show execRingCredit p s = _
    unfold execRingCredit
    rw [if_neg (by omega), take]
    dsimp only
    rw [if_neg (by simp [en, member, len])]
  case group =>
    intro s who p v d hp owner idle en desc
    show execCollGrpWrite who p v s = _
    unfold execCollGrpWrite
    rw [if_neg (by omega), if_neg (by simp [owner, idle])]
    dsimp only
    rw [if_neg (by rw [en]; simp), desc]
    exact (apply_ite Host.Outcome.next _ _ _).symm
  case state =>
    intro s who p v hp owner off
    exact (if_neg (by omega)).trans (if_neg (by simp [owner, off]))

end Sys2Proof.Machine
end

section
/-! SUPPORT. Refill, power windows, limits and cluster clocks (O51, O60): an update of every cluster reads back by
`State.cluster_mapClusters`. -/
set_option Elab.async false
namespace Sys2Proof.Machine
open Sys2Proof

/-- A serving step is due when its DONE word holds the number of the last step and there is something to build (R321). -/
theorem exec_serveStepBoundary_of_due {s : State} {p : Nat} {c : ServeCfg} (hp : p < 64) (cfg : (s.serve p).cfg = some c)
    (done : s.donew p c = some (if (s.serve p).step = 0 then 2 ^ 64 - 1 else (s.serve p).step - 1))
    (work : (s.serve p).outst = true ∨ (s.serve p).arrived = true) (go : s.halts = false) :
    exec (.serveStepBoundary p) s = .next (s.boundary p (s.serve p) c) := by
  show execServeStepBoundary p s = _
  unfold execServeStepBoundary
  rw [if_neg (by simp [go]; omega)]
  dsimp only
  rw [cfg]
  exact if_pos ⟨done, work⟩

theorem exec_clusterGate_of_idle {s : State} {k : Nat} (hk : k < 128) (run : (s.cluster k).clk = .run)
    (idle : s.clusterIdle k = true) : exec (.clusterGate k) s = .next (s.setCluster k { s.cluster k with clk := .gated }) :=
  (if_neg (by omega)).trans (if_pos ⟨run, idle⟩)

/-- A wake event acts while the device is powered and sheds no load, by the state of the cluster's clock (Table 11.6). -/
theorem exec_clusterWake_of_powered {s : State} {k : Nat} (hk : k < 128) (powered : s.powered = true) (shed : s.sup.shed = false) :
    exec (.clusterWake k) s = match (s.cluster k).clk with
      | .pllOff => .next (({ s with pwr := { s.pwr with devState := 3 } } : State).setCluster k { s.cluster k with clk := .locking })
      | .gated => .next (s.setCluster k { s.cluster k with clk := .run })
      | _ => .next s := by
  refine ((if_neg (by omega)).trans (if_neg (by simp [powered, shed]))).trans ?_
  show (match (s.cluster k).clk with | .pllOff => _ | .gated => _ | _ => _) = _
  cases (s.cluster k).clk <;> rfl

theorem exec_pllLock_of_locking {s : State} {k : Nat} (hk : k < 128) (locking : (s.cluster k).clk = .locking) :
    exec (.pllLock k) s = .next (s.setCluster k { s.cluster k with clk := .run }) :=
  (if_neg (by omega)).trans (if_pos locking)

/-- A gated, idle cluster with a PLL-off time turns its PLL off; the last one makes the device READY (Tables 11.6 and 11.7). -/
theorem exec_pllOff_of_gated {s : State} {k : Nat} (hk : k < 128) (gated : (s.cluster k).clk = .gated)
    (set_ : (s.cluster k).plloff ≠ 0) (idle : s.clusterIdle k = true) :
    exec (.pllOff k) s = .next
      (let u := s.setCluster k { s.cluster k with clk := .pllOff }
       if u.pwr.devState = 3 ∧ ((List.range 128).all fun j => (u.cluster j).clk == .pllOff) = true then
         { u with pwr := { u.pwr with devState := 2 } }
       else u) := (if_neg (by omega)).trans (if_pos ⟨gated, set_, idle⟩)

/-- A write of PWR_CAP by the management port's physical function (Table 11.11). -/
theorem exec_pwrCapWrite_of_mgmt {s : State} {port : Nat} (v : W64) (mgmt : port = s.mgmt) :
    exec (.pwrCapWrite (.host port 0) v) s = .next
      (let r := if (bits v.toNat 11 0 < 1200 || 3000 < bits v.toNat 11 0) = true then (false, s) else s.setCap (bits v.toNat 11 0)
       if r.1 then r.2 else { s with pwr := { s.pwr with capref := true } }) := by
  subst mgmt
  show execPwrCapWrite (.host s.mgmt 0) v s = _
  unfold execPwrCapWrite
  exact if_neg (by simp)

/-- Settles O51: the refill by `refill_tick`, the windows by what they make of every cluster, and the rest by their branch. -/
theorem powerEventsComplete : Obligations.PowerEventsComplete := by
  unfold Obligations.PowerEventsComplete
  refine ⟨?refill, ?reservation, ?window, ?limit, ?unlimit, ?thermal, ?gate, ?wakePll, ?wakeGated, ?pllOff, ?pllLock, ?cap, ?capRefused,
    ?serve⟩
  case refill => exact refill_tick
  case reservation =>
    intro s core n hcore hn cause skips none_ go
    exact (if_neg (by simp [go]; omega)).trans (if_pos ⟨cause, skips, none_⟩)
  case window =>
    intro s pin nc
    exact ⟨_, rfl, rfl, rfl, fun k hk => State.cluster_mapClusters _ _ hk⟩
  case limit =>
    intro s mean off high
    exact ⟨_, if_pos ⟨by rw [off]; rfl, high⟩, rfl, fun k hk => State.cluster_mapClusters _ _ hk⟩
  case unlimit =>
    intro s mean on low
    exact ⟨_, (if_neg (by simp [on])).trans (if_pos ⟨on, low⟩), rfl, fun k hk => State.cluster_mapClusters _ _ hk⟩
  case thermal =>
    intro s r inside powered
    exact ⟨_, if_neg (by rw [inside]; simpa using powered), rfl, rfl, fun k hk => State.cluster_mapClusters _ _ hk⟩
  case gate => exact fun s k hk run idle => exec_clusterGate_of_idle hk run idle
  case wakePll =>
    intro s k hk powered shed off
    rw [exec_clusterWake_of_powered hk powered shed, off]
  case wakeGated =>
    intro s k hk powered shed gated
    rw [exec_clusterWake_of_powered hk powered shed, gated]
  case pllOff => exact fun s k hk gated set_ idle => exec_pllOff_of_gated hk gated set_ idle
  case pllLock => exact fun s k hk locking => exec_pllLock_of_locking hk locking
  case cap =>
    intro s port v mgmt low high fits
    have range : ¬((bits v.toNat 11 0 < 1200 || 3000 < bits v.toNat 11 0) = true) := by simp; omega
    have taken : s.setCap (bits v.toNat 11 0) = (true, { s with pwr := { s.pwr with capNext := some (bits v.toNat 11 0) } }) :=
      if_neg (by omega)
    refine (exec_pwrCapWrite_of_mgmt v mgmt).trans (congrArg _ ?_)
    dsimp only
    rw [if_neg range, taken]
    rfl
  case capRefused =>
    intro s port v mgmt bad
    have refused : (if (bits v.toNat 11 0 < 1200 || 3000 < bits v.toNat 11 0) = true then (false, s)
        else s.setCap (bits v.toNat 11 0)).1 = false := by
      split
      · rfl
      · next inside =>
        rw [Bool.or_eq_true, decide_eq_true_eq, decide_eq_true_eq] at inside
        exact congrArg Prod.fst (if_pos (by omega) : s.setCap (bits v.toNat 11 0) = (false, s))
    exact (exec_pwrCapWrite_of_mgmt v mgmt).trans (congrArg _ (if_neg (Bool.eq_false_iff.mp refused)))
  case serve => exact fun s p c hp cfg done work go => exec_serveStepBoundary_of_due hp cfg done work go

/-- What an event on a cluster's clock leaves: the clock that its table names, and every other cluster as it was. -/
def ClockBecomes (s t : State) (k : Nat) (clk : ClkSt) : Prop :=
  (t.cluster k).clk = clk ∧ ∀ j, j ≠ k → t.cluster j = s.cluster j

theorem clockBecomes_still (s : State) (k : Nat) : ClockBecomes s s k (s.cluster k).clk := ⟨rfl, fun _ _ => rfl⟩

theorem clockBecomes_set (s : State) (k : Nat) (clk : ClkSt) :
    ClockBecomes s (s.setCluster k { s.cluster k with clk := clk }) k clk := by
  refine ⟨?_, fun j h => Tab.get_put_other _ _ _ h⟩
  rw [State.cluster_setCluster]

/-- Settles O60: in each event the state of the clock selects the branch, and each branch sets one cluster at most. -/
theorem clusterClocksFollowTheirTable : Obligations.ClusterClocksFollowTheirTable := by
  unfold Obligations.ClusterClocksFollowTheirTable
  refine ⟨?gate, ?wake, ?pllOff, ?pllLock⟩
  case gate =>
    intro s k hk
    by_cases c : (s.cluster k).clk = .run ∧ s.clusterIdle k = true
    · rw [if_pos c]
      exact ⟨_, exec_clusterGate_of_idle hk c.1 c.2, clockBecomes_set s k .gated⟩
    · rw [if_neg c]
      exact ⟨s, (if_neg (by omega)).trans (if_neg c), clockBecomes_still s k⟩
  case wake =>
    intro s k hk
    by_cases c : s.powered = true ∧ s.sup.shed = false
    · rw [if_pos c, exec_clusterWake_of_powered hk c.1 c.2]
      cases clk : (s.cluster k).clk with
      | pllOff => exact ⟨_, rfl, clockBecomes_set _ k .locking⟩
      | gated => exact ⟨_, rfl, clockBecomes_set s k .run⟩
      | locking => exact ⟨s, rfl, clk, fun _ _ => rfl⟩
      | run => exact ⟨s, rfl, clk, fun _ _ => rfl⟩
    · rw [if_neg c]
      refine ⟨s, (if_neg (by omega)).trans (if_pos ?_), clockBecomes_still s k⟩
      cases hp : s.powered <;> cases hs : s.sup.shed <;> simp_all
  case pllOff =>
    intro s k hk
    by_cases c : (s.cluster k).clk = .gated ∧ (s.cluster k).plloff ≠ 0 ∧ s.clusterIdle k = true
    · rw [if_pos c]
      refine ⟨_, exec_pllOff_of_gated hk c.1 c.2.1 c.2.2, ?_⟩
      dsimp only
      split <;> exact clockBecomes_set s k .pllOff
    · rw [if_neg c]
      exact ⟨s, (if_neg (by omega)).trans (if_neg c), clockBecomes_still s k⟩
  case pllLock =>
    intro s k hk
    by_cases c : (s.cluster k).clk = .locking
    · rw [if_pos c]
      exact ⟨_, exec_pllLock_of_locking hk c, clockBecomes_set s k .run⟩
    · rw [if_neg c]
      exact ⟨s, (if_neg (by omega)).trans (if_neg c), clockBecomes_still s k⟩

end Sys2Proof.Machine
end

section
/-! SUPPORT. Packets of identity, power, partitions and page tables (O52): what each does once its own checks hold. -/
set_option Elab.async false
namespace Sys2Proof.Machine
open Sys2Proof

/-- A packet whose common checks hold does what its body answers. -/
theorem packet_of_some {s u t : State} {op port ring : Nat} {k : Pkt} {body : Pkt → State → Option State}
    (h : takes s u op port ring k) (e : body k u = some t) : packet op port ring s body = .next t := by
  rw [packet_of_takes h, e]

/-- Settles O52: each packet by the branch that its own checks select. -/
theorem queryPacketsComplete : Obligations.QueryPacketsComplete := by
  unfold Obligations.QueryPacketsComplete
  refine ⟨?identify, ?caps, ?cap, ?roleHeld, ?roleMoves, ?power, ?create, ?destroy, ?query, ?map, ?unmapPool, ?unmap, ?resolve⟩
  case identify =>
    intro s u port ring k h v d
    show execIdentify port ring s = _
    refine packet_of_some h ?_
    exact (apply_ite some _ _ _).symm
  case caps =>
    intro s u port ring k h long
    show execGetCaps port ring s = _
    refine packet_of_some h ?_
    rw [if_neg (by omega)]
  case cap =>
    intro s u port ring k h low high
    show execSetPowerCap port ring s = _
    refine packet_of_some h ?_
    dsimp only
    rw [if_neg (by omega)]
    unfold State.setCap
    split <;> rfl
  case roleHeld =>
    intro s u port ring k h same
    show execGrantMgmt port ring s = _
    refine packet_of_some h ?_
    dsimp only
    rw [if_pos same]
  case roleMoves =>
    intro s u port ring k h other ring_ quiet
    show execGrantMgmt port ring s = _
    refine packet_of_some h ?_
    dsimp only
    rw [if_neg other, if_neg (by rw [ring_]; simp), if_neg (Bool.eq_false_iff.mp quiet)]
  case power =>
    intro s u port ring k h
    show execPowerState port ring s = _
    exact packet_of_some h rfl
  case create =>
    intro s u port ring k h ok
    show execPartCreate port ring s = _
    refine packet_of_some h ?_
    dsimp only
    rw [ok]
  case destroy =>
    intro s u port ring k h live
    show execPartDestroy port ring s = _
    exact packet_of_some h (if_neg (Bool.eq_false_iff.mp live))
  case query =>
    intro s u port ring k h
    show execPartQuery port ring s = _
    refine packet_of_some h ?_
    exact (apply_ite some _ _ _).symm
  case map =>
    intro s u port ring k v l h ok read fails pends quota
    show execMapPages port ring s = _
    refine packet_of_some h ?_
    dsimp only
    rw [if_neg (by rw [ok]; simp), read]
    dsimp only
    rw [fails]
    dsimp only
    rw [if_neg (Bool.eq_false_iff.mp pends), if_neg (by rw [quota]; simp)]
  case unmapPool =>
    intro s u port ring k h ok pool
    show execUnmap port ring s = _
    refine packet_of_some h ?_
    dsimp only
    rw [if_neg (by rw [ok]; simp), if_pos pool]
  case unmap =>
    intro s u port ring k h ok entries inside
    show execUnmap port ring s = _
    refine packet_of_some h ?_
    dsimp only
    rw [if_neg (by rw [ok]; simp), if_neg (Bool.eq_false_iff.mp entries), if_neg (by omega)]
  case resolve =>
    intro s u port ring k h answered
    show execFaultResolve port ring s = _
    refine packet_of_some h ?_
    dsimp only
    rw [if_neg (Bool.eq_false_iff.mp answered)]

end Sys2Proof.Machine
end


section
/-! SUPPORT. Packets that load, launch, preempt, step, serve and test (O53): what each does once its own checks hold. -/
set_option Elab.async false
namespace Sys2Proof.Machine
open Sys2Proof

/-- The body of PEER_TABLE_SET once its table is read and in form: the count of entries is all that is left to check. -/
theorem peers_in_form {P A B C D : Prop} {n : Nat} {a b c : α} [Decidable P] [Decidable (n ≠ 0 ∧ (A ∨ B ∨ C ∨ D))]
    (ok : n = 0 ∨ ¬ A ∧ ¬ B ∧ ¬ C ∧ ¬ D) (room : ¬ P) :
    (if n ≠ 0 ∧ (A ∨ B ∨ C ∨ D) then a else if P then b else c) = c := by
  rw [if_neg (by tauto), if_neg room]

theorem coreRun_isEmpty {first n : Nat} (h : n ≠ 0) : (coreRun first n).isEmpty = false := by
  obtain ⟨m, rfl⟩ := Nat.exists_eq_succ_of_ne_zero h
  simp [coreRun, rangeIn]

/-- Settles O53: each packet by the branch that its own checks select. -/
theorem workPacketsComplete : Obligations.WorkPacketsComplete := by
  unfold Obligations.WorkPacketsComplete
  refine ⟨?load, ?loadEnd, ?launch, ?preempt, ?resume, ?stepBegin, ?stepStatus, ?peers, ?serve, ?serveOff, ?batch, ?bundle, ?test,
    ?testIdle, ?faultLog⟩
  case load =>
    intro s u port ring k h len off count room clear own
    show execLoadStreams port ring s = _
    refine packet_of_some h ?_
    dsimp only
    rw [if_neg (by rw [own]; simp), if_neg (by rw [len, off, coreRun_isEmpty count, clear]; simp; omega)]
  case loadEnd =>
    intro s port ring l hp hr first on
    show execLoadStreamsComplete port ring s = _
    unfold execLoadStreamsComplete
    rw [if_neg (by rw [on]; simp; omega), first]
    dsimp only
    split <;> (rename_i e; simp only [e])
  case launch =>
    intro s u port ring k v rs h ok own recs take each free
    show execLaunch port ring s = _
    refine packet_of_some h ?_
    dsimp only
    rw [if_neg (by rw [ok]; simp), if_neg (by rw [own]; simp), recs]
    dsimp only
    rw [← take, if_neg (by rw [each]; simp), if_neg (Bool.eq_false_iff.mp free)]
  case preempt =>
    intro s u port ring k h guest own
    show execPreempt port ring s = _
    refine packet_of_some h ?_
    dsimp only
    rw [if_neg (by rw [own]; simpa using guest)]
    exact (apply_ite some _ _ _).symm
  case resume =>
    intro s u port ring k h own
    show execResume port ring s = _
    exact packet_of_some h (if_neg (by rw [own]; simp))
  case stepBegin =>
    intro s u port ring k h en own step idle
    show execStepBegin port ring s = _
    refine packet_of_some h ?_
    dsimp only
    rw [if_neg (by rw [en, own]; simp), if_neg (not_not.mpr step), if_neg (Bool.eq_false_iff.mp idle)]
  case stepStatus =>
    intro s u port ring k h
    show execStepStatus port ring s = _
    exact packet_of_some h rfl
  case peers =>
    intro s u port ring k v l h read form room
    show execPeerTableSet port ring s = _
    refine packet_of_some h ?_
    dsimp only
    rw [read]
    dsimp only
    refine peers_in_form (form.imp_right fun ⟨zero, ok, once, free⟩ => ?_) (by omega)
    rw [zero, ok, once, free]
    simp
  case serve =>
    intro s u port ring k h on seqs queue ok reach
    show execServeConfig port ring s = _
    refine packet_of_some h ?_
    dsimp only
    rw [if_neg (by rw [on]; simp), if_neg (by rw [seqs, queue]; simp), if_neg (Bool.eq_false_iff.mp on), if_neg (by rw [ok]; simp),
      if_neg (by rw [reach]; simp)]
  case serveOff =>
    intro s u port ring k h off zero seqs queue
    show execServeConfig port ring s = _
    refine packet_of_some h ?_
    dsimp only
    rw [if_neg (by rw [zero]; simp), if_neg (by rw [seqs, queue]; simp), if_pos off]
  case batch =>
    intro s u port ring k w l h some_ atMost read
    show execServeBatch port ring s = _
    refine packet_of_some h ?_
    dsimp only
    rw [if_neg (by omega), read]
    dsimp only
    split <;> (rename_i e; simp only [e])
  case bundle =>
    intro s u port ring k w l h read
    show execTestBundleLoad port ring s = _
    refine packet_of_some h ?_
    dsimp only
    rw [read]
    dsimp only
    split
    · rfl
    · exact (apply_ite some _ _ _).symm
  case test =>
    intro s u port ring k h known
    show execTestRun port ring s = _
    exact packet_of_some h (if_neg (Bool.eq_false_iff.mp known))
  case testIdle =>
    intro s c hc free
    show execTestRunIdleStart c s = _
    exact (if_neg (by omega)).trans (if_neg (by rw [free]; simp))
  case faultLog =>
    intro s u port ring k h some_ atMost
    show execFaultLogRead port ring s = _
    exact packet_of_some h (if_neg (by omega))

end Sys2Proof.Machine
end


section
/-! SUPPORT. Start-up, activation, attestation and the debug port (O54): the branch that each event takes. -/
set_option Elab.async false
namespace Sys2Proof.Machine
open Sys2Proof

/-- IDCODE is the version in front of the fixed part number, manufacturer and low bit of Table 15.12. -/
theorem idcode_version :
    idcode = 0x04A0456F + fld (if Config.stepLetter = 1 ∧ Config.stepDigit = 1 then 1 else Config.idVersion.toNat) 28 := by
  unfold idcode fld
  dsimp only
  omega

/-- Settles O54: each event and packet by the branch that its conditions select. -/
theorem startUpEventsComplete : Obligations.StartUpEventsComplete := by
  unfold Obligations.StartUpEventsComplete
  refine ⟨?rise, ?loss, ?powerUp, ?refReturn, ?timeout, ?reset, ?refLossReset, ?refLoss, ?stage, ?verify, ?activate, ?back, ?quote,
    ?idcode, ?sample, ?extest, ?clamp, ?highz, ?access, ?bypass, ?challenge, ?unlock⟩
  case rise =>
    intro s off
    exact if_neg (not_not.mpr off)
  case loss => exact fun s => rfl
  case powerUp =>
    intro s can
    exact if_neg (by rw [can]; simp)
  case refReturn => exact fun s => rfl
  case timeout =>
    intro s rising keep
    refine (if_neg (by rw [rising]; simp)).trans ?_
    cases e : s.mram.trial with
    | some t => rfl
    | none => exact (apply_ite Host.Outcome.next _ _ _).symm
  case reset =>
    intro s idle on
    exact if_neg (by rw [idle]; simpa using on)
  case refLossReset => exact fun s on => if_pos on
  case refLoss =>
    intro s off low
    exact if_neg (by rw [low]; simp; omega)
  case stage =>
    intro s u port ring k w l v kd h read start fits
    show execFwUpdateStage port ring s = _
    refine packet_of_some h ?_
    dsimp only
    rw [read]
    dsimp only
    rw [start]
    dsimp only
    rw [if_neg (by omega)]
    cases bit (k.n 24 24) 0 with
    | false => rfl
    | true => exact (apply_ite some _ _ _).symm
  case verify =>
    intro s port ring l hp hr first
    show execStageVerificationComplete port ring s = _
    unfold execStageVerificationComplete
    rw [if_neg (by omega), first]
  case activate =>
    intro s u port ring k h quiet now verified
    show execFwActivate port ring s = _
    refine packet_of_some h ?_
    dsimp only
    rw [if_neg (by rw [quiet]; simp), if_neg (Bool.eq_false_iff.mp now), if_neg (by rw [verified]; simp)]
  case back =>
    intro s u port ring k h quiet back slot image
    show execFwActivate port ring s = _
    refine packet_of_some h ?_
    dsimp only
    rw [if_neg (by rw [quiet]; simp), if_pos back, if_neg (not_or.mpr ⟨by omega, image⟩)]
    exact (apply_ite some _ _ _).symm
  case quote =>
    intro s u port ring k h long ok
    show execAttestQuote port ring s = _
    refine packet_of_some h ?_
    rw [if_neg (by omega), if_neg (by rw [ok]; simp)]
  case idcode =>
    intro s
    refine ⟨if Config.stepLetter = 1 ∧ Config.stepDigit = 1 then 1 else Config.idVersion.toNat, ?_, fun b => if_pos b, ?_⟩
    · split
      · decide
      · exact Config.idVersion.isLt
    · rw [← idcode_version]
      rfl
  case sample => exact fun s => rfl
  case extest => exact fun s => rfl
  case clamp => exact fun s => rfl
  case highz => exact fun s => rfl
  case access => exact fun s => rfl
  case bypass => exact fun s => rfl
  case challenge => exact fun s => rfl
  case unlock =>
    intro s t len idle settled
    refine (if_neg (not_not.mpr len)).trans ?_
    dsimp only
    rw [if_neg (by rw [idle, settled]; simp)]
    split <;> rfl

end Sys2Proof.Machine
end


section
/-! SUPPORT. Supplies, hold-up, board inputs and the SMBus (O55): the branch that each event takes, and the answer of an SMBus read. -/
set_option Elab.async false
namespace Sys2Proof.Machine
open Sys2Proof

/-- An SMBus read leaves its word on the bus of a device that answers. -/
theorem smbRead_of_smbus {s : State} (h : s.smbus = true) (v : Nat) : s.smbRead v = { s with busData := BitVec.ofNat 64 v } := if_pos h

theorem State.sampleSupply_smbus (s : State) : s.sampleSupply.smbus = s.smbus := rfl

/-- SAFE_HOLD is left while SAG_IN_N is released. -/
theorem hold_left {s : State} (hold : s.pwr.devState = 5) (released : s.sup.sagIn.active = false) :
    s.pwr.devState = 5 ∧ (!s.sup.sagIn.active) = true := by
  rw [released]
  exact ⟨hold, rfl⟩

/-- Settles O55: each event by the branch that its conditions select. -/
theorem supplyEventsComplete : Obligations.SupplyEventsComplete := by
  unfold Obligations.SupplyEventsComplete
  refine ⟨?sag, ?sagIn, ?shedEnd, ?save, ?sagHeld, ?thermal, ?sealReset, ?sealed, ?recovery, ?collapse, ?therm, ?rearmSag, ?rearmTherm,
    ?rearmReset, ?rearmA, ?rearmB, ?glitch, ?glitchOff, ?faultN, ?devstate, ?hottest, ?power, ?saveStatus, ?bootStatus, ?vin, ?alert,
    ?noAlert, ?unlisted⟩
  case sag => exact fun s on => if_neg on
  case sagIn =>
    intro s idle on
    exact if_neg (by rw [idle]; simpa using on)
  case shedEnd =>
    intro s shed powered idle
    exact if_neg (by rw [shed, powered, idle]; simp)
  case save => exact fun s powered => congrArg _ (if_pos powered)
  case sagHeld =>
    intro s powered active
    exact congrArg _ (if_pos (by rw [powered, active]; rfl))
  case thermal => exact fun s on => if_neg on
  case sealReset => exact fun s saving wait => (if_neg (not_not.mpr saving)).trans (if_pos wait)
  case sealed => exact fun s saving none_ => (if_neg (not_not.mpr saving)).trans (if_neg (Bool.eq_false_iff.mp none_))
  case recovery => exact fun s hold released => congrArg _ (if_pos (hold_left hold released))
  case collapse => exact fun s hold released => congrArg _ (if_pos (hold_left hold released))
  case therm => exact fun s on => congrArg _ (if_neg on)
  case rearmSag => exact fun s on => if_neg on
  case rearmTherm => exact fun s on => if_neg on
  case rearmReset => exact fun s on => if_neg on
  case rearmA => exact fun s on => if_neg on
  case rearmB => exact fun s on => if_neg on
  case glitch => exact fun s i on => if_neg on
  case glitchOff => exact fun s i off => if_pos off
  case faultN => exact fun s => rfl
  case devstate => exact fun s h => congrArg _ (smbRead_of_smbus h _)
  case hottest => exact fun s h => congrArg _ (smbRead_of_smbus h _)
  case power => exact fun s h => congrArg _ (smbRead_of_smbus h _)
  case saveStatus => exact fun s h => congrArg _ (smbRead_of_smbus h _)
  case bootStatus => exact fun s h => congrArg _ (smbRead_of_smbus h _)
  case vin =>
    intro s h
    exact (if_pos h).trans (congrArg _ (smbRead_of_smbus (s.sampleSupply_smbus.trans h) _))
  case alert =>
    intro s h waits
    exact congrArg _ (if_pos (by rw [h, waits]; rfl))
  case noAlert =>
    intro s none_
    exact congrArg _ (if_neg (by rw [none_]; simp))
  case unlisted => exact fun s c _ _ => rfl

end Sys2Proof.Machine
end


section
/-! SUPPORT. Doorbells, rings, messages, resets and functions of the host ports (O56): a doorbell and a ring register by their guards,
  and the branch that each event takes. -/
set_option Elab.async false
namespace Sys2Proof.Machine
open Sys2Proof

section
variable {s : State} {port func ring : Nat} (v : BitVec 32) (hp : port < 2) (hf : func < 16) (hr : ring < 256)
  (answers : s.answers port func = true) (reaches : s.reachesRing port func ring = true) (en : (s.ring port ring).en = true)
include hp hf hr answers reaches en

/-- A submission doorbell of an enabled ring keeps its tail, or sets BADDB. -/
theorem exec_sqTail_of_enabled :
    exec (.sqTail port func ring v) s = .next (s.mapRing port ring fun r =>
      if 2 ^ r.sqsz ≤ v.toNat % 2 ^ 16 then { r with baddb := true } else { r with tailNew := some (v.toNat % 2 ^ 16) }) :=
  (if_neg (by omega)).trans (congrArg _ (if_neg (by rw [answers, reaches, en]; simp)))

/-- A completion doorbell of an enabled ring moves the head within the entries posted, or sets BADDB. -/
theorem exec_cqHead_of_enabled :
    let r := s.ring port ring
    let d := (v.toNat % 2 ^ 16 + 2 ^ r.cqsz - r.cqhead % 2 ^ r.cqsz) % 2 ^ r.cqsz
    let u := s.mapRing port ring fun r => { r with cqhead := r.cqhead + d }
    exec (.cqHead port func ring v) s = .next (if 2 ^ r.cqsz ≤ v.toNat % 2 ^ 16 ∨ r.cqtail - r.cqhead < d then
      s.mapRing port ring fun r => { r with baddb := true }
      else if r.note ∧ r.part ≠ 0xFF then (State.flushNotices 4096 r.part u).admitFaults r.part else u) :=
  (if_neg (by omega)).trans (congrArg _ (if_neg (by rw [answers, reaches, en]; simp)))

end

/-- RING_CTL with EN of an idle ring that function 0 reaches enables it with the fields written. -/
theorem State.ringCfgWrite_enables {s : State} {port ring v : Nat} (reaches : s.reachesRing port 0 ring = true)
    (en : v.testBit 63 = true) (off : (s.ring port ring).en = false) (none_ : (s.ring port ring).outst = 0)
    (ok : s.ringFieldsOk port ring (ringFields (s.ring port ring) v) = true) :
    let r := ringFields (s.ring port ring) v
    let u := s.setRing port ring
      { r with en := true, sqhead := 0, sqtail := 0, cqhead := 0, cqtail := 0, tailNew := none, err := false, stall := false }
    s.ringCfgWrite port 0 ring v =
      if r.note ∧ r.part ≠ 0xFF then (State.flushNotices 4096 r.part u).admitFaults r.part else u := by
  have free : (!(s.ring port ring).en && (s.ring port ring).outst == 0) = true := by rw [off, none_]; rfl
  unfold State.ringCfgWrite
  rw [if_neg (by rw [reaches]; simp)]
  dsimp only
  rw [if_pos rfl, free, if_neg (by rw [ok]; simp), if_pos rfl, if_pos en, if_neg (Bool.eq_false_iff.mp off)]

/-- RING_CTL without EN of an enabled ring disables it with its fields kept. -/
theorem State.ringCfgWrite_disables {s : State} {port func ring v : Nat} (reaches : s.reachesRing port func ring = true)
    (off : v.testBit 63 = false) (en : (s.ring port ring).en = true) :
    s.ringCfgWrite port func ring v = s.setRing port ring { s.ring port ring with en := false } := by
  have busy : (!(s.ring port ring).en && (s.ring port ring).outst == 0) = false := by rw [en]; rfl
  unfold State.ringCfgWrite
  rw [if_neg (by rw [reaches]; simp)]
  dsimp only
  rw [busy, if_neg (by simp), if_neg (Bool.eq_false_iff.mp off), if_neg (by simp)]

/-- A failed completion of at most 4096 bytes of the host space of its port is logged at function 0 and marks its lines. -/
theorem cplFail_of_inside {s : State} {port pa len : Nat} (e : AerEvent) (hp : port < 2) (low : hostBase port ≤ pa)
    (high : pa + len ≤ hostBase (port + 1)) (some_ : 1 ≤ len) (short : len ≤ 4096) :
    let v := s.setFunc port 0 ((s.func port 0).logAer e)
    let u := v.setHport port { v.hport port with cplerr := min 255 ((v.hport port).cplerr + 1) }
    s.cplFail port pa len e = .next { u with cplBad := (linesOf pa len).foldl Keys.add u.cplBad } :=
  if_neg (by omega)

/-- Settles O56: each event by the branch that its conditions select. -/
theorem hostPortCommandsComplete : Obligations.HostPortCommandsComplete := by
  unfold Obligations.HostPortCommandsComplete
  refine ⟨?sqTail, ?sqBad, ?cqHead, ?cqBad, ?service, ?message, ?unmask, ?report, ?enable, ?disable, ?role, ?perst, ?release, ?hot, ?down,
    ?up, ?pfFlr, ?vfFlr, ?vfEnable, ?d3, ?d0, ?ats, ?cplError, ?cplTimeout⟩
  case sqTail =>
    intro s port func ring v hp hf hr answers reaches en fits
    exact (exec_sqTail_of_enabled v hp hf hr answers reaches en).trans
      (congrArg (fun r => Host.Outcome.next (s.setRing port ring r)) (if_neg (by omega)))
  case sqBad =>
    intro s port func ring v hp hf hr answers reaches en far
    exact (exec_sqTail_of_enabled v hp hf hr answers reaches en).trans
      (congrArg (fun r => Host.Outcome.next (s.setRing port ring r)) (if_pos far))
  case cqHead =>
    intro s port func ring d v hp hf hr answers reaches en fits hd posted
    subst hd
    exact (exec_cqHead_of_enabled v hp hf hr answers reaches en).trans (congrArg _ (if_neg (by omega)))
  case cqBad =>
    intro s port func ring v hp hf hr answers reaches en far
    exact (exec_cqHead_of_enabled v hp hf hr answers reaches en).trans (congrArg _ (if_pos (.inl far)))
  case service =>
    intro s port ring hp hr en fine d0 free served idle
    exact (if_neg (by omega)).trans (if_neg (by rw [en, fine, d0, free, served, idle]; simp))
  case message =>
    intro s port func vec hp hf hv pacing
    exact (if_neg (by omega)).trans (if_neg (by rw [pacing]; simp))
  case unmask =>
    intro s port func vec hp hf hv answers
    exact if_neg (by rw [answers]; simp; omega)
  case report =>
    intro s p hp on
    exact if_neg (by rw [on]; simp; omega)
  case enable =>
    intro s port func ring v hr en reaches off none_ f0 ok answers
    subst f0
    exact (if_neg (by omega)).trans (congrArg _ ((if_pos (by rw [en, answers]; rfl)).trans
      (State.ringCfgWrite_enables reaches en off none_ ok)))
  case disable =>
    intro s port func ring v hr off reaches en answers
    exact (if_neg (by omega)).trans (congrArg _ ((if_neg (by rw [off, answers]; simp)).trans
      (State.ringCfgWrite_disables reaches off en)))
  case role => exact fun s pend auto ok => congrArg _ (if_pos ⟨pend, auto, ok⟩)
  case perst =>
    intro s port hp idle on
    exact (if_neg (by omega)).trans (if_neg (Bool.eq_false_iff.mp idle))
  case release => exact fun s port hp => if_neg (by omega)
  case hot => exact fun s port hp => if_neg (by omega)
  case down => exact fun s port hp up => (if_neg (by omega)).trans (if_pos up)
  case up =>
    intro s port speed width hp low high wide free idle second powered
    have allowed : (decide (port = 1) && (num s.boot.recNow 2056 2056).testBit 2) = false := by
      rcases second with rfl | second
      · rfl
      · rw [second, Bool.and_false]
    refine (if_neg (by rw [wide]; simp; omega)).trans ((if_neg ?_).trans (if_neg (by rw [powered]; simp)))
    rw [free, idle, allowed]
    simp
  case pfFlr => exact fun s port hp => if_neg (by omega)
  case vfFlr =>
    intro s port func hp low high
    refine (if_neg (by omega)).trans ?_
    rfl
  case vfEnable =>
    intro s port en n hp hn normal
    refine (if_neg (by rw [normal]; simp; omega)).trans ?_
    dsimp only
    split
    next same => exact congrArg _ (if_neg (Bool.eq_false_iff.mp (by simpa only [Bool.not_eq_true'] using same))).symm
    next gone => exact congrArg _ (if_pos (by simpa only [Bool.not_eq_true', Bool.not_eq_false] using gone)).symm
  case d3 => exact fun s port hp => if_neg (by omega)
  case d0 => exact fun s port hp => if_neg (by omega)
  case ats =>
    intro s port func part va len hp hf answers ats
    exact (if_neg (by omega)).trans (if_neg (by rw [answers, ats]; simp))
  case cplError =>
    intro s port pa len kind hp low high some_ short
    cases kind <;> exact cplFail_of_inside _ hp low high some_ short
  case cplTimeout => exact fun s port pa len hp low high some_ short => cplFail_of_inside _ hp low high some_ short

end Sys2Proof.Machine
end


section
/-! SUPPORT. Losses, recovery, retests, test runs, scrubs and records (O57): the branch that each event takes. -/
set_option Elab.async false
namespace Sys2Proof.Machine
open Sys2Proof

/-- A relaunch that may begin: after a round that stopped it ends the waiting launches, else it starts them again. -/
theorem exec_relaunch_of_may {s : State} {p : Nat} (hp : p < 64) (may : s.mayRelaunch p = true) (powered : s.powered = true) :
    exec (.relaunch p) s = if (s.coll p).en ∧ (s.coll p).dec = 3 then
      .next (((s.waiting p).foldl (fun s l => s.finishLaunch p { l with code := stInternal }) s).lossesEnd p)
      else .next (s.startAgain p) :=
  (if_neg (by omega)).trans (if_neg (by rw [may, powered]; simp))

/-- Settles O57: each event by the branch that its conditions select. -/
theorem faultEventsComplete : Obligations.FaultEventsComplete := by
  unfold Obligations.FaultEventsComplete
  refine ⟨?loss, ?heartbeat, ?stall, ?route, ?again, ?stopped, ?dispatch, ?late, ?lateScratch, ?retest, ?commit, ?testEnd, ?window, ?scrub,
    ?zeroed⟩
  case loss => exact fun s core h => if_neg (by omega)
  case heartbeat =>
    intro s core h on
    exact if_neg (by rw [on]; simp; omega)
  case stall => exact fun s core h => if_neg (by omega)
  case route =>
    intro s some_ powered
    exact if_neg (by rw [some_, powered]; simp)
  case again =>
    intro s p hp may open_ powered
    refine (exec_relaunch_of_may hp may powered).trans (if_neg fun ⟨en, stop⟩ => ?_)
    rcases open_ with off | go
    · exact Bool.eq_false_iff.mp off en
    · exact go stop
  case stopped =>
    intro s p hp may en stop powered
    exact (exec_relaunch_of_may hp may powered).trans (if_pos ⟨en, stop⟩)
  case dispatch =>
    intro s k hk ok
    exact (if_neg (by omega)).trans (if_neg (by rw [ok]; simp))
  case late =>
    intro s pa data place
    show execLateRevokedWrite pa data s = _
    unfold execLateRevokedWrite
    rcases place with hbm | attic
    · rw [hbm]
      exact (apply_ite Host.Outcome.next _ _ _).symm
    · rw [attic]
      exact (apply_ite Host.Outcome.next _ _ _).symm
  case lateScratch =>
    intro s pa c t o data place
    show execLateRevokedWrite pa data s = _
    unfold execLateRevokedWrite
    rw [place]
  case retest =>
    intro s unit fails kind few out testable ut n u
    refine (if_neg (by omega)).trans ((if_neg (by rw [out, testable]; simp)).trans ?_)
    exact (apply_ite Host.Outcome.next _ _ _).symm
  case commit => exact fun s => rfl
  case testEnd =>
    intro s port ring t b hp hr test bundle on
    show execTestRunComplete port ring s = _
    unfold execTestRunComplete
    rw [if_neg (by rw [on]; simp; omega), test]
    dsimp only
    rw [bundle]
  case window => exact fun s => rfl
  case scrub =>
    intro s k hk waits still on x u
    refine (if_neg (by rw [on]; simp; omega)).trans ((if_neg (by rw [waits, still]; simp)).trans ?_)
    show (match (u.cluster k).owner with | none => _ | some p => _) = _
    cases (u.cluster k).owner with
    | none => rfl
    | some p =>
      dsimp only
      split
      · rfl
      · exact (apply_ite Host.Outcome.next _ _ _).symm
  case zeroed =>
    intro s f listed on
    exact if_pos ⟨listed, by rw [on]; rfl⟩

end Sys2Proof.Machine
end


section
/-! SUPPORT. NOP, YIELD, FENCE, WAIT, SIGNAL (O13), loops, calls and jumps (O14), HALT and the timeout of a wait (O15), the reserved
  opcodes (O16): the branch that each command takes at a head that issues. -/
set_option Elab.async false
namespace Sys2Proof.Machine
open Sys2Proof

/-- Settles O13: each command pays its one cycle and has its effect. -/
theorem controlCommandsComplete : Obligations.ControlCommandsComplete := by
  unfold Obligations.ControlCommandsComplete
  refine ⟨?nop, ?yield, ?fence, ?wait, ?signal, ?remote⟩
  case nop => exact fun s core n h e a => (exec_work_of_heads e).trans (congrArg _ (pay_of_affords a))
  case yield => exact fun s core n h e a => (exec_work_of_heads e).trans (congrArg _ (pay_of_affords a))
  case fence => exact fun s core n h e scope a => (exec_work_of_heads e).trans (congrArg _ ((if_neg scope).trans (pay_of_affords a)))
  case wait => exact fun s core n h e a => (exec_work_of_heads e).trans (congrArg _ (pay_of_affords a))
  case signal =>
    intro s core n h e here a
    refine (exec_work_of_heads e).trans (congrArg _ ?_)
    dsimp only
    rw [here, Bool.false_and, if_neg (by simp), pay_of_affords a, if_neg (by simp)]
  case remote =>
    intro s core n h e far open_ room a
    refine (exec_work_of_heads e).trans (congrArg _ ?_)
    dsimp only
    rw [if_neg (by rw [open_, room]; simp), pay_of_affords a, if_pos far]

/-! Loops and jumps (Table 1.7). -/

section
variable {s : State} {core n : Nat} {h : Head}

/-- A LOOP of count 0 whose SKIP names a command in the own scratch goes on behind it when that command is ENDLOOP. -/
theorem exec_loop_of_skip {off : Nat} (e : heads s core n 0x04 h) (zero : cf h.w 43 20 = 0)
    (place : fetchOff (s.core core) h.ctx core h.ptr.base (h.ptr.off + cf h.w 59 44) = .ok off)
    (live : (s.core core).bankIsOff off 16 = false) (on : (s.core core).bankIsOn off 16 = true)
    (clean : s.anyPoison (scrPa core off) 16 = false) :
    exec (.loop core n) s = .next (if (s.rd (scrPa core off)).toNat ≠ 0x05 then s.failed h stIllegalOp
      else s.pay h 0 1 fun s => (s.mapSlot core n fun c => c.goto { h.ptr with off := h.ptr.off + cf h.w 59 44 + 1 }).done h) := by
  refine (exec_work_of_heads e).trans (congrArg _ ?_)
  dsimp only
  rw [if_pos zero, place]
  dsimp only
  rw [if_neg (Bool.eq_false_iff.mp live), if_neg (by rw [on]; simp), if_neg (Bool.eq_false_iff.mp clean)]

/-- A LOOP with a count pushes it, or finds its stack full. -/
theorem exec_loop_of_count (e : heads s core n 0x04 h) (count : cf h.w 43 20 ≠ 0) :
    exec (.loop core n) s = .next (if 4 ≤ h.ctx.loops.length then s.failed h stIllegalOp
      else s.pay h 0 1 fun s => (s.mapSlot core n fun c =>
        ({ c with loops := ⟨cf h.w 43 20, { h.ptr with off := h.ptr.off + 1 }⟩ :: c.loops }).goto
          { h.ptr with off := h.ptr.off + 1 }).done h) :=
  (exec_work_of_heads e).trans (congrArg _ (if_neg count))

/-- An ENDLOOP in a loop ends it on its last pass, else goes back to the body. -/
theorem exec_endloop_of_loop {l : LoopEnt} {t : List LoopEnt} (e : heads s core n 0x05 h) (top : h.ctx.loops = l :: t) :
    exec (.endloop core n) s = .next (s.pay h 0 (if l.count ≤ 1 then 1 else backCycles l.body h.ptr) fun s =>
      (s.mapSlot core n fun c =>
        if l.count ≤ 1 then ({ c with loops := t }).goto { h.ptr with off := h.ptr.off + 1 }
        else ({ c with loops := { l with count := l.count - 1 } :: t }).goto l.body).done h) := by
  refine (exec_work_of_heads e).trans (congrArg _ ?_)
  dsimp only
  rw [top]

/-- The condition of a JUMP or RET with COND: its token, after the waits of the command, is there. -/
def Head.tokenThere (h : Head) : Bool := decide (tok (tokTake h.ctx.tokens (waitMask h.ctx.bank h.w)) (cf h.w 43 40) ≥ 1)

/-- The context that a JUMP or RET takes to its target, the token of its condition taken when CLR says so. -/
def Head.jumped (h : Head) (c : Ctx) (t : Ptr) : Ctx :=
  ({ c with tokens := if cb h.w 39 && cb h.w 44 then tokTake c.tokens (2 ^ cf h.w 43 40) else c.tokens }).goto t

/-- A JUMP, which is not a RET, goes to its target when its condition holds. -/
theorem exec_jump_of_jump (e : heads s core n 0x06 h) (jump : cb h.w 38 = false) :
    exec (.jump core n) s = .next (s.pay h 0 (if (!cb h.w 39 || h.tokenThere) = true then h.jumpCycles (targetOf h.w) else 1) fun s =>
      (s.mapSlot core n fun c => if (!cb h.w 39 || h.tokenThere) = true then h.jumped c (targetOf h.w)
        else c.goto { h.ptr with off := h.ptr.off + 1 }).done h) :=
  (exec_work_of_heads e).trans (congrArg _ (if_neg (Bool.eq_false_iff.mp jump)))

/-- A RET with reserved BASE and TARGET zero pops the call stack when its condition holds. -/
theorem exec_jump_of_ret (e : heads s core n 0x06 h) (ret : cb h.w 38 = true) (zero : cf h.w 37 20 = 0) :
    exec (.jump core n) s = .next (if (!(!cb h.w 39 || h.tokenThere)) = true then
      s.pay h 0 1 fun s => (s.mapSlot core n fun c => c.goto { h.ptr with off := h.ptr.off + 1 }).done h
      else match h.ctx.calls with
        | [] => s.failed h stIllegalOp
        | r :: t =>
          if r.mark then s.failed h stIllegalOp
          else s.pay h 0 (h.jumpCycles r.ret) fun s => (s.mapSlot core n fun c => h.jumped { c with calls := t } r.ret).done h) := by
  refine (exec_work_of_heads e).trans (congrArg _ ?_)
  refine (if_pos ret).trans ((if_neg (not_not.mpr zero)).trans ?_)
  unfold Head.tokenThere Head.jumped
  congr 1

theorem Head.tokenThere_iff : h.tokenThere = true ↔ 1 ≤ tok (tokTake h.ctx.tokens (waitMask h.ctx.bank h.w)) (cf h.w 43 40) :=
  decide_eq_true_iff

theorem Head.tokenThere_of_zero (zero : tok (tokTake h.ctx.tokens (waitMask h.ctx.bank h.w)) (cf h.w 43 40) = 0) :
    h.tokenThere = false :=
  decide_eq_false (by omega)

/-- Without COND a jump leaves the tokens as they are. -/
theorem Head.jumped_plain (c : Ctx) (t : Ptr) (plain : cb h.w 39 = false) : h.jumped c t = c.goto t := by
  unfold Head.jumped
  rw [plain]
  rfl

/-- With COND a jump takes its token when CLR says so. -/
theorem Head.jumped_cond (c : Ctx) (t : Ptr) (cond : cb h.w 39 = true) :
    h.jumped c t = ({ c with tokens := if cb h.w 44 then tokTake c.tokens (2 ^ cf h.w 43 40) else c.tokens }).goto t := by
  unfold Head.jumped
  rw [cond, Bool.true_and]

/-- A RET whose condition holds, with a call on top of the stack, returns to it. -/
theorem exec_jump_returns {r : CallEnt} {t : List CallEnt} (e : heads s core n 0x06 h) (ret : cb h.w 38 = true)
    (zero : cf h.w 37 20 = 0) (taken : (!cb h.w 39 || h.tokenThere) = true) (top : h.ctx.calls = r :: t) (call : r.mark = false)
    (a : affords s h 0 (h.jumpCycles r.ret)) :
    exec (.jump core n) s = .next (((issued s h 0 (h.jumpCycles r.ret)).mapSlot core n
      fun c => h.jumped { c with calls := t } r.ret).done h) := by
  rw [exec_jump_of_ret e ret zero, taken, if_neg (by simp), top]
  dsimp only
  rw [if_neg (Bool.eq_false_iff.mp call), pay_of_affords a]

end

/-- Settles O14: each command by its condition and its stack. -/
theorem loopsCallsAndJumpsComplete : Obligations.LoopsCallsAndJumpsComplete := by
  unfold Obligations.LoopsCallsAndJumpsComplete
  refine ⟨?loop, ?skip, ?last, ?again, ?jump, ?jumpNot, ?jumpCond, ?ret, ?retNot, ?retCond, ?call⟩
  case loop =>
    intro s core n h e count room a
    rw [exec_loop_of_count e count, if_neg (by omega), pay_of_affords a]
  case skip =>
    intro s core n off h e zero place live on clean endloop a
    rw [exec_loop_of_skip e zero place live on clean, if_neg (not_not.mpr endloop), pay_of_affords a]
  case last =>
    intro s core n h l t e top last a
    rw [exec_endloop_of_loop e top]
    simp only [if_pos last]
    rw [pay_of_affords a]
  case again =>
    intro s core n h l t e top more a
    rw [exec_endloop_of_loop e top]
    simp only [if_neg (show ¬ l.count ≤ 1 by omega)]
    rw [pay_of_affords a]
  case jump =>
    intro s core n h e jump plain a
    rw [exec_jump_of_jump e jump]
    simp only [Head.jumped_plain _ _ plain, plain, Bool.not_false, Bool.true_or, if_true]
    rw [pay_of_affords a]
  case jumpNot =>
    intro s core n h e jump cond none_ a
    rw [exec_jump_of_jump e jump]
    simp only [cond, Head.tokenThere_of_zero none_, Bool.not_true, Bool.or_false, Bool.false_eq_true, if_false]
    rw [pay_of_affords a]
  case jumpCond =>
    intro s core n h e jump cond there a
    rw [exec_jump_of_jump e jump]
    simp only [Head.jumped_cond _ _ cond, Head.tokenThere_iff.mpr there, Bool.or_true, if_true]
    rw [pay_of_affords a]
  case ret =>
    intro s core n h r t e ret zero plain top call a
    rw [exec_jump_returns e ret zero (by rw [plain]; rfl) top call a]
    simp only [Head.jumped_plain _ _ plain]
  case retNot =>
    intro s core n h e ret zero cond none_ a
    rw [exec_jump_of_ret e ret zero, if_pos (by rw [cond, Head.tokenThere_of_zero none_]; rfl), pay_of_affords a]
  case retCond =>
    intro s core n h r t e ret zero cond there top call a
    rw [exec_jump_returns e ret zero (by rw [Head.tokenThere_iff.mpr there, Bool.or_true]) top call a]
    simp only [Head.jumped_cond _ _ cond]
  case call =>
    intro s core n h e room a
    exact (exec_work_of_heads e).trans (congrArg _ ((if_neg (by omega)).trans (pay_of_affords a)))

/-- Settles O15: HALT by its CODE, and the timeout of a wait by the time its head has stood. -/
theorem haltAndTimeoutEndTheContext : Obligations.HaltAndTimeoutEndTheContext := by
  unfold Obligations.HaltAndTimeoutEndTheContext
  refine ⟨?halt, ?badCode, ?timeout⟩
  case halt =>
    intro s core n h e code a
    exact (exec_work_of_heads e).trans (congrArg _ ((if_neg (by rw [code]; simp)).trans (pay_of_affords a)))
  case badCode =>
    intro s core n h e code
    exact (exec_work_of_heads e).trans (congrArg _ (if_pos (by rw [code]; rfl)))
  case timeout =>
    intro s core lctx c w hc hl ctx head waits limit long on
    show execWaitTimeout core lctx s = _
    unfold execWaitTimeout
    rw [if_neg (by rw [on]; simp; omega), ctx]
    dsimp only
    rw [head]
    dsimp only
    exact if_pos ⟨waits, by omega, long⟩

/-- Settles O16: each form by the check that it fails. -/
theorem reservedOpcodesEndTheContext : Obligations.ReservedOpcodesEndTheContext := by
  unfold Obligations.ReservedOpcodesEndTheContext
  refine ⟨?reserved, ?loopFull, ?noLoop, ?noCall, ?retFields, ?skip, ?callFull, ?fence⟩
  case reserved =>
    intro s core n h hc hn go first
    show select core n s (workReservedCommand core n s) = _
    unfold workReservedCommand
    rw [if_neg (by omega), go]
    exact if_neg (by rw [first]; simp)
  case loopFull =>
    intro s core n h e count full
    rw [exec_loop_of_count e count, if_pos full]
  case noLoop =>
    intro s core n h e none_
    refine (exec_work_of_heads e).trans (congrArg _ ?_)
    dsimp only
    rw [none_]
  case noCall =>
    intro s core n h e ret zero taken marks
    have goes : (!cb h.w 39 || h.tokenThere) = true := by
      by_contra stays
      rw [Bool.not_eq_true, Bool.or_eq_false_iff, Bool.not_eq_false'] at stays
      exact taken ⟨stays.1, Nat.eq_zero_of_not_pos (of_decide_eq_false stays.2)⟩
    rw [exec_jump_of_ret e ret zero, goes, if_neg (by simp)]
    cases calls : h.ctx.calls with
    | nil => rfl
    | cons r t => exact congrArg _ (if_pos (marks r (by rw [calls]; rfl)))
  case retFields =>
    intro s core n h e ret fields
    exact (exec_work_of_heads e).trans (congrArg _ ((if_pos ret).trans (if_pos fields)))
  case skip =>
    intro s core n off h e zero place live on clean other
    rw [exec_loop_of_skip e zero place live on clean, if_pos other]
  case callFull => exact fun s core n h e full => (exec_work_of_heads e).trans (congrArg _ (if_pos full))
  case fence => exact fun s core n h e scope => (exec_work_of_heads e).trans (congrArg _ (if_pos scope))

end Sys2Proof.Machine
end


section
/-! SUPPORT. The command fetch (O17) and the swaps of contexts (O18): the branch that each event takes. -/
set_option Elab.async false
namespace Sys2Proof.Machine
open Sys2Proof

section
variable {s : State} {core n : Nat} (hc : core < 2048) (hn : n < 8) (lives : (s.slot core n).st = .ready ∨ (s.slot core n).st = .blocked)
  (goes : (s.slot core n).fetchStopped = false) (served : (s.core core).fenced = false) (clock : s.clocked core = true)
include hc hn lives goes served clock

omit hc hn in
/-- The guard of COMMAND_FETCH when the run-ahead fetcher may fetch. -/
theorem fetch_goes :
    ¬ (!((s.slot core n).st == .ready || (s.slot core n).st == .blocked) || (s.slot core n).fetchStopped || (s.core core).fenced ||
      !s.clocked core) = true := by
  have live : ((s.slot core n).st == .ready || (s.slot core n).st == .blocked) = true := by
    rcases lives with e | e <;> rw [e] <;> rfl
  rw [live, goes, served, clock]
  simp

/-- A fetch whose position is out of its bounds keeps the status for the head. -/
theorem exec_commandFetch_of_error {st : Nat}
    (place : fetchOff (s.core core) (s.slot core n) core (s.slot core n).fptr.base (s.slot core n).fptr.off = .error st) :
    exec (.commandFetch core n) s =
      .next (s.enterBuf core n (s.slot core n) { ptr := (s.slot core n).fptr, w := 0, bad := some st }) := by
  refine (if_neg (by omega)).trans ((if_neg (fetch_goes lives goes served clock)).trans ?_)
  show (match fetchOff (s.core core) (s.slot core n) core (s.slot core n).fptr.base (s.slot core n).fptr.off with
    | .error st => _ | .ok off => _) = _
  rw [place]
  rfl

/-- A fetch from a bank that is neither on nor off wakes it; one from a bank that is on reads a clean command of one slot into the
buffer. -/
theorem exec_commandFetch_of_place {off : Nat}
    (place : fetchOff (s.core core) (s.slot core n) core (s.slot core n).fptr.base (s.slot core n).fptr.off = .ok off)
    (live : (s.core core).bankIsOff off 16 = false)
    (clean : (s.core core).bankIsOn off 16 = true → s.anyPoison (scrPa core off) 16 = false ∧
      opcodeOf (BitVec.ofNat 128 (leNat (s.rds (scrPa core off) 16))) ≠ 0xA0) :
    exec (.commandFetch core n) s = .next (if (s.core core).bankIsOn off 16 = true then
      s.enterBuf core n ((s.slot core n).project (s.slot core n).fptr (BitVec.ofNat 128 (leNat (s.rds (scrPa core off) 16))))
        { ptr := (s.slot core n).fptr, w := BitVec.ofNat 128 (leNat (s.rds (scrPa core off) 16)), rep := (s.slot core n).freplay }
      else s.mapCore core fun k => k.arriveAll off 16) := by
  refine (if_neg (by omega)).trans ((if_neg (fetch_goes lives goes served clock)).trans ?_)
  show (match fetchOff (s.core core) (s.slot core n) core (s.slot core n).fptr.base (s.slot core n).fptr.off with
    | .error st => _ | .ok off => _) = _
  rw [place]
  dsimp only
  refine (if_neg (Bool.eq_false_iff.mp live)).trans ?_
  cases on : (s.core core).bankIsOn off 16 with
  | false => exact if_pos rfl
  | true =>
    obtain ⟨noPoison, oneSlot⟩ := clean on
    exact (if_neg (by simp)).trans ((if_neg (Bool.eq_false_iff.mp noPoison)).trans (if_pos oneSlot))

end

/-- Settles O17: the fetch by the bank that it reads. -/
theorem commandFetchFillsTheBuffer : Obligations.CommandFetchFillsTheBuffer := by
  unfold Obligations.CommandFetchFillsTheBuffer
  refine ⟨?fetch, ?wakes, ?bound⟩
  case fetch =>
    intro s core n off w hc hn lives goes served clock place live on clean hw oneSlot
    subst hw
    exact (exec_commandFetch_of_place hc hn lives goes served clock place live fun _ => ⟨clean, oneSlot⟩).trans
      (congrArg _ (if_pos on))
  case wakes =>
    intro s core n off hc hn lives goes served clock place live asleep
    have off_ := Bool.eq_false_iff.mp asleep
    exact (exec_commandFetch_of_place hc hn lives goes served clock place live fun on => absurd on off_).trans (congrArg _ (if_neg off_))
  case bound =>
    intro s core n st hc hn lives goes served clock place
    exact exec_commandFetch_of_error hc hn lives goes served clock place

/-! Swaps (R28 to R32). -/

/-- The image of a context that swapped out for another one is kept, and its slot is that of the incoming one. -/
theorem Core.imageWritten_of_incoming (k : Core) (w : Swap) (c : Ctx) (l : Nat) (into : w.inl = some l)
    (free : Keys.has (if w.hold then Keys.add k.heldL c.lctx else k.heldL) l = false) :
    (k.imageWritten w c).image c.lctx = { c.noted with st := .free, cause := 0, swapouts := c.swapouts + 1, runAt := 0 } ∧
      ((k.imageWritten w c).slot w.slot).st = .swapIn := by
  have comes (k1 : Core) (held : k1.heldL = if w.hold then Keys.add k.heldL c.lctx else k.heldL) : k1.incoming w = some l := by
    unfold Core.incoming
    rw [into, held]
    simp [free]
  unfold Core.imageWritten
  dsimp only
  rw [comes _ rfl]
  exact ⟨Tab.get_put_same .., by simp [Core.slot, Core.setSlot]⟩

section
variable {s : State} {core : Nat} {w : Swap} (hc : core < 2048) (swap : (s.core core).swap = some w) (on : s.halts = false)
include hc swap on

/-- SWAP_IMAGE_WRITE of a victim whose engine work has ended: it waits for bank C1, then drains the slots and writes the image. -/
theorem exec_swapImageWrite_of_swap (first : w.second = false) (idle : (s.core core).midPass ((s.core core).slot w.slot).lctx = false)
    (vec : ((s.core core).vec.any fun v => v.lctx == ((s.core core).slot w.slot).lctx) = false) :
    let c := (s.core core).slot w.slot
    exec (.swapImageWrite core) s = if ((s.core core).bank 5).st ≠ .on then .next (s.mapCore core fun k => k.arrive 5)
      else match s.drainAll core c.lctx (psaveAddr c) with
        | .error va => .next (s.areaFault core c.lctx va 0x4000 2 true)
        | .ok s1 => .next ((s1.writeImage core c).mapCore core fun k => k.imageWritten w c) := by
  show execSwapImageWrite core s = _
  unfold execSwapImageWrite
  rw [if_neg (by rw [on]; simp; omega)]
  dsimp only
  rw [swap]
  dsimp only
  refine (if_neg (by rw [first, idle, vec]; simp)).trans ?_
  split
  · rfl
  · cases s.drainAll core ((s.core core).slot w.slot).lctx (psaveAddr ((s.core core).slot w.slot)) <;> rfl

/-- SWAP_END of an incoming context: it waits for bank C1 and for the banks of the bound tables; a table in a bank that is off ends it. -/
theorem exec_swapEnd_of_incoming {l : Nat} (second : w.second = true) (into : w.inl = some l) :
    let offs := (s.core core).tabOffs ((s.core core).slot w.slot) core
    exec (.swapEnd core) s = if ((s.core core).bank 5).st ≠ .on then .next (s.mapCore core fun k => k.arrive 5)
      else if offs.any fun o => (s.core core).bankIsOff o 8256 then .next ((s.mapCore core Core.noteOff).faultCtx core l stBankOff)
      else if !offs.all fun o => (s.core core).bankIsOn o 8256 then
        .next (s.mapCore core fun k => offs.foldl (fun k o => k.arriveAll o 8256) k)
      else .next ((s.setCore core (s.swappedIn core w l)).badHead core w.slot) := by
  show execSwapEnd core s = _
  unfold execSwapEnd
  rw [if_neg (by rw [on]; simp; omega)]
  dsimp only
  rw [swap]
  dsimp only
  rw [second, into]

end

/-- Settles O18: each event of a swap by its guards. -/
theorem swapsComplete : Obligations.SwapsComplete := by
  unfold Obligations.SwapsComplete
  refine ⟨?block, ?quantum, ?free, ?image, ?written, ?comesIn, ?tableOff, ?tableSleeps, ?imageWakes, ?endWakes, ?overdue⟩
  case block =>
    intro s core v l k hc hk en noSwap noQueue served some_ blocked best victim on
    show execSwapOnBlock core s = _
    unfold execSwapOnBlock
    rw [if_neg (by rw [on]; simp; omega)]
    dsimp only
    rw [← hk, if_neg (by rw [en, noSwap, noQueue, served]; simpa using ⟨some_, blocked⟩), best, victim]
  case quantum =>
    intro s core v l k hc hl hk en noSwap noQueue served due victim on
    show execSwapQuantumExpiry core l s = _
    unfold execSwapQuantumExpiry
    rw [if_neg (by rw [on]; simp; omega)]
    dsimp only
    rw [← hk, if_neg (by rw [en, noSwap, noQueue, served, due]; simp), victim]
  case free =>
    intro s core n l k hc hk en noSwap noQueue served slot best on
    show execFreeSlotAdmission core s = _
    unfold execFreeSlotAdmission
    rw [if_neg (by rw [on]; simp; omega)]
    dsimp only
    rw [← hk, if_neg (by rw [en, noSwap, noQueue, served]; simp), slot, best]
  case image =>
    intro s t core w hc swap first idle vec bank drained on
    rw [exec_swapImageWrite_of_swap hc swap on first idle vec]
    rw [if_neg (not_not.mpr bank), drained]
  case written =>
    intro k w c l into free
    obtain ⟨img, slot⟩ := k.imageWritten_of_incoming w c l into free
    exact ⟨(congrArg Ctx.swapouts img).trans rfl, (congrArg Ctx.tokens img).trans rfl, slot⟩
  case comesIn =>
    intro s core l w hc swap second into bank live awake on
    rw [exec_swapEnd_of_incoming hc swap on second into]
    rw [if_neg (not_not.mpr bank), if_neg (Bool.eq_false_iff.mp live), if_neg (by rw [awake]; simp)]
  case tableOff =>
    intro s core l w hc swap second into bank off on
    rw [exec_swapEnd_of_incoming hc swap on second into]
    rw [if_neg (not_not.mpr bank), if_pos off]
  case tableSleeps =>
    intro s core l w hc swap second into bank live asleep on
    rw [exec_swapEnd_of_incoming hc swap on second into]
    rw [if_neg (not_not.mpr bank), if_neg (Bool.eq_false_iff.mp live), if_pos (by rw [asleep]; rfl)]
  case imageWakes =>
    intro s core w hc swap first idle vec bank on
    rw [exec_swapImageWrite_of_swap hc swap on first idle vec]
    exact if_pos bank
  case endWakes =>
    intro s core l w hc swap second into bank on
    rw [exec_swapEnd_of_incoming hc swap on second into]
    exact if_pos bank
  case overdue =>
    intro s core hc ready goes free long on
    exact (if_neg (by rw [on]; simp; omega)).trans (if_pos (by rw [ready, goes, free]; simpa using long))

end Sys2Proof.Machine
end


section
/-! SUPPORT. What the control core runs: the custom instructions (O19), CTX.CTL (O21), loads and stores of the own scratch (O22) and the
  instructions of RV64GC (O24). -/
set_option Elab.async false
namespace Sys2Proof.Machine
open Sys2Proof

/-! The custom instructions (Tables 1.2 and 1.3). -/

/-- Settles O19: each instruction by its row, and by the condition that stalls it. -/
theorem customInstructionsComplete : Obligations.CustomInstructionsComplete := by
  unfold Obligations.CustomInstructionsComplete
  refine ⟨?push, ?pushFull, ?wait, ?waitStalls, ?signal, ?read, ?counter, ?yield, ?pointer, ?pause, ?resume, ?remote⟩
  case push =>
    intro s core slot len rd rs1 rs2 w e room
    show execWcmdPush core slot w s = _
    unfold execWcmdPush
    rw [custom0_of_executes e rfl]
    exact congrArg _ (if_neg (by omega))
  case pushFull =>
    intro s core slot len rd rs1 rs2 w e full
    show execWcmdPush core slot w s = _
    unfold execWcmdPush
    rw [custom0_of_executes e rfl]
    exact congrArg _ (if_pos full)
  case wait =>
    intro s core slot len rd rs1 rs2 w e met
    show execTokWait core slot w s = _
    unfold execTokWait
    rw [custom0_of_executes e rfl]
    exact congrArg _ (if_neg (by rw [met]; simp))
  case waitStalls =>
    intro s core slot len rd rs1 rs2 w e unmet
    show execTokWait core slot w s = _
    unfold execTokWait
    rw [custom0_of_executes e rfl]
    exact congrArg _ (if_pos (by rw [unmet]; rfl))
  case signal =>
    intro s core slot len rd rs1 rs2 w e
    show execTokSignal core slot w s = _
    unfold execTokSignal
    rw [custom0_of_executes e rfl]
  case read =>
    intro s core slot len rd rs1 rs2 w e
    show execTokRead core slot w s = _
    unfold execTokRead
    rw [custom0_of_executes e rfl]
  case counter =>
    intro s core slot len rd rs1 rs2 w e
    show execCtrRead core slot w s = _
    unfold execCtrRead
    rw [custom0_of_executes e rfl]
  case yield =>
    intro s core slot len rd rs1 rs2 w e
    show execCtxYield core slot w s = _
    unfold execCtxYield
    rw [custom0_of_executes e rfl]
  case pointer =>
    intro s core slot len rd rs1 rs2 w e op
    show execSeqCtlReadPointer core slot w s = _
    exact seqCtl_of_executes e op
  case pause =>
    intro s core slot len rd rs1 rs2 w e op
    show execSeqCtlPause core slot w s = _
    exact seqCtl_of_executes e op
  case resume =>
    intro s core slot len rd rs1 rs2 w e op
    show execSeqCtlResume core slot w s = _
    exact seqCtl_of_executes e op
  case remote =>
    intro s core slot len rd rs1 rs2 w e open_ room
    show execTokRemote core slot w s = _
    unfold execTokRemote
    rw [ccRow_of_executes e]
    exact congrArg _ (if_neg (by rw [open_, room]; simp))

/-! CTX.CTL of the service context (Tables 1.2 and 1.5). -/

/-- A CTX.CTL instruction of context 7 takes the effect of the operation in rs2 behind its own completion. -/
theorem ctxCtl_of_executes {s : State} {core slot len rd rs1 rs2 o : Nat} {w : BitVec 32} {body : Nat → State → State}
    (e : executes s core slot w len (.custom false 0 7 rd rs1 rs2)) (service : slot = 7) (ho : ((s.slot core slot).x rs2).toNat = o)
    (known : o < 4) :
    ctxCtl core slot w s o body = .next (body (((s.slot core slot).x rs1).toNat % 16) ((turn s core slot).ccDone core slot len id)) := by
  have runs : customRuns slot (s.slot core slot) false 0 7 rs2 = true := by
    unfold customRuns
    rw [ho, service]
    simpa using known
  unfold ctxCtl
  rw [custom0_of_executes e runs, if_pos ho]

/-- Settles O21: each operation by the context that it names. -/
theorem contextControlCompletes : Obligations.ContextControlCompletes := by
  unfold Obligations.ContextControlCompletes
  refine ⟨?start, ?stop, ?stopEnded, ?swapOut, ?swapIn⟩
  case start =>
    intro s core slot len rd rs1 rs2 w m e service op free declared
    show execCtxCtlStart core slot w s = _
    refine (ctxCtl_of_executes e service op (by omega)).trans (congrArg _ ?_)
    rw [free]
    exact if_pos declared
  case stop =>
    intro s core slot len rd rs1 rs2 w e service op lives
    obtain ⟨c, hc⟩ := Option.isSome_iff_exists.mp lives
    show execCtxCtlStop core slot w s = _
    refine (ctxCtl_of_executes e service op (by omega)).trans (congrArg _ ?_)
    rw [hc]
  case stopEnded =>
    intro s core slot len rd rs1 rs2 w e service op none_
    show execCtxCtlStop core slot w s = _
    refine (ctxCtl_of_executes e service op (by omega)).trans (congrArg _ ?_)
    rw [none_]
  case swapOut =>
    intro s core slot len rd rs1 rs2 w m e service op found lives
    show execCtxCtlSwapOut core slot w s = _
    refine (ctxCtl_of_executes e service op (by omega)).trans (congrArg _ (congrArg (State.setCore _ core) ?_))
    dsimp only
    rw [found]
    exact if_pos lives
  case swapIn =>
    intro s core slot len rd rs1 rs2 w m e service op free image fresh
    obtain ⟨c, hc⟩ := Option.isSome_iff_exists.mp image
    show execCtxCtlSwapIn core slot w s = _
    refine (ctxCtl_of_executes e service op (by omega)).trans (congrArg _ (congrArg (State.setCore _ core) ?_))
    dsimp only
    rw [free, hc]
    exact if_neg (Bool.eq_false_iff.mp fresh)

/-! Loads and stores of the own scratch (R15, R122 to R125). -/

section
variable {s : State} {core slot len f3 rs1 o view : Nat} {fp : Bool} {off : Int}
  (place : s.ccPlace core slot (ccAddr (s.slot core slot) rs1 off) (rvSize f3) true = .own view o)
include place

/-- A store that lies in a bank of the own core that is on writes the low bytes of its source through its view. -/
theorem State.ccStoreOp_of_own (rs2 : Nat) :
    s.ccStoreOp core slot len fp f3 rs1 rs2 off =
      (s.scrStore view core o (rvSize f3)
        ((if fp then (s.slot core slot).f rs2 else (s.slot core slot).x rs2).toNat % 2 ^ (8 * rvSize f3))
        ((s.slot core slot).tainted (if fp then 32 + rs2 else rs2))).ccDone core slot len id := by
  unfold State.ccStoreOp
  dsimp only
  rw [place]

/-- A load that lies in a bank of the own core that is on reads through its view. -/
theorem State.ccLoadOp_of_own (rd : Nat) :
    s.ccLoadOp core slot len fp f3 rd rs1 off =
      let r := if view = 0 then (leNat (s.rds (scrPa core o) (rvSize f3)), s)
        else s.aliasLoad view core o (rvSize f3) core (s.slot core slot).lctx
      r.2.ccDone core slot len fun c =>
        c.put (if fp then 32 + rd else rd) (loadExt fp f3 r.1) (s.anyPoison (scrPa core o) (rvSize f3)) := by
  unfold State.ccLoadOp
  dsimp only
  rw [place]

end

/-- A store instruction at an address of the view runs as a store. -/
theorem aliasStoreRow_of_executes {s : State} {view core slot len f3 rs1 rs2 : Nat} {w : BitVec 32} {fp : Bool} {off : Int}
    (e : executes s core slot w len (.store fp f3 rs1 rs2 off)) (viewed : viewOf s (ccAddr (s.slot core slot) rs1 off) = some view) :
    aliasStoreRow view core slot w s = .next ((turn s core slot).ccStoreOp core slot len fp f3 rs1 rs2 off) := by
  unfold aliasStoreRow
  rw [ccRow_of_executes e]
  dsimp only
  rw [if_pos viewed]

/-- A load instruction at an address of the view runs as a load. -/
theorem aliasLoadRow_of_executes {s : State} {view core slot len f3 rd rs1 : Nat} {w : BitVec 32} {fp : Bool} {off : Int}
    (e : executes s core slot w len (.load fp f3 rd rs1 off)) (viewed : viewOf s (ccAddr (s.slot core slot) rs1 off) = some view) :
    aliasLoadRow view core slot w s = .next ((turn s core slot).ccLoadOp core slot len fp f3 rd rs1 off) := by
  unfold aliasLoadRow
  rw [ccRow_of_executes e]
  dsimp only
  rw [if_pos viewed]

/-- Settles O22: each access through its view. -/
theorem scratchAccessesComplete : Obligations.ScratchAccessesComplete := by
  unfold Obligations.ScratchAccessesComplete
  refine ⟨?store, ?load, ?setStore, ?setLoad, ?clearStore, ?clearLoad⟩
  case store =>
    intro s core slot len w f3 rs1 rs2 o v fp off e place hv
    subst hv
    show execControlCoreAccess core slot w s = _
    unfold execControlCoreAccess
    rw [ccRow_of_executes e]
    exact congrArg _ (State.ccStoreOp_of_own place rs2)
  case load =>
    intro s core slot len w f3 rd rs1 o fp off e place
    show execControlCoreAccess core slot w s = _
    unfold execControlCoreAccess
    rw [ccRow_of_executes e]
    exact congrArg _ (State.ccLoadOp_of_own place rd)
  case setStore =>
    intro s core slot len w f3 rs1 rs2 o v fp off e viewed place hv
    subst hv
    show execSetAliasStore core slot w s = _
    exact (aliasStoreRow_of_executes e viewed).trans (congrArg _ (State.ccStoreOp_of_own place rs2))
  case setLoad =>
    intro s core slot len w f3 rd rs1 o fp off e viewed place
    show execSetAliasLoad core slot w s = _
    exact (aliasLoadRow_of_executes e viewed).trans (congrArg _ (State.ccLoadOp_of_own place rd))
  case clearStore =>
    intro s core slot len w f3 rs1 rs2 o v fp off e viewed place hv
    subst hv
    show execClearAliasStore core slot w s = _
    exact (aliasStoreRow_of_executes e viewed).trans (congrArg _ (State.ccStoreOp_of_own place rs2))
  case clearLoad =>
    intro s core slot len w f3 rd rs1 o fp off e viewed place
    show execClearAliasLoad core slot w s = _
    exact (aliasLoadRow_of_executes e viewed).trans (congrArg _ (State.ccLoadOp_of_own place rd))

/-! The instructions of RV64GC (R15 to R18). -/

/-- An instruction that is neither a load, a store nor a custom one runs by the plain rules. -/
theorem exec_controlCoreInstruction_of_plain {s : State} {core slot len : Nat} {w : BitVec 32} {op : RvOp} (e : executes s core slot w len op)
    (load : ∀ fp f3 rd rs1 off, op ≠ .load fp f3 rd rs1 off) (store : ∀ fp f3 rs1 rs2 off, op ≠ .store fp f3 rs1 rs2 off)
    (custom : ∀ one f7 f3 rd rs1 rs2, op ≠ .custom one f7 f3 rd rs1 rs2) :
    exec (.controlCoreInstruction core slot w) s = .next ((turn s core slot).ccPlain core slot len op) := by
  show execControlCoreInstruction core slot w s = _
  unfold execControlCoreInstruction
  rw [ccRow_of_executes e]
  cases op with
  | load => exact (load _ _ _ _ _ rfl).elim
  | store => exact (store _ _ _ _ _ rfl).elim
  | custom => exact (custom _ _ _ _ _ _ rfl).elim
  | _ => rfl

/-- The zero register reads 0 whatever is put into it. -/
theorem Ctx.put_zero_x (c : Ctx) (v : W64) (bad : Bool) : (c.put 0 v bad).x 0 = 0 := rfl

/-- Another integer register holds what is put into it. -/
theorem Ctx.put_x_same (c : Ctx) {d : Nat} (v : W64) (bad : Bool) (some_ : 0 < d) (int : d < 32) : (c.put d v bad).x d = v := by
  have put : c.put d v bad = (c.setX d v).setTaint d bad := by unfold Ctx.put; rw [if_pos int]
  have written : (c.setX d v).x d = v := by
    unfold Ctx.setX Ctx.x
    rw [if_neg (by omega), if_neg (by omega)]
    exact Tab.get_put_same ..
  rw [put]
  refine Eq.trans ?_ written
  unfold Ctx.setTaint
  split <;> rfl

/-- Settles O24: each instruction by the plain rules, and the registers by their accessors. -/
theorem controlCoreInstructionsComplete : Obligations.ControlCoreInstructionsComplete := by
  unfold Obligations.ControlCoreInstructionsComplete
  refine ⟨?lui, ?auipc, ?alu, ?alui, ?muldiv, ?jal, ?jalr, ?taken, ?notTaken, ?ecall, ?ebreak, ?x0, ?x⟩
  case lui => exact fun s core slot len w rd i e => exec_controlCoreInstruction_of_plain e nofun nofun nofun
  case auipc => exact fun s core slot len w rd i e => exec_controlCoreInstruction_of_plain e nofun nofun nofun
  case alu => exact fun s core slot len w f3 rd rs1 rs2 alt w32 e => exec_controlCoreInstruction_of_plain e nofun nofun nofun
  case alui => exact fun s core slot len w f3 rd rs1 alt w32 i e => exec_controlCoreInstruction_of_plain e nofun nofun nofun
  case muldiv => exact fun s core slot len w f3 rd rs1 rs2 w32 e => exec_controlCoreInstruction_of_plain e nofun nofun nofun
  case jal => exact fun s core slot len w rd off e => exec_controlCoreInstruction_of_plain e nofun nofun nofun
  case jalr => exact fun s core slot len w rd rs1 off e => exec_controlCoreInstruction_of_plain e nofun nofun nofun
  case taken =>
    intro s core slot len w f3 rs1 rs2 off e yes
    exact (exec_controlCoreInstruction_of_plain e nofun nofun nofun).trans (congrArg _ (if_pos yes))
  case notTaken =>
    intro s core slot len w f3 rs1 rs2 off e no
    exact (exec_controlCoreInstruction_of_plain e nofun nofun nofun).trans (congrArg _ (if_neg (Bool.eq_false_iff.mp no)))
  case ecall =>
    intro s core slot len w e job
    exact (exec_controlCoreInstruction_of_plain e nofun nofun nofun).trans (congrArg _ (if_neg (by omega)))
  case ebreak =>
    intro s core slot len w e job
    exact (exec_controlCoreInstruction_of_plain e nofun nofun nofun).trans (congrArg _ (if_neg (by omega)))
  case x0 => exact fun c v bad => c.put_zero_x v bad
  case x => exact fun c d v bad some_ int => c.put_x_same v bad some_ int

end Sys2Proof.Machine
end


section
/-! SUPPORT. Issue checks that fail (O26), the other matrix commands and the ends of passes and drains (O27), accumulator slots and faults
  of the arrays (O28). -/
set_option Elab.async false
namespace Sys2Proof.Machine
open Sys2Proof

/-! Checks that fail (Tables 2.12 and 3.10). -/

section
variable {s : State} {core n op st : Nat} {h : Head} (e : heads s core n op h)
include e

/-- A matrix command whose plan fails ends its context with the status of the plan. -/
theorem runPass_of_error {plan : State → Head → Except Nat PassPlan} (fails : plan s h = .error st) :
    select core n s (work core n op s fun h s => runPass h s (plan s h)) = .next (s.failed h st) :=
  (exec_work_of_heads e).trans (congrArg _ (congrArg (runPass h s) fails))

/-- A vector command whose plan fails ends its context with the status of the plan. -/
theorem runVec_of_error {plan : State → Head → Except Nat VPlan} (fails : plan s h = .error st) :
    select core n s (work core n op s fun h s => runVec h s (plan s h)) = .next (s.failed h st) :=
  (exec_work_of_heads e).trans (congrArg _ (congrArg (runVec h s) fails))

end

/-- Settles O26: every command runs its plan first. -/
theorem failedChecksEndTheContext : Obligations.FailedChecksEndTheContext := by
  unfold Obligations.FailedChecksEndTheContext
  refine ⟨?mm, ?wide, ?semi, ?dist, ?cmp, ?f32x3, ?drain, ?vop, ?vfunc, ?vderiv, ?vreduce, ?vnorm, ?vsoft, ?vcomp, ?vdecomp, ?vrand, ?vconv,
    ?vdig⟩
  case mm =>
    intro s core n st h e computes fails
    exact (exec_work_of_heads e).trans
      (congrArg _ ((if_neg (Bool.eq_false_iff.mp computes)).trans (congrArg (runPass h s) fails)))
  case wide => exact fun s core n st h e fails => runPass_of_error e fails
  case semi => exact fun s core n st h e fails => runPass_of_error (plan := fun s h => mmPlan s 0x42 h) e fails
  case dist => exact fun s core n st h e fails => runPass_of_error (plan := fun s h => mmPlan s 0x43 h) e fails
  case cmp => exact fun s core n st h e fails => runPass_of_error (plan := fun s h => mmPlan s 0x44 h) e fails
  case f32x3 => exact fun s core n st h e fails => runPass_of_error (plan := fun s h => mmPlan s 0x47 h) e fails
  case drain =>
    intro s core n st h e fails
    refine (exec_work_of_heads e).trans (congrArg _ ?_)
    rw [fails]
  all_goals exact fun s core n st h e fails => runVec_of_error e fails

/-! LOAD_W, DRAIN_ACC, and the ends of passes and drains. -/

/-- Settles O27: each command and event past its checks. -/
theorem matrixCommandsComplete : Obligations.MatrixCommandsComplete := by
  unfold Obligations.MatrixCommandsComplete
  refine ⟨?skipped, ?loadW, ?drainAcc, ?pass, ?drain⟩
  case skipped =>
    intro s core n h c e nowg formats fits
    refine (exec_work_of_heads e).trans (congrArg _ ((if_pos nowg).trans ?_))
    rw [formats]
    exact if_pos fits
  case loadW =>
    intro s core n off h c e cls int place live on a
    refine (exec_work_of_heads e).trans (congrArg _ ?_)
    dsimp only
    rw [cls]
    cases c with
    | f => exact absurd rfl int
    | _ =>
      dsimp only
      rw [place]
      dsimp only
      rw [if_neg (Bool.eq_false_iff.mp live), if_neg (by rw [on]; simp), pay_of_affords a]
  case drainAcc =>
    intro s core n off ph h e plan resident on idle a
    refine (exec_work_of_heads e).trans (congrArg _ ?_)
    dsimp only
    rw [plan]
    dsimp only
    rw [resident]
    dsimp only
    rw [if_neg (by rw [on]; simp), if_neg (by rw [idle]; simp), pay_of_affords a]
  case pass =>
    intro s core p t hc passes on
    show execPassComplete core s = _
    unfold execPassComplete
    rw [if_neg (by rw [on]; simp; omega), passes]
  case drain =>
    intro s core d hc drain earlier on
    show execDrainComplete core s = _
    unfold execDrainComplete
    rw [if_neg (by rw [on]; simp; omega), drain]
    dsimp only
    rw [if_neg (Bool.eq_false_iff.mp earlier)]

/-! Accumulator slots and faults of the arrays (R55, R56, R76, R78). -/

section
variable {s : State} {core n ph : Nat} {x : SpilledAcc} (hc : core < 2048) (hn : n < 8) (open_ : s.farHeld core = false)
  (wanted : ((s.wantedSlots core n).findSome? fun l => (s.core core).isSpilled ((s.core core).slot n).lctx l) = some x)
  (free : (s.core core).freePhys = some ph)
include hc hn open_ wanted free

/-- A spilled slot that a head names and that finds a free place is read from its area; an area that does not translate ends the
context. -/
theorem exec_accSlotReload_of_wanted :
    let c := (s.core core).slot n
    let va := psaveAddr c + x.lslot * 0x4000
    exec (.accSlotReload core n) s = match s.vread (s.pno core) va 0x4000 with
      | .error _ => .next (s.areaFault core c.lctx va 0x4000 2 false)
      | .ok (bs, poison) =>
        .next ((((s.vtake (s.pno core) va 0x4000).ckPages core va 0x4000).chargeData core (256 * 40)).mapCore core fun k =>
          { k.setAcc ph ⟨true, x.kind, n, c.lctx, x.lslot, accVals x.kind bs, poison, k.stamp⟩ with
            spilledAcc := k.spilledAcc.erase x
            stamp := k.stamp + 1 }) := by
  show execAccSlotReload core n s = _
  unfold execAccSlotReload
  rw [if_neg (by omega), if_neg (Bool.eq_false_iff.mp open_)]
  dsimp only
  rw [wanted]
  dsimp only
  rcases s.vread (s.pno core) (psaveAddr ((s.core core).slot n) + x.lslot * 0x4000) 0x4000 with er | ⟨bs, bad⟩ <;> rw [free]

end

/-- A row test that ends on an array under test: without a failing row the passes issue again; a failing row takes the free spare, or
with the spare in use loses the core. -/
theorem exec_rowTestComplete_of_testing {s : State} {core a : Nat} {row : Option Nat} (hc : core < 2048) (ha : a < 4)
    (hr : ∀ r ∈ row, r < 33) (testing : ((s.core core).array a).testing = true) (on : s.halts = false)
    (spare : row = some 32 → ((s.core core).array a).spareOn = true) :
    let k := s.core core
    let ar := k.array a
    exec (.rowTestComplete core a row) s = match (generalizing := false) row with
      | none =>
        let s1 := s.mapCore core fun k => (k.setArray a { ar with testing := false }).reissue
        .next (if thrice k.restart then s1.loseCore core else s1)
      | some r =>
        let s1 := s.inField 1 (s.coreUnit core + fld a 16 + fld r 18) stInternal (if s.pno core = 64 then 0xFF else s.pno core) 0
        if ar.spareOn then .next ((s1.mapCore core fun k => k.setArray a { ar with testing := false }).loseCore core)
        else .next (s1.mapCore core fun k =>
          Core.reissue { k.setArray a { ar with testing := false, spareOn := true, row := r, runtime := true } with
            restart := k.restart.map fun p : Pass => { p with faults := 0 } }) := by
  have known : ¬ (2048 ≤ core ∨ 4 ≤ a ∨ (row.any fun r => decide (33 ≤ r)) = true ∨ s.halts = true) := by
    have inside : (row.any fun r => decide (33 ≤ r)) = false := by
      cases row with
      | none => rfl
      | some r => exact decide_eq_false (by have := hr r rfl; omega)
    rw [inside, on]
    simp
    omega
  have usable : ¬ ((!((s.core core).array a).testing) = true ∨ row = some 32 ∧ (!((s.core core).array a).spareOn) = true) := by
    rintro (idle | ⟨last, none_⟩)
    · rw [testing] at idle
      exact Bool.false_ne_true idle
    · rw [spare last] at none_
      exact Bool.false_ne_true none_
  refine (if_neg known).trans ((if_neg usable).trans ?_)
  cases row <;> rfl

/-- Settles O28: each event past its guards. -/
theorem accumulatorsAndArrayFaults : Obligations.AccumulatorsAndArrayFaults := by
  unfold Obligations.AccumulatorsAndArrayFaults
  refine ⟨?spill, ?reload, ?reloadFault, ?parity, ?rowCheck, ?noRow, ?spare, ?lost⟩
  case spill =>
    intro s core n v hc hn open_ short victim area
    show execAccSlotSpill core n s = _
    unfold execAccSlotSpill
    rw [if_neg (by omega)]
    dsimp only
    rw [if_neg (by rw [open_]; simp; omega), victim]
    dsimp only
    unfold State.spillAcc
    dsimp only
    rw [if_neg (by rw [area]; simp)]
  case reload =>
    intro s core n ph x bs bad hc hn open_ wanted free read
    rw [exec_accSlotReload_of_wanted hc hn open_ wanted free, read]
  case reloadFault =>
    intro s core n ph x er hc hn open_ wanted free read
    rw [exec_accSlotReload_of_wanted hc hn open_ wanted free, read]
  case parity =>
    intro s core a hc ha on
    refine (if_neg (by rw [on]; simp; omega)).trans ?_
    rfl
  case rowCheck =>
    intro s core a hc ha on
    refine (if_neg (by rw [on]; simp; omega)).trans ?_
    rfl
  case noRow =>
    intro s core a hc ha testing on
    exact exec_rowTestComplete_of_testing (row := none) hc ha nofun testing on nofun
  case spare =>
    intro s core a r hc ha hr testing free on
    refine (exec_rowTestComplete_of_testing hc ha (fun q hq => ?_) testing on fun last => ?_).trans (if_neg (Bool.eq_false_iff.mp free))
    · cases hq
      omega
    · cases last
      omega
  case lost =>
    intro s core a r hc ha hr testing used on
    refine (exec_rowTestComplete_of_testing hc ha (fun q hq => ?_) testing on fun _ => used).trans (if_pos used)
    cases hq
    exact hr

end Sys2Proof.Machine
end


section
/-! SUPPORT. Accesses of registers and the bank targets (O31). -/
set_option Elab.async false
namespace Sys2Proof.Machine
open Sys2Proof

/-- A write of a control window register by a writer that reaches the core is the access of its rule. -/
theorem exec_registerWrite_of_reaches {s : State} {who : Who} {core off : Nat} (v : W64) (r : reaches s who core) (low : 0xC0000 ≤ off)
    (high : off < 0x100000) (aligned : off % 8 = 0) :
    exec (.registerWrite who (.win core off) v) s = .next (match s.winWrite who core off v.toNat with
      | .done t => t
      | .refused st => s.refuse who st
      | .wait => s) := by
  obtain ⟨hcore, present, inside⟩ := r
  show execRegisterWrite who (.win core off) v s = _
  unfold execRegisterWrite
  dsimp only
  rw [if_neg (by omega), if_neg (not_not.mpr aligned)]
  refine congrArg _ ((if_neg (by rw [present]; simp)).trans ((if_neg (Bool.eq_false_iff.mp inside)).trans ?_))
  cases s.winWrite who core off v.toNat <;> rfl

/-- A run over one register of BAR0 is the read of that register, cut to 8 bytes. -/
theorem State.bar0Run_one (s : State) (port func off : Nat) :
    s.bar0Run port func off 1 = ((s.bar0Read port func off).1 % 2 ^ 64, (s.bar0Read port func off).2) := by
  simp [State.bar0Run, fld]

/-- All 8 bytes of a register are its low word. -/
theorem ofNat_low_word (v : Nat) : BitVec.ofNat 64 (v % 2 ^ 64 / 2 ^ (8 * 0) % 2 ^ (8 * 8)) = BitVec.ofNat 64 v := by
  refine BitVec.eq_of_toNat_eq ?_
  rw [BitVec.toNat_ofNat, BitVec.toNat_ofNat]
  omega

section
variable {s : State} {port func off : Nat} (hp : port < 2) (hf : func < 16) (answers : s.answers port func = true)
include hp hf answers

/-- A write of BAR0 through a function that answers changes the register, or is logged when it is poisoned. -/
theorem exec_registerWrite_of_answers (len : Nat) (poisoned : Bool) (v : W64) (inside : off < 0x4000000) (aligned : off % 8 = 0) :
    exec (.registerWrite (.host port func) (.bar0 off len poisoned) v) s =
      if poisoned then .next (s.mapFunc port func fun f => f.logAer .poisonedTlp) else .next (s.bar0Write port func off v.toNat) := by
  show execRegisterWrite (.host port func) (.bar0 off len poisoned) v s = _
  unfold execRegisterWrite
  dsimp only
  rw [if_neg (by omega), if_neg (by rw [answers]; simp)]

/-- A read of BAR0 within one register gives the addressed bytes of it, and has the effect of reading the whole register. -/
theorem exec_rcRegisterRead_of_answers {len : Nat} (some_ : 0 < len) (one : off % 8 + len ≤ 8) (inside : off + len ≤ 0x4000000) :
    let x := s.bar0Read port func (off / 8 * 8)
    exec (.rcRegisterRead (.host port func) (.bar0 off len false)) s =
      .next { x.2 with busData := BitVec.ofNat 64 (x.1 % 2 ^ 64 / 2 ^ (8 * (off % 8)) % 2 ^ (8 * len)) } := by
  have single : (off % 8 + len + 7) / 8 = 1 := by omega
  show execRcRegisterRead (.host port func) (.bar0 off len false) s = _
  unfold execRcRegisterRead
  dsimp only
  rw [if_neg (by omega), if_neg (by rw [answers]; simp)]
  unfold State.bar0Bytes
  rw [single, State.bar0Run_one]

end

/-- Reading the counters of a core's scratch clears them (Table 4.13). -/
theorem Core.winClear_scr (k : Core) : k.winClear 0xC4810 = { k with scr := { k.scr with corrected := 0, poisoned := 0, wakes := 0, offrefused := 0 } } :=
  rfl

/-- The core after a read is the one that the read has cleared. -/
theorem State.core_winRead (s : State) (core off : Nat) : (s.winRead core off).2.core core = (s.core core).winClear off := by
  unfold State.winRead
  dsimp only
  split
  next same => exact same.symm
  next => exact State.core_setCore ..

section
variable {s : State} {who : Who} {core b : Nat} (r : reaches s who core) (hb : b < 6)
include r hb

/-- A writer that governs the core sets a bank's target, or is refused by the rules of the target. -/
theorem bankTarget_of_governs (t : Nat) (may : s.mayWrite who core = true) :
    bankTarget who core b t s = if t = 3 ∨ (t = 2 ∧ (s.core core).offRefused b) then .next (s.refuse who stDenied)
      else .next (s.setCore core ((s.core core).setBank b (((s.core core).bank b).retarget t))) := by
  obtain ⟨hcore, present, inside⟩ := r
  unfold bankTarget
  rw [if_neg (by omega), if_neg (by rw [present]; simp), if_neg (Bool.eq_false_iff.mp inside), if_neg (by rw [may]; simp)]
  unfold State.setTarget
  dsimp only
  by_cases bad : t = 3 ∨ (t = 2 ∧ (s.core core).offRefused b)
  · rw [if_pos bad, if_pos bad]
  · rw [if_neg bad, if_neg bad]

/-- A writer that does not govern the core is refused. -/
theorem bankTarget_of_not_mayWrite (t : Nat) (mayNot : s.mayWrite who core = false) :
    bankTarget who core b t s = .next (s.refuse who stDenied) := by
  obtain ⟨hcore, present, inside⟩ := r
  unfold bankTarget
  rw [if_neg (by omega), if_neg (by rw [present]; simp), if_neg (Bool.eq_false_iff.mp inside), if_pos (by rw [mayNot]; rfl)]

end

/-- Settles O31: each access by the register that it names. -/
theorem registerAccessesComplete : Obligations.RegisterAccessesComplete := by
  unfold Obligations.RegisterAccessesComplete
  refine ⟨?write, ?refused, ?bar0, ?poisoned, ?short, ?read, ?bar0Read, ?clears, ?on, ?retention, ?off, ?offRefused, ?onDenied, ?retDenied,
    ?offDenied⟩
  case write =>
    intro s t who core off v r low high aligned done
    rw [exec_registerWrite_of_reaches v r low high aligned, done]
  case refused =>
    intro s core n st tgt off v r low high aligned refused
    rw [exec_registerWrite_of_reaches v r low high aligned, refused]
    rfl
  case bar0 => exact fun s port func off len v hp hf inside aligned answers => exec_registerWrite_of_answers hp hf answers len false v inside aligned
  case poisoned => exact fun s port func off len v hp hf inside aligned answers => exec_registerWrite_of_answers hp hf answers len true v inside aligned
  case short => exact fun s port func off len hp hf some_ one inside answers => exec_rcRegisterRead_of_answers hp hf answers some_ one inside
  case read =>
    intro s who core off r low high aligned
    obtain ⟨hcore, present, inside⟩ := r
    show execRcRegisterRead who (.win core off) s = _
    unfold execRcRegisterRead
    dsimp only
    rw [if_neg (by omega), if_neg (by rw [present]; simp), if_neg (not_not.mpr aligned), if_neg (Bool.eq_false_iff.mp inside)]
    rfl
  case bar0Read =>
    intro s port func off hp hf inside aligned answers
    have whole : off / 8 * 8 = off := by omega
    rw [exec_rcRegisterRead_of_answers hp hf answers (by omega) (by omega) (by omega), whole, aligned, ofNat_low_word]
  case clears =>
    intro s core
    rw [State.core_winRead, Core.winClear_scr]
  case on =>
    intro s who core b ⟨r, may⟩ hb
    exact (bankTarget_of_governs r hb 0 may).trans (if_neg (by simp))
  case retention =>
    intro s who core b ⟨r, may⟩ hb
    exact (bankTarget_of_governs r hb 1 may).trans (if_neg (by simp))
  case off =>
    intro s who core b ⟨r, may⟩ hb allowed
    exact (bankTarget_of_governs r hb 2 may).trans (if_neg (by rw [allowed]; simp))
  case offRefused =>
    intro s core n tgt b ⟨r, may⟩ hb refused
    exact (bankTarget_of_governs r hb 2 may).trans (if_pos (.inr ⟨rfl, refused⟩))
  case onDenied => exact fun s core n tgt b r hb mayNot => bankTarget_of_not_mayWrite r hb 0 mayNot
  case retDenied => exact fun s core n tgt b r hb mayNot => bankTarget_of_not_mayWrite r hb 1 mayNot
  case offDenied => exact fun s core n tgt b r hb mayNot => bankTarget_of_not_mayWrite r hb 2 mayNot

end Sys2Proof.Machine
end


section
/-! SUPPORT. Segments of the vector engine (O33), banks that sleep and wake (O34), remote accesses and signals (O35). -/
set_option Elab.async false
namespace Sys2Proof.Machine
open Sys2Proof

/-- Settles O33: each event past its guards. -/
theorem vectorEventsComplete : Obligations.VectorEventsComplete := by
  unfold Obligations.VectorEventsComplete
  refine ⟨?segment, ?lane, ?suspend, ?resume⟩
  case segment =>
    intro s core r hc run covered on
    show execSegmentStart core s = _
    unfold execSegmentStart
    rw [if_neg (by rw [on]; simp; omega), run]
    dsimp only
    rw [if_neg (by rw [covered]; simp)]
  case lane =>
    intro s core hc on
    exact if_neg (by rw [on]; simp; omega)
  case suspend =>
    intro s core r hc run out on
    show execVectorSuspend core s = _
    unfold execVectorSuspend
    rw [if_neg (by rw [on]; simp; omega)]
    dsimp only
    rw [run]
    exact if_pos out
  case resume =>
    intro s core n r hc hn kept idle lives on
    show execVectorResume core n s = _
    unfold execVectorResume
    rw [if_neg (by rw [on]; simp; omega)]
    dsimp only
    rw [show ((s.core core).slot n).vsusp = some r from kept]
    exact if_pos (by rw [idle]; exact lives)

/-! Banks (Table 4.5, R121). -/

/-- A grant to a guest of a bank that is on, at most one in 64 cycles, performs the oldest request for the bank, or counts when an
engine that does not own the bank works in it. -/
theorem exec_guestGrant_of_on {s : State} {core b : Nat} (hc : core < 2048) (hb : b < 6) (on : ((s.core core).bank b).st = .on)
    (runs : s.clusterRuns (clusterOf core) = true)
    (spaced : (((s.core core).bank b).guestAt.any fun t => decide ((s.core core).clk < t + 25 * 64)) = false) :
    let count (s : State) : State := s.mapCore core fun k =>
      { k.setBank b { k.bank b with guestAt := some k.clk } with scr := { k.scr with guests := sat16 k.scr.guests 1 } }
    exec (.guestGrant core b) s = match (s.canTake core).find? fun m => s.bankFor m == some b with
      | some m => .next (count (s.takeRequest core m))
      | none => if (s.core core).hasGuest core b then .next (count s) else .next s := by
  refine (if_neg (by omega)).trans ((if_neg (by rw [on, runs, spaced]; simp)).trans ?_)
  cases (s.canTake core).find? fun m => s.bankFor m == some b <;> rfl

/-- Settles O34: each transition by the state of its bank. -/
theorem banksSleepAndWake : Obligations.BanksSleepAndWake := by
  unfold Obligations.BanksSleepAndWake
  refine ⟨?idle, ?retention, ?off, ?wake, ?grant, ?noRequest⟩
  case idle =>
    intro s core b hc hb st free timed on
    refine (if_neg (by rw [on]; simp; omega)).trans (congrArg _ (congrArg (State.setCore s core) (if_pos ⟨st, ?_, timed⟩)))
    rw [free]
    rfl
  case retention =>
    intro s core b hc hb st free on
    refine (if_neg (by rw [on]; simp; omega)).trans (congrArg _ (congrArg (State.setCore s core) (if_pos ⟨st, ?_⟩)))
    rw [free]
    rfl
  case off =>
    intro s core b hc hb st free on
    refine (if_neg (by rw [on]; simp; omega)).trans (if_pos ⟨st, ?_⟩)
    rw [free]
    rfl
  case wake =>
    intro s core b hc hb st on
    exact (if_neg (by omega)).trans (if_neg (by rw [st, on]; simp))
  case grant =>
    intro s core b m hc hb st first runs spaced
    rw [exec_guestGrant_of_on hc hb st runs spaced, first]
  case noRequest =>
    intro s core b hc hb st none_ runs spaced
    rw [exec_guestGrant_of_on hc hb st runs spaced, none_]
    exact (apply_ite Host.Outcome.next _ _ _).symm

/-! Remote accesses (R137 to R140, R378). -/

/-- The core to which an answer has come back, its place given back. -/
def Core.tookAnswer (k : Core) (m : RemMsg) (rest : List RemMsg) : Core :=
  { k with
    answers := rest
    outR := if m.isRead then k.outR - 1 else k.outR
    outW := if m.isRead then k.outW else k.outW - 1 }

section
variable {s : State} {core : Nat} {m : RemMsg} {q : List RemMsg} (hc : core < 2048) (on : s.halts = false)
include hc on

/-- The oldest access that a core can take is taken. -/
theorem exec_remoteRequest_of_front (front : s.canTake core = m :: q) : exec (.remoteRequest core) s = .next (s.takeRequest core m) := by
  show execRemoteRequest core s = _
  unfold execRemoteRequest
  rw [if_neg (by rw [on]; simp; omega), front]

/-- The oldest answer gives its place back; one whose command stands completes it, or ends its context. -/
theorem exec_remoteResponse_of_front (front : (s.core core).answers = m :: q) :
    let k1 := (s.core core).tookAnswer m q
    let s1 := s.setCore core k1
    exec (.remoteResponse core) s = if !((s.core core).pend.any fun p => p.id == m.id) then .next s1
      else match m.answer with
        | none => .next s1
        | some (st, v) =>
          if st ≠ stOk then .next (s1.faultCtx core m.lctx st)
          else
            let k2 := if m.isRead then k1.mapCtx m.lctx fun c => { c.put m.rd (m.value v) m.poison with ccLoad := none } else k1
            .next ((s1.setCore core (k2.complete m.id)).badHead core m.slot) := by
  show execRemoteResponse core s = _
  unfold execRemoteResponse
  rw [if_neg (by rw [on]; simp; omega)]
  dsimp only
  rw [front]
  dsimp only
  cases (s.core core).pend.any fun p => p.id == m.id with
  | false => rfl
  | true => cases m.answer <;> rfl

/-- The oldest remote signal is denied when it is another partition's or the core is fenced; else it waits for the pending buffer or
lands. -/
theorem exec_remoteSignalArrival_of_first {lctx mask : Nat} (first : s.firstSignal (s.core core).arriving [] = some m)
    (signal : m.op = .signal lctx mask) :
    exec (.remoteSignalArrival core) s =
      if ((!m.svc && ((s.partOf core).isNone || s.partOf core != s.partOf m.src)) || (s.core core).fenced) = true then
        let s2 := (s.mapCore core fun k =>
            { k with arriving := k.arriving.erase m, scr := { k.scr with remdenied := sat16 k.scr.remdenied 1 } }).mapCore m.src
          fun k => { k with outW := k.outW - 1 }
        .next (if (s.core m.src).pend.any fun p => p.id == m.id then s2.faultCtx m.src m.lctx stDenied else s2)
      else if (s.core core).sigFull lctx then .next s
      else .next (((s.mapCore core fun k => ({ k with arriving := k.arriving.erase m } : Core).signal lctx mask).mapCore m.src
        fun k => ({ k with outW := k.outW - 1 } : Core).complete m.id).badHead m.src m.slot) := by
  show execRemoteSignalArrival core s = _
  unfold execRemoteSignalArrival
  rw [if_neg (by rw [on]; simp; omega)]
  dsimp only
  rw [first]
  dsimp only
  rw [signal]

/-- A signal of another partition is denied. -/
theorem exec_remoteSignalArrival_denied {lctx mask : Nat} (first : s.firstSignal (s.core core).arriving [] = some m)
    (signal : m.op = .signal lctx mask) (job : m.svc = false) (other : s.partOf core ≠ s.partOf m.src) :
    let s2 := (s.mapCore core fun k =>
        { k with arriving := k.arriving.erase m, scr := { k.scr with remdenied := sat16 k.scr.remdenied 1 } }).mapCore m.src
      fun k => { k with outW := k.outW - 1 }
    exec (.remoteSignalArrival core) s =
      .next (if (s.core m.src).pend.any fun p => p.id == m.id then s2.faultCtx m.src m.lctx stDenied else s2) := by
  rw [exec_remoteSignalArrival_of_first hc on first signal, if_pos (by rw [job, bne_iff_ne.mpr other]; simp)]

end

/-- Settles O35: each event by what it finds. -/
theorem remoteAccessesComplete : Obligations.RemoteAccessesComplete := by
  unfold Obligations.RemoteAccessesComplete
  refine ⟨?answer, ?dead, ?held, ?read, ?write, ?refused, ?gone, ?lands, ?denied, ?discarded⟩
  case answer =>
    intro s t core st m q v bad hc front done lives on
    rw [exec_remoteRequest_of_front hc on front]
    unfold State.takeRequest
    dsimp only
    rw [if_neg (by rw [lives]; simp), done]
  case dead =>
    intro s core m q hc front dead on
    rw [exec_remoteRequest_of_front hc on front]
    exact congrArg _ (if_pos (by rw [dead]; rfl))
  case held =>
    intro s core b m q hc front held lives on
    rw [exec_remoteRequest_of_front hc on front]
    unfold State.takeRequest
    dsimp only
    rw [if_neg (by rw [lives]; simp), held]
  case read =>
    intro s core m q v hc front read stands ok on
    rw [exec_remoteResponse_of_front hc on front, if_neg (by rw [stands]; simp), ok]
    dsimp only
    unfold Core.tookAnswer
    rw [if_neg (by simp), read]
    rfl
  case write =>
    intro s core m q v hc front write stands ok on
    rw [exec_remoteResponse_of_front hc on front, if_neg (by rw [stands]; simp), ok]
    dsimp only
    unfold Core.tookAnswer
    rw [if_neg (by simp), write]
    rfl
  case refused =>
    intro s core st m q v hc front stands bad fails on
    refine (exec_remoteResponse_of_front hc on front).trans ((if_neg (by rw [stands]; simp)).trans ?_)
    rw [bad]
    exact if_pos fails
  case gone =>
    intro s core m q hc front gone on
    rw [exec_remoteResponse_of_front hc on front]
    exact if_pos (by rw [gone]; rfl)
  case lands =>
    intro s core lctx mask m hc first signal allowed served room on
    have mine : (!m.svc && ((s.partOf core).isNone || s.partOf core != s.partOf m.src)) = false := by
      rcases allowed with svc | ⟨owned, same⟩
      · rw [svc]
        rfl
      · rw [← same, Option.isNone_eq_false_iff.mpr owned, bne_self_eq_false]
        exact Bool.and_false _
    rw [exec_remoteSignalArrival_of_first hc on first signal, mine, served, if_neg (by simp), if_neg (Bool.eq_false_iff.mp room)]
  case denied =>
    intro s core lctx mask m hc first signal job other stands on
    rw [exec_remoteSignalArrival_denied hc on first signal job other]
    exact congrArg _ (if_pos stands)
  case discarded =>
    intro s core lctx mask m hc first signal job other gone on
    rw [exec_remoteSignalArrival_denied hc on first signal job other]
    exact congrArg _ (if_neg (Bool.eq_false_iff.mp gone))

end Sys2Proof.Machine
end


section
/-! SUPPORT. Page moves, memory errors and losses, the scrub (O41), the update commands (O43), ports of the links (O45). -/
set_option Elab.async false
namespace Sys2Proof.Machine
open Sys2Proof

/-- An error in HBM, its check bytes included, is one of HBM. -/
theorem exec_uncorrectableError_of_hbm {s : State} {pa : Nat} (c : Bool) (place : s.region pa = .hbm ∨ s.region pa = .check) :
    exec (.uncorrectableError pa c) s = .next (s.hbmError pa c) := by
  show execUncorrectableError pa c s = _
  unfold execUncorrectableError
  rcases place with hbm | check
  · rw [hbm]
  · rw [check]

/-- An error in the attic counts per channel when it was corrected, else it poisons its line and counts. -/
theorem exec_uncorrectableError_of_attic {s : State} {pa : Nat} (c : Bool) (place : s.region pa = .attic) :
    exec (.uncorrectableError pa c) s = .next (if c then
      { s with memStat := { s.memStat with atticCorr := Tab.put s.memStat.atticCorr (s.atticChannel pa) (Tab.get 0 s.memStat.atticCorr (s.atticChannel pa) + 1) } }
      else { s with memStat := { s.memStat with atticUnc := sat16 s.memStat.atticUnc 1 }, poison := Keys.add s.poison (pa / 64) }) := by
  show execUncorrectableError pa c s = _
  unfold execUncorrectableError
  rw [place]

/-- Settles O41: each event past its guards. -/
theorem memoryEventsComplete : Obligations.MemoryEventsComplete := by
  unfold Obligations.MemoryEventsComplete
  refine ⟨?walk, ?beyond, ?moved, ?channel, ?hbm, ?attic, ?atticCorrected, ?scratch, ?scratchCorrected, ?scrub⟩
  case walk =>
    intro s die p va hd hp below on
    exact (if_neg (by rw [on]; simp; omega)).trans (if_neg (by omega))
  case beyond =>
    intro s die p va hd hp above
    show execPageWalk die p va s = _
    unfold execPageWalk
    rw [if_pos above, ite_self]
  case moved =>
    intro s p va f d fva e hp moving entry on
    show execMigrationComplete p va s = _
    unfold execMigrationComplete
    rw [if_neg (by rw [on]; simp; omega)]
    dsimp only
    rw [moving, entry]
  case channel =>
    intro s stack pc hs hpc fresh
    exact (if_neg (by omega)).trans (if_neg (Bool.eq_false_iff.mp fresh))
  case hbm => exact fun s pa c place => exec_uncorrectableError_of_hbm c place
  case attic => exact fun s pa place => exec_uncorrectableError_of_attic false place
  case atticCorrected => exact fun s pa place => exec_uncorrectableError_of_attic true place
  case scratch => exact fun s core off hc ho => (if_neg (by omega)).trans (if_neg Bool.false_ne_true)
  case scratchCorrected => exact fun s core off hc ho => (if_neg (by omega)).trans (if_pos rfl)
  case scrub =>
    intro s stack hs on
    exact if_neg (by rw [on]; simp; omega)

/-- Settles O43: each command past its checks is handed over. -/
theorem updateCommandsComplete : Obligations.UpdateCommandsComplete := by
  unfold Obligations.UpdateCommandsComplete
  refine ⟨?update, ?commit, ?discard, ?merge⟩
  case update =>
    intro s core n h e format en a
    exact (exec_work_of_heads e).trans (congrArg _ ((if_neg (by rw [en]; simpa using format)).trans (pay_of_affords a)))
  case commit =>
    intro s core n h e names a
    exact (exec_work_of_heads e).trans (congrArg _ ((if_neg (by rw [names]; simp)).trans (pay_of_affords a)))
  case discard =>
    intro s core n h e names a
    exact (exec_work_of_heads e).trans (congrArg _ ((if_neg (by rw [names]; simp)).trans (pay_of_affords a)))
  case merge =>
    intro s core n off h e en linear here place live on form a
    have legal : ¬ ((!(s.updOf (s.pno core)).en) = true ∨ (h.ctx.pair (cf h.w 21 20)).mode ≠ 0 ∨
        ((h.ctx.pair (cf h.w 21 20)).lim ≠ 0 ∧ (!(h.ctx.pair (cf h.w 21 20)).isLocal core) = true)) := by
      rw [en, linear]
      rcases here with zero | own
      · rw [zero]
        simp
      · rw [own]
        simp
    refine (exec_work_of_heads e).trans (congrArg _ ((if_neg legal).trans ?_))
    rw [place]
    dsimp only
    rw [if_neg (Bool.eq_false_iff.mp live), if_neg (by rw [on]; simp), if_neg (by rw [form]; simp), pay_of_affords a]

/-! Ports (Tables 9.1, 9.12 and 9.16). -/

theorem State.fport_mapPort (s : State) (p : Nat) (f : FabPort → FabPort) : (s.mapPort p f).fport p = f (s.fport p) :=
  Tab.get_put_same ..

/-- A port that is up goes down, with the fault of its lane recorded. -/
theorem State.portDown_of_up {s : State} {p : Nat} (lane : Nat) (up : (s.fport p).up = true) :
    s.portDown p lane = (s.inField 3 lane stInternal 0xFF 0).portFall p :=
  if_neg (by rw [up]; simp)

/-- The end of a FEC window counts, and takes the port down from FECDEG uncorrectable codewords on. -/
theorem exec_fecWindowEnd_of_present {s : State} {p : Nat} (c u : Nat) (hp : p < 64) (present : s.present p = true) :
    let t := s.mapPort p fun x => { x with feccorr := sat16 x.feccorr c, fecunc := sat16 x.fecunc u }
    exec (.fecWindowEnd p c u) s = .next (if (s.fport p).fecdeg ≠ 0 ∧ (s.fport p).fecdeg ≤ u then t.portDown p p else t) := by
  refine (if_neg (by omega)).trans ((if_neg (by rw [present]; simp)).trans ?_)
  dsimp only
  rw [State.fport_mapPort]

/-- Settles O45: each event past its guards. -/
theorem linkEventsComplete : Obligations.LinkEventsComplete := by
  unfold Obligations.LinkEventsComplete
  refine ⟨?up, ?alignment, ?remote, ?fec, ?fecDown, ?retry, ?quad, ?hop, ?request, ?pause, ?watchdog, ?ignore, ?token⟩
  case up =>
    intro s p hp present down lanes quiet
    exact (if_neg (by omega)).trans (if_neg (by rw [present, down, lanes, quiet]; simp))
  case alignment => exact fun s lane hl up => (if_neg (by omega)).trans (congrArg _ (State.portDown_of_up lane up))
  case remote => exact fun s p hp up => (if_neg (by omega)).trans (congrArg _ (State.portDown_of_up p up))
  case fec =>
    intro s p c u hp present few
    exact (exec_fecWindowEnd_of_present c u hp present).trans (congrArg _ (if_neg (by omega)))
  case fecDown =>
    intro s p c u hp present some_ many
    exact (exec_fecWindowEnd_of_present c u hp present).trans (congrArg _ (if_pos ⟨some_, many⟩))
  case retry => exact fun s p hp => if_neg (by omega)
  case quad =>
    intro s who q v hq mgmt mode rate free
    refine (if_neg (by omega)).trans ((if_neg (by rw [mgmt]; simp)).trans ((if_neg (by tauto)).trans (if_neg ?_)))
    rintro ⟨en, stays, -⟩
    rcases free with off | leaves
    · exact Bool.eq_false_iff.mp off en
    · exact Bool.eq_false_iff.mp leaves stays
  case hop => exact fun s p mac hp up => (if_neg (by omega)).trans (congrArg _ (if_pos up))
  case request => exact fun s p hp up => (if_neg (by omega)).trans (congrArg _ (if_pos up))
  case pause =>
    intro s p prio on hp hprio en mine heeds
    exact (if_neg (by omega)).trans (if_neg (by rw [en, mine, heeds]; simp))
  case watchdog =>
    intro s p prio hp hprio paused
    exact (if_neg (by omega)).trans (if_neg (by rw [paused]; simp))
  case ignore => exact fun s p prio hp hprio => if_neg (by omega)
  case token => exact fun s p hp => if_neg (by omega)

end Sys2Proof.Machine
end
